-- ==== Sys2Proof/Word.lean ====
section
/-! DEFINITION. The word types of the module and their plainest arithmetic: 32-bit register words (R14),
bytes (R12) and times in ticks (R8). -/

namespace Sys2Proof

/-- A set-up register or count word is 32 bits wide (R14). -/
abbrev Word := BitVec 32

/-- The smallest unit of the module's memories and packets (R12). -/
abbrev Byte := BitVec 8

/-- A time or a duration in ticks of module time (R8). Times are counted as natural numbers; the
module-time counter itself is kept below 2^64 by the operations that set it. -/
abbrev Tick := Nat

end Sys2Proof
end

