-- ==== Sys2Proof/Syntax.lean ====
section
/-! DEFINITION. The commands of the module: one constructor of `Instr` for each row of
spec/opcode_table.json, in the table's order. The table gives no row an operand; the operands here are
what the rules of each row leave to the world outside the module: the time of arrival of a write, the
written word, which unit, and what a sensor, a line or a memory shows. A word of a sequence program is
named by its core only: the word itself is fetched from the core's program (R61, R67). -/

namespace Sys2Proof

/-- A unit that has an ENABLE bit (R57, R155, R113, R182, R321). -/
inductive UnitId where
  | tone (s : Fin 32) (u : Fin 64)
  | rf (s : Fin 32) (o : Fin 6)
  | bb (s : Fin 32) (c : Fin 16)
  | input (s : Fin 32) (i : Fin 2)
  | monitor (n : Fin 64)
  deriving DecidableEq, Repr

/-- An analogue output of a strand: RF outputs 0 to 5 (4 and 5 are the probe outputs) or a baseband
channel (chapter 05). -/
inductive OutId where
  | rf (s : Fin 32) (o : Fin 6)
  | bb (s : Fin 32) (c : Fin 16)
  deriving DecidableEq, Repr

/-- The wake inputs of R54 other than the timer. -/
inductive WakeSource where
  | button | sync | sideband | perst
  deriving DecidableEq, Repr

/-- Where a stream ran dry (R93, R94): at a playback unit or at a core's word stream. -/
inductive StreamReader where
  | unit (s : Fin 32) (u : Fin 80)
  | core (c : Fin 256)
  deriving DecidableEq, Repr

/-- A decision side-band frame (R210): upward with the local slots whose record fails its check bits, or
downward with whether its CRC-32C passes. -/
inductive SbFrame where
  | up (bad : List (Fin 256))
  | down (crcOk : Bool)
  deriving DecidableEq, Repr

/-- The target of a trigger-output or event-window control write (R331). -/
inductive TrigTarget where
  | out (o : Fin 32)
  | window (w : Fin 32)
  deriving DecidableEq, Repr

/-- Which condition of R255 makes the clock fault. -/
inductive ClkCause where
  | holdover | hub | ply (p : Fin 4)
  deriving DecidableEq, Repr

/-- What the cryptographic engines and the flash reader report of one image slot (R405): the checks whose
arithmetic (SHA-384, ECDSA P-384, AES-256-GCM) stands in other standards, and the microcode plaintext that the decryption
yields, byte 0 first; a byte not listed is 0 (R404). -/
structure ImageCheck where
  digestOk : Bool
  sigOk : Bool
  tagOk : Bool
  plain : List Byte
  readbackOk : Bool
  flashOk : Bool
  deriving DecidableEq, Repr

/-- What a scrubbed word of SRAM shows (R363): no error, a corrected bit, or a double-bit error. -/
inductive SramError where
  | none | single | double
  deriving DecidableEq, Repr

/-- The SRAMs that SEC-DED protects (R363), with the strand they lie in. -/
inductive SramId where
  | seqSram (s : Fin 32)
  | envSram (s : Fin 32)
  | envTable (s : Fin 32)
  | kernelMem (s : Fin 32)
  | tables (s : Fin 32)
  | staging (s : Fin 32)
  | burst
  deriving DecidableEq, Repr

/-- How far the writing of a journal record gets (R387, R390): both copies, copy A only, or copy A torn. -/
inductive JournalCut where
  | both | onlyA | tornA
  deriving DecidableEq, Repr

/-- A correction formed from a step's measurements (R349): gain in units of 10^-6, offset in units of
10^-6 of full scale or range, timing in units of 1 fs. -/
structure Correction where
  gain : Int
  offset : Int
  timing : Int
  deriving DecidableEq, Repr

/-- What the comparator of a baseband channel shows (R150): that the load is an open line, and since when the voltage has been at
the compliance threshold. -/
structure OverVoltage where
  openLine : Bool
  since : BitVec 64
  deriving DecidableEq, Repr

/-- A lane that has locked, and the invalid headers it met while it hunted (R228). -/
structure LockedLane where
  lane : Fin 32
  headers : Nat
  deriving DecidableEq, Repr

/-- What the receiver of a locked lane has met in 64 consecutive blocks (R228, R241): invalid headers, and whether the signal was
lost. -/
structure LockTrouble where
  headers : Nat
  signal : Bool
  deriving DecidableEq, Repr

/-- A lane on which an IDLE_ENTRY block arrives, or leaves (R240). -/
structure IdleLane where
  lane : Fin 32
  sent : Bool
  deriving DecidableEq, Repr

/-- The commands. Every operand `t` is the module time, in ticks, at which the write or event reaches
the hub or the strand (R433); a step whose time the rules fix exactly has none. -/
inductive Instr where
  | mainsOn (t : BitVec 64) (temps : List Int) (fw0 fw1 : ImageCheck) (recOk : Bool)
  | bootEntry (t : BitVec 64)
  | bootComplete (t : BitVec 64) (hbmOk : Bool) (uc0 uc1 : ImageCheck)
  | wakeSource (t : BitVec 64) (src : WakeSource)
  | wakeTimer
  | reqRun (t : BitVec 64) (holdWarn holdRef : Bool)
  | reqHold (t : BitVec 64) (holdWarn holdRef : Bool)
  | reqReady (t : BitVec 64) (holdWarn holdRef : Bool)
  | reqCalibrate (t : BitVec 64) (holdWarn holdRef : Bool)
  | reqTest (t : BitVec 64) (holdWarn holdRef : Bool)
  | reqDormant (t : BitVec 64) (key : BitVec 8) (holdWarn holdRef : Bool)
  | safeAck (t : BitVec 64) (key : BitVec 8) (holdWarn holdRef : Bool)
  | modeReset (t : BitVec 64) (key : BitVec 8) (holdWarn holdRef : Bool)
  | modeTransitionDone (t : BitVec 64)
  | holdPause
  | holdResume
  | safeEntry (t : BitVec 64)
  | plyPolicyWrite (t : BitVec 64) (p : Fin 4) (w : Word)
  | plyLocked (p : Fin 4)
  | plyIdleExpiry (p : Fin 4)
  | plyStopped (p : Fin 4)
  | unitEnable (t : BitVec 64) (u : UnitId) (w : Word)
  | unitDisable (t : BitVec 64) (u : UnitId) (w : Word)
  | outputShutdownDone (o : OutId)
  | strandGated (s : Fin 32)
  | strandUngated (s : Fin 32)
  | strandReset (t : BitVec 64) (s : Fin 32) (key : BitVec 8)
  | strandResetDone (t : BitVec 64) (s : Fin 32)
  | seqArm (t : BitVec 64) (c : Fin 256) (w : Word)
  | seqHaltWrite (t : BitVec 64) (c : Fin 256) (w : Word)
  | swtrig (t : BitVec 64) (c : Fin 256) (w : Word)
  | coreStart (c : Fin 256)
  | halt (c : Fin 256)
  | wait (c : Fin 256)
  | trigwait (c : Fin 256)
  | trigTimeout (c : Fin 256)
  | syncstrand (c : Fin 256)
  | play (c : Fin 256) (chk : Bool)
  | acq (c : Fin 256) (chk : Bool)
  | setstatic (c : Fin 256)
  | setfreq (c : Fin 256)
  | setphase (c : Fin 256)
  | frameadd (c : Fin 256)
  | bight (c : Fin 256)
  | endbight (c : Fin 256)
  | call (c : Fin 256)
  | ret (c : Fin 256)
  | jump (c : Fin 256)
  | jcond (c : Fin 256)
  | streamUnderrun (r : StreamReader)
  | hbmHeadCopyDone (t : BitVec 64) (s : Fin 32) (e : Fin 4096)
  | automuteClose (s : Fin 32) (o : Fin 6)
  | staticWrite (t : BitVec 64) (s : Fin 32) (c : Fin 16) (w : Word)
  | frameWrite (t : BitVec 64) (s : Fin 32) (f : Fin 4096) (w : Word)
  | pdCommit (t : BitVec 64) (s : Fin 32) (c : Fin 16) (w : Word)
  | zoneWrite (t : BitVec 64) (o : OutId) (w : Word)
  | rangeWrite (t : BitVec 64) (o : OutId) (w : Word)
  | rangeSettled (o : OutId)
  | outComply (t : BitVec 64) (s : Fin 32) (c : Fin 16) (v : OverVoltage)
  | complyClear (t : BitVec 64) (s : Fin 32) (c : Fin 16) (w : Word)
  | seqOwnWrite (t : BitVec 64) (s : Fin 32) (u : Fin 80) (w : Word)
  | inputConfigWrite (t : BitVec 64) (s : Fin 32) (i : Fin 2) (w : Word)
  | bandSettled (s : Fin 32) (i : Fin 2)
  | heldWriteApply (t : BitVec 64) (off : BitVec 24)
  | windowComplete (s : Fin 32) (r : Fin 32) (xs : List Int) (clips : List Nat) (parityOk : Bool)
  | rawDrainDone (t : BitVec 64) (s : Fin 32) (i : Fin 2) (samples : List Int)
  | discCommit (t : BitVec 64) (s : Fin 32) (r : Fin 32) (w : Word)
  | resultCommit (t : BitVec 64) (c : Fin 256)
  | earlyRelease (t : BitVec 64) (s : Fin 32)
  | decCommit (t : BitVec 64) (d : Fin 256) (w : Word)
  | importWrite (t : BitVec 64) (p : Fin 4) (k : Fin 128) (w : Word)
  | sidebandFrame (p : Fin 4) (frame : Nat) (f : SbFrame)
  | modnumWrite (t : BitVec 64) (w : Word)
  | directionEnable (t : BitVec 64) (d : Fin 8) (w : Word)
  | blockLock (t : BitVec 64) (l : LockedLane)
  | blockLockLoss (t : BitVec 64) (l : Fin 32) (x : LockTrouble)
  | markBlock (t : BitVec 64) (q : Fin 16) (b : BitVec 64)
  | trainBlock (t : BitVec 64) (l : Fin 32) (b : BitVec 64)
  | hitchContainer (d : Fin 8) (pathB : Bool) (c : Fin 3) (frame : Nat) (payload : Option (BitVec 64))
  | statusBlock (t : BitVec 64) (d : Fin 8) (b : BitVec 64)
  | idleEntry (t : BitVec 64) (l : IdleLane)
  | standbyCheck (t : BitVec 64) (d : Fin 8) (ok : Bool) (delay0 delay1 : BitVec 10)
  | spliceRevert (t : BitVec 64) (d : Fin 8)
  | hchSplice (t : BitVec 64) (d : Fin 8) (w : Word)
  | hchRevert (t : BitVec 64) (d : Fin 8) (w : Word)
  | refLost (t : BitVec 64)
  | refValid (t : BitVec 64)
  | refRestored (t : BitVec 64)
  | clkFault (t : BitVec 64) (cause : ClkCause)
  | refselWrite (t : BitVec 64) (w : Word)
  | epochWrite (t : BitVec 64) (hi : Word)
  | syncArm (t : BitVec 64) (w : Word)
  | syncDisarm (t : BitVec 64) (w : Word)
  | syncPulse (a64 : Nat)
  | chainLaunch (t : BitVec 64)
  | chainPulseSend
  | skewcal (t : BitVec 64) (w : Word)
  | skewcalDone (t : BitVec 64) (returns : List Nat)
  | wallset (t : BitVec 64) (w : Word)
  | snap (t : BitVec 64) (w : Word)
  | ptpEventMessage (t : BitVec 64) (k : Fin 2) (theta : Int)
  | announceTimeout (t : BitVec 64) (k : Fin 2)
  | ptpDomainReturn (t : BitVec 64)
  | ethPortLoss (t : BitVec 64)
  | ethRevert (t : BitVec 64)
  | ethSplice (t : BitVec 64) (w : Word)
  | ethRevertWrite (t : BitVec 64) (w : Word)
  | frameLaunch (t : BitVec 64) (portB : Bool)
  | linkUp (t : BitVec 64) (speed : Fin 6) (width : Fin 17) (ecrc : Bool)
  | linkDown (t : BitVec 64) (perst : Bool)
  | ringEnable (t : BitVec 64) (n : Fin 64) (w : Word)
  | ringDisable (t : BitVec 64) (n : Fin 64) (w : Word)
  | doorbellPoll
  | hifKick (t : BitVec 64) (w : Word)
  | doorbellRead (t : BitVec 64) (n : Fin 64) (recordOk fetchOk : Bool)
  | regwrite (t : BitVec 64) (n : Fin 64) (err : Option Nat)
  | seqload (t : BitVec 64) (n : Fin 64) (err : Option Nat)
  | envload (t : BitVec 64) (n : Fin 64) (err : Option Nat)
  | envtable (t : BitVec 64) (n : Fin 64) (err : Option Nat)
  | kernel (t : BitVec 64) (n : Fin 64) (err : Option Nat)
  | truthtable (t : BitVec 64) (n : Fin 64) (err : Option Nat)
  | hbmxfer (t : BitVec 64) (n : Fin 64) (err : Option Nat)
  | qwrite (t : BitVec 64) (n : Fin 64) (err : Option Nat)
  | qread (t : BitVec 64) (n : Fin 64) (err : Option Nat)
  | qflush (t : BitVec 64) (n : Fin 64) (err : Option Nat)
  | ethsend (t : BitVec 64) (n : Fin 64) (err : Option Nat)
  | nop (t : BitVec 64) (n : Fin 64) (err : Option Nat)
  | completionEntry (t : BitVec 64) (n : Fin 64)
  | queueEnable (t : BitVec 64) (w : Word)
  | queueDisable (t : BitVec 64) (w : Word)
  | queueDisableDone (t : BitVec 64) (q : Fin 32768)
  | queueFlush (t : BitVec 64) (w : Word)
  | flushDone (t : BitVec 64) (q : Fin 32768)
  | monSample (n : Fin 64) (raw : Int)
  | triggerEdge (t : BitVec 64) (i : Fin 32) (level : Bool) (held : Nat)
  | triggerOutWrite (t : BitVec 64) (x : TrigTarget) (w : Word)
  | eventWindowEnd (t : BitVec 64) (v : Fin 32)
  | calDue (t : BitVec 64) (x : Fin 768)
  | calStepStart (t : BitVec 64) (x : Fin 768) (refOk : Bool)
  | calForced (t : BitVec 64) (x : Fin 768)
  | calStepEnd (x : Fin 768)
  | calCorrection (t : BitVec 64) (x : Fin 768) (v : Correction)
  | calApplyBoundary (t : BitVec 64) (x : Fin 768)
  | fgCalDone (t : BitVec 64)
  | scrubRead (t : BitVec 64) (bad : List (Fin 68))
  | flitCrcFail (t : BitVec 64) (p : Fin 4) (failures : Nat)
  | diemarkWrite (t : BitVec 64) (w : Word)
  | memTestStart (t : BitVec 64) (w : Word)
  | memTestAbort (t : BitVec 64) (w : Word)
  | memTestEnd (t : BitVec 64) (fails : Nat) (first : BitVec 64) (symbol : Fin 68)
  | pwrFail (t : BitVec 64)
  | mainsRestored (t : BitVec 64)
  | railFault (t : BitVec 64) (rail : Fin 20)
  | dieSensorRead (t : BitVec 64) (temps : List Int)
  | thermistorRead (t : BitVec 64) (temps : List (Option Int))
  | fanFail (t : BitVec 64) (f : Fin 6)
  | journalRecord (t : BitVec 64) (cut : JournalCut)
  | jrnselWrite (t : BitVec 64) (w : Word)
  | watchdogExpiry (t : BitVec 64) (pc : Word)
  | mcRestartWrite (t : BitVec 64) (key : BitVec 8) (pc : Word)
  | mcRestart (t : BitVec 64) (fw0 fw1 : ImageCheck)
  | imgBegin (t : BitVec 64) (flashOk : Bool)
  | imgData (t : BitVec 64) (flashOk : Bool)
  | imgCommit (t : BitVec 64) (chk : ImageCheck) (flashOk : Bool)
  | imgAbort (t : BitVec 64)
  | svnCommit (t : BitVec 64)
  | recRead (t : BitVec 64)
  | cageRead (t : BitVec 64)
  | profileWrite (t : BitVec 64) (off : BitVec 24) (w : Word)
  | rcRead (t : BitVec 64) (off : BitVec 24)
  | w1cWrite (t : BitVec 64) (off : BitVec 24) (w : Word)
  | reg64LowRead (t : BitVec 64) (off : BitVec 24)
  | reg64HighWrite (t : BitVec 64) (off : BitVec 24) (w : Word)
  | registerWrite (t : BitVec 64) (off : BitVec 24) (w : Word) (be : BitVec 4)
  | holdUpRunsOut
  | rampComplete (x : Fin 768)
  | sramScrub (t : BitVec 64) (m : SramId) (word : Nat) (e : SramError)
  | d2dRetrainDone (t : BitVec 64) (p : Fin 4)
  | slotFrameSend (frame : Nat)
  | ethPortUp (t : BitVec 64) (portB : Bool)
  deriving DecidableEq, Repr

end Sys2Proof
end

