-- ==== Sys2Proof/Config.lean ====
section
/-! DEFINITION. What one part fixes and the manual leaves open: the variant, the as-built words of the
identity block, and the free values. An opaque constant has no body, so nothing in a proof can rest on
its value (notes/assumptions/3). -/

namespace Sys2Proof.Config

/-- The strands of FY-Q1024-A (R1); the variant FY-Q0512-A has half of them (`State.half`). -/
def strands : Nat := 32

/-- FREE VALUE. What the n-th reading of a measured quantity gives, for the register at BAR0 offset
`off` (output voltage, power, fan speed, mains, bit errors of a lane under test): the manual says what is measured, never the
value. -/
opaque measured (off n : Nat) : Word

/-- FREE VALUE. As-built identity words (R410), the serial number (R411) and the manufacturing record
(R412) are written at the factory: word n of the factory data. -/
opaque asBuilt (n : Nat) : Word

/-- FREE VALUE. Sequence of bytes that a QSFP-DD module's management page holds (R401 CAGE_READ): the
content belongs to the plugged module. -/
opaque cageByte (cage page i : Nat) : Byte

/-- FREE VALUE. Which way a value exactly half way between two results is rounded, where the manual says
only "rounded to nearest" (R126, R169): up for true. -/
opaque tieUp (num : Int) (den : Nat) : Bool

/-- FREE VALUE. Whether a chain output y, in units of 2^-30, that lies between two 16-bit codes takes the upper one: the
manual gives the range of the code and not its rounding (R126). -/
opaque codeUp (y : Int) : Bool

/-- FREE VALUE. Tap i of branch b of the resampler at rate code k, in units of 2^-30: the manual gives the number of taps,
the response and that branch 0 returns the stored sample (R110, R111), and not the taps. -/
opaque tap (k b i : Nat) : Int

/-- FREE VALUE. The 18-bit cosine and sine of a phase of 24 bits, in units of 2^-17: the manual gives the amplitude's width
and the level of the spurious products, and not the rounding (R115). -/
opaque cosine (phase : Nat) : Int
opaque sine (phase : Nat) : Int

/-- FREE VALUE. Tap i of the 192 of the down-converter's channel filter, in units of 2^-30: the manual gives its response
(R164) and not the taps. -/
opaque chanTap (i : Nat) : Int

/-- FREE VALUE. Whether the n-th sample of a stream in ply p, read at tick t while the ply's streams ask for more than their
192 GB/s, comes late: the manual says that a stream that does not get its share runs dry (R24), and not which one. -/
opaque starved (p t n : Nat) : Bool

/-- FREE VALUE. The bits the n-th partly specified value takes where the manual names the operation but
not its result (for example a host buffer word after a failed access). -/
opaque openWord (n : Nat) : Word

/-- FREE VALUE. Where in its queue's region a packet lies: the offset of its first byte, for the queue, the time of the
packet's first word and its length. The manual says that the region holds the packets (R299, R305) and not where. -/
opaque packetAt (qn first len : Nat) : Nat

end Sys2Proof.Config
end

