-- ==== Sys2Proof/Machine/Bits.lean ====
section
/-! DEFINITION. Bit fields of register words, little-endian bytes (R12), fixed-point reading of signed
fields (R13), rounding of times to fabric-cycle boundaries (R433), and the check codes CRC-32C (R193) and
CRC-16 (R234). -/

namespace Sys2Proof.Machine

/-- Bits hi down to lo of a number. -/
def bits (w hi lo : Nat) : Nat := (w >>> lo) % 2 ^ (hi - lo + 1)

/-- Bit i of a number. -/
def bit (w i : Nat) : Bool := w.testBit i

/-- Bits hi down to lo of a 32-bit word (R14). -/
def getF (w : Word) (hi lo : Nat) : Nat := bits w.toNat hi lo

/-- The word with bits hi down to lo replaced by v. -/
def setF (w : Word) (hi lo v : Nat) : Word :=
  let m := (2 ^ (hi - lo + 1) - 1) <<< lo
  BitVec.ofNat 32 ((w.toNat &&& (0xFFFFFFFF ^^^ m)) ||| ((v <<< lo) &&& m))

/-- The number 1 or 0 that a truth value writes into a bit. -/
def b2n (b : Bool) : Nat := if b then 1 else 0

/-- Two's complement value of the low n bits of v (R13). -/
def sext (n v : Nat) : Int := if 2 ^ (n - 1) ≤ v % 2 ^ n then (v % 2 ^ n : Nat) - (2 ^ n : Nat) else (v % 2 ^ n : Nat)

/-- The low n bits of an integer's two's complement form. -/
def toTwos (n : Nat) (i : Int) : Nat := (i % (2 ^ n : Nat)).toNat

/-- An integer limited to the signed range of n bits. -/
def satI (n : Nat) (i : Int) : Int := max (-(2 ^ (n - 1) : Nat)) (min i ((2 ^ (n - 1) : Nat) - 1))

/-- n / d rounded to the nearest integer; the manual leaves open which way a tie goes, so that is a free
value (notes/assumptions/7). -/
def rndNear (n : Int) (d : Nat) : Int :=
  let q := n / (d : Int)
  let r := n % (d : Int)
  if 2 * r < d then q else if (d : Int) < 2 * r then q + 1 else if Config.tieUp n d then q + 1 else q

/-- The largest of a list of numbers, at least d. -/
def maxOf (d : Nat) (l : List Nat) : Nat := l.foldl max d

/-- A time rounded down to a fabric-cycle boundary: the cycle an arrival lies in (R433). -/
def fl8 (t : Nat) : Nat := t / 8 * 8

/-- The first fabric-cycle boundary at or after a time (R433). -/
def up8 (t : Nat) : Nat := (t + 7) / 8 * 8

/-- The first fabric-cycle boundary after a time: the boundary that ends its cycle (R433). -/
def next8 (t : Nat) : Nat := t / 8 * 8 + 8

/-- The low n bytes of a number, least significant first (R12). -/
def leBytes : Nat → Nat → List Byte
  | 0, _ => []
  | n + 1, v => BitVec.ofNat 8 v :: leBytes n (v / 256)

/-- The number whose little-endian bytes these are (R12). -/
def leNat : List Byte → Nat
  | [] => 0
  | b :: bs => b.toNat + 256 * leNat bs

/-- Bytes lo to lo + n - 1 of a packet, as a little-endian number; bytes past its end read as 0. -/
def leAt (bs : List Byte) (lo n : Nat) : Nat := leNat ((bs.drop lo).take n)

/-- One bit step of a reflected CRC with polynomial p. -/
def crcBit (p c : Nat) : Nat := if c % 2 = 1 then (c / 2) ^^^ p else c / 2

/-- k bit steps of a reflected CRC. -/
def crcSteps (p : Nat) : Nat → Nat → Nat
  | 0, c => c
  | k + 1, c => crcSteps p k (crcBit p c)

/-- The register of CRC-32C after the bytes, from the register c (R193): 0x1EDC6F41 reflected. -/
def crc32cFrom (c : Nat) (bs : List Byte) : Nat :=
  bs.foldl (fun c b => crcSteps 0x82F63B78 8 (c ^^^ b.toNat)) c

/-- The whipping trailer of R193: CRC-32C, initial value and final exclusive-or 0xFFFFFFFF. -/
def crc32c (bs : List Byte) : Nat := crc32cFrom 0xFFFFFFFF bs ^^^ 0xFFFFFFFF

/-- A packet closed by its whipping trailer (R193, R302). -/
def whipped (bs : List Byte) : List Byte := bs ++ leBytes 4 (crc32c bs)

/-- A packet's last four bytes are the whipping trailer of the bytes before them (R193). -/
def whipOk (bs : List Byte) : Bool :=
  leNat (bs.drop (bs.length - 4)) == crc32c (bs.take (bs.length - 4)) && 4 ≤ bs.length

/-- One bit step of a CRC taken most significant bit first over n bits with polynomial p. -/
def crcMsb (n p : Nat) (c : Nat) (b : Bool) : Nat :=
  let top := c.testBit (n - 1) != b
  let c' := (2 * c) % 2 ^ n
  if top then c' ^^^ p else c'

/-- The n bits of a number, most significant first. -/
def msbBits : Nat → Nat → List Bool
  | 0, _ => []
  | n + 1, v => v.testBit n :: msbBits n v

end Sys2Proof.Machine
end

