-- ==== Sys2Proof/Machine/RegMap.lean ====
section
/-! DEFINITION. The register map of BAR0 (R415, R416, R423, R425): every register and array element by
name, its offset, its fields with their access codes (R14), reset values and reserved encodings (R15), and
the register found at an offset. -/

namespace Sys2Proof.Machine

/-- The registers and array elements of BAR0. Per-ply registers take the ply first, per-strand ones the
strand, per-core ones the global core number (R5). -/
inductive RegId where
  | idVariant
  | idSerialLo
  | idSerialHi
  | idDieLo (n : Nat)
  | idDieHi (n : Nat)
  | modeCtl
  | modeStatus
  | modeEntryLo
  | modeEntryHi
  | modeResumeLo
  | modeResumeHi
  | modeWakeEn
  | modeWakeLo
  | modeWakeHi
  | mcCtl
  | mcStatus
  | mcBootStat
  | mcFlags
  | mcFwVer
  | mcUcVer
  | mcSvn
  | mcUcLoadLo
  | mcUcLoadHi
  | mcMbCmd
  | mcMbArg
  | mcMbRsp
  | mcMbStat
  | mcMbData (n : Nat)
  | pwrCtl
  | pwrStatus
  | pwrRailStat
  | pwrMains
  | pwrDcPwr
  | pwrGated
  | pwrFlags
  | pwrFan (n : Nat)
  | pwrJrnSel
  | pwrJrnLast
  | pwrJrnTorn
  | pwrJrnData (n : Nat)
  | thmCtl
  | thmStatus
  | thmFlags
  | thmDiode (n : Nat)
  | thmExt (n : Nat)
  | thmExtLim (n : Nat)
  | qmCtl
  | qmStatus
  | qmFlags
  | qmEvDrop
  | qmSel
  | qmQctl
  | qmQbaseLo
  | qmQbaseHi
  | qmQsize
  | qmQthr
  | qmQdrop
  | qmQrewind
  | qmQflushed
  | qmQstat
  | hifCtl
  | hifKick
  | hifDbLo
  | hifDbHi
  | hifLinkStat
  | hifFlags
  | hifInflight
  | hifRingCtl (n : Nat)
  | hifSqLo (n : Nat)
  | hifSqHi (n : Nat)
  | hifCqLo (n : Nat)
  | hifCqHi (n : Nat)
  | hifRingQ (n : Nat)
  | hifRingStat (n : Nat)
  | hifRingIdx (n : Nat)
  | syncCtl
  | syncStatus
  | syncLoadLo
  | syncLoadHi
  | syncEpochLo
  | syncEpochHi
  | syncRtt
  | syncAsym
  | syncHopDly
  | syncDev
  | syncFlags
  | ptpCtl
  | ptpStatus
  | ptpDom (n : Nat)
  | ptpServo
  | ptpLockThr
  | ptpOffset (n : Nat)
  | ptpRate
  | ptpSnapTimeLo
  | ptpSnapTimeHi
  | ptpSnapSecLo
  | ptpSnapSecHi
  | ptpSnapNs
  | ptpWallSecLo
  | ptpWallSecHi
  | ptpWallNs
  | ptpTsq
  | ptpTsDrop
  | ptpFlags
  | hchCtl
  | hchFlags
  | hchDirCtl (n : Nat)
  | hchDirPeer (n : Nat)
  | hchDirStat (n : Nat)
  | hchChkErr (n : Nat)
  | hchLaneCtl (n : Nat)
  | hchLaneStat (n : Nat)
  | hchHdrErr (n : Nat)
  | hchPrbsErr (n : Nat)
  | hchExport (n : Nat)
  | hchTxMap (n : Nat)
  | hchRxLo (n : Nat)
  | hchRxHi (n : Nat)
  | decCtl
  | decStatus
  | decFlags
  | decSbErr (n : Nat)
  | decDctl (n : Nat)
  | decDsel (n : Nat)
  | decImport (p : Nat) (k : Nat)
  | decDval (n : Nat)
  | decDstale (n : Nat)
  | decSlotVal (n : Nat)
  | memCtl
  | memStatus
  | memFlags
  | memCeCnt
  | memUeCnt
  | memUeAddrLo
  | memUeAddrHi
  | memDieMark
  | memScrubPos
  | memSramCe
  | memSramUe
  | memDpChk
  | memD2dRetry
  | memDieCe (n : Nat)
  | memTestCtl
  | memTestBaseLo
  | memTestBaseHi
  | memTestLenLo
  | memTestLenHi
  | memTestStat
  | memTestFailLo
  | memTestFailHi
  | memTestFailCnt
  | memTestSeed
  | calCtl
  | calInterval
  | calFgCtl
  | calStatus
  | calFlags
  | calLastDefer
  | calQuietStartLo
  | calQuietStartHi
  | calQuietEndLo
  | calQuietEndHi
  | calApply (n : Nat)
  | calStat (n : Nat)
  | monCtl (n : Nat)
  | monLow (n : Nat)
  | monHigh (n : Nat)
  | monStat (n : Nat)
  | monQ (n : Nat)
  | monFlags
  | tioInCtl (n : Nat)
  | tioInStat (n : Nat)
  | tioGlitch (n : Nat)
  | tioOutCtl (n : Nat)
  | tioEwCtl (n : Nat)
  | plyClkCtl (p : Nat)
  | plyStatus (p : Nat)
  | plyStarts (p : Nat)
  | plyD2dRetry (p : Nat)
  | plyPower (p : Nat)
  | plyLockLoss (p : Nat)
  | strCtl (s : Nat)
  | strStatus (s : Nat)
  | strFlags (s : Nat)
  | strSummary (s : Nat)
  | strPower (s : Nat)
  | seqCtl (c : Nat)
  | seqStatus (c : Nat)
  | seqStart (c : Nat)
  | seqTrigMask (c : Nat)
  | seqStartTimeLo (c : Nat)
  | seqStartTimeHi (c : Nat)
  | seqStreamQ (c : Nat)
  | seqPc (c : Nat)
  | seqShot (c : Nat)
  | seqTrigLost (c : Nat)
  | seqFlags (c : Nat)
  | seqTrigDrop (c : Nat)
  | seqLastTrigLo (c : Nat)
  | seqLastTrigHi (c : Nat)
  | seqOwn (s : Nat) (n : Nat)
  | outToneCtl (s : Nat) (n : Nat)
  | outToneOfs (s : Nat) (n : Nat)
  | outToneGain (s : Nat) (n : Nat)
  | outToneStat (s : Nat) (n : Nat)
  | outRfCtl (s : Nat) (n : Nat)
  | outBbCtl (s : Nat) (n : Nat)
  | outClipCnt (s : Nat) (n : Nat)
  | outRfOut (s : Nat) (n : Nat)
  | outBbOut (s : Nat) (n : Nat)
  | outStatic (s : Nat) (n : Nat)
  | outSense (s : Nat) (n : Nat)
  | outFreqLo (s : Nat) (n : Nat)
  | outFreqHi (s : Nat) (n : Nat)
  | outPdCoef (s : Nat) (n : Nat)
  | outFrame (s : Nat) (n : Nat)
  | acqInCtl (s : Nat) (n : Nat)
  | acqInStat (s : Nat) (n : Nat)
  | acqOvrCnt (s : Nat) (n : Nat)
  | acqRawQ (s : Nat) (n : Nat)
  | acqRawLost (s : Nat) (n : Nat)
  | acqFlags (s : Nat)
  | acqToneCtl (s : Nat) (n : Nat)
  | discCtl (s : Nat) (n : Nat)
  | discMap (s : Nat) (n : Nat)
  | discLineAb (s : Nat) (n : Nat) (k : Nat)
  | discLineCLo (s : Nat) (n : Nat) (k : Nat)
  | discLineCHi (s : Nat) (n : Nat) (k : Nat)
  | discResQ (c : Nat)
  | discResLost (c : Nat)
  | discFlags (s : Nat)
  | discStaged (s : Nat)
  | countWord (n : Nat)  deriving DecidableEq, Repr

/-- Access codes (R14). -/
inductive Acc where
  | rw | ro | w1c | wo | rc
  deriving DecidableEq, Repr

/-- One field of a register: its bits, access, reset value, and the encodings it may take (an empty list
where every encoding is allowed; R15). -/
structure Field where
  hi : Nat
  lo : Nat
  acc : Acc
  reset : Nat
  ok : List (Nat × Nat)
  deriving DecidableEq, Repr

/-- BAR0 offset of ply block p (R415). -/
def plyBase (p : Nat) : Nat := 0x100000 + p * 0x40000

/-- BAR0 offset of strand block s (R415). -/
def strandBase (s : Nat) : Nat := 0x200000 + s * 0x10000

/-- BAR0 offset of the SEQ_ registers of global core c (R423). -/
def coreBase (c : Nat) : Nat := strandBase (c / 8) + 0x1000 + (c % 8) * 0x40

/-- Reset value of THM_EXTLIM[n].TRIP, in units of 1/16 degree (R395). -/
def extTripReset (n : Nat) : Nat :=
  if n = 0 then 0x02D0 else if n = 1 then 0x0410 else if n = 2 then 0x0640 else if n = 3 then 0x05F0 else 0x0550

/-- Reset value of THM_EXTLIM[n].WARN (R395). -/
def extWarnReset (n : Nat) : Nat :=
  if n = 0 then 0x0230 else if n = 1 then 0x0370 else if n = 2 then 0x05A0 else if n = 3 then 0x0550 else 0x04B0

/-- Reset value of OUT_PDCOEF word n: the identity filters have 1.0 in Q2.30 at words 0, 5, 10, 15 and
20 of each channel's 128 (R128). -/
def pdCoefReset (n : Nat) : Nat :=
  if n % 128 ∈ [0, 5, 10, 15, 20] then 2 ^ 30 else 0

/-- The BAR0 offset of a register. The two that sequence words and what falls due write are kept within their tables. -/
def RegId.off : RegId → Nat
  | .idVariant => 0x000000
  | .idSerialLo => 0x000008
  | .idSerialHi => 0x00000C
  | .idDieLo n => 0x000100 + 8 * n
  | .idDieHi n => 0x000104 + 8 * n
  | .modeCtl => 0x001000
  | .modeStatus => 0x001004
  | .modeEntryLo => 0x001008
  | .modeEntryHi => 0x00100C
  | .modeResumeLo => 0x001010
  | .modeResumeHi => 0x001014
  | .modeWakeEn => 0x001018
  | .modeWakeLo => 0x001020
  | .modeWakeHi => 0x001024
  | .mcCtl => 0x001100
  | .mcStatus => 0x001104
  | .mcBootStat => 0x001108
  | .mcFlags => 0x00110C
  | .mcFwVer => 0x001110
  | .mcUcVer => 0x001114
  | .mcSvn => 0x001118
  | .mcUcLoadLo => 0x001120
  | .mcUcLoadHi => 0x001124
  | .mcMbCmd => 0x001130
  | .mcMbArg => 0x001134
  | .mcMbRsp => 0x001138
  | .mcMbStat => 0x00113C
  | .mcMbData n => 0x001800 + 4 * n
  | .pwrCtl => 0x002000
  | .pwrStatus => 0x002004
  | .pwrRailStat => 0x002008
  | .pwrMains => 0x00200C
  | .pwrDcPwr => 0x002010
  | .pwrGated => 0x002014
  | .pwrFlags => 0x002018
  | .pwrFan n => 0x002020 + 4 * n
  | .pwrJrnSel => 0x002040
  | .pwrJrnLast => 0x002044
  | .pwrJrnTorn => 0x002048
  | .pwrJrnData n => 0x002100 + 4 * n
  | .thmCtl => 0x003000
  | .thmStatus => 0x003004
  | .thmFlags => 0x003008
  | .thmDiode n => 0x003100 + 4 * n
  | .thmExt n => 0x003200 + 4 * n
  | .thmExtLim n => 0x003240 + 4 * n
  | .qmCtl => 0x004000
  | .qmStatus => 0x004004
  | .qmFlags => 0x004008
  | .qmEvDrop => 0x00400C
  | .qmSel => 0x004010
  | .qmQctl => 0x004014
  | .qmQbaseLo => 0x004018
  | .qmQbaseHi => 0x00401C
  | .qmQsize => 0x004020
  | .qmQthr => 0x004024
  | .qmQdrop => 0x004028
  | .qmQrewind => 0x00402C
  | .qmQflushed => 0x004030
  | .qmQstat => 0x004034
  | .hifCtl => 0x010000
  | .hifKick => 0x010004
  | .hifDbLo => 0x010008
  | .hifDbHi => 0x01000C
  | .hifLinkStat => 0x010010
  | .hifFlags => 0x010014
  | .hifInflight => 0x010018
  | .hifRingCtl n => 0x011000 + 0x20 * n
  | .hifSqLo n => 0x011004 + 0x20 * n
  | .hifSqHi n => 0x011008 + 0x20 * n
  | .hifCqLo n => 0x01100C + 0x20 * n
  | .hifCqHi n => 0x011010 + 0x20 * n
  | .hifRingQ n => 0x011014 + 0x20 * n
  | .hifRingStat n => 0x011018 + 0x20 * n
  | .hifRingIdx n => 0x01101C + 0x20 * n
  | .syncCtl => 0x020000
  | .syncStatus => 0x020004
  | .syncLoadLo => 0x020008
  | .syncLoadHi => 0x02000C
  | .syncEpochLo => 0x020010
  | .syncEpochHi => 0x020014
  | .syncRtt => 0x020018
  | .syncAsym => 0x02001C
  | .syncHopDly => 0x020020
  | .syncDev => 0x020024
  | .syncFlags => 0x020028
  | .ptpCtl => 0x021000
  | .ptpStatus => 0x021004
  | .ptpDom n => 0x021010 + 4 * n
  | .ptpServo => 0x021018
  | .ptpLockThr => 0x02101C
  | .ptpOffset n => 0x021020 + 4 * n
  | .ptpRate => 0x021028
  | .ptpSnapTimeLo => 0x021030
  | .ptpSnapTimeHi => 0x021034
  | .ptpSnapSecLo => 0x021038
  | .ptpSnapSecHi => 0x02103C
  | .ptpSnapNs => 0x021040
  | .ptpWallSecLo => 0x021044
  | .ptpWallSecHi => 0x021048
  | .ptpWallNs => 0x02104C
  | .ptpTsq => 0x021050
  | .ptpTsDrop => 0x021054
  | .ptpFlags => 0x021058
  | .hchCtl => 0x030000
  | .hchFlags => 0x030008
  | .hchDirCtl n => 0x030100 + 0x10 * n
  | .hchDirPeer n => 0x030104 + 0x10 * n
  | .hchDirStat n => 0x030108 + 0x10 * n
  | .hchChkErr n => 0x03010C + 0x10 * n
  | .hchLaneCtl n => 0x030200 + 0x10 * n
  | .hchLaneStat n => 0x030204 + 0x10 * n
  | .hchHdrErr n => 0x030208 + 0x10 * n
  | .hchPrbsErr n => 0x03020C + 0x10 * n
  | .hchExport n => 0x030400 + 4 * n
  | .hchTxMap n => 0x030500 + 4 * n
  | .hchRxLo n => 0x030580 + 8 * n
  | .hchRxHi n => 0x030584 + 8 * n
  | .decCtl => 0x040000
  | .decStatus => 0x040004
  | .decFlags => 0x040008
  | .decSbErr n => 0x040010 + 4 * n
  | .decDctl n => 0x040100 + 4 * n
  | .decDsel n => 0x040800 + 4 * n
  | .decImport p k => 0x043000 + 0x200 * p + 4 * k
  | .decDval n => 0x044000 + 4 * n
  | .decDstale n => 0x044020 + 4 * n
  | .decSlotVal n => 0x044100 + 4 * n
  | .memCtl => 0x050000
  | .memStatus => 0x050004
  | .memFlags => 0x050008
  | .memCeCnt => 0x05000C
  | .memUeCnt => 0x050010
  | .memUeAddrLo => 0x050014
  | .memUeAddrHi => 0x050018
  | .memDieMark => 0x05001C
  | .memScrubPos => 0x050020
  | .memSramCe => 0x050024
  | .memSramUe => 0x050028
  | .memDpChk => 0x05002C
  | .memD2dRetry => 0x050030
  | .memDieCe n => 0x050100 + 4 * n
  | .memTestCtl => 0x050200
  | .memTestBaseLo => 0x050204
  | .memTestBaseHi => 0x050208
  | .memTestLenLo => 0x05020C
  | .memTestLenHi => 0x050210
  | .memTestStat => 0x050214
  | .memTestFailLo => 0x050218
  | .memTestFailHi => 0x05021C
  | .memTestFailCnt => 0x050220
  | .memTestSeed => 0x050224
  | .calCtl => 0x060000
  | .calInterval => 0x060004
  | .calFgCtl => 0x060008
  | .calStatus => 0x06000C
  | .calFlags => 0x060010
  | .calLastDefer => 0x060014
  | .calQuietStartLo => 0x060018
  | .calQuietStartHi => 0x06001C
  | .calQuietEndLo => 0x060020
  | .calQuietEndHi => 0x060024
  | .calApply n => 0x061000 + 4 * n
  | .calStat n => 0x062000 + 4 * n
  | .monCtl n => 0x070000 + 0x10 * n
  | .monLow n => 0x070004 + 0x10 * n
  | .monHigh n => 0x070008 + 0x10 * n
  | .monStat n => 0x07000C + 0x10 * n
  | .monQ n => 0x070400 + 4 * n
  | .monFlags => 0x070500
  | .tioInCtl n => 0x071000 + 0x10 * n
  | .tioInStat n => 0x071004 + 0x10 * n
  | .tioGlitch n => 0x071008 + 0x10 * n
  | .tioOutCtl n => 0x071400 + 4 * n
  | .tioEwCtl n => 0x071500 + 4 * n
  | .plyClkCtl p => plyBase p + 0x0000
  | .plyStatus p => plyBase p + 0x0004
  | .plyStarts p => plyBase p + 0x0008
  | .plyD2dRetry p => plyBase p + 0x000C
  | .plyPower p => plyBase p + 0x0010
  | .plyLockLoss p => plyBase p + 0x0014
  | .strCtl s => strandBase s + 0x0000
  | .strStatus s => strandBase s + 0x0004
  | .strFlags s => strandBase s + 0x0008
  | .strSummary s => strandBase s + 0x000C
  | .strPower s => strandBase s + 0x0010
  | .seqCtl c => coreBase c + 0x00
  | .seqStatus c => coreBase c + 0x04
  | .seqStart c => coreBase c + 0x08
  | .seqTrigMask c => coreBase c + 0x0C
  | .seqStartTimeLo c => coreBase c + 0x10
  | .seqStartTimeHi c => coreBase c + 0x14
  | .seqStreamQ c => coreBase c + 0x18
  | .seqPc c => coreBase c + 0x1C
  | .seqShot c => coreBase c + 0x20
  | .seqTrigLost c => coreBase c + 0x24
  | .seqFlags c => coreBase c + 0x28
  | .seqTrigDrop c => coreBase c + 0x2C
  | .seqLastTrigLo c => coreBase c + 0x30
  | .seqLastTrigHi c => coreBase c + 0x34
  | .seqOwn s n => strandBase s + 0x1400 + 4 * n
  | .outToneCtl s n => strandBase s + 0x2000 + 0x10 * n
  | .outToneOfs s n => strandBase s + 0x2004 + 0x10 * n
  | .outToneGain s n => strandBase s + 0x2008 + 0x10 * n
  | .outToneStat s n => strandBase s + 0x200C + 0x10 * n
  | .outRfCtl s n => strandBase s + 0x2400 + 4 * n
  | .outBbCtl s n => strandBase s + 0x2440 + 4 * n
  | .outClipCnt s n => strandBase s + 0x2480 + 4 * n
  | .outRfOut s n => strandBase s + 0x2500 + 4 * n
  | .outBbOut s n => strandBase s + 0x2540 + 4 * n
  | .outStatic s n => strandBase (s % 32) + 0x2580 + 4 * (n % 16)
  | .outSense s n => strandBase s + 0x25C0 + 4 * n
  | .outFreqLo s n => strandBase s + 0x4000 + 8 * n
  | .outFreqHi s n => strandBase s + 0x4004 + 8 * n
  | .outPdCoef s n => strandBase s + 0x6000 + 4 * n
  | .outFrame s n => strandBase (s % 32) + 0x8000 + 4 * (n % 4096)
  | .acqInCtl s n => strandBase s + 0xC000 + 4 * n
  | .acqInStat s n => strandBase s + 0xC008 + 4 * n
  | .acqOvrCnt s n => strandBase s + 0xC010 + 4 * n
  | .acqRawQ s n => strandBase s + 0xC018 + 4 * n
  | .acqRawLost s n => strandBase s + 0xC020 + 4 * n
  | .acqFlags s => strandBase s + 0xC030
  | .acqToneCtl s n => strandBase s + 0xC100 + 4 * n
  | .discCtl s n => strandBase s + 0xD000 + 0x40 * n
  | .discMap s n => strandBase s + 0xD004 + 0x40 * n
  | .discLineAb s n k => strandBase s + 0xD008 + 0x40 * n + 0xc * k
  | .discLineCLo s n k => strandBase s + 0xD00C + 0x40 * n + 0xc * k
  | .discLineCHi s n k => strandBase s + 0xD010 + 0x40 * n + 0xc * k
  | .discResQ c => strandBase (c / 8) + 0xD800 + 4 * (c % 8)
  | .discResLost c => strandBase (c / 8) + 0xD820 + 4 * (c % 8)
  | .discFlags s => strandBase s + 0xD840
  | .discStaged s => strandBase s + 0xD844
  | .countWord n => 0x800000 + 4 * n
/-- The fields of a register. -/
def RegId.fields : RegId → List Field
  | .idVariant => [⟨15, 0, .ro, 0x1024, []⟩]
  | .idSerialLo => [⟨31, 0, .ro, 0, []⟩]
  | .idSerialHi => [⟨31, 0, .ro, 0, []⟩]
  | .idDieLo _ => [⟨31, 0, .ro, 0, []⟩]
  | .idDieHi _ => [⟨31, 0, .ro, 0, []⟩]
  | .modeCtl => [⟨31, 24, .wo, 0, []⟩, ⟨9, 9, .wo, 0, []⟩, ⟨8, 8, .wo, 0, []⟩, ⟨5, 5, .rw, 1, []⟩, ⟨4, 4, .rw, 1, []⟩, ⟨3, 3, .wo, 0, []⟩, ⟨2, 0, .rw, 2, [(0, 0), (2, 6)]⟩]
  | .modeStatus => [⟨31, 0, .ro, 0, []⟩]
  | .modeEntryLo => [⟨31, 0, .ro, 0, []⟩]
  | .modeEntryHi => [⟨31, 0, .ro, 0, []⟩]
  | .modeResumeLo => [⟨31, 0, .rw, 0, []⟩]
  | .modeResumeHi => [⟨31, 0, .rw, 0, []⟩]
  | .modeWakeEn => [⟨4, 4, .rw, 1, []⟩, ⟨3, 3, .rw, 0, []⟩, ⟨2, 2, .rw, 0, []⟩, ⟨1, 1, .rw, 1, []⟩, ⟨0, 0, .rw, 1, []⟩]
  | .modeWakeLo => [⟨31, 0, .rw, 0, []⟩]
  | .modeWakeHi => [⟨31, 0, .rw, 0, []⟩]
  | .mcCtl => [⟨31, 24, .wo, 0, []⟩, ⟨0, 0, .wo, 0, []⟩]
  | .mcStatus => [⟨31, 0, .ro, 0, []⟩]
  | .mcBootStat => [⟨15, 0, .ro, 0, []⟩]
  | .mcFlags => [⟨2, 0, .w1c, 0, []⟩]
  | .mcFwVer => [⟨31, 0, .ro, 0, []⟩]
  | .mcUcVer => [⟨31, 0, .ro, 0, []⟩]
  | .mcSvn => [⟨31, 0, .ro, 0, []⟩]
  | .mcUcLoadLo => [⟨31, 0, .ro, 0, []⟩]
  | .mcUcLoadHi => [⟨31, 0, .ro, 0, []⟩]
  | .mcMbCmd => [⟨31, 24, .rw, 0, []⟩, ⟨23, 16, .rw, 0, []⟩, ⟨15, 0, .rw, 0, []⟩]
  | .mcMbArg => [⟨31, 0, .rw, 0, []⟩]
  | .mcMbRsp => [⟨31, 0, .ro, 0, []⟩]
  | .mcMbStat => [⟨1, 1, .w1c, 0, []⟩, ⟨0, 0, .ro, 0, []⟩]
  | .mcMbData _ => [⟨31, 0, .rw, 0, []⟩]
  | .pwrCtl => [⟨0, 0, .rw, 0, []⟩]
  | .pwrStatus => [⟨31, 0, .ro, 0, []⟩]
  | .pwrRailStat => [⟨31, 0, .ro, 3, []⟩]
  | .pwrMains => [⟨31, 0, .ro, 0, []⟩]
  | .pwrDcPwr => [⟨15, 0, .ro, 0, []⟩]
  | .pwrGated => [⟨31, 0, .ro, 0xFFFFFFFF, []⟩]
  | .pwrFlags => [⟨2, 0, .w1c, 0, []⟩]
  | .pwrFan _ => [⟨16, 16, .w1c, 0, []⟩, ⟨15, 0, .ro, 0, []⟩]
  | .pwrJrnSel => [⟨31, 0, .rw, 0, []⟩]
  | .pwrJrnLast => [⟨31, 0, .ro, 0, []⟩]
  | .pwrJrnTorn => [⟨31, 0, .rc, 0, []⟩]
  | .pwrJrnData _ => [⟨31, 0, .ro, 0, []⟩]
  | .thmCtl => [⟨31, 24, .rw, 0, [(0, 2), (255, 255)]⟩, ⟨11, 8, .rw, 10, [(1, 10)]⟩, ⟨7, 4, .rw, 4, [(1, 4)]⟩, ⟨1, 0, .rw, 0, [(0, 1)]⟩]
  | .thmStatus => [⟨15, 0, .ro, 0, []⟩]
  | .thmFlags => [⟨4, 0, .w1c, 0, []⟩]
  | .thmDiode _ => [⟨31, 0, .ro, 0, []⟩]
  | .thmExt _ => [⟨16, 0, .ro, 0, []⟩]
  | .thmExtLim n => [⟨31, 16, .rw, extTripReset n, []⟩, ⟨15, 0, .rw, extWarnReset n, []⟩]
  | .qmCtl => [⟨31, 31, .rw, 0, []⟩, ⟨14, 0, .rw, 0, []⟩]
  | .qmStatus => [⟨31, 31, .ro, 0, []⟩, ⟨12, 0, .ro, 0x1000, []⟩]
  | .qmFlags => [⟨4, 0, .w1c, 0, []⟩]
  | .qmEvDrop => [⟨31, 0, .rc, 0, []⟩]
  | .qmSel => [⟨14, 0, .rw, 0, []⟩]
  | .qmQctl => [⟨31, 24, .rw, 0, [(0, 8), (255, 255)]⟩, ⟨18, 18, .wo, 0, []⟩, ⟨16, 16, .rw, 0, []⟩, ⟨2, 0, .rw, 0, []⟩]
  | .qmQbaseLo => [⟨31, 12, .rw, 0, []⟩]
  | .qmQbaseHi => [⟨2, 0, .rw, 0, []⟩]
  | .qmQsize => [⟨4, 0, .rw, 12, [(12, 30)]⟩]
  | .qmQthr => [⟨10, 0, .rw, 0, [(0, 1024)]⟩]
  | .qmQdrop => [⟨31, 0, .rc, 0, []⟩]
  | .qmQrewind => [⟨31, 0, .rc, 0, []⟩]
  | .qmQflushed => [⟨31, 0, .rc, 0, []⟩]
  | .qmQstat => [⟨7, 3, .ro, 0, []⟩]
  | .hifCtl => [⟨31, 24, .rw, 0, [(0, 2), (255, 255)]⟩, ⟨19, 0, .rw, 10, [(0, 1000000)]⟩]
  | .hifKick => [⟨31, 31, .wo, 0, []⟩, ⟨5, 0, .wo, 0, []⟩]
  | .hifDbLo => [⟨31, 12, .rw, 0, []⟩]
  | .hifDbHi => [⟨31, 0, .rw, 0, []⟩]
  | .hifLinkStat => [⟨10, 0, .ro, 0, []⟩]
  | .hifFlags => [⟨2, 0, .w1c, 0, []⟩]
  | .hifInflight => [⟨10, 0, .ro, 0, []⟩]
  | .hifRingCtl _ => [⟨31, 24, .rw, 0, [(0, 2), (255, 255)]⟩, ⟨20, 16, .rw, 10, [(4, 16)]⟩, ⟨15, 5, .rw, 256, [(1, 1024)]⟩, ⟨0, 0, .rw, 0, []⟩]
  | .hifSqLo _ => [⟨31, 12, .rw, 0, []⟩]
  | .hifSqHi _ => [⟨31, 0, .rw, 0, []⟩]
  | .hifCqLo _ => [⟨31, 12, .rw, 0, []⟩]
  | .hifCqHi _ => [⟨31, 0, .rw, 0, []⟩]
  | .hifRingQ _ => [⟨30, 16, .rw, 0, []⟩, ⟨14, 0, .rw, 0, []⟩]
  | .hifRingStat _ => [⟨18, 16, .ro, 0, []⟩, ⟨15, 15, .ro, 1, []⟩, ⟨10, 0, .ro, 0, []⟩]
  | .hifRingIdx _ => [⟨31, 0, .ro, 0, []⟩]
  | .syncCtl => [⟨31, 24, .rw, 0, [(0, 2), (255, 255)]⟩, ⟨21, 16, .rw, 0, []⟩, ⟨11, 10, .rw, 0, [(0, 2)]⟩, ⟨9, 8, .rw, 0, [(0, 2)]⟩, ⟨7, 4, .rw, 2, [(1, 15)]⟩, ⟨2, 2, .wo, 0, []⟩, ⟨1, 1, .wo, 0, []⟩, ⟨0, 0, .wo, 0, []⟩]
  | .syncStatus => [⟨15, 0, .ro, 0, []⟩]
  | .syncLoadLo => [⟨31, 0, .rw, 0, []⟩]
  | .syncLoadHi => [⟨31, 0, .rw, 0, []⟩]
  | .syncEpochLo => [⟨31, 0, .rw, 0, []⟩]
  | .syncEpochHi => [⟨31, 0, .rw, 0, []⟩]
  | .syncRtt => [⟨31, 0, .ro, 0, []⟩]
  | .syncAsym => [⟨15, 0, .rw, 0, []⟩]
  | .syncHopDly => [⟨15, 0, .rw, 0, [(0, 25600)]⟩]
  | .syncDev => [⟨15, 0, .ro, 0, []⟩]
  | .syncFlags => [⟨6, 0, .w1c, 0, []⟩]
  | .ptpCtl => [⟨31, 24, .rw, 0, [(0, 2), (255, 255)]⟩, ⟨23, 8, .rw, 1000, []⟩, ⟨7, 7, .rw, 0, []⟩, ⟨6, 6, .wo, 0, []⟩, ⟨5, 5, .wo, 0, []⟩, ⟨4, 4, .wo, 0, []⟩, ⟨3, 3, .wo, 0, []⟩, ⟨1, 0, .rw, 0, [(0, 2)]⟩]
  | .ptpStatus => [⟨23, 0, .ro, 0, []⟩]
  | .ptpDom _ => [⟨31, 31, .rw, 0, []⟩, ⟨7, 0, .rw, 0, []⟩]
  | .ptpServo => [⟨31, 16, .rw, 0x0040, []⟩, ⟨15, 0, .rw, 0x0400, []⟩]
  | .ptpLockThr => [⟨15, 0, .rw, 100, []⟩]
  | .ptpOffset _ => [⟨31, 0, .ro, 0, []⟩]
  | .ptpRate => [⟨31, 0, .ro, 0, []⟩]
  | .ptpSnapTimeLo => [⟨31, 0, .ro, 0, []⟩]
  | .ptpSnapTimeHi => [⟨31, 0, .ro, 0, []⟩]
  | .ptpSnapSecLo => [⟨31, 0, .ro, 0, []⟩]
  | .ptpSnapSecHi => [⟨15, 0, .ro, 0, []⟩]
  | .ptpSnapNs => [⟨31, 0, .ro, 0, []⟩]
  | .ptpWallSecLo => [⟨31, 0, .rw, 0, []⟩]
  | .ptpWallSecHi => [⟨15, 0, .rw, 0, []⟩]
  | .ptpWallNs => [⟨31, 0, .rw, 0, [(0, 999999999)]⟩]
  | .ptpTsq => [⟨14, 0, .rw, 0, []⟩]
  | .ptpTsDrop => [⟨31, 0, .rc, 0, []⟩]
  | .ptpFlags => [⟨6, 0, .w1c, 0, []⟩]
  | .hchCtl => [⟨15, 15, .ro, 0, []⟩, ⟨5, 0, .rw, 0, []⟩]
  | .hchFlags => [⟨6, 0, .w1c, 0, []⟩]
  | .hchDirCtl _ => [⟨31, 24, .rw, 0, [(0, 2), (255, 255)]⟩, ⟨23, 8, .rw, 1000, []⟩, ⟨7, 7, .wo, 0, []⟩, ⟨6, 6, .wo, 0, []⟩, ⟨3, 3, .rw, 0, []⟩, ⟨0, 0, .rw, 0, []⟩]
  | .hchDirPeer _ => [⟨5, 0, .rw, 0, []⟩]
  | .hchDirStat _ => [⟨31, 0, .ro, 0, []⟩]
  | .hchChkErr _ => [⟨31, 0, .rc, 0, []⟩]
  | .hchLaneCtl _ => [⟨19, 16, .rw, 6, [(0, 12)]⟩, ⟨15, 12, .rw, 2, []⟩, ⟨11, 8, .rw, 4, []⟩, ⟨2, 2, .rw, 0, []⟩, ⟨1, 0, .rw, 0, []⟩]
  | .hchLaneStat _ => [⟨13, 13, .ro, 1, []⟩, ⟨12, 11, .ro, 0, []⟩, ⟨9, 0, .ro, 0, []⟩]
  | .hchHdrErr _ => [⟨31, 0, .rc, 0, []⟩]
  | .hchPrbsErr _ => [⟨31, 0, .rc, 0, []⟩]
  | .hchExport _ => [⟨31, 31, .rw, 0, []⟩, ⟨11, 0, .rw, 0, [(0, 0x7FF), (0x900, 0x91F)]⟩]
  | .hchTxMap _ => [⟨31, 30, .rw, 0, [(0, 2)]⟩, ⟨29, 0, .rw, 0, []⟩]
  | .hchRxLo _ => [⟨29, 0, .rw, 0, []⟩]
  | .hchRxHi _ => [⟨31, 31, .rw, 0, []⟩, ⟨10, 8, .rw, 0, [(1, 7)]⟩, ⟨5, 0, .rw, 0, []⟩]
  | .decCtl => [⟨31, 24, .rw, 0, [(0, 1), (255, 255)]⟩]
  | .decStatus => [⟨11, 8, .ro, 0, []⟩, ⟨3, 0, .ro, 0, []⟩]
  | .decFlags => [⟨1, 0, .w1c, 0, []⟩]
  | .decSbErr _ => [⟨31, 0, .rc, 0, []⟩]
  | .decDctl _ => [⟨31, 24, .rw, 0, [(0, 5), (255, 255)]⟩, ⟨17, 17, .wo, 0, []⟩, ⟨15, 0, .rw, 0, []⟩]
  | .decDsel _ => [⟨31, 16, .rw, 0x3FFF, [(0, 0x7FF), (0x900, 0x91F), (0x1000, 0x1FFF), (0x3FFF, 0x3FFF)]⟩, ⟨15, 0, .rw, 0x3FFF, [(0, 0x7FF), (0x900, 0x91F), (0x1000, 0x1FFF), (0x3FFF, 0x3FFF)]⟩]
  | .decImport _ _ => [⟨31, 31, .rw, 0, []⟩, ⟨9, 0, .rw, 0, []⟩]
  | .decDval _ => [⟨31, 0, .ro, 0, []⟩]
  | .decDstale _ => [⟨31, 0, .ro, 0, []⟩]
  | .decSlotVal _ => [⟨31, 0, .ro, 0xFFFFFFFF, []⟩]
  | .memCtl => [⟨31, 24, .rw, 0, [(0, 2), (255, 255)]⟩, ⟨23, 16, .rw, 24, [(0, 168)]⟩, ⟨15, 8, .rw, 16, [(1, 255)]⟩, ⟨0, 0, .rw, 1, []⟩]
  | .memStatus => [⟨31, 0, .ro, 0, []⟩]
  | .memFlags => [⟨7, 0, .w1c, 0, []⟩]
  | .memCeCnt => [⟨31, 0, .rc, 0, []⟩]
  | .memUeCnt => [⟨31, 0, .rc, 0, []⟩]
  | .memUeAddrLo => [⟨31, 0, .ro, 0, []⟩]
  | .memUeAddrHi => [⟨2, 0, .ro, 0, []⟩]
  | .memDieMark => [⟨31, 31, .rw, 0, []⟩, ⟨5, 5, .rw, 0, []⟩, ⟨4, 0, .rw, 0, [(0, 16)]⟩]
  | .memScrubPos => [⟨28, 0, .ro, 0, []⟩]
  | .memSramCe => [⟨31, 0, .rc, 0, []⟩]
  | .memSramUe => [⟨31, 0, .rc, 0, []⟩]
  | .memDpChk => [⟨31, 0, .rc, 0, []⟩]
  | .memD2dRetry => [⟨31, 0, .rc, 0, []⟩]
  | .memDieCe _ => [⟨31, 0, .rc, 0, []⟩]
  | .memTestCtl => [⟨31, 31, .wo, 0, []⟩, ⟨30, 30, .wo, 0, []⟩, ⟨19, 16, .rw, 2, [(0, 5)]⟩, ⟨15, 15, .rw, 0, []⟩, ⟨14, 12, .rw, 0, [(0, 3)]⟩, ⟨11, 8, .rw, 0, [(0, 5)]⟩, ⟨4, 0, .rw, 0, []⟩]
  | .memTestBaseLo => [⟨31, 0, .rw, 0, []⟩]
  | .memTestBaseHi => [⟨31, 0, .rw, 0, []⟩]
  | .memTestLenLo => [⟨31, 0, .rw, 0, []⟩]
  | .memTestLenHi => [⟨31, 0, .rw, 0, []⟩]
  | .memTestStat => [⟨14, 0, .ro, 0, []⟩]
  | .memTestFailLo => [⟨31, 0, .ro, 0, []⟩]
  | .memTestFailHi => [⟨31, 0, .ro, 0, []⟩]
  | .memTestFailCnt => [⟨31, 0, .rc, 0, []⟩]
  | .memTestSeed => [⟨30, 0, .rw, 1, [(1, 0x7FFFFFFF)]⟩]
  | .calCtl => [⟨31, 24, .rw, 0, [(0, 2), (255, 255)]⟩, ⟨13, 8, .rw, 2, [(1, 60)]⟩, ⟨0, 0, .rw, 1, []⟩]
  | .calInterval => [⟨31, 24, .rw, 4, [(1, 255)]⟩, ⟨23, 16, .rw, 10, [(1, 255)]⟩, ⟨15, 8, .rw, 30, [(1, 255)]⟩, ⟨7, 0, .rw, 60, [(1, 255)]⟩]
  | .calFgCtl => [⟨19, 16, .ro, 0, []⟩, ⟨11, 8, .rw, 15, []⟩, ⟨2, 0, .rw, 7, []⟩]
  | .calStatus => [⟨8, 0, .ro, 0, []⟩]
  | .calFlags => [⟨4, 0, .w1c, 0, []⟩]
  | .calLastDefer => [⟨31, 0, .ro, 0, []⟩]
  | .calQuietStartLo => [⟨31, 0, .rw, 0, []⟩]
  | .calQuietStartHi => [⟨31, 0, .rw, 0, []⟩]
  | .calQuietEndLo => [⟨31, 0, .rw, 0, []⟩]
  | .calQuietEndHi => [⟨31, 0, .rw, 0, []⟩]
  | .calApply _ => [⟨31, 24, .rw, 0, [(0, 2), (255, 255)]⟩, ⟨16, 16, .rw, 1, []⟩, ⟨10, 0, .rw, 16, [(1, 1024)]⟩]
  | .calStat _ => [⟨31, 16, .ro, 0xFFFF, []⟩, ⟨4, 0, .ro, 0, []⟩]
  | .monCtl _ => [⟨31, 24, .rw, 0, [(0, 2), (255, 255)]⟩, ⟨23, 18, .rw, 63, []⟩, ⟨15, 12, .rw, 4, [(1, 15)]⟩, ⟨11, 9, .rw, 0, [(0, 4)]⟩, ⟨8, 7, .rw, 1, [(0, 2)]⟩, ⟨6, 4, .rw, 6, [(0, 6)]⟩, ⟨3, 3, .rw, 1, []⟩, ⟨2, 2, .rw, 0, []⟩, ⟨0, 0, .rw, 0, []⟩]
  | .monLow _ => [⟨23, 0, .rw, 0x800000, []⟩]
  | .monHigh _ => [⟨23, 0, .rw, 0x7FFFFF, []⟩]
  | .monStat _ => [⟨27, 0, .ro, 0, []⟩]
  | .monQ _ => [⟨14, 0, .rw, 0, []⟩]
  | .monFlags => [⟨1, 0, .w1c, 0, []⟩]
  | .tioInCtl _ => [⟨31, 24, .rw, 0, [(0, 2), (255, 255)]⟩, ⟨11, 8, .rw, 0, []⟩, ⟨5, 4, .rw, 1, [(1, 3)]⟩, ⟨3, 3, .rw, 0, []⟩, ⟨2, 2, .rw, 0, []⟩, ⟨1, 1, .rw, 1, []⟩]
  | .tioInStat _ => [⟨0, 0, .ro, 0, []⟩]
  | .tioGlitch _ => [⟨31, 0, .rc, 0, []⟩]
  | .tioOutCtl _ => [⟨31, 30, .rw, 0, [(0, 2)]⟩, ⟨29, 29, .rw, 0, []⟩, ⟨28, 28, .rw, 0, []⟩, ⟨27, 16, .rw, 8, [(8, 4095)]⟩, ⟨15, 15, .ro, 0, []⟩, ⟨12, 0, .rw, 0, []⟩]
  | .tioEwCtl _ => [⟨31, 31, .rw, 0, []⟩, ⟨30, 29, .rw, 1, [(1, 3)]⟩, ⟨28, 24, .rw, 0, []⟩, ⟨15, 15, .ro, 0, []⟩, ⟨12, 0, .rw, 0, []⟩]
  | .plyClkCtl _ => [⟨31, 16, .rw, 10, [(0, 10000)]⟩, ⟨7, 5, .ro, 0, []⟩, ⟨1, 0, .rw, 0, [(0, 1)]⟩]
  | .plyStatus _ => [⟨15, 8, .ro, 0, []⟩, ⟨3, 0, .ro, 0, []⟩]
  | .plyStarts _ => [⟨31, 0, .rc, 0, []⟩]
  | .plyD2dRetry _ => [⟨31, 0, .rc, 0, []⟩]
  | .plyPower _ => [⟨15, 0, .ro, 0, []⟩]
  | .plyLockLoss _ => [⟨31, 0, .rc, 0, []⟩]
  | .strCtl _ => [⟨31, 24, .wo, 0, []⟩, ⟨0, 0, .wo, 0, []⟩]
  | .strStatus _ => [⟨22, 16, .ro, 0, []⟩, ⟨5, 1, .ro, 0, []⟩, ⟨0, 0, .ro, 1, []⟩]
  | .strFlags _ => [⟨3, 0, .w1c, 0, []⟩]
  | .strSummary _ => [⟨10, 0, .ro, 0, []⟩]
  | .strPower _ => [⟨15, 0, .ro, 0, []⟩]
  | .seqCtl _ => [⟨31, 24, .rw, 0, [(0, 3), (255, 255)]⟩, ⟨11, 11, .rw, 0, []⟩, ⟨10, 10, .rw, 0, []⟩, ⟨9, 8, .rw, 0, [(0, 1)]⟩, ⟨2, 2, .wo, 0, []⟩, ⟨1, 1, .wo, 0, []⟩, ⟨0, 0, .wo, 0, []⟩]
  | .seqStatus _ => [⟨31, 0, .ro, 0, []⟩]
  | .seqStart _ => [⟨16, 0, .rw, 0, []⟩]
  | .seqTrigMask _ => [⟨31, 0, .rw, 0, []⟩]
  | .seqStartTimeLo _ => [⟨31, 0, .rw, 0, []⟩]
  | .seqStartTimeHi _ => [⟨31, 0, .rw, 0, []⟩]
  | .seqStreamQ _ => [⟨14, 0, .rw, 0, []⟩]
  | .seqPc _ => [⟨16, 0, .ro, 0, []⟩]
  | .seqShot _ => [⟨31, 0, .ro, 0, []⟩]
  | .seqTrigLost _ => [⟨31, 0, .rc, 0, []⟩]
  | .seqFlags _ => [⟨8, 0, .w1c, 0, []⟩]
  | .seqTrigDrop _ => [⟨31, 0, .rc, 0, []⟩]
  | .seqLastTrigLo _ => [⟨31, 0, .ro, 0, []⟩]
  | .seqLastTrigHi _ => [⟨31, 0, .ro, 0, []⟩]
  | .seqOwn _ _ => [⟨4, 4, .rw, 0, []⟩, ⟨2, 0, .rw, 0, []⟩]
  | .outToneCtl _ n => [⟨31, 31, .rw, 0, []⟩, ⟨27, 16, .rw, n, []⟩, ⟨9, 0, .rw, 0, []⟩]
  | .outToneOfs _ _ => [⟨31, 0, .rw, 0, []⟩]
  | .outToneGain _ _ => [⟨31, 16, .rw, 0, []⟩, ⟨15, 0, .rw, 0x7FFF, []⟩]
  | .outToneStat _ _ => [⟨9, 0, .ro, 0, []⟩]
  | .outRfCtl _ _ => [⟨31, 24, .rw, 0, [(0, 1), (255, 255)]⟩, ⟨12, 8, .rw, 0, []⟩, ⟨1, 0, .rw, 0, [(0, 1)]⟩]
  | .outBbCtl _ _ => [⟨31, 24, .rw, 0, [(0, 2), (255, 255)]⟩, ⟨17, 17, .wo, 0, []⟩, ⟨12, 8, .rw, 0, []⟩, ⟨4, 4, .rw, 0, []⟩, ⟨3, 0, .rw, 0, []⟩]
  | .outClipCnt _ _ => [⟨31, 0, .rc, 0, []⟩]
  | .outRfOut _ _ => [⟨15, 12, .ro, 0, []⟩, ⟨5, 5, .rw, 0, []⟩, ⟨3, 2, .rw, 3, []⟩, ⟨0, 0, .rw, 0, []⟩]
  | .outBbOut _ _ => [⟨31, 24, .rw, 16, [(1, 255)]⟩, ⟨15, 10, .ro, 0, []⟩, ⟨9, 9, .w1c, 0, []⟩, ⟨3, 2, .rw, 0, []⟩, ⟨0, 0, .rw, 0, []⟩]
  | .outStatic _ _ => [⟨15, 0, .rw, 0, []⟩]
  | .outSense _ _ => [⟨15, 0, .ro, 0, []⟩]
  | .outFreqLo _ _ => [⟨31, 0, .rw, 0, []⟩]
  | .outFreqHi _ _ => [⟨15, 0, .rw, 0, []⟩]
  | .outPdCoef _ n => [⟨31, 0, .rw, pdCoefReset n, []⟩]
  | .outFrame _ _ => [⟨31, 0, .rw, 0, []⟩]
  | .acqInCtl _ _ => [⟨31, 24, .rw, 0, [(0, 1), (255, 255)]⟩, ⟨15, 14, .ro, 0, []⟩, ⟨11, 8, .rw, 0, []⟩, ⟨2, 1, .rw, 0, [(0, 1)]⟩, ⟨0, 0, .rw, 0, []⟩]
  | .acqInStat _ _ => [⟨2, 0, .ro, 0, []⟩]
  | .acqOvrCnt _ _ => [⟨31, 0, .rc, 0, []⟩]
  | .acqRawQ _ _ => [⟨14, 0, .rw, 0, []⟩]
  | .acqRawLost _ _ => [⟨31, 0, .rc, 0, []⟩]
  | .acqFlags _ => [⟨3, 0, .w1c, 0, []⟩]
  | .acqToneCtl _ _ => [⟨31, 24, .rw, 0, [(0, 1), (255, 255)]⟩, ⟨8, 8, .ro, 0, []⟩, ⟨5, 3, .rw, 2, []⟩, ⟨0, 0, .rw, 0, []⟩]
  | .discCtl _ _ => [⟨31, 24, .rw, 0, [(0, 1), (255, 255)]⟩, ⟨17, 17, .wo, 0, []⟩, ⟨1, 1, .rw, 1, []⟩, ⟨0, 0, .rw, 1, []⟩]
  | .discMap _ _ => [⟨15, 0, .rw, 0xFFFF, []⟩]
  | .discLineAb _ _ _ => [⟨31, 16, .rw, 0, []⟩, ⟨15, 0, .rw, 0, []⟩]
  | .discLineCLo _ _ _ => [⟨31, 0, .rw, 0, []⟩]
  | .discLineCHi _ _ _ => [⟨15, 0, .rw, 0, []⟩]
  | .discResQ _ => [⟨17, 17, .rw, 0, []⟩, ⟨16, 16, .rw, 0, []⟩, ⟨14, 0, .rw, 0, []⟩]
  | .discResLost _ => [⟨31, 0, .rc, 0, []⟩]
  | .discFlags _ => [⟨2, 0, .w1c, 0, []⟩]
  | .discStaged _ => [⟨11, 0, .ro, 0, []⟩]
  | .countWord _ => [⟨31, 30, .w1c, 0, []⟩, ⟨29, 0, .ro, 0, []⟩]
/-- The registers of BAR0 offsets 0x000000 to 0x000FFF (R415). -/
def RegId.ofId (o : Nat) : Option RegId :=
  if o = 0x0 then some (.idVariant) else
  if o = 0x8 then some (.idSerialLo) else
  if o = 0xC then some (.idSerialHi) else
  if 0x100 ≤ o ∧ o < 0x138 ∧ (o - 0x100) % 8 = 0 then some (.idDieLo ((o - 0x100) / 8)) else
  if 0x104 ≤ o ∧ o < 0x13C ∧ (o - 0x104) % 8 = 0 then some (.idDieHi ((o - 0x104) / 8)) else
  none

/-- The registers of BAR0 offsets 0x001000 to 0x001FFF (R415). -/
def RegId.ofMode (o : Nat) : Option RegId :=
  if o = 0x1000 then some (.modeCtl) else
  if o = 0x1004 then some (.modeStatus) else
  if o = 0x1008 then some (.modeEntryLo) else
  if o = 0x100C then some (.modeEntryHi) else
  if o = 0x1010 then some (.modeResumeLo) else
  if o = 0x1014 then some (.modeResumeHi) else
  if o = 0x1018 then some (.modeWakeEn) else
  if o = 0x1020 then some (.modeWakeLo) else
  if o = 0x1024 then some (.modeWakeHi) else
  if o = 0x1100 then some (.mcCtl) else
  if o = 0x1104 then some (.mcStatus) else
  if o = 0x1108 then some (.mcBootStat) else
  if o = 0x110C then some (.mcFlags) else
  if o = 0x1110 then some (.mcFwVer) else
  if o = 0x1114 then some (.mcUcVer) else
  if o = 0x1118 then some (.mcSvn) else
  if o = 0x1120 then some (.mcUcLoadLo) else
  if o = 0x1124 then some (.mcUcLoadHi) else
  if o = 0x1130 then some (.mcMbCmd) else
  if o = 0x1134 then some (.mcMbArg) else
  if o = 0x1138 then some (.mcMbRsp) else
  if o = 0x113C then some (.mcMbStat) else
  if 0x1800 ≤ o ∧ o < 0x2000 ∧ (o - 0x1800) % 4 = 0 then some (.mcMbData ((o - 0x1800) / 4)) else
  none

/-- The registers of BAR0 offsets 0x002000 to 0x003FFF (R415). -/
def RegId.ofPwr (o : Nat) : Option RegId :=
  if o = 0x2000 then some (.pwrCtl) else
  if o = 0x2004 then some (.pwrStatus) else
  if o = 0x2008 then some (.pwrRailStat) else
  if o = 0x200C then some (.pwrMains) else
  if o = 0x2010 then some (.pwrDcPwr) else
  if o = 0x2014 then some (.pwrGated) else
  if o = 0x2018 then some (.pwrFlags) else
  if 0x2020 ≤ o ∧ o < 0x2038 ∧ (o - 0x2020) % 4 = 0 then some (.pwrFan ((o - 0x2020) / 4)) else
  if o = 0x2040 then some (.pwrJrnSel) else
  if o = 0x2044 then some (.pwrJrnLast) else
  if o = 0x2048 then some (.pwrJrnTorn) else
  if 0x2100 ≤ o ∧ o < 0x2200 ∧ (o - 0x2100) % 4 = 0 then some (.pwrJrnData ((o - 0x2100) / 4)) else
  if o = 0x3000 then some (.thmCtl) else
  if o = 0x3004 then some (.thmStatus) else
  if o = 0x3008 then some (.thmFlags) else
  if 0x3100 ≤ o ∧ o < 0x3158 ∧ (o - 0x3100) % 4 = 0 then some (.thmDiode ((o - 0x3100) / 4)) else
  if 0x3200 ≤ o ∧ o < 0x3220 ∧ (o - 0x3200) % 4 = 0 then some (.thmExt ((o - 0x3200) / 4)) else
  if 0x3240 ≤ o ∧ o < 0x3260 ∧ (o - 0x3240) % 4 = 0 then some (.thmExtLim ((o - 0x3240) / 4)) else
  none

/-- The registers of BAR0 offsets 0x004000 to 0x00FFFF (R415). -/
def RegId.ofQm (o : Nat) : Option RegId :=
  if o = 0x4000 then some (.qmCtl) else
  if o = 0x4004 then some (.qmStatus) else
  if o = 0x4008 then some (.qmFlags) else
  if o = 0x400C then some (.qmEvDrop) else
  if o = 0x4010 then some (.qmSel) else
  if o = 0x4014 then some (.qmQctl) else
  if o = 0x4018 then some (.qmQbaseLo) else
  if o = 0x401C then some (.qmQbaseHi) else
  if o = 0x4020 then some (.qmQsize) else
  if o = 0x4024 then some (.qmQthr) else
  if o = 0x4028 then some (.qmQdrop) else
  if o = 0x402C then some (.qmQrewind) else
  if o = 0x4030 then some (.qmQflushed) else
  if o = 0x4034 then some (.qmQstat) else
  none

/-- The registers of BAR0 offsets 0x010000 to 0x01FFFF (R415). -/
def RegId.ofHif (o : Nat) : Option RegId :=
  if o = 0x10000 then some (.hifCtl) else
  if o = 0x10004 then some (.hifKick) else
  if o = 0x10008 then some (.hifDbLo) else
  if o = 0x1000C then some (.hifDbHi) else
  if o = 0x10010 then some (.hifLinkStat) else
  if o = 0x10014 then some (.hifFlags) else
  if o = 0x10018 then some (.hifInflight) else
  if 0x11000 ≤ o ∧ o < 0x11800 ∧ (o - 0x11000) % 32 = 0 then some (.hifRingCtl ((o - 0x11000) / 32)) else
  if 0x11004 ≤ o ∧ o < 0x11804 ∧ (o - 0x11004) % 32 = 0 then some (.hifSqLo ((o - 0x11004) / 32)) else
  if 0x11008 ≤ o ∧ o < 0x11808 ∧ (o - 0x11008) % 32 = 0 then some (.hifSqHi ((o - 0x11008) / 32)) else
  if 0x1100C ≤ o ∧ o < 0x1180C ∧ (o - 0x1100C) % 32 = 0 then some (.hifCqLo ((o - 0x1100C) / 32)) else
  if 0x11010 ≤ o ∧ o < 0x11810 ∧ (o - 0x11010) % 32 = 0 then some (.hifCqHi ((o - 0x11010) / 32)) else
  if 0x11014 ≤ o ∧ o < 0x11814 ∧ (o - 0x11014) % 32 = 0 then some (.hifRingQ ((o - 0x11014) / 32)) else
  if 0x11018 ≤ o ∧ o < 0x11818 ∧ (o - 0x11018) % 32 = 0 then some (.hifRingStat ((o - 0x11018) / 32)) else
  if 0x1101C ≤ o ∧ o < 0x1181C ∧ (o - 0x1101C) % 32 = 0 then some (.hifRingIdx ((o - 0x1101C) / 32)) else
  none

/-- The registers of BAR0 offsets 0x020000 to 0x02FFFF (R415). -/
def RegId.ofTime (o : Nat) : Option RegId :=
  if o = 0x20000 then some (.syncCtl) else
  if o = 0x20004 then some (.syncStatus) else
  if o = 0x20008 then some (.syncLoadLo) else
  if o = 0x2000C then some (.syncLoadHi) else
  if o = 0x20010 then some (.syncEpochLo) else
  if o = 0x20014 then some (.syncEpochHi) else
  if o = 0x20018 then some (.syncRtt) else
  if o = 0x2001C then some (.syncAsym) else
  if o = 0x20020 then some (.syncHopDly) else
  if o = 0x20024 then some (.syncDev) else
  if o = 0x20028 then some (.syncFlags) else
  if o = 0x21000 then some (.ptpCtl) else
  if o = 0x21004 then some (.ptpStatus) else
  if 0x21010 ≤ o ∧ o < 0x21018 ∧ (o - 0x21010) % 4 = 0 then some (.ptpDom ((o - 0x21010) / 4)) else
  if o = 0x21018 then some (.ptpServo) else
  if o = 0x2101C then some (.ptpLockThr) else
  if 0x21020 ≤ o ∧ o < 0x21028 ∧ (o - 0x21020) % 4 = 0 then some (.ptpOffset ((o - 0x21020) / 4)) else
  if o = 0x21028 then some (.ptpRate) else
  if o = 0x21030 then some (.ptpSnapTimeLo) else
  if o = 0x21034 then some (.ptpSnapTimeHi) else
  if o = 0x21038 then some (.ptpSnapSecLo) else
  if o = 0x2103C then some (.ptpSnapSecHi) else
  if o = 0x21040 then some (.ptpSnapNs) else
  if o = 0x21044 then some (.ptpWallSecLo) else
  if o = 0x21048 then some (.ptpWallSecHi) else
  if o = 0x2104C then some (.ptpWallNs) else
  if o = 0x21050 then some (.ptpTsq) else
  if o = 0x21054 then some (.ptpTsDrop) else
  if o = 0x21058 then some (.ptpFlags) else
  none

/-- The registers of BAR0 offsets 0x030000 to 0x03FFFF (R415). -/
def RegId.ofHch (o : Nat) : Option RegId :=
  if o = 0x30000 then some (.hchCtl) else
  if o = 0x30008 then some (.hchFlags) else
  if 0x30100 ≤ o ∧ o < 0x30180 ∧ (o - 0x30100) % 16 = 0 then some (.hchDirCtl ((o - 0x30100) / 16)) else
  if 0x30104 ≤ o ∧ o < 0x30184 ∧ (o - 0x30104) % 16 = 0 then some (.hchDirPeer ((o - 0x30104) / 16)) else
  if 0x30108 ≤ o ∧ o < 0x30188 ∧ (o - 0x30108) % 16 = 0 then some (.hchDirStat ((o - 0x30108) / 16)) else
  if 0x3010C ≤ o ∧ o < 0x3018C ∧ (o - 0x3010C) % 16 = 0 then some (.hchChkErr ((o - 0x3010C) / 16)) else
  if 0x30200 ≤ o ∧ o < 0x30400 ∧ (o - 0x30200) % 16 = 0 then some (.hchLaneCtl ((o - 0x30200) / 16)) else
  if 0x30204 ≤ o ∧ o < 0x30404 ∧ (o - 0x30204) % 16 = 0 then some (.hchLaneStat ((o - 0x30204) / 16)) else
  if 0x30208 ≤ o ∧ o < 0x30408 ∧ (o - 0x30208) % 16 = 0 then some (.hchHdrErr ((o - 0x30208) / 16)) else
  if 0x3020C ≤ o ∧ o < 0x3040C ∧ (o - 0x3020C) % 16 = 0 then some (.hchPrbsErr ((o - 0x3020C) / 16)) else
  if 0x30400 ≤ o ∧ o < 0x30500 ∧ (o - 0x30400) % 4 = 0 then some (.hchExport ((o - 0x30400) / 4)) else
  if 0x30500 ≤ o ∧ o < 0x30560 ∧ (o - 0x30500) % 4 = 0 then some (.hchTxMap ((o - 0x30500) / 4)) else
  if 0x30580 ≤ o ∧ o < 0x30640 ∧ (o - 0x30580) % 8 = 0 then some (.hchRxLo ((o - 0x30580) / 8)) else
  if 0x30584 ≤ o ∧ o < 0x30644 ∧ (o - 0x30584) % 8 = 0 then some (.hchRxHi ((o - 0x30584) / 8)) else
  none

/-- The registers of BAR0 offsets 0x040000 to 0x04FFFF (R415). -/
def RegId.ofDec (o : Nat) : Option RegId :=
  if o = 0x40000 then some (.decCtl) else
  if o = 0x40004 then some (.decStatus) else
  if o = 0x40008 then some (.decFlags) else
  if 0x40010 ≤ o ∧ o < 0x40020 ∧ (o - 0x40010) % 4 = 0 then some (.decSbErr ((o - 0x40010) / 4)) else
  if 0x40100 ≤ o ∧ o < 0x40500 ∧ (o - 0x40100) % 4 = 0 then some (.decDctl ((o - 0x40100) / 4)) else
  if 0x40800 ≤ o ∧ o < 0x42800 ∧ (o - 0x40800) % 4 = 0 then some (.decDsel ((o - 0x40800) / 4)) else
  if 0x43000 ≤ o ∧ o < 0x43800 ∧ (o - 0x43000) % 512 < 512 ∧ (o - 0x43000) % 512 % 4 = 0 then some (.decImport ((o - 0x43000) / 512) ((o - 0x43000) % 512 / 4)) else
  if 0x44000 ≤ o ∧ o < 0x44020 ∧ (o - 0x44000) % 4 = 0 then some (.decDval ((o - 0x44000) / 4)) else
  if 0x44020 ≤ o ∧ o < 0x44040 ∧ (o - 0x44020) % 4 = 0 then some (.decDstale ((o - 0x44020) / 4)) else
  if 0x44100 ≤ o ∧ o < 0x44200 ∧ (o - 0x44100) % 4 = 0 then some (.decSlotVal ((o - 0x44100) / 4)) else
  none

/-- The registers of BAR0 offsets 0x050000 to 0x05FFFF (R415). -/
def RegId.ofMem (o : Nat) : Option RegId :=
  if o = 0x50000 then some (.memCtl) else
  if o = 0x50004 then some (.memStatus) else
  if o = 0x50008 then some (.memFlags) else
  if o = 0x5000C then some (.memCeCnt) else
  if o = 0x50010 then some (.memUeCnt) else
  if o = 0x50014 then some (.memUeAddrLo) else
  if o = 0x50018 then some (.memUeAddrHi) else
  if o = 0x5001C then some (.memDieMark) else
  if o = 0x50020 then some (.memScrubPos) else
  if o = 0x50024 then some (.memSramCe) else
  if o = 0x50028 then some (.memSramUe) else
  if o = 0x5002C then some (.memDpChk) else
  if o = 0x50030 then some (.memD2dRetry) else
  if 0x50100 ≤ o ∧ o < 0x50188 ∧ (o - 0x50100) % 4 = 0 then some (.memDieCe ((o - 0x50100) / 4)) else
  if o = 0x50200 then some (.memTestCtl) else
  if o = 0x50204 then some (.memTestBaseLo) else
  if o = 0x50208 then some (.memTestBaseHi) else
  if o = 0x5020C then some (.memTestLenLo) else
  if o = 0x50210 then some (.memTestLenHi) else
  if o = 0x50214 then some (.memTestStat) else
  if o = 0x50218 then some (.memTestFailLo) else
  if o = 0x5021C then some (.memTestFailHi) else
  if o = 0x50220 then some (.memTestFailCnt) else
  if o = 0x50224 then some (.memTestSeed) else
  none

/-- The registers of BAR0 offsets 0x060000 to 0x06FFFF (R415). -/
def RegId.ofCal (o : Nat) : Option RegId :=
  if o = 0x60000 then some (.calCtl) else
  if o = 0x60004 then some (.calInterval) else
  if o = 0x60008 then some (.calFgCtl) else
  if o = 0x6000C then some (.calStatus) else
  if o = 0x60010 then some (.calFlags) else
  if o = 0x60014 then some (.calLastDefer) else
  if o = 0x60018 then some (.calQuietStartLo) else
  if o = 0x6001C then some (.calQuietStartHi) else
  if o = 0x60020 then some (.calQuietEndLo) else
  if o = 0x60024 then some (.calQuietEndHi) else
  if 0x61000 ≤ o ∧ o < 0x61C00 ∧ (o - 0x61000) % 4 = 0 then some (.calApply ((o - 0x61000) / 4)) else
  if 0x62000 ≤ o ∧ o < 0x62C00 ∧ (o - 0x62000) % 4 = 0 then some (.calStat ((o - 0x62000) / 4)) else
  none

/-- The registers of BAR0 offsets 0x070000 to 0x07FFFF (R415). -/
def RegId.ofMon (o : Nat) : Option RegId :=
  if 0x70000 ≤ o ∧ o < 0x70400 ∧ (o - 0x70000) % 16 = 0 then some (.monCtl ((o - 0x70000) / 16)) else
  if 0x70004 ≤ o ∧ o < 0x70404 ∧ (o - 0x70004) % 16 = 0 then some (.monLow ((o - 0x70004) / 16)) else
  if 0x70008 ≤ o ∧ o < 0x70408 ∧ (o - 0x70008) % 16 = 0 then some (.monHigh ((o - 0x70008) / 16)) else
  if 0x7000C ≤ o ∧ o < 0x7040C ∧ (o - 0x7000C) % 16 = 0 then some (.monStat ((o - 0x7000C) / 16)) else
  if 0x70400 ≤ o ∧ o < 0x70500 ∧ (o - 0x70400) % 4 = 0 then some (.monQ ((o - 0x70400) / 4)) else
  if o = 0x70500 then some (.monFlags) else
  if 0x71000 ≤ o ∧ o < 0x71200 ∧ (o - 0x71000) % 16 = 0 then some (.tioInCtl ((o - 0x71000) / 16)) else
  if 0x71004 ≤ o ∧ o < 0x71204 ∧ (o - 0x71004) % 16 = 0 then some (.tioInStat ((o - 0x71004) / 16)) else
  if 0x71008 ≤ o ∧ o < 0x71208 ∧ (o - 0x71008) % 16 = 0 then some (.tioGlitch ((o - 0x71008) / 16)) else
  if 0x71400 ≤ o ∧ o < 0x71480 ∧ (o - 0x71400) % 4 = 0 then some (.tioOutCtl ((o - 0x71400) / 4)) else
  if 0x71500 ≤ o ∧ o < 0x71580 ∧ (o - 0x71500) % 4 = 0 then some (.tioEwCtl ((o - 0x71500) / 4)) else
  none

/-- The SEQ_ registers of global core c, by offset within the core (R101). -/
def RegId.ofCore (c o : Nat) : Option RegId :=
  if o = 0x0 then some (.seqCtl c) else
  if o = 0x4 then some (.seqStatus c) else
  if o = 0x8 then some (.seqStart c) else
  if o = 0xC then some (.seqTrigMask c) else
  if o = 0x10 then some (.seqStartTimeLo c) else
  if o = 0x14 then some (.seqStartTimeHi c) else
  if o = 0x18 then some (.seqStreamQ c) else
  if o = 0x1C then some (.seqPc c) else
  if o = 0x20 then some (.seqShot c) else
  if o = 0x24 then some (.seqTrigLost c) else
  if o = 0x28 then some (.seqFlags c) else
  if o = 0x2C then some (.seqTrigDrop c) else
  if o = 0x30 then some (.seqLastTrigLo c) else
  if o = 0x34 then some (.seqLastTrigHi c) else
  none

/-- The PLY_ registers of ply p, by offset within the ply block (R425). -/
def RegId.ofPly (p o : Nat) : Option RegId :=
  if o = 0x0 then some (.plyClkCtl p) else
  if o = 0x4 then some (.plyStatus p) else
  if o = 0x8 then some (.plyStarts p) else
  if o = 0xC then some (.plyD2dRetry p) else
  if o = 0x10 then some (.plyPower p) else
  if o = 0x14 then some (.plyLockLoss p) else
  none

/-- Strand-block registers of strand s, by offset within the block (R423). -/
def RegId.ofStrandLow (s o : Nat) : Option RegId :=
  if o = 0x0 then some (.strCtl s) else
  if o = 0x4 then some (.strStatus s) else
  if o = 0x8 then some (.strFlags s) else
  if o = 0xC then some (.strSummary s) else
  if o = 0x10 then some (.strPower s) else
  if 0x1400 ≤ o ∧ o < 0x1540 ∧ (o - 0x1400) % 4 = 0 then some (.seqOwn s ((o - 0x1400) / 4)) else
  none

/-- Strand-block registers of strand s, by offset within the block (R423). -/
def RegId.ofStrandOut (s o : Nat) : Option RegId :=
  if 0x2000 ≤ o ∧ o < 0x2400 ∧ (o - 0x2000) % 16 = 0 then some (.outToneCtl s ((o - 0x2000) / 16)) else
  if 0x2004 ≤ o ∧ o < 0x2404 ∧ (o - 0x2004) % 16 = 0 then some (.outToneOfs s ((o - 0x2004) / 16)) else
  if 0x2008 ≤ o ∧ o < 0x2408 ∧ (o - 0x2008) % 16 = 0 then some (.outToneGain s ((o - 0x2008) / 16)) else
  if 0x200C ≤ o ∧ o < 0x240C ∧ (o - 0x200C) % 16 = 0 then some (.outToneStat s ((o - 0x200C) / 16)) else
  if 0x2400 ≤ o ∧ o < 0x2418 ∧ (o - 0x2400) % 4 = 0 then some (.outRfCtl s ((o - 0x2400) / 4)) else
  if 0x2440 ≤ o ∧ o < 0x2480 ∧ (o - 0x2440) % 4 = 0 then some (.outBbCtl s ((o - 0x2440) / 4)) else
  if 0x2480 ≤ o ∧ o < 0x24D8 ∧ (o - 0x2480) % 4 = 0 then some (.outClipCnt s ((o - 0x2480) / 4)) else
  if 0x2500 ≤ o ∧ o < 0x2518 ∧ (o - 0x2500) % 4 = 0 then some (.outRfOut s ((o - 0x2500) / 4)) else
  if 0x2540 ≤ o ∧ o < 0x2580 ∧ (o - 0x2540) % 4 = 0 then some (.outBbOut s ((o - 0x2540) / 4)) else
  if 0x2580 ≤ o ∧ o < 0x25C0 ∧ (o - 0x2580) % 4 = 0 then some (.outStatic s ((o - 0x2580) / 4)) else
  if 0x25C0 ≤ o ∧ o < 0x2600 ∧ (o - 0x25C0) % 4 = 0 then some (.outSense s ((o - 0x25C0) / 4)) else
  if 0x4000 ≤ o ∧ o < 0x6000 ∧ (o - 0x4000) % 8 = 0 then some (.outFreqLo s ((o - 0x4000) / 8)) else
  if 0x4004 ≤ o ∧ o < 0x6004 ∧ (o - 0x4004) % 8 = 0 then some (.outFreqHi s ((o - 0x4004) / 8)) else
  if 0x6000 ≤ o ∧ o < 0x8000 ∧ (o - 0x6000) % 4 = 0 ∧ (o - 0x6000) / 4 % 128 < 84 then some (.outPdCoef s ((o - 0x6000) / 4)) else
  if 0x8000 ≤ o ∧ o < 0xC000 ∧ (o - 0x8000) % 4 = 0 then some (.outFrame s ((o - 0x8000) / 4)) else
  none

/-- Strand-block registers of strand s, by offset within the block (R423). -/
def RegId.ofStrandAcq (s o : Nat) : Option RegId :=
  if 0xD800 ≤ o ∧ o < 0xD820 ∧ (o - 0xD800) % 4 = 0 then some (.discResQ (8 * s + (o - 0xD800) / 4)) else
  if 0xD820 ≤ o ∧ o < 0xD840 ∧ (o - 0xD820) % 4 = 0 then some (.discResLost (8 * s + (o - 0xD820) / 4)) else
  if 0xC000 ≤ o ∧ o < 0xC008 ∧ (o - 0xC000) % 4 = 0 then some (.acqInCtl s ((o - 0xC000) / 4)) else
  if 0xC008 ≤ o ∧ o < 0xC010 ∧ (o - 0xC008) % 4 = 0 then some (.acqInStat s ((o - 0xC008) / 4)) else
  if 0xC010 ≤ o ∧ o < 0xC018 ∧ (o - 0xC010) % 4 = 0 then some (.acqOvrCnt s ((o - 0xC010) / 4)) else
  if 0xC018 ≤ o ∧ o < 0xC020 ∧ (o - 0xC018) % 4 = 0 then some (.acqRawQ s ((o - 0xC018) / 4)) else
  if 0xC020 ≤ o ∧ o < 0xC028 ∧ (o - 0xC020) % 4 = 0 then some (.acqRawLost s ((o - 0xC020) / 4)) else
  if o = 0xC030 then some (.acqFlags s) else
  if 0xC100 ≤ o ∧ o < 0xC180 ∧ (o - 0xC100) % 4 = 0 then some (.acqToneCtl s ((o - 0xC100) / 4)) else
  if 0xD000 ≤ o ∧ o < 0xD800 ∧ (o - 0xD000) % 64 = 0 then some (.discCtl s ((o - 0xD000) / 64)) else
  if 0xD004 ≤ o ∧ o < 0xD804 ∧ (o - 0xD004) % 64 = 0 then some (.discMap s ((o - 0xD004) / 64)) else
  if 0xD008 ≤ o ∧ o < 0xD808 ∧ (o - 0xD008) % 64 < 36 ∧ (o - 0xD008) % 64 % 12 = 0 then some (.discLineAb s ((o - 0xD008) / 64) ((o - 0xD008) % 64 / 12)) else
  if 0xD00C ≤ o ∧ o < 0xD80C ∧ (o - 0xD00C) % 64 < 36 ∧ (o - 0xD00C) % 64 % 12 = 0 then some (.discLineCLo s ((o - 0xD00C) / 64) ((o - 0xD00C) % 64 / 12)) else
  if 0xD010 ≤ o ∧ o < 0xD810 ∧ (o - 0xD010) % 64 < 36 ∧ (o - 0xD010) % 64 % 12 = 0 then some (.discLineCHi s ((o - 0xD010) / 64) ((o - 0xD010) % 64 / 12)) else
  if o = 0xD840 then some (.discFlags s) else
  if o = 0xD844 then some (.discStaged s) else
  none

/-- The register at offset o of the strand block of strand s (R423). -/
def RegId.ofStrand (s o : Nat) : Option RegId :=
  if o < 0x1000 then RegId.ofStrandLow s o else
  if o < 0x1200 then RegId.ofCore (8 * s + (o - 0x1000) / 0x40) ((o - 0x1000) % 0x40) else
  if o < 0x2000 then RegId.ofStrandLow s o else
  if o < 0xC000 then RegId.ofStrandOut s o else
  RegId.ofStrandAcq s o

/-- The register at BAR0 offset o, or none where no chapter assigns one (R415, R416). -/
def RegId.ofOff (o : Nat) : Option RegId :=
  if o < 0x1000 then RegId.ofId o else
  if o < 0x2000 then RegId.ofMode o else
  if o < 0x4000 then RegId.ofPwr o else
  if o < 0x10000 then RegId.ofQm o else
  if o < 0x20000 then RegId.ofHif o else
  if o < 0x30000 then RegId.ofTime o else
  if o < 0x40000 then RegId.ofHch o else
  if o < 0x50000 then RegId.ofDec o else
  if o < 0x60000 then RegId.ofMem o else
  if o < 0x70000 then RegId.ofCal o else
  if o < 0x80000 then RegId.ofMon o else
  if o < 0x100000 then none else
  if o < 0x200000 then RegId.ofPly ((o - 0x100000) / 0x40000) ((o - 0x100000) % 0x40000) else
  if o < 0x400000 then RegId.ofStrand ((o - 0x200000) / 0x10000) ((o - 0x200000) % 0x10000) else
  if 0x800000 ≤ o ∧ o < 0x820000 ∧ o % 4 = 0 then some (.countWord ((o - 0x800000) / 4)) else
  none

/-- The reset word of a register: its fields at their reset values (R14). -/
def RegId.reset (r : RegId) : Word :=
  r.fields.foldl (fun w f => setF w f.hi f.lo f.reset) 0

/-- The bits a field takes up. -/
def Field.mask (f : Field) : Nat := (2 ^ (f.hi - f.lo + 1) - 1) <<< f.lo

/-- Whether a value is an allowed encoding of the field (R15). -/
def Field.allows (f : Field) (v : Nat) : Bool :=
  f.ok.isEmpty || f.ok.any (fun p => decide (p.1 ≤ v) && decide (v ≤ p.2))

/-- The bits of a register with the given access code. -/
def RegId.maskOf (r : RegId) (a : Acc) : Nat :=
  (r.fields.filter (fun f => f.acc = a)).foldl (fun m f => m ||| f.mask) 0

/-- The word an RW register holds after a write: each RW field takes the written value unless that is a
reserved encoding, and every other bit keeps the old one (R14, R15). -/
def RegId.merge (r : RegId) (old w : Word) : Word :=
  r.fields.foldl (fun acc f =>
    if f.acc = .rw ∧ f.allows (getF w f.hi f.lo) = true then setF acc f.hi f.lo (getF w f.hi f.lo) else acc) old

/-- Whether the register is a counter that a read clears (R14). -/
def RegId.isRc (r : RegId) : Bool := r.fields.any (fun f => f.acc = .rc)

end Sys2Proof.Machine
end

