-- ==== Sys2Proof/Machine/Flags.lean ====
section
/-! DEFINITION. The events of the module (R430): their codes, the flag bit each sets, and the reading of
flag summaries (R424). -/

namespace Sys2Proof.Machine

/-- The events of R430. RESULT_LOST stands three times, once for each cause, since each cause has its own
flag bit (R202); the splices of the Ethernet ports stand apart because they set bits of PTP_FLAGS (R270). -/
inductive Ev where
  | modeChange
  | modeRefused
  | enablePended
  | bootFail
  | mcRestart
  | imgFallback
  | mcRecord
  | issueLate
  | condDeferred
  | condLost
  | trigLost
  | trigTimeout
  | streamUnderrun
  | stackFault
  | illegalWord
  | syncMismatch
  | envMismatch
  | freqRange
  | synthClip
  | outComply
  | ovr
  | winOverlap
  | rawLost
  | acqConfig
  | lostFull
  | lostQueue
  | lostCheck
  | decUnmapped
  | decSideband
  | spliceAtoB
  | spliceRevert
  | hchDown
  | hchStandby
  | hchDelay
  | hchCheck
  | hchConfig
  | ethSplice
  | ethRevert
  | refLost
  | refRestored
  | clkFault
  | syncLoaded
  | syncRefused
  | syncDrift
  | syncSkewfail
  | ptpStep
  | ptpDomain
  | ptpUnlock
  | tsLost
  | launchLate
  | hifRing
  | hifLinkdown
  | hifDegraded
  | hifDmaerr
  | qmConfig
  | qmDrop
  | qmCheck
  | qmReader
  | eventLost
  | monWindow
  | monOpen
  | trigEdge
  | tioEvwin
  | calForced
  | calDeferred
  | calOutlier
  | calFail
  | calRef
  | memCe
  | memUe
  | memDiemark
  | memDiefail
  | sramCe
  | sramUe
  | dpathCheck
  | d2dRetrain
  | pwrFail
  | railFault
  | thermTrip
  | thermWarn
  | thermHigh
  | thermExt
  | thermBand
  | fanFail
  | jrnTorn
  deriving DecidableEq, Repr

/-- The event codes (R430). -/
def Ev.code : Ev → Nat
  | .modeChange => 0x0101
  | .modeRefused => 0x0102
  | .enablePended => 0x0103
  | .bootFail => 0x0104
  | .mcRestart => 0x0105
  | .imgFallback => 0x0106
  | .mcRecord => 0x0107
  | .issueLate => 0x0201
  | .condDeferred => 0x0202
  | .condLost => 0x0203
  | .trigLost => 0x0204
  | .trigTimeout => 0x0205
  | .streamUnderrun => 0x0206
  | .stackFault => 0x0207
  | .illegalWord => 0x0208
  | .syncMismatch => 0x0209
  | .envMismatch => 0x0301
  | .freqRange => 0x0302
  | .synthClip => 0x0303
  | .outComply => 0x0304
  | .ovr => 0x0401
  | .winOverlap => 0x0402
  | .rawLost => 0x0404
  | .acqConfig => 0x0403
  | .lostFull => 0x0405
  | .lostQueue => 0x0405
  | .lostCheck => 0x0405
  | .decUnmapped => 0x0501
  | .decSideband => 0x0502
  | .spliceAtoB => 0x0503
  | .spliceRevert => 0x0504
  | .hchDown => 0x0505
  | .hchStandby => 0x0506
  | .hchDelay => 0x0507
  | .hchCheck => 0x0508
  | .hchConfig => 0x0509
  | .ethSplice => 0x0503
  | .ethRevert => 0x0504
  | .refLost => 0x0601
  | .refRestored => 0x0602
  | .clkFault => 0x0603
  | .syncLoaded => 0x0604
  | .syncRefused => 0x0605
  | .syncDrift => 0x0606
  | .syncSkewfail => 0x0607
  | .ptpStep => 0x0608
  | .ptpDomain => 0x0609
  | .ptpUnlock => 0x060A
  | .tsLost => 0x060B
  | .launchLate => 0x060C
  | .hifRing => 0x0701
  | .hifLinkdown => 0x0702
  | .hifDegraded => 0x0703
  | .hifDmaerr => 0x0704
  | .qmConfig => 0x0705
  | .qmDrop => 0x0706
  | .qmCheck => 0x0707
  | .qmReader => 0x0708
  | .eventLost => 0x0709
  | .monWindow => 0x0801
  | .monOpen => 0x0802
  | .trigEdge => 0x0803
  | .tioEvwin => 0x0804
  | .calForced => 0x0901
  | .calDeferred => 0x0902
  | .calOutlier => 0x0903
  | .calFail => 0x0904
  | .calRef => 0x0905
  | .memCe => 0x0A01
  | .memUe => 0x0A02
  | .memDiemark => 0x0A03
  | .memDiefail => 0x0A04
  | .sramCe => 0x0A05
  | .sramUe => 0x0A06
  | .dpathCheck => 0x0A07
  | .d2dRetrain => 0x0A08
  | .pwrFail => 0x0B01
  | .railFault => 0x0B02
  | .thermTrip => 0x0B03
  | .thermWarn => 0x0B04
  | .thermHigh => 0x0B05
  | .thermExt => 0x0B06
  | .thermBand => 0x0B07
  | .fanFail => 0x0B08
  | .jrnTorn => 0x0B09

/-- The flag register and bit that an event sets (R430); `i` is the core or strand whose register it is,
where the register stands once per core or strand. -/
def Ev.flag (e : Ev) (i : Nat) : Option (RegId × Nat) :=
  match e with
  | .modeChange => none
  | .modeRefused => none
  | .enablePended => none
  | .bootFail => none
  | .mcRestart => some (.mcFlags, 0)
  | .imgFallback => some (.mcFlags, 1)
  | .mcRecord => some (.mcFlags, 2)
  | .issueLate => some ((.seqFlags i), 0)
  | .condDeferred => some ((.seqFlags i), 1)
  | .condLost => some ((.seqFlags i), 2)
  | .trigLost => some ((.seqFlags i), 3)
  | .trigTimeout => some ((.seqFlags i), 4)
  | .streamUnderrun => some ((.seqFlags i), 5)
  | .stackFault => some ((.seqFlags i), 6)
  | .illegalWord => some ((.seqFlags i), 7)
  | .syncMismatch => some ((.seqFlags i), 8)
  | .envMismatch => some ((.strFlags i), 0)
  | .freqRange => some ((.strFlags i), 1)
  | .synthClip => some ((.strFlags i), 2)
  | .outComply => some ((.strFlags i), 3)
  | .ovr => some ((.acqFlags i), 0)
  | .winOverlap => some ((.acqFlags i), 1)
  | .rawLost => some ((.acqFlags i), 2)
  | .acqConfig => some ((.acqFlags i), 3)
  | .lostFull => some ((.discFlags i), 0)
  | .lostQueue => some ((.discFlags i), 1)
  | .lostCheck => some ((.discFlags i), 2)
  | .decUnmapped => some (.decFlags, 0)
  | .decSideband => some (.decFlags, 1)
  | .spliceAtoB => some (.hchFlags, 0)
  | .spliceRevert => some (.hchFlags, 1)
  | .hchDown => some (.hchFlags, 2)
  | .hchStandby => some (.hchFlags, 3)
  | .hchDelay => some (.hchFlags, 4)
  | .hchCheck => some (.hchFlags, 5)
  | .hchConfig => some (.hchFlags, 6)
  | .ethSplice => some (.ptpFlags, 3)
  | .ethRevert => some (.ptpFlags, 4)
  | .refLost => some (.syncFlags, 0)
  | .refRestored => some (.syncFlags, 1)
  | .clkFault => some (.syncFlags, 2)
  | .syncLoaded => some (.syncFlags, 3)
  | .syncRefused => some (.syncFlags, 4)
  | .syncDrift => some (.syncFlags, 5)
  | .syncSkewfail => some (.syncFlags, 6)
  | .ptpStep => some (.ptpFlags, 0)
  | .ptpDomain => some (.ptpFlags, 1)
  | .ptpUnlock => some (.ptpFlags, 2)
  | .tsLost => some (.ptpFlags, 5)
  | .launchLate => some (.ptpFlags, 6)
  | .hifRing => some (.hifFlags, 0)
  | .hifLinkdown => none
  | .hifDegraded => some (.hifFlags, 1)
  | .hifDmaerr => some (.hifFlags, 2)
  | .qmConfig => some (.qmFlags, 0)
  | .qmDrop => some (.qmFlags, 1)
  | .qmCheck => some (.qmFlags, 2)
  | .qmReader => some (.qmFlags, 3)
  | .eventLost => some (.qmFlags, 4)
  | .monWindow => some (.monFlags, 0)
  | .monOpen => some (.monFlags, 1)
  | .trigEdge => none
  | .tioEvwin => none
  | .calForced => some (.calFlags, 0)
  | .calDeferred => some (.calFlags, 1)
  | .calOutlier => some (.calFlags, 2)
  | .calFail => some (.calFlags, 3)
  | .calRef => some (.calFlags, 4)
  | .memCe => some (.memFlags, 0)
  | .memUe => some (.memFlags, 1)
  | .memDiemark => some (.memFlags, 2)
  | .memDiefail => some (.memFlags, 3)
  | .sramCe => some (.memFlags, 4)
  | .sramUe => some (.memFlags, 5)
  | .dpathCheck => some (.memFlags, 6)
  | .d2dRetrain => some (.memFlags, 7)
  | .pwrFail => none
  | .railFault => some (.pwrFlags, 0)
  | .thermTrip => some (.thmFlags, 2)
  | .thermWarn => some (.thmFlags, 0)
  | .thermHigh => some (.thmFlags, 1)
  | .thermExt => some (.thmFlags, 3)
  | .thermBand => some (.thmFlags, 4)
  | .fanFail => some (.pwrFlags, 1)
  | .jrnTorn => some (.pwrFlags, 2)

end Sys2Proof.Machine
end

