-- ==== Sys2Proof/Machine/State.lean ====
section
/-! DEFINITION. The state of the module as plain data: every register, memory, queue, buffer, counter, mode
and output state the manual gives it, the commands that wait, and the state right after power-on reset.
Sparse arrays are association lists whose keys rise strictly (`Tab`); an unlisted key reads as the default
that the reading operation names. Times are module times in ticks (R8). -/

namespace Sys2Proof.Machine

/-- A sparse array: keys strictly rising; an unlisted key reads as the default of the operation that reads
it. -/
abbrev Tab (α : Type) := List (Nat × α)

/-- A byte memory in canonical form: addresses strictly rising, no byte equal to 0, which is what an
unlisted address reads as (notes/assumptions/5). -/
abbrev Mem := List Host.Cell

/-- An image header with its magic, kind, format, version and length, as the slots hold it when the module is
shipped (R403; notes/assumptions/13): slot 0 of each kind holds an image, slot 1 is erased. -/
def shippedHeader (kind len : Nat) : Mem :=
  [(0, 0x47), (1, 0x4D), (2, 0x49), (3, 0x56), (4, BitVec.ofNat 8 kind), (6, 0x01), (15, 0x01)] ++
  ([(12, len % 256), (13, len / 256 % 256), (14, len / 65536 % 256)].map (fun p => (p.1 + 4, BitVec.ofNat 8 p.2))).filter
    (fun c => decide (c.2 ≠ 0))

/-- The image slots as shipped: 0 and 1 firmware, 2 and 3 microcode (R406). -/
def shippedSlots : Tab Mem := [(0, shippedHeader 1 4096), (2, shippedHeader 2 327712)]

/-- The eight operating modes (R38). -/
inductive Mode where
  | dormant | boot | ready | run | hold | calibrate | test | safe
  deriving DecidableEq, Repr

/-- Supply of the module: off, on from mains, or on hold-up energy (R374). -/
inductive Supply where
  | off | on | holdUp
  deriving DecidableEq, Repr

/-- What a pending or accepted mode request asks for (R41): a mode code of REQ, SAFE_ACK, or RESET. -/
inductive Req where
  | run | hold | ready | calibrate | test | dormant | safeAck | reset
  deriving DecidableEq, Repr

/-- Operating mode, transitions, HOLD causes and start-up (chapter 02). -/
structure ModeSt where
  mode : Mode := .dormant
  trans : Option (Mode × Nat) := none     -- mode being entered and the latest time of entry (R41)
  transAt : Nat := 0                      -- arrival of the request or cause of that transition
  pend : Option Req := none               -- MODE_STATUS.PEND, PENDREQ (R43, R49, R432)
  tPause : Nat := 0                       -- T_pause of the present or coming HOLD (R46)
  holdHost : Bool := false                -- HOLDCAUSE bits (R47)
  holdRef : Bool := false
  holdTherm : Bool := false
  safeCause : Nat := 0                    -- SAFECAUSE (R431)
  causes : List Nat := []                 -- every trip cause since the last READY entry (R431)
  tripAt : Option Nat := none             -- detection of the trip that is on its way to SAFE (R44)
  bootStep : Nat := 0                     -- BOOTSTEP (R50)
  entryTime : Nat := 0                    -- MODE_ENTRYTIME (R38)
  runEntry : Nat := 0                     -- last entry to RUN (R65)
  ucValid : Bool := false                 -- a verified microcode image is loaded (R42, R404)
  plyPower : Bool := false                -- ply power present (R44, R385)
  wakeWanted : Bool := false              -- a wake source has fired in DORMANT (R54)
  hotHeld : Bool := false                 -- DORMANT_HELD: a sensor read 95 degrees or more (R51)
  autoDone : Bool := false                -- the start-up option has had its effect since power-on (R50)
  full : Bool := false                    -- the trip removed ply power: SAFE is left by RESET only (R44)
  lens : List Nat := []                   -- micro-routine lengths declared by the loaded image (R63)
  served : Bool := false                  -- READY has been reached since BOOT was entered (R52)
  deriving DecidableEq, Repr

/-- Clock state of a ply (R56). -/
inductive PlySt where
  | stopped | starting | locked | stopping
  deriving DecidableEq, Repr

/-- A ply (R22, R56, R58). -/
structure Ply where
  st : PlySt := .stopped
  due : Nat := 0                  -- when the start or stop in progress is complete
  pendEn : Bool := false          -- a start is pending behind a stop (R57)
  idleFrom : Option Nat := none   -- since when no strand of the ply has an enabled unit
  retrain : Option Nat := none    -- die-to-die link retraining, since (R366)
  deriving DecidableEq, Repr

/-- Power state of a strand (R30, R57). -/
inductive Gate where
  | gated | ungating | ungated | gating
  deriving DecidableEq, Repr

/-- A staged result packet (R195): its core, shot number, packet words and the time it entered staging. -/
structure Staged where
  core : Nat
  shot : Nat
  tone : Nat
  word6 : Nat                     -- word at bytes 24 to 27, without EARLY and SHOTINV
  head : List Byte                -- bytes 0 to 23
  at' : Nat
  bad : Bool                      -- parity failed: trailer to be inverted (R194)
  deriving DecidableEq, Repr

/-- A strand (R21, R30, R57, R424). -/
structure Strand where
  gate : Gate := .gated
  due : Nat := 0                      -- end of the gating or ungating in progress
  pendEn : Bool := false              -- an enable waits behind a gating (R57)
  wantUn : Bool := false              -- ungating waits for the ply to lock
  gateAfter : Bool := false           -- the last unit was disabled during ungating (R58)
  rst : Option Nat := none            -- strand reset in progress, since (R424)
  heldW : List (Nat × Word) := []     -- writes held for the strand, in arrival order (R421)
  staged : List Staged := []          -- result staging, oldest first (R195)
  relAt : Nat := 0                    -- the fabric cycle of the last early release (R197)
  deriving DecidableEq, Repr

/-- State of a core (R101). -/
inductive CoreSt where
  | idle | armed | running | waiting | done | fault | held
  deriving DecidableEq, Repr

/-- An open bight (R61, R77). -/
structure Bight where
  body : Nat
  count : Nat            -- iterations left, the present one included; 0 = unbounded
  s0 : Nat               -- iteration start S
  shot : Bool
  deriving DecidableEq, Repr

/-- A shot of a core (R78, R196). -/
structure Shot where
  uid : Nat                       -- names the shot within its core
  no : Nat                        -- shot counter (R78)
  start : Nat
  stop : Option Nat := none       -- end time once it has ended
  depth : Nat := 0                -- bight depth that carries it; 0 = the whole run
  inv : Bool := false             -- invalid whatever the stamps of causes (R200)
  made : Nat := 0                 -- result packets made, lost ones included (R192)
  early : Bool := false           -- a packet was committed early (R192)
  sumDue : Bool := false          -- a summary is due for an early release or a loss (R197)
  openW : Nat := 0                -- windows of the shot that have not handed over yet (R195)
  flushed : Bool := false         -- committed by a row of R200 other than shot end (R196)
  clip : List Nat := []           -- outputs that already raised SYNTH_CLIP in the shot (R118)
  lastStaged : Nat := 0           -- when its last packet entered staging
  deriving DecidableEq, Repr

/-- A PLAY segment at whose cut-off a deferral is sampled (R88): the unit's index, its start and its end at the connector,
and where the micro-routines of the fall-through path past it have ended (R435). -/
structure SegEnd where
  key : Nat
  start : Nat
  stop : Nat
  fall : Nat := 0
  deriving DecidableEq, Repr

/-- A pending deferral (R88): the conditional word, its shot start for FRESH, and the segments at whose cut-offs it is
sampled. -/
structure Deferral where
  w : Nat
  shot0 : Nat
  ends : List SegEnd := []
  deriving DecidableEq, Repr

/-- What a WAITING core waits for (R82, R98). -/
inductive Waiting where
  | trig (t : Nat) (timeout : Nat) (dropOld : Bool)
  | sync (t : Nat) (mask : Nat)
  deriving DecidableEq, Repr

/-- A segment on a playback unit (R105). -/
structure Seg where
  start : Nat
  stop : Nat
  env : Nat
  src : Nat
  k : Nat
  len : Nat
  addr : Nat
  hbm : Nat
  gain : Nat
  core : Nat
  zero : Bool := false                -- refused: plays zero (R108, R109, R117)
  check : Bool := false               -- its draw and its carrier are still to be checked, at its start (R109, R117, R120)
  draw : Nat := 0                     -- share of the envelope-read budget, GB/s (R109)
  got : List Nat := []                -- samples read so far: of a stream, or before their memory changed (R107)
  ramp : Option Nat := none           -- ramps to zero over 16 ticks from here (R94, R45, R99)
  held : Option Nat := none           -- holds the last good value from here (R95)
  deriving DecidableEq, Repr

/-- A playback unit of a strand (R102), with its NCO (R115, R116). -/
structure PUnit where
  seg : Option Seg := none
  past : List (Nat × Nat) := []       -- earlier segments still of use for event windows and AUTOMUTE
  ftw : Nat := 0                      -- frequency word in force
  fidx : Nat := 0                     -- OUT_TONESTAT.FIDXCUR
  epoch : Nat := 0                    -- epoch taken at the last reload
  reloadAt : Nat := 0                 -- tick of the last reload
  acc : Nat := 0                      -- accumulator at the last reload
  lastEff : Nat := 0                  -- end of the last effect on the unit (R340)
  deriving DecidableEq, Repr

/-- One second-order section's state (R126). -/
structure IirSt where
  x1 : Int := 0
  x2 : Int := 0
  y1 : Int := 0
  y2 : Int := 0
  deriving DecidableEq, Repr

/-- The predistortion chain of a baseband channel: active coefficients and states (R126, R128). -/
structure Chain where
  coef : Tab Word := []               -- active coefficients; unlisted: identity
  iir : List IirSt := [{}, {}, {}, {}]
  fir : List Int := []                -- x[n-1], x[n-2], …, at most 63
  upTo : Nat := 0                     -- baseband samples computed, counted in fabric cycles
  out : Int := 0                      -- last code
  deriving DecidableEq, Repr

/-- An analogue output (chapter 05): RF outputs 0 to 5, baseband channels as 6 to 21. -/
structure Out where
  live : Bool := false
  liveFrom : Nat := 0                 -- connector tick at which it became live
  heldFrom : Nat := 0                 -- boundary from which it was held (R143)
  shut : Option Nat := none           -- shutdown in progress: due (R57)
  pendEn : Bool := false              -- PEND
  ranging : Option Nat := none        -- t0 of the range change in progress (R147)
  newRange : Nat := 0
  rangePend : Bool := false           -- RANGEPEND (R148)
  muted : Bool := true                -- where the mute switch is, or moves to: closed
  muteAt : Nat := 0                   -- the tick from which it moves there, in 128 ticks (R143)
  calMute : Bool := false             -- in a calibration step (R153)
  staticValid : Bool := false
  statics : List (Nat × Nat) := []    -- register writes of the level on their way, with their ticks (R145)
  steps : List (Nat × Nat × Nat) := []  -- changes of the level of the last 128 ticks: tick, from, to (R112)
  enAt : Nat := 0                     -- arrival of the last enable (R155)
  clipTo : Nat := 0                   -- ticks of an RF output whose sum has been formed (R118)
  heldLvl : Option Nat := none        -- the level carried in HOLD where the register has another (R40, R47)
  openLine : Bool := false            -- OPEN (R151)
  comply : Bool := false
  chain : Chain := {}
  ramp : Option Nat := none           -- level ramping to zero from here (R45)
  deriving DecidableEq, Repr

/-- Whether the code at an output's connector is that of its chain at tick t (R141, R143): from the tick at which it became
live, and until 256 ticks after the boundary from which it was held. -/
def Out.liveAt (x : Out) (t : Nat) : Bool := (x.live && decide (x.liveFrom ≤ t)) || (decide (0 < x.heldFrom) && decide (t < x.heldFrom + 256))

/-- LIVE as the output's register shows it at tick t: one held from a later boundary is live until then (R142, R156). -/
def Out.liveNow (x : Out) (t : Nat) : Bool := x.live || decide (t < x.heldFrom)

/-- An integration window (R165 to R179). -/
structure Win where
  core : Nat
  shot : Nat                          -- uid of its shot in the core
  shotNo : Nat                        -- shot counter (R78)
  tag : Nat
  t : Nat                             -- issue time
  eff : Nat                           -- effect of its ACQ, later than t where that issued late (R69)
  check : Bool := false               -- its configuration is still to be checked, at its start (R159, R173)
  ms : Nat
  me : Nat                            -- end sample, as closed
  len : Nat
  raw : Bool
  result : Bool
  decide : Bool
  kmode : Bool
  shift : Nat
  inp : Nat
  trunc : Bool := false
  cfg : Bool := false
  rawLost : Bool := false
  frozen : List Nat := []             -- kernel weights of blocks integrated before a kernel load (R170)
  deriving DecidableEq, Repr

/-- A read-out input (chapter 06). -/
structure Inp where
  settle : Option Nat := none         -- start of SETTLING (R160)
  rawBusy : Option Nat := none        -- start tick of the raw capture in the buffer (R175)
  rawWin : Option (Nat × Win) := none -- the window it captures, with its tone
  rawQ : Option Nat := none           -- the queue its packet is reserved in (R305)
  calOff : List (Nat × Option Nat) := []  -- intervals in which the pair is offline (R174)
  flagRuns : List (Nat × Nat) := []   -- ADC sample ranges carrying the over-range flag (R171), rising
  deriving DecidableEq, Repr

/-- The active discrimination set of a read-out tone (R188), with the boundary it holds from. -/
structure Disc where
  from' : Nat := 0
  ab : List Nat := [0, 0, 0]
  c : List Nat := [0, 0, 0]
  map : Nat := 0xFFFF
  ovrInv : Bool := true
  satInv : Bool := true
  deriving DecidableEq, Repr

/-- The phase of a read-out tone from a tick on (R115, R119, R163): frequency word, epoch, and the sum of the frame's phase
and the tone's offset. -/
structure Phase where
  at' : Nat
  ftw : Nat
  epoch : Nat
  ofs : Nat
  deriving DecidableEq, Repr

/-- A read-out tone's acquisition state (chapters 06, 07): open and ended windows, oldest first, the windows
whose raw capture still drains, and the active sets, newest first. -/
structure Rtone where
  wins : List Win := []
  disc : List Disc := [{}]
  phases : List Phase := []           -- newest first (R119, R163)
  deriving DecidableEq, Repr

/-- A change of a decision bit (R204, R206): when, the stamp it then carries, its value, and whether it
was a write. -/
structure Chg where
  at' : Nat
  stamp : Nat
  val : Nat
  wr : Bool := true
  deriving DecidableEq, Repr

/-- A truth table (R218, R219): loaded bytes, or generated from a profile over the non-constant inputs. -/
inductive TT where
  | raw (m : Mem)
  | gen (prof : Nat) (mask : Nat) (sel0zero : Bool)
  deriving DecidableEq, Repr

/-- The active set of a derived bit (R217) and the boundary at the hub it holds from. -/
structure DSet where
  from' : Nat := 0
  sels : List Nat := []               -- unlisted selectors are the constant zero
  inv : Nat := 0
  tt : TT := .raw []
  deriving DecidableEq, Repr

/-- The recent updates of a frame (R90, R123, R124): what stood before them, and the updates in order: fabric cycle, local
core (8: the host), whether the phase is replaced, and the phase. -/
structure FrameLog where
  strand : Nat
  frame : Nat
  base : Word
  ops : List (Nat × Nat × Bool × Word)
  deriving DecidableEq, Repr

/-- A received Hitch bit (R204, R238). -/
structure HBit where
  hist : List Chg := []
  stale : List (Nat × Option Nat) := []   -- intervals in which the stale flag is set
  deriving DecidableEq, Repr

/-- An import entry in force at a ply (R212, R214). -/
structure Import where
  valid : Bool := false
  slot : Nat := 0
  from' : Nat := 0
  deriving DecidableEq, Repr

/-- The decision fabric (chapter 08). -/
structure DecSt where
  slots : Tab (List Chg) := []        -- per state slot, newest first
  trigs : Tab (List Chg) := []        -- per trigger bit, newest first
  hbits : Tab HBit := []              -- per received Hitch bit
  badUp : List (Nat × Nat) := []      -- (slot, frame): upward records that failed (R220)
  badDown : List (Nat × Nat) := []    -- (ply, frame): downward frames that failed (R220)
  slotsFrom : Nat := 0                -- frame of the last entry to RUN from READY (R205)
  dsets : Tab (List DSet) := []       -- active sets per derived bit, newest first
  ttShadow : Tab TT := []             -- shadow truth tables
  imports : Tab Import := []          -- entries in force, keyed 128 p + k
  impProf : Tab Nat := []             -- per ply, one more than the import profile that is held (R214)
  deriving DecidableEq, Repr

/-- A packet in a queue (R303, R307, R309). -/
structure Packet where
  bytes : List Byte
  first : Nat                         -- time of the first word
  vis : Option Nat                    -- visible from; none: void
  bad : Bool := false                 -- trailer or KIND failed (R312)
  taken : Nat := 0                    -- bytes the reader has taken
  src : Option Nat := none            -- the input whose raw capture is still being written
  deriving DecidableEq, Repr

/-- A queue (R296). -/
structure Queue where
  enabled : Bool := false
  prof : Nat := 0
  role : Nat := 0
  base : Nat := 0
  baseLo : Option Nat := none         -- low word of the base held under R11
  log2 : Nat := 12
  thr : Nat := 0
  pendDis : Bool := false
  flushAt : Option Nat := none        -- t_r of a pending flush (R314)
  content : Nat := 0
  bound : Option StreamReader := none
  pkts : List Packet := []            -- oldest first
  skip : Nat := 0                     -- samples of abandoned segments still to be discarded (R94, R96)
  deriving DecidableEq, Repr

/-- An effect still before its issue time that a core fault withdraws (R76): what stood before it. -/
inductive Undo where
  | static (k c : Nat) (old : Word)
  | frame (k f cycle core : Nat)
  | unit (key : Nat) (old : PUnit)
  | out (key : Nat) (old : Out)
  | tone (key : Nat) (old : Rtone)
  | inp (key : Nat) (old : Inp)
  | queue (n : Nat) (pkts : List Packet) (skip : Nat) (bound : Option StreamReader)
  | window (c uid : Nat)
  deriving DecidableEq, Repr

/-- A sequencer core (R61). -/
structure Core where
  st : CoreSt := .idle
  back : CoreSt := .idle              -- state to resume from HELD
  pc : Nat := 0
  tPrev : Nat := 0
  ePrev : Nat := 0
  start : Nat := 0
  armAt : Nat := 0
  armHeld : Bool := false             -- an ARM write waits for a calibration step (R342)
  bights : List Bight := []           -- innermost first
  calls : List (Nat × Bool) := []     -- return address, return source is the stream
  streamBad : Bool := false           -- armed on a stream bound to another core (R313)
  inStream : Bool := false            -- words come from the stream queue (R91, R92)
  trigQ : List Nat := []              -- stamps, oldest first (R80)
  trigIn : List (Nat × Nat) := []     -- entries on their way to the queue, first first: stamp and input (R80, R208)
  tRef : Option Nat := none
  lastTrig : Nat := 0
  shotNo : Nat := 0
  uids : Nat := 0                     -- shots made by the core since power-up
  shots : List Shot := []             -- newest first; those not yet closed out
  marks : List Nat := []              -- stamps of the causes that make shots invalid (R196)
  ovrSeen : List (Nat × Nat) := []    -- shots and inputs that already raised OVR (R172)
  defer : Option Deferral := none
  busy : Nat := 0                     -- end of the last micro-routine, ticks
  prep : Nat := 0                     -- the end of the micro-routines of the other path of a JCOND (R435)
  prepCut : Nat := 0                  -- the cut-off that path was prepared for (R435)
  bound0 : Nat := 0                   -- issue bound of the first word after arm (R65)
  bound1 : Nat := 0                   -- issue bound of the next timed word (R83)
  bound : Nat := 0                    -- issue bound of every later word (R98)
  wait : Option Waiting := none
  haltCode : Nat := 0
  stopAt : Option Nat := none         -- halted at (R76)
  haltAt : Option (Nat × Bool) := none  -- the word boundary of a stop that is on its way; true: a fault (R74, R99)
  readAt : Nat := 0                   -- when it last read a word of its stream
  gap : Nat := 0                      -- fabric cycles between its last two reads of the stream (R24)
  undo : List (Nat × Undo) := []      -- issue buffer: effects with issue times not yet reached
  deriving DecidableEq, Repr

/-- Event-queue bookkeeping (R298, R427). -/
structure EvSt where
  seq : Nat := 0                      -- records that reached the queue, modulo 256
  lost : Bool := false                -- QM_STATUS.EVLOST
  drops : Nat := 0                    -- drops since the last stored record
  deriving DecidableEq, Repr

-- calibration (chapter 14)

/-- A converter's corrections, in units of 10^-6, 10^-6 of full scale or range, and 1 fs (R337, R349). -/
structure Corr where
  gain : Rat := 0
  offset : Rat := 0
  timing : Rat := 0
  deriving DecidableEq, Repr

/-- Why a calibration step was started (R341, R343, R345, R350). -/
inductive StepKind where
  | gap | quiet | forced | foreground
  deriving DecidableEq, Repr

/-- A calibration step in progress (R337, R344). -/
structure CalStep where
  start : Nat
  stop : Nat
  kind : StepKind
  range : Nat
  void : Bool := false                -- its measurements were discarded by a controller restart (R346)
  deriving DecidableEq, Repr

/-- A correction that ramps (R348). -/
structure Ramp where
  range : Nat
  start : Nat
  len : Nat
  old : Corr
  new : Corr
  deriving DecidableEq, Repr

/-- A calibrated converter (R336 to R349). -/
structure Conv where
  due : Option Nat := none            -- since when it is due
  slack : Nat := 0                    -- deferral time that does not count towards the deadline (R345)
  last : Tab Nat := []                -- end of the last completed step, by range or band code
  band : Option Nat := none           -- module band of the last completed step
  again : Option Nat := none          -- due again at, after an outlier (R349)
  outliers : Nat := 0                 -- consecutive outliers
  failed : Bool := false              -- CALFAIL
  step : Option CalStep := none
  meas : Option CalStep := none       -- the step whose measurements wait for the controller (R346)
  corr : Tab Corr := []               -- corrections, by range or band code
  pend : Option (Nat × Corr) := none  -- a BOUNDARY correction that waits, with its range (R348)
  ramp : Option Ramp := none
  fgNext : Nat := 0                   -- range or band the foreground calibration takes next (R350)
  deriving DecidableEq, Repr

/-- The calibration engine of a ply (R338, R346). -/
structure Engine where
  cur : Option Nat := none            -- converter in a step
  meas : Option Nat := none           -- converter whose measurements wait
  refBad : Bool := false              -- the last check of the transfer reference failed (R335)
  fgDone : Bool := false              -- CAL_FGCTL.DONE
  fgFrom : Option Nat := none         -- start of the foreground calibration (R350)
  deriving DecidableEq, Repr

-- power, temperature and the journal (chapter 16)

/-- The thermal supervision (R378 to R386). Readings are in units of 1/16 degree. -/
structure Therm where
  temps : List Int := []              -- die sensors 0 to 21
  hist : List (Nat × List Int) := []  -- readings with their times, newest first, the last second's and one before
  rates : List Int := []              -- rates of rise, 1/16 degree per second
  absOver : List Nat := []            -- sensors at or above 105 degrees at the last reading
  rateOver : List Nat := []           -- sensors at or above RATETRIP at the last evaluation
  ext : List (Option Int) := []       -- thermistors 0 to 7; none: open or shorted
  extWarm : List Nat := []            -- thermistors at or above WARN
  extOver : List Nat := []            -- thermistors at or above TRIP at the last reading
  bands : List Nat := [0, 0, 0, 0, 0, 0, 0]      -- hub, plies 0 to 3, stacks 0 and 1 (R380)
  modBand : Nat := 0
  high : Bool := false
  highLow : Option Nat := none        -- since when every sensor has read below 92 degrees
  warn : Bool := false
  warnLow : Option Nat := none        -- since when every rate has been below half of RATEWARN
  deriving DecidableEq, Repr

/-- What a journal record is written for, as known at its cause (R388). -/
structure JCause where
  kind : Nat
  time : Nat
  mode : Nat
  safe : Nat
  sensor : Nat := 0xFF
  reading : Int := 0
  rate : Int := 0
  rails : Nat
  temps : List Int
  detail : Nat := 0
  deriving DecidableEq, Repr

/-- A journal record: its two copies, none where the page is erased (R387). -/
structure JRec where
  seq : Nat
  a : Option (List Byte)
  b : Option (List Byte)
  deriving DecidableEq, Repr

/-- Rails, mains, fans and the journal (R373 to R392). -/
structure Power where
  railsBad : List Nat := []           -- switched-on rails out of limits (R376)
  shed : Bool := false                -- PWR_STATUS.SHED
  fullFans : Bool := false            -- THERM_TRIP runs the fans at full speed (R385)
  jPend : List JCause := []           -- records to be written, first first
  jrn : List JRec := []               -- the journal in the flash, oldest first
  jSeq : Nat := 0                     -- the last sequence number used
  bootCnt : Nat := 0                  -- power-ons since manufacture
  jData : List Byte := []             -- PWR_JRNDATA
  jTorn : Bool := false               -- torn records were found at the scan (R391)
  deriving DecidableEq, Repr

-- management (chapter 17)

/-- A slot selector page of the flash (R407, R408). -/
structure Selector where
  gen : Nat := 0
  fw : Nat := 0
  uc : Nat := 0
  deriving DecidableEq, Repr

/-- An image transfer through the mailbox (R401). -/
structure Xfer where
  kind : Nat
  len : Nat
  chunks : List Nat := []
  deriving DecidableEq, Repr

/-- The management controller, its mailbox, the image slots and the fuses (R396 to R414). -/
structure Mgmt where
  running : Bool := false
  stopped : Bool := false             -- neither firmware slot verified (R399)
  restart : Option Nat := none        -- restart in progress, since (R398)
  restarts : Nat := 0
  recOk : Bool := false
  recEvent : Bool := false            -- MC_RECORD is raised at READY (R412)
  fallback : Bool := false
  fbEvent : Bool := false             -- IMG_FALLBACK is raised at READY (R407)
  fwSlot : Nat := 0
  ucSlot : Nat := 0
  slotFail : Nat := 0                 -- MC_BOOTSTAT.SLOTFAIL
  failStep : Nat := 0
  reason : Nat := 0
  fwVer : Nat := 0
  ucVer : Nat := 0
  fwSvn : Nat := 0
  ucSvn : Nat := 0
  ucLoad : Nat := 0
  busy : Bool := false                -- MC_MBSTAT.BUSY
  rsp : Nat := 0                      -- MC_MBRSP
  xfer : Option Xfer := none
  slots : Tab Mem := shippedSlots     -- 0, 1: firmware slots; 2, 3: microcode slots
  sel : Selector := {}
  selOld : Option Selector := none
  minFw : Nat := 0                    -- fused minimum SVN
  minUc : Nat := 0
  deriving DecidableEq, Repr

-- memory integrity (chapter 15)

/-- A memory self-test (R368, R369). -/
structure MemTest where
  target : Nat
  strand : Nat
  base : Nat
  len : Nat
  raw : Bool
  abort : Bool := false
  deriving DecidableEq, Repr

/-- HBM integrity, scrubbing and the self-test (R354 to R369). -/
structure MemSt where
  poison : List Nat := []             -- uncorrectable codewords
  ceLog : List (Nat × Nat × Nat) := []  -- die, time and symbols corrected in the last second
  ceRep : Tab Nat := []               -- last MEM_CE report per die (R360)
  sramRep : Tab Nat := []             -- last SRAM_CE report per strand; 32 is the hub (R363)
  scrubPos : Nat := 0
  ueAddr : Nat := 0
  test : Option MemTest := none
  stat : Nat := 0                     -- MEM_TESTSTAT bits 14:8 and 4:1; BUSY and REINIT follow from test
  failAddr : Nat := 0
  deriving DecidableEq, Repr

-- Hitch links (chapter 09)

/-- A Hitch lane (R228, R230, R240). -/
structure Lane where
  lock : Bool := false
  delay : Nat := 0
  noserv : Bool := false
  idle : Bool := true                 -- the transmitter is in electrical idle
  burst : Nat := 0                    -- start of the TRAIN burst with which it last left idle (R240)
  rxIdle : Bool := true               -- the receiver expects no blocks
  deriving DecidableEq, Repr

/-- A path of a direction (R229, R241, R242). -/
structure HPath where
  markOk : Bool := false
  cfgErr : Option Nat := none         -- cause of the last HCH_CONFIG, while it holds
  peerDir : Option Nat := none        -- the peer's direction in the last good MARK
  badLeft : Nat := 0                  -- good containers still wanted after a failed one
  standbyBad : Bool := false          -- the last standby check failed
  healthy : Bool := false             -- health as last evaluated
  frame : Nat := 0                    -- the origin frame of the last good container, and the good containers of
  got : Tab Nat := []                 -- that frame by position (R243, R245)
  deriving DecidableEq, Repr

/-- A direction of the Hitch links (R241 to R247). -/
structure HDir where
  onB : Bool := false                 -- the active path is B
  gap : Bool := false                 -- A is lost and B has not delivered a whole frame yet (R243)
  down : Bool := false
  pend : Option Bool := none          -- a host splice (to B: true) or revert in progress
  hostHold : Bool := false            -- R245 is suspended until REVERT
  qualFrom : Option Nat := none       -- A healthy without a break since, while B is active
  peerSeen : Nat := 0
  quietFrom : Option Nat := none      -- since when the peer's STATUS shows ALOST = 0 and ONB = 0
  last : Tab Nat := []                -- last origin frame delivered, per container position
  good : Tab Bool := []               -- the last container of the position passed its check
  a : HPath := {}
  b : HPath := {}
  deriving DecidableEq, Repr

/-- The Hitch links. -/
structure HchSt where
  lanes : Tab Lane := []
  dirs : Tab HDir := []
  tx : Tab (Nat × Option Nat) := []   -- per 66 l + place of the cycle: origin frame and container last sent; none: VOID
  txMark : Tab Nat := []              -- per lane: the last MARK sent
  txStatus : Tab Nat := []            -- per 8 l + management block of the cycle: the last STATUS block sent
  txCtl : Tab (List (Nat × Nat)) := []  -- per lane: TRAIN and IDLE_ENTRY blocks since its last burst began, with their ticks
  txMaps : Tab (List (Nat × Word)) := []  -- per 3d + c: first origin frame and word of each HCH_TXMAP write, newest first (R237)
  deriving DecidableEq, Repr

-- time, reference and synchronisation (chapter 10)

/-- Reference, epoch loads and skew calibration (R252 to R264). -/
structure SyncSt where
  refValid : Bool := false
  validAt : Nat := 0                  -- arrival of the last REF_VALID
  lost : Option Nat := none           -- loss of the selected REF_IN, until REF_RESTORED
  src : Bool := false                 -- REFSRC: REF_IN in use
  holdover : Bool := false
  pull : Bool := false
  clkLock : Bool := false
  aligned : Bool := false
  armed : Option Nat := none          -- time of the ARM of the load that waits
  loadVal : Nat := 0                  -- LOADTIME of the last load
  loadPhase : Int := 0                -- instant of the pulse that loaded, modulo 160 ticks, in 1/64 tick
  frac : Int := 0                     -- grid shift of the last load, in 1/64 tick, as the connectors show it (R258)
  sendAt : Option Nat := none         -- the chain pulse still to be sent
  ring : Bool := false                -- the chain head awaits the returning pulse
  skew : Option Nat := none           -- start of the skew calibration in progress
  skewFail : Bool := false
  rtt : Nat := 0
  dev : Int := 0
  pulses : Nat := 0                   -- pulses sent on SYNC_OUT
  lastPulse : Option Nat := none      -- when the last of them was sent
  deriving DecidableEq, Repr

/-- A PTP domain slot (R267, R269). -/
structure Dom where
  locked : Option Nat := none         -- LOCKED since
  below : Nat := 0                    -- consecutive samples below PTP_LOCKTHR, to 16
  above : Nat := 0                    -- consecutive samples at or above it, to 16
  big : Int := 0                      -- consecutive samples of 1 ms or more, with their sign
  offset : Int := 0
  deriving DecidableEq, Repr

/-- A frame in a launch list (R272): port, identifier, launch time in nanoseconds of wall time, whether it wants a
timestamp entry, and the ring pair and descriptor that sent it. -/
structure Frame where
  portB : Bool
  id : Nat
  launch : Nat
  ts : Bool
  bytes : List Byte
  ring : Nat
  desc : List Byte
  deriving DecidableEq, Repr

/-- A frame that left a port (R271, R272). -/
structure Sent where
  portB : Bool
  at' : Nat
  late : Bool
  bytes : List Byte
  deriving DecidableEq, Repr

/-- The wall view, the servo, the Ethernet ports and the launch lists (R265 to R272). The wall view is counted in
units of 1 / (4096 × 10^9) ns, of which a tick advances 256 × 10^9 + rate. -/
structure PtpSt where
  base : Nat := 0
  at' : Nat := 0                      -- module time at which the view was `base`
  rate : Int := 0                     -- servo rate r in units of 1/256 ppb
  integ : Int := 0                    -- servo integrator in units of 1/256 ppb
  slew : Bool := false
  valid : Bool := false
  dom0 : Dom := {}
  dom1 : Dom := {}
  sel : Nat := 0
  switched : Bool := false            -- no small sample since the last change of selection
  aUp : Bool := false
  bUp : Bool := false
  onB : Bool := false
  stale : Bool := false
  aSince : Option Nat := none         -- port A up since
  hostHold : Bool := false            -- the return to A is suspended until REVERT
  snapTime : Nat := 0
  snapSec : Nat := 0
  snapNs : Nat := 0
  list : List Frame := []             -- launch lists of both ports, in order of arrival
  sent : List Sent := []              -- frames that left, newest first
  tsDropped : Bool := false           -- an entry was dropped since the last stored one
  deriving DecidableEq, Repr

-- host interface (chapter 11)

/-- A ring pair (R279 to R284, R291); its bases, sizes and queues stand in HIF_ registers. -/
structure Ring where
  on : Bool := false                  -- HIF_RINGCTL.ENABLE
  sqHead : Nat := 0                   -- descriptors fetched
  cqTail : Nat := 0                   -- completion entries written
  cqHead : Nat := 0                   -- as last read
  halted : Bool := false              -- stopped with a cause (R283)
  cause : Nat := 0                    -- RINGSTAT.ERRCAUSE
  reading : Option Nat := none        -- a read of the doorbell record is in progress, since
  draining : Bool := false            -- disabled with descriptors in flight (R284)
  deriving DecidableEq, Repr

/-- A descriptor that has started and not completed (R288): a QWRITE that waits for room, a QFLUSH that waits for
its moment, or a listed frame. -/
structure Started where
  ring : Nat
  desc : List Byte
  lim : Option Nat := none            -- where the host access of its buffer failed
  off : Nat := 0                      -- bytes of the buffer already parsed
  idx : Nat := 0                      -- packets parsed
  moved : Nat := 0                    -- bytes of the packets committed
  pkts : Nat := 0                     -- packets committed
  deriving DecidableEq, Repr

/-- The host interface. -/
structure HifSt where
  up : Bool := false
  speed : Nat := 0
  width : Nat := 0
  ecrc : Bool := false
  lastPoll : Nat := 0
  rings : Tab Ring := []
  started : List Started := []
  deriving DecidableEq, Repr

-- monitor inputs and trigger I/O (chapter 13)

/-- A monitor input (R320 to R325). -/
structure MonIn where
  last : Nat := 0                     -- stamp of the last sample
  skip : Nat := 0                     -- samples still to be discarded
  code : Nat := 0
  clip : Bool := false
  open' : Bool := false
  outside : Bool := false
  armed : Bool := false
  inRun : Nat := 0                    -- consecutive samples inside the band
  fsRun : Nat := 0                    -- consecutive samples at full scale
  okRun : Nat := 0                    -- consecutive samples within 90 % of full scale
  batch : List Nat := []              -- words of the packet in progress, oldest first
  tFirst : Nat := 0
  deriving DecidableEq, Repr

/-- An event window (R328): from when its control holds, and the start of the last window reported. -/
structure EvWin where
  from' : Nat := 0
  done : Option Nat := none
  deriving DecidableEq, Repr

/-- Trigger inputs and event windows (R326 to R329). A trigger output's level follows from its control, the segments, the derived
bits and the mode (R330). -/
structure TioSt where
  level : Tab Nat := []               -- counted level per input
  edges : Tab (List (Nat × Bool)) := []  -- counted transitions per input, rising true, newest first
  wins : Tab EvWin := []
  deriving DecidableEq, Repr

/-- The state of the module: everything the manual gives it, the queue of waiting commands, and the model's own
fields, which their comments name. -/
structure State where
  pending : List Instr := []                     -- the commands that wait, first in, first out (notes/assumptions/1)
  now : Nat := 0                                 -- module time in ticks of 62.5 ps (R8)
  free : Nat := 0                                -- the model's own counter of free values drawn (notes/assumptions/3)
  rdata : Word := 0                              -- the model's own: the word that the last register read returned
  supply : Supply := .off                        -- off, on or on hold-up energy (R374)
  half : Bool := false                           -- the variant FY-Q0512-A (R3)
  regs : Tab Word := []                          -- RW words by BAR0 offset; unlisted: the register's reset value (R415)
  latch : Tab Word := []                         -- high words latched by reads of low words (R11)
  lows : Tab Word := []                          -- low words written that wait for their high word (R11)
  held : List (Nat × Word) := []                 -- register writes held until their condition ends (R62, R148, R257)
  frameW : List (Nat × Nat × Nat × Word) := []   -- writes of OUT_FRAME on their way: time, strand, entry, word (R124)
  frameLog : List FrameLog := []                 -- frames updated lately (R90)
  flags : Tab Word := []                         -- W1C flag words by offset (R422, R430)
  counts : Tab Nat := []                         -- RC counters by offset (R14)
  flagAt : Tab Nat := []                         -- the model's own: when a flag was last set (R422)
  recent : Tab (Nat × Nat × Nat) := []           -- the model's own: the last change of a counter in its cycle (R422)
  ev : EvSt := {}                                -- event sequence number, lost flag and drops (R427, R298)
  queues : Tab Queue := []                       -- queues 0 to 32,767 (R296)
  mode : ModeSt := {}                            -- mode, transition, HOLD causes (R38)
  plies : Tab Ply := []                          -- 0 to 3 (R22)
  strands : Tab Strand := []                     -- 0 to 31 (R30)
  cores : Tab Core := []                         -- 0 to 255 (R61)
  units : Tab PUnit := []                        -- playback units by 80 × strand + local code (R62, R102)
  outs : Tab Out := []                           -- outputs by 22 × strand + local number (R141)
  inps : Tab Inp := []                           -- read-out inputs 0 to 63 (R157)
  rtones : Tab Rtone := []                       -- read-out tones 0 to 1,023 (R165)
  dec : DecSt := {}                              -- the decision fabric (chapter 08)
  hch : HchSt := {}                              -- the Hitch links (chapter 09)
  badWords : List (SramId × Nat) := []           -- uncorrectable SRAM words (R363)
  convs : Tab Conv := []                         -- calibrated converters (R336)
  engines : Tab Engine := []                     -- calibration engines 0 to 3 (R338)
  thm : Therm := {}                              -- temperatures, bands and warnings (R378)
  pwr : Power := {}                              -- rails, fans and the journal (R373)
  mc : Mgmt := {}                                -- module controller, mailbox, slots, fuses (R396)
  mem : MemSt := {}                              -- HBM integrity, scrubbing and the self-test (R354)
  sync : SyncSt := {}                            -- reference, epoch and SYNC (R252)
  ptp : PtpSt := {}                              -- wall view, servo, ports (R265)
  hif : HifSt := {}                              -- host link, rings, started descriptors (R277)
  mon : Tab MonIn := []                          -- monitor inputs 0 to 63 (R320)
  tio : TioSt := {}                              -- trigger inputs and event windows (R326)
  hbm : Mem := []                                -- payload bytes of both stacks (R354)
  seqSram : Mem := []                            -- sequence SRAMs (R70)
  ucode : Mem := []                              -- the microcode store, alike in every strand: word w is 20 bytes at 20 w (R404)
  envSram : Mem := []                            -- envelope SRAMs (R103)
  kernel : Mem := []                             -- kernel memories (R170)
  envTab : Mem := []                             -- envelope tables (R104)
  hostMem : Mem := []                            -- host memory that the module reaches over the link (R285)
  deriving DecidableEq, Repr

/-- Why the machine stops with a fault: it never does. Every command of the manual has an effect, and an access that
finds nothing is answered with a status code or discarded, so the type has no constructor. -/
inductive Fault where
  deriving DecidableEq, Repr

/-- Why the model gives a command no meaning. -/
inductive Refusal where
  /-- An arm of Dispatch not yet written; raised by no arm of this model; safe. -/
  | notModelled (mnemonic : String)
  deriving DecidableEq, Repr

/-- The machine right after power-on reset, before mains arrives. -/
def State.reset : State := {}

end Sys2Proof.Machine
end

