-- ==== Sys2Proof/Machine/Ops.lean ====
section
/-! DEFINITION. The named operations over sparse arrays, memory, registers, counters, flags and the clock
(R11, R14, R422, R433), the storing of packets in queues (R296 to R309) and the raising of events (R298,
R427, R428). Every meaning is written over these. -/

namespace Sys2Proof.Machine

-- sparse arrays and memory

/-- The value listed under k, or d. -/
def Tab.get {α : Type} : Tab α → Nat → α → α
  | [], _, d => d
  | (j, v) :: r, k, d => if j = k then v else Tab.get r k d

/-- The value listed under k, if one is. -/
def Tab.get? {α : Type} : Tab α → Nat → Option α
  | [], _ => none
  | (j, v) :: r, k => if j = k then some v else Tab.get? r k

/-- The array with v under k. -/
def Tab.put {α : Type} : Tab α → Nat → α → Tab α
  | [], k, v => [(k, v)]
  | (j, u) :: r, k, v =>
    if k < j then (k, v) :: (j, u) :: r else if k = j then (k, v) :: r else (j, u) :: Tab.put r k v

/-- One byte of memory; an unlisted address reads 0 (notes/assumptions/5). -/
def Mem.read (m : Mem) (a : Nat) : Byte := Tab.get m a 0

/-- Memory after writing one byte: writing 0 removes the entry, so the form stays canonical. -/
def Mem.write (m : Mem) (a : Nat) (b : Byte) : Mem :=
  if b = 0 then m.filter (fun c => decide (c.1 ≠ a)) else Tab.put m a b

/-- Memory after writing bytes from address a upward. -/
def Mem.writes : Mem → Nat → List Byte → Mem
  | m, _, [] => m
  | m, a, b :: bs => Mem.writes (Mem.write m a b) (a + 1) bs

/-- n bytes of memory from address a upward. -/
def Mem.reads (m : Mem) : Nat → Nat → List Byte
  | _, 0 => []
  | a, n + 1 => Mem.read m a :: Mem.reads m (a + 1) n

/-- The little-endian number of n bytes at address a (R12). -/
def Mem.num (m : Mem) (a n : Nat) : Nat := leNat (Mem.reads m a n)

/-- The canonical form of memory: addresses strictly rising and no byte 0. -/
def Mem.wf : Mem → Bool
  | [] => true
  | [c] => c.2 != 0
  | c :: d :: r => c.2 != 0 && decide (c.1 < d.1) && Mem.wf (d :: r)

-- clock

/-- Module time counts modulo 2^64 (R8). -/
def wrap64 (t : Nat) : Nat := t % 2 ^ 64

/-- The module time as it stands at a later time t (R28): in DORMANT it advances by 400 ticks at a time. -/
def State.timeAt (s : State) (t : Nat) : Nat :=
  if s.mode.mode = .dormant then s.now + (t - s.now) / 400 * 400 else max s.now t

/-- The clock moved to a later time; module time never decreases (R10, R28). -/
def State.clockTo (s : State) (t : Nat) : State := { s with now := wrap64 (s.timeAt t) }

/-- The clock at the arrival time of a command. -/
def State.at (s : State) (t : BitVec 64) : State := s.clockTo t.toNat

/-- A period of the module's clock passes (R8, R28): one fabric cycle of 8 ticks, 400 ticks of the management clock in
DORMANT, and none without supply; this is what a step does when no command waits (notes/assumptions/2). -/
def State.idle (s : State) : State :=
  if s.supply = .off then s
  else { s with now := wrap64 (s.now + (if s.mode.mode = .dormant then 400 else 8)) }

/-- A fresh index for a free value. -/
def State.tick (s : State) : State := { s with free := s.free + 1 }

/-- Whether every register block responds (R52, R53, R415): once READY has been reached since BOOT, and not in DORMANT. -/
def State.blocksUp (s : State) : Bool := s.mode.mode != .dormant && s.mode.mode != .boot && s.mode.served

/-- An offset in the blocks of P2 and P3, or of strands S16 to S31 (R3, R415). -/
def farBlock (o : Nat) : Bool :=
  (decide (0x180000 ≤ o) && decide (o < 0x200000)) || (decide (0x300000 ≤ o) && decide (o < 0x400000))

/-- An offset of a block that the variant FY-Q0512-A lacks (R2, R3, R334, R353): the blocks of P2 and P3, of strands S16 to
S31, of monitor inputs 32 to 63, of the import entries of P2 and P3, and the entries of the converters of those strands. -/
def farOff (o : Nat) : Bool :=
  farBlock o ||
  (decide (0x70200 ≤ o) && decide (o < 0x70400)) || (decide (0x70480 ≤ o) && decide (o < 0x70500)) ||
  (decide (0x43400 ≤ o) && decide (o < 0x43800)) ||
  (decide (0x61000 ≤ o) && decide (o < 0x63000) &&
    (let x := (o % 0x1000) / 4
     (decide (64 ≤ x) && decide (x < 128)) || (decide (160 ≤ x) && decide (x < 192)) || (decide (224 ≤ x) && decide (x < 256)) ||
       decide (512 ≤ x)))

/-- Whether the variant lacks what an offset names (R3). -/
def State.absent (s : State) (off : Nat) : Bool := s.half && farOff off

/-- The plies and strands of the variant (R1). -/
def State.plyCount (s : State) : Nat := if s.half then 2 else 4
def State.strandCount (s : State) : Nat := if s.half then 16 else Config.strands

-- registers

/-- The word a register holds: the RW fields in force (R14). -/
def State.reg (s : State) (r : RegId) : Word := Tab.get s.regs r.off r.reset

/-- Bits hi to lo of a register. -/
def State.fld (s : State) (r : RegId) (hi lo : Nat) : Nat := getF (s.reg r) hi lo

/-- The register with a whole new word. -/
def State.setReg (s : State) (r : RegId) (w : Word) : State := { s with regs := Tab.put s.regs r.off w }

/-- The register with bits hi to lo replaced. -/
def State.setFld (s : State) (r : RegId) (hi lo v : Nat) : State := s.setReg r (setF (s.reg r) hi lo v)

/-- A 64-bit value held in two registers (R11). -/
def State.reg64 (s : State) (lo hi : RegId) : Nat := (s.reg lo).toNat + 2 ^ 32 * (s.reg hi).toNat

/-- The fabric cycle of the last increments of the counter under a key, its count before them, and their sum (R422). -/
def State.recentOf (s : State) (key : Nat) : Nat × Nat × Nat :=
  let r := Tab.get s.recent key (0, 0, 0)
  if r.1 = s.now / 8 ∧ r.2.2 ≠ 0 then r else (s.now / 8, Tab.get s.counts key 0, 0)

/-- The RC counter under a key raised by n, saturating (R14, R422). -/
def State.bumpKey (s : State) (key n : Nat) : State :=
  let r := s.recentOf key
  { s with counts := Tab.put s.counts key (min 0xFFFFFFFF (Tab.get s.counts key 0 + n)),
           recent := Tab.put s.recent key (r.1, r.2.1, r.2.2 + n) }

/-- An RC counter raised by n. -/
def State.bump (s : State) (r : RegId) (n : Nat) : State := s.bumpKey r.off n

/-- The value of a counter. -/
def State.count (s : State) (r : RegId) : Nat := Tab.get s.counts r.off 0

/-- A read of the counter under a key clears it (R14, R422): increments of the same fabric cycle are not in the value
returned, and survive. -/
def State.clearCount (s : State) (key : Nat) : Nat × State :=
  let r := s.recentOf key
  (r.2.1, { s with counts := Tab.put s.counts key (min 0xFFFFFFFF r.2.2), recent := Tab.put s.recent key (r.1, 0, r.2.2) })

/-- The key of counter i of queue qn: 0 QM_QDROP, 1 QM_QREWIND, 2 QM_QFLUSHED (R319). -/
def qKey (qn i : Nat) : Nat := 0x1000000 + 4 * qn + i

/-- The W1C bits of a register. -/
def State.flagWord (s : State) (r : RegId) : Word := Tab.get s.flags r.off 0

/-- A W1C bit set, in the present fabric cycle (R422). -/
def State.setFlag (s : State) (r : RegId) (b : Nat) : State :=
  { s with flags := Tab.put s.flags r.off (setF (s.flagWord r) b b 1),
           flagAt := Tab.put s.flagAt (32 * r.off + b) (s.now / 8 + 1) }

/-- The W1C bits to which w writes 1 cleared (R14), but for those an event sets in the same fabric cycle (R422). -/
def State.clearFlags (s : State) (r : RegId) (w : Word) : State :=
  let stay := (List.range 32).filter (fun b => Tab.get s.flagAt (32 * r.off + b) 0 = s.now / 8 + 1)
  let m := stay.foldl (fun a b => setF a b b 0) w
  { s with flags := Tab.put s.flags r.off (BitVec.ofNat 32 ((s.flagWord r).toNat &&& (0xFFFFFFFF ^^^ m.toNat))) }

/-- LOST of queue qn (R305, R316). -/
def State.qLost (s : State) (qn : Nat) : Bool := decide (getF (s.flagWord (.countWord qn)) 30 30 = 1)

/-- UNDERRUN of queue qn set (R311, R316). -/
def State.qUnder (s : State) (qn : Nat) : State := s.setFlag (.countWord qn) 31

/-- The write held for a register, if one is (R62, R135, R148, R160, R214, R331). -/
def State.heldFor (s : State) (r : RegId) : Option Word :=
  (s.held.find? (fun p => p.1 = r.off)).map (·.2)

/-- A write to be held: it replaces an earlier one to the same register. -/
def State.hold (s : State) (r : RegId) (w : Word) : State :=
  { s with held := s.held.filter (fun p => decide (p.1 ≠ r.off)) ++ [(r.off, w)] }

/-- A held write withdrawn or carried out. -/
def State.unhold (s : State) (r : RegId) : State :=
  { s with held := s.held.filter (fun p => decide (p.1 ≠ r.off)) }

/-- An update put behind those of its fabric cycle from the same or a lower local core (R90). -/
def insertOp (o : Nat × Nat × Bool × Word) : List (Nat × Nat × Bool × Word) → List (Nat × Nat × Bool × Word)
  | [] => [o]
  | p :: r => if o.1 < p.1 ∨ (o.1 = p.1 ∧ o.2.1 < p.2.1) then o :: p :: r else p :: insertOp o r

/-- A frame's phase after updates, in their order (R90, R123). -/
def frameFold (w : Word) (l : List (Nat × Nat × Bool × Word)) : Word :=
  l.foldl (fun a o => if o.2.2.1 then o.2.2.2 else a + o.2.2.2) w

/-- The recent updates of frame f of strand k. -/
def State.frameLogOf (s : State) (k f : Nat) : FrameLog :=
  (s.frameLog.find? (fun x => x.strand == k && x.frame == f)).getD
    { strand := k, frame := f, base := s.reg (.outFrame k f), ops := [] }

/-- The recent updates of a frame stored, those of other frames older than 128 fabric cycles forgotten, and its phase set. -/
def State.setFrame (s : State) (cyc : Nat) (x : FrameLog) : State :=
  { s with frameLog := x :: s.frameLog.filter (fun y => !(y.strand == x.strand && y.frame == x.frame) &&
      y.ops.any (fun o => decide (cyc ≤ o.1 + 128))) }.setReg (.outFrame x.strand x.frame) (frameFold x.base x.ops)

/-- An update of frame f of strand k in fabric cycle cyc (R90, R123, R124): from a local core, or with core 8 from the host, it
takes its place among those of the cycle. -/
def State.frameOp (s : State) (k f cyc core : Nat) (set : Bool) (w : Word) : State :=
  let x := s.frameLogOf k f
  s.setFrame cyc { x with base := frameFold x.base (x.ops.filter (fun o => decide (o.1 + 128 < cyc))),
                          ops := insertOp (cyc, core, set, w) (x.ops.filter (fun o => !decide (o.1 + 128 < cyc))) }

/-- The last update of a frame by one core in one fabric cycle withdrawn (R76). -/
def State.frameUndo (s : State) (k f cyc core : Nat) : State :=
  let x := s.frameLogOf k f
  let hit := fun (o : Nat × Nat × Bool × Word) => o.1 == cyc && o.2.1 == core
  match (x.ops.filter hit).getLast? with
  | none => s
  | some o => s.setFrame cyc { x with ops := (x.ops.reverse.erase o).reverse }

/-- The host writes of frames of the strands in a list whose boundary is not after tick t applied, in arrival order, each
after the words of its fabric cycle (R124). -/
def State.settleFrames (s : State) (f : Nat → Bool) (t : Nat) : State :=
  if s.frameW.isEmpty then s else
  let l := s.frameW.filter (fun x => f x.2.1 && decide (x.1 ≤ t))
  l.foldl (fun a x => a.frameOp x.2.1 x.2.2.1 (x.1 / 8) 8 true x.2.2.2)
    { s with frameW := s.frameW.filter (fun x => !(f x.2.1 && decide (x.1 ≤ t))) }

-- the records of State, by number

def State.ply (s : State) (p : Nat) : Ply := Tab.get s.plies p {}
def State.setPly (s : State) (p : Nat) (x : Ply) : State := { s with plies := Tab.put s.plies p x }
def State.strand (s : State) (k : Nat) : Strand := Tab.get s.strands k {}
def State.setStrand (s : State) (k : Nat) (x : Strand) : State := { s with strands := Tab.put s.strands k x }
def State.core (s : State) (c : Nat) : Core := Tab.get s.cores c {}
def State.setCore (s : State) (c : Nat) (x : Core) : State := { s with cores := Tab.put s.cores c x }
/-- Playback unit u of strand k, unit codes of R62. -/
def State.punit (s : State) (k u : Nat) : PUnit := Tab.get s.units (80 * k + u) {}
def State.setPunit (s : State) (k u : Nat) (x : PUnit) : State := { s with units := Tab.put s.units (80 * k + u) x }
/-- Output o of strand k: RF outputs 0 to 5, baseband channels 6 to 21. -/
def State.out (s : State) (k o : Nat) : Out := Tab.get s.outs (22 * k + o) {}
def State.setOut (s : State) (k o : Nat) (x : Out) : State := { s with outs := Tab.put s.outs (22 * k + o) x }
def State.inp (s : State) (k i : Nat) : Inp := Tab.get s.inps (2 * k + i) {}
def State.setInp (s : State) (k i : Nat) (x : Inp) : State := { s with inps := Tab.put s.inps (2 * k + i) x }
def State.rtone (s : State) (k r : Nat) : Rtone := Tab.get s.rtones (32 * k + r) {}
def State.setRtone (s : State) (k r : Nat) (x : Rtone) : State := { s with rtones := Tab.put s.rtones (32 * k + r) x }
def State.queue (s : State) (q : Nat) : Queue := Tab.get s.queues q {}
def State.setQueue (s : State) (q : Nat) (x : Queue) : State := { s with queues := Tab.put s.queues q x }

/-- Every core's record changed by its number. -/
def State.mapCores (s : State) (f : Nat → Core → Core) : State :=
  { s with cores := s.cores.map (fun e => (e.1, f e.1 e.2)) }

-- queues

/-- Bytes of a queue's region (R299). -/
def Queue.size (q : Queue) : Nat := 2 ^ q.log2

/-- Bytes of the region that packets take up (R305, R316). -/
def Queue.used (q : Queue) : Nat := (q.pkts.map (fun p => p.bytes.length - p.taken)).foldl (· + ·) 0

/-- Whether a packet of n bytes finds room (R305). -/
def Queue.room (q : Queue) (n : Nat) : Bool := decide (q.used + n ≤ q.size)

/-- The m samples still owed to abandoned segments taken off the packets of a queue (R94, R96): the words of a packet whose
trailer failed count among them (R312), and a packet of the wrong KIND is left for the reader to meet. -/
def skipSamples : Nat → List Packet → Nat × List Packet
  | m, [] => (m, [])
  | m, p :: ps =>
    if m = 0 then (0, p :: ps) else
    let pos := if p.taken = 0 then 8 else p.taken
    let left := (p.bytes.length - 4 - pos) / 4
    if bits (leAt p.bytes 0 4) 31 28 ≠ 1 ∨ p.vis.isNone = true then (m, p :: ps)
    else if left ≤ m ∨ p.bad = true then skipSamples (m - left) ps
    else (0, { p with taken := pos + 4 * m } :: ps)

/-- The queue with one packet more at its end, less what is owed to abandoned segments. -/
def Queue.push (q : Queue) (p : Packet) : Queue :=
  if q.skip = 0 then { q with pkts := q.pkts ++ [p] }
  else
    let r := skipSamples q.skip (q.pkts ++ [p])
    { q with skip := r.1, pkts := r.2 }

/-- Whether a packet of queue qn lies over the whole of codeword c (R354): where packets lie in the region is a free
value (notes/assumptions/34). -/
def State.covers (s : State) (qn : Nat) (p : Packet) (c : Nat) : Bool :=
  let q := s.queue qn
  let at' := Config.packetAt qn p.first p.bytes.length % q.size
  (List.range 64).all (fun i => decide (q.base ≤ 64 * c + i) && decide (64 * c + i < q.base + q.size) &&
    decide ((64 * c + i - q.base + q.size - at') % q.size < p.bytes.length))

/-- A packet written to queue qn: the uncorrectable codewords that it replaces whole are good again (R359). -/
def State.pushPacket (s : State) (qn : Nat) (p : Packet) : State :=
  let s1 := s.setQueue qn ((s.queue qn).push p)
  { s1 with mem := { s1.mem with poison := s1.mem.poison.filter (fun c => !s.covers qn p c) } }

/-- A refused, dropped or overwritten packet of queue qn counted, LOST set (R305). -/
def State.dropped (s : State) (qn : Nat) : State := (s.bumpKey (qKey qn 0) 1).setFlag (.countWord qn) 30

/-- Whether queue n is enabled in the given role (R296). -/
def State.inRole (s : State) (n role : Nat) : Bool := (s.queue n).enabled && (s.queue n).role == role

-- events

/-- The bytes of an event record (R427, R428): 3 ARG words, or 11 where more than 3 are needed. -/
def eventBytes (code modnum seq source time : Nat) (args : List Word) : List Byte :=
  let big := decide (3 < args.length)
  let n := if big then 11 else 3
  let head := code * 0x10000 + b2n big * 0x4000 + modnum % 64 * 0x100 + seq % 256
  let ws := (args ++ List.replicate n 0).take n
  whipped (leBytes 4 head ++ leBytes 4 source ++ leBytes 8 time ++ (ws.map (fun w => leBytes 4 w.toNat)).flatten)

/-- The records that the management controller forms, and EVENT_LOST: they take no part in the order of one fabric cycle
(R298, R429). -/
def unordered : List Nat :=
  (([.thermWarn, .thermHigh, .thermExt, .thermBand, .fanFail, .jrnTorn, .calDeferred, .calOutlier, .calFail, .ptpDomain,
     .ptpUnlock, .mcRestart, .imgFallback, .mcRecord] : List Ev).map Ev.code) ++ [0x0709]

/-- The CODE of a stored record, and its place in the order of one fabric cycle: CODE, then SOURCE (R429). -/
def recCode (p : Packet) : Nat := leAt p.bytes 2 2
def recKey (p : Packet) : Nat := recCode p * 2 ^ 32 + leAt p.bytes 4 4

/-- A record with another SEQ. -/
def reseq (bs : List Byte) (n : Nat) : List Byte := whipped (leBytes 1 n ++ (bs.drop 1).take (bs.length - 5))

/-- A record formed at tick t put among those before it, newest first: it goes ahead of records formed by hardware in the
same fabric cycle with a greater CODE, or an equal one and a greater SOURCE, and takes their SEQ (R427, R429). -/
def insertRec (t : Nat) (new : Packet) : List Packet → List Packet
  | [] => [new]
  | p :: ps =>
    if p.first / 8 = t / 8 ∧ p.taken = 0 ∧ unordered.contains (recCode p) = false ∧ recKey new < recKey p then
      { p with bytes := reseq p.bytes (leAt new.bytes 0 1) } ::
        insertRec t { new with bytes := reseq new.bytes (leAt p.bytes 0 1) } ps
    else new :: p :: ps

/-- The packets of the event queue after a record formed at tick t has been added at the end. -/
def orderRecs (t : Nat) (ps : List Packet) : List Packet :=
  match ps.reverse with
  | [] => []
  | new :: r => if unordered.contains (recCode new) then ps else (insertRec t new r).reverse

/-- A record that reaches the event queue's writer: SEQ is assigned, and the record is stored if the queue
is enabled in the event role and has room, else dropped and counted (R298, R305, R427); among the records of its fabric
cycle it takes its place (R429). -/
def State.storeEvent (s : State) (code source time : Nat) (args : List Word) : State :=
  let qn := s.fld .qmCtl 14 0
  let q := s.queue qn
  let rec' := eventBytes code (s.fld .hchCtl 5 0) s.ev.seq source time args
  let s1 := { s with ev := { s.ev with seq := (s.ev.seq + 1) % 256 } }
  if s.fld .qmCtl 31 31 = 1 ∧ s.inRole qn 5 = true then
    if q.room rec'.length = true then
      let s2 := s1.pushPacket qn { bytes := rec', first := s.now, vis := some s.now }
      s2.setQueue qn { s2.queue qn with pkts := orderRecs s.now (s2.queue qn).pkts }
    else
      let s2 := (s1.dropped qn).bump .qmEvDrop 1
      { s2 with ev := { s2.ev with lost := true, drops := s2.ev.drops + 1 } }
  else
    let s2 := s1.bump .qmEvDrop 1
    { s2 with ev := { s2.ev with lost := true, drops := s2.ev.drops + 1 } }

/-- A record reaches the event queue: an EVENT_LOST record goes ahead of it when records were dropped and
the queue has room for its 32 bytes (R298). -/
def State.formEvent (s : State) (code source time : Nat) (args : List Word) : State :=
  let qn := s.fld .qmCtl 14 0
  if s.ev.lost = true ∧ s.fld .qmCtl 31 31 = 1 ∧ s.inRole qn 5 = true ∧ (s.queue qn).room 32 = true then
    let s1 := (s.setFlag .qmFlags 4).storeEvent 0x0709 0 s.now [BitVec.ofNat 32 s.ev.drops]
    let s2 := { s1 with ev := { s1.ev with lost := false, drops := 0 } }
    s2.storeEvent code source time args
  else s.storeEvent code source time args

/-- An event: its flag bit set and its record formed (R427 to R430). `i` is the core or strand whose flag
register is meant; a drop that sets LOST of the event queue raises QM_DROP, whose own record is formed
after it (R305). -/
def State.raise (s : State) (e : Ev) (i source time : Nat) (args : List Word) : State :=
  let s1 := match e.flag i with
    | some (r, b) => s.setFlag r b
    | none => s
  let qn := s.fld .qmCtl 14 0
  let s2 := s1.formEvent e.code source time args
  if s.qLost qn = false ∧ s2.qLost qn = true then
    (s2.setFlag .qmFlags 1).formEvent 0x0706 qn s.now [5]
  else s2

/-- A word of an event's arguments. -/
def wd (n : Nat) : Word := BitVec.ofNat 32 n

/-- A module time or other 64-bit value as two ARG words, low word first (R428). -/
def wd64 (n : Nat) : List Word := [wd n, wd (n / 2 ^ 32)]

/-- The kind of an SRAM in the order of R363's table, and its strand; 32 stands for the hub. -/
def sramKind : SramId → Nat × Nat
  | .seqSram k => (0, k.val)
  | .envSram k => (1, k.val)
  | .envTable k => (2, k.val)
  | .kernelMem k => (3, k.val)
  | .tables k => (4, k.val)
  | .staging k => (5, k.val)
  | .burst => (5, 32)

/-- An uncorrectable SRAM word met: counted and reported with the memory and the word (R363). -/
def State.sramUe (s : State) (m : SramId) (word t : Nat) : State :=
  (s.bump .memSramUe 1).raise .sramUe 0 (sramKind m).2 t [wd (sramKind m).1, wd word]

/-- An uncorrectable codeword of HBM met at payload address a (R359): counted, its codeword's address latched,
reported. -/
def State.memUe (s : State) (a t : Nat) : State :=
  let s1 := s.bump .memUeCnt 1
  { s1 with mem := { s1.mem with ueAddr := a / 64 * 64 } }.raise .memUe 0 0 t (wd64 (a / 64 * 64))

/-- The first byte of a packet of queue qn that lies in an uncorrectable codeword, as an offset in the packet (R359):
where packets lie in the region is a free value (notes/assumptions/34). -/
def State.hurt (s : State) (qn : Nat) (p : Packet) : Option Nat :=
  if s.mem.poison.isEmpty then none else
  let q := s.queue qn
  let at' := Config.packetAt qn p.first p.bytes.length % q.size
  (List.range p.bytes.length).find? (fun i => s.mem.poison.contains ((q.base + (at' + i) % q.size) / 64))

/-- A refused, dropped or overwritten packet of queue qn: counted, LOST set, QM_DROP at the first after
LOST was cleared (R305). -/
def State.dropPacket (s : State) (qn : Nat) : State :=
  let s1 := s.dropped qn
  if s.qLost qn then s1 else s1.raise .qmDrop 0 qn s.now [wd (s.queue qn).role]

/-- What became of a packet offered to a queue. -/
inductive Stored where
  | stored | refused | rewound
  deriving DecidableEq, Repr

/-- A packet written whole to a store-and-forward queue by the module itself: refused when longer than half
the region, dropped or overwriting by the full-queue rule of the role, rewound when its trailer fails
(R296, R305, R307). -/
def State.storePacket (s : State) (qn : Nat) (bs : List Byte) : State × Stored :=
  let q := s.queue qn
  if q.size < 2 * bs.length then (s.dropPacket qn, .refused) else
  if q.room bs.length = true then
    if whipOk bs = true then
      (s.pushPacket qn { bytes := bs, first := s.now, vis := some s.now }, .stored)
    else (s.bumpKey (qKey qn 1) 1, .rewound)
  else (s.dropPacket qn, .refused)

end Sys2Proof.Machine
end

