-- ==== Sys2Proof/Machine/Operands.lean ====
section
/-! DEFINITION. Operand forms: the fields of a sequence word (R70, R72), which words are illegal (R73, R92),
unit codes and ownership (R62), the fields of an envelope-table entry (R104), and the numbering of units
(R5, R6). -/

namespace Sys2Proof.Machine

-- sequence words

/-- OPCODE, TMODE and DELTA of a sequence word (R70). -/
def wOp (w : Nat) : Nat := bits w 63 59
def wTmode (w : Nat) : Nat := bits w 58 57
def wDelta (w : Nat) : Nat := bits w 56 40

/-- The assigned opcodes with their worst-case micro-routine lengths in fabric cycles (R71). -/
def opTable : List (Nat × Nat) :=
  [(0x00, 2), (0x01, 2), (0x02, 3), (0x03, 4), (0x04, 6), (0x05, 5), (0x06, 3), (0x08, 8), (0x09, 4),
   (0x0A, 5), (0x10, 3), (0x11, 3), (0x12, 3), (0x13, 3), (0x14, 2), (0x15, 4)]

/-- Whether an opcode code is assigned (R71). -/
def opAssigned (op : Nat) : Bool := opTable.any (fun p => p.1 = op)

/-- Whether an opcode is a flow word (R71). -/
def opFlow (op : Nat) : Bool := decide (0x10 ≤ op)

/-- The micro-routine lengths that hold when the loaded image declares none shorter (R63, R71). -/
def defaultLens : List Nat := opTable.map (·.2)

/-- The length of an opcode's micro-routine in fabric cycles: the loaded image's declaration (R63), or the
length of R71. -/
def microLen (lens : List Nat) (op : Nat) : Nat :=
  match (opTable.zip (if lens.length = 16 then lens else defaultLens)).find? (fun p => p.1.1 = op) with
  | some p => p.2
  | none => 2

/-- The operand bits that an opcode's fields take up (R72). -/
def opMask (op : Nat) : Nat :=
  if op = 0x00 then 0xFFFF else
  if op = 0x01 then 0xFFFFFFFFFF else
  if op = 0x02 then 0xFFFFFF8000 else
  if op = 0x03 then 0xFF00000000 else
  if op = 0x04 then 0xFFFFFFFFE0 else
  if op = 0x05 then 0xFFFFFFFFFF else
  if op = 0x06 then 0xFFFFF00000 else
  if op = 0x08 then 0xFC000003FF else
  if op = 0x09 then 0xFFFFFFFFFF else
  if op = 0x0A then 0xFFFFFFFFFF else
  if op = 0x10 then 0xFFFFFF8000 else
  if op = 0x11 then 0xFFFFFFFFFF else
  if op = 0x12 then 0xFFFF800000 else
  if op = 0x13 then 0 else
  if op = 0x14 then 0xFFFFF00000 else
  if op = 0x15 then 0xFFFFFFCFFF else 0

/-- The local core that owns unit u of strand k (R62). -/
def State.owner (s : State) (k u : Nat) : Nat := s.fld (.seqOwn k u) 2 0

/-- Whether global core c owns unit u of its strand (R62). -/
def State.owns (s : State) (c u : Nat) : Bool := s.owner (c / 8) u == c % 8

/-- The unit that a word names, if its opcode names one (R62, R72). -/
def wUnit (w : Nat) : Option Nat :=
  let op := wOp w
  if op = 0x04 then some (bits w 39 33) else
  if op = 0x05 then some (32 + bits w 39 35) else
  if op = 0x06 then some (64 + bits w 39 36) else
  if op = 0x08 then some (bits w 39 34) else none

/-- Whether a decision-bit address with these conditions is an allowed encoding of JCOND (R72, R84, R85). -/
def jcondOk (w : Nat) : Bool :=
  let ct := bits w 22 20
  let dba := bits w 11 0
  decide (ct ≤ 4) && decide (dba < 0x920) && !(decide (ct = 4) && bit w 19) &&
    (!(decide (ct = 2) || decide (ct = 3)) || (decide (dba % 2 = 0) && decide (dba < 0x800)))

/-- Whether a word is legal for core c, read from a stream or from the SRAM (R73, R92). -/
def State.wordLegal (s : State) (c w : Nat) (inStream : Bool) : Bool :=
  let op := wOp w
  opAssigned op &&
  decide ((bits w 39 0) &&& (0xFFFFFFFFFF ^^^ opMask op) = 0) &&
  (match wUnit w with
    | some u => decide (u < 80) && s.owns c u
    | none => true) &&
  (op != 0x03 || bit w (32 + c % 8)) &&
  (op != 0x0A || bits w 13 12 == 0 || decide (bits w 11 0 < 0x920)) &&
  (op != 0x11 || bits w 39 0 == 0 || (wTmode w == 0 && wDelta w == 0)) &&
  (op != 0x15 || jcondOk w) &&
  (!(wTmode w == 3) || (s.core c).tRef.isSome) &&
  (!inStream || !(opFlow op) || op == 0x12 || op == 0x11 || (op == 0x10 && bits w 39 16 == 1))

-- numbering

/-- The local output that playback unit u feeds: RF outputs 0 to 5, baseband channels as 6 to 21 (R102). -/
def unitOut (u : Nat) : Nat := if u < 32 then u / 8 else if u < 64 then 4 + (u - 32) / 16 else u - 64 + 6

/-- The playback units that feed local output o (R102). -/
def outUnits (o : Nat) : List Nat :=
  if o < 4 then (List.range 8).map (fun i => 8 * o + i) else
  if o < 6 then (List.range 16).map (fun i => 32 + 16 * (o - 4) + i) else [64 + (o - 6)]

/-- The global number of local output o of strand k within its unit class (R5). -/
def outGlobal (k o : Nat) : Nat := if o < 4 then 4 * k + o else if o < 6 then 2 * k + (o - 4) else 16 * k + (o - 6)

/-- The cores of strand k that own a unit in the list. -/
def State.ownersOf (s : State) (k : Nat) (us : List Nat) : List Nat := us.map (fun u => 8 * k + s.owner k u)

/-- A core is running in the sense of R62, R135, R148, R160 and R214: RUNNING or WAITING. -/
def Core.active (c : Core) : Bool := c.st == .running || c.st == .waiting

/-- Some core that owns one of the units is RUNNING or WAITING (R135, R148, R160). -/
def State.anyActive (s : State) (k : Nat) (us : List Nat) : Bool := (s.ownersOf k us).any (fun c => (s.core c).active)

-- envelope table

/-- The four words of envelope-table entry e of strand k (R104). -/
def State.envEntry (s : State) (k e i : Nat) : Nat := Mem.num s.envTab (65536 * k + 16 * e + 4 * i) 4

/-- An envelope-table entry, read once (R104, R107). -/
structure EnvEntry where
  src : Nat
  k : Nat
  ready : Bool
  len : Nat
  addr : Nat
  hbm : Nat
  deriving DecidableEq, Repr

def State.env (s : State) (k e : Nat) : EnvEntry :=
  let w0 := s.envEntry k e 0
  { src := bits w0 31 30, k := bits w0 29 27,
    ready := bits w0 31 30 != 1 || bit w0 26,
    len := bits w0 23 0, addr := bits (s.envEntry k e 1) 19 0,
    hbm := s.envEntry k e 2 + 2 ^ 32 * bits (s.envEntry k e 3) 0 0 }

/-- Whether the 16 bytes of an entry hold no reserved encoding (R104). -/
def envEntryOk (w0 w1 w2 w3 : Nat) : Bool :=
  let _ := w2
  decide (bits w0 31 30 ≠ 3) && decide (bits w0 29 27 ≠ 7) && decide (bits w0 25 24 = 0) &&
  decide (bits w1 31 20 = 0) && decide (bits w3 31 1 = 0) &&
  (bits w0 31 30 != 2 || decide (bits w1 19 15 = 0))

end Sys2Proof.Machine
end

