-- ==== Sys2Proof/Machine/Profiles.lean ====
section
/-! DEFINITION. Profiles (R17) and the plain effect of a register write on its RW fields: which registers
carry a profile field, what each profile sets (R100, R134, R181, R201, R219, R250, R274, R294, R318, R333,
R352, R371, R394), and which registers belong to a function whose profile field stands elsewhere. -/

namespace Sys2Proof.Machine

/-- One setting of a profile: a register, its bits and the value. -/
structure Setting where
  reg : RegId
  hi : Nat
  lo : Nat
  val : Nat
  deriving DecidableEq, Repr

/-- The entry k of ply p under the import profile NEIGHBOUR (R219): strands 8p - 2, 8p - 1, 8p + 8 and
8p + 9, modulo the number n of strands of the variant. -/
def neighbourSlot (n p k : Nat) : Nat :=
  let b := [8 * p + n - 2, 8 * p + n - 1, 8 * p + 8, 8 * p + 9]
  32 * (((b[k / 32]?).getD 0) % n) + k % 32

/-- The settings of profile code `c` of the function whose profile field stands in register r; none where r
carries no profile field. Settings of the import profile and of truth tables are in Decision.lean. -/
def profileSettings (r : RegId) (c : Nat) : List Setting :=
  match r with
  | .seqCtl i =>
    [⟨.seqCtl i, 9, 8, if c = 1 then 1 else 0⟩, ⟨.seqCtl i, 10, 10, if c = 3 then 1 else 0⟩,
     ⟨.seqCtl i, 11, 11, if c = 3 then 1 else 0⟩, ⟨.seqTrigMask i, 31, 0, if c = 2 then 0xFFFFFFFF else 0⟩]
  | .outRfCtl s o => [⟨.outRfCtl s o, 1, 0, c⟩]
  | .outBbCtl s i => [⟨.outBbCtl s i, 3, 0, if c = 0 then 0 else 15⟩, ⟨.outBbCtl s i, 4, 4, if c = 1 then 1 else 0⟩]
  | .acqInCtl s i => [⟨.acqInCtl s i, 2, 1, c⟩, ⟨.acqInCtl s i, 11, 8, 0⟩]
  | .acqToneCtl s i => [⟨.acqToneCtl s i, 0, 0, c⟩, ⟨.acqToneCtl s i, 5, 3, 2⟩]
  | .discCtl s i => [⟨.discCtl s i, 0, 0, 1 - c⟩, ⟨.discCtl s i, 1, 1, 1 - c⟩]
  | .hchDirCtl d => [⟨.hchDirCtl d, 3, 3, if c = 1 then 1 else 0⟩, ⟨.hchDirCtl d, 23, 8, if c = 2 then 0 else 1000⟩]
  | .syncCtl => [⟨.syncCtl, 11, 10, c⟩, ⟨.syncCtl, 9, 8, if c = 0 then 0 else 1⟩, ⟨.syncCtl, 7, 4, 2⟩]
  | .ptpCtl =>
    if c = 0 then [⟨.ptpCtl, 1, 0, 0⟩] else
    [⟨.ptpCtl, 1, 0, c⟩, ⟨.ptpServo, 15, 0, 0x0400⟩, ⟨.ptpServo, 31, 16, 0x0040⟩, ⟨.ptpLockThr, 15, 0, 100⟩,
     ⟨.ptpCtl, 23, 8, 1000⟩, ⟨.ptpCtl, 7, 7, 0⟩]
  | .hifCtl => [⟨.hifCtl, 19, 0, if c = 0 then 10 else if c = 1 then 1 else 0⟩]
  | .hifRingCtl n =>
    [⟨.hifRingCtl n, 20, 16, if c = 0 then 10 else if c = 1 then 14 else 6⟩,
     ⟨.hifRingCtl n, 15, 5, if c = 0 then 256 else if c = 1 then 1024 else 1⟩]
  | .thmCtl =>
    [⟨.thmCtl, 7, 4, if c = 2 then 2 else 4⟩, ⟨.thmCtl, 11, 8, if c = 2 then 5 else 10⟩,
     ⟨.thmCtl, 1, 0, if c = 0 then 0 else 1⟩]
  | .memCtl =>
    [⟨.memCtl, 23, 16, if c = 0 then 24 else if c = 1 then 1 else 0⟩, ⟨.memCtl, 15, 8, 16⟩,
     ⟨.memCtl, 0, 0, if c = 2 then 0 else 1⟩]
  | .calCtl =>
    if c = 2 then [⟨.calCtl, 0, 0, 0⟩] else
    let m := if c = 0 then 1 else 4
    [⟨.calCtl, 0, 0, 1⟩, ⟨.calCtl, 13, 8, if c = 0 then 2 else 10⟩, ⟨.calInterval, 7, 0, 60 * m⟩,
     ⟨.calInterval, 15, 8, 30 * m⟩, ⟨.calInterval, 23, 16, 10 * m⟩, ⟨.calInterval, 31, 24, 4 * m⟩]
  | .calApply x =>
    [⟨.calApply x, 16, 16, if c = 0 then 1 else 0⟩, ⟨.calApply x, 10, 0, if c = 2 then 1024 else 16⟩]
  | .monCtl n =>
    [⟨.monCtl n, 8, 7, if c = 0 then 1 else 0⟩, ⟨.monCtl n, 6, 4, if c = 0 then 6 else 0⟩,
     ⟨.monCtl n, 11, 9, if c = 2 then 3 else 0⟩, ⟨.monCtl n, 3, 3, if c = 2 then 0 else 1⟩,
     ⟨.monCtl n, 15, 12, 4⟩, ⟨.monCtl n, 23, 18, if c = 0 then 63 else 15⟩]
  | .tioInCtl i =>
    [⟨.tioInCtl i, 5, 4, c + 1⟩, ⟨.tioInCtl i, 11, 8, 0⟩, ⟨.tioInCtl i, 1, 1, 1⟩, ⟨.tioInCtl i, 2, 2, 0⟩]
  | _ => []

/-- Whether a register carries a profile field in bits 31:24 (R17). -/
def RegId.hasProfile (r : RegId) : Bool :=
  (profileSettings r 0 != []) || (match r with | .decCtl => true | .decDctl _ => true | .qmQctl => true | _ => false)

/-- The register whose profile field covers a register of its own function (R17): a write of it makes that
profile read 0xFF. -/
def RegId.profileOf : RegId → Option RegId
  | .seqTrigMask c => some (.seqCtl c)
  | .ptpServo => some .ptpCtl
  | .ptpLockThr => some .ptpCtl
  | .calInterval => some .calCtl
  | .decImport _ _ => some .decCtl
  | _ => none

/-- Further encodings that the manual reserves depending on the unit (R15): the allowed form of a written
field, by register: zone 2 on a probe output (R134, R136), UNDERHOLD on a tone's unit (R101), an import of a
slot of the ply itself (R222), RATEWARN not below the RATETRIP written (R395), RAW on a target other than HBM (R372), a gate of a
unit code above 79 (R62, R334). -/
def RegId.extraOk (r : RegId) (f : Field) (v : Nat) (w : Word) : Bool :=
  match r with
  | .outRfCtl _ o => !(decide (4 ≤ o) && ((f.lo == 0 && v != 0) || (f.lo == 24 && v == 1)))
  | .seqOwn _ u => !(decide (u < 64) && f.lo == 4 && v == 1)
  | .decImport p _ => !(f.lo == 0 && v / 256 == p)
  | .thmCtl => !(f.lo == 4 && getF w 11 8 ≤ v)
  | .memTestCtl => !(f.lo == 15 && v == 1 && getF w 11 8 != 0)
  | .tioOutCtl _ => !(f.lo == 0 && getF w 31 30 == 1 && decide (80 ≤ v % 128))
  | .tioEwCtl _ => !(f.lo == 0 && decide (80 ≤ v % 128))
  | _ => true

/-- The bits of a register's word that are reserved in its present form and read 0 (R15): bit 7 of a gate and bits 12:8 of a
derived bit's selector (R334), bits 29:3 of a RELAY map (R251). -/
def RegId.unused (r : RegId) (w : Word) : Word :=
  match r with
  | .tioOutCtl _ => if getF w 31 30 = 1 then 0x80 else if getF w 31 30 = 2 then 0x1F00 else 0
  | .tioEwCtl _ => 0x80
  | .hchTxMap _ => if getF w 31 30 = 2 then 0x3FFFFFF8 else 0
  | _ => 0

/-- The RW fields of a register after a write of w over the word `old`, with no profile (R14, R15). -/
def RegId.mergeX (r : RegId) (old w : Word) : Word :=
  let x := r.fields.foldl (fun acc f =>
    let v := getF w f.hi f.lo
    if f.acc = .rw ∧ f.allows v = true ∧ r.extraOk f v w = true then setF acc f.hi f.lo v else acc) old
  x &&& ~~~(r.unused x)

/-- The profile code a write of register r carries, with a reserved code taken as the previous one (R17). -/
def RegId.codeOf (r : RegId) (old w : Word) : Nat :=
  match r.fields.find? (fun f => f.lo = 24) with
  | some f => if f.allows (getF w 31 24) && r.extraOk f (getF w 31 24) w then getF w 31 24 else getF old 31 24
  | none => getF w 31 24

/-- A setting carried out. -/
def State.applySetting (s : State) (x : Setting) : State := s.setFld x.reg x.hi x.lo x.val

/-- The write of a register's RW fields with the meaning of its profile field (R17): a profile code sets the
profile's fields over whatever the write carries in them; 0xFF writes every field; a register of a function
whose profile stands elsewhere makes that profile read 0xFF. -/
def State.writeFields (s : State) (r : RegId) (w : Word) : State :=
  let old := s.reg r
  let s1 := s.setReg r (r.mergeX old w)
  if r.hasProfile then
    let c := r.codeOf old w
    if c = 0xFF then s1 else (profileSettings r c).foldl State.applySetting s1
  else
    match r.profileOf with
    | some f => s1.setFld f 31 24 0xFF
    | none => s1

end Sys2Proof.Machine
end

