-- ==== Sys2Proof/Machine/Fabric.lean ====
section
/-! DEFINITION. The decision fabric as its viewers see it (chapter 08): what a core, or the hub, reads of a
state slot, a trigger bit, a received Hitch bit or a derived bit at a given tick, with the path latencies of
R207 to R209, the side-band frames of R210 and R211 and the failed frames of R220. -/

namespace Sys2Proof.Machine

/-- What a viewer reads of a bit (R204). -/
structure View where
  val : Nat
  stamp : Nat
  stale : Bool
  deriving DecidableEq, Repr

/-- The side-band frame a tick lies in (R210). -/
def frameOf (t : Nat) : Nat := t / 64

/-- Path latencies in ticks (R34, R207, R208). -/
def latStrand : Nat := 1536
def latPly : Nat := 1664
def latHub : Nat := 1920
def latTrig : Nat := 832

/-- Latency of a received Hitch bit over h hops (R209). -/
def latHitch (h : Nat) : Nat := 3456 + 720 * (h - 1)

/-- Hub merge output to a core's presence time: the merge, side-band, lookup, dispatch and DAC stages of
R208, less the 8 ticks of R86 (notes/assumptions/20). -/
def hubToCore : Nat := 600

/-- The changes a side-band record shows: a change is hidden by a later write stamped in the same frame
(R211). The list is newest first. -/
def hideSameFrame : Option Chg → List Chg → List Chg
  | _, [] => []
  | none, c :: r => c :: hideSameFrame (some c) r
  | some n, c :: r =>
    if n.wr = true ∧ frameOf n.at' = frameOf c.at' then hideSameFrame (some n) r
    else c :: hideSameFrame (some c) r

/-- Presence time of a change over a direct path of latency l: every change as if written (R206, R207). -/
def presDirect (l : Nat) (c : Chg) : Nat := up8 c.at' + l - 8

/-- Presence time of a change carried in a side-band record: a write at the time of R207, a change without
a write through CUR at the frame's end (R211, R220). -/
def presFrame (l : Nat) (c : Chg) : Nat :=
  if c.wr = true then up8 c.at' + l - 8 else 64 * (frameOf c.at' + 1) + l - 8

/-- The first frame from f on that is not among the failed ones. -/
def nextGood (bad : List Nat) : Nat → Nat → Nat
  | 0, f => f
  | k + 1, f => if f ∈ bad then nextGood bad k (f + 1) else f

/-- The presentation time of a frame's frame-end values over a path of latency l (R220). -/
def frameEndPres (l f : Nat) : Nat := 64 * (f + 1) + l - 8

/-- A bit is held stale at tick x because a frame that would have carried it failed (R220). -/
def staleAt (bad : List Nat) (l x : Nat) : Bool :=
  bad.any (fun f => decide (frameEndPres l f ≤ x) && decide (x < frameEndPres l (nextGood bad bad.length f)))

/-- The bit as a change presented at or before tick x leaves it; `old` is what stood before. A change whose
frame failed shows only its value, with the next good frame (R220). -/
def applyChg (bad : List Nat) (l x : Nat) (old : Nat × Nat) (c : Chg) : Nat × Nat :=
  let f := frameOf c.at'
  if f ∈ bad then
    if frameEndPres l (nextGood bad bad.length f) ≤ x then (c.val, old.2) else old
  else if presFrame l c ≤ x then (c.val, c.stamp) else old

/-- A bit read through the side band at tick x (R207, R211, R220). -/
def viewFrame (h : List Chg) (bad : List Nat) (l x dflt : Nat) : View :=
  let v := (hideSameFrame none h).reverse.foldl (applyChg bad l x) (dflt, 0)
  { val := v.1, stamp := v.2, stale := staleAt bad l x }

/-- A bit read over a direct path at tick x: the newest change present there (R207). -/
def viewDirect (h : List Chg) (l x dflt : Nat) : View :=
  match h.find? (fun c => decide (presDirect l c ≤ x)) with
  | some c => { val := c.val, stamp := c.stamp, stale := false }
  | none => { val := dflt, stamp := 0, stale := false }

/-- The changes of state slot n, newest first. -/
def State.slotHist (s : State) (n : Nat) : List Chg := Tab.get s.dec.slots n []

/-- The failed upward frames of slot n since RUN was last entered from READY, which clears its stale flag (R205), and the
failed downward frames of ply p (R220). -/
def State.upBad (s : State) (n : Nat) : List Nat :=
  (s.dec.badUp.filter (fun b => b.1 == n && decide (s.dec.slotsFrom ≤ b.2))).map (·.2)
def State.downBad (s : State) (p : Nat) : List Nat := (s.dec.badDown.filter (fun b => b.1 = p)).map (·.2)

/-- The import entry of ply p that serves slot n: the lowest valid one (R212). -/
def State.importOf (s : State) (p n : Nat) : Option Import :=
  ((List.range 128).map (fun k => Tab.get s.dec.imports (128 * p + k) {})).find? (fun e => e.valid && e.slot == n)

/-- The view a core of ply p, strand k has of slot n at tick x; none where the slot is not mapped (R207,
R212, R213). -/
def State.slotView (s : State) (k n x : Nat) : Option View :=
  let sn := n / 32
  if sn = k then some (viewDirect (s.slotHist n) latStrand x 3) else
  if sn / 8 = k / 8 then some (viewDirect (s.slotHist n) latPly x 3) else
  match s.importOf (k / 8) n with
  | none => none
  | some e =>
    let bad := s.upBad n ++ (s.downBad (k / 8)).filter (fun f => decide (s.dec.slotsFrom ≤ f))
    let v := viewFrame (s.slotHist n) bad latHub x 3
    some { v with stamp := if v.stamp < e.from' then 0 else v.stamp }

/-- The view a core of ply p has of trigger bit i at tick x (R207, R220). -/
def State.trigView (s : State) (p i x : Nat) : View :=
  viewFrame (Tab.get s.dec.trigs i []) (s.downBad p) latTrig x 0

/-- The receive-map entry of position c of direction d (R238): valid, origin, hops. -/
def State.rxValid (s : State) (d c : Nat) : Bool := decide (s.fld (.hchRxHi (3 * d + c)) 31 31 = 1)
def State.rxOrigin (s : State) (d c : Nat) : Nat := s.fld (.hchRxHi (3 * d + c)) 5 0
def State.rxHops (s : State) (d c : Nat) : Nat := s.fld (.hchRxHi (3 * d + c)) 10 8

/-- E_r of a receive-map entry. -/
def State.rxE (s : State) (d c r : Nat) : Nat := s.fld (.hchRxLo (3 * d + c)) (6 * r + 5) (6 * r)

/-- The received bits of an entry, in record order (R238). -/
def State.rxBits (s : State) (d c : Nat) : List Nat := (List.range 5).map (fun r => 64 * s.rxOrigin d c + s.rxE d c r)

/-- The entry that serves received bit k: the lowest valid one that delivers it (R238). -/
def State.serves (s : State) (k : Nat) : Option Nat :=
  (List.range 24).find? (fun i => s.rxValid (i / 3) (i % 3) && (s.rxBits (i / 3) (i % 3)).contains k)

/-- The path latency of received bit k (R209). -/
def State.hitchLat (s : State) (k : Nat) : Nat :=
  match s.serves k with | some i => latHitch (s.rxHops (i / 3) (i % 3)) | none => 0

def State.hbit (s : State) (k : Nat) : HBit := Tab.get s.dec.hbits k {}
def State.setHbit (s : State) (k : Nat) (x : HBit) : State :=
  { s with dec := { s.dec with hbits := Tab.put s.dec.hbits k x } }

/-- A received Hitch bit at tick x; its changes are kept with their presentation times (R239). One that no valid entry delivers
reads 0, with stamp 0, stale (R238). -/
def State.hitchView (s : State) (k x : Nat) : View :=
  let b := s.hbit k
  let st := b.stale.any (fun i => decide (i.1 ≤ x) && (match i.2 with | none => true | some e => decide (x < e)))
  match (if (s.serves k).isSome then b.hist.find? (fun c => decide (c.at' ≤ x)) else none) with
  | some c => { val := c.val, stamp := c.stamp, stale := st }
  | none => { val := 0, stamp := 0, stale := true }

/-- A derived bit's input as it stands at the hub, in terms of the tick x of presence at a core (R209,
R215): none for the constant zero. -/
def State.derivedIn (s : State) (sel x : Nat) : Option View :=
  if sel = 0x3FFF then none else
  if sel < 0x800 then
    let v := viewFrame (s.slotHist (sel / 2)) (s.upBad (sel / 2)) latHub x 3
    some { v with val := if v.val.testBit (sel % 2) then 1 else 0 }
  else if sel < 0x1000 then some (viewDirect (Tab.get s.dec.trigs (sel - 0x900) []) latTrig x 0)
  else some (s.hitchView (sel - 0x1000) x)

/-- Value of a table profile at the non-constant inputs' bits of x (R219). -/
def profileBit (prof mask x : Nat) (sel0zero : Bool) : Bool :=
  let n := ((List.range 16).filter (fun i => mask.testBit i)).length
  let ones := ((List.range 16).filter (fun i => mask.testBit i && x.testBit i)).length
  if n = 0 then false else
  if prof = 1 then (!sel0zero && x.testBit 0) else
  if prof = 2 then decide (ones = n) else
  if prof = 3 then decide (0 < ones) else
  if prof = 4 then decide (ones % 2 = 1) else
  if prof = 5 then decide (n < 2 * ones) else false

/-- Bit x of a truth table: byte x div 8, bit x mod 8 (R218), or the profile's value (R219). -/
def TT.bit (t : TT) (x : Nat) : Bool :=
  match t with
  | .raw m => (Mem.read m (x / 8)).toNat.testBit (x % 8)
  | .gen p mask z => profileBit p mask x z

/-- The selector of input i of a set. -/
def DSet.sel (d : DSet) (i : Nat) : Nat := (d.sels[i]?).getD 0x3FFF

/-- The active set of derived bit d in force at hub tick h (R217). -/
def State.dset (s : State) (d h : Nat) : DSet :=
  ((Tab.get s.dec.dsets d []).find? (fun x => decide (x.from' ≤ h))).getD {}

/-- The path latency of an input (R209): 0 for the constant zero. -/
def State.inputLat (s : State) (sel : Nat) : Nat :=
  if sel = 0x3FFF then 0 else if sel < 0x800 then latHub else if sel < 0x1000 then latTrig else s.hitchLat (sel - 0x1000)

/-- The ticks of presence at a core of an input's writes that reach the hub as writes (R209, R211, R220): the last of an
upward record, where that did not fail; every edge of a trigger input; every record of a received bit with W = 1. -/
def State.inputWrites (s : State) (sel : Nat) : List Nat :=
  if sel = 0x3FFF then [] else
  if sel < 0x800 then
    let n := sel / 2
    ((hideSameFrame none (s.slotHist n)).filter (fun c => c.wr && !(s.upBad n).contains (frameOf c.at'))).map (presFrame latHub)
  else if sel < 0x1000 then (Tab.get s.dec.trigs (sel - 0x900) []).map (presDirect latTrig)
  else if (s.serves (sel - 0x1000)).isSome then ((s.hbit (sel - 0x1000)).hist.filter (·.wr)).map (·.at') else []

/-- What a set makes of its inputs as they stand at tick x of presence at a core (R216): the index, the table bit, the latest
input stamp, the OR of the stale flags. -/
def State.evalSet (s : State) (ds : DSet) (x : Nat) : View :=
  let ins := (List.range 16).map (fun i => (i, s.derivedIn (ds.sel i) x))
  let idx := ins.foldl (fun a p =>
    let v := match p.2 with | none => false | some v => decide (v.val = 1)
    if v != ds.inv.testBit p.1 then a + 2 ^ p.1 else a) 0
  { val := b2n (ds.tt.bit idx),
    stamp := maxOf 0 (ins.map (fun p => match p.2 with | none => 0 | some v => v.stamp)),
    stale := ins.any (fun p => match p.2 with | none => false | some v => v.stale) }

/-- The writes of a derived bit up to tick x (R209, R217): the ticks of presence of its inputs' writes, each under the set then
in force, which is the one given with it. -/
def State.derivedWrites (s : State) (d x : Nat) : List (Nat × DSet) :=
  let sets := Tab.get s.dec.dsets d []
  (((none :: sets.map some).zip sets).map (fun p =>
    let last := match p.1 with | some later => min x (later.from' + hubToCore - 1) | none => x
    (((List.range 16).map (fun i => s.inputWrites (p.2.sel i))).flatten.filter (fun t =>
      decide (p.2.from' + hubToCore ≤ t) && decide (t ≤ last))).map (fun t => (t, p.2)))).flatten

/-- The latest of a list of writes. -/
def lastWrite : List (Nat × DSet) → Option (Nat × DSet)
  | [] => none
  | w :: r => some (r.foldl (fun a b => if a.1 < b.1 then b else a) w)

/-- A derived bit as evaluated at the hub, in terms of the tick x of presence at a core (R216, R217): its value and stale flag
from its inputs as they stand there, its stamp that of its last write, which a commit leaves as it is. -/
def State.derivedAt (s : State) (d x : Nat) : View :=
  { s.evalSet (s.dset d (x - hubToCore)) x with
    stamp := match lastWrite (s.derivedWrites d x) with | some w => (s.evalSet w.2 w.1).stamp | none => 0 }

/-- The path latency by which the downward frames of derived bit d are counted at tick x of presence: the longest of its
inputs, that of a trigger bit where it has none (notes/assumptions/75). -/
def State.derivedLat (s : State) (d x : Nat) : Nat :=
  let ds := s.dset d (x - hubToCore)
  match maxOf 0 ((List.range 16).map (fun i => s.inputLat (ds.sel i))) with
  | 0 => latTrig
  | l => l

/-- The last frame before f that is not among the failed ones; none where there is no such frame. -/
def lastGood (bad : List Nat) : Nat → Nat → Option Nat
  | _, 0 => none
  | 0, _ => none
  | k + 1, f + 1 => if f ∈ bad then lastGood bad k f else some f

/-- The view a core of ply p has of derived bit d at tick x (R211, R216, R220): in its downward frame the last write of the frame
from its presence on; before it, and in a failed frame, what the last good frame gave at its end, with the stamp of the last
write shown; stale while an input is, or after a failed frame. -/
def State.derivedView (s : State) (p d x : Nat) : View :=
  let l := s.derivedLat d x
  let frame := fun (t : Nat) => frameOf (t + 8 - l)
  let bad := s.downBad p
  let ws := (s.derivedWrites d (x + 64)).filter (fun w => !bad.contains (frame w.1))
  let shown := ws.filter (fun w => decide (w.1 ≤ x) &&
    !ws.any (fun v => decide (w.1 < v.1) && decide (frame v.1 = frame w.1)))
  let stamp := match lastWrite shown with | some w => (s.evalSet w.2 w.1).stamp | none => 0
  let val := match lastWrite (shown.filter (fun w => decide (frame w.1 = frame x))) with
    | some w => (s.evalSet w.2 w.1).val
    | none =>
      match lastGood bad (bad.length + 1) (frame x) with
      | some f => (s.derivedAt d (frameEndPres l f - 1)).val
      | none => 0
  { val := val, stamp := stamp, stale := (s.derivedAt d x).stale || staleAt bad l x }

/-- What core c reads at decision-bit address dba at tick x: the view (a whole slot where the condition is
on a state), and whether the address names an unmapped slot (R84, R213). -/
def State.decView (s : State) (c dba x : Nat) (whole : Bool) : View × Bool :=
  if dba < 0x800 then
    match s.slotView (c / 8) (dba / 2) x with
    | none => ({ val := if whole then 3 else 1, stamp := 0, stale := true }, true)
    | some v => (if whole then v else { v with val := if v.val.testBit (dba % 2) then 1 else 0 }, false)
  else if dba < 0x900 then (s.derivedView (c / 64) (dba - 0x800) x, false)
  else (s.trigView (c / 64) (dba - 0x900) x, false)

/-- A condition as met, not met or not yet present (R85 to R87). -/
inductive Cond where
  | notPresent | holds | fails
  deriving DecidableEq, Repr

/-- The condition of a JCOND word w of core c sampled at cut-off x, with the shot's start s0 (R85, R86). -/
def State.jcondAt (s : State) (c w s0 x : Nat) : Cond :=
  let ct := bits w 22 20
  let v := (s.decView c (bits w 11 0) x (decide (ct = 2) || decide (ct = 3))).1
  if bit w 19 = true ∧ v.stamp < s0 then .notPresent else
  let r := if ct = 0 then decide (v.val = 1) else if ct = 1 then decide (v.val = 0) else
    if ct = 2 then decide (v.val = bits w 18 17) else if ct = 3 then decide (v.val ≠ bits w 18 17) else v.stale
  if r then .holds else .fails

/-- The condition of a FRAMEADD word w of core c sampled at cut-off x (R72, R87). -/
def State.faddAt (s : State) (c w s0 x : Nat) : Cond :=
  let cm := bits w 13 12
  if cm = 0 then .holds else
  let v := (s.decView c (bits w 11 0) x false).1
  if cm = 3 ∧ v.stamp < s0 then .notPresent else
  if (cm = 2 ∧ v.val = 0) ∨ (cm ≠ 2 ∧ v.val = 1) then .holds else .fails

/-- The cut-off of a conditional word or segment end at tick t: the start of the last fabric cycle wholly
before it (R87). -/
def cutoff (t : Nat) : Nat := fl8 t - 8

/-- A state slot written with STATE and stamp t (R189). -/
def State.writeSlot (s : State) (n val t : Nat) : State :=
  { s with dec := { s.dec with slots := Tab.put s.dec.slots n ({ at' := t, stamp := t, val := val } :: s.slotHist n) } }

/-- The stamp a slot carries now. -/
def lastStamp : List Chg → Nat
  | [] => 0
  | c :: _ => c.stamp

/-- A slot set to invalid at tick t by a change that is no write: the stamp is kept (R206). -/
def invalidChg (t : Nat) (h : List Chg) : List Chg :=
  match h with
  | [] => []
  | c :: r => if c.val = 3 then c :: r else { at' := t, stamp := c.stamp, val := 3, wr := false } :: c :: r

/-- The 32 slots of strand k read invalid from tick t on (R206). -/
def State.gateSlots (s : State) (k t : Nat) : State :=
  { s with dec := { s.dec with slots := s.dec.slots.map (fun e => if e.1 / 32 = k then (e.1, invalidChg t e.2) else e) } }

/-- Every slot reads invalid from tick t on: a mode other than RUN and HOLD is entered (R205, R206). -/
def State.invalidateSlots (s : State) (t : Nat) : State :=
  { s with dec := { s.dec with slots := s.dec.slots.map (fun e => (e.1, invalidChg t e.2)) } }

/-- Every slot reads 0b11 with stamp 0 and its stale flag clear, as on entry to RUN from READY (R205). -/
def State.clearSlots (s : State) : State :=
  { s with dec := { s.dec with slots := [], slotsFrom := frameOf s.now } }

end Sys2Proof.Machine
end

