-- ==== Sys2Proof/Machine/Results.lean ====
section
/-! DEFINITION. Shots, the marking of shots as invalid (R78, R97, R196), result packets, staging and their
commit to the result queues (R190 to R200), with the meanings of RESULT_COMMIT and EARLY_RELEASE. -/

namespace Sys2Proof.Machine

-- shots

/-- A shot contains a module time: it is the half-open interval from its start to its end (R196). -/
def Shot.contains (x : Shot) (t : Nat) : Bool :=
  decide (x.start ≤ t) && (match x.stop with | none => true | some e => decide (t < e))

/-- The open shots of a core, newest first. -/
def Core.openShots (c : Core) : List Shot := c.shots.filter (fun x => x.stop.isNone)

/-- The shot in progress on a core: the innermost open one. -/
def Core.curShot (c : Core) : Option Shot := c.openShots.head?

/-- The start S of the shot in progress, for FRESH (R86); the start time where none is open. -/
def Core.shotStart (c : Core) : Nat := match c.curShot with | some x => x.start | none => c.start

/-- The shots of a core with those of one uid changed. -/
def Core.modShot (c : Core) (uid : Nat) (f : Shot → Shot) : Core :=
  { c with shots := c.shots.map (fun x => if x.uid = uid then f x else x) }

/-- A cause stamped t noted on a core: it marks the shot that contains t (R97, R196). -/
def Core.markAt (c : Core) (t : Nat) : Core := { c with marks := t :: c.marks }

/-- Whether a shot of a core is invalid (R97, R196): a cause's stamp lies in it, from its start to its end. -/
def Core.shotInv (c : Core) (x : Shot) : Bool := x.inv || c.marks.any x.contains

/-- The stamps that no shot of a core contains or can still contain at tick t are forgotten. -/
def Core.trimMarks (c : Core) (t : Nat) : Core :=
  { c with marks := c.marks.filter (fun m => decide (t ≤ m) || c.shots.any (fun x => decide (x.start ≤ m))) }

/-- The cores in the invalidity scope of core c: its strand's, or all of the module (R97). -/
def State.scopeOf (s : State) (c d : Nat) : Bool :=
  decide (s.fld (.seqCtl c) 11 11 = 1) || decide (d / 8 = c / 8)

/-- A cause on core c with stamp t noted on each core of the scope: it marks the shot that contains t (R97, R196). -/
def State.markScope (s : State) (c t : Nat) : State :=
  s.mapCores (fun d x => if s.scopeOf c d then x.markAt t else x)

/-- A cause on core c with stamp t (R97, R196). -/
def State.invalid (s : State) (c t : Nat) : State := s.markScope c t

/-- The open shots of a core invalid whatever the stamp of the cause: the cause is what ends them (R89, R99). -/
def Core.spoil (c : Core) : Core := { c with shots := c.shots.map (fun x => if x.stop.isNone then { x with inv := true } else x) }

/-- A cause on core c at tick t that ends its shots (R89, R97, R99). -/
def State.endInvalid (s : State) (c t : Nat) : State :=
  let s1 := s.invalid c t
  s1.setCore c (s1.core c).spoil

/-- The shot in progress at tick t marked invalid on every core of the module (R46, R220). -/
def State.invalidAll (s : State) (t : Nat) : State :=
  s.mapCores (fun _ x => x.markAt t)

/-- A new shot of a core at tick t, carried by bight depth d (R78). -/
def Core.openShot (c : Core) (no t d : Nat) : Core :=
  { c with shotNo := no, uids := c.uids + 1,
           shots := { uid := c.uids, no := no, start := t, depth := d } :: c.shots }

/-- The open shots carried by bight depths above d end at tick t (R78). -/
def Core.endShots (c : Core) (d t : Nat) : Core :=
  { c with shots := c.shots.map (fun x => if x.stop.isNone && decide (d < x.depth)
                                          then { x with stop := some t } else x) }

/-- Every open shot of a core ends at tick t (R78). -/
def Core.endAll (c : Core) (t : Nat) : Core :=
  { c with shots := c.shots.map (fun x => if x.stop.isNone then { x with stop := some t } else x) }

-- packets

/-- The result-packet word at bytes 24 to 27 with EARLY and SHOTINV (R191). -/
def word6With (w : Nat) (early inv : Bool) : Nat := w + b2n early * 0x8000 + b2n inv * 0x4000

/-- The 32 bytes of a staged packet as committed (R191, R194): a packet whose parity failed has its trailer
inverted. -/
def Staged.bytes (p : Staged) (early inv : Bool) : List Byte :=
  let body := p.head ++ leBytes 4 (word6With p.word6 early inv)
  if p.bad then body ++ leBytes 4 (crc32c body ^^^ 0xFFFFFFFF) else whipped body

/-- A shot summary (R192). -/
def summaryBytes (modnum core : Nat) (inv : Bool) (x : Shot) : List Byte :=
  whipped (leBytes 4 (min x.made 0xFFFF * 0x10000 + modnum % 64 * 0x400) ++ leBytes 4 x.no ++
    leBytes 8 x.start ++ leBytes 8 (x.stop.getD 0) ++
    leBytes 4 (word6With (0x40000000 + core * 0x10000) x.early inv))

/-- A result packet lost on core c for the given cause: event, count, and a summary for its shot (R197,
R199, R202). -/
def State.loseResult (s : State) (e : Ev) (c uid cause : Nat) : State :=
  let s1 := (s.raise e (c / 8) c s.now [wd cause]).bump (.discResLost c) 1
  s1.setCore c ((s1.core c).modShot uid (fun x => { x with sumDue := true }))

/-- A packet of core c committed to its result queue (R199, R304): whether it was stored. -/
def State.commitBytes (s : State) (c uid : Nat) (bs : List Byte) : State :=
  let qn := s.fld (.discResQ c) 14 0
  let q := s.queue qn
  if s.inRole qn 4 = false then s.loseResult .lostQueue c uid 1 else
  if q.content = 2 then (s.dropPacket qn).loseResult .lostQueue c uid 1 else
  let s1 := s.setQueue qn { q with content := 1 }
  match s1.storePacket qn bs with
  | (s2, .stored) => s2
  | (s2, .rewound) => s2
  | (s2, .refused) => s2.loseResult .lostQueue c uid 1

/-- The shot of a staged packet. -/
def State.shotOf (s : State) (p : Staged) : Option Shot := (s.core p.core).shots.find? (fun x => x.uid = p.shot)

/-- A staged packet committed, with EARLY as given; SHOTINV is the mark on its shot (R196). -/
def State.commitStaged (s : State) (early : Bool) (p : Staged) : State :=
  let inv := match s.shotOf p with | some x => (s.core p.core).shotInv x | none => false
  let s1 := if early then s.setCore p.core ((s.core p.core).modShot p.shot (fun x => { x with early := true })) else s
  s1.commitBytes p.core p.shot (p.bytes early inv)

/-- A staged packet committed with SHOTINV and no EARLY (R196, R200); its shot is then flushed. -/
def State.commitFlush (s : State) (p : Staged) : State :=
  let s1 := s.setCore p.core ((s.core p.core).modShot p.shot (fun x => { x with flushed := true, inv := true }))
  s1.commitBytes p.core p.shot (p.bytes false true)

/-- The staged packets of strand k that meet a condition, committed in staging order by an operation, the
others kept. -/
def State.commitWhere (s : State) (k : Nat) (f : Staged → Bool) (op : State → Staged → State) : State :=
  let ps := (s.strand k).staged
  let s1 := s.setStrand k { s.strand k with staged := ps.filter (fun p => !f p) }
  (ps.filter f).foldl op s1

/-- Whether a summary is due for a shot of core c at its end (R197). -/
def State.sumDue (s : State) (c : Nat) (x : Shot) : Bool :=
  decide (s.fld (.discResQ c) 17 17 = 1) || decide (s.fld (.discResQ c) 16 16 = 1) || x.sumDue

/-- A shot that has ended closed out: its summary committed if due, and the shot forgotten (R195). -/
def State.closeShot (s : State) (c : Nat) (x : Shot) : State :=
  let s1 := if s.sumDue c x then s.commitBytes c x.uid (summaryBytes (s.fld .hchCtl 5 0) c ((s.core c).shotInv x) x) else s
  s1.setCore c ({ s1.core c with shots := (s1.core c).shots.filter (fun y => y.uid != x.uid) }.trimMarks s1.now)

/-- A shot whose packets may be committed: it has ended and no window of it is still open (R195). -/
def Shot.ready (x : Shot) : Bool := x.stop.isSome && x.openW == 0

/-- The ended shots of core c with no open window closed out, oldest first (R195). -/
def State.closeReady (s : State) (c : Nat) : State :=
  (((s.core c).shots.filter Shot.ready).reverse).foldl (fun a x =>
    match (a.core c).shots.find? (fun y => y.uid = x.uid) with
    | some y => a.closeShot c y
    | none => a) s

/-- Staged packets of the cores of strand k that meet a condition committed with SHOTINV, and every shot of
theirs that has ended closed out (R200). -/
def State.flushCores (s : State) (k : Nat) (f : Nat → Bool) : State :=
  let s1 := s.commitWhere k (fun p => f p.core) State.commitFlush
  ((List.range 8).filter (fun i => f (8 * k + i))).foldl (fun a i => a.closeReady (8 * k + i)) s1

/-- RESULT_COMMIT (R195, R196): every staged packet of core c in IMMEDIATE mode, else those of each of its shots that has
ended, in staging order, each shot's followed by its summary if one is due. -/
def State.resultCommit (s : State) (c : Nat) : State :=
  let imm := decide (s.fld (.discResQ c) 16 16 = 1)
  let gone := fun (p : Staged) => !((s.core c).shots.any (fun x => x.uid = p.shot))
  let s1 := s.commitWhere (c / 8) (fun p => p.core == c && (imm || gone p)) (State.commitStaged · imm)
  (((s1.core c).shots.filter Shot.ready).reverse.map (·.uid)).foldl (fun a u =>
    let b := a.commitWhere (c / 8) (fun p => p.core == c && p.shot == u) (State.commitStaged · false)
    match (b.core c).shots.find? (fun y => y.uid = u) with
    | some y => b.closeShot c y
    | none => b) s1

/-- The latest time of a commit (R97, R195). In DEFER mode the first of the core's ended shots is committed by the later
of its end plus 2 µs and 1 µs after its last packet entered staging; in IMMEDIATE mode a packet is committed by 1 µs after it
enters staging. -/
def State.commitBy (s : State) (c t : Nat) : Nat :=
  if s.fld (.discResQ c) 16 16 = 1 then
    ((s.strand (c / 8)).staged.filter (fun p => p.core == c)).foldl (fun a p => min a (p.at' + 16000)) t
  else
  ((s.core c).shots.filter Shot.ready).foldl (fun a x => min a (max (x.stop.getD 0 + 32000) (x.lastStaged + 16000))) t

def execResultCommit (t : BitVec 64) (c : Fin 256) (s : State) : Host.Outcome State Fault Refusal :=
  .next ((s.clockTo (s.commitBy c.val t.toNat)).resultCommit c.val)

/-- Whether a staged packet waits for its shot to end (R197): that of a core in DEFER mode, whose shot is open. -/
def State.waitsShot (s : State) (p : Staged) : Bool :=
  decide (s.fld (.discResQ p.core) 16 16 = 0) && (match s.shotOf p with | some x => x.stop.isNone | none => false)

/-- EARLY_RELEASE (R197): with more than 1,536 packets waiting for their shots to end, the oldest of them is
committed with EARLY, and its shot is marked for a summary. -/
def State.earlyRelease (s : State) (k : Nat) : State :=
  match (s.strand k).staged.filter s.waitsShot with
  | [] => s
  | p :: _ =>
    let s1 := s.setStrand k { s.strand k with staged := (s.strand k).staged.erase p, relAt := s.now / 8 + 1 }
    let s2 := s1.setCore p.core ((s1.core p.core).modShot p.shot (fun x => { x with sumDue := true }))
    s2.commitStaged true p

/-- Whether strand k holds more packets that wait for their shots to end than it may (R197). -/
def State.overFull (s : State) (k : Nat) : Bool := decide (1536 < ((s.strand k).staged.filter s.waitsShot).length)

/-- The first tick at which strand k may release a packet early: one is released in a fabric cycle (R197). -/
def State.releaseAt (s : State) (k : Nat) : Nat := 8 * (s.strand k).relAt

def execEarlyRelease (t : BitVec 64) (k : Fin 32) (s : State) : Host.Outcome State Fault Refusal :=
  .next (let a := s.at t
    if a.overFull k.val then (a.clockTo (a.releaseAt k.val)).earlyRelease k.val else a)

/-- A packet put into staging: packets that enter in one fabric cycle enter in ascending local read-out tone (R195). -/
def stageIn (p : Staged) : List Staged → List Staged
  | [] => [p]
  | q :: r => if p.at' / 8 < q.at' / 8 ∨ (p.at' / 8 = q.at' / 8 ∧ p.tone < q.tone) then p :: q :: r else q :: stageIn p r

/-- A packet made by a window enters staging (R195), or is lost when staging is full (R197). A packet of a
shot that a row of R200 has flushed is committed at entry (R196). -/
def State.stage (s : State) (k : Nat) (p : Staged) : State :=
  let s1 := s.setCore p.core ((s.core p.core).modShot p.shot (fun x => { x with made := x.made + 1, lastStaged := s.now }))
  let fl := match s1.shotOf p with | some x => x.flushed | none => false
  if 2048 ≤ (s1.strand k).staged.length then s1.loseResult .lostFull p.core p.shot 0 else
  if fl then s1.commitFlush p else
  s1.setStrand k { s1.strand k with staged := stageIn p (s1.strand k).staged }

end Sys2Proof.Machine
end

