-- ==== Sys2Proof/Machine/Outputs.lean ====
section
/-! DEFINITION. The playback units' samples and phase (R102 to R119), the predistortion chain (R125 to R129), the codes and
currents at the connectors (R118, R131, R137, R139), and the held and live states of the outputs (R141 to R149). -/

namespace Sys2Proof.Machine

-- samples and phase

/-- Envelope sample j of a segment of strand k (R103, R106): from the envelope SRAM, from HBM past the head
of 8,192 samples, or as read from the stream. -/
def State.segSample (s : State) (k : Nat) (g : Seg) (j : Nat) : Nat :=
  match g.got[j]? with
  | some v => v
  | none =>
  if g.src = 2 then 0 else
  if g.src = 1 ∧ 8192 ≤ j then Mem.num s.hbm (4 * (g.hbm + j)) 4
  else Mem.num s.envSram (2 ^ 22 * k + 4 * (g.addr + j)) 4

/-- The samples of a segment not streamed that have been read by the present, kept before the envelope SRAM of strand k
changes (R107): those whose connector tick is at most 384 ticks away. -/
def State.freezeSeg (s : State) (k : Nat) (g : Seg) : Seg :=
  if g.src = 2 ∨ g.zero = true ∨ s.now + 384 < g.start then g else
  let n := min g.len ((s.now + 384 - g.start) / 2 ^ g.k + 1)
  { g with got := g.got ++ ((List.range n).drop g.got.length).map (s.segSample k g) }

/-- The samples already read of every segment of strand k kept (R107). -/
def State.freezeEnv (s : State) (k : Nat) : State :=
  { s with units := s.units.map (fun (e : Nat × PUnit) =>
      if e.1 / 80 = k then (e.1, { e.2 with seg := e.2.seg.map (s.freezeSeg k) }) else e) }

/-- The samples already read of every segment kept before HBM changes (R107). -/
def State.freezeAll (s : State) : State :=
  { s with units := s.units.map (fun (e : Nat × PUnit) => (e.1, { e.2 with seg := e.2.seg.map (s.freezeSeg (e.1 / 80)) })) }

/-- The tick whose envelope value a segment plays at tick n: from an underrun at tick r on, that of the last good
sample before it (R94, R95); none where there is no such sample. -/
def Seg.goodTick (g : Seg) (n : Nat) : Option Nat :=
  match g.held with
  | none => some n
  | some r =>
    if n < r then some n else
    let j := (r - g.start) / 2 ^ g.k
    if j = 0 then none else some (g.start + (j - 1) * 2 ^ g.k)

/-- Stored sample j of an envelope, its I and Q parts in units of 2^-15 (R103); past either end of the envelope it counts as
zero (R111). `j` is counted from 15 samples before the first. -/
def State.stored (s : State) (k : Nat) (g : Seg) (j : Nat) : Int × Int :=
  if j < 15 ∨ g.len ≤ j - 15 then (0, 0) else
  let v := s.segSample k g (j - 15)
  (sext 16 v, sext 16 (v / 2 ^ 16))

/-- The resampled envelope d ticks after its start, I and Q in units of 2^-45 (R110, R111): branch d mod 2^k of the filter over
the 16 stored samples on each side, which at a sample's own tick returns that sample. -/
def State.resample (s : State) (k : Nat) (g : Seg) (d : Nat) : Int × Int :=
  let j := d / 2 ^ g.k
  let b := d % 2 ^ g.k
  if b = 0 then
    let v := s.stored k g (j + 15)
    (v.1 * 2 ^ 30, v.2 * 2 ^ 30)
  else
    (List.range 32).foldl (fun a i =>
      let v := s.stored k g (j + i)
      (a.1 + Config.tap g.k b i * v.1, a.2 + Config.tap g.k b i * v.2)) (0, 0)

/-- A segment's complex envelope x(n) at tick n, in units of 2^-45 (R105, R110, R111): zero outside the segment, where it was
refused, and before an underrun's first good sample. -/
def State.segIQ (s : State) (k : Nat) (g : Seg) (n : Nat) : Int × Int :=
  if g.zero = true ∨ n < g.start ∨ g.stop ≤ n then (0, 0) else
  match g.goodTick n with
  | none => (0, 0)
  | some m => s.resample k g (m - g.start)

/-- A linear ramp to zero over 16 ticks from tick r (R45, R94, R99). -/
def rampTo (r : Option Nat) (n : Nat) (v : Int) : Int :=
  match r with
  | none => v
  | some r => if n < r then v else if r + 16 ≤ n then 0 else v * (r + 16 - n : Nat) / 16

/-- The NCO accumulator of R115 at tick n: FTW times the ticks since the epoch, modulo 2^48. -/
def accAt (ftw epoch n : Nat) : Nat := (ftw * ((n + 2 ^ 64 - epoch % 2 ^ 64) % 2 ^ 64)) % 2 ^ 48

/-- The phase theta of tone u of strand k at tick n, in units of 2^-32 turn, with the frequency word, epoch,
frame phase and offset in force (R115, R116). -/
def State.theta (s : State) (k u n : Nat) : Nat :=
  let p := s.punit k u
  let frame := s.fld (.outToneCtl k u) 27 16
  (accAt p.ftw p.epoch n / 2 ^ 16 + (s.reg (.outFrame k frame)).toNat + (s.reg (.outToneOfs k u)).toNat) % 2 ^ 32

/-- The 24 bits of a phase that the sine and cosine take (R115). -/
def phaseTop (theta : Nat) : Nat := theta / 2 ^ 8

/-- The NCO of a tone reloaded at tick n with a frequency word (R116). -/
def PUnit.reload (p : PUnit) (ftw epoch n : Nat) : PUnit :=
  { p with ftw := ftw, epoch := epoch, reloadAt := n, acc := accAt ftw epoch n }

/-- The phase of read-out tone r of strand k as it stands (R115, R163). -/
def State.phaseNow (s : State) (k r t : Nat) : Phase :=
  let p := s.punit k (32 + r)
  { at' := t, ftw := p.ftw, epoch := p.epoch,
    ofs := ((s.reg (.outFrame k (s.fld (.outToneCtl k (32 + r)) 27 16))).toNat + (s.reg (.outToneOfs k (32 + r))).toNat) % 2 ^ 32 }

/-- A phase put before those it follows, if it differs from the one in force; it takes the place of those noted for later, and
those out of force for 2^18 ticks are forgotten, which no window reaches. -/
def notePhase (x : Phase) (l : List Phase) : List Phase :=
  match l.filter (fun y => decide (y.at' < x.at')) with
  | [] => [x]
  | y :: r =>
    if y.ftw = x.ftw ∧ y.epoch = x.epoch ∧ y.ofs = x.ofs then y :: r else
    x :: y :: (r.zip (y :: r)).filterMap (fun p => if p.2.at' + 2 ^ 18 < x.at' then none else some p.1)

/-- A change at tick t of the frequency, frame or offset of read-out tones of strand k noted for their down-converters (R119,
R163). -/
def State.notePhases (s : State) (k t : Nat) : State :=
  { s with rtones := s.rtones.map (fun e =>
      if e.1 / 32 = k then (e.1, { e.2 with phases := notePhase (s.phaseNow k (e.1 % 32) t) e.2.phases }) else e) }

/-- The frequency word of entry i of the strand's frequency table (R114). -/
def State.freq (s : State) (k i : Nat) : Nat := (s.reg (.outFreqLo k i)).toNat + 2 ^ 32 * s.fld (.outFreqHi k i) 15 0

/-- The epoch in SYNC_EPOCH (R115). -/
def State.epoch (s : State) : Nat := s.reg64 .syncEpochLo .syncEpochHi

/-- Every NCO of the strands in a list reloaded at tick n with its own frequency word (R116). -/
def State.reloadUnits (s : State) (f : Nat → Bool) (n : Nat) : State :=
  { s with units := s.units.map (fun e => if f (e.1 / 80) then (e.1, e.2.reload e.2.ftw s.epoch n) else e) }

-- the predistortion chain

/-- Active coefficient n of a chain, Q2.30 (R126, R136). -/
def Chain.coefI (c : Chain) (n : Nat) : Int := sext 32 (Tab.get c.coef n (BitVec.ofNat 32 (pdCoefReset n))).toNat

/-- An integer held in 48-bit two's complement (R126). -/
def hold48 (i : Int) : Int := sext 48 (toTwos 48 i)

/-- The limits of a section's output, -2.0 and 2.0 - 2^-30, in units of 2^-30 (R126). -/
def sat32 (i : Int) : Int := satI 32 i

/-- One section for one sample: coefficients b0, b1, b2, a1, a2 at index 5j; each product is rounded to
nearest in units of 2^-30 (R126; notes/assumptions/8). -/
def Chain.section (c : Chain) (j : Nat) (st : IirSt) (x : Int) : IirSt × Int :=
  let m := fun (n : Nat) (v : Int) => rndNear (c.coefI (5 * j + n) * v) (2 ^ 30)
  let y := sat32 (hold48 (m 0 x + m 1 st.x1 + m 2 st.x2 - m 3 st.y1 - m 4 st.y2))
  ({ x1 := x, x2 := st.x1, y1 := y, y2 := st.y1 }, y)

/-- The sections from j on for one sample; a disabled one passes its input and holds no state (R126). -/
def Chain.sections (c : Chain) (en : Nat) : Nat → List IirSt → Int → List IirSt × Int
  | _, [], x => ([], x)
  | j, st :: r, x =>
    let p := if en.testBit j then c.section j st x else ({}, x)
    let q := Chain.sections c en (j + 1) r p.2
    (p.1 :: q.1, q.2)

/-- The FIR for one sample over the newest sample and the 63 before it (R126). -/
def Chain.firOut (c : Chain) (xs : List Int) : Int :=
  hold48 (((List.range xs.length).map (fun i => rndNear (c.coefI (20 + i) * (xs[i]?).getD 0) (2 ^ 30))).foldl (· + ·) 0)

/-- The Q1.15 code of a chain output in units of 2^-30, saturated (R126): exact where it is a code, else one of the two
codes beside it. -/
def toCode (y : Int) : Int :=
  let q := y / 2 ^ 15
  max (-32768) (min 32767 (if y % 2 ^ 15 ≠ 0 ∧ Config.codeUp y then q + 1 else q))

/-- One baseband sample u, in units of 2^-30, through the chain (R126). -/
def Chain.step (c : Chain) (iiren : Nat) (firen : Bool) (u : Int) : Chain :=
  let p := c.sections iiren 0 c.iir u
  let xs := p.2 :: c.fir
  let y := if firen then c.firOut xs else p.2
  { c with iir := p.1, fir := if firen then xs.take 63 else [], out := toCode y }

/-- The chain's states cleared (R129). -/
def Chain.clear (c : Chain) : Chain := { c with iir := [{}, {}, {}, {}], fir := [], out := 0 }

/-- The share of a static level's step at tick T that has come at tick n, in units of 2^-30 (R112): all of it where n lies a
whole number of baseband samples after T, else what the fractional delay of the resampler at k = 3 gives. -/
def stepAt (T n : Nat) : Int :=
  if n < T then 0 else
  let d := n - T
  if d % 8 = 0 ∨ 128 ≤ d then 2 ^ 30 else
  (((List.range 32).filter (fun i => decide (15 ≤ d / 8 + i))).map (Config.tap 3 (d % 8))).foldl (· + ·) 0

/-- The static level of a baseband channel at tick n, in units of 2^-45 (R112, R145): the level in force and the steps of the
last 128 ticks; in HOLD the level carried (R40, R47). -/
def State.bbStatic (s : State) (k c n : Nat) : Int :=
  let o := s.out k (6 + c)
  match o.heldLvl with
  | some v => sext 16 v * 2 ^ 30
  | none =>
    match o.steps.getLast? with
    | none => sext 16 (s.fld (.outStatic k c) 15 0) * 2 ^ 30
    | some x => o.steps.foldl (fun a y => a + (sext 16 y.2.2 - sext 16 y.2.1) * stepAt y.1 n) (sext 16 x.2.1 * 2 ^ 30)

/-- STATIC + GAIN × I(x) of baseband channel c of strand k at tick n, in units of 2^-60, before its limit (R125): a stop ramps the
level and the segment (R45); in a calibration step segments contribute nothing (R344). -/
def State.bbSum (s : State) (k c n : Nat) : Int :=
  let o := s.out k (6 + c)
  let g := match (s.punit k (64 + c)).seg with
    | none => 0
    | some g => if o.calMute then 0 else rampTo g.ramp n (sext 16 g.gain * (s.segIQ k g n).1)
  rampTo o.ramp n (s.bbStatic k c n * 2 ^ 15) + g

/-- The limits of u, -1.0 and 1.0 - 2^-15, in units of 2^-60 (R125). -/
def satU (v : Int) : Int := max (-(2 ^ 60)) (min (2 ^ 60 - 2 ^ 45) v)

/-- The input u of a baseband channel's chain at tick n, in units of 2^-30 (R125). -/
def State.bbInput (s : State) (k c n : Nat) : Int := rndNear (satU (s.bbSum k c n)) (2 ^ 30)

/-- The chain run over m baseband samples from its present one (R125, R126), with the ticks of the saturated samples. -/
def State.runChain (s : State) (k c : Nat) : Nat → Chain → List Nat → Chain × List Nat
  | 0, ch, l => (ch, l)
  | m + 1, ch, l =>
    let n := 8 * ch.upTo
    let on := (s.out k (6 + c)).liveAt n
    let ch' := ch.step (s.fld (.outBbCtl k c) 3 0) (decide (s.fld (.outBbCtl k c) 4 4 = 1)) (if on then s.bbInput k c n else 0)
    let l' := if on ∧ satU (s.bbSum k c n) ≠ s.bbSum k c n then l ++ [n] else l
    State.runChain s k c m { ch' with upTo := ch.upTo + 1 } l'

-- saturated samples

/-- A saturated sample of local output o of strand k at tick n (R118, R125): counted, and the first in a shot of a core that
plays on the output is reported. -/
def State.clipAt (s : State) (k o : Nat) (cores : List Nat) (n : Nat) : State :=
  let s1 := s.bump (.outClipCnt k o) 1
  let key := 22 * k + o
  let fresh := fun (x : Shot) => x.contains n && !x.clip.contains key
  if cores.any (fun c => (s1.core c).shots.any fresh) then
    (s1.mapCores (fun c x => if cores.contains c then
        { x with shots := x.shots.map (fun y => if fresh y then { y with clip := key :: y.clip } else y) } else x)).raise
      .synthClip k (outGlobal k o) n []
  else s1

-- RF outputs

/-- The contribution c(n) of tone u of strand k at tick n, in units of 2^-92 (R113, R118): zero where the tone is disabled. -/
def State.toneC (s : State) (k u n : Nat) : Int :=
  match (s.punit k u).seg with
  | none => 0
  | some g =>
    if s.fld (.outToneCtl k u) 31 31 = 0 then 0 else
    let x := s.segIQ k g n
    let gi := sext 16 (s.fld (.outToneGain k u) 15 0)
    let gq := sext 16 (s.fld (.outToneGain k u) 31 16)
    let a := rampTo g.ramp n (sext 16 g.gain * (gi * x.1 - gq * x.2))
    let b := rampTo g.ramp n (sext 16 g.gain * (gi * x.2 + gq * x.1))
    let th := phaseTop (s.theta k u n)
    a * Config.cosine th - b * Config.sine th

/-- round(8,192 × Σ c(n)) over the tones of RF output o of strand k at tick n, before its limit (R102, R118). -/
def State.rfSum (s : State) (k o n : Nat) : Int :=
  rndNear (((outUnits o).map (fun u => s.toneC k u n)).foldl (· + ·) 0) (2 ^ 79)

/-- The 14-bit code of RF output o of strand k at connector tick n (R118, R141, R344): zero while it is held or in a
calibration step. -/
def State.rfCode (s : State) (k o n : Nat) : Int :=
  if (s.out k o).liveAt n = true ∧ (s.out k o).calMute = false then satI 14 (s.rfSum k o n) else 0

/-- The ticks before t, not yet formed, at which a segment plays on RF output o of strand k. -/
def State.rfSpan (s : State) (k o t : Nat) : Nat × Nat :=
  let gs := (outUnits o).filterMap (fun u => (s.punit k u).seg)
  let gs' := gs.filter (fun g => decide (g.start < t) && decide ((s.out k o).clipTo < g.stop))
  (gs'.foldl (fun a g => min a (max g.start (s.out k o).clipTo)) t, min t (maxOf 0 (gs'.map (·.stop))))

/-- The sums of RF output o of strand k formed up to tick t, and their saturated samples counted (R118); a disabled output has
none (R155). -/
def State.settleRf (s : State) (k o t : Nat) : State :=
  let p := s.rfSpan k o t
  if p.2 ≤ p.1 then s else
  let cores := ((outUnits o).filterMap (fun u => (s.punit k u).seg)).map (·.core)
  let ns := ((List.range (p.2 - p.1)).map (p.1 + ·)).filter (fun n =>
    (s.out k o).liveAt n && !(s.out k o).calMute && decide (satI 14 (s.rfSum k o n) ≠ s.rfSum k o n))
  ns.foldl (fun a n => a.clipAt k o cores n) (s.setOut k o { s.out k o with clipTo := t })

-- currents

/-- Full-scale current of an RF output, in mA (R137), and the range of a baseband output, in units of 0.1 mA (R139). -/
def rfFull (range : Nat) : Nat := if range = 0 then 40 else if range = 1 then 20 else if range = 2 then 10 else 5
def bbFull (range : Nat) : Nat := if range = 0 then 25 else if range = 1 then 50 else if range = 2 then 100 else 200

/-- The tick whose sample an output with delay trim `trim` shows at an instant in units of 1/64 tick (R131). -/
def trimmed (trim : Nat) (n64 : Nat) : Nat := ((n64 : Int) - sext 5 trim).toNat / 64

/-- The two currents of RF output o of strand k at an instant in units of 1/64 tick, in units of 1/16,384 mA (R131, R137). -/
def State.rfCurrent (s : State) (k o n64 : Nat) : Int × Int :=
  let fs := rfFull (s.fld (.outRfOut k o) 3 2)
  let ip := fs * (s.rfCode k o (trimmed (s.fld (.outRfCtl k o) 12 8) n64) + 8192)
  (ip, fs * 16384 - ip)

/-- The code of baseband channel c of strand k at the connector, as far as its chain has run (R125, R126, R141). -/
def State.bbCode (s : State) (k c n : Nat) : Int :=
  if (s.out k (6 + c)).liveAt n then (s.out k (6 + c)).chain.out else 0

/-- The current of baseband channel c of strand k at an instant in units of 1/64 tick, in units of 0.1/32,768 mA (R131,
R139). -/
def State.bbCurrent (s : State) (k c n64 : Nat) : Int :=
  bbFull (s.fld (.outBbOut k c) 3 2) * s.bbCode k c (trimmed (s.fld (.outBbCtl k c) 12 8) n64)

-- streamed samples

/-- What the streams of ply p ask of its bulk link at tick t, in MB/s (R24, R106): envelopes from queues and past the head copies
of HBM envelopes, and sequence words at the rate at which each core last read them. -/
def State.streamLoad (s : State) (p t : Nat) : Nat :=
  let us := (s.units.filter (fun e => e.1 / 640 == p)).map (fun e =>
    match e.2.seg with
    | some g =>
      if (g.src = 2 ∨ (g.src = 1 ∧ 8192 < g.len)) ∧ g.zero = false ∧ g.held.isNone = true ∧ g.start ≤ t + 384 ∧ t < g.stop then
        64000 / 2 ^ g.k else 0
    | none => 0)
  let cs := (s.cores.filter (fun e => e.1 / 64 == p && e.2.inStream && e.2.st == .running && e.2.gap != 0)).map
    (fun e => 16000 / e.2.gap)
  (us ++ cs).foldl (· + ·) 0

/-- The read point a reader of ply p sees (R24, R310, R366): while the ply's link retrains, bulk data waits, and a word counts
as present only if it was present when the retrain began; a stream that does not get its share finds nothing. Queue n
tells the readers of a ply apart. -/
def State.readPoint (s : State) (p n rp : Nat) : Nat :=
  if 192000 < s.streamLoad p rp ∧ Config.starved p rp n = true then 0 else
  match (s.ply p).retrain with
  | some r => if r ≤ rp ∧ rp < r + 32000 then r else rp
  | none => rp

/-- The first byte of a packet from which a reader of queue qn meets an uncorrectable codeword (R311, R359). -/
def State.hurtFrom (s : State) (qn : Nat) (p : Packet) : Nat :=
  if s.mem.poison.isEmpty then p.bytes.length else (s.hurt qn p).getD p.bytes.length

/-- The read of n payload bytes from the packets of a waveform-stream queue at read point rp (R303, R310 to
R312): the bytes, the packets that stay, and whether a packet of the wrong KIND was met. `hurt` gives the byte from
which a packet cannot be read. -/
def streamRead (hurt : Packet → Nat) (kind n rp : Nat) : List Packet → Option (List Byte) × List Packet × Bool
  | [] => (none, [], false)
  | p :: ps =>
    if p.bad then (none, ps, false) else
    if bits (leAt p.bytes 0 4) 31 28 ≠ kind then (none, ps, true) else
    match p.vis with
    | none => (none, p :: ps, false)
    | some v =>
      if v + 16000 ≤ rp then
        let pos := if p.taken = 0 then 8 else p.taken
        let bs := (p.bytes.drop pos).take n
        if hurt p < pos + n then (none, p :: ps, false) else
        if p.bytes.length ≤ pos + n + 4 then (some bs, ps, false)
        else (some bs, { p with taken := pos + n } :: ps, false)
      else (none, p :: ps, false)

/-- The reader is inside the first packet of a queue (R314). -/
def insidePkt : List Packet → Bool
  | p :: _ => decide (0 < p.taken)
  | [] => false

/-- The samples of a streamed segment read up to tick t: those whose read point is not after t, as far as
they are present there (R107, R310); a reader stops at the end of its packet where a flush waits for it (R314).
Answers the segment and the packets left. -/
def takeStream (s : State) (p : Nat) (g : Seg) (t : Nat) : Nat → List Nat → List Packet → List Nat × List Packet
  | 0, got, ps => (got, ps)
  | n + 1, got, ps =>
    let j := got.length
    let rp := g.start + j * 2 ^ g.k - 384
    if g.len ≤ j ∨ t < rp ∨ ((s.queue g.addr).flushAt.isSome = true ∧ insidePkt ps = false) then (got, ps) else
    match streamRead (s.hurtFrom g.addr) 1 4 (s.readPoint p g.addr rp) ps with
    | (some bs, ps', _) => takeStream s p g t n (got ++ [leNat bs]) ps'
    | (none, _, _) => (got, ps)

/-- The streamed segment of a unit brought up to tick t. -/
def State.settleStream (s : State) (k u t : Nat) : State :=
  match (s.punit k u).seg with
  | none => s
  | some g =>
    if g.src ≠ 2 ∨ g.ramp.isSome ∨ g.held.isSome ∨
        (s.queue g.addr).bound ≠ some (.unit (Fin.ofNat 32 k) (Fin.ofNat 80 u)) then s else
    let q := s.queue g.addr
    let r := takeStream s (k / 8) g (min t g.stop) (g.len - g.got.length) g.got q.pkts
    let s1 := s.setPunit k u { s.punit k u with seg := some { g with got := r.1 } }
    s1.setQueue g.addr { q with pkts := r.2, bound := if g.len ≤ r.1.length then none else q.bound }

/-- The shadow coefficients of a channel copied to its active set (R128). -/
def State.copyCoef (s : State) (k c : Nat) : State :=
  let o := s.out k (6 + c)
  let coef := (List.range 84).map (fun n => (n, s.reg (.outPdCoef k (128 * c + n))))
  s.setOut k (6 + c) { o with chain := { o.chain with coef := coef } }

-- the chain brought up to date

/-- The chain of a baseband channel brought up to tick t, before its input or coefficients change: its samples before t are
formed, and the saturated ones counted (R118, R125). -/
def State.settleChain (s0 : State) (k c t : Nat) : State :=
  let s := s0.settleStream k (64 + c) s0.now
  let o := s.out k (6 + c)
  let r := s.runChain k c ((t + 7) / 8 - o.chain.upTo) o.chain []
  let cores := match (s.punit k (64 + c)).seg with | some g => [g.core] | none => [8 * k + s.owner k (64 + c)]
  r.2.foldl (fun a n => a.clipAt k (6 + c) cores n) (s.setOut k (6 + c) { o with chain := r.1 })

-- held and live

/-- The control register of local output o. -/
def outReg (k o : Nat) : RegId := if o < 6 then .outRfOut k o else .outBbOut k (o - 6)

/-- ENABLE of local output o (R155). -/
def State.outEnabled (s : State) (k o : Nat) : Bool :=
  if o < 6 then decide (s.fld (.outRfOut k o) 0 0 = 1) else decide (s.fld (.outBbOut k (o - 6)) 0 0 = 1)

/-- Whether an event at tick t makes an output live (R141, R149, R152, R155): in RUN, with no trip and no way out of RUN but to
HOLD begun, enabled in an earlier fabric cycle, no shutdown or range change in progress, no compliance fault latched. -/
def State.mayLive (s : State) (k o t : Nat) : Bool :=
  let x := s.out k o
  s.mode.mode == .run && s.mode.tripAt.isNone &&
    (match s.mode.trans with | none => true | some (.hold, _) => decide (t < s.mode.tPause) | some _ => false) &&
    s.outEnabled k o && decide (next8 x.enAt ≤ t) && x.shut.isNone && !x.pendEn && !x.comply && x.ranging.isNone &&
    (decide (o < 6) || (s.core (8 * k + s.owner k (58 + o))).st != .fault)

/-- The mute switch of an output starts to open at tick t (R143, R144), unless it is open or opening. -/
def Out.unmute (x : Out) (t : Nat) : Out := if x.muted then { x with muted := false, muteAt := t } else x

/-- The output live from connector tick t: its mute opens from t - 128 (R141, R143). A live output stays
live, with its mute open. -/
def State.goLive (s : State) (k o t : Nat) : State :=
  if s.mayLive k o t then
    let x := s.out k o
    s.setOut k o { x.unmute (t - 128) with live := true, liveFrom := if x.live then x.liveFrom else t, ramp := none,
                                            heldLvl := none }
  else s

/-- An output held from boundary b: zero code at the connector from b + 256 on, then the mute closes (R142, R143). -/
def Out.goHeld (x : Out) (b : Nat) (clearStatic clearChain : Bool) : Out :=
  { x with live := false, heldFrom := if x.live then b else min x.heldFrom b, ramp := none,
           muted := true, muteAt := if x.muted then x.muteAt else b + 256,
           staticValid := x.staticValid && !clearStatic,
           chain := if clearChain then x.chain.clear else x.chain }

/-- A live channel's chain brought up to the zero that a hold from boundary b brings, as far as its samples are settled now
(R129, R143): a hold from the end of a segment in flight lies later (R47). -/
def State.settleHeld (s : State) (k o b : Nat) : State :=
  if 6 ≤ o ∧ (s.out k o).live = true then s.settleChain k (o - 6) (min (b + 256) (s.now + 272)) else s

/-- The output held from boundary b: zero code, then mute (R142, R143); the chain's states are cleared where
the zero acts on the code (R129). -/
def State.goHeld (s : State) (k o b : Nat) (clearStatic clearChain : Bool) : State :=
  let s1 := s.settleHeld k o b
  s1.setOut k o ((s1.out k o).goHeld b clearStatic clearChain)

/-- Every output of strand k held from boundary b. -/
def State.holdStrand (s : State) (k b : Nat) (clearStatic clearChain : Bool) : State :=
  (List.range 22).foldl (fun a o => a.goHeld k o b clearStatic clearChain) s

/-- Every output of the module that has a record held from boundary b; the others are held already. -/
def State.holdAllOuts (s : State) (b : Nat) (clearStatic clearChain : Bool) : State :=
  (s.outs.map (·.1)).foldl (fun a e => a.goHeld (e / 22) (e % 22) b clearStatic clearChain) s

/-- A segment cut at tick t: it ramps to zero over 16 ticks from there (R45, R99); one that ramps to zero since an underrun goes on
so (R94). -/
def Seg.rampAt (g : Seg) (t : Nat) : Seg :=
  match g.ramp with
  | some r => { g with stop := min g.stop (max t (r + 16)) }
  | none => { g with ramp := some t, stop := min g.stop (t + 16) }

def PUnit.rampAt (p : PUnit) (t : Nat) : PUnit :=
  { p with seg := p.seg.map (fun g => if g.start < t + 1 ∧ t < g.stop then g.rampAt t else g) }

/-- The end of a segment as event windows and trigger outputs see it (R328): where it was cut, else its end. An underrun does not
end it. -/
def Seg.endsAt (g : Seg) : Nat :=
  match g.ramp with
  | some r => if g.held = some r then g.stop else min r g.stop
  | none => g.stop

/-- The intervals of the segments of a unit, oldest first: earlier ones, and the present one (R328). -/
def PUnit.intervals (p : PUnit) : List (Nat × Nat) :=
  match p.seg with
  | none => p.past
  | some g => p.past ++ [(g.start, g.endsAt)]

/-- Every segment of the units that meet a condition ramped to zero from tick t. -/
def State.rampUnits (s : State) (f : Nat → Bool) (t : Nat) : State :=
  { s with units := s.units.map (fun e => if f e.1 then (e.1, e.2.rampAt t) else e) }

/-- The static level of a baseband channel set: it takes effect at connector tick t (R112, R145); a write to an
enabled channel sets STATICVALID, and in RUN makes the channel live (R141). -/
def State.setStatic (s : State) (k c lvl t : Nat) : State :=
  let s0 := s.settleChain k c t
  let x := s0.out k (6 + c)
  let old := s0.fld (.outStatic k c) 15 0
  let s1 := (s0.setOut k (6 + c) { x with steps := (t, old, lvl) :: x.steps.filter (fun y => decide (t < y.1 + 128)),
                                          staticValid := x.staticValid || s0.outEnabled k (6 + c) }).setFld (.outStatic k c) 15 0 lvl
  s1.goLive k (6 + c) t

/-- A register write of the level that has been on its way reaches the connector at tick t (R145). -/
def State.staticArrives (s : State) (k c lvl t : Nat) : State :=
  let x := s.out k (6 + c)
  let s0 := s.setOut k (6 + c) { x with statics := x.statics.filter (fun y => decide (y ≠ (t, lvl))) }
  let v := x.staticValid
  let s1 := s0.setStatic k c lvl t
  s1.setOut k (6 + c) { s1.out k (6 + c) with staticValid := v }

/-- The channels with STATICVALID become live at tick t: entry to RUN, or a resume from HOLD (R141). -/
def State.liveStatics (s : State) (t : Nat) : State :=
  (s.outs.map (·.1)).foldl (fun a e =>
    if 6 ≤ e % 22 ∧ (a.out (e / 22) (e % 22)).staticValid = true then
      let b := a.settleChain (e / 22) (e % 22 - 6) t
      (b.setOut (e / 22) (e % 22) { b.out (e / 22) (e % 22) with heldLvl := none, steps := [] }).goLive (e / 22) (e % 22) t
    else a) s

/-- Where the mute switch of an output stands (R143). -/
inductive MuteView where
  | closed | opening | opened | closing
  deriving DecidableEq, Repr

/-- The mute switch of an output at tick n (R143, R144, R153): it moves for 128 ticks; in a calibration step it is closed. -/
def Out.mute (x : Out) (n : Nat) : MuteView :=
  if x.calMute then .closed else
  if n < x.muteAt then (if x.muted then .opened else .closed) else
  if n < x.muteAt + 128 then (if x.muted then .closing else .opening) else
  if x.muted then .closed else .opened

end Sys2Proof.Machine
end

