-- ==== Sys2Proof/Machine/Cores.lean ====
section
/-! DEFINITION. The sequencer core on its own (chapter 03): fetching from the SRAM or a stream (R91, R92, R310, R311), issue
times and lateness (R65 to R69), flow words on the core's stacks (R77, R79), the micro-routines that lie ahead of it (R74,
R435), shot ends (R78, R89), the withdrawing of prepared effects (R76), halts and faults (R99, R434). -/

namespace Sys2Proof.Machine

/-- Ticks per microsecond, millisecond and second (chapter 00). -/
def us : Nat := 16000
def ms : Nat := 16000000
def sec : Nat := 16000000000

-- windows: what a stop does to them (the windows themselves are in Acquire.lean)

/-- The first ADC sample whose instant is at or after tick t: ceil(5t / 8) (R157, R165). -/
def adcAt (t : Nat) : Nat := (5 * t + 7) / 8

/-- The instant of ADC sample m rounded up to a tick: ceil(8m / 5) (R157, R166). -/
def adcTick (m : Nat) : Nat := (8 * m + 4) / 5

/-- A window closed at tick t with TRUNC, if it is still open there (R173, R174). -/
def Win.closeAt (w : Win) (t : Nat) : Win :=
  if adcAt t < w.me then { w with me := max w.ms (adcAt t), trunc := true } else w

/-- The windows that meet a condition closed at tick t (R174). -/
def State.closeWins (s : State) (f : Nat → Win → Bool) (t : Nat) : State :=
  { s with rtones := s.rtones.map (fun e =>
      (e.1, { e.2 with wins := e.2.wins.map (fun w => if f e.1 w then w.closeAt t else w) })) }

/-- The stream queue of a core unbound (R313). -/
def State.unbind (s : State) (c : Nat) : State :=
  { s with queues := s.queues.map (fun e =>
      if e.2.bound = some (.core (Fin.ofNat 256 c)) then (e.1, { e.2 with bound := none }) else e) }

-- fetching

/-- What a core finds at its next word. -/
inductive Fetched where
  | word (w : Nat)
  | absent          -- a stream word is not present at its read point (R310, R311)
  | bad             -- an SRAM word with an uncorrectable error (R73, R363)
  deriving DecidableEq, Repr

/-- The address of the sequence word at pc in strand k's SRAM (R61). -/
def seqAddr (k pc : Nat) : Nat := 2 ^ 20 * k + 8 * (pc % 2 ^ 17)

/-- The queue core c streams its words from (R91). -/
def State.streamQ (s : State) (c : Nat) : Nat := s.fld (.seqStreamQ c) 14 0

/-- The word a core in state x finds next, with the stream packets left after it, `ps` being those before it (R61, R91,
R310). -/
def State.fetchOn (s : State) (c : Nat) (x : Core) (ps : List Packet) : Fetched × List Packet :=
  if x.inStream then
    let qn := s.streamQ c
    if x.streamBad || !((s.queue qn).enabled && (s.queue qn).role == 3) then (.absent, ps) else
    match streamRead (s.hurtFrom qn) 2 8 (s.readPoint (c / 64) qn x.busy) ps with
    | (some bs, r, _) => (.word (leNat bs), r)
    | (none, r, _) => (.absent, r)
  else
    if s.badWords.any (fun b => b.1 == .seqSram (Fin.ofNat 32 (c / 8)) && b.2 == x.pc % 2 ^ 17) then (.bad, ps)
    else (.word (Mem.num s.seqSram (seqAddr (c / 8) x.pc) 8), ps)

/-- The next word of core c. -/
def State.fetch (s : State) (c : Nat) : Fetched × List Packet := s.fetchOn c (s.core c) (s.queue (s.streamQ c)).pkts

-- timing

/-- The iteration start S that SHOT-mode words count from (R67). -/
def Core.iterStart (x : Core) : Nat := match x.bights with | b :: _ => b.s0 | [] => x.start

/-- The issue time T of a word (R67); an ENDBIGHT with a PERIOD issues at S + PERIOD (R72). -/
def Core.issue (x : Core) (w : Nat) : Nat :=
  let d := wDelta w
  if wOp w = 0x11 ∧ bits w 39 0 ≠ 0 then x.iterStart + bits w 39 0 else
  match wTmode w with
  | 0 => x.tPrev + d
  | 1 => x.ePrev + d
  | 2 => x.iterStart + d
  | _ => x.tRef.getD 0 + d

/-- When a word takes effect (R68, R69). -/
structure Tim where
  t : Nat          -- computed issue time
  eff : Nat        -- tick of its effect at the connector
  mEnd : Nat       -- end of its micro-routine
  late : Bool
  deriving DecidableEq, Repr

/-- The start of the dispatch stage of a word with issue time t (R66). -/
def dispatch (t : Nat) : Nat := fl8 t - 320

/-- The end of another path's micro-routines (R435) where they run before a timed word whose own may start at tick st: it could not
start before the cut-off they were prepared for. -/
def Core.early (x : Core) (st : Nat) : Nat := if x.prepCut ≤ max x.busy st then x.prep else 0

/-- The timing of a word on a core, with its micro-routine of len fabric cycles (R68, R69). A flow word has no effect at the
connector; the first word after arm is late where its issue time is before the start boundary, timed or flow (R65). -/
def Core.timing (x : Core) (w len : Nat) : Tim :=
  let t := x.issue w
  if opFlow (wOp w) then { t := t, eff := t, mEnd := x.busy + 8 * len, late := decide (t < x.bound0) } else
  let d := dispatch t
  let mEnd := max (max x.busy (x.early (d - 256))) (d - 256) + 8 * len
  let b := max x.bound0 (max x.bound1 x.bound)
  let k := max ((mEnd - (d + 64) + 7) / 8) ((b - t + 7) / 8)
  let e := t + 8 * k
  { t := t, eff := if t < x.tPrev then max x.tPrev e else e, mEnd := mEnd,
    late := decide (0 < k) || decide (t < x.tPrev) }

/-- The timing of a word on a core with the lengths that the loaded image declares (R63). -/
def State.timing (s : State) (x : Core) (w : Nat) : Tim := x.timing w (microLen s.mode.lens (wOp w))

-- flow words on the core's own state; the program counter already stands at the word after

/-- The next word address (R61). -/
def pcNext (pc : Nat) : Nat := (pc + 1) % 2 ^ 17

/-- BIGHT (R77): a ninth is STACK_FAULT. -/
def Core.bight (x : Core) (w t : Nat) : Option Core :=
  if 8 ≤ x.bights.length then none else
  some { x with bights := { body := x.pc, count := bits w 39 16, s0 := t, shot := bit w 15 } :: x.bights,
                tPrev := t, ePrev := t }

/-- ENDBIGHT (R77): with iterations left it returns to the body, else it pops. -/
def Core.endbight (x : Core) (t : Nat) : Option Core :=
  match x.bights with
  | [] => none
  | b :: r =>
    if b.count = 1 then some { x with bights := r, tPrev := t, ePrev := t }
    else some { x with bights := { b with count := b.count - 1, s0 := t } :: r,
                       pc := b.body, tPrev := t, ePrev := t }

/-- CALL (R79): a seventeenth is STACK_FAULT. -/
def Core.call (x : Core) (w t : Nat) : Option Core :=
  if 16 ≤ x.calls.length then none else
  some { x with calls := (x.pc, x.inStream) :: x.calls, pc := bits w 39 23, inStream := false,
                tPrev := t, ePrev := t }

/-- RET (R79, R92). -/
def Core.ret (x : Core) (t : Nat) : Option Core :=
  match x.calls with
  | [] => none
  | a :: r => some { x with calls := r, pc := a.1, inStream := a.2, tPrev := t, ePrev := t }

/-- A jump to an address that pops bights, at branch point t (R79). -/
def Core.jumpTo (x : Core) (target pop t : Nat) : Option Core :=
  if x.bights.length < pop then none else
  some { x with bights := x.bights.drop pop, pc := target, tPrev := t, ePrev := t }

/-- The taken path of a JCOND word (R79, R85). -/
def Core.jcond (x : Core) (w t : Nat) : Option Core := x.jumpTo (bits w 39 23) (bits w 16 14) t

/-- A flow word's way on; a JCOND falls through. -/
def Core.flow (x : Core) (w t : Nat) : Option Core :=
  match wOp w with
  | 0x10 => x.bight w t
  | 0x11 => x.endbight t
  | 0x12 => x.call w t
  | 0x13 => x.ret t
  | 0x14 => x.jumpTo (bits w 39 23) (bits w 22 20) t
  | _ => some { x with tPrev := t, ePrev := t }

/-- A core past a word whose micro-routine ends at a tick. -/
def Core.past (x : Core) (mEnd : Nat) : Core :=
  { x with pc := if x.inStream then x.pc else pcNext x.pc, busy := mEnd, bound0 := 0 }

-- the micro-routines ahead

/-- How many words the preparation of a JCOND's paths is followed over (R435): as many as the sequence SRAM has. -/
def pathFuel : Nat := 131072

/-- The micro-routines of a path up to and with its first timed word, and then those of the paths in a list, newest first,
before those in `acc` (R435): a JCOND on a path has both its paths prepared, the fall-through path first. One that could not
start before the cut-off `cut` is not prepared (notes/assumptions/19). A path of more flow words than `pathFuel` has no timed
word. -/
def State.path (s : State) (c cut : Nat) :
    Nat → Core → List Packet → List (Core × List Packet) → List (Nat × Nat) → List (Nat × Nat)
  | 0, _, _, _, acc => acc
  | n + 1, x, ps, todo, acc =>
    let done := fun (e : Nat) (l : List (Nat × Nat)) =>
      match todo with
      | [] => l
      | z :: r => State.path s c cut n { z.1 with busy := e } z.2 r l
    match s.fetchOn c x ps with
    | (.word w, r) =>
      if opAssigned (wOp w) = false then done x.busy acc else
      let tm := s.timing x w
      let st := tm.mEnd - 8 * microLen s.mode.lens (wOp w)
      if cut ≤ st then done x.busy acc else
      let l := (st, tm.mEnd) :: acc
      if opFlow (wOp w) = false then done tm.mEnd l else
      let y := x.past tm.mEnd
      match y.flow w tm.t with
      | none => done tm.mEnd l
      | some z =>
        if wOp w = 0x15 then
          match y.jcond w tm.t with
          | none => State.path s c cut n z r todo l
          | some t => State.path s c cut n z r ((t, r) :: todo) l
        else State.path s c cut n z r todo l
    | _ => done x.busy acc

/-- The end of the micro-routines on a path (R435). -/
def State.pathEnd (s : State) (c cut : Nat) (x : Core) (ps : List Packet) : Nat :=
  match s.path c cut pathFuel x ps [] [] with
  | [] => x.busy
  | p :: _ => p.2

/-- The end time E of a timed word with issue time t (R71). -/
def State.endOf (s : State) (c w t : Nat) : Nat :=
  match wOp w with
  | 0x01 => t + bits w 39 0
  | 0x04 => let e := s.env (c / 8) (bits w 32 21); t + e.len * 2 ^ e.k
  | 0x05 => adcTick (adcAt t + (if bits w 34 19 = 0 then 65536 else bits w 34 19))
  | _ => t

/-- The micro-routines that a core runs from state x on, newest first, as far as tick t and as the program's way is settled: to
a HALT, a TRIGWAIT or a SYNCSTRAND, or over both paths of a JCOND (R68, R74, R435). -/
def State.look (s : State) (c t : Nat) : Nat → Core → List Packet → List (Nat × Nat) → List (Nat × Nat)
  | 0, _, _, acc => acc
  | n + 1, x, ps, acc =>
    match s.fetchOn c x ps with
    | (.word w, r) =>
      if opAssigned (wOp w) = false then acc else
      let tm := s.timing x w
      let l := (tm.mEnd - 8 * microLen s.mode.lens (wOp w), tm.mEnd) :: acc
      if t ≤ tm.mEnd ∨ wOp w = 0x00 ∨ wOp w = 0x02 ∨ wOp w = 0x03 then l else
      let y := x.past tm.mEnd
      if opFlow (wOp w) = false then
        State.look s c t n { y with busy := max tm.mEnd x.prep, prep := 0, bound1 := 0, tPrev := tm.t, ePrev := s.endOf c w tm.t } r l
      else
        match y.flow w tm.t with
        | none => l
        | some z =>
          if wOp w = 0x15 then
            s.path c (cutoff tm.t) pathFuel z r ((match y.jcond w tm.t with | none => [] | some v => [(v, r)])) l
          else State.look s c t n z r l
    | _ => acc

/-- The word boundary at which a request at tick t stops a running core (R74, R434): the fabric cycle after the micro-routine
in progress, or the next one. -/
def State.boundary (s : State) (c t : Nat) : Nat :=
  let x := s.core c
  let l := s.look c t ((t - x.busy) / 8 + 2) x (s.queue (s.streamQ c)).pkts []
  match l.find? (fun p => decide (p.1 < t) && decide (t ≤ p.2)) with
  | some p => up8 p.2
  | none => up8 (if x.busy < t then t else x.busy)

-- shots at flow words

/-- The shot a SHOT bight starts at tick t (R78): the first one takes the place of the whole run. -/
def Core.shotBight (x : Core) (t : Nat) : Core :=
  let d := x.bights.length
  match x.shots with
  | y :: r =>
    if y.depth = 0 ∧ y.stop.isNone = true then { x with shots := { y with start := t, depth := d } :: r }
    else x.openShot (x.shotNo + 1) t d
  | [] => x.openShot (x.shotNo + 1) t d

/-- A deferral still pending at a shot's end is discarded: COND_LOST, and the shot is invalid (R89). -/
def State.loseDeferral (s : State) (c t : Nat) : State :=
  match (s.core c).defer with
  | none => s
  | some _ =>
    let s1 := s.setCore c { s.core c with defer := none }
    (s1.raise .condLost c c t []).endInvalid c t

/-- The shots of core c carried by depths above d end at tick t (R78, R89). -/
def State.endShots (s : State) (c d t : Nat) : State :=
  let ends := (s.core c).shots.any (fun x => x.stop.isNone && decide (d < x.depth))
  let s1 := if ends then s.loseDeferral c t else s
  s1.setCore c ((s1.core c).endShots d t)

/-- Every shot of core c ends at tick t (R78, R89). -/
def State.endAllShots (s : State) (c t : Nat) : State :=
  let s1 := s.loseDeferral c t
  s1.setCore c ((s1.core c).endAll t)

-- effects withdrawn

/-- One effect of the issue buffer withdrawn: what stood before it stands again (R76). -/
def State.undoOne (s : State) : Undo → State
  | .static k c old => s.setReg (.outStatic k c) old
  | .frame k f cyc core => s.frameUndo k f cyc core
  | .unit key old => { s with units := Tab.put s.units key old }
  | .out key old =>
    { s with outs := Tab.put s.outs key { old with clipTo := max old.clipTo (Tab.get s.outs key ({} : Out)).clipTo } }
  | .tone key old => { s with rtones := Tab.put s.rtones key old }
  | .inp key old => { s with inps := Tab.put s.inps key old }
  | .queue n ps skip bound => s.setQueue n { s.queue n with pkts := ps, skip := skip, bound := bound }
  | .window c uid => s.setCore c ((s.core c).modShot uid (fun x => { x with openW := x.openW - 1 }))

/-- The effects of core c's issue buffer at or after tick t withdrawn, the last first (R76). -/
def State.withdraw (s : State) (c t : Nat) : State :=
  let l := (s.core c).undo.filter (fun u => decide (t ≤ u.1))
  if l.isEmpty then s else (l.foldl (fun a u => a.undoOne u.2) s).notePhases (c / 8) t

/-- An effect noted in the core's issue buffer; those whose issue time a later halt cannot reach are
forgotten. -/
def State.note (s : State) (c eff : Nat) (u : Undo) : State :=
  let x := s.core c
  s.setCore c { x with undo := (eff, u) :: x.undo.filter (fun v => decide (x.busy ≤ v.1)) }

-- halts and faults

/-- The core after a halt or a fault: stacks, trigger queue and deferral cleared (R61). -/
def Core.stopped (x : Core) (st : CoreSt) (t : Nat) : Core :=
  { x with st := st, bights := [], calls := [], trigQ := [], defer := none, wait := none, undo := [],
           stopAt := some t, haltAt := none, prep := 0 }

/-- Core c halts at tick t in state DONE with a halt code (R76, R78, R434). -/
def State.haltCore (s : State) (c t code : Nat) : State :=
  let s1 := (s.withdraw c t).endAllShots c t
  let s2 := s1.unbind c
  s2.setCore c { (s2.core c).stopped .done t with haltCode := code }

/-- The units of strand k owned by core c. -/
def State.ownedUnits (s : State) (c : Nat) : List Nat :=
  (List.range 80).filter (fun u => s.owns c u)

/-- What a fault of core c does besides its event (R99, R129, R142, R174, R200): the shot ends invalid at the core's stop time,
the core's units ramp to zero, its baseband channels are held, the windows on its tones close with TRUNC, its staged packets
are committed with SHOTINV. -/
def State.faultEffects (s : State) (c t : Nat) : State :=
  let k := c / 8
  let s1 := (s.withdraw c t).endInvalid c t
  let s2 := s1.endAllShots c t
  let owned := s2.ownedUnits c
  let s3 := s2.rampUnits (fun key => key / 80 == k && owned.contains (key % 80)) t
  let s4 := (owned.filter (fun u => 64 ≤ u)).foldl (fun a u => a.goHeld k (6 + (u - 64)) (up8 t) false true) s3
  let s5 := s4.closeWins (fun key _ => key / 32 == k && owned.contains (32 + key % 32)) t
  let s6 := s5.unbind c
  let s7 := s6.setCore c ((s6.core c).stopped .fault t)
  s7.flushCores k (fun d => d == c)

/-- The same for a core that faults with another of its strand: it raises no event of its own (R99). -/
def State.quietFault (s : State) (c t : Nat) : State :=
  (s.setCore c { s.core c with defer := none }).faultEffects c t

/-- A stop of core c on its way to its word boundary b (R74, R99, R434): a fault takes the place of a halt. -/
def Core.stopAtBoundary (x : Core) (b : Nat) (fault : Bool) : Core :=
  { x with haltAt := match x.haltAt with
      | some (b0, f0) => some (min b0 b, f0 || fault)
      | none => some (b, fault) }

/-- Core c faults with another of its strand at tick t (R99): a running core at its own next word boundary, any other at the next
fabric cycle. -/
def State.faultWith (s : State) (t c : Nat) : State :=
  match (s.core c).st with
  | .fault => s
  | .running => s.setCore c ((s.core c).stopAtBoundary (s.boundary c t) true)
  | _ => s.quietFault c (up8 t)

/-- Core c faults at tick t: with FAULTSCOPE = 1 every core of the strand faults with it (R99). -/
def State.faultCore (s : State) (c t : Nat) : State :=
  let scope := decide (s.fld (.seqCtl c) 10 10 = 1)
  let s1 := s.faultEffects c t
  if scope then
    (((List.range 8).map (fun i => 8 * (c / 8) + i)).filter (fun d => d != c)).foldl (fun a d => a.faultWith t d) s1
  else s1

/-- A core event with its fault (R99). -/
def State.coreFault (s : State) (e : Ev) (c t : Nat) : State := (s.raise e c c t []).faultCore c t

/-- A parity or residue failure in a signal path (R367): DPATH_CHECK with the unit code, the shot of the owning
core invalid, the samples used as computed. -/
def State.dpathCheck (s : State) (c u t : Nat) : State :=
  (((s.bump .memDpChk 1).raise .dpathCheck 0 u t []).invalid c t)

/-- Core c stops at its word boundary b (R74, R99, R434). -/
def State.stopNow (s : State) (c b : Nat) (fault : Bool) : State :=
  if fault then s.quietFault c b else s.haltCore c b 0xFFFF

end Sys2Proof.Machine
end

