-- ==== Sys2Proof/Machine/Due.lean ====
section
/-! DEFINITION. What falls due on its own as time goes by, in the order of time: the checks of a PLAY or a window at its start
(R109, R117, R120, R159), levels and frames that reach the connector (R124, R145), entries that reach a trigger queue (R80 to
R83), deferrals sampled at the ends of segments (R88), stops at a core's word boundary (R74, R99, R434), and the samples the
outputs form meanwhile (R118, R125). Commands that act on the strands have it settled first (notes/assumptions/9). -/

namespace Sys2Proof.Machine

-- the checks of a PLAY at its start

/-- The tone band of an output's zone, as frequency words (R117): f = FTW × 16 GHz ÷ 2^48, compared in units
of 1 MHz × 2^48 ÷ 16,000. -/
def inBand (ftw loMHz hiMHz : Nat) : Bool :=
  decide (loMHz * 2 ^ 48 ≤ ftw * 16000) && decide (ftw * 16000 ≤ hiMHz * 2 ^ 48)

/-- Whether the carrier of tone u of strand k lies in its output's band (R117). -/
def State.carrierOk (s : State) (k u : Nat) : Bool :=
  let ftw := (s.punit k u).ftw
  if 32 ≤ u then inBand ftw 4000 7900 else
  if s.fld (.outRfCtl k (unitOut u)) 1 0 = 1 then inBand ftw 8100 9000 else inBand ftw 2000 7900

/-- The draw reserved in strand k at tick t by other units than u (R109); a segment still to be checked reserves nothing yet. -/
def State.drawn (s : State) (k u t : Nat) : Nat :=
  ((s.units.filter (fun e => e.1 / 80 == k && e.1 % 80 != u)).map (fun e =>
    match e.2.seg with
    | some g => if g.start ≤ t ∧ t < g.stop ∧ g.check = false then g.draw else 0
    | none => 0)).foldl (· + ·) 0

/-- A PLAY's underrun from its first sample (R94): the segment plays zero, the shot is invalid. -/
def State.underrunAt (s : State) (c u t : Nat) : State :=
  (s.raise .streamUnderrun c c t [wd u]).invalid c t

/-- A segment of unit u of strand k that underruns at tick t (R94, R95): it holds the last good value with
UNDERHOLD on a baseband channel, else it ramps from it to zero over 16 ticks. -/
def State.underSeg (s : State) (k u : Nat) (g : Seg) (t : Nat) : Seg :=
  if 64 ≤ u ∧ s.fld (.seqOwn k u) 4 4 = 1 then { g with held := some t }
  else { g with held := some t, ramp := some t }

/-- The samples of a segment of strand k that lie in an uncorrectable word of the envelope SRAM or, past the
head copy, in a poisoned codeword of HBM, as indices (R359, R363). -/
def State.badSamples (s : State) (k : Nat) (g : Seg) : List Nat :=
  let n := if g.src = 1 then min g.len 8192 else g.len
  let sram := ((s.badWords.filter (fun b => b.1 == .envSram (Fin.ofNat 32 k))).map (fun b => [2 * b.2, 2 * b.2 + 1])).flatten
  let a := if g.src = 2 then [] else (sram.filter (fun x => decide (g.addr ≤ x) && decide (x < g.addr + n))).map (· - g.addr)
  let far := (s.mem.poison.map (fun c => (List.range 16).map (fun i => 16 * c + i))).flatten
  let b := if g.src = 1 then (far.filter (fun x => decide (g.hbm + 8192 ≤ x) && decide (x < g.hbm + g.len))).map (· - g.hbm)
    else []
  a ++ b

/-- The first bad sample of the segment of unit u of strand k is an underrun sample (R94, R359, R363). -/
def State.playBad (s : State) (k u : Nat) (g : Seg) : State :=
  match s.badSamples k g with
  | [] => s
  | j :: r =>
    let i := r.foldl min j
    let tu := g.start + i * 2 ^ g.k
    let s1 := if 8192 ≤ i then s.memUe (4 * (g.hbm + i)) tu
      else s.sramUe (.envSram (Fin.ofNat 32 k)) ((g.addr + i) / 2) tu
    (s1.setPunit k u { s1.punit k u with seg := some (s1.underSeg k u g tu) }).underrunAt g.core u tu

/-- A segment refused at its start plays zero and reads nothing of a queue (R109, R117). -/
def State.refuseSeg (s : State) (k u : Nat) (g : Seg) (band : Bool) : State :=
  let s1 := s.setPunit k u { s.punit k u with seg := some { g with zero := true, check := false, draw := if band then 0 else g.draw } }
  if g.src = 2 ∧ (s1.queue g.addr).bound = some (.unit (Fin.ofNat 32 k) (Fin.ofNat 80 u)) then
    s1.setQueue g.addr { s1.queue g.addr with bound := none }
  else s1

/-- The checks of a segment at its start (R109, R117, R120): its draw on the envelope budget after those of the units before it,
and the carrier with the frequency then in force; a refusal raises its event and makes the shot invalid. -/
def State.judge (s : State) (k u : Nat) : State :=
  match (s.punit k u).seg with
  | none => s
  | some g =>
    if g.check = false then s else
    let band := decide (1024 < s.drawn k u g.start + g.draw)
    let freq := decide (u < 64) && decide (s.fld (.outToneCtl k u) 31 31 = 1) && !s.carrierOk k u
    let s1 := if band then (s.raise .envMismatch k g.core g.start [wd 1]).invalid g.core g.start else s
    let s2 := if freq then (s1.raise .freqRange k g.core g.start [wd u]).invalid g.core g.start else s1
    if band || freq then s2.refuseSeg k u g band else
    let g' := { g with check := false }
    let s3 := s2.setPunit k u { s2.punit k u with seg := some g' }
    if g.zero then s3 else s3.playBad k u g'

-- the check of a window at its start

/-- The settling of an input is under way at tick t (R160). -/
def State.settling (s : State) (k i t : Nat) : Bool :=
  match (s.inp k i).settle with
  | some b => decide (b ≤ t) && decide (t < b + 2 * us)
  | none => false

/-- The tone band for ACQ of an input (R159). -/
def State.bandOk (s : State) (k r : Nat) : Bool :=
  let ftw := (s.punit k (32 + r)).ftw
  if s.fld (.acqInCtl k (r / 16)) 2 1 = 0 then inBand ftw 4000 4850 else inBand ftw 5150 7900

/-- Whether a window on tone r that starts at tick t cannot be taken (R159, R160, R174): its input is disabled or settling, or the
tone is out of the band. -/
def State.winBad (s : State) (k r t : Nat) : Bool :=
  decide (s.fld (.acqInCtl k (r / 16)) 0 0 = 0) || s.settling k (r / 16) t || !s.bandOk k r

/-- The last tick not after the instant of ADC sample m (R157). -/
def adcFloor (m : Nat) : Nat := 8 * m / 5

/-- The windows of tone r that start by tick t are checked (R159, R174): one that cannot be taken carries CFG, and its shot is
invalid. -/
def State.checkWins (s : State) (k r t : Nat) : State :=
  let y := s.rtone k r
  let hit := fun (v : Win) => v.check && decide (adcFloor v.ms ≤ t)
  let bad := s.winBad k r t
  let s1 := s.setRtone k r { y with wins := y.wins.map (fun v => if hit v then { v with check := false, cfg := v.cfg || bad } else v) }
  if bad then (y.wins.filter hit).foldl (fun a v => (a.raise .acqConfig k (32 * k + r) v.eff []).invalid v.core v.eff) s1 else s1

-- the trigger queue

/-- The trigger-queue path to a core: entry of the queue, and the end of the pop stage (R208). -/
def trigArrive : Nat := 384
def trigPopped : Nat := 448

/-- When an entry stamped t reaches a core's queue (R208, R428). -/
def trigAt (t : Nat) : Nat := up8 t + trigArrive

/-- A TRIGWAIT of core c issued for t served by an entry (R82, R83). -/
def Core.popTrig (x : Core) (t stamp : Nat) : Core :=
  { x with st := .running, wait := none, lastTrig := stamp, tRef := some (max stamp t), tPrev := t,
           ePrev := max stamp t, bound1 := up8 stamp + 768, busy := max x.busy (up8 stamp + trigPopped) }

/-- An entry put on the way to a core's queue: those of one fabric cycle in ascending input number, a host trigger last
(R80). -/
def insertTrig (e : Nat × Nat) : List (Nat × Nat) → List (Nat × Nat)
  | [] => [e]
  | x :: r => if e.1 / 8 < x.1 / 8 ∨ (e.1 / 8 = x.1 / 8 ∧ e.2 < x.2) then e :: x :: r else x :: insertTrig e r

/-- An edge on input i stamped t, or a host trigger with i = 32, sent to core c's trigger queue (R80, R208). -/
def State.pushTrig (s : State) (c i t : Nat) : State :=
  s.setCore c { s.core c with trigIn := insertTrig (t, i) (s.core c).trigIn }

/-- The next entry on its way reaches core c's trigger queue (R80 to R82): it is taken in RUN while the core is RUNNING or
WAITING; it serves a TRIGWAIT that waits, unless its time has run out; DROPOLD discards one stamped before the TRIGWAIT; a
fifth is discarded, counted and reported. -/
def State.trigArrives (s : State) (c : Nat) : State :=
  let x := s.core c
  match x.trigIn with
  | [] => s
  | (stamp, _) :: r =>
    let s0 := s.setCore c { x with trigIn := r }
    if !(x.active && s.mode.mode == .run) then s0 else
    let queue := fun (a : State) =>
      if 4 ≤ x.trigQ.length then (a.bump (.seqTrigLost c) 1).raise .trigLost c c (up8 (trigAt stamp)) (wd64 stamp)
      else a.setCore c { a.core c with trigQ := x.trigQ ++ [stamp] }
    match x.wait with
    | some (.trig t tmo old) =>
      if tmo ≠ 0 ∧ t + 64 * tmo < trigAt stamp then queue s0
      else if old && decide (stamp < t) then s0.bump (.seqTrigDrop c) 1
      else s0.setCore c ((s0.core c).popTrig t stamp)
    | _ => queue s0

-- deferrals

/-- A deferred jump taken at a segment's end (R88, R435): a core that waits goes on; the micro-routines of the target's path up to
its first timed word have run. -/
def Core.deferJump (x : Core) (y : Core) (g : SegEnd) : Core :=
  { y with st := if x.st = .held then .held else .running, back := if x.back = .waiting then .running else x.back, wait := none,
           busy := g.fall, prep := x.busy }

/-- The update that a FRAMEADD word makes (R72, R123). -/
def State.frameAdd (s : State) (c w t : Nat) : State :=
  (s.frameOp (c / 8) (bits w 39 28) (t / 8) (c % 8) false (BitVec.ofNat 32 (bits w 27 14 * 2 ^ 18))).notePhases (c / 8) t

/-- The pending deferral of core c sampled at the cut-off of a segment (R88): one present there is carried out at the
segment's end, the jump or the frame update, or lapses where its condition fails. -/
def State.sampleDefer (s : State) (c : Nat) (g : SegEnd) : State :=
  match (s.core c).defer with
  | none => s
  | some d =>
    let x := cutoff g.stop
    let s1 := s.setCore c { s.core c with defer := none }
    match (if wOp d.w = 0x15 then s.jcondAt c d.w d.shot0 x else s.faddAt c d.w d.shot0 x) with
    | .notPresent => s.setCore c { s.core c with defer := some { d with ends := d.ends.filter (fun e => decide (e ≠ g)) } }
    | .fails => s1
    | .holds =>
      if wOp d.w = 0x15 then
        match (s1.core c).jcond d.w g.stop with
        | none => s1.coreFault .stackFault c (up8 g.stop)
        | some y => (s1.setCore c ((s1.core c).deferJump y g)).endShots c y.bights.length g.stop
      else s1.frameAdd c d.w g.stop

/-- A segment that ends early ends so for the deferrals that sample it (R88, R96). -/
def State.cutDefer (s : State) (k u start t : Nat) : State :=
  s.mapCores (fun c x => if c / 8 = k then
    { x with defer := x.defer.map (fun d => { d with ends := d.ends.map (fun e =>
        if e.key = u ∧ e.start = start ∧ t < e.stop then { e with stop := t } else e) }) } else x)

-- the agenda

/-- Something that falls due at its time. -/
inductive Due where
  | judge (key : Nat)
  | window (key : Nat)
  | level (key lvl : Nat)
  | frame
  | trig (c : Nat)
  | sample (c : Nat) (g : SegEnd)
  | stop (c : Nat) (fault : Bool)
  deriving DecidableEq, Repr

/-- The core whose own doing it is. -/
def Due.core : Due → Option Nat
  | .sample c _ => some c
  | .stop c _ => some c
  | .trig c => some c
  | _ => none

/-- What is due on core c. -/
def Core.agenda (c : Nat) (x : Core) : List (Nat × Due) :=
  (x.trigIn.take 1).map (fun e => (trigAt e.1, Due.trig c)) ++
  (match x.defer with | some d => d.ends.map (fun g => (g.stop, Due.sample c g)) | none => []) ++
  (match x.haltAt with | some p => [(p.1, Due.stop c p.2)] | none => [])

/-- What is due on unit `key`, on tone `key`, and on output `key`. -/
def PUnit.agenda (key : Nat) (x : PUnit) : List (Nat × Due) :=
  match x.seg with
  | some g => if g.check then [(g.start, .judge key)] else []
  | none => []

def Rtone.agenda (key : Nat) (x : Rtone) : List (Nat × Due) :=
  (x.wins.filter (·.check)).map (fun v => (adcFloor v.ms, .window key))

def Out.agenda (key : Nat) (x : Out) : List (Nat × Due) := x.statics.map (fun p => (p.1, .level key p.2))

/-- Everything that is due at some time; of what is due at one tick the first is carried out first. -/
def State.agenda (s : State) : List (Nat × Due) :=
  (s.units.map (fun e => e.2.agenda e.1)).flatten ++ (s.rtones.map (fun e => e.2.agenda e.1)).flatten ++
  (s.outs.map (fun e => e.2.agenda e.1)).flatten ++ s.frameW.map (fun w => (w.1, Due.frame)) ++
  (s.cores.map (fun e => e.2.agenda e.1)).flatten

/-- The first of the earliest. -/
def earliest : List (Nat × Due) → Option (Nat × Due)
  | [] => none
  | x :: r => some (r.foldl (fun a y => if y.1 < a.1 then y else a) x)

/-- The outputs' sums and chains formed up to tick t (R118, R125): those of the outputs on which a segment plays. -/
def State.settleOuts (s : State) (t : Nat) : State :=
  (s.outs.map (·.1)).foldl (fun a key =>
    let k := key / 22
    let o := key % 22
    if o < 6 then a.settleRf k o t else
    match (a.punit k (58 + o)).seg with
    | some g =>
      let x := a.out k o
      if (x.live || decide (8 * x.chain.upTo < x.heldFrom + 256)) && decide (g.start < t) && decide (8 * x.chain.upTo < g.stop) then a.settleChain k (o - 6) t else a
    | none => a) s

/-- The host writes of frames that are due at tick t (R124). -/
def State.framesDue (s : State) (t : Nat) : State :=
  (s.frameW.filter (fun w => decide (w.1 ≤ t))).foldl (fun a w => a.notePhases w.2.1 t) (s.settleFrames (fun _ => true) t)

/-- One thing carried out at its time t. -/
def State.doDue (s : State) (t : Nat) (d : Due) : State :=
  let a := (s.clockTo t).settleOuts t
  match d with
  | .judge key => a.judge (key / 80) (key % 80)
  | .window key => a.checkWins (key / 32) (key % 32) t
  | .level key lvl => a.staticArrives (key / 22) (key % 22 - 6) lvl t
  | .frame => a.framesDue t
  | .trig c => a.trigArrives c
  | .sample c g => a.sampleDefer c g
  | .stop c fault => a.stopNow c t fault

/-- How far time goes: to before `other`, and for core `own`'s doings to `at'`. -/
structure Until where
  own : Option Nat := none
  at' : Nat := 0
  other : Nat
  deriving DecidableEq, Repr

/-- Whether what is due at tick t comes before that. -/
def Until.reaches (l : Until) (t : Nat) (d : Due) : Bool :=
  decide (t < l.other) || (d.core == l.own && l.own.isSome && decide (t ≤ l.at'))

/-- What is due carried out in the order of time, as far as a limit that the state gives. -/
def State.settle (lim : State → Until) : Nat → State → State
  | 0, s => s
  | n + 1, s =>
    match earliest s.agenda with
    | none => s
    | some x => if (lim s).reaches x.1 x.2 then State.settle lim n (s.doDue x.1 x.2) else s

/-- More steps than there are things to be done: a fault may stop the seven other cores of its strand. -/
def State.dueFuel (s : State) : Nat :=
  8 * (s.agenda.length + (s.cores.map (fun e => e.2.trigIn.length)).foldl (· + ·) 0) + 8

/-- Everything due before tick t carried out. -/
def State.due (s : State) (t : Nat) : State := s.settle (fun _ => { other := t }) s.dueFuel

/-- The clock at the arrival time of a command that acts on the strands, with everything done that is due by then. -/
def State.upTo (s : State) (t : BitVec 64) : State :=
  let n := max s.now t.toNat
  ((s.due (n + 1)).settleOuts n).at t

/-- The clock at a later time that the model itself reaches, with everything done that is due before it. -/
def State.toTime (s : State) (t : Nat) : State := ((s.due t).settleOuts t).clockTo t

/-- A write of a hub block that arrives at tick t: it has its effect, or is discarded before READY (R52). -/
def State.hubWrite (s : State) (t : BitVec 64) (f : State → State) : State :=
  let a := s.at t
  if a.blocksUp then f a else a

/-- The same for a register of a block that the variant may lack (R3). -/
def State.blockWrite (s : State) (t : BitVec 64) (r : RegId) (f : State → State) : State :=
  let a := s.upTo t
  if a.blocksUp && !a.absent r.off then f a else a

end Sys2Proof.Machine
end

