-- ==== Sys2Proof/Machine/CalCore.lean ====
section
/-! DEFINITION. What the calibration of converters has to do with the rest of the module (chapter 14): the
numbering of converters (R336), when one is due (R339), the end and the abandoning of a step (R344, R347), the
arming of a core, which a step holds (R65, R342), and the discarding of windows (R174). -/

namespace Sys2Proof.Machine

-- numbering

/-- The output a converter serves, as strand and local output; none for an ADC pair (R336). -/
def convOut (x : Nat) : Option (Nat × Nat) :=
  if x < 128 then some (x / 4, x % 4) else if x < 192 then some ((x - 128) / 2, 4 + (x - 128) % 2) else
  if x < 256 then none else some ((x - 256) / 16, 6 + (x - 256) % 16)

/-- The converter of local output o of strand k, and of local input i (R336). -/
def outConv (k o : Nat) : Nat :=
  if o < 4 then 4 * k + o else if o < 6 then 128 + 2 * k + (o - 4) else 256 + 16 * k + (o - 6)
def inConv (k i : Nat) : Nat := 192 + 2 * k + i

/-- The strand of a converter, and the local input of an ADC pair. -/
def convStrand (x : Nat) : Nat := match convOut x with | some p => p.1 | none => (x - 192) / 2
def convIn (x : Nat) : Nat := (x - 192) % 2

/-- The units of a converter (R340): its tones, the read-out tones it demodulates, or its channel. -/
def convUnits (x : Nat) : List Nat := match convOut x with | some p => outUnits p.2 | none => outUnits (4 + convIn x)

/-- The offline time of a step in ticks (R337). -/
def stepTicks (x : Nat) : Nat := if x < 192 then 192000 else if x < 256 then 320000 else 128000

def State.conv (s : State) (x : Nat) : Conv := Tab.get s.convs x {}
def State.setConv (s : State) (x : Nat) (v : Conv) : State := { s with convs := Tab.put s.convs x v }
def State.engine (s : State) (p : Nat) : Engine := Tab.get s.engines p {}
def State.setEngine (s : State) (p : Nat) (v : Engine) : State := { s with engines := Tab.put s.engines p v }

/-- The range or band in force of a converter (R337, R339). -/
def State.convRange (s : State) (x : Nat) : Nat :=
  match convOut x with
  | some p => s.fld (outReg p.1 p.2) 3 2
  | none => s.fld (.acqInCtl (convStrand x) (convIn x)) 2 1

-- due

/-- The calibration interval of the module's temperature band, in ticks (R339, R380). -/
def State.calInterval (s : State) : Nat :=
  let b := min 3 s.thm.modBand
  s.fld .calInterval (8 * b + 7) (8 * b) * sec

/-- Whether the last completed step for the range or band in force is older than the interval at tick t; a
range never calibrated is (R339, R353). -/
def State.convOld (s : State) (x t : Nat) : Bool :=
  match Tab.get? (s.conv x).last (s.convRange x) with
  | none => true
  | some e => decide (e + s.calInterval ≤ t)

/-- Converter x becomes due at tick t, unless it is due already (R339). -/
def State.makeDue (s : State) (x t : Nat) : State :=
  let v := s.conv x
  if v.due.isSome then s else s.setConv x { v with due := some t, slack := 0, again := none }

/-- Converter x becomes due if what is now in force was calibrated longer ago than the interval (R339). -/
def State.dueIfOld (s : State) (x t : Nat) : State := if s.convOld x t then s.makeDue x t else s

/-- The converters of strand k. -/
def strandConvs (k : Nat) : List Nat :=
  (List.range 22).map (outConv k) ++ (List.range 2).map (inConv k)

-- arming

/-- An ARM write to core c (R65, R114, R116, R313): discarded while the core executes; else it loads PC and
start time, clears the state R61 marks, reloads the NCOs of the owned tones, which the down-converters follow (R163), and binds
the stream queue. -/
def State.arm (s : State) (c : Nat) : State :=
  let x := s.core c
  let k := c / 8
  if x.active || x.st == .held then s else
  let stream := decide (s.fld (.seqCtl c) 9 8 = 1)
  let qn := s.fld (.seqStreamQ c) 14 0
  let me : StreamReader := .core (Fin.ofNat 256 c)
  let s0 := s.unbind c
  let q := s0.queue qn
  let busyQ := stream && q.role == 3 && q.enabled && q.bound.isSome
  let y : Core :=
    { st := .armed, pc := s.fld (.seqStart c) 16 0, start := s.reg64 (.seqStartTimeLo c) (.seqStartTimeHi c),
      armAt := s.now, inStream := stream, streamBad := busyQ, uids := x.uids, haltCode := x.haltCode,
      lastTrig := x.lastTrig, trigIn := x.trigIn, marks := x.marks, ovrSeen := x.ovrSeen, shots := x.shots.filter (fun z => z.stop.isSome) }
  let s1 := s0.setCore c y
  let s2 := if stream && !busyQ then s1.setQueue qn { q with bound := some me } else s1
  let s3 := if busyQ then s2.raise .qmReader 0 qn s.now [0] else s2
  let s4 := ((List.range 64).filter (fun u => s.owns c u)).foldl (fun a u =>
    let i := a.fld (.outToneCtl k u) 9 0
    a.setPunit k u { (a.punit k u).reload (a.freq k i) a.epoch (up8 a.now) with fidx := i }) s3
  s4.notePhases k (up8 s.now)

/-- Whether a converter of a unit that core c owns is in a calibration step (R342). -/
def State.inStepOf (s : State) (c : Nat) : Bool :=
  s.convs.any (fun e => e.2.step.isSome && convStrand e.1 == c / 8 && (convUnits e.1).any (fun u => s.owns c u))

/-- The held ARM writes of strand k that no step holds any more take effect (R342). -/
def State.releaseArms (s : State) (k : Nat) : State :=
  (List.range 8).foldl (fun a i =>
    let c := 8 * k + i
    if (a.core c).armHeld && !a.inStepOf c then (a.setCore c { a.core c with armHeld := false }).arm c else a) s

-- the end of a step

/-- A step ends or is abandoned at tick t (R344, R347): the converter is back, the engine free, held ARM
writes take effect. -/
def State.leaveStep (s : State) (x t : Nat) : State :=
  let s1 := s.setConv x { s.conv x with step := none }
  let p := convStrand x / 8
  let s2 := s1.setEngine p { s1.engine p with cur := none }
  let s3 := match convOut x with
    | some q =>
      let a := if 6 ≤ q.2 then s2.settleChain q.1 (q.2 - 6) t else s2
      a.setOut q.1 q.2 { a.out q.1 q.2 with calMute := false }
    | none =>
      let y := s2.inp (convStrand x) (convIn x)
      s2.setInp (convStrand x) (convIn x)
        { y with calOff := y.calOff.map (fun (i : Nat × Option Nat) => if i.2.isNone then (i.1, some t) else i) }
  s3.releaseArms (convStrand x)

/-- A step in progress on converter x abandoned at the present time: no correction changes, the converter
stays due (R347). -/
def State.calAbort (s : State) (x : Nat) : State :=
  if (s.conv x).step.isSome then s.leaveStep x s.now else s

/-- Every step in progress on a converter that meets a condition abandoned (R347). -/
def State.calAbortIf (s : State) (f : Nat → Bool) : State :=
  ((s.convs.map (·.1)).filter f).foldl State.calAbort s

-- windows discarded

/-- The windows of strand k discarded with no result and no slot write, and their raw captures with the packets reserved for
them (R174, R175). -/
def State.clearWins (s : State) (k : Nat) : State :=
  let s1 := s.mapCores (fun c x => if c / 8 = k then { x with shots := x.shots.map (fun y => { y with openW := 0 }) } else x)
  let gone := fun (p : Packet) => match p.src with | some i => decide (i / 2 = k) | none => false
  { s1 with queues := s1.queues.map (fun e => if e.2.pkts.any gone then (e.1, { e.2 with pkts := e.2.pkts.filter (fun p => !gone p) }) else e),
            rtones := s1.rtones.map (fun e => if e.1 / 32 = k then (e.1, { e.2 with wins := [] }) else e),
            inps := s1.inps.map (fun e => if e.1 / 2 = k then (e.1, { e.2 with rawBusy := none, rawWin := none, rawQ := none }) else e) }

end Sys2Proof.Machine
end

