-- ==== Sys2Proof/Machine/Strands.lean ====
section
/-! DEFINITION. Units, strands and plies: enabling and disabling, gating, ply starts and stops, pending
enables, strand resets (R30, R56 to R58, R155, R424), with the meanings of the ply rows, OUTPUT_SHUTDOWN_DONE,
STRAND_GATED and STRAND_RESET. -/

namespace Sys2Proof.Machine

/-- The modes in which strands are ungated and plies started at once (R56): READY, RUN, HOLD, CALIBRATE and
TEST. -/
def Mode.powered (m : Mode) : Bool :=
  m == .ready || m == .run || m == .hold || m == .calibrate || m == .test

/-- The enabled units of strand k: tones, outputs, read-out inputs, monitor inputs (R424 UNITS). -/
def State.unitCount (s : State) (k : Nat) : Nat :=
  ((List.range 64).filter (fun u => s.fld (.outToneCtl k u) 31 31 = 1)).length +
  ((List.range 22).filter (fun o => s.outEnabled k o)).length +
  ((List.range 2).filter (fun i => s.fld (.acqInCtl k i) 0 0 = 1)).length +
  ((List.range 2).filter (fun i => s.fld (.monCtl (2 * k + i)) 0 0 = 1)).length

/-- Whether strand k has an enabled unit (R30). -/
def State.strandOn (s : State) (k : Nat) : Bool := decide (0 < s.unitCount k)

/-- The strands of ply p (R22). -/
def plyStrands (p : Nat) : List Nat := (List.range 8).map (fun i => 8 * p + i)

/-- Whether ply p has a strand with an enabled unit. -/
def State.plyOn (s : State) (p : Nat) : Bool := (plyStrands p).any s.strandOn

/-- POLICY = ALWAYS_ON (R56). -/
def State.alwaysOn (s : State) (p : Nat) : Bool := decide (s.fld (.plyClkCtl p) 1 0 = 1)

/-- A ply start is asked for: a stopped ply starts, a stopping one is pended and reported, a starting or
locked one is joined (R56 to R58). -/
def State.startPly (s : State) (p : Nat) : State :=
  let x := s.ply p
  match x.st with
  | .stopped => s.setPly p { x with st := .starting, due := s.now + 40 * us, idleFrom := none }
  | .stopping => if x.pendEn then s else (s.setPly p { x with pendEn := true }).raise .enablePended 0 p s.now []
  | .starting => s
  | .locked => s.setPly p { x with idleFrom := none }

/-- An ungating of strand k starts, if its ply is locked, and else waits for the ply (R30, R56). -/
def State.ungate (s : State) (k : Nat) : State :=
  if (s.ply (k / 8)).st = .locked then
    s.setStrand k { s.strand k with gate := .ungating, due := s.now + 2 * us, wantUn := false }
  else (s.setStrand k { s.strand k with wantUn := true }).startPly (k / 8)

/-- A ply with an enabled unit counts no idle hold (R56). -/
def State.busyPly (s : State) (p : Nat) : State :=
  if (s.ply p).idleFrom.isSome then s.setPly p { s.ply p with idleFrom := none } else s

/-- Strand k is given an enabled unit (R30, R57, R58). -/
def State.wantStrand (s0 : State) (k : Nat) : State :=
  if s0.mode.mode.powered = false then s0 else
  let s := s0.busyPly (k / 8)
  let x := s.strand k
  match x.gate with
  | .gated => if x.wantUn then s else s.ungate k
  | .gating =>
    if x.pendEn then s else (s.setStrand k { x with pendEn := true }).raise .enablePended 0 k s.now []
  | .ungating => s.setStrand k { x with gateAfter := false }
  | .ungated => s

/-- A gating of strand k starts: its slots read invalid from the boundary on (R30, R57, R206). -/
def State.startGate (s : State) (k : Nat) : State :=
  let s1 := s.calAbortIf (fun x => convStrand x == k)
  (s1.setStrand k { s1.strand k with gate := .gating, due := s.now + 3 * us, gateAfter := false }).gateSlots k (up8 s.now)

/-- Strand k is left with no enabled unit (R30, R58). -/
def State.dropStrand (s : State) (k : Nat) : State :=
  let x := s.strand k
  if s.strandOn k then s else
  match x.gate with
  | .ungated => s.startGate k
  | .ungating => s.setStrand k { x with gateAfter := true }
  | .gating => s.setStrand k { x with pendEn := false }
  | .gated =>
    let s1 := s.setStrand k { x with wantUn := false }
    if (s1.ply (k / 8)).pendEn && !s1.alwaysOn (k / 8) && !((plyStrands (k / 8)).any (fun j => (s1.strand j).wantUn))
    then s1.setPly (k / 8) { s1.ply (k / 8) with pendEn := false } else s1

/-- The ply's idle hold starts to count when none of its strands has an enabled unit and the last of them is gated (R56 to
R58). -/
def State.countIdle (s : State) (p : Nat) : State :=
  if s.plyOn p || s.alwaysOn p || (plyStrands p).any (fun k => (s.strand k).gate != .gated) then s else
  match (s.ply p).st with
  | .locked => s.setPly p { s.ply p with idleFrom := some ((s.ply p).idleFrom.getD s.now) }
  | _ => s

/-- The core registers, stacks, trigger queues and filter states of strand k lost, or cleared by a strand
reset (R30, R55): the cores read IDLE. -/
def State.clearCores (s : State) (k : Nat) : State :=
  s.mapCores (fun c x => if c / 8 = k then { uids := x.uids } else x)

/-- The segments of strand k's units removed. -/
def State.clearSegs (s : State) (k : Nat) : State :=
  { s with units := s.units.map (fun e => if e.1 / 80 = k then (e.1, { e.2 with seg := none }) else e) }

-- enables of units

/-- An ENABLE bit of an output changes (R57, R58, R155, R142): an enable that meets the output's shutdown is
pended and reported; a disable withdraws a pending enable, or starts the shutdown. -/
def State.outEnable (s : State) (k o : Nat) (was on : Bool) : State :=
  let x := s.out k o
  if on then
    if was then s else
    match x.shut with
    | some _ =>
      ((s.setOut k o { x with pendEn := true, enAt := s.now }).raise .enablePended 0 (outGlobal k o) s.now []).wantStrand k
    | none => (s.setOut k o { x with enAt := s.now }).wantStrand k
  else
    if !was then s else
    if x.pendEn then (s.setOut k o { x with pendEn := false }).dropStrand k else
    let s0 := s.calAbort (outConv k o)
    let s2 := s0.goHeld k o (up8 s.now) true false
    (s2.setOut k o { s2.out k o with shut := some (s.now + 2 * us) }).dropStrand k

/-- An ENABLE bit of a tone, input or monitor input changes (R30, R57). -/
def State.plainEnable (s : State) (k : Nat) (was on : Bool) : State :=
  if on && !was then s.wantStrand k else if was && !on then s.dropStrand k else s

/-- OUTPUT_SHUTDOWN_DONE (R57): the shutdown of an output completes, and a pending enable is carried out. -/
def State.outShutDone (s : State) (k o : Nat) : State :=
  match (s.out k o).shut with
  | none => s
  | some due =>
    let s1 := s.toTime due
    s1.setOut k o { s1.out k o with shut := none, pendEn := false }

/-- The local output an operand names. -/
def outLocal : OutId → Nat × Nat
  | .rf s o => (s.val, o.val)
  | .bb s c => (s.val, 6 + c.val)

def execOutputShutdownDone (o : OutId) (s : State) : Host.Outcome State Fault Refusal :=
  .next (s.outShutDone (outLocal o).1 (outLocal o).2)

-- writes to a strand

/-- The unit whose ENABLE a strand register holds: the bit's place, and the output, if it is one (R155, R182). -/
def RegId.enable : RegId → Option (Nat × Option Nat)
  | .outToneCtl _ _ => some (31, none)
  | .acqInCtl _ _ => some (0, none)
  | .outRfOut _ o => some (0, some o)
  | .outBbOut _ c => some (0, some (6 + c))
  | _ => none

/-- The ENABLE of a write to a strand that is not ungated acts at the hub (R30, R421). -/
def State.earlyEnable (s : State) (k : Nat) (r : RegId) (w : Word) : State :=
  match r.enable with
  | none => s
  | some (b, o) =>
    let was := decide (s.fld r b b = 1)
    let on := decide (getF w b b = 1)
    let s1 := s.setFld r b b (getF w b b)
    match o with
    | some o => s1.outEnable k o was on
    | none => s1.plainEnable k was on

/-- The COMMIT of a write to a strand that is not ungated copies the shadow coefficients as they stand when it arrives (R128,
R421): no chain of the strand forms samples then. -/
def State.earlyCommit (s : State) (r : RegId) (w : Word) : State :=
  match r with
  | .outBbCtl k c => if getF w 17 17 = 1 then s.copyCoef k c else s
  | _ => s

/-- What of such a write is held. -/
def RegId.heldPart (r : RegId) (w : Word) : Word :=
  match r with
  | .outBbCtl _ _ => setF w 17 17 0
  | _ => w

/-- A write of a register of strand k that acts on its units arrives (R421, R424): it takes effect now, or is held in
arrival order until the strand is ungated or its reset ends. -/
def State.toStrand (s : State) (k : Nat) (r : RegId) (w : Word) (f : State → Word → State) : State :=
  let x := s.strand k
  if x.gate = .ungated ∧ x.rst.isNone = true then f s w else
  if x.rst.isNone then
    ((s.setStrand k { x with heldW := x.heldW ++ [(r.off, r.heldPart w)] }).earlyCommit r w).earlyEnable k r w
  else s.setStrand k { x with heldW := x.heldW ++ [(r.off, w)] }

/-- A write of a table of strand k (R122, R421): a strand that is not ungated takes it in retention; one under reset
holds it. -/
def State.toTable (s : State) (k : Nat) (r : RegId) (w : Word) (f : State → Word → State) : State :=
  if (s.strand k).rst.isSome then s.toStrand k r w f else f s w

/-- The same for a write that arrives at tick t; before READY, or for an absent strand, it is discarded (R3, R52). -/
def State.strandWrite (s : State) (t : BitVec 64) (k : Nat) (r : RegId) (w : Word) (f : State → Word → State) : State :=
  s.blockWrite t r (fun a => a.toStrand k r w f)

-- strands

/-- STRAND_GATED (R30, R57): the gating completes at its time, the volatile state is lost, and a pending
enable is carried out; otherwise the ply's idle hold may start to count. -/
def State.strandGated (s : State) (k : Nat) : State :=
  let x := s.strand k
  if x.gate = .gating then
    let s1 := s.toTime x.due
    let s2 := ((s1.clearCores k).clearSegs k).clearWins k
    let s3 := s2.holdStrand k (up8 s2.now) false true
    let s4 := s3.setStrand k { s3.strand k with gate := .gated, pendEn := false, rst := none }
    if x.pendEn then s4.ungate k else s4.countIdle (k / 8)
  else s

def execStrandGated (k : Fin 32) (s : State) : Host.Outcome State Fault Refusal := .next (s.strandGated k.val)

-- plies

/-- PLY_CLKCTL written (R56): the policy acts at once in READY, RUN, HOLD, CALIBRATE and TEST. -/
def State.wrPlyClk (s : State) (p : Nat) (w : Word) : State :=
  let s1 := s.setReg (.plyClkCtl p) (RegId.merge (.plyClkCtl p) (s.reg (.plyClkCtl p)) w)
  if s.mode.mode.powered = false then s1 else
  if s1.alwaysOn p then s1.startPly p
  else if (s1.ply p).pendEn && !((plyStrands p).any (fun k => (s1.strand k).wantUn)) then
    s1.setPly p { s1.ply p with pendEn := false }
  else s1.countIdle p

def execPlyPolicyWrite (t : BitVec 64) (p : Fin 4) (w : Word) (s : State) : Host.Outcome State Fault Refusal :=
  .next (s.blockWrite t (.plyClkCtl p.val) (fun a => a.wrPlyClk p.val w))

/-- PLY_LOCKED (R29, R56, R116): the start completes; the ply's NCOs reload, its waiting strands ungate. -/
def State.plyLocked (s : State) (p : Nat) : State :=
  let x := s.ply p
  if x.st = .starting then
    let s1 := s.toTime x.due
    let s2 := (s1.setPly p { x with st := .locked, retrain := none }).bump (.plyStarts p) 1
    let s3 := (plyStrands p).foldl (fun a k => a.notePhases k (up8 a.now))
      (s2.reloadUnits (fun k => decide (k / 8 = p)) (up8 s2.now))
    let s4 := (plyStrands p).foldl (fun a k => if (a.strand k).wantUn then a.ungate k else a) s3
    s4.countIdle p
  else s

def execPlyLocked (p : Fin 4) (s : State) : Host.Outcome State Fault Refusal := .next (s.plyLocked p.val)

/-- PLY_STOPPED (R56, R57): the stop completes, and a pending start is carried out. -/
def State.plyStopped (s : State) (p : Nat) : State :=
  let x := s.ply p
  if x.st = .stopping then
    let s1 := s.clockTo x.due
    let s2 := s1.setPly p { x with st := .stopped, pendEn := false, idleFrom := none }
    if x.pendEn then s2.startPly p else s2
  else s

def execPlyStopped (p : Fin 4) (s : State) : Host.Outcome State Fault Refusal := .next (s.plyStopped p.val)

/-- The idle hold of a ply counts from now, if it is locked, on demand and has no enabled unit (R56). -/
def State.idleNow (s : State) (p : Nat) : State :=
  if s.plyOn p || s.alwaysOn p || (s.ply p).st != .locked then s else s.setPly p { s.ply p with idleFrom := some s.now }

/-- Every ply put under its policy on entry to READY (R56). -/
def State.applyPolicies (s : State) : State :=
  let s1 := (List.range 4).foldl (fun a p => if a.alwaysOn p then a.startPly p else a) s
  let s2 := (List.range Config.strands).foldl (fun a k => if a.strandOn k then a.wantStrand k else a) s1
  (List.range 4).foldl (fun a p => a.idleNow p) s2

end Sys2Proof.Machine
end

