-- ==== Sys2Proof/Machine/SeqCore.lean ====
section
/-! DEFINITION. The frame every sequence word's meaning is run in (R67 to R69, R73, R74, R76): what is due before it, whether it
may issue, and the advance of the core; and strand resets (R55, R424). -/

namespace Sys2Proof.Machine

-- the frame of a word

/-- Whether words with issue time t may issue (R44 to R46): the module in RUN, and t before a T_pause or T_stop on its
way and before no trip. -/
def State.mayIssue (s : State) (t : Nat) : Bool :=
  s.mode.mode == .run && s.mode.tripAt.isNone &&
  (match s.mode.trans with
   | some (.hold, _) => decide (t < s.mode.tPause)
   | some (.ready, _) => decide (t < up8 s.mode.transAt)
   | _ => true)

/-- The same for core c, which may have a stop on its way (R76). -/
def State.coreMay (s : State) (c t : Nat) : Bool :=
  s.mayIssue t && (match (s.core c).haltAt with | some p => decide (t < p.1) | none => true)

/-- How far time goes before core c's next word: to its effect, and to its issue time for the core's own deferral or stop; a
core that waits goes on with what is due on it first. -/
def State.wordLimit (s : State) (c : Nat) : Until :=
  let x := s.core c
  match x.st with
  | .running =>
    match (s.fetch c).1 with
    | .word w =>
      let tm := s.timing x w
      if s.wordLegal c w x.inStream then { own := some c, at' := tm.t, other := tm.eff }
      else { own := some c, at' := tm.mEnd, other := tm.mEnd }
    | _ => { own := some c, at' := x.busy, other := x.busy }
  | .waiting =>
    match earliest (x.agenda c) with
    | some p => { own := some c, at' := p.1, other := p.1 }
    | none => { other := 0 }
  | _ => { other := 0 }

/-- The state in which core c meets its next word: everything due before it has been done. -/
def State.readyFor (s : State) (c : Nat) : State :=
  let a := s.settle (fun b => b.wordLimit c) s.dueFuel
  a.settleOuts (a.wordLimit c).other

/-- A word of core c that is executed: the clock at its effect, the stream word taken, the program counter
and times advanced, lateness reported (R67 to R69, R311). -/
def State.begin (s : State) (c : Nat) (ps : List Packet) (w : Nat) (tm : Tim) : State :=
  let s1 := s.clockTo tm.eff
  let x := s1.core c
  let flow := opFlow (wOp w)
  let y := { x with pc := if x.inStream then x.pc else pcNext x.pc,
                    tPrev := tm.t, ePrev := tm.t,
                    busy := if flow then tm.mEnd else max tm.mEnd x.prep,
                    prep := if flow then x.prep else 0,
                    bound0 := 0,
                    bound1 := if flow then x.bound1 else 0,
                    gap := if x.inStream then (x.busy - x.readAt + 7) / 8 else x.gap,
                    readAt := if x.inStream then x.busy else x.readAt }
  let s2 := s1.setCore c y
  let s3 := if x.inStream then s2.setQueue (s.streamQ c) { s2.queue (s.streamQ c) with pkts := ps } else s2
  if tm.late then (s3.raise .issueLate c c tm.eff []).invalid c tm.eff else s3

/-- A word of core c with opcode op (R73, R74): the word is fetched; one with an unassigned opcode, an
illegal word or an unreadable one faults the core; one with another opcode, or one that may not issue now, is
not this command's word, and nothing happens. Otherwise it is executed. -/
def State.runWord (s : State) (c op : Nat) (fx : State → Nat → Tim → State) : State :=
  let a := s.readyFor c
  let x := a.core c
  if x.st ≠ .running then a else
  match a.fetch c with
  | (.absent, _) => s
  | (.bad, _) =>
    if a.coreMay c x.busy then
      ((a.clockTo x.busy).sramUe (.seqSram (Fin.ofNat 32 (c / 8))) x.pc (up8 x.busy)).coreFault .illegalWord c (up8 x.busy)
    else s
  | (.word w, ps) =>
    let tm := a.timing x w
    if opAssigned (wOp w) = true ∧ wOp w ≠ op then s else
    if a.wordLegal c w x.inStream then
      if a.coreMay c tm.t then fx (a.begin c ps w tm) w tm else s
    else if a.coreMay c tm.mEnd then (a.clockTo tm.mEnd).coreFault .illegalWord c (up8 tm.mEnd) else s

/-- A flow word: its effect on the core, or STACK_FAULT (R77, R79). -/
def State.runFlow (s : State) (c op : Nat) (f : Core → Nat → Nat → Option Core)
    (after : State → Core → Nat → Nat → State) : State :=
  s.runWord c op (fun a w tm =>
    match f (a.core c) w tm.t with
    | none => a.coreFault .stackFault c (up8 tm.mEnd)
    | some y => after (a.setCore c y) (a.core c) w tm.t)

-- strand resets

/-- A strand reset is detected (R55, R78, R89, R142, R174, R200, R424): staged packets committed with SHOTINV, windows
discarded, outputs held, cores, stacks and trigger queues cleared, chain states cleared. -/
def State.strandReset (s : State) (k : Nat) : State :=
  let b := up8 s.now
  if (s.strand k).gate = .gated then s else
  match (s.strand k).rst with
  | some _ => s
  | none =>
    let s0 := s.calAbortIf (fun x => convStrand x == k)
    let s1 := (List.range 8).foldl (fun a i => a.endAllShots (8 * k + i) b) s0
    let s2 := (s1.clearWins k).flushCores k (fun _ => true)
    let s3 := (s2.clearCores k).clearSegs k
    let s4 := s3.holdStrand k b true true
    s4.setStrand k { s4.strand k with rst := some s.now }

/-- STR_CTL written (R424, R59): RESET without the key is discarded in whole. -/
def State.wrStrCtl (s : State) (k : Nat) (w : Word) : State :=
  if getF w 0 0 = 1 ∧ getF w 31 24 = 0x5A then s.strandReset k else s

def execStrandReset (t : BitVec 64) (k : Fin 32) (key : BitVec 8) (s : State) : Host.Outcome State Fault Refusal :=
  .next (s.blockWrite t (.strCtl k.val) (fun a => a.wrStrCtl k.val (BitVec.ofNat 32 (key.toNat * 2 ^ 24 + 1))))

end Sys2Proof.Machine
end

