-- ==== Sys2Proof/Machine/Sequencer.lean ====
section
/-! DEFINITION. The sequencer's commands (chapter 03): arming, halting and software triggers (R65, R80, R434),
the start of a core, and the words HALT, WAIT, TRIGWAIT, SYNCSTRAND, SETFREQ, SETPHASE, FRAMEADD, BIGHT,
ENDBIGHT, CALL, RET, JUMP, JCOND and SETSTATIC. -/

namespace Sys2Proof.Machine

-- SEQ_CTL

/-- An ARM write to core c (R65, R342): held while a converter of one of its units is in a calibration step. -/
def State.armWrite (s : State) (c : Nat) : State :=
  if s.inStepOf c then s.setCore c { s.core c with armHeld := true } else s.arm c

/-- A HALT write to core c (R434): a running core stops at its word boundary, a waiting one at the next fabric cycle. -/
def State.haltWrite (s : State) (c : Nat) : State :=
  let x := s.core c
  match x.st with
  | .running => s.setCore c (x.stopAtBoundary (s.boundary c s.now) false)
  | .waiting => s.haltCore c (up8 s.now) 0xFFFF
  | .held => s.haltCore c (up8 s.now) 0xFFFF
  | .armed => (s.unbind c).setCore c { x.stopped .done (up8 s.now) with haltCode := 0xFFFF }
  | _ => s

/-- SEQ_CTL written (R65, R80, R100, R434): fields and profile, then ARM, HALT and SWTRIG
(notes/assumptions/24). -/
def State.wrSeqCtl (s : State) (c : Nat) (w : Word) : State :=
  let s1 := s.writeFields (.seqCtl c) w
  let s2 := if getF w 0 0 = 1 then s1.armWrite c else s1
  let s3 := if getF w 1 1 = 1 then s2.haltWrite c else s2
  if getF w 2 2 = 1 then s3.pushTrig c 32 (next8 s.now) else s3

-- starting

/-- The first boundary at least 2 µs after the later of the arm and the last entry to RUN (R65). -/
def State.startBound (s : State) (c : Nat) : Nat := up8 (max (s.core c).armAt s.mode.runEntry + 2 * us)

/-- CORE_START (R65, R67, R78): an armed core starts in RUN at its start time; one before the bound makes the first word
late. -/
def State.coreStart (s : State) (c : Nat) : State :=
  let x := s.core c
  if x.st ≠ .armed ∨ s.mode.mode ≠ .run then s else
  let b := s.startBound c
  let t := if x.start = 0 then b else x.start
  if s.mayIssue t = false then s else
  let s1 := s.toTime t
  let y := { s1.core c with st := .running, start := t, tPrev := t, ePrev := t,
                            bound0 := if t < b then b else 0, busy := up8 (max x.armAt s.mode.runEntry) }
  let s2 := s1.setCore c (y.openShot 0 t 0)
  if x.streamBad then ((s2.raise .streamUnderrun c c t [wd 0]).faultCore c (up8 t)) else s2

def execCoreStart (c : Fin 256) (s : State) : Host.Outcome State Fault Refusal := .next (s.coreStart c.val)

-- timed words

/-- HALT (R71, R72, R78). -/
def State.doHalt (s : State) (c w : Nat) (tm : Tim) : State := s.haltCore c tm.eff (bits w 15 0)

def execHalt (c : Fin 256) (s : State) : Host.Outcome State Fault Refusal :=
  .next (s.runWord c.val 0x00 (fun a w tm => a.doHalt c.val w tm))

/-- WAIT (R71): E = T + DURATION. -/
def State.doWait (s : State) (c w : Nat) (tm : Tim) : State :=
  s.setCore c { s.core c with ePrev := tm.t + bits w 39 0 }

def execWait (c : Fin 256) (s : State) : Host.Outcome State Fault Refusal :=
  .next (s.runWord c.val 0x01 (fun a w tm => a.doWait c.val w tm))

/-- TRIGWAIT (R82): entries stamped before T are discarded with DROPOLD; the oldest entry is popped, or the
core waits. -/
def State.doTrigwait (s : State) (c w : Nat) (tm : Tim) : State :=
  let x := s.core c
  let old := bit w 15
  let q := if old then x.trigQ.filter (fun e => decide (tm.t ≤ e)) else x.trigQ
  let s1 := if old then s.bump (.seqTrigDrop c) (x.trigQ.length - q.length) else s
  match q with
  | e :: r => s1.setCore c ({ x with trigQ := r }.popTrig tm.t e)
  | [] => s1.setCore c { x with trigQ := [], st := .waiting, wait := some (.trig tm.t (bits w 39 16) old) }

def execTrigwait (c : Fin 256) (s : State) : Host.Outcome State Fault Refusal :=
  .next (s.runWord c.val 0x02 (fun a w tm => a.doTrigwait c.val w tm))

/-- TRIG_TIMEOUT (R82): no entry was held when the time ran out; the next micro-routine may start then
(notes/assumptions/73). -/
def State.trigTimeout (s : State) (c : Nat) : State :=
  match (s.core c).wait with
  | some (.trig t tmo _) =>
    let e := t + 64 * tmo
    let a := (s.settle (fun _ => { own := some c, at' := e, other := e }) s.dueFuel).settleOuts e
    if tmo = 0 ∨ (a.core c).st ≠ .waiting ∨ a.mode.mode ≠ .run then s else
    let s1 := a.clockTo e
    let x := s1.core c
    let s2 := s1.setCore c { x with st := .running, wait := none, tRef := some e, ePrev := e, busy := max x.busy e }
    (s2.raise .trigTimeout c c e []).invalid c e
  | _ => s

def execTrigTimeout (c : Fin 256) (s : State) : Host.Outcome State Fault Refusal := .next (s.trigTimeout c.val)

/-- The mask a core waits with at a barrier, with its issue time. -/
def Core.syncMask (x : Core) : Option (Nat × Nat) := match x.wait with | some (.sync t m) => some (t, m) | _ => none

/-- The cores of a mask in core c's strand. -/
def maskCores (c m : Nat) : List Nat := ((List.range 8).filter (fun i => m.testBit i)).map (fun i => 8 * (c / 8) + i)

/-- A barrier whose cores have all arrived (R98): released at R with equal masks, a fault with differing
ones. -/
def State.tryBarrier (s : State) (c m : Nat) : State :=
  let ms := (maskCores c m).map (fun d => (d, (s.core d).syncMask))
  if ms.any (fun p => p.2.isNone) then s else
  let arr := ms.filterMap (fun p => p.2.map (fun q => (p.1, q)))
  if arr.all (fun p => p.2.2 == m) then
    let r := up8 (maxOf 0 (arr.map (fun p => p.2.1)))
    let s1 := s.toTime r
    arr.foldl (fun a p => a.setCore p.1
      { a.core p.1 with st := .running, wait := none, tPrev := r, ePrev := r, bound := max (a.core p.1).bound (r + 64) }) s1
  else
    let t := up8 s.now
    arr.foldl (fun a p => if (a.core p.1).st = .fault then a else a.faultCore p.1 t)
      (arr.foldl (fun a p => a.raise .syncMismatch p.1 p.1 t []) s)

/-- SYNCSTRAND (R98): the core waits; every barrier that its arrival completes is released or faults. -/
def State.doSync (s : State) (c w : Nat) (tm : Tim) : State :=
  let s1 := s.setCore c { s.core c with st := .waiting, wait := some (.sync tm.t (bits w 39 32)) }
  let masks := (List.range 8).filterMap (fun i => (s1.core (8 * (c / 8) + i)).syncMask.map (·.2))
  masks.foldl (fun a m => a.tryBarrier c m) s1

def execSyncstrand (c : Fin 256) (s : State) : Host.Outcome State Fault Refusal :=
  .next (s.runWord c.val 0x03 (fun a w tm => a.doSync c.val w tm))

/-- SETSTATIC (R127, R145): the level holds from its tick; a register write that is still on its way follows it. -/
def State.doSetstatic (s : State) (c w : Nat) (tm : Tim) : State :=
  let k := c / 8
  let ch := bits w 39 36
  let s1 := (s.note c tm.eff (.static k ch (s.reg (.outStatic k ch)))).note c tm.eff
    (.out (22 * k + 6 + ch) (s.out k (6 + ch)))
  let s2 := s1.setPunit k (64 + ch) { s1.punit k (64 + ch) with lastEff := tm.eff }
  s2.setStatic k ch (bits w 35 20) tm.eff

def execSetstatic (c : Fin 256) (s : State) : Host.Outcome State Fault Refusal :=
  .next (s.runWord c.val 0x06 (fun a w tm => a.doSetstatic c.val w tm))

/-- SETFREQ (R114, R116): the entry's value, with the NCO reloaded at T. -/
def State.doSetfreq (s : State) (c w : Nat) (tm : Tim) : State :=
  let k := c / 8
  let u := bits w 39 34
  let i := bits w 9 0
  let p := s.punit k u
  let s1 := s.note c tm.eff (.unit (80 * k + u) p)
  (s1.setPunit k u { p.reload (s.freq k i) s.epoch tm.eff with fidx := i, lastEff := tm.eff }).notePhases k tm.eff

def execSetfreq (c : Fin 256) (s : State) : Host.Outcome State Fault Refusal :=
  .next (s.runWord c.val 0x08 (fun a w tm => a.doSetfreq c.val w tm))

/-- SETPHASE (R90, R123): PHASE in bits 31:4 of the frame. -/
def State.doSetphase (s : State) (c w : Nat) (tm : Tim) : State :=
  let k := c / 8
  let f := bits w 39 28
  let s1 := s.note c tm.eff (.frame k f (tm.eff / 8) (c % 8))
  (s1.frameOp k f (tm.eff / 8) (c % 8) true (BitVec.ofNat 32 (bits w 27 0 * 16))).notePhases k tm.eff

def execSetphase (c : Fin 256) (s : State) : Host.Outcome State Fault Refusal :=
  .next (s.runWord c.val 0x09 (fun a w tm => a.doSetphase c.val w tm))

/-- The report of a condition on an unmapped slot (R213). -/
def State.reportUnmapped (s : State) (c dba x : Nat) : State :=
  if (s.decView c dba x true).2 then (s.raise .decUnmapped 0 c x [wd dba]).invalid c x else s

/-- A condition not present at its cut-off x (R88, R89): deferred, or lost when one is pending. -/
def State.deferCond (s : State) (c w x : Nat) : State :=
  if (s.core c).defer.isSome then (s.raise .condLost c c x []).invalid c x
  else (s.setCore c { s.core c with defer := some { w := w, shot0 := (s.core c).shotStart } }).raise .condDeferred c c x []

/-- FRAMEADD (R87, R88, R123): the cut-off is that of the issue time, and the update is made at its effect. -/
def State.doFrameadd (s : State) (c w : Nat) (tm : Tim) : State :=
  let x := cutoff tm.t
  let s1 := if bits w 13 12 = 0 then s else s.reportUnmapped c (bits w 11 0) x
  match s1.faddAt c w (s1.core c).shotStart x with
  | .notPresent => s1.deferCond c w x
  | .fails => s1
  | .holds => (s1.note c tm.eff (.frame (c / 8) (bits w 39 28) (tm.eff / 8) (c % 8))).frameAdd c w tm.eff

def execFrameadd (c : Fin 256) (s : State) : Host.Outcome State Fault Refusal :=
  .next (s.runWord c.val 0x0A (fun a w tm => a.doFrameadd c.val w tm))

-- flow words

/-- BIGHT (R77, R78): with SHOT set its first iteration is a shot. -/
def State.afterBight (s : State) (c w t : Nat) : State :=
  if bit w 15 then s.setCore c ((s.core c).shotBight t) else s

def execBight (c : Fin 256) (s : State) : Host.Outcome State Fault Refusal :=
  .next (s.runFlow c.val 0x10 Core.bight (fun a _ w t => a.afterBight c.val w t))

/-- ENDBIGHT (R77, R78): the iteration's shot ends; the next one starts if iterations remain. -/
def State.afterEndbight (s : State) (c : Nat) (old : Core) (t : Nat) : State :=
  match old.bights with
  | [] => s
  | b :: r =>
    let s1 := s.endShots c r.length t
    if b.shot && b.count != 1 then s1.setCore c ((s1.core c).openShot ((s1.core c).shotNo + 1) t (r.length + 1)) else s1

def execEndbight (c : Fin 256) (s : State) : Host.Outcome State Fault Refusal :=
  .next (s.runFlow c.val 0x11 (fun x _ t => x.endbight t) (fun a old _ t => a.afterEndbight c.val old t))

def execCall (c : Fin 256) (s : State) : Host.Outcome State Fault Refusal :=
  .next (s.runFlow c.val 0x12 Core.call (fun a _ _ _ => a))

def execRet (c : Fin 256) (s : State) : Host.Outcome State Fault Refusal :=
  .next (s.runFlow c.val 0x13 (fun x _ t => x.ret t) (fun a _ _ _ => a))

/-- JUMP (R78, R79): bights popped end their shots at the branch point. -/
def execJump (c : Fin 256) (s : State) : Host.Outcome State Fault Refusal :=
  .next (s.runFlow c.val 0x14 (fun x w t => x.jumpTo (bits w 39 23) (bits w 22 20) t)
    (fun a _ _ t => a.endShots c.val (a.core c.val).bights.length t))

/-- JCOND (R85 to R89, R435): at the cut-off the condition decides; both paths have been prepared, the
fall-through path first. -/
def State.doJcond (s : State) (c w : Nat) (tm : Tim) : State :=
  let x := cutoff tm.t
  let s1 := s.reportUnmapped c (bits w 11 0) x
  let y := s1.core c
  let ps := (s1.queue (s1.streamQ c)).pkts
  let ft := s1.pathEnd c x y ps
  let tgt := match y.jcond w tm.t with
    | none => ft
    | some z => s1.pathEnd c x { z with busy := ft } ps
  let fall := fun (a : State) => a.setCore c { a.core c with prep := max (a.core c).prep tgt, prepCut := x }
  match s1.jcondAt c w y.shotStart x with
  | .notPresent => fall (s1.deferCond c w x)
  | .fails => fall s1
  | .holds =>
    match y.jcond w tm.t with
    | none => s1.coreFault .stackFault c (up8 (max x tm.mEnd))
    | some z => (s1.setCore c { z with busy := ft }).endShots c z.bights.length tm.t

def execJcond (c : Fin 256) (s : State) : Host.Outcome State Fault Refusal :=
  .next (s.runWord c.val 0x15 (fun a w tm => a.doJcond c.val w tm))

-- register rows

/-- SEQ_ARM: a SEQ_CTL write with ARM = 1 (R65). -/
def execSeqArm (t : BitVec 64) (c : Fin 256) (w : Word) (s : State) : Host.Outcome State Fault Refusal :=
  .next (s.strandWrite t (c.val / 8) (.seqCtl c.val) (setF w 0 0 1) (fun a x => a.wrSeqCtl c.val x))

/-- SEQ_HALT_WRITE: a SEQ_CTL write with HALT = 1 (R434). -/
def execSeqHaltWrite (t : BitVec 64) (c : Fin 256) (w : Word) (s : State) : Host.Outcome State Fault Refusal :=
  .next (s.strandWrite t (c.val / 8) (.seqCtl c.val) (setF w 1 1 1) (fun a x => a.wrSeqCtl c.val x))

/-- SWTRIG: a SEQ_CTL write with SWTRIG = 1 (R80). -/
def execSwtrig (t : BitVec 64) (c : Fin 256) (w : Word) (s : State) : Host.Outcome State Fault Refusal :=
  .next (s.strandWrite t (c.val / 8) (.seqCtl c.val) (setF w 2 2 1) (fun a x => a.wrSeqCtl c.val x))

end Sys2Proof.Machine
end

