-- ==== Sys2Proof/Machine/Play.lean ====
section
/-! DEFINITION. Playback and the outputs' commands (chapters 04 and 05): PLAY with its checks, stream
underruns, the head copy of HBM envelopes, AUTOMUTE, static and frame writes, predistortion commits, zone and
range changes, compliance faults and changes of ownership. -/

namespace Sys2Proof.Machine

-- PLAY

/-- Whether an envelope-table entry is unusable for unit u (R108). -/
def EnvEntry.bad (e : EnvEntry) (u : Nat) : Bool :=
  decide (e.len = 0) || (e.src == 0 && decide (1048576 < e.addr + e.len)) ||
  (e.src == 1 && (decide (2 ^ 33 < e.hbm + e.len) || decide (1048576 < e.addr + min e.len 8192))) ||
  (decide (64 ≤ u) && decide (e.k < 3))

/-- The draw of a segment on the envelope-read budget, in units of 1 GB/s (R109): 64 ÷ 2^k. -/
def EnvEntry.draw (e : EnvEntry) : Nat := if e.src = 2 then 0 else 64 / 2 ^ e.k

/-- Whether unit u's segment is reading queue qn at tick t (R313). -/
def State.queueRead (s : State) (qn k u t : Nat) : Bool :=
  match (s.queue qn).bound with
  | some (.core _) => true
  | some (.unit k' u') =>
    !(k'.val == k && u'.val == u) && (match (s.punit k'.val u'.val).seg with
      | some g => decide (g.start ≤ t) && decide (t < g.stop)
      | none => false)
  | none => false

/-- Samples of a streamed segment that are not read any more are discarded from its queue, and the reader
unbound (R94, R96, R313). -/
def State.abandon (s : State) (k u : Nat) (g : Seg) : State :=
  if g.src = 2 ∧ (s.queue g.addr).bound = some (.unit (Fin.ofNat 32 k) (Fin.ofNat 80 u)) then
    let q := s.queue g.addr
    let r := skipSamples (q.skip + (g.len - g.got.length)) q.pkts
    s.setQueue g.addr { q with pkts := r.2, skip := r.1, bound := none }
  else s

/-- An uncorrectable word of entry ei in the envelope table of strand k (R363). -/
def State.entryBad (s : State) (k ei : Nat) : Bool :=
  s.badWords.any (fun b => b.1 == .envTable (Fin.ofNat 32 k) && b.2 / 2 == ei)

/-- What a PLAY finds before its start (R94, R106, R108, R313): the envelope entry unusable, the head copy missing, the queue not
in its role, the queue being read. -/
structure PlayChk where
  entry : Bool
  ready : Bool
  role : Bool
  busy : Bool
  deriving DecidableEq, Repr

/-- Whether the segment plays zero. -/
def PlayChk.zero (x : PlayChk) : Bool := x.entry || x.ready || x.role || x.busy

/-- Whether the segment underruns from its first sample (R94, R106, R313). -/
def PlayChk.under (x : PlayChk) : Bool := x.ready || x.role || x.busy

/-- The checks of a PLAY of entry e on unit u at tick t. -/
def State.playChk (s : State) (k u ei : Nat) (e : EnvEntry) (t : Nat) : PlayChk :=
  let q := s.queue e.addr
  let ok := !(e.bad u || s.entryBad k ei)
  let role := ok && e.src == 2 && !(q.enabled && q.role == 3)
  { entry := !ok
    ready := ok && e.src == 1 && !e.ready
    role := role
    busy := ok && e.src == 2 && !role && s.queueRead e.addr k u t }

/-- The queue as a unit's segment finds it noted in the issue buffer (R76). -/
def State.noteQueue (s : State) (c t : Nat) (g : Seg) : State :=
  if g.src = 2 then
    let q := s.queue g.addr
    s.note c t (.queue g.addr q.pkts q.skip q.bound)
  else s

/-- The unit's earlier segment truncated by a new one at tick t (R96): it ends there for a deferral that samples it, and what is
left of it in its queue is discarded. -/
def State.truncate (s : State) (c k u t : Nat) : State :=
  let s1 := if 64 ≤ u then s.settleChain k (u - 64) t else s
  let s2 := s1.settleStream k u t
  match (s2.punit k u).seg with
  | some g => if t < g.stop then ((s2.noteQueue c t g).abandon k u g).cutDefer k u g.start t else s2
  | none => s2

/-- The intervals of a unit's earlier segments, oldest first, as a segment starts at tick t (R328): those that
ended more than 2 µs before are of no more use. -/
def PUnit.pastAt (p : PUnit) (t : Nat) : List (Nat × Nat) :=
  let old := p.past.filter (fun i => decide (t ≤ i.2 + 2 * us))
  match p.seg with
  | none => old
  | some g => old ++ [(g.start, min t g.endsAt)]

/-- A deferral that will be sampled at the segment's cut-off (R88, R435): for a deferred jump both paths past the PLAY are
prepared, the fall-through path first. -/
def State.deferSeg (s : State) (c u : Nat) (g : Seg) : State :=
  let x := s.core c
  match x.defer with
  | none => s
  | some d =>
    if wOp d.w = 0x15 then
      let ps := (s.queue (s.streamQ c)).pkts
      let cut := cutoff g.stop
      let ft := s.pathEnd c cut x ps
      let tgt := match x.jcond d.w g.stop with
        | none => ft
        | some z => s.pathEnd c cut { z with busy := ft } ps
      s.setCore c { x with prep := max x.prep tgt, prepCut := cut,
                           defer := some { d with ends := d.ends ++ [{ key := u, start := g.start, stop := g.stop, fall := ft }] } }
    else s.setCore c { x with defer := some { d with ends := d.ends ++ [{ key := u, start := g.start, stop := g.stop }] } }

/-- The segment placed on its unit (R105, R76, R88), e being its computed end (R69): the core's end of segment and a pending
deferral see it, and a streamed segment binds its queue (R313). -/
def State.placeSeg (s : State) (c u : Nat) (g : Seg) (e : Nat) : State :=
  let k := c / 8
  let s1 := s.setPunit k u { s.punit k u with seg := some g, lastEff := g.stop, past := (s.punit k u).pastAt g.start }
  let s2 := (s1.setCore c { s1.core c with ePrev := e }).deferSeg c u g
  if g.src == 2 && !g.zero then
    s2.setQueue g.addr { s2.queue g.addr with bound := some (.unit (Fin.ofNat 32 k) (Fin.ofNat 80 u)) }
  else s2

/-- The events of what a PLAY finds, each invalidating the shot (R94, R108, R313). -/
def State.playEvents (s : State) (c u qn t : Nat) (x : PlayChk) : State :=
  let s1 := if x.entry then (s.raise .envMismatch (c / 8) c t [wd 0]).invalid c t else s
  let s2 := if x.role then s1.raise .qmReader 0 qn t [wd 1] else
            if x.busy then s1.raise .qmReader 0 qn t [wd 0] else s1
  if x.under then s2.underrunAt c u t else s2

/-- A forced or quiet step on converter x meets the ticks from a to b (R343, R345). -/
def State.meetsStep (s : State) (x a b : Nat) : Bool :=
  match (s.conv x).step with
  | some g => (g.kind == .forced || g.kind == .quiet) && decide (a < g.stop) && decide (g.start < b)
  | none => false

/-- PLAY (R96, R105 to R109, R113, R117, R141, R149): the entry is read once; the unit's earlier segment is
truncated; an unusable entry plays zero; a missing head copy or a queue that cannot be read underruns from the first sample; the
output becomes live. Its draw and carrier are checked at its start (`State.judge`). -/
def State.doPlay (s : State) (c : Nat) (chk : Bool) (w : Nat) (tm : Tim) : State :=
  let k := c / 8
  let u := bits w 39 33
  let ei := bits w 32 21
  let e := s.env k ei
  let t := tm.eff
  let o := unitOut u
  let s0 := (s.note c t (.unit (80 * k + u) (s.punit k u))).note c t (.out (22 * k + o) (s.out k o))
  let s1 := s0.truncate c k u t
  let x := s1.playChk k u ei e t
  let g : Seg := { start := t, stop := t + e.len * 2 ^ e.k, env := ei, src := e.src, k := e.k, len := e.len,
                   addr := e.addr, hbm := e.hbm, gain := bits w 20 5, core := c, zero := x.zero, check := true,
                   draw := if x.entry then 0 else e.draw }
  let s2 := (((s1.noteQueue c t g).placeSeg c u g (tm.t + e.len * 2 ^ e.k)).playEvents c u e.addr t x).goLive k o t
  let s3 := if s2.meetsStep (outConv k o) t (t + e.len * 2 ^ e.k) then s2.invalid c t else s2
  let s4 := if chk then s3.dpathCheck c u t else s3
  if s4.entryBad k ei then s4.sramUe (.envTable (Fin.ofNat 32 k)) (2 * ei) t else s4

def execPlay (c : Fin 256) (chk : Bool) (s : State) : Host.Outcome State Fault Refusal :=
  .next (s.runWord c.val 0x04 (fun a w tm => a.doPlay c.val chk w tm))

-- stream underruns

/-- A reader of queue qn that stands at an uncorrectable codeword reports it (R311, R359). -/
def State.streamUe (s : State) (qn t : Nat) : State :=
  match (s.queue qn).pkts with
  | [] => s
  | p :: _ =>
    match (if s.mem.poison.isEmpty then none else s.hurt qn p) with
    | some i =>
      if i < (if p.taken = 0 then 8 else p.taken) + 8 then
        s.memUe ((s.queue qn).base + (Config.packetAt qn p.first p.bytes.length + i) % (s.queue qn).size) t
      else s
    | none => s

/-- The first absent sample of a streamed segment as its read points go by (R310): its index, once every
sample before it has been read. -/
def State.underrunStream (s : State) (k u : Nat) : State :=
  match ((s.settleStream k u (2 ^ 64)).punit k u).seg with
  | none => s
  | some g0 =>
    let t := g0.start + g0.got.length * 2 ^ g0.k
    let s1 := (s.toTime (t - 384)).settleStream k u (2 ^ 64)
    if (s1.punit k u).seg ≠ some g0 then s else
    let q := s1.queue g0.addr
    if g0.src ≠ 2 ∨ g0.zero = true ∨ g0.ramp.isSome ∨ g0.held.isSome ∨ g0.len ≤ g0.got.length ∨ g0.stop ≤ t ∨
        q.bound ≠ some (.unit (Fin.ofNat 32 k) (Fin.ofNat 80 u)) then s else
    let g := s1.underSeg k u g0 t
    let rd := streamRead (s1.hurtFrom g0.addr) 1 4 (t - 384) q.pkts
    let s2 := s1.setPunit k u { s1.punit k u with seg := some g }
    let s3 := (if rd.2.2 then s2.setQueue g0.addr { q with pkts := rd.2.1 } else s2).qUnder g0.addr
    let s4 := (if rd.2.2 then s3.raise .qmCheck 0 g0.addr (t - 384) [] else s3).streamUe g0.addr (t - 384)
    (s4.abandon k u g).underrunAt g0.core u t

/-- The first sample past the head copy of an HBM envelope that is not there when it is read (R106, R366): its read point falls
into a retraining of the ply's link, or the ply's streams ask for more than their share (R24). -/
def State.lateSample (s : State) (k u : Nat) (g : Seg) : Option Nat :=
  ((List.range (g.len - 8192)).find? (fun i =>
    let rp := g.start + (8192 + i) * 2 ^ g.k - 384
    decide (s.readPoint (k / 8) (32768 + 80 * k + u) rp < rp))).map (8192 + ·)

/-- Samples of an HBM envelope come late (R94, R106, R133). -/
def State.underrunHbm (s : State) (k u : Nat) : State :=
  match (s.punit k u).seg with
  | none => s
  | some g =>
    if g.src ≠ 1 ∨ g.zero = true ∨ g.ramp.isSome ∨ g.held.isSome then s else
    match s.lateSample k u g with
    | none => s
    | some j =>
      let t := g.start + j * 2 ^ g.k
      let s1 := s.toTime (t - 384)
      if (s1.punit k u).seg ≠ some g then s else
      (s1.setPunit k u { s1.punit k u with seg := some (s1.underSeg k u g t) }).underrunAt g.core u t

/-- STREAM_UNDERRUN of a unit (R94, R106). -/
def State.underrunUnit (s : State) (k u : Nat) : State :=
  match (s.punit k u).seg with
  | none => s
  | some g => if g.src = 2 then s.underrunStream k u else s.underrunHbm k u

/-- A core's word stream ran dry (R93, R311, R312): the word is not executed, and the core faults. -/
def State.underrunCore (s : State) (c : Nat) : State :=
  let a := s.readyFor c
  let x := a.core c
  if x.st ≠ .running ∨ !x.inStream ∨ (a.fetch c).1 ≠ .absent ∨ a.coreMay c x.busy = false then s else
  let qn := a.streamQ c
  let s1 := a.clockTo x.busy
  let kindBad := match streamRead (s1.hurtFrom qn) 2 8 x.busy (s1.queue qn).pkts with | (_, _, b) => b
  let s2 := (s1.qUnder qn).setQueue qn { s1.queue qn with pkts := (a.fetch c).2 }
  let s3 := if kindBad then s2.raise .qmCheck 0 qn (up8 x.busy) [] else s2
  ((s3.streamUe qn (up8 x.busy)).raise .streamUnderrun c c (up8 x.busy) [wd 0]).faultCore c (up8 x.busy)

def execStreamUnderrun (r : StreamReader) (s : State) : Host.Outcome State Fault Refusal :=
  .next (match r with
    | .unit k u => s.underrunUnit k.val u.val
    | .core c => s.underrunCore c.val)

-- head copies

/-- HBM_HEAD_COPY_DONE (R106): the first min(LENGTH, 8,192) samples are in the envelope SRAM, READY is 1. -/
def State.headCopy (s : State) (k ei : Nat) : State :=
  let e := s.env k ei
  let n := min e.len 8192
  if e.src ≠ 1 ∨ e.ready = true ∨ 1048576 < e.addr + n ∨ e.len = 0 then s else
  let bs := Mem.reads s.hbm (4 * e.hbm) (4 * n)
  let a := 65536 * k + 16 * ei + 3
  let s1 := s.freezeEnv k
  { s1 with envSram := Mem.writes s.envSram (2 ^ 22 * k + 4 * e.addr) bs,
            envTab := Mem.write s.envTab a (Mem.read s.envTab a ||| 4) }

def execHbmHeadCopyDone (t : BitVec 64) (k : Fin 32) (e : Fin 4096) (s : State) : Host.Outcome State Fault Refusal :=
  .next ((s.upTo t).headCopy k.val e.val)

-- AUTOMUTE

/-- The last tick at which a segment on one of an output's tones has played (R144). -/
def State.lastPlayed (s : State) (k o : Nat) : Nat :=
  maxOf (s.out k o).liveFrom ((outUnits o).map (fun u => match (s.punit k u).seg with | some g => g.stop | none => 0))

/-- AUTOMUTE_CLOSE (R144): 16,000 ticks after the last segment the mute closes, and the output stays live. -/
def State.automute (s : State) (k o : Nat) : State :=
  let a := s.toTime (s.lastPlayed k o + 16000)
  let x := a.out k o
  if x.live = true ∧ x.muted = false ∧ a.fld (.outRfOut k o) 5 5 = 1 ∧ a.lastPlayed k o = s.lastPlayed k o then
    a.setOut k o { x with muted := true, muteAt := s.lastPlayed k o + 16000 }
  else s

def execAutomuteClose (k : Fin 32) (o : Fin 6) (s : State) : Host.Outcome State Fault Refusal :=
  .next (s.automute k.val o.val)

-- static levels and frames

/-- A write of OUT_STATIC (R40, R141, R145): in RUN it is on its way to the connector, which it reaches 512 ticks after the
boundary; in every other mode the level is stored, and in HOLD a live channel carries the level in force until it resumes
(R40, R47). -/
def State.wrStatic (s : State) (k c : Nat) (w : Word) : State :=
  let x := s.out k (6 + c)
  let lvl := getF w 15 0
  let valid := x.staticValid || s.outEnabled k (6 + c)
  if s.mode.mode = .run then
    s.setOut k (6 + c) { x with statics := x.statics ++ [(up8 s.now + 512, lvl)], staticValid := valid }
  else
    let held := if s.mode.mode = .hold ∧ x.live = true ∧ x.heldLvl.isNone = true then some (s.fld (.outStatic k c) 15 0) else x.heldLvl
    (s.setOut k (6 + c) { x with heldLvl := held, staticValid := valid, steps := [] }).setFld (.outStatic k c) 15 0 lvl

def execStaticWrite (t : BitVec 64) (k : Fin 32) (c : Fin 16) (w : Word) (s : State) : Host.Outcome State Fault Refusal :=
  .next (s.strandWrite t k.val (.outStatic k.val c.val) w (fun a x => a.wrStatic k.val c.val x))

/-- A host write of a frame (R122, R124): it takes effect at the first boundary at least 40 ns after it arrives, after the
words of that fabric cycle; a strand that is not ungated takes it in retention at once. -/
def State.wrFrame (s : State) (k f : Nat) (w : Word) : State :=
  if (s.strand k).gate = .ungated then { s with frameW := s.frameW ++ [(up8 (s.now + 640), k, f, w)] }
  else ((s.settleFrames (fun j => j == k) (2 ^ 64)).frameOp k f (s.now / 8) 8 true w).notePhases k s.now

def execFrameWrite (t : BitVec 64) (k : Fin 32) (f : Fin 4096) (w : Word) (s : State) : Host.Outcome State Fault Refusal :=
  .next (s.blockWrite t (.outFrame k.val f.val) (fun a => a.toTable k.val (.outFrame k.val f.val) w (fun b x => b.wrFrame k.val f.val x)))

-- OUT_RFCTL and OUT_BBCTL

/-- The shadow coefficients of a channel copied to its active set at the next boundary (R128). -/
def State.pdCommit (s : State) (k c : Nat) : State := (s.settleChain k c (next8 s.now)).copyCoef k c

/-- OUT_RFCTL written (R134, R135): a write that changes ZONE is held while a core that owns a tone of the
output is RUNNING or WAITING, with its PROFILE; DLYTRIM takes effect at once; a write that carries the ZONE in
force withdraws a held one. -/
def State.wrRfCtl (s : State) (k o : Nat) (w : Word) : State :=
  let r := RegId.outRfCtl k o
  let new := (s.writeFields r w).reg r
  if getF new 1 0 = s.fld r 1 0 then (s.writeFields r w).unhold r
  else if s.anyActive k (outUnits o) then (s.setFld r 12 8 (getF w 12 8)).hold r w
  else (s.writeFields r w).unhold r

/-- OUT_BBCTL written (R128, R134, R135): as for OUT_RFCTL with IIREN and FIREN; COMMIT takes effect at once. -/
def State.wrBbCtl (s : State) (k c : Nat) (w : Word) : State :=
  let r := RegId.outBbCtl k c
  let new := (s.writeFields r w).reg r
  let s0 := s.settleChain k c (next8 s.now)
  let s1 := if getF new 4 0 = s.fld r 4 0 then (s0.writeFields r w).unhold r
    else if s.anyActive k [64 + c] then (s0.setFld r 12 8 (getF w 12 8)).hold r w
    else (s0.writeFields r w).unhold r
  if getF w 17 17 = 1 then s1.pdCommit k c else s1

/-- PD_COMMIT: an OUT_BBCTL write with COMMIT = 1 (R128). -/
def execPdCommit (t : BitVec 64) (k : Fin 32) (c : Fin 16) (w : Word) (s : State) : Host.Outcome State Fault Refusal :=
  .next (s.strandWrite t k.val (.outBbCtl k.val c.val) (setF w 17 17 1) (fun a x => a.wrBbCtl k.val c.val x))

/-- OUT_RFCTL or OUT_BBCTL of an output. -/
def ctlReg : OutId → RegId
  | .rf k i => .outRfCtl k.val i.val
  | .bb k c => .outBbCtl k.val c.val

def State.wrOutCtl (s : State) (o : OutId) (w : Word) : State :=
  match o with
  | .rf k i => s.wrRfCtl k.val i.val w
  | .bb k c => s.wrBbCtl k.val c.val w

def execZoneWrite (t : BitVec 64) (o : OutId) (w : Word) (s : State) : Host.Outcome State Fault Refusal :=
  .next (s.strandWrite t (outLocal o).1 (ctlReg o) w (fun a x => a.wrOutCtl o x))

-- OUT_RFOUT and OUT_BBOUT

/-- A range change acts at boundary t0 (R147): zero code, chain states and STATICVALID cleared, RANGING. -/
def State.startRange (s : State) (k o new t0 : Nat) : State :=
  let s1 := (s.calAbort (outConv k o)).goHeld k o t0 true true
  s1.setOut k o { s1.out k o with ranging := some t0, newRange := new, rangePend := false }

/-- The RANGE a write of OUT_RFOUT or OUT_BBOUT carries, to act at boundary b (R147, R148): the RANGE in force, or the one that
is being switched to, changes nothing and withdraws a held write; another is held while the owners run, and else acts, from the
start again where a change is in progress (notes/assumptions/74). -/
def State.wrRange (s : State) (k o new : Nat) (w : Word) (b : Nat) : State :=
  let r := outReg k o
  let x := s.out k o
  if new = s.fld r 3 2 ∨ (x.ranging.isSome ∧ new = x.newRange) then (s.unhold r).setOut k o { x with rangePend := false }
  else if s.anyActive k (outUnits o) then (s.hold r w).setOut k o { x with rangePend := true }
  else (s.unhold r).startRange k o new b

/-- COMPLY of a baseband channel cleared; the hub keeps it through gating (R152, R421). -/
def State.clearComply (s : State) (k c : Nat) : State := s.setOut k (6 + c) { s.out k (6 + c) with comply := false }

/-- OUT_RFOUT or OUT_BBOUT written (R144, R147, R148, R155): ENABLE, RANGE, AUTOMUTE, COMPLYFILT; a change of RANGE acts at
boundary b. -/
def State.wrOut (s : State) (k o : Nat) (w : Word) (b : Nat) : State :=
  let r := outReg k o
  let was := s.outEnabled k o
  let rng := s.fld r 3 2
  let s1 := (s.setReg r (r.mergeX (s.reg r) w)).setFld r 3 2 rng
  let s2 := if o < 6 ∧ getF w 5 5 = 0 ∧ (s1.out k o).live then s1.setOut k o ((s1.out k o).unmute (up8 s1.now)) else s1
  (s2.wrRange k o (getF w 3 2) w b).outEnable k o was (decide (getF w 0 0 = 1))

def execRangeWrite (t : BitVec 64) (o : OutId) (w : Word) (s : State) : Host.Outcome State Fault Refusal :=
  .next (s.strandWrite t (outLocal o).1 (outReg (outLocal o).1 (outLocal o).2) w (fun a x => a.wrOut (outLocal o).1 (outLocal o).2 x (up8 a.now)))

/-- COMPLY_CLEAR: an OUT_BBOUT write with 1 to COMPLY (R152). -/
def execComplyClear (t : BitVec 64) (k : Fin 32) (c : Fin 16) (w : Word) (s : State) : Host.Outcome State Fault Refusal :=
  .next (s.blockWrite t (.outBbOut k.val c.val) (fun a => (a.clearComply k.val c.val).toStrand k.val (.outBbOut k.val c.val) (setF w 9 9 0)
    (fun b x => b.wrOut k.val (6 + c.val) x (up8 b.now))))

/-- RANGE_SETTLED (R147): 25,600 ticks after t0 the new range is in force; the output stays held. -/
def State.rangeSettled (s : State) (k o : Nat) : State :=
  match (s.out k o).ranging with
  | none => s
  | some t0 =>
    let s1 := s.toTime (t0 + 25600)
    let s2 := s1.setFld (outReg k o) 3 2 (s1.out k o).newRange
    let s3 := s2.setOut k o { s2.out k o with ranging := none }
    s3.dueIfOld (outConv k o) s3.now

def execRangeSettled (o : OutId) (s : State) : Host.Outcome State Fault Refusal :=
  .next (s.rangeSettled (outLocal o).1 (outLocal o).2)

-- compliance

/-- OUT_COMPLY (R150, R151): once a live channel's voltage has been at the threshold for COMPLYFILT × 64 ns, at the next boundary
the channel is held, COMPLY set, the event raised, the shot on the owning core invalid. `since` is the first sample of the
present run of samples at the threshold; those before the channel became live do not count. -/
def State.outComply (s : State) (k c since : Nat) (openLine : Bool) : State :=
  let x := s.out k (6 + c)
  let d := up8 (max since x.liveFrom) + 1024 * s.fld (.outBbOut k c) 31 24
  if x.live = false ∨ x.comply = true ∨ s.now < d then s else
  let b := next8 s.now
  let s1 := s.goHeld k (6 + c) b true false
  let s2 := s1.setOut k (6 + c) { s1.out k (6 + c) with comply := true, openLine := openLine }
  let core := 8 * k + s2.owner k (64 + c)
  (s2.raise .outComply k (16 * k + c) b [wd (b2n openLine)]).invalid core b

def execOutComply (t : BitVec 64) (k : Fin 32) (c : Fin 16) (v : OverVoltage) (s : State) :
    Host.Outcome State Fault Refusal :=
  .next ((s.upTo t).outComply k.val c.val v.since.toNat v.openLine)

-- ownership

/-- SEQ_OWN written (R62): held while the old or the new owner is RUNNING or WAITING; a write that carries the
owner in force withdraws a held one and takes effect at once. -/
def State.wrOwn (s : State) (k u : Nat) (w : Word) : State :=
  let r := RegId.seqOwn k u
  let new := getF w 2 0
  let busy := (s.core (8 * k + s.owner k u)).active || (s.core (8 * k + new)).active
  if new ≠ s.owner k u ∧ busy then s.hold r w else (s.unhold r).setReg r (r.mergeX (s.reg r) w)

def execSeqOwnWrite (t : BitVec 64) (k : Fin 32) (u : Fin 80) (w : Word) (s : State) : Host.Outcome State Fault Refusal :=
  .next (s.strandWrite t k.val (.seqOwn k.val u.val) w (fun a x => a.wrOwn k.val u.val x))

end Sys2Proof.Machine
end

