-- ==== Sys2Proof/Machine/Acquire.lean ====
section
/-! DEFINITION. Read-out acquisition and discrimination (chapters 06 and 07): band and attenuator changes, the
ACQ word, the completion of a window with its integral, state, slot write and result packet, raw captures and
the commit of discrimination boundaries. -/

namespace Sys2Proof.Machine

-- ACQ_INCTL

/-- A BAND or ATTEN change acts at boundary b (R160, R339, R347): settling, an abandoned step, and the pair due
if the band now in force was calibrated too long ago. -/
def State.startSettle (s : State) (k i b : Nat) : State :=
  let s1 := s.calAbort (inConv k i)
  (s1.setInp k i { s1.inp k i with settle := some b }).dueIfOld (inConv k i) b

/-- ACQ_INCTL written, a change of BAND or ATTEN to act at boundary b (R160, R182, R347): such a change is held, with PROFILE,
while an owner runs; ENABLE takes effect at once; the BAND and ATTEN in force withdraw a held write. -/
def State.wrInCtl (s : State) (k i : Nat) (w : Word) (b : Nat) : State :=
  let r := RegId.acqInCtl k i
  let was := decide (s.fld r 0 0 = 1)
  let on := decide (getF w 0 0 = 1)
  let new := (s.writeFields r w).reg r
  let s1 :=
    if getF new 2 1 = s.fld r 2 1 ∧ getF new 11 8 = s.fld r 11 8 then (s.writeFields r w).unhold r
    else if s.anyActive k (outUnits (4 + i)) then (s.setFld r 0 0 (getF w 0 0)).hold r w
    else ((s.writeFields r w).unhold r).startSettle k i b
  let s2 := if was && !on then s1.calAbort (inConv k i) else s1
  s2.plainEnable k was on

def execInputConfigWrite (t : BitVec 64) (k : Fin 32) (i : Fin 2) (w : Word) (s : State) :
    Host.Outcome State Fault Refusal :=
  .next (s.strandWrite t k.val (.acqInCtl k.val i.val) w (fun a x => a.wrInCtl k.val i.val x (up8 a.now)))

/-- BAND_SETTLED (R160): 2 µs after its boundary. -/
def State.bandSettled (s : State) (k i : Nat) : State :=
  match (s.inp k i).settle with
  | none => s
  | some b => let s1 := s.toTime (b + 2 * us); s1.setInp k i { s1.inp k i with settle := none }

def execBandSettled (k : Fin 32) (i : Fin 2) (s : State) : Host.Outcome State Fault Refusal :=
  .next (s.bandSettled k.val i.val)

-- ACQ

/-- The update stamp T_end' of a window (R166). -/
def Win.stamp (w : Win) : Nat := up8 (adcTick w.me)

/-- An ACQ closes the tone's earlier window at its own start sample (R173): WIN_OVERLAP, the shot invalid. -/
def State.overlap (s : State) (c r tag t ms : Nat) : State :=
  let k := c / 8
  match (s.rtone k r).wins.getLast? with
  | none => s
  | some v =>
    if v.me ≤ ms then s else
    let v' := { v with me := max v.ms ms, trunc := true }
    let s1 := s.setRtone k r { s.rtone k r with wins := (s.rtone k r).wins.dropLast ++ [v'] }
    (s1.raise .winOverlap k (32 * k + r) t [wd v.tag, wd tag]).invalid c t

/-- Length of a raw packet of n samples (R178). -/
def rawLen (n : Nat) : Nat := 36 + 2 * n + 2 * (n % 2)

/-- The packet of a raw capture reserved in its queue at its first word (R175, R304, R305): the queue, if a
packet was reserved. -/
def State.rawReserve (s : State) (k i len t : Nat) : State × Option Nat :=
  let qn := s.fld (.acqRawQ k i) 14 0
  let q := s.queue qn
  if s.inRole qn 4 = false then (s, none) else
  if q.content = 1 ∨ q.size < 2 * rawLen len ∨ q.room (rawLen len) = false then (s.dropPacket qn, none) else
  ((s.setQueue qn { q with content := 2 }).pushPacket qn
    { bytes := List.replicate (rawLen len) 0, first := t, vis := none, src := some (2 * k + i) }, some qn)

/-- A RAW request of a window on tone r (R175, R176): the capture takes the input's buffer, or is refused. -/
def State.rawStart (s : State) (k r : Nat) (v : Win) : State × Win :=
  match (s.inp k v.inp).rawBusy with
  | none =>
    let p := s.rawReserve k v.inp v.len v.eff
    (p.1.setInp k v.inp { p.1.inp k v.inp with rawBusy := some v.eff, rawWin := some (r, v), rawQ := p.2 }, v)
  | some _ =>
    ((s.bump (.acqRawLost k v.inp) 1).raise .rawLost k (2 * k + v.inp) v.eff [wd (32 * k + r), wd v.tag],
     { v with rawLost := true })

/-- The window put on its tone, with its raw capture if it asks for one; from here on the phases of the tone are followed (R163). -/
def State.openWin (s : State) (k r : Nat) (v : Win) : State :=
  let p := if v.raw then s.rawStart k r v else (s, v)
  let y := p.1.rtone k r
  p.1.setRtone k r { y with wins := y.wins ++ [p.2], phases := if y.phases.isEmpty then [s.phaseNow k r 0] else y.phases }

/-- The window that an ACQ word w of core c opens, which carries its issue time and starts at its effect (R69, R165, R166,
R170). -/
def State.newWin (s : State) (c w : Nat) (tm : Tim) : Win :=
  let k := c / 8
  let r := bits w 39 35
  let len := if bits w 34 19 = 0 then 65536 else bits w 34 19
  let sh := match (s.core c).curShot with | some x => (x.uid, x.no) | none => ((s.core c).uids, (s.core c).shotNo)
  { core := c, shot := sh.1, shotNo := sh.2, tag := bits w 15 0, t := tm.t, eff := tm.eff, check := true,
    ms := adcAt tm.eff, me := adcAt tm.eff + len, len := len, raw := bit w 18, result := bit w 17, decide := bit w 16,
    kmode := decide (s.fld (.acqToneCtl k r) 0 0 = 1), shift := s.fld (.acqToneCtl k r) 5 3, inp := r / 16 }

/-- The core's and the unit's record of a window just opened (R195, R340). -/
def State.noteWin (s : State) (c r : Nat) (v : Win) (e : Nat) : State :=
  let k := c / 8
  let s1 := s.setCore c { s.core c with ePrev := e }
  let s2 := s1.setPunit k (32 + r) { s1.punit k (32 + r) with lastEff := max (s1.punit k (32 + r)).lastEff (adcTick v.me) }
  let s3 := if v.result then s2.setCore c ((s2.core c).modShot v.shot (fun x => { x with openW := x.openW + 1 })) else s2
  if v.result then s3.note c v.eff (.window c v.shot) else s3

/-- What an ACQ of core c on tone r changes noted in the issue buffer (R76): the tone, its input, and its raw queue. -/
def State.noteAcq (s : State) (c r t : Nat) : State :=
  let k := c / 8
  let i := r / 16
  let qn := s.fld (.acqRawQ k i) 14 0
  let q := s.queue qn
  ((s.note c t (.tone (32 * k + r) (s.rtone k r))).note c t (.inp (2 * k + i) (s.inp k i))).note c t (.queue qn q.pkts q.skip q.bound)

/-- ACQ (R165, R170, R173 to R176): the window opens; an earlier one of the tone is truncated. Whether it can be taken is checked
at its start (`State.checkWins`). `chk`: a parity or residue check on its signal path fails (R367). -/
def State.doAcq (s : State) (c : Nat) (chk : Bool) (w : Nat) (tm : Tim) : State :=
  let k := c / 8
  let r := bits w 39 35
  let t := tm.eff
  let s1 := (s.noteAcq c r t).overlap c r (bits w 15 0) t (adcAt t)
  let v := s1.newWin c w tm
  let s2 := (s1.openWin k r v).noteWin c r v (adcTick (adcAt tm.t + v.len))
  if chk then s2.dpathCheck c (32 + r) t else s2

def execAcq (c : Fin 256) (chk : Bool) (s : State) : Host.Outcome State Fault Refusal :=
  .next (s.runWord c.val 0x05 (fun a w tm => a.doAcq c.val chk w tm))

-- over-range

/-- A run [a, b) of flagged samples united with rising, disjoint runs (R171). -/
def addRun (a b : Nat) : List (Nat × Nat) → List (Nat × Nat)
  | [] => [(a, b)]
  | (x, y) :: r =>
    if b < x then (a, b) :: (x, y) :: r
    else if y < a then (x, y) :: addRun a b r
    else addRun (min a x) (max b y) r

/-- Samples in a list of disjoint runs. -/
def runTotal (l : List (Nat × Nat)) : Nat := (l.map (fun p => p.2 - p.1)).foldl (· + ·) 0

/-- Clipped ADC samples of an input: each flags itself and the 60 samples after it, and newly flagged samples
are counted (R171). -/
def State.addClips (s : State) (k i : Nat) (clips : List Nat) : State :=
  let y := s.inp k i
  let runs := clips.foldl (fun l m => addRun m (m + 61) l) y.flagRuns
  (s.bump (.acqOvrCnt k i) (runTotal runs - runTotal y.flagRuns)).setInp k i { y with flagRuns := runs }

/-- Whether a sample from a to b - 1 of an input carries the flag (R172). -/
def State.flagged (s : State) (k i a b : Nat) : Bool :=
  (s.inp k i).flagRuns.any (fun p => decide (p.1 < b) && decide (a < p.2))

/-- The filter reach of a window, samples a to b - 1 (R172). -/
def Win.reach (w : Win) : Nat × Nat := (w.ms - 96, w.me + 95)

/-- The pair was offline for a calibration step during the filter reach (R174, R344). -/
def State.offlineIn (s : State) (k : Nat) (w : Win) : Bool :=
  let a := adcTick w.reach.1
  let b := adcTick w.reach.2
  (s.inp k w.inp).calOff.any (fun p => decide (p.1 < b) && (match p.2 with | none => true | some e => decide (a < e)))

-- down-conversion

/-- The phase of a read-out tone in force at the instant of ADC sample m (R119, R163): a change at tick T applies to the samples
at T or later. -/
def Rtone.phaseAt (y : Rtone) (m : Nat) : Option Phase :=
  match y.phases.find? (fun p => decide (5 * p.at' ≤ 8 * m)) with
  | some p => some p
  | none => y.phases.getLast?

/-- theta of a phase at ADC sample m, in units of 2^-32 turn (R163). -/
def Phase.theta (p : Phase) (m : Nat) : Nat :=
  let d := (8 * m + 5 * 2 ^ 64 - 5 * (p.epoch % 2 ^ 64)) % (5 * 2 ^ 64)
  ((p.ftw * d / 5) % 2 ^ 48 / 2 ^ 16 + p.ofs) % 2 ^ 32

/-- The phase of read-out tone r of strand k at ADC sample m (R119, R163). -/
def State.thetaAdc (s : State) (k r m : Nat) : Nat :=
  match (s.rtone k r).phaseAt m with
  | some p => p.theta m
  | none => (s.phaseNow k r 0).theta m

/-- The code of an ADC sample, limited to full scale, and whether it was beyond (R171). -/
def adcCode (x : Int) : Int := max (-2048) (min 2047 x)
def adcClipped (x : Int) : Bool := decide (adcCode x ≠ x)

/-- ADC sample m times the reference e^(-j theta), real and imaginary, in units of 2^-28 (R163). -/
def State.mixed (s : State) (k r m : Nat) (x : Int) : Int × Int :=
  let th := phaseTop (s.thetaAdc k r m)
  (adcCode x * Config.cosine th, -(adcCode x * Config.sine th))

/-- The mixed samples from ADC sample m on. -/
def State.mixAll (s : State) (k r : Nat) : Nat → List Int → List (Int × Int)
  | _, [] => []
  | m, x :: l => s.mixed k r m x :: State.mixAll s k r (m + 1) l

/-- The channel filter's value over the 192 samples that a list begins with, in units of 2^-58 (R164). -/
def chanOut (zs : List (Int × Int)) : Int × Int :=
  ((zs.take 192).zipIdx).foldl (fun a z => (a.1 + Config.chanTap z.2 * z.1.1, a.2 + Config.chanTap z.2 * z.1.2)) (0, 0)

/-- The sum of n values of the filter from the start of a list on (R164). -/
def chanSum : Nat → List (Int × Int) → Int × Int
  | 0, _ => (0, 0)
  | n + 1, zs =>
    let y := chanOut zs
    let r := chanSum n zs.tail
    (y.1 + r.1, y.2 + r.2)

/-- The block sums Y_k of n samples of a window, 16 samples each, the last one shorter where they do not come out even (R164,
R168); `b` bounds the number of blocks. -/
def blockSums : Nat → Nat → List (Int × Int) → List (Int × Int)
  | 0, _, _ => []
  | b + 1, n, zs => if n = 0 then [] else chanSum (min n 16) zs :: blockSums b (n - 16) (zs.drop 16)

/-- The block sums of a window on tone r of strand k from the samples of its filter reach, in units of 2^-58 (R163, R164); past
the end of the list the input counts as zero. -/
def State.downConvert (s : State) (k r : Nat) (v : Win) (xs : List Int) : List (Int × Int) :=
  blockSums ((v.me - v.ms + 15) / 16) (v.me - v.ms) (s.mixAll k r (v.ms - 96) xs)

/-- The samples of a list, counted from ADC sample m, that are beyond full scale (R171). -/
def clipsOf (m : Nat) (xs : List Int) : List Nat := (xs.zipIdx.filter (fun x => adcClipped x.1)).map (fun x => m + x.2)

-- the integral

/-- Weight n of the kernel of tone r of strand k; one in an uncorrectable word is zero (R170, R363). -/
def State.kernelW (s : State) (k r n : Nat) : Nat :=
  if s.badWords.any (fun b => b.1 == .kernelMem (Fin.ofNat 32 k) && b.2 == (4096 * r + n) / 2) then 0
  else Mem.num s.kernel (4 * (4096 * (32 * k + r) + n)) 4

/-- The weight of block n of a window, real and imaginary, in units of 2^-15 (R168, R170). -/
def State.weight (s : State) (k r : Nat) (v : Win) (n : Nat) : Int × Int :=
  if v.kmode then
    let w := match v.frozen[n]? with | some w => w | none => s.kernelW k r n
    (sext 16 w, sext 16 (w / 65536))
  else (32767, 0)

/-- The integral V over the block sums ys, given in units of 2^-58, in units of 2^-73 (R168). -/
def State.integral (s : State) (k r : Nat) (v : Win) : Nat → List (Int × Int) → Int × Int
  | _, [] => (0, 0)
  | n, y :: r' =>
    if v.me ≤ v.ms + 16 * n then (0, 0) else
    let w := s.weight k r v n
    let z := State.integral s k r v (n + 1) r'
    (w.1 * y.1 - w.2 * y.2 + z.1, w.1 * y.2 + w.2 * y.1 + z.2)

/-- A reported component and whether it saturates (R169): round(V × 2^(15 - SHIFT)), limited to 32 bits. -/
def report (v : Int) (shift : Nat) : Int × Bool :=
  let x := rndNear v (2 ^ (58 + shift))
  (satI 32 x, decide (satI 32 x ≠ x))

-- discrimination

/-- s_k of line n of a set at a point (R183). -/
def Disc.side (d : Disc) (n : Nat) (i q : Int) : Nat :=
  let ab := (d.ab[n]?).getD 0
  b2n (decide (0 ≤ sext 16 ab * i + sext 16 (ab / 65536) * q + sext 48 ((d.c[n]?).getD 0)))

/-- DSTATE of a point (R184). -/
def Disc.dstate (d : Disc) (i q : Int) : Nat :=
  let j := 4 * d.side 2 i q + 2 * d.side 1 i q + d.side 0 i q
  bits d.map (2 * j + 1) (2 * j)

/-- The active set of tone r in force at boundary b (R187, R188). -/
def State.discAt (s : State) (k r b : Nat) : Disc :=
  ((s.rtone k r).disc.find? (fun d => decide (d.from' ≤ b))).getD {}

/-- The window flags of R179. -/
structure WFlags where
  ovr : Bool
  sat : Bool
  cal : Bool
  deriving DecidableEq, Repr

/-- STATE from DSTATE and the window flags (R186). -/
def stateOf (d : Disc) (v : Win) (f : WFlags) (dstate : Nat) : Nat :=
  if v.trunc || v.cfg || f.cal || (f.ovr && d.ovrInv) || (f.sat && d.satInv) then 3 else dstate

/-- The packet word at bytes 24 to 27 without EARLY and SHOTINV (R191). -/
def resultWord (v : Win) (f : WFlags) (dstate st : Nat) : Nat :=
  v.core * 0x10000 + b2n v.rawLost * 0x2000 + b2n f.cal * 0x1000 + b2n v.cfg * 0x800 + b2n v.trunc * 0x400 +
    b2n f.sat * 0x200 + b2n f.ovr * 0x100 + dstate * 4 + st

/-- Bytes 0 to 23 of a window result (R191). -/
def resultHead (modnum k r : Nat) (v : Win) (i q : Int) : List Byte :=
  leBytes 4 (v.tag * 0x10000 + modnum % 64 * 0x400 + (32 * k + r)) ++ leBytes 4 v.shotNo ++ leBytes 8 v.t ++
    leBytes 4 (toTwos 32 i) ++ leBytes 4 (toTwos 32 q)

/-- The first window of a shot that carries OVR, on each input, is reported (R172); a shot is remembered for as long as a window
of it may be open. -/
def State.reportOvr (s : State) (k r : Nat) (v : Win) : State :=
  let x := s.core v.core
  if x.ovrSeen.contains (v.shot, v.inp) then s else
  (s.setCore v.core { x with ovrSeen := (v.shot, v.inp) :: x.ovrSeen.filter (fun e => decide (x.uids < e.1 + 8192)) }).raise
    .ovr k (2 * k + v.inp) (v.stamp + 1056) [wd (32 * k + r), wd v.tag]

/-- A window's shot marked invalid, with the scope of R97: a calibration step met it (R174, R345), or its kernel
cannot be read (R363). -/
def State.calInvalid (s : State) (v : Win) : State :=
  let s1 := s.invalid v.core v.eff
  s1.setCore v.core ((s1.core v.core).modShot v.shot (fun x => { x with inv := true }))

/-- The uncorrectable kernel words whose weights a window uses (R170, R363). -/
def State.badKernel (s : State) (k r : Nat) (v : Win) : List Nat :=
  if v.kmode then
    ((s.badWords.filter (fun b => b.1 == .kernelMem (Fin.ofNat 32 k))).map (·.2)).filter
      (fun n => decide (2048 * r ≤ n) && decide (2 * n < 4096 * r + (v.me - v.ms + 15) / 16))
  else []

/-- Uncorrectable kernel words report themselves and mark the window's shot (R363). -/
def State.kernelUe (s : State) (k r : Nat) (v : Win) : State :=
  match s.badKernel k r v with
  | [] => s
  | n :: _ => (s.sramUe (.kernelMem (Fin.ofNat 32 k)) n (v.stamp + 1056)).calInvalid v

/-- The packet of a window made (R190, R194, R195). -/
def State.makeResult (s : State) (k r : Nat) (v : Win) (f : WFlags) (i q : Int) (dstate st : Nat) (parityOk : Bool) : State :=
  let s1 := s.setCore v.core ((s.core v.core).modShot v.shot (fun x => { x with openW := x.openW - 1 }))
  let s2 := if parityOk then s1 else s1.loseResult .lostCheck v.core v.shot 2
  s2.stage k { core := v.core, shot := v.shot, tone := r, word6 := resultWord v f dstate st,
               head := resultHead (s.fld .hchCtl 5 0) k r v i q, at' := s2.now, bad := !parityOk }

/-- The raw capture of a window that has ended keeps the window as it ended (R176). -/
def State.endRaw (s : State) (k r : Nat) (v : Win) : State :=
  match (s.inp k v.inp).rawWin with
  | some (r', v') => if r' = r ∧ v'.ms = v.ms ∧ v.raw = true ∧ v.rawLost = false then
      s.setInp k v.inp { s.inp k v.inp with rawWin := some (r, v) } else s
  | none => s

/-- STATE written to the tone's slot (R189, R205, R206): in RUN and HOLD, and not once the strand's gating has begun. -/
def State.decideSlot (s : State) (k r : Nat) (v : Win) (st : Nat) : State :=
  if v.decide ∧ (s.mode.mode = .run ∨ s.mode.mode = .hold) ∧ (s.strand k).gate = .ungated then s.writeSlot (32 * k + r) st v.stamp
  else s

/-- WINDOW_COMPLETE (R163 to R172, R183 to R195): the tone's oldest window is handed over at T_end' + 1,056
ticks; STATE is formed at T_end' + 1,152, written to the slot with DECIDE, and packed with RESULT. `xs` are the
input's samples from m_s - 96 to m_e + 94, in units of 1/2,048 of full scale and before their limit, `clips` the clipped
samples of the input outside windows not reported before, `parityOk` whether the parity checks of R194 pass. -/
def State.windowComplete (s0 : State) (k r : Nat) (xs : List Int) (clips : List Nat) (parityOk : Bool) : State :=
  match (s0.rtone k r).wins with
  | [] => s0
  | v0 :: _ =>
    let s := s0.toTime (v0.stamp + 1152)
    match (s.rtone k r).wins with
    | [] => s
    | v :: rest =>
      let s1 := (s.setRtone k r { s.rtone k r with wins := rest }).addClips k v.inp (clips ++ clipsOf v.reach.1 xs)
      let z := s.integral k r v 0 (s.downConvert k r v xs)
      let i := report z.1 v.shift
      let q := report z.2 v.shift
      let f : WFlags := { ovr := s1.flagged k v.inp v.reach.1 v.reach.2, sat := i.2 || q.2, cal := s1.offlineIn k v }
      let d := s1.discAt k r (v.stamp + 1056)
      let ds := d.dstate i.1 q.1
      let st := stateOf d v f ds
      let s2 := if f.ovr then s1.reportOvr k r v else s1
      let s3 := ((if f.cal then s2.calInvalid v else s2).kernelUe k r v).decideSlot k r v st
      let s4 := s3.endRaw k r v
      if v.result then s4.makeResult k r v f i.1 q.1 ds st parityOk else s4

def execWindowComplete (k : Fin 32) (r : Fin 32) (xs : List Int) (clips : List Nat) (parityOk : Bool) (s : State) :
    Host.Outcome State Fault Refusal := .next (s.windowComplete k.val r.val xs clips parityOk)

-- raw captures

/-- The window of an input's raw capture as it now stands (R176). -/
def State.rawNow (s : State) (k : Nat) (r : Nat) (v : Win) : Win :=
  ((s.rtone k r).wins.find? (fun x => x.raw && !x.rawLost && x.ms == v.ms)).getD v

/-- One sample of a raw packet: the code in bits 15:4, the over-range flag in bit 0 (R178). -/
def rawSample (code : Nat) (flag : Bool) : List Byte := leBytes 2 (code * 16 + b2n flag)

/-- The samples of a raw packet from ADC sample m on. -/
def State.rawBody (s : State) (k i : Nat) : Nat → Nat → List Int → List Byte
  | _, 0, _ => []
  | m, n + 1, l => rawSample (toTwos 12 (adcCode (l.headD 0))) (s.flagged k i m (m + 1)) ++ State.rawBody s k i (m + 1) n l.tail

/-- A raw packet (R178). -/
def State.rawPacket (s : State) (k r : Nat) (v : Win) (samples : List Int) : List Byte :=
  let n := v.me - v.ms
  let fl := b2n (s.flagged k v.inp v.reach.1 v.reach.2) + 2 * b2n v.trunc + 4 * b2n v.cfg + 8 * b2n (s.offlineIn k v)
  whipped (leBytes 4 (v.tag * 0x10000 + r * 0x40 + (2 * k + v.inp)) ++ leBytes 4 v.shotNo ++ leBytes 8 v.t ++
    leBytes 4 (fl * 0x1000000 + n) ++ leBytes 12 0 ++ s.rawBody k v.inp v.ms n samples ++
    (if n % 2 = 1 then leBytes 2 0 else []))

/-- The latest time at which the raw buffer is freed (R175): LEN ÷ 6 ns + 1 µs after the start instant. -/
def rawBound (v : Win) : Nat := adcTick v.ms + v.len * 16 / 6 + us

/-- RAW_DRAIN_DONE (R171, R175, R178, R307): the reserved packet is committed, unless it was refused or flushed, and
the buffer freed. `samples` are those of the capture, in units of 1/2,048 of full scale and before their limit. -/
def State.rawDrain (s : State) (k i t : Nat) (samples : List Int) : State :=
  match (s.inp k i).rawWin with
  | none => s
  | some (_, v0) =>
    let s0 := s.toTime (min t (rawBound v0))
    match (s0.inp k i).rawWin with
    | none => s0
    | some (r, v) =>
      let n := s0.rawNow k r v
      let s1 := s0.addClips k i (clipsOf v.ms (samples.take (n.me - n.ms)))
      let y := s1.inp k i
      let s2 := s1.setInp k i { y with rawBusy := none, rawWin := none, rawQ := none }
      match y.rawQ with
      | none => s2
      | some qn =>
        let bs := s1.rawPacket k r n samples
        let q := s2.queue qn
        s2.setQueue qn { q with pkts := q.pkts.map (fun p =>
          if p.src = some (2 * k + i) then { p with bytes := bs, vis := some s2.now, src := none } else p) }

def execRawDrainDone (t : BitVec 64) (k : Fin 32) (i : Fin 2) (samples : List Int) (s : State) :
    Host.Outcome State Fault Refusal := .next (s.rawDrain k.val i.val t.toNat samples)

-- DISC_CTL

/-- The shadow set of tone r (R188). -/
def State.shadowDisc (s : State) (k r : Nat) : Disc :=
  { ab := (List.range 3).map (fun n => (s.reg (.discLineAb k r n)).toNat),
    c := (List.range 3).map (fun n => (s.reg (.discLineCLo k r n)).toNat + 2 ^ 32 * s.fld (.discLineCHi k r n) 15 0),
    map := s.fld (.discMap k r) 15 0 }

/-- DISC_CTL written (R188, R201): OVRINV and SATINV go to the active set, COMMIT copies the shadow set, both
at the next fabric-cycle boundary. -/
def State.wrDiscCtl (s : State) (k r : Nat) (w : Word) : State :=
  let s1 := s.writeFields (.discCtl k r) w
  let b := next8 s.now
  let old := s1.discAt k r (2 ^ 64)
  let new := if getF w 17 17 = 1 then s1.shadowDisc k r else old
  let d := { new with from' := b, ovrInv := decide (s1.fld (.discCtl k r) 0 0 = 1),
                      satInv := decide (s1.fld (.discCtl k r) 1 1 = 1) }
  s1.setRtone k r { s1.rtone k r with disc := d :: (s1.rtone k r).disc }

def execDiscCommit (t : BitVec 64) (k : Fin 32) (r : Fin 32) (w : Word) (s : State) : Host.Outcome State Fault Refusal :=
  .next (s.strandWrite t k.val (.discCtl k.val r.val) (setF w 17 17 1) (fun a x => a.wrDiscCtl k.val r.val x))

end Sys2Proof.Machine
end

