-- ==== Sys2Proof/Machine/Decision.lean ====
section
/-! DEFINITION. The decision fabric's commands (chapter 08): commits of derived bits, entries and the profile
of import, and side-band frames that fail their check. -/

namespace Sys2Proof.Machine

-- derived bits

/-- The 16 shadow selectors of derived bit d (R215, R217). -/
def State.shadowSels (s : State) (d : Nat) : List Nat :=
  (List.range 16).map (fun i => s.fld (.decDsel (8 * d + i / 2)) (16 * (i % 2) + 15) (16 * (i % 2)))

/-- The truth table a commit of bit d copies (R217, R219): the shadow table, or the one its profile generates
over the non-constant inputs. -/
def State.shadowTT (s : State) (d : Nat) : TT :=
  let c := s.fld (.decDctl d) 31 24
  if c = 0xFF then Tab.get s.dec.ttShadow d (.raw []) else
  let sels := s.shadowSels d
  let mask := ((List.range 16).map (fun i => if (sels[i]?).getD 0x3FFF = 0x3FFF then 0 else 2 ^ i)).foldl (· + ·) 0
  .gen c mask (decide ((sels[0]?).getD 0x3FFF = 0x3FFF))

/-- The whole shadow set of bit d becomes active at the next fabric-cycle boundary (R217). -/
def State.decCommit (s : State) (d : Nat) : State :=
  let tt := s.shadowTT d
  let new : DSet := { from' := next8 s.now, sels := s.shadowSels d, inv := s.fld (.decDctl d) 15 0, tt := tt }
  { s with dec := { s.dec with dsets := Tab.put s.dec.dsets d (new :: Tab.get s.dec.dsets d []),
                               ttShadow := Tab.put s.dec.ttShadow d tt } }

/-- DEC_DCTL written (R17, R217, R219): a profile code or COMMIT commits the set, a reserved code acting as the one that
stands; 0xFF without COMMIT only writes the shadow. -/
def State.wrDctl (s : State) (d : Nat) (w : Word) : State :=
  let r := RegId.decDctl d
  let s1 := s.setReg r (r.mergeX (s.reg r) w)
  if getF w 17 17 = 1 ∨ s1.fld r 31 24 ≤ 5 then s1.decCommit d else s1

def execDecCommit (t : BitVec 64) (d : Fin 256) (w : Word) (s : State) : Host.Outcome State Fault Refusal :=
  .next (s.hubWrite t (fun a => a.wrDctl d.val (setF w 17 17 1)))

-- imports

/-- A core of ply p is RUNNING or WAITING (R214). -/
def State.plyActive (s : State) (p : Nat) : Bool := (List.range 64).any (fun i => (s.core (64 * p + i)).active)

/-- What the registers of entry k of ply p hold takes effect at the next frame boundary (R212, R214). -/
def State.enterImport (s : State) (p k : Nat) : State :=
  let r := RegId.decImport p k
  let e : Import := { valid := decide (s.fld r 31 31 = 1), slot := s.fld r 9 0, from' := 64 * (s.now / 64 + 1) }
  { s with dec := { s.dec with imports := Tab.put s.dec.imports (128 * p + k) e } }

/-- A write of an import entry carried out (R14, R15, R212). -/
def State.putImport (s : State) (p k : Nat) (w : Word) : State :=
  let r := RegId.decImport p k
  (s.setReg r (r.mergeX (s.reg r) w)).enterImport p k

/-- DEC_IMPORT written (R17, R214): the profile reads custom; the write is held while a core of the ply runs. -/
def State.wrImport (s : State) (p k : Nat) (w : Word) : State :=
  let s1 := s.setFld .decCtl 31 24 0xFF
  if s.plyActive p then s1.hold (.decImport p k) w else (s1.unhold (.decImport p k)).putImport p k w

/-- The word of entry k of ply p under import profile c (R219): NONE sets VALID alone. -/
def State.importWord (s : State) (c p k : Nat) : Word :=
  if c = 1 then BitVec.ofNat 32 (0x80000000 + neighbourSlot s.strandCount p k)
  else setF (s.reg (.decImport p k)) 31 31 0

/-- Import profile c carried out for ply p (R219). -/
def State.putProfile (s : State) (c p : Nat) : State :=
  (List.range 128).foldl (fun a k => (a.setReg (.decImport p k) (a.importWord c p k)).enterImport p k) s

/-- The import profile held for ply p withdrawn or carried out. -/
def State.dropProfile (s : State) (p : Nat) : State :=
  { s with dec := { s.dec with impProf := Tab.put s.dec.impProf p 0 } }

/-- Every held change of ply p takes effect, in one frame: the profile, then the entries written after it (R214). -/
def State.applyImports (s : State) (p : Nat) : State :=
  let s1 := match Tab.get s.dec.impProf p 0 with
    | 0 => s
    | c + 1 => (s.dropProfile p).putProfile c p
  (List.range 128).foldl (fun a k =>
    match a.heldFor (.decImport p k) with
    | some w => (a.unhold (.decImport p k)).putImport p k w
    | none => a) s1

/-- An import profile for ply p (R214, R219): it replaces the ply's pending changes, and is held while a core of
the ply runs if it changes an entry. -/
def State.importProfile (s : State) (c p : Nat) : State :=
  let s1 := ((List.range 128).foldl (fun a k => a.unhold (.decImport p k)) s).dropProfile p
  if (List.range 128).all (fun k => s.reg (.decImport p k) == s.importWord c p k) then s1 else
  if s.plyActive p then { s1 with dec := { s1.dec with impProf := Tab.put s1.dec.impProf p (c + 1) } }
  else s1.putProfile c p

/-- A change of ply p's imports is pending (R214). -/
def State.importPending (s : State) (p : Nat) : Bool :=
  Tab.get s.dec.impProf p 0 != 0 || (List.range 128).any (fun k => (s.heldFor (.decImport p k)).isSome)

/-- DEC_CTL written (R17, R219): a reserved code acts as the one that stands. -/
def State.wrDecCtl (s : State) (w : Word) : State :=
  let s1 := s.setReg .decCtl (RegId.mergeX .decCtl (s.reg .decCtl) w)
  let c := s1.fld .decCtl 31 24
  if c ≤ 1 then (List.range s.plyCount).foldl (fun a p => a.importProfile c p) s1 else s1

def execImportWrite (t : BitVec 64) (p : Fin 4) (k : Fin 128) (w : Word) (s : State) : Host.Outcome State Fault Refusal :=
  .next (s.blockWrite t (.decImport p.val k.val) (fun a => a.wrImport p.val k.val w))

-- side-band frames

/-- DEC_SIDEBAND with the ply and the direction, 0 downward and 1 upward; the shot in progress is invalid on
every core (R220, R428). -/
def State.sbFail (s : State) (p n dir : Nat) : State :=
  ((s.bump (.decSbErr p) n).raise .decSideband 0 p s.now [wd dir]).invalidAll s.now

/-- SIDEBAND_FRAME (R210, R220): a frame whose records pass presents them (chapter Fabric reads them from the
writes themselves), so that a frame that no command names passed; a failed record or frame is remembered, counted and
reported. -/
def State.sideband (s : State) (p n : Nat) (f : SbFrame) : State :=
  let s1 := s.toTime (64 * (n + 1))
  match f with
  | .up bad =>
    if bad.isEmpty then s1 else
    let s2 := { s1 with dec := { s1.dec with badUp := bad.map (fun (b : Fin 256) => (256 * p + b.val, n)) ++ s1.dec.badUp } }
    s2.sbFail p bad.length 1
  | .down crcOk =>
    if crcOk then s1 else
    let s2 := { s1 with dec := { s1.dec with badDown := (p, n) :: s1.dec.badDown } }
    s2.sbFail p 1 0

def execSidebandFrame (p : Fin 4) (n : Nat) (f : SbFrame) (s : State) : Host.Outcome State Fault Refusal :=
  .next (s.sideband p.val n f)

-- what host software reads

/-- Derived bit d as at the hub now (R216, R222). -/
def State.derivedNow (s : State) (d : Nat) : View := s.derivedAt d (s.now + hubToCore)

/-- State slot n as at the hub now (R222). -/
def State.slotNow (s : State) (n : Nat) : View :=
  viewFrame (s.slotHist n) (s.upBad n) latHub (s.now + hubToCore) 3

/-- A word of one-bit values. -/
def packBits (l : List Bool) : Word :=
  BitVec.ofNat 32 ((l.zip (List.range 32)).foldl (fun a p => if p.1 then a + 2 ^ p.2 else a) 0)

end Sys2Proof.Machine
end

