-- ==== Sys2Proof/Machine/Hitch.lean ====
section
/-! DEFINITION. Hitch links (chapter 09): lanes, paths and directions, MARK, TRAIN and STATUS blocks, containers
with their check and delivery, path health, splices and reverts, and what the module itself transmits. -/

namespace Sys2Proof.Machine

def State.lane (s : State) (l : Nat) : Lane := Tab.get s.hch.lanes l {}
def State.setLane (s : State) (l : Nat) (x : Lane) : State :=
  { s with hch := { s.hch with lanes := Tab.put s.hch.lanes l x } }
def State.hdir (s : State) (d : Nat) : HDir := Tab.get s.hch.dirs d {}
def State.setHdir (s : State) (d : Nat) (x : HDir) : State :=
  { s with hch := { s.hch with dirs := Tab.put s.hch.dirs d x } }

/-- The lanes of a path of direction d: port d for A, port d + 8 for B (R223). -/
def pathLanes (d : Nat) (b : Bool) : List Nat := if b then [2 * d + 16, 2 * d + 17] else [2 * d, 2 * d + 1]

/-- The direction and path of a port, and of a lane (R223). -/
def portDir (q : Nat) : Nat × Bool := (q % 8, decide (8 ≤ q))
def laneDir (l : Nat) : Nat × Bool := portDir (l / 2)

def HDir.path (x : HDir) (b : Bool) : HPath := if b then x.b else x.a
def HDir.setPath (x : HDir) (b : Bool) (p : HPath) : HDir := if b then { x with b := p } else { x with a := p }

def State.dirOn (s : State) (d : Nat) : Bool := decide (s.fld (.hchDirCtl d) 0 0 = 1)
def State.dirHot (s : State) (d : Nat) : Bool := decide (s.fld (.hchDirCtl d) 3 3 = 1)

/-- A lane in a loopback or under test carries no frames (R248). -/
def State.laneTest (s : State) (l : Nat) : Bool :=
  s.mode.mode == .test && (decide (s.fld (.hchLaneCtl l) 1 0 ≠ 0) || decide (s.fld (.hchLaneCtl l) 2 2 = 1))

/-- Whether a path is in service (R229, R230, R241, R242, R248): its lanes are locked and not out of service by their delay,
its MARKs pass, no standby check has failed it. -/
def State.inService (s : State) (d : Nat) (b : Bool) : Bool :=
  let p := (s.hdir d).path b
  s.dirOn d && (pathLanes d b).all (fun l => (s.lane l).lock && !(s.lane l).noserv && !s.laneTest l) &&
    p.markOk && !p.standbyBad

/-- Whether a path is healthy (R241): in service, and its last 44 containers passed their checks. -/
def State.pathOk (s : State) (d : Nat) (b : Bool) : Bool := s.inService d b && decide (((s.hdir d).path b).badLeft = 0)

-- electrical idle

/-- The n-th block's start in a run of blocks that starts at tick t: 75 blocks take 2,816 ticks (R231). -/
def blockStart (t n : Nat) : Nat := t + 2816 * n / 75

/-- Block n of a TRAIN burst that starts at tick t (R227, R240). -/
def trainWord (t n : Nat) : Nat := 0xD2 + n % 256 * 2 ^ 8 + blockStart t n % 2 ^ 48 * 2 ^ 16

/-- The IDLE_ENTRY block (R227). -/
def idleWord : Nat := 0xD4

/-- The control blocks, MARKs apart, that a lane has sent since its last burst began. -/
def State.sendCtl (s : State) (l : Nat) (bs : List (Nat × Nat)) : State :=
  { s with hch := { s.hch with txCtl := Tab.put s.hch.txCtl l bs } }

/-- A transmitter that leaves electrical idle at the present time, with a burst of 32 TRAIN blocks (R240). -/
def State.wakeLane (s : State) (l : Nat) : State :=
  if (s.lane l).idle = false then s else
  (s.setLane l { s.lane l with idle := false, burst := s.now }).sendCtl l
    ((List.range 32).map (fun n => (blockStart s.now n, trainWord s.now n)))

/-- A transmitter put into electrical idle after an IDLE_ENTRY block (R240). -/
def State.idleLane (s : State) (l : Nat) : State :=
  if (s.lane l).idle then s else
  (s.setLane l { s.lane l with idle := true }).sendCtl l (Tab.get s.hch.txCtl l [] ++ [(s.now, idleWord)])

/-- The transmitter of path B woken, or put into electrical idle (R240, R243). -/
def State.setBIdle (s : State) (d : Nat) (idle : Bool) : State :=
  (pathLanes d true).foldl (fun a l => if idle then a.idleLane l else a.wakeLane l) s

-- received bits

/-- The stale flag set from presentation time p on (R239, R244). -/
def HBit.staleFrom (x : HBit) (p : Nat) : HBit :=
  if x.stale.any (fun i => i.2.isNone) then x else { x with stale := (p, none) :: x.stale }

/-- The stale flag cleared at presentation time p. -/
def HBit.fresh (x : HBit) (p : Nat) : HBit :=
  { x with stale := x.stale.map (fun (i : Nat × Option Nat) => if i.2.isNone then (i.1, some p) else i) }

/-- A record of origin frame j presented with path latency l (R232, R239). -/
def HBit.record (x : HBit) (j l rec' : Nat) : HBit :=
  let w := bit rec' 8
  let val := bits rec' 7 7
  let stamp := 64 * j + bits rec' 5 0
  let p := if w then up8 stamp + l - 8 else 64 * (j + 1) + l - 8
  let old := match x.hist with | c :: _ => some c | [] => none
  let y :=
    if w then { x with hist := { at' := p, stamp := stamp, val := val } :: x.hist } else
    match old with
    | some c => if c.val = val then x else { x with hist := { at' := p, stamp := c.stamp, val := val, wr := false } :: x.hist }
    | none => { x with hist := [{ at' := p, stamp := 0, val := val, wr := false }] }
  if bit rec' 6 then y.staleFrom p else y.fresh p

/-- The bits an entry serves, changed by a function of the record number. -/
def State.eachServed (s : State) (d c : Nat) (f : Nat → HBit → HBit) : State :=
  (List.range 5).foldl (fun a r =>
    let k := 64 * a.rxOrigin d c + a.rxE d c r
    if a.serves k = some (3 * d + c) then a.setHbit k (f r (a.hbit k)) else a) s

/-- The bits of position c of direction d held stale from the frame-end presentation of origin frame j (R239,
R244). -/
def State.holdBits (s : State) (d c j : Nat) : State :=
  if s.rxValid d c then s.eachServed d c (fun _ x => x.staleFrom (64 * (j + 1) + latHitch (s.rxHops d c) - 8)) else s

/-- Every bit a direction delivers held stale from the first origin frame missed (R244, R247). -/
def State.holdDir (s : State) (d : Nat) : State :=
  (List.range 3).foldl (fun a c =>
    match Tab.get? (a.hdir d).last c with
    | some j => a.holdBits d c (j + 1)
    | none => a) s

-- path health

/-- SPLICE_A_TO_B with the direction and a cause (R243), at the boundary t; the module's own B transmitter is woken. -/
def State.splice (s : State) (d cause t : Nat) : State := (s.setBIdle d false).raise .spliceAtoB 0 d t [wd cause]

/-- SPLICE_REVERT with the direction (R245, R246); A becomes active. -/
def State.revert (s : State) (d t : Nat) : State :=
  (s.setHdir d { s.hdir d with onB := false, gap := false, pend := none, qualFrom := none, hostHold := false }).raise
    .spliceRevert 0 d t []

/-- Whether a direction has a receive-map entry, so that frames show a switch. -/
def State.hasRx (s : State) (d : Nat) : Bool := (List.range 3).any (fun c => s.rxValid d c)

/-- The frame of which a path delivered every mapped container last (R243, R245). -/
def State.wholeOn (s : State) (d : Nat) (b : Bool) : Option Nat :=
  let x := (s.hdir d).path b
  if s.hasRx d && (List.range 3).all (fun c => !s.rxValid d c || (Tab.get? x.got c).isSome) then some x.frame else none

/-- A good container delivered (R239), if no later one of its position was. -/
def State.deliver (s : State) (d c j p : Nat) : State :=
  let l := latHitch (s.rxHops d c)
  if (match Tab.get? (s.hdir d).last c with | some k => decide (j ≤ k) | none => false) then s else
  let s1 := s.eachServed d c (fun r x => x.record j l (bits p (9 * r + 8) (9 * r)))
  s1.setHdir d { s1.hdir d with last := Tab.put (s1.hdir d).last c j }

/-- The map of position i = 3d + c for origin frame j: a write of HCH_TXMAP holds from the next origin frame (R237). -/
def State.txMapAt (s : State) (i j : Nat) : Word :=
  match (Tab.get s.hch.txMaps i []).find? (fun e => decide (e.1 ≤ j)) with | some e => e.2 | none => 0

/-- The lane of a path, 0 or 1, and the place among the lane's 66 container blocks of a Hitch cycle at which container c of
origin frame j travels (R231). -/
def laneOf (j c : Nat) : Nat := (3 * j + c) % 2
def placeOf (j c : Nat) : Nat := (3 * ((j + 1) % 44) + c) / 2

/-- The lanes on which position c of origin frame j is sent on direction d (R231, R240, R248): those of the two paths whose
transmitter is not in electrical idle or under test, and whose burst is over, 80 ns after its start, when the frame begins to leave. -/
def State.txLanes (s : State) (d c j : Nat) : List Nat :=
  [2 * d + laneOf j c, 2 * d + 16 + laneOf j c].filter (fun l =>
    !(s.lane l).idle && !s.laneTest l && decide ((s.lane l).burst = 0 ∨ (s.lane l).burst + 1280 ≤ 64 * (j + 1)))

/-- A container block, or VOID, put into its place on its lanes (R231, R237). -/
def State.putTx (s : State) (d c j : Nat) (p : Option Nat) : State :=
  (s.txLanes d c j).foldl (fun a l =>
    { a with hch := { a.hch with tx := Tab.put a.hch.tx (66 * l + placeOf j c) (j, p) } }) s

/-- What has been put into a place for origin frame j on direction d. -/
def State.txOf (s : State) (d c j : Nat) : Option Nat :=
  (s.txLanes d c j).findSome? (fun l =>
    match Tab.get? s.hch.tx (66 * l + placeOf j c) with
    | some e => if e.1 = j then e.2 else none
    | none => none)

/-- Relays of a container that arrived on direction d, position c (R237): one that is already on its way stays. -/
def State.relay (s : State) (d c j : Nat) (p : Option Nat) : State :=
  (List.range 8).foldl (fun a e =>
    let m := a.txMapAt (3 * e + c) j
    if getF m 31 30 = 2 ∧ getF m 2 0 = d ∧ (a.txOf e c j).isNone = true then a.putTx e c j p else a) s

/-- A switch to the other path taken where its time has come (R243, R245, R246): after a loss of A, at the first frame that B
delivers whole; a splice or revert without a loss, at a frame that arrives whole on both paths. Without a receive map there
is no frame to wait for. -/
def State.takeSwitch (s : State) (d : Nat) : State :=
  let x := s.hdir d
  if x.gap then
    match s.wholeOn d true, s.hasRx d with
    | some j, _ =>
      if x.last.any (fun e => decide (j ≤ e.2)) then s else
      x.b.got.foldl (fun a e => (a.relay d e.1 j (some e.2)).deliver d e.1 j e.2)
        (s.setHdir d { x with onB := true, gap := false })
    | none, false => s.setHdir d { x with onB := true, gap := false }
    | none, true => s
  else
    match x.pend with
    | none => s
    | some toB =>
      if s.hasRx d && (s.wholeOn d false != s.wholeOn d true || (s.wholeOn d true).isNone) then s else
      if toB then (s.setHdir d { x with onB := true, pend := none }).splice d 4 (up8 s.now) else s.revert d (up8 s.now)

/-- The health of a direction's paths evaluated after a change whose cause, for a loss of A, is coded as in
R243: splice, return from a lost B, HCH_DOWN, the first path back, qualification, and HCH_STANDBY (R241 to R247). A loss counts
from the next fabric-cycle boundary. A path in a lane test raises no event (R248). -/
def State.evalHealth (s : State) (d cause : Nat) : State :=
  let x := s.hdir d
  let a0 := x.a.healthy
  let b0 := x.b.healthy
  let a1 := s.pathOk d false
  let b1 := s.pathOk d true
  let quiet := (pathLanes d false ++ pathLanes d true).any s.laneTest || !s.dirOn d
  let s1 := s.setHdir d { x with a := { x.a with healthy := a1 }, b := { x.b with healthy := b1 } }
  if a0 = a1 ∧ b0 = b1 then s1 else
  if !a1 && !b1 then
    let s2 := (s1.setHdir d { s1.hdir d with down := true, gap := false, qualFrom := none, pend := none }).holdDir d
    if quiet then s2 else s2.raise .hchDown 0 d (next8 s.now) []
  else if !a0 && !b0 then
    s1.setHdir d { s1.hdir d with down := false, onB := !a1, gap := false, qualFrom := none }
  else if !(x.onB || x.gap) then
    if a0 && !a1 then
      let s2 := (s1.setHdir d { s1.hdir d with gap := true, pend := none, qualFrom := none }).holdDir d
      (if quiet then s2 else s2.splice d cause (next8 s.now)).takeSwitch d
    else if b0 && !b1 then
      let s2 := s1.setHdir d { s1.hdir d with pend := none }
      if s.dirHot d && !quiet then s2.raise .hchStandby 0 d (next8 s.now) [] else s2
    else s1
  else
    if b0 && !b1 then (s1.holdDir d).revert d (next8 s.now)
    else if a1 && !a0 && !x.hostHold then s1.setHdir d { s1.hdir d with qualFrom := some s.now }
    else if a0 && !a1 then s1.setHdir d { s1.hdir d with qualFrom := none, pend := none }
    else s1

-- lanes

/-- A lane has locked (R228, R240, R242): a standby path that a check had failed may serve again. -/
def State.laneLocked (s : State) (l : Nat) : State :=
  let s1 := s.setLane l { s.lane l with lock := true, rxIdle := false }
  let d := (laneDir l).1
  let x := s1.hdir d
  if (laneDir l).2 then s1.setHdir d { x with b := { x.b with standbyBad := false } } else s1

/-- BLOCK_LOCK (R228): the invalid headers met while hunting are counted, and the lane locks. -/
def State.blockLock (s : State) (l headers : Nat) : State :=
  if s.dirOn (laneDir l).1 then ((s.bump (.hchHdrErr l) headers).laneLocked l).evalHealth (laneDir l).1 0
  else s

def execBlockLock (t : BitVec 64) (l : LockedLane) (s : State) : Host.Outcome State Fault Refusal :=
  .next ((s.at t).blockLock l.lane.val l.headers)

/-- BLOCK_LOCK_LOSS (R228, R229, R241): the invalid headers of 64 consecutive blocks are counted; 16 of them, or the loss of
the signal, cost the lock, and the lane must align on a MARK again. -/
def State.lockLoss (s : State) (l headers : Nat) (signal : Bool) : State :=
  let d := (laneDir l).1
  let b := (laneDir l).2
  let s1 := s.bump (.hchHdrErr l) headers
  if decide (headers < 16) && !signal then s1 else
  let s2 := s1.setLane l { s.lane l with lock := false }
  let x := s2.hdir d
  (s2.setHdir d (x.setPath b { x.path b with markOk := false, cfgErr := none, peerDir := none, frame := 0, got := [] })).evalHealth d 0

def execBlockLockLoss (t : BitVec 64) (l : Fin 32) (x : LockTrouble) (s : State) : Host.Outcome State Fault Refusal :=
  .next ((s.at t).lockLoss l.val x.headers x.signal)

/-- A measured one-way delay (R230, R36): above 416 ticks NOSERV is set and HCH_DELAY raised. -/
def State.measure (s : State) (l delay : Nat) : State :=
  let s1 := s.setLane l { s.lane l with delay := min delay 1023, noserv := decide (416 < delay) }
  if decide (416 < delay) && !(s.lane l).noserv then s1.raise .hchDelay 0 l (up8 s.now) [wd delay] else s1

/-- A TRAIN burst on a B receiver wakes the module's own B transmitter (R243). -/
def State.trainWake (s : State) (l : Nat) : State :=
  if (laneDir l).2 ∧ s.dirOn (laneDir l).1 = true then s.setBIdle (laneDir l).1 false else s

/-- TRAIN_BLOCK (R227, R230, R240): the lane's delay is measured; a lane leaving idle locks with the burst's last block, the
32nd valid header at the kept position. -/
def State.trainBlock (s : State) (l : Nat) (b : Nat) : State :=
  if bits b 7 0 ≠ 0xD2 ∨ s.dirOn (laneDir l).1 = false then s else
  let d := (s.now + 2 ^ 48 - bits b 63 16) % 2 ^ 48
  let s1 := s.measure l d
  let s2 := if (s1.lane l).rxIdle && decide (bits b 15 8 = 31) then s1.laneLocked l else s1
  (s2.trainWake l).evalHealth (laneDir l).1 3

def execTrainBlock (t : BitVec 64) (l : Fin 32) (b : BitVec 64) (s : State) : Host.Outcome State Fault Refusal :=
  .next ((s.at t).trainBlock l.val b.toNat)

/-- IDLE_ENTRY (R240, R242): a block that arrives on a lane makes its receiver expect no more blocks; one that leaves puts the
lane's transmitter into electrical idle, on path B of a COLD direction while A is active. -/
def State.idleEntry (s : State) (l : Nat) (sent : Bool) : State :=
  let d := (laneDir l).1
  let x := s.hdir d
  if sent then
    if (laneDir l).2 && !s.dirHot d && !x.onB && !x.gap && x.pend.isNone then s.idleLane l else s
  else if s.dirOn d then s.setLane l { s.lane l with rxIdle := true } else s

def execIdleEntry (t : BitVec 64) (l : IdleLane) (s : State) : Host.Outcome State Fault Refusal :=
  .next ((s.at t).idleEntry l.lane.val l.sent)

-- MARK blocks

/-- What a MARK block of port q shows wrong, coded in the order of R229: cycle number, sender, port, path; none
where it agrees (R224, R227). -/
def State.markError (s : State) (q b : Nat) : Option Nat :=
  let d := (portDir q).1
  let onB := (portDir q).2
  let port := bits b 25 22
  if bits b 63 32 ≠ s.now / 2816 % 2 ^ 32 then some 0 else
  if bits b 31 26 ≠ s.fld (.hchDirPeer d) 5 0 then some 1 else
  if (match ((s.hdir d).path (!onB)).peerDir with | some e => e != port % 8 | none => false) then some 2 else
  if decide (8 ≤ port) != onB || decide (bits b 20 20 = 1) != onB then some 3 else none

/-- MARK_BLOCK (R224, R229). -/
def State.markBlock (s : State) (q b : Nat) : State :=
  let d := (portDir q).1
  let onB := (portDir q).2
  if bits b 7 0 ≠ 0xD1 ∨ s.dirOn d = false then s else
  let x := s.hdir d
  let p := x.path onB
  let y := { x with peerSeen := bits b 31 26 }
  match s.markError q b with
  | none =>
    (s.setHdir d (y.setPath onB { p with markOk := true, cfgErr := none, peerDir := some (bits b 25 22 % 8) })).evalHealth d 2
  | some cause =>
    let s1 := s.setHdir d (y.setPath onB { p with markOk := false, cfgErr := some cause })
    let s2 := if p.cfgErr = some cause then s1 else s1.raise .hchConfig 0 d (up8 s.now) [wd cause]
    s2.evalHealth d 2

def execMarkBlock (t : BitVec 64) (q : Fin 16) (b : BitVec 64) (s : State) : Host.Outcome State Fault Refusal :=
  .next ((s.at t).markBlock q.val b.toNat)

-- containers

/-- CRC-16 of R234, most significant bit first. -/
def crc16 (bs : List Byte) : Nat :=
  bs.foldl (fun c b => (msbBits 8 b.toNat).foldl (crcMsb 16 0x1021) c) 0xFFFF

/-- The bytes a container's CHECK covers (R234). -/
def checkBytes (origin j : Nat) (es : List Nat) (body : Nat) : List Byte :=
  leBytes 1 origin ++ leBytes 3 (j % 2 ^ 24) ++ (es.map (fun e => leBytes 1 e)).flatten ++ leBytes 6 (body % 2 ^ 48)

/-- A received container passes its check (R234, R238). -/
def State.containerOk (s : State) (d c j p : Nat) : Bool :=
  crc16 (checkBytes (s.rxOrigin d c) j ((List.range 5).map (s.rxE d c)) p) == bits p 63 48

/-- Whether a direction takes a container of a path (R241, R242): of the active path, or of B under HOT where A has not
delivered the frame; in the gap of a splice, of neither path. -/
def State.takes (s : State) (d : Nat) (onB : Bool) : Bool :=
  let x := s.hdir d
  (s.hdir d |>.path onB).healthy && !x.gap && (onB == x.onB || (onB && s.dirHot d))

/-- A container of a path noted among those of its frame (R243, R245). -/
def HPath.note (p : HPath) (c j x : Nat) : HPath :=
  if p.frame = j then { p with got := Tab.put p.got c x } else { p with frame := j, got := [(c, x)] }

/-- The bits of a container of origin frame j that arrives as VOID, or fails its check, held stale, unless the frame has been
delivered (R239, R242). -/
def State.missed (s : State) (d c : Nat) (onB : Bool) (j : Nat) : State :=
  let had := match Tab.get? (s.hdir d).last c with | some k => decide (j ≤ k) | none => false
  if onB == (s.hdir d).onB && !had then s.holdBits d c j else s

/-- The outcome of a container's check on a path's health (R241): 44 good ones are wanted after a failed one. -/
def State.countCheck (s : State) (d : Nat) (onB ok : Bool) : State :=
  let x := s.hdir d
  let p := x.path onB
  (s.setHdir d (x.setPath onB { p with badLeft := if ok then p.badLeft - 1 else 44 })).evalHealth d 1

/-- A container of position c that fails its check (R239): counted, reported at the first after a good one, its
bits held stale. -/
def State.badContainer (s : State) (d c : Nat) (onB : Bool) (j : Nat) : State :=
  let was := Tab.get (s.hdir d).good c false
  let s1 := (s.bump (.hchChkErr d) 1).setHdir d { s.hdir d with good := Tab.put (s.hdir d).good c false }
  let s2 := if was then s1.raise .hchCheck 0 d (up8 s.now) [wd c] else s1
  (s2.missed d c onB j).countCheck d onB false

/-- A container that passes its check (R239, R243, R245). -/
def State.goodContainer (s : State) (d c : Nat) (onB : Bool) (j p : Nat) : State :=
  let s1 := if s.takes d onB then s.deliver d c j p else s
  let x := s1.hdir d
  let s2 := s1.setHdir d ({ x with good := Tab.put x.good c true }.setPath onB ((x.path onB).note c j p))
  (s2.countCheck d onB true).takeSwitch d

/-- HITCH_CONTAINER (R237 to R239, R241 to R246, R248): origin frame j in position c arrives on a path of direction d, as a
container or as VOID; a path that is not in service delivers nothing. -/
def State.container (s : State) (d : Nat) (onB : Bool) (c j : Nat) (p : Option Nat) : State :=
  if s.inService d onB = false then s else
  let s1 := if s.takes d onB then s.relay d c j p else s
  if s1.rxValid d c = false then s1 else
  match p with
  | none => s1.missed d c onB j
  | some p => if s1.containerOk d c j p then s1.goodContainer d c onB j p else s1.badContainer d c onB j

/-- When the containers of origin frame j have arrived on position c of a path (R231, R35, R239): they leave by tick 64j + 288;
the deserialiser adds 144 ticks to the lane's delay, and each further hop 720. -/
def State.arrival (s : State) (d : Nat) (onB : Bool) (c j : Nat) : Nat :=
  64 * j + 288 + 144 + (s.lane (2 * d + (if onB then 16 else 0) + laneOf j c)).delay +
    (if s.rxValid d c then 720 * (s.rxHops d c - 1) else 0)

def execHitchContainer (d : Fin 8) (onB : Bool) (c : Fin 3) (j : Nat) (p : Option (BitVec 64)) (s : State) :
    Host.Outcome State Fault Refusal :=
  .next ((s.clockTo (s.arrival d.val onB c.val j)).container d.val onB c.val j (p.map (·.toNat)))

-- STATUS blocks

/-- The STATUS block of a direction as sent (R235). -/
def statusBlock (modnum : Nat) (alost onb : Bool) : Nat :=
  let hi := 0x0100 * 2 ^ 32 + modnum % 64 * 2 ^ 34 + b2n alost * 2 ^ 33 + b2n onb * 2 ^ 32
  hi * 2 ^ 16 + crc16 (leBytes 6 hi)

/-- STATUS_BLOCK (R235, R243): a failing or reserved block is ignored; ALOST wakes the B transmitter; ALOST = 0
and ONB = 0 for a whole Hitch cycle return a COLD one to idle. -/
def State.status (s : State) (d b : Nat) : State :=
  if s.dirOn d = false ∨ bits b 63 56 ≠ 1 ∨ crc16 (leBytes 6 (bits b 63 16)) ≠ bits b 15 0 then s else
  let x := s.hdir d
  if bit b 49 then (s.setHdir d { x with quietFrom := none }).setBIdle d false else
  if bit b 48 then s.setHdir d { x with quietFrom := none } else
  match x.quietFrom with
  | none => s.setHdir d { x with quietFrom := some s.now }
  | some q =>
    if q + 2816 ≤ s.now ∧ s.dirHot d = false ∧ x.a.healthy = true ∧ x.onB = false ∧ x.gap = false ∧ x.pend.isNone = true then
      s.setBIdle d true else s

def execStatusBlock (t : BitVec 64) (d : Fin 8) (b : BitVec 64) (s : State) : Host.Outcome State Fault Refusal :=
  .next ((s.at t).status d.val b.toNat)

-- standby

/-- STANDBY_CHECK (R242): at each second a COLD path B wakes for a check and a delay measurement, two Hitch cycles long, and
returns to electrical idle. -/
def State.standbyCheck (s : State) (d : Nat) (ok : Bool) (d0 d1 : Nat) : State :=
  let x := s.hdir d
  if s.dirOn d = false ∨ s.dirHot d = true ∨ x.onB = true ∨ x.gap = true then s else
  let s1 := ((s.setBIdle d false).measure (2 * d + 16) d0).measure (2 * d + 17) d1
  let pass := ok && decide (d0 ≤ 416) && decide (d1 ≤ 416)
  let s2 := if ok then (pathLanes d true).foldl (fun a l => a.setLane l { a.lane l with lock := true }) s1 else s1
  let y := s2.hdir d
  let s3 := s2.setHdir d { y with b := { y.b with standbyBad := !pass, markOk := y.b.markOk || (ok && y.b.cfgErr.isNone) } }
  let s4 := if pass then s3 else s3.raise .hchStandby 0 d (up8 s.now) []
  let s5 := s4.evalHealth d 3
  if (s5.hdir d).pend.isSome || (s5.hdir d).gap then s5 else s5.setBIdle d true

def execStandbyCheck (t : BitVec 64) (d : Fin 8) (ok : Bool) (delay0 delay1 : BitVec 10) (s : State) :
    Host.Outcome State Fault Refusal := .next ((s.at t).standbyCheck d.val ok delay0.toNat delay1.toNat)

-- HCH_DIRCTL and HCH_CTL

/-- A direction enabled: both paths go into training; disabled: its lanes return to electrical idle (R240, R251). -/
def State.dirEnable (s : State) (d : Nat) (on : Bool) : State :=
  let s1 := if on then s else s.holdDir d
  let s2 := (pathLanes d false ++ pathLanes d true).foldl (fun a l =>
    let b := if on then a.wakeLane l else a.idleLane l
    b.setLane l { b.lane l with lock := false, rxIdle := !on }) s1
  s2.setHdir d { peerSeen := (s2.hdir d).peerSeen, last := (s2.hdir d).last }

/-- A SPLICE or REVERT write (R246): discarded when the path it names is not healthy; the path that is active already stays. -/
def State.askSwitch (s : State) (d : Nat) (onB : Bool) : State :=
  let x := s.hdir d
  if s.pathOk d onB = false then s else
  if x.onB = onB then (if onB then s.setHdir d { x with hostHold := true } else s.setHdir d { x with hostHold := false, pend := none }) else
  let s1 := (s.setHdir d { x with pend := some onB, hostHold := onB, qualFrom := none })
  (if onB then s1.setBIdle d false else s1).takeSwitch d

/-- HCH_DIRCTL written (R242, R246, R250, R251): under HOT path B is awake. -/
def State.wrDirCtl (s : State) (d : Nat) (w : Word) : State :=
  let was := s.dirOn d
  let s1 := s.writeFields (.hchDirCtl d) w
  let on := s1.dirOn d
  let s2 := if was = on then s1 else s1.dirEnable d on
  let hot := if s2.dirOn d && s2.dirHot d then s2.setBIdle d false else s2
  let s3 := if getF w 6 6 = 1 then hot.askSwitch d true else hot
  if getF w 7 7 = 1 then s3.askSwitch d false else s3

def execDirectionEnable (t : BitVec 64) (d : Fin 8) (w : Word) (s : State) : Host.Outcome State Fault Refusal :=
  .next (s.hubWrite t (fun a => a.wrDirCtl d.val w))

def execHchSplice (t : BitVec 64) (d : Fin 8) (w : Word) (s : State) : Host.Outcome State Fault Refusal :=
  .next (s.hubWrite t (fun a => a.wrDirCtl d.val (setF w 6 6 1)))

def execHchRevert (t : BitVec 64) (d : Fin 8) (w : Word) (s : State) : Host.Outcome State Fault Refusal :=
  .next (s.hubWrite t (fun a => a.wrDirCtl d.val (setF w 7 7 1)))

/-- The qualification of A is over at tick t (R245): QUAL × 10 ms without a break; never with QUAL = 0. -/
def State.qualified (s : State) (d t : Nat) : Bool :=
  let q := s.fld (.hchDirCtl d) 23 8
  match (s.hdir d).qualFrom with
  | some a => decide (0 < q) && decide (a + q * 10 * ms ≤ t)
  | none => false

/-- SPLICE_REVERT (R245): A is qualified, and is taken for the next origin frame that arrives whole on both paths. -/
def State.autoRevert (s : State) (d : Nat) : State :=
  if s.qualified d s.now && (s.hdir d).onB && s.pathOk d false && !(s.hdir d).hostHold then
    (s.setHdir d { s.hdir d with pend := some false }).takeSwitch d
  else s

def execSpliceRevert (t : BitVec 64) (d : Fin 8) (s : State) : Host.Outcome State Fault Refusal :=
  .next ((s.at t).autoRevert d.val)

/-- HCH_CTL written (R225): carried out in READY, held in any other mode. -/
def State.wrHchCtl (s : State) (w : Word) : State :=
  if s.mode.mode = .ready then (s.unhold .hchCtl).setReg .hchCtl (RegId.mergeX .hchCtl (s.reg .hchCtl) w)
  else s.hold .hchCtl w

def execModnumWrite (t : BitVec 64) (w : Word) (s : State) : Host.Outcome State Fault Refusal :=
  .next (s.hubWrite t (fun a => a.wrHchCtl w))

/-- HCH_TXMAP written (R237): it holds from the next origin frame. -/
def State.wrTxMap (s : State) (i : Nat) (w : Word) : State :=
  let s1 := s.writeFields (.hchTxMap i) w
  { s1 with hch := { s1.hch with
    txMaps := Tab.put s1.hch.txMaps i ((frameOf s1.now + 1, s1.reg (.hchTxMap i)) :: Tab.get s1.hch.txMaps i []) } }

/-- PRBS31 runs on lane l (R248). -/
def State.prbsOn (s : State) (l : Nat) : Bool := s.mode.mode == .test && decide (s.fld (.hchLaneCtl l) 2 2 = 1)

/-- The bit errors that a PRBS31 test which ends has counted and no read has yet taken (R248): a free value. -/
def State.prbsEnds (s : State) (l : Nat) : State :=
  s.tick.bump (.hchPrbsErr l) (Config.measured (RegId.hchPrbsErr l).off s.free).toNat

/-- HCH_LANECTL written (R248): a lane that enters or leaves a test changes the health of its path. -/
def State.wrLaneCtl (s : State) (l : Nat) (w : Word) : State :=
  let s1 := s.writeFields (.hchLaneCtl l) w
  (if s.prbsOn l && !s1.prbsOn l then s1.prbsEnds l else s1).evalHealth (laneDir l).1 2

/-- On entry to TEST the lane tests take effect (R248). -/
def State.startLaneTests (s : State) : State := (List.range 8).foldl (fun a d => a.evalHealth d 2) s

/-- On exit from TEST the lane tests end, and their lanes hunt again (R248). -/
def State.endLaneTests (s : State) : State :=
  (List.range 32).foldl (fun a l =>
    if a.fld (.hchLaneCtl l) 2 0 = 0 then a else
    let d := (laneDir l).1
    let b := (laneDir l).2
    let a0 := if a.fld (.hchLaneCtl l) 2 2 = 1 then a.prbsEnds l else a
    let a1 := (a0.setFld (.hchLaneCtl l) 2 0 0).setLane l { a0.lane l with lock := false }
    let x := a1.hdir d
    a1.setHdir d (x.setPath b { x.path b with markOk := false, cfgErr := none, healthy := false })) s

-- transmission

/-- What an export shows of origin frame j (R232, R233, R236): the record's 9 bits. -/
def exportRecord (h : List Chg) (bad : List Nat) (sel : Nat → Nat) (dflt j : Nat) : Nat :=
  let old := fun (l : List Chg) => match l.find? (fun c => decide (c.at' < 64 * (j + 1))) with | some c => sel c.val | none => sel dflt
  if j ∈ bad then old (h.filter (fun c => decide (frameOf c.at' ≠ j))) * 0x80 + 0x40 else
  match h.find? (fun c => c.wr && decide (frameOf c.stamp = j)) with
  | some c => 0x100 + sel c.val * 0x80 + c.stamp % 64
  | none => old h * 0x80

/-- Record of export e in origin frame j (R236): VALID = 0 is sent stale. -/
def State.exportBits (s : State) (e j : Nat) : Nat :=
  let a := s.fld (.hchExport e) 11 0
  if s.fld (.hchExport e) 31 31 = 0 then 0x40 else
  if a < 0x800 then exportRecord (s.slotHist (a / 2)) (s.upBad (a / 2)) (fun v => b2n (v.testBit (a % 2))) 3 j
  else exportRecord (Tab.get s.dec.trigs (a - 0x900) []) [] (fun v => v) 0 j

/-- A LOCAL container of origin frame j with export indices es (R232, R234, R237). -/
def State.localContainer (s : State) (es : List Nat) (j : Nat) : Nat :=
  let body := ((es.zip (List.range 5)).map (fun p => s.exportBits p.1 j * 2 ^ (9 * p.2))).foldl (· + ·) 0
  body + crc16 (checkBytes (s.fld .hchCtl 5 0) j es body) * 2 ^ 48

/-- What position c of direction d carries of origin frame j (R237): a LOCAL container; VOID for OFF, and for RELAY until
the container arrives. -/
def State.sendPos (s : State) (d c j : Nat) : State :=
  let m := s.txMapAt (3 * d + c) j
  if getF m 31 30 = 1 then s.putTx d c j (some (s.localContainer ((List.range 5).map (fun n => getF m (6 * n + 5) (6 * n))) j)) else
  if decide (getF m 31 30 = 2) && (s.txOf d c j).isSome then s else s.putTx d c j none

/-- The MARK block of a lane at the start of cycle n (R227, R231). -/
def markWord (modnum l n : Nat) : Nat :=
  0xD1 + l / 16 % 2 * 2 ^ 20 + l % 2 * 2 ^ 21 + l / 2 * 2 ^ 22 + modnum % 64 * 2 ^ 26 + n % 2 ^ 32 * 2 ^ 32

/-- A MARK on every lane of a direction that is not idle. -/
def State.sendMarks (s : State) (d n : Nat) : State :=
  (pathLanes d false ++ pathLanes d true).foldl (fun a l =>
    if (a.lane l).idle then a
    else { a with hch := { a.hch with txMark := Tab.put a.hch.txMark l (markWord (a.fld .hchCtl 5 0) l n) } }) s

/-- When a state-slot write stamped t has reached the hub: the stages of R35 before the frame assembly. -/
def atHub (t : Nat) : Nat := t + 1312

/-- The management blocks of a Hitch cycle, 8 on each lane, follow its slot frames evenly (R231; notes/assumptions/76): the
number of the block that follows slot frame n of the cycle. -/
def mgmtAt (n : Nat) : Option Nat := if 8 * n / 44 < 8 * (n + 1) / 44 then some (8 * n / 44) else none

/-- The STATUS block of a direction sent as management block m of the cycle on the lanes that are awake (R231, R235). -/
def State.sendStatus (s : State) (d j m : Nat) : State :=
  let x := s.hdir d
  let b := statusBlock (s.fld .hchCtl 5 0) (!x.a.healthy) x.onB
  (s.txLanes d 0 j ++ s.txLanes d 1 j).foldl (fun a l =>
    { a with hch := { a.hch with txStatus := Tab.put a.hch.txStatus (8 * l + m) b } }) s

/-- SLOT_FRAME_SEND (R231, R235, R237): the containers of origin frame j on every enabled direction, with a MARK at
the start of a cycle and the management blocks; once what was stamped in the frame has reached the hub (notes/assumptions/76). -/
def State.sendFrame (s : State) (j : Nat) : State :=
  let s0 := s.toTime (atHub (64 * (j + 1)))
  (List.range 8).foldl (fun a d =>
    if a.dirOn d = false then a else
    let a1 := if (j + 1) % 44 = 0 then a.sendMarks d ((j + 1) / 44) else a
    let a2 := (List.range 3).foldl (fun b c => b.sendPos d c j) a1
    match mgmtAt ((j + 1) % 44) with
    | some m => a2.sendStatus d j m
    | none => a2) s0

def execSlotFrameSend (j : Nat) (s : State) : Host.Outcome State Fault Refusal := .next (s.sendFrame j)

end Sys2Proof.Machine
end

