-- ==== Sys2Proof/Machine/ModeCore.lean ====
section
/-! DEFINITION. What the other units need of the operating modes (chapter 02): mode codes, the entry into a mode
(R38), HOLD causes and their evaluation (R46 to R49, R432), rails (R375), protection trips (R44, R431) with what the
journal keeps of them (R388), and the full reset (R55). -/

namespace Sys2Proof.Machine

/-- The mode codes (R38). -/
def Mode.code : Mode → Nat
  | .dormant => 0 | .boot => 1 | .ready => 2 | .run => 3 | .hold => 4 | .calibrate => 5 | .test => 6 | .safe => 7

/-- The code PENDREQ shows of a pending request: SAFE_ACK asks for READY, RESET for BOOT (R41). -/
def Req.code : Req → Nat
  | .run => 3 | .hold => 4 | .ready => 2 | .calibrate => 5 | .test => 6 | .dormant => 0 | .safeAck => 2 | .reset => 1

def State.setMode (s : State) (m : ModeSt) : State := { s with mode := m }

/-- The entry into a mode at tick t: MODE_CHANGE with the old and the new mode, MODE_ENTRYTIME (R38). -/
def State.enterMode (s : State) (m : Mode) (t : Nat) : State :=
  let old := s.mode.mode
  (s.setMode { s.mode with mode := m, entryTime := t, trans := none }).raise .modeChange 0 0 t [wd old.code, wd m.code]

/-- MODE_REFUSED (R42, R43). -/
def State.refuse (s : State) (t : Nat) : State := s.raise .modeRefused 0 0 (up8 t) []

/-- A transition to mode m begins; it completes at tick due (R41). -/
def State.beginTrans (s : State) (m : Mode) (due : Nat) : State :=
  s.setMode { s.mode with trans := some (m, due), transAt := s.now }

-- HOLD causes

/-- REF_IN is lost and a HOLD cause (R47, R255). -/
def State.refHolds (s : State) : Bool := s.sync.lost.isSome && decide (s.fld .modeCtl 4 4 = 1)

/-- The rate-of-rise warning is active and a HOLD cause (R47, R383). -/
def State.warnHolds (s : State) : Bool := s.thm.warn && decide (s.fld .modeCtl 5 5 = 1)

/-- A HOLD cause other than HOST is active, or would be in RUN (R49, R432). -/
def State.blocking (s : State) : Bool := s.refHolds || s.warnHolds

/-- The end of the last segment issued on the units of an output, or tick t (R47). -/
def State.segEnd (s : State) (k o t : Nat) : Nat :=
  maxOf t ((outUnits o).map (fun u => match (s.punit k u).seg with | some g => g.stop | none => 0))

/-- HOLD with cause REF makes every output held, from the end of its last segment or from T_pause (R47, R142). -/
def State.refHold (s : State) : State :=
  (s.outs.map (·.1)).foldl (fun a e => a.goHeld (e / 22) (e % 22) (up8 (max a.now (a.segEnd (e / 22) (e % 22) a.mode.tPause))) false false) s

/-- HOLDCAUSE as the causes stand (R47): it shows causes in RUN and HOLD only. A REF cause that arises in HOLD acts
on the outputs at once. -/
def State.refreshHold (s : State) : State :=
  let m := s.mode.mode
  if m == .run || m == .hold then
    let s1 := s.setMode { s.mode with holdRef := s.refHolds, holdTherm := s.warnHolds }
    if m == .hold && s1.mode.holdRef && !s.mode.holdRef then s1.refHold else s1
  else s.setMode { s.mode with holdHost := false, holdRef := false, holdTherm := false }

/-- HOLD begins for a request or cause that reaches the hub now: T_pause is the start of the second fabric cycle
after it (R46). -/
def State.startHold (s : State) : State :=
  let tp := fl8 s.now + 16
  let s1 := s.beginTrans .hold tp
  s1.setMode { s1.mode with tPause := tp }

/-- T_resume of a resume that arrives at tick a (R48, R49). -/
def State.resumeTime (s : State) (a : Nat) : Nat :=
  let r := s.reg64 .modeResumeLo .modeResumeHi
  if r = 0 ∨ r < a + 4 * us then up8 (a + 4 * us) else up8 r

/-- A resume is accepted now (R48); it clears the cause HOST (R47). -/
def State.startResume (s : State) : State :=
  let tr := s.resumeTime s.now
  let s1 := s.beginTrans .run tr
  s1.setMode { s1.mode with holdHost := false }

/-- READY to RUN begins: 2 fabric cycles (R41). -/
def State.startRun (s : State) : State := s.beginTrans .run (s.now + 16)

/-- The causes evaluated after a change (R47, R49, R432): in RUN an active cause begins HOLD; in HOLD it withdraws an
accepted resume, which is then held pending, unless a later request has taken its place, which is judged from HOLD then (R43;
notes/assumptions/15); with no cause left a pending RUN request is carried out. -/
def State.evalHold (s : State) : State :=
  let s1 := s.refreshHold
  match s1.mode.mode, s1.mode.trans with
  | .run, none => if s1.blocking then s1.startHold else s1
  | .hold, some (.run, _) =>
    if s1.blocking = false then s1 else
    match s1.mode.pend with
    | none => s1.setMode { s1.mode with trans := none, pend := some .run }
    | some .run => s1.setMode { s1.mode with trans := none }
    | some .ready => s1.setMode { s1.mode with trans := none }
    | some .reset => (s1.setMode { s1.mode with trans := none, pend := none }).beginTrans .boot (s1.now + us)
    | some _ => (s1.setMode { s1.mode with trans := none, pend := none }).refuse s1.now
  | .hold, none =>
    if s1.mode.pend = some .run ∧ s1.blocking = false then (s1.setMode { s1.mode with pend := none }).startResume else s1
  | .ready, none =>
    if s1.mode.pend = some .run ∧ s1.blocking = false then (s1.setMode { s1.mode with pend := none }).startRun else s1
  | _, _ => s1

-- rails

/-- The main rails are switched on: from step 5 of the power-on sequence until DORMANT or shedding (R375). -/
def State.mainOn (s : State) : Bool := s.supply == .on && s.mode.mode != .dormant && !s.pwr.shed

/-- Whether a rail is switched on (R3, R375): the retention rails are those of the plies that the variant has. -/
def State.railOn (s : State) (b : Nat) : Bool :=
  if b < 2 then s.supply == .on || s.supply == .holdUp && b == 1 else
  if b < 4 then s.mainOn else
  if 12 ≤ b ∧ b < 16 then s.mainOn && decide (b - 12 < s.plyCount) else
  s.mainOn && s.mode.plyPower && (s.ply (b % 4)).st != .stopped

/-- PWR_RAILSTAT (R375): a rail reads 1 while it is on and within its limits. -/
def State.railStat (s : State) : Nat :=
  ((List.range 20).map (fun b => if s.railOn b && !s.pwr.railsBad.contains b then 2 ^ b else 0)).foldl (· + ·) 0

-- trips

/-- What a journal record keeps of its cause, for a cause now (R388). -/
def State.jcause (s : State) (kind : Nat) : JCause :=
  { kind := kind, time := s.now, mode := s.mode.mode.code, safe := s.mode.safeCause, rails := s.railStat,
    temps := s.thm.temps ++ s.thm.ext.map (fun t => t.getD 0) }

/-- Whether a journal record is one of a protection trip (R388). -/
def JCause.ofTrip (j : JCause) : Bool := decide (j.kind ≤ 4)

/-- What a trip does to the flash (R389, R390, R401): every other pending write is abandoned, an image transfer and a
mailbox command in progress with it; the trip's record is pending, shared with a cause whose record has not started. -/
def State.tripJournal (s : State) (j : JCause) : State :=
  let old := s.pwr.jPend.filter JCause.ofTrip
  { s with pwr := { s.pwr with jPend := if old.isEmpty then [j] else old },
           mc := { s.mc with xfer := none, busy := false,
                             rsp := if s.mc.busy then 0x06000000 + s.fld .mcMbCmd 23 16 * 2 ^ 16 else s.mc.rsp } }

/-- A record to be written to the journal. -/
def State.toJournal (s : State) (j : JCause) : State := { s with pwr := { s.pwr with jPend := s.pwr.jPend ++ [j] } }

/-- A trip's effect on the outputs, cores and windows at boundary b (R44, R142, R174, R200): every output at zero scale
and muted, cores halted, windows discarded, staged packets committed with SHOTINV, or lost with the ply power, the summaries
due with them. -/
def State.tripEffects (s : State) (b : Nat) (lose : Bool) : State :=
  let s1 := (s.calAbortIf (fun _ => true)).invalidAll b
  let s2 := (s1.cores.map (·.1)).foldl (fun a c => a.endAllShots c b) s1
  let s3 := (List.range Config.strands).foldl (fun a k =>
    let a1 := a.clearWins k
    if lose then a1.setStrand k { a1.strand k with staged := [] } else a1.flushCores k (fun _ => true)) s2
  let s4 := s3.mapCores (fun _ x =>
    let y := if x.active || x.st == .held then x.stopped .idle b else x
    if lose then { y with shots := [] } else y)
  let s5 := { s4 with units := s4.units.map (fun (e : Nat × PUnit) => (e.1, { e.2 with seg := none })),
                      queues := s4.queues.map (fun (e : Nat × Queue) => (e.1, { e.2 with bound := none })),
                      rtones := s4.rtones.map (fun (e : Nat × Rtone) => (e.1, { e.2 with wins := [] })) }
  let s6 := s5.holdAllOuts b true true
  { s6 with mem := { s6.mem with test := s6.mem.test.map (fun (x : MemTest) => { x with abort := true }) } }

/-- A protection trip with SAFECAUSE index idx is detected now (R41, R43, R44, R431): its cause is recorded, and unless
the module is in DORMANT or SAFE or a trip is on its way already, outputs and cores stop, a transition in progress
ends and a pending request is refused. `lose`: the cause removes ply power at once (R200). -/
def State.trip (s : State) (idx : Nat) (j : JCause) (lose : Bool) : State :=
  let b := up8 s.now
  if s.mode.mode = .dormant then s else
  let m := s.mode
  let s1 := s.setMode { m with safeCause := if m.safeCause = 0 then idx else
                                 if m.tripAt.any (fun a => decide (a / 8 = s.now / 8)) then min m.safeCause idx else m.safeCause,
                               causes := if m.causes.contains idx then m.causes else m.causes ++ [idx] }
  let s2 := s1.tripJournal { j with safe := s1.mode.safeCause }
  if m.mode = .safe ∨ m.tripAt.isSome = true then s2 else
  let s3 := if m.pend.isSome then (s2.setMode { s2.mode with pend := none }).refuse s.now else s2
  let s4 := s3.tripEffects b lose
  s4.setMode { s4.mode with trans := some (.safe, s.now + us), transAt := s.now, tripAt := some s.now,
                            holdHost := false }

-- full reset

/-- The levels of the trigger lines before INV (R326): what the inputs read once INV is 0 again. -/
def State.lineLevels (s : State) : Tab Nat :=
  ((List.range 32).map (fun i => (i, (Tab.get s.tio.level i 0 + s.fld (.tioInCtl i) 2 2) % 2))).filter (fun e => decide (e.2 = 1))

/-- The steps of the power-on sequence in BOOT (R50): the step in progress at so many ticks after BOOT entry, each taken to last
until the time by which it is complete (notes/assumptions/77). -/
def bootStepAt (d : Nat) : Nat :=
  if d < 30 * ms then 5 else if d < 31 * ms then 6 else if d < 121 * ms then 8 else if d < 121042 * us then 9 else
  if d < 600 * ms then 10 else 11

/-- BOOTSTEP (R50). -/
def State.bootStepNow (s : State) : Nat :=
  if s.mode.mode = .boot then bootStepAt (s.now - s.mode.transAt) else s.mode.bootStep

/-- The state a full reset leaves (R55, R18, R225, R257, R301): every register at its reset value but PWR_CTL, every
memory initialised, queues, links and units at rest; module time, the always-on domain's sensors, the journal, the
controller and the flash stand. Trigger bits take the levels of their inputs. A mode request held pending stands (R43). -/
def State.fullReset (s : State) : State :=
  let trigs : Tab (List Chg) := s.lineLevels.map (fun e => (e.1, [{ at' := 0, stamp := 0, val := 1, wr := false }]))
  { pending := s.pending, half := s.half, now := s.now, free := s.free, rdata := s.rdata, supply := s.supply,
    regs := s.regs.filter (fun e => decide (e.1 = RegId.pwrCtl.off)),
    mode := { mode := s.mode.mode, entryTime := s.mode.entryTime, safeCause := s.mode.safeCause, causes := s.mode.causes,
              autoDone := s.mode.autoDone, plyPower := true, pend := s.mode.pend },
    dec := { trigs := trigs },
    tio := { level := s.lineLevels },
    thm := s.thm, pwr := { s.pwr with railsBad := [], shed := false, fullFans := false, jData := [] },
    mc := { s.mc with xfer := none, busy := false, rsp := 0 },
    mem := {}, sync := { refValid := s.sync.refValid, validAt := s.sync.validAt },
    hostMem := s.hostMem }

end Sys2Proof.Machine
end

