-- ==== Sys2Proof/Machine/HifCore.lean ====
section
/-! DEFINITION. Rings, doorbells and completions (chapter 11): the link (R277, R278), enabling and disabling ring
pairs (R284), reading doorbell records and fetching descriptors (R281 to R283), forming and writing completion entries
(R291, R292), with the meanings of the link, ring, doorbell and completion rows. -/

namespace Sys2Proof.Machine

def State.ring (s : State) (n : Nat) : Ring := Tab.get s.hif.rings n {}
def State.setRing (s : State) (n : Nat) (r : Ring) : State := { s with hif := { s.hif with rings := Tab.put s.hif.rings n r } }

/-- The SQ and CQ queues of ring pair n (R284), its size in entries, and its bases. -/
def State.sqQueue (s : State) (n : Nat) : Nat := s.fld (.hifRingQ n) 14 0
def State.cqQueue (s : State) (n : Nat) : Nat := s.fld (.hifRingQ n) 30 16
def State.ringSize (s : State) (n : Nat) : Nat := 2 ^ s.fld (.hifRingCtl n) 20 16
def State.sqBase (s : State) (n : Nat) : Nat := s.reg64 (.hifSqLo n) (.hifSqHi n)
def State.cqBase (s : State) (n : Nat) : Nat := s.reg64 (.hifCqLo n) (.hifCqHi n)

/-- Ring pair n holds its queues: it is enabled, or drains (R284). -/
def Ring.open' (r : Ring) : Bool := r.on || r.draining

/-- Descriptors of ring pair n that have started and not completed, frames in a launch list among them (R288, R290). -/
def State.running (s : State) (n : Nat) : Nat :=
  (s.hif.started.filter (fun x => decide (x.ring = n))).length + (s.ptp.list.filter (fun f => decide (f.ring = n))).length

/-- Descriptors of ring pair n in flight: fetched, started, or with an entry that waits (R282). -/
def State.inflight (s : State) (n : Nat) : Nat :=
  if (s.ring n).open' then
    (s.queue (s.sqQueue n)).pkts.length + s.running n + (s.queue (s.cqQueue n)).pkts.length
  else 0

/-- Descriptors in flight in all (R282). -/
def State.inflightAll (s : State) : Nat := ((s.hif.rings.map (·.1)).map s.inflight).foldl (· + ·) 0

/-- RINGSTAT.STOPPED (R283, R284). -/
def State.ringStopped (s : State) (n : Nat) : Bool := (s.ring n).halted || (!(s.ring n).on && s.inflight n == 0)

/-- A draining ring with nothing left in flight is at rest (R284). -/
def State.drained (s : State) (n : Nat) : State :=
  if (s.ring n).draining && s.inflight n == 0 then s.setRing n { s.ring n with draining := false } else s

-- completions

/-- A completion entry without its PHASE: status, ring, TAG, COUNT, DETAIL, RCRC (R291). -/
structure Entry where
  status : Nat
  count : Nat := 0
  detail : Nat := 0
  rcrc : Nat := 0
  pended : Bool := false
  deriving DecidableEq, Repr

/-- The 32 bytes of an entry (R291). -/
def Entry.bytes (e : Entry) (n tag tdone : Nat) (phase : Bool) : List Byte :=
  whipped (leBytes 4 (e.status * 2 ^ 24 + n * 2 ^ 18 + b2n e.pended * 2 ^ 17 + b2n phase * 2 ^ 16 + tag) ++
    leBytes 4 e.count ++ leBytes 8 tdone ++ leBytes 4 e.detail ++ leBytes 4 e.rcrc ++ leBytes 4 0)

/-- A descriptor of ring pair n completes (R291, R292): its entry waits in the CQ queue; entries of a ring whose link
went down are discarded (R278). The first HOSTERR after a clear raises HIF_DMAERR. -/
def State.complete (s : State) (n : Nat) (desc : List Byte) (e : Entry) : State :=
  let r := s.ring n
  let s0 := if e.status = 7 ∧ getF (s.flagWord .hifFlags) 2 2 = 0 then s.raise .hifDmaerr 0 0 (up8 s.now) [] else s
  if r.open' = false ∨ 64 ≤ n then s0 else
  let q := s0.queue (s0.cqQueue n)
  let idx := r.cqTail + q.pkts.length
  let phase := decide (idx / s0.ringSize n % 2 = 0)
  s0.pushPacket (s0.cqQueue n) { bytes := e.bytes n (leAt desc 0 2) s0.now phase, first := s0.now, vis := some s0.now }

/-- HIF_RING with the ring and the cause of ERRCAUSE code c (R283, R284). -/
def State.ringEvent (s : State) (n c : Nat) : State := s.raise .hifRing 0 n (up8 s.now) [wd (c - 1)]

/-- A ring stops with ERRCAUSE c (R283). -/
def State.stopRing (s : State) (n c : Nat) : State :=
  (s.setRing n { s.ring n with halted := true, cause := c }).ringEvent n c

/-- A descriptor or an entry of queue qn that cannot be read is reported, the ring stopped with cause FETCH (R308,
R359), and the packet dropped (notes/assumptions/36). -/
def State.unreadable (s : State) (n qn i : Nat) (p : Packet) : State :=
  let q := s.queue qn
  let s1 := s.memUe (q.base + (Config.packetAt qn p.first p.bytes.length + i) % q.size) (up8 s.now)
  ((s1.setQueue qn { q with pkts := q.pkts.tail }).stopRing n 3).drained n

/-- COMPLETION_ENTRY (R291): the oldest waiting entry is written to the completion ring while it has room. -/
def State.writeEntry (s : State) (n : Nat) : State :=
  let r := s.ring n
  let q := s.queue (s.cqQueue n)
  if r.open' = false ∨ s.hif.up = false ∨ s.ringSize n ≤ r.cqTail - r.cqHead then s else
  match q.pkts with
  | [] => s
  | p :: ps =>
    match s.hurt (s.cqQueue n) p with
    | some i => s.unreadable n (s.cqQueue n) i p
    | none =>
    let a := s.cqBase n + 32 * (r.cqTail % s.ringSize n)
    let s1 := s.setQueue (s.cqQueue n) { q with pkts := ps }
    let s2 := { s1 with hostMem := Mem.writes s1.hostMem a p.bytes }
    (s2.setRing n { r with cqTail := r.cqTail + 1 }).drained n

def execCompletionEntry (t : BitVec 64) (n : Fin 64) (s : State) : Host.Outcome State Fault Refusal :=
  .next ((s.at t).writeEntry n.val)

-- the link

/-- LINK_UP (R277): the link trains; below x16 or 32 GT/s it is degraded. Only with the main rails up (R50). -/
def State.linkUp (s : State) (speed width : Nat) (ecrc : Bool) : State :=
  if s.mainOn = false then s else
  let s1 := { s with hif := { s.hif with up := true, speed := speed, width := width, ecrc := ecrc } }
  if speed < 5 ∨ width < 16 then s1.raise .hifDegraded 0 0 (up8 s.now) [] else s1

def execLinkUp (t : BitVec 64) (speed : Fin 6) (width : Fin 17) (ecrc : Bool) (s : State) :
    Host.Outcome State Fault Refusal := .next ((s.at t).linkUp speed.val width.val ecrc)

/-- Whether an offset lies in the HIF_ block (R415). -/
def isHif (off : Nat) : Bool := decide (0x10000 ≤ off) && decide (off < 0x20000)

/-- The HIF_ registers at their reset values (R278). -/
def State.resetHif (s : State) : State :=
  { s with regs := s.regs.filter (fun e => !isHif e.1), lows := s.lows.filter (fun e => !isHif e.1),
           latch := s.latch.filter (fun e => !isHif e.1), flags := s.flags.filter (fun e => !isHif e.1) }

/-- The queue of a ring emptied. -/
def State.emptyQueue (s : State) (q : Nat) : State := s.setQueue q { s.queue q with pkts := [] }

/-- LINK_DOWN (R278, R55): every ring disabled, descriptors that have not started discarded without effect, started
ones left without an entry, HIF_LINKDOWN with both counts, HIF_ registers reset. -/
def State.linkDown (s : State) : State :=
  if s.hif.up = false then s else
  let open' := (s.hif.rings.filter (fun e => e.2.open')).map (·.1)
  let descs := (open'.map (fun n => (s.queue (s.sqQueue n)).pkts.length)).foldl (· + ·) 0
  let comps := (open'.map (fun n => (s.queue (s.cqQueue n)).pkts.length)).foldl (· + ·) 0 +
    (open'.map s.running).foldl (· + ·) 0
  let s1 := open'.foldl (fun a n => (a.emptyQueue (a.sqQueue n)).emptyQueue (a.cqQueue n)) s
  let s2 := { s1 with
    hif := { up := false, started := s1.hif.started.map (fun (x : Started) => { x with ring := 64 }) },
    ptp := { s1.ptp with list := s1.ptp.list.map (fun (f : Frame) => { f with ring := 64 }) } }
  (s2.resetHif).raise .hifLinkdown 0 0 (up8 s.now) [wd descs, wd comps]

def execLinkDown (t : BitVec 64) (perst : Bool) (s : State) : Host.Outcome State Fault Refusal :=
  let _ := perst
  .next ((s.at t).linkDown)

-- rings

/-- Another enabled ring pair uses a queue (R297). -/
def State.usedByRing (s : State) (n q : Nat) : Bool :=
  s.hif.rings.any (fun e => e.1 != n && e.2.open' && (s.sqQueue e.1 == q || s.cqQueue e.1 == q))

/-- ENABLE = 1 of ring pair n (R284). -/
def State.ringOn (s : State) (n : Nat) : State :=
  let ok := s.inRole (s.sqQueue n) 1 && s.inRole (s.cqQueue n) 2 &&
    !s.usedByRing n (s.sqQueue n) && !s.usedByRing n (s.cqQueue n)
  if ok then s.setRing n { on := true }
  else ((s.setFld (.hifRingCtl n) 0 0 0).setRing n { s.ring n with cause := 4 }).ringEvent n 4

/-- HIF_RINGCTL written (R284, R294): of a ring that is enabled or drains only ENABLE = 0 is taken
(notes/assumptions/31). -/
def State.wrRingCtl (s : State) (n : Nat) (w : Word) : State :=
  let r := s.ring n
  if r.on then
    if getF w 0 0 = 1 then s else
    ((s.setFld (.hifRingCtl n) 0 0 0).setRing n { r with on := false, halted := false, draining := true }).drained n
  else if r.draining then s else
  let s1 := s.writeFields (.hifRingCtl n) w
  if s1.fld (.hifRingCtl n) 0 0 = 1 then s1.ringOn n else s1

def execRingEnable (t : BitVec 64) (n : Fin 64) (w : Word) (s : State) : Host.Outcome State Fault Refusal :=
  .next (s.hubWrite t (fun a => a.wrRingCtl n.val (setF w 0 0 1)))

def execRingDisable (t : BitVec 64) (n : Fin 64) (w : Word) (s : State) : Host.Outcome State Fault Refusal :=
  .next (s.hubWrite t (fun a => a.wrRingCtl n.val (setF w 0 0 0)))

/-- A ring's other registers written: discarded while it is enabled or drains (R284). -/
def State.wrRingReg (s : State) (n : Nat) (r : RegId) (w : Word) : State :=
  if (s.ring n).open' then s else s.writeFields r w

-- doorbells

/-- A read of the doorbell record of ring pair n starts; one in progress is joined (R281). -/
def State.startRead (s : State) (n : Nat) : State :=
  let r := s.ring n
  if r.on && r.reading.isNone && s.hif.up && s.blocksUp then s.setRing n { r with reading := some s.now } else s

/-- The records of all enabled rings read (R281). -/
def State.readAll (s : State) : State := (s.hif.rings.map (·.1)).foldl State.startRead s

/-- DOORBELL_POLL (R281): the interval of POLL µs expires. -/
def State.poll (s : State) : State :=
  let p := s.fld .hifCtl 19 0
  if p = 0 then s else
  let s1 := s.clockTo (s.hif.lastPoll + p * us)
  { s1 with hif := { s1.hif with lastPoll := s1.now } }.readAll

def execDoorbellPoll (s : State) : Host.Outcome State Fault Refusal := .next s.poll

/-- HIF_KICK written (R281). -/
def State.wrKick (s : State) (w : Word) : State :=
  if getF w 31 31 = 1 then s.readAll else s.startRead (getF w 5 0)

def execHifKick (t : BitVec 64) (w : Word) (s : State) : Host.Outcome State Fault Refusal := .next (s.hubWrite t (fun a => a.wrKick w))

/-- Descriptors fetched in index order up to SQTAIL, while the ring and the module have room in flight, the SQ queue has
room and the CQ queue can hold an entry for each (R282, R297); a failed fetch stops the ring (R283). -/
def State.fetchUpTo (s : State) (n tail : Nat) (ok : Bool) : Nat → State
  | 0 => s
  | k + 1 =>
    let r := s.ring n
    let q := s.queue (s.sqQueue n)
    if r.sqHead % 2 ^ 32 = tail ∨ s.fld (.hifRingCtl n) 15 5 ≤ s.inflight n ∨ 1024 ≤ s.inflightAll ∨ q.room 64 = false ∨
       (s.queue (s.cqQueue n)).size < 32 * (s.inflight n + 1) then s else
    if ok = false then s.stopRing n 3 else
    let bs := Mem.reads s.hostMem (s.sqBase n + 64 * (r.sqHead % s.ringSize n)) 64
    let s1 := (s.pushPacket (s.sqQueue n) { bytes := bs, first := s.now, vis := some s.now }).setRing n
      { r with sqHead := r.sqHead + 1 }
    State.fetchUpTo s1 n tail ok k

/-- DOORBELL_READ (R280, R282, R283): the read of ring n's record completes; a bad index stops the ring, and else new
descriptors are fetched. `recordOk` and `fetchOk`: the reads of the record and of a descriptor succeed. -/
def State.doorbell (s : State) (n : Nat) (recordOk fetchOk : Bool) : State :=
  let r := s.ring n
  if r.on = false ∨ r.reading.isNone = true then s else
  let s1 := s.setRing n { r with reading := none }
  if r.halted then s1 else
  if recordOk = false then s1.stopRing n 3 else
  let a := s.reg64 .hifDbLo .hifDbHi + 16 * n
  let tail := Mem.num s.hostMem a 4
  let head := Mem.num s.hostMem (a + 4) 4
  let ahead := (tail + 2 ^ 32 - r.sqHead % 2 ^ 32) % 2 ^ 32
  let wait := (r.cqTail % 2 ^ 32 + 2 ^ 32 - head) % 2 ^ 32
  if s.ringSize n < ahead then s1.stopRing n 1 else
  if s.ringSize n < wait then s1.stopRing n 2 else
  let s2 := s1.setRing n { s1.ring n with cqHead := r.cqTail - wait }
  s2.fetchUpTo n tail fetchOk ahead

def execDoorbellRead (t : BitVec 64) (n : Fin 64) (recordOk fetchOk : Bool) (s : State) :
    Host.Outcome State Fault Refusal := .next ((s.at t).doorbell n.val recordOk fetchOk)

end Sys2Proof.Machine
end

