-- ==== Sys2Proof/Machine/Queues.lean ====
section
/-! DEFINITION. The queue manager's controls (chapter 12): enabling (R299, R300), disabling (R301) and flushing
(R314, R315) queues, the window of QM_SEL (R318, R319), and the count word (R316), with the meanings of the queue
rows. -/

namespace Sys2Proof.Machine

/-- The queue that QM_SEL selects (R319). -/
def State.selQ (s : State) : Nat := s.fld .qmSel 14 0

/-- The end of a queue's region. -/
def Queue.limit (q : Queue) : Nat := q.base + q.size

/-- Whether a byte range overlaps the region of an enabled queue other than qn (R299, R301). -/
def State.overlapsQueue (s : State) (qn lo hi : Nat) : Bool :=
  s.queues.any (fun e => e.1 != qn && e.2.enabled && decide (e.2.base < hi) && decide (lo < e.2.limit))

/-- Burst buffers free (R300). -/
def State.bufFree (s : State) : Nat := 4096 - (s.queues.filter (fun e => e.2.enabled)).length

/-- A bound unit's reading of its queue brought up to the present time. -/
def State.settleReader (s : State) (qn : Nat) : State :=
  match (s.queue qn).bound with
  | some (.unit k u) => s.settleStream k.val u.val s.now
  | _ => s

/-- A core in a state that keeps its stream source (R301). -/
def Core.keepsStream (c : Core) : Bool :=
  (c.active || c.st == .armed || c.st == .held) && (c.inStream || c.calls.any (·.2))

/-- A queue is in use, so that a disable is held (R301): named by an enabled ring pair, the stream source of a core, or
being read by a segment. -/
def State.queueBusy (s : State) (qn : Nat) : Bool :=
  s.hif.rings.any (fun e => e.2.open' && (s.sqQueue e.1 == qn || s.cqQueue e.1 == qn)) ||
  s.cores.any (fun e => e.2.keepsStream && decide (s.fld (.seqStreamQ e.1) 14 0 = qn)) ||
  (match (s.queue qn).bound with | some (.unit _ _) => true | _ => false)

/-- The started descriptors on queue qn with operation op complete with entries formed from them. -/
def State.finishOn (s : State) (op qn : Nat) (f : Started → Entry) : State :=
  let mine := fun (x : Started) => decide (leAt x.desc 3 1 = op) && decide (bits (leAt x.desc 4 4) 14 0 = qn)
  let s1 := { s with hif := { s.hif with started := s.hif.started.filter (fun x => !mine x) } }
  (s.hif.started.filter mine).foldl (fun a x => (a.complete x.ring x.desc (f x)).drained x.ring) s1

/-- A disable takes effect (R301): the packets are discarded, the count word reads 0, the buffer is free, a QWRITE that
waited for room completes with what it committed. -/
def State.disableNow (s : State) (qn : Nat) : State :=
  let q := s.queue qn
  let s1 := s.setQueue qn { q with enabled := false, pendDis := false, flushAt := none, content := 0, bound := none,
                                   pkts := [], skip := 0 }
  let s0 := { s1 with flags := s1.flags.filter (fun e => decide (e.1 ≠ (RegId.countWord qn).off)) }
  let s2 := s0.finishOn 0x20 qn (fun x => { status := 0, count := x.moved, detail := x.pkts })
  s2.finishOn 0x22 qn (fun _ => { status := 0 })

/-- QM_CONFIG with the queue and the cause (R299). -/
def State.qmConfig (s : State) (qn cause : Nat) : State := s.raise .qmConfig 0 qn (up8 s.now) [wd cause]

/-- ENABLE = 1 of a disabled queue (R299): refused for base, overlap, role or buffer. -/
def State.enableQueue (s : State) (qn : Nat) : State :=
  let q := s.queue qn
  if q.base % q.size ≠ 0 then s.qmConfig qn 0 else
  if s.overlapsQueue qn q.base q.limit then s.qmConfig qn 1 else
  if q.role = 0 then s.qmConfig qn 2 else
  if s.bufFree = 0 then s.qmConfig qn 3 else
  s.setQueue qn { q with enabled := true }

/-- ENABLE = 0 of an enabled queue (R301). -/
def State.disableQueue (s : State) (qn : Nat) : State :=
  let s1 := s.settleReader qn
  if s1.queueBusy qn then s1.setQueue qn { s1.queue qn with pendDis := true } else s1.disableNow qn

-- flush

/-- The reader is inside a packet of the queue (R314). -/
def Queue.inside (q : Queue) : Bool := insidePkt q.pkts

/-- A flush of queue qn requested at t_r takes effect (R314, R315): packets whose first word was written before t_r
and which the reader has not begun are discarded, and the rest of a packet whose reader unbound inside it. -/
def State.flushNow (s : State) (qn tr : Nat) : State :=
  let q := s.queue qn
  let gone := fun (p : Packet) => decide (p.first < tr) && p.taken == 0
  let cut := fun (p : Packet) => decide (0 < p.taken) && q.bound.isNone
  let whole := q.pkts.filter gone
  let rest := q.pkts.filter cut
  let bytes := ((whole ++ rest).map (fun p => p.bytes.length - p.taken)).foldl (· + ·) 0
  let s1 := s.setQueue qn { q with pkts := q.pkts.filter (fun p => !(gone p || cut p)), flushAt := none, skip := 0 }
  (if whole = [] then s1 else s1.bumpKey (qKey qn 2) whole.length).finishOn 0x22 qn (fun _ => { status := 0, count := bytes })

/-- The moment of a pending flush has come: no reader, or a reader not inside a packet (R314). -/
def State.flushDue (s : State) (qn : Nat) : Bool := (s.queue qn).bound.isNone || !(s.queue qn).inside

/-- A flush of queue qn requested now (R314, R315): refused for a ring's queue, joined where one is pending. -/
def State.askFlush (s : State) (qn : Nat) : State :=
  let s1 := s.settleReader qn
  let q := s1.queue qn
  if q.enabled = false ∨ q.role = 1 ∨ q.role = 2 ∨ q.flushAt.isSome = true then s1 else
  if s1.flushDue qn then s1.flushNow qn s.now else s1.setQueue qn { q with flushAt := some s.now }

-- QM_QCTL

/-- ROLE and THRESH of the queue profiles (R318). -/
def queueProfile (c : Nat) : Nat × Nat :=
  (if c < 4 then c else c - 1, if c = 3 then 8 else 0)

/-- The role and profile of a disabled queue after a write of QM_QCTL (R15, R17, R318). -/
def Queue.setRole (q : Queue) (w : Word) : Queue :=
  let c := if getF w 31 24 ≤ 8 ∨ getF w 31 24 = 0xFF then getF w 31 24 else q.prof
  if c = 0xFF then { q with prof := c, role := getF w 2 0 }
  else { q with prof := c, role := (queueProfile c).1, thr := (queueProfile c).2 }

/-- QM_QCTL written for the selected queue (R299, R301, R314, R318). -/
def State.wrQctl (s : State) (w : Word) : State :=
  let qn := s.selQ
  let q := s.queue qn
  let on := decide (getF w 16 16 = 1)
  let s1 :=
    if q.enabled then
      if on then s.setQueue qn { q with pendDis := false } else s.disableQueue qn
    else
      let s0 := s.setQueue qn (q.setRole w)
      if on then s0.enableQueue qn else s0
  if getF w 18 18 = 1 then s1.askFlush qn else s1

def execQueueEnable (t : BitVec 64) (w : Word) (s : State) : Host.Outcome State Fault Refusal :=
  .next (s.hubWrite t (fun a => a.wrQctl (setF w 16 16 1)))

def execQueueDisable (t : BitVec 64) (w : Word) (s : State) : Host.Outcome State Fault Refusal :=
  .next (s.hubWrite t (fun a => a.wrQctl (setF w 16 16 0)))

def execQueueFlush (t : BitVec 64) (w : Word) (s : State) : Host.Outcome State Fault Refusal :=
  .next (s.hubWrite t (fun a => a.wrQctl (setF w 18 18 1)))

/-- QUEUE_DISABLE_DONE (R301): a held disable takes effect once nothing uses the queue. -/
def State.disableDone (s : State) (qn : Nat) : State :=
  let s1 := s.settleReader qn
  if (s1.queue qn).pendDis && !s1.queueBusy qn then s1.disableNow qn else s1

def execQueueDisableDone (t : BitVec 64) (q : Fin 32768) (s : State) : Host.Outcome State Fault Refusal :=
  .next ((s.at t).disableDone q.val)

/-- FLUSH_DONE (R314): a pending flush takes effect at its moment. -/
def State.flushDone (s : State) (qn : Nat) : State :=
  let s1 := s.settleReader qn
  match (s1.queue qn).flushAt with
  | none => s1
  | some tr => if s1.flushDue qn then s1.flushNow qn tr else s1

def execFlushDone (t : BitVec 64) (q : Fin 32768) (s : State) : Host.Outcome State Fault Refusal :=
  .next ((s.at t).flushDone q.val)

/-- The other registers of the window written (R299, R319): base, size and threshold. -/
def State.wrQueueReg (s : State) (r : RegId) (w : Word) : State :=
  let qn := s.selQ
  let q := s.queue qn
  match r with
  | .qmQsize => if q.enabled ∨ getF w 4 0 < 12 ∨ 30 < getF w 4 0 then s else s.setQueue qn { q with log2 := getF w 4 0 }
  | .qmQthr => if 1024 < getF w 10 0 then s else s.setQueue qn { q with thr := getF w 10 0, prof := 0xFF }
  | .qmQbaseLo => s.setQueue qn { q with baseLo := some (getF w 31 12 * 4096) }
  | .qmQbaseHi =>
    if q.enabled then s.setQueue qn { q with baseLo := none }
    else s.setQueue qn { q with base := getF w 2 0 * 2 ^ 32 + q.baseLo.getD (q.base % 2 ^ 32), baseLo := none }
  | _ => s

-- what the window and the count word read

/-- Words visible to the reader of a queue and not yet taken at the present time (R316): of the packets in order up to
the first that is not visible. -/
def levelBytes (now : Nat) : List Packet → Nat
  | [] => 0
  | p :: ps =>
    match p.vis with
    | none => if p.bad then levelBytes now ps else 0
    | some v => if v ≤ now then (p.bytes.length - p.taken) + levelBytes now ps else 0

/-- The count word (R316). -/
def Queue.countWord (q : Queue) (now : Nat) : Nat := b2n q.enabled * 2 ^ 29 + levelBytes now q.pkts / 4 % 2 ^ 29

/-- QM_QSTAT (R319). -/
def Queue.stat (q : Queue) : Nat :=
  q.content * 64 + b2n q.pendDis * 32 + b2n q.flushAt.isSome * 16 + b2n q.bound.isSome * 8

/-- QM_QCTL as read (R319). -/
def Queue.ctl (q : Queue) : Nat := q.prof * 2 ^ 24 + b2n q.enabled * 2 ^ 16 + q.role

end Sys2Proof.Machine
end

