-- ==== Sys2Proof/Machine/Time.lean ====
section
/-! DEFINITION. Time, reference and synchronisation (chapter 10): the reference and its loss (R252 to R256), the epoch
and its loads (R257 to R260, R263), skew calibration (R261), the wall view and the PTP servo (R265 to R269), the Ethernet
ports (R270), timestamps and timed launch (R271, R272), with the meanings of the rows of the chapter. -/

namespace Sys2Proof.Machine

def State.setSync (s : State) (x : SyncSt) : State := { s with sync := x }
def State.setPtp (s : State) (x : PtpSt) : State := { s with ptp := x }

-- reference

/-- REF_LOST (R254, R255): holdover, the event, the shot in progress on every core invalid, a HOLD cause. -/
def State.loseRef (s : State) : State :=
  let s1 := s.setSync { s.sync with lost := some s.now, holdover := true, pull := false }
  ((s1.raise .refLost 0 0 (up8 s.now) []).invalidAll (up8 s.now)).evalHold

/-- The source of the hub PLL chosen as REFSEL says (R252): AUTO takes REF_IN where it is valid. A change of source
pulls the phase and clears ALIGNED; EXTERNAL without a valid REF_IN is holdover; a loss that ends so lets a pending request for
RUN go on (R432). -/
def State.selectRef (s : State) : State :=
  let sel := s.fld .syncCtl 9 8
  let src := if sel = 0 then s.sync.refValid else decide (sel = 1)
  let x := s.sync
  let s1 := if src = x.src then s else
    s.setSync { x with src := src, aligned := false, pull := x.clkLock, holdover := false, lost := none }
  if src && !s1.sync.refValid && s1.sync.lost.isNone then s1.loseRef
  else if s.sync.lost.isSome && s1.sync.lost.isNone then s1.evalHold else s1

def execRefLost (t : BitVec 64) (s : State) : Host.Outcome State Fault Refusal :=
  let s1 := s.upTo t
  let s2 := s1.setSync { s1.sync with refValid := false }
  .next (if s2.sync.src && s1.sync.refValid && s2.mode.mode != .dormant then s2.loseRef else s2)

/-- REF_VALID (R254, R256): pull-in starts; ALIGNED is kept when the loss lasted 10 ms or less, the 100 ms of validity
not counted. -/
def State.refValidNow (s : State) : State :=
  let x := s.sync
  let y := { x with refValid := true, validAt := s.now }
  match x.lost with
  | none => s.setSync y
  | some l =>
    if x.src && x.holdover then
      s.setSync { y with pull := true, holdover := false, aligned := x.aligned && decide (s.now ≤ l + 110 * ms) }
    else s.setSync y

def execRefValid (t : BitVec 64) (s : State) : Host.Outcome State Fault Refusal := .next ((s.at t).refValidNow)

/-- REF_RESTORED (R256): the PLL is locked; after a loss the event is raised and the REF cause clears. -/
def State.refRestored (s : State) : State :=
  let x := s.sync
  if (x.pull || !x.clkLock) && (x.refValid || !x.src) && s.mainOn then
    let s1 := s.setSync { x with pull := false, clkLock := true, holdover := false, lost := none }
    if x.lost.isSome then (s1.raise .refRestored 0 0 (up8 s.now) []).evalHold else s1
  else s

def execRefRestored (t : BitVec 64) (s : State) : Host.Outcome State Fault Refusal := .next ((s.upTo t).refRestored)

/-- The CLK_FAULT trip (R255, R431). -/
def State.clkTrip (s : State) (src : Nat) : State :=
  let s1 := s.raise .clkFault 0 src (up8 s.now) []
  s1.trip 6 (s.jcause 4) false

/-- CLK_FAULT (R255): 1 s of holdover with HOLDREF = 0, or a PLL that loses lock. -/
def State.clkFault (s : State) : ClkCause → State
  | .holdover =>
    match s.sync.lost with
    | some l => if l + sec ≤ s.now ∧ s.sync.refValid = false ∧ s.fld .modeCtl 4 4 = 0 then s.clkTrip 0 else s
    | none => s
  | .hub =>
    if s.sync.clkLock then (s.setSync { s.sync with clkLock := false }).clkTrip 0 else s
  | .ply p =>
    if (s.ply p.val).st = .locked then (s.bump (.plyLockLoss p.val) 1).clkTrip p.val else s

def execClkFault (t : BitVec 64) (cause : ClkCause) (s : State) : Host.Outcome State Fault Refusal :=
  .next ((s.upTo t).clkFault cause)

-- epoch and loads

/-- The low word held for a 64-bit register, or the one in force (R11). -/
def State.lowOf (s : State) (lo : RegId) : Word := (Tab.get? s.lows lo.off).getD (s.reg lo)

/-- SYNC_EPOCH set whole. -/
def State.setEpoch (s : State) (v : Nat) : State :=
  (s.setReg .syncEpochLo (wd v)).setReg .syncEpochHi (wd (v / 2 ^ 32))

/-- A host write of SYNC_EPOCH (R11, R257): its high word applies both; held outside READY. -/
def State.wrEpochHi (s : State) (hi : Word) : State :=
  let lo := s.lowOf .syncEpochLo
  let s1 := { s with lows := s.lows.filter (fun e => decide (e.1 ≠ RegId.syncEpochLo.off)) }
  if s.mode.mode = .ready then
    (((s1.unhold .syncEpochLo).unhold .syncEpochHi).setReg .syncEpochLo lo).setReg .syncEpochHi hi
  else (s1.hold .syncEpochLo lo).hold .syncEpochHi hi

def execEpochWrite (t : BitVec 64) (hi : Word) (s : State) : Host.Outcome State Fault Refusal :=
  .next (s.hubWrite t (fun a => a.wrEpochHi hi))

/-- SYNC_REFUSED (R258, R259). -/
def State.syncRefused (s : State) : State := s.raise .syncRefused 0 0 (up8 s.now) []

/-- SYNC_CTL.ARM (R258): in READY, with a role; a LOADTIME that is no multiple of 160 is refused. -/
def State.armLoad (s : State) : State :=
  if s.mode.mode ≠ .ready ∨ s.fld .syncCtl 11 10 = 0 then s else
  if s.reg64 .syncLoadLo .syncLoadHi % 160 ≠ 0 then s.syncRefused else
  s.setSync { s.sync with armed := some s.now }

/-- SYNC_CTL.SKEWCAL (R261): in READY, unless a calibration runs. -/
def State.startSkew (s : State) : State :=
  if s.mode.mode = .ready ∧ s.sync.skew.isNone = true then s.setSync { s.sync with skew := some s.now } else s

/-- SYNC_CTL written (R252, R258, R261, R274, R275): REFSEL changes in READY, and is held in any other mode. -/
def State.wrSyncCtl (s : State) (w : Word) : State :=
  let old := s.fld .syncCtl 9 8
  let s1 := s.writeFields .syncCtl w
  let new := s1.fld .syncCtl 9 8
  let s2 :=
    if s.mode.mode = .ready then (let a := s1.unhold .syncCtl; if new = old then a else a.selectRef) else
    let s0 := s1.setFld .syncCtl 9 8 old
    if new = old then s0.unhold .syncCtl else s0.hold .syncCtl (wd (new * 256))
  let s3 := if getF w 2 2 = 1 then s2.startSkew else s2
  let s4 := if getF w 1 1 = 1 then s3.setSync { s3.sync with armed := none } else s3
  if getF w 0 0 = 1 then s4.armLoad else s4

def execRefselWrite (t : BitVec 64) (w : Word) (s : State) : Host.Outcome State Fault Refusal :=
  .next (s.hubWrite t (fun a => a.wrSyncCtl w))

def execSyncArm (t : BitVec 64) (w : Word) (s : State) : Host.Outcome State Fault Refusal :=
  .next (s.hubWrite t (fun a => a.wrSyncCtl (setF w 0 0 1)))

def execSyncDisarm (t : BitVec 64) (w : Word) (s : State) : Host.Outcome State Fault Refusal :=
  .next (s.hubWrite t (fun a => a.wrSyncCtl (setF w 1 1 1)))

def execSkewcal (t : BitVec 64) (w : Word) (s : State) : Host.Outcome State Fault Refusal :=
  .next (s.hubWrite t (fun a => a.wrSyncCtl (setF w 2 2 1)))

-- the wall view

/-- Units of the wall view per nanosecond, and per tick at rate 0 (R265). -/
def wallNs : Nat := 4096000000000
def wallTick : Nat := 256000000000

/-- The wall view at module time n, in its units: each tick advances it by 62.5 ps × (1 + r) (R265). -/
def PtpSt.wallAt (p : PtpSt) (n : Nat) : Nat := p.base + (n - p.at') * ((wallTick : Int) + p.rate).toNat

/-- The wall view at module time n in whole nanoseconds. -/
def PtpSt.ns (p : PtpSt) (n : Nat) : Nat := p.wallAt n / wallNs

/-- The view counted from module time n on. -/
def PtpSt.rebase (p : PtpSt) (n : Nat) : PtpSt := { p with base := p.wallAt n, at' := n }

/-- A wall view as three ARG words (R428). -/
def wallWords (ns : Nat) : List Word :=
  let sec := ns / 1000000000
  [wd sec, wd (sec / 2 ^ 32 % 2 ^ 16), wd (ns % 1000000000)]

-- frames

/-- A timestamp entry (R271). -/
def tsEntry (id at' : Nat) (late portB : Bool) : List Byte :=
  whipped (leBytes 4 (id * 0x10000 + b2n late * 2 + b2n portB) ++ leBytes 8 at')

/-- An entry offered to the time-stamp queue (R271): the 65th unread one is dropped, counted, and reported when it is
the first after a stored one. -/
def State.stamp (s : State) (bs : List Byte) : State :=
  let qn := s.fld .ptpTsq 14 0
  let q := s.queue qn
  let drop := fun (a : State) =>
    let a1 := a.bump .ptpTsDrop 1
    if a1.ptp.tsDropped then a1
    else (a1.setPtp { a1.ptp with tsDropped := true }).raise .tsLost 0 0 (up8 a.now) []
  if s.inRole qn 6 = false then drop s else
  if 64 ≤ q.pkts.length ∨ q.room 16 = false then drop (s.dropPacket qn) else
  let s1 := s.pushPacket qn { bytes := bs, first := s.now, vis := some s.now }
  s1.setPtp { s1.ptp with tsDropped := false }

/-- A frame leaves now (R271, R272, R290): its timestamp entry if it asked for one, its descriptor completes. -/
def State.sendFrameNow (s : State) (f : Frame) (late : Bool) : State :=
  let s1 := s.setPtp { s.ptp with sent := { portB := f.portB, at' := s.now, late := late, bytes := f.bytes } :: s.ptp.sent }
  let s2 := if f.ts then s1.stamp (tsEntry f.id s.now late f.portB) else s1
  (s2.complete f.ring f.desc { status := 0, count := f.bytes.length }).drained f.ring

/-- A late frame is sent at once with LATE, or dropped under LATEDROP (R272). -/
def State.lateFrame (s : State) (f : Frame) : State :=
  let s1 := s.raise .launchLate 0 0 (up8 s.now) []
  if s1.fld .ptpCtl 7 7 = 1 then (s1.complete f.ring f.desc { status := 0x0A }).drained f.ring
  else s1.sendFrameNow f true

/-- The frame of a list that is launched first: by launch time, then by arrival (R272). -/
def firstFrame : List Frame → Option Frame
  | [] => none
  | f :: fs =>
    match firstFrame fs with
    | none => some f
    | some g => if f.launch ≤ g.launch then some f else some g

/-- A frame taken out of the launch lists. -/
def State.unlist (s : State) (f : Frame) : State := s.setPtp { s.ptp with list := s.ptp.list.erase f }

/-- The listed frames that the view has passed are late, in launch order (R272). -/
def State.passFrames (s : State) : Nat → State
  | 0 => s
  | n + 1 =>
    match firstFrame (s.ptp.list.filter (fun f => decide (f.launch ≤ s.ptp.ns s.now))) with
    | none => s
    | some f => State.passFrames ((s.unlist f).lateFrame f) n

/-- The wall view stepped to `view` at boundary b with a cause (R265, R269): the record, and the frames passed over. -/
def State.stepWall (s : State) (b view dom cause : Nat) : State :=
  let s1 := s.clockTo b
  let old := s1.ptp.ns b
  let s2 := s1.setPtp { s1.ptp with base := view, at' := b }
  let s3 := s2.raise .ptpStep 0 0 b (wallWords old ++ wallWords (view / wallNs) ++ [wd dom, wd cause])
  if s3.ptp.valid then s3.passFrames s3.ptp.list.length else s3

/-- FRAME_LAUNCH (R272): the wall view reaches the launch time of a port's first frame by tick t, and the frame leaves
at the tick at which it does. -/
def State.launch (s : State) (t : Nat) (portB : Bool) : State :=
  let p := s.ptp
  if p.valid = false then s else
  match firstFrame (p.list.filter (fun f => f.portB == portB)) with
  | none => s
  | some f =>
    let rate := ((wallTick : Int) + p.rate).toNat
    let n := p.at' + (f.launch * wallNs - p.base + rate - 1) / rate
    if n ≤ max t s.now then ((s.clockTo n).unlist f).sendFrameNow f false else s

def execFrameLaunch (t : BitVec 64) (portB : Bool) (s : State) : Host.Outcome State Fault Refusal :=
  .next (s.launch t.toNat portB)

-- ports

/-- A change of the active port (R270): the event with SOURCE 8. -/
def State.toPortB (s : State) (args : List Word) : State :=
  (s.setPtp { s.ptp with onB := true, stale := false }).raise .ethSplice 0 8 (up8 s.now) args

def State.toPortA (s : State) : State :=
  (s.setPtp { s.ptp with onB := false, stale := false, hostHold := false }).raise .ethRevert 0 8 (up8 s.now) []

/-- PTP_CTL.SPLICE and REVERT (R270 with the rules of R246): discarded when the port named is not up. -/
def State.askPort (s : State) (b : Bool) : State :=
  let p := s.ptp
  if b then
    if p.bUp = false then s else
    let s1 := s.setPtp { p with hostHold := true }
    if p.onB then s1 else s1.toPortB [wd 4]
  else
    if p.aUp = false then s else
    if p.onB then s.toPortA else s.setPtp { p with hostHold := false }

/-- PTP_CTL written (R265, R270, R274). -/
def State.wrPtpCtl (s : State) (w : Word) : State :=
  let s1 := s.writeFields .ptpCtl w
  let s2 := if getF w 3 3 = 1 then s1.askPort true else s1
  let s3 := if getF w 4 4 = 1 then s2.askPort false else s2
  let b := next8 s.now
  let s4 := if getF w 6 6 = 1 then
      let ns := s3.reg64 .ptpWallSecLo .ptpWallSecHi * 1000000000 + (s3.reg .ptpWallNs).toNat
      let a := s3.stepWall b (ns * wallNs) s3.ptp.sel 2
      a.setPtp { a.ptp with valid := true }
    else s3
  let s5 := if s3.ptp.valid = false ∧ s4.ptp.valid = true then s4.passFrames s4.ptp.list.length else s4
  if getF w 5 5 = 1 then
    let ns := s5.ptp.ns b
    (s5.clockTo b).setPtp { s5.ptp with snapTime := b, snapSec := ns / 1000000000 % 2 ^ 48, snapNs := ns % 1000000000 }
  else s5

def execWallset (t : BitVec 64) (w : Word) (s : State) : Host.Outcome State Fault Refusal :=
  .next (s.hubWrite t (fun a => a.wrPtpCtl (setF w 6 6 1)))

def execSnap (t : BitVec 64) (w : Word) (s : State) : Host.Outcome State Fault Refusal :=
  .next (s.hubWrite t (fun a => a.wrPtpCtl (setF w 5 5 1)))

def execEthSplice (t : BitVec 64) (w : Word) (s : State) : Host.Outcome State Fault Refusal :=
  .next (s.hubWrite t (fun a => a.wrPtpCtl (setF w 3 3 1)))

def execEthRevertWrite (t : BitVec 64) (w : Word) (s : State) : Host.Outcome State Fault Refusal :=
  .next (s.hubWrite t (fun a => a.wrPtpCtl (setF w 4 4 1)))

/-- The module's Ethernet ports are powered (R39). -/
def State.ethOn (s : State) : Bool := s.mode.mode.powered || s.mode.mode == .safe

/-- ETH_PORT_LOSS (R270): port A loses block lock; port B, if up, becomes active after the gap; without it the servo
stays held. -/
def execEthPortLoss (t : BitVec 64) (s : State) : Host.Outcome State Fault Refusal :=
  let s1 := s.at t
  let p := s1.ptp
  if p.aUp = false then .next s1 else
  let s2 := s1.setPtp { p with aUp := false, aSince := none, stale := p.stale || !p.onB }
  .next (if !p.onB && p.bUp then s2.toPortB [] else s2)

/-- ETH_PORT_UP (R270): a port gains block lock; one that comes up while the active port is down ends the gap. -/
def execEthPortUp (t : BitVec 64) (portB : Bool) (s : State) : Host.Outcome State Fault Refusal :=
  let s1 := s.at t
  let p := s1.ptp
  if s1.ethOn = false then .next s1 else
  if portB then
    let s2 := s1.setPtp { p with bUp := true }
    .next (if !p.bUp && p.stale && !p.onB then s2.toPortB [] else s2)
  else
    .next (s1.setPtp { p with aUp := true, aSince := some (p.aSince.getD s1.now), stale := p.stale && p.onB })

/-- QUAL × 10 ms (R267, R270). -/
def State.qual (s : State) : Nat := s.fld .ptpCtl 23 8 * 10 * ms

/-- ETH_REVERT (R270). -/
def execEthRevert (t : BitVec 64) (s : State) : Host.Outcome State Fault Refusal :=
  let s1 := s.at t
  match s1.ptp.aSince with
  | some a => .next (if s1.ptp.onB && !s1.ptp.hostHold && decide (a + s1.qual ≤ s1.now) then s1.toPortA else s1)
  | none => .next s1

-- the servo

/-- A domain slot, and the slot changed. -/
def PtpSt.dom (p : PtpSt) (k : Nat) : Dom := if k = 0 then p.dom0 else p.dom1
def PtpSt.setDom (p : PtpSt) (k : Nat) (d : Dom) : PtpSt := if k = 0 then { p with dom0 := d } else { p with dom1 := d }

/-- The lock of a domain after a sample (R267): 16 consecutive ones below the threshold lock it, 16 at or above it
unlock it. -/
def Dom.sample (d : Dom) (thr : Nat) (theta : Int) (now : Nat) : Dom :=
  let d1 := { d with offset := satI 32 theta }
  if theta.natAbs < thr then
    let n := min 16 (d.below + 1)
    { d1 with below := n, above := 0, locked := if n = 16 ∧ d.locked.isNone = true then some now else d.locked }
  else
    let n := min 16 (d.above + 1)
    { d1 with above := n, below := 0, locked := if n = 16 then none else d.locked }

/-- PTP_UNLOCK when a domain ceased to be LOCKED (R267). -/
def State.unlockEvent (s : State) (was : Bool) (k : Nat) : State :=
  if was && (s.ptp.dom k).locked.isNone then s.raise .ptpUnlock 0 0 (up8 s.now) [] else s

/-- A change of the selected domain (R267). -/
def State.selectDom (s : State) (k : Nat) : State :=
  if s.ptp.sel = k then s else
  let p := (s.ptp.setDom k { s.ptp.dom k with big := 0 })
  (s.setPtp { p with sel := k, switched := true }).raise .ptpDomain 0 0 (up8 s.now) []

/-- The domain the servo takes (R267): 0 while it is LOCKED, else 1 while it is; the return to 0 from a LOCKED 1 waits
for the qualification. WALLVALID is set when the selected domain is LOCKED (R265). -/
def State.reselect (s : State) : State :=
  let l0 := s.ptp.dom0.locked.isSome
  let l1 := s.ptp.dom1.locked.isSome
  let k := if s.ptp.sel = 0 then (if !l0 && l1 then 1 else 0) else (if !l1 && l0 then 0 else 1)
  let s1 := s.selectDom k
  if (s1.ptp.dom s1.ptp.sel).locked.isSome then s1.setPtp { s1.ptp with valid := true } else s1

/-- A value limited to ±200,000 ppb, in units of 1/256 ppb (R268). -/
def clampRate (i : Int) : Int := max (-51200000) (min 51200000 i)

/-- A sample of the selected domain below 1 ms given to the servo (R268): the new rate holds from the next boundary. -/
def State.servo (s : State) (theta : Int) : State :=
  let i := clampRate (s.ptp.integ + (s.fld .ptpServo 31 16 : Nat) * theta)
  let r := clampRate (-((s.fld .ptpServo 15 0 : Nat) * theta + i))
  let s1 := s.clockTo (next8 s.now)
  s1.setPtp { s1.ptp.rebase s1.now with rate := r, integ := i, slew := decide (r.natAbs = 51200000), switched := false }

/-- A sample of 1 ms or more (R269): the fourth consecutive one of one sign steps the view by its negative. -/
def State.bigSample (s : State) (k : Nat) (theta : Int) : State :=
  let d := s.ptp.dom k
  let n : Int := if 0 < theta then (if 0 < d.big then d.big + 1 else 1) else (if d.big < 0 then d.big - 1 else -1)
  if n.natAbs < 4 then s.setPtp (s.ptp.setDom k { d with big := n }) else
  let b := next8 s.now
  let cause := if s.ptp.switched then 1 else 0
  let s1 := s.setPtp { s.ptp.setDom k { d with big := 0 } with switched := false }
  s1.stepWall b (((s1.ptp.wallAt b : Int) - theta * wallNs).toNat) k cause

/-- PTP_EVENT_MESSAGE (R266 to R269): a Sync of domain slot k yields the offset theta in ns. -/
def State.ptpSample (s : State) (k : Nat) (theta : Int) : State :=
  let p := s.ptp
  let active := if p.onB then p.bUp else p.aUp
  if s.fld (.ptpDom k) 31 31 = 0 ∨ s.fld .ptpCtl 1 0 = 0 ∨ active = false ∨ p.stale = true ∨ s.ethOn = false then s else
  let d := p.dom k
  let s1 := (s.setPtp (p.setDom k (d.sample (s.fld .ptpLockThr 15 0) theta s.now))).unlockEvent d.locked.isSome k
  let s2 := s1.reselect
  if s2.ptp.sel ≠ k then s2 else
  if 1000000 ≤ theta.natAbs then s2.bigSample k theta
  else (s2.setPtp (s2.ptp.setDom k { s2.ptp.dom k with big := 0 })).servo theta

def execPtpEventMessage (t : BitVec 64) (k : Fin 2) (theta : Int) (s : State) : Host.Outcome State Fault Refusal :=
  .next ((s.at t).ptpSample k.val theta)

/-- ANNOUNCE_TIMEOUT (R267): the domain ceases to be LOCKED. -/
def execAnnounceTimeout (t : BitVec 64) (k : Fin 2) (s : State) : Host.Outcome State Fault Refusal :=
  let s1 := s.at t
  let d := s1.ptp.dom k.val
  let s2 := (s1.setPtp (s1.ptp.setDom k.val { d with locked := none, below := 0 })).unlockEvent d.locked.isSome k.val
  .next s2.reselect

/-- PTP_DOMAIN_RETURN (R267): domain 0 has been LOCKED for QUAL × 10 ms. -/
def execPtpDomainReturn (t : BitVec 64) (s : State) : Host.Outcome State Fault Refusal :=
  let s1 := s.at t
  match s1.ptp.dom0.locked with
  | some l => .next (if s1.ptp.sel = 1 ∧ l + s1.qual ≤ s1.now then s1.selectDom 0 else s1)
  | none => .next s1

-- epoch loads

/-- The timers in progress carried over a jump of the count by j: an epoch load moves the count and no duration
(R259; notes/assumptions/33). -/
def State.shiftTimers (s : State) (j : Nat) : State :=
  let o := fun (x : Option Nat) => x.map (· + j)
  { s with
    plies := s.plies.map (fun (e : Nat × Ply) => (e.1, { e.2 with due := e.2.due + j, idleFrom := o e.2.idleFrom, retrain := o e.2.retrain })),
    strands := s.strands.map (fun (e : Nat × Strand) => (e.1, { e.2 with due := e.2.due + j, rst := o e.2.rst })),
    outs := s.outs.map (fun (e : Nat × Out) => (e.1, { e.2 with shut := o e.2.shut, ranging := o e.2.ranging })),
    inps := s.inps.map (fun (e : Nat × Inp) => (e.1, { e.2 with settle := o e.2.settle })),
    convs := s.convs.map (fun (e : Nat × Conv) => (e.1, { e.2 with
      due := o e.2.due, again := o e.2.again, last := e.2.last.map (fun (l : Nat × Nat) => (l.1, l.2 + j)),
      step := e.2.step.map (fun (c : CalStep) => { c with start := c.start + j, stop := c.stop + j }),
      meas := e.2.meas.map (fun (c : CalStep) => { c with start := c.start + j, stop := c.stop + j }),
      ramp := e.2.ramp.map (fun (c : Ramp) => { c with start := c.start + j }) })),
    hif := { s.hif with lastPoll := s.hif.lastPoll + j },
    mode := { s.mode with trans := s.mode.trans.map (fun (x : Mode × Nat) => (x.1, x.2 + j)) },
    mc := { s.mc with restart := o s.mc.restart },
    sync := { s.sync with lost := o s.sync.lost, skew := o s.sync.skew },
    hch := { s.hch with dirs := s.hch.dirs.map (fun (e : Nat × HDir) =>
      (e.1, { e.2 with qualFrom := o e.2.qualFrom, quietFrom := o e.2.quietFrom })) },
    mem := { s.mem with ceLog := s.mem.ceLog.map (fun (l : Nat × Nat × Nat) => (l.1, l.2.1 + j, l.2.2)),
                        ceRep := s.mem.ceRep.map (fun (l : Nat × Nat) => (l.1, l.2 + j)),
                        sramRep := s.mem.sramRep.map (fun (l : Nat × Nat) => (l.1, l.2 + j)) },
    thm := { s.thm with hist := s.thm.hist.map (fun (h : Nat × List Int) => (h.1 + j, h.2)),
                        highLow := o s.thm.highLow, warnLow := o s.thm.warnLow },
    ptp := { s.ptp with aSince := o s.ptp.aSince, dom0 := { s.ptp.dom0 with locked := o s.ptp.dom0.locked },
                        dom1 := { s.ptp.dom1 with locked := o s.ptp.dom1.locked } } }

/-- The value lies ahead of the present count at the instant, in 1/64 tick (R259). -/
def loadOk (v : Nat) (i : Int) : Bool := decide (i < (v : Int) * 64)

/-- A load with value v at instant i, in 1/64 tick of the present count (R258, R259): refused unless v lies ahead of
the count there; else the grid moves by the fraction, the count jumps, EPOCH is LOADTIME, ALIGNED is set. -/
def State.load (s : State) (v : Nat) (i : Int) : State :=
  if loadOk v i = false then (s.setSync { s.sync with armed := none }).syncRefused else
  let f := (i + 32) % 64 - 32
  let j := ((v : Int) - (i + 32) / 64).toNat
  let lt := s.reg64 .syncLoadLo .syncLoadHi
  let s1 := s.setPtp (s.ptp.rebase s.now)
  let s2 := (s1.clockTo (s1.now + j)).shiftTimers j
  let s3 := (s2.setPtp { s2.ptp with at' := s2.now }).setEpoch lt
  let s4 := s3.setSync { s3.sync with aligned := true, armed := none, loadVal := lt, frac := f,
                                      loadPhase := (v : Int) * 64 % 10240 }
  s4.raise .syncLoaded 0 0 (up8 v) []

/-- The instant of R258 of an edge that arrives at a, both in 1/64 tick. -/
def State.edgeInstant (s : State) (a : Nat) : Int :=
  if s.fld .syncCtl 11 10 = 1 then
    rndNear (2 * (a : Int) - (s.sync.rtt : Int) - 2 * sext 16 (s.fld .syncAsym 15 0)) 2
  else (a : Int) - (s.fld .syncHopDly 15 0 : Nat)

/-- SYNC_PULSE (R258 to R260, R262, R263): an armed module loads; an aligned star module measures; a chain head takes
the returning pulse. -/
def State.syncPulse (s : State) (a : Nat) : State :=
  let role := s.fld .syncCtl 11 10
  let pos := s.fld .syncCtl 21 16
  let x := s.sync
  let lt := s.reg64 .syncLoadLo .syncLoadHi
  if x.skew.isSome then s else
  if x.armed.isSome then
    if role = 1 then s.load lt (s.edgeInstant a) else
    if role = 2 ∧ pos ≠ 0 then
      let v := lt + 1600 * (pos - 1)
      let s1 := s.load v (s.edgeInstant a)
      if loadOk v (s.edgeInstant a) then s1.setSync { s1.sync with sendAt := some (lt + 1600 * pos) } else s1
    else s
  else if role = 1 ∧ x.aligned = true then
    let d := (s.edgeInstant a % 10240 - x.loadPhase + 5120) % 10240 - 5120
    let s1 := s.setSync { x with dev := d }
    if s.fld .syncCtl 7 4 < d.natAbs then s1.raise .syncDrift 0 0 (up8 s.now) [] else s1
  else if role = 2 ∧ pos = 0 ∧ x.ring = true then
    s.setSync { x with ring := false, rtt := a - 64 * x.loadVal }
  else s

def execSyncPulse (a64 : Nat) (s : State) : Host.Outcome State Fault Refusal :=
  .next ((s.toTime (a64 / 64)).syncPulse a64)

/-- CHAIN_LAUNCH (R258, R263): an armed head sends its pulse at a reference edge at least 10 µs after ARM, and loads at
that instant. -/
def execChainLaunch (t : BitVec 64) (s : State) : Host.Outcome State Fault Refusal :=
  let s1 := s.upTo t
  match s1.sync.armed with
  | none => .next s1
  | some a =>
    if s1.fld .syncCtl 11 10 = 2 ∧ s1.fld .syncCtl 21 16 = 0 ∧ a + 10 * us ≤ s1.now then
      let s2 := s1.setSync { s1.sync with pulses := s1.sync.pulses + 1, lastPulse := some s1.now }
      let v := s2.reg64 .syncLoadLo .syncLoadHi
      let s3 := s2.load v (64 * (s2.now : Int))
      .next (s3.setSync { s3.sync with ring := loadOk v (64 * (s2.now : Int)) })
    else .next s1

/-- CHAIN_PULSE_SEND (R263): a loaded module sends its pulse at LOADTIME + 1,600 × POS. -/
def execChainPulseSend (s : State) : Host.Outcome State Fault Refusal :=
  match s.sync.sendAt with
  | none => .next s
  | some t =>
    let s1 := s.clockTo t
    .next (s1.setSync { s1.sync with sendAt := none, pulses := s1.sync.pulses + 1, lastPulse := some t })

/-- SKEWCAL_DONE (R261): the round trips that returned, in 1/64 tick; fewer than 1,000, or a spread above 16/64,
fails. -/
def execSkewcalDone (t : BitVec 64) (returns : List Nat) (s : State) : Host.Outcome State Fault Refusal :=
  match s.sync.skew with
  | none => .next (s.at t)
  | some s0 =>
    let s1 := s.clockTo (min t.toNat (s0 + 1200 * us))
    let x := { s1.sync with skew := none, pulses := s1.sync.pulses + 1024 }
    let hi := maxOf 0 returns
    let lo := returns.foldl min hi
    if returns.length < 1000 ∨ 16 < hi - lo then
      .next ((s1.setSync { x with skewFail := true }).raise .syncSkewfail 0 0 (up8 s1.now) [])
    else .next (s1.setSync { x with skewFail := false, rtt := (rndNear (returns.foldl (· + ·) 0 : Nat) returns.length).toNat })

-- entry into READY

/-- The writes of SYNC_CTL.REFSEL and SYNC_EPOCH held until READY carried out (R252, R257). -/
def State.applyHeldSync (s : State) : State :=
  let s1 := match s.heldFor .syncCtl with
    | some w => ((s.unhold .syncCtl).setFld .syncCtl 9 8 (getF w 9 8)).selectRef
    | none => s
  match s1.heldFor .syncEpochLo, s1.heldFor .syncEpochHi with
  | some lo, some hi =>
    (((s1.unhold .syncEpochLo).unhold .syncEpochHi).setReg .syncEpochLo lo).setReg .syncEpochHi hi
  | _, _ => s1

end Sys2Proof.Machine
end

