-- ==== Sys2Proof/Machine/Power.lean ====
section
/-! DEFINITION. Power and thermal management (chapter 16): mains and hold-up (R373, R374), rails (R375, R376), die sensors,
thermistors, bands, warnings and trips (R378 to R385), fans (R386) and the journal (R387 to R392), with the meanings of
the rows of the chapter. Temperatures are in units of 1/16 degree. -/

namespace Sys2Proof.Machine

def State.setThm (s : State) (x : Therm) : State := { s with thm := x }
def State.setPwr (s : State) (x : Power) : State := { s with pwr := x }

-- loss of power

/-- What stands when the module loses all power (R374, R388, R395, R406): the flash with the journal, the image slots,
the selector and STARTUP, the fuses; outside the module, host memory and the levels of the trigger lines. -/
def State.powerDown (s : State) : State :=
  { pending := s.pending, half := s.half, free := s.free, rdata := s.rdata, hostMem := s.hostMem,
    regs := s.regs.filter (fun e => decide (e.1 = RegId.pwrCtl.off)),
    tio := { level := s.lineLevels },
    pwr := { jrn := s.pwr.jrn, jSeq := s.pwr.jSeq, bootCnt := s.pwr.bootCnt },
    mc := { slots := s.mc.slots, sel := s.mc.sel, selOld := s.mc.selOld, minFw := s.mc.minFw, minUc := s.mc.minUc } }

/-- The main rails are shed (R374): the always-on domain runs on, with module time, its sensors and the journal records
still to be written. -/
def State.shedMain (s : State) : State :=
  let d := s.powerDown
  { d with now := s.now, supply := .holdUp, thm := s.thm, mode := { causes := s.mode.causes },
           pwr := { d.pwr with jPend := s.pwr.jPend, shed := true},
           mc := { d.mc with running := s.mc.running, stopped := s.mc.stopped } }

/-- PWR_FAIL (R374): a trip, the main rails shed, the journal to be completed. -/
def State.pwrFail (s : State) : State :=
  if s.supply ≠ .on then s else
  let s1 := if s.mode.mode = .dormant then
      ({ s with mode := { s.mode with causes := s.mode.causes ++ [1] } }).tripJournal (s.jcause 1)
    else s.trip 1 (s.jcause 1) true
  s1.shedMain

def execPwrFail (t : BitVec 64) (s : State) : Host.Outcome State Fault Refusal := .next ((s.upTo t).pwrFail)

/-- MAINS_RESTORED (R374): the mains has been valid for 1 s before the hold-up ran out, the journal is finished, and the
module stands at step 1 of R50, as at power-on; module time starts again. -/
def State.mainsRestored (s : State) : State :=
  if s.supply = .holdUp ∧ s.pwr.jPend.isEmpty = true then s.powerDown else s

def execMainsRestored (t : BitVec 64) (s : State) : Host.Outcome State Fault Refusal := .next ((s.at t).mainsRestored)

/-- HOLD_UP_RUNS_OUT (R374): the always-on domain loses power; journal records not yet written are lost. -/
def State.holdUpRunsOut (s : State) : State := if s.supply = .holdUp then s.powerDown else s

def execHoldUpRunsOut (s : State) : Host.Outcome State Fault Refusal := .next s.holdUpRunsOut

/-- A fault in BOOT is BOOT_FAIL with its journal record (R41, R388, R407). -/
def State.bootFail (s : State) (step : Nat) : State :=
  (s.toJournal { s.jcause 0x13 with detail := step }).raise .bootFail 0 0 (up8 s.now) []

/-- After a trip that removed ply power nothing of the plies is left (R44, R385). -/
def State.losePlies (s : State) : State :=
  if s.mode.full then
    { s with mode := { s.mode with plyPower := false, ucValid := false, lens := [] }, seqSram := [], ucode := [], envSram := [],
             envTab := [], kernel := [], badWords := [] }
  else s

/-- RAIL_FAULT (R376, R41): a trip; a ply, retention or front-end rail removes the power of every ply, the hub core and
HBM rails act as PWR_FAIL does, the intermediate bus is PWR_FAIL. -/
def State.railFault (s : State) (rail : Nat) : State :=
  if s.railOn rail = false then s else
  if rail = 0 then s.pwrFail else
  let s1 := s.setPwr { s.pwr with railsBad := if s.pwr.railsBad.contains rail then s.pwr.railsBad else rail :: s.pwr.railsBad }
  let s2 := s1.raise .railFault 0 rail (up8 s.now) []
  let boot := s.mode.mode == .boot
  let s3 := s2.trip 2 { s2.jcause 3 with detail := rail } (decide (4 ≤ rail))
  let s4 := if boot then s3.bootFail s.bootStepNow else s3
  if rail = 1 then s4 else
  if rail < 4 then s4.shedMain else
  if s.mode.mode = .dormant then s4 else
  let s5 := s4.setMode { s4.mode with full := true, plyPower := false, ucValid := false }
  if s.mode.mode = .safe then s5.losePlies else s5

def execRailFault (t : BitVec 64) (rail : Fin 20) (s : State) : Host.Outcome State Fault Refusal :=
  .next ((s.upTo t).railFault rail.val)

-- die sensors

/-- Reading k of a list of readings. -/
def reading (l : List Int) (k : Nat) : Int := (l[k]?).getD 0

/-- The reading 500 ms before time n: the newest one at least that old (R379). -/
def readingBefore (hist : List (Nat × List Int)) (n : Nat) : Option (List Int) :=
  (hist.find? (fun e => decide (e.1 + 8000000000 ≤ n))).map (·.2)

/-- Rates of rise in 1/16 degree per second (R379); none where no reading is 500 ms old yet. -/
def ratesOf (hist : List (Nat × List Int)) (n : Nat) (temps : List Int) : List Int :=
  match readingBefore hist n with
  | none => temps.map (fun _ => 0)
  | some old => (temps.zip old).map (fun p => 2 * (p.1 - p.2))

/-- The sensors of die d: the hub, the plies, the stacks (R378). -/
def dieSensors (d : Nat) : List Nat :=
  if d = 0 then [0, 1] else if d < 5 then (List.range 4).map (fun i => 4 * d - 2 + i) else [8 + 2 * d, 9 + 2 * d]

/-- The highest sensor of a die. -/
def dieMax (temps : List Int) (d : Nat) : Int :=
  ((dieSensors d).map (reading temps)).foldl max (reading temps ((dieSensors d).headD 0))

/-- The lower edge of a band (R380). -/
def bandEdge (b : Nat) : Int := if b = 1 then 720 else if b = 2 then 1120 else 1360

/-- The band of a temperature with no hysteresis (R380). -/
def rawBand (v : Int) : Nat := if v < 720 then 0 else if v < 1120 then 1 else if v < 1360 then 2 else 3

/-- Whether a die has been at least 3 degrees below an edge for 1 s (R380). The readings are newest first. -/
def coolFor (n d : Nat) (edge : Int) : List (Nat × List Int) → Bool
  | [] => false
  | e :: r => decide (dieMax e.2 d ≤ edge - 48) && (decide (e.1 + sec ≤ n) || coolFor n d edge r)

/-- The bands a die moves down, one edge after the other (R380). -/
def bandDown (n d : Nat) (hist : List (Nat × List Int)) (low : Nat) : Nat → Nat
  | 0 => 0
  | b + 1 => if low ≤ b ∧ coolFor n d (bandEdge (b + 1)) hist = true then bandDown n d hist low b else b + 1

/-- The band of a die after a reading (R380). -/
def nextBand (n d : Nat) (hist : List (Nat × List Int)) (temps : List Int) (cur : Nat) : Nat :=
  let raw := rawBand (dieMax temps d)
  if cur ≤ raw then raw else bandDown n d hist raw cur

/-- The bands after a reading; a change of the module band is THERM_BAND, and entry to a band of higher number than that
of a converter's last step makes the converter due (R339, R381). -/
def State.readBands (s : State) : State :=
  let x := s.thm
  let bands := (List.range 7).map (fun d => nextBand s.now d x.hist x.temps ((x.bands[d]?).getD 0))
  let m := maxOf 0 bands
  let s1 := s.setThm { x with bands := bands, modBand := m }
  if m = x.modBand then s1 else
  let s2 := s1.raise .thermBand 0 0 (up8 s.now) [wd x.modBand, wd m]
  if m < x.modBand then s2 else
  s2.convs.foldl (fun a e => match e.2.band with
    | some b => if b < m ∧ (a.strand (convStrand e.1)).gate = .ungated then a.makeDue e.1 a.now else a
    | none => a) s2

/-- Whether a limit that clears after all readings have been low for `len` ticks clears now, and since when they have
been low. -/
def lowFor (now len : Nat) (low : Bool) (since : Option Nat) : Option Nat × Bool :=
  if low = false then (none, false) else
  match since with
  | none => (some now, false)
  | some f => (some f, decide (f + len ≤ now))

/-- The index of the first reading that meets a condition. -/
def firstOver (l : List Int) (f : Int → Bool) : Option Nat := (List.range l.length).find? (fun k => f (reading l k))

/-- THERM_HIGH (R382): once per excursion; it clears when every sensor has read below 92 degrees for 1 s. -/
def State.readHigh (s : State) : State :=
  let x := s.thm
  match firstOver x.temps (fun v => decide (1520 ≤ v)) with
  | some k =>
    let s1 := s.setThm { x with high := true, highLow := none }
    if x.high then s1 else s1.raise .thermHigh 0 k (up8 s.now) []
  | none =>
    let r := lowFor s.now sec (x.temps.all (fun v => decide (v < 1472))) x.highLow
    s.setThm { x with highLow := r.1, high := x.high && !r.2 }

/-- THERM_WARN (R383): a HOLD cause if enabled; it ends when every rate has been below half of RATEWARN for 2 s. -/
def State.readWarn (s : State) : State :=
  let x := s.thm
  let w : Int := s.fld .thmCtl 7 4 * 8
  match firstOver x.rates (fun v => decide (w ≤ v)) with
  | some k =>
    let s1 := s.setThm { x with warn := true, warnLow := none }
    if x.warn then s1 else (s1.raise .thermWarn 0 k (up8 s.now) []).evalHold
  | none =>
    let r := lowFor s.now (2 * sec) (x.rates.all (fun v => decide (2 * v < w))) x.warnLow
    let s1 := s.setThm { x with warnLow := r.1, warn := x.warn && !r.2 }
    if x.warn && r.2 then s1.evalHold else s1

/-- THERM_TRIP (R384, R385): sensor k, journal index js, cause 0 ABS, 1 RATE, 2 EXT; the power of every ply goes. -/
def State.thermTrip (s : State) (cause k js : Nat) (v rate : Int) : State :=
  if s.mode.mode = .dormant ∨ s.mode.mode = .safe then s else
  let s1 := s.raise .thermTrip 0 k (up8 s.now) [wd cause]
  let s2 := s1.trip (3 + cause) { s1.jcause 2 with sensor := js, reading := v, rate := rate } false
  (s2.setMode { s2.mode with full := true }).setPwr { s2.pwr with fullFans := true }

/-- The sensors at or over a limit now, and the first of them that was so at the reading before (R384). -/
def overTwice (l : List Int) (lim : Int) (before : List Nat) : List Nat × Option Nat :=
  let now' := (List.range l.length).filter (fun k => decide (lim ≤ reading l k))
  (now', now'.find? (fun k => before.contains k))

/-- The absolute and rate limits (R384). -/
def State.readTrips (s : State) : State :=
  let x := s.thm
  let a := overTwice x.temps 1680 x.absOver
  let r := overTwice x.rates (s.fld .thmCtl 11 8 * 8 : Nat) x.rateOver
  let s1 := s.setThm { x with absOver := a.1, rateOver := r.1 }
  let s2 := match a.2 with | some k => s1.thermTrip 0 k k (reading x.temps k) (reading x.rates k) | none => s1
  match r.2 with | some k => s2.thermTrip 1 k k (reading x.temps k) (reading x.rates k) | none => s2

/-- DORMANT held by a hot sensor (R51): journalled; it ends when every sensor reads below 90 degrees. -/
def State.readHeld (s : State) : State :=
  if s.mode.mode ≠ .dormant then s else
  match firstOver s.thm.temps (fun v => decide (1520 ≤ v)) with
  | some k =>
    if s.mode.hotHeld then s else
    let s1 := s.setMode { s.mode with hotHeld := true }
    s1.toJournal { s1.jcause 0x10 with sensor := k, reading := reading s.thm.temps k, rate := reading s.thm.rates k }
  | none => if s.thm.temps.all (fun v => decide (v < 1440)) then s.setMode { s.mode with hotHeld := false } else s

/-- A new set of die sensor readings (R379). -/
def State.newTemps (s : State) (temps : List Int) : State :=
  let x := s.thm
  let h := (s.now, temps) :: x.hist
  let recent := h.filter (fun e => decide (s.now < e.1 + sec))
  let older := (h.filter (fun e => decide (e.1 + sec ≤ s.now))).take 1
  s.setThm { x with temps := temps, rates := ratesOf x.hist s.now temps, hist := recent ++ older }

/-- DIE_SENSOR_READ (R379 to R384). -/
def State.dieSensorRead (s : State) (temps : List Int) : State :=
  if s.supply = .off ∨ temps.length ≠ 22 then s else
  (((((s.newTemps temps).readBands).readHigh).readWarn).readTrips).readHeld

def execDieSensorRead (t : BitVec 64) (temps : List Int) (s : State) : Host.Outcome State Fault Refusal :=
  .next ((s.upTo t).dieSensorRead temps)

-- thermistors

/-- The WARN and TRIP limits of thermistor j (R395). -/
def State.extWarnLim (s : State) (j : Nat) : Int := sext 16 (s.fld (.thmExtLim j) 15 0)
def State.extTripLim (s : State) (j : Nat) : Int := sext 16 (s.fld (.thmExtLim j) 31 16)

/-- One thermistor compared with its WARN limit (R384): THERM_EXT once per excursion; an open or shorted one takes no
part. -/
def State.extWarn (s : State) (j : Nat) (v : Option Int) : State :=
  let hot := match v with | some v => decide (s.extWarnLim j ≤ v) | none => false
  let was := s.thm.extWarm.contains j
  if hot && !was then
    (s.setThm { s.thm with extWarm := j :: s.thm.extWarm }).raise .thermExt 0 j (up8 s.now) []
  else if !hot && was then s.setThm { s.thm with extWarm := s.thm.extWarm.erase j } else s

/-- THERMISTOR_READ (R379, R384). -/
def State.thermistorRead (s : State) (temps : List (Option Int)) : State :=
  if s.supply = .off ∨ temps.length ≠ 8 then s else
  let s1 := s.setThm { s.thm with ext := temps }
  let s2 := (List.range 8).foldl (fun a j => a.extWarn j ((temps[j]?).getD none)) s1
  let hot := (List.range 8).filter (fun j => match (temps[j]?).getD none with | some v => decide (s.extTripLim j ≤ v) | none => false)
  let s3 := s2.setThm { s2.thm with extOver := hot }
  match hot.find? (fun j => s.thm.extOver.contains j) with
  | some j => s3.thermTrip 2 j (32 + j) (((temps[j]?).getD none).getD 0) 0
  | none => s3

def execThermistorRead (t : BitVec 64) (temps : List (Option Int)) (s : State) : Host.Outcome State Fault Refusal :=
  .next ((s.upTo t).thermistorRead temps)

/-- Whether the cause of a thermal trip has cleared (R385). -/
def State.thermClear (s : State) : Bool :=
  s.thm.temps.all (fun v => decide (v < 1440)) &&
  s.thm.rates.all (fun v => decide (v < (s.fld .thmCtl 7 4 * 8 : Nat))) && s.thm.extOver.isEmpty

-- fans

/-- FAN_FAIL (R386): reported with its number; its FAIL bit runs the other fans at full speed until it is cleared. -/
def State.fanFail (s : State) (f : Nat) : State :=
  if s.supply = .off ∨ getF (s.flagWord (.pwrFan f)) 16 16 = 1 then s else
  (s.setFlag (.pwrFan f) 16).raise .fanFail 0 f (up8 s.now) []

def execFanFail (t : BitVec 64) (f : Fin 6) (s : State) : Host.Outcome State Fault Refusal := .next ((s.at t).fanFail f.val)

-- the journal

/-- A signed value as two bytes. -/
def le16 (v : Int) : List Byte := leBytes 2 (toTwos 16 v)

/-- The CAUSES bit of a trip cause (R388, R431). -/
def causeBit (idx : Nat) : Nat :=
  if idx = 1 then 0 else if idx = 2 then 4 else if idx = 3 then 1 else if idx = 4 then 2 else if idx = 5 then 3 else 5

/-- The CAUSES word of a list of causes. -/
def causesWord (l : List Nat) : Nat := ((l.map causeBit).dedup.map (fun b => 2 ^ b)).foldl (· + ·) 0

/-- Bytes 0 to 251 of a record copy (R388). -/
def JCause.body (j : JCause) (seq boot copy causes mains : Nat) : List Byte :=
  (leBytes 4 seq ++ leBytes 4 boot ++ leBytes 8 j.time ++ leBytes 1 j.kind ++ leBytes 1 j.mode ++ leBytes 1 j.safe ++
    leBytes 1 copy ++ leBytes 4 causes ++ leBytes 2 j.sensor ++ le16 j.reading ++ le16 j.rate ++ leBytes 2 mains ++
    leBytes 4 j.rails) ++
  ((j.temps ++ List.replicate 30 0).take 30).flatMap le16 ++
  (leBytes (if j.kind = 3 then 2 else 4) j.detail ++ List.replicate 156 0).take 156

/-- A record copy passes its check (R388). -/
def copyOk (bs : List Byte) : Bool := whipOk bs && bs.length == 256

/-- A copy torn by the loss of power: its check fails. -/
def tear (bs : List Byte) : List Byte := bs.take 255 ++ (bs.drop 255).map (fun b => ~~~b)

/-- The copy of a record that is taken (R391). -/
def JRec.passing (r : JRec) : Option (List Byte) :=
  match r.a with
  | some x => if copyOk x then some x else (match r.b with | some y => if copyOk y then some y else none | none => none)
  | none => match r.b with | some y => if copyOk y then some y else none | none => none

/-- The records that stay when one with sequence number n is written (R387): the oldest sector pair goes when a pair
comes into use. -/
def jrnKeep (n : Nat) (l : List JRec) : List JRec := l.filter (fun r => decide ((n - 1) / 16 < (r.seq - 1) / 16 + 127))

/-- JOURNAL_RECORD (R387 to R390): the first pending record is written, as far as the power lasts. -/
def State.journalRecord (s : State) (cut : JournalCut) : State :=
  if s.supply = .off ∨ s.mc.running = false then s else
  match s.pwr.jPend with
  | [] => s
  | j :: r =>
    let n := s.pwr.jSeq + 1
    let causes := if j.kind ≤ 4 then causesWord s.mode.causes else 0
    let mains := getF (Config.measured RegId.pwrMains.off s.free) 15 0
    let copy := fun c => whipped (j.body n s.pwr.bootCnt c causes mains)
    let rec' : JRec := match cut with
      | .both => ⟨n, some (copy 0), some (copy 1)⟩
      | .onlyA => ⟨n, some (copy 0), none⟩
      | .tornA => ⟨n, some (tear (copy 0)), none⟩
    s.tick.setPwr { s.pwr with jPend := r, jSeq := n, jrn := jrnKeep n s.pwr.jrn ++ [rec'] }

def execJournalRecord (t : BitVec 64) (cut : JournalCut) (s : State) : Host.Outcome State Fault Refusal :=
  .next ((s.at t).journalRecord cut)

/-- The scan of step 3 (R391): torn records are discarded and counted. -/
def State.journalScan (s : State) : State :=
  let torn := s.pwr.jrn.filter (fun r => r.passing.isNone)
  let s1 := s.setPwr { s.pwr with jrn := s.pwr.jrn.filter (fun r => r.passing.isSome), jTorn := !torn.isEmpty }
  { s1 with counts := Tab.put s1.counts RegId.pwrJrnTorn.off torn.length }

/-- PWR_JRNLAST (R392). -/
def State.jrnLast (s : State) : Nat := maxOf 0 ((s.pwr.jrn.filter (fun r => r.passing.isSome)).map (·.seq))

/-- MEM_DIEMARK as the journal holds it (R357, R391): the last record of KIND 0x11. -/
def State.jrnMark (s : State) : Word :=
  match (s.pwr.jrn.filterMap JRec.passing).reverse.find? (fun bs => leAt bs 16 1 == 0x11) with
  | some bs => BitVec.ofNat 32 (leAt bs 96 4)
  | none => 0

/-- PWR_JRNSEL written (R392): the passing copy of the record, or zeros. -/
def State.wrJrnSel (s : State) (w : Word) : State :=
  let s1 := s.setReg .pwrJrnSel w
  let bs := ((s.pwr.jrn.find? (fun r => r.seq == w.toNat)).bind JRec.passing).getD []
  s1.setPwr { s1.pwr with jData := bs }

def execJrnselWrite (t : BitVec 64) (w : Word) (s : State) : Host.Outcome State Fault Refusal :=
  .next (if (s.at t).mode.mode = .dormant then s.at t else (s.at t).wrJrnSel w)

end Sys2Proof.Machine
end

