-- ==== Sys2Proof/Machine/Monitor.lean ====
section
/-! DEFINITION. Monitor inputs (R320 to R325), trigger inputs (R326, R327), event windows (R328, R329) and the controls
of trigger outputs and event windows (R330, R331), with the meanings of the rows of chapter 13. -/

namespace Sys2Proof.Machine

def State.monIn (s : State) (n : Nat) : MonIn := Tab.get s.mon n {}
def State.setMonIn (s : State) (n : Nat) (x : MonIn) : State := { s with mon := Tab.put s.mon n x }

/-- The sample period of monitor input n in ticks (R320). -/
def State.monPeriod (s : State) (n : Nat) : Nat := 16000000 / 2 ^ s.fld (.monCtl n) 6 4

/-- The next stamp of a monitor input: a multiple of its period, not before now and after the last (R320). -/
def State.monStamp (s : State) (n : Nat) : Nat :=
  let p := s.monPeriod n
  max ((s.now + p - 1) / p * p) ((s.monIn n).last / p * p + p)

-- delivery

/-- A monitor packet (R325). -/
def monPacket (n rate range tfirst : Nat) (ws : List Nat) : List Byte :=
  whipped (leBytes 4 (ws.length * 2 ^ 24 + rate * 2 ^ 17 + range * 2 ^ 15 + n) ++ leBytes 8 tfirst ++
    (ws.map (leBytes 4)).flatten)

/-- The oldest packets that are not being read overwritten until one of len bytes finds room (R296, R305). -/
def State.makeRoom (s : State) (qn len : Nat) : Nat → State
  | 0 => s
  | k + 1 =>
    let q := s.queue qn
    if q.room len then s else
    match q.pkts.find? (fun p => p.taken == 0) with
    | none => s
    | some p => State.makeRoom ((s.setQueue qn { q with pkts := q.pkts.erase p }).dropPacket qn) qn len k

/-- The packet in progress of input n closed and delivered (R325). -/
def State.closeBatch (s : State) (n : Nat) : State :=
  let x := s.monIn n
  if x.batch = [] then s else
  let qn := s.fld (.monQ n) 14 0
  let bs := monPacket n (s.fld (.monCtl n) 6 4) (s.fld (.monCtl n) 8 7) x.tFirst x.batch
  let s1 := s.setMonIn n { x with batch := [] }
  if s.inRole qn 7 = false ∨ (s.queue qn).size < 2 * bs.length then s1.dropPacket qn else
  let s2 := s1.makeRoom qn bs.length (s.queue qn).pkts.length
  if (s2.queue qn).room bs.length then s2.pushPacket qn { bytes := bs, first := s2.now, vis := some s2.now } else s2.dropPacket qn

/-- A kept sample's word joins the packet in progress (R325). -/
def State.deliverSample (s : State) (n w stamp : Nat) : State :=
  if s.fld (.monCtl n) 2 2 = 0 then s else
  let x := s.monIn n
  let y := { x with batch := x.batch ++ [w], tFirst := if x.batch = [] then stamp else x.tFirst }
  let s1 := s.setMonIn n y
  if s.fld (.monCtl n) 23 18 + 1 ≤ y.batch.length then s1.closeBatch n else s1

-- a sample

/-- The window comparator after a kept sample (R323); whether it reports. -/
def MonIn.compare (x : MonIn) (winen outside : Bool) (hyst : Nat) : MonIn × Bool :=
  if !winen then ({ x with outside := false, inRun := 0 }, false) else
  let run := if outside then 0 else x.inRun + 1
  let report := x.armed && outside
  ({ x with outside := outside, inRun := run, armed := (x.armed && !outside) || decide (hyst ≤ run) }, report)

/-- The open-wire check after a kept sample (R324): at or beyond 98 % of full scale in the direction of the current, and
within 90 % of it; whether OPEN is newly set. -/
def MonIn.openWire (x : MonIn) (ow hyst : Nat) (v : Int) : MonIn × Bool :=
  let full : Int := 2 ^ 23
  let at98 := (decide (ow = 1 ∨ ow = 3) && decide (98 * full ≤ 100 * v)) ||
    (decide (ow = 2 ∨ ow = 4) && decide (100 * v ≤ -98 * full))
  let ok := decide (100 * (v.natAbs : Int) ≤ 90 * full)
  let fs := if at98 then x.fsRun + 1 else 0
  let okr := if ok then x.okRun + 1 else 0
  let set := decide (4 ≤ fs) && !x.open'
  ({ x with fsRun := fs, okRun := okr, open' := (x.open' || set) && !(decide (hyst ≤ okr)) }, set)

/-- A kept sample with code v, stamped st (R321, R323 to R325). -/
def State.keepSample (s : State) (n st : Nat) (v : Int) (clip : Bool) : State :=
  let lo := sext 24 (s.fld (.monLow n) 23 0)
  let hi := sext 24 (s.fld (.monHigh n) 23 0)
  let hyst := s.fld (.monCtl n) 15 12
  let c := (s.monIn n).compare (decide (s.fld (.monCtl n) 3 3 = 1)) (decide (v < lo) || decide (hi < v)) hyst
  let o := c.1.openWire (s.fld (.monCtl n) 11 9) hyst v
  let code := toTwos 24 v
  let s1 := s.setMonIn n { o.1 with code := code, clip := clip }
  let s2 := if c.2 then s1.raise .monWindow 0 n st [wd code, wd (if v < lo then 0 else 1)] else s1
  let s3 := if o.2 then s2.raise .monOpen 0 n st [] else s2
  s3.deliverSample n (code + b2n clip * 2 ^ 24 + b2n o.1.open' * 2 ^ 25 + b2n o.1.outside * 2 ^ 26) st

/-- Monitor inputs run in READY, RUN and HOLD, in an ungated strand, while enabled (R39, R321). -/
def State.monRuns (s : State) (n : Nat) : Bool :=
  (s.mode.mode == .ready || s.mode.mode == .run || s.mode.mode == .hold) &&
  decide ((s.strand (n / 2)).gate = .ungated) && decide (s.fld (.monCtl n) 0 0 = 1)

/-- MON_SAMPLE (R320, R321): the converter delivers the code `raw`, before clipping, at its next stamp. -/
def State.monSample (s : State) (n : Nat) (raw : Int) : State :=
  if s.monRuns n = false then s else
  let st := s.monStamp n
  let s1 := s.clockTo st
  let x := s1.monIn n
  if 0 < x.skip then s1.setMonIn n { x with last := st, skip := x.skip - 1 } else
  let v := satI 24 raw
  (s1.setMonIn n { x with last := st }).keepSample n st v (decide (v ≠ raw))

def execMonSample (n : Fin 64) (raw : Int) (s : State) : Host.Outcome State Fault Refusal := .next (s.monSample n.val raw)

/-- MON_CTL written (R321, R323, R325, R333): a change of RATE, RANGE or ENABLE closes the packet in progress and starts
the settling anew, an enable of the input or of the comparator arms the comparator; a packet in progress is closed when QEN falls, too. -/
def State.wrMonCtl (s : State) (n : Nat) (w : Word) : State :=
  let was := s.reg (.monCtl n)
  let new := (s.writeFields (.monCtl n) w).reg (.monCtl n)
  let on0 := decide (getF was 0 0 = 1)
  let on1 := decide (getF new 0 0 = 1)
  let change := decide (getF was 6 4 ≠ getF new 6 4) || decide (getF was 8 7 ≠ getF new 8 7) || on0 != on1
  let s1 := if change || decide (getF new 2 2 = 0) then s.closeBatch n else s
  let s2 := s1.writeFields (.monCtl n) w
  let x := s2.monIn n
  let y := if change then { x with skip := 6 } else x
  let z := if on1 && !on0 then { y with armed := true, inRun := 0, fsRun := 0, okRun := 0 } else y
  let c := if getF new 3 3 = 1 ∧ getF was 3 3 = 0 then { z with armed := true, inRun := 0 } else z
  (s2.setMonIn n c).plainEnable (n / 2) on0 on1

-- trigger inputs

/-- Trigger inputs work from READY onward (R40, R327). -/
def State.trigOn (s : State) : Bool := s.mode.mode.powered || (s.mode.mode == .safe && s.mode.served)

/-- A counted transition of trigger input i to `lvl`, stamped t (R204, R327, R328): the trigger bit, the trigger queues
of the cores that take it, the edge for event windows, and the record under EVEN. -/
def State.transition (s : State) (i lvl t : Nat) : State :=
  let h : List Chg := { at' := t, stamp := t, val := lvl } :: Tab.get s.dec.trigs i []
  let s1 := { s with
    tio := { s.tio with level := Tab.put s.tio.level i lvl,
                        edges := Tab.put s.tio.edges i ((t, decide (lvl = 1)) :: Tab.get s.tio.edges i []) },
    dec := { s.dec with trigs := Tab.put s.dec.trigs i h } }
  let qedge := s.fld (.tioInCtl i) 5 4
  if qedge.testBit (if lvl = 1 then 0 else 1) = false then s1 else
  let s2 := (s1.cores.map (·.1)).foldl (fun a c => if (a.reg (.seqTrigMask c)).getLsbD i then a.pushTrig c i t else a) s1
  if s.fld (.tioInCtl i) 3 3 = 1 then s2.raise .trigEdge 0 i t [wd lvl] else s2

/-- The level of a trigger line while no input is stamped: it is what the trigger bit reads once inputs work, with stamp 0
(R40, R204, R326). -/
def State.quietLevel (s : State) (i lvl : Nat) : State :=
  { s with tio := { s.tio with level := Tab.put s.tio.level i lvl },
           dec := { s.dec with trigs := Tab.put s.dec.trigs i [{ at' := 0, stamp := 0, val := lvl, wr := false }] } }

/-- TRIGGER_EDGE (R326): at tick t the connector of input i takes the level `level` and holds it for `held` ticks; after
INV, one held for less than 8 + FILT ticks is discarded and counted. -/
def State.triggerEdge (s : State) (i : Nat) (level : Bool) (held t : Nat) : State :=
  if s.trigOn = false then (if held < 8 then s else s.quietLevel i (b2n level)) else
  if held < 8 + s.fld (.tioInCtl i) 11 8 then s.bump (.tioGlitch i) 1 else
  let lvl := b2n (level != decide (s.fld (.tioInCtl i) 2 2 = 1))
  if Tab.get s.tio.level i 0 = lvl then s else s.transition i lvl t

def execTriggerEdge (t : BitVec 64) (i : Fin 32) (level : Bool) (held : Nat) (s : State) :
    Host.Outcome State Fault Refusal := .next ((s.upTo t).triggerEdge i.val level held t.toNat)

/-- TIO_INCTL written (R326): a change of INV turns the counted level over from the next boundary on. -/
def State.wrTioIn (s : State) (i : Nat) (w : Word) : State :=
  let was := s.fld (.tioInCtl i) 2 2
  let s1 := s.writeFields (.tioInCtl i) w
  if s1.fld (.tioInCtl i) 2 2 = was ∨ s.trigOn = false then s1
  else s1.transition i (1 - Tab.get s1.tio.level i 0) (up8 s1.now)

-- trigger outputs and event windows

/-- The register of a trigger-output or event-window control, and the unit a word of it names (R330, R328). -/
def trigReg : TrigTarget → RegId
  | .out o => .tioOutCtl o.val
  | .window w => .tioEwCtl w.val

def trigUnit (x : TrigTarget) (w : Word) : Option (Nat × Nat) :=
  match x with
  | .out _ => if getF w 31 30 = 1 then some (getF w 12 8, getF w 6 0) else none
  | .window _ => some (getF w 12 8, getF w 6 0)

/-- The core that owns the named unit is RUNNING or WAITING (R331). -/
def State.gateBusy (s : State) : Option (Nat × Nat) → Bool
  | none => false
  | some (k, u) => s.anyActive k [u]

/-- A control word put in force (R331): an event window counts segments from then on. -/
def State.setTrig (s : State) (x : TrigTarget) (w : Word) : State :=
  let s1 := (s.unhold (trigReg x)).setReg (trigReg x) (RegId.mergeX (trigReg x) (s.reg (trigReg x)) w)
  match x with
  | .out _ => s1
  | .window v => { s1 with tio := { s1.tio with wins := Tab.put s1.tio.wins v.val { Tab.get s1.tio.wins v.val {} with from' := s1.now } } }

/-- TIO_OUTCTL or TIO_EWCTL written (R331): held while the owning core of the old or the new unit runs. -/
def State.wrTrig (s : State) (x : TrigTarget) (w : Word) : State :=
  let new := RegId.mergeX (trigReg x) (s.reg (trigReg x)) w
  if s.gateBusy (trigUnit x (s.reg (trigReg x))) || s.gateBusy (trigUnit x new) then s.hold (trigReg x) w else s.setTrig x w

def execTriggerOutWrite (t : BitVec 64) (x : TrigTarget) (w : Word) (s : State) : Host.Outcome State Fault Refusal :=
  .next (s.blockWrite t (trigReg x) (fun a => a.wrTrig x w))

/-- What stands at the pin of a trigger output (R39, R330). -/
inductive TrigPin where
  | highZ | low | high
  deriving DecidableEq, Repr

/-- What the source of trigger output o gives at tick n (R330): LOW; the segments [T, E) of a unit, or [T, T + WIDTH) in mode PULSE,
overlapping ones merged; a derived bit, 8 ticks after its presence time. -/
def State.trigSource (s : State) (o n : Nat) : Bool :=
  let w := s.reg (.tioOutCtl o)
  if getF w 31 30 = 1 then
    (s.punit (getF w 12 8) (getF w 6 0)).intervals.any (fun i =>
      decide (i.1 ≤ n) && decide (n < if getF w 29 29 = 1 then (if i.1 < i.2 then i.1 + getF w 27 16 else i.1) else i.2))
  else if getF w 31 30 = 2 then decide ((s.derivedAt (getF w 7 0) (n - 8)).val = 1)
  else false

/-- The pin of trigger output o at tick n of the present mode (R39, R44, R330): without power it is not driven; outside RUN, and
from a trip on, it is low. -/
def State.trigPin (s : State) (o n : Nat) : TrigPin :=
  if s.supply = .off ∨ s.mode.mode = .dormant then .highZ else
  if s.mode.mode ≠ .run ∨ s.mode.tripAt.isSome = true then .low else
  if s.trigSource o n != decide (s.fld (.tioOutCtl o) 28 28 = 1) then .high else .low

/-- EVENT_WINDOW_END (R328, R329): the oldest ended and unreported segment of the window's gate unit, its matching
edges counted, and the record. -/
def State.evWindow (s : State) (v : Nat) : State :=
  let r := RegId.tioEwCtl v
  let x := Tab.get s.tio.wins v {}
  if s.fld r 31 31 = 0 then s else
  let ivs := (s.punit (s.fld r 12 8) (s.fld r 6 0)).intervals
  match ivs.find? (fun i => decide (i.1 < i.2) && decide (i.2 ≤ s.now) && decide (x.from' ≤ i.1) &&
      (match x.done with | none => true | some d => decide (d < i.1))) with
  | none => s
  | some (a, b) =>
    let inp := s.fld r 28 24
    let es := ((Tab.get s.tio.edges inp []).filter (fun e => decide (a ≤ e.1) && decide (e.1 < b) &&
      (s.fld r 30 29).testBit (if e.2 then 0 else 1))).map (·.1)
    let s1 := { s with tio := { s.tio with wins := Tab.put s.tio.wins v { x with done := some a } } }
    s1.raise .tioEvwin 0 v b ([wd inp] ++ wd64 a ++ wd64 b ++ [wd (min 0xFFFF es.length)] ++
      wd64 ((es.getLast?).getD 0) ++ wd64 ((es.head?).getD 0))

def execEventWindowEnd (t : BitVec 64) (v : Fin 32) (s : State) : Host.Outcome State Fault Refusal :=
  .next ((s.upTo t).evWindow v.val)

end Sys2Proof.Machine
end

