-- ==== Sys2Proof/Machine/Calib.lean ====
section
/-! DEFINITION. Calibration (chapter 14): when converters are due (R339), idle gaps (R340, R341), steps (R337, R343 to
R345), corrections and how they come into force (R346, R348, R349), and the foreground calibration (R350), with the
meanings of the rows of the chapter. -/

namespace Sys2Proof.Machine

-- due

/-- CAL_DUE (R339, R349): the interval of the temperature band has passed, or the second after an outlier. -/
def State.calDue (s : State) (x : Nat) : State :=
  let v := s.conv x
  if v.due.isSome then s else
  match v.again with
  | some a => if a ≤ s.now then s.makeDue x a else s
  | none =>
    match Tab.get? v.last (s.convRange x) with
    | none => s.makeDue x s.now
    | some e => if e + s.calInterval ≤ s.now then s.makeDue x (e + s.calInterval) else s

def execCalDue (t : BitVec 64) (x : Fin 768) (s : State) : Host.Outcome State Fault Refusal := .next ((s.at t).calDue x.val)

-- idle gaps

/-- The interval around tick b in which unit u of strand k is idle: since when, and until when if that is known
(R340). -/
def State.unitIdle (s : State) (k u b : Nat) : Option (Nat × Option Nat) :=
  let x := s.core (8 * k + s.owner k u)
  let m := s.mode.mode
  if m == .ready || m == .calibrate || m == .test then
    if x.st == .armed then none else some (min s.mode.entryTime (x.stopAt.getD s.mode.entryTime), none)
  else
    match x.st with
    | .idle => some (x.stopAt.getD 0, none)
    | .done => some (x.stopAt.getD 0, none)
    | .fault => some (x.stopAt.getD 0, none)
    | .running =>
      match x.bights with
      | y :: _ =>
        if y.shot && x.tPrev == y.s0 && x.ePrev == y.s0 && decide (b < y.s0) then some ((s.punit k u).lastEff, some y.s0)
        else none
      | [] => none
    | _ => none

/-- All units of converter x are idle from 512 ticks before b to 512 ticks after b + len (R341). -/
def State.inGap (s : State) (x b len : Nat) : Bool :=
  (convUnits x).all (fun u =>
    match s.unitIdle (convStrand x) u b with
    | none => false
    | some (a, none) => decide (a + 512 ≤ b)
    | some (a, some e) => decide (a + 512 ≤ b) && decide (b + len + 512 ≤ e))

/-- All units of converter x are idle at b (R340, R348). -/
def State.idleAt (s : State) (x b : Nat) : Bool :=
  (convUnits x).all (fun u =>
    match s.unitIdle (convStrand x) u b with
    | none => false
    | some (a, none) => decide (a ≤ b)
    | some (a, some e) => decide (a ≤ b) && decide (b < e))

/-- A step of x from b ends within the quiet interval (R343). -/
def State.inQuiet (s : State) (x b : Nat) : Bool :=
  let a := s.reg64 .calQuietStartLo .calQuietStartHi
  let e := s.reg64 .calQuietEndLo .calQuietEndHi
  decide (a < e) && decide (a ≤ b) && decide (b + stepTicks x ≤ e)

-- starting a step

/-- Background calibration may take a step on converter x (R338, R346, R352): BGEN, a mode that calibrates, the ply locked,
the strand ungated, the engine free, the controller at work. -/
def State.mayStep (s : State) (x : Nat) : Bool :=
  let e := s.engine (convStrand x / 8)
  decide (s.fld .calCtl 0 0 = 1) && (s.mode.mode == .ready || s.mode.mode == .run || s.mode.mode == .hold) &&
  s.mode.tripAt.isNone && decide ((s.ply (convStrand x / 8)).st = .locked) &&
  decide ((s.strand (convStrand x)).gate = .ungated) && e.cur.isNone && e.meas.isNone && s.mc.running

/-- The forcing deadline of a due converter (R345). -/
def State.deadline (s : State) (x due : Nat) : Nat := due + s.fld .calCtl 13 8 * sec + (s.conv x).slack

/-- Rank of a converter's class where due times tie (R339). -/
def classRank (x : Nat) : Nat := if x < 192 then 1 else if x < 256 then 0 else 2

/-- Converter x is served before converter y at tick b, both due (R339). -/
def State.servedFirst (s : State) (b x dx y dy : Nat) : Bool :=
  let px := decide (s.deadline x dx ≤ b)
  let py := decide (s.deadline y dy ≤ b)
  if px != py then px else
  if dx ≠ dy then decide (dx < dy) else
  if classRank x ≠ classRank y then decide (classRank x < classRank y) else decide (x < y)

/-- A step of x from b finds a gap or the quiet interval. -/
def State.findsPlace (s : State) (x b : Nat) : Bool := s.inGap x b (stepTicks x) || s.inQuiet x b

/-- Another due converter of the ply that could start, or is past its deadline, is served before x (R339). -/
def State.preceded (s : State) (x dx b : Nat) : Bool :=
  s.convs.any (fun e =>
    match e.2.due with
    | none => false
    | some dy => e.1 != x && convStrand e.1 / 8 == convStrand x / 8 && s.servedFirst b e.1 dy x dx && s.mayStep e.1 &&
        (decide (s.deadline e.1 dy ≤ b) || s.findsPlace e.1 b))

/-- The shot of the owning core invalid for each unit with a segment, and each window, that meets a step from a to b
(R343, R345). -/
def State.markMet (s : State) (x a b : Nat) : State :=
  let k := convStrand x
  let us' := convUnits x
  let s1 := us'.foldl (fun z u =>
    match (z.punit k u).seg with
    | some g => if g.start < b ∧ a < g.stop then z.invalid g.core (max a g.start) else z
    | none => z) s
  if (convOut x).isSome then s1 else
  us'.foldl (fun z u => (z.rtone k (u - 32)).wins.foldl (fun y w =>
    if adcTick w.reach.1 < b ∧ a < adcTick w.reach.2 then y.invalid w.core (max a w.t) else y) z) s1

/-- A step starts on converter x at boundary b (R337, R344). -/
def State.beginStep (s : State) (x b : Nat) (kind : StepKind) : State :=
  let k := convStrand x
  let s1 := s.toTime b
  let s2 := s1.setConv x { s1.conv x with step := some { start := b, stop := b + stepTicks x, kind := kind, range := s1.convRange x } }
  let s3 := s2.setEngine (k / 8) { s2.engine (k / 8) with cur := some x }
  let s4 := match convOut x with
    | some q =>
      let a := if 6 ≤ q.2 then s3.settleChain q.1 (q.2 - 6) b else s3
      a.setOut q.1 q.2 { a.out q.1 q.2 with calMute := true }
    | none => s3.setInp k (convIn x) { s3.inp k (convIn x) with calOff := (b, none) :: (s3.inp k (convIn x)).calOff }
  if kind = .gap then s4 else s4.markMet x b (b + stepTicks x)

/-- CAL_STEP_START (R335, R341, R343): a due converter that is first in order starts a step in an idle gap or a quiet
interval; a transfer reference out of limits stops the ply's steps until a check passes. -/
def State.stepStart (s : State) (x : Nat) (refOk : Bool) : State :=
  let p := convStrand x / 8
  let b := up8 s.now
  match (s.conv x).due with
  | none => s
  | some d =>
    if s.mayStep x = false ∨ s.preceded x d b = true then s else
    if s.findsPlace x b = false then (if refOk then s.setEngine p { s.engine p with refBad := false } else s) else
    let s1 := s.setEngine p { s.engine p with refBad := !refOk }
    if refOk = false then (if (s.engine p).refBad then s1 else s1.raise .calRef 0 p b []) else
    s1.beginStep x b (if s.inGap x b (stepTicks x) then .gap else .quiet)

def execCalStepStart (t : BitVec 64) (x : Fin 768) (refOk : Bool) (s : State) : Host.Outcome State Fault Refusal :=
  .next ((s.upTo t).stepStart x.val refOk)

/-- CAL_FORCED (R345): past the forcing deadline a step starts at the first boundary at which the engine is free. -/
def State.forced (s : State) (x : Nat) : State :=
  let b := up8 s.now
  match (s.conv x).due with
  | none => s
  | some d =>
    if s.mayStep x = false ∨ b < up8 (s.deadline x d) ∨ (s.engine (convStrand x / 8)).refBad = true ∨ s.preceded x d b = true
    then s else (s.beginStep x b .forced).raise .calForced 0 x b []

def execCalForced (t : BitVec 64) (x : Fin 768) (s : State) : Host.Outcome State Fault Refusal := .next ((s.upTo t).forced x.val)

/-- CAL_STEP_END (R337, R339, R346): the converter is back, and its measurements wait for the controller. -/
def State.stepEnd (s : State) (x : Nat) : State :=
  match (s.conv x).step with
  | none => s
  | some g =>
    let s1 := (s.toTime g.stop).leaveStep x g.stop
    if g.void then s1 else
    let v := s1.conv x
    let s2 := s1.setConv x { v with due := none, slack := 0, again := none, last := Tab.put v.last g.range g.stop,
                                    band := some s1.thm.modBand, meas := some g }
    s2.setEngine (convStrand x / 8) { s2.engine (convStrand x / 8) with meas := some x }

def execCalStepEnd (x : Fin 768) (s : State) : Host.Outcome State Fault Refusal := .next (s.stepEnd x.val)

-- corrections

/-- The correction of a converter for a range (none formed yet: zero). -/
def Conv.corrOf (v : Conv) (range : Nat) : Corr := Tab.get v.corr range {}

/-- A ramp's values at tick n (R348). -/
def Ramp.at' (r : Ramp) (n : Nat) : Corr :=
  let f : Rat := if r.len = 0 then 1 else min 1 ((((n - r.start : Nat) : Rat)) / ((r.len : Nat) : Rat))
  { gain := r.old.gain + (r.new.gain - r.old.gain) * f,
    offset := r.old.offset + (r.new.offset - r.old.offset) * f,
    timing := r.old.timing + (r.new.timing - r.old.timing) * f }

/-- The values in force for a range at tick n (R348). -/
def Conv.inForce (v : Conv) (range n : Nat) : Corr :=
  match v.ramp with
  | some r => if r.range = range then r.at' n else v.corrOf range
  | none => v.corrOf range

/-- The limits of R349 for gain, offset and timing. -/
def outlierLimits (x : Nat) : Rat × Rat × Rat :=
  if x < 192 then (20000, 2000, 2000) else if x < 256 then (20000, 2000, 1000) else (2000, 500, 0)

/-- A correction differs from the one in force by more than its limits; baseband DACs have no timing (R349). -/
def isOutlier (x : Nat) (old new : Corr) : Bool :=
  let l := outlierLimits x
  decide (l.1 < |new.gain - old.gain|) || decide (l.2.1 < |new.offset - old.offset|) ||
    (decide (x < 256) && decide (l.2.2 < |new.timing - old.timing|))

/-- The correction an operand states. -/
def formedCorr (v : Correction) : Corr := { gain := v.gain, offset := v.offset, timing := v.timing }

/-- A ramp cut short at tick n: the values then in force stay (R348). -/
def Conv.freeze (v : Conv) (n : Nat) : Conv :=
  match v.ramp with
  | some r => { v with corr := Tab.put v.corr r.range (r.at' n), ramp := none }
  | none => v

/-- A correction put in force for a range at once. -/
def State.putCorr (s : State) (x range : Nat) (c : Corr) : State :=
  let v := (s.conv x).freeze s.now
  s.setConv x { v with corr := Tab.put v.corr range c, pend := none }

/-- A good correction applied by CAL_APPLY (R348). -/
def State.applyCorr (s : State) (x : Nat) (g : CalStep) (c : Corr) : State :=
  let v := (s.conv x).freeze s.now
  let r : Ramp := ⟨g.range, g.stop, s.fld (.calApply x) 10 0 * us, v.corrOf g.range, c⟩
  if s.fld (.calApply x) 16 16 = 0 then s.setConv x { v with pend := none, ramp := some r }
  else if g.kind = .gap then s.putCorr x g.range c
  else s.setConv x { v with pend := some (g.range, c) }

/-- An update of the interleave correction of ADC pair x from the input signal itself, while the input is enabled (R158,
R348). -/
def State.background (s : State) (x : Nat) (c : Corr) : State :=
  if 192 ≤ x ∧ x < 256 ∧ s.fld (.acqInCtl (convStrand x) (convIn x)) 0 0 = 1 then
    s.applyCorr x { start := s.now, stop := s.now, kind := .forced, range := s.convRange x } c
  else s

/-- An outlier (R349): discarded and reported; a third in a row is CAL_FAIL. -/
def State.outlier (s : State) (x : Nat) : State :=
  let v := s.conv x
  let n := v.outliers + 1
  let s1 := (s.setConv x { v with outliers := n, again := some (s.now + sec), failed := v.failed || decide (3 ≤ n) }).raise
    Ev.calOutlier 0 x (up8 s.now) []
  if n = 3 then s1.raise .calFail 0 x (up8 s.now) [] else s1

/-- A wait of the controller above 100 ms has ended (R346): CAL_DEFERRED, CAL_LASTDEFER, and the forcing clocks of the ply's
due converters move on by it. -/
def State.endDeferral (s : State) (p from' : Nat) : State :=
  let wait := s.now - from'
  if wait ≤ 100 * ms then s else
  let s1 := { s with convs := s.convs.map (fun (e : Nat × Conv) =>
    match e.2.due with
    | none => e
    | some d => if convStrand e.1 / 8 = p then (e.1, { e.2 with slack := e.2.slack + (s.now - max d from') }) else e) }
  (s1.setReg .calLastDefer (wd (min 0xFFFFFFFF (wait / ms)))).raise .calDeferred 0 p (up8 s.now) [wd (wait / ms)]

/-- A correction formed from the measurements of a step: an outlier is discarded (R346, R348, R349). -/
def State.stepCorr (s : State) (x : Nat) (g : CalStep) (c : Corr) : State :=
  let p := convStrand x / 8
  let s1 := (s.setConv x { s.conv x with meas := none }).setEngine p { s.engine p with meas := none }
  let s2 := s1.endDeferral p g.stop
  if isOutlier x ((s2.conv x).inForce g.range s2.now) c then s2.outlier x else
  let s3 := s2.setConv x { s2.conv x with outliers := 0, failed := false }
  if s3.mode.mode = .calibrate then s3.putCorr x g.range c else s3.applyCorr x g c

/-- A correction of the foreground calibration, for the converter's next range (R350). -/
def State.fgCorr (s : State) (x : Nat) (c : Corr) : State :=
  let v := s.conv x
  let s1 := s.setConv x { v with fgNext := (v.fgNext + 1) % (if 192 ≤ x ∧ x < 256 then 2 else 4) }
  if isOutlier x (v.inForce v.fgNext s.now) c then s1.outlier x
  else (s1.setConv x { s1.conv x with outliers := 0, failed := false }).putCorr x v.fgNext c

/-- CAL_CORRECTION (R158, R346, R348 to R350): the controller forms a correction from the measurements that wait, or, in the
foreground, for the converter's next range; else the interleave correction of an ADC pair is updated in the background. -/
def State.correction (s : State) (x : Nat) (c : Corr) : State :=
  match (s.conv x).meas with
  | some g => if s.mc.running then s.stepCorr x g c else s
  | none =>
    if s.mode.mode = .calibrate ∧ (s.engine (convStrand x / 8)).fgFrom.isSome = true then
      (if s.mc.running then s.fgCorr x c else s)
    else s.background x c

def execCalCorrection (t : BitVec 64) (x : Fin 768) (v : Correction) (s : State) : Host.Outcome State Fault Refusal :=
  .next ((s.upTo t).correction x.val (formedCorr v))

/-- CAL_APPLY_BOUNDARY (R348): a waiting correction is applied in an idle gap, or as an owning core starts a shot. -/
def State.applyBoundary (s : State) (x : Nat) : State :=
  let b := up8 s.now
  let k := convStrand x
  match (s.conv x).pend with
  | none => s
  | some (r, c) =>
    let starts := (s.ownersOf k (convUnits x)).any (fun d =>
      match (s.core d).curShot with | some y => up8 y.start == b | none => false)
    if s.idleAt x b || starts then s.putCorr x r c else s

def execCalApplyBoundary (t : BitVec 64) (x : Fin 768) (s : State) : Host.Outcome State Fault Refusal :=
  .next ((s.upTo t).applyBoundary x.val)

/-- RAMP_COMPLETE (R348). -/
def State.rampDone (s : State) (x : Nat) : State :=
  match (s.conv x).ramp with
  | none => s
  | some r => (s.toTime (r.start + r.len)).putCorr x r.range r.new

def execRampComplete (x : Fin 768) (s : State) : Host.Outcome State Fault Refusal := .next (s.rampDone x.val)

-- foreground calibration

/-- The time a converter takes in the foreground (R350). -/
def fgTicks (x : Nat) : Nat := if x < 192 then 200 * us else if x < 256 then 1000 * us else 100 * us

/-- The bit of CLASSES that selects a converter (R353). -/
def classBit (x : Nat) : Nat := if x < 192 then 0 else if x < 256 then 1 else 2

/-- Running ends of a list of converters taken one after another. -/
def fgEnds : Nat → List Nat → List (Nat × Nat)
  | _, [] => []
  | a, x :: xs => (x, a + fgTicks x) :: fgEnds (a + fgTicks x) xs

/-- The selected converters of ply p in ascending order, with the ends of their calibrations after its start (R350). -/
def State.fgList (s : State) (p : Nat) : List (Nat × Nat) :=
  fgEnds 0 ((List.range 768).filter (fun x => convStrand x / 8 == p && (s.fld .calFgCtl 2 0).testBit (classBit x)))

/-- The plies that the foreground calibration covers. -/
def State.fgPlies (s : State) : List Nat := (List.range s.plyCount).filter (fun p => (s.fld .calFgCtl 11 8).testBit p)

/-- The end of the last selected calibration of a ply, or its start where none is selected. -/
def lastEnd (a : Nat) (l : List (Nat × Nat)) : Nat := match l.getLast? with | some e => a + e.2 | none => a

/-- When the foreground calibration ends (R350). -/
def State.fgEnd (s : State) : Nat :=
  maxOf s.mode.entryTime (s.fgPlies.map (fun p => match (s.engine p).fgFrom with
    | some a => lastEnd a (s.fgList p)
    | none => 0))

/-- When a request for READY at tick t ends it: after the converter that each ply then has in hand (R350). -/
def State.fgStopAt (s : State) (t : Nat) : Nat :=
  maxOf t (s.fgPlies.map (fun p => match (s.engine p).fgFrom with
    | some a => if t < a then 0 else match (s.fgList p).find? (fun e => decide (t < a + e.2)) with | some e => a + e.2 | none => 0
    | none => 0))

/-- Entry into CALIBRATE (R347, R350): steps in progress are abandoned, each selected ply is started if it does not run, and
its calibration starts when it is locked. -/
def State.fgStart (s : State) : State :=
  s.fgPlies.foldl (fun a p =>
    let at0 := match (a.ply p).st with
      | .locked => a.now
      | .starting => (a.ply p).due
      | .stopped => a.now + 40 * us
      | .stopping => (a.ply p).due + 40 * us
    let a1 := if (a.ply p).st = .locked then a else a.startPly p
    a1.setEngine p { a1.engine p with fgDone := false, fgFrom := some at0 }) (s.calAbortIf (fun _ => true))

/-- One converter calibrated in the foreground by tick e, in every range or band. -/
def State.fgOne (s : State) (x e : Nat) : State :=
  let v := s.conv x
  let last := (List.range (if 192 ≤ x ∧ x < 256 then 2 else 4)).foldl (fun l r => Tab.put l r e) v.last
  s.setConv x { v with due := none, slack := 0, again := none, last := last, band := some s.thm.modBand, fgNext := 0 }

/-- The foreground calibration over at tick e (R350): the converters done by then, and DONE of the plies completed. -/
def State.fgFinish (s : State) (e : Nat) : State :=
  s.fgPlies.foldl (fun a p =>
    match (a.engine p).fgFrom with
    | none => a
    | some f =>
      let l := a.fgList p
      let a1 := (l.filter (fun c => decide (f + c.2 ≤ e))).foldl (fun z c => z.fgOne c.1 (f + c.2)) a
      a1.setEngine p { a1.engine p with fgFrom := none, fgDone := decide (lastEnd f l ≤ e) }) s

/-- FG_CAL_DONE (R41, R350): the calibration completes, and READY follows 10 µs later. -/
def State.fgDone (s : State) : State :=
  if s.mode.mode ≠ .calibrate ∨ s.mode.trans.isSome = true ∨ s.now < s.fgEnd then s else
  s.beginTrans .ready (s.fgEnd + 10 * us)

def execFgCalDone (t : BitVec 64) (s : State) : Host.Outcome State Fault Refusal := .next ((s.upTo t).fgDone)

end Sys2Proof.Machine
end

