-- ==== Sys2Proof/Machine/MemInt.lean ====
section
/-! DEFINITION. Memory integrity (chapter 15): the HBM and SRAM scrubbers (R354 to R361, R363, R364), marked dies (R357,
R358), the die-to-die links (R366) and the memory self-test (R368, R369), with the meanings of the MEM rows. -/

namespace Sys2Proof.Machine

def State.setMem (s : State) (x : MemSt) : State := { s with mem := x }

/-- The global number of the core die that holds position p of a codeword (R355): 17 s + d. -/
def posDie (p : Nat) : Nat := p / 2

/-- The marked die, if one is (R357). -/
def State.marked (s : State) : Option Nat :=
  if s.fld .memDieMark 31 31 = 1 then some (17 * s.fld .memDieMark 5 5 + s.fld .memDieMark 4 0) else none

/-- MEM_DIEMARK as set, with its journal record (R357, R388). -/
def State.putMark (s : State) (w : Word) : State :=
  (s.setReg .memDieMark w).toJournal { s.jcause 0x11 with detail := w.toNat }

/-- Symbols corrected on die d in the last second (R358). -/
def State.grown (s : State) (d : Nat) : Nat := ((s.mem.ceLog.filter (fun e => decide (e.1 = d))).map (·.2.2)).foldl (· + ·) 0

/-- A die whose count has grown past the threshold within one second (R358): marked, or MEM_DIEFAIL with another die
marked. -/
def State.overThr (s : State) (d : Nat) : State :=
  if s.fld .memCtl 0 0 = 0 then s else
  match s.marked with
  | none => (s.putMark (BitVec.ofNat 32 (2 ^ 31 + d / 17 * 32 + d % 17))).raise .memDiemark 0 d (up8 s.now) []
  | some m => if m = d then s else s.raise .memDiefail 0 d (up8 s.now) []

/-- n symbols corrected on die d (R358, R360): counted; MEM_CE at most once per second for the die. -/
def State.dieCorrected (s : State) (d n : Nat) : State :=
  let old := s.grown d
  let s1 := (s.bump (.memDieCe d) n).setMem { s.mem with ceLog := (d, s.now, n) :: s.mem.ceLog }
  let quiet := match Tab.get? s.mem.ceRep d with | none => true | some r => decide (r + sec ≤ s.now)
  let s2 := if quiet then (s1.setMem { s1.mem with ceRep := Tab.put s1.mem.ceRep d s.now }).raise .memCe 0 d (up8 s.now) [] else s1
  let thr := s.fld .memCtl 15 8 * 64
  if old < thr ∧ thr ≤ old + n then s2.overThr d else s2

/-- Whether a codeword with these symbols in error can be corrected (R356, R357): 2e + f ≤ 4, a marked die's two symbols
being erasures. -/
def State.correctable (s : State) (bad : List Nat) : Bool :=
  match s.marked with
  | none => decide (2 * bad.length ≤ 4)
  | some m => decide (2 * (bad.filter (fun p => posDie p != m)).length + 2 ≤ 4)

/-- A codeword read with the decoder finding these positions in error (R359, R360). -/
def State.codewordRead (s : State) (c : Nat) (bad : List Nat) : State :=
  let s1 := s.setMem { s.mem with ceLog := s.mem.ceLog.filter (fun e => decide (s.now < e.2.1 + sec)) }
  if s1.mem.poison.contains c || !s1.correctable bad then
    let s2 := s1.setMem { s1.mem with poison := if s1.mem.poison.contains c then s1.mem.poison else c :: s1.mem.poison }
    s2.memUe (64 * c) (up8 s.now)
  else if bad.isEmpty then s1
  else (bad.map posDie).dedup.foldl (fun a d => a.dieCorrected d (bad.filter (fun p => posDie p = d)).length) (s1.bump .memCeCnt 1)

/-- Whether the HBM is in service (R50, R53). -/
def State.hbmOn (s : State) : Bool := s.mainOn && s.mode.mode != .boot

/-- SCRUB_READ (R361): the codeword at MEM_SCRUBPOS is read, and the position moves on. -/
def State.scrubRead (s : State) (bad : List Nat) : State :=
  if s.hbmOn = false ∨ s.fld .memCtl 23 16 = 0 then s else
  let c := s.mem.scrubPos
  let s1 := s.codewordRead c bad.dedup
  s1.setMem { s1.mem with scrubPos := (c + 1) % 2 ^ 29 }

def execScrubRead (t : BitVec 64) (bad : List (Fin 68)) (s : State) : Host.Outcome State Fault Refusal :=
  .next ((s.at t).scrubRead (bad.map (·.val)))

-- SRAM

/-- Whether the memory is being scrubbed (R364): its strand ungated, or the hub in service. -/
def State.scrubs (s : State) (m : SramId) : Bool :=
  if (sramKind m).2 = 32 then s.hbmOn else (s.strand (sramKind m).2).gate == .ungated

/-- The staged packet that holds a bad word fails its whipping trailer (R363); packets stand in the staging buffer four
words each, oldest first (notes/assumptions/35). -/
def State.stagedBad (s : State) (k word : Nat) : State :=
  let x := s.strand k
  match x.staged[word / 4]? with
  | none => s
  | some p => s.setStrand k { x with staged := x.staged.set (word / 4) { p with bad := true } }

/-- SRAM_SCRUB (R363, R364): a single-bit error is corrected and reported at most once per second; the word of a
double-bit error is reported, and its readers meet it until it is written. -/
def State.sramScrub (s : State) (m : SramId) (word : Nat) (e : SramError) : State :=
  if s.scrubs m = false then s else
  let g := (sramKind m).2
  match e with
  | .none => s
  | .single =>
    let s1 := s.bump .memSramCe 1
    let quiet := match Tab.get? s.mem.sramRep g with | none => true | some r => decide (r + sec ≤ s.now)
    if quiet then (s1.setMem { s1.mem with sramRep := Tab.put s1.mem.sramRep g s.now }).raise .sramCe 0 g (up8 s.now) [] else s1
  | .double =>
    let s1 := s.sramUe m word (up8 s.now)
    match m with
    | .staging k => s1.stagedBad k.val word
    | .burst => s1
    | _ => { s1 with badWords := if s1.badWords.contains (m, word) then s1.badWords else (m, word) :: s1.badWords }

def execSramScrub (t : BitVec 64) (m : SramId) (word : Nat) (e : SramError) (s : State) : Host.Outcome State Fault Refusal :=
  .next ((s.at t).sramScrub m word e)

-- die-to-die links

/-- The streamed segments of a ply brought up to the present (R310, R366). -/
def State.settlePly (s : State) (p : Nat) : State :=
  (s.units.map (·.1)).foldl (fun a key => if key / 640 = p then a.settleStream (key / 80) (key % 80) a.now else a) s

/-- A flit of ply p's bulk link that fails its CRC, and then `failures` replays of it (R366): each replay is counted;
after eight failed replays the link retrains. -/
def State.flitFail (s : State) (p failures : Nat) : State :=
  let x := s.ply p
  if x.st ≠ .locked ∨ x.retrain.isSome = true then s else
  let s1 := (s.bump .memD2dRetry (min 8 (failures + 1))).bump (.plyD2dRetry p) (min 8 (failures + 1))
  if failures < 8 then s1 else
  let s2 := s1.settlePly p
  (s2.setPly p { s2.ply p with retrain := some s.now }).raise .d2dRetrain 0 p (up8 s.now) []

def execFlitCrcFail (t : BitVec 64) (p : Fin 4) (failures : Nat) (s : State) : Host.Outcome State Fault Refusal :=
  .next ((s.at t).flitFail p.val failures)

/-- D2D_RETRAIN_DONE (R366): the link is trained again, within 2 µs, and the ply's bulk data moves. -/
def State.retrained (s : State) (p t : Nat) : State :=
  match (s.ply p).retrain with
  | none => s
  | some r =>
    let s1 := (s.clockTo (min t (r + 2 * us))).settlePly p
    s1.setPly p { s1.ply p with retrain := none }

def execD2dRetrainDone (t : BitVec 64) (p : Fin 4) (s : State) : Host.Outcome State Fault Refusal :=
  .next (s.retrained p.val t.toNat)

-- the mark register

/-- MEM_DIEMARK written (R357): the mark is set or cleared, and journalled. -/
def State.wrDieMark (s : State) (w : Word) : State := s.putMark (RegId.mergeX .memDieMark (s.reg .memDieMark) w)

def execDiemarkWrite (t : BitVec 64) (w : Word) (s : State) : Host.Outcome State Fault Refusal :=
  .next (if (s.at t).blocksUp then (s.at t).wrDieMark w else s.at t)

-- the memory self-test

/-- Words, or codewords, of a test target (R354, R368). -/
def testSize (target : Nat) : Nat :=
  if target = 0 then 2 ^ 29 else if target = 1 then 2 ^ 17 else if target = 2 then 2 ^ 19 else
  if target = 3 then 2 ^ 16 else if target = 4 then 2 ^ 20 else 8192

/-- First word and length of a test's range, within the target (R372). -/
def testRange (target base len : Nat) : Nat × Nat :=
  let n := testSize target
  if len = 0 then (0, n) else (min base n, min len (n - min base n))

/-- Whether a start is refused (R368). -/
def State.testRefused (s : State) (x : MemTest) : Bool :=
  (x.target == 0 && s.overlapsQueue 32768 (64 * x.base) (64 * (x.base + x.len))) ||
  (x.target == 4 && s.queues.any (fun e => e.2.enabled)) ||
  ((x.target == 1 || x.target == 2 || x.target == 3 || x.target == 5) && decide (s.strandCount ≤ x.strand))

/-- A START in TEST (R368). -/
def State.startTest (s : State) : State :=
  if s.mem.test.isSome then s else
  let target := s.fld .memTestCtl 11 8
  let r := testRange target (s.reg64 .memTestBaseLo .memTestBaseHi) (s.reg64 .memTestLenLo .memTestLenHi)
  let x : MemTest := { target := target, strand := s.fld .memTestCtl 4 0, base := r.1, len := r.2, raw := decide (s.fld .memTestCtl 15 15 = 1) }
  if s.testRefused x then s.setMem { s.mem with stat := 8 }
  else s.setMem { s.mem with stat := 0, failAddr := 0, test := some x }

/-- The test in progress is aborted (R369). -/
def State.abortTest (s : State) : State :=
  s.setMem { s.mem with test := s.mem.test.map (fun (x : MemTest) => { x with abort := true }) }

/-- MEM_TESTCTL written (R368, R369): a write with START = 1 outside TEST is discarded. -/
def State.wrTestCtl (s : State) (w : Word) : State :=
  let test := s.mode.mode == .test && s.mode.trans.isNone
  if getF w 31 31 = 1 ∧ test = false then s else
  let s1 := s.writeFields .memTestCtl w
  if getF w 30 30 = 1 ∧ s1.mem.test.isSome = true then s1.abortTest
  else if getF w 31 31 = 1 then s1.startTest else s1

def execMemTestStart (t : BitVec 64) (w : Word) (s : State) : Host.Outcome State Fault Refusal :=
  .next (if (s.at t).blocksUp then (s.at t).wrTestCtl (setF w 31 31 1) else s.at t)
def execMemTestAbort (t : BitVec 64) (w : Word) (s : State) : Host.Outcome State Fault Refusal :=
  .next (if (s.at t).blocksUp then (s.at t).wrTestCtl (setF w 30 30 1) else s.at t)

/-- A byte range of a memory written to zero. -/
def Mem.zero (m : Mem) (a n : Nat) : Mem := m.filter (fun c => decide (c.1 < a) || decide (a + n ≤ c.1))

/-- The SRAM that a strand target names. -/
def testSram (x : MemTest) : SramId :=
  let k := Fin.ofNat 32 x.strand
  if x.target = 1 then .seqSram k else if x.target = 2 then .envSram k else if x.target = 3 then .kernelMem k else
  if x.target = 5 then .staging k else .burst

/-- The tested range written to zero with valid checks (R369). -/
def State.reinit (s : State) (x : MemTest) : State :=
  let bw := s.badWords.filter (fun (b : SramId × Nat) => b.1 != testSram x || decide (b.2 < x.base) || decide (x.base + x.len ≤ b.2))
  if x.target = 0 then
    { s with hbm := s.hbm.zero (64 * x.base) (64 * x.len),
             mem := { s.mem with poison := s.mem.poison.filter (fun c => decide (c < x.base) || decide (x.base + x.len ≤ c)) } }
  else if x.target = 1 then
    { s with badWords := bw, seqSram := s.seqSram.zero (2 ^ 20 * x.strand + 8 * x.base) (8 * x.len) }
  else if x.target = 2 then
    { s with badWords := bw, envSram := s.envSram.zero (2 ^ 22 * x.strand + 8 * x.base) (8 * x.len) }
  else if x.target = 3 then
    { s with badWords := bw, kernel := s.kernel.zero (2 ^ 19 * x.strand + 8 * x.base) (8 * x.len) }
  else if x.target = 5 then s.setStrand x.strand { s.strand x.strand with staged := [] }
  else s

/-- The outcome of a test (R369). -/
def State.testOutcome (s : State) (x : MemTest) (fails first symbol : Nat) : State :=
  let s1 := s.bump .memTestFailCnt fails
  let done := if x.abort then 16 else 2 + b2n (decide (fails = 0)) * 4
  s1.setMem { s1.mem with test := none, failAddr := if 0 < fails then first else 0,
                          stat := done + (if 0 < fails ∧ x.raw = true then symbol * 256 else 0) }

/-- MEM_TEST_END (R369, R41): the test, or its reinitialisation after an abort, ends, and READY follows 10 µs later; a READY
request held for it is thereby carried out. -/
def State.testEnd (s : State) (fails first symbol : Nat) : State :=
  match s.mem.test with
  | none => s
  | some x =>
    let s1 := (s.testOutcome x fails first symbol).reinit x
    if s1.mode.mode = .test ∧ s1.mode.trans = none then
      (s1.setMode { s1.mode with pend := if s1.mode.pend = some .ready then none else s1.mode.pend }).beginTrans .ready
        (s1.now + 10 * us)
    else s1

def execMemTestEnd (t : BitVec 64) (fails : Nat) (first : BitVec 64) (symbol : Fin 68) (s : State) : Host.Outcome State Fault Refusal :=
  .next ((s.at t).testEnd fails first.toNat symbol.val)

end Sys2Proof.Machine
end

