-- ==== Sys2Proof/Machine/Mgmt.lean ====
section
/-! DEFINITION. The management controller (chapter 17): the verification of images (R403 to R405), slots and fallback
(R406 to R409), the watchdog and restarts (R397 to R399) and the mailbox (R400, R401), with the meanings of the rows of
the chapter. -/

namespace Sys2Proof.Machine

def State.setMc (s : State) (x : Mgmt) : State := { s with mc := x }

-- images

/-- The slot that holds image i of a kind (R401, R406): firmware 0 and 1, microcode 2 and 3. -/
def slotKey (kind i : Nat) : Nat := 2 * (kind - 1) + i

/-- Bytes a to a + n - 1 of a slot as a number. -/
def State.slotNum (s : State) (key a n : Nat) : Nat := Mem.num (Tab.get s.mc.slots key []) a n

/-- SVN, VERSION and LENGTH of the image in a slot (R403). -/
def State.slotSvn (s : State) (key : Nat) : Nat := s.slotNum key 8 1
def State.slotVer (s : State) (key : Nat) : Nat := s.slotNum key 12 4
def State.slotLen (s : State) (key : Nat) : Nat := s.slotNum key 16 4

/-- The FORMAT check (R403, R405); an SVN above 63 is no value of its field. -/
def State.formatOk (s : State) (kind key : Nat) : Bool :=
  s.slotNum key 0 4 == 0x56494D47 && s.slotNum key 4 1 == kind && s.slotNum key 6 2 == 1 && s.slotNum key 9 3 == 0 &&
  decide (s.slotSvn key < 64) &&
  (Mem.reads (Tab.get s.mc.slots key []) 145 111).all (fun b => b == 0) &&
  (if kind = 2 then s.slotLen key == 327712 else decide (s.slotLen key ≤ 4193952))

/-- The fused minimum SVN of a kind (R402). -/
def Mgmt.minSvn (m : Mgmt) (kind : Nat) : Nat := if kind = 1 then m.minFw else m.minUc

/-- The lengths that a microcode plaintext declares, in the order of the opcode table (R63, R404). -/
def declaredLens (plain : List Byte) : List Nat := opTable.map (fun p => (plain.getD p.1 0).toNat)

/-- Every declared length at or below R71 (R63, R405). -/
def lensOk (l : List Nat) : Bool := (l.zip defaultLens).all (fun p => decide (p.1 ≤ p.2))

/-- The microcode store that a plaintext loads: its 16,384 words of 20 bytes stand from byte 32 on (R404). -/
def storeOf (plain : List Byte) : Mem := Mem.writes [] 0 ((plain.drop 32).take 327680)

/-- The verification of the image in a slot, in the order of R405: 0 if it passes, else the reason code. `load`: every
word read back after loading is compared too. -/
def State.verify (s : State) (kind key : Nat) (c : ImageCheck) (load : Bool) : Nat :=
  if s.formatOk kind key = false then 1 else
  if c.digestOk = false ∨ 4 ≤ s.slotNum key 5 1 then 2 else
  if s.slotSvn key < s.mc.minSvn kind then 3 else
  if c.sigOk = false then 4 else
  if c.tagOk = false then 5 else
  if kind = 2 ∧ lensOk (declaredLens c.plain) = false then 6 else
  if load = true ∧ kind = 2 ∧ c.readbackOk = false then 7 else
  if c.flashOk = false then 8 else 0

/-- The slot a kind boots from (R407): the active slot, else the other one; which slots failed, and the reason of the
last failure. -/
def bootSlot (active r0 r1 : Nat) : Option Nat × List Nat × Nat :=
  let ra := if active = 0 then r0 else r1
  let ro := if active = 0 then r1 else r0
  if ra = 0 then (some active, [], 0) else
  if ro = 0 then (some (1 - active), [active], ra) else (none, [active, 1 - active], ro)

/-- SLOTFAIL bits of failed slots (R414): firmware 0, firmware 1, microcode 0, microcode 1 from bit 15 down. -/
def failBits (kind : Nat) (l : List Nat) : Nat := (l.map (fun i => 2 ^ (3 - slotKey kind i))).foldl (· + ·) 0

/-- MC_BOOTSTAT after the verification of a kind at a step of R50 (R407, R414). -/
def Mgmt.bootStat (m : Mgmt) (kind step : Nat) (r : Option Nat × List Nat × Nat) : Mgmt :=
  let keep := if kind = 1 then m.slotFail % 4 else m.slotFail / 4 * 4
  { m with slotFail := keep + failBits kind r.2.1,
           failStep := if r.2.1.isEmpty then m.failStep else step, reason := if r.2.1.isEmpty then m.reason else r.2.2 }

/-- The boot ROM verifies the controller firmware and starts it, or the controller stays stopped (R399, R405, R407). -/
def State.bootFw (s : State) (fw0 fw1 : ImageCheck) : State :=
  let r := bootSlot s.mc.sel.fw (s.verify 1 0 fw0 false) (s.verify 1 1 fw1 false)
  let m := s.mc.bootStat 1 2 r
  match r.1 with
  | some i =>
    let fb := !r.2.1.isEmpty
    s.setMc { m with running := true, stopped := false, fwSlot := i, fwVer := s.slotVer i, fwSvn := s.slotSvn i,
                     fallback := fb || decide (0 < m.slotFail % 4), fbEvent := m.fbEvent || fb }
  | none => s.setMc { m with running := false, stopped := true }

/-- The microcode is read, decrypted, verified and loaded into every strand's store at step 10 (R50, R64, R405, R407):
answers whether it was. -/
def State.loadUc (s : State) (uc0 uc1 : ImageCheck) : State × Bool :=
  let r := bootSlot s.mc.sel.uc (s.verify 2 2 uc0 true) (s.verify 2 3 uc1 true)
  let m := s.mc.bootStat 2 10 r
  match r.1 with
  | some i =>
    let fb := !r.2.1.isEmpty
    let s1 := s.setMc { m with ucSlot := i, ucVer := s.slotVer (2 + i), ucSvn := s.slotSvn (2 + i), ucLoad := s.now,
                               fallback := fb || decide (0 < m.slotFail / 4), fbEvent := m.fbEvent || fb }
    let plain := if i = 0 then uc0.plain else uc1.plain
    ({ s1.setMode { s1.mode with ucValid := true, lens := declaredLens plain } with ucode := storeOf plain }, true)
  | none => (s.setMc m, false)

-- restarts

/-- A mailbox command completes (R400). -/
def State.mbDone (s : State) (status : Nat) : State :=
  s.setMc { s.mc with busy := false, rsp := status * 2 ^ 24 + s.fld .mcMbCmd 23 16 * 2 ^ 16 }

/-- A restart of the controller begins, at program counter pc (R397, R398): measurements of steps in progress are
discarded, a command in progress ends with RESTARTED, an image transfer and other pending flash writes are abandoned, and
the KIND 0x12 record goes first. -/
def State.startRestart (s : State) (pc : Nat) : State :=
  if s.mc.running = false then s else
  let s1 := if s.mc.busy then s.mbDone 5 else s
  let s2 := s1.setMc { s1.mc with running := false, restart := some s.now, restarts := min 0xFFFF (s.mc.restarts + 1), xfer := none }
  let s3 := { s2 with convs := s2.convs.map (fun (e : Nat × Conv) =>
    (e.1, { e.2 with step := e.2.step.map (fun (g : CalStep) => { g with void := true }) })) }
  s3.setPwr { s3.pwr with jPend := { s3.jcause 0x12 with detail := pc } :: s3.pwr.jPend.filter JCause.ofTrip }

def execWatchdogExpiry (t : BitVec 64) (pc : Word) (s : State) : Host.Outcome State Fault Refusal :=
  .next ((s.at t).startRestart pc.toNat)

/-- MC_CTL written (R397, R59): RESTART without the key is discarded in whole. -/
def State.wrMcCtl (s : State) (w : Word) (pc : Nat) : State :=
  if getF w 0 0 = 1 ∧ getF w 31 24 = 0x5A then s.startRestart pc else s

def execMcRestartWrite (t : BitVec 64) (key : BitVec 8) (pc : Word) (s : State) : Host.Outcome State Fault Refusal :=
  .next (if (s.at t).mode.mode = .dormant then s.at t
    else (s.at t).wrMcCtl (BitVec.ofNat 32 (key.toNat * 2 ^ 24 + 1)) pc.toNat)

/-- MC_RESTART (R398, R399): the firmware is verified and the controller runs again within 100 ms, or it stays stopped. -/
def State.mcRestarted (s : State) (t : Nat) (fw0 fw1 : ImageCheck) : State :=
  match s.mc.restart with
  | none => s
  | some r =>
    let s1 := s.clockTo (min t (r + 100 * ms))
    let s2 := (s1.setMc { s1.mc with restart := none, slotFail := s1.mc.slotFail % 4 }).bootFw fw0 fw1
    if s2.mc.running then s2.raise .mcRestart 0 0 (up8 r) [0]
    else (s2.setMc { s2.mc with recOk := false }).raise .mcRestart 0 0 (up8 s2.now) [1]

def execMcRestart (t : BitVec 64) (fw0 fw1 : ImageCheck) (s : State) : Host.Outcome State Fault Refusal :=
  .next (s.mcRestarted t.toNat fw0 fw1)

/-- Whether the fans are commanded to full speed (R385, R386, R398, R399). -/
def State.fansFull (s : State) : Bool :=
  s.fld .thmCtl 1 0 == 1 || s.pwr.fullFans || s.mc.stopped || s.mc.restart.isSome ||
  (List.range 6).any (fun f => getF (s.flagWord (.pwrFan f)) 16 16 == 1)

-- mailbox

/-- The command codes of R401. -/
def mbCodes : List Nat := [0x01, 0x02, 0x03, 0x04, 0x05, 0x10, 0x11]

/-- MC_MBCMD written (R400, R401): discarded with OVERRUN while BUSY is 1; a reserved code completes with BADCMD. -/
def State.wrMbCmd (s : State) (w : Word) : State :=
  if s.mc.busy then s.setFlag .mcMbStat 1 else
  let s1 := s.setReg .mcMbCmd w
  if mbCodes.contains (getF w 31 24) then s1.setMc { s1.mc with busy := true } else s1.mbDone 1

/-- Whether the controller takes up command cmd now. -/
def State.mbTakes (s : State) (cmd : Nat) : Bool := s.mc.running && s.mc.busy && s.fld .mcMbCmd 31 24 == cmd

/-- The argument of the command in progress. -/
def State.mbArg (s : State) : Nat := s.fld .mcMbCmd 15 0

/-- Bytes of a kind's slot region (R406). -/
def slotSize (kind : Nat) : Nat := if kind = 1 then 0x400000 else 0x100000

/-- The inactive slot of a kind (R401, R407). -/
def State.inactive (s : State) (kind : Nat) : Nat := slotKey kind (1 - (if kind = 1 then s.mc.sel.fw else s.mc.sel.uc))

/-- IMG_BEGIN (R401): the inactive slot of KIND is erased and a transfer begins. -/
def State.imgBegin (s : State) (flashOk : Bool) : State :=
  if s.mbTakes 0x01 = false then s else
  let kind := s.mbArg % 4
  let len := (s.reg .mcMbArg).toNat
  if kind = 0 ∨ kind = 3 ∨ 4 ≤ s.mbArg ∨ len = 0 ∨ slotSize kind < len then s.mbDone 2 else
  let s1 := s.setMc { s.mc with slots := Tab.put s.mc.slots (s.inactive kind) [],
                                xfer := if flashOk then some { kind := kind, len := len } else none }
  s1.mbDone (if flashOk then 0 else 7)

def execImgBegin (t : BitVec 64) (flashOk : Bool) (s : State) : Host.Outcome State Fault Refusal :=
  .next ((s.at t).imgBegin flashOk)

/-- The first n bytes of MC_MBDATA (R12, R400). -/
def State.mbBytes (s : State) (n : Nat) : List Byte :=
  (((List.range 512).flatMap (fun w => leBytes 4 (s.reg (.mcMbData w)).toNat))).take n

/-- IMG_DATA (R401): a chunk is written to the slot. -/
def State.imgData (s : State) (flashOk : Bool) : State :=
  if s.mbTakes 0x02 = false then s else
  match s.mc.xfer with
  | none => s.mbDone 3
  | some x =>
    let n := (s.reg .mcMbArg).toNat
    let i := s.mbArg
    if n = 0 ∨ 2048 < n ∨ x.len < 2048 * i + n then s.mbDone 2 else
    if flashOk = false then s.mbDone 7 else
    let key := s.inactive x.kind
    let m := Mem.writes (Tab.get s.mc.slots key []) (2048 * i) (s.mbBytes n)
    (s.setMc { s.mc with slots := Tab.put s.mc.slots key m,
                         xfer := some { x with chunks := if x.chunks.contains i then x.chunks else i :: x.chunks } }).mbDone 0

def execImgData (t : BitVec 64) (flashOk : Bool) (s : State) : Host.Outcome State Fault Refusal :=
  .next ((s.at t).imgData flashOk)

/-- IMG_COMMIT (R401, R405, R408): the staged image is verified, and a new selector page names it. -/
def State.imgCommit (s : State) (c : ImageCheck) (flashOk : Bool) : State :=
  if s.mbTakes 0x03 = false then s else
  match s.mc.xfer with
  | none => s.mbDone 3
  | some x =>
    if s.mbArg ≠ 0 then s.mbDone 2 else
    if (List.range ((x.len + 2047) / 2048)).all (fun i => x.chunks.contains i) = false then s.mbDone 3 else
    let key := s.inactive x.kind
    let r := s.verify x.kind key { c with flashOk := true } false
    if r ≠ 0 then (s.setReg .mcMbArg (BitVec.ofNat 32 r)).mbDone 4 else
    if flashOk = false then s.mbDone 7 else
    let sel := s.mc.sel
    let new : Selector := { gen := sel.gen + 1, fw := if x.kind = 1 then key % 2 else sel.fw, uc := if x.kind = 2 then key % 2 else sel.uc }
    (s.setMc { s.mc with sel := new, selOld := some sel, xfer := none }).mbDone 0

def execImgCommit (t : BitVec 64) (chk : ImageCheck) (flashOk : Bool) (s : State) : Host.Outcome State Fault Refusal :=
  .next ((s.at t).imgCommit chk flashOk)

/-- IMG_ABORT (R401): the transfer is abandoned. -/
def State.imgAbort (s : State) : State :=
  if s.mbTakes 0x04 = false then s else
  if s.mbArg ≠ 0 then s.mbDone 2 else (s.setMc { s.mc with xfer := none }).mbDone 0

def execImgAbort (t : BitVec 64) (s : State) : Host.Outcome State Fault Refusal := .next ((s.at t).imgAbort)

/-- SVN_COMMIT (R401, R402): the fused minimum of KIND raised to the SVN of the running image. -/
def State.svnCommit (s : State) : State :=
  if s.mbTakes 0x05 = false then s else
  let a := s.mbArg
  if a / 256 ≠ 0x5A ∨ a % 256 = 0 ∨ 3 ≤ a % 256 then s.mbDone 2 else
  if a % 4 = 1 then (s.setMc { s.mc with minFw := max s.mc.minFw s.mc.fwSvn }).mbDone 0
  else (s.setMc { s.mc with minUc := max s.mc.minUc s.mc.ucSvn }).mbDone 0

def execSvnCommit (t : BitVec 64) (s : State) : Host.Outcome State Fault Refusal := .next ((s.at t).svnCommit)

/-- Words returned in MC_MBDATA from word 0 on (R400). -/
def State.mbReturn (s : State) (ws : List Word) : State :=
  ((List.range ws.length).zip ws).foldl (fun a p => a.setReg (.mcMbData p.1) p.2) s

/-- REC_READ (R401, R412): 2,048 bytes of the manufacturing record. -/
def State.recRead (s : State) : State :=
  if s.mbTakes 0x10 = false then s else
  let i := s.mbArg
  if 128 ≤ i then s.mbDone 2 else
  (s.mbReturn ((List.range 512).map (fun w => Config.asBuilt (1024 + 512 * i + w)))).mbDone 0

def execRecRead (t : BitVec 64) (s : State) : Host.Outcome State Fault Refusal := .next ((s.at t).recRead)

/-- CAGE_READ (R401): a 128-byte management page of a QSFP-DD module. -/
def State.cageRead (s : State) : State :=
  if s.mbTakes 0x11 = false then s else
  let a := s.mbArg
  if 1024 ≤ a then s.mbDone 2 else
  let b := fun i => Config.cageByte (a / 256) (a % 256) i
  (s.mbReturn ((List.range 32).map (fun w => BitVec.ofNat 32 (leNat [b (4 * w), b (4 * w + 1), b (4 * w + 2), b (4 * w + 3)])))).mbDone 0

def execCageRead (t : BitVec 64) (s : State) : Host.Outcome State Fault Refusal := .next ((s.at t).cageRead)

end Sys2Proof.Machine
end

