-- ==== Sys2Proof/Machine/Modes.lean ====
section
/-! DEFINITION. Operating modes and start-up (chapter 02): requests and transitions (R41 to R45, R432), HOLD (R46 to R49),
the power-on sequence (R50, R51), DORMANT and wake (R53, R54), full resets (R55), idle plies (R56) and enables of units
(R57, R58), with the meanings of the rows of the chapter. -/

namespace Sys2Proof.Machine

-- stopping

/-- The shots that a stop leaves with a window still to be handed over are flushed, and their results invalid (R45, R196,
R200). -/
def Core.stopShots (x : Core) : Core :=
  { x with shots := x.shots.map (fun y =>
      if y.stop.isNone || decide (0 < y.openW) then { y with inv := true, flushed := true } else y) }

/-- Whether a core stops on the way to READY (R45). -/
def Core.stops (x : Core) : Bool := x.active || x.st == .armed || x.st == .held

/-- The level of every baseband output that is not at zero ramps to zero over 16 ticks from tick t, its chain formed up to there
(R45). -/
def State.rampLevels (s : State) (t : Nat) : State :=
  (s.outs.map (·.1)).foldl (fun a e =>
    if 6 ≤ e % 22 ∧ (a.out (e / 22) (e % 22)).liveAt t = true then
      let b := a.settleChain (e / 22) (e % 22 - 6) t
      b.setOut (e / 22) (e % 22) { b.out (e / 22) (e % 22) with ramp := some t }
    else a) s

/-- RUN or HOLD to READY stops at boundary t (R45, R142, R174, R200): no word issues at or after it, units ramp to zero over
16 ticks, windows close, staged packets are committed with SHOTINV, the cores return to IDLE, the outputs are held. -/
def State.stopAll (s : State) (t : Nat) : State :=
  let cs := (s.cores.filter (fun e => e.2.stops)).map (·.1)
  let s1 := cs.foldl (fun a c => a.withdraw c t) s
  let s2 := (s1.rampUnits (fun _ => true) t).closeWins (fun _ _ => true) t
  let s3 := s2.mapCores (fun _ x => x.stopShots)
  let s4 := cs.foldl (fun a c => (a.endAllShots c t).unbind c) s3
  let s5 := cs.foldl (fun a c => a.setCore c { (a.core c).stopped .idle t with armHeld := false }) s4
  let s6 := (List.range Config.strands).foldl (fun a k => a.flushCores k (fun _ => true)) s5
  (s6.rampLevels t).holdAllOuts (t + 16) false false

-- requests

/-- Whether a trip cause has cleared (R385, R431). -/
def State.causeClear (s : State) (idx : Nat) : Bool :=
  if idx = 2 then !(s.pwr.railsBad.any s.railOn) else
  if 3 ≤ idx ∧ idx ≤ 5 then s.thermClear else
  if idx = 6 then s.sync.clkLock && !s.sync.holdover else false

/-- SAFE_ACK in SAFE (R41, R42, R44, R369, R385, R431). -/
def State.askAck (s : State) : State :=
  if s.mode.causes.all s.causeClear && s.mode.ucValid && !s.mode.full && s.mem.test.isNone
  then s.beginTrans .ready (s.now + 60 * us) else s.refuse s.now

/-- RESET with the key (R41, R55): refused in SAFE while a thermal cause stands (R385). -/
def State.askReset (s : State) : State :=
  if s.mode.mode = .safe ∧ s.mode.causes.any (fun i => decide (3 ≤ i) && decide (i ≤ 5)) = true ∧ s.thermClear = false
  then s.refuse s.now else if s.mode.mode = .dormant then s.refuse s.now else s.beginTrans .boot (s.now + us)

/-- REQ = RUN (R41, R48, R49, R432). -/
def State.askRun (s : State) : State :=
  if s.mode.mode ≠ .ready ∧ s.mode.mode ≠ .hold then s.refuse s.now else
  if s.blocking then s.setMode { s.mode with pend := some .run }
  else if s.mode.mode = .ready then s.startRun else s.startResume

/-- REQ = READY (R41, R45, R49, R350, R369). -/
def State.askReady (s : State) : State :=
  match s.mode.mode with
  | .run | .hold => (s.stopAll (up8 s.now)).beginTrans .ready (s.now + 2 * us)
  | .calibrate => s.beginTrans .ready (s.fgStopAt s.now + 10 * us)
  | .test =>
    if s.mem.test.isSome then (s.abortTest).setMode { s.mode with pend := some .ready }
    else s.beginTrans .ready (s.now + 10 * us)
  | _ => s.refuse s.now

/-- A request carried out in the mode reached, with no transition in progress (R41, R42). -/
def State.carryOut (s : State) (r : Req) : State :=
  match r with
  | .run => s.askRun
  | .hold => if s.mode.mode = .run then (s.setMode { s.mode with holdHost := true }).startHold else s.refuse s.now
  | .ready => s.askReady
  | .calibrate => if s.mode.mode = .ready then s.beginTrans .calibrate (s.now + 10 * us) else s.refuse s.now
  | .test => if s.mode.mode = .ready then s.beginTrans .test (s.now + 10 * us) else s.refuse s.now
  | .dormant =>
    if s.mode.mode = .ready ∨ s.mode.mode = .safe then s.beginTrans .dormant (s.now + 50 * ms) else s.refuse s.now
  | .safeAck => if s.mode.mode = .safe then s.askAck else s.refuse s.now
  | .reset => s.askReset

/-- Whether a request is carried out at once (R43, R49): with no transition in progress, and READY in HOLD, with a resume
accepted too. -/
def State.atOnce (s : State) (r : Req) : Bool :=
  match s.mode.trans with
  | none => true
  | some (.run, _) => r == .ready && s.mode.mode == .hold
  | some _ => false

/-- A request arrives (R43): it is held pending while a transition is in progress, and takes the place of a pending
one. -/
def State.request (s : State) (r : Req) : State :=
  if s.atOnce r = false then s.setMode { s.mode with pend := some r }
  else (s.setMode { s.mode with pend := none }).carryOut r

/-- The pending request carried out as a transition completes (R43). -/
def State.carryPend (s : State) : State :=
  match s.mode.pend with
  | none => s
  | some r => if s.mode.trans.isSome then s else (s.setMode { s.mode with pend := none }).carryOut r

/-- The request a REQ code makes (R38, R41). -/
def reqOf (code : Nat) : Option Req :=
  if code = 0 then some .dormant else if code = 2 then some .ready else if code = 3 then some .run else
  if code = 4 then some .hold else if code = 5 then some .calibrate else if code = 6 then some .test else none

/-- MODE_CTL written (R59, R60): the request is taken with the written HOLDWARN and HOLDREF, and a HOLD cause that
they enable begins HOLD only where the request has begun no transition. -/
def State.wrModeCtl (s : State) (w : Word) : State :=
  let reqv := getF w 3 3 = 1
  let ack := getF w 9 9 = 1
  let rst := getF w 8 8 = 1
  if s.mode.mode = .dormant then s else
  if (reqv ∧ (ack ∨ rst)) ∨ (ack ∧ rst) then s else
  if ((reqv ∧ getF w 2 0 = 0) ∨ ack ∨ rst) ∧ getF w 31 24 ≠ 0x5A then s else
  let s1 := (s.setFld .modeCtl 5 4 (getF w 5 4)).refreshHold
  if ack then (s1.request .safeAck).evalHold else
  if rst then (s1.request .reset).evalHold else
  if reqv then
    match reqOf (getF w 2 0) with
    | some r => ((s1.setFld .modeCtl 2 0 (getF w 2 0)).request r).evalHold
    | none => s1.evalHold
  else s1.evalHold

/-- The MODE_CTL word of a request. -/
def modeWord (key : Nat) (bits0 : Nat) (holdWarn holdRef : Bool) : Word :=
  BitVec.ofNat 32 (key * 2 ^ 24 + b2n holdWarn * 32 + b2n holdRef * 16 + bits0)

def execReqRun (t : BitVec 64) (hw hr : Bool) (s : State) : Host.Outcome State Fault Refusal :=
  .next ((s.upTo t).wrModeCtl (modeWord 0 (8 + 3) hw hr))
def execReqHold (t : BitVec 64) (hw hr : Bool) (s : State) : Host.Outcome State Fault Refusal :=
  .next ((s.upTo t).wrModeCtl (modeWord 0 (8 + 4) hw hr))
def execReqReady (t : BitVec 64) (hw hr : Bool) (s : State) : Host.Outcome State Fault Refusal :=
  .next ((s.upTo t).wrModeCtl (modeWord 0 (8 + 2) hw hr))
def execReqCalibrate (t : BitVec 64) (hw hr : Bool) (s : State) : Host.Outcome State Fault Refusal :=
  .next ((s.upTo t).wrModeCtl (modeWord 0 (8 + 5) hw hr))
def execReqTest (t : BitVec 64) (hw hr : Bool) (s : State) : Host.Outcome State Fault Refusal :=
  .next ((s.upTo t).wrModeCtl (modeWord 0 (8 + 6) hw hr))
def execReqDormant (t : BitVec 64) (key : BitVec 8) (hw hr : Bool) (s : State) : Host.Outcome State Fault Refusal :=
  .next ((s.upTo t).wrModeCtl (modeWord key.toNat 8 hw hr))
def execSafeAck (t : BitVec 64) (key : BitVec 8) (hw hr : Bool) (s : State) : Host.Outcome State Fault Refusal :=
  .next ((s.upTo t).wrModeCtl (modeWord key.toNat 512 hw hr))
def execModeReset (t : BitVec 64) (key : BitVec 8) (hw hr : Bool) (s : State) : Host.Outcome State Fault Refusal :=
  .next ((s.upTo t).wrModeCtl (modeWord key.toNat 256 hw hr))

-- entries into modes

/-- What a departure from READY ends: a load that waits for its pulse (R259). -/
def State.leaveReady (s : State) : State := s.setSync { s.sync with armed := none }

/-- Entry into RUN from READY (R41, R116, R141, R205). -/
def State.enterRun (s : State) : State :=
  let t := s.now
  let s1 := (s.leaveReady.enterMode .run t).clearSlots
  let s2 := s1.setMode { s1.mode with runEntry := t }
  let s3 := (s2.reloadUnits (fun _ => true) t).liveStatics (t + 512)
  (s3.carryPend).evalHold

/-- The reports that are made when READY is reached (R391, R407, R412). -/
def State.bootReports (s : State) : State :=
  let s1 := if s.pwr.jTorn then (s.setPwr { s.pwr with jTorn := false }).raise .jrnTorn 0 0 (up8 s.now) [] else s
  let s2 := if s1.mc.fbEvent then (s1.setMc { s1.mc with fbEvent := false }).raise .imgFallback 0 0 (up8 s1.now) [] else s1
  if s2.mc.recEvent then (s2.setMc { s2.mc with recEvent := false }).raise .mcRecord 0 0 (up8 s2.now) [] else s2

/-- HCH_CTL, SYNC_CTL and SYNC_EPOCH writes held until READY (R225, R252, R257). -/
def State.applyHeldReady (s : State) : State :=
  let s1 := match s.heldFor .hchCtl with | some w => s.wrHchCtl w | none => s
  s1.applyHeldSync

/-- Entry into READY at the present time (R38, R41, R56, R206, R431). -/
def State.enterReady (s : State) : State :=
  let old := s.mode.mode
  let s0 := if old == .test then s.endLaneTests else s
  let s1 := (s0.enterMode .ready s.now).invalidateSlots (up8 s.now)
  let s2 := s1.setMode { s1.mode with safeCause := 0, causes := [], tripAt := none, bootStep := 0, served := true }
  let s3 := if old == .run || old == .hold then s2 else s2.applyPolicies
  (((s3.applyHeldReady).bootReports).refreshHold).carryPend

/-- Entry into CALIBRATE or TEST (R39, R142, R248, R347, R350). -/
def State.enterQuiet (s : State) (m : Mode) : State :=
  let s1 := (s.leaveReady.enterMode m s.now).holdAllOuts (up8 s.now) false false
  let s2 := if m = .calibrate then s1.fgStart else (s1.calAbortIf (fun _ => true)).startLaneTests
  s2.carryPend

/-- The bits of the always-on register blocks, MODE_, MC_, PWR_ and THM_ (R53, R395). -/
def onlyAlways {α : Type} (l : Tab α) : Tab α := l.filter (fun e => decide (e.1 < 0x4000))

/-- Entry into DORMANT (R53): everything but the always-on domain loses power. -/
def State.enterDormant (s : State) : State :=
  let s1 := s.enterMode .dormant s.now
  let d : State :=
  { pending := s1.pending, half := s1.half, now := s1.now, free := s1.free, rdata := s1.rdata, supply := s1.supply,
    regs := onlyAlways s1.regs, latch := onlyAlways s1.latch, lows := onlyAlways s1.lows,
    flags := onlyAlways s1.flags, counts := onlyAlways s1.counts,
    mode := { mode := .dormant, entryTime := s1.mode.entryTime, safeCause := s1.mode.safeCause, causes := s1.mode.causes,
              autoDone := true, pend := s1.mode.pend },
    tio := { level := s1.lineLevels }, thm := s1.thm, pwr := { s1.pwr with railsBad := [] }, mc := s1.mc,
    sync := { refValid := s1.sync.refValid, validAt := s1.sync.validAt }, hostMem := s1.hostMem }
  d.carryPend

/-- The REQ field after reset: READY with AUTO, DORMANT otherwise (R60, R395). -/
def State.resetReq (s : State) : State := if s.fld .pwrCtl 0 0 = 1 then s.setFld .modeCtl 2 0 0 else s

/-- Entry into BOOT, with the full reset of R55 (R28, R41, R50, R357, R432). -/
def State.enterBoot (s : State) : State :=
  let t := up8 s.now
  let s1 := { s.fullReset with now := wrap64 t }.enterMode .boot t
  let s2 := s1.setMode { s1.mode with trans := some (.ready, t + 610 * ms), transAt := t, plyPower := true,
                                      autoDone := true, wakeWanted := false, hotHeld := false, full := false, tripAt := none }
  ((s2.resetReq).setReg .memDieMark s2.jrnMark).selectRef

-- power-on

/-- MAINS_ON (R50): steps 1 to 3, within 300 ms; the firmware is verified, the journal scanned, the sensors read. -/
def State.mainsOn (s : State) (t : Nat) (temps : List Int) (fw0 fw1 : ImageCheck) (recOk : Bool) : State :=
  if s.supply ≠ .off then s else
  let s1 := { s with supply := .on }.clockTo (min t (300 * ms))
  let s2 := s1.setPwr { s1.pwr with bootCnt := s1.pwr.bootCnt + 1 }
  let s3 := s2.bootFw fw0 fw1
  let s4 := if s3.mc.running then s3 else s3.bootFail 2
  let s5 := (s4.setMc { s4.mc with recOk := recOk, recEvent := !recOk }).journalScan
  let s6 := s5.setMode { s5.mode with mode := .dormant, entryTime := s5.now }
  ((s6.resetReq).newTemps temps).readHeld

def execMainsOn (t : BitVec 64) (temps : List Int) (fw0 fw1 : ImageCheck) (recOk : Bool) (s : State) :
    Host.Outcome State Fault Refusal := .next (s.mainsOn t.toNat temps fw0 fw1 recOk)

/-- Whether BOOT is to be entered from DORMANT (R41, R50, R51, R54, R382): AUTO at power-on or a wake, and every die sensor
below 90 degrees. -/
def State.bootDue (s : State) : Bool :=
  s.supply == .on && s.mode.mode == .dormant && s.mode.trans.isNone &&
  (s.mode.wakeWanted || (!s.mode.autoDone && s.fld .pwrCtl 0 0 == 0)) && s.thm.temps.all (fun v => decide (v < 1440))

def execBootEntry (t : BitVec 64) (s : State) : Host.Outcome State Fault Refusal :=
  .next (if (s.at t).bootDue then (s.at t).enterBoot else s.at t)

/-- BOOT fails at a step (R41, R43, R50, R407, R431): SAFE, with SAFECAUSE 7 for HBM training and 8 for the microcode. -/
def State.bootFails (s : State) (idx step : Nat) : State :=
  let s1 := s.setMode { s.mode with bootStep := step }
  (s1.raise .bootFail 0 0 (up8 s.now) []).trip idx { s1.jcause 0x13 with detail := step } false

/-- BOOT_COMPLETE (R50): HBM trained, plies started for the load, microcode loaded, strands gated, READY entered. -/
def State.bootComplete (s : State) (t : Nat) (hbmOk : Bool) (uc0 uc1 : ImageCheck) : State :=
  match s.mode.mode, s.mode.trans with
  | .boot, some (.ready, due) =>
    let s1 := s.clockTo (min t due)
    if hbmOk = false then s1.bootFails 7 8 else
    let r := s1.loadUc uc0 uc1
    if r.2 = false ∨ s1.mc.running = false then r.1.bootFails 8 10 else
    let s2 := { r.1 with plies := (List.range s.plyCount).map (fun p => (p, ({ st := .locked } : Ply))) }
    let s3 := (List.range s.plyCount).foldl (fun a p => a.bump (.plyStarts p) 1) s2
    (s3.setSync { s3.sync with clkLock := true, pull := false }).enterReady
  | _, _ => s.clockTo t

def execBootComplete (t : BitVec 64) (hbmOk : Bool) (uc0 uc1 : ImageCheck) (s : State) : Host.Outcome State Fault Refusal :=
  .next (s.bootComplete t.toNat hbmOk uc0 uc1)

-- wake

/-- The bit of MODE_WAKEEN that enables a wake source (R54). -/
def wakeBit : WakeSource → Nat
  | .perst => 0 | .button => 1 | .sync => 3 | .sideband => 4

/-- An enabled wake source fires in DORMANT (R54). -/
def State.wake (s : State) (b : Nat) : State :=
  if s.mode.mode = .dormant ∧ s.supply = .on ∧ s.fld .modeWakeEn b b = 1 then s.setMode { s.mode with wakeWanted := true } else s

def execWakeSource (t : BitVec 64) (src : WakeSource) (s : State) : Host.Outcome State Fault Refusal :=
  .next ((s.at t).wake (wakeBit src))

/-- WAKE_TIMER (R28, R54): module time reaches MODE_WAKETIME, at the first count of the always-on domain that is not before
it. -/
def State.wakeTimer (s : State) : State :=
  let w := s.reg64 .modeWakeLo .modeWakeHi
  if s.mode.mode = .dormant ∧ s.supply = .on ∧ s.fld .modeWakeEn 2 2 = 1 ∧ s.now ≤ w then
    (s.clockTo (s.now + (w - s.now + 399) / 400 * 400)).wake 2
  else s

def execWakeTimer (s : State) : Host.Outcome State Fault Refusal := .next s.wakeTimer

-- transitions

/-- CALIBRATE ends: the converters done until 10 µs before (R350). -/
def State.endCalibrate (s : State) (due : Nat) : State :=
  if s.mode.mode = .calibrate then s.fgFinish (due - 10 * us) else s

/-- MODE_TRANSITION_DONE (R38, R43): the transition in progress completes, at its latest time at the latest. -/
def State.transDone (s : State) (t : Nat) : State :=
  match s.mode.mode, s.mode.trans with
  | .boot, _ => s.clockTo t
  | .hold, some (.run, _) => s.clockTo t
  | .ready, some (.run, due) => (s.toTime (min t due)).enterRun
  | _, some (.ready, due) => ((s.toTime (min t due)).endCalibrate due).enterReady
  | _, some (.calibrate, due) => (s.toTime (min t due)).enterQuiet .calibrate
  | _, some (.test, due) => (s.toTime (min t due)).enterQuiet .test
  | _, some (.dormant, due) => (s.toTime (min t due)).enterDormant
  | _, some (.boot, due) => (s.toTime (min t due)).enterBoot
  | _, _ => s.clockTo t

def execModeTransitionDone (t : BitVec 64) (s : State) : Host.Outcome State Fault Refusal := .next (s.transDone t.toNat)

-- HOLD

/-- A core at T_pause (R46): RUNNING and WAITING cores are held, trigger queues are cleared. -/
def Core.pause (x : Core) : Core :=
  if x.active then { x with st := .held, back := x.st, trigQ := [] } else { x with trigQ := [] }

/-- HOLD_PAUSE (R46, R47, R196, R200): every core is paused at T_pause, the shots in progress are invalid, and their staged
packets are committed. -/
def State.holdPause (s : State) : State :=
  match s.mode.mode, s.mode.trans with
  | .run, some (.hold, tp) =>
    let s1 := (s.toTime tp).invalidAll tp
    let s2 := (List.range Config.strands).foldl (fun a k => a.commitWhere k a.waitsShot State.commitFlush) s1
    let s3 := s2.mapCores (fun _ x =>
      { x.pause with shots := x.shots.map (fun y => if y.stop.isNone then { y with flushed := true } else y) })
    let s4 := (s3.enterMode .hold tp).refreshHold
    (if s4.mode.holdRef then s4.refHold else s4).carryPend
  | _, _ => s

def execHoldPause (s : State) : Host.Outcome State Fault Refusal := .next s.holdPause

/-- A held core resumed with its schedule later by d (R48). -/
def Core.resume (x : Core) (d : Nat) : Core :=
  if x.st = .held then
    { x with st := x.back, tPrev := x.tPrev + d, ePrev := x.ePrev + d, start := x.start + d,
             bights := x.bights.map (fun (b : Bight) => { b with s0 := b.s0 + d }),
             tRef := x.tRef.map (· + d), bound1 := if x.bound1 = 0 then 0 else x.bound1 + d,
             bound := if x.bound = 0 then 0 else x.bound + d,
             wait := x.wait.map (fun w => match w with
               | .trig t tmo old => .trig (t + d) tmo old
               | .sync t m => .sync (t + d) m) }
  else x

/-- HOLD_RESUME (R48, R49, R141): RUN is entered at T_resume, and every held word is later by T_resume - T_pause. -/
def State.holdResume (s : State) : State :=
  match s.mode.mode, s.mode.trans with
  | .hold, some (.run, tr) =>
    let s1 := s.toTime tr
    let s2 := s1.mapCores (fun _ x => x.resume (tr - s.mode.tPause))
    let s3 := s2.enterMode .run tr
    let s4 := s3.setMode { s3.mode with holdHost := false, runEntry := tr }
    ((s4.liveStatics tr).carryPend).evalHold
  | _, _ => s

def execHoldResume (s : State) : Host.Outcome State Fault Refusal := .next s.holdResume

-- SAFE

/-- The ENABLE bit of a written word cleared, where the register holds one (R44). -/
def clearEnable (p : Nat × Word) : Nat × Word :=
  match RegId.ofOff p.1 with
  | some r => (match r.enable with | some (b, _) => (p.1, setF p.2 b b 0) | none => p)
  | none => p

/-- Every unit enable cleared, pending ones included (R44, R58). -/
def State.clearEnables (s : State) : State :=
  { s with regs := s.regs.map (fun (e : Nat × Word) =>
             match RegId.ofOff e.1 with
             | some (.monCtl _) => (e.1, setF e.2 0 0 0)
             | _ => clearEnable e),
           held := s.held.map clearEnable,
           strands := s.strands.map (fun (e : Nat × Strand) => (e.1, { e.2 with heldW := e.2.heldW.map clearEnable })) }

/-- Every strand gated, every ply stopping (R44, R56, R58). -/
def State.stopPlies (s : State) : State :=
  { s with
    strands := s.strands.map (fun (e : Nat × Strand) =>
      (e.1, { e.2 with gate := .gated, pendEn := false, wantUn := false, gateAfter := false, rst := none })),
    plies := s.plies.map (fun (e : Nat × Ply) =>
      (e.1, match e.2.st with
        | .stopped => { e.2 with pendEn := false }
        | .stopping => { e.2 with pendEn := false }
        | _ => { e.2 with st := .stopping, due := s.now + 20 * us, pendEn := false, idleFrom := none, retrain := none })),
    cores := s.cores.map (fun (e : Nat × Core) => (e.1, ({ uids := e.2.uids } : Core))),
    engines := s.engines.map (fun (e : Nat × Engine) => (e.1, { e.2 with fgFrom := none })),
    outs := s.outs.map (fun (e : Nat × Out) => (e.1, { e.2 with shut := none, pendEn := false })) }

/-- SAFE_ENTRY (R38, R44): unit enables are cleared, strands gated and plies stopped. -/
def State.safeEntry (s : State) (t : Nat) : State :=
  match s.mode.trans with
  | some (.safe, due) =>
    let s1 := s.toTime (min t due)
    let s2 := (s1.leaveReady.enterMode .safe s1.now).invalidateSlots (up8 s1.now)
    let s3 := s2.setMode { s2.mode with tripAt := none, holdHost := false, holdRef := false, holdTherm := false }
    ((s3.clearEnables).stopPlies.losePlies).carryPend
  | _ => s.clockTo t

def execSafeEntry (t : BitVec 64) (s : State) : Host.Outcome State Fault Refusal := .next (s.safeEntry t.toNat)

-- plies and units

/-- PLY_IDLE_EXPIRY (R56, R347): no strand of the ply has had an enabled unit for IDLEHOLD ms; the ply stops in 20 µs. -/
def State.plyIdle (s : State) (p : Nat) : State :=
  match (s.ply p).idleFrom with
  | none => s
  | some f =>
    if (s.ply p).st ≠ .locked ∨ s.plyOn p = true ∨ s.alwaysOn p = true ∨ s.mode.mode.powered = false ∨ s.mode.mode = .calibrate
    then s else
    let s1 := s.toTime (f + s.fld (.plyClkCtl p) 31 16 * ms)
    let s2 := s1.calAbortIf (fun x => convStrand x / 8 == p)
    s2.setPly p { s2.ply p with st := .stopping, due := s2.now + 20 * us, idleFrom := none, retrain := none }

def execPlyIdleExpiry (p : Fin 4) (s : State) : Host.Outcome State Fault Refusal := .next (s.plyIdle p.val)

/-- OUT_TONECTL written (R113, R30). -/
def State.wrTone (s : State) (k u : Nat) (w : Word) : State :=
  let r := RegId.outToneCtl k u
  ((s.writeFields r w).notePhases k s.now).plainEnable k (decide (s.fld r 31 31 = 1)) (decide (getF w 31 31 = 1))

/-- A write of the register that holds a unit's ENABLE, with that bit as given (R57, R58). -/
def State.unitWrite (s : State) (t : BitVec 64) (u : UnitId) (w : Word) (on : Nat) : State :=
  match u with
  | .tone k u => s.strandWrite t k.val (.outToneCtl k.val u.val) (setF w 31 31 on) (fun a x => a.wrTone k.val u.val x)
  | .rf k o => s.strandWrite t k.val (.outRfOut k.val o.val) (setF w 0 0 on) (fun a x => a.wrOut k.val o.val x (up8 a.now))
  | .bb k c => s.strandWrite t k.val (.outBbOut k.val c.val) (setF w 0 0 on) (fun a x => a.wrOut k.val (6 + c.val) x (up8 a.now))
  | .input k i => s.strandWrite t k.val (.acqInCtl k.val i.val) (setF w 0 0 on) (fun a x => a.wrInCtl k.val i.val x (up8 a.now))
  | .monitor n => s.blockWrite t (.monCtl n.val) (fun a => a.wrMonCtl n.val (setF w 0 0 on))

def execUnitEnable (t : BitVec 64) (u : UnitId) (w : Word) (s : State) : Host.Outcome State Fault Refusal :=
  .next (s.unitWrite t u w 1)
def execUnitDisable (t : BitVec 64) (u : UnitId) (w : Word) (s : State) : Host.Outcome State Fault Refusal :=
  .next (s.unitWrite t u w 0)

end Sys2Proof.Machine
end

