-- ==== Sys2Proof/Machine/Reads.lean ====
section
/-! DEFINITION. What register reads return (R11, R14, R415 to R422): the words of the read-only fields, the hub's copy
of the read-write fields of gated strands, and the effects of a read: the latching of a high word and the clearing of a
counter, with the meanings of RC_READ and REG64_LOW_READ. -/

namespace Sys2Proof.Machine

-- read-only fields

/-- The sum of 2^b over the numbers b < n with f b. -/
def bitSum (n : Nat) (f : Nat → Bool) : Nat := ((List.range n).map (fun b => if f b then 2 ^ b else 0)).foldl (· + ·) 0

/-- MODE_STATUS (R38, R43, R47, R50, R431). -/
def State.modeStatus (s : State) : Nat :=
  let m := s.mode
  (b2n m.holdHost + 2 * b2n m.holdRef + 4 * b2n m.holdTherm) * 2 ^ 24 + m.safeCause * 2 ^ 16 +
    bitSum 4 (fun p => (s.ply p).st == .locked) * 2 ^ 12 + b2n m.pend.isSome * 2 ^ 11 +
    (match m.pend with | some r => r.code | none => 0) * 2 ^ 8 + b2n m.trans.isSome * 2 ^ 7 + s.bootStepNow * 8 + m.mode.code

/-- MC_STATUS, MC_BOOTSTAT and MC_SVN (R414). -/
def Mgmt.status (m : Mgmt) : Nat :=
  min 0xFFFF m.restarts * 2 ^ 16 + b2n m.recOk * 32 + b2n m.fallback * 16 + m.ucSlot % 2 * 8 + m.fwSlot % 2 * 4 + b2n m.running

def Mgmt.bootStatWord (m : Mgmt) : Nat := m.slotFail % 16 * 2 ^ 12 + m.failStep % 16 * 2 ^ 8 + m.reason % 256

def Mgmt.svnWord (m : Mgmt) : Nat := m.minUc * 2 ^ 24 + m.minFw * 2 ^ 16 + m.ucSvn * 2 ^ 8 + m.fwSvn

/-- PWR_STATUS (R395): a fan is good while its FAIL bit is 0. -/
def State.pwrStatus (s : State) : Nat :=
  b2n (s.supply == .on) * 2 ^ 31 + b2n s.pwr.shed * 2 ^ 30 +
    bitSum 6 (fun f => s.supply == .on && getF (s.flagWord (.pwrFan f)) 16 16 == 0) * 2 ^ 8 +
    bitSum 4 (fun p => s.railOn (4 + p))

/-- THM_STATUS (R380 to R383). -/
def Therm.status (t : Therm) : Nat :=
  let band := fun k => (t.bands[k]?).getD 0
  band 1 * 2 ^ 8 + band 2 * 2 ^ 10 + band 3 * 2 ^ 12 + band 4 * 2 ^ 14 + band 6 * 2 ^ 6 + band 5 * 2 ^ 4 + t.modBand * 4 +
    b2n t.high * 2 + b2n t.warn

/-- SYNC_STATUS (R275). -/
def State.syncStatus (s : State) : Nat :=
  let x := s.sync
  b2n x.clkLock * 2 ^ 15 + b2n x.holdover * 2 ^ 14 + b2n x.refValid * 2 ^ 13 + b2n x.src * 2 ^ 12 +
    b2n (s.heldFor .syncCtl).isSome * 2 ^ 7 + b2n (s.heldFor .syncEpochHi).isSome * 2 ^ 6 + b2n x.skewFail * 2 ^ 5 +
    b2n x.skew.isSome * 2 ^ 4 + b2n x.armed.isSome * 8 + b2n x.pull * 4 + b2n x.aligned

/-- PTP_STATUS (R275). -/
def PtpSt.status (p : PtpSt) : Nat :=
  b2n p.bUp * 2 ^ 23 + b2n p.aUp * 2 ^ 22 + b2n p.onB * 2 ^ 21 + b2n p.stale * 2 ^ 20 + b2n p.dom1.locked.isSome * 2 ^ 17 +
    b2n p.dom0.locked.isSome * 2 ^ 16 + p.sel * 2 ^ 15 + b2n p.valid * 2 ^ 14 + b2n p.slew * 2 ^ 13

/-- PTP_RATE in units of 0.01 ppb, from the servo's 1/256 ppb (R268, R275). -/
def PtpSt.rateWord (p : PtpSt) : Nat := toTwos 32 (rndNear (p.rate * 100) 256)

/-- A direction's bits are held stale (R244). -/
def State.dirStale (s : State) (d : Nat) : Bool :=
  (List.range 3).any (fun c => s.rxValid d c && (s.rxBits d c).any (fun k =>
    s.serves k == some (3 * d + c) && (s.hbit k).stale.any (fun i => i.2.isNone)))

/-- Qualification remaining, in units of 10 ms rounded up (R245). -/
def State.qualLeft (s : State) (d : Nat) : Nat :=
  let x := s.hdir d
  let q := s.fld (.hchDirCtl d) 23 8
  if !x.onB || x.hostHold then 0 else
  match x.qualFrom with
  | none => q
  | some f => q - (s.now - f) / (10 * ms)

/-- HCH_DIRSTAT (R251). -/
def State.dirStat (s : State) (d : Nat) : Nat :=
  let x := s.hdir d
  s.qualLeft d * 2 ^ 16 + x.peerSeen * 2 ^ 8 + b2n (x.a.cfgErr.isSome || x.b.cfgErr.isSome) * 2 ^ 7 + b2n x.down * 2 ^ 6 +
    b2n (s.dirStale d) * 2 ^ 5 + b2n ((pathLanes d true).all (fun l => (s.lane l).idle)) * 2 ^ 4 + b2n x.b.healthy * 8 +
    b2n x.a.healthy * 4 + b2n (x.pend.isSome || x.gap) * 2 + b2n x.onB

/-- HCH_LANESTAT (R251). -/
def Lane.stat (x : Lane) : Nat := b2n x.idle * 2 ^ 13 + b2n x.lock * 2 ^ 12 + b2n x.noserv * 2 ^ 11 + x.delay % 1024

/-- The side band of ply p runs, and the last frame that has ended, each way, passed (R210, R222). -/
def State.sbUp (s : State) (p : Nat) : Bool :=
  (s.ply p).st == .locked && !s.dec.badUp.any (fun b => b.1 / 256 == p && 64 * (b.2 + 1) ≤ s.now && s.now < 64 * (b.2 + 2)) &&
    !s.dec.badDown.any (fun b => b.1 == p && 64 * (b.2 + 1) ≤ s.now && s.now < 64 * (b.2 + 2))

/-- DEC_STATUS (R214, R222). -/
def State.decStatus (s : State) : Nat :=
  bitSum 4 s.sbUp * 2 ^ 8 + bitSum 4 s.importPending

/-- The code of a stack's refresh multiplier (R362): by the band of the stack. -/
def refreshCode (band : Nat) : Nat := if band < 2 then 0 else band - 1

/-- MEM_STATUS (R357, R361, R362). -/
def State.memStatus (s : State) : Nat :=
  let band := fun k => (s.thm.bands[k]?).getD 0
  b2n s.marked.isSome * 2 ^ 31 + b2n (s.hbmOn && decide (s.fld .memCtl 23 16 ≠ 0)) * 2 ^ 30 +
    refreshCode (band 6) * 2 ^ 26 + refreshCode (band 5) * 2 ^ 24

/-- MEM_TESTSTAT (R369). -/
def State.testStat (s : State) : Nat :=
  match s.mem.test with
  | some x => 1 + b2n x.abort * 32
  | none => s.mem.stat

/-- The measurements of ply p's last step have waited for the controller for more than 100 ms: a deferral (R346). -/
def State.deferred (s : State) (p : Nat) : Bool :=
  match (s.engine p).meas.bind (fun x => (s.conv x).meas) with
  | some g => decide (g.stop + 100 * ms < s.now)
  | none => false

/-- CAL_STATUS (R346, R353). -/
def State.calStatus (s : State) : Nat :=
  bitSum 4 (fun p => (s.engine p).cur.isSome) + bitSum 4 s.deferred * 16 +
    b2n ((List.range 4).any (fun p => (s.engine p).fgFrom.isSome)) * 256

/-- CAL_STAT (R339, R348, R349, R353). -/
def State.calStat (s : State) (x : Nat) : Nat :=
  let v := s.conv x
  let age := match Tab.get? v.last (s.convRange x) with
    | none => 0xFFFF
    | some e => min 0xFFFF ((s.now - e) / sec)
  age * 2 ^ 16 + b2n v.failed * 16 + b2n v.ramp.isSome * 8 + b2n v.pend.isSome * 4 + b2n v.due.isSome * 2 + b2n v.step.isSome

/-- MON_STAT (R334). -/
def MonIn.stat (x : MonIn) : Nat :=
  x.code % 2 ^ 24 + b2n x.clip * 2 ^ 24 + b2n x.open' * 2 ^ 25 + b2n x.outside * 2 ^ 26 + b2n x.armed * 2 ^ 27

/-- PLY_CLKCTL's state bits, and PLY_STATUS (R425). -/
def Ply.ctlBits (x : Ply) : Nat := b2n (x.st == .locked) * 128 + b2n (x.st == .stopping) * 64 + b2n x.pendEn * 32

def State.plyStatus (s : State) (p : Nat) : Nat :=
  let x := s.ply p
  bitSum 8 (fun j => (s.strand (8 * p + j)).gate == .ungated) * 2 ^ 8 + b2n (s.sbUp p) * 8 +
    b2n (x.st == .locked && x.retrain.isNone) * 4 + b2n (x.st == .locked) * 2 +
    b2n ([4 + p, 8 + p, 16 + p].all (fun b => (s.railStat).testBit b))

/-- STR_STATUS (R424): a strand counts as gated until its ungating completes, and its ungating is in progress from the
enabling write on, while it waits for its ply too (DEDUCED, notes/assumptions/38). -/
def State.strStatus (s : State) (k : Nat) : Nat :=
  let x := s.strand k
  s.unitCount k * 2 ^ 16 + b2n x.rst.isSome * 32 + b2n x.pendEn * 16 + b2n (x.gate == .gating) * 8 +
    b2n (x.gate == .ungating || (x.gate == .gated && x.wantUn)) * 4 + b2n ((s.ply (k / 8)).st == .locked) * 2 +
    b2n (x.gate == .gated || x.gate == .ungating)

/-- STR_SUMMARY (R424). -/
def State.strSummary (s : State) (k : Nat) : Nat :=
  let on := fun (r : RegId) => s.flagWord r != 0
  b2n (on (.strFlags k)) * 2 ^ 10 + b2n (on (.discFlags k)) * 2 ^ 9 + b2n (on (.acqFlags k)) * 2 ^ 8 +
    bitSum 8 (fun i => on (.seqFlags (8 * k + i)))

/-- The code of a core's state (R101). -/
def CoreSt.code : CoreSt → Nat
  | .idle => 0 | .armed => 1 | .running => 2 | .waiting => 3 | .done => 4 | .fault => 5 | .held => 6

/-- SEQ_STATUS (R101). -/
def Core.status (x : Core) : Nat :=
  x.haltCode * 2 ^ 16 + x.bights.length * 2 ^ 12 + x.calls.length * 2 ^ 7 + x.trigQ.length * 16 + b2n x.defer.isSome * 8 +
    x.st.code

/-- The read-only bits of OUT_RFOUT or OUT_BBOUT (R156). -/
def Out.roBits (x : Out) (bb : Bool) (now : Nat) : Nat :=
  b2n x.rangePend * 2 ^ 15 + b2n x.ranging.isSome * 2 ^ 14 + b2n (x.liveNow now) * 2 ^ 13 + b2n x.pendEn * 2 ^ 12 +
    (if bb then b2n x.staticValid * 2 ^ 11 + b2n x.openLine * 2 ^ 10 else 0)

/-- Word n of an identity (R410): the reserved bits 0, the type of the die, a wafer of the lot. -/
def dieWord (k hi : Nat) : Nat :=
  if hi = 1 then
    let w := Config.asBuilt (3 + 2 * k)
    (setF w 7 3 (getF w 7 3 % 25)).toNat
  else
    let w := Config.asBuilt (2 + 2 * k)
    (setF (setF (setF w 18 16 0) 15 12 (if k = 0 then 1 else if k < 5 then 2 else 3)) 11 8 0).toNat

/-- The read-only bits of the registers of the hub blocks below 0x04_0000 (R415). -/
def State.statusLow (s : State) (r : RegId) : Nat :=
  match r with
  | .idVariant => if s.half then 0x0512 else 0x1024
  | .idSerialLo => (Config.asBuilt 0).toNat
  | .idSerialHi => (Config.asBuilt 1).toNat % 2 ^ 16
  | .idDieLo k => if s.half && (k == 3 || k == 4) then 0 else dieWord k 0
  | .idDieHi k => if s.half && (k == 3 || k == 4) then 0 else dieWord k 1
  | .modeStatus => s.modeStatus
  | .modeEntryLo => s.mode.entryTime
  | .modeEntryHi => s.mode.entryTime / 2 ^ 32
  | .mcStatus => s.mc.status
  | .mcBootStat => s.mc.bootStatWord
  | .mcFwVer => s.mc.fwVer
  | .mcUcVer => s.mc.ucVer
  | .mcSvn => s.mc.svnWord
  | .mcUcLoadLo => s.mc.ucLoad
  | .mcUcLoadHi => s.mc.ucLoad / 2 ^ 32
  | .mcMbRsp => s.mc.rsp
  | .mcMbStat => b2n s.mc.busy
  | .pwrStatus => s.pwrStatus
  | .pwrRailStat => s.railStat
  | .pwrGated => bitSum 32 (fun k => (s.strand k).gate == .gated)
  | .pwrJrnLast => s.jrnLast
  | .pwrJrnData w => leAt s.pwr.jData (4 * w) 4
  | .thmStatus => s.thm.status
  | .thmDiode k => toTwos 16 (reading s.thm.rates k) * 2 ^ 16 + toTwos 16 (reading s.thm.temps k)
  | .thmExt j => match (s.thm.ext[j]?).getD (some 0) with | some v => toTwos 16 v | none => 2 ^ 16
  | .qmStatus => b2n s.ev.lost * 2 ^ 31 + s.bufFree
  | .qmQstat => ((s.settleReader s.selQ).queue s.selQ).stat
  | .hifLinkStat =>
    let h := s.hif
    if h.up then b2n h.ecrc * 2 ^ 10 + b2n (decide (h.speed < 5) || decide (h.width < 16)) * 2 ^ 9 + h.width * 16 + h.speed else 0
  | .hifInflight => s.inflightAll
  | .hifRingStat n => (s.ring n).cause * 2 ^ 16 + b2n (s.ringStopped n) * 2 ^ 15 + s.inflight n
  | .hifRingIdx n => (s.ring n).cqTail % 2 ^ 16 * 2 ^ 16 + (s.ring n).sqHead % 2 ^ 16
  | .syncStatus => s.syncStatus
  | .syncRtt => s.sync.rtt
  | .syncDev => toTwos 16 s.sync.dev
  | .ptpStatus => s.ptp.status
  | .ptpOffset k => toTwos 32 (s.ptp.dom k).offset
  | .ptpRate => s.ptp.rateWord
  | .ptpSnapTimeLo => s.ptp.snapTime
  | .ptpSnapTimeHi => s.ptp.snapTime / 2 ^ 32
  | .ptpSnapSecLo => s.ptp.snapSec
  | .ptpSnapSecHi => s.ptp.snapSec / 2 ^ 32
  | .ptpSnapNs => s.ptp.snapNs
  | .hchCtl => b2n (s.heldFor .hchCtl).isSome * 2 ^ 15
  | .hchDirStat d => s.dirStat d
  | .hchLaneStat l => (s.lane l).stat
  | _ => 0

/-- The read-only bits of the other registers (R415, R423, R425). -/
def State.statusHigh (s : State) (r : RegId) : Nat :=
  match r with
  | .decStatus => s.decStatus
  | .decDval w => bitSum 32 (fun j => decide ((s.derivedNow (32 * w + j)).val = 1))
  | .decDstale w => bitSum 32 (fun j => (s.derivedNow (32 * w + j)).stale)
  | .decSlotVal w => ((List.range 16).map (fun j => (s.slotNow (16 * w + j)).val * 4 ^ j)).foldl (· + ·) 0
  | .memStatus => s.memStatus
  | .memUeAddrLo => s.mem.ueAddr
  | .memUeAddrHi => s.mem.ueAddr / 2 ^ 32
  | .memScrubPos => s.mem.scrubPos
  | .memTestStat => s.testStat
  | .memTestFailLo => s.mem.failAddr
  | .memTestFailHi => s.mem.failAddr / 2 ^ 32
  | .calFgCtl => bitSum 4 (fun p => (s.engine p).fgDone) * 2 ^ 16
  | .calStatus => s.calStatus
  | .calLastDefer => (s.reg .calLastDefer).toNat
  | .calStat x => s.calStat x
  | .monStat n => (s.monIn n).stat
  | .tioInStat i => Tab.get s.tio.level i 0
  | .tioOutCtl o => b2n (s.heldFor (.tioOutCtl o)).isSome * 2 ^ 15
  | .tioEwCtl w => b2n (s.heldFor (.tioEwCtl w)).isSome * 2 ^ 15
  | .plyClkCtl p => (s.ply p).ctlBits
  | .plyStatus p => s.plyStatus p
  | .strStatus k => s.strStatus k
  | .strSummary k => s.strSummary k
  | .seqStatus c => (s.core c).status
  | .seqPc c => (s.core c).pc
  | .seqShot c => (s.core c).shotNo
  | .seqLastTrigLo c => (s.core c).lastTrig
  | .seqLastTrigHi c => (s.core c).lastTrig / 2 ^ 32
  | .outToneStat k u => (s.punit k u).fidx
  | .outRfOut k o => (s.out k o).roBits false s.now
  | .outBbOut k c => (s.out k (6 + c)).roBits true s.now
  | .acqInCtl k i => b2n (s.inp k i).settle.isSome * 2 ^ 15 + b2n (s.heldFor (.acqInCtl k i)).isSome * 2 ^ 14
  | .acqInStat k i =>
    b2n (s.flagged k i (5 * (s.now / 8) - 5) (5 * (s.now / 8))) + b2n ((s.inp k i).calOff.any (fun x => x.2.isNone)) * 2 + b2n (s.inp k i).rawBusy.isSome * 4
  | .acqToneCtl k r => b2n ((s.rtone k r).wins.any (fun v => decide (adcTick v.ms ≤ s.now) && decide (s.now < adcTick v.me))) * 2 ^ 8
  | .discStaged k => (s.strand k).staged.length
  | .countWord q => ((s.settleReader q).queue q).countWord s.now
  | _ => 0

/-- The bits of a register that a measurement gives (R156, R248, R395, R424, R425): a free value. -/
def RegId.measuredMask : RegId → Nat
  | .pwrMains => 0xFFFFFFFF
  | .pwrDcPwr => 0xFFFF
  | .pwrFan _ => 0xFFFF
  | .plyPower _ => 0xFFFF
  | .strPower _ => 0xFFFF
  | .hchPrbsErr _ => 0xFFFFFFFF
  | .outSense _ _ => 0xFFFF
  | _ => 0

-- the strand of a register

/-- The strand whose block holds a register (R423). -/
def RegId.strandOf (r : RegId) : Option Nat :=
  let o := r.off
  if 0x200000 ≤ o ∧ o < 0x400000 then some ((o - 0x200000) / 0x10000) else none

/-- A register of the STR_ page (R424). -/
def RegId.isStr (r : RegId) : Bool := r.strandOf.isSome && decide (r.off % 0x10000 < 0x80)

/-- A table of a strand that retention serves (R122, R128, R421). -/
def RegId.isTable : RegId → Bool
  | .outFreqLo _ _ => true
  | .outFreqHi _ _ => true
  | .outFrame _ _ => true
  | .outPdCoef _ _ => true
  | _ => false

/-- The registers of a strand are served from the hub's copy (R421): it is not ungated. -/
def State.offline (s : State) (r : RegId) : Bool :=
  match r.strandOf with
  | some k => !r.isStr && (s.strand k).gate != .ungated
  | none => false

/-- The high word of a 64-bit value whose low word is r (R11, R101, R136, R275, R295, R319, R353, R372, R414). -/
def RegId.highOf : RegId → Option RegId
  | .idSerialLo => some .idSerialHi
  | .idDieLo k => some (.idDieHi k)
  | .modeEntryLo => some .modeEntryHi
  | .modeResumeLo => some .modeResumeHi
  | .modeWakeLo => some .modeWakeHi
  | .mcUcLoadLo => some .mcUcLoadHi
  | .qmQbaseLo => some .qmQbaseHi
  | .hifDbLo => some .hifDbHi
  | .hifSqLo n => some (.hifSqHi n)
  | .hifCqLo n => some (.hifCqHi n)
  | .syncLoadLo => some .syncLoadHi
  | .syncEpochLo => some .syncEpochHi
  | .ptpSnapTimeLo => some .ptpSnapTimeHi
  | .ptpSnapSecLo => some .ptpSnapSecHi
  | .ptpWallSecLo => some .ptpWallSecHi
  | .memUeAddrLo => some .memUeAddrHi
  | .memTestBaseLo => some .memTestBaseHi
  | .memTestLenLo => some .memTestLenHi
  | .memTestFailLo => some .memTestFailHi
  | .calQuietStartLo => some .calQuietStartHi
  | .calQuietEndLo => some .calQuietEndHi
  | .seqStartTimeLo c => some (.seqStartTimeHi c)
  | .seqLastTrigLo c => some (.seqLastTrigHi c)
  | .outFreqLo k i => some (.outFreqHi k i)
  | _ => none

/-- The low word of a 64-bit value whose high word is r. -/
def RegId.lowOf : RegId → Option RegId
  | .idSerialHi => some .idSerialLo
  | .idDieHi k => some (.idDieLo k)
  | .modeEntryHi => some .modeEntryLo
  | .modeResumeHi => some .modeResumeLo
  | .modeWakeHi => some .modeWakeLo
  | .mcUcLoadHi => some .mcUcLoadLo
  | .qmQbaseHi => some .qmQbaseLo
  | .hifDbHi => some .hifDbLo
  | .hifSqHi n => some (.hifSqLo n)
  | .hifCqHi n => some (.hifCqLo n)
  | .syncLoadHi => some .syncLoadLo
  | .syncEpochHi => some .syncEpochLo
  | .ptpSnapTimeHi => some .ptpSnapTimeLo
  | .ptpSnapSecHi => some .ptpSnapSecLo
  | .ptpWallSecHi => some .ptpWallSecLo
  | .memUeAddrHi => some .memUeAddrLo
  | .memTestBaseHi => some .memTestBaseLo
  | .memTestLenHi => some .memTestLenLo
  | .memTestFailHi => some .memTestFailLo
  | .calQuietStartHi => some .calQuietStartLo
  | .calQuietEndHi => some .calQuietEndLo
  | .seqStartTimeHi c => some (.seqStartTimeLo c)
  | .seqLastTrigHi c => some (.seqLastTrigLo c)
  | .outFreqHi k i => some (.outFreqLo k i)
  | _ => none

/-- A plain write of a register's fields: a low word is held, a high word applies both (R11), any other word takes its
fields at once (R14, R16). -/
def State.writePlain (s : State) (r : RegId) (w : Word) : State :=
  match r.highOf with
  | some _ => if r.maskOf .rw = 0 then s else { s with lows := Tab.put s.lows r.off w }
  | none =>
    match r.lowOf with
    | some l =>
      let s1 := { s with lows := s.lows.filter (fun e => decide (e.1 ≠ l.off)) }
      (s1.writeFields l (s.lowOf l)).writeFields r w
    | none => s.writeFields r w

/-- The read-write bits of a register: for a strand that is not ungated the last value written, which held writes give
(R421). -/
def State.rwWord (s : State) (r : RegId) : Word :=
  match r with
  | .qmQctl => BitVec.ofNat 32 (s.queue s.selQ).ctl
  | .qmQbaseLo => wd (s.queue s.selQ).base
  | .qmQbaseHi => wd ((s.queue s.selQ).base / 2 ^ 32)
  | .qmQsize => wd (s.queue s.selQ).log2
  | .qmQthr => wd (s.queue s.selQ).thr
  | _ =>
    match r.strandOf with
    | some k =>
      let x := s.strand k
      if x.gate = .ungated ∨ x.rst.isSome = true then s.reg r else
      (x.heldW.foldl (fun a p => match RegId.ofOff p.1 with | some q => a.writePlain q p.2 | none => a) s).reg r
    | none => s.reg r

/-- The read-only bits as they are now (R421): in a strand that is not ungated the reset value, but for the STR_ page. -/
def State.roWord (s : State) (r : RegId) : Nat :=
  if s.offline r then r.reset.toNat else
  (s.statusLow r ||| s.statusHigh r) ||| ((Config.measured r.off s.free).toNat &&& r.measuredMask)

/-- The key of a read-clear counter: that of the selected queue in the queue window (R319). -/
def State.rcKey (s : State) (r : RegId) : Nat :=
  match r with
  | .qmQdrop => qKey s.selQ 0
  | .qmQrewind => qKey s.selQ 1
  | .qmQflushed => qKey s.selQ 2
  | _ => r.off

/-- The W1C bits of a register (R14): COMPLY stands with its output. -/
def State.w1cWord (s : State) (r : RegId) : Nat :=
  match r with
  | .outBbOut k c => b2n (s.out k (6 + c)).comply * 2 ^ 9
  | _ => (s.flagWord r).toNat

/-- What a read-clear counter reads (R14); the bit errors of a PRBS31 test that runs are a free value (R248). -/
def State.rcWord (s : State) (r : RegId) : Word :=
  match r with
  | .hchPrbsErr l => if s.prbsOn l then Config.measured r.off s.free else wd (s.clearCount r.off).1
  | _ => wd (s.clearCount (s.rcKey r)).1

/-- The word of a register, its counter not cleared (R14, R15): write-only and reserved bits read 0. -/
def State.peek (s : State) (r : RegId) : Word :=
  if r.isRc then s.rcWord r else
  BitVec.ofNat 32 (((s.rwWord r).toNat &&& r.maskOf .rw) ||| (s.roWord r &&& r.maskOf .ro) ||| (s.w1cWord r &&& r.maskOf .w1c))

/-- Whether the block of an offset responds (R3, R52, R53, R415). -/
def State.responds (s : State) (off : Nat) : Bool :=
  s.supply != .off && s.mode.mode != .dormant && (s.blocksUp || decide (off < 0x4000)) && !s.absent off

/-- A read of a register (R11, R14, R418): a low word latches its high word, a high word gives what was latched, a
counter is cleared. -/
def State.readReg (s : State) (r : RegId) : State :=
  let s0 := if r.measuredMask = 0 then s else s.tick
  let s1 := match r.highOf with
    | some h => { s0 with rdata := s.peek r, latch := Tab.put s.latch h.off (s.peek h) }
    | none =>
      match (if r.lowOf.isSome then Tab.get? s.latch r.off else none) with
      | some v => { s0 with rdata := v, latch := s.latch.filter (fun e => decide (e.1 ≠ r.off)) }
      | none => { s0 with rdata := s.peek r }
  if r.isRc then (s1.clearCount (s1.rcKey r)).2 else s1

/-- A read of one BAR0 word (R416, R418): an unassigned offset, and a block that does not respond, read 0. -/
def State.readWord (s : State) (off : Nat) : State :=
  if s.responds off = false then { s with rdata := 0 } else
  match RegId.ofOff off with
  | some r => s.readReg r
  | none => { s with rdata := 0 }

/-- RC_READ (R14, R422): a counter is read and cleared. -/
def execRcRead (t : BitVec 64) (off : BitVec 24) (s : State) : Host.Outcome State Fault Refusal :=
  .next ((s.upTo t).readWord off.toNat)

/-- REG64_LOW_READ (R11): the low word is read, the high word latched. -/
def execReg64LowRead (t : BitVec 64) (off : BitVec 24) (s : State) : Host.Outcome State Fault Refusal :=
  .next ((s.upTo t).readWord off.toNat)

end Sys2Proof.Machine
end

