-- ==== Sys2Proof/Machine/Access.lean ====
section
/-! DEFINITION. Register writes (R11, R14 to R17, R415 to R424): where a write of each register goes, writes to strands
that are gated or under reset, held writes, with the meanings of PROFILE_WRITE, W1C_WRITE, REG64_HIGH_WRITE,
REGISTER_WRITE, STRAND_UNGATED, STRAND_RESET_DONE and HELD_WRITE_APPLY. -/

namespace Sys2Proof.Machine

-- where a write goes

/-- The W1C bits of a write (R14, R422). -/
def State.wrFlags (s : State) (r : RegId) (w : Word) : State :=
  let m := BitVec.ofNat 32 (w.toNat &&& r.maskOf .w1c)
  if m = 0 then s else
  match r with
  | .outBbOut k c => s.clearComply k c
  | _ => s.clearFlags r m

/-- A write to a register of the hub, ply registers included (R415, R425): registers with an effect of their own, and
plain ones. -/
def State.wrHub (s : State) (r : RegId) (w : Word) : State :=
  match r with
  | .modeCtl => s.wrModeCtl w
  | .mcCtl => if getF w 0 0 = 1 ∧ getF w 31 24 = 0x5A then s.tick.wrMcCtl w (Config.openWord s.free).toNat else s
  | .mcMbCmd => s.wrMbCmd w
  | .pwrJrnSel => s.wrJrnSel w
  | .qmQctl => s.wrQctl w
  | .qmQbaseLo => s.wrQueueReg r w
  | .qmQbaseHi => s.wrQueueReg r w
  | .qmQsize => s.wrQueueReg r w
  | .qmQthr => s.wrQueueReg r w
  | .hifKick => s.wrKick w
  | .hifRingCtl n => s.wrRingCtl n w
  | .hifSqLo n => if (s.ring n).open' then s else s.writePlain r w
  | .hifSqHi n => if (s.ring n).open' then s else s.writePlain r w
  | .hifCqLo n => if (s.ring n).open' then s else s.writePlain r w
  | .hifCqHi n => if (s.ring n).open' then s else s.writePlain r w
  | .hifRingQ n => s.wrRingReg n r w
  | .syncCtl => s.wrSyncCtl w
  | .syncEpochHi => s.wrEpochHi w
  | .ptpCtl => s.wrPtpCtl w
  | .hchCtl => s.wrHchCtl w
  | .hchDirCtl d => s.wrDirCtl d w
  | .hchLaneCtl l => s.wrLaneCtl l w
  | .hchTxMap i => s.wrTxMap i w
  | .decCtl => s.wrDecCtl w
  | .decDctl d => s.wrDctl d w
  | .decImport p k => s.wrImport p k w
  | .memDieMark => s.wrDieMark w
  | .memTestCtl => s.wrTestCtl w
  | .monCtl n => s.wrMonCtl n w
  | .tioInCtl i => s.wrTioIn i w
  | .tioOutCtl o => s.wrTrig (.out (Fin.ofNat 32 o)) w
  | .tioEwCtl v => s.wrTrig (.window (Fin.ofNat 32 v)) w
  | .plyClkCtl p => s.wrPlyClk p w
  | _ => if r.maskOf .rw = 0 then s else s.writePlain r w

/-- A write to a register of a strand, in effect at the strand (R423); a change of RANGE acts at boundary b. -/
def State.wrStrand (s : State) (r : RegId) (w : Word) (b : Nat) : State :=
  match r with
  | .seqCtl c => s.wrSeqCtl c w
  | .seqOwn k u => s.wrOwn k u w
  | .outToneCtl k u => s.wrTone k u w
  | .outRfCtl k o => s.wrRfCtl k o w
  | .outBbCtl k c => s.wrBbCtl k c w
  | .outToneOfs k _ => (s.writePlain r w).notePhases k s.now
  | .outRfOut k o => s.wrOut k o w b
  | .outBbOut k c => s.wrOut k (6 + c) w b
  | .outStatic k c => s.wrStatic k c w
  | .outFrame k f => s.wrFrame k f w
  | .acqInCtl k i => s.wrInCtl k i w (up8 s.now)
  | .discCtl k q => s.wrDiscCtl k q w
  | _ => s.writePlain r w

/-- A register that a write can change beyond its W1C bits. -/
def RegId.writable (r : RegId) : Bool := r.maskOf .rw != 0 || r.maskOf .wo != 0

/-- A write of register r arrives at the present time (R16, R421): it goes to the hub, to the hub's copy of a strand's
registers, or to a strand's tables. -/
def State.writeReg (s : State) (r : RegId) (w : Word) : State :=
  let s1 := s.wrFlags r w
  if r.writable = false then s1 else
  match r.strandOf with
  | none => s1.wrHub r w
  | some k =>
    if r.isStr then s1.wrStrCtl k w
    else if r.isTable then s1.toTable k r w (fun a x => a.wrStrand r x (up8 a.now))
    else s1.toStrand k r w (fun a x => a.wrStrand r x (up8 a.now))

/-- A write of one BAR0 word (R52, R415, R416): discarded where no register stands or its block does not respond. -/
def State.writeWord (s : State) (off : Nat) (w : Word) : State :=
  if s.responds off = false then s else
  match RegId.ofOff off with
  | some r => s.writeReg r w
  | none => s

-- the general rows

/-- PROFILE_WRITE (R17): a write that carries a profile code. -/
def execProfileWrite (t : BitVec 64) (off : BitVec 24) (w : Word) (s : State) : Host.Outcome State Fault Refusal :=
  .next ((s.upTo t).writeWord off.toNat w)

/-- W1C_WRITE (R14, R316, R419, R422). -/
def execW1cWrite (t : BitVec 64) (off : BitVec 24) (w : Word) (s : State) : Host.Outcome State Fault Refusal :=
  .next ((s.upTo t).writeWord off.toNat w)

/-- REG64_HIGH_WRITE (R11): the held low word and the high word take effect together. -/
def execReg64HighWrite (t : BitVec 64) (off : BitVec 24) (w : Word) (s : State) : Host.Outcome State Fault Refusal :=
  .next ((s.upTo t).writeWord off.toNat w)

/-- REGISTER_WRITE (R14 to R16, R418): a write without all four byte enables is discarded. -/
def execRegisterWrite (t : BitVec 64) (off : BitVec 24) (w : Word) (be : BitVec 4) (s : State) :
    Host.Outcome State Fault Refusal :=
  .next (if be = 0xF then (s.upTo t).writeWord off.toNat w else s.upTo t)

-- strands

/-- A held write with its ENABLE replaced by the one in force, which acted at the hub as the write arrived (R421). -/
def State.withEnable (s : State) (r : RegId) (w : Word) : Word :=
  match r.enable with
  | some (b, _) => setF w b b (s.fld r b b)
  | none => w

/-- The writes held for strand k applied in arrival order (R421); `acted`: their enables acted as they arrived. A range write held
through gating acts at the boundary after the ungating (R147, R433). -/
def State.replay (s : State) (k : Nat) (acted : Bool) : State :=
  let l := (s.strand k).heldW
  l.foldl (fun a p => match RegId.ofOff p.1 with
      | some r => a.wrStrand r (if acted then a.withEnable r p.2 else p.2) (if acted then next8 a.now else up8 a.now)
      | none => a)
    (s.setStrand k { s.strand k with heldW := [] })

/-- STRAND_UNGATED (R30, R58, R147, R339, R421): the ungating completes; held writes are applied before any unit runs;
old converters become due; a strand left with no enabled unit gates again. -/
def State.strandUngated (s : State) (k : Nat) : State :=
  let x := s.strand k
  if x.gate ≠ .ungating then s else
  let s1 := s.toTime x.due
  let s2 := (s1.setStrand k { x with gate := .ungated, pendEn := false, gateAfter := false,
                                     staged := (s1.strand k).staged, relAt := (s1.strand k).relAt }).replay k true
  let s3 := (strandConvs k).foldl (fun a c => a.dueIfOld c a.now) s2
  if x.gateAfter || !s3.strandOn k then
    (if (s3.strand k).gate = .ungated then s3.startGate k else s3)
  else s3

def execStrandUngated (k : Fin 32) (s : State) : Host.Outcome State Fault Refusal := .next (s.strandUngated k.val)

/-- STRAND_RESET_DONE (R424): within 2 µs of its start the reset ends, and the writes held during it are applied. -/
def State.strandResetDone (s : State) (k t : Nat) : State :=
  let x := s.strand k
  match x.rst with
  | none => s
  | some a =>
    let s1 := s.toTime (min t (a + 2 * us))
    let s2 := s1.setStrand k { x with rst := none, staged := (s1.strand k).staged, relAt := (s1.strand k).relAt }
    if x.gate = .ungated then s2.replay k false else s2

def execStrandResetDone (t : BitVec 64) (k : Fin 32) (s : State) : Host.Outcome State Fault Refusal :=
  .next (s.strandResetDone k.val t.toNat)

-- held writes

/-- A held write takes effect if what held it has passed (R62, R135, R148, R160, R214, R331). -/
def State.heldApply (s : State) (r : RegId) : State :=
  match s.heldFor r with
  | none =>
    match r with
    | .decImport p _ => if s.plyActive p then s else s.applyImports p
    | _ => s
  | some w =>
    match r with
    | .seqOwn k u => s.wrOwn k u w
    | .outRfCtl k o => s.wrRfCtl k o (setF w 12 8 (s.fld r 12 8))
    | .outBbCtl k c => s.wrBbCtl k c (setF (setF w 12 8 (s.fld r 12 8)) 17 17 0)
    | .outRfOut k o => s.wrRange k o (getF w 3 2) w (up8 s.now)
    | .outBbOut k c => s.wrRange k (6 + c) (getF w 3 2) w (up8 s.now)
    | .acqInCtl k i => s.wrInCtl k i (setF w 0 0 (s.fld r 0 0)) (next8 s.now)
    | .decImport p _ => if s.plyActive p then s else s.applyImports p
    | .tioOutCtl o => s.wrTrig (.out (Fin.ofNat 32 o)) w
    | .tioEwCtl v => s.wrTrig (.window (Fin.ofNat 32 v)) w
    | _ => s

/-- HELD_WRITE_APPLY (R62): the cores that held a write are idle, and it takes effect. -/
def execHeldWriteApply (t : BitVec 64) (off : BitVec 24) (s : State) : Host.Outcome State Fault Refusal :=
  .next (match RegId.ofOff off.toNat with
    | some r => (s.upTo t).heldApply r
    | none => s.upTo t)

end Sys2Proof.Machine
end

