-- ==== Sys2Proof/Machine/DescCore.lean ====
section
/-! DEFINITION. Descriptors (R285 to R292): their fields, what makes one bad, how the next one of a ring starts, and how
its completion entry is formed. -/

namespace Sys2Proof.Machine

-- fields (R285)

def dOp (d : List Byte) : Nat := leAt d 3 1
def dFence (d : List Byte) : Bool := bit (leAt d 2 1) 7
def dChk (d : List Byte) : Bool := bit (leAt d 2 1) 6
def dDir (d : List Byte) : Bool := bit (leAt d 2 1) 5
def dTsReq (d : List Byte) : Bool := bit (leAt d 2 1) 4
def dTimed (d : List Byte) : Bool := bit (leAt d 2 1) 3
def dTarget (d : List Byte) : Nat := leAt d 4 4
def dHost (d : List Byte) : Nat := leAt d 8 8
def dLen (d : List Byte) : Nat := leAt d 16 4
def dCrc (d : List Byte) : Nat := leAt d 20 4
def dDev (d : List Byte) : Nat := leAt d 24 8

/-- The assigned OP codes (R286). -/
def opCodes : List Nat := [0x01, 0x10, 0x11, 0x12, 0x13, 0x14, 0x15, 0x20, 0x21, 0x22, 0x30, 0x3F]

/-- The operations that have a direction (R286). -/
def opHasDir (op : Nat) : Bool := decide (0x10 ≤ op) && decide (op ≤ 0x15)

/-- The bits of TARGET that an operation uses (R286). -/
def targetMask (op : Nat) : Nat :=
  if op = 0x01 then 0xFFFF else if op ≤ 0x12 then 0x1F else if op = 0x13 then 0x3FF else if op = 0x14 then 0xFF else
  if op = 0x15 then 0 else if op ≤ 0x22 then 0x7FFF else if op = 0x30 then 0x3FFFF else 0

/-- The bounds of DEVADDR, LENGTH and the pair count (R286, R287, R290). -/
def boundsOk (d : List Byte) : Bool :=
  let a := dDev d
  let n := dLen d
  let op := dOp d
  if op = 0x01 then
    a == 0 && (if n = 0 then decide (1 ≤ dTarget d) && decide (dTarget d ≤ 3)
      else decide (1 ≤ dTarget d) && decide (dTarget d ≤ 4096) && decide (n = 8 * dTarget d))
  else if op = 0x10 then a % 8 == 0 && n % 8 == 0 && decide (a + n ≤ 2 ^ 20)
  else if op = 0x11 then a % 4 == 0 && n % 4 == 0 && decide (a + n ≤ 2 ^ 22)
  else if op = 0x12 then n % 16 == 0 && decide (a ≤ 4095) && decide (a + n / 16 ≤ 4096)
  else if op = 0x13 then n % 4 == 0 && decide (a ≤ 4095) && decide (a + n / 4 ≤ 4096)
  else if op = 0x14 then a == 0 && n == 8192
  else if op = 0x15 then a % 64 == 0 && n % 64 == 0 && decide (a + n ≤ 2 ^ 35)
  else if op = 0x20 ∨ op = 0x21 then a == 0
  else if op = 0x30 then a == 0 && decide (60 ≤ n) && decide (n ≤ 1514)
  else a == 0 && n == 0

/-- The bytes of INLINE that an operation uses (R287, R290). -/
def inlineUsed (d : List Byte) : Nat :=
  if dOp d = 0x01 ∧ dLen d = 0 then 8 * dTarget d else if dOp d = 0x30 ∧ dTimed d = true then 10 else 0

/-- A descriptor with a reserved OP, a reserved bit set, a misaligned address or length, or a range out of bounds
(R285, R286, R292). -/
def descBad (d : List Byte) : Bool :=
  let op := dOp d
  !opCodes.contains op || leAt d 2 1 % 8 != 0 || (dDir d && !opHasDir op) ||
  ((dTsReq d || dTimed d) && op != 0x30) || (dTarget d &&& (0xFFFFFFFF ^^^ targetMask op)) != 0 ||
  dHost d % 8 != 0 || decide (2 ^ 30 < dLen d) || !boundsOk d ||
  ((d.drop (32 + inlineUsed d)).take (28 - inlineUsed d)).any (fun b => b != 0)

/-- A descriptor that names a strand absent in this variant (R3, R292). -/
def State.descAbsent (s : State) (d : List Byte) : Bool :=
  decide (0x10 ≤ dOp d) && decide (dOp d ≤ 0x13) && decide (s.strandCount ≤ dTarget d % 32)

-- starting

/-- What starting a descriptor comes to: it completes with an entry, or it goes on. -/
inductive Ran where
  | done (s : State) (e : Entry)
  | goesOn (s : State)

/-- A descriptor that completes (R291). -/
def State.finish (s : State) (n : Nat) (d : List Byte) (e : Entry) : State := (s.complete n d e).drained n

/-- The descriptor at the head of ring pair n's submission queue starts, if its operation is among `sel`, if a FENCE
finds every earlier one completed, and if `wait` does not keep it (R282, R288); one that fails its WHIP or is bad completes
without effect (R292); else `run` carries it out. -/
def State.startDesc (s : State) (n : Nat) (sel : Nat → Bool) (wait : State → List Byte → Bool)
    (run : State → List Byte → Ran) : State :=
  let sq := s.sqQueue n
  let q := s.queue sq
  if (s.ring n).open' = false then s else
  match q.pkts with
  | [] => s
  | p :: ps =>
    let d := p.bytes
    if sel (dOp d) = false ∨ (dFence d = true ∧ s.running n ≠ 0) then s else
    match s.hurt sq p with
    | some i => s.unreadable n sq i p
    | none =>
      let s1 := s.setQueue sq { q with pkts := ps }
      if whipOk d = false then s1.finish n d { status := 1 } else
      if descBad d = true then s1.finish n d { status := 2 } else
      if s1.descAbsent d = true then s1.finish n d { status := 3 } else
      if wait s d = true then s else
      match run s1 d with
      | .done s2 e => s2.finish n d e
      | .goesOn s2 => s2

/-- No reason to wait. -/
def noWait (_ : State) (_ : List Byte) : Bool := false

-- host buffers

/-- Where the access of a host buffer of n bytes fails, if it does. -/
def failAt (n : Nat) (err : Option Nat) : Option Nat :=
  match err with | some e => if e < n then some e else none | none => none

/-- The host buffer of a descriptor as received up to a failed access (R292). -/
def State.received (s : State) (d : List Byte) (err : Option Nat) : List Byte :=
  Mem.reads s.hostMem (dHost d) ((failAt (dLen d) err).getD (dLen d))

/-- The entry of a write to the module whose effect is complete (R292): HOSTERR, DATACHECK or OK. -/
def State.writeDone (s : State) (d : List Byte) (err : Option Nat) (count detail : Nat) : Entry :=
  if (failAt (dLen d) err).isSome then { status := 7, count := count, detail := detail }
  else if dChk d = true ∧ dLen d ≠ 0 ∧ crc32c (Mem.reads s.hostMem (dHost d) (dLen d)) ≠ dCrc d then
    { status := 8, count := count, detail := detail }
  else { status := 0, count := count, detail := detail }

/-- Bytes written to the host buffer (R291, R292): up to a failed access, or up to an uncorrectable error at byte m of
the source; RCRC is taken over what was written. -/
def State.toHost (s : State) (d bs : List Byte) (err m : Option Nat) : State × Entry :=
  let n := m.getD bs.length
  let k := (failAt n err).getD n
  let out := bs.take k
  ({ s with hostMem := Mem.writes s.hostMem (dHost d) out },
   { status := if (failAt n err).isSome then 7 else if m.isSome then 9 else 0, count := k,
     rcrc := if out = [] then 0 else crc32c out })

-- NOP

/-- NOP (R286), and the reserved operations, which complete with BADDESC (R292). -/
def execNop (t : BitVec 64) (n : Fin 64) (err : Option Nat) (s : State) : Host.Outcome State Fault Refusal :=
  let _ := err
  .next ((s.at t).startDesc n.val (fun op => op == 0x3F || !opCodes.contains op) noWait (fun a _ => .done a { status := 0 }))

-- REGWRITE

/-- Whether a pair's offset stops the descriptor (R287): misaligned, at or above 0x80_0000, in the MODE_ and MC_ or HIF_
block, or in a reserved range of R415; a block of an absent ply or strand stops it too. -/
def pairRefused (off : Nat) : Bool :=
  decide (off % 4 ≠ 0) || decide (0x400000 ≤ off) || (decide (0x1000 ≤ off) && decide (off < 0x2000)) ||
  (decide (0x10000 ≤ off) && decide (off < 0x20000)) || (decide (0x80000 ≤ off) && decide (off < 0x100000))

/-- What the module holds pending (R58, R62, R301, R342): starts and enables of plies, strands and outputs, disables of
queues, arms of cores, and held writes. -/
def State.pendKeys (s : State) : List Nat :=
  (s.plies.filter (fun e => e.2.pendEn)).map (·.1) ++ (s.strands.filter (fun e => e.2.pendEn)).map (fun e => 0x100 + e.1) ++
  (s.outs.filter (fun e => e.2.pendEn)).map (fun e => 0x1000 + e.1) ++
  (s.queues.filter (fun e => e.2.pendDis)).map (fun e => 0x10000 + e.1) ++
  (s.cores.filter (fun e => e.2.armHeld)).map (fun e => 0x100000 + e.1) ++ s.held.map (fun e => 0x1000000 + e.1)

/-- A write of register r is held (R11, R62, R214, R421). -/
def State.holds (s : State) (r : RegId) : Bool :=
  (r == .decCtl && decide (s.fld .decCtl 31 24 ≤ 1) && s.dec.impProf.any (fun e => e.2 != 0)) || (s.heldFor r).isSome || s.lows.any (fun e => e.1 == r.off) ||
    s.strands.any (fun e => e.2.heldW.any (fun p => p.1 == r.off))

/-- The pairs applied in order up to the one that stops (R287): the state, how many were applied, and the registers
written; a write of an entry that the variant lacks is discarded (R3). -/
def State.applyPairs (s : State) : List (Nat × Word) → State × Nat × List RegId
  | [] => (s, 0, [])
  | (off, w) :: l =>
    if pairRefused off || s.half && farBlock off then (s, 0, []) else
    let a := match RegId.ofOff off with | some r => if s.absent off then (s, []) else (s.writeReg r w, [r]) | none => (s, [])
    let z := State.applyPairs a.1 l
    (z.1, z.2.1 + 1, a.2 ++ z.2.2)

/-- The pairs of a byte list (R287). -/
def pairsOf : Nat → List Byte → List (Nat × Word)
  | 0, _ => []
  | k + 1, bs => if bs.length < 8 then [] else (leAt bs 0 4, BitVec.ofNat 32 (leAt bs 4 4)) :: pairsOf k (bs.drop 8)

/-- REGWRITE carried out (R287, R292). -/
def State.regWrite (s : State) (d : List Byte) (err : Option Nat) : Ran :=
  let buf := if dLen d = 0 then (d.drop 32).take (8 * dTarget d) else s.received d err
  let ps := pairsOf (buf.length / 8) buf
  let r := s.applyPairs ps
  let s1 := r.1
  let pend := r.2.2.any s1.holds || s1.pendKeys.any (fun k => !s.pendKeys.contains k)
  if r.2.1 < ps.length then .done s1 { status := 5, count := r.2.1, detail := r.2.1, pended := pend }
  else .done s1 { s1.writeDone d err r.2.1 0 with pended := pend }

def execRegwrite (t : BitVec 64) (n : Fin 64) (err : Option Nat) (s : State) : Host.Outcome State Fault Refusal :=
  .next ((s.upTo t).startDesc n.val (· == 0x01) noWait (fun a d => a.regWrite d err))

end Sys2Proof.Machine
end

