-- ==== Sys2Proof/Machine/Loads.lean ====
section
/-! DEFINITION. Loads and read-backs by descriptor (R286): SEQLOAD, ENVLOAD, ENVTABLE, KERNEL, TRUTHTABLE and HBMXFER. -/

namespace Sys2Proof.Machine

-- shared

/-- The strand of a load, and the wait of bulk data while its ply's link retrains (R366). -/
def dStrand (d : List Byte) : Nat := dTarget d % 32
def waitLink (s : State) (d : List Byte) : Bool := (s.ply (dStrand d / 8)).retrain.isSome

/-- Words of an SRAM written whole, byte lo on for n bytes, are good again (R363). -/
def State.cure (s : State) (m : SramId) (lo n : Nat) : State :=
  { s with badWords := s.badWords.filter (fun (b : SramId × Nat) =>
      b.1 != m || decide (8 * b.2 < lo) || decide (lo + n < 8 * b.2 + 8)) }

/-- The uncorrectable words of an SRAM that a range of bytes meets, as word numbers. -/
def State.badIn (s : State) (m : SramId) (lo n : Nat) : List Nat :=
  ((s.badWords.filter (fun (b : SramId × Nat) =>
      b.1 == m && decide (lo < 8 * b.2 + 8) && decide (8 * b.2 < lo + n))).map (·.2))

/-- Received bytes in whole units of u bytes. -/
def State.units' (s : State) (d : List Byte) (err : Option Nat) (u : Nat) : List Byte :=
  let bs := s.received d err
  bs.take (bs.length / u * u)

/-- n bytes of an SRAM, from byte lo of it, copied to the host buffer; the first uncorrectable word ends the copy with
MEMERR (R292, R363). -/
def State.sramOut (s : State) (d bs : List Byte) (err : Option Nat) (m : SramId) (lo : Nat) : State × Entry :=
  match s.badIn m lo bs.length with
  | [] => s.toHost d bs err none
  | w :: ws =>
    let b := ws.foldl min w
    let at' := 8 * b - lo
    if (failAt at' err).isSome then s.toHost d bs err none
    else (s.sramUe m b (up8 s.now)).toHost d bs err (some at')

/-- A pair as the outcome of a descriptor. -/
def Ran.ofPair (p : State × Entry) : Ran := .done p.1 p.2

-- SEQLOAD

/-- SEQLOAD (R286): sequence words of a strand's SRAM, loaded or read back. -/
def State.seqLoad (s : State) (d : List Byte) (err : Option Nat) : Ran :=
  let k := dStrand d
  let m := SramId.seqSram (Fin.ofNat 32 k)
  let a := 2 ^ 20 * k + dDev d
  if dDir d then .ofPair (s.sramOut d (Mem.reads s.seqSram a (dLen d)) err m (dDev d)) else
  let bs := s.units' d err 8
  let s1 := ({ s with seqSram := Mem.writes s.seqSram a bs }).cure m (dDev d) bs.length
  .done s1 (s1.writeDone d err bs.length 0)

def execSeqload (t : BitVec 64) (n : Fin 64) (err : Option Nat) (s : State) : Host.Outcome State Fault Refusal :=
  .next ((s.upTo t).startDesc n.val (· == 0x10) waitLink (fun a d => a.seqLoad d err))

-- ENVLOAD

/-- ENVLOAD (R103, R107, R286): envelope samples of a strand's SRAM; samples already read stay as they were. -/
def State.envLoad (s : State) (d : List Byte) (err : Option Nat) : Ran :=
  let k := dStrand d
  let m := SramId.envSram (Fin.ofNat 32 k)
  let a := 2 ^ 22 * k + dDev d
  if dDir d then .ofPair (s.sramOut d (Mem.reads s.envSram a (dLen d)) err m (dDev d)) else
  let bs := s.units' d err 4
  let s0 := s.freezeEnv k
  let s1 := ({ s0 with envSram := Mem.writes s0.envSram a bs }).cure m (dDev d) bs.length
  .done s1 (s1.writeDone d err bs.length 0)

def execEnvload (t : BitVec 64) (n : Fin 64) (err : Option Nat) (s : State) : Host.Outcome State Fault Refusal :=
  .next ((s.upTo t).startDesc n.val (· == 0x11) waitLink (fun a d => a.envLoad d err))

-- ENVTABLE

/-- The 16 bytes of an entry as stored (R104, R106): READY is the module's own, and 0 until a head copy is complete. -/
def entryBytes (bs : List Byte) : List Byte :=
  bs.take 3 ++ [BitVec.ofNat 8 (leAt bs 3 1 &&& 0xFB)] ++ (bs.drop 4).take 12

/-- Entries as read back (R104): READY reads 1 for every source but an HBM envelope, whose copy sets it. -/
def entryReads : Nat → List Byte → List Byte
  | 0, _ => []
  | n + 1, bs =>
    let b3 := leAt bs 3 1
    bs.take 3 ++ [BitVec.ofNat 8 (if bits b3 7 6 = 1 then b3 else b3 ||| 4)] ++ (bs.drop 4).take 12 ++ entryReads n (bs.drop 16)

/-- Entries loaded in order from entry e of strand k on, reserved ones left as they stand (R104): the state and the first
refused entry. -/
def State.loadEntries (s : State) (k : Nat) : Nat → Nat → List Byte → State × Option Nat
  | _, 0, _ => (s, none)
  | e, m + 1, bs =>
    if envEntryOk (leAt bs 0 4) (leAt bs 4 4) (leAt bs 8 4) (leAt bs 12 4) then
      let s1 := { s with envTab := Mem.writes s.envTab (65536 * k + 16 * e) (entryBytes bs) }
      State.loadEntries (s1.cure (.envTable (Fin.ofNat 32 k)) (16 * e) 16) k (e + 1) m (bs.drop 16)
    else
      let z := State.loadEntries s k (e + 1) m (bs.drop 16)
      (z.1, some e)

/-- ENVTABLE (R104, R286, R292). -/
def State.envTable (s : State) (d : List Byte) (err : Option Nat) : Ran :=
  let k := dStrand d
  let m := SramId.envTable (Fin.ofNat 32 k)
  if dDir d then
    .ofPair (s.sramOut d (entryReads (dLen d / 16) (Mem.reads s.envTab (65536 * k + 16 * dDev d) (dLen d))) err m (16 * dDev d))
  else
  let bs := s.units' d err 16
  let z := s.loadEntries k (dDev d) (bs.length / 16) bs
  match z.2 with
  | some e => .done z.1 { status := 6, count := bs.length, detail := e }
  | none => .done z.1 (z.1.writeDone d err bs.length 0)

def execEnvtable (t : BitVec 64) (n : Fin 64) (err : Option Nat) (s : State) : Host.Outcome State Fault Refusal :=
  .next ((s.upTo t).startDesc n.val (· == 0x12) waitLink (fun a d => a.envTable d err))

-- KERNEL

/-- The blocks of a window whose last sample has been taken by tick t (R170). -/
def blocksBy (v : Win) (t : Nat) : Nat :=
  ((List.range ((v.me - v.ms + 15) / 16)).filter (fun n => decide (adcTick (min (v.ms + 16 * n + 15) (v.me - 1)) < t))).length

/-- The weights that open windows of tone r have already used kept, before its kernel changes (R170). -/
def State.freezeKernel (s : State) (k r : Nat) : State :=
  let y := s.rtone k r
  s.setRtone k r { y with wins := y.wins.map (fun v =>
    if v.kmode then
      { v with frozen := v.frozen ++ ((List.range (blocksBy v s.now)).drop v.frozen.length).map (s.kernelW k r) }
    else v) }

/-- KERNEL (R170, R286): weights of one read-out tone's kernel. -/
def State.kernelLoad (s : State) (d : List Byte) (err : Option Nat) : Ran :=
  let k := dStrand d
  let r := bits (dTarget d) 9 5
  let m := SramId.kernelMem (Fin.ofNat 32 k)
  let lo := 16384 * r + 4 * dDev d
  let a := 2 ^ 19 * k + lo
  if dDir d then .ofPair (s.sramOut d (Mem.reads s.kernel a (dLen d)) err m lo) else
  let bs := s.units' d err 4
  let s0 := s.freezeKernel k r
  let s1 := ({ s0 with kernel := Mem.writes s0.kernel a bs }).cure m lo bs.length
  .done s1 (s1.writeDone d err bs.length 0)

def execKernel (t : BitVec 64) (n : Fin 64) (err : Option Nat) (s : State) : Host.Outcome State Fault Refusal :=
  .next ((s.upTo t).startDesc n.val (· == 0x13) waitLink (fun a d => a.kernelLoad d err))

-- TRUTHTABLE

/-- One byte of a truth table (R218). -/
def TT.byte (t : TT) (i : Nat) : Byte :=
  match t with
  | .raw m => Mem.read m i
  | .gen _ _ _ => BitVec.ofNat 8 ((List.range 8).foldl (fun a j => a + b2n (t.bit (8 * i + j)) * 2 ^ j) 0)

/-- A truth table as a memory of 8 KiB. -/
def TT.mem (t : TT) : Mem :=
  match t with
  | .raw m => m
  | .gen _ _ _ => Mem.writes [] 0 ((List.range 8192).map t.byte)

/-- TRUTHTABLE (R218, R219, R286): the shadow table of a derived bit; a load makes its PROFILE read 0xFF. -/
def State.truthTable (s : State) (d : List Byte) (err : Option Nat) : Ran :=
  let b := dTarget d % 256
  let cur := Tab.get s.dec.ttShadow b (.raw [])
  if dDir d then .ofPair (s.toHost d ((List.range 8192).map cur.byte) err none) else
  let bs := s.received d err
  let s1 :=
    if bs = [] then s else
    let base := if bs.length = 8192 then [] else cur.mem
    let s0 := { s with dec := { s.dec with ttShadow := Tab.put s.dec.ttShadow b (.raw (Mem.writes base 0 bs)) } }
    s0.setFld (.decDctl b) 31 24 0xFF
  .done s1 (s1.writeDone d err bs.length 0)

def execTruthtable (t : BitVec 64) (n : Fin 64) (err : Option Nat) (s : State) : Host.Outcome State Fault Refusal :=
  .next ((s.at t).startDesc n.val (· == 0x14) noWait (fun a d => a.truthTable d err))

-- HBMXFER

/-- The first uncorrectable codeword of n bytes of HBM from address a on (R359). -/
def State.poisonIn (s : State) (a n : Nat) : Option Nat :=
  match s.mem.poison.filter (fun c => decide (a ≤ 64 * c) && decide (64 * c < a + n)) with
  | [] => none
  | c :: cs => some (cs.foldl min c)

/-- HBMXFER (R286, R301, R359): HBM contents outside the queue regions; whole codewords written are good again; samples already
read stay as they were. -/
def State.hbmXfer (s : State) (d : List Byte) (err : Option Nat) : Ran :=
  let a := dDev d
  let n := dLen d
  if n ≠ 0 ∧ s.overlapsQueue 32768 a (a + n) = true then .done s { status := 2 } else
  if dDir d then
    match s.poisonIn a n with
    | none => .ofPair (s.toHost d (Mem.reads s.hbm a n) err none)
    | some c =>
      let at' := 64 * c - a
      if (failAt at' err).isSome then .ofPair (s.toHost d (Mem.reads s.hbm a n) err none)
      else .ofPair ((s.memUe (64 * c) (up8 s.now)).toHost d (Mem.reads s.hbm a n) err (some at'))
  else
    let bs := s.units' d err 64
    let s0 := s.freezeAll
    let s1 := { s0 with hbm := Mem.writes s0.hbm a bs,
                        mem := { s0.mem with poison := s0.mem.poison.filter (fun c =>
                          decide (64 * c < a) || decide (a + bs.length ≤ 64 * c)) } }
    .done s1 (s1.writeDone d err bs.length 0)

def execHbmxfer (t : BitVec 64) (n : Fin 64) (err : Option Nat) (s : State) : Host.Outcome State Fault Refusal :=
  .next ((s.upTo t).startDesc n.val (· == 0x15) noWait (fun a d => a.hbmXfer d err))

end Sys2Proof.Machine
end

