-- ==== Sys2Proof/Machine/Transfers.lean ====
section
/-! DEFINITION. Queue and Ethernet descriptors (R286, R289, R290, R302 to R307): QWRITE, QREAD, QFLUSH and ETHSEND. -/

namespace Sys2Proof.Machine

-- packets of a host buffer

/-- Bytes of a packet's head that state its length, for a queue's role and content (R302 to R304). -/
def headLen (role content : Nat) : Nat := if role = 4 then (if content = 2 then 20 else 28) else 4

/-- The length that the first packet of a buffer states, for a queue's role and content; none for a reserved encoding in
its length or kind (R178, R191, R271, R302 to R305, R325, R427). -/
def packetLen (role content : Nat) (bs : List Byte) : Option Nat :=
  let w := leAt bs 0 4
  if role = 3 then
    let n := bits w 16 0
    let kind := bits w 31 28
    if (kind = 1 ∨ kind = 2) ∧ 8 ≤ n ∧ n ≤ 65536 ∧ n % (4 * kind) = 0 then some (12 + n) else none
  else if role = 4 then
    if content = 2 then
      let n := bits (leAt bs 16 4) 16 0
      if 1 ≤ n ∧ n ≤ 65536 then some (36 + 2 * n + 2 * (n % 2)) else none
    else if bits (leAt bs 24 4) 31 30 ≤ 1 then some 32 else none
  else if role = 5 then
    if bits w 15 14 ≤ 1 then some (32 * (bits w 15 14 + 1)) else none
  else if role = 6 then some 16
  else
    let n := bits w 31 24
    if 1 ≤ n ∧ n ≤ 64 then some (16 + 4 * n) else none

-- QWRITE

/-- What became of a packet that a QWRITE offers. -/
inductive Offered where
  | stored (s : State)
  | lost (s : State)
  | waits

/-- A packet with room for it is committed: a trailer that fails makes a stream's words absent (R312), and rewinds a
store-and-forward packet (R307); both raise QM_CHECK. -/
def State.commitPacket (s : State) (qn role : Nat) (bs : List Byte) : Offered :=
  let s0 := if role = 4 ∧ (s.queue qn).content = 0 then s.setQueue qn { s.queue qn with content := 1 } else s
  if whipOk bs then .stored (s0.pushPacket qn { bytes := bs, first := s.now, vis := some s.now })
  else if role = 3 then
    .lost ((s0.pushPacket qn { bytes := bs, first := s.now, vis := some s.now, bad := true }).raise .qmCheck 0 qn (up8 s.now) [])
  else .lost ((s0.bumpKey (qKey qn 1) 1).raise .qmCheck 0 qn (up8 s.now) [])

/-- A packet of a QWRITE offered to its queue (R296, R304, R305). -/
def State.offer (s : State) (qn : Nat) (bs : List Byte) : Offered :=
  let q := s.queue qn
  if q.size < 2 * bs.length then .lost (s.dropPacket qn) else
  if q.role = 6 ∧ 64 ≤ q.pkts.length then .lost (s.dropPacket qn) else
  if q.room bs.length then s.commitPacket qn q.role bs else
  if q.role = 3 then .waits else
  if q.role = 7 then (s.makeRoom qn bs.length q.pkts.length).commitPacket qn q.role bs else .lost (s.dropPacket qn)

/-- How far a QWRITE has come. -/
inductive Parsed where
  | over (s : State) (x : Started)
  | reserved (s : State) (x : Started)
  | waits (s : State) (x : Started)

/-- The packets of a QWRITE's buffer parsed from where it stands (R289, R306): `bs` is the rest of what was received. A
packet that a failed host access cuts is not written. -/
def State.parse (s : State) (qn : Nat) (x : Started) (bs : List Byte) : Nat → Parsed
  | 0 => .over s x
  | k + 1 =>
    if bs = [] then .over s x else
    let q := s.queue qn
    if x.lim.isSome ∧ bs.length < headLen q.role q.content then .over s x else
    match packetLen q.role q.content bs with
    | none => .reserved (s.dropPacket qn) x
    | some n =>
      if bs.length < n then (if x.lim.isSome then .over s x else .reserved (s.dropPacket qn) x) else
      match s.offer qn (bs.take n) with
      | .waits => .waits s x
      | .stored s1 =>
        State.parse s1 qn { x with off := x.off + n, idx := x.idx + 1, moved := x.moved + n, pkts := x.pkts + 1 } (bs.drop n) k
      | .lost s1 => State.parse s1 qn { x with off := x.off + n, idx := x.idx + 1 } (bs.drop n) k

/-- A QWRITE goes on from where it stands (R292, R296, R306). -/
def State.writeOn (s : State) (x : Started) : State × Option Entry × Started :=
  let qn := bits (dTarget x.desc) 14 0
  let s0 := s.settleReader qn
  let bs := (s0.received x.desc x.lim).drop x.off
  match s0.parse qn x bs (bs.length / 4 + 1) with
  | .over s1 y => (s1, some (s1.writeDone y.desc y.lim y.moved y.pkts), y)
  | .reserved s1 y => (s1, some { status := 6, count := y.moved, detail := y.idx }, y)
  | .waits s1 y => (s1, none, y)

/-- A started QWRITE on the same queue waits for room. -/
def State.waiter (s : State) (qn : Nat) : Bool :=
  s.hif.started.any (fun x => decide (dOp x.desc = 0x20) && decide (bits (dTarget x.desc) 14 0 = qn))

/-- A QWRITE starts (R289, R292): ROLE for a queue in no role or of a ring; behind another that waits it waits too. -/
def State.qWrite (s : State) (n : Nat) (d : List Byte) (err : Option Nat) : Ran :=
  let qn := bits (dTarget d) 14 0
  let q := s.queue qn
  let x : Started := { ring := n, desc := d, lim := failAt (dLen d) err }
  if q.enabled = false ∨ q.role ≤ 2 then .done s { status := 4 } else
  if s.waiter qn then .goesOn { s with hif := { s.hif with started := s.hif.started ++ [x] } } else
  match s.writeOn x with
  | (s1, some e, _) => .done s1 e
  | (s1, none, y) => .goesOn { s1 with hif := { s1.hif with started := s1.hif.started ++ [y] } }

/-- The oldest waiting QWRITE of each queue, of ring pair n or of a ring whose link went down. -/
def State.firstWaiters (s : State) (n : Nat) : List Started :=
  (s.hif.started.filter (fun x => dOp x.desc == 0x20 && (x.ring == n || x.ring == 64))).filter (fun x =>
    (s.hif.started.find? (fun y => dOp y.desc == 0x20 && dTarget y.desc == dTarget x.desc)) == some x)

/-- Whether a waiting QWRITE now finds room for its next packet. -/
def State.canGoOn (s : State) (x : Started) : Bool :=
  let qn := bits (dTarget x.desc) 14 0
  let s0 := s.settleReader qn
  let bs := (s0.received x.desc x.lim).drop x.off
  match packetLen 3 0 bs with
  | some n => (s0.queue qn).room n
  | none => true

/-- QWRITE (R289, R296, R306): a QWRITE of the ring that waited goes on once its queue has room; else the next descriptor
starts. -/
def State.qWriteRow (s : State) (n : Nat) (err : Option Nat) : State :=
  match (s.firstWaiters n).find? s.canGoOn with
  | some x =>
    let s1 := { s with hif := { s.hif with started := s.hif.started.erase x } }
    match s1.writeOn x with
    | (s2, some e, _) => s2.finish x.ring x.desc e
    | (s2, none, y) => { s2 with hif := { s2.hif with started := y :: s2.hif.started } }
  | none => s.startDesc n (· == 0x20) noWait (fun a d => a.qWrite n d err)

def execQwrite (t : BitVec 64) (n : Fin 64) (err : Option Nat) (s : State) : Host.Outcome State Fault Refusal :=
  .next ((s.at t).qWriteRow n.val err)

-- QREAD

/-- The oldest committed packets, whole, that fit in room bytes (R289, R307, R308): how many packets of the queue they
take up, with the void ones among them. -/
def fitting (now : Nat) : Nat → List Packet → List Packet
  | _, [] => []
  | room, p :: ps =>
    if p.bad then p :: fitting now room ps else
    match p.vis with
    | none => []
    | some v => if v ≤ now ∧ p.bytes.length ≤ room then p :: fitting now (room - p.bytes.length) ps else []

/-- The bytes that a packet gives a QREAD: none for a void one. -/
def Packet.given (p : Packet) : List Byte := if p.bad then [] else p.bytes

/-- The first byte of a list of packets of queue qn that cannot be read (R308, R359), with the codeword's address. -/
def State.firstHurt (s : State) (qn : Nat) : Nat → List Packet → Option (Nat × Nat)
  | _, [] => none
  | off, p :: ps =>
    match (if p.bad then none else s.hurt qn p) with
    | some i => some (off + i, (s.queue qn).base + (Config.packetAt qn p.first p.bytes.length + i) % (s.queue qn).size)
    | none => State.firstHurt s qn (off + p.given.length) ps

/-- How many packets at the head of a list lie wholly in the first k bytes. -/
def wholeIn : Nat → List Packet → Nat
  | _, [] => 0
  | k, p :: ps => if p.given.length ≤ k then wholeIn (k - p.given.length) ps + 1 else 0

/-- QREAD (R289, R292, R308): the packets moved leave the queue; one that a host error or an uncorrectable codeword cuts
stays. -/
def State.qRead (s : State) (d : List Byte) (err : Option Nat) : Ran :=
  let qn := bits (dTarget d) 14 0
  let q := s.queue qn
  if q.enabled = false ∨ q.role ≤ 3 then .done s { status := 4 } else
  let ps := fitting s.now (dLen d) q.pkts
  let bs := (ps.map Packet.given).flatten
  let h := s.firstHurt qn 0 ps
  let s0 := match h with
    | some (i, a) => if (failAt i err).isSome then s else s.memUe a (up8 s.now)
    | none => s
  let z := s0.toHost d bs err (h.map (·.1))
  let m := wholeIn z.2.count ps
  let s1 := z.1.setQueue qn { z.1.queue qn with pkts := (z.1.queue qn).pkts.drop m }
  .done s1 { z.2 with detail := ((ps.take m).filter (fun p => !p.bad)).length }

def execQread (t : BitVec 64) (n : Fin 64) (err : Option Nat) (s : State) : Host.Outcome State Fault Refusal :=
  .next ((s.at t).startDesc n.val (· == 0x21) noWait (fun a d => a.qRead d err))

-- QFLUSH

/-- QFLUSH (R314, R315): it completes when the flush takes effect; ROLE for a queue of a ring or in no role. -/
def State.qFlush (s : State) (n : Nat) (d : List Byte) : Ran :=
  let qn := bits (dTarget d) 14 0
  let q := s.queue qn
  if q.enabled = false ∨ q.role ≤ 2 then .done s { status := 4 } else
  let x : Started := { ring := n, desc := d }
  .goesOn (({ s with hif := { s.hif with started := s.hif.started ++ [x] } }).askFlush qn)

def execQflush (t : BitVec 64) (n : Fin 64) (err : Option Nat) (s : State) : Host.Outcome State Fault Refusal :=
  let _ := err
  .next ((s.at t).startDesc n.val (· == 0x22) noWait (fun a d => a.qFlush n.val d))

-- ETHSEND

/-- The port of an ETHSEND (R286): ACTIVEPORT takes the active one. -/
def State.ethPort (s : State) (d : List Byte) : Bool := if bit (dTarget d) 17 then s.ptp.onB else bit (dTarget d) 16

/-- The frame of an ETHSEND (R272, R290). -/
def State.ethFrame (s : State) (n : Nat) (d : List Byte) : Frame :=
  { portB := s.ethPort d, id := bits (dTarget d) 15 0, launch := leAt d 32 6 * 1000000000 + leAt d 38 4, ts := dTsReq d,
    bytes := Mem.reads s.hostMem (dHost d) (dLen d), ring := n, desc := d }

/-- A timed frame waits while its port's launch list is full (R272; notes/assumptions/37). -/
def waitList (s : State) (d : List Byte) : Bool :=
  dTimed d && decide (256 ≤ (s.ptp.list.filter (fun f => f.portB == s.ethPort d)).length)

/-- ETHSEND (R271, R272, R290): the frame leaves at once, joins the launch list, or is late. -/
def State.ethSend (s : State) (n : Nat) (d : List Byte) (err : Option Nat) : Ran :=
  let e := s.writeDone d err ((failAt (dLen d) err).getD (dLen d)) 0
  if e.status ≠ 0 then .done s e else
  let f := s.ethFrame n d
  if dTimed d = false then .goesOn (s.sendFrameNow f false)
  else if s.ptp.valid ∧ f.launch ≤ s.ptp.ns s.now then .goesOn (s.lateFrame f)
  else .goesOn (s.setPtp { s.ptp with list := s.ptp.list ++ [f] })

def execEthsend (t : BitVec 64) (n : Fin 64) (err : Option Nat) (s : State) : Host.Outcome State Fault Refusal :=
  .next ((s.at t).startDesc n.val (· == 0x30) waitList (fun a d => a.ethSend n.val d err))

end Sys2Proof.Machine
end

