-- ==== Sys2Proof/Machine/Dispatch.lean ====
section
/-! DEFINITION. The dispatch of a command to its meaning: one arm per constructor of Instr, each one direct call. -/

namespace Sys2Proof.Machine

def exec (i : Instr) (s : State) : Host.Outcome State Fault Refusal :=
  match i with
  | .mainsOn t temps fw0 fw1 recOk => Sys2Proof.Machine.execMainsOn t temps fw0 fw1 recOk s
  | .bootEntry t => Sys2Proof.Machine.execBootEntry t s
  | .bootComplete t hbmOk uc0 uc1 => Sys2Proof.Machine.execBootComplete t hbmOk uc0 uc1 s
  | .wakeSource t src => Sys2Proof.Machine.execWakeSource t src s
  | .wakeTimer => Sys2Proof.Machine.execWakeTimer s
  | .reqRun t holdWarn holdRef => Sys2Proof.Machine.execReqRun t holdWarn holdRef s
  | .reqHold t holdWarn holdRef => Sys2Proof.Machine.execReqHold t holdWarn holdRef s
  | .reqReady t holdWarn holdRef => Sys2Proof.Machine.execReqReady t holdWarn holdRef s
  | .reqCalibrate t holdWarn holdRef => Sys2Proof.Machine.execReqCalibrate t holdWarn holdRef s
  | .reqTest t holdWarn holdRef => Sys2Proof.Machine.execReqTest t holdWarn holdRef s
  | .reqDormant t key holdWarn holdRef => Sys2Proof.Machine.execReqDormant t key holdWarn holdRef s
  | .safeAck t key holdWarn holdRef => Sys2Proof.Machine.execSafeAck t key holdWarn holdRef s
  | .modeReset t key holdWarn holdRef => Sys2Proof.Machine.execModeReset t key holdWarn holdRef s
  | .modeTransitionDone t => Sys2Proof.Machine.execModeTransitionDone t s
  | .holdPause => Sys2Proof.Machine.execHoldPause s
  | .holdResume => Sys2Proof.Machine.execHoldResume s
  | .safeEntry t => Sys2Proof.Machine.execSafeEntry t s
  | .plyPolicyWrite t p w => Sys2Proof.Machine.execPlyPolicyWrite t p w s
  | .plyLocked p => Sys2Proof.Machine.execPlyLocked p s
  | .plyIdleExpiry p => Sys2Proof.Machine.execPlyIdleExpiry p s
  | .plyStopped p => Sys2Proof.Machine.execPlyStopped p s
  | .unitEnable t u w => Sys2Proof.Machine.execUnitEnable t u w s
  | .unitDisable t u w => Sys2Proof.Machine.execUnitDisable t u w s
  | .outputShutdownDone o => Sys2Proof.Machine.execOutputShutdownDone o s
  | .strandGated k => Sys2Proof.Machine.execStrandGated k s
  | .strandUngated k => Sys2Proof.Machine.execStrandUngated k s
  | .strandReset t k key => Sys2Proof.Machine.execStrandReset t k key s
  | .strandResetDone t k => Sys2Proof.Machine.execStrandResetDone t k s
  | .seqArm t c w => Sys2Proof.Machine.execSeqArm t c w s
  | .seqHaltWrite t c w => Sys2Proof.Machine.execSeqHaltWrite t c w s
  | .swtrig t c w => Sys2Proof.Machine.execSwtrig t c w s
  | .coreStart c => Sys2Proof.Machine.execCoreStart c s
  | .halt c => Sys2Proof.Machine.execHalt c s
  | .wait c => Sys2Proof.Machine.execWait c s
  | .trigwait c => Sys2Proof.Machine.execTrigwait c s
  | .trigTimeout c => Sys2Proof.Machine.execTrigTimeout c s
  | .syncstrand c => Sys2Proof.Machine.execSyncstrand c s
  | .play c chk => Sys2Proof.Machine.execPlay c chk s
  | .acq c chk => Sys2Proof.Machine.execAcq c chk s
  | .setstatic c => Sys2Proof.Machine.execSetstatic c s
  | .setfreq c => Sys2Proof.Machine.execSetfreq c s
  | .setphase c => Sys2Proof.Machine.execSetphase c s
  | .frameadd c => Sys2Proof.Machine.execFrameadd c s
  | .bight c => Sys2Proof.Machine.execBight c s
  | .endbight c => Sys2Proof.Machine.execEndbight c s
  | .call c => Sys2Proof.Machine.execCall c s
  | .ret c => Sys2Proof.Machine.execRet c s
  | .jump c => Sys2Proof.Machine.execJump c s
  | .jcond c => Sys2Proof.Machine.execJcond c s
  | .streamUnderrun r => Sys2Proof.Machine.execStreamUnderrun r s
  | .hbmHeadCopyDone t k e => Sys2Proof.Machine.execHbmHeadCopyDone t k e s
  | .automuteClose k o => Sys2Proof.Machine.execAutomuteClose k o s
  | .staticWrite t k c w => Sys2Proof.Machine.execStaticWrite t k c w s
  | .frameWrite t k f w => Sys2Proof.Machine.execFrameWrite t k f w s
  | .pdCommit t k c w => Sys2Proof.Machine.execPdCommit t k c w s
  | .zoneWrite t o w => Sys2Proof.Machine.execZoneWrite t o w s
  | .rangeWrite t o w => Sys2Proof.Machine.execRangeWrite t o w s
  | .rangeSettled o => Sys2Proof.Machine.execRangeSettled o s
  | .outComply t k c v => Sys2Proof.Machine.execOutComply t k c v s
  | .complyClear t k c w => Sys2Proof.Machine.execComplyClear t k c w s
  | .seqOwnWrite t k u w => Sys2Proof.Machine.execSeqOwnWrite t k u w s
  | .inputConfigWrite t k j w => Sys2Proof.Machine.execInputConfigWrite t k j w s
  | .bandSettled k j => Sys2Proof.Machine.execBandSettled k j s
  | .heldWriteApply t off => Sys2Proof.Machine.execHeldWriteApply t off s
  | .windowComplete k r ys clips parityOk => Sys2Proof.Machine.execWindowComplete k r ys clips parityOk s
  | .rawDrainDone t k j samples => Sys2Proof.Machine.execRawDrainDone t k j samples s
  | .discCommit t k r w => Sys2Proof.Machine.execDiscCommit t k r w s
  | .resultCommit t c => Sys2Proof.Machine.execResultCommit t c s
  | .earlyRelease t k => Sys2Proof.Machine.execEarlyRelease t k s
  | .decCommit t d w => Sys2Proof.Machine.execDecCommit t d w s
  | .importWrite t p k w => Sys2Proof.Machine.execImportWrite t p k w s
  | .sidebandFrame p frame f => Sys2Proof.Machine.execSidebandFrame p frame f s
  | .modnumWrite t w => Sys2Proof.Machine.execModnumWrite t w s
  | .directionEnable t d w => Sys2Proof.Machine.execDirectionEnable t d w s
  | .blockLock t l => Sys2Proof.Machine.execBlockLock t l s
  | .blockLockLoss t l x => Sys2Proof.Machine.execBlockLockLoss t l x s
  | .markBlock t q b => Sys2Proof.Machine.execMarkBlock t q b s
  | .trainBlock t l b => Sys2Proof.Machine.execTrainBlock t l b s
  | .hitchContainer d pathB c frame payload => Sys2Proof.Machine.execHitchContainer d pathB c frame payload s
  | .statusBlock t d b => Sys2Proof.Machine.execStatusBlock t d b s
  | .idleEntry t l => Sys2Proof.Machine.execIdleEntry t l s
  | .standbyCheck t d ok delay0 delay1 => Sys2Proof.Machine.execStandbyCheck t d ok delay0 delay1 s
  | .spliceRevert t d => Sys2Proof.Machine.execSpliceRevert t d s
  | .hchSplice t d w => Sys2Proof.Machine.execHchSplice t d w s
  | .hchRevert t d w => Sys2Proof.Machine.execHchRevert t d w s
  | .refLost t => Sys2Proof.Machine.execRefLost t s
  | .refValid t => Sys2Proof.Machine.execRefValid t s
  | .refRestored t => Sys2Proof.Machine.execRefRestored t s
  | .clkFault t cause => Sys2Proof.Machine.execClkFault t cause s
  | .refselWrite t w => Sys2Proof.Machine.execRefselWrite t w s
  | .epochWrite t hi => Sys2Proof.Machine.execEpochWrite t hi s
  | .syncArm t w => Sys2Proof.Machine.execSyncArm t w s
  | .syncDisarm t w => Sys2Proof.Machine.execSyncDisarm t w s
  | .syncPulse a64 => Sys2Proof.Machine.execSyncPulse a64 s
  | .chainLaunch t => Sys2Proof.Machine.execChainLaunch t s
  | .chainPulseSend => Sys2Proof.Machine.execChainPulseSend s
  | .skewcal t w => Sys2Proof.Machine.execSkewcal t w s
  | .skewcalDone t returns => Sys2Proof.Machine.execSkewcalDone t returns s
  | .wallset t w => Sys2Proof.Machine.execWallset t w s
  | .snap t w => Sys2Proof.Machine.execSnap t w s
  | .ptpEventMessage t k theta => Sys2Proof.Machine.execPtpEventMessage t k theta s
  | .announceTimeout t k => Sys2Proof.Machine.execAnnounceTimeout t k s
  | .ptpDomainReturn t => Sys2Proof.Machine.execPtpDomainReturn t s
  | .ethPortLoss t => Sys2Proof.Machine.execEthPortLoss t s
  | .ethRevert t => Sys2Proof.Machine.execEthRevert t s
  | .ethSplice t w => Sys2Proof.Machine.execEthSplice t w s
  | .ethRevertWrite t w => Sys2Proof.Machine.execEthRevertWrite t w s
  | .frameLaunch t portB => Sys2Proof.Machine.execFrameLaunch t portB s
  | .linkUp t speed width ecrc => Sys2Proof.Machine.execLinkUp t speed width ecrc s
  | .linkDown t perst => Sys2Proof.Machine.execLinkDown t perst s
  | .ringEnable t n w => Sys2Proof.Machine.execRingEnable t n w s
  | .ringDisable t n w => Sys2Proof.Machine.execRingDisable t n w s
  | .doorbellPoll => Sys2Proof.Machine.execDoorbellPoll s
  | .hifKick t w => Sys2Proof.Machine.execHifKick t w s
  | .doorbellRead t n recordOk fetchOk => Sys2Proof.Machine.execDoorbellRead t n recordOk fetchOk s
  | .regwrite t n err => Sys2Proof.Machine.execRegwrite t n err s
  | .seqload t n err => Sys2Proof.Machine.execSeqload t n err s
  | .envload t n err => Sys2Proof.Machine.execEnvload t n err s
  | .envtable t n err => Sys2Proof.Machine.execEnvtable t n err s
  | .kernel t n err => Sys2Proof.Machine.execKernel t n err s
  | .truthtable t n err => Sys2Proof.Machine.execTruthtable t n err s
  | .hbmxfer t n err => Sys2Proof.Machine.execHbmxfer t n err s
  | .qwrite t n err => Sys2Proof.Machine.execQwrite t n err s
  | .qread t n err => Sys2Proof.Machine.execQread t n err s
  | .qflush t n err => Sys2Proof.Machine.execQflush t n err s
  | .ethsend t n err => Sys2Proof.Machine.execEthsend t n err s
  | .nop t n err => Sys2Proof.Machine.execNop t n err s
  | .completionEntry t n => Sys2Proof.Machine.execCompletionEntry t n s
  | .queueEnable t w => Sys2Proof.Machine.execQueueEnable t w s
  | .queueDisable t w => Sys2Proof.Machine.execQueueDisable t w s
  | .queueDisableDone t q => Sys2Proof.Machine.execQueueDisableDone t q s
  | .queueFlush t w => Sys2Proof.Machine.execQueueFlush t w s
  | .flushDone t q => Sys2Proof.Machine.execFlushDone t q s
  | .monSample n raw => Sys2Proof.Machine.execMonSample n raw s
  | .triggerEdge t j level held => Sys2Proof.Machine.execTriggerEdge t j level held s
  | .triggerOutWrite t x w => Sys2Proof.Machine.execTriggerOutWrite t x w s
  | .eventWindowEnd t v => Sys2Proof.Machine.execEventWindowEnd t v s
  | .calDue t x => Sys2Proof.Machine.execCalDue t x s
  | .calStepStart t x refOk => Sys2Proof.Machine.execCalStepStart t x refOk s
  | .calForced t x => Sys2Proof.Machine.execCalForced t x s
  | .calStepEnd x => Sys2Proof.Machine.execCalStepEnd x s
  | .calCorrection t x v => Sys2Proof.Machine.execCalCorrection t x v s
  | .calApplyBoundary t x => Sys2Proof.Machine.execCalApplyBoundary t x s
  | .fgCalDone t => Sys2Proof.Machine.execFgCalDone t s
  | .scrubRead t bad => Sys2Proof.Machine.execScrubRead t bad s
  | .flitCrcFail t p failures => Sys2Proof.Machine.execFlitCrcFail t p failures s
  | .diemarkWrite t w => Sys2Proof.Machine.execDiemarkWrite t w s
  | .memTestStart t w => Sys2Proof.Machine.execMemTestStart t w s
  | .memTestAbort t w => Sys2Proof.Machine.execMemTestAbort t w s
  | .memTestEnd t fails first symbol => Sys2Proof.Machine.execMemTestEnd t fails first symbol s
  | .pwrFail t => Sys2Proof.Machine.execPwrFail t s
  | .mainsRestored t => Sys2Proof.Machine.execMainsRestored t s
  | .railFault t rail => Sys2Proof.Machine.execRailFault t rail s
  | .dieSensorRead t temps => Sys2Proof.Machine.execDieSensorRead t temps s
  | .thermistorRead t temps => Sys2Proof.Machine.execThermistorRead t temps s
  | .fanFail t f => Sys2Proof.Machine.execFanFail t f s
  | .journalRecord t cut => Sys2Proof.Machine.execJournalRecord t cut s
  | .jrnselWrite t w => Sys2Proof.Machine.execJrnselWrite t w s
  | .watchdogExpiry t pc => Sys2Proof.Machine.execWatchdogExpiry t pc s
  | .mcRestartWrite t key pc => Sys2Proof.Machine.execMcRestartWrite t key pc s
  | .mcRestart t fw0 fw1 => Sys2Proof.Machine.execMcRestart t fw0 fw1 s
  | .imgBegin t flashOk => Sys2Proof.Machine.execImgBegin t flashOk s
  | .imgData t flashOk => Sys2Proof.Machine.execImgData t flashOk s
  | .imgCommit t chk flashOk => Sys2Proof.Machine.execImgCommit t chk flashOk s
  | .imgAbort t => Sys2Proof.Machine.execImgAbort t s
  | .svnCommit t => Sys2Proof.Machine.execSvnCommit t s
  | .recRead t => Sys2Proof.Machine.execRecRead t s
  | .cageRead t => Sys2Proof.Machine.execCageRead t s
  | .profileWrite t off w => Sys2Proof.Machine.execProfileWrite t off w s
  | .rcRead t off => Sys2Proof.Machine.execRcRead t off s
  | .w1cWrite t off w => Sys2Proof.Machine.execW1cWrite t off w s
  | .reg64LowRead t off => Sys2Proof.Machine.execReg64LowRead t off s
  | .reg64HighWrite t off w => Sys2Proof.Machine.execReg64HighWrite t off w s
  | .registerWrite t off w be => Sys2Proof.Machine.execRegisterWrite t off w be s
  | .holdUpRunsOut => Sys2Proof.Machine.execHoldUpRunsOut s
  | .rampComplete x => Sys2Proof.Machine.execRampComplete x s
  | .sramScrub t m word e => Sys2Proof.Machine.execSramScrub t m word e s
  | .d2dRetrainDone t p => Sys2Proof.Machine.execD2dRetrainDone t p s
  | .slotFrameSend frame => Sys2Proof.Machine.execSlotFrameSend frame s
  | .ethPortUp t portB => Sys2Proof.Machine.execEthPortUp t portB s

end Sys2Proof.Machine
end

