-- ==== Sys2Proof/WellFormed.lean ====
section
/-! DEFINITION. Which commands a sender can form: the lists that a command carries have the lengths of what the manual
measures or moves, and its numbers lie in their ranges. The meanings are total, so nothing rests on this check; it says
which commands stand for something the hardware can meet. -/

namespace Sys2Proof

/-- The microcode plaintext of an image: at most 327,712 bytes (R404). -/
def ImageCheck.wellFormed (x : ImageCheck) : Bool := decide (x.plain.length ≤ 327712)

/-- Words of 8 bytes in an SRAM (R70, R103, R104, R170); the others are not bounded by the manual. -/
def SramId.words : SramId → Option Nat
  | .seqSram _ => some (2 ^ 17)
  | .envSram _ => some (2 ^ 19)
  | .envTable _ => some 8192
  | .kernelMem _ => some 65536
  | .tables _ => none
  | .staging _ => none
  | .burst => some (2 ^ 20)

/-- A host access fails within a buffer, which has at most 2^30 bytes (R285). -/
def errOk (err : Option Nat) : Bool :=
  match err with
  | some e => decide (e < 2 ^ 30)
  | none => true

/-- The check of one command. -/
def Instr.wellFormed : Instr → Bool
  | .mainsOn _ temps fw0 fw1 _ => temps.length == 22 && fw0.wellFormed && fw1.wellFormed
  | .bootComplete _ _ uc0 uc1 => uc0.wellFormed && uc1.wellFormed
  | .mcRestart _ fw0 fw1 => fw0.wellFormed && fw1.wellFormed
  | .imgCommit _ chk _ => chk.wellFormed
  | .dieSensorRead _ temps => temps.length == 22
  | .thermistorRead _ temps => temps.length == 8
  | .rawDrainDone _ _ _ samples => decide (samples.length ≤ 65536)
  | .scrubRead _ bad => decide bad.Nodup
  | .sramScrub _ m word _ => (match m.words with | some n => decide (word < n) | none => true)
  | .hitchContainer _ _ _ frame _ => decide (frame < 2 ^ 64)
  | .sidebandFrame _ frame _ => decide (frame < 2 ^ 64)
  | .slotFrameSend frame => decide (frame < 2 ^ 64)
  | .syncPulse a64 => decide (a64 < 2 ^ 70)
  | .regwrite _ _ err => errOk err
  | .seqload _ _ err => errOk err
  | .envload _ _ err => errOk err
  | .envtable _ _ err => errOk err
  | .kernel _ _ err => errOk err
  | .truthtable _ _ err => errOk err
  | .hbmxfer _ _ err => errOk err
  | .qwrite _ _ err => errOk err
  | .qread _ _ err => errOk err
  | .qflush _ _ err => errOk err
  | .ethsend _ _ err => errOk err
  | .nop _ _ err => errOk err
  | _ => true

end Sys2Proof
end

