-- ==== Sys2Proof/Safety.lean ====
section
/-! DEFINITION. What holds of every state a claim is about: module time is a 64-bit count (R8), and the memories keep
their canonical form; and what it means that a command changes only some parts of the state. -/

namespace Sys2Proof

open Sys2Proof.Machine

/-- The memories of the module and the host's buffers are in canonical form. -/
def memOk (s : State) : Bool :=
  Mem.wf s.hbm && Mem.wf s.seqSram && Mem.wf s.ucode && Mem.wf s.envSram && Mem.wf s.kernel && Mem.wf s.envTab && Mem.wf s.hostMem

/-- Module time is a 64-bit count (R8). -/
def timeOk (s : State) : Prop := s.now < 2 ^ 64

/-- Neither a lost reference nor the rate-of-rise warning stands, so no cause for HOLD but the host's can (R47). -/
def noHoldCause (s : State) : Prop := s.sync.lost = none ∧ s.thm.warn = false

/-- Strand k takes a write of its registers at once: it is ungated and no reset of it is in progress (R421, R424). -/
def strandTakes (s : State) (k : Nat) : Prop := (s.strand k).gate = .ungated ∧ (s.strand k).rst = none

/-- The register that holds a unit's ENABLE (R57, R113, R155, R182, R321). -/
def unitReg : UnitId → RegId
  | .tone k n => .outToneCtl k n
  | .rf k o => .outRfOut k o
  | .bb k c => .outBbOut k c
  | .input k i => .acqInCtl k i
  | .monitor n => .monCtl n

/-- A unit's ENABLE bit. -/
def enableOf (s : State) : UnitId → Nat
  | .tone k n => s.fld (.outToneCtl k n) 31 31
  | .rf k o => s.fld (.outRfOut k o) 0 0
  | .bb k c => s.fld (.outBbOut k c) 0 0
  | .input k i => s.fld (.acqInCtl k i) 0 0
  | .monitor n => s.fld (.monCtl n) 0 0

/-- The strand whose registers hold a unit's ENABLE; a monitor input's stands at the hub. -/
def unitStrand : UnitId → Option Nat
  | .tone k _ => some k
  | .rf k _ => some k
  | .bb k _ => some k
  | .input k _ => some k
  | .monitor _ => none

/-- The parts of the state, one for each field of `State`. -/
inductive Part where
  | pending | now | free | rdata | supply | half | regs | latch | lows | held | frameW | frameLog | flags | counts | flagAt | recent
  | ev | queues | mode | plies | strands | cores | units | outs | inps | rtones | dec | hch | badWords | convs | engines
  | thm | pwr | mc | mem | sync | ptp | hif | mon | tio | hbm | seqSram | ucode | envSram | kernel | envTab | hostMem
  deriving DecidableEq, Repr

/-- The part has the same value in both states. -/
def Part.same (s t : State) : Part → Prop
  | .pending => t.pending = s.pending | .now => t.now = s.now | .free => t.free = s.free | .rdata => t.rdata = s.rdata
  | .supply => t.supply = s.supply | .half => t.half = s.half | .regs => t.regs = s.regs | .latch => t.latch = s.latch
  | .lows => t.lows = s.lows | .held => t.held = s.held | .frameW => t.frameW = s.frameW
  | .frameLog => t.frameLog = s.frameLog | .flags => t.flags = s.flags
  | .counts => t.counts = s.counts | .flagAt => t.flagAt = s.flagAt | .recent => t.recent = s.recent | .ev => t.ev = s.ev
  | .queues => t.queues = s.queues | .mode => t.mode = s.mode | .plies => t.plies = s.plies | .strands => t.strands = s.strands
  | .cores => t.cores = s.cores | .units => t.units = s.units | .outs => t.outs = s.outs | .inps => t.inps = s.inps
  | .rtones => t.rtones = s.rtones | .dec => t.dec = s.dec | .hch => t.hch = s.hch | .badWords => t.badWords = s.badWords
  | .convs => t.convs = s.convs | .engines => t.engines = s.engines | .thm => t.thm = s.thm | .pwr => t.pwr = s.pwr
  | .mc => t.mc = s.mc | .mem => t.mem = s.mem | .sync => t.sync = s.sync | .ptp => t.ptp = s.ptp | .hif => t.hif = s.hif
  | .mon => t.mon = s.mon | .tio => t.tio = s.tio | .hbm => t.hbm = s.hbm | .seqSram => t.seqSram = s.seqSram
  | .ucode => t.ucode = s.ucode | .envSram => t.envSram = s.envSram | .kernel => t.kernel = s.kernel | .envTab => t.envTab = s.envTab
  | .hostMem => t.hostMem = s.hostMem

/-- `t` differs from `s` in no part but those listed, and module time that was a 64-bit count still is one (R8): the frame of
a command or of an operation. -/
structure Touches (l : List Part) (s t : State) : Prop where
  keeps : ∀ p, l.contains p = false → p.same s t
  time : timeOk s → timeOk t

/-- A state reached from s by carrying out what is due, always the earliest, and by forming the outputs' samples: nothing that
a command does (notes/assumptions/9). -/
inductive Settled (s : State) : State → Prop
  | refl : Settled s s
  | due {a : State} {x : Nat × Due} (h : Settled s a) (hx : earliest a.agenda = some x) : Settled s (a.doDue x.1 x.2)
  | outs {a : State} (t : Nat) (h : Settled s a) : Settled s (a.settleOuts t)

/-- `t` differs only in the listed parts from a state in which what was due in `s` has been done. -/
def Based (l : List Part) (s t : State) : Prop := ∃ a, Settled s a ∧ Touches l a t

/-- The parts that an event changes where it is reported: its flag, the event queue and the record's words of HBM (R298,
R427). -/
def eventParts : List Part := [.flags, .counts, .flagAt, .recent, .ev, .queues, .mem]

/-- The parts of the state that each command can change beside what falls due by then; the queue of commands and the variant are
in no list. -/
def frameOf : Instr → List Part
  | .mainsOn _ _ _ _ _ => .now :: (eventParts ++ [.supply, .regs, .mode, .thm, .pwr, .mc])
  | .bootEntry _ => .now :: (eventParts ++ [.regs, .latch, .lows, .held, .frameW, .frameLog, .mode, .plies, .strands, .cores, .units, .outs, .inps, .rtones, .dec, .hch, .badWords, .convs, .engines, .pwr, .mc, .sync, .ptp, .hif, .mon, .tio, .hbm, .seqSram, .ucode, .envSram, .kernel, .envTab])
  | .bootComplete _ _ _ _ => .now :: (eventParts ++ [.free, .regs, .held, .frameLog, .mode, .plies, .strands, .cores, .units, .outs, .inps, .rtones, .dec, .hch, .convs, .engines, .pwr, .mc, .sync, .ucode])
  | .wakeSource _ _
  | .wakeTimer
  | .fgCalDone _ => [.now, .mode]
  | .reqRun _ _ _
  | .reqHold _ _ _
  | .reqReady _ _ _
  | .reqCalibrate _ _ _
  | .reqTest _ _ _
  | .reqDormant _ _ _ _
  | .safeAck _ _ _ _
  | .modeReset _ _ _ _
  | .holdPause
  | .holdResume => .now :: (eventParts ++ [.regs, .frameLog, .mode, .strands, .cores, .units, .outs, .inps, .rtones])
  | .modeTransitionDone _ => .now :: (eventParts ++ [.free, .regs, .latch, .lows, .held, .frameW, .frameLog, .mode, .plies, .strands, .cores, .units, .outs, .inps, .rtones, .dec, .hch, .badWords, .convs, .engines, .pwr, .mc, .sync, .ptp, .hif, .mon, .tio, .hbm, .seqSram, .ucode, .envSram, .kernel, .envTab])
  | .safeEntry _ => .now :: (eventParts ++ [.regs, .held, .frameLog, .mode, .plies, .strands, .cores, .units, .outs, .inps, .rtones, .dec, .badWords, .engines, .sync, .seqSram, .ucode, .envSram, .kernel, .envTab])
  | .plyPolicyWrite _ _ _ => .now :: (eventParts ++ [.regs, .plies])
  | .plyLocked _ => .now :: (eventParts ++ [.plies, .strands, .units, .rtones])
  | .plyIdleExpiry _ => .now :: (eventParts ++ [.plies, .cores, .units, .outs, .inps, .rtones, .convs, .engines])
  | .plyStopped _ => .now :: (eventParts ++ [.plies])
  | .unitEnable _ _ _
  | .unitDisable _ _ _ => .now :: (eventParts ++ [.regs, .held, .plies, .strands, .cores, .units, .outs, .inps, .rtones, .dec, .convs, .engines, .mon])
  | .outputShutdownDone _
  | .automuteClose _ _ => [.now, .outs]
  | .strandGated _ => .now :: (eventParts ++ [.plies, .strands, .cores, .units, .outs, .inps, .rtones])
  | .strandUngated _
  | .strandResetDone _ _ => .now :: (eventParts ++ [.regs, .lows, .held, .frameW, .frameLog, .plies, .strands, .cores, .units, .outs, .inps, .rtones, .dec, .convs, .engines])
  | .strandReset _ _ _ => .now :: (eventParts ++ [.strands, .cores, .units, .outs, .inps, .rtones, .convs, .engines])
  | .seqArm _ _ _
  | .seqHaltWrite _ _ _
  | .swtrig _ _ _ => .now :: (eventParts ++ [.regs, .frameLog, .plies, .strands, .cores, .units, .outs, .inps, .rtones, .dec, .convs, .engines])
  | .coreStart _
  | .halt _
  | .wait _
  | .trigwait _
  | .play _ _
  | .acq _ _
  | .setstatic _
  | .setfreq _
  | .setphase _
  | .frameadd _
  | .bight _
  | .endbight _
  | .call _
  | .ret _
  | .jump _
  | .jcond _ => .now :: (eventParts ++ [.regs, .frameLog, .strands, .cores, .units, .outs, .inps, .rtones])
  | .trigTimeout _ => .now :: (eventParts ++ [.cores])
  | .syncstrand _
  | .streamUnderrun _ => .now :: (eventParts ++ [.regs, .frameW, .frameLog, .strands, .cores, .units, .outs, .inps, .rtones])
  | .hbmHeadCopyDone _ _ _ => [.now, .units, .envSram, .envTab]
  | .staticWrite _ _ _ _
  | .discCommit _ _ _ _ => .now :: (eventParts ++ [.regs, .plies, .strands, .cores, .units, .outs, .inps, .rtones, .dec, .convs, .engines])
  | .frameWrite _ _ _ _ => .now :: (eventParts ++ [.regs, .frameW, .frameLog, .plies, .strands, .cores, .units, .outs, .inps, .rtones, .dec, .convs, .engines])
  | .pdCommit _ _ _ _
  | .zoneWrite _ _ _
  | .rangeWrite _ _ _
  | .complyClear _ _ _ _
  | .seqOwnWrite _ _ _ _
  | .inputConfigWrite _ _ _ _ => .now :: (eventParts ++ [.regs, .held, .plies, .strands, .cores, .units, .outs, .inps, .rtones, .dec, .convs, .engines])
  | .rangeSettled _ => [.now, .regs, .outs, .convs]
  | .outComply _ _ _ _ => .now :: (eventParts ++ [.cores, .units, .outs])
  | .bandSettled _ _ => [.now, .inps]
  | .heldWriteApply _ _ => .now :: (eventParts ++ [.regs, .held, .plies, .strands, .cores, .units, .outs, .inps, .rtones, .dec, .convs, .engines, .tio])
  | .windowComplete _ _ _ _ _ => .now :: (eventParts ++ [.strands, .cores, .inps, .rtones, .dec])
  | .rawDrainDone _ _ _ _ => [.now, .counts, .recent, .queues, .inps]
  | .resultCommit _ _
  | .earlyRelease _ _ => .now :: (eventParts ++ [.strands, .cores])
  | .decCommit _ _ _ => [.now, .regs, .dec]
  | .importWrite _ _ _ _ => [.now, .regs, .held, .dec]
  | .sidebandFrame _ _ _ => .now :: (eventParts ++ [.cores, .dec])
  | .modnumWrite _ _ => [.now, .regs, .held]
  | .directionEnable _ _ _
  | .hchSplice _ _ _
  | .hchRevert _ _ _ => .now :: (eventParts ++ [.regs, .dec, .hch])
  | .blockLock _ _
  | .blockLockLoss _ _ _
  | .markBlock _ _ _
  | .trainBlock _ _ _
  | .hitchContainer _ _ _ _ _
  | .standbyCheck _ _ _ _ _
  | .spliceRevert _ _ => .now :: (eventParts ++ [.dec, .hch])
  | .statusBlock _ _ _
  | .idleEntry _ _
  | .slotFrameSend _ => [.now, .hch]
  | .refLost _
  | .refRestored _ => .now :: (eventParts ++ [.mode, .cores, .units, .outs, .sync])
  | .refValid _
  | .chainPulseSend => [.now, .sync]
  | .clkFault _ _ => .now :: (eventParts ++ [.mode, .strands, .cores, .units, .outs, .inps, .rtones, .convs, .engines, .pwr, .mc, .sync])
  | .refselWrite _ _
  | .syncArm _ _
  | .syncDisarm _ _
  | .skewcal _ _ => .now :: (eventParts ++ [.regs, .held, .mode, .cores, .units, .outs, .sync])
  | .epochWrite _ _ => [.now, .regs, .lows, .held]
  | .syncPulse _
  | .chainLaunch _ => .now :: (eventParts ++ [.regs, .mode, .plies, .strands, .outs, .inps, .hch, .convs, .thm, .mc, .sync, .ptp, .hif])
  | .skewcalDone _ _ => .now :: (eventParts ++ [.sync])
  | .wallset _ _
  | .snap _ _
  | .ethSplice _ _
  | .ethRevertWrite _ _ => .now :: (eventParts ++ [.regs, .ptp, .hif])
  | .ptpEventMessage _ _ _
  | .frameLaunch _ _
  | .ethsend _ _ _ => .now :: (eventParts ++ [.ptp, .hif])
  | .announceTimeout _ _
  | .ptpDomainReturn _
  | .ethPortLoss _
  | .ethRevert _
  | .ethPortUp _ _ => .now :: (eventParts ++ [.ptp])
  | .linkUp _ _ _ _
  | .doorbellRead _ _ _ _
  | .nop _ _ _ => .now :: (eventParts ++ [.hif])
  | .linkDown _ _ => .now :: (eventParts ++ [.regs, .latch, .lows, .ptp, .hif])
  | .ringEnable _ _ _
  | .ringDisable _ _ _ => .now :: (eventParts ++ [.regs, .hif])
  | .doorbellPoll
  | .hifKick _ _ => [.now, .hif]
  | .regwrite _ _ _
  | .profileWrite _ _ _
  | .w1cWrite _ _ _
  | .reg64HighWrite _ _ _
  | .registerWrite _ _ _ _ => .now :: (eventParts ++ [.free, .regs, .lows, .held, .frameW, .frameLog, .mode, .plies, .strands, .cores, .units, .outs, .inps, .rtones, .dec, .hch, .convs, .engines, .pwr, .mc, .sync, .ptp, .hif, .mon, .tio])
  | .seqload _ _ _ => .now :: (eventParts ++ [.badWords, .hif, .seqSram, .hostMem])
  | .envload _ _ _ => .now :: (eventParts ++ [.units, .badWords, .hif, .envSram, .hostMem])
  | .envtable _ _ _ => .now :: (eventParts ++ [.badWords, .hif, .envTab, .hostMem])
  | .kernel _ _ _ => .now :: (eventParts ++ [.rtones, .badWords, .hif, .kernel, .hostMem])
  | .truthtable _ _ _ => .now :: (eventParts ++ [.regs, .dec, .hif, .hostMem])
  | .hbmxfer _ _ _ => .now :: (eventParts ++ [.units, .hif, .hbm, .hostMem])
  | .qwrite _ _ _
  | .qflush _ _ _
  | .queueEnable _ _
  | .queueDisable _ _
  | .queueDisableDone _ _
  | .queueFlush _ _
  | .flushDone _ _ => .now :: (eventParts ++ [.units, .hif])
  | .qread _ _ _
  | .completionEntry _ _ => .now :: (eventParts ++ [.hif, .hostMem])
  | .monSample _ _ => .now :: (eventParts ++ [.mon])
  | .triggerEdge _ _ _ _ => .now :: (eventParts ++ [.cores, .dec, .tio])
  | .triggerOutWrite _ _ _ => [.now, .regs, .held, .tio]
  | .eventWindowEnd _ _ => .now :: (eventParts ++ [.tio])
  | .calDue _ _
  | .calApplyBoundary _ _
  | .rampComplete _ => [.now, .convs]
  | .calStepStart _ _ _
  | .calForced _ _ => .now :: (eventParts ++ [.regs, .frameW, .frameLog, .strands, .cores, .units, .outs, .inps, .rtones, .convs, .engines])
  | .calStepEnd _ => .now :: (eventParts ++ [.cores, .units, .outs, .inps, .rtones, .convs, .engines])
  | .calCorrection _ _ _ => .now :: (eventParts ++ [.regs, .convs, .engines])
  | .scrubRead _ _ => .now :: (eventParts ++ [.regs, .pwr])
  | .flitCrcFail _ _ _ => .now :: (eventParts ++ [.plies, .units])
  | .diemarkWrite _ _
  | .jrnselWrite _ _ => [.now, .regs, .pwr]
  | .memTestStart _ _
  | .memTestAbort _ _ => [.now, .regs, .mem]
  | .memTestEnd _ _ _ _ => [.now, .counts, .recent, .mode, .strands, .badWords, .mem, .hbm, .seqSram, .envSram, .kernel]
  | .pwrFail _
  | .mainsRestored _
  | .railFault _ _
  | .holdUpRunsOut => .now :: (eventParts ++ [.supply, .regs, .latch, .lows, .held, .frameW, .frameLog, .mode, .plies, .strands, .cores, .units, .outs, .inps, .rtones, .dec, .hch, .badWords, .convs, .engines, .thm, .pwr, .mc, .sync, .ptp, .hif, .mon, .tio, .hbm, .seqSram, .ucode, .envSram, .kernel, .envTab])
  | .dieSensorRead _ _
  | .thermistorRead _ _ => .now :: (eventParts ++ [.mode, .strands, .cores, .units, .outs, .inps, .rtones, .convs, .engines, .thm, .pwr, .mc])
  | .fanFail _ _ => .now :: eventParts
  | .journalRecord _ _ => [.now, .free, .pwr]
  | .watchdogExpiry _ _
  | .mcRestartWrite _ _ _ => [.now, .convs, .pwr, .mc]
  | .mcRestart _ _ _ => .now :: (eventParts ++ [.mc])
  | .imgBegin _ _
  | .imgData _ _
  | .imgAbort _
  | .svnCommit _ => [.now, .mc]
  | .imgCommit _ _ _
  | .recRead _
  | .cageRead _ => [.now, .regs, .mc]
  | .rcRead _ _
  | .reg64LowRead _ _ => [.now, .free, .rdata, .latch, .counts, .recent]
  | .sramScrub _ _ _ _ => .now :: (eventParts ++ [.strands, .badWords])
  | .d2dRetrainDone _ _ => [.now, .queues, .plies, .units]

-- modes

/-- A mode request that meets state s is discarded (R42): the mode stays, no transition begins and none is held, and
MODE_REFUSED is written at the next fabric-cycle boundary. -/
def refused (s u : State) : Prop :=
  u.mode.mode = s.mode.mode ∧ u.mode.trans = none ∧ u.mode.pend = none ∧
    ∃ a : State, Touches [.regs, .mode] s a ∧ Touches [.mode] (a.raise .modeRefused 0 0 (up8 s.now) []) u

-- which registers change

/-- The registers that a write of register r can change: r itself, those that its profile sets, the one that carries its
profile field (R17), the low word of a 64-bit register (R11), and the import table under an import profile (R219). -/
def writesOf (r : RegId) : List RegId :=
  r :: ((profileSettings r 0 ++ profileSettings r 1).map Setting.reg ++ r.profileOf.toList ++
    (match r with
     | .decCtl => (List.range 4).flatMap (fun p => (List.range 128).map (fun k => .decImport p k))
     | _ => r.lowOf.toList))

/-- The parts of the state that what falls due can change (notes/assumptions/9). -/
def dueParts : List Part :=
  [.now, .regs, .frameW, .frameLog, .flags, .counts, .flagAt, .recent, .ev, .queues, .strands, .cores, .units, .outs, .inps,
   .rtones, .mem]

/-- A register that nothing that falls due changes: neither a static level nor a frame (notes/assumptions/9). -/
def hushed (r : RegId) : Prop :=
  (∀ k c, (RegId.outStatic k c).off ≠ r.off) ∧ ∀ k f, (RegId.outFrame k f).off ≠ r.off

/-- No register changes but those listed. -/
structure RegsKept (L : List RegId) (s t : State) : Prop where
  keeps : ∀ r : RegId, (∀ x ∈ L, x.off ≠ r.off) → t.reg r = s.reg r

/-- Registers whose writes have rows of their own: what their writes change beside them depends on the state. -/
def ownRow : RegId → Bool
  | .modeCtl => true
  | .seqCtl _ => true
  | .outFrame _ _ => true
  | .outRfOut _ _ => true
  | .tioOutCtl _ => true
  | .tioEwCtl _ => true
  | _ => false

/-- The registers that a write of the word at a BAR0 offset can change. -/
def regsAt (off : Nat) : Option (List RegId) :=
  match RegId.ofOff off with
  | none => some []
  | some r => if ownRow r then none else some (writesOf r)

/-- The registers that a command can change, where the command alone says so; none for the commands whose register
effects depend on the state: mode requests and transitions, sequence words, writes that wait, reads that let waiting
frame writes act, and resets. -/
def regsOf : Instr → Option (List RegId)
  | .plyPolicyWrite _ p _ => some [.plyClkCtl p]
  | .unitEnable _ u _ => some (writesOf (unitReg u))
  | .unitDisable _ u _ => some (writesOf (unitReg u))
  | .discCommit _ k r _ => some (writesOf (.discCtl k r))
  | .staticWrite _ k c _ => some [.outStatic k c]
  | .pdCommit _ k c _ => some (writesOf (.outBbCtl k c))
  | .zoneWrite _ o _ => some (writesOf (ctlReg o))
  | .rangeWrite _ o _ => some [outReg (outLocal o).1 (outLocal o).2]
  | .rangeSettled o => some [outReg (outLocal o).1 (outLocal o).2]
  | .complyClear _ k c _ => some [.outBbOut k c]
  | .seqOwnWrite _ k u _ => some [.seqOwn k u]
  | .inputConfigWrite _ k i _ => some (writesOf (.acqInCtl k i))
  | .decCommit _ d _ => some [.decDctl d]
  | .importWrite _ p k _ => some [.decImport p k, .decCtl]
  | .modnumWrite _ _ => some [.hchCtl]
  | .directionEnable _ d _ => some (writesOf (.hchDirCtl d))
  | .hchSplice _ d _ => some (writesOf (.hchDirCtl d))
  | .hchRevert _ d _ => some (writesOf (.hchDirCtl d))
  | .refselWrite _ _ => some [.syncCtl]
  | .syncArm _ _ => some [.syncCtl]
  | .syncDisarm _ _ => some [.syncCtl]
  | .skewcal _ _ => some [.syncCtl]
  | .epochWrite _ _ => some [.syncEpochLo, .syncEpochHi]
  | .syncPulse _ => some [.syncEpochLo, .syncEpochHi]
  | .chainLaunch _ => some [.syncEpochLo, .syncEpochHi]
  | .wallset _ _ => some (writesOf .ptpCtl)
  | .snap _ _ => some (writesOf .ptpCtl)
  | .ethSplice _ _ => some (writesOf .ptpCtl)
  | .ethRevertWrite _ _ => some (writesOf .ptpCtl)
  | .ringEnable _ n _ => some [.hifRingCtl n]
  | .ringDisable _ n _ => some [.hifRingCtl n]
  | .triggerOutWrite _ x _ => some [trigReg x]
  | .calCorrection _ _ _ => some [.calLastDefer]
  | .scrubRead _ _ => some [.memDieMark]
  | .diemarkWrite _ _ => some [.memDieMark]
  | .jrnselWrite _ _ => some [.pwrJrnSel]
  | .memTestStart _ _ => some [.memTestCtl]
  | .memTestAbort _ _ => some [.memTestCtl]
  | .imgCommit _ _ _ => some [.mcMbArg]
  | .recRead _ => some ((List.range 512).map .mcMbData)
  | .cageRead _ => some ((List.range 32).map .mcMbData)
  | .profileWrite _ off _ => regsAt off.toNat
  | .w1cWrite _ off _ => regsAt off.toNat
  | .reg64HighWrite _ off _ => regsAt off.toNat
  | .registerWrite _ off _ _ => regsAt off.toNat
  | c => if (frameOf c).contains .regs then none else some []

-- bytes and the reach of a word

/-- Every byte outside the n bytes from address lo on reads in m' as it reads in m. -/
def KeptOut (lo n : Nat) (m m' : Mem) : Prop := ∀ a, a < lo ∨ lo + n ≤ a → Mem.read m' a = Mem.read m a

/-- A core but for what others may note on it: stamps that mark its shots, saturated samples reported in them, and the ends of the
segments that its deferral samples (R88, R97, R118). -/
def quiet (x : Core) : Core :=
  { x with marks := [], shots := x.shots.map (fun y => { y with clip := [] }),
           defer := x.defer.map (fun d => { d with ends := [] }) }

/-- What a word of core c leaves alone: every other core but for what may be noted on it, and every unit, output and read-out
tone whose index is not listed. -/
structure WordReach (c : Nat) (U O R : List Nat) (s t : State) : Prop where
  cores : ∀ e, e ≠ c → quiet (t.core e) = quiet (s.core e)
  units : ∀ x, x ∉ U → Tab.get t.units x {} = Tab.get s.units x {}
  outs : ∀ x, x ∉ O → Tab.get t.outs x {} = Tab.get s.outs x {}
  rtones : ∀ x, x ∉ R → Tab.get t.rtones x {} = Tab.get s.rtones x {}

-- the sequencer

/-- The next word of core c (R61, R91), 0 where there is none. -/
def nextWord (s : State) (c : Nat) : Nat := match (s.fetch c).1 with | .word w => w | _ => 0

/-- The timing of the next word of core c (R67 to R69). -/
def nextTim (s : State) (c : Nat) : Tim := s.timing (s.core c) (nextWord s c)

/-- In a state in which what was due before has been done, core c issues its next word, a legal word with opcode op (R67, R73,
R74, R76). -/
def issues (s : State) (c op : Nat) : Prop :=
  (s.core c).st = .running ∧ (s.fetch c).1 = .word (nextWord s c) ∧ wOp (nextWord s c) = op ∧
  s.coreMay c (nextTim s c).t = true ∧ s.wordLegal c (nextWord s c) (s.core c).inStream = true

/-- Frame f of strand k once an update of fabric cycle cyc from a local core has taken its place among the recent ones (R90,
R123). -/
def frameAfter (s : State) (k f cyc core : Nat) (set : Bool) (w : Word) : Word :=
  let x := s.frameLogOf k f
  frameFold (frameFold x.base (x.ops.filter (fun o => decide (o.1 + 128 < cyc))))
    (insertOp (cyc, core, set, w) (x.ops.filter (fun o => !decide (o.1 + 128 < cyc))))

/-- No update of frame f of strand k is remembered as recent (R90). -/
def frameCalm (s : State) (k f : Nat) : Bool := s.frameLog.all (fun x => !(x.strand == k && x.frame == f))

/-- The read-out tones of the strand of core c. -/
def tonesOf (c : Nat) : List Nat := (List.range 32).map (32 * (c / 8) + ·)

/-- A core at rest, with nothing of an earlier run left (R61). -/
def coreAtRest (x : Core) : Prop := x.st = .idle ∧ x.bights = [] ∧ x.calls = [] ∧ x.trigQ = [] ∧ x.shots = []

/-- No core of strand k is RUNNING or WAITING, so none of its writes is held (R62, R135, R148, R160). -/
def strandIdle (s : State) (k : Nat) : Bool := (List.range 8).all (fun i => !(s.core (8 * k + i)).active)

-- Hitch links

/-- A switch of direction d that has no loss for its cause is taken now (R245, R246): a frame has arrived whole on both paths, or
the receive map is empty. -/
def switchNow (s : State) (d : Nat) : Bool :=
  !s.hasRx d || (s.wholeOn d false == s.wholeOn d true && (s.wholeOn d true).isSome)

-- descriptors and queues

/-- Descriptor d with operation op starts next on ring pair n (R282, R285, R288, R292): it stands at the head of the
submission queue, can be read, passes its check, is well formed, and no FENCE keeps it back. -/
def startsNext (s : State) (n op : Nat) (d : List Byte) : Bool :=
  (s.ring n).open' && (s.queue (s.sqQueue n)).pkts.head?.any (fun p => p.bytes == d && (s.hurt (s.sqQueue n) p).isNone) &&
  dOp d == op && (!dFence d || s.running n == 0) && whipOk d && !descBad d && !s.descAbsent d

/-- The state with the descriptor taken off ring pair n's submission queue. -/
def taken (s : State) (n : Nat) : State :=
  s.setQueue (s.sqQueue n) { s.queue (s.sqQueue n) with pkts := (s.queue (s.sqQueue n)).pkts.tail }

/-- The packets that a flush requested at tick tr leaves: those begun at that tick or later (R314). -/
def afterFlush (q : Queue) (tr : Nat) : List Packet := q.pkts.filter (fun p => decide (tr ≤ p.first) && p.taken == 0)

-- registers and the controller

/-- A write that must carry the key 0x5A (R60, R397, R424). -/
def needsKey (r : RegId) (w : Word) : Bool :=
  match r with
  | .modeCtl => (getF w 3 3 == 1 && getF w 2 0 == 0) || getF w 8 8 == 1 || getF w 9 9 == 1
  | .mcCtl => getF w 0 0 == 1
  | .strCtl _ => getF w 0 0 == 1
  | _ => false

/-- A mailbox command has completed with a status (R400). -/
def mbAnswers (s u : State) (status : Nat) : Prop :=
  u.mc.busy = false ∧ u.mc.rsp = status * 2 ^ 24 + s.fld .mcMbCmd 23 16 * 2 ^ 16

/-- A restart of the controller has begun at tick n, its program counter being pc (R397, R398): no transfer and no command
in progress is left, and its journal record goes first. -/
def restarting (s u : State) (n pc : Nat) : Prop :=
  u.mc.running = false ∧ u.mc.restart = some n ∧ u.mc.xfer = none ∧ u.mc.busy = false ∧ u.mc.restarts = min 0xFFFF (s.mc.restarts + 1) ∧
    (u.pwr.jPend.head?.map (fun j => (j.kind, j.detail))) = some (0x12, pc)

end Sys2Proof
end

