-- ==== Sys2Proof/Certificates/Slice0/Obligations.lean ====
section
/-! DEFINITION. The statements put to the provers: what each command does, what it leaves alone, and what every step
keeps. -/

open Sys2Proof

open Sys2Proof.Machine

/-- A step runs the command at the front of the queue on the state with the rest of the queue (R16). The block has
no fetch: its queue of waiting commands stands in its place (notes/assumptions/1). -/
def Obligations.StepRunsFrontCommand : Prop := ∀ (c : Instr) (s : State) (rest : List Instr), step { s with pending := c :: rest } = exec c { s with pending := rest }

/-- With no command waiting only module time passes (R8, R28). That an idle step is one period of the clock that
counts module time is the model's choice (notes/assumptions/2). -/
def Obligations.IdleStep : Prop := ∀ s : State, s.pending = [] →
  step s = .next (if s.supply = .off then s else { s with now := wrap64 (s.now + (if s.mode.mode = .dormant then 400 else 8)) })

/-- Every step of every state answers a next state, takes one command off the queue and keeps the variant (R16,
R38). -/
def Obligations.StepAlwaysAnswersNext : Prop := ∀ s : State, ∃ u, step s = .next u ∧ u.pending = s.pending.tail ∧ u.half = s.half

/-- What State.reset holds (R50, R415, R8). That the state before power-on is DORMANT with its supply off is the
model's choice (notes/assumptions/4), as are an unlisted byte's value (notes/assumptions/5) and the reset words
of fields without a reset value. -/
def Obligations.ResetState : Prop := memOk State.reset = true ∧ timeOk State.reset ∧ State.reset.pending = [] ∧ State.reset.supply = .off ∧
  State.reset.mode.mode = .dormant ∧ State.reset.hbm = [] ∧ (∀ r : RegId, State.reset.reg r = r.reset) ∧
  (∀ q, (State.reset.queue q).enabled = false ∧ (State.reset.queue q).role = 0) ∧ (∀ c, (State.reset.core c).st = .idle) ∧
  (∀ k, (State.reset.strand k).gate = .gated) ∧ (∀ p, (State.reset.ply p).st = .stopped)

/-- Module time after a command that arrives at t, with what is due by then done or not, and as far as the model itself reaches:
it never goes back, is the later of the two outside DORMANT, moves by whole counts of 400 ticks in DORMANT, and stays a
64-bit count (R8, R28, R433). A command that arrives late takes effect at the time reached (notes/assumptions/1). -/
def Obligations.ModuleTime : Prop := ∀ (s : State) (t : BitVec 64), timeOk s →
  (s.upTo t).now = (s.at t).now ∧ (s.toTime t.toNat).now = (s.at t).now ∧ timeOk (s.at t) ∧
  (s.mode.mode ≠ .dormant → (s.at t).now = max s.now t.toNat) ∧
  (s.mode.mode = .dormant → s.now ≤ (s.at t).now ∧ ((s.at t).now - s.now) % 400 = 0 ∧ (s.at t).now ≤ max s.now t.toNat ∧
    t.toNat < (s.at t).now + 400)

/-- Every step keeps every memory in canonical form (R286, R368). The value of an unlisted byte is a design choice
(notes/assumptions/5). -/
def Obligations.MemoriesStayCanonical : Prop := ∀ (s u : State), memOk s = true → step s = .next u → memOk u = true

/-- Every step keeps module time a 64-bit count (R8). The counter wraps at 2^64 (R8). -/
def Obligations.TimeStaysBounded : Prop := ∀ s u : State, timeOk s → step s = .next u → timeOk u

/-- Every command answers a next state and changes only the parts of the state listed for it, from the state in which what was
due before it has been done (R38 to R431; notes/assumptions/9). -/
def Obligations.CommandFrame : Prop := ∀ (c : Instr) (s : State), ∃ u, exec c s = .next u ∧ Based (frameOf c) s u

/-- What falls due before a command changes only the parts of the state listed for it, and no register but static levels and
frames (R88, R124, R145). That it is done when the next command that acts on the strands arrives is the model's choice
(notes/assumptions/9). -/
def Obligations.WhatFallsDue : Prop := ∀ s : State,
  (∀ a, Settled s a → Touches dueParts s a ∧ ∀ r, hushed r → a.reg r = s.reg r) ∧
  (∀ t : BitVec 64, Touches dueParts s (s.upTo t) ∧ ∀ r, hushed r → (s.upTo t).reg r = s.reg r) ∧
  (∀ t : Nat, Touches dueParts s (s.toTime t) ∧ ∀ r, hushed r → (s.toTime t).reg r = s.reg r) ∧
  (∀ c : Nat, Settled s (s.readyFor c))

/-- A command changes no register but those listed for it (R14 to R17, R416), from the state in which what was due before it has
been done (notes/assumptions/9). -/
def Obligations.RegisterFrame : Prop := ∀ (c : Instr) (s : State) (L : List RegId), regsOf c = some L →
  ∃ a u, Settled s a ∧ exec c s = .next u ∧ RegsKept L a u

/-- A sequence word that issues changes no register but the static level or the frame it names (R71, R72, R117,
R145). -/
def Obligations.WordRegisterFrame : Prop := ∀ (s a : State) (c : Fin 256), a = s.readyFor c →
  (issues a c 0x01 → ∃ u, exec (.wait c) s = .next u ∧ RegsKept [] a u) ∧
  (issues a c 0x02 → ∃ u, exec (.trigwait c) s = .next u ∧ RegsKept [] a u) ∧
  (∀ chk, issues a c 0x04 → ∃ u, exec (.play c chk) s = .next u ∧ RegsKept [] a u) ∧
  (∀ chk, issues a c 0x05 → ∃ u, exec (.acq c chk) s = .next u ∧ RegsKept [] a u) ∧
  (issues a c 0x06 → ∃ u, exec (.setstatic c) s = .next u ∧ RegsKept [.outStatic (c / 8) (bits (nextWord a c) 39 36)] a u) ∧
  (issues a c 0x08 → ∃ u, exec (.setfreq c) s = .next u ∧ RegsKept [] a u) ∧
  (issues a c 0x09 → ∃ u, exec (.setphase c) s = .next u ∧ RegsKept [.outFrame (c / 8) (bits (nextWord a c) 39 28)] a u) ∧
  (issues a c 0x0A → ∃ u, exec (.frameadd c) s = .next u ∧ RegsKept [.outFrame (c / 8) (bits (nextWord a c) 39 28)] a u) ∧
  (issues a c 0x10 → (a.core c).bights.length < 8 → ∃ u, exec (.bight c) s = .next u ∧ RegsKept [] a u) ∧
  (issues a c 0x11 → (a.core c).bights ≠ [] → ∃ u, exec (.endbight c) s = .next u ∧ RegsKept [] a u) ∧
  (issues a c 0x12 → (a.core c).calls.length < 16 → ∃ u, exec (.call c) s = .next u ∧ RegsKept [] a u) ∧
  (issues a c 0x13 → (a.core c).calls ≠ [] → ∃ u, exec (.ret c) s = .next u ∧ RegsKept [] a u) ∧
  (issues a c 0x14 → bits (nextWord a c) 22 20 ≤ (a.core c).bights.length →
    ∃ u, exec (.jump c) s = .next u ∧ RegsKept [] a u) ∧
  (issues a c 0x15 → bits (nextWord a c) 16 14 ≤ (a.core c).bights.length →
    ∃ u, exec (.jcond c) s = .next u ∧ RegsKept [] a u)

/-- A sequence word that issues reaches only its core and the unit and output it names, the read-out tone it names, and for a
change of frequency or frame the phases of its strand's read-out tones (R71, R97, R163, R172). -/
def Obligations.WordUnitFrame : Prop := ∀ (s a : State) (c : Fin 256), a = s.readyFor c →
  (issues a c 0x01 → ∃ u, exec (.wait c) s = .next u ∧ WordReach c [] [] [] a u) ∧
  (issues a c 0x02 → ∃ u, exec (.trigwait c) s = .next u ∧ WordReach c [] [] [] a u) ∧
  (∀ chk, issues a c 0x04 → ∃ u, exec (.play c chk) s = .next u ∧
    WordReach c [80 * (c / 8) + bits (nextWord a c) 39 33] [22 * (c / 8) + unitOut (bits (nextWord a c) 39 33)] [] a u) ∧
  (∀ chk, issues a c 0x05 → ∃ u, exec (.acq c chk) s = .next u ∧
    WordReach c [80 * (c / 8) + (32 + bits (nextWord a c) 39 35)] [] [32 * (c / 8) + bits (nextWord a c) 39 35] a u) ∧
  (issues a c 0x06 → ∃ u, exec (.setstatic c) s = .next u ∧
    WordReach c [80 * (c / 8) + (64 + bits (nextWord a c) 39 36)] [22 * (c / 8) + (6 + bits (nextWord a c) 39 36)] [] a u) ∧
  (issues a c 0x08 → ∃ u, exec (.setfreq c) s = .next u ∧
    WordReach c [80 * (c / 8) + bits (nextWord a c) 39 34] [] (tonesOf c) a u) ∧
  (issues a c 0x09 → ∃ u, exec (.setphase c) s = .next u ∧ WordReach c [] [] (tonesOf c) a u) ∧
  (issues a c 0x0A → ∃ u, exec (.frameadd c) s = .next u ∧ WordReach c [] [] (tonesOf c) a u) ∧
  (issues a c 0x10 → (a.core c).bights.length < 8 → ∃ u, exec (.bight c) s = .next u ∧ WordReach c [] [] [] a u) ∧
  (issues a c 0x11 → (a.core c).bights ≠ [] → ∃ u, exec (.endbight c) s = .next u ∧ WordReach c [] [] [] a u) ∧
  (issues a c 0x12 → (a.core c).calls.length < 16 → ∃ u, exec (.call c) s = .next u ∧ WordReach c [] [] [] a u) ∧
  (issues a c 0x13 → (a.core c).calls ≠ [] → ∃ u, exec (.ret c) s = .next u ∧ WordReach c [] [] [] a u) ∧
  (issues a c 0x14 → bits (nextWord a c) 22 20 ≤ (a.core c).bights.length →
    ∃ u, exec (.jump c) s = .next u ∧ WordReach c [] [] [] a u) ∧
  (issues a c 0x15 → bits (nextWord a c) 16 14 ≤ (a.core c).bights.length →
    ∃ u, exec (.jcond c) s = .next u ∧ WordReach c [] [] [] a u)

/-- A descriptor changes no byte outside the device range and the host buffer it names (R286, R289). -/
def Obligations.DescriptorBytes : Prop := ∀ (s a : State) (t : BitVec 64) (n : Fin 64) (err : Option Nat) (d : List Byte),
  (a = s.upTo t → (a.queue (a.sqQueue n)).pkts.head?.map Packet.bytes = some d →
  (∃ u, exec (.seqload t n err) s = .next u ∧ KeptOut (2 ^ 20 * dStrand d + dDev d) (if dDir d then 0 else dLen d) s.seqSram u.seqSram ∧
    KeptOut (dHost d) (if dDir d then dLen d else 0) s.hostMem u.hostMem) ∧
  (∃ u, exec (.envload t n err) s = .next u ∧ KeptOut (2 ^ 22 * dStrand d + dDev d) (if dDir d then 0 else dLen d) s.envSram u.envSram ∧
    KeptOut (dHost d) (if dDir d then dLen d else 0) s.hostMem u.hostMem) ∧
  (∃ u, exec (.envtable t n err) s = .next u ∧ KeptOut (65536 * dStrand d + 16 * dDev d) (if dDir d then 0 else dLen d) s.envTab u.envTab ∧
    KeptOut (dHost d) (if dDir d then dLen d else 0) s.hostMem u.hostMem) ∧
  (∃ u, exec (.kernel t n err) s = .next u ∧
    KeptOut (2 ^ 19 * dStrand d + (16384 * bits (dTarget d) 9 5 + 4 * dDev d)) (if dDir d then 0 else dLen d) s.kernel u.kernel ∧
    KeptOut (dHost d) (if dDir d then dLen d else 0) s.hostMem u.hostMem) ∧
  (∃ u, exec (.hbmxfer t n err) s = .next u ∧ KeptOut (dDev d) (if dDir d then 0 else dLen d) s.hbm u.hbm ∧
    KeptOut (dHost d) (if dDir d then dLen d else 0) s.hostMem u.hostMem)) ∧
  ((s.queue (s.sqQueue n)).pkts.head?.map Packet.bytes = some d →
  (∃ u, exec (.truthtable t n err) s = .next u ∧ KeptOut (dHost d) (if dDir d then 8192 else 0) s.hostMem u.hostMem) ∧
  (∃ u, exec (.qread t n err) s = .next u ∧ KeptOut (dHost d) (dLen d) s.hostMem u.hostMem))

/-- A completion entry and a head copy change no byte outside their places (R106, R291). -/
def Obligations.EntryAndHeadCopyBytes : Prop := ∀ (s : State) (t : BitVec 64),
  (∀ (n : Fin 64) (p : Packet), (s.queue (s.cqQueue n)).pkts.head? = some p →
    ∃ u, exec (.completionEntry t n) s = .next u ∧
      KeptOut (s.cqBase n + 32 * ((s.ring n).cqTail % s.ringSize n)) p.bytes.length s.hostMem u.hostMem) ∧
  (∀ (k : Fin 32) (e : Fin 4096), ∃ u, exec (.hbmHeadCopyDone t k e) s = .next u ∧
    KeptOut (2 ^ 22 * k + 4 * (s.env k e).addr) (4 * min (s.env k e).len 8192) s.envSram u.envSram ∧
    KeptOut (65536 * k + 16 * e + 3) 1 s.envTab u.envTab)

/-- The register found at an offset lies at that offset (R415, R416, R423, R425, R426). -/
def Obligations.RegisterOffsets : Prop := ∀ (o : Nat) (r : RegId), RegId.ofOff o = some r → r.off = o

/-- A request for a transition the table does not list is discarded and MODE_REFUSED is written (R42). In DORMANT
MODE_CTL does not respond (R52) and during a transition a request is held (R43): the hypotheses say so. -/
def Obligations.ModeRequestsRefused : Prop := ∀ (s a : State) (t : BitVec 64) (hw hr : Bool), a = s.upTo t →
  a.mode.trans = none → noHoldCause a → a.mode.mode ≠ .dormant →
  (a.mode.mode ≠ .ready → a.mode.mode ≠ .hold → ∃ u, exec (.reqRun t hw hr) s = .next u ∧ refused a u) ∧
  (a.mode.mode ≠ .run → ∃ u, exec (.reqHold t hw hr) s = .next u ∧ refused a u) ∧
  (a.mode.mode ∉ [Mode.run, .hold, .calibrate, .test] → ∃ u, exec (.reqReady t hw hr) s = .next u ∧ refused a u) ∧
  (a.mode.mode ≠ .ready →
    (∃ u, exec (.reqCalibrate t hw hr) s = .next u ∧ refused a u) ∧ (∃ u, exec (.reqTest t hw hr) s = .next u ∧ refused a u)) ∧
  (a.mode.mode ≠ .ready → a.mode.mode ≠ .safe → ∃ u, exec (.reqDormant t 0x5A hw hr) s = .next u ∧ refused a u) ∧
  (a.mode.mode ≠ .safe ∨ a.mode.causes.all a.causeClear = false ∨ a.mode.ucValid = false →
    ∃ u, exec (.safeAck t 0x5A hw hr) s = .next u ∧ refused a u)

/-- A listed mode request begins its transition with the duration of the table (R41, R44 to R46). That a transition
is entered no later than the table's maximum, at the time its completion is commanded, is the model's choice
(notes/assumptions/14). -/
def Obligations.ModeRequestsAccepted : Prop := ∀ (s a : State) (t : BitVec 64) (hw hr : Bool), a = s.upTo t →
  a.mode.trans = none → noHoldCause a →
    (a.mode.mode = .ready →
      (∃ u, exec (.reqRun t hw hr) s = .next u ∧ u.mode.trans = some (.run, a.now + 16) ∧ u.mode.mode = .ready) ∧
      (∃ u, exec (.reqCalibrate t hw hr) s = .next u ∧ u.mode.trans = some (.calibrate, a.now + 10 * us) ∧ u.mode.mode = .ready) ∧
      (∃ u, exec (.reqTest t hw hr) s = .next u ∧ u.mode.trans = some (.test, a.now + 10 * us) ∧ u.mode.mode = .ready) ∧
      (∃ u, exec (.reqDormant t 0x5A hw hr) s = .next u ∧ u.mode.trans = some (.dormant, a.now + 50 * ms) ∧ u.mode.mode = .ready) ∧
      (∃ u, exec (.modeReset t 0x5A hw hr) s = .next u ∧ u.mode.trans = some (.boot, a.now + us) ∧ u.mode.mode = .ready)) ∧
    (a.mode.mode = .run →
      (∃ u, exec (.reqHold t hw hr) s = .next u ∧ u.mode.trans = some (.hold, fl8 a.now + 16) ∧
        u.mode.tPause = fl8 a.now + 16 ∧ u.mode.holdHost = true ∧ u.mode.mode = .run) ∧
      (∃ u, exec (.reqReady t hw hr) s = .next u ∧ u.mode.trans = some (.ready, a.now + 2 * us) ∧ u.mode.mode = .run)) ∧
    (a.mode.mode = .safe → a.mode.causes.all a.causeClear = true → a.mode.ucValid = true → a.mode.full = false →
      a.mem.test = none →
      ∃ u, exec (.safeAck t 0x5A hw hr) s = .next u ∧ u.mode.trans = some (.ready, a.now + 60 * us) ∧ u.mode.mode = .safe)

/-- A transition in progress completes in the mode it leads to, with its entry time latched (R38, R41, R46, R48,
R55). Completion times within the bound are the choice of notes/assumptions/14; the command of BOOT is that of
notes/assumptions/63. -/
def Obligations.ModeEntriesComplete : Prop := ∀ (s : State) (t : BitVec 64) (m : Mode) (due : Nat), s.mode.trans = some (m, due) →
    (m = .run ∧ s.mode.mode = .ready ∨ m ∈ [Mode.ready, .calibrate, .test, .dormant] ∧ s.mode.mode ≠ .boot →
      ∃ u, exec (.modeTransitionDone t) s = .next u ∧ u.mode.mode = m ∧
        u.mode.entryTime = (s.toTime (min t.toNat due)).now) ∧
    (m = .boot ∧ s.mode.mode ≠ .boot →
      ∃ u, exec (.modeTransitionDone t) s = .next u ∧ u.mode.mode = .boot ∧
        u.mode.entryTime = up8 (s.toTime (min t.toNat due)).now) ∧
    (m = .safe →
      ∃ u, exec (.safeEntry t) s = .next u ∧ u.mode.mode = .safe ∧
        u.mode.entryTime = (s.toTime (min t.toNat due)).now ∧ (s.mode.pend = none → ∀ e ∈ u.strands, e.2.gate = .gated)) ∧
    (m = .hold ∧ s.mode.mode = .run →
      ∃ u, exec .holdPause s = .next u ∧ u.mode.mode = .hold ∧ u.mode.entryTime = due) ∧
    (m = .run ∧ s.mode.mode = .hold →
      ∃ u, exec .holdResume s = .next u ∧ u.mode.mode = .run ∧ u.mode.entryTime = due) ∧
    (m = .ready ∧ s.mode.mode = .boot → ∀ uc0 uc1, (s.clockTo (min t.toNat due)).mc.running = true →
      ((s.clockTo (min t.toNat due)).loadUc uc0 uc1).2 = true →
      ∃ u, exec (.bootComplete t true uc0 uc1) s = .next u ∧ u.mode.mode = .ready ∧
        u.mode.entryTime = (s.clockTo (min t.toNat due)).now)

/-- Mains on, wake sources and BOOT entry (R28, R50, R51, R54). The commands of power-on are those of
notes/assumptions/4. -/
def Obligations.PowerOnBootAndWake : Prop := ∀ (s : State) (t : BitVec 64),
  (∀ temps fw0 fw1 recOk, s.supply = .off →
    ∃ a, exec (.mainsOn t temps fw0 fw1 recOk) s = .next a ∧ a.supply = .on ∧ a.mode.mode = .dormant ∧ a.thm.temps = temps) ∧
  (s.supply = .on → s.mode.mode = .dormant → s.mode.trans = none →
    (s.mode.wakeWanted = true ∨ s.mode.autoDone = false ∧ s.fld .pwrCtl 0 0 = 0) →
    (∀ v ∈ s.thm.temps, v < 1440) →
    ∃ a, exec (.bootEntry t) s = .next a ∧ a.mode.mode = .boot ∧ a.mode.entryTime = up8 (s.at t).now ∧
      a.mode.trans = some (.ready, up8 (s.at t).now + 610 * ms)) ∧
  (∀ src, s.supply = .on → s.mode.mode = .dormant → s.fld .modeWakeEn (wakeBit src) (wakeBit src) = 1 →
    ∃ a, exec (.wakeSource t src) s = .next a ∧ a.mode.wakeWanted = true ∧ a.now = (s.at t).now) ∧
  (s.supply = .on → s.mode.mode = .dormant → s.fld .modeWakeEn 2 2 = 1 → s.now ≤ s.reg64 .modeWakeLo .modeWakeHi →
    s.reg64 .modeWakeLo .modeWakeHi + 400 ≤ 2 ^ 64 →
    ∃ a, exec .wakeTimer s = .next a ∧ a.mode.wakeWanted = true ∧ s.reg64 .modeWakeLo .modeWakeHi ≤ a.now ∧
      a.now < s.reg64 .modeWakeLo .modeWakeHi + 400 ∧ (a.now - s.now) % 400 = 0)

/-- UNIT_ENABLE and UNIT_DISABLE set a unit's ENABLE bit, in a gated strand too (R30, R57, R113, R155, R321, R421). -/
def Obligations.UnitEnableAndDisable : Prop := ∀ (s a : State) (t : BitVec 64) (u : UnitId) (w : Word), a = s.upTo t →
  a.blocksUp = true → a.absent (unitReg u).off = false → (∀ k, unitStrand u = some k → (a.strand k).rst = none) →
  (∃ b, exec (.unitEnable t u w) s = .next b ∧ enableOf b u = 1) ∧
  (∃ b, exec (.unitDisable t u w) s = .next b ∧ enableOf b u = 0)

/-- Gating, ungating, strand resets and output shutdowns complete at their times (R30, R57, R424). What a gating
strand shows is notes/assumptions/57. -/
def Obligations.StrandGateAndReset : Prop := ∀ (s : State) (t : BitVec 64) (k : Fin 32),
  ((s.strand k).gate = .gating → (s.strand k).pendEn = false →
    ∃ a, exec (.strandGated k) s = .next a ∧ (a.strand k).gate = .gated ∧ a.now = (s.toTime (s.strand k).due).now ∧
      ∀ c, c / 8 = k.val → coreAtRest (a.core c)) ∧
  ((s.strand k).gate = .ungating → (s.strand k).gateAfter = false → (s.strand k).heldW = [] → s.strandOn k = true →
    ∃ a, exec (.strandUngated k) s = .next a ∧ (a.strand k).gate = .ungated ∧ a.now = (s.toTime (s.strand k).due).now) ∧
  (∀ b, b = s.upTo t → b.blocksUp = true → b.absent (RegId.strCtl k).off = false → (b.strand k).gate ≠ .gated → (b.strand k).rst = none →
    ∃ a, exec (.strandReset t k 0x5A) s = .next a ∧ (a.strand k).rst = some b.now ∧
      ∀ c, c / 8 = k.val → coreAtRest (a.core c)) ∧
  (∀ b, (s.strand k).rst = some b → (s.strand k).heldW = [] →
    ∃ a, exec (.strandResetDone t k) s = .next a ∧ (a.strand k).rst = none ∧
      a.now = (s.toTime (min t.toNat (b + 2 * us))).now) ∧
  (∀ (o : OutId) (due : Nat), (s.out (outLocal o).1 (outLocal o).2).shut = some due →
    ∃ a, exec (.outputShutdownDone o) s = .next a ∧ (a.out (outLocal o).1 (outLocal o).2).shut = none ∧
      (a.out (outLocal o).1 (outLocal o).2).pendEn = false ∧ a.now = (s.toTime due).now)

/-- A ply starts on its policy, locks, stops idle and comes to rest (R56, R58). -/
def Obligations.PlyClock : Prop := ∀ (s : State) (t : BitVec 64) (p : Fin 4),
  (∀ w b, b = s.upTo t → b.blocksUp = true → b.absent (RegId.plyClkCtl p).off = false → b.mode.mode.powered = true → getF w 1 0 = 1 →
    (b.ply p).st = .stopped →
    ∃ a, exec (.plyPolicyWrite t p w) s = .next a ∧ a.fld (.plyClkCtl p) 1 0 = 1 ∧ (a.ply p).st = .starting ∧
      (a.ply p).due = b.now + 40 * us) ∧
  ((s.ply p).st = .starting →
    ∃ a, exec (.plyLocked p) s = .next a ∧ (a.ply p).st = .locked ∧ a.now = (s.toTime (s.ply p).due).now) ∧
  (∀ f, (s.ply p).st = .locked → (s.ply p).idleFrom = some f → s.plyOn p = false → s.alwaysOn p = false →
    s.mode.mode.powered = true → s.mode.mode ≠ .calibrate →
    ∃ a, exec (.plyIdleExpiry p) s = .next a ∧ (a.ply p).st = .stopping ∧
      (a.ply p).due = (s.toTime (f + s.fld (.plyClkCtl p) 31 16 * ms)).now + 20 * us) ∧
  ((s.ply p).st = .stopping → (s.ply p).pendEn = false →
    ∃ a, exec (.plyStopped p) s = .next a ∧ (a.ply p).st = .stopped ∧ a.now = (s.clockTo (s.ply p).due).now)

/-- HALT, WAIT, TRIGWAIT, its timeout, and the start of an armed core (R65, R71, R78, R82). When the next micro-routine may
start after a timeout is notes/assumptions/73. -/
def Obligations.CoreWaitsAndStart : Prop := ∀ (s a : State) (c : Fin 256), a = s.readyFor c →
  (issues a c 0x00 → ∃ u, exec (.halt c) s = .next u ∧ (u.core c).st = .done ∧
    (u.core c).haltCode = bits (nextWord a c) 15 0 ∧ (u.core c).stopAt = some (nextTim a c).eff ∧
    (u.core c).bights = [] ∧ (u.core c).calls = [] ∧ (u.core c).trigQ = []) ∧
  (issues a c 0x01 → ∃ u, exec (.wait c) s = .next u ∧ (u.core c).st = .running ∧ (u.core c).tPrev = (nextTim a c).t ∧
    (u.core c).ePrev = (nextTim a c).t + bits (nextWord a c) 39 0 ∧
    (u.core c).pc = if (a.core c).inStream then (a.core c).pc else pcNext (a.core c).pc) ∧
  (issues a c 0x02 → (a.core c).trigQ = [] → ∃ u, exec (.trigwait c) s = .next u ∧ (u.core c).st = .waiting ∧
    (u.core c).wait = some (.trig (nextTim a c).t (bits (nextWord a c) 39 16) (bit (nextWord a c) 15))) ∧
  (∀ e q, issues a c 0x02 → bit (nextWord a c) 15 = false → (a.core c).trigQ = e :: q →
    ∃ u, exec (.trigwait c) s = .next u ∧ (u.core c).st = .running ∧ (u.core c).trigQ = q ∧ (u.core c).lastTrig = e ∧
      (u.core c).tRef = some (max e (nextTim a c).t) ∧ (u.core c).ePrev = max e (nextTim a c).t) ∧
  (∀ t tmo old b, (s.core c).wait = some (.trig t tmo old) → tmo ≠ 0 →
    b = (s.settle (fun _ => { own := some c.val, at' := t + 64 * tmo, other := t + 64 * tmo }) s.dueFuel).settleOuts (t + 64 * tmo) →
    (b.core c).st = .waiting → b.mode.mode = .run →
    ∃ u, exec (.trigTimeout c) s = .next u ∧ (u.core c).st = .running ∧ (u.core c).wait = none ∧ (u.core c).tRef = some (t + 64 * tmo) ∧
      (u.core c).ePrev = t + 64 * tmo ∧ u.now = (b.clockTo (t + 64 * tmo)).now) ∧
  ((s.core c).st = .armed → (s.core c).streamBad = false → s.mode.mode = .run → (s.core c).start = 0 →
    s.mayIssue (s.startBound c) = true →
    ∃ u, exec (.coreStart c) s = .next u ∧ (u.core c).st = .running ∧ (u.core c).tPrev = s.startBound c ∧
      (u.core c).ePrev = s.startBound c ∧ (u.core c).bound0 = 0 ∧ u.now = (s.toTime (s.startBound c)).now) ∧
  ((s.core c).st = .armed → (s.core c).streamBad = false → s.mode.mode = .run → (s.core c).start ≠ 0 →
    s.mayIssue (s.core c).start = true →
    ∃ u, exec (.coreStart c) s = .next u ∧ (u.core c).st = .running ∧ (u.core c).tPrev = (s.core c).start ∧
      (u.core c).ePrev = (s.core c).start ∧ (u.core c).bound0 = (if (s.core c).start < s.startBound c then s.startBound c else 0) ∧
      u.now = (s.toTime (s.core c).start).now)

/-- SETFREQ, SETPHASE, FRAMEADD, SETSTATIC and PLAY (R71, R90, R104, R105, R116, R117, R123, R145). -/
def Obligations.PlaybackWords : Prop := ∀ (s a : State) (c : Fin 256), a = s.readyFor c →
  (issues a c 0x08 → ∃ u, exec (.setfreq c) s = .next u ∧
    (u.punit (c / 8) (bits (nextWord a c) 39 34)).fidx = bits (nextWord a c) 9 0 ∧
    (u.punit (c / 8) (bits (nextWord a c) 39 34)).ftw = a.freq (c / 8) (bits (nextWord a c) 9 0) ∧
    (u.punit (c / 8) (bits (nextWord a c) 39 34)).reloadAt = (nextTim a c).eff) ∧
  (issues a c 0x09 → ∃ u, exec (.setphase c) s = .next u ∧
    u.reg (.outFrame (c / 8) (bits (nextWord a c) 39 28)) = frameAfter a (c / 8) (bits (nextWord a c) 39 28) ((nextTim a c).eff / 8) (c % 8) true
      (BitVec.ofNat 32 (bits (nextWord a c) 27 0 * 16)) ∧
    (frameCalm a (c / 8) (bits (nextWord a c) 39 28) = true →
      u.reg (.outFrame (c / 8) (bits (nextWord a c) 39 28)) = BitVec.ofNat 32 (bits (nextWord a c) 27 0 * 16))) ∧
  (issues a c 0x0A → a.faddAt c (nextWord a c) (a.core c).shotStart (cutoff (nextTim a c).t) = .holds →
    ∃ u, exec (.frameadd c) s = .next u ∧
    u.reg (.outFrame (c / 8) (bits (nextWord a c) 39 28)) = frameAfter a (c / 8) (bits (nextWord a c) 39 28) ((nextTim a c).eff / 8) (c % 8) false
      (BitVec.ofNat 32 (bits (nextWord a c) 27 14 * 2 ^ 18)) ∧
    (frameCalm a (c / 8) (bits (nextWord a c) 39 28) = true →
      u.reg (.outFrame (c / 8) (bits (nextWord a c) 39 28)) =
        a.reg (.outFrame (c / 8) (bits (nextWord a c) 39 28)) + BitVec.ofNat 32 (bits (nextWord a c) 27 14 * 2 ^ 18))) ∧
  (issues a c 0x06 →
    ∃ u, exec (.setstatic c) s = .next u ∧
      u.fld (.outStatic (c / 8) (bits (nextWord a c) 39 36)) 15 0 = bits (nextWord a c) 35 20) ∧
  (∀ chk, issues a c 0x04 → ∃ u g, exec (.play c chk) s = .next u ∧
    (u.punit (c / 8) (bits (nextWord a c) 39 33)).seg = some g ∧ g.start = (nextTim a c).eff ∧
    g.stop = (nextTim a c).eff + (a.env (c / 8) (bits (nextWord a c) 32 21)).len * 2 ^ (a.env (c / 8) (bits (nextWord a c) 32 21)).k ∧
    g.env = bits (nextWord a c) 32 21 ∧ g.gain = bits (nextWord a c) 20 5 ∧ g.core = c)

/-- BIGHT, ENDBIGHT, CALL, RET, JUMP and JCOND act on the stacks and the program counter (R77, R79, R84 to R89). -/
def Obligations.FlowWords : Prop := ∀ (s a : State) (c : Fin 256), a = s.readyFor c →
  (issues a c 0x10 → (a.core c).bights.length < 8 → ∃ u, exec (.bight c) s = .next u ∧ (u.core c).bights =
    { body := (u.core c).pc, count := bits (nextWord a c) 39 16, s0 := (nextTim a c).t, shot := bit (nextWord a c) 15 } :: (a.core c).bights) ∧
  (∀ b r, issues a c 0x11 → (a.core c).bights = b :: r → b.count ≠ 1 → ∃ u, exec (.endbight c) s = .next u ∧
    (u.core c).pc = b.body ∧ (u.core c).bights = { b with count := b.count - 1, s0 := (nextTim a c).t } :: r) ∧
  (∀ b r, issues a c 0x11 → (a.core c).bights = b :: r → b.count = 1 → ∃ u, exec (.endbight c) s = .next u ∧
    (u.core c).bights = r ∧ (u.core c).pc = if (a.core c).inStream then (a.core c).pc else pcNext (a.core c).pc) ∧
  (issues a c 0x12 → (a.core c).calls.length < 16 → ∃ u, exec (.call c) s = .next u ∧ (u.core c).inStream = false ∧
    (u.core c).pc = bits (nextWord a c) 39 23 ∧
    (u.core c).calls = (if (a.core c).inStream then (a.core c).pc else pcNext (a.core c).pc, (a.core c).inStream) :: (a.core c).calls) ∧
  (∀ p r, issues a c 0x13 → (a.core c).calls = p :: r → ∃ u, exec (.ret c) s = .next u ∧
    (u.core c).pc = p.1 ∧ (u.core c).inStream = p.2 ∧ (u.core c).calls = r) ∧
  (issues a c 0x14 → bits (nextWord a c) 22 20 ≤ (a.core c).bights.length → ∃ u, exec (.jump c) s = .next u ∧
    (u.core c).pc = bits (nextWord a c) 39 23 ∧ (u.core c).bights = (a.core c).bights.drop (bits (nextWord a c) 22 20)) ∧
  (issues a c 0x15 → bits (nextWord a c) 16 14 ≤ (a.core c).bights.length →
    a.jcondAt c (nextWord a c) (a.core c).shotStart (cutoff (nextTim a c).t) = .holds → ∃ u, exec (.jcond c) s = .next u ∧
    (u.core c).pc = bits (nextWord a c) 39 23 ∧ (u.core c).bights = (a.core c).bights.drop (bits (nextWord a c) 16 14)) ∧
  (issues a c 0x15 → a.jcondAt c (nextWord a c) (a.core c).shotStart (cutoff (nextTim a c).t) = .fails →
    ∃ u, exec (.jcond c) s = .next u ∧ (u.core c).bights = (a.core c).bights ∧ (u.core c).defer = (a.core c).defer ∧
    (u.core c).pc = if (a.core c).inStream then (a.core c).pc else pcNext (a.core c).pc) ∧
  (issues a c 0x15 → a.jcondAt c (nextWord a c) (a.core c).shotStart (cutoff (nextTim a c).t) = .notPresent →
    ∃ u, exec (.jcond c) s = .next u ∧ (u.core c).bights = (a.core c).bights ∧
    (u.core c).defer = some ((a.core c).defer.getD { w := nextWord a c, shot0 := (a.core c).shotStart }) ∧
    (u.core c).pc = if (a.core c).inStream then (a.core c).pc else pcNext (a.core c).pc)

/-- ARM, HALT and SWTRIG writes, the stop of a running core at its word boundary, an entry that reaches a trigger queue, and a
stream that underruns (R65, R74, R80, R82, R93, R95, R434). The order of the three bits of one write is
notes/assumptions/24. -/
def Obligations.CoreControlWrites : Prop := ∀ (s a : State) (t : BitVec 64) (c : Fin 256) (w : Word), a = s.upTo t →
  (a.blocksUp = true → a.absent (RegId.seqCtl c).off = false → strandTakes a (c / 8) →
  (getF w 1 1 = 0 → getF w 2 2 = 0 → (a.core c).active = false → (a.core c).st ≠ .held →
    a.convs.all (fun e => e.2.step.isNone || convStrand e.1 != c / 8) = true →
    ∃ u, exec (.seqArm t c w) s = .next u ∧ (u.core c).st = .armed ∧ (u.core c).pc = a.fld (.seqStart c) 16 0 ∧
      (u.core c).start = a.reg64 (.seqStartTimeLo c) (.seqStartTimeHi c) ∧ (u.core c).armAt = a.now ∧
      (u.core c).bights = [] ∧ (u.core c).calls = [] ∧ (u.core c).trigQ = []) ∧
  (getF w 0 0 = 0 → getF w 2 2 = 0 → (a.core c).st = .waiting ∨ (a.core c).st = .held ∨ (a.core c).st = .armed →
    ∃ u, exec (.seqHaltWrite t c w) s = .next u ∧ (u.core c).st = .done ∧ (u.core c).haltCode = 0xFFFF ∧
      (u.core c).stopAt = some (up8 a.now)) ∧
  (getF w 0 0 = 0 → getF w 2 2 = 0 → (a.core c).st = .running → (a.core c).haltAt = none →
    ∃ u, exec (.seqHaltWrite t c w) s = .next u ∧ (u.core c).st = .running ∧
      (u.core c).haltAt = some ((a.writeFields (.seqCtl c) (setF w 1 1 1)).boundary c a.now, false)) ∧
  (getF w 0 0 = 0 → getF w 1 1 = 0 →
    ∃ u, exec (.swtrig t c w) s = .next u ∧ (u.core c).st = (a.core c).st ∧
      (u.core c).trigIn = insertTrig (next8 a.now, 32) (a.core c).trigIn)) ∧
  (∀ b, ((s.stopNow c b false).core c).st = .done ∧ ((s.stopNow c b false).core c).haltCode = 0xFFFF ∧
    ((s.stopNow c b true).core c).st = .fault) ∧
  (∀ stamp i r, (s.core c).trigIn = (stamp, i) :: r →
    ((s.core c).active = true → s.mode.mode = .run → (s.core c).wait = none → (s.core c).trigQ.length < 4 →
      ((s.trigArrives c).core c).trigQ = (s.core c).trigQ ++ [stamp] ∧ ((s.trigArrives c).core c).trigIn = r) ∧
    ((s.core c).active = true → s.mode.mode = .run → (s.core c).wait = none → 4 ≤ (s.core c).trigQ.length →
      ((s.trigArrives c).core c).trigQ = (s.core c).trigQ ∧
      (s.trigArrives c).count (.seqTrigLost c) = min 0xFFFFFFFF (s.count (.seqTrigLost c) + 1)) ∧
    (∀ t0 tmo, (s.core c).active = true → s.mode.mode = .run → (s.core c).wait = some (.trig t0 tmo false) →
      tmo = 0 ∨ trigAt stamp ≤ t0 + 64 * tmo →
      ((s.trigArrives c).core c).st = .running ∧ ((s.trigArrives c).core c).tRef = some (max stamp t0)) ∧
    ((s.core c).active = false ∨ s.mode.mode ≠ .run → ((s.trigArrives c).core c) = { s.core c with trigIn := r })) ∧
  (∀ b, b = s.readyFor c → (b.core c).st = .running → (b.core c).inStream = true → (b.fetch c).1 = .absent → b.coreMay c (b.core c).busy = true →
    ∃ u, exec (.streamUnderrun (.core c)) s = .next u ∧ (u.core c).st = .fault) ∧
  (∀ (k : Fin 32) (v : Fin 80) (g : Seg) (b : State), (s.punit k v).seg = some g → g.src = 2 → g.zero = false → g.ramp = none →
    g.held = none → g.got.length < g.len → g.start + g.got.length * 2 ^ g.k < g.stop → (s.queue g.addr).bound = some (.unit k v) →
    (s.queue g.addr).pkts = [] → b = s.toTime (g.start + g.got.length * 2 ^ g.k - 384) → (b.punit k v).seg = some g →
    b.queue g.addr = s.queue g.addr →
    ∃ u h, exec (.streamUnderrun (.unit k v)) s = .next u ∧ (u.punit k v).seg = some h ∧
      h.held = some (g.start + g.got.length * 2 ^ g.k))

/-- SYNCSTRAND waits for every core of its mask and releases them together (R98). -/
def Obligations.StrandBarrier : Prop := ∀ (s a : State) (c : Fin 256), a = s.readyFor c → issues a c 0x03 →
  ((∀ e, e / 8 = c.val / 8 → e ≠ c → (a.core e).syncMask = none) →
    (∃ d ∈ maskCores c (bits (nextWord a c) 39 32), d ≠ c.val) →
    ∃ u, exec (.syncstrand c) s = .next u ∧ (u.core c).st = .waiting ∧
      (u.core c).wait = some (.sync (nextTim a c).t (bits (nextWord a c) 39 32))) ∧
  (∀ td : Nat → Nat, td c = (nextTim a c).t →
    (∀ e, e / 8 = c.val / 8 → e ≠ c → (a.core e).syncMask =
      if e ∈ maskCores c (bits (nextWord a c) 39 32) then some (td e, bits (nextWord a c) 39 32) else none) →
    ∃ u, exec (.syncstrand c) s = .next u ∧ ∀ e ∈ maskCores c (bits (nextWord a c) 39 32),
      (u.core e).st = .running ∧ (u.core e).wait = none ∧
      (u.core e).tPrev = up8 (maxOf 0 ((maskCores c (bits (nextWord a c) 39 32)).map td)) ∧
      (u.core e).ePrev = up8 (maxOf 0 ((maskCores c (bits (nextWord a c) 39 32)).map td)))

/-- Writes of a strand's output, frame, zone, range, ownership and input registers, and the static level that reaches the
connector (R62, R114, R128, R135, R145, R147, R152, R160, R421). The arrival at the strand is notes/assumptions/20; a write of
RANGE during a change is notes/assumptions/74. -/
def Obligations.StrandRegisterWrites : Prop := ∀ (s a : State) (t : BitVec 64) (w : Word),
  (∀ (k c lvl n : Nat), lvl < 65536 → (s.staticArrives k c lvl n).fld (.outStatic k c) 15 0 = lvl) ∧
  (a = s.upTo t → a.blocksUp = true →
  (∀ (k : Fin 32) (c : Fin 16), strandTakes a k → a.absent (RegId.outStatic k c).off = false →
    (a.mode.mode ≠ .run → ∃ u, exec (.staticWrite t k c w) s = .next u ∧ u.fld (.outStatic k c) 15 0 = getF w 15 0) ∧
    (a.mode.mode = .run → ∃ u, exec (.staticWrite t k c w) s = .next u ∧ u.regs = a.regs ∧
      (u.out k (6 + c)).statics = (a.out k (6 + c)).statics ++ [(up8 a.now + 512, getF w 15 0)])) ∧
  (∀ (k : Fin 32) (f : Fin 4096), strandTakes a k → a.absent (RegId.outFrame k f).off = false →
    ∃ u, exec (.frameWrite t k f w) s = .next u ∧ u.frameW = a.frameW ++ [(up8 (a.now + 640), k.val, f.val, w)]) ∧
  (∀ (k : Fin 32) (c : Fin 16), strandTakes a k → a.absent (RegId.outBbCtl k c).off = false →
    ∃ u, exec (.pdCommit t k c w) s = .next u ∧ ∀ n < 84,
      Tab.get (u.out k (6 + c)).chain.coef n 0 = a.reg (.outPdCoef k (128 * c + n))) ∧
  (∀ (o : OutId), strandTakes a (outLocal o).1 → a.absent (ctlReg o).off = false → strandIdle a (outLocal o).1 = true →
    ∃ u, exec (.zoneWrite t o w) s = .next u ∧ u.reg (ctlReg o) = (a.writeFields (ctlReg o) w).reg (ctlReg o)) ∧
  (∀ (o : OutId), strandTakes a (outLocal o).1 → a.absent (outReg (outLocal o).1 (outLocal o).2).off = false →
    strandIdle a (outLocal o).1 = true → a.outEnabled (outLocal o).1 (outLocal o).2 = decide (getF w 0 0 = 1) →
    getF w 3 2 ≠ a.fld (outReg (outLocal o).1 (outLocal o).2) 3 2 →
    (a.out (outLocal o).1 (outLocal o).2).ranging = none ∨ getF w 3 2 ≠ (a.out (outLocal o).1 (outLocal o).2).newRange →
    ∃ u, exec (.rangeWrite t o w) s = .next u ∧
      (u.out (outLocal o).1 (outLocal o).2).ranging = some (up8 a.now) ∧
      (u.out (outLocal o).1 (outLocal o).2).newRange = getF w 3 2) ∧
  (∀ (k : Fin 32) (c : Fin 16), strandTakes a k → a.absent (RegId.outBbOut k c).off = false →
    a.outEnabled k (6 + c) = decide (getF w 0 0 = 1) → getF w 3 2 = a.fld (.outBbOut k c) 3 2 →
    ∃ u, exec (.complyClear t k c w) s = .next u ∧ (u.out k (6 + c)).comply = false) ∧
  (∀ (k : Fin 32) (v : Fin 80), strandTakes a k → a.absent (RegId.seqOwn k v).off = false → strandIdle a k = true →
    ∃ u, exec (.seqOwnWrite t k v w) s = .next u ∧ u.owner k v = getF w 2 0) ∧
  (∀ (k : Fin 32) (i : Fin 2), strandTakes a k → a.absent (RegId.acqInCtl k i).off = false → strandIdle a k = true →
    a.fld (.acqInCtl k i) 0 0 = getF w 0 0 →
    getF ((a.writeFields (.acqInCtl k i) w).reg (.acqInCtl k i)) 2 1 ≠ a.fld (.acqInCtl k i) 2 1 →
    ∃ u, exec (.inputConfigWrite t k i w) s = .next u ∧ (u.inp k i).settle = some (up8 a.now) ∧
      u.fld (.acqInCtl k i) 2 1 = getF ((a.writeFields (.acqInCtl k i) w).reg (.acqInCtl k i)) 2 1))

/-- Head copies, mutes, ranges, compliance, bands, raw drains, windows and results complete (R106, R144, R147, R149,
R150, R160, R175, R182, R188, R195, R197). Samples, sensed voltages and the instants of free completions are operands
(notes/assumptions/12). -/
def Obligations.ConnectorAndResultEvents : Prop := ∀ (s : State) (t : BitVec 64) (k : Fin 32),
  (∀ (e : Fin 4096), (s.env k e).src = 1 → (s.env k e).ready = false → (s.env k e).len ≠ 0 →
    (s.env k e).addr + min (s.env k e).len 8192 ≤ 1048576 →
    ∃ u, exec (.hbmHeadCopyDone t k e) s = .next u ∧ (Mem.read u.envTab (65536 * k + 16 * e + 3)).getLsbD 2 = true ∧
      Mem.reads u.envSram (2 ^ 22 * k + 4 * (s.env k e).addr) (4 * min (s.env k e).len 8192) =
        Mem.reads s.hbm (4 * (s.env k e).hbm) (4 * min (s.env k e).len 8192)) ∧
  (∀ (o : Fin 6) (a : State), a = s.toTime (s.lastPlayed k o + 16000) → (a.out k o).live = true → (a.out k o).muted = false →
    a.fld (.outRfOut k o) 5 5 = 1 → a.lastPlayed k o = s.lastPlayed k o →
    ∃ u, exec (.automuteClose k o) s = .next u ∧ (u.out k o).muted = true ∧ (u.out k o).live = true ∧
      (u.out k o).muteAt = s.lastPlayed k o + 16000 ∧ u.now = a.now) ∧
  (∀ (o : OutId) (t0 : Nat) (a : State), (s.out (outLocal o).1 (outLocal o).2).ranging = some t0 → a = s.toTime (t0 + 25600) →
    ∃ u, exec (.rangeSettled o) s = .next u ∧ (u.out (outLocal o).1 (outLocal o).2).ranging = none ∧
      u.fld (outReg (outLocal o).1 (outLocal o).2) 3 2 = (a.out (outLocal o).1 (outLocal o).2).newRange % 4 ∧
      u.now = a.now) ∧
  (∀ (c : Fin 16) (l : Bool) (since : BitVec 64) (a : State), a = s.upTo t → (a.out k (6 + c)).live = true → (a.out k (6 + c)).comply = false →
    up8 (max since.toNat (a.out k (6 + c)).liveFrom) + 1024 * a.fld (.outBbOut k c) 31 24 ≤ a.now →
    ∃ u, exec (.outComply t k c ⟨l, since⟩) s = .next u ∧ (u.out k (6 + c)).comply = true ∧ (u.out k (6 + c)).openLine = l ∧
      (u.out k (6 + c)).live = false ∧ (u.out k (6 + c)).muted = true) ∧
  (∀ (i : Fin 2) (b : Nat), (s.inp k i).settle = some b →
    ∃ u, exec (.bandSettled k i) s = .next u ∧ (u.inp k i).settle = none ∧ u.now = (s.toTime (b + 2 * us)).now) ∧
  (∀ (i : Fin 2) (r : Nat) (v : Win) (l : List Int) (a : State), (s.inp k i).rawWin = some (r, v) → a = s.toTime (min t.toNat (rawBound v)) →
    (a.inp k i).rawWin.isSome = true →
    ∃ u, exec (.rawDrainDone t k i l) s = .next u ∧ (u.inp k i).rawBusy = none ∧ (u.inp k i).rawWin = none ∧
      u.now = a.now) ∧
  (∀ (r : Fin 32) (v0 v : Win) (rest0 rest : List Win) (xs : List Int) (cl : List Nat) (p : Bool) (a : State),
    (s.rtone k r).wins = v0 :: rest0 → a = s.toTime (v0.stamp + 1152) → (a.rtone k r).wins = v :: rest →
    (∃ u, exec (.windowComplete k r xs cl p) s = .next u ∧ (u.rtone k r).wins = rest ∧ u.now = a.now) ∧
    (v.decide = true → a.mode.mode = .run ∨ a.mode.mode = .hold → (a.strand k).gate = .ungated →
      ∃ u st, exec (.windowComplete k r xs cl p) s = .next u ∧
        u.slotHist (32 * k + r) = { at' := v.stamp, stamp := v.stamp, val := st } :: a.slotHist (32 * k + r))) ∧
  (∀ (r : Fin 32) (w : Word) (a : State), a = s.upTo t → a.blocksUp = true → a.absent (RegId.discCtl k r).off = false → strandTakes a k →
    ∃ u, exec (.discCommit t k r w) s = .next u ∧ (u.rtone k r).disc =
      { a.shadowDisc k r with from' := next8 a.now, ovrInv := decide (u.fld (.discCtl k r) 0 0 = 1),
                              satInv := decide (u.fld (.discCtl k r) 1 1 = 1) } :: (a.rtone k r).disc) ∧
  (∀ (c : Fin 256), ∃ u, exec (.resultCommit t c) s = .next u ∧
    (u.strand (c / 8)).staged = (s.strand (c / 8)).staged.filter (fun p =>
      !(p.core == c.val && (decide (s.fld (.discResQ c) 16 16 = 1) || !((s.core c).shots.any (fun x => x.uid = p.shot)) ||
        (((s.core c).shots.filter Shot.ready).map (·.uid)).contains p.shot)))) ∧
  (∀ (p : Staged) (r : List Staged), (s.strand k).staged.filter s.waitsShot = p :: r → 1536 ≤ r.length →
    ∃ u, exec (.earlyRelease t k) s = .next u ∧ (u.strand k).staged = (s.strand k).staged.erase p ∧
      u.now = ((s.at t).clockTo (8 * (s.strand k).relAt)).now)

/-- ACQ opens a window with the bounds, tag and flags of the word, which carries the issue time and starts at its effect (R69,
R71, R165, R166). That TSTART is the issue time of a late word is notes/assumptions/18. -/
def Obligations.AcquireWord : Prop := ∀ (s a : State) (c : Fin 256) (chk : Bool), a = s.readyFor c → issues a c 0x05 →
  ∃ u v, exec (.acq c chk) s = .next u ∧
    (u.rtone (c / 8) (bits (nextWord a c) 39 35)).wins.getLast? = some v ∧ v.core = c ∧ v.t = (nextTim a c).t ∧
    v.eff = (nextTim a c).eff ∧ v.ms = adcAt (nextTim a c).eff ∧
    v.me = adcAt (nextTim a c).eff + (if bits (nextWord a c) 34 19 = 0 then 65536 else bits (nextWord a c) 34 19) ∧
    v.tag = bits (nextWord a c) 15 0 ∧ v.raw = bit (nextWord a c) 18 ∧ v.result = bit (nextWord a c) 17 ∧
    v.decide = bit (nextWord a c) 16 ∧ v.trunc = false

/-- Derived bits, imports and bad side-band frames (R212, R214, R217 to R220, R225). What a side-band command stands
for is notes/assumptions/22. -/
def Obligations.DecisionFabric : Prop := ∀ (s a : State) (t : BitVec 64) (w : Word), a = s.upTo t →
  (s.blocksUp = true → ∀ d : Fin 256, ∃ u, exec (.decCommit t d w) s = .next u ∧ Tab.get u.dec.dsets d [] =
    { from' := next8 (s.at t).now, sels := u.shadowSels d, inv := u.fld (.decDctl d) 15 0, tt := u.shadowTT d } ::
      Tab.get s.dec.dsets d []) ∧
  (∀ (p : Fin 4) (k : Fin 128), a.blocksUp = true → a.absent (RegId.decImport p k).off = false → a.plyActive p = false →
    getF w 9 0 / 256 ≠ p.val →
    ∃ u, exec (.importWrite t p k w) s = .next u ∧ Tab.get u.dec.imports (128 * p + k) {} =
      { valid := decide (getF w 31 31 = 1), slot := getF w 9 0, from' := 64 * (a.now / 64 + 1) }) ∧
  (∀ (p : Fin 4) (n : Nat) (b : Fin 256) (r : List (Fin 256)), s.dec.slotsFrom ≤ n →
    ∃ u, exec (.sidebandFrame p n (.up (b :: r))) s = .next u ∧ n ∈ u.upBad (256 * p + b) ∧
      u.now = (s.toTime (64 * (n + 1))).now) ∧
  (∀ (p : Fin 4) (n : Nat),
    ∃ u, exec (.sidebandFrame p n (.down false)) s = .next u ∧ n ∈ u.downBad p ∧ u.now = (s.toTime (64 * (n + 1))).now) ∧
  (s.blocksUp = true → s.mode.mode = .ready → ∃ u, exec (.modnumWrite t w) s = .next u ∧ u.fld .hchCtl 5 0 = getF w 5 0) ∧
  (s.blocksUp = true → s.mode.mode ≠ .ready → ∃ u, exec (.modnumWrite t w) s = .next u ∧ u.regs = s.regs ∧ u.heldFor .hchCtl = some w)

/-- Hitch lanes: enables, locks, training, idle, MARK and STATUS blocks and standby checks (R226 to R243). Readings
of the Hitch rules are notes/assumptions/32. -/
def Obligations.HitchBlocks : Prop := ∀ (s : State) (t : BitVec 64),
  (∀ (d : Fin 8) (w : Word), s.blocksUp = true → s.dirOn d = false → getF w 0 0 = 1 → getF w 6 6 = 0 → getF w 7 7 = 0 →
    ∃ u, exec (.directionEnable t d w) s = .next u ∧ u.dirOn d = true ∧
      ∀ l ∈ pathLanes d false ++ pathLanes d true, (u.lane l).idle = false ∧ (u.lane l).lock = false) ∧
  (∀ (l : Fin 32) (n : Nat), s.dirOn (laneDir l).1 = true →
    ∃ u, exec (.blockLock t ⟨l, n⟩) s = .next u ∧ (u.lane l).lock = true ∧ (u.lane l).rxIdle = false) ∧
  (∀ (l : Fin 32) (n : Nat) (sig : Bool),
    (16 ≤ n ∨ sig = true → ∃ u, exec (.blockLockLoss t l ⟨n, sig⟩) s = .next u ∧ (u.lane l).lock = false ∧
      ((u.hdir (laneDir l).1).path (laneDir l).2).markOk = false) ∧
    (n < 16 → sig = false → ∃ u, exec (.blockLockLoss t l ⟨n, sig⟩) s = .next u ∧ u.hch = s.hch ∧
      u.count (.hchHdrErr l) = min 0xFFFFFFFF (s.count (.hchHdrErr l) + n))) ∧
  (∀ (l : Fin 32) (b : BitVec 64), s.dirOn (laneDir l).1 = true → bits b.toNat 7 0 = 0xD2 →
    ∃ u, exec (.trainBlock t l b) s = .next u ∧
      (u.lane l).delay = min (((s.at t).now + 2 ^ 48 - bits b.toNat 63 16) % 2 ^ 48) 1023 ∧
      (u.lane l).noserv = decide (416 < ((s.at t).now + 2 ^ 48 - bits b.toNat 63 16) % 2 ^ 48) ∧
      (bits b.toNat 15 8 = 31 → (u.lane l).rxIdle = false ∧ ((s.lane l).rxIdle = true → (u.lane l).lock = true))) ∧
  (∀ (l : Fin 32),
    (s.dirOn (laneDir l).1 = true → ∃ u, exec (.idleEntry t ⟨l, false⟩) s = .next u ∧ (u.lane l).rxIdle = true) ∧
    ((laneDir l).2 = true → s.dirHot (laneDir l).1 = false → (s.hdir (laneDir l).1).onB = false → (s.hdir (laneDir l).1).gap = false →
      (s.hdir (laneDir l).1).pend = none → ∃ u, exec (.idleEntry t ⟨l, true⟩) s = .next u ∧ (u.lane l).idle = true)) ∧
  (∀ (q : Fin 16) (b : BitVec 64), s.dirOn (portDir q).1 = true → bits b.toNat 7 0 = 0xD1 →
    (s.at t).markError q b.toNat = none →
    ∃ u, exec (.markBlock t q b) s = .next u ∧ ((u.hdir (portDir q).1).path (portDir q).2).markOk = true ∧
      (u.hdir (portDir q).1).peerSeen = bits b.toNat 31 26) ∧
  (∀ (d : Fin 8) (b : BitVec 64), s.dirOn d = true → bits b.toNat 63 56 = 1 →
    crc16 (leBytes 6 (bits b.toNat 63 16)) = bits b.toNat 15 0 → bit b.toNat 49 = true →
    ∃ u, exec (.statusBlock t d b) s = .next u ∧ (u.hdir d).quietFrom = none ∧
      ∀ l ∈ pathLanes d true, (u.lane l).idle = false) ∧
  (∀ (d : Fin 8) (ok : Bool) (d0 d1 : BitVec 10), s.dirOn d = true → s.dirHot d = false → (s.hdir d).onB = false → (s.hdir d).gap = false →
    ∃ u, exec (.standbyCheck t d ok d0 d1) s = .next u ∧ (u.lane (2 * d + 16)).delay = d0.toNat ∧
      (u.lane (2 * d + 17)).delay = d1.toNat ∧
      (u.hdir d).b.standbyBad = !(ok && decide (d0.toNat ≤ 416) && decide (d1.toNat ≤ 416)))

/-- Hitch containers, splices, reverts and sent frames (R231 to R247). When a container arrives and when a frame is sent are
notes/assumptions/76. -/
def Obligations.HitchFramesAndSplices : Prop := ∀ (s : State) (t : BitVec 64) (d : Fin 8),
  (∀ (onB : Bool) (c : Fin 3) (j : Nat) (p : BitVec 64), s.inService d onB = true → s.takes d onB = true → (s.hdir d).pend = none →
    (∀ b, ((s.hdir d).path b).healthy = s.pathOk d b) →
    (∀ k, Tab.get? (s.hdir d).last c = some k → k < j) → s.rxValid d c = true → s.containerOk d c j p.toNat = true →
    ∃ u, exec (.hitchContainer d onB c j (some p)) s = .next u ∧ Tab.get? (u.hdir d).last c = some j ∧
      u.now = (s.clockTo (s.arrival d onB c j)).now) ∧
  (∀ (onB : Bool) (c : Fin 3) (j : Nat) (p : Option (BitVec 64)), s.inService d onB = false →
    ∃ u, exec (.hitchContainer d onB c j p) s = .next u ∧ u.hch = s.hch ∧ u.dec = s.dec) ∧
  (s.qualified d (s.at t).now = true → (s.hdir d).onB = true → (s.hdir d).gap = false → s.pathOk d false = true → (s.hdir d).hostHold = false →
    (switchNow s d = true → ∃ u, exec (.spliceRevert t d) s = .next u ∧ (u.hdir d).onB = false ∧ (u.hdir d).qualFrom = none) ∧
    (switchNow s d = false → ∃ u, exec (.spliceRevert t d) s = .next u ∧ (u.hdir d).onB = true ∧ (u.hdir d).pend = some false)) ∧
  (∀ w, s.blocksUp = true → s.dirOn d = true → getF w 0 0 = 1 → getF w 7 7 = 0 → (s.hdir d).onB = false → (s.hdir d).gap = false →
    s.pathOk d true = true →
    ∃ u, exec (.hchSplice t d w) s = .next u ∧ (u.hdir d).hostHold = true ∧ (u.hdir d).onB = switchNow s d ∧
      (u.hdir d).pend = if switchNow s d = true then none else some true) ∧
  (∀ w, s.blocksUp = true → s.dirOn d = true → getF w 0 0 = 1 → getF w 6 6 = 0 → (s.hdir d).onB = true → (s.hdir d).gap = false →
    s.pathOk d false = true →
    ∃ u, exec (.hchRevert t d w) s = .next u ∧ (u.hdir d).hostHold = false ∧ (u.hdir d).onB = !switchNow s d ∧
      (u.hdir d).pend = if switchNow s d = true then none else some false) ∧
  (∀ (j : Nat) (c : Fin 3) (a : State), a = s.toTime (atHub (64 * (j + 1))) → a.dirOn d = true → getF (a.txMapAt (3 * d + c) j) 31 30 = 1 →
    ∃ u, exec (.slotFrameSend j) s = .next u ∧ u.now = a.now ∧ ∀ l ∈ a.txLanes d c j, Tab.get? u.hch.tx (66 * l + placeOf j c) =
      some (j, some (a.localContainer ((List.range 5).map (fun n => getF (a.txMapAt (3 * d + c) j) (6 * n + 5) (6 * n))) j)))

/-- Loss and return of the reference, clock faults and REFSEL (R252 to R257). Readings are notes/assumptions/47. -/
def Obligations.ReferenceAndClockFault : Prop := ∀ (s a : State) (t : BitVec 64), a = s.upTo t →
  (a.sync.src = true → a.sync.refValid = true → a.mode.mode ≠ .dormant →
    ∃ u, exec (.refLost t) s = .next u ∧
      u.sync = { a.sync with refValid := false, lost := some a.now, holdover := true, pull := false } ∧
      (a.mode.mode = .run → a.mode.trans = none → a.fld .modeCtl 4 4 = 1 →
        u.mode.holdRef = true ∧ u.mode.trans = some (.hold, fl8 a.now + 16))) ∧
  (∀ l, s.sync.lost = some l → s.sync.src = true → s.sync.holdover = true →
    ∃ u, exec (.refValid t) s = .next u ∧
      u = { s.at t with sync := { s.sync with refValid := true, validAt := (s.at t).now, pull := true, holdover := false,
                                              aligned := s.sync.aligned && decide ((s.at t).now ≤ l + 110 * ms) } }) ∧
  (a.sync.pull = true → a.sync.refValid = true → a.mainOn = true →
    ∃ u, exec (.refRestored t) s = .next u ∧
      u.sync = { a.sync with pull := false, clkLock := true, holdover := false, lost := none } ∧
      (a.sync.lost.isSome = true → a.mode.mode = .hold → a.mode.pend = none → a.thm.warn = false →
        u.mode.holdRef = false)) ∧
  (a.mode.mode ≠ .dormant → a.mode.mode ≠ .safe → a.mode.tripAt = none → a.mode.safeCause = 0 →
    (∀ l, a.sync.lost = some l → l + sec ≤ a.now → a.sync.refValid = false → a.fld .modeCtl 4 4 = 0 →
      ∃ u, exec (.clkFault t .holdover) s = .next u ∧ u.mode.trans = some (.safe, a.now + us) ∧ u.mode.safeCause = 6) ∧
    (a.sync.clkLock = true →
      ∃ u, exec (.clkFault t .hub) s = .next u ∧ u.mode.trans = some (.safe, a.now + us) ∧ u.mode.safeCause = 6 ∧
        u.sync = { a.sync with clkLock := false }) ∧
    (∀ p : Fin 4, (a.ply p).st = .locked →
      ∃ u, exec (.clkFault t (.ply p)) s = .next u ∧ u.mode.trans = some (.safe, a.now + us) ∧ u.mode.safeCause = 6)) ∧
  (∀ w, s.blocksUp = true → s.mode.mode = .ready → getF w 0 0 = 0 → getF w 1 1 = 0 → getF w 2 2 = 0 → getF w 31 24 = 0xFF →
    getF w 9 8 ≠ 3 → s.sync.refValid = true →
    (getF w 9 8 ≠ s.fld .syncCtl 9 8 → ∃ u, exec (.refselWrite t w) s = .next u ∧ u.sync.src = decide (getF w 9 8 ≠ 2) ∧
      u.fld .syncCtl 9 8 = getF w 9 8 ∧ (s.sync.src ≠ u.sync.src → u.sync.aligned = false)) ∧
    (getF w 9 8 = s.fld .syncCtl 9 8 → ∃ u, exec (.refselWrite t w) s = .next u ∧ u.sync = s.sync ∧ u.fld .syncCtl 9 8 = getF w 9 8))

/-- Epoch writes, ARM, DISARM and skew calibration (R257 to R263). -/
def Obligations.EpochAndSyncControl : Prop := ∀ (s : State) (t : BitVec 64),
  (∀ hi, s.blocksUp = true →
    (s.mode.mode = .ready → ∃ u, exec (.epochWrite t hi) s = .next u ∧ u.reg .syncEpochHi = hi ∧ u.reg .syncEpochLo = s.lowOf .syncEpochLo) ∧
    (s.mode.mode ≠ .ready → ∃ u, exec (.epochWrite t hi) s = .next u ∧ u.regs = s.regs ∧
      u.heldFor .syncEpochHi = some hi ∧ u.heldFor .syncEpochLo = some (s.lowOf .syncEpochLo))) ∧
  (∀ w, s.blocksUp = true → s.mode.mode = .ready → s.sync.refValid = true → getF w 31 24 = 0xFF → getF w 11 10 ≠ 3 →
    (getF w 1 1 = 0 → getF w 2 2 = 0 → getF w 11 10 ≠ 0 →
      (s.reg64 .syncLoadLo .syncLoadHi % 160 = 0 →
        ∃ u, exec (.syncArm t w) s = .next u ∧ u.sync.armed = some (s.at t).now) ∧
      (s.reg64 .syncLoadLo .syncLoadHi % 160 ≠ 0 →
        ∃ u, exec (.syncArm t w) s = .next u ∧ u.sync.armed = s.sync.armed)) ∧
    (getF w 0 0 = 0 → getF w 2 2 = 0 → ∃ u, exec (.syncDisarm t w) s = .next u ∧ u.sync.armed = none) ∧
    (getF w 0 0 = 0 → getF w 1 1 = 0 → s.sync.skew = none →
      ∃ u, exec (.skewcal t w) s = .next u ∧ u.sync.skew = some (s.at t).now)) ∧
  (∀ (s0 : Nat) (rs : List Nat), s.sync.skew = some s0 →
    ∃ u, exec (.skewcalDone t rs) s = .next u ∧ u.sync.skew = none ∧ u.sync.pulses = s.sync.pulses + 1024 ∧
      (u.sync.skewFail = true ↔ rs.length < 1000 ∨ 16 < maxOf 0 rs - rs.foldl min (maxOf 0 rs)) ∧
      (u.sync.skewFail = false → u.sync.rtt = (rndNear (rs.foldl (· + ·) 0 : Nat) rs.length).toNat) ∧
      (u.sync.skewFail = true → u.sync.rtt = s.sync.rtt))

/-- What a SYNC pulse does in each role (R257 to R263). Instants and rounding are notes/assumptions/7 and 48. -/
def Obligations.SyncPulses : Prop := ∀ (s : State),
  (∀ (a : Nat) (z : State), z = s.toTime (a / 64) → z.sync.skew = none → z.sync.armed.isSome = true → z.fld .syncCtl 11 10 = 1 →
    (loadOk (z.reg64 .syncLoadLo .syncLoadHi) (z.edgeInstant a) = true →
      ∃ u, exec (.syncPulse a) s = .next u ∧ u.sync.armed = none ∧ u.sync.aligned = true ∧
        u.reg64 .syncEpochLo .syncEpochHi = z.reg64 .syncLoadLo .syncLoadHi ∧
        u.now = (z.clockTo (z.now + ((z.reg64 .syncLoadLo .syncLoadHi : Int) - (z.edgeInstant a + 32) / 64).toNat)).now) ∧
    (loadOk (z.reg64 .syncLoadLo .syncLoadHi) (z.edgeInstant a) = false →
      ∃ u, exec (.syncPulse a) s = .next u ∧ u.sync = { z.sync with armed := none } ∧ u.now = z.now)) ∧
  (∀ (a : Nat) (z : State), z = s.toTime (a / 64) → z.sync.skew = none → z.sync.armed = none → z.fld .syncCtl 11 10 = 1 → z.sync.aligned = true →
    ∃ u, exec (.syncPulse a) s = .next u ∧
      u.sync = { z.sync with dev := (z.edgeInstant a % 10240 - z.sync.loadPhase + 5120) % 10240 - 5120 }) ∧
  (∀ (a : Nat) (z : State), z = s.toTime (a / 64) → z.sync.skew = none → z.sync.armed = none → z.fld .syncCtl 11 10 = 2 → z.fld .syncCtl 21 16 = 0 → z.sync.ring = true →
    ∃ u, exec (.syncPulse a) s = .next u ∧ u.sync = { z.sync with ring := false, rtt := a - 64 * z.sync.loadVal }) ∧
  (∀ (t : BitVec 64) (a : Nat) (x : State), x = s.upTo t → x.sync.armed = some a → x.fld .syncCtl 11 10 = 2 → x.fld .syncCtl 21 16 = 0 → a + 10 * us ≤ x.now →
    ∃ u, exec (.chainLaunch t) s = .next u ∧ u.sync.armed = none ∧ u.sync.pulses = x.sync.pulses + 1 ∧
      u.sync.lastPulse = some x.now ∧
      (x.mode.mode ≠ .dormant → x.now < x.reg64 .syncLoadLo .syncLoadHi → u.now = x.reg64 .syncLoadLo .syncLoadHi ∧ u.sync.aligned = true)) ∧
  (∀ b, s.sync.sendAt = some b → ∃ u, exec .chainPulseSend s = .next u ∧
      u.sync = { s.sync with sendAt := none, pulses := s.sync.pulses + 1, lastPulse := some b } ∧ u.now = (s.clockTo b).now)

/-- WALLSET, SNAP, PTP samples and domain selection (R265 to R270). Readings are notes/assumptions/49. -/
def Obligations.WallClockAndServo : Prop := ∀ (s : State) (t : BitVec 64),
  (∀ w, s.blocksUp = true → getF w 31 24 = 0xFF → getF w 3 3 = 0 → getF w 4 4 = 0 →
    (getF w 5 5 = 0 → ∃ u, exec (.wallset t w) s = .next u ∧ u.ptp.valid = true ∧ u.ptp.at' = next8 (s.at t).now ∧
      u.ptp.base = (s.reg64 .ptpWallSecLo .ptpWallSecHi * 1000000000 + (s.reg .ptpWallNs).toNat) * wallNs) ∧
    (getF w 6 6 = 0 → ∃ u, exec (.snap t w) s = .next u ∧ u.ptp.snapTime = next8 (s.at t).now ∧
      u.ptp.snapSec = s.ptp.ns (next8 (s.at t).now) / 1000000000 % 2 ^ 48 ∧
      u.ptp.snapNs = s.ptp.ns (next8 (s.at t).now) % 1000000000)) ∧
  (∀ (k : Fin 2) (theta : Int), s.fld (.ptpDom k) 31 31 = 1 → s.fld .ptpCtl 1 0 ≠ 0 →
    (if s.ptp.onB then s.ptp.bUp else s.ptp.aUp) = true → s.ptp.stale = false → s.ethOn = true →
    ∃ u, exec (.ptpEventMessage t k theta) s = .next u ∧ (u.ptp.dom k).offset = satI 32 theta ∧
      (s.ptp.sel = k → (s.ptp.dom (1 - k : Fin 2)).locked = none → theta.natAbs < 1000000 →
        u.ptp.integ = clampRate (s.ptp.integ + (s.fld .ptpServo 31 16 : Nat) * theta) ∧
        u.ptp.rate = clampRate (-((s.fld .ptpServo 15 0 : Nat) * theta + clampRate (s.ptp.integ + (s.fld .ptpServo 31 16 : Nat) * theta))))) ∧
  (∀ k : Fin 2, ∃ u, exec (.announceTimeout t k) s = .next u ∧ (u.ptp.dom k).locked = none) ∧
  (∀ l, s.ptp.dom0.locked = some l → s.ptp.sel = 1 → l + s.qual ≤ (s.at t).now →
    ∃ u, exec (.ptpDomainReturn t) s = .next u ∧ u.ptp.sel = 0)

/-- Ethernet port loss, return, splice, revert and launched frames (R266, R271, R272). Readings are
notes/assumptions/50. -/
def Obligations.EthernetPorts : Prop := ∀ (s : State) (t : BitVec 64),
  (s.ptp.aUp = true →
    ∃ u, exec (.ethPortLoss t) s = .next u ∧ u.ptp.aUp = false ∧ u.ptp.aSince = none ∧
      (s.ptp.onB = false → s.ptp.bUp = true → u.ptp.onB = true ∧ u.ptp.stale = false) ∧
      (s.ptp.onB = false → s.ptp.bUp = false → u.ptp.onB = false ∧ u.ptp.stale = true)) ∧
  (s.ethOn = true →
    (∃ u, exec (.ethPortUp t false) s = .next u ∧ u.ptp.aUp = true ∧ u.ptp.aSince = some (s.ptp.aSince.getD (s.at t).now)) ∧
    (∃ u, exec (.ethPortUp t true) s = .next u ∧ u.ptp.bUp = true ∧
      (s.ptp.bUp = false → s.ptp.stale = true → s.ptp.onB = false → u.ptp.onB = true ∧ u.ptp.stale = false))) ∧
  (∀ a, s.ptp.aSince = some a → s.ptp.onB = true → s.ptp.hostHold = false → a + s.qual ≤ (s.at t).now →
    ∃ u, exec (.ethRevert t) s = .next u ∧ u.ptp.onB = false) ∧
  (∀ w, s.blocksUp = true → getF w 31 24 = 0xFF → getF w 5 5 = 0 → getF w 6 6 = 0 →
    (s.ptp.bUp = true → getF w 4 4 = 0 → ∃ u, exec (.ethSplice t w) s = .next u ∧ u.ptp.onB = true ∧ u.ptp.hostHold = true) ∧
    (s.ptp.bUp = false → getF w 4 4 = 0 → ∃ u, exec (.ethSplice t w) s = .next u ∧ u.ptp = s.ptp) ∧
    (s.ptp.aUp = true → getF w 3 3 = 0 → ∃ u, exec (.ethRevertWrite t w) s = .next u ∧ u.ptp.onB = false ∧ u.ptp.hostHold = false) ∧
    (s.ptp.aUp = false → getF w 3 3 = 0 → ∃ u, exec (.ethRevertWrite t w) s = .next u ∧ u.ptp = s.ptp)) ∧
  (∀ (portB : Bool) (f : Frame) (n : Nat), s.ptp.valid = true → 0 < (wallTick : Int) + s.ptp.rate →
    firstFrame (s.ptp.list.filter (fun f => f.portB == portB)) = some f →
    s.ptp.at' ≤ n → f.launch ≤ s.ptp.ns n → (∀ m, s.ptp.at' ≤ m → m < n → s.ptp.ns m < f.launch) → n ≤ max t.toNat s.now →
    ∃ u, exec (.frameLaunch t portB) s = .next u ∧
      u.ptp.sent = { portB := f.portB, at' := (s.clockTo n).now, late := false, bytes := f.bytes } :: s.ptp.sent ∧
      u.ptp.list = s.ptp.list.erase f ∧ u.now = (s.clockTo n).now)

/-- The host link, ring enables and doorbells (R277 to R284). ENABLE on a draining ring is notes/assumptions/31. -/
def Obligations.LinkAndRings : Prop := ∀ (s : State) (t : BitVec 64),
  (∀ (sp : Fin 6) (wi : Fin 17) (e : Bool), s.mainOn = true →
    ∃ u, exec (.linkUp t sp wi e) s = .next u ∧ u.hif = { s.hif with up := true, speed := sp, width := wi, ecrc := e }) ∧
  (∀ p : Bool, s.hif.up = true →
    ∃ u, exec (.linkDown t p) s = .next u ∧ u.hif.up = false ∧ u.hif.rings = [] ∧
      (∀ r : RegId, isHif r.off = true → u.reg r = r.reset) ∧ (∀ r : RegId, isHif r.off = false → u.reg r = s.reg r)) ∧
  (∀ (n : Fin 64) (w : Word), s.blocksUp = true → (s.ring n).open' = false →
    ((s.inRole (s.sqQueue n) 1 && s.inRole (s.cqQueue n) 2 && !s.usedByRing n (s.sqQueue n) && !s.usedByRing n (s.cqQueue n)) = true →
      ∃ u, exec (.ringEnable t n w) s = .next u ∧ u.ring n = { on := true } ∧ u.fld (.hifRingCtl n) 0 0 = 1) ∧
    ((s.inRole (s.sqQueue n) 1 && s.inRole (s.cqQueue n) 2 && !s.usedByRing n (s.sqQueue n) && !s.usedByRing n (s.cqQueue n)) = false →
      ∃ u, exec (.ringEnable t n w) s = .next u ∧ (u.ring n).on = false ∧ (u.ring n).cause = 4 ∧ u.fld (.hifRingCtl n) 0 0 = 0)) ∧
  (∀ (n : Fin 64) (w : Word), s.blocksUp = true → (s.ring n).on = true →
    ∃ u, exec (.ringDisable t n w) s = .next u ∧ u.ring n = { s.ring n with on := false, halted := false, draining := (u.ring n).draining } ∧
      u.fld (.hifRingCtl n) 0 0 = 0) ∧
  (s.fld .hifCtl 19 0 ≠ 0 →
    ∃ u, exec .doorbellPoll s = .next u ∧ u.now = (s.clockTo (s.hif.lastPoll + s.fld .hifCtl 19 0 * us)).now ∧ u.hif.lastPoll = u.now ∧
      ∀ n, (s.ring n).on = true → (s.ring n).reading = none → s.hif.up = true → s.blocksUp = true →
        (u.ring n).reading = some u.now) ∧
  (∀ w, s.blocksUp = true → (s.ring (getF w 5 0)).on = true → (s.ring (getF w 5 0)).reading = none → s.hif.up = true →
    ∃ u, exec (.hifKick t w) s = .next u ∧ (u.ring (getF w 5 0)).reading = some (s.at t).now)

/-- DOORBELL_READ and COMPLETION_ENTRY (R280 to R284, R291). How descriptors are fetched is notes/assumptions/10. -/
def Obligations.DoorbellsAndCompletions : Prop := ∀ (s : State) (t : BitVec 64) (n : Fin 64),
  ((s.ring n).on = true → (s.ring n).reading.isSome = true →
    (∀ a b, (s.ring n).halted = true → ∃ u, exec (.doorbellRead t n a b) s = .next u ∧ u.ring n = { s.ring n with reading := none }) ∧
    (∀ b, (s.ring n).halted = false → ∃ u, exec (.doorbellRead t n false b) s = .next u ∧
      u.ring n = { s.ring n with reading := none, halted := true, cause := 3 }) ∧
    ((s.ring n).halted = false → ∀ a tail head, a = s.reg64 .hifDbLo .hifDbHi + 16 * n → tail = Mem.num s.hostMem a 4 → head = Mem.num s.hostMem (a + 4) 4 →
      (∀ b, s.ringSize n < (tail + 2 ^ 32 - (s.ring n).sqHead % 2 ^ 32) % 2 ^ 32 →
        ∃ u, exec (.doorbellRead t n true b) s = .next u ∧ u.ring n = { s.ring n with reading := none, halted := true, cause := 1 }) ∧
      (∀ b, (tail + 2 ^ 32 - (s.ring n).sqHead % 2 ^ 32) % 2 ^ 32 ≤ s.ringSize n →
        s.ringSize n < ((s.ring n).cqTail % 2 ^ 32 + 2 ^ 32 - head) % 2 ^ 32 →
        ∃ u, exec (.doorbellRead t n true b) s = .next u ∧ u.ring n = { s.ring n with reading := none, halted := true, cause := 2 }) ∧
      (∀ r', ((s.ring n).cqTail % 2 ^ 32 + 2 ^ 32 - head) % 2 ^ 32 ≤ s.ringSize n →
        r' = { s.ring n with reading := none, cqHead := (s.ring n).cqTail - ((s.ring n).cqTail % 2 ^ 32 + 2 ^ 32 - head) % 2 ^ 32 } →
        (∀ b, (tail + 2 ^ 32 - (s.ring n).sqHead % 2 ^ 32) % 2 ^ 32 = 0 →
          ∃ u, exec (.doorbellRead t n true b) s = .next u ∧ u.ring n = r') ∧
        ((tail + 2 ^ 32 - (s.ring n).sqHead % 2 ^ 32) % 2 ^ 32 = 1 → (s.setRing n r').inflight n < s.fld (.hifRingCtl n) 15 5 → (s.setRing n r').inflightAll < 1024 →
          (s.queue (s.sqQueue n)).room 64 = true → 32 * ((s.setRing n r').inflight n + 1) ≤ (s.queue (s.cqQueue n)).size →
          ∃ u, exec (.doorbellRead t n true true) s = .next u ∧ u.ring n = { r' with sqHead := (s.ring n).sqHead + 1 } ∧
            u.queue (s.sqQueue n) = (s.queue (s.sqQueue n)).push { bytes := Mem.reads s.hostMem (s.sqBase n + 64 * ((s.ring n).sqHead % s.ringSize n)) 64, first := (s.at t).now, vis := some (s.at t).now })))) ∧
  (∀ p ps, (s.ring n).open' = true → s.hif.up = true → (s.ring n).cqTail - (s.ring n).cqHead < s.ringSize n →
    (s.queue (s.cqQueue n)).pkts = p :: ps → s.hurt (s.cqQueue n) p = none →
    ∃ u, exec (.completionEntry t n) s = .next u ∧
      u.hostMem = Mem.writes s.hostMem (s.cqBase n + 32 * ((s.ring n).cqTail % s.ringSize n)) p.bytes ∧
      (u.ring n).cqTail = (s.ring n).cqTail + 1 ∧ (u.queue (s.cqQueue n)).pkts = ps)

/-- NOP, REGWRITE, SEQLOAD, ENVLOAD, ENVTABLE, KERNEL, TRUTHTABLE, HBMXFER and ETHSEND (R285 to R292). The failing
byte of a host access is the operand err (notes/assumptions/11). -/
def Obligations.Descriptors : Prop := ∀ (s a : State) (t : BitVec 64) (n : Fin 64) (d : List Byte), a = s.upTo t →
  (∀ err, startsNext s n 0x3F d = true → s.sqQueue n ≠ s.cqQueue n →
    ∃ u, exec (.nop t n err) s = .next u ∧ u.queue (s.cqQueue n) = (s.queue (s.cqQueue n)).push
      { bytes := Entry.bytes { status := 0 } n (leAt d 0 2) (s.at t).now (decide (((s.ring n).cqTail + (s.queue (s.cqQueue n)).pkts.length) / s.ringSize n % 2 = 0)),
        first := (s.at t).now, vis := some (s.at t).now }) ∧
  (∀ err (off : Nat) (w : Word) (r : RegId), startsNext a n 0x01 d = true → d.length = 64 → dLen d = 0 → dTarget d = 1 → leAt d 32 4 = off → BitVec.ofNat 32 (leAt d 36 4) = w →
    pairRefused off = false → (a.half && farBlock off) = false → a.absent off = false → RegId.ofOff off = some r →
    ∃ u, exec (.regwrite t n err) s = .next u ∧ u.regs = ((taken a n).writeReg r w).regs) ∧
  ((a.ply (dStrand d / 8)).retrain = none →
    (∀ err, startsNext a n 0x10 d = true → dDir d = false →
      ∃ u, exec (.seqload t n err) s = .next u ∧ u.seqSram = Mem.writes a.seqSram (2 ^ 20 * dStrand d + dDev d) (a.units' d err 8)) ∧
    (startsNext a n 0x10 d = true → dDir d = true → a.badIn (.seqSram (Fin.ofNat 32 (dStrand d))) (dDev d) (dLen d) = [] →
      ∃ u, exec (.seqload t n none) s = .next u ∧ u.seqSram = a.seqSram ∧
        u.hostMem = Mem.writes a.hostMem (dHost d) (Mem.reads a.seqSram (2 ^ 20 * dStrand d + dDev d) (dLen d))) ∧
    (∀ err, startsNext a n 0x11 d = true → dDir d = false →
      ∃ u, exec (.envload t n err) s = .next u ∧ u.envSram = Mem.writes a.envSram (2 ^ 22 * dStrand d + dDev d) (a.units' d err 4)) ∧
    (startsNext a n 0x12 d = true → dDir d = false → dLen d = 16 →
      envEntryOk (Mem.num a.hostMem (dHost d) 4) (Mem.num a.hostMem (dHost d + 4) 4) (Mem.num a.hostMem (dHost d + 8) 4) (Mem.num a.hostMem (dHost d + 12) 4) = true →
      ∃ u, exec (.envtable t n none) s = .next u ∧
        u.envTab = Mem.writes a.envTab (65536 * dStrand d + 16 * dDev d) (entryBytes (Mem.reads a.hostMem (dHost d) 16))) ∧
    (∀ err, startsNext a n 0x13 d = true → dDir d = false →
      ∃ u, exec (.kernel t n err) s = .next u ∧
        u.kernel = Mem.writes a.kernel (2 ^ 19 * dStrand d + (16384 * bits (dTarget d) 9 5 + 4 * dDev d)) (a.units' d err 4))) ∧
  (startsNext s n 0x14 d = true → dDir d = false → dLen d = 8192 →
    ∃ u, exec (.truthtable t n none) s = .next u ∧
      Tab.get? u.dec.ttShadow (dTarget d % 256) = some (.raw (Mem.writes [] 0 (Mem.reads s.hostMem (dHost d) 8192))) ∧
      u.fld (.decDctl (dTarget d % 256)) 31 24 = 0xFF) ∧
  (∀ err, startsNext a n 0x15 d = true → dDir d = false → (taken a n).overlapsQueue 32768 (dDev d) (dDev d + dLen d) = false →
    ∃ u, exec (.hbmxfer t n err) s = .next u ∧ u.hbm = Mem.writes a.hbm (dDev d) (a.units' d err 64)) ∧
  (startsNext s n 0x30 d = true → dTimed d = false → dChk d = false →
    ∃ u, exec (.ethsend t n none) s = .next u ∧
      u.ptp.sent = { portB := s.ethPort d, at' := (s.at t).now, late := false, bytes := Mem.reads s.hostMem (dHost d) (dLen d) } :: s.ptp.sent)

/-- QWRITE, QREAD, QFLUSH and queue control (R289, R296 to R315). A packet is committed whole (notes/assumptions/9). -/
def Obligations.Queues : Prop := ∀ (s : State) (t : BitVec 64),
  (∀ (n : Fin 64) (d : List Byte) (qn : Nat) (q : Queue), qn = bits (dTarget d) 14 0 → q = s.queue qn → qn ≠ s.sqQueue n → q.enabled = true → q.bound = none →
    (∀ m, (s.ring m).open' = true → s.cqQueue m ≠ qn) →
    (s.hif.started = [] → startsNext s n 0x20 d = true → dChk d = false → 2 < q.role → q.role ≠ 4 → (q.role = 6 → q.pkts.length < 64) →
      0 < dLen d → packetLen q.role q.content (Mem.reads s.hostMem (dHost d) (dLen d)) = some (dLen d) → whipOk (Mem.reads s.hostMem (dHost d) (dLen d)) = true →
      2 * dLen d ≤ q.size → q.room (dLen d) = true →
      ∃ u, exec (.qwrite t n none) s = .next u ∧
        u.queue qn = q.push { bytes := Mem.reads s.hostMem (dHost d) (dLen d), first := (s.at t).now, vis := some (s.at t).now }) ∧
    (startsNext s n 0x21 d = true → 3 < q.role → s.mem.poison = [] →
      ∃ u, exec (.qread t n none) s = .next u ∧
        u.hostMem = Mem.writes s.hostMem (dHost d) ((fitting (s.at t).now (dLen d) q.pkts).map Packet.given).flatten ∧
        (u.queue qn).pkts = q.pkts.drop (fitting (s.at t).now (dLen d) q.pkts).length) ∧
    (startsNext s n 0x22 d = true → 2 < q.role → q.flushAt = none →
      ∃ u, exec (.qflush t n none) s = .next u ∧ (u.queue qn).pkts = afterFlush q (s.at t).now)) ∧
  (∀ (w : Word) (q q' : Queue) (a : State), s.blocksUp = true → q = s.queue s.selQ → q.enabled = false → getF w 18 18 = 0 →
    q' = q.setRole (setF w 16 16 1) → a = s.setQueue s.selQ q' →
    (q.base % q.size = 0 → a.overlapsQueue s.selQ q.base q.limit = false → q'.role ≠ 0 → a.bufFree ≠ 0 →
      ∃ u, exec (.queueEnable t w) s = .next u ∧ u.queue s.selQ = { q' with enabled := true }) ∧
    (q.base % q.size ≠ 0 ∨ a.overlapsQueue s.selQ q.base q.limit = true ∨ q'.role = 0 ∨ a.bufFree = 0 →
      ∃ u, exec (.queueEnable t w) s = .next u ∧ (u.queue s.selQ).enabled = false)) ∧
  (∀ (w : Word), s.blocksUp = true → (s.queue s.selQ).enabled = true → (s.queue s.selQ).bound = none → getF w 18 18 = 0 →
    (s.queueBusy s.selQ = true → ∃ u, exec (.queueDisable t w) s = .next u ∧ u.queue s.selQ = { s.queue s.selQ with pendDis := true }) ∧
    (s.queueBusy s.selQ = false → ∃ u, exec (.queueDisable t w) s = .next u ∧ (u.queue s.selQ).enabled = false ∧ (u.queue s.selQ).pkts = [])) ∧
  (∀ qn : Fin 32768, (s.queue qn).bound = none → (s.queue qn).pendDis = true → s.queueBusy qn = false →
    ∃ u, exec (.queueDisableDone t qn) s = .next u ∧ (u.queue qn).enabled = false ∧ (u.queue qn).pkts = [] ∧ (u.queue qn).pendDis = false) ∧
  (∀ (w : Word) (q : Queue), s.blocksUp = true → q = s.queue s.selQ → q.enabled = true → q.bound = none → q.flushAt = none → q.role ≠ 1 → q.role ≠ 2 →
    (∀ m, (s.ring m).open' = true → s.cqQueue m ≠ s.selQ) → getF w 16 16 = 1 →
    ∃ u, exec (.queueFlush t w) s = .next u ∧ (u.queue s.selQ).pkts = afterFlush q (s.at t).now) ∧
  (∀ (qn : Fin 32768) (tr : Nat), (s.queue qn).bound = none → (s.queue qn).flushAt = some tr → (∀ m, (s.ring m).open' = true → s.cqQueue m ≠ qn) →
    ∃ u, exec (.flushDone t qn) s = .next u ∧ (u.queue qn).pkts = afterFlush (s.queue qn) tr ∧ (u.queue qn).flushAt = none)

/-- Monitor samples, trigger edges, trigger outputs and event windows (R320 to R331). Readings are
notes/assumptions/52 and 53. -/
def Obligations.MonitorAndTriggerIo : Prop := ∀ (s a : State) (t : BitVec 64), a = s.upTo t →
  (∀ (n : Fin 64) (raw : Int), s.monRuns n = true →
    ((s.monIn n).skip = 0 →
      ∃ u, exec (.monSample n raw) s = .next u ∧ u.now = (s.clockTo (s.monStamp n)).now ∧ (u.monIn n).last = s.monStamp n ∧
        (u.monIn n).code = toTwos 24 (satI 24 raw) ∧ (u.monIn n).clip = decide (satI 24 raw ≠ raw)) ∧
    (0 < (s.monIn n).skip →
      ∃ u, exec (.monSample n raw) s = .next u ∧ u.monIn n = { s.monIn n with last := s.monStamp n, skip := (s.monIn n).skip - 1 })) ∧
  (∀ (i : Fin 32) (level : Bool) (held : Nat), a.trigOn = true →
    (held < 8 + a.fld (.tioInCtl i) 11 8 → ∃ u, exec (.triggerEdge t i level held) s = .next u ∧ u.tio = a.tio ∧
      u.count (.tioGlitch i) = min 0xFFFFFFFF (a.count (.tioGlitch i) + 1)) ∧
    (8 + a.fld (.tioInCtl i) 11 8 ≤ held → Tab.get a.tio.level i 0 ≠ b2n (level != decide (a.fld (.tioInCtl i) 2 2 = 1)) →
      ∃ u, exec (.triggerEdge t i level held) s = .next u ∧
        Tab.get u.tio.level i 0 = b2n (level != decide (a.fld (.tioInCtl i) 2 2 = 1)) ∧
        Tab.get u.dec.trigs i [] = { at' := t.toNat, stamp := t.toNat, val := b2n (level != decide (a.fld (.tioInCtl i) 2 2 = 1)) } :: Tab.get a.dec.trigs i [])) ∧
  (∀ (x : TrigTarget) (w : Word), s.blocksUp = true →
    ((a.gateBusy (trigUnit x (a.reg (trigReg x))) || a.gateBusy (trigUnit x (RegId.mergeX (trigReg x) (a.reg (trigReg x)) w))) = false →
      ∃ u, exec (.triggerOutWrite t x w) s = .next u ∧ u.reg (trigReg x) = RegId.mergeX (trigReg x) (a.reg (trigReg x)) w) ∧
    ((a.gateBusy (trigUnit x (a.reg (trigReg x))) || a.gateBusy (trigUnit x (RegId.mergeX (trigReg x) (a.reg (trigReg x)) w))) = true →
      ∃ u, exec (.triggerOutWrite t x w) s = .next u ∧ u.regs = a.regs ∧ ((trigReg x).off, w) ∈ u.held)) ∧
  (∀ (v : Fin 32) (p q : Nat), a.fld (.tioEwCtl v) 31 31 = 1 →
    ((a.punit (a.fld (.tioEwCtl v) 12 8) (a.fld (.tioEwCtl v) 6 0)).intervals.find? (fun i => decide (i.1 < i.2) && decide (i.2 ≤ a.now) &&
      decide ((Tab.get a.tio.wins v {}).from' ≤ i.1) && (Tab.get a.tio.wins v {}).done.all (fun d => decide (d < i.1)))) = some (p, q) →
    ∃ u, exec (.eventWindowEnd t v) s = .next u ∧ (Tab.get u.tio.wins v {}).done = some p)

/-- Due converters, steps, corrections and ramps (R338 to R350). Measurements are operands (notes/assumptions/12);
readings are notes/assumptions/51. -/
def Obligations.CalibrationSteps : Prop := ∀ (s a : State) (t : BitVec 64) (x : Fin 768), a = s.upTo t →
  ((s.conv x).due = none → (s.conv x).again = none →
    (Tab.get? (s.conv x).last (s.convRange x) = none →
      ∃ u, exec (.calDue t x) s = .next u ∧ (u.conv x).due = some (s.at t).now) ∧
    (∀ e, Tab.get? (s.conv x).last (s.convRange x) = some e → e + s.calInterval ≤ (s.at t).now →
      ∃ u, exec (.calDue t x) s = .next u ∧ (u.conv x).due = some (e + s.calInterval))) ∧
  (∀ d, (a.conv x).due = some d → a.mayStep x = true →
    (a.findsPlace x (up8 a.now) = true → a.preceded x d (up8 a.now) = false →
      (∃ u k, exec (.calStepStart t x true) s = .next u ∧
        (u.conv x).step = some { start := up8 a.now, stop := up8 a.now + stepTicks x, kind := k, range := s.convRange x } ∧
        (k = .gap ↔ a.inGap x (up8 a.now) (stepTicks x) = true) ∧ (u.engine (convStrand x / 8)).cur = some x.val) ∧
      (∃ u, exec (.calStepStart t x false) s = .next u ∧ u.conv x = a.conv x ∧ (u.engine (convStrand x / 8)).refBad = true)) ∧
    (up8 (a.deadline x d) ≤ up8 a.now → (a.engine (convStrand x / 8)).refBad = false → a.preceded x d (up8 a.now) = false →
      ∃ u, exec (.calForced t x) s = .next u ∧ (u.conv x).step = some { start := up8 a.now, stop := up8 a.now + stepTicks x, kind := .forced, range := s.convRange x } ∧
        (u.engine (convStrand x / 8)).cur = some x.val)) ∧
  (∀ g, (s.conv x).step = some g → g.void = false →
    ∃ u, exec (.calStepEnd x) s = .next u ∧ (u.conv x).step = none ∧ (u.conv x).due = none ∧ (u.conv x).meas = some g ∧
      Tab.get? (u.conv x).last g.range = some g.stop ∧ (u.engine (convStrand x / 8)).meas = some x.val ∧ u.now = (s.toTime g.stop).now) ∧
  (∀ (g : CalStep) (v : Correction), s.mc.running = true → (s.conv x).meas = some g →
    (isOutlier x ((s.conv x).inForce g.range a.now) (formedCorr v) = true →
      ∃ u, exec (.calCorrection t x v) s = .next u ∧ (u.conv x).outliers = (s.conv x).outliers + 1 ∧ (u.conv x).corr = (s.conv x).corr ∧ (u.conv x).meas = none) ∧
    (isOutlier x ((s.conv x).inForce g.range a.now) (formedCorr v) = false →
      (s.mode.mode = .calibrate →
        ∃ u, exec (.calCorrection t x v) s = .next u ∧ (u.conv x).corrOf g.range = formedCorr v ∧ (u.conv x).outliers = 0) ∧
      (s.mode.mode ≠ .calibrate → s.fld (.calApply x) 16 16 = 0 →
        ∃ u, exec (.calCorrection t x v) s = .next u ∧ (u.conv x).outliers = 0 ∧
          (u.conv x).ramp = some ⟨g.range, g.stop, s.fld (.calApply x) 10 0 * us, (s.conv x).inForce g.range a.now, formedCorr v⟩))) ∧
  (∀ (r : Nat) (c : Corr), (a.conv x).pend = some (r, c) → a.idleAt x (up8 a.now) = true →
    ∃ u, exec (.calApplyBoundary t x) s = .next u ∧ (u.conv x).corrOf r = c ∧ (u.conv x).pend = none) ∧
  (∀ r, (s.conv x).ramp = some r →
    ∃ u, exec (.rampComplete x) s = .next u ∧ (u.conv x).corrOf r.range = r.new ∧ (u.conv x).ramp = none ∧
      u.now = (s.toTime (r.start + r.len)).now) ∧
  (s.mode.mode = .calibrate → s.mode.trans = none → s.fgEnd ≤ a.now →
    ∃ u, exec (.fgCalDone t) s = .next u ∧ u.mode.trans = some (.ready, s.fgEnd + 10 * us))

/-- Register writes and reads by their access codes (R11, R14 to R17, R352, R418, R422). The same-cycle rule is
notes/assumptions/56. -/
def Obligations.RegisterRows : Prop := ∀ (s a : State) (t : BitVec 64) (off : BitVec 24) (w : Word), a = s.upTo t →
  ((RegId.ofOff off.toNat = none ∨ s.responds off.toNat = false) →
    (∃ u, exec (.registerWrite t off w 15) s = .next u ∧ u = a) ∧ (∃ u, exec (.profileWrite t off w) s = .next u ∧ u = a) ∧
    (∃ u, exec (.w1cWrite t off w) s = .next u ∧ u = a) ∧ (∃ u, exec (.reg64HighWrite t off w) s = .next u ∧ u = a) ∧
    (∃ u, exec (.rcRead t off) s = .next u ∧ u.rdata = 0) ∧ (∃ u, exec (.reg64LowRead t off) s = .next u ∧ u.rdata = 0)) ∧
  (∀ be, be ≠ 15 → ∃ u, exec (.registerWrite t off w be) s = .next u ∧ u = a) ∧
  (s.responds off.toNat = true →
    (∀ x : Fin 768, RegId.ofOff off.toNat = some (.calApply x) →
      (getF w 31 24 ≤ 2 →
        ∃ u, exec (.profileWrite t off w) s = .next u ∧ u.fld (.calApply x) 31 24 = getF w 31 24 ∧
          u.fld (.calApply x) 16 16 = (if getF w 31 24 = 0 then 1 else 0) ∧ u.fld (.calApply x) 10 0 = (if getF w 31 24 = 2 then 1024 else 16)) ∧
      (getF w 31 24 = 255 →
        ∃ u, exec (.registerWrite t off w 15) s = .next u ∧ u.fld (.calApply x) 31 24 = 255 ∧ u.fld (.calApply x) 16 16 = getF w 16 16 ∧
          u.fld (.calApply x) 10 0 = (if 1 ≤ getF w 10 0 ∧ getF w 10 0 ≤ 1024 then getF w 10 0 else a.fld (.calApply x) 10 0))) ∧
    (RegId.ofOff off.toNat = some .memTestBaseHi →
      ∃ u, exec (.reg64HighWrite t off w) s = .next u ∧ u.reg64 .memTestBaseLo .memTestBaseHi = (a.lowOf .memTestBaseLo).toNat + 2 ^ 32 * w.toNat) ∧
    (RegId.ofOff off.toNat = some .memFlags →
      ∃ u, exec (.w1cWrite t off w) s = .next u ∧ ∀ b : Fin 8, getF (u.flagWord .memFlags) b b =
        if getF w b b = 1 ∧ Tab.get a.flagAt (32 * RegId.off .memFlags + b) 0 ≠ a.now / 8 + 1 then 0 else getF (a.flagWord .memFlags) b b) ∧
    (∀ r : RegId, RegId.ofOff off.toNat = some r →
      (r.isRc = true → r.highOf = none → r.lowOf = none →
        ∃ u, exec (.rcRead t off) s = .next u ∧ ((∀ l, r = .hchPrbsErr l → a.prbsOn l = false) → u.rdata = wd (a.clearCount (a.rcKey r)).1) ∧
          Tab.get u.counts (a.rcKey r) 0 = min 0xFFFFFFFF (a.recentOf (a.rcKey r)).2.2) ∧
      (∀ h, r.highOf = some h → r.isRc = false → r.measuredMask = 0 →
        ∃ u, exec (.reg64LowRead t off) s = .next u ∧ u.rdata = a.peek r ∧ Tab.get? u.latch h.off = some (a.peek h))))

/-- A held ownership write takes effect once the cores are idle (R62). -/
def Obligations.HeldWriteTakesEffect : Prop := ∀ (s a : State) (t : BitVec 64) (off : BitVec 24) (w : Word) (k : Fin 32) (v : Fin 80), a = s.upTo t →
  RegId.ofOff off.toNat = some (.seqOwn k v) → s.heldFor (.seqOwn k v) = some w → strandIdle a k = true →
  ∃ u, exec (.heldWriteApply t off) s = .next u ∧ u.owner k v = getF w 2 0 ∧ u.heldFor (.seqOwn k v) = none

/-- Scrubbing, link retraining, die marks and SRAM errors (R359 to R366). Readings are notes/assumptions/41. -/
def Obligations.MemoryIntegrity : Prop := ∀ (s : State) (t : BitVec 64),
  (s.hbmOn = true → s.fld .memCtl 23 16 ≠ 0 → ∀ bad : List (Fin 68),
    (bad = [] → s.mem.poison.contains s.mem.scrubPos = false →
      ∃ u, exec (.scrubRead t bad) s = .next u ∧ u.mem.scrubPos = (s.mem.scrubPos + 1) % 2 ^ 29 ∧ u.mem.poison = s.mem.poison ∧ u.counts = s.counts) ∧
    (bad ≠ [] → s.mem.poison.contains s.mem.scrubPos = false → s.correctable ((bad.map (·.val)).dedup) = true →
      ∃ u, exec (.scrubRead t bad) s = .next u ∧ u.mem.scrubPos = (s.mem.scrubPos + 1) % 2 ^ 29 ∧ u.mem.ueAddr = s.mem.ueAddr ∧
        u.count .memCeCnt = min 0xFFFFFFFF (s.count .memCeCnt + 1)) ∧
    (s.correctable ((bad.map (·.val)).dedup) = false →
      ∃ u, exec (.scrubRead t bad) s = .next u ∧ u.mem.scrubPos = (s.mem.scrubPos + 1) % 2 ^ 29 ∧ u.mem.ueAddr = 64 * s.mem.scrubPos ∧
        u.count .memUeCnt = min 0xFFFFFFFF (s.count .memUeCnt + 1))) ∧
  (∀ (p : Fin 4) (n : Nat), (s.ply p).st = .locked → (s.ply p).retrain = none →
    ∃ u, exec (.flitCrcFail t p n) s = .next u ∧ u.count .memD2dRetry = min 0xFFFFFFFF (s.count .memD2dRetry + min 8 (n + 1)) ∧
      (u.ply p).retrain = (if n < 8 then none else some (s.at t).now)) ∧
  (∀ w : Word, s.blocksUp = true →
    ∃ u, exec (.diemarkWrite t w) s = .next u ∧ u.reg .memDieMark = RegId.mergeX .memDieMark (s.reg .memDieMark) w ∧
      u.pwr.jPend ≠ s.pwr.jPend) ∧
  (∀ (m : SramId) (word : Nat), s.scrubs m = true →
    (∃ u, exec (.sramScrub t m word .none) s = .next u ∧ u = s.at t) ∧
    (∃ u, exec (.sramScrub t m word .single) s = .next u ∧ u.count .memSramCe = min 0xFFFFFFFF (s.count .memSramCe + 1)) ∧
    (∃ u, exec (.sramScrub t m word .double) s = .next u ∧ u.count .memSramUe = min 0xFFFFFFFF (s.count .memSramUe + 1)) ∧
    ((∀ k, m ≠ .staging k) → m ≠ .burst → ∃ u, exec (.sramScrub t m word .double) s = .next u ∧ (m, word) ∈ u.badWords)) ∧
  (∀ (p : Fin 4) (r : Nat), (s.ply p).retrain = some r →
    ∃ u, exec (.d2dRetrainDone t p) s = .next u ∧ (u.ply p).retrain = none ∧ u.now = (s.clockTo (min t.toNat (r + 2 * us))).now)

/-- The memory self-test starts only in TEST, aborts and ends, whereupon READY follows 10 µs later (R41, R368, R369). Readings are
notes/assumptions/42. -/
def Obligations.MemoryTest : Prop := ∀ (s : State) (t : BitVec 64) (w : Word),
  s.blocksUp = true →
  (s.mode.mode ≠ .test → ∃ u, exec (.memTestStart t w) s = .next u ∧ u = s.at t) ∧
  (s.mode.mode = .test → s.mode.trans = none →
    (s.mem.test = none → getF w 30 30 = 0 → ∀ x : MemTest,
      x.target = ((s.at t).writeFields .memTestCtl (setF w 31 31 1)).fld .memTestCtl 11 8 →
      x.strand = ((s.at t).writeFields .memTestCtl (setF w 31 31 1)).fld .memTestCtl 4 0 →
      (x.base, x.len) = testRange x.target (s.reg64 .memTestBaseLo .memTestBaseHi) (s.reg64 .memTestLenLo .memTestLenHi) →
      x.raw = decide (((s.at t).writeFields .memTestCtl (setF w 31 31 1)).fld .memTestCtl 15 15 = 1) → x.abort = false →
      (s.testRefused x = true → ∃ u, exec (.memTestStart t w) s = .next u ∧ u.mem.stat = 8 ∧ u.mem.test = none) ∧
      (s.testRefused x = false → ∃ u, exec (.memTestStart t w) s = .next u ∧ u.mem.test = some x ∧ u.mem.stat = 0 ∧ u.mem.failAddr = 0)) ∧
    (∀ x, s.mem.test = some x → ∃ u, exec (.memTestAbort t w) s = .next u ∧ u.mem.test = some { x with abort := true })) ∧
  (∀ (x : MemTest) (fails : Nat) (first : BitVec 64) (sym : Fin 68), s.mem.test = some x →
    ∃ u, exec (.memTestEnd t fails first sym) s = .next u ∧ u.mem.test = none ∧
      u.mem.failAddr = (if 0 < fails then first.toNat else 0) ∧
      u.count .memTestFailCnt = min 0xFFFFFFFF (s.count .memTestFailCnt + fails) ∧
      (x.abort = false → u.mem.stat % 16 = (if fails = 0 then 6 else 2)) ∧ (x.abort = true → u.mem.stat / 16 % 2 = 1) ∧
      (∀ a, u.hbm.read a = if x.target = 0 ∧ 64 * x.base ≤ a ∧ a < 64 * (x.base + x.len) then 0 else s.hbm.read a) ∧
      (s.mode.mode = .test → s.mode.trans = none → u.mode.trans = some (.ready, (s.at t).now + 10 * us)))

/-- Loss of mains, rails, sensors, fans and the journal (R374 to R392). Readings are notes/assumptions/43, 44 and
46. -/
def Obligations.PowerAndSensors : Prop := ∀ (s : State) (t : BitVec 64),
  (s.supply = .on → ∃ u, exec (.pwrFail t) s = .next u ∧ u.supply = .holdUp ∧ u.now = (s.upTo t).now ∧ u.hbm = [] ∧ u.hostMem = s.hostMem ∧
    ∀ r : RegId, r.off ≠ RegId.off .pwrCtl → u.reg r = r.reset) ∧
  (s.supply = .holdUp →
    (s.pwr.jPend = [] → ∃ u, exec (.mainsRestored t) s = .next u ∧ u.supply = .off ∧ u.now = 0 ∧ u.pwr.jrn = s.pwr.jrn ∧ u.mc.slots = s.mc.slots) ∧
    (s.pwr.jPend ≠ [] → ∃ u, exec (.mainsRestored t) s = .next u ∧ u = s.at t) ∧
    (∃ u, exec .holdUpRunsOut s = .next u ∧ u.supply = .off ∧ u.pwr.jPend = [] ∧ u.pwr.jrn = s.pwr.jrn ∧ u.mc.slots = s.mc.slots)) ∧
  (∀ rail : Fin 20, s.railOn rail = true →
    (rail = 0 → s.supply = .on → ∃ u, exec (.railFault t rail) s = .next u ∧ u.supply = .holdUp) ∧
    (rail = 1 → s.mode.mode ≠ .dormant → s.mode.mode ≠ .safe → s.mode.tripAt = none →
      ∃ u, exec (.railFault t rail) s = .next u ∧ u.mode.trans = some (.safe, (s.upTo t).now + us)) ∧
    (rail = 2 ∨ rail = 3 → ∃ u, exec (.railFault t rail) s = .next u ∧ u.supply = .holdUp) ∧
    (4 ≤ rail.val → s.mode.mode ≠ .dormant → ∃ u, exec (.railFault t rail) s = .next u ∧ u.mode.plyPower = false ∧ u.mode.ucValid = false)) ∧
  (∀ temps : List Int, s.supply ≠ .off → temps.length = 22 →
    ∃ u, exec (.dieSensorRead t temps) s = .next u ∧ u.thm.temps = temps ∧ u.thm.rates = ratesOf s.thm.hist (s.upTo t).now temps) ∧
  (∀ temps : List (Option Int), s.supply ≠ .off → temps.length = 8 →
    ∃ u, exec (.thermistorRead t temps) s = .next u ∧ u.thm.ext = temps) ∧
  (∀ f : Fin 6, s.supply ≠ .off → ∃ u, exec (.fanFail t f) s = .next u ∧ getF (u.flagWord (.pwrFan f)) 16 16 = 1) ∧
  (∀ (cut : JournalCut) (j : JCause) (rest : List JCause), s.supply ≠ .off → s.mc.running = true → s.pwr.jPend = j :: rest →
    ∃ u, exec (.journalRecord t cut) s = .next u ∧ u.pwr.jPend = rest ∧ u.pwr.jSeq = s.pwr.jSeq + 1 ∧
      ∃ r : JRec, u.pwr.jrn.getLast? = some r ∧ r.seq = s.pwr.jSeq + 1 ∧ r.a.isSome = true ∧ (r.b.isSome = true ↔ cut = .both)) ∧
  (∀ w : Word, s.mode.mode ≠ .dormant → ∃ u, exec (.jrnselWrite t w) s = .next u ∧ u.reg .pwrJrnSel = w ∧
      u.pwr.jData = ((s.pwr.jrn.find? (fun r => r.seq == w.toNat)).bind JRec.passing).getD [])

/-- Watchdog, MC_RESTART and the end of a restart (R396 to R399). Readings are notes/assumptions/45; verification
results are operands (notes/assumptions/12). -/
def Obligations.ControllerRestart : Prop := ∀ (s : State) (t : BitVec 64),
  (s.mc.running = true → ∀ pc : Word,
    (∃ u, exec (.watchdogExpiry t pc) s = .next u ∧ restarting s u (s.at t).now pc.toNat) ∧
    (s.mode.mode ≠ .dormant → ∃ u, exec (.mcRestartWrite t 0x5A pc) s = .next u ∧ restarting s u (s.at t).now pc.toNat) ∧
    (∀ key, key ≠ 0x5A → ∃ u, exec (.mcRestartWrite t key pc) s = .next u ∧ u = s.at t)) ∧
  (∀ (r : Nat) (fw0 fw1 : ImageCheck), s.mc.restart = some r → s.mc.sel.fw < 2 →
    (s.verify 1 s.mc.sel.fw (if s.mc.sel.fw = 0 then fw0 else fw1) false = 0 →
      ∃ u, exec (.mcRestart t fw0 fw1) s = .next u ∧ u.mc.running = true ∧ u.mc.restart = none ∧ u.mc.fwSlot = s.mc.sel.fw ∧
        u.now = (s.clockTo (min t.toNat (r + 100 * ms))).now) ∧
    (s.verify 1 0 fw0 false ≠ 0 → s.verify 1 1 fw1 false ≠ 0 →
      ∃ u, exec (.mcRestart t fw0 fw1) s = .next u ∧ u.mc.running = false ∧ u.mc.stopped = true ∧ u.mc.restart = none))

/-- IMG_BEGIN, IMG_DATA, IMG_COMMIT, IMG_ABORT, SVN_COMMIT, REC_READ and CAGE_READ (R400 to R412). Verification
results and flash failures are operands (notes/assumptions/12). -/
def Obligations.MailboxCommands : Prop := ∀ (s : State) (t : BitVec 64),
  (s.mbTakes 0x01 = true → ∀ flash : Bool,
    (s.mbArg = 1 ∨ s.mbArg = 2 → (s.reg .mcMbArg).toNat ≠ 0 → (s.reg .mcMbArg).toNat ≤ slotSize s.mbArg →
      ∃ u, exec (.imgBegin t flash) s = .next u ∧ mbAnswers s u (if flash then 0 else 7) ∧ Tab.get u.mc.slots (s.inactive s.mbArg) [] = [] ∧
        u.mc.xfer = if flash then some { kind := s.mbArg, len := (s.reg .mcMbArg).toNat } else none) ∧
    (s.mbArg = 0 ∨ 3 ≤ s.mbArg → ∃ u, exec (.imgBegin t flash) s = .next u ∧ mbAnswers s u 2 ∧ u.mc.slots = s.mc.slots)) ∧
  (s.mbTakes 0x02 = true →
    (s.mc.xfer = none → ∃ u, exec (.imgData t true) s = .next u ∧ mbAnswers s u 3) ∧
    (∀ x, s.mc.xfer = some x → (s.reg .mcMbArg).toNat ≠ 0 → (s.reg .mcMbArg).toNat ≤ 2048 → 2048 * s.mbArg + (s.reg .mcMbArg).toNat ≤ x.len →
      ∃ u, exec (.imgData t true) s = .next u ∧ mbAnswers s u 0 ∧
        Tab.get u.mc.slots (s.inactive x.kind) [] = Mem.writes (Tab.get s.mc.slots (s.inactive x.kind) []) (2048 * s.mbArg) (s.mbBytes (s.reg .mcMbArg).toNat) ∧
        ∃ y, u.mc.xfer = some y ∧ s.mbArg ∈ y.chunks)) ∧
  (s.mbTakes 0x03 = true → s.mbArg = 0 → ∀ (c : ImageCheck) (x : Xfer), s.mc.xfer = some x →
    (∃ i, i < (x.len + 2047) / 2048 ∧ i ∉ x.chunks) → ∃ u, exec (.imgCommit t c true) s = .next u ∧ mbAnswers s u 3) ∧
  (s.mbTakes 0x03 = true → s.mbArg = 0 → ∀ (c : ImageCheck) (x : Xfer), s.mc.xfer = some x →
    (∀ i, i < (x.len + 2047) / 2048 → i ∈ x.chunks) →
    (s.verify x.kind (s.inactive x.kind) { c with flashOk := true } false ≠ 0 →
      ∃ u, exec (.imgCommit t c true) s = .next u ∧ mbAnswers s u 4 ∧ u.mc.sel = s.mc.sel ∧
        u.reg .mcMbArg = BitVec.ofNat 32 (s.verify x.kind (s.inactive x.kind) { c with flashOk := true } false)) ∧
    (s.verify x.kind (s.inactive x.kind) { c with flashOk := true } false = 0 →
      ∃ u, exec (.imgCommit t c true) s = .next u ∧ mbAnswers s u 0 ∧ u.mc.xfer = none ∧ u.mc.sel.gen = s.mc.sel.gen + 1 ∧
        u.mc.sel.fw = (if x.kind = 1 then s.inactive 1 % 2 else s.mc.sel.fw) ∧ u.mc.sel.uc = (if x.kind = 2 then s.inactive 2 % 2 else s.mc.sel.uc))) ∧
  (s.mbTakes 0x04 = true → s.mbArg = 0 → ∃ u, exec (.imgAbort t) s = .next u ∧ mbAnswers s u 0 ∧ u.mc.xfer = none) ∧
  (s.mbTakes 0x05 = true →
    (s.mbArg = 0x5A01 → ∃ u, exec (.svnCommit t) s = .next u ∧ mbAnswers s u 0 ∧ u.mc.minFw = max s.mc.minFw s.mc.fwSvn) ∧
    (s.mbArg = 0x5A02 → ∃ u, exec (.svnCommit t) s = .next u ∧ mbAnswers s u 0 ∧ u.mc.minUc = max s.mc.minUc s.mc.ucSvn) ∧
    (s.mbArg / 256 ≠ 0x5A → ∃ u, exec (.svnCommit t) s = .next u ∧ mbAnswers s u 2 ∧ u.mc.minFw = s.mc.minFw ∧ u.mc.minUc = s.mc.minUc)) ∧
  (s.mbTakes 0x10 = true →
    (s.mbArg < 128 → ∃ u, exec (.recRead t) s = .next u ∧ mbAnswers s u 0 ∧
      ∀ w < 512, u.reg (.mcMbData w) = Config.asBuilt (1024 + 512 * s.mbArg + w)) ∧
    (128 ≤ s.mbArg → ∃ u, exec (.recRead t) s = .next u ∧ mbAnswers s u 2)) ∧
  (s.mbTakes 0x11 = true →
    (s.mbArg < 1024 → ∃ u, exec (.cageRead t) s = .next u ∧ mbAnswers s u 0 ∧
      ∀ w < 32, u.reg (.mcMbData w) = BitVec.ofNat 32 (leNat ((List.range 4).map (fun i => Config.cageByte (s.mbArg / 256) (s.mbArg % 256) (4 * w + i))))) ∧
    (1024 ≤ s.mbArg → ∃ u, exec (.cageRead t) s = .next u ∧ mbAnswers s u 2))

/-- A write that needs the key and does not carry it is discarded in whole (R59, R397, R424). -/
def Obligations.KeyedWrites : Prop := ∀ (s : State) (t : BitVec 64),
  (∀ (off : BitVec 24) (w : Word) (r : RegId), RegId.ofOff off.toNat = some r → needsKey r w = true → getF w 31 24 ≠ 0x5A →
    exec (.registerWrite t off w 15) s = .next (s.upTo t) ∧ exec (.profileWrite t off w) s = .next (s.upTo t) ∧
    exec (.w1cWrite t off w) s = .next (s.upTo t) ∧ exec (.reg64HighWrite t off w) s = .next (s.upTo t)) ∧
  (∀ (key : BitVec 8) (hw hr : Bool), key ≠ 0x5A → exec (.reqDormant t key hw hr) s = .next (s.upTo t) ∧
    exec (.safeAck t key hw hr) s = .next (s.upTo t) ∧ exec (.modeReset t key hw hr) s = .next (s.upTo t)) ∧
  (∀ (key : BitVec 8) (k : Fin 32) (pc : Word), key ≠ 0x5A → exec (.strandReset t k key) s = .next (s.upTo t) ∧
    exec (.mcRestartWrite t key pc) s = .next (s.at t))

/-- An offset that no register has, or in an absent block, reads 0 and discards writes (R3, R416). -/
def Obligations.UnassignedOffsets : Prop := ∀ (s : State) (t : BitVec 64) (off : BitVec 24) (w : Word) (be : BitVec 4),
  (RegId.ofOff off.toNat = none ∨ s.absent off.toNat = true) →
  exec (.registerWrite t off w be) s = .next (s.upTo t) ∧ exec (.profileWrite t off w) s = .next (s.upTo t) ∧
  exec (.w1cWrite t off w) s = .next (s.upTo t) ∧ exec (.reg64HighWrite t off w) s = .next (s.upTo t) ∧
  exec (.rcRead t off) s = .next { s.upTo t with rdata := 0 } ∧ exec (.reg64LowRead t off) s = .next { s.upTo t with rdata := 0 }

/-- MEM_CTL.PROFILE sets the fields of its profile and nothing else (R17, R371). -/
def Obligations.MemoryProfile : Prop := ∀ (s : State) (t : BitVec 64) (w : Word), s.blocksUp = true → s.supply ≠ .off → getF w 31 24 ≤ 2 →
  ∃ u, exec (.profileWrite t 0x050000 w) s = .next u ∧
    u.fld .memCtl 31 24 = getF w 31 24 ∧
    u.fld .memCtl 23 16 = (if getF w 31 24 = 0 then 24 else if getF w 31 24 = 1 then 1 else 0) ∧
    u.fld .memCtl 15 8 = 0x10 ∧ u.fld .memCtl 0 0 = (if getF w 31 24 = 2 then 0 else 1) ∧
    ∀ r : RegId, r.off ≠ 0x050000 → u.reg r = (s.upTo t).reg r

/-- THM_CTL.PROFILE sets the fields of its profile and nothing else (R17, R394). -/
def Obligations.ThermalProfile : Prop := ∀ (s : State) (t : BitVec 64) (w : Word), s.mode.mode ≠ .dormant → s.supply ≠ .off → getF w 31 24 ≤ 2 →
  ∃ u, exec (.profileWrite t 0x003000 w) s = .next u ∧
    u.fld .thmCtl 31 24 = getF w 31 24 ∧
    u.fld .thmCtl 7 4 = (if getF w 31 24 = 2 then 2 else 4) ∧ u.fld .thmCtl 11 8 = (if getF w 31 24 = 2 then 5 else 10) ∧
    u.fld .thmCtl 1 0 = (if getF w 31 24 = 0 then 0 else 1) ∧
    ∀ r : RegId, r.off ≠ 0x003000 → u.reg r = (s.upTo t).reg r

/-- DISC_CTL[r].PROFILE sets the fields of its profile and nothing else (R17, R201). -/
def Obligations.DiscriminationProfile : Prop := ∀ (s : State) (t : BitVec 64) (off : BitVec 24) (w : Word) (k r : Fin 32),
  RegId.ofOff off.toNat = some (.discCtl k r) → s.responds off.toNat = true → strandTakes (s.upTo t) k → getF w 31 24 ≤ 1 →
  ∃ u, exec (.profileWrite t off w) s = .next u ∧
    u.fld (.discCtl k r) 31 24 = getF w 31 24 ∧
    u.fld (.discCtl k r) 0 0 = 1 - getF w 31 24 ∧ u.fld (.discCtl k r) 1 1 = 1 - getF w 31 24 ∧
    ∀ x : RegId, x.off ≠ RegId.off (.discCtl k r) → u.reg x = (s.upTo t).reg x

/-- PWR_JRNSEL shows the passing copy of the selected record in PWR_JRNDATA (R52, R388, R392). -/
def Obligations.JournalRegisters : Prop := ∀ (s : State) (t : BitVec 64) (w : Word), s.mode.mode ≠ .dormant → s.supply ≠ .off →
  ∃ u, exec (.jrnselWrite t w) s = .next u ∧ u.mode.mode = s.mode.mode ∧ u.supply = s.supply ∧
    ∀ v : State, v.pwr = u.pwr → v.mode.mode ≠ .dormant → v.supply ≠ .off →
      (∀ (t' : BitVec 64) (i : Fin 64), ∃ x, exec (.rcRead t' (BitVec.ofNat 24 (0x2100 + 4 * i))) v = .next x ∧
        x.rdata = BitVec.ofNat 32 (leAt (((s.pwr.jrn.find? (fun r => r.seq == w.toNat)).bind JRec.passing).getD []) (4 * i) 4)) ∧
      (∀ t' : BitVec 64, ∃ x, exec (.rcRead t' 0x2044) v = .next x ∧
        x.rdata = BitVec.ofNat 32 (maxOf 0 ((s.pwr.jrn.filter (fun r => r.passing.isSome)).map (·.seq))))
end

