-- ==== Sys2Proof/Laws/Bits.lean ====
section
/-! SUPPORT. Bit fields: a field read after it is written, and a field read after another is. -/

namespace Sys2Proof.Machine

theorem testBit_bits (w hi lo i : Nat) : (bits w hi lo).testBit i = (decide (i < hi - lo + 1) && w.testBit (lo + i)) := by
  simp [bits, Nat.testBit_mod_two_pow, Nat.testBit_shiftRight]

theorem testBit_setF (w : Word) (hi lo v i : Nat) (hi32 : hi < 32) (hl : lo ≤ hi) :
    (setF w hi lo v).toNat.testBit i =
      if lo ≤ i ∧ i ≤ hi then v.testBit (i - lo) else w.toNat.testBit i := by
  have hm : ∀ j, ((2 ^ (hi - lo + 1) - 1) <<< lo).testBit j = decide (lo ≤ j ∧ j ≤ hi) := by
    intro j
    rw [Nat.testBit_shiftLeft, Nat.testBit_two_pow_sub_one]
    by_cases h : lo ≤ j <;> simp [h]
    omega
  have hf : (0xFFFFFFFF : Nat) = 2 ^ 32 - 1 := rfl
  have hw : ∀ j, 32 ≤ j → w.toNat.testBit j = false := fun j hj => BitVec.testBit_toNat w ▸ BitVec.getLsbD_of_ge w j hj
  simp only [setF, BitVec.toNat_ofNat, Nat.testBit_mod_two_pow, Nat.testBit_or, Nat.testBit_and, Nat.testBit_xor, hm, hf,
    Nat.testBit_two_pow_sub_one, Nat.testBit_shiftLeft]
  by_cases h32 : i < 32
  · by_cases h : lo ≤ i ∧ i ≤ hi
    · obtain ⟨h1, h2⟩ := h
      simp [h32, h1, h2]
    · simp only [h32, h, decide_true, decide_false, Bool.true_and, Bool.and_false, Bool.or_false, if_false]
      simp
  · have h : ¬ (lo ≤ i ∧ i ≤ hi) := by omega
    simp [h32, h, hw i (by omega)]

/-- A field reads as it was written, in its width. -/
theorem getF_setF (w : Word) (hi lo v : Nat) (h : hi < 32) (hl : lo ≤ hi) :
    getF (setF w hi lo v) hi lo = v % 2 ^ (hi - lo + 1) := by
  refine Nat.eq_of_testBit_eq (fun i => ?_)
  rw [getF, testBit_bits, testBit_setF _ _ _ _ _ h hl, Nat.testBit_mod_two_pow]
  by_cases hi' : i < hi - lo + 1
  · have : lo ≤ lo + i ∧ lo + i ≤ hi := by omega
    simp [hi', this]
  · simp [hi']

/-- A write of a field leaves every field apart from it alone. -/
theorem getF_setF_ne (w : Word) (hi lo v x y : Nat) (h : hi < 32) (hl : lo ≤ hi) (hxy : y ≤ x ∧ (x < lo ∨ hi < y)) :
    getF (setF w hi lo v) x y = getF w x y := by
  refine Nat.eq_of_testBit_eq (fun i => ?_)
  rw [getF, getF, testBit_bits, testBit_bits, testBit_setF _ _ _ _ _ h hl]
  by_cases hi' : i < x - y + 1
  · have : ¬ (lo ≤ y + i ∧ y + i ≤ hi) := by omega
    simp [hi', this]
  · simp [hi']

theorem getF_lt (w : Word) (hi lo : Nat) : getF w hi lo < 2 ^ (hi - lo + 1) := by
  unfold getF bits
  exact Nat.mod_lt _ (Nat.two_pow_pos _)

/-- A word written field by field equals the word written at once where the fields are its own. -/
theorem getF_setF_self (w : Word) (hi lo : Nat) (u : Word) (h : hi < 32) (hl : lo ≤ hi) :
    getF (setF w hi lo (getF u hi lo)) hi lo = getF u hi lo := by
  rw [getF_setF _ _ _ _ h hl]
  exact Nat.mod_eq_of_lt (getF_lt u hi lo)

end Sys2Proof.Machine
end

