-- ==== Sys2Proof/Laws/Mem.lean ====
section
/-! SUPPORT. Sparse arrays and memories: what a read after a write gives, and that every memory operation keeps the
canonical form. -/

namespace Sys2Proof.Machine

@[simp] theorem Tab.get_put {α : Type} (l : Tab α) (k : Nat) (v d : α) : Tab.get (Tab.put l k v) k d = v := by
  induction l with
  | nil => simp [Tab.put, Tab.get]
  | cons p l ih => obtain ⟨j, u⟩ := p; simp only [Tab.put]; split_ifs <;> simp_all [Tab.get]; omega

theorem Tab.get_put_ne {α : Type} (l : Tab α) {k x : Nat} (v d : α) (h : x ≠ k) :
    Tab.get (Tab.put l k v) x d = Tab.get l x d := by
  induction l with
  | nil => simp [Tab.put, Tab.get, h.symm]
  | cons p l ih =>
    obtain ⟨j, u⟩ := p
    simp only [Tab.put]
    split_ifs with h1 h2
    · simp [Tab.get, h.symm]
    · subst h2; simp [Tab.get, h.symm]
    · simp [Tab.get, ih]

@[simp] theorem Mem.read_nil (a : Nat) : Mem.read [] a = 0 := rfl

theorem Tab.get_filter_ne (m : Mem) {a x : Nat} (h : x ≠ a) :
    Tab.get (m.filter (fun c => decide (c.1 ≠ a))) x 0 = Tab.get m x 0 := by
  induction m with
  | nil => rfl
  | cons c m ih =>
    by_cases hc : c.1 = a
    · have : c.1 ≠ x := by omega
      simp_all [Tab.get]
    · simp_all [Tab.get]

theorem Tab.get_filter_same (m : Mem) (a : Nat) : Tab.get (m.filter (fun c => decide (c.1 ≠ a))) a 0 = 0 := by
  induction m with
  | nil => rfl
  | cons c m ih => by_cases hc : c.1 = a <;> simp_all [Tab.get]

/-- A byte read after it is written is the byte written. -/
@[simp] theorem Mem.read_write (m : Mem) (a : Nat) (b : Byte) : Mem.read (Mem.write m a b) a = b := by
  unfold Mem.read Mem.write
  split_ifs with h
  · rw [Tab.get_filter_same, h]
  · exact Tab.get_put ..

/-- A write leaves every other byte alone. -/
theorem Mem.read_write_ne (m : Mem) {a x : Nat} (b : Byte) (h : x ≠ a) : Mem.read (Mem.write m a b) x = Mem.read m x := by
  unfold Mem.read Mem.write
  split_ifs
  · exact Tab.get_filter_ne m h
  · exact Tab.get_put_ne _ _ _ h

/-- Bytes written leave every byte outside them alone. -/
theorem Mem.read_writes_out (m : Mem) (a : Nat) (bs : List Byte) {x : Nat} (h : x < a ∨ a + bs.length ≤ x) :
    Mem.read (Mem.writes m a bs) x = Mem.read m x := by
  induction bs generalizing m a with
  | nil => rfl
  | cons b bs ih =>
    simp only [List.length_cons] at h
    rw [Mem.writes, ih _ _ (by omega), Mem.read_write_ne _ _ (by omega)]

/-- Bytes written read back as they were written. -/
theorem Mem.read_writes_in (m : Mem) (a : Nat) (bs : List Byte) (i : Nat) (h : i < bs.length) :
    Mem.read (Mem.writes m a bs) (a + i) = bs[i] := by
  induction bs generalizing m a i with
  | nil => simp at h
  | cons b bs ih =>
    rw [Mem.writes]
    cases i with
    | zero => simpa using Mem.read_writes_out (Mem.write m a b) (a + 1) bs (x := a) (by omega)
    | succ i => simpa [Nat.add_assoc, Nat.add_comm 1] using ih (Mem.write m a b) (a + 1) i (by simpa using h)

theorem Mem.reads_writes (m : Mem) (a : Nat) (bs : List Byte) : Mem.reads (Mem.writes m a bs) a bs.length = bs := by
  have aux : ∀ (q : Mem) (n a : Nat), Mem.reads q a n = (List.range n).map (fun i => Mem.read q (a + i)) := by
    intro q n
    induction n with
    | zero => intro a; rfl
    | succ n ih =>
      intro a
      rw [Mem.reads, ih, List.range_succ_eq_map]
      simp [Function.comp_def, Nat.add_assoc, Nat.add_comm 1]
  rw [aux]
  refine List.ext_getElem (by simp) (fun i h1 h2 => ?_)
  simp only [List.getElem_map, List.getElem_range]
  exact Mem.read_writes_in m a bs i h2

-- the canonical form

theorem Mem.wf_iff (m : Mem) : Mem.wf m = true ↔ m.Pairwise (fun c d => c.1 < d.1) ∧ ∀ c ∈ m, c.2 ≠ 0 := by
  induction m with
  | nil => simp [Mem.wf]
  | cons c m ih =>
    cases m with
    | nil => simp [Mem.wf]
    | cons d m =>
      simp only [Mem.wf, Bool.and_eq_true, bne_iff_ne, decide_eq_true_eq, ih, List.pairwise_cons, List.mem_cons]
      constructor
      · rintro ⟨⟨h0, h1⟩, ⟨h2, h3⟩, h4⟩
        refine ⟨⟨?_, h2, h3⟩, ?_⟩
        · rintro x (rfl | hx)
          · exact h1
          · exact h1.trans (h2 x hx)
        · rintro x (rfl | hx)
          · exact h0
          · exact h4 x hx
      · rintro ⟨⟨h1, h2, h3⟩, h4⟩
        exact ⟨⟨h4 c (.inl rfl), h1 d (.inl rfl)⟩, ⟨h2, h3⟩, fun x hx => h4 x (.inr hx)⟩

@[simp] theorem Mem.wf_nil : Mem.wf [] = true := rfl

/-- Any selection of a canonical memory's entries is canonical. -/
theorem Mem.wf_filter {m : Mem} (p : Host.Cell → Bool) (h : Mem.wf m = true) : Mem.wf (m.filter p) = true := by
  rw [Mem.wf_iff] at h ⊢
  exact ⟨h.1.filter _, fun c hc => h.2 c (List.mem_filter.mp hc).1⟩

theorem Tab.mem_put {α : Type} {l : Tab α} {k : Nat} {v : α} {c : Nat × α} (h : c ∈ Tab.put l k v) : c = (k, v) ∨ c ∈ l := by
  induction l with
  | nil => simp_all [Tab.put]
  | cons p l ih =>
    obtain ⟨j, u⟩ := p
    simp only [Tab.put] at h
    split_ifs at h <;> simp only [List.mem_cons] at h ⊢ <;> tauto

theorem Tab.put_sorted {α : Type} {l : Tab α} {k : Nat} {v : α} (h : l.Pairwise (fun c d => c.1 < d.1)) :
    (Tab.put l k v).Pairwise (fun c d => c.1 < d.1) := by
  induction l with
  | nil => simp [Tab.put]
  | cons p l ih =>
    obtain ⟨j, u⟩ := p
    rw [List.pairwise_cons] at h
    simp only [Tab.put]
    split_ifs with h1 h2
    · refine List.pairwise_cons.mpr ⟨?_, List.pairwise_cons.mpr h⟩
      intro c hc
      rcases List.mem_cons.mp hc with rfl | hc
      · exact h1
      · exact h1.trans (h.1 c hc)
    · subst h2; exact List.pairwise_cons.mpr h
    · refine List.pairwise_cons.mpr ⟨?_, ih h.2⟩
      intro c hc
      rcases Tab.mem_put hc with rfl | hc
      · simp; omega
      · exact h.1 c hc

/-- A write keeps the canonical form. -/
theorem Mem.wf_write {m : Mem} (a : Nat) (b : Byte) (h : Mem.wf m = true) : Mem.wf (Mem.write m a b) = true := by
  unfold Mem.write
  split_ifs with hb
  · exact Mem.wf_filter _ h
  · rw [Mem.wf_iff] at h ⊢
    refine ⟨Tab.put_sorted h.1, fun c hc => ?_⟩
    rcases Tab.mem_put hc with rfl | hc
    · exact hb
    · exact h.2 c hc

theorem Mem.wf_writes {m : Mem} (a : Nat) (bs : List Byte) (h : Mem.wf m = true) : Mem.wf (Mem.writes m a bs) = true := by
  induction bs generalizing m a with
  | nil => exact h
  | cons b bs ih => exact ih _ (Mem.wf_write a b h)

/-- Clearing a range keeps the canonical form. -/
theorem Mem.wf_zero {m : Mem} (a n : Nat) (h : Mem.wf m = true) : Mem.wf (Mem.zero m a n) = true := Mem.wf_filter _ h

end Sys2Proof.Machine
end

