-- ==== Sys2Proof/Laws/State.lean ====
section
/-! SUPPORT. What each field of the state is after each named update, and what each accessor gives after the update of what
it reads: no later proof unfolds a record update. -/

namespace Sys2Proof.Machine

@[simp] theorem State.clockTo_pending (s : State) (t : Nat) : (s.clockTo t).pending = s.pending := rfl
@[simp] theorem State.clockTo_now (s : State) (t : Nat) : (s.clockTo t).now = wrap64 (s.timeAt t) := rfl
@[simp] theorem State.clockTo_free (s : State) (t : Nat) : (s.clockTo t).free = s.free := rfl
@[simp] theorem State.clockTo_rdata (s : State) (t : Nat) : (s.clockTo t).rdata = s.rdata := rfl
@[simp] theorem State.clockTo_supply (s : State) (t : Nat) : (s.clockTo t).supply = s.supply := rfl
@[simp] theorem State.clockTo_half (s : State) (t : Nat) : (s.clockTo t).half = s.half := rfl
@[simp] theorem State.clockTo_regs (s : State) (t : Nat) : (s.clockTo t).regs = s.regs := rfl
@[simp] theorem State.clockTo_latch (s : State) (t : Nat) : (s.clockTo t).latch = s.latch := rfl
@[simp] theorem State.clockTo_lows (s : State) (t : Nat) : (s.clockTo t).lows = s.lows := rfl
@[simp] theorem State.clockTo_held (s : State) (t : Nat) : (s.clockTo t).held = s.held := rfl
@[simp] theorem State.clockTo_frameW (s : State) (t : Nat) : (s.clockTo t).frameW = s.frameW := rfl
@[simp] theorem State.clockTo_frameLog (s : State) (t : Nat) : (s.clockTo t).frameLog = s.frameLog := rfl
@[simp] theorem State.clockTo_flags (s : State) (t : Nat) : (s.clockTo t).flags = s.flags := rfl
@[simp] theorem State.clockTo_counts (s : State) (t : Nat) : (s.clockTo t).counts = s.counts := rfl
@[simp] theorem State.clockTo_flagAt (s : State) (t : Nat) : (s.clockTo t).flagAt = s.flagAt := rfl
@[simp] theorem State.clockTo_recent (s : State) (t : Nat) : (s.clockTo t).recent = s.recent := rfl
@[simp] theorem State.clockTo_ev (s : State) (t : Nat) : (s.clockTo t).ev = s.ev := rfl
@[simp] theorem State.clockTo_queues (s : State) (t : Nat) : (s.clockTo t).queues = s.queues := rfl
@[simp] theorem State.clockTo_mode (s : State) (t : Nat) : (s.clockTo t).mode = s.mode := rfl
@[simp] theorem State.clockTo_plies (s : State) (t : Nat) : (s.clockTo t).plies = s.plies := rfl
@[simp] theorem State.clockTo_strands (s : State) (t : Nat) : (s.clockTo t).strands = s.strands := rfl
@[simp] theorem State.clockTo_cores (s : State) (t : Nat) : (s.clockTo t).cores = s.cores := rfl
@[simp] theorem State.clockTo_units (s : State) (t : Nat) : (s.clockTo t).units = s.units := rfl
@[simp] theorem State.clockTo_outs (s : State) (t : Nat) : (s.clockTo t).outs = s.outs := rfl
@[simp] theorem State.clockTo_inps (s : State) (t : Nat) : (s.clockTo t).inps = s.inps := rfl
@[simp] theorem State.clockTo_rtones (s : State) (t : Nat) : (s.clockTo t).rtones = s.rtones := rfl
@[simp] theorem State.clockTo_dec (s : State) (t : Nat) : (s.clockTo t).dec = s.dec := rfl
@[simp] theorem State.clockTo_hch (s : State) (t : Nat) : (s.clockTo t).hch = s.hch := rfl
@[simp] theorem State.clockTo_badWords (s : State) (t : Nat) : (s.clockTo t).badWords = s.badWords := rfl
@[simp] theorem State.clockTo_convs (s : State) (t : Nat) : (s.clockTo t).convs = s.convs := rfl
@[simp] theorem State.clockTo_engines (s : State) (t : Nat) : (s.clockTo t).engines = s.engines := rfl
@[simp] theorem State.clockTo_thm (s : State) (t : Nat) : (s.clockTo t).thm = s.thm := rfl
@[simp] theorem State.clockTo_pwr (s : State) (t : Nat) : (s.clockTo t).pwr = s.pwr := rfl
@[simp] theorem State.clockTo_mc (s : State) (t : Nat) : (s.clockTo t).mc = s.mc := rfl
@[simp] theorem State.clockTo_mem (s : State) (t : Nat) : (s.clockTo t).mem = s.mem := rfl
@[simp] theorem State.clockTo_sync (s : State) (t : Nat) : (s.clockTo t).sync = s.sync := rfl
@[simp] theorem State.clockTo_ptp (s : State) (t : Nat) : (s.clockTo t).ptp = s.ptp := rfl
@[simp] theorem State.clockTo_hif (s : State) (t : Nat) : (s.clockTo t).hif = s.hif := rfl
@[simp] theorem State.clockTo_mon (s : State) (t : Nat) : (s.clockTo t).mon = s.mon := rfl
@[simp] theorem State.clockTo_tio (s : State) (t : Nat) : (s.clockTo t).tio = s.tio := rfl
@[simp] theorem State.clockTo_hbm (s : State) (t : Nat) : (s.clockTo t).hbm = s.hbm := rfl
@[simp] theorem State.clockTo_seqSram (s : State) (t : Nat) : (s.clockTo t).seqSram = s.seqSram := rfl
@[simp] theorem State.clockTo_ucode (s : State) (t : Nat) : (s.clockTo t).ucode = s.ucode := rfl
@[simp] theorem State.clockTo_envSram (s : State) (t : Nat) : (s.clockTo t).envSram = s.envSram := rfl
@[simp] theorem State.clockTo_kernel (s : State) (t : Nat) : (s.clockTo t).kernel = s.kernel := rfl
@[simp] theorem State.clockTo_envTab (s : State) (t : Nat) : (s.clockTo t).envTab = s.envTab := rfl
@[simp] theorem State.clockTo_hostMem (s : State) (t : Nat) : (s.clockTo t).hostMem = s.hostMem := rfl

@[simp] theorem State.at_pending (s : State) (t : BitVec 64) : (s.at t).pending = s.pending := rfl
@[simp] theorem State.at_now (s : State) (t : BitVec 64) : (s.at t).now = wrap64 (s.timeAt t.toNat) := rfl
@[simp] theorem State.at_free (s : State) (t : BitVec 64) : (s.at t).free = s.free := rfl
@[simp] theorem State.at_rdata (s : State) (t : BitVec 64) : (s.at t).rdata = s.rdata := rfl
@[simp] theorem State.at_supply (s : State) (t : BitVec 64) : (s.at t).supply = s.supply := rfl
@[simp] theorem State.at_half (s : State) (t : BitVec 64) : (s.at t).half = s.half := rfl
@[simp] theorem State.at_regs (s : State) (t : BitVec 64) : (s.at t).regs = s.regs := rfl
@[simp] theorem State.at_latch (s : State) (t : BitVec 64) : (s.at t).latch = s.latch := rfl
@[simp] theorem State.at_lows (s : State) (t : BitVec 64) : (s.at t).lows = s.lows := rfl
@[simp] theorem State.at_held (s : State) (t : BitVec 64) : (s.at t).held = s.held := rfl
@[simp] theorem State.at_frameW (s : State) (t : BitVec 64) : (s.at t).frameW = s.frameW := rfl
@[simp] theorem State.at_frameLog (s : State) (t : BitVec 64) : (s.at t).frameLog = s.frameLog := rfl
@[simp] theorem State.at_flags (s : State) (t : BitVec 64) : (s.at t).flags = s.flags := rfl
@[simp] theorem State.at_counts (s : State) (t : BitVec 64) : (s.at t).counts = s.counts := rfl
@[simp] theorem State.at_flagAt (s : State) (t : BitVec 64) : (s.at t).flagAt = s.flagAt := rfl
@[simp] theorem State.at_recent (s : State) (t : BitVec 64) : (s.at t).recent = s.recent := rfl
@[simp] theorem State.at_ev (s : State) (t : BitVec 64) : (s.at t).ev = s.ev := rfl
@[simp] theorem State.at_queues (s : State) (t : BitVec 64) : (s.at t).queues = s.queues := rfl
@[simp] theorem State.at_mode (s : State) (t : BitVec 64) : (s.at t).mode = s.mode := rfl
@[simp] theorem State.at_plies (s : State) (t : BitVec 64) : (s.at t).plies = s.plies := rfl
@[simp] theorem State.at_strands (s : State) (t : BitVec 64) : (s.at t).strands = s.strands := rfl
@[simp] theorem State.at_cores (s : State) (t : BitVec 64) : (s.at t).cores = s.cores := rfl
@[simp] theorem State.at_units (s : State) (t : BitVec 64) : (s.at t).units = s.units := rfl
@[simp] theorem State.at_outs (s : State) (t : BitVec 64) : (s.at t).outs = s.outs := rfl
@[simp] theorem State.at_inps (s : State) (t : BitVec 64) : (s.at t).inps = s.inps := rfl
@[simp] theorem State.at_rtones (s : State) (t : BitVec 64) : (s.at t).rtones = s.rtones := rfl
@[simp] theorem State.at_dec (s : State) (t : BitVec 64) : (s.at t).dec = s.dec := rfl
@[simp] theorem State.at_hch (s : State) (t : BitVec 64) : (s.at t).hch = s.hch := rfl
@[simp] theorem State.at_badWords (s : State) (t : BitVec 64) : (s.at t).badWords = s.badWords := rfl
@[simp] theorem State.at_convs (s : State) (t : BitVec 64) : (s.at t).convs = s.convs := rfl
@[simp] theorem State.at_engines (s : State) (t : BitVec 64) : (s.at t).engines = s.engines := rfl
@[simp] theorem State.at_thm (s : State) (t : BitVec 64) : (s.at t).thm = s.thm := rfl
@[simp] theorem State.at_pwr (s : State) (t : BitVec 64) : (s.at t).pwr = s.pwr := rfl
@[simp] theorem State.at_mc (s : State) (t : BitVec 64) : (s.at t).mc = s.mc := rfl
@[simp] theorem State.at_mem (s : State) (t : BitVec 64) : (s.at t).mem = s.mem := rfl
@[simp] theorem State.at_sync (s : State) (t : BitVec 64) : (s.at t).sync = s.sync := rfl
@[simp] theorem State.at_ptp (s : State) (t : BitVec 64) : (s.at t).ptp = s.ptp := rfl
@[simp] theorem State.at_hif (s : State) (t : BitVec 64) : (s.at t).hif = s.hif := rfl
@[simp] theorem State.at_mon (s : State) (t : BitVec 64) : (s.at t).mon = s.mon := rfl
@[simp] theorem State.at_tio (s : State) (t : BitVec 64) : (s.at t).tio = s.tio := rfl
@[simp] theorem State.at_hbm (s : State) (t : BitVec 64) : (s.at t).hbm = s.hbm := rfl
@[simp] theorem State.at_seqSram (s : State) (t : BitVec 64) : (s.at t).seqSram = s.seqSram := rfl
@[simp] theorem State.at_ucode (s : State) (t : BitVec 64) : (s.at t).ucode = s.ucode := rfl
@[simp] theorem State.at_envSram (s : State) (t : BitVec 64) : (s.at t).envSram = s.envSram := rfl
@[simp] theorem State.at_kernel (s : State) (t : BitVec 64) : (s.at t).kernel = s.kernel := rfl
@[simp] theorem State.at_envTab (s : State) (t : BitVec 64) : (s.at t).envTab = s.envTab := rfl
@[simp] theorem State.at_hostMem (s : State) (t : BitVec 64) : (s.at t).hostMem = s.hostMem := rfl

@[simp] theorem State.tick_pending (s : State) : (s.tick).pending = s.pending := rfl
@[simp] theorem State.tick_now (s : State) : (s.tick).now = s.now := rfl
@[simp] theorem State.tick_free (s : State) : (s.tick).free = s.free + 1 := rfl
@[simp] theorem State.tick_rdata (s : State) : (s.tick).rdata = s.rdata := rfl
@[simp] theorem State.tick_supply (s : State) : (s.tick).supply = s.supply := rfl
@[simp] theorem State.tick_half (s : State) : (s.tick).half = s.half := rfl
@[simp] theorem State.tick_regs (s : State) : (s.tick).regs = s.regs := rfl
@[simp] theorem State.tick_latch (s : State) : (s.tick).latch = s.latch := rfl
@[simp] theorem State.tick_lows (s : State) : (s.tick).lows = s.lows := rfl
@[simp] theorem State.tick_held (s : State) : (s.tick).held = s.held := rfl
@[simp] theorem State.tick_frameW (s : State) : (s.tick).frameW = s.frameW := rfl
@[simp] theorem State.tick_frameLog (s : State) : (s.tick).frameLog = s.frameLog := rfl
@[simp] theorem State.tick_flags (s : State) : (s.tick).flags = s.flags := rfl
@[simp] theorem State.tick_counts (s : State) : (s.tick).counts = s.counts := rfl
@[simp] theorem State.tick_flagAt (s : State) : (s.tick).flagAt = s.flagAt := rfl
@[simp] theorem State.tick_recent (s : State) : (s.tick).recent = s.recent := rfl
@[simp] theorem State.tick_ev (s : State) : (s.tick).ev = s.ev := rfl
@[simp] theorem State.tick_queues (s : State) : (s.tick).queues = s.queues := rfl
@[simp] theorem State.tick_mode (s : State) : (s.tick).mode = s.mode := rfl
@[simp] theorem State.tick_plies (s : State) : (s.tick).plies = s.plies := rfl
@[simp] theorem State.tick_strands (s : State) : (s.tick).strands = s.strands := rfl
@[simp] theorem State.tick_cores (s : State) : (s.tick).cores = s.cores := rfl
@[simp] theorem State.tick_units (s : State) : (s.tick).units = s.units := rfl
@[simp] theorem State.tick_outs (s : State) : (s.tick).outs = s.outs := rfl
@[simp] theorem State.tick_inps (s : State) : (s.tick).inps = s.inps := rfl
@[simp] theorem State.tick_rtones (s : State) : (s.tick).rtones = s.rtones := rfl
@[simp] theorem State.tick_dec (s : State) : (s.tick).dec = s.dec := rfl
@[simp] theorem State.tick_hch (s : State) : (s.tick).hch = s.hch := rfl
@[simp] theorem State.tick_badWords (s : State) : (s.tick).badWords = s.badWords := rfl
@[simp] theorem State.tick_convs (s : State) : (s.tick).convs = s.convs := rfl
@[simp] theorem State.tick_engines (s : State) : (s.tick).engines = s.engines := rfl
@[simp] theorem State.tick_thm (s : State) : (s.tick).thm = s.thm := rfl
@[simp] theorem State.tick_pwr (s : State) : (s.tick).pwr = s.pwr := rfl
@[simp] theorem State.tick_mc (s : State) : (s.tick).mc = s.mc := rfl
@[simp] theorem State.tick_mem (s : State) : (s.tick).mem = s.mem := rfl
@[simp] theorem State.tick_sync (s : State) : (s.tick).sync = s.sync := rfl
@[simp] theorem State.tick_ptp (s : State) : (s.tick).ptp = s.ptp := rfl
@[simp] theorem State.tick_hif (s : State) : (s.tick).hif = s.hif := rfl
@[simp] theorem State.tick_mon (s : State) : (s.tick).mon = s.mon := rfl
@[simp] theorem State.tick_tio (s : State) : (s.tick).tio = s.tio := rfl
@[simp] theorem State.tick_hbm (s : State) : (s.tick).hbm = s.hbm := rfl
@[simp] theorem State.tick_seqSram (s : State) : (s.tick).seqSram = s.seqSram := rfl
@[simp] theorem State.tick_ucode (s : State) : (s.tick).ucode = s.ucode := rfl
@[simp] theorem State.tick_envSram (s : State) : (s.tick).envSram = s.envSram := rfl
@[simp] theorem State.tick_kernel (s : State) : (s.tick).kernel = s.kernel := rfl
@[simp] theorem State.tick_envTab (s : State) : (s.tick).envTab = s.envTab := rfl
@[simp] theorem State.tick_hostMem (s : State) : (s.tick).hostMem = s.hostMem := rfl

@[simp] theorem State.setReg_pending (s : State) (r : RegId) (w : Word) : (s.setReg r w).pending = s.pending := rfl
@[simp] theorem State.setReg_now (s : State) (r : RegId) (w : Word) : (s.setReg r w).now = s.now := rfl
@[simp] theorem State.setReg_free (s : State) (r : RegId) (w : Word) : (s.setReg r w).free = s.free := rfl
@[simp] theorem State.setReg_rdata (s : State) (r : RegId) (w : Word) : (s.setReg r w).rdata = s.rdata := rfl
@[simp] theorem State.setReg_supply (s : State) (r : RegId) (w : Word) : (s.setReg r w).supply = s.supply := rfl
@[simp] theorem State.setReg_half (s : State) (r : RegId) (w : Word) : (s.setReg r w).half = s.half := rfl
@[simp] theorem State.setReg_regs (s : State) (r : RegId) (w : Word) : (s.setReg r w).regs = Tab.put s.regs r.off w := rfl
@[simp] theorem State.setReg_latch (s : State) (r : RegId) (w : Word) : (s.setReg r w).latch = s.latch := rfl
@[simp] theorem State.setReg_lows (s : State) (r : RegId) (w : Word) : (s.setReg r w).lows = s.lows := rfl
@[simp] theorem State.setReg_held (s : State) (r : RegId) (w : Word) : (s.setReg r w).held = s.held := rfl
@[simp] theorem State.setReg_frameW (s : State) (r : RegId) (w : Word) : (s.setReg r w).frameW = s.frameW := rfl
@[simp] theorem State.setReg_frameLog (s : State) (r : RegId) (w : Word) : (s.setReg r w).frameLog = s.frameLog := rfl
@[simp] theorem State.setReg_flags (s : State) (r : RegId) (w : Word) : (s.setReg r w).flags = s.flags := rfl
@[simp] theorem State.setReg_counts (s : State) (r : RegId) (w : Word) : (s.setReg r w).counts = s.counts := rfl
@[simp] theorem State.setReg_flagAt (s : State) (r : RegId) (w : Word) : (s.setReg r w).flagAt = s.flagAt := rfl
@[simp] theorem State.setReg_recent (s : State) (r : RegId) (w : Word) : (s.setReg r w).recent = s.recent := rfl
@[simp] theorem State.setReg_ev (s : State) (r : RegId) (w : Word) : (s.setReg r w).ev = s.ev := rfl
@[simp] theorem State.setReg_queues (s : State) (r : RegId) (w : Word) : (s.setReg r w).queues = s.queues := rfl
@[simp] theorem State.setReg_mode (s : State) (r : RegId) (w : Word) : (s.setReg r w).mode = s.mode := rfl
@[simp] theorem State.setReg_plies (s : State) (r : RegId) (w : Word) : (s.setReg r w).plies = s.plies := rfl
@[simp] theorem State.setReg_strands (s : State) (r : RegId) (w : Word) : (s.setReg r w).strands = s.strands := rfl
@[simp] theorem State.setReg_cores (s : State) (r : RegId) (w : Word) : (s.setReg r w).cores = s.cores := rfl
@[simp] theorem State.setReg_units (s : State) (r : RegId) (w : Word) : (s.setReg r w).units = s.units := rfl
@[simp] theorem State.setReg_outs (s : State) (r : RegId) (w : Word) : (s.setReg r w).outs = s.outs := rfl
@[simp] theorem State.setReg_inps (s : State) (r : RegId) (w : Word) : (s.setReg r w).inps = s.inps := rfl
@[simp] theorem State.setReg_rtones (s : State) (r : RegId) (w : Word) : (s.setReg r w).rtones = s.rtones := rfl
@[simp] theorem State.setReg_dec (s : State) (r : RegId) (w : Word) : (s.setReg r w).dec = s.dec := rfl
@[simp] theorem State.setReg_hch (s : State) (r : RegId) (w : Word) : (s.setReg r w).hch = s.hch := rfl
@[simp] theorem State.setReg_badWords (s : State) (r : RegId) (w : Word) : (s.setReg r w).badWords = s.badWords := rfl
@[simp] theorem State.setReg_convs (s : State) (r : RegId) (w : Word) : (s.setReg r w).convs = s.convs := rfl
@[simp] theorem State.setReg_engines (s : State) (r : RegId) (w : Word) : (s.setReg r w).engines = s.engines := rfl
@[simp] theorem State.setReg_thm (s : State) (r : RegId) (w : Word) : (s.setReg r w).thm = s.thm := rfl
@[simp] theorem State.setReg_pwr (s : State) (r : RegId) (w : Word) : (s.setReg r w).pwr = s.pwr := rfl
@[simp] theorem State.setReg_mc (s : State) (r : RegId) (w : Word) : (s.setReg r w).mc = s.mc := rfl
@[simp] theorem State.setReg_mem (s : State) (r : RegId) (w : Word) : (s.setReg r w).mem = s.mem := rfl
@[simp] theorem State.setReg_sync (s : State) (r : RegId) (w : Word) : (s.setReg r w).sync = s.sync := rfl
@[simp] theorem State.setReg_ptp (s : State) (r : RegId) (w : Word) : (s.setReg r w).ptp = s.ptp := rfl
@[simp] theorem State.setReg_hif (s : State) (r : RegId) (w : Word) : (s.setReg r w).hif = s.hif := rfl
@[simp] theorem State.setReg_mon (s : State) (r : RegId) (w : Word) : (s.setReg r w).mon = s.mon := rfl
@[simp] theorem State.setReg_tio (s : State) (r : RegId) (w : Word) : (s.setReg r w).tio = s.tio := rfl
@[simp] theorem State.setReg_hbm (s : State) (r : RegId) (w : Word) : (s.setReg r w).hbm = s.hbm := rfl
@[simp] theorem State.setReg_seqSram (s : State) (r : RegId) (w : Word) : (s.setReg r w).seqSram = s.seqSram := rfl
@[simp] theorem State.setReg_ucode (s : State) (r : RegId) (w : Word) : (s.setReg r w).ucode = s.ucode := rfl
@[simp] theorem State.setReg_envSram (s : State) (r : RegId) (w : Word) : (s.setReg r w).envSram = s.envSram := rfl
@[simp] theorem State.setReg_kernel (s : State) (r : RegId) (w : Word) : (s.setReg r w).kernel = s.kernel := rfl
@[simp] theorem State.setReg_envTab (s : State) (r : RegId) (w : Word) : (s.setReg r w).envTab = s.envTab := rfl
@[simp] theorem State.setReg_hostMem (s : State) (r : RegId) (w : Word) : (s.setReg r w).hostMem = s.hostMem := rfl

@[simp] theorem State.setPly_pending (s : State) (p : Nat) (x : Ply) : (s.setPly p x).pending = s.pending := rfl
@[simp] theorem State.setPly_now (s : State) (p : Nat) (x : Ply) : (s.setPly p x).now = s.now := rfl
@[simp] theorem State.setPly_free (s : State) (p : Nat) (x : Ply) : (s.setPly p x).free = s.free := rfl
@[simp] theorem State.setPly_rdata (s : State) (p : Nat) (x : Ply) : (s.setPly p x).rdata = s.rdata := rfl
@[simp] theorem State.setPly_supply (s : State) (p : Nat) (x : Ply) : (s.setPly p x).supply = s.supply := rfl
@[simp] theorem State.setPly_half (s : State) (p : Nat) (x : Ply) : (s.setPly p x).half = s.half := rfl
@[simp] theorem State.setPly_regs (s : State) (p : Nat) (x : Ply) : (s.setPly p x).regs = s.regs := rfl
@[simp] theorem State.setPly_latch (s : State) (p : Nat) (x : Ply) : (s.setPly p x).latch = s.latch := rfl
@[simp] theorem State.setPly_lows (s : State) (p : Nat) (x : Ply) : (s.setPly p x).lows = s.lows := rfl
@[simp] theorem State.setPly_held (s : State) (p : Nat) (x : Ply) : (s.setPly p x).held = s.held := rfl
@[simp] theorem State.setPly_frameW (s : State) (p : Nat) (x : Ply) : (s.setPly p x).frameW = s.frameW := rfl
@[simp] theorem State.setPly_frameLog (s : State) (p : Nat) (x : Ply) : (s.setPly p x).frameLog = s.frameLog := rfl
@[simp] theorem State.setPly_flags (s : State) (p : Nat) (x : Ply) : (s.setPly p x).flags = s.flags := rfl
@[simp] theorem State.setPly_counts (s : State) (p : Nat) (x : Ply) : (s.setPly p x).counts = s.counts := rfl
@[simp] theorem State.setPly_flagAt (s : State) (p : Nat) (x : Ply) : (s.setPly p x).flagAt = s.flagAt := rfl
@[simp] theorem State.setPly_recent (s : State) (p : Nat) (x : Ply) : (s.setPly p x).recent = s.recent := rfl
@[simp] theorem State.setPly_ev (s : State) (p : Nat) (x : Ply) : (s.setPly p x).ev = s.ev := rfl
@[simp] theorem State.setPly_queues (s : State) (p : Nat) (x : Ply) : (s.setPly p x).queues = s.queues := rfl
@[simp] theorem State.setPly_mode (s : State) (p : Nat) (x : Ply) : (s.setPly p x).mode = s.mode := rfl
@[simp] theorem State.setPly_plies (s : State) (p : Nat) (x : Ply) : (s.setPly p x).plies = Tab.put s.plies p x := rfl
@[simp] theorem State.setPly_strands (s : State) (p : Nat) (x : Ply) : (s.setPly p x).strands = s.strands := rfl
@[simp] theorem State.setPly_cores (s : State) (p : Nat) (x : Ply) : (s.setPly p x).cores = s.cores := rfl
@[simp] theorem State.setPly_units (s : State) (p : Nat) (x : Ply) : (s.setPly p x).units = s.units := rfl
@[simp] theorem State.setPly_outs (s : State) (p : Nat) (x : Ply) : (s.setPly p x).outs = s.outs := rfl
@[simp] theorem State.setPly_inps (s : State) (p : Nat) (x : Ply) : (s.setPly p x).inps = s.inps := rfl
@[simp] theorem State.setPly_rtones (s : State) (p : Nat) (x : Ply) : (s.setPly p x).rtones = s.rtones := rfl
@[simp] theorem State.setPly_dec (s : State) (p : Nat) (x : Ply) : (s.setPly p x).dec = s.dec := rfl
@[simp] theorem State.setPly_hch (s : State) (p : Nat) (x : Ply) : (s.setPly p x).hch = s.hch := rfl
@[simp] theorem State.setPly_badWords (s : State) (p : Nat) (x : Ply) : (s.setPly p x).badWords = s.badWords := rfl
@[simp] theorem State.setPly_convs (s : State) (p : Nat) (x : Ply) : (s.setPly p x).convs = s.convs := rfl
@[simp] theorem State.setPly_engines (s : State) (p : Nat) (x : Ply) : (s.setPly p x).engines = s.engines := rfl
@[simp] theorem State.setPly_thm (s : State) (p : Nat) (x : Ply) : (s.setPly p x).thm = s.thm := rfl
@[simp] theorem State.setPly_pwr (s : State) (p : Nat) (x : Ply) : (s.setPly p x).pwr = s.pwr := rfl
@[simp] theorem State.setPly_mc (s : State) (p : Nat) (x : Ply) : (s.setPly p x).mc = s.mc := rfl
@[simp] theorem State.setPly_mem (s : State) (p : Nat) (x : Ply) : (s.setPly p x).mem = s.mem := rfl
@[simp] theorem State.setPly_sync (s : State) (p : Nat) (x : Ply) : (s.setPly p x).sync = s.sync := rfl
@[simp] theorem State.setPly_ptp (s : State) (p : Nat) (x : Ply) : (s.setPly p x).ptp = s.ptp := rfl
@[simp] theorem State.setPly_hif (s : State) (p : Nat) (x : Ply) : (s.setPly p x).hif = s.hif := rfl
@[simp] theorem State.setPly_mon (s : State) (p : Nat) (x : Ply) : (s.setPly p x).mon = s.mon := rfl
@[simp] theorem State.setPly_tio (s : State) (p : Nat) (x : Ply) : (s.setPly p x).tio = s.tio := rfl
@[simp] theorem State.setPly_hbm (s : State) (p : Nat) (x : Ply) : (s.setPly p x).hbm = s.hbm := rfl
@[simp] theorem State.setPly_seqSram (s : State) (p : Nat) (x : Ply) : (s.setPly p x).seqSram = s.seqSram := rfl
@[simp] theorem State.setPly_ucode (s : State) (p : Nat) (x : Ply) : (s.setPly p x).ucode = s.ucode := rfl
@[simp] theorem State.setPly_envSram (s : State) (p : Nat) (x : Ply) : (s.setPly p x).envSram = s.envSram := rfl
@[simp] theorem State.setPly_kernel (s : State) (p : Nat) (x : Ply) : (s.setPly p x).kernel = s.kernel := rfl
@[simp] theorem State.setPly_envTab (s : State) (p : Nat) (x : Ply) : (s.setPly p x).envTab = s.envTab := rfl
@[simp] theorem State.setPly_hostMem (s : State) (p : Nat) (x : Ply) : (s.setPly p x).hostMem = s.hostMem := rfl

@[simp] theorem State.setStrand_pending (s : State) (k : Nat) (x : Strand) : (s.setStrand k x).pending = s.pending := rfl
@[simp] theorem State.setStrand_now (s : State) (k : Nat) (x : Strand) : (s.setStrand k x).now = s.now := rfl
@[simp] theorem State.setStrand_free (s : State) (k : Nat) (x : Strand) : (s.setStrand k x).free = s.free := rfl
@[simp] theorem State.setStrand_rdata (s : State) (k : Nat) (x : Strand) : (s.setStrand k x).rdata = s.rdata := rfl
@[simp] theorem State.setStrand_supply (s : State) (k : Nat) (x : Strand) : (s.setStrand k x).supply = s.supply := rfl
@[simp] theorem State.setStrand_half (s : State) (k : Nat) (x : Strand) : (s.setStrand k x).half = s.half := rfl
@[simp] theorem State.setStrand_regs (s : State) (k : Nat) (x : Strand) : (s.setStrand k x).regs = s.regs := rfl
@[simp] theorem State.setStrand_latch (s : State) (k : Nat) (x : Strand) : (s.setStrand k x).latch = s.latch := rfl
@[simp] theorem State.setStrand_lows (s : State) (k : Nat) (x : Strand) : (s.setStrand k x).lows = s.lows := rfl
@[simp] theorem State.setStrand_held (s : State) (k : Nat) (x : Strand) : (s.setStrand k x).held = s.held := rfl
@[simp] theorem State.setStrand_frameW (s : State) (k : Nat) (x : Strand) : (s.setStrand k x).frameW = s.frameW := rfl
@[simp] theorem State.setStrand_frameLog (s : State) (k : Nat) (x : Strand) : (s.setStrand k x).frameLog = s.frameLog := rfl
@[simp] theorem State.setStrand_flags (s : State) (k : Nat) (x : Strand) : (s.setStrand k x).flags = s.flags := rfl
@[simp] theorem State.setStrand_counts (s : State) (k : Nat) (x : Strand) : (s.setStrand k x).counts = s.counts := rfl
@[simp] theorem State.setStrand_flagAt (s : State) (k : Nat) (x : Strand) : (s.setStrand k x).flagAt = s.flagAt := rfl
@[simp] theorem State.setStrand_recent (s : State) (k : Nat) (x : Strand) : (s.setStrand k x).recent = s.recent := rfl
@[simp] theorem State.setStrand_ev (s : State) (k : Nat) (x : Strand) : (s.setStrand k x).ev = s.ev := rfl
@[simp] theorem State.setStrand_queues (s : State) (k : Nat) (x : Strand) : (s.setStrand k x).queues = s.queues := rfl
@[simp] theorem State.setStrand_mode (s : State) (k : Nat) (x : Strand) : (s.setStrand k x).mode = s.mode := rfl
@[simp] theorem State.setStrand_plies (s : State) (k : Nat) (x : Strand) : (s.setStrand k x).plies = s.plies := rfl
@[simp] theorem State.setStrand_strands (s : State) (k : Nat) (x : Strand) : (s.setStrand k x).strands = Tab.put s.strands k x := rfl
@[simp] theorem State.setStrand_cores (s : State) (k : Nat) (x : Strand) : (s.setStrand k x).cores = s.cores := rfl
@[simp] theorem State.setStrand_units (s : State) (k : Nat) (x : Strand) : (s.setStrand k x).units = s.units := rfl
@[simp] theorem State.setStrand_outs (s : State) (k : Nat) (x : Strand) : (s.setStrand k x).outs = s.outs := rfl
@[simp] theorem State.setStrand_inps (s : State) (k : Nat) (x : Strand) : (s.setStrand k x).inps = s.inps := rfl
@[simp] theorem State.setStrand_rtones (s : State) (k : Nat) (x : Strand) : (s.setStrand k x).rtones = s.rtones := rfl
@[simp] theorem State.setStrand_dec (s : State) (k : Nat) (x : Strand) : (s.setStrand k x).dec = s.dec := rfl
@[simp] theorem State.setStrand_hch (s : State) (k : Nat) (x : Strand) : (s.setStrand k x).hch = s.hch := rfl
@[simp] theorem State.setStrand_badWords (s : State) (k : Nat) (x : Strand) : (s.setStrand k x).badWords = s.badWords := rfl
@[simp] theorem State.setStrand_convs (s : State) (k : Nat) (x : Strand) : (s.setStrand k x).convs = s.convs := rfl
@[simp] theorem State.setStrand_engines (s : State) (k : Nat) (x : Strand) : (s.setStrand k x).engines = s.engines := rfl
@[simp] theorem State.setStrand_thm (s : State) (k : Nat) (x : Strand) : (s.setStrand k x).thm = s.thm := rfl
@[simp] theorem State.setStrand_pwr (s : State) (k : Nat) (x : Strand) : (s.setStrand k x).pwr = s.pwr := rfl
@[simp] theorem State.setStrand_mc (s : State) (k : Nat) (x : Strand) : (s.setStrand k x).mc = s.mc := rfl
@[simp] theorem State.setStrand_mem (s : State) (k : Nat) (x : Strand) : (s.setStrand k x).mem = s.mem := rfl
@[simp] theorem State.setStrand_sync (s : State) (k : Nat) (x : Strand) : (s.setStrand k x).sync = s.sync := rfl
@[simp] theorem State.setStrand_ptp (s : State) (k : Nat) (x : Strand) : (s.setStrand k x).ptp = s.ptp := rfl
@[simp] theorem State.setStrand_hif (s : State) (k : Nat) (x : Strand) : (s.setStrand k x).hif = s.hif := rfl
@[simp] theorem State.setStrand_mon (s : State) (k : Nat) (x : Strand) : (s.setStrand k x).mon = s.mon := rfl
@[simp] theorem State.setStrand_tio (s : State) (k : Nat) (x : Strand) : (s.setStrand k x).tio = s.tio := rfl
@[simp] theorem State.setStrand_hbm (s : State) (k : Nat) (x : Strand) : (s.setStrand k x).hbm = s.hbm := rfl
@[simp] theorem State.setStrand_seqSram (s : State) (k : Nat) (x : Strand) : (s.setStrand k x).seqSram = s.seqSram := rfl
@[simp] theorem State.setStrand_ucode (s : State) (k : Nat) (x : Strand) : (s.setStrand k x).ucode = s.ucode := rfl
@[simp] theorem State.setStrand_envSram (s : State) (k : Nat) (x : Strand) : (s.setStrand k x).envSram = s.envSram := rfl
@[simp] theorem State.setStrand_kernel (s : State) (k : Nat) (x : Strand) : (s.setStrand k x).kernel = s.kernel := rfl
@[simp] theorem State.setStrand_envTab (s : State) (k : Nat) (x : Strand) : (s.setStrand k x).envTab = s.envTab := rfl
@[simp] theorem State.setStrand_hostMem (s : State) (k : Nat) (x : Strand) : (s.setStrand k x).hostMem = s.hostMem := rfl

@[simp] theorem State.setCore_pending (s : State) (c : Nat) (x : Core) : (s.setCore c x).pending = s.pending := rfl
@[simp] theorem State.setCore_now (s : State) (c : Nat) (x : Core) : (s.setCore c x).now = s.now := rfl
@[simp] theorem State.setCore_free (s : State) (c : Nat) (x : Core) : (s.setCore c x).free = s.free := rfl
@[simp] theorem State.setCore_rdata (s : State) (c : Nat) (x : Core) : (s.setCore c x).rdata = s.rdata := rfl
@[simp] theorem State.setCore_supply (s : State) (c : Nat) (x : Core) : (s.setCore c x).supply = s.supply := rfl
@[simp] theorem State.setCore_half (s : State) (c : Nat) (x : Core) : (s.setCore c x).half = s.half := rfl
@[simp] theorem State.setCore_regs (s : State) (c : Nat) (x : Core) : (s.setCore c x).regs = s.regs := rfl
@[simp] theorem State.setCore_latch (s : State) (c : Nat) (x : Core) : (s.setCore c x).latch = s.latch := rfl
@[simp] theorem State.setCore_lows (s : State) (c : Nat) (x : Core) : (s.setCore c x).lows = s.lows := rfl
@[simp] theorem State.setCore_held (s : State) (c : Nat) (x : Core) : (s.setCore c x).held = s.held := rfl
@[simp] theorem State.setCore_frameW (s : State) (c : Nat) (x : Core) : (s.setCore c x).frameW = s.frameW := rfl
@[simp] theorem State.setCore_frameLog (s : State) (c : Nat) (x : Core) : (s.setCore c x).frameLog = s.frameLog := rfl
@[simp] theorem State.setCore_flags (s : State) (c : Nat) (x : Core) : (s.setCore c x).flags = s.flags := rfl
@[simp] theorem State.setCore_counts (s : State) (c : Nat) (x : Core) : (s.setCore c x).counts = s.counts := rfl
@[simp] theorem State.setCore_flagAt (s : State) (c : Nat) (x : Core) : (s.setCore c x).flagAt = s.flagAt := rfl
@[simp] theorem State.setCore_recent (s : State) (c : Nat) (x : Core) : (s.setCore c x).recent = s.recent := rfl
@[simp] theorem State.setCore_ev (s : State) (c : Nat) (x : Core) : (s.setCore c x).ev = s.ev := rfl
@[simp] theorem State.setCore_queues (s : State) (c : Nat) (x : Core) : (s.setCore c x).queues = s.queues := rfl
@[simp] theorem State.setCore_mode (s : State) (c : Nat) (x : Core) : (s.setCore c x).mode = s.mode := rfl
@[simp] theorem State.setCore_plies (s : State) (c : Nat) (x : Core) : (s.setCore c x).plies = s.plies := rfl
@[simp] theorem State.setCore_strands (s : State) (c : Nat) (x : Core) : (s.setCore c x).strands = s.strands := rfl
@[simp] theorem State.setCore_cores (s : State) (c : Nat) (x : Core) : (s.setCore c x).cores = Tab.put s.cores c x := rfl
@[simp] theorem State.setCore_units (s : State) (c : Nat) (x : Core) : (s.setCore c x).units = s.units := rfl
@[simp] theorem State.setCore_outs (s : State) (c : Nat) (x : Core) : (s.setCore c x).outs = s.outs := rfl
@[simp] theorem State.setCore_inps (s : State) (c : Nat) (x : Core) : (s.setCore c x).inps = s.inps := rfl
@[simp] theorem State.setCore_rtones (s : State) (c : Nat) (x : Core) : (s.setCore c x).rtones = s.rtones := rfl
@[simp] theorem State.setCore_dec (s : State) (c : Nat) (x : Core) : (s.setCore c x).dec = s.dec := rfl
@[simp] theorem State.setCore_hch (s : State) (c : Nat) (x : Core) : (s.setCore c x).hch = s.hch := rfl
@[simp] theorem State.setCore_badWords (s : State) (c : Nat) (x : Core) : (s.setCore c x).badWords = s.badWords := rfl
@[simp] theorem State.setCore_convs (s : State) (c : Nat) (x : Core) : (s.setCore c x).convs = s.convs := rfl
@[simp] theorem State.setCore_engines (s : State) (c : Nat) (x : Core) : (s.setCore c x).engines = s.engines := rfl
@[simp] theorem State.setCore_thm (s : State) (c : Nat) (x : Core) : (s.setCore c x).thm = s.thm := rfl
@[simp] theorem State.setCore_pwr (s : State) (c : Nat) (x : Core) : (s.setCore c x).pwr = s.pwr := rfl
@[simp] theorem State.setCore_mc (s : State) (c : Nat) (x : Core) : (s.setCore c x).mc = s.mc := rfl
@[simp] theorem State.setCore_mem (s : State) (c : Nat) (x : Core) : (s.setCore c x).mem = s.mem := rfl
@[simp] theorem State.setCore_sync (s : State) (c : Nat) (x : Core) : (s.setCore c x).sync = s.sync := rfl
@[simp] theorem State.setCore_ptp (s : State) (c : Nat) (x : Core) : (s.setCore c x).ptp = s.ptp := rfl
@[simp] theorem State.setCore_hif (s : State) (c : Nat) (x : Core) : (s.setCore c x).hif = s.hif := rfl
@[simp] theorem State.setCore_mon (s : State) (c : Nat) (x : Core) : (s.setCore c x).mon = s.mon := rfl
@[simp] theorem State.setCore_tio (s : State) (c : Nat) (x : Core) : (s.setCore c x).tio = s.tio := rfl
@[simp] theorem State.setCore_hbm (s : State) (c : Nat) (x : Core) : (s.setCore c x).hbm = s.hbm := rfl
@[simp] theorem State.setCore_seqSram (s : State) (c : Nat) (x : Core) : (s.setCore c x).seqSram = s.seqSram := rfl
@[simp] theorem State.setCore_ucode (s : State) (c : Nat) (x : Core) : (s.setCore c x).ucode = s.ucode := rfl
@[simp] theorem State.setCore_envSram (s : State) (c : Nat) (x : Core) : (s.setCore c x).envSram = s.envSram := rfl
@[simp] theorem State.setCore_kernel (s : State) (c : Nat) (x : Core) : (s.setCore c x).kernel = s.kernel := rfl
@[simp] theorem State.setCore_envTab (s : State) (c : Nat) (x : Core) : (s.setCore c x).envTab = s.envTab := rfl
@[simp] theorem State.setCore_hostMem (s : State) (c : Nat) (x : Core) : (s.setCore c x).hostMem = s.hostMem := rfl

@[simp] theorem State.setPunit_pending (s : State) (k u : Nat) (x : PUnit) : (s.setPunit k u x).pending = s.pending := rfl
@[simp] theorem State.setPunit_now (s : State) (k u : Nat) (x : PUnit) : (s.setPunit k u x).now = s.now := rfl
@[simp] theorem State.setPunit_free (s : State) (k u : Nat) (x : PUnit) : (s.setPunit k u x).free = s.free := rfl
@[simp] theorem State.setPunit_rdata (s : State) (k u : Nat) (x : PUnit) : (s.setPunit k u x).rdata = s.rdata := rfl
@[simp] theorem State.setPunit_supply (s : State) (k u : Nat) (x : PUnit) : (s.setPunit k u x).supply = s.supply := rfl
@[simp] theorem State.setPunit_half (s : State) (k u : Nat) (x : PUnit) : (s.setPunit k u x).half = s.half := rfl
@[simp] theorem State.setPunit_regs (s : State) (k u : Nat) (x : PUnit) : (s.setPunit k u x).regs = s.regs := rfl
@[simp] theorem State.setPunit_latch (s : State) (k u : Nat) (x : PUnit) : (s.setPunit k u x).latch = s.latch := rfl
@[simp] theorem State.setPunit_lows (s : State) (k u : Nat) (x : PUnit) : (s.setPunit k u x).lows = s.lows := rfl
@[simp] theorem State.setPunit_held (s : State) (k u : Nat) (x : PUnit) : (s.setPunit k u x).held = s.held := rfl
@[simp] theorem State.setPunit_frameW (s : State) (k u : Nat) (x : PUnit) : (s.setPunit k u x).frameW = s.frameW := rfl
@[simp] theorem State.setPunit_frameLog (s : State) (k u : Nat) (x : PUnit) : (s.setPunit k u x).frameLog = s.frameLog := rfl
@[simp] theorem State.setPunit_flags (s : State) (k u : Nat) (x : PUnit) : (s.setPunit k u x).flags = s.flags := rfl
@[simp] theorem State.setPunit_counts (s : State) (k u : Nat) (x : PUnit) : (s.setPunit k u x).counts = s.counts := rfl
@[simp] theorem State.setPunit_flagAt (s : State) (k u : Nat) (x : PUnit) : (s.setPunit k u x).flagAt = s.flagAt := rfl
@[simp] theorem State.setPunit_recent (s : State) (k u : Nat) (x : PUnit) : (s.setPunit k u x).recent = s.recent := rfl
@[simp] theorem State.setPunit_ev (s : State) (k u : Nat) (x : PUnit) : (s.setPunit k u x).ev = s.ev := rfl
@[simp] theorem State.setPunit_queues (s : State) (k u : Nat) (x : PUnit) : (s.setPunit k u x).queues = s.queues := rfl
@[simp] theorem State.setPunit_mode (s : State) (k u : Nat) (x : PUnit) : (s.setPunit k u x).mode = s.mode := rfl
@[simp] theorem State.setPunit_plies (s : State) (k u : Nat) (x : PUnit) : (s.setPunit k u x).plies = s.plies := rfl
@[simp] theorem State.setPunit_strands (s : State) (k u : Nat) (x : PUnit) : (s.setPunit k u x).strands = s.strands := rfl
@[simp] theorem State.setPunit_cores (s : State) (k u : Nat) (x : PUnit) : (s.setPunit k u x).cores = s.cores := rfl
@[simp] theorem State.setPunit_units (s : State) (k u : Nat) (x : PUnit) : (s.setPunit k u x).units = Tab.put s.units (80 * k + u) x := rfl
@[simp] theorem State.setPunit_outs (s : State) (k u : Nat) (x : PUnit) : (s.setPunit k u x).outs = s.outs := rfl
@[simp] theorem State.setPunit_inps (s : State) (k u : Nat) (x : PUnit) : (s.setPunit k u x).inps = s.inps := rfl
@[simp] theorem State.setPunit_rtones (s : State) (k u : Nat) (x : PUnit) : (s.setPunit k u x).rtones = s.rtones := rfl
@[simp] theorem State.setPunit_dec (s : State) (k u : Nat) (x : PUnit) : (s.setPunit k u x).dec = s.dec := rfl
@[simp] theorem State.setPunit_hch (s : State) (k u : Nat) (x : PUnit) : (s.setPunit k u x).hch = s.hch := rfl
@[simp] theorem State.setPunit_badWords (s : State) (k u : Nat) (x : PUnit) : (s.setPunit k u x).badWords = s.badWords := rfl
@[simp] theorem State.setPunit_convs (s : State) (k u : Nat) (x : PUnit) : (s.setPunit k u x).convs = s.convs := rfl
@[simp] theorem State.setPunit_engines (s : State) (k u : Nat) (x : PUnit) : (s.setPunit k u x).engines = s.engines := rfl
@[simp] theorem State.setPunit_thm (s : State) (k u : Nat) (x : PUnit) : (s.setPunit k u x).thm = s.thm := rfl
@[simp] theorem State.setPunit_pwr (s : State) (k u : Nat) (x : PUnit) : (s.setPunit k u x).pwr = s.pwr := rfl
@[simp] theorem State.setPunit_mc (s : State) (k u : Nat) (x : PUnit) : (s.setPunit k u x).mc = s.mc := rfl
@[simp] theorem State.setPunit_mem (s : State) (k u : Nat) (x : PUnit) : (s.setPunit k u x).mem = s.mem := rfl
@[simp] theorem State.setPunit_sync (s : State) (k u : Nat) (x : PUnit) : (s.setPunit k u x).sync = s.sync := rfl
@[simp] theorem State.setPunit_ptp (s : State) (k u : Nat) (x : PUnit) : (s.setPunit k u x).ptp = s.ptp := rfl
@[simp] theorem State.setPunit_hif (s : State) (k u : Nat) (x : PUnit) : (s.setPunit k u x).hif = s.hif := rfl
@[simp] theorem State.setPunit_mon (s : State) (k u : Nat) (x : PUnit) : (s.setPunit k u x).mon = s.mon := rfl
@[simp] theorem State.setPunit_tio (s : State) (k u : Nat) (x : PUnit) : (s.setPunit k u x).tio = s.tio := rfl
@[simp] theorem State.setPunit_hbm (s : State) (k u : Nat) (x : PUnit) : (s.setPunit k u x).hbm = s.hbm := rfl
@[simp] theorem State.setPunit_seqSram (s : State) (k u : Nat) (x : PUnit) : (s.setPunit k u x).seqSram = s.seqSram := rfl
@[simp] theorem State.setPunit_ucode (s : State) (k u : Nat) (x : PUnit) : (s.setPunit k u x).ucode = s.ucode := rfl
@[simp] theorem State.setPunit_envSram (s : State) (k u : Nat) (x : PUnit) : (s.setPunit k u x).envSram = s.envSram := rfl
@[simp] theorem State.setPunit_kernel (s : State) (k u : Nat) (x : PUnit) : (s.setPunit k u x).kernel = s.kernel := rfl
@[simp] theorem State.setPunit_envTab (s : State) (k u : Nat) (x : PUnit) : (s.setPunit k u x).envTab = s.envTab := rfl
@[simp] theorem State.setPunit_hostMem (s : State) (k u : Nat) (x : PUnit) : (s.setPunit k u x).hostMem = s.hostMem := rfl

@[simp] theorem State.setOut_pending (s : State) (k o : Nat) (x : Out) : (s.setOut k o x).pending = s.pending := rfl
@[simp] theorem State.setOut_now (s : State) (k o : Nat) (x : Out) : (s.setOut k o x).now = s.now := rfl
@[simp] theorem State.setOut_free (s : State) (k o : Nat) (x : Out) : (s.setOut k o x).free = s.free := rfl
@[simp] theorem State.setOut_rdata (s : State) (k o : Nat) (x : Out) : (s.setOut k o x).rdata = s.rdata := rfl
@[simp] theorem State.setOut_supply (s : State) (k o : Nat) (x : Out) : (s.setOut k o x).supply = s.supply := rfl
@[simp] theorem State.setOut_half (s : State) (k o : Nat) (x : Out) : (s.setOut k o x).half = s.half := rfl
@[simp] theorem State.setOut_regs (s : State) (k o : Nat) (x : Out) : (s.setOut k o x).regs = s.regs := rfl
@[simp] theorem State.setOut_latch (s : State) (k o : Nat) (x : Out) : (s.setOut k o x).latch = s.latch := rfl
@[simp] theorem State.setOut_lows (s : State) (k o : Nat) (x : Out) : (s.setOut k o x).lows = s.lows := rfl
@[simp] theorem State.setOut_held (s : State) (k o : Nat) (x : Out) : (s.setOut k o x).held = s.held := rfl
@[simp] theorem State.setOut_frameW (s : State) (k o : Nat) (x : Out) : (s.setOut k o x).frameW = s.frameW := rfl
@[simp] theorem State.setOut_frameLog (s : State) (k o : Nat) (x : Out) : (s.setOut k o x).frameLog = s.frameLog := rfl
@[simp] theorem State.setOut_flags (s : State) (k o : Nat) (x : Out) : (s.setOut k o x).flags = s.flags := rfl
@[simp] theorem State.setOut_counts (s : State) (k o : Nat) (x : Out) : (s.setOut k o x).counts = s.counts := rfl
@[simp] theorem State.setOut_flagAt (s : State) (k o : Nat) (x : Out) : (s.setOut k o x).flagAt = s.flagAt := rfl
@[simp] theorem State.setOut_recent (s : State) (k o : Nat) (x : Out) : (s.setOut k o x).recent = s.recent := rfl
@[simp] theorem State.setOut_ev (s : State) (k o : Nat) (x : Out) : (s.setOut k o x).ev = s.ev := rfl
@[simp] theorem State.setOut_queues (s : State) (k o : Nat) (x : Out) : (s.setOut k o x).queues = s.queues := rfl
@[simp] theorem State.setOut_mode (s : State) (k o : Nat) (x : Out) : (s.setOut k o x).mode = s.mode := rfl
@[simp] theorem State.setOut_plies (s : State) (k o : Nat) (x : Out) : (s.setOut k o x).plies = s.plies := rfl
@[simp] theorem State.setOut_strands (s : State) (k o : Nat) (x : Out) : (s.setOut k o x).strands = s.strands := rfl
@[simp] theorem State.setOut_cores (s : State) (k o : Nat) (x : Out) : (s.setOut k o x).cores = s.cores := rfl
@[simp] theorem State.setOut_units (s : State) (k o : Nat) (x : Out) : (s.setOut k o x).units = s.units := rfl
@[simp] theorem State.setOut_outs (s : State) (k o : Nat) (x : Out) : (s.setOut k o x).outs = Tab.put s.outs (22 * k + o) x := rfl
@[simp] theorem State.setOut_inps (s : State) (k o : Nat) (x : Out) : (s.setOut k o x).inps = s.inps := rfl
@[simp] theorem State.setOut_rtones (s : State) (k o : Nat) (x : Out) : (s.setOut k o x).rtones = s.rtones := rfl
@[simp] theorem State.setOut_dec (s : State) (k o : Nat) (x : Out) : (s.setOut k o x).dec = s.dec := rfl
@[simp] theorem State.setOut_hch (s : State) (k o : Nat) (x : Out) : (s.setOut k o x).hch = s.hch := rfl
@[simp] theorem State.setOut_badWords (s : State) (k o : Nat) (x : Out) : (s.setOut k o x).badWords = s.badWords := rfl
@[simp] theorem State.setOut_convs (s : State) (k o : Nat) (x : Out) : (s.setOut k o x).convs = s.convs := rfl
@[simp] theorem State.setOut_engines (s : State) (k o : Nat) (x : Out) : (s.setOut k o x).engines = s.engines := rfl
@[simp] theorem State.setOut_thm (s : State) (k o : Nat) (x : Out) : (s.setOut k o x).thm = s.thm := rfl
@[simp] theorem State.setOut_pwr (s : State) (k o : Nat) (x : Out) : (s.setOut k o x).pwr = s.pwr := rfl
@[simp] theorem State.setOut_mc (s : State) (k o : Nat) (x : Out) : (s.setOut k o x).mc = s.mc := rfl
@[simp] theorem State.setOut_mem (s : State) (k o : Nat) (x : Out) : (s.setOut k o x).mem = s.mem := rfl
@[simp] theorem State.setOut_sync (s : State) (k o : Nat) (x : Out) : (s.setOut k o x).sync = s.sync := rfl
@[simp] theorem State.setOut_ptp (s : State) (k o : Nat) (x : Out) : (s.setOut k o x).ptp = s.ptp := rfl
@[simp] theorem State.setOut_hif (s : State) (k o : Nat) (x : Out) : (s.setOut k o x).hif = s.hif := rfl
@[simp] theorem State.setOut_mon (s : State) (k o : Nat) (x : Out) : (s.setOut k o x).mon = s.mon := rfl
@[simp] theorem State.setOut_tio (s : State) (k o : Nat) (x : Out) : (s.setOut k o x).tio = s.tio := rfl
@[simp] theorem State.setOut_hbm (s : State) (k o : Nat) (x : Out) : (s.setOut k o x).hbm = s.hbm := rfl
@[simp] theorem State.setOut_seqSram (s : State) (k o : Nat) (x : Out) : (s.setOut k o x).seqSram = s.seqSram := rfl
@[simp] theorem State.setOut_ucode (s : State) (k o : Nat) (x : Out) : (s.setOut k o x).ucode = s.ucode := rfl
@[simp] theorem State.setOut_envSram (s : State) (k o : Nat) (x : Out) : (s.setOut k o x).envSram = s.envSram := rfl
@[simp] theorem State.setOut_kernel (s : State) (k o : Nat) (x : Out) : (s.setOut k o x).kernel = s.kernel := rfl
@[simp] theorem State.setOut_envTab (s : State) (k o : Nat) (x : Out) : (s.setOut k o x).envTab = s.envTab := rfl
@[simp] theorem State.setOut_hostMem (s : State) (k o : Nat) (x : Out) : (s.setOut k o x).hostMem = s.hostMem := rfl

@[simp] theorem State.setInp_pending (s : State) (k i : Nat) (x : Inp) : (s.setInp k i x).pending = s.pending := rfl
@[simp] theorem State.setInp_now (s : State) (k i : Nat) (x : Inp) : (s.setInp k i x).now = s.now := rfl
@[simp] theorem State.setInp_free (s : State) (k i : Nat) (x : Inp) : (s.setInp k i x).free = s.free := rfl
@[simp] theorem State.setInp_rdata (s : State) (k i : Nat) (x : Inp) : (s.setInp k i x).rdata = s.rdata := rfl
@[simp] theorem State.setInp_supply (s : State) (k i : Nat) (x : Inp) : (s.setInp k i x).supply = s.supply := rfl
@[simp] theorem State.setInp_half (s : State) (k i : Nat) (x : Inp) : (s.setInp k i x).half = s.half := rfl
@[simp] theorem State.setInp_regs (s : State) (k i : Nat) (x : Inp) : (s.setInp k i x).regs = s.regs := rfl
@[simp] theorem State.setInp_latch (s : State) (k i : Nat) (x : Inp) : (s.setInp k i x).latch = s.latch := rfl
@[simp] theorem State.setInp_lows (s : State) (k i : Nat) (x : Inp) : (s.setInp k i x).lows = s.lows := rfl
@[simp] theorem State.setInp_held (s : State) (k i : Nat) (x : Inp) : (s.setInp k i x).held = s.held := rfl
@[simp] theorem State.setInp_frameW (s : State) (k i : Nat) (x : Inp) : (s.setInp k i x).frameW = s.frameW := rfl
@[simp] theorem State.setInp_frameLog (s : State) (k i : Nat) (x : Inp) : (s.setInp k i x).frameLog = s.frameLog := rfl
@[simp] theorem State.setInp_flags (s : State) (k i : Nat) (x : Inp) : (s.setInp k i x).flags = s.flags := rfl
@[simp] theorem State.setInp_counts (s : State) (k i : Nat) (x : Inp) : (s.setInp k i x).counts = s.counts := rfl
@[simp] theorem State.setInp_flagAt (s : State) (k i : Nat) (x : Inp) : (s.setInp k i x).flagAt = s.flagAt := rfl
@[simp] theorem State.setInp_recent (s : State) (k i : Nat) (x : Inp) : (s.setInp k i x).recent = s.recent := rfl
@[simp] theorem State.setInp_ev (s : State) (k i : Nat) (x : Inp) : (s.setInp k i x).ev = s.ev := rfl
@[simp] theorem State.setInp_queues (s : State) (k i : Nat) (x : Inp) : (s.setInp k i x).queues = s.queues := rfl
@[simp] theorem State.setInp_mode (s : State) (k i : Nat) (x : Inp) : (s.setInp k i x).mode = s.mode := rfl
@[simp] theorem State.setInp_plies (s : State) (k i : Nat) (x : Inp) : (s.setInp k i x).plies = s.plies := rfl
@[simp] theorem State.setInp_strands (s : State) (k i : Nat) (x : Inp) : (s.setInp k i x).strands = s.strands := rfl
@[simp] theorem State.setInp_cores (s : State) (k i : Nat) (x : Inp) : (s.setInp k i x).cores = s.cores := rfl
@[simp] theorem State.setInp_units (s : State) (k i : Nat) (x : Inp) : (s.setInp k i x).units = s.units := rfl
@[simp] theorem State.setInp_outs (s : State) (k i : Nat) (x : Inp) : (s.setInp k i x).outs = s.outs := rfl
@[simp] theorem State.setInp_inps (s : State) (k i : Nat) (x : Inp) : (s.setInp k i x).inps = Tab.put s.inps (2 * k + i) x := rfl
@[simp] theorem State.setInp_rtones (s : State) (k i : Nat) (x : Inp) : (s.setInp k i x).rtones = s.rtones := rfl
@[simp] theorem State.setInp_dec (s : State) (k i : Nat) (x : Inp) : (s.setInp k i x).dec = s.dec := rfl
@[simp] theorem State.setInp_hch (s : State) (k i : Nat) (x : Inp) : (s.setInp k i x).hch = s.hch := rfl
@[simp] theorem State.setInp_badWords (s : State) (k i : Nat) (x : Inp) : (s.setInp k i x).badWords = s.badWords := rfl
@[simp] theorem State.setInp_convs (s : State) (k i : Nat) (x : Inp) : (s.setInp k i x).convs = s.convs := rfl
@[simp] theorem State.setInp_engines (s : State) (k i : Nat) (x : Inp) : (s.setInp k i x).engines = s.engines := rfl
@[simp] theorem State.setInp_thm (s : State) (k i : Nat) (x : Inp) : (s.setInp k i x).thm = s.thm := rfl
@[simp] theorem State.setInp_pwr (s : State) (k i : Nat) (x : Inp) : (s.setInp k i x).pwr = s.pwr := rfl
@[simp] theorem State.setInp_mc (s : State) (k i : Nat) (x : Inp) : (s.setInp k i x).mc = s.mc := rfl
@[simp] theorem State.setInp_mem (s : State) (k i : Nat) (x : Inp) : (s.setInp k i x).mem = s.mem := rfl
@[simp] theorem State.setInp_sync (s : State) (k i : Nat) (x : Inp) : (s.setInp k i x).sync = s.sync := rfl
@[simp] theorem State.setInp_ptp (s : State) (k i : Nat) (x : Inp) : (s.setInp k i x).ptp = s.ptp := rfl
@[simp] theorem State.setInp_hif (s : State) (k i : Nat) (x : Inp) : (s.setInp k i x).hif = s.hif := rfl
@[simp] theorem State.setInp_mon (s : State) (k i : Nat) (x : Inp) : (s.setInp k i x).mon = s.mon := rfl
@[simp] theorem State.setInp_tio (s : State) (k i : Nat) (x : Inp) : (s.setInp k i x).tio = s.tio := rfl
@[simp] theorem State.setInp_hbm (s : State) (k i : Nat) (x : Inp) : (s.setInp k i x).hbm = s.hbm := rfl
@[simp] theorem State.setInp_seqSram (s : State) (k i : Nat) (x : Inp) : (s.setInp k i x).seqSram = s.seqSram := rfl
@[simp] theorem State.setInp_ucode (s : State) (k i : Nat) (x : Inp) : (s.setInp k i x).ucode = s.ucode := rfl
@[simp] theorem State.setInp_envSram (s : State) (k i : Nat) (x : Inp) : (s.setInp k i x).envSram = s.envSram := rfl
@[simp] theorem State.setInp_kernel (s : State) (k i : Nat) (x : Inp) : (s.setInp k i x).kernel = s.kernel := rfl
@[simp] theorem State.setInp_envTab (s : State) (k i : Nat) (x : Inp) : (s.setInp k i x).envTab = s.envTab := rfl
@[simp] theorem State.setInp_hostMem (s : State) (k i : Nat) (x : Inp) : (s.setInp k i x).hostMem = s.hostMem := rfl

@[simp] theorem State.setRtone_pending (s : State) (k r : Nat) (x : Rtone) : (s.setRtone k r x).pending = s.pending := rfl
@[simp] theorem State.setRtone_now (s : State) (k r : Nat) (x : Rtone) : (s.setRtone k r x).now = s.now := rfl
@[simp] theorem State.setRtone_free (s : State) (k r : Nat) (x : Rtone) : (s.setRtone k r x).free = s.free := rfl
@[simp] theorem State.setRtone_rdata (s : State) (k r : Nat) (x : Rtone) : (s.setRtone k r x).rdata = s.rdata := rfl
@[simp] theorem State.setRtone_supply (s : State) (k r : Nat) (x : Rtone) : (s.setRtone k r x).supply = s.supply := rfl
@[simp] theorem State.setRtone_half (s : State) (k r : Nat) (x : Rtone) : (s.setRtone k r x).half = s.half := rfl
@[simp] theorem State.setRtone_regs (s : State) (k r : Nat) (x : Rtone) : (s.setRtone k r x).regs = s.regs := rfl
@[simp] theorem State.setRtone_latch (s : State) (k r : Nat) (x : Rtone) : (s.setRtone k r x).latch = s.latch := rfl
@[simp] theorem State.setRtone_lows (s : State) (k r : Nat) (x : Rtone) : (s.setRtone k r x).lows = s.lows := rfl
@[simp] theorem State.setRtone_held (s : State) (k r : Nat) (x : Rtone) : (s.setRtone k r x).held = s.held := rfl
@[simp] theorem State.setRtone_frameW (s : State) (k r : Nat) (x : Rtone) : (s.setRtone k r x).frameW = s.frameW := rfl
@[simp] theorem State.setRtone_frameLog (s : State) (k r : Nat) (x : Rtone) : (s.setRtone k r x).frameLog = s.frameLog := rfl
@[simp] theorem State.setRtone_flags (s : State) (k r : Nat) (x : Rtone) : (s.setRtone k r x).flags = s.flags := rfl
@[simp] theorem State.setRtone_counts (s : State) (k r : Nat) (x : Rtone) : (s.setRtone k r x).counts = s.counts := rfl
@[simp] theorem State.setRtone_flagAt (s : State) (k r : Nat) (x : Rtone) : (s.setRtone k r x).flagAt = s.flagAt := rfl
@[simp] theorem State.setRtone_recent (s : State) (k r : Nat) (x : Rtone) : (s.setRtone k r x).recent = s.recent := rfl
@[simp] theorem State.setRtone_ev (s : State) (k r : Nat) (x : Rtone) : (s.setRtone k r x).ev = s.ev := rfl
@[simp] theorem State.setRtone_queues (s : State) (k r : Nat) (x : Rtone) : (s.setRtone k r x).queues = s.queues := rfl
@[simp] theorem State.setRtone_mode (s : State) (k r : Nat) (x : Rtone) : (s.setRtone k r x).mode = s.mode := rfl
@[simp] theorem State.setRtone_plies (s : State) (k r : Nat) (x : Rtone) : (s.setRtone k r x).plies = s.plies := rfl
@[simp] theorem State.setRtone_strands (s : State) (k r : Nat) (x : Rtone) : (s.setRtone k r x).strands = s.strands := rfl
@[simp] theorem State.setRtone_cores (s : State) (k r : Nat) (x : Rtone) : (s.setRtone k r x).cores = s.cores := rfl
@[simp] theorem State.setRtone_units (s : State) (k r : Nat) (x : Rtone) : (s.setRtone k r x).units = s.units := rfl
@[simp] theorem State.setRtone_outs (s : State) (k r : Nat) (x : Rtone) : (s.setRtone k r x).outs = s.outs := rfl
@[simp] theorem State.setRtone_inps (s : State) (k r : Nat) (x : Rtone) : (s.setRtone k r x).inps = s.inps := rfl
@[simp] theorem State.setRtone_rtones (s : State) (k r : Nat) (x : Rtone) : (s.setRtone k r x).rtones = Tab.put s.rtones (32 * k + r) x := rfl
@[simp] theorem State.setRtone_dec (s : State) (k r : Nat) (x : Rtone) : (s.setRtone k r x).dec = s.dec := rfl
@[simp] theorem State.setRtone_hch (s : State) (k r : Nat) (x : Rtone) : (s.setRtone k r x).hch = s.hch := rfl
@[simp] theorem State.setRtone_badWords (s : State) (k r : Nat) (x : Rtone) : (s.setRtone k r x).badWords = s.badWords := rfl
@[simp] theorem State.setRtone_convs (s : State) (k r : Nat) (x : Rtone) : (s.setRtone k r x).convs = s.convs := rfl
@[simp] theorem State.setRtone_engines (s : State) (k r : Nat) (x : Rtone) : (s.setRtone k r x).engines = s.engines := rfl
@[simp] theorem State.setRtone_thm (s : State) (k r : Nat) (x : Rtone) : (s.setRtone k r x).thm = s.thm := rfl
@[simp] theorem State.setRtone_pwr (s : State) (k r : Nat) (x : Rtone) : (s.setRtone k r x).pwr = s.pwr := rfl
@[simp] theorem State.setRtone_mc (s : State) (k r : Nat) (x : Rtone) : (s.setRtone k r x).mc = s.mc := rfl
@[simp] theorem State.setRtone_mem (s : State) (k r : Nat) (x : Rtone) : (s.setRtone k r x).mem = s.mem := rfl
@[simp] theorem State.setRtone_sync (s : State) (k r : Nat) (x : Rtone) : (s.setRtone k r x).sync = s.sync := rfl
@[simp] theorem State.setRtone_ptp (s : State) (k r : Nat) (x : Rtone) : (s.setRtone k r x).ptp = s.ptp := rfl
@[simp] theorem State.setRtone_hif (s : State) (k r : Nat) (x : Rtone) : (s.setRtone k r x).hif = s.hif := rfl
@[simp] theorem State.setRtone_mon (s : State) (k r : Nat) (x : Rtone) : (s.setRtone k r x).mon = s.mon := rfl
@[simp] theorem State.setRtone_tio (s : State) (k r : Nat) (x : Rtone) : (s.setRtone k r x).tio = s.tio := rfl
@[simp] theorem State.setRtone_hbm (s : State) (k r : Nat) (x : Rtone) : (s.setRtone k r x).hbm = s.hbm := rfl
@[simp] theorem State.setRtone_seqSram (s : State) (k r : Nat) (x : Rtone) : (s.setRtone k r x).seqSram = s.seqSram := rfl
@[simp] theorem State.setRtone_ucode (s : State) (k r : Nat) (x : Rtone) : (s.setRtone k r x).ucode = s.ucode := rfl
@[simp] theorem State.setRtone_envSram (s : State) (k r : Nat) (x : Rtone) : (s.setRtone k r x).envSram = s.envSram := rfl
@[simp] theorem State.setRtone_kernel (s : State) (k r : Nat) (x : Rtone) : (s.setRtone k r x).kernel = s.kernel := rfl
@[simp] theorem State.setRtone_envTab (s : State) (k r : Nat) (x : Rtone) : (s.setRtone k r x).envTab = s.envTab := rfl
@[simp] theorem State.setRtone_hostMem (s : State) (k r : Nat) (x : Rtone) : (s.setRtone k r x).hostMem = s.hostMem := rfl

@[simp] theorem State.setQueue_pending (s : State) (q : Nat) (x : Queue) : (s.setQueue q x).pending = s.pending := rfl
@[simp] theorem State.setQueue_now (s : State) (q : Nat) (x : Queue) : (s.setQueue q x).now = s.now := rfl
@[simp] theorem State.setQueue_free (s : State) (q : Nat) (x : Queue) : (s.setQueue q x).free = s.free := rfl
@[simp] theorem State.setQueue_rdata (s : State) (q : Nat) (x : Queue) : (s.setQueue q x).rdata = s.rdata := rfl
@[simp] theorem State.setQueue_supply (s : State) (q : Nat) (x : Queue) : (s.setQueue q x).supply = s.supply := rfl
@[simp] theorem State.setQueue_half (s : State) (q : Nat) (x : Queue) : (s.setQueue q x).half = s.half := rfl
@[simp] theorem State.setQueue_regs (s : State) (q : Nat) (x : Queue) : (s.setQueue q x).regs = s.regs := rfl
@[simp] theorem State.setQueue_latch (s : State) (q : Nat) (x : Queue) : (s.setQueue q x).latch = s.latch := rfl
@[simp] theorem State.setQueue_lows (s : State) (q : Nat) (x : Queue) : (s.setQueue q x).lows = s.lows := rfl
@[simp] theorem State.setQueue_held (s : State) (q : Nat) (x : Queue) : (s.setQueue q x).held = s.held := rfl
@[simp] theorem State.setQueue_frameW (s : State) (q : Nat) (x : Queue) : (s.setQueue q x).frameW = s.frameW := rfl
@[simp] theorem State.setQueue_frameLog (s : State) (q : Nat) (x : Queue) : (s.setQueue q x).frameLog = s.frameLog := rfl
@[simp] theorem State.setQueue_flags (s : State) (q : Nat) (x : Queue) : (s.setQueue q x).flags = s.flags := rfl
@[simp] theorem State.setQueue_counts (s : State) (q : Nat) (x : Queue) : (s.setQueue q x).counts = s.counts := rfl
@[simp] theorem State.setQueue_flagAt (s : State) (q : Nat) (x : Queue) : (s.setQueue q x).flagAt = s.flagAt := rfl
@[simp] theorem State.setQueue_recent (s : State) (q : Nat) (x : Queue) : (s.setQueue q x).recent = s.recent := rfl
@[simp] theorem State.setQueue_ev (s : State) (q : Nat) (x : Queue) : (s.setQueue q x).ev = s.ev := rfl
@[simp] theorem State.setQueue_queues (s : State) (q : Nat) (x : Queue) : (s.setQueue q x).queues = Tab.put s.queues q x := rfl
@[simp] theorem State.setQueue_mode (s : State) (q : Nat) (x : Queue) : (s.setQueue q x).mode = s.mode := rfl
@[simp] theorem State.setQueue_plies (s : State) (q : Nat) (x : Queue) : (s.setQueue q x).plies = s.plies := rfl
@[simp] theorem State.setQueue_strands (s : State) (q : Nat) (x : Queue) : (s.setQueue q x).strands = s.strands := rfl
@[simp] theorem State.setQueue_cores (s : State) (q : Nat) (x : Queue) : (s.setQueue q x).cores = s.cores := rfl
@[simp] theorem State.setQueue_units (s : State) (q : Nat) (x : Queue) : (s.setQueue q x).units = s.units := rfl
@[simp] theorem State.setQueue_outs (s : State) (q : Nat) (x : Queue) : (s.setQueue q x).outs = s.outs := rfl
@[simp] theorem State.setQueue_inps (s : State) (q : Nat) (x : Queue) : (s.setQueue q x).inps = s.inps := rfl
@[simp] theorem State.setQueue_rtones (s : State) (q : Nat) (x : Queue) : (s.setQueue q x).rtones = s.rtones := rfl
@[simp] theorem State.setQueue_dec (s : State) (q : Nat) (x : Queue) : (s.setQueue q x).dec = s.dec := rfl
@[simp] theorem State.setQueue_hch (s : State) (q : Nat) (x : Queue) : (s.setQueue q x).hch = s.hch := rfl
@[simp] theorem State.setQueue_badWords (s : State) (q : Nat) (x : Queue) : (s.setQueue q x).badWords = s.badWords := rfl
@[simp] theorem State.setQueue_convs (s : State) (q : Nat) (x : Queue) : (s.setQueue q x).convs = s.convs := rfl
@[simp] theorem State.setQueue_engines (s : State) (q : Nat) (x : Queue) : (s.setQueue q x).engines = s.engines := rfl
@[simp] theorem State.setQueue_thm (s : State) (q : Nat) (x : Queue) : (s.setQueue q x).thm = s.thm := rfl
@[simp] theorem State.setQueue_pwr (s : State) (q : Nat) (x : Queue) : (s.setQueue q x).pwr = s.pwr := rfl
@[simp] theorem State.setQueue_mc (s : State) (q : Nat) (x : Queue) : (s.setQueue q x).mc = s.mc := rfl
@[simp] theorem State.setQueue_mem (s : State) (q : Nat) (x : Queue) : (s.setQueue q x).mem = s.mem := rfl
@[simp] theorem State.setQueue_sync (s : State) (q : Nat) (x : Queue) : (s.setQueue q x).sync = s.sync := rfl
@[simp] theorem State.setQueue_ptp (s : State) (q : Nat) (x : Queue) : (s.setQueue q x).ptp = s.ptp := rfl
@[simp] theorem State.setQueue_hif (s : State) (q : Nat) (x : Queue) : (s.setQueue q x).hif = s.hif := rfl
@[simp] theorem State.setQueue_mon (s : State) (q : Nat) (x : Queue) : (s.setQueue q x).mon = s.mon := rfl
@[simp] theorem State.setQueue_tio (s : State) (q : Nat) (x : Queue) : (s.setQueue q x).tio = s.tio := rfl
@[simp] theorem State.setQueue_hbm (s : State) (q : Nat) (x : Queue) : (s.setQueue q x).hbm = s.hbm := rfl
@[simp] theorem State.setQueue_seqSram (s : State) (q : Nat) (x : Queue) : (s.setQueue q x).seqSram = s.seqSram := rfl
@[simp] theorem State.setQueue_ucode (s : State) (q : Nat) (x : Queue) : (s.setQueue q x).ucode = s.ucode := rfl
@[simp] theorem State.setQueue_envSram (s : State) (q : Nat) (x : Queue) : (s.setQueue q x).envSram = s.envSram := rfl
@[simp] theorem State.setQueue_kernel (s : State) (q : Nat) (x : Queue) : (s.setQueue q x).kernel = s.kernel := rfl
@[simp] theorem State.setQueue_envTab (s : State) (q : Nat) (x : Queue) : (s.setQueue q x).envTab = s.envTab := rfl
@[simp] theorem State.setQueue_hostMem (s : State) (q : Nat) (x : Queue) : (s.setQueue q x).hostMem = s.hostMem := rfl

@[simp] theorem State.setMode_pending (s : State) (x : ModeSt) : (s.setMode x).pending = s.pending := rfl
@[simp] theorem State.setMode_now (s : State) (x : ModeSt) : (s.setMode x).now = s.now := rfl
@[simp] theorem State.setMode_free (s : State) (x : ModeSt) : (s.setMode x).free = s.free := rfl
@[simp] theorem State.setMode_rdata (s : State) (x : ModeSt) : (s.setMode x).rdata = s.rdata := rfl
@[simp] theorem State.setMode_supply (s : State) (x : ModeSt) : (s.setMode x).supply = s.supply := rfl
@[simp] theorem State.setMode_half (s : State) (x : ModeSt) : (s.setMode x).half = s.half := rfl
@[simp] theorem State.setMode_regs (s : State) (x : ModeSt) : (s.setMode x).regs = s.regs := rfl
@[simp] theorem State.setMode_latch (s : State) (x : ModeSt) : (s.setMode x).latch = s.latch := rfl
@[simp] theorem State.setMode_lows (s : State) (x : ModeSt) : (s.setMode x).lows = s.lows := rfl
@[simp] theorem State.setMode_held (s : State) (x : ModeSt) : (s.setMode x).held = s.held := rfl
@[simp] theorem State.setMode_frameW (s : State) (x : ModeSt) : (s.setMode x).frameW = s.frameW := rfl
@[simp] theorem State.setMode_frameLog (s : State) (x : ModeSt) : (s.setMode x).frameLog = s.frameLog := rfl
@[simp] theorem State.setMode_flags (s : State) (x : ModeSt) : (s.setMode x).flags = s.flags := rfl
@[simp] theorem State.setMode_counts (s : State) (x : ModeSt) : (s.setMode x).counts = s.counts := rfl
@[simp] theorem State.setMode_flagAt (s : State) (x : ModeSt) : (s.setMode x).flagAt = s.flagAt := rfl
@[simp] theorem State.setMode_recent (s : State) (x : ModeSt) : (s.setMode x).recent = s.recent := rfl
@[simp] theorem State.setMode_ev (s : State) (x : ModeSt) : (s.setMode x).ev = s.ev := rfl
@[simp] theorem State.setMode_queues (s : State) (x : ModeSt) : (s.setMode x).queues = s.queues := rfl
@[simp] theorem State.setMode_mode (s : State) (x : ModeSt) : (s.setMode x).mode = x := rfl
@[simp] theorem State.setMode_plies (s : State) (x : ModeSt) : (s.setMode x).plies = s.plies := rfl
@[simp] theorem State.setMode_strands (s : State) (x : ModeSt) : (s.setMode x).strands = s.strands := rfl
@[simp] theorem State.setMode_cores (s : State) (x : ModeSt) : (s.setMode x).cores = s.cores := rfl
@[simp] theorem State.setMode_units (s : State) (x : ModeSt) : (s.setMode x).units = s.units := rfl
@[simp] theorem State.setMode_outs (s : State) (x : ModeSt) : (s.setMode x).outs = s.outs := rfl
@[simp] theorem State.setMode_inps (s : State) (x : ModeSt) : (s.setMode x).inps = s.inps := rfl
@[simp] theorem State.setMode_rtones (s : State) (x : ModeSt) : (s.setMode x).rtones = s.rtones := rfl
@[simp] theorem State.setMode_dec (s : State) (x : ModeSt) : (s.setMode x).dec = s.dec := rfl
@[simp] theorem State.setMode_hch (s : State) (x : ModeSt) : (s.setMode x).hch = s.hch := rfl
@[simp] theorem State.setMode_badWords (s : State) (x : ModeSt) : (s.setMode x).badWords = s.badWords := rfl
@[simp] theorem State.setMode_convs (s : State) (x : ModeSt) : (s.setMode x).convs = s.convs := rfl
@[simp] theorem State.setMode_engines (s : State) (x : ModeSt) : (s.setMode x).engines = s.engines := rfl
@[simp] theorem State.setMode_thm (s : State) (x : ModeSt) : (s.setMode x).thm = s.thm := rfl
@[simp] theorem State.setMode_pwr (s : State) (x : ModeSt) : (s.setMode x).pwr = s.pwr := rfl
@[simp] theorem State.setMode_mc (s : State) (x : ModeSt) : (s.setMode x).mc = s.mc := rfl
@[simp] theorem State.setMode_mem (s : State) (x : ModeSt) : (s.setMode x).mem = s.mem := rfl
@[simp] theorem State.setMode_sync (s : State) (x : ModeSt) : (s.setMode x).sync = s.sync := rfl
@[simp] theorem State.setMode_ptp (s : State) (x : ModeSt) : (s.setMode x).ptp = s.ptp := rfl
@[simp] theorem State.setMode_hif (s : State) (x : ModeSt) : (s.setMode x).hif = s.hif := rfl
@[simp] theorem State.setMode_mon (s : State) (x : ModeSt) : (s.setMode x).mon = s.mon := rfl
@[simp] theorem State.setMode_tio (s : State) (x : ModeSt) : (s.setMode x).tio = s.tio := rfl
@[simp] theorem State.setMode_hbm (s : State) (x : ModeSt) : (s.setMode x).hbm = s.hbm := rfl
@[simp] theorem State.setMode_seqSram (s : State) (x : ModeSt) : (s.setMode x).seqSram = s.seqSram := rfl
@[simp] theorem State.setMode_ucode (s : State) (x : ModeSt) : (s.setMode x).ucode = s.ucode := rfl
@[simp] theorem State.setMode_envSram (s : State) (x : ModeSt) : (s.setMode x).envSram = s.envSram := rfl
@[simp] theorem State.setMode_kernel (s : State) (x : ModeSt) : (s.setMode x).kernel = s.kernel := rfl
@[simp] theorem State.setMode_envTab (s : State) (x : ModeSt) : (s.setMode x).envTab = s.envTab := rfl
@[simp] theorem State.setMode_hostMem (s : State) (x : ModeSt) : (s.setMode x).hostMem = s.hostMem := rfl

@[simp] theorem State.setSync_pending (s : State) (x : SyncSt) : (s.setSync x).pending = s.pending := rfl
@[simp] theorem State.setSync_now (s : State) (x : SyncSt) : (s.setSync x).now = s.now := rfl
@[simp] theorem State.setSync_free (s : State) (x : SyncSt) : (s.setSync x).free = s.free := rfl
@[simp] theorem State.setSync_rdata (s : State) (x : SyncSt) : (s.setSync x).rdata = s.rdata := rfl
@[simp] theorem State.setSync_supply (s : State) (x : SyncSt) : (s.setSync x).supply = s.supply := rfl
@[simp] theorem State.setSync_half (s : State) (x : SyncSt) : (s.setSync x).half = s.half := rfl
@[simp] theorem State.setSync_regs (s : State) (x : SyncSt) : (s.setSync x).regs = s.regs := rfl
@[simp] theorem State.setSync_latch (s : State) (x : SyncSt) : (s.setSync x).latch = s.latch := rfl
@[simp] theorem State.setSync_lows (s : State) (x : SyncSt) : (s.setSync x).lows = s.lows := rfl
@[simp] theorem State.setSync_held (s : State) (x : SyncSt) : (s.setSync x).held = s.held := rfl
@[simp] theorem State.setSync_frameW (s : State) (x : SyncSt) : (s.setSync x).frameW = s.frameW := rfl
@[simp] theorem State.setSync_frameLog (s : State) (x : SyncSt) : (s.setSync x).frameLog = s.frameLog := rfl
@[simp] theorem State.setSync_flags (s : State) (x : SyncSt) : (s.setSync x).flags = s.flags := rfl
@[simp] theorem State.setSync_counts (s : State) (x : SyncSt) : (s.setSync x).counts = s.counts := rfl
@[simp] theorem State.setSync_flagAt (s : State) (x : SyncSt) : (s.setSync x).flagAt = s.flagAt := rfl
@[simp] theorem State.setSync_recent (s : State) (x : SyncSt) : (s.setSync x).recent = s.recent := rfl
@[simp] theorem State.setSync_ev (s : State) (x : SyncSt) : (s.setSync x).ev = s.ev := rfl
@[simp] theorem State.setSync_queues (s : State) (x : SyncSt) : (s.setSync x).queues = s.queues := rfl
@[simp] theorem State.setSync_mode (s : State) (x : SyncSt) : (s.setSync x).mode = s.mode := rfl
@[simp] theorem State.setSync_plies (s : State) (x : SyncSt) : (s.setSync x).plies = s.plies := rfl
@[simp] theorem State.setSync_strands (s : State) (x : SyncSt) : (s.setSync x).strands = s.strands := rfl
@[simp] theorem State.setSync_cores (s : State) (x : SyncSt) : (s.setSync x).cores = s.cores := rfl
@[simp] theorem State.setSync_units (s : State) (x : SyncSt) : (s.setSync x).units = s.units := rfl
@[simp] theorem State.setSync_outs (s : State) (x : SyncSt) : (s.setSync x).outs = s.outs := rfl
@[simp] theorem State.setSync_inps (s : State) (x : SyncSt) : (s.setSync x).inps = s.inps := rfl
@[simp] theorem State.setSync_rtones (s : State) (x : SyncSt) : (s.setSync x).rtones = s.rtones := rfl
@[simp] theorem State.setSync_dec (s : State) (x : SyncSt) : (s.setSync x).dec = s.dec := rfl
@[simp] theorem State.setSync_hch (s : State) (x : SyncSt) : (s.setSync x).hch = s.hch := rfl
@[simp] theorem State.setSync_badWords (s : State) (x : SyncSt) : (s.setSync x).badWords = s.badWords := rfl
@[simp] theorem State.setSync_convs (s : State) (x : SyncSt) : (s.setSync x).convs = s.convs := rfl
@[simp] theorem State.setSync_engines (s : State) (x : SyncSt) : (s.setSync x).engines = s.engines := rfl
@[simp] theorem State.setSync_thm (s : State) (x : SyncSt) : (s.setSync x).thm = s.thm := rfl
@[simp] theorem State.setSync_pwr (s : State) (x : SyncSt) : (s.setSync x).pwr = s.pwr := rfl
@[simp] theorem State.setSync_mc (s : State) (x : SyncSt) : (s.setSync x).mc = s.mc := rfl
@[simp] theorem State.setSync_mem (s : State) (x : SyncSt) : (s.setSync x).mem = s.mem := rfl
@[simp] theorem State.setSync_sync (s : State) (x : SyncSt) : (s.setSync x).sync = x := rfl
@[simp] theorem State.setSync_ptp (s : State) (x : SyncSt) : (s.setSync x).ptp = s.ptp := rfl
@[simp] theorem State.setSync_hif (s : State) (x : SyncSt) : (s.setSync x).hif = s.hif := rfl
@[simp] theorem State.setSync_mon (s : State) (x : SyncSt) : (s.setSync x).mon = s.mon := rfl
@[simp] theorem State.setSync_tio (s : State) (x : SyncSt) : (s.setSync x).tio = s.tio := rfl
@[simp] theorem State.setSync_hbm (s : State) (x : SyncSt) : (s.setSync x).hbm = s.hbm := rfl
@[simp] theorem State.setSync_seqSram (s : State) (x : SyncSt) : (s.setSync x).seqSram = s.seqSram := rfl
@[simp] theorem State.setSync_ucode (s : State) (x : SyncSt) : (s.setSync x).ucode = s.ucode := rfl
@[simp] theorem State.setSync_envSram (s : State) (x : SyncSt) : (s.setSync x).envSram = s.envSram := rfl
@[simp] theorem State.setSync_kernel (s : State) (x : SyncSt) : (s.setSync x).kernel = s.kernel := rfl
@[simp] theorem State.setSync_envTab (s : State) (x : SyncSt) : (s.setSync x).envTab = s.envTab := rfl
@[simp] theorem State.setSync_hostMem (s : State) (x : SyncSt) : (s.setSync x).hostMem = s.hostMem := rfl

@[simp] theorem State.setPtp_pending (s : State) (x : PtpSt) : (s.setPtp x).pending = s.pending := rfl
@[simp] theorem State.setPtp_now (s : State) (x : PtpSt) : (s.setPtp x).now = s.now := rfl
@[simp] theorem State.setPtp_free (s : State) (x : PtpSt) : (s.setPtp x).free = s.free := rfl
@[simp] theorem State.setPtp_rdata (s : State) (x : PtpSt) : (s.setPtp x).rdata = s.rdata := rfl
@[simp] theorem State.setPtp_supply (s : State) (x : PtpSt) : (s.setPtp x).supply = s.supply := rfl
@[simp] theorem State.setPtp_half (s : State) (x : PtpSt) : (s.setPtp x).half = s.half := rfl
@[simp] theorem State.setPtp_regs (s : State) (x : PtpSt) : (s.setPtp x).regs = s.regs := rfl
@[simp] theorem State.setPtp_latch (s : State) (x : PtpSt) : (s.setPtp x).latch = s.latch := rfl
@[simp] theorem State.setPtp_lows (s : State) (x : PtpSt) : (s.setPtp x).lows = s.lows := rfl
@[simp] theorem State.setPtp_held (s : State) (x : PtpSt) : (s.setPtp x).held = s.held := rfl
@[simp] theorem State.setPtp_frameW (s : State) (x : PtpSt) : (s.setPtp x).frameW = s.frameW := rfl
@[simp] theorem State.setPtp_frameLog (s : State) (x : PtpSt) : (s.setPtp x).frameLog = s.frameLog := rfl
@[simp] theorem State.setPtp_flags (s : State) (x : PtpSt) : (s.setPtp x).flags = s.flags := rfl
@[simp] theorem State.setPtp_counts (s : State) (x : PtpSt) : (s.setPtp x).counts = s.counts := rfl
@[simp] theorem State.setPtp_flagAt (s : State) (x : PtpSt) : (s.setPtp x).flagAt = s.flagAt := rfl
@[simp] theorem State.setPtp_recent (s : State) (x : PtpSt) : (s.setPtp x).recent = s.recent := rfl
@[simp] theorem State.setPtp_ev (s : State) (x : PtpSt) : (s.setPtp x).ev = s.ev := rfl
@[simp] theorem State.setPtp_queues (s : State) (x : PtpSt) : (s.setPtp x).queues = s.queues := rfl
@[simp] theorem State.setPtp_mode (s : State) (x : PtpSt) : (s.setPtp x).mode = s.mode := rfl
@[simp] theorem State.setPtp_plies (s : State) (x : PtpSt) : (s.setPtp x).plies = s.plies := rfl
@[simp] theorem State.setPtp_strands (s : State) (x : PtpSt) : (s.setPtp x).strands = s.strands := rfl
@[simp] theorem State.setPtp_cores (s : State) (x : PtpSt) : (s.setPtp x).cores = s.cores := rfl
@[simp] theorem State.setPtp_units (s : State) (x : PtpSt) : (s.setPtp x).units = s.units := rfl
@[simp] theorem State.setPtp_outs (s : State) (x : PtpSt) : (s.setPtp x).outs = s.outs := rfl
@[simp] theorem State.setPtp_inps (s : State) (x : PtpSt) : (s.setPtp x).inps = s.inps := rfl
@[simp] theorem State.setPtp_rtones (s : State) (x : PtpSt) : (s.setPtp x).rtones = s.rtones := rfl
@[simp] theorem State.setPtp_dec (s : State) (x : PtpSt) : (s.setPtp x).dec = s.dec := rfl
@[simp] theorem State.setPtp_hch (s : State) (x : PtpSt) : (s.setPtp x).hch = s.hch := rfl
@[simp] theorem State.setPtp_badWords (s : State) (x : PtpSt) : (s.setPtp x).badWords = s.badWords := rfl
@[simp] theorem State.setPtp_convs (s : State) (x : PtpSt) : (s.setPtp x).convs = s.convs := rfl
@[simp] theorem State.setPtp_engines (s : State) (x : PtpSt) : (s.setPtp x).engines = s.engines := rfl
@[simp] theorem State.setPtp_thm (s : State) (x : PtpSt) : (s.setPtp x).thm = s.thm := rfl
@[simp] theorem State.setPtp_pwr (s : State) (x : PtpSt) : (s.setPtp x).pwr = s.pwr := rfl
@[simp] theorem State.setPtp_mc (s : State) (x : PtpSt) : (s.setPtp x).mc = s.mc := rfl
@[simp] theorem State.setPtp_mem (s : State) (x : PtpSt) : (s.setPtp x).mem = s.mem := rfl
@[simp] theorem State.setPtp_sync (s : State) (x : PtpSt) : (s.setPtp x).sync = s.sync := rfl
@[simp] theorem State.setPtp_ptp (s : State) (x : PtpSt) : (s.setPtp x).ptp = x := rfl
@[simp] theorem State.setPtp_hif (s : State) (x : PtpSt) : (s.setPtp x).hif = s.hif := rfl
@[simp] theorem State.setPtp_mon (s : State) (x : PtpSt) : (s.setPtp x).mon = s.mon := rfl
@[simp] theorem State.setPtp_tio (s : State) (x : PtpSt) : (s.setPtp x).tio = s.tio := rfl
@[simp] theorem State.setPtp_hbm (s : State) (x : PtpSt) : (s.setPtp x).hbm = s.hbm := rfl
@[simp] theorem State.setPtp_seqSram (s : State) (x : PtpSt) : (s.setPtp x).seqSram = s.seqSram := rfl
@[simp] theorem State.setPtp_ucode (s : State) (x : PtpSt) : (s.setPtp x).ucode = s.ucode := rfl
@[simp] theorem State.setPtp_envSram (s : State) (x : PtpSt) : (s.setPtp x).envSram = s.envSram := rfl
@[simp] theorem State.setPtp_kernel (s : State) (x : PtpSt) : (s.setPtp x).kernel = s.kernel := rfl
@[simp] theorem State.setPtp_envTab (s : State) (x : PtpSt) : (s.setPtp x).envTab = s.envTab := rfl
@[simp] theorem State.setPtp_hostMem (s : State) (x : PtpSt) : (s.setPtp x).hostMem = s.hostMem := rfl

@[simp] theorem State.setThm_pending (s : State) (x : Therm) : (s.setThm x).pending = s.pending := rfl
@[simp] theorem State.setThm_now (s : State) (x : Therm) : (s.setThm x).now = s.now := rfl
@[simp] theorem State.setThm_free (s : State) (x : Therm) : (s.setThm x).free = s.free := rfl
@[simp] theorem State.setThm_rdata (s : State) (x : Therm) : (s.setThm x).rdata = s.rdata := rfl
@[simp] theorem State.setThm_supply (s : State) (x : Therm) : (s.setThm x).supply = s.supply := rfl
@[simp] theorem State.setThm_half (s : State) (x : Therm) : (s.setThm x).half = s.half := rfl
@[simp] theorem State.setThm_regs (s : State) (x : Therm) : (s.setThm x).regs = s.regs := rfl
@[simp] theorem State.setThm_latch (s : State) (x : Therm) : (s.setThm x).latch = s.latch := rfl
@[simp] theorem State.setThm_lows (s : State) (x : Therm) : (s.setThm x).lows = s.lows := rfl
@[simp] theorem State.setThm_held (s : State) (x : Therm) : (s.setThm x).held = s.held := rfl
@[simp] theorem State.setThm_frameW (s : State) (x : Therm) : (s.setThm x).frameW = s.frameW := rfl
@[simp] theorem State.setThm_frameLog (s : State) (x : Therm) : (s.setThm x).frameLog = s.frameLog := rfl
@[simp] theorem State.setThm_flags (s : State) (x : Therm) : (s.setThm x).flags = s.flags := rfl
@[simp] theorem State.setThm_counts (s : State) (x : Therm) : (s.setThm x).counts = s.counts := rfl
@[simp] theorem State.setThm_flagAt (s : State) (x : Therm) : (s.setThm x).flagAt = s.flagAt := rfl
@[simp] theorem State.setThm_recent (s : State) (x : Therm) : (s.setThm x).recent = s.recent := rfl
@[simp] theorem State.setThm_ev (s : State) (x : Therm) : (s.setThm x).ev = s.ev := rfl
@[simp] theorem State.setThm_queues (s : State) (x : Therm) : (s.setThm x).queues = s.queues := rfl
@[simp] theorem State.setThm_mode (s : State) (x : Therm) : (s.setThm x).mode = s.mode := rfl
@[simp] theorem State.setThm_plies (s : State) (x : Therm) : (s.setThm x).plies = s.plies := rfl
@[simp] theorem State.setThm_strands (s : State) (x : Therm) : (s.setThm x).strands = s.strands := rfl
@[simp] theorem State.setThm_cores (s : State) (x : Therm) : (s.setThm x).cores = s.cores := rfl
@[simp] theorem State.setThm_units (s : State) (x : Therm) : (s.setThm x).units = s.units := rfl
@[simp] theorem State.setThm_outs (s : State) (x : Therm) : (s.setThm x).outs = s.outs := rfl
@[simp] theorem State.setThm_inps (s : State) (x : Therm) : (s.setThm x).inps = s.inps := rfl
@[simp] theorem State.setThm_rtones (s : State) (x : Therm) : (s.setThm x).rtones = s.rtones := rfl
@[simp] theorem State.setThm_dec (s : State) (x : Therm) : (s.setThm x).dec = s.dec := rfl
@[simp] theorem State.setThm_hch (s : State) (x : Therm) : (s.setThm x).hch = s.hch := rfl
@[simp] theorem State.setThm_badWords (s : State) (x : Therm) : (s.setThm x).badWords = s.badWords := rfl
@[simp] theorem State.setThm_convs (s : State) (x : Therm) : (s.setThm x).convs = s.convs := rfl
@[simp] theorem State.setThm_engines (s : State) (x : Therm) : (s.setThm x).engines = s.engines := rfl
@[simp] theorem State.setThm_thm (s : State) (x : Therm) : (s.setThm x).thm = x := rfl
@[simp] theorem State.setThm_pwr (s : State) (x : Therm) : (s.setThm x).pwr = s.pwr := rfl
@[simp] theorem State.setThm_mc (s : State) (x : Therm) : (s.setThm x).mc = s.mc := rfl
@[simp] theorem State.setThm_mem (s : State) (x : Therm) : (s.setThm x).mem = s.mem := rfl
@[simp] theorem State.setThm_sync (s : State) (x : Therm) : (s.setThm x).sync = s.sync := rfl
@[simp] theorem State.setThm_ptp (s : State) (x : Therm) : (s.setThm x).ptp = s.ptp := rfl
@[simp] theorem State.setThm_hif (s : State) (x : Therm) : (s.setThm x).hif = s.hif := rfl
@[simp] theorem State.setThm_mon (s : State) (x : Therm) : (s.setThm x).mon = s.mon := rfl
@[simp] theorem State.setThm_tio (s : State) (x : Therm) : (s.setThm x).tio = s.tio := rfl
@[simp] theorem State.setThm_hbm (s : State) (x : Therm) : (s.setThm x).hbm = s.hbm := rfl
@[simp] theorem State.setThm_seqSram (s : State) (x : Therm) : (s.setThm x).seqSram = s.seqSram := rfl
@[simp] theorem State.setThm_ucode (s : State) (x : Therm) : (s.setThm x).ucode = s.ucode := rfl
@[simp] theorem State.setThm_envSram (s : State) (x : Therm) : (s.setThm x).envSram = s.envSram := rfl
@[simp] theorem State.setThm_kernel (s : State) (x : Therm) : (s.setThm x).kernel = s.kernel := rfl
@[simp] theorem State.setThm_envTab (s : State) (x : Therm) : (s.setThm x).envTab = s.envTab := rfl
@[simp] theorem State.setThm_hostMem (s : State) (x : Therm) : (s.setThm x).hostMem = s.hostMem := rfl

@[simp] theorem State.setPwr_pending (s : State) (x : Power) : (s.setPwr x).pending = s.pending := rfl
@[simp] theorem State.setPwr_now (s : State) (x : Power) : (s.setPwr x).now = s.now := rfl
@[simp] theorem State.setPwr_free (s : State) (x : Power) : (s.setPwr x).free = s.free := rfl
@[simp] theorem State.setPwr_rdata (s : State) (x : Power) : (s.setPwr x).rdata = s.rdata := rfl
@[simp] theorem State.setPwr_supply (s : State) (x : Power) : (s.setPwr x).supply = s.supply := rfl
@[simp] theorem State.setPwr_half (s : State) (x : Power) : (s.setPwr x).half = s.half := rfl
@[simp] theorem State.setPwr_regs (s : State) (x : Power) : (s.setPwr x).regs = s.regs := rfl
@[simp] theorem State.setPwr_latch (s : State) (x : Power) : (s.setPwr x).latch = s.latch := rfl
@[simp] theorem State.setPwr_lows (s : State) (x : Power) : (s.setPwr x).lows = s.lows := rfl
@[simp] theorem State.setPwr_held (s : State) (x : Power) : (s.setPwr x).held = s.held := rfl
@[simp] theorem State.setPwr_frameW (s : State) (x : Power) : (s.setPwr x).frameW = s.frameW := rfl
@[simp] theorem State.setPwr_frameLog (s : State) (x : Power) : (s.setPwr x).frameLog = s.frameLog := rfl
@[simp] theorem State.setPwr_flags (s : State) (x : Power) : (s.setPwr x).flags = s.flags := rfl
@[simp] theorem State.setPwr_counts (s : State) (x : Power) : (s.setPwr x).counts = s.counts := rfl
@[simp] theorem State.setPwr_flagAt (s : State) (x : Power) : (s.setPwr x).flagAt = s.flagAt := rfl
@[simp] theorem State.setPwr_recent (s : State) (x : Power) : (s.setPwr x).recent = s.recent := rfl
@[simp] theorem State.setPwr_ev (s : State) (x : Power) : (s.setPwr x).ev = s.ev := rfl
@[simp] theorem State.setPwr_queues (s : State) (x : Power) : (s.setPwr x).queues = s.queues := rfl
@[simp] theorem State.setPwr_mode (s : State) (x : Power) : (s.setPwr x).mode = s.mode := rfl
@[simp] theorem State.setPwr_plies (s : State) (x : Power) : (s.setPwr x).plies = s.plies := rfl
@[simp] theorem State.setPwr_strands (s : State) (x : Power) : (s.setPwr x).strands = s.strands := rfl
@[simp] theorem State.setPwr_cores (s : State) (x : Power) : (s.setPwr x).cores = s.cores := rfl
@[simp] theorem State.setPwr_units (s : State) (x : Power) : (s.setPwr x).units = s.units := rfl
@[simp] theorem State.setPwr_outs (s : State) (x : Power) : (s.setPwr x).outs = s.outs := rfl
@[simp] theorem State.setPwr_inps (s : State) (x : Power) : (s.setPwr x).inps = s.inps := rfl
@[simp] theorem State.setPwr_rtones (s : State) (x : Power) : (s.setPwr x).rtones = s.rtones := rfl
@[simp] theorem State.setPwr_dec (s : State) (x : Power) : (s.setPwr x).dec = s.dec := rfl
@[simp] theorem State.setPwr_hch (s : State) (x : Power) : (s.setPwr x).hch = s.hch := rfl
@[simp] theorem State.setPwr_badWords (s : State) (x : Power) : (s.setPwr x).badWords = s.badWords := rfl
@[simp] theorem State.setPwr_convs (s : State) (x : Power) : (s.setPwr x).convs = s.convs := rfl
@[simp] theorem State.setPwr_engines (s : State) (x : Power) : (s.setPwr x).engines = s.engines := rfl
@[simp] theorem State.setPwr_thm (s : State) (x : Power) : (s.setPwr x).thm = s.thm := rfl
@[simp] theorem State.setPwr_pwr (s : State) (x : Power) : (s.setPwr x).pwr = x := rfl
@[simp] theorem State.setPwr_mc (s : State) (x : Power) : (s.setPwr x).mc = s.mc := rfl
@[simp] theorem State.setPwr_mem (s : State) (x : Power) : (s.setPwr x).mem = s.mem := rfl
@[simp] theorem State.setPwr_sync (s : State) (x : Power) : (s.setPwr x).sync = s.sync := rfl
@[simp] theorem State.setPwr_ptp (s : State) (x : Power) : (s.setPwr x).ptp = s.ptp := rfl
@[simp] theorem State.setPwr_hif (s : State) (x : Power) : (s.setPwr x).hif = s.hif := rfl
@[simp] theorem State.setPwr_mon (s : State) (x : Power) : (s.setPwr x).mon = s.mon := rfl
@[simp] theorem State.setPwr_tio (s : State) (x : Power) : (s.setPwr x).tio = s.tio := rfl
@[simp] theorem State.setPwr_hbm (s : State) (x : Power) : (s.setPwr x).hbm = s.hbm := rfl
@[simp] theorem State.setPwr_seqSram (s : State) (x : Power) : (s.setPwr x).seqSram = s.seqSram := rfl
@[simp] theorem State.setPwr_ucode (s : State) (x : Power) : (s.setPwr x).ucode = s.ucode := rfl
@[simp] theorem State.setPwr_envSram (s : State) (x : Power) : (s.setPwr x).envSram = s.envSram := rfl
@[simp] theorem State.setPwr_kernel (s : State) (x : Power) : (s.setPwr x).kernel = s.kernel := rfl
@[simp] theorem State.setPwr_envTab (s : State) (x : Power) : (s.setPwr x).envTab = s.envTab := rfl
@[simp] theorem State.setPwr_hostMem (s : State) (x : Power) : (s.setPwr x).hostMem = s.hostMem := rfl

@[simp] theorem State.setMc_pending (s : State) (x : Mgmt) : (s.setMc x).pending = s.pending := rfl
@[simp] theorem State.setMc_now (s : State) (x : Mgmt) : (s.setMc x).now = s.now := rfl
@[simp] theorem State.setMc_free (s : State) (x : Mgmt) : (s.setMc x).free = s.free := rfl
@[simp] theorem State.setMc_rdata (s : State) (x : Mgmt) : (s.setMc x).rdata = s.rdata := rfl
@[simp] theorem State.setMc_supply (s : State) (x : Mgmt) : (s.setMc x).supply = s.supply := rfl
@[simp] theorem State.setMc_half (s : State) (x : Mgmt) : (s.setMc x).half = s.half := rfl
@[simp] theorem State.setMc_regs (s : State) (x : Mgmt) : (s.setMc x).regs = s.regs := rfl
@[simp] theorem State.setMc_latch (s : State) (x : Mgmt) : (s.setMc x).latch = s.latch := rfl
@[simp] theorem State.setMc_lows (s : State) (x : Mgmt) : (s.setMc x).lows = s.lows := rfl
@[simp] theorem State.setMc_held (s : State) (x : Mgmt) : (s.setMc x).held = s.held := rfl
@[simp] theorem State.setMc_frameW (s : State) (x : Mgmt) : (s.setMc x).frameW = s.frameW := rfl
@[simp] theorem State.setMc_frameLog (s : State) (x : Mgmt) : (s.setMc x).frameLog = s.frameLog := rfl
@[simp] theorem State.setMc_flags (s : State) (x : Mgmt) : (s.setMc x).flags = s.flags := rfl
@[simp] theorem State.setMc_counts (s : State) (x : Mgmt) : (s.setMc x).counts = s.counts := rfl
@[simp] theorem State.setMc_flagAt (s : State) (x : Mgmt) : (s.setMc x).flagAt = s.flagAt := rfl
@[simp] theorem State.setMc_recent (s : State) (x : Mgmt) : (s.setMc x).recent = s.recent := rfl
@[simp] theorem State.setMc_ev (s : State) (x : Mgmt) : (s.setMc x).ev = s.ev := rfl
@[simp] theorem State.setMc_queues (s : State) (x : Mgmt) : (s.setMc x).queues = s.queues := rfl
@[simp] theorem State.setMc_mode (s : State) (x : Mgmt) : (s.setMc x).mode = s.mode := rfl
@[simp] theorem State.setMc_plies (s : State) (x : Mgmt) : (s.setMc x).plies = s.plies := rfl
@[simp] theorem State.setMc_strands (s : State) (x : Mgmt) : (s.setMc x).strands = s.strands := rfl
@[simp] theorem State.setMc_cores (s : State) (x : Mgmt) : (s.setMc x).cores = s.cores := rfl
@[simp] theorem State.setMc_units (s : State) (x : Mgmt) : (s.setMc x).units = s.units := rfl
@[simp] theorem State.setMc_outs (s : State) (x : Mgmt) : (s.setMc x).outs = s.outs := rfl
@[simp] theorem State.setMc_inps (s : State) (x : Mgmt) : (s.setMc x).inps = s.inps := rfl
@[simp] theorem State.setMc_rtones (s : State) (x : Mgmt) : (s.setMc x).rtones = s.rtones := rfl
@[simp] theorem State.setMc_dec (s : State) (x : Mgmt) : (s.setMc x).dec = s.dec := rfl
@[simp] theorem State.setMc_hch (s : State) (x : Mgmt) : (s.setMc x).hch = s.hch := rfl
@[simp] theorem State.setMc_badWords (s : State) (x : Mgmt) : (s.setMc x).badWords = s.badWords := rfl
@[simp] theorem State.setMc_convs (s : State) (x : Mgmt) : (s.setMc x).convs = s.convs := rfl
@[simp] theorem State.setMc_engines (s : State) (x : Mgmt) : (s.setMc x).engines = s.engines := rfl
@[simp] theorem State.setMc_thm (s : State) (x : Mgmt) : (s.setMc x).thm = s.thm := rfl
@[simp] theorem State.setMc_pwr (s : State) (x : Mgmt) : (s.setMc x).pwr = s.pwr := rfl
@[simp] theorem State.setMc_mc (s : State) (x : Mgmt) : (s.setMc x).mc = x := rfl
@[simp] theorem State.setMc_mem (s : State) (x : Mgmt) : (s.setMc x).mem = s.mem := rfl
@[simp] theorem State.setMc_sync (s : State) (x : Mgmt) : (s.setMc x).sync = s.sync := rfl
@[simp] theorem State.setMc_ptp (s : State) (x : Mgmt) : (s.setMc x).ptp = s.ptp := rfl
@[simp] theorem State.setMc_hif (s : State) (x : Mgmt) : (s.setMc x).hif = s.hif := rfl
@[simp] theorem State.setMc_mon (s : State) (x : Mgmt) : (s.setMc x).mon = s.mon := rfl
@[simp] theorem State.setMc_tio (s : State) (x : Mgmt) : (s.setMc x).tio = s.tio := rfl
@[simp] theorem State.setMc_hbm (s : State) (x : Mgmt) : (s.setMc x).hbm = s.hbm := rfl
@[simp] theorem State.setMc_seqSram (s : State) (x : Mgmt) : (s.setMc x).seqSram = s.seqSram := rfl
@[simp] theorem State.setMc_ucode (s : State) (x : Mgmt) : (s.setMc x).ucode = s.ucode := rfl
@[simp] theorem State.setMc_envSram (s : State) (x : Mgmt) : (s.setMc x).envSram = s.envSram := rfl
@[simp] theorem State.setMc_kernel (s : State) (x : Mgmt) : (s.setMc x).kernel = s.kernel := rfl
@[simp] theorem State.setMc_envTab (s : State) (x : Mgmt) : (s.setMc x).envTab = s.envTab := rfl
@[simp] theorem State.setMc_hostMem (s : State) (x : Mgmt) : (s.setMc x).hostMem = s.hostMem := rfl

@[simp] theorem State.setMem_pending (s : State) (x : MemSt) : (s.setMem x).pending = s.pending := rfl
@[simp] theorem State.setMem_now (s : State) (x : MemSt) : (s.setMem x).now = s.now := rfl
@[simp] theorem State.setMem_free (s : State) (x : MemSt) : (s.setMem x).free = s.free := rfl
@[simp] theorem State.setMem_rdata (s : State) (x : MemSt) : (s.setMem x).rdata = s.rdata := rfl
@[simp] theorem State.setMem_supply (s : State) (x : MemSt) : (s.setMem x).supply = s.supply := rfl
@[simp] theorem State.setMem_half (s : State) (x : MemSt) : (s.setMem x).half = s.half := rfl
@[simp] theorem State.setMem_regs (s : State) (x : MemSt) : (s.setMem x).regs = s.regs := rfl
@[simp] theorem State.setMem_latch (s : State) (x : MemSt) : (s.setMem x).latch = s.latch := rfl
@[simp] theorem State.setMem_lows (s : State) (x : MemSt) : (s.setMem x).lows = s.lows := rfl
@[simp] theorem State.setMem_held (s : State) (x : MemSt) : (s.setMem x).held = s.held := rfl
@[simp] theorem State.setMem_frameW (s : State) (x : MemSt) : (s.setMem x).frameW = s.frameW := rfl
@[simp] theorem State.setMem_frameLog (s : State) (x : MemSt) : (s.setMem x).frameLog = s.frameLog := rfl
@[simp] theorem State.setMem_flags (s : State) (x : MemSt) : (s.setMem x).flags = s.flags := rfl
@[simp] theorem State.setMem_counts (s : State) (x : MemSt) : (s.setMem x).counts = s.counts := rfl
@[simp] theorem State.setMem_flagAt (s : State) (x : MemSt) : (s.setMem x).flagAt = s.flagAt := rfl
@[simp] theorem State.setMem_recent (s : State) (x : MemSt) : (s.setMem x).recent = s.recent := rfl
@[simp] theorem State.setMem_ev (s : State) (x : MemSt) : (s.setMem x).ev = s.ev := rfl
@[simp] theorem State.setMem_queues (s : State) (x : MemSt) : (s.setMem x).queues = s.queues := rfl
@[simp] theorem State.setMem_mode (s : State) (x : MemSt) : (s.setMem x).mode = s.mode := rfl
@[simp] theorem State.setMem_plies (s : State) (x : MemSt) : (s.setMem x).plies = s.plies := rfl
@[simp] theorem State.setMem_strands (s : State) (x : MemSt) : (s.setMem x).strands = s.strands := rfl
@[simp] theorem State.setMem_cores (s : State) (x : MemSt) : (s.setMem x).cores = s.cores := rfl
@[simp] theorem State.setMem_units (s : State) (x : MemSt) : (s.setMem x).units = s.units := rfl
@[simp] theorem State.setMem_outs (s : State) (x : MemSt) : (s.setMem x).outs = s.outs := rfl
@[simp] theorem State.setMem_inps (s : State) (x : MemSt) : (s.setMem x).inps = s.inps := rfl
@[simp] theorem State.setMem_rtones (s : State) (x : MemSt) : (s.setMem x).rtones = s.rtones := rfl
@[simp] theorem State.setMem_dec (s : State) (x : MemSt) : (s.setMem x).dec = s.dec := rfl
@[simp] theorem State.setMem_hch (s : State) (x : MemSt) : (s.setMem x).hch = s.hch := rfl
@[simp] theorem State.setMem_badWords (s : State) (x : MemSt) : (s.setMem x).badWords = s.badWords := rfl
@[simp] theorem State.setMem_convs (s : State) (x : MemSt) : (s.setMem x).convs = s.convs := rfl
@[simp] theorem State.setMem_engines (s : State) (x : MemSt) : (s.setMem x).engines = s.engines := rfl
@[simp] theorem State.setMem_thm (s : State) (x : MemSt) : (s.setMem x).thm = s.thm := rfl
@[simp] theorem State.setMem_pwr (s : State) (x : MemSt) : (s.setMem x).pwr = s.pwr := rfl
@[simp] theorem State.setMem_mc (s : State) (x : MemSt) : (s.setMem x).mc = s.mc := rfl
@[simp] theorem State.setMem_mem (s : State) (x : MemSt) : (s.setMem x).mem = x := rfl
@[simp] theorem State.setMem_sync (s : State) (x : MemSt) : (s.setMem x).sync = s.sync := rfl
@[simp] theorem State.setMem_ptp (s : State) (x : MemSt) : (s.setMem x).ptp = s.ptp := rfl
@[simp] theorem State.setMem_hif (s : State) (x : MemSt) : (s.setMem x).hif = s.hif := rfl
@[simp] theorem State.setMem_mon (s : State) (x : MemSt) : (s.setMem x).mon = s.mon := rfl
@[simp] theorem State.setMem_tio (s : State) (x : MemSt) : (s.setMem x).tio = s.tio := rfl
@[simp] theorem State.setMem_hbm (s : State) (x : MemSt) : (s.setMem x).hbm = s.hbm := rfl
@[simp] theorem State.setMem_seqSram (s : State) (x : MemSt) : (s.setMem x).seqSram = s.seqSram := rfl
@[simp] theorem State.setMem_ucode (s : State) (x : MemSt) : (s.setMem x).ucode = s.ucode := rfl
@[simp] theorem State.setMem_envSram (s : State) (x : MemSt) : (s.setMem x).envSram = s.envSram := rfl
@[simp] theorem State.setMem_kernel (s : State) (x : MemSt) : (s.setMem x).kernel = s.kernel := rfl
@[simp] theorem State.setMem_envTab (s : State) (x : MemSt) : (s.setMem x).envTab = s.envTab := rfl
@[simp] theorem State.setMem_hostMem (s : State) (x : MemSt) : (s.setMem x).hostMem = s.hostMem := rfl

@[simp] theorem State.setConv_pending (s : State) (c : Nat) (x : Conv) : (s.setConv c x).pending = s.pending := rfl
@[simp] theorem State.setConv_now (s : State) (c : Nat) (x : Conv) : (s.setConv c x).now = s.now := rfl
@[simp] theorem State.setConv_free (s : State) (c : Nat) (x : Conv) : (s.setConv c x).free = s.free := rfl
@[simp] theorem State.setConv_rdata (s : State) (c : Nat) (x : Conv) : (s.setConv c x).rdata = s.rdata := rfl
@[simp] theorem State.setConv_supply (s : State) (c : Nat) (x : Conv) : (s.setConv c x).supply = s.supply := rfl
@[simp] theorem State.setConv_half (s : State) (c : Nat) (x : Conv) : (s.setConv c x).half = s.half := rfl
@[simp] theorem State.setConv_regs (s : State) (c : Nat) (x : Conv) : (s.setConv c x).regs = s.regs := rfl
@[simp] theorem State.setConv_latch (s : State) (c : Nat) (x : Conv) : (s.setConv c x).latch = s.latch := rfl
@[simp] theorem State.setConv_lows (s : State) (c : Nat) (x : Conv) : (s.setConv c x).lows = s.lows := rfl
@[simp] theorem State.setConv_held (s : State) (c : Nat) (x : Conv) : (s.setConv c x).held = s.held := rfl
@[simp] theorem State.setConv_frameW (s : State) (c : Nat) (x : Conv) : (s.setConv c x).frameW = s.frameW := rfl
@[simp] theorem State.setConv_frameLog (s : State) (c : Nat) (x : Conv) : (s.setConv c x).frameLog = s.frameLog := rfl
@[simp] theorem State.setConv_flags (s : State) (c : Nat) (x : Conv) : (s.setConv c x).flags = s.flags := rfl
@[simp] theorem State.setConv_counts (s : State) (c : Nat) (x : Conv) : (s.setConv c x).counts = s.counts := rfl
@[simp] theorem State.setConv_flagAt (s : State) (c : Nat) (x : Conv) : (s.setConv c x).flagAt = s.flagAt := rfl
@[simp] theorem State.setConv_recent (s : State) (c : Nat) (x : Conv) : (s.setConv c x).recent = s.recent := rfl
@[simp] theorem State.setConv_ev (s : State) (c : Nat) (x : Conv) : (s.setConv c x).ev = s.ev := rfl
@[simp] theorem State.setConv_queues (s : State) (c : Nat) (x : Conv) : (s.setConv c x).queues = s.queues := rfl
@[simp] theorem State.setConv_mode (s : State) (c : Nat) (x : Conv) : (s.setConv c x).mode = s.mode := rfl
@[simp] theorem State.setConv_plies (s : State) (c : Nat) (x : Conv) : (s.setConv c x).plies = s.plies := rfl
@[simp] theorem State.setConv_strands (s : State) (c : Nat) (x : Conv) : (s.setConv c x).strands = s.strands := rfl
@[simp] theorem State.setConv_cores (s : State) (c : Nat) (x : Conv) : (s.setConv c x).cores = s.cores := rfl
@[simp] theorem State.setConv_units (s : State) (c : Nat) (x : Conv) : (s.setConv c x).units = s.units := rfl
@[simp] theorem State.setConv_outs (s : State) (c : Nat) (x : Conv) : (s.setConv c x).outs = s.outs := rfl
@[simp] theorem State.setConv_inps (s : State) (c : Nat) (x : Conv) : (s.setConv c x).inps = s.inps := rfl
@[simp] theorem State.setConv_rtones (s : State) (c : Nat) (x : Conv) : (s.setConv c x).rtones = s.rtones := rfl
@[simp] theorem State.setConv_dec (s : State) (c : Nat) (x : Conv) : (s.setConv c x).dec = s.dec := rfl
@[simp] theorem State.setConv_hch (s : State) (c : Nat) (x : Conv) : (s.setConv c x).hch = s.hch := rfl
@[simp] theorem State.setConv_badWords (s : State) (c : Nat) (x : Conv) : (s.setConv c x).badWords = s.badWords := rfl
@[simp] theorem State.setConv_convs (s : State) (c : Nat) (x : Conv) : (s.setConv c x).convs = Tab.put s.convs c x := rfl
@[simp] theorem State.setConv_engines (s : State) (c : Nat) (x : Conv) : (s.setConv c x).engines = s.engines := rfl
@[simp] theorem State.setConv_thm (s : State) (c : Nat) (x : Conv) : (s.setConv c x).thm = s.thm := rfl
@[simp] theorem State.setConv_pwr (s : State) (c : Nat) (x : Conv) : (s.setConv c x).pwr = s.pwr := rfl
@[simp] theorem State.setConv_mc (s : State) (c : Nat) (x : Conv) : (s.setConv c x).mc = s.mc := rfl
@[simp] theorem State.setConv_mem (s : State) (c : Nat) (x : Conv) : (s.setConv c x).mem = s.mem := rfl
@[simp] theorem State.setConv_sync (s : State) (c : Nat) (x : Conv) : (s.setConv c x).sync = s.sync := rfl
@[simp] theorem State.setConv_ptp (s : State) (c : Nat) (x : Conv) : (s.setConv c x).ptp = s.ptp := rfl
@[simp] theorem State.setConv_hif (s : State) (c : Nat) (x : Conv) : (s.setConv c x).hif = s.hif := rfl
@[simp] theorem State.setConv_mon (s : State) (c : Nat) (x : Conv) : (s.setConv c x).mon = s.mon := rfl
@[simp] theorem State.setConv_tio (s : State) (c : Nat) (x : Conv) : (s.setConv c x).tio = s.tio := rfl
@[simp] theorem State.setConv_hbm (s : State) (c : Nat) (x : Conv) : (s.setConv c x).hbm = s.hbm := rfl
@[simp] theorem State.setConv_seqSram (s : State) (c : Nat) (x : Conv) : (s.setConv c x).seqSram = s.seqSram := rfl
@[simp] theorem State.setConv_ucode (s : State) (c : Nat) (x : Conv) : (s.setConv c x).ucode = s.ucode := rfl
@[simp] theorem State.setConv_envSram (s : State) (c : Nat) (x : Conv) : (s.setConv c x).envSram = s.envSram := rfl
@[simp] theorem State.setConv_kernel (s : State) (c : Nat) (x : Conv) : (s.setConv c x).kernel = s.kernel := rfl
@[simp] theorem State.setConv_envTab (s : State) (c : Nat) (x : Conv) : (s.setConv c x).envTab = s.envTab := rfl
@[simp] theorem State.setConv_hostMem (s : State) (c : Nat) (x : Conv) : (s.setConv c x).hostMem = s.hostMem := rfl

@[simp] theorem State.setEngine_pending (s : State) (p : Nat) (x : Engine) : (s.setEngine p x).pending = s.pending := rfl
@[simp] theorem State.setEngine_now (s : State) (p : Nat) (x : Engine) : (s.setEngine p x).now = s.now := rfl
@[simp] theorem State.setEngine_free (s : State) (p : Nat) (x : Engine) : (s.setEngine p x).free = s.free := rfl
@[simp] theorem State.setEngine_rdata (s : State) (p : Nat) (x : Engine) : (s.setEngine p x).rdata = s.rdata := rfl
@[simp] theorem State.setEngine_supply (s : State) (p : Nat) (x : Engine) : (s.setEngine p x).supply = s.supply := rfl
@[simp] theorem State.setEngine_half (s : State) (p : Nat) (x : Engine) : (s.setEngine p x).half = s.half := rfl
@[simp] theorem State.setEngine_regs (s : State) (p : Nat) (x : Engine) : (s.setEngine p x).regs = s.regs := rfl
@[simp] theorem State.setEngine_latch (s : State) (p : Nat) (x : Engine) : (s.setEngine p x).latch = s.latch := rfl
@[simp] theorem State.setEngine_lows (s : State) (p : Nat) (x : Engine) : (s.setEngine p x).lows = s.lows := rfl
@[simp] theorem State.setEngine_held (s : State) (p : Nat) (x : Engine) : (s.setEngine p x).held = s.held := rfl
@[simp] theorem State.setEngine_frameW (s : State) (p : Nat) (x : Engine) : (s.setEngine p x).frameW = s.frameW := rfl
@[simp] theorem State.setEngine_frameLog (s : State) (p : Nat) (x : Engine) : (s.setEngine p x).frameLog = s.frameLog := rfl
@[simp] theorem State.setEngine_flags (s : State) (p : Nat) (x : Engine) : (s.setEngine p x).flags = s.flags := rfl
@[simp] theorem State.setEngine_counts (s : State) (p : Nat) (x : Engine) : (s.setEngine p x).counts = s.counts := rfl
@[simp] theorem State.setEngine_flagAt (s : State) (p : Nat) (x : Engine) : (s.setEngine p x).flagAt = s.flagAt := rfl
@[simp] theorem State.setEngine_recent (s : State) (p : Nat) (x : Engine) : (s.setEngine p x).recent = s.recent := rfl
@[simp] theorem State.setEngine_ev (s : State) (p : Nat) (x : Engine) : (s.setEngine p x).ev = s.ev := rfl
@[simp] theorem State.setEngine_queues (s : State) (p : Nat) (x : Engine) : (s.setEngine p x).queues = s.queues := rfl
@[simp] theorem State.setEngine_mode (s : State) (p : Nat) (x : Engine) : (s.setEngine p x).mode = s.mode := rfl
@[simp] theorem State.setEngine_plies (s : State) (p : Nat) (x : Engine) : (s.setEngine p x).plies = s.plies := rfl
@[simp] theorem State.setEngine_strands (s : State) (p : Nat) (x : Engine) : (s.setEngine p x).strands = s.strands := rfl
@[simp] theorem State.setEngine_cores (s : State) (p : Nat) (x : Engine) : (s.setEngine p x).cores = s.cores := rfl
@[simp] theorem State.setEngine_units (s : State) (p : Nat) (x : Engine) : (s.setEngine p x).units = s.units := rfl
@[simp] theorem State.setEngine_outs (s : State) (p : Nat) (x : Engine) : (s.setEngine p x).outs = s.outs := rfl
@[simp] theorem State.setEngine_inps (s : State) (p : Nat) (x : Engine) : (s.setEngine p x).inps = s.inps := rfl
@[simp] theorem State.setEngine_rtones (s : State) (p : Nat) (x : Engine) : (s.setEngine p x).rtones = s.rtones := rfl
@[simp] theorem State.setEngine_dec (s : State) (p : Nat) (x : Engine) : (s.setEngine p x).dec = s.dec := rfl
@[simp] theorem State.setEngine_hch (s : State) (p : Nat) (x : Engine) : (s.setEngine p x).hch = s.hch := rfl
@[simp] theorem State.setEngine_badWords (s : State) (p : Nat) (x : Engine) : (s.setEngine p x).badWords = s.badWords := rfl
@[simp] theorem State.setEngine_convs (s : State) (p : Nat) (x : Engine) : (s.setEngine p x).convs = s.convs := rfl
@[simp] theorem State.setEngine_engines (s : State) (p : Nat) (x : Engine) : (s.setEngine p x).engines = Tab.put s.engines p x := rfl
@[simp] theorem State.setEngine_thm (s : State) (p : Nat) (x : Engine) : (s.setEngine p x).thm = s.thm := rfl
@[simp] theorem State.setEngine_pwr (s : State) (p : Nat) (x : Engine) : (s.setEngine p x).pwr = s.pwr := rfl
@[simp] theorem State.setEngine_mc (s : State) (p : Nat) (x : Engine) : (s.setEngine p x).mc = s.mc := rfl
@[simp] theorem State.setEngine_mem (s : State) (p : Nat) (x : Engine) : (s.setEngine p x).mem = s.mem := rfl
@[simp] theorem State.setEngine_sync (s : State) (p : Nat) (x : Engine) : (s.setEngine p x).sync = s.sync := rfl
@[simp] theorem State.setEngine_ptp (s : State) (p : Nat) (x : Engine) : (s.setEngine p x).ptp = s.ptp := rfl
@[simp] theorem State.setEngine_hif (s : State) (p : Nat) (x : Engine) : (s.setEngine p x).hif = s.hif := rfl
@[simp] theorem State.setEngine_mon (s : State) (p : Nat) (x : Engine) : (s.setEngine p x).mon = s.mon := rfl
@[simp] theorem State.setEngine_tio (s : State) (p : Nat) (x : Engine) : (s.setEngine p x).tio = s.tio := rfl
@[simp] theorem State.setEngine_hbm (s : State) (p : Nat) (x : Engine) : (s.setEngine p x).hbm = s.hbm := rfl
@[simp] theorem State.setEngine_seqSram (s : State) (p : Nat) (x : Engine) : (s.setEngine p x).seqSram = s.seqSram := rfl
@[simp] theorem State.setEngine_ucode (s : State) (p : Nat) (x : Engine) : (s.setEngine p x).ucode = s.ucode := rfl
@[simp] theorem State.setEngine_envSram (s : State) (p : Nat) (x : Engine) : (s.setEngine p x).envSram = s.envSram := rfl
@[simp] theorem State.setEngine_kernel (s : State) (p : Nat) (x : Engine) : (s.setEngine p x).kernel = s.kernel := rfl
@[simp] theorem State.setEngine_envTab (s : State) (p : Nat) (x : Engine) : (s.setEngine p x).envTab = s.envTab := rfl
@[simp] theorem State.setEngine_hostMem (s : State) (p : Nat) (x : Engine) : (s.setEngine p x).hostMem = s.hostMem := rfl

@[simp] theorem State.setRing_pending (s : State) (n : Nat) (x : Ring) : (s.setRing n x).pending = s.pending := rfl
@[simp] theorem State.setRing_now (s : State) (n : Nat) (x : Ring) : (s.setRing n x).now = s.now := rfl
@[simp] theorem State.setRing_free (s : State) (n : Nat) (x : Ring) : (s.setRing n x).free = s.free := rfl
@[simp] theorem State.setRing_rdata (s : State) (n : Nat) (x : Ring) : (s.setRing n x).rdata = s.rdata := rfl
@[simp] theorem State.setRing_supply (s : State) (n : Nat) (x : Ring) : (s.setRing n x).supply = s.supply := rfl
@[simp] theorem State.setRing_half (s : State) (n : Nat) (x : Ring) : (s.setRing n x).half = s.half := rfl
@[simp] theorem State.setRing_regs (s : State) (n : Nat) (x : Ring) : (s.setRing n x).regs = s.regs := rfl
@[simp] theorem State.setRing_latch (s : State) (n : Nat) (x : Ring) : (s.setRing n x).latch = s.latch := rfl
@[simp] theorem State.setRing_lows (s : State) (n : Nat) (x : Ring) : (s.setRing n x).lows = s.lows := rfl
@[simp] theorem State.setRing_held (s : State) (n : Nat) (x : Ring) : (s.setRing n x).held = s.held := rfl
@[simp] theorem State.setRing_frameW (s : State) (n : Nat) (x : Ring) : (s.setRing n x).frameW = s.frameW := rfl
@[simp] theorem State.setRing_frameLog (s : State) (n : Nat) (x : Ring) : (s.setRing n x).frameLog = s.frameLog := rfl
@[simp] theorem State.setRing_flags (s : State) (n : Nat) (x : Ring) : (s.setRing n x).flags = s.flags := rfl
@[simp] theorem State.setRing_counts (s : State) (n : Nat) (x : Ring) : (s.setRing n x).counts = s.counts := rfl
@[simp] theorem State.setRing_flagAt (s : State) (n : Nat) (x : Ring) : (s.setRing n x).flagAt = s.flagAt := rfl
@[simp] theorem State.setRing_recent (s : State) (n : Nat) (x : Ring) : (s.setRing n x).recent = s.recent := rfl
@[simp] theorem State.setRing_ev (s : State) (n : Nat) (x : Ring) : (s.setRing n x).ev = s.ev := rfl
@[simp] theorem State.setRing_queues (s : State) (n : Nat) (x : Ring) : (s.setRing n x).queues = s.queues := rfl
@[simp] theorem State.setRing_mode (s : State) (n : Nat) (x : Ring) : (s.setRing n x).mode = s.mode := rfl
@[simp] theorem State.setRing_plies (s : State) (n : Nat) (x : Ring) : (s.setRing n x).plies = s.plies := rfl
@[simp] theorem State.setRing_strands (s : State) (n : Nat) (x : Ring) : (s.setRing n x).strands = s.strands := rfl
@[simp] theorem State.setRing_cores (s : State) (n : Nat) (x : Ring) : (s.setRing n x).cores = s.cores := rfl
@[simp] theorem State.setRing_units (s : State) (n : Nat) (x : Ring) : (s.setRing n x).units = s.units := rfl
@[simp] theorem State.setRing_outs (s : State) (n : Nat) (x : Ring) : (s.setRing n x).outs = s.outs := rfl
@[simp] theorem State.setRing_inps (s : State) (n : Nat) (x : Ring) : (s.setRing n x).inps = s.inps := rfl
@[simp] theorem State.setRing_rtones (s : State) (n : Nat) (x : Ring) : (s.setRing n x).rtones = s.rtones := rfl
@[simp] theorem State.setRing_dec (s : State) (n : Nat) (x : Ring) : (s.setRing n x).dec = s.dec := rfl
@[simp] theorem State.setRing_hch (s : State) (n : Nat) (x : Ring) : (s.setRing n x).hch = s.hch := rfl
@[simp] theorem State.setRing_badWords (s : State) (n : Nat) (x : Ring) : (s.setRing n x).badWords = s.badWords := rfl
@[simp] theorem State.setRing_convs (s : State) (n : Nat) (x : Ring) : (s.setRing n x).convs = s.convs := rfl
@[simp] theorem State.setRing_engines (s : State) (n : Nat) (x : Ring) : (s.setRing n x).engines = s.engines := rfl
@[simp] theorem State.setRing_thm (s : State) (n : Nat) (x : Ring) : (s.setRing n x).thm = s.thm := rfl
@[simp] theorem State.setRing_pwr (s : State) (n : Nat) (x : Ring) : (s.setRing n x).pwr = s.pwr := rfl
@[simp] theorem State.setRing_mc (s : State) (n : Nat) (x : Ring) : (s.setRing n x).mc = s.mc := rfl
@[simp] theorem State.setRing_mem (s : State) (n : Nat) (x : Ring) : (s.setRing n x).mem = s.mem := rfl
@[simp] theorem State.setRing_sync (s : State) (n : Nat) (x : Ring) : (s.setRing n x).sync = s.sync := rfl
@[simp] theorem State.setRing_ptp (s : State) (n : Nat) (x : Ring) : (s.setRing n x).ptp = s.ptp := rfl
@[simp] theorem State.setRing_hif (s : State) (n : Nat) (x : Ring) : (s.setRing n x).hif = { s.hif with rings := Tab.put s.hif.rings n x } := rfl
@[simp] theorem State.setRing_mon (s : State) (n : Nat) (x : Ring) : (s.setRing n x).mon = s.mon := rfl
@[simp] theorem State.setRing_tio (s : State) (n : Nat) (x : Ring) : (s.setRing n x).tio = s.tio := rfl
@[simp] theorem State.setRing_hbm (s : State) (n : Nat) (x : Ring) : (s.setRing n x).hbm = s.hbm := rfl
@[simp] theorem State.setRing_seqSram (s : State) (n : Nat) (x : Ring) : (s.setRing n x).seqSram = s.seqSram := rfl
@[simp] theorem State.setRing_ucode (s : State) (n : Nat) (x : Ring) : (s.setRing n x).ucode = s.ucode := rfl
@[simp] theorem State.setRing_envSram (s : State) (n : Nat) (x : Ring) : (s.setRing n x).envSram = s.envSram := rfl
@[simp] theorem State.setRing_kernel (s : State) (n : Nat) (x : Ring) : (s.setRing n x).kernel = s.kernel := rfl
@[simp] theorem State.setRing_envTab (s : State) (n : Nat) (x : Ring) : (s.setRing n x).envTab = s.envTab := rfl
@[simp] theorem State.setRing_hostMem (s : State) (n : Nat) (x : Ring) : (s.setRing n x).hostMem = s.hostMem := rfl

@[simp] theorem State.setMonIn_pending (s : State) (n : Nat) (x : MonIn) : (s.setMonIn n x).pending = s.pending := rfl
@[simp] theorem State.setMonIn_now (s : State) (n : Nat) (x : MonIn) : (s.setMonIn n x).now = s.now := rfl
@[simp] theorem State.setMonIn_free (s : State) (n : Nat) (x : MonIn) : (s.setMonIn n x).free = s.free := rfl
@[simp] theorem State.setMonIn_rdata (s : State) (n : Nat) (x : MonIn) : (s.setMonIn n x).rdata = s.rdata := rfl
@[simp] theorem State.setMonIn_supply (s : State) (n : Nat) (x : MonIn) : (s.setMonIn n x).supply = s.supply := rfl
@[simp] theorem State.setMonIn_half (s : State) (n : Nat) (x : MonIn) : (s.setMonIn n x).half = s.half := rfl
@[simp] theorem State.setMonIn_regs (s : State) (n : Nat) (x : MonIn) : (s.setMonIn n x).regs = s.regs := rfl
@[simp] theorem State.setMonIn_latch (s : State) (n : Nat) (x : MonIn) : (s.setMonIn n x).latch = s.latch := rfl
@[simp] theorem State.setMonIn_lows (s : State) (n : Nat) (x : MonIn) : (s.setMonIn n x).lows = s.lows := rfl
@[simp] theorem State.setMonIn_held (s : State) (n : Nat) (x : MonIn) : (s.setMonIn n x).held = s.held := rfl
@[simp] theorem State.setMonIn_frameW (s : State) (n : Nat) (x : MonIn) : (s.setMonIn n x).frameW = s.frameW := rfl
@[simp] theorem State.setMonIn_frameLog (s : State) (n : Nat) (x : MonIn) : (s.setMonIn n x).frameLog = s.frameLog := rfl
@[simp] theorem State.setMonIn_flags (s : State) (n : Nat) (x : MonIn) : (s.setMonIn n x).flags = s.flags := rfl
@[simp] theorem State.setMonIn_counts (s : State) (n : Nat) (x : MonIn) : (s.setMonIn n x).counts = s.counts := rfl
@[simp] theorem State.setMonIn_flagAt (s : State) (n : Nat) (x : MonIn) : (s.setMonIn n x).flagAt = s.flagAt := rfl
@[simp] theorem State.setMonIn_recent (s : State) (n : Nat) (x : MonIn) : (s.setMonIn n x).recent = s.recent := rfl
@[simp] theorem State.setMonIn_ev (s : State) (n : Nat) (x : MonIn) : (s.setMonIn n x).ev = s.ev := rfl
@[simp] theorem State.setMonIn_queues (s : State) (n : Nat) (x : MonIn) : (s.setMonIn n x).queues = s.queues := rfl
@[simp] theorem State.setMonIn_mode (s : State) (n : Nat) (x : MonIn) : (s.setMonIn n x).mode = s.mode := rfl
@[simp] theorem State.setMonIn_plies (s : State) (n : Nat) (x : MonIn) : (s.setMonIn n x).plies = s.plies := rfl
@[simp] theorem State.setMonIn_strands (s : State) (n : Nat) (x : MonIn) : (s.setMonIn n x).strands = s.strands := rfl
@[simp] theorem State.setMonIn_cores (s : State) (n : Nat) (x : MonIn) : (s.setMonIn n x).cores = s.cores := rfl
@[simp] theorem State.setMonIn_units (s : State) (n : Nat) (x : MonIn) : (s.setMonIn n x).units = s.units := rfl
@[simp] theorem State.setMonIn_outs (s : State) (n : Nat) (x : MonIn) : (s.setMonIn n x).outs = s.outs := rfl
@[simp] theorem State.setMonIn_inps (s : State) (n : Nat) (x : MonIn) : (s.setMonIn n x).inps = s.inps := rfl
@[simp] theorem State.setMonIn_rtones (s : State) (n : Nat) (x : MonIn) : (s.setMonIn n x).rtones = s.rtones := rfl
@[simp] theorem State.setMonIn_dec (s : State) (n : Nat) (x : MonIn) : (s.setMonIn n x).dec = s.dec := rfl
@[simp] theorem State.setMonIn_hch (s : State) (n : Nat) (x : MonIn) : (s.setMonIn n x).hch = s.hch := rfl
@[simp] theorem State.setMonIn_badWords (s : State) (n : Nat) (x : MonIn) : (s.setMonIn n x).badWords = s.badWords := rfl
@[simp] theorem State.setMonIn_convs (s : State) (n : Nat) (x : MonIn) : (s.setMonIn n x).convs = s.convs := rfl
@[simp] theorem State.setMonIn_engines (s : State) (n : Nat) (x : MonIn) : (s.setMonIn n x).engines = s.engines := rfl
@[simp] theorem State.setMonIn_thm (s : State) (n : Nat) (x : MonIn) : (s.setMonIn n x).thm = s.thm := rfl
@[simp] theorem State.setMonIn_pwr (s : State) (n : Nat) (x : MonIn) : (s.setMonIn n x).pwr = s.pwr := rfl
@[simp] theorem State.setMonIn_mc (s : State) (n : Nat) (x : MonIn) : (s.setMonIn n x).mc = s.mc := rfl
@[simp] theorem State.setMonIn_mem (s : State) (n : Nat) (x : MonIn) : (s.setMonIn n x).mem = s.mem := rfl
@[simp] theorem State.setMonIn_sync (s : State) (n : Nat) (x : MonIn) : (s.setMonIn n x).sync = s.sync := rfl
@[simp] theorem State.setMonIn_ptp (s : State) (n : Nat) (x : MonIn) : (s.setMonIn n x).ptp = s.ptp := rfl
@[simp] theorem State.setMonIn_hif (s : State) (n : Nat) (x : MonIn) : (s.setMonIn n x).hif = s.hif := rfl
@[simp] theorem State.setMonIn_mon (s : State) (n : Nat) (x : MonIn) : (s.setMonIn n x).mon = Tab.put s.mon n x := rfl
@[simp] theorem State.setMonIn_tio (s : State) (n : Nat) (x : MonIn) : (s.setMonIn n x).tio = s.tio := rfl
@[simp] theorem State.setMonIn_hbm (s : State) (n : Nat) (x : MonIn) : (s.setMonIn n x).hbm = s.hbm := rfl
@[simp] theorem State.setMonIn_seqSram (s : State) (n : Nat) (x : MonIn) : (s.setMonIn n x).seqSram = s.seqSram := rfl
@[simp] theorem State.setMonIn_ucode (s : State) (n : Nat) (x : MonIn) : (s.setMonIn n x).ucode = s.ucode := rfl
@[simp] theorem State.setMonIn_envSram (s : State) (n : Nat) (x : MonIn) : (s.setMonIn n x).envSram = s.envSram := rfl
@[simp] theorem State.setMonIn_kernel (s : State) (n : Nat) (x : MonIn) : (s.setMonIn n x).kernel = s.kernel := rfl
@[simp] theorem State.setMonIn_envTab (s : State) (n : Nat) (x : MonIn) : (s.setMonIn n x).envTab = s.envTab := rfl
@[simp] theorem State.setMonIn_hostMem (s : State) (n : Nat) (x : MonIn) : (s.setMonIn n x).hostMem = s.hostMem := rfl

@[simp] theorem State.core_setCore (s : State) (c : Nat) (x : Core) : (s.setCore c x).core c = x := Tab.get_put ..

theorem State.core_setCore_ne (s : State) (c : Nat) (x : Core) (d : Nat) (h : d ≠ c) : (s.setCore c x).core d = s.core d :=
  Tab.get_put_ne _ _ _ h

@[simp] theorem State.strand_setStrand (s : State) (k : Nat) (x : Strand) : (s.setStrand k x).strand k = x := Tab.get_put ..

theorem State.strand_setStrand_ne (s : State) (k : Nat) (x : Strand) (d : Nat) (h : d ≠ k) : (s.setStrand k x).strand d = s.strand d :=
  Tab.get_put_ne _ _ _ h

@[simp] theorem State.ply_setPly (s : State) (p : Nat) (x : Ply) : (s.setPly p x).ply p = x := Tab.get_put ..

theorem State.ply_setPly_ne (s : State) (p : Nat) (x : Ply) (d : Nat) (h : d ≠ p) : (s.setPly p x).ply d = s.ply d :=
  Tab.get_put_ne _ _ _ h

@[simp] theorem State.queue_setQueue (s : State) (q : Nat) (x : Queue) : (s.setQueue q x).queue q = x := Tab.get_put ..

theorem State.queue_setQueue_ne (s : State) (q : Nat) (x : Queue) (d : Nat) (h : d ≠ q) : (s.setQueue q x).queue d = s.queue d :=
  Tab.get_put_ne _ _ _ h

@[simp] theorem State.conv_setConv (s : State) (c : Nat) (x : Conv) : (s.setConv c x).conv c = x := Tab.get_put ..

theorem State.conv_setConv_ne (s : State) (c : Nat) (x : Conv) (d : Nat) (h : d ≠ c) : (s.setConv c x).conv d = s.conv d :=
  Tab.get_put_ne _ _ _ h

@[simp] theorem State.engine_setEngine (s : State) (p : Nat) (x : Engine) : (s.setEngine p x).engine p = x := Tab.get_put ..

theorem State.engine_setEngine_ne (s : State) (p : Nat) (x : Engine) (d : Nat) (h : d ≠ p) : (s.setEngine p x).engine d = s.engine d :=
  Tab.get_put_ne _ _ _ h

@[simp] theorem State.ring_setRing (s : State) (n : Nat) (x : Ring) : (s.setRing n x).ring n = x := Tab.get_put ..

theorem State.ring_setRing_ne (s : State) (n : Nat) (x : Ring) (d : Nat) (h : d ≠ n) : (s.setRing n x).ring d = s.ring d :=
  Tab.get_put_ne _ _ _ h

@[simp] theorem State.monIn_setMonIn (s : State) (n : Nat) (x : MonIn) : (s.setMonIn n x).monIn n = x := Tab.get_put ..

theorem State.monIn_setMonIn_ne (s : State) (n : Nat) (x : MonIn) (d : Nat) (h : d ≠ n) : (s.setMonIn n x).monIn d = s.monIn d :=
  Tab.get_put_ne _ _ _ h

@[simp] theorem State.punit_setPunit (s : State) (k u : Nat) (x : PUnit) : (s.setPunit k u x).punit k u = x := Tab.get_put ..

theorem State.punit_setPunit_ne (s : State) (k u : Nat) (x : PUnit) (d v : Nat) (h : 80 * d + v ≠ 80 * k + u) : (s.setPunit k u x).punit d v = s.punit d v :=
  Tab.get_put_ne _ _ _ h

@[simp] theorem State.out_setOut (s : State) (k o : Nat) (x : Out) : (s.setOut k o x).out k o = x := Tab.get_put ..

theorem State.out_setOut_ne (s : State) (k o : Nat) (x : Out) (d v : Nat) (h : 22 * d + v ≠ 22 * k + o) : (s.setOut k o x).out d v = s.out d v :=
  Tab.get_put_ne _ _ _ h

@[simp] theorem State.inp_setInp (s : State) (k i : Nat) (x : Inp) : (s.setInp k i x).inp k i = x := Tab.get_put ..

theorem State.inp_setInp_ne (s : State) (k i : Nat) (x : Inp) (d v : Nat) (h : 2 * d + v ≠ 2 * k + i) : (s.setInp k i x).inp d v = s.inp d v :=
  Tab.get_put_ne _ _ _ h

@[simp] theorem State.rtone_setRtone (s : State) (k r : Nat) (x : Rtone) : (s.setRtone k r x).rtone k r = x := Tab.get_put ..

theorem State.rtone_setRtone_ne (s : State) (k r : Nat) (x : Rtone) (d v : Nat) (h : 32 * d + v ≠ 32 * k + r) : (s.setRtone k r x).rtone d v = s.rtone d v :=
  Tab.get_put_ne _ _ _ h

@[simp] theorem State.reg_setReg (s : State) (r : RegId) (w : Word) : (s.setReg r w).reg r = w := Tab.get_put ..

theorem State.reg_setReg_ne (s : State) (r x : RegId) (w : Word) (h : x.off ≠ r.off) : (s.setReg r w).reg x = s.reg x :=
  Tab.get_put_ne _ _ _ h

@[simp] theorem State.fld_setReg (s : State) (r : RegId) (w : Word) (h l : Nat) : (s.setReg r w).fld r h l = getF w h l := by
  simp [State.fld]

/-- A field reads as it was written, in its width (R14). -/
theorem State.fld_setFld (s : State) (r : RegId) (h l v : Nat) (h32 : h < 32) (hl : l ≤ h) :
    (s.setFld r h l v).fld r h l = v % 2 ^ (h - l + 1) := by
  simp [State.setFld, getF_setF _ _ _ _ h32 hl]

/-- The write of a field leaves another field of its register alone. -/
theorem State.fld_setFld_apart (s : State) (r : RegId) (h l v x y : Nat) (h32 : h < 32) (hl : l ≤ h)
    (hxy : y ≤ x ∧ (x < l ∨ h < y)) : (s.setFld r h l v).fld r x y = s.fld r x y := by
  simp [State.setFld, State.fld, getF_setF_ne _ _ _ _ _ _ h32 hl hxy]

/-- The write of a field leaves every other register alone. -/
theorem State.fld_setFld_other (s : State) (r q : RegId) (h l v x y : Nat) (hq : q.off ≠ r.off) :
    (s.setFld r h l v).fld q x y = s.fld q x y := by
  simp [State.setFld, State.fld, State.reg_setReg_ne _ _ _ _ hq]

theorem State.fld_congr {s t : State} (h : t.regs = s.regs) (r : RegId) (x y : Nat) : t.fld r x y = s.fld r x y := by
  simp [State.fld, State.reg, h]

/-- Outside DORMANT module time runs on to the time given (R8, R28). -/
theorem State.timeAt_awake {s : State} (h : s.mode.mode ≠ .dormant) (t : Nat) : s.timeAt t = max s.now t := if_neg h

/-- In DORMANT module time moves by 400 ticks at a time (R28). -/
theorem State.timeAt_dormant {s : State} (h : s.mode.mode = .dormant) (t : Nat) :
    s.timeAt t = s.now + (t - s.now) / 400 * 400 := if_pos h

end Sys2Proof.Machine
end

