-- ==== Sys2Proof/Laws/Touch.lean ====
section
/-! SUPPORT. Frames: the rules of `Touches`, one rule for each set of parts that an operation updates, and the rules of the
operations that take an effect as an argument. Each is read backward from the state an operation ends in. -/

namespace Sys2Proof

open Sys2Proof.Machine

theorem wrap64_lt (n : Nat) : wrap64 n < 2 ^ 64 := Nat.mod_lt _ (by decide)

theorem Touches.refl (l : List Part) (s : State) : Touches l s s := ⟨by intro p _; cases p <;> rfl, id⟩

theorem Touches.step {l m : List Part} {r s t : State} (h : Touches m s t) (hl : m.all (l.contains ·) = true)
    (hr : Touches l r s) : Touches l r t := by
  refine ⟨fun p hp => ?_, fun k => h.time (hr.time k)⟩
  have hm : m.contains p = false := by
    by_contra hc
    have hc' : m.contains p = true := by simpa using hc
    have := List.all_eq_true.mp hl p (by simpa using hc')
    simp_all
  have a := hr.keeps p hp
  have b := h.keeps p hm
  cases p <;> simp only [Part.same] at a b ⊢ <;> exact b.trans a

theorem Touches.ite {l : List Part} {r a b : State} {c : Prop} [Decidable c] (ha : Touches l r a) (hb : Touches l r b) :
    Touches l r (if c then a else b) := by split <;> assumption

theorem Touches.foldl {l : List Part} {r s : State} {β : Type} {f : State → β → State} (xs : List β)
    (hf : ∀ a x, Touches l r a → Touches l r (f a x)) (h : Touches l r s) : Touches l r (xs.foldl f s) := by
  induction xs generalizing s with
  | nil => exact h
  | cons x xs ih => exact ih (hf _ _ h)

theorem Touches.mono {l m : List Part} {s t : State} (h : Touches m s t) (hl : m.all (l.contains ·) = true) : Touches l s t :=
  Touches.step h hl (Touches.refl l s)

theorem Touches.fst {l : List Part} {r s1 : State} {α : Type} {p : State × α} {a : α} (h : p = (s1, a))
    (hp : Touches l r p.1) : Touches l r s1 := by subst h; exact hp

theorem Touches.snd {l : List Part} {r s1 : State} {α : Type} {p : α × State} {a : α} (h : p = (a, s1))
    (hp : Touches l r p.2) : Touches l r s1 := by subst h; exact hp

/-- The state a started descriptor leaves. -/
def ranState : Ran → State
  | .done s _ => s
  | .goesOn s => s

theorem Touches.ran_done {l : List Part} {r s : State} {e : Entry} (h : Touches l r s) :
    Touches l r (ranState (.done s e)) := h

theorem Touches.ran_goesOn {l : List Part} {r s : State} (h : Touches l r s) : Touches l r (ranState (.goesOn s)) := h

theorem Touches.ran_pair {l : List Part} {r : State} {p : State × Entry} (h : Touches l r p.1) :
    Touches l r (ranState (.ofPair p)) := h

theorem Touches.ran_ite {l : List Part} {r : State} {a b : Ran} {c : Prop} [Decidable c] (ha : Touches l r (ranState a))
    (hb : Touches l r (ranState b)) : Touches l r (ranState (if c then a else b)) := by split <;> assumption

/-- A property that holds on when only the listed parts change: what the rules of operations with an effect as argument ask. -/
def Closed (l : List Part) (P : State → Prop) : Prop :=
  ∀ {s t : State} {m : List Part}, Touches m s t → m.all (l.contains ·) = true → P s → P t

theorem Closed.foldl {l : List Part} {P : State → Prop} (_ : Closed l P) {s : State} {β : Type} {f : State → β → State}
    (xs : List β) (hf : ∀ a x, P a → P (f a x)) (h : P s) : P (xs.foldl f s) := by
  induction xs generalizing s with
  | nil => exact h
  | cons x xs ih => exact ih (hf _ _ h)

theorem Touches.closed (l : List Part) (r : State) : Closed l (Touches l r) := fun h hl hr => Touches.step h hl hr

theorem Settled.trans {r s a : State} (h : Settled r s) (k : Settled s a) : Settled r a := by
  induction k with
  | refl => exact h
  | due _ hx ih => exact .due ih hx
  | outs t _ ih => exact .outs t ih

theorem Based.of_settled {l : List Part} {r s : State} (h : Settled r s) : Based l r s := ⟨s, h, Touches.refl _ _⟩

theorem Based.refl (l : List Part) (s : State) : Based l s s := Based.of_settled .refl

theorem Based.of_touches {l : List Part} {s t : State} (h : Touches l s t) : Based l s t := ⟨s, .refl, h⟩

theorem Based.lift {l : List Part} {r s t : State} (hf : ∀ a, Touches l a s → Touches l a t) (h : Based l r s) : Based l r t :=
  h.imp fun _ x => ⟨x.1, hf _ x.2⟩

theorem Based.step {l m : List Part} {r s t : State} (h : Touches m s t) (hl : m.all (l.contains ·) = true) (hs : Based l r s) :
    Based l r t := Based.lift (fun _ k => Touches.step h hl k) hs

theorem Based.mono {l m : List Part} {s t : State} (h : Based m s t) (hl : m.all (l.contains ·) = true) : Based l s t :=
  h.imp fun _ x => ⟨x.1, x.2.mono hl⟩

theorem Based.trans {l m : List Part} {r s t : State} (h : Based m s t) (hl : m.all (l.contains ·) = true) (hs : Settled r s) :
    Based l r t := h.elim fun a x => ⟨a, hs.trans x.1, x.2.mono hl⟩

theorem Based.closed (l : List Part) (r : State) : Closed l (Based l r) := fun h hl hr => Based.step h hl hr

theorem Based.ite {l : List Part} {r a b : State} {c : Prop} [Decidable c] (ha : Based l r a) (hb : Based l r b) :
    Based l r (if c then a else b) := by split <;> assumption

theorem Based.foldl {l : List Part} {r s : State} {β : Type} {f : State → β → State} (xs : List β)
    (hf : ∀ a x, Based l r a → Based l r (f a x)) (h : Based l r s) : Based l r (xs.foldl f s) :=
  Closed.foldl (Based.closed l r) xs hf h

theorem Based.fst {l : List Part} {r s1 : State} {α : Type} {p : State × α} {a : α} (h : p = (s1, a))
    (hp : Based l r p.1) : Based l r s1 := by subst h; exact hp

theorem Based.snd {l : List Part} {r s1 : State} {α : Type} {p : α × State} {a : α} (h : p = (a, s1))
    (hp : Based l r p.2) : Based l r s1 := by subst h; exact hp

theorem Based.ran_ite {l : List Part} {r : State} {a b : Ran} {c : Prop} [Decidable c] (ha : Based l r (ranState a))
    (hb : Based l r (ranState b)) : Based l r (ranState (if c then a else b)) := by split <;> assumption

-- one rule for each set of parts updated together

theorem Touches.upd_badWords {l : List Part} {r b : State} {v0}
    (hl : [.badWords].all (l.contains ·) = true) (hb : Touches l r b) :
    Touches l r { b with badWords := v0 } :=
  Touches.step (m := [.badWords]) ⟨fun p hp => by cases p <;> first | rfl | exact absurd hp (by decide), by exact id⟩ hl hb

theorem Touches.upd_badWords_envSram {l : List Part} {r b : State} {v0} {v1}
    (hl : [.badWords, .envSram].all (l.contains ·) = true) (hb : Touches l r b) :
    Touches l r { b with badWords := v0, envSram := v1 } :=
  Touches.step (m := [.badWords, .envSram]) ⟨fun p hp => by cases p <;> first | rfl | exact absurd hp (by decide), by exact id⟩ hl hb

theorem Touches.upd_badWords_kernel {l : List Part} {r b : State} {v0} {v1}
    (hl : [.badWords, .kernel].all (l.contains ·) = true) (hb : Touches l r b) :
    Touches l r { b with badWords := v0, kernel := v1 } :=
  Touches.step (m := [.badWords, .kernel]) ⟨fun p hp => by cases p <;> first | rfl | exact absurd hp (by decide), by exact id⟩ hl hb

theorem Touches.upd_badWords_seqSram {l : List Part} {r b : State} {v0} {v1}
    (hl : [.badWords, .seqSram].all (l.contains ·) = true) (hb : Touches l r b) :
    Touches l r { b with badWords := v0, seqSram := v1 } :=
  Touches.step (m := [.badWords, .seqSram]) ⟨fun p hp => by cases p <;> first | rfl | exact absurd hp (by decide), by exact id⟩ hl hb

theorem Touches.upd_convs {l : List Part} {r b : State} {v0}
    (hl : [.convs].all (l.contains ·) = true) (hb : Touches l r b) :
    Touches l r { b with convs := v0 } :=
  Touches.step (m := [.convs]) ⟨fun p hp => by cases p <;> first | rfl | exact absurd hp (by decide), by exact id⟩ hl hb

theorem Touches.upd_cores {l : List Part} {r b : State} {v0}
    (hl : [.cores].all (l.contains ·) = true) (hb : Touches l r b) :
    Touches l r { b with cores := v0 } :=
  Touches.step (m := [.cores]) ⟨fun p hp => by cases p <;> first | rfl | exact absurd hp (by decide), by exact id⟩ hl hb

theorem Touches.upd_counts {l : List Part} {r b : State} {v0}
    (hl : [.counts].all (l.contains ·) = true) (hb : Touches l r b) :
    Touches l r { b with counts := v0 } :=
  Touches.step (m := [.counts]) ⟨fun p hp => by cases p <;> first | rfl | exact absurd hp (by decide), by exact id⟩ hl hb

theorem Touches.upd_counts_recent {l : List Part} {r b : State} {v0} {v1}
    (hl : [.counts, .recent].all (l.contains ·) = true) (hb : Touches l r b) :
    Touches l r { b with counts := v0, recent := v1 } :=
  Touches.step (m := [.counts, .recent]) ⟨fun p hp => by cases p <;> first | rfl | exact absurd hp (by decide), by exact id⟩ hl hb

theorem Touches.upd_dec {l : List Part} {r b : State} {v0}
    (hl : [.dec].all (l.contains ·) = true) (hb : Touches l r b) :
    Touches l r { b with dec := v0 } :=
  Touches.step (m := [.dec]) ⟨fun p hp => by cases p <;> first | rfl | exact absurd hp (by decide), by exact id⟩ hl hb

theorem Touches.upd_dec_tio {l : List Part} {r b : State} {v0} {v1}
    (hl : [.dec, .tio].all (l.contains ·) = true) (hb : Touches l r b) :
    Touches l r { b with dec := v0, tio := v1 } :=
  Touches.step (m := [.dec, .tio]) ⟨fun p hp => by cases p <;> first | rfl | exact absurd hp (by decide), by exact id⟩ hl hb

theorem Touches.upd_engines {l : List Part} {r b : State} {v0}
    (hl : [.engines].all (l.contains ·) = true) (hb : Touches l r b) :
    Touches l r { b with engines := v0 } :=
  Touches.step (m := [.engines]) ⟨fun p hp => by cases p <;> first | rfl | exact absurd hp (by decide), by exact id⟩ hl hb

theorem Touches.upd_envSram {l : List Part} {r b : State} {v0}
    (hl : [.envSram].all (l.contains ·) = true) (hb : Touches l r b) :
    Touches l r { b with envSram := v0 } :=
  Touches.step (m := [.envSram]) ⟨fun p hp => by cases p <;> first | rfl | exact absurd hp (by decide), by exact id⟩ hl hb

theorem Touches.upd_envSram_envTab {l : List Part} {r b : State} {v0} {v1}
    (hl : [.envSram, .envTab].all (l.contains ·) = true) (hb : Touches l r b) :
    Touches l r { b with envSram := v0, envTab := v1 } :=
  Touches.step (m := [.envSram, .envTab]) ⟨fun p hp => by cases p <;> first | rfl | exact absurd hp (by decide), by exact id⟩ hl hb

theorem Touches.upd_envTab {l : List Part} {r b : State} {v0}
    (hl : [.envTab].all (l.contains ·) = true) (hb : Touches l r b) :
    Touches l r { b with envTab := v0 } :=
  Touches.step (m := [.envTab]) ⟨fun p hp => by cases p <;> first | rfl | exact absurd hp (by decide), by exact id⟩ hl hb

theorem Touches.upd_ev {l : List Part} {r b : State} {v0}
    (hl : [.ev].all (l.contains ·) = true) (hb : Touches l r b) :
    Touches l r { b with ev := v0 } :=
  Touches.step (m := [.ev]) ⟨fun p hp => by cases p <;> first | rfl | exact absurd hp (by decide), by exact id⟩ hl hb

theorem Touches.upd_flags {l : List Part} {r b : State} {v0}
    (hl : [.flags].all (l.contains ·) = true) (hb : Touches l r b) :
    Touches l r { b with flags := v0 } :=
  Touches.step (m := [.flags]) ⟨fun p hp => by cases p <;> first | rfl | exact absurd hp (by decide), by exact id⟩ hl hb

theorem Touches.upd_flags_flagAt {l : List Part} {r b : State} {v0} {v1}
    (hl : [.flags, .flagAt].all (l.contains ·) = true) (hb : Touches l r b) :
    Touches l r { b with flags := v0, flagAt := v1 } :=
  Touches.step (m := [.flags, .flagAt]) ⟨fun p hp => by cases p <;> first | rfl | exact absurd hp (by decide), by exact id⟩ hl hb

theorem Touches.upd_frameLog {l : List Part} {r b : State} {v0}
    (hl : [.frameLog].all (l.contains ·) = true) (hb : Touches l r b) :
    Touches l r { b with frameLog := v0 } :=
  Touches.step (m := [.frameLog]) ⟨fun p hp => by cases p <;> first | rfl | exact absurd hp (by decide), by exact id⟩ hl hb

theorem Touches.upd_frameW {l : List Part} {r b : State} {v0}
    (hl : [.frameW].all (l.contains ·) = true) (hb : Touches l r b) :
    Touches l r { b with frameW := v0 } :=
  Touches.step (m := [.frameW]) ⟨fun p hp => by cases p <;> first | rfl | exact absurd hp (by decide), by exact id⟩ hl hb

theorem Touches.upd_free {l : List Part} {r b : State} {v0}
    (hl : [.free].all (l.contains ·) = true) (hb : Touches l r b) :
    Touches l r { b with free := v0 } :=
  Touches.step (m := [.free]) ⟨fun p hp => by cases p <;> first | rfl | exact absurd hp (by decide), by exact id⟩ hl hb

theorem Touches.upd_hch {l : List Part} {r b : State} {v0}
    (hl : [.hch].all (l.contains ·) = true) (hb : Touches l r b) :
    Touches l r { b with hch := v0 } :=
  Touches.step (m := [.hch]) ⟨fun p hp => by cases p <;> first | rfl | exact absurd hp (by decide), by exact id⟩ hl hb

theorem Touches.upd_held {l : List Part} {r b : State} {v0}
    (hl : [.held].all (l.contains ·) = true) (hb : Touches l r b) :
    Touches l r { b with held := v0 } :=
  Touches.step (m := [.held]) ⟨fun p hp => by cases p <;> first | rfl | exact absurd hp (by decide), by exact id⟩ hl hb

theorem Touches.upd_hif {l : List Part} {r b : State} {v0}
    (hl : [.hif].all (l.contains ·) = true) (hb : Touches l r b) :
    Touches l r { b with hif := v0 } :=
  Touches.step (m := [.hif]) ⟨fun p hp => by cases p <;> first | rfl | exact absurd hp (by decide), by exact id⟩ hl hb

theorem Touches.upd_hostMem {l : List Part} {r b : State} {v0}
    (hl : [.hostMem].all (l.contains ·) = true) (hb : Touches l r b) :
    Touches l r { b with hostMem := v0 } :=
  Touches.step (m := [.hostMem]) ⟨fun p hp => by cases p <;> first | rfl | exact absurd hp (by decide), by exact id⟩ hl hb

theorem Touches.upd_inps {l : List Part} {r b : State} {v0}
    (hl : [.inps].all (l.contains ·) = true) (hb : Touches l r b) :
    Touches l r { b with inps := v0 } :=
  Touches.step (m := [.inps]) ⟨fun p hp => by cases p <;> first | rfl | exact absurd hp (by decide), by exact id⟩ hl hb

theorem Touches.upd_kernel {l : List Part} {r b : State} {v0}
    (hl : [.kernel].all (l.contains ·) = true) (hb : Touches l r b) :
    Touches l r { b with kernel := v0 } :=
  Touches.step (m := [.kernel]) ⟨fun p hp => by cases p <;> first | rfl | exact absurd hp (by decide), by exact id⟩ hl hb

theorem Touches.upd_lows {l : List Part} {r b : State} {v0}
    (hl : [.lows].all (l.contains ·) = true) (hb : Touches l r b) :
    Touches l r { b with lows := v0 } :=
  Touches.step (m := [.lows]) ⟨fun p hp => by cases p <;> first | rfl | exact absurd hp (by decide), by exact id⟩ hl hb

theorem Touches.upd_mc {l : List Part} {r b : State} {v0}
    (hl : [.mc].all (l.contains ·) = true) (hb : Touches l r b) :
    Touches l r { b with mc := v0 } :=
  Touches.step (m := [.mc]) ⟨fun p hp => by cases p <;> first | rfl | exact absurd hp (by decide), by exact id⟩ hl hb

theorem Touches.upd_mem {l : List Part} {r b : State} {v0}
    (hl : [.mem].all (l.contains ·) = true) (hb : Touches l r b) :
    Touches l r { b with mem := v0 } :=
  Touches.step (m := [.mem]) ⟨fun p hp => by cases p <;> first | rfl | exact absurd hp (by decide), by exact id⟩ hl hb

theorem Touches.upd_mem_hbm {l : List Part} {r b : State} {v0} {v1}
    (hl : [.mem, .hbm].all (l.contains ·) = true) (hb : Touches l r b) :
    Touches l r { b with mem := v0, hbm := v1 } :=
  Touches.step (m := [.mem, .hbm]) ⟨fun p hp => by cases p <;> first | rfl | exact absurd hp (by decide), by exact id⟩ hl hb

theorem Touches.upd_mode {l : List Part} {r b : State} {v0}
    (hl : [.mode].all (l.contains ·) = true) (hb : Touches l r b) :
    Touches l r { b with mode := v0 } :=
  Touches.step (m := [.mode]) ⟨fun p hp => by cases p <;> first | rfl | exact absurd hp (by decide), by exact id⟩ hl hb

theorem Touches.upd_mode_badWords_seqSram_ucode_envSram_kernel_envTab {l : List Part} {r b : State} {v0} {v1} {v2} {v3} {v4} {v5} {v6}
    (hl : [.mode, .badWords, .seqSram, .ucode, .envSram, .kernel, .envTab].all (l.contains ·) = true) (hb : Touches l r b) :
    Touches l r { b with mode := v0, badWords := v1, seqSram := v2, ucode := v3, envSram := v4, kernel := v5, envTab := v6 } :=
  Touches.step (m := [.mode, .badWords, .seqSram, .ucode, .envSram, .kernel, .envTab]) ⟨fun p hp => by cases p <;> first | rfl | exact absurd hp (by decide), by exact id⟩ hl hb

theorem Touches.upd_many0 {l : List Part} {r b : State} {v0} {v1} {v2} {v3} {v4} {v5} {v6} {v7} {v8} {v9} {v10} {v11} {v12}
    (hl : [.mode, .plies, .strands, .outs, .inps, .hch, .convs, .thm, .mc, .mem, .sync, .ptp, .hif].all (l.contains ·) = true) (hb : Touches l r b) :
    Touches l r { b with mode := v0, plies := v1, strands := v2, outs := v3, inps := v4, hch := v5, convs := v6, thm := v7, mc := v8, mem := v9, sync := v10, ptp := v11, hif := v12 } :=
  Touches.step (m := [.mode, .plies, .strands, .outs, .inps, .hch, .convs, .thm, .mc, .mem, .sync, .ptp, .hif]) ⟨fun p hp => by cases p <;> first | rfl | exact absurd hp (by decide), by exact id⟩ hl hb

theorem Touches.upd_mon {l : List Part} {r b : State} {v0}
    (hl : [.mon].all (l.contains ·) = true) (hb : Touches l r b) :
    Touches l r { b with mon := v0 } :=
  Touches.step (m := [.mon]) ⟨fun p hp => by cases p <;> first | rfl | exact absurd hp (by decide), by exact id⟩ hl hb

theorem Touches.upd_now {l : List Part} {r b : State} {v0}
    (hl : [.now].all (l.contains ·) = true) (hv : b.now < 2 ^ 64 → v0 < 2 ^ 64) (hb : Touches l r b) :
    Touches l r { b with now := v0 } :=
  Touches.step (m := [.now]) ⟨fun p hp => by cases p <;> first | rfl | exact absurd hp (by decide), by exact hv⟩ hl hb

theorem Touches.upd_now_supply_mode_thm_pwr_mc {l : List Part} {r b : State} {v0} {v1} {v2} {v3} {v4} {v5}
    (hl : [.now, .supply, .mode, .thm, .pwr, .mc].all (l.contains ·) = true) (hv : b.now < 2 ^ 64 → v0 < 2 ^ 64) (hb : Touches l r b) :
    Touches l r { b with now := v0, supply := v1, mode := v2, thm := v3, pwr := v4, mc := v5 } :=
  Touches.step (m := [.now, .supply, .mode, .thm, .pwr, .mc]) ⟨fun p hp => by cases p <;> first | rfl | exact absurd hp (by decide), by exact hv⟩ hl hb

theorem Touches.upd_many1 {l : List Part} {r b : State} {v0} {v1} {v2} {v3} {v4} {v5} {v6} {v7} {v8} {v9} {v10} {v11} {v12} {v13} {v14} {v15} {v16} {v17} {v18} {v19} {v20} {v21} {v22} {v23} {v24} {v25} {v26} {v27} {v28} {v29} {v30} {v31} {v32} {v33} {v34} {v35} {v36} {v37} {v38} {v39} {v40} {v41}
    (hl : [.now, .supply, .regs, .latch, .lows, .held, .frameW, .frameLog, .flags, .counts, .flagAt, .recent, .ev, .queues, .mode, .plies, .strands, .cores, .units, .outs, .inps, .rtones, .dec, .hch, .badWords, .convs, .engines, .thm, .pwr, .mc, .mem, .sync, .ptp, .hif, .mon, .tio, .hbm, .seqSram, .ucode, .envSram, .kernel, .envTab].all (l.contains ·) = true) (hv : b.now < 2 ^ 64 → v0 < 2 ^ 64) (hb : Touches l r b) :
    Touches l r { b with now := v0, supply := v1, regs := v2, latch := v3, lows := v4, held := v5, frameW := v6, frameLog := v7, flags := v8, counts := v9, flagAt := v10, recent := v11, ev := v12, queues := v13, mode := v14, plies := v15, strands := v16, cores := v17, units := v18, outs := v19, inps := v20, rtones := v21, dec := v22, hch := v23, badWords := v24, convs := v25, engines := v26, thm := v27, pwr := v28, mc := v29, mem := v30, sync := v31, ptp := v32, hif := v33, mon := v34, tio := v35, hbm := v36, seqSram := v37, ucode := v38, envSram := v39, kernel := v40, envTab := v41 } :=
  Touches.step (m := [.now, .supply, .regs, .latch, .lows, .held, .frameW, .frameLog, .flags, .counts, .flagAt, .recent, .ev, .queues, .mode, .plies, .strands, .cores, .units, .outs, .inps, .rtones, .dec, .hch, .badWords, .convs, .engines, .thm, .pwr, .mc, .mem, .sync, .ptp, .hif, .mon, .tio, .hbm, .seqSram, .ucode, .envSram, .kernel, .envTab]) ⟨fun p hp => by cases p <;> first | rfl | exact absurd hp (by decide), by exact hv⟩ hl hb

theorem Touches.upd_outs {l : List Part} {r b : State} {v0}
    (hl : [.outs].all (l.contains ·) = true) (hb : Touches l r b) :
    Touches l r { b with outs := v0 } :=
  Touches.step (m := [.outs]) ⟨fun p hp => by cases p <;> first | rfl | exact absurd hp (by decide), by exact id⟩ hl hb

theorem Touches.upd_pending {l : List Part} {r b : State} {v0}
    (hl : [.pending].all (l.contains ·) = true) (hb : Touches l r b) :
    Touches l r { b with pending := v0 } :=
  Touches.step (m := [.pending]) ⟨fun p hp => by cases p <;> first | rfl | exact absurd hp (by decide), by exact id⟩ hl hb

theorem Touches.upd_plies {l : List Part} {r b : State} {v0}
    (hl : [.plies].all (l.contains ·) = true) (hb : Touches l r b) :
    Touches l r { b with plies := v0 } :=
  Touches.step (m := [.plies]) ⟨fun p hp => by cases p <;> first | rfl | exact absurd hp (by decide), by exact id⟩ hl hb

theorem Touches.upd_plies_strands_cores_outs_engines {l : List Part} {r b : State} {v0} {v1} {v2} {v3} {v4}
    (hl : [.plies, .strands, .cores, .outs, .engines].all (l.contains ·) = true) (hb : Touches l r b) :
    Touches l r { b with plies := v0, strands := v1, cores := v2, outs := v3, engines := v4 } :=
  Touches.step (m := [.plies, .strands, .cores, .outs, .engines]) ⟨fun p hp => by cases p <;> first | rfl | exact absurd hp (by decide), by exact id⟩ hl hb

theorem Touches.upd_ptp {l : List Part} {r b : State} {v0}
    (hl : [.ptp].all (l.contains ·) = true) (hb : Touches l r b) :
    Touches l r { b with ptp := v0 } :=
  Touches.step (m := [.ptp]) ⟨fun p hp => by cases p <;> first | rfl | exact absurd hp (by decide), by exact id⟩ hl hb

theorem Touches.upd_ptp_hif {l : List Part} {r b : State} {v0} {v1}
    (hl : [.ptp, .hif].all (l.contains ·) = true) (hb : Touches l r b) :
    Touches l r { b with ptp := v0, hif := v1 } :=
  Touches.step (m := [.ptp, .hif]) ⟨fun p hp => by cases p <;> first | rfl | exact absurd hp (by decide), by exact id⟩ hl hb

theorem Touches.upd_pwr {l : List Part} {r b : State} {v0}
    (hl : [.pwr].all (l.contains ·) = true) (hb : Touches l r b) :
    Touches l r { b with pwr := v0 } :=
  Touches.step (m := [.pwr]) ⟨fun p hp => by cases p <;> first | rfl | exact absurd hp (by decide), by exact id⟩ hl hb

theorem Touches.upd_pwr_mc {l : List Part} {r b : State} {v0} {v1}
    (hl : [.pwr, .mc].all (l.contains ·) = true) (hb : Touches l r b) :
    Touches l r { b with pwr := v0, mc := v1 } :=
  Touches.step (m := [.pwr, .mc]) ⟨fun p hp => by cases p <;> first | rfl | exact absurd hp (by decide), by exact id⟩ hl hb

theorem Touches.upd_queues {l : List Part} {r b : State} {v0}
    (hl : [.queues].all (l.contains ·) = true) (hb : Touches l r b) :
    Touches l r { b with queues := v0 } :=
  Touches.step (m := [.queues]) ⟨fun p hp => by cases p <;> first | rfl | exact absurd hp (by decide), by exact id⟩ hl hb

theorem Touches.upd_queues_inps_rtones {l : List Part} {r b : State} {v0} {v1} {v2}
    (hl : [.queues, .inps, .rtones].all (l.contains ·) = true) (hb : Touches l r b) :
    Touches l r { b with queues := v0, inps := v1, rtones := v2 } :=
  Touches.step (m := [.queues, .inps, .rtones]) ⟨fun p hp => by cases p <;> first | rfl | exact absurd hp (by decide), by exact id⟩ hl hb

theorem Touches.upd_queues_units_rtones {l : List Part} {r b : State} {v0} {v1} {v2}
    (hl : [.queues, .units, .rtones].all (l.contains ·) = true) (hb : Touches l r b) :
    Touches l r { b with queues := v0, units := v1, rtones := v2 } :=
  Touches.step (m := [.queues, .units, .rtones]) ⟨fun p hp => by cases p <;> first | rfl | exact absurd hp (by decide), by exact id⟩ hl hb

theorem Touches.upd_rdata {l : List Part} {r b : State} {v0}
    (hl : [.rdata].all (l.contains ·) = true) (hb : Touches l r b) :
    Touches l r { b with rdata := v0 } :=
  Touches.step (m := [.rdata]) ⟨fun p hp => by cases p <;> first | rfl | exact absurd hp (by decide), by exact id⟩ hl hb

theorem Touches.upd_rdata_latch {l : List Part} {r b : State} {v0} {v1}
    (hl : [.rdata, .latch].all (l.contains ·) = true) (hb : Touches l r b) :
    Touches l r { b with rdata := v0, latch := v1 } :=
  Touches.step (m := [.rdata, .latch]) ⟨fun p hp => by cases p <;> first | rfl | exact absurd hp (by decide), by exact id⟩ hl hb

theorem Touches.upd_regs {l : List Part} {r b : State} {v0}
    (hl : [.regs].all (l.contains ·) = true) (hb : Touches l r b) :
    Touches l r { b with regs := v0 } :=
  Touches.step (m := [.regs]) ⟨fun p hp => by cases p <;> first | rfl | exact absurd hp (by decide), by exact id⟩ hl hb

theorem Touches.upd_regs_held_strands {l : List Part} {r b : State} {v0} {v1} {v2}
    (hl : [.regs, .held, .strands].all (l.contains ·) = true) (hb : Touches l r b) :
    Touches l r { b with regs := v0, held := v1, strands := v2 } :=
  Touches.step (m := [.regs, .held, .strands]) ⟨fun p hp => by cases p <;> first | rfl | exact absurd hp (by decide), by exact id⟩ hl hb

theorem Touches.upd_regs_latch_lows_flags {l : List Part} {r b : State} {v0} {v1} {v2} {v3}
    (hl : [.regs, .latch, .lows, .flags].all (l.contains ·) = true) (hb : Touches l r b) :
    Touches l r { b with regs := v0, latch := v1, lows := v2, flags := v3 } :=
  Touches.step (m := [.regs, .latch, .lows, .flags]) ⟨fun p hp => by cases p <;> first | rfl | exact absurd hp (by decide), by exact id⟩ hl hb

theorem Touches.upd_many2 {l : List Part} {r b : State} {v0} {v1} {v2} {v3} {v4} {v5} {v6} {v7} {v8} {v9} {v10} {v11} {v12} {v13} {v14} {v15} {v16} {v17} {v18} {v19} {v20} {v21} {v22} {v23} {v24} {v25} {v26} {v27} {v28} {v29} {v30} {v31} {v32} {v33} {v34} {v35} {v36} {v37} {v38}
    (hl : [.regs, .latch, .lows, .held, .frameW, .frameLog, .flags, .counts, .flagAt, .recent, .ev, .queues, .mode, .plies, .strands, .cores, .units, .outs, .inps, .rtones, .dec, .hch, .badWords, .convs, .engines, .pwr, .mc, .mem, .sync, .ptp, .hif, .mon, .tio, .hbm, .seqSram, .ucode, .envSram, .kernel, .envTab].all (l.contains ·) = true) (hb : Touches l r b) :
    Touches l r { b with regs := v0, latch := v1, lows := v2, held := v3, frameW := v4, frameLog := v5, flags := v6, counts := v7, flagAt := v8, recent := v9, ev := v10, queues := v11, mode := v12, plies := v13, strands := v14, cores := v15, units := v16, outs := v17, inps := v18, rtones := v19, dec := v20, hch := v21, badWords := v22, convs := v23, engines := v24, pwr := v25, mc := v26, mem := v27, sync := v28, ptp := v29, hif := v30, mon := v31, tio := v32, hbm := v33, seqSram := v34, ucode := v35, envSram := v36, kernel := v37, envTab := v38 } :=
  Touches.step (m := [.regs, .latch, .lows, .held, .frameW, .frameLog, .flags, .counts, .flagAt, .recent, .ev, .queues, .mode, .plies, .strands, .cores, .units, .outs, .inps, .rtones, .dec, .hch, .badWords, .convs, .engines, .pwr, .mc, .mem, .sync, .ptp, .hif, .mon, .tio, .hbm, .seqSram, .ucode, .envSram, .kernel, .envTab]) ⟨fun p hp => by cases p <;> first | rfl | exact absurd hp (by decide), by exact id⟩ hl hb

theorem Touches.upd_many3 {l : List Part} {r b : State} {v0} {v1} {v2} {v3} {v4} {v5} {v6} {v7} {v8} {v9} {v10} {v11} {v12} {v13} {v14} {v15} {v16} {v17} {v18} {v19} {v20} {v21} {v22} {v23} {v24} {v25} {v26} {v27} {v28} {v29} {v30} {v31} {v32} {v33} {v34} {v35} {v36} {v37}
    (hl : [.regs, .latch, .lows, .held, .frameW, .frameLog, .flags, .counts, .flagAt, .recent, .ev, .queues, .mode, .plies, .strands, .cores, .units, .outs, .inps, .rtones, .dec, .hch, .badWords, .convs, .engines, .pwr, .mem, .sync, .ptp, .hif, .mon, .tio, .hbm, .seqSram, .ucode, .envSram, .kernel, .envTab].all (l.contains ·) = true) (hb : Touches l r b) :
    Touches l r { b with regs := v0, latch := v1, lows := v2, held := v3, frameW := v4, frameLog := v5, flags := v6, counts := v7, flagAt := v8, recent := v9, ev := v10, queues := v11, mode := v12, plies := v13, strands := v14, cores := v15, units := v16, outs := v17, inps := v18, rtones := v19, dec := v20, hch := v21, badWords := v22, convs := v23, engines := v24, pwr := v25, mem := v26, sync := v27, ptp := v28, hif := v29, mon := v30, tio := v31, hbm := v32, seqSram := v33, ucode := v34, envSram := v35, kernel := v36, envTab := v37 } :=
  Touches.step (m := [.regs, .latch, .lows, .held, .frameW, .frameLog, .flags, .counts, .flagAt, .recent, .ev, .queues, .mode, .plies, .strands, .cores, .units, .outs, .inps, .rtones, .dec, .hch, .badWords, .convs, .engines, .pwr, .mem, .sync, .ptp, .hif, .mon, .tio, .hbm, .seqSram, .ucode, .envSram, .kernel, .envTab]) ⟨fun p hp => by cases p <;> first | rfl | exact absurd hp (by decide), by exact id⟩ hl hb

theorem Touches.upd_rtones {l : List Part} {r b : State} {v0}
    (hl : [.rtones].all (l.contains ·) = true) (hb : Touches l r b) :
    Touches l r { b with rtones := v0 } :=
  Touches.step (m := [.rtones]) ⟨fun p hp => by cases p <;> first | rfl | exact absurd hp (by decide), by exact id⟩ hl hb

theorem Touches.upd_seqSram {l : List Part} {r b : State} {v0}
    (hl : [.seqSram].all (l.contains ·) = true) (hb : Touches l r b) :
    Touches l r { b with seqSram := v0 } :=
  Touches.step (m := [.seqSram]) ⟨fun p hp => by cases p <;> first | rfl | exact absurd hp (by decide), by exact id⟩ hl hb

theorem Touches.upd_strands {l : List Part} {r b : State} {v0}
    (hl : [.strands].all (l.contains ·) = true) (hb : Touches l r b) :
    Touches l r { b with strands := v0 } :=
  Touches.step (m := [.strands]) ⟨fun p hp => by cases p <;> first | rfl | exact absurd hp (by decide), by exact id⟩ hl hb

theorem Touches.upd_supply {l : List Part} {r b : State} {v0}
    (hl : [.supply].all (l.contains ·) = true) (hb : Touches l r b) :
    Touches l r { b with supply := v0 } :=
  Touches.step (m := [.supply]) ⟨fun p hp => by cases p <;> first | rfl | exact absurd hp (by decide), by exact id⟩ hl hb

theorem Touches.upd_sync {l : List Part} {r b : State} {v0}
    (hl : [.sync].all (l.contains ·) = true) (hb : Touches l r b) :
    Touches l r { b with sync := v0 } :=
  Touches.step (m := [.sync]) ⟨fun p hp => by cases p <;> first | rfl | exact absurd hp (by decide), by exact id⟩ hl hb

theorem Touches.upd_thm {l : List Part} {r b : State} {v0}
    (hl : [.thm].all (l.contains ·) = true) (hb : Touches l r b) :
    Touches l r { b with thm := v0 } :=
  Touches.step (m := [.thm]) ⟨fun p hp => by cases p <;> first | rfl | exact absurd hp (by decide), by exact id⟩ hl hb

theorem Touches.upd_tio {l : List Part} {r b : State} {v0}
    (hl : [.tio].all (l.contains ·) = true) (hb : Touches l r b) :
    Touches l r { b with tio := v0 } :=
  Touches.step (m := [.tio]) ⟨fun p hp => by cases p <;> first | rfl | exact absurd hp (by decide), by exact id⟩ hl hb

theorem Touches.upd_ucode {l : List Part} {r b : State} {v0}
    (hl : [.ucode].all (l.contains ·) = true) (hb : Touches l r b) :
    Touches l r { b with ucode := v0 } :=
  Touches.step (m := [.ucode]) ⟨fun p hp => by cases p <;> first | rfl | exact absurd hp (by decide), by exact id⟩ hl hb

theorem Touches.upd_units {l : List Part} {r b : State} {v0}
    (hl : [.units].all (l.contains ·) = true) (hb : Touches l r b) :
    Touches l r { b with units := v0 } :=
  Touches.step (m := [.units]) ⟨fun p hp => by cases p <;> first | rfl | exact absurd hp (by decide), by exact id⟩ hl hb

end Sys2Proof
end

