-- ==== Sys2Proof/Laws/TouchOps.lean ====
section
/-! SUPPORT. The parts of the state that each operation of Machine/Ops.lean can change. -/

namespace Sys2Proof.Machine

open Sys2Proof

theorem State.clockTo_touches (s : State) (t : Nat) :
    Touches [.now] s (State.clockTo s t) := by
  unfold State.clockTo
  try dsimp only
  repeat' first
    | with_reducible exact Touches.refl _ _
    | with_reducible assumption
    | ((with_reducible apply Touches.fst); · assumption)
    | ((with_reducible apply Touches.snd); · assumption)
    | with_reducible apply Touches.ite
    | (with_reducible apply Touches.foldl; on_goal 1 => intro _ _ _)
    | ((with_reducible apply Touches.upd_now); · rfl)
    | split
    | exact fun _ => wrap64_lt _
    | exact id
    | dsimp only

theorem State.at_touches (s : State) (t : BitVec 64) :
    Touches [.now] s (State.at s t) := by
  unfold State.at
  try dsimp only
  repeat' first
    | with_reducible exact Touches.refl _ _
    | with_reducible assumption
    | ((with_reducible apply Touches.fst); · assumption)
    | ((with_reducible apply Touches.snd); · assumption)
    | with_reducible apply Touches.ite
    | (with_reducible apply Touches.foldl; on_goal 1 => intro _ _ _)
    | ((with_reducible apply Touches.step (State.clockTo_touches ..)); · rfl)
    | split
    | exact fun _ => wrap64_lt _
    | exact id
    | dsimp only

theorem State.idle_touches (s : State) :
    Touches [.now] s (State.idle s) := by
  unfold State.idle
  try dsimp only
  repeat' first
    | with_reducible exact Touches.refl _ _
    | with_reducible assumption
    | ((with_reducible apply Touches.fst); · assumption)
    | ((with_reducible apply Touches.snd); · assumption)
    | with_reducible apply Touches.ite
    | (with_reducible apply Touches.foldl; on_goal 1 => intro _ _ _)
    | ((with_reducible apply Touches.upd_now); · rfl)
    | split
    | exact fun _ => wrap64_lt _
    | exact id
    | dsimp only

theorem State.tick_touches (s : State) :
    Touches [.free] s (State.tick s) := by
  unfold State.tick
  try dsimp only
  repeat' first
    | with_reducible exact Touches.refl _ _
    | with_reducible assumption
    | ((with_reducible apply Touches.fst); · assumption)
    | ((with_reducible apply Touches.snd); · assumption)
    | with_reducible apply Touches.ite
    | (with_reducible apply Touches.foldl; on_goal 1 => intro _ _ _)
    | ((with_reducible apply Touches.upd_free); · rfl)
    | split
    | exact fun _ => wrap64_lt _
    | exact id
    | dsimp only

theorem State.setReg_touches (s : State) (r : RegId) (w : Word) :
    Touches [.regs] s (State.setReg s r w) := by
  unfold State.setReg
  try dsimp only
  repeat' first
    | with_reducible exact Touches.refl _ _
    | with_reducible assumption
    | ((with_reducible apply Touches.fst); · assumption)
    | ((with_reducible apply Touches.snd); · assumption)
    | with_reducible apply Touches.ite
    | (with_reducible apply Touches.foldl; on_goal 1 => intro _ _ _)
    | ((with_reducible apply Touches.upd_regs); · rfl)
    | split
    | exact fun _ => wrap64_lt _
    | exact id
    | dsimp only

theorem State.setFld_touches (s : State) (r : RegId) (hi lo v : Nat) :
    Touches [.regs] s (State.setFld s r hi lo v) := by
  unfold State.setFld
  try dsimp only
  repeat' first
    | with_reducible exact Touches.refl _ _
    | with_reducible assumption
    | ((with_reducible apply Touches.fst); · assumption)
    | ((with_reducible apply Touches.snd); · assumption)
    | with_reducible apply Touches.ite
    | (with_reducible apply Touches.foldl; on_goal 1 => intro _ _ _)
    | ((with_reducible apply Touches.step (State.setReg_touches ..)); · rfl)
    | split
    | exact fun _ => wrap64_lt _
    | exact id
    | dsimp only

theorem State.bumpKey_touches (s : State) (key n : Nat) :
    Touches [.counts, .recent] s (State.bumpKey s key n) := by
  unfold State.bumpKey
  try dsimp only
  repeat' first
    | with_reducible exact Touches.refl _ _
    | with_reducible assumption
    | ((with_reducible apply Touches.fst); · assumption)
    | ((with_reducible apply Touches.snd); · assumption)
    | with_reducible apply Touches.ite
    | (with_reducible apply Touches.foldl; on_goal 1 => intro _ _ _)
    | ((with_reducible apply Touches.upd_counts_recent); · rfl)
    | split
    | exact fun _ => wrap64_lt _
    | exact id
    | dsimp only

theorem State.bump_touches (s : State) (r : RegId) (n : Nat) :
    Touches [.counts, .recent] s (State.bump s r n) := by
  unfold State.bump
  try dsimp only
  repeat' first
    | with_reducible exact Touches.refl _ _
    | with_reducible assumption
    | ((with_reducible apply Touches.fst); · assumption)
    | ((with_reducible apply Touches.snd); · assumption)
    | with_reducible apply Touches.ite
    | (with_reducible apply Touches.foldl; on_goal 1 => intro _ _ _)
    | ((with_reducible apply Touches.step (State.bumpKey_touches ..)); · rfl)
    | split
    | exact fun _ => wrap64_lt _
    | exact id
    | dsimp only

theorem State.clearCount_touches (s : State) (key : Nat) :
    Touches [.counts, .recent] s (State.clearCount s key).2 := by
  unfold State.clearCount
  try dsimp only
  repeat' first
    | with_reducible exact Touches.refl _ _
    | with_reducible assumption
    | ((with_reducible apply Touches.fst); · assumption)
    | ((with_reducible apply Touches.snd); · assumption)
    | with_reducible apply Touches.ite
    | (with_reducible apply Touches.foldl; on_goal 1 => intro _ _ _)
    | ((with_reducible apply Touches.upd_counts_recent); · rfl)
    | split
    | exact fun _ => wrap64_lt _
    | exact id
    | dsimp only

theorem State.setFlag_touches (s : State) (r : RegId) (b : Nat) :
    Touches [.flags, .flagAt] s (State.setFlag s r b) := by
  unfold State.setFlag
  try dsimp only
  repeat' first
    | with_reducible exact Touches.refl _ _
    | with_reducible assumption
    | ((with_reducible apply Touches.fst); · assumption)
    | ((with_reducible apply Touches.snd); · assumption)
    | with_reducible apply Touches.ite
    | (with_reducible apply Touches.foldl; on_goal 1 => intro _ _ _)
    | ((with_reducible apply Touches.upd_flags_flagAt); · rfl)
    | split
    | exact fun _ => wrap64_lt _
    | exact id
    | dsimp only

theorem State.clearFlags_touches (s : State) (r : RegId) (w : Word) :
    Touches [.flags] s (State.clearFlags s r w) := by
  unfold State.clearFlags
  try dsimp only
  repeat' first
    | with_reducible exact Touches.refl _ _
    | with_reducible assumption
    | ((with_reducible apply Touches.fst); · assumption)
    | ((with_reducible apply Touches.snd); · assumption)
    | with_reducible apply Touches.ite
    | (with_reducible apply Touches.foldl; on_goal 1 => intro _ _ _)
    | ((with_reducible apply Touches.upd_flags); · rfl)
    | split
    | exact fun _ => wrap64_lt _
    | exact id
    | dsimp only

theorem State.qUnder_touches (s : State) (qn : Nat) :
    Touches [.flags, .flagAt] s (State.qUnder s qn) := by
  unfold State.qUnder
  try dsimp only
  repeat' first
    | with_reducible exact Touches.refl _ _
    | with_reducible assumption
    | ((with_reducible apply Touches.fst); · assumption)
    | ((with_reducible apply Touches.snd); · assumption)
    | with_reducible apply Touches.ite
    | (with_reducible apply Touches.foldl; on_goal 1 => intro _ _ _)
    | ((with_reducible apply Touches.step (State.setFlag_touches ..)); · rfl)
    | split
    | exact fun _ => wrap64_lt _
    | exact id
    | dsimp only

theorem State.hold_touches (s : State) (r : RegId) (w : Word) :
    Touches [.held] s (State.hold s r w) := by
  unfold State.hold
  try dsimp only
  repeat' first
    | with_reducible exact Touches.refl _ _
    | with_reducible assumption
    | ((with_reducible apply Touches.fst); · assumption)
    | ((with_reducible apply Touches.snd); · assumption)
    | with_reducible apply Touches.ite
    | (with_reducible apply Touches.foldl; on_goal 1 => intro _ _ _)
    | ((with_reducible apply Touches.upd_held); · rfl)
    | split
    | exact fun _ => wrap64_lt _
    | exact id
    | dsimp only

theorem State.unhold_touches (s : State) (r : RegId) :
    Touches [.held] s (State.unhold s r) := by
  unfold State.unhold
  try dsimp only
  repeat' first
    | with_reducible exact Touches.refl _ _
    | with_reducible assumption
    | ((with_reducible apply Touches.fst); · assumption)
    | ((with_reducible apply Touches.snd); · assumption)
    | with_reducible apply Touches.ite
    | (with_reducible apply Touches.foldl; on_goal 1 => intro _ _ _)
    | ((with_reducible apply Touches.upd_held); · rfl)
    | split
    | exact fun _ => wrap64_lt _
    | exact id
    | dsimp only

theorem State.setFrame_touches (s : State) (cyc : Nat) (x : FrameLog) :
    Touches [.regs, .frameLog] s (State.setFrame s cyc x) := by
  unfold State.setFrame
  try dsimp only
  repeat' first
    | with_reducible exact Touches.refl _ _
    | with_reducible assumption
    | ((with_reducible apply Touches.fst); · assumption)
    | ((with_reducible apply Touches.snd); · assumption)
    | with_reducible apply Touches.ite
    | (with_reducible apply Touches.foldl; on_goal 1 => intro _ _ _)
    | ((with_reducible apply Touches.step (State.setReg_touches ..)); · rfl)
    | ((with_reducible apply Touches.upd_frameLog); · rfl)
    | split
    | exact fun _ => wrap64_lt _
    | exact id
    | dsimp only

theorem State.frameOp_touches (s : State) (k f cyc core : Nat) (set : Bool) (w : Word) :
    Touches [.regs, .frameLog] s (State.frameOp s k f cyc core set w) := by
  unfold State.frameOp
  try dsimp only
  repeat' first
    | with_reducible exact Touches.refl _ _
    | with_reducible assumption
    | ((with_reducible apply Touches.fst); · assumption)
    | ((with_reducible apply Touches.snd); · assumption)
    | with_reducible apply Touches.ite
    | (with_reducible apply Touches.foldl; on_goal 1 => intro _ _ _)
    | ((with_reducible apply Touches.step (State.setFrame_touches ..)); · rfl)
    | split
    | exact fun _ => wrap64_lt _
    | exact id
    | dsimp only

theorem State.frameUndo_touches (s : State) (k f cyc core : Nat) :
    Touches [.regs, .frameLog] s (State.frameUndo s k f cyc core) := by
  unfold State.frameUndo
  try dsimp only
  repeat' first
    | with_reducible exact Touches.refl _ _
    | with_reducible assumption
    | ((with_reducible apply Touches.fst); · assumption)
    | ((with_reducible apply Touches.snd); · assumption)
    | with_reducible apply Touches.ite
    | (with_reducible apply Touches.foldl; on_goal 1 => intro _ _ _)
    | ((with_reducible apply Touches.step (State.setFrame_touches ..)); · rfl)
    | split
    | exact fun _ => wrap64_lt _
    | exact id
    | dsimp only

theorem State.settleFrames_touches (s : State) (f : Nat → Bool) (t : Nat) :
    Touches [.regs, .frameW, .frameLog] s (State.settleFrames s f t) := by
  unfold State.settleFrames
  try dsimp only
  repeat' first
    | with_reducible exact Touches.refl _ _
    | with_reducible assumption
    | ((with_reducible apply Touches.fst); · assumption)
    | ((with_reducible apply Touches.snd); · assumption)
    | with_reducible apply Touches.ite
    | (with_reducible apply Touches.foldl; on_goal 1 => intro _ _ _)
    | ((with_reducible apply Touches.step (State.frameOp_touches ..)); · rfl)
    | ((with_reducible apply Touches.upd_frameW); · rfl)
    | split
    | exact fun _ => wrap64_lt _
    | exact id
    | dsimp only

theorem State.setPly_touches (s : State) (p : Nat) (x : Ply) :
    Touches [.plies] s (State.setPly s p x) := by
  unfold State.setPly
  try dsimp only
  repeat' first
    | with_reducible exact Touches.refl _ _
    | with_reducible assumption
    | ((with_reducible apply Touches.fst); · assumption)
    | ((with_reducible apply Touches.snd); · assumption)
    | with_reducible apply Touches.ite
    | (with_reducible apply Touches.foldl; on_goal 1 => intro _ _ _)
    | ((with_reducible apply Touches.upd_plies); · rfl)
    | split
    | exact fun _ => wrap64_lt _
    | exact id
    | dsimp only

theorem State.setStrand_touches (s : State) (k : Nat) (x : Strand) :
    Touches [.strands] s (State.setStrand s k x) := by
  unfold State.setStrand
  try dsimp only
  repeat' first
    | with_reducible exact Touches.refl _ _
    | with_reducible assumption
    | ((with_reducible apply Touches.fst); · assumption)
    | ((with_reducible apply Touches.snd); · assumption)
    | with_reducible apply Touches.ite
    | (with_reducible apply Touches.foldl; on_goal 1 => intro _ _ _)
    | ((with_reducible apply Touches.upd_strands); · rfl)
    | split
    | exact fun _ => wrap64_lt _
    | exact id
    | dsimp only

theorem State.setCore_touches (s : State) (c : Nat) (x : Core) :
    Touches [.cores] s (State.setCore s c x) := by
  unfold State.setCore
  try dsimp only
  repeat' first
    | with_reducible exact Touches.refl _ _
    | with_reducible assumption
    | ((with_reducible apply Touches.fst); · assumption)
    | ((with_reducible apply Touches.snd); · assumption)
    | with_reducible apply Touches.ite
    | (with_reducible apply Touches.foldl; on_goal 1 => intro _ _ _)
    | ((with_reducible apply Touches.upd_cores); · rfl)
    | split
    | exact fun _ => wrap64_lt _
    | exact id
    | dsimp only

theorem State.setPunit_touches (s : State) (k u : Nat) (x : PUnit) :
    Touches [.units] s (State.setPunit s k u x) := by
  unfold State.setPunit
  try dsimp only
  repeat' first
    | with_reducible exact Touches.refl _ _
    | with_reducible assumption
    | ((with_reducible apply Touches.fst); · assumption)
    | ((with_reducible apply Touches.snd); · assumption)
    | with_reducible apply Touches.ite
    | (with_reducible apply Touches.foldl; on_goal 1 => intro _ _ _)
    | ((with_reducible apply Touches.upd_units); · rfl)
    | split
    | exact fun _ => wrap64_lt _
    | exact id
    | dsimp only

theorem State.setOut_touches (s : State) (k o : Nat) (x : Out) :
    Touches [.outs] s (State.setOut s k o x) := by
  unfold State.setOut
  try dsimp only
  repeat' first
    | with_reducible exact Touches.refl _ _
    | with_reducible assumption
    | ((with_reducible apply Touches.fst); · assumption)
    | ((with_reducible apply Touches.snd); · assumption)
    | with_reducible apply Touches.ite
    | (with_reducible apply Touches.foldl; on_goal 1 => intro _ _ _)
    | ((with_reducible apply Touches.upd_outs); · rfl)
    | split
    | exact fun _ => wrap64_lt _
    | exact id
    | dsimp only

theorem State.setInp_touches (s : State) (k i : Nat) (x : Inp) :
    Touches [.inps] s (State.setInp s k i x) := by
  unfold State.setInp
  try dsimp only
  repeat' first
    | with_reducible exact Touches.refl _ _
    | with_reducible assumption
    | ((with_reducible apply Touches.fst); · assumption)
    | ((with_reducible apply Touches.snd); · assumption)
    | with_reducible apply Touches.ite
    | (with_reducible apply Touches.foldl; on_goal 1 => intro _ _ _)
    | ((with_reducible apply Touches.upd_inps); · rfl)
    | split
    | exact fun _ => wrap64_lt _
    | exact id
    | dsimp only

theorem State.setRtone_touches (s : State) (k r : Nat) (x : Rtone) :
    Touches [.rtones] s (State.setRtone s k r x) := by
  unfold State.setRtone
  try dsimp only
  repeat' first
    | with_reducible exact Touches.refl _ _
    | with_reducible assumption
    | ((with_reducible apply Touches.fst); · assumption)
    | ((with_reducible apply Touches.snd); · assumption)
    | with_reducible apply Touches.ite
    | (with_reducible apply Touches.foldl; on_goal 1 => intro _ _ _)
    | ((with_reducible apply Touches.upd_rtones); · rfl)
    | split
    | exact fun _ => wrap64_lt _
    | exact id
    | dsimp only

theorem State.setQueue_touches (s : State) (q : Nat) (x : Queue) :
    Touches [.queues] s (State.setQueue s q x) := by
  unfold State.setQueue
  try dsimp only
  repeat' first
    | with_reducible exact Touches.refl _ _
    | with_reducible assumption
    | ((with_reducible apply Touches.fst); · assumption)
    | ((with_reducible apply Touches.snd); · assumption)
    | with_reducible apply Touches.ite
    | (with_reducible apply Touches.foldl; on_goal 1 => intro _ _ _)
    | ((with_reducible apply Touches.upd_queues); · rfl)
    | split
    | exact fun _ => wrap64_lt _
    | exact id
    | dsimp only

theorem State.mapCores_touches (s : State) (f : Nat → Core → Core) :
    Touches [.cores] s (State.mapCores s f) := by
  unfold State.mapCores
  try dsimp only
  repeat' first
    | with_reducible exact Touches.refl _ _
    | with_reducible assumption
    | ((with_reducible apply Touches.fst); · assumption)
    | ((with_reducible apply Touches.snd); · assumption)
    | with_reducible apply Touches.ite
    | (with_reducible apply Touches.foldl; on_goal 1 => intro _ _ _)
    | ((with_reducible apply Touches.upd_cores); · rfl)
    | split
    | exact fun _ => wrap64_lt _
    | exact id
    | dsimp only

theorem State.pushPacket_touches (s : State) (qn : Nat) (p : Packet) :
    Touches [.queues, .mem] s (State.pushPacket s qn p) := by
  unfold State.pushPacket
  try dsimp only
  repeat' first
    | with_reducible exact Touches.refl _ _
    | with_reducible assumption
    | ((with_reducible apply Touches.fst); · assumption)
    | ((with_reducible apply Touches.snd); · assumption)
    | with_reducible apply Touches.ite
    | (with_reducible apply Touches.foldl; on_goal 1 => intro _ _ _)
    | ((with_reducible apply Touches.step (State.setQueue_touches ..)); · rfl)
    | ((with_reducible apply Touches.upd_mem); · rfl)
    | split
    | exact fun _ => wrap64_lt _
    | exact id
    | dsimp only

theorem State.dropped_touches (s : State) (qn : Nat) :
    Touches [.flags, .counts, .flagAt, .recent] s (State.dropped s qn) := by
  unfold State.dropped
  try dsimp only
  repeat' first
    | with_reducible exact Touches.refl _ _
    | with_reducible assumption
    | ((with_reducible apply Touches.fst); · assumption)
    | ((with_reducible apply Touches.snd); · assumption)
    | with_reducible apply Touches.ite
    | (with_reducible apply Touches.foldl; on_goal 1 => intro _ _ _)
    | ((with_reducible apply Touches.step (State.setFlag_touches ..)); · rfl)
    | ((with_reducible apply Touches.step (State.bumpKey_touches ..)); · rfl)
    | split
    | exact fun _ => wrap64_lt _
    | exact id
    | dsimp only

theorem State.storeEvent_touches (s : State) (code source time : Nat) (args : List Word) :
    Touches [.flags, .counts, .flagAt, .recent, .ev, .queues, .mem] s (State.storeEvent s code source time args) := by
  unfold State.storeEvent
  try dsimp only
  repeat' first
    | with_reducible exact Touches.refl _ _
    | with_reducible assumption
    | ((with_reducible apply Touches.fst); · assumption)
    | ((with_reducible apply Touches.snd); · assumption)
    | with_reducible apply Touches.ite
    | (with_reducible apply Touches.foldl; on_goal 1 => intro _ _ _)
    | ((with_reducible apply Touches.step (State.pushPacket_touches ..)); · rfl)
    | ((with_reducible apply Touches.step (State.setQueue_touches ..)); · rfl)
    | ((with_reducible apply Touches.step (State.bump_touches ..)); · rfl)
    | ((with_reducible apply Touches.step (State.dropped_touches ..)); · rfl)
    | ((with_reducible apply Touches.upd_ev); · rfl)
    | split
    | exact fun _ => wrap64_lt _
    | exact id
    | dsimp only

theorem State.formEvent_touches (s : State) (code source time : Nat) (args : List Word) :
    Touches [.flags, .counts, .flagAt, .recent, .ev, .queues, .mem] s (State.formEvent s code source time args) := by
  unfold State.formEvent
  try dsimp only
  repeat' first
    | with_reducible exact Touches.refl _ _
    | with_reducible assumption
    | ((with_reducible apply Touches.fst); · assumption)
    | ((with_reducible apply Touches.snd); · assumption)
    | with_reducible apply Touches.ite
    | (with_reducible apply Touches.foldl; on_goal 1 => intro _ _ _)
    | ((with_reducible apply Touches.step (State.storeEvent_touches ..)); · rfl)
    | ((with_reducible apply Touches.step (State.setFlag_touches ..)); · rfl)
    | ((with_reducible apply Touches.upd_ev); · rfl)
    | split
    | exact fun _ => wrap64_lt _
    | exact id
    | dsimp only

theorem State.raise_touches (s : State) (e : Ev) (i source time : Nat) (args : List Word) :
    Touches [.flags, .counts, .flagAt, .recent, .ev, .queues, .mem] s (State.raise s e i source time args) := by
  unfold State.raise
  try dsimp only
  repeat' first
    | with_reducible exact Touches.refl _ _
    | with_reducible assumption
    | ((with_reducible apply Touches.fst); · assumption)
    | ((with_reducible apply Touches.snd); · assumption)
    | with_reducible apply Touches.ite
    | (with_reducible apply Touches.foldl; on_goal 1 => intro _ _ _)
    | ((with_reducible apply Touches.step (State.setFlag_touches ..)); · rfl)
    | ((with_reducible apply Touches.step (State.formEvent_touches ..)); · rfl)
    | split
    | exact fun _ => wrap64_lt _
    | exact id
    | dsimp only

theorem State.sramUe_touches (s : State) (m : SramId) (word t : Nat) :
    Touches [.flags, .counts, .flagAt, .recent, .ev, .queues, .mem] s (State.sramUe s m word t) := by
  unfold State.sramUe
  try dsimp only
  repeat' first
    | with_reducible exact Touches.refl _ _
    | with_reducible assumption
    | ((with_reducible apply Touches.fst); · assumption)
    | ((with_reducible apply Touches.snd); · assumption)
    | with_reducible apply Touches.ite
    | (with_reducible apply Touches.foldl; on_goal 1 => intro _ _ _)
    | ((with_reducible apply Touches.step (State.raise_touches ..)); · rfl)
    | ((with_reducible apply Touches.step (State.bump_touches ..)); · rfl)
    | split
    | exact fun _ => wrap64_lt _
    | exact id
    | dsimp only

theorem State.memUe_touches (s : State) (a t : Nat) :
    Touches [.flags, .counts, .flagAt, .recent, .ev, .queues, .mem] s (State.memUe s a t) := by
  unfold State.memUe
  try dsimp only
  repeat' first
    | with_reducible exact Touches.refl _ _
    | with_reducible assumption
    | ((with_reducible apply Touches.fst); · assumption)
    | ((with_reducible apply Touches.snd); · assumption)
    | with_reducible apply Touches.ite
    | (with_reducible apply Touches.foldl; on_goal 1 => intro _ _ _)
    | ((with_reducible apply Touches.step (State.bump_touches ..)); · rfl)
    | ((with_reducible apply Touches.step (State.raise_touches ..)); · rfl)
    | ((with_reducible apply Touches.upd_mem); · rfl)
    | split
    | exact fun _ => wrap64_lt _
    | exact id
    | dsimp only

theorem State.dropPacket_touches (s : State) (qn : Nat) :
    Touches [.flags, .counts, .flagAt, .recent, .ev, .queues, .mem] s (State.dropPacket s qn) := by
  unfold State.dropPacket
  try dsimp only
  repeat' first
    | with_reducible exact Touches.refl _ _
    | with_reducible assumption
    | ((with_reducible apply Touches.fst); · assumption)
    | ((with_reducible apply Touches.snd); · assumption)
    | with_reducible apply Touches.ite
    | (with_reducible apply Touches.foldl; on_goal 1 => intro _ _ _)
    | ((with_reducible apply Touches.step (State.dropped_touches ..)); · rfl)
    | ((with_reducible apply Touches.step (State.raise_touches ..)); · rfl)
    | split
    | exact fun _ => wrap64_lt _
    | exact id
    | dsimp only

theorem State.storePacket_touches (s : State) (qn : Nat) (bs : List Byte) :
    Touches [.flags, .counts, .flagAt, .recent, .ev, .queues, .mem] s (State.storePacket s qn bs).1 := by
  unfold State.storePacket
  try dsimp only
  repeat' first
    | with_reducible exact Touches.refl _ _
    | with_reducible assumption
    | ((with_reducible apply Touches.fst); · assumption)
    | ((with_reducible apply Touches.snd); · assumption)
    | with_reducible apply Touches.ite
    | (with_reducible apply Touches.foldl; on_goal 1 => intro _ _ _)
    | ((with_reducible apply Touches.step (State.dropPacket_touches ..)); · rfl)
    | ((with_reducible apply Touches.step (State.pushPacket_touches ..)); · rfl)
    | ((with_reducible apply Touches.step (State.bumpKey_touches ..)); · rfl)
    | split
    | exact fun _ => wrap64_lt _
    | exact id
    | dsimp only

end Sys2Proof.Machine
end

