-- ==== Sys2Proof/Laws/TouchProfiles.lean ====
section
/-! SUPPORT. The parts of the state that each operation of Machine/Profiles.lean can change. -/

namespace Sys2Proof.Machine

open Sys2Proof

theorem State.applySetting_touches (s : State) (x : Setting) :
    Touches [.regs] s (State.applySetting s x) := by
  unfold State.applySetting
  try dsimp only
  repeat' first
    | with_reducible exact Touches.refl _ _
    | with_reducible assumption
    | ((with_reducible apply Touches.fst); · assumption)
    | ((with_reducible apply Touches.snd); · assumption)
    | with_reducible apply Touches.ite
    | (with_reducible apply Touches.foldl; on_goal 1 => intro _ _ _)
    | ((with_reducible apply Touches.step (State.setFld_touches ..)); · rfl)
    | split
    | exact fun _ => wrap64_lt _
    | exact id
    | dsimp only

theorem State.writeFields_touches (s : State) (r : RegId) (w : Word) :
    Touches [.regs] s (State.writeFields s r w) := by
  unfold State.writeFields
  try dsimp only
  repeat' first
    | with_reducible exact Touches.refl _ _
    | with_reducible assumption
    | ((with_reducible apply Touches.fst); · assumption)
    | ((with_reducible apply Touches.snd); · assumption)
    | with_reducible apply Touches.ite
    | (with_reducible apply Touches.foldl; on_goal 1 => intro _ _ _)
    | ((with_reducible apply Touches.step (State.setReg_touches ..)); · rfl)
    | ((with_reducible apply Touches.step (State.applySetting_touches ..)); · rfl)
    | ((with_reducible apply Touches.step (State.setFld_touches ..)); · rfl)
    | split
    | exact fun _ => wrap64_lt _
    | exact id
    | dsimp only

end Sys2Proof.Machine
end

