-- ==== Sys2Proof/Laws/TouchFabric.lean ====
section
/-! SUPPORT. The parts of the state that each operation of Machine/Fabric.lean can change. -/

namespace Sys2Proof.Machine

open Sys2Proof

theorem State.setHbit_touches (s : State) (k : Nat) (x : HBit) :
    Touches [.dec] s (State.setHbit s k x) := by
  unfold State.setHbit
  try dsimp only
  repeat' first
    | with_reducible exact Touches.refl _ _
    | with_reducible assumption
    | ((with_reducible apply Touches.fst); · assumption)
    | ((with_reducible apply Touches.snd); · assumption)
    | with_reducible apply Touches.ite
    | (with_reducible apply Touches.foldl; on_goal 1 => intro _ _ _)
    | ((with_reducible apply Touches.upd_dec); · rfl)
    | split
    | exact fun _ => wrap64_lt _
    | exact id
    | dsimp only

theorem State.writeSlot_touches (s : State) (n val t : Nat) :
    Touches [.dec] s (State.writeSlot s n val t) := by
  unfold State.writeSlot
  try dsimp only
  repeat' first
    | with_reducible exact Touches.refl _ _
    | with_reducible assumption
    | ((with_reducible apply Touches.fst); · assumption)
    | ((with_reducible apply Touches.snd); · assumption)
    | with_reducible apply Touches.ite
    | (with_reducible apply Touches.foldl; on_goal 1 => intro _ _ _)
    | ((with_reducible apply Touches.upd_dec); · rfl)
    | split
    | exact fun _ => wrap64_lt _
    | exact id
    | dsimp only

theorem State.gateSlots_touches (s : State) (k t : Nat) :
    Touches [.dec] s (State.gateSlots s k t) := by
  unfold State.gateSlots
  try dsimp only
  repeat' first
    | with_reducible exact Touches.refl _ _
    | with_reducible assumption
    | ((with_reducible apply Touches.fst); · assumption)
    | ((with_reducible apply Touches.snd); · assumption)
    | with_reducible apply Touches.ite
    | (with_reducible apply Touches.foldl; on_goal 1 => intro _ _ _)
    | ((with_reducible apply Touches.upd_dec); · rfl)
    | split
    | exact fun _ => wrap64_lt _
    | exact id
    | dsimp only

theorem State.invalidateSlots_touches (s : State) (t : Nat) :
    Touches [.dec] s (State.invalidateSlots s t) := by
  unfold State.invalidateSlots
  try dsimp only
  repeat' first
    | with_reducible exact Touches.refl _ _
    | with_reducible assumption
    | ((with_reducible apply Touches.fst); · assumption)
    | ((with_reducible apply Touches.snd); · assumption)
    | with_reducible apply Touches.ite
    | (with_reducible apply Touches.foldl; on_goal 1 => intro _ _ _)
    | ((with_reducible apply Touches.upd_dec); · rfl)
    | split
    | exact fun _ => wrap64_lt _
    | exact id
    | dsimp only

theorem State.clearSlots_touches (s : State) :
    Touches [.dec] s (State.clearSlots s) := by
  unfold State.clearSlots
  try dsimp only
  repeat' first
    | with_reducible exact Touches.refl _ _
    | with_reducible assumption
    | ((with_reducible apply Touches.fst); · assumption)
    | ((with_reducible apply Touches.snd); · assumption)
    | with_reducible apply Touches.ite
    | (with_reducible apply Touches.foldl; on_goal 1 => intro _ _ _)
    | ((with_reducible apply Touches.upd_dec); · rfl)
    | split
    | exact fun _ => wrap64_lt _
    | exact id
    | dsimp only

end Sys2Proof.Machine
end

