-- ==== Sys2Proof/Laws/TouchResults.lean ====
section
/-! SUPPORT. The parts of the state that each operation of Machine/Results.lean can change. -/

namespace Sys2Proof.Machine

open Sys2Proof

theorem State.markScope_touches (s : State) (c t : Nat) :
    Touches [.cores] s (State.markScope s c t) := by
  unfold State.markScope
  try dsimp only
  repeat' first
    | with_reducible exact Touches.refl _ _
    | with_reducible assumption
    | ((with_reducible apply Touches.fst); · assumption)
    | ((with_reducible apply Touches.snd); · assumption)
    | with_reducible apply Touches.ite
    | (with_reducible apply Touches.foldl; on_goal 1 => intro _ _ _)
    | ((with_reducible apply Touches.step (State.mapCores_touches ..)); · rfl)
    | split
    | exact fun _ => wrap64_lt _
    | exact id
    | dsimp only

theorem State.invalid_touches (s : State) (c t : Nat) :
    Touches [.cores] s (State.invalid s c t) := by
  unfold State.invalid
  try dsimp only
  repeat' first
    | with_reducible exact Touches.refl _ _
    | with_reducible assumption
    | ((with_reducible apply Touches.fst); · assumption)
    | ((with_reducible apply Touches.snd); · assumption)
    | with_reducible apply Touches.ite
    | (with_reducible apply Touches.foldl; on_goal 1 => intro _ _ _)
    | ((with_reducible apply Touches.step (State.markScope_touches ..)); · rfl)
    | split
    | exact fun _ => wrap64_lt _
    | exact id
    | dsimp only

theorem State.endInvalid_touches (s : State) (c t : Nat) :
    Touches [.cores] s (State.endInvalid s c t) := by
  unfold State.endInvalid
  try dsimp only
  repeat' first
    | with_reducible exact Touches.refl _ _
    | with_reducible assumption
    | ((with_reducible apply Touches.fst); · assumption)
    | ((with_reducible apply Touches.snd); · assumption)
    | with_reducible apply Touches.ite
    | (with_reducible apply Touches.foldl; on_goal 1 => intro _ _ _)
    | ((with_reducible apply Touches.step (State.invalid_touches ..)); · rfl)
    | ((with_reducible apply Touches.step (State.setCore_touches ..)); · rfl)
    | split
    | exact fun _ => wrap64_lt _
    | exact id
    | dsimp only

theorem State.invalidAll_touches (s : State) (t : Nat) :
    Touches [.cores] s (State.invalidAll s t) := by
  unfold State.invalidAll
  try dsimp only
  repeat' first
    | with_reducible exact Touches.refl _ _
    | with_reducible assumption
    | ((with_reducible apply Touches.fst); · assumption)
    | ((with_reducible apply Touches.snd); · assumption)
    | with_reducible apply Touches.ite
    | (with_reducible apply Touches.foldl; on_goal 1 => intro _ _ _)
    | ((with_reducible apply Touches.step (State.mapCores_touches ..)); · rfl)
    | split
    | exact fun _ => wrap64_lt _
    | exact id
    | dsimp only

theorem State.loseResult_touches (s : State) (e : Ev) (c uid cause : Nat) :
    Touches [.flags, .counts, .flagAt, .recent, .ev, .queues, .cores, .mem] s (State.loseResult s e c uid cause) := by
  unfold State.loseResult
  try dsimp only
  repeat' first
    | with_reducible exact Touches.refl _ _
    | with_reducible assumption
    | ((with_reducible apply Touches.fst); · assumption)
    | ((with_reducible apply Touches.snd); · assumption)
    | with_reducible apply Touches.ite
    | (with_reducible apply Touches.foldl; on_goal 1 => intro _ _ _)
    | ((with_reducible apply Touches.step (State.bump_touches ..)); · rfl)
    | ((with_reducible apply Touches.step (State.raise_touches ..)); · rfl)
    | ((with_reducible apply Touches.step (State.setCore_touches ..)); · rfl)
    | split
    | exact fun _ => wrap64_lt _
    | exact id
    | dsimp only

theorem State.commitBytes_touches (s : State) (c uid : Nat) (bs : List Byte) :
    Touches [.flags, .counts, .flagAt, .recent, .ev, .queues, .cores, .mem] s (State.commitBytes s c uid bs) := by
  unfold State.commitBytes
  try dsimp only
  repeat' first
    | with_reducible exact Touches.refl _ _
    | with_reducible assumption
    | ((with_reducible apply Touches.fst); · assumption)
    | ((with_reducible apply Touches.snd); · assumption)
    | with_reducible apply Touches.ite
    | (with_reducible apply Touches.foldl; on_goal 1 => intro _ _ _)
    | ((with_reducible apply Touches.step (State.loseResult_touches ..)); · rfl)
    | ((with_reducible apply Touches.step (State.dropPacket_touches ..)); · rfl)
    | ((with_reducible apply Touches.step (State.setQueue_touches ..)); · rfl)
    | ((with_reducible apply Touches.step (State.storePacket_touches ..)); · rfl)
    | split
    | exact fun _ => wrap64_lt _
    | exact id
    | dsimp only

theorem State.commitStaged_touches (s : State) (early : Bool) (p : Staged) :
    Touches [.flags, .counts, .flagAt, .recent, .ev, .queues, .cores, .mem] s (State.commitStaged s early p) := by
  unfold State.commitStaged
  try dsimp only
  repeat' first
    | with_reducible exact Touches.refl _ _
    | with_reducible assumption
    | ((with_reducible apply Touches.fst); · assumption)
    | ((with_reducible apply Touches.snd); · assumption)
    | with_reducible apply Touches.ite
    | (with_reducible apply Touches.foldl; on_goal 1 => intro _ _ _)
    | ((with_reducible apply Touches.step (State.setCore_touches ..)); · rfl)
    | ((with_reducible apply Touches.step (State.commitBytes_touches ..)); · rfl)
    | split
    | exact fun _ => wrap64_lt _
    | exact id
    | dsimp only

theorem State.commitFlush_touches (s : State) (p : Staged) :
    Touches [.flags, .counts, .flagAt, .recent, .ev, .queues, .cores, .mem] s (State.commitFlush s p) := by
  unfold State.commitFlush
  try dsimp only
  repeat' first
    | with_reducible exact Touches.refl _ _
    | with_reducible assumption
    | ((with_reducible apply Touches.fst); · assumption)
    | ((with_reducible apply Touches.snd); · assumption)
    | with_reducible apply Touches.ite
    | (with_reducible apply Touches.foldl; on_goal 1 => intro _ _ _)
    | ((with_reducible apply Touches.step (State.setCore_touches ..)); · rfl)
    | ((with_reducible apply Touches.step (State.commitBytes_touches ..)); · rfl)
    | split
    | exact fun _ => wrap64_lt _
    | exact id
    | dsimp only

theorem State.commitWhere_closed {l : List Part} {P : State → Prop} (hP : Closed l P) {s : State} {k : Nat} {f : Staged → Bool}
    {op : State → Staged → State} (hl : [.strands].all (l.contains ·) = true) (hf : ∀ a x, P a → P (op a x)) (h : P s) :
    P (s.commitWhere k f op) := by
  unfold State.commitWhere
  exact Closed.foldl hP _ hf (hP (State.setStrand_touches ..) (by simp_all) h)

theorem State.closeShot_touches (s : State) (c : Nat) (x : Shot) :
    Touches [.flags, .counts, .flagAt, .recent, .ev, .queues, .cores, .mem] s (State.closeShot s c x) := by
  unfold State.closeShot
  try dsimp only
  repeat' first
    | with_reducible exact Touches.refl _ _
    | with_reducible assumption
    | ((with_reducible apply Touches.fst); · assumption)
    | ((with_reducible apply Touches.snd); · assumption)
    | with_reducible apply Touches.ite
    | (with_reducible apply Touches.foldl; on_goal 1 => intro _ _ _)
    | ((with_reducible apply Touches.step (State.commitBytes_touches ..)); · rfl)
    | ((with_reducible apply Touches.step (State.setCore_touches ..)); · rfl)
    | split
    | exact fun _ => wrap64_lt _
    | exact id
    | dsimp only

theorem State.closeReady_touches (s : State) (c : Nat) :
    Touches [.flags, .counts, .flagAt, .recent, .ev, .queues, .cores, .mem] s (State.closeReady s c) := by
  unfold State.closeReady
  try dsimp only
  repeat' first
    | with_reducible exact Touches.refl _ _
    | with_reducible assumption
    | ((with_reducible apply Touches.fst); · assumption)
    | ((with_reducible apply Touches.snd); · assumption)
    | with_reducible apply Touches.ite
    | (with_reducible apply Touches.foldl; on_goal 1 => intro _ _ _)
    | ((with_reducible apply Touches.step (State.closeShot_touches ..)); · rfl)
    | split
    | exact fun _ => wrap64_lt _
    | exact id
    | dsimp only

theorem State.flushCores_touches (s : State) (k : Nat) (f : Nat → Bool) :
    Touches [.flags, .counts, .flagAt, .recent, .ev, .queues, .strands, .cores, .mem] s (State.flushCores s k f) := by
  unfold State.flushCores
  try dsimp only
  repeat' first
    | with_reducible exact Touches.refl _ _
    | with_reducible assumption
    | ((with_reducible apply Touches.fst); · assumption)
    | ((with_reducible apply Touches.snd); · assumption)
    | with_reducible apply Touches.ite
    | (with_reducible apply Touches.foldl; on_goal 1 => intro _ _ _)
    | ((with_reducible apply State.commitWhere_closed (Touches.closed _ _)); (· rfl); on_goal 1 => intro _ _ _)
    | ((with_reducible apply Touches.step (State.commitFlush_touches ..)); · rfl)
    | ((with_reducible apply Touches.step (State.closeReady_touches ..)); · rfl)
    | split
    | exact fun _ => wrap64_lt _
    | exact id
    | dsimp only

theorem State.resultCommit_touches (s : State) (c : Nat) :
    Touches [.flags, .counts, .flagAt, .recent, .ev, .queues, .strands, .cores, .mem] s (State.resultCommit s c) := by
  unfold State.resultCommit
  try dsimp only
  repeat' first
    | with_reducible exact Touches.refl _ _
    | with_reducible assumption
    | ((with_reducible apply Touches.fst); · assumption)
    | ((with_reducible apply Touches.snd); · assumption)
    | with_reducible apply Touches.ite
    | (with_reducible apply Touches.foldl; on_goal 1 => intro _ _ _)
    | ((with_reducible apply State.commitWhere_closed (Touches.closed _ _)); (· rfl); on_goal 1 => intro _ _ _)
    | ((with_reducible apply Touches.step (State.commitStaged_touches ..)); · rfl)
    | ((with_reducible apply Touches.step (State.closeShot_touches ..)); · rfl)
    | split
    | exact fun _ => wrap64_lt _
    | exact id
    | dsimp only

theorem execResultCommit_touches (t : BitVec 64) (c : Fin 256) (s : State) :
    ∃ t', execResultCommit t c s = .next t' ∧ Touches [.now, .flags, .counts, .flagAt, .recent, .ev, .queues, .strands, .cores, .mem] s t' := by
  unfold execResultCommit
  try dsimp only
  repeat' first
    | refine ⟨_, rfl, ?_⟩
    | with_reducible exact Touches.refl _ _
    | with_reducible assumption
    | ((with_reducible apply Touches.fst); · assumption)
    | ((with_reducible apply Touches.snd); · assumption)
    | with_reducible apply Touches.ite
    | (with_reducible apply Touches.foldl; on_goal 1 => intro _ _ _)
    | ((with_reducible apply Touches.step (State.resultCommit_touches ..)); · rfl)
    | ((with_reducible apply Touches.step (State.clockTo_touches ..)); · rfl)
    | split
    | exact fun _ => wrap64_lt _
    | exact id
    | dsimp only

theorem State.earlyRelease_touches (s : State) (k : Nat) :
    Touches [.flags, .counts, .flagAt, .recent, .ev, .queues, .strands, .cores, .mem] s (State.earlyRelease s k) := by
  unfold State.earlyRelease
  try dsimp only
  repeat' first
    | with_reducible exact Touches.refl _ _
    | with_reducible assumption
    | ((with_reducible apply Touches.fst); · assumption)
    | ((with_reducible apply Touches.snd); · assumption)
    | with_reducible apply Touches.ite
    | (with_reducible apply Touches.foldl; on_goal 1 => intro _ _ _)
    | ((with_reducible apply Touches.step (State.setStrand_touches ..)); · rfl)
    | ((with_reducible apply Touches.step (State.setCore_touches ..)); · rfl)
    | ((with_reducible apply Touches.step (State.commitStaged_touches ..)); · rfl)
    | split
    | exact fun _ => wrap64_lt _
    | exact id
    | dsimp only

theorem execEarlyRelease_touches (t : BitVec 64) (k : Fin 32) (s : State) :
    ∃ t', execEarlyRelease t k s = .next t' ∧ Touches [.now, .flags, .counts, .flagAt, .recent, .ev, .queues, .strands, .cores, .mem] s t' := by
  unfold execEarlyRelease
  try dsimp only
  repeat' first
    | refine ⟨_, rfl, ?_⟩
    | with_reducible exact Touches.refl _ _
    | with_reducible assumption
    | ((with_reducible apply Touches.fst); · assumption)
    | ((with_reducible apply Touches.snd); · assumption)
    | with_reducible apply Touches.ite
    | (with_reducible apply Touches.foldl; on_goal 1 => intro _ _ _)
    | ((with_reducible apply Touches.step (State.at_touches ..)); · rfl)
    | ((with_reducible apply Touches.step (State.earlyRelease_touches ..)); · rfl)
    | ((with_reducible apply Touches.step (State.clockTo_touches ..)); · rfl)
    | split
    | exact fun _ => wrap64_lt _
    | exact id
    | dsimp only

theorem State.stage_touches (s : State) (k : Nat) (p : Staged) :
    Touches [.flags, .counts, .flagAt, .recent, .ev, .queues, .strands, .cores, .mem] s (State.stage s k p) := by
  unfold State.stage
  try dsimp only
  repeat' first
    | with_reducible exact Touches.refl _ _
    | with_reducible assumption
    | ((with_reducible apply Touches.fst); · assumption)
    | ((with_reducible apply Touches.snd); · assumption)
    | with_reducible apply Touches.ite
    | (with_reducible apply Touches.foldl; on_goal 1 => intro _ _ _)
    | ((with_reducible apply Touches.step (State.setCore_touches ..)); · rfl)
    | ((with_reducible apply Touches.step (State.loseResult_touches ..)); · rfl)
    | ((with_reducible apply Touches.step (State.commitFlush_touches ..)); · rfl)
    | ((with_reducible apply Touches.step (State.setStrand_touches ..)); · rfl)
    | split
    | exact fun _ => wrap64_lt _
    | exact id
    | dsimp only

end Sys2Proof.Machine
end

