-- ==== Sys2Proof/Laws/TouchOutputs.lean ====
section
/-! SUPPORT. The parts of the state that each operation of Machine/Outputs.lean can change. -/

namespace Sys2Proof.Machine

open Sys2Proof

theorem State.freezeEnv_touches (s : State) (k : Nat) :
    Touches [.units] s (State.freezeEnv s k) := by
  unfold State.freezeEnv
  try dsimp only
  repeat' first
    | with_reducible exact Touches.refl _ _
    | with_reducible assumption
    | ((with_reducible apply Touches.fst); · assumption)
    | ((with_reducible apply Touches.snd); · assumption)
    | with_reducible apply Touches.ite
    | (with_reducible apply Touches.foldl; on_goal 1 => intro _ _ _)
    | ((with_reducible apply Touches.upd_units); · rfl)
    | split
    | exact fun _ => wrap64_lt _
    | exact id
    | dsimp only

theorem State.freezeAll_touches (s : State) :
    Touches [.units] s (State.freezeAll s) := by
  unfold State.freezeAll
  try dsimp only
  repeat' first
    | with_reducible exact Touches.refl _ _
    | with_reducible assumption
    | ((with_reducible apply Touches.fst); · assumption)
    | ((with_reducible apply Touches.snd); · assumption)
    | with_reducible apply Touches.ite
    | (with_reducible apply Touches.foldl; on_goal 1 => intro _ _ _)
    | ((with_reducible apply Touches.upd_units); · rfl)
    | split
    | exact fun _ => wrap64_lt _
    | exact id
    | dsimp only

theorem State.notePhases_touches (s : State) (k t : Nat) :
    Touches [.rtones] s (State.notePhases s k t) := by
  unfold State.notePhases
  try dsimp only
  repeat' first
    | with_reducible exact Touches.refl _ _
    | with_reducible assumption
    | ((with_reducible apply Touches.fst); · assumption)
    | ((with_reducible apply Touches.snd); · assumption)
    | with_reducible apply Touches.ite
    | (with_reducible apply Touches.foldl; on_goal 1 => intro _ _ _)
    | ((with_reducible apply Touches.upd_rtones); · rfl)
    | split
    | exact fun _ => wrap64_lt _
    | exact id
    | dsimp only

theorem State.reloadUnits_touches (s : State) (f : Nat → Bool) (n : Nat) :
    Touches [.units] s (State.reloadUnits s f n) := by
  unfold State.reloadUnits
  try dsimp only
  repeat' first
    | with_reducible exact Touches.refl _ _
    | with_reducible assumption
    | ((with_reducible apply Touches.fst); · assumption)
    | ((with_reducible apply Touches.snd); · assumption)
    | with_reducible apply Touches.ite
    | (with_reducible apply Touches.foldl; on_goal 1 => intro _ _ _)
    | ((with_reducible apply Touches.upd_units); · rfl)
    | split
    | exact fun _ => wrap64_lt _
    | exact id
    | dsimp only

theorem State.clipAt_touches (s : State) (k o : Nat) (cores : List Nat) (n : Nat) :
    Touches [.flags, .counts, .flagAt, .recent, .ev, .queues, .cores, .mem] s (State.clipAt s k o cores n) := by
  unfold State.clipAt
  try dsimp only
  repeat' first
    | with_reducible exact Touches.refl _ _
    | with_reducible assumption
    | ((with_reducible apply Touches.fst); · assumption)
    | ((with_reducible apply Touches.snd); · assumption)
    | with_reducible apply Touches.ite
    | (with_reducible apply Touches.foldl; on_goal 1 => intro _ _ _)
    | ((with_reducible apply Touches.step (State.bump_touches ..)); · rfl)
    | ((with_reducible apply Touches.step (State.raise_touches ..)); · rfl)
    | ((with_reducible apply Touches.step (State.mapCores_touches ..)); · rfl)
    | split
    | exact fun _ => wrap64_lt _
    | exact id
    | dsimp only

theorem State.settleRf_touches (s : State) (k o t : Nat) :
    Touches [.flags, .counts, .flagAt, .recent, .ev, .queues, .cores, .outs, .mem] s (State.settleRf s k o t) := by
  unfold State.settleRf
  try dsimp only
  repeat' first
    | with_reducible exact Touches.refl _ _
    | with_reducible assumption
    | ((with_reducible apply Touches.fst); · assumption)
    | ((with_reducible apply Touches.snd); · assumption)
    | with_reducible apply Touches.ite
    | (with_reducible apply Touches.foldl; on_goal 1 => intro _ _ _)
    | ((with_reducible apply Touches.step (State.clipAt_touches ..)); · rfl)
    | ((with_reducible apply Touches.step (State.setOut_touches ..)); · rfl)
    | split
    | exact fun _ => wrap64_lt _
    | exact id
    | dsimp only

theorem State.settleStream_touches (s : State) (k u t : Nat) :
    Touches [.queues, .units] s (State.settleStream s k u t) := by
  unfold State.settleStream
  try dsimp only
  repeat' first
    | with_reducible exact Touches.refl _ _
    | with_reducible assumption
    | ((with_reducible apply Touches.fst); · assumption)
    | ((with_reducible apply Touches.snd); · assumption)
    | with_reducible apply Touches.ite
    | (with_reducible apply Touches.foldl; on_goal 1 => intro _ _ _)
    | ((with_reducible apply Touches.step (State.setPunit_touches ..)); · rfl)
    | ((with_reducible apply Touches.step (State.setQueue_touches ..)); · rfl)
    | split
    | exact fun _ => wrap64_lt _
    | exact id
    | dsimp only

theorem State.copyCoef_touches (s : State) (k c : Nat) :
    Touches [.outs] s (State.copyCoef s k c) := by
  unfold State.copyCoef
  try dsimp only
  repeat' first
    | with_reducible exact Touches.refl _ _
    | with_reducible assumption
    | ((with_reducible apply Touches.fst); · assumption)
    | ((with_reducible apply Touches.snd); · assumption)
    | with_reducible apply Touches.ite
    | (with_reducible apply Touches.foldl; on_goal 1 => intro _ _ _)
    | ((with_reducible apply Touches.step (State.setOut_touches ..)); · rfl)
    | split
    | exact fun _ => wrap64_lt _
    | exact id
    | dsimp only

theorem State.settleChain_touches (s0 : State) (k c t : Nat) :
    Touches [.flags, .counts, .flagAt, .recent, .ev, .queues, .cores, .units, .outs, .mem] s0 (State.settleChain s0 k c t) := by
  unfold State.settleChain
  try dsimp only
  repeat' first
    | with_reducible exact Touches.refl _ _
    | with_reducible assumption
    | ((with_reducible apply Touches.fst); · assumption)
    | ((with_reducible apply Touches.snd); · assumption)
    | with_reducible apply Touches.ite
    | (with_reducible apply Touches.foldl; on_goal 1 => intro _ _ _)
    | ((with_reducible apply Touches.step (State.settleStream_touches ..)); · rfl)
    | ((with_reducible apply Touches.step (State.clipAt_touches ..)); · rfl)
    | ((with_reducible apply Touches.step (State.setOut_touches ..)); · rfl)
    | split
    | exact fun _ => wrap64_lt _
    | exact id
    | dsimp only

theorem State.goLive_touches (s : State) (k o t : Nat) :
    Touches [.outs] s (State.goLive s k o t) := by
  unfold State.goLive
  try dsimp only
  repeat' first
    | with_reducible exact Touches.refl _ _
    | with_reducible assumption
    | ((with_reducible apply Touches.fst); · assumption)
    | ((with_reducible apply Touches.snd); · assumption)
    | with_reducible apply Touches.ite
    | (with_reducible apply Touches.foldl; on_goal 1 => intro _ _ _)
    | ((with_reducible apply Touches.step (State.setOut_touches ..)); · rfl)
    | split
    | exact fun _ => wrap64_lt _
    | exact id
    | dsimp only

theorem State.settleHeld_touches (s : State) (k o b : Nat) :
    Touches [.flags, .counts, .flagAt, .recent, .ev, .queues, .cores, .units, .outs, .mem] s (State.settleHeld s k o b) := by
  unfold State.settleHeld
  try dsimp only
  repeat' first
    | with_reducible exact Touches.refl _ _
    | with_reducible assumption
    | ((with_reducible apply Touches.fst); · assumption)
    | ((with_reducible apply Touches.snd); · assumption)
    | with_reducible apply Touches.ite
    | (with_reducible apply Touches.foldl; on_goal 1 => intro _ _ _)
    | ((with_reducible apply Touches.step (State.settleChain_touches ..)); · rfl)
    | split
    | exact fun _ => wrap64_lt _
    | exact id
    | dsimp only

theorem State.goHeld_touches (s : State) (k o b : Nat) (clearStatic clearChain : Bool) :
    Touches [.flags, .counts, .flagAt, .recent, .ev, .queues, .cores, .units, .outs, .mem] s (State.goHeld s k o b clearStatic clearChain) := by
  unfold State.goHeld
  try dsimp only
  repeat' first
    | with_reducible exact Touches.refl _ _
    | with_reducible assumption
    | ((with_reducible apply Touches.fst); · assumption)
    | ((with_reducible apply Touches.snd); · assumption)
    | with_reducible apply Touches.ite
    | (with_reducible apply Touches.foldl; on_goal 1 => intro _ _ _)
    | ((with_reducible apply Touches.step (State.settleHeld_touches ..)); · rfl)
    | ((with_reducible apply Touches.step (State.setOut_touches ..)); · rfl)
    | split
    | exact fun _ => wrap64_lt _
    | exact id
    | dsimp only

theorem State.holdStrand_touches (s : State) (k b : Nat) (clearStatic clearChain : Bool) :
    Touches [.flags, .counts, .flagAt, .recent, .ev, .queues, .cores, .units, .outs, .mem] s (State.holdStrand s k b clearStatic clearChain) := by
  unfold State.holdStrand
  try dsimp only
  repeat' first
    | with_reducible exact Touches.refl _ _
    | with_reducible assumption
    | ((with_reducible apply Touches.fst); · assumption)
    | ((with_reducible apply Touches.snd); · assumption)
    | with_reducible apply Touches.ite
    | (with_reducible apply Touches.foldl; on_goal 1 => intro _ _ _)
    | ((with_reducible apply Touches.step (State.goHeld_touches ..)); · rfl)
    | split
    | exact fun _ => wrap64_lt _
    | exact id
    | dsimp only

theorem State.holdAllOuts_touches (s : State) (b : Nat) (clearStatic clearChain : Bool) :
    Touches [.flags, .counts, .flagAt, .recent, .ev, .queues, .cores, .units, .outs, .mem] s (State.holdAllOuts s b clearStatic clearChain) := by
  unfold State.holdAllOuts
  try dsimp only
  repeat' first
    | with_reducible exact Touches.refl _ _
    | with_reducible assumption
    | ((with_reducible apply Touches.fst); · assumption)
    | ((with_reducible apply Touches.snd); · assumption)
    | with_reducible apply Touches.ite
    | (with_reducible apply Touches.foldl; on_goal 1 => intro _ _ _)
    | ((with_reducible apply Touches.step (State.goHeld_touches ..)); · rfl)
    | split
    | exact fun _ => wrap64_lt _
    | exact id
    | dsimp only

theorem State.rampUnits_touches (s : State) (f : Nat → Bool) (t : Nat) :
    Touches [.units] s (State.rampUnits s f t) := by
  unfold State.rampUnits
  try dsimp only
  repeat' first
    | with_reducible exact Touches.refl _ _
    | with_reducible assumption
    | ((with_reducible apply Touches.fst); · assumption)
    | ((with_reducible apply Touches.snd); · assumption)
    | with_reducible apply Touches.ite
    | (with_reducible apply Touches.foldl; on_goal 1 => intro _ _ _)
    | ((with_reducible apply Touches.upd_units); · rfl)
    | split
    | exact fun _ => wrap64_lt _
    | exact id
    | dsimp only

theorem State.setStatic_touches (s : State) (k c lvl t : Nat) :
    Touches [.regs, .flags, .counts, .flagAt, .recent, .ev, .queues, .cores, .units, .outs, .mem] s (State.setStatic s k c lvl t) := by
  unfold State.setStatic
  try dsimp only
  repeat' first
    | with_reducible exact Touches.refl _ _
    | with_reducible assumption
    | ((with_reducible apply Touches.fst); · assumption)
    | ((with_reducible apply Touches.snd); · assumption)
    | with_reducible apply Touches.ite
    | (with_reducible apply Touches.foldl; on_goal 1 => intro _ _ _)
    | ((with_reducible apply Touches.step (State.settleChain_touches ..)); · rfl)
    | ((with_reducible apply Touches.step (State.setFld_touches ..)); · rfl)
    | ((with_reducible apply Touches.step (State.setOut_touches ..)); · rfl)
    | ((with_reducible apply Touches.step (State.goLive_touches ..)); · rfl)
    | split
    | exact fun _ => wrap64_lt _
    | exact id
    | dsimp only

theorem State.staticArrives_touches (s : State) (k c lvl t : Nat) :
    Touches [.regs, .flags, .counts, .flagAt, .recent, .ev, .queues, .cores, .units, .outs, .mem] s (State.staticArrives s k c lvl t) := by
  unfold State.staticArrives
  try dsimp only
  repeat' first
    | with_reducible exact Touches.refl _ _
    | with_reducible assumption
    | ((with_reducible apply Touches.fst); · assumption)
    | ((with_reducible apply Touches.snd); · assumption)
    | with_reducible apply Touches.ite
    | (with_reducible apply Touches.foldl; on_goal 1 => intro _ _ _)
    | ((with_reducible apply Touches.step (State.setOut_touches ..)); · rfl)
    | ((with_reducible apply Touches.step (State.setStatic_touches ..)); · rfl)
    | split
    | exact fun _ => wrap64_lt _
    | exact id
    | dsimp only

theorem State.liveStatics_touches (s : State) (t : Nat) :
    Touches [.flags, .counts, .flagAt, .recent, .ev, .queues, .cores, .units, .outs, .mem] s (State.liveStatics s t) := by
  unfold State.liveStatics
  try dsimp only
  repeat' first
    | with_reducible exact Touches.refl _ _
    | with_reducible assumption
    | ((with_reducible apply Touches.fst); · assumption)
    | ((with_reducible apply Touches.snd); · assumption)
    | with_reducible apply Touches.ite
    | (with_reducible apply Touches.foldl; on_goal 1 => intro _ _ _)
    | ((with_reducible apply Touches.step (State.settleChain_touches ..)); · rfl)
    | ((with_reducible apply Touches.step (State.goLive_touches ..)); · rfl)
    | ((with_reducible apply Touches.step (State.setOut_touches ..)); · rfl)
    | split
    | exact fun _ => wrap64_lt _
    | exact id
    | dsimp only

end Sys2Proof.Machine
end

