-- ==== Sys2Proof/Laws/TouchCores.lean ====
section
/-! SUPPORT. The parts of the state that each operation of Machine/Cores.lean can change. -/

namespace Sys2Proof.Machine

open Sys2Proof

theorem State.closeWins_touches (s : State) (f : Nat → Win → Bool) (t : Nat) :
    Touches [.rtones] s (State.closeWins s f t) := by
  unfold State.closeWins
  try dsimp only
  repeat' first
    | with_reducible exact Touches.refl _ _
    | with_reducible assumption
    | ((with_reducible apply Touches.fst); · assumption)
    | ((with_reducible apply Touches.snd); · assumption)
    | with_reducible apply Touches.ite
    | (with_reducible apply Touches.foldl; on_goal 1 => intro _ _ _)
    | ((with_reducible apply Touches.upd_rtones); · rfl)
    | split
    | exact fun _ => wrap64_lt _
    | exact id
    | dsimp only

theorem State.unbind_touches (s : State) (c : Nat) :
    Touches [.queues] s (State.unbind s c) := by
  unfold State.unbind
  try dsimp only
  repeat' first
    | with_reducible exact Touches.refl _ _
    | with_reducible assumption
    | ((with_reducible apply Touches.fst); · assumption)
    | ((with_reducible apply Touches.snd); · assumption)
    | with_reducible apply Touches.ite
    | (with_reducible apply Touches.foldl; on_goal 1 => intro _ _ _)
    | ((with_reducible apply Touches.upd_queues); · rfl)
    | split
    | exact fun _ => wrap64_lt _
    | exact id
    | dsimp only

theorem State.loseDeferral_touches (s : State) (c t : Nat) :
    Touches [.flags, .counts, .flagAt, .recent, .ev, .queues, .cores, .mem] s (State.loseDeferral s c t) := by
  unfold State.loseDeferral
  try dsimp only
  repeat' first
    | with_reducible exact Touches.refl _ _
    | with_reducible assumption
    | ((with_reducible apply Touches.fst); · assumption)
    | ((with_reducible apply Touches.snd); · assumption)
    | with_reducible apply Touches.ite
    | (with_reducible apply Touches.foldl; on_goal 1 => intro _ _ _)
    | ((with_reducible apply Touches.step (State.setCore_touches ..)); · rfl)
    | ((with_reducible apply Touches.step (State.endInvalid_touches ..)); · rfl)
    | ((with_reducible apply Touches.step (State.raise_touches ..)); · rfl)
    | split
    | exact fun _ => wrap64_lt _
    | exact id
    | dsimp only

theorem State.endShots_touches (s : State) (c d t : Nat) :
    Touches [.flags, .counts, .flagAt, .recent, .ev, .queues, .cores, .mem] s (State.endShots s c d t) := by
  unfold State.endShots
  try dsimp only
  repeat' first
    | with_reducible exact Touches.refl _ _
    | with_reducible assumption
    | ((with_reducible apply Touches.fst); · assumption)
    | ((with_reducible apply Touches.snd); · assumption)
    | with_reducible apply Touches.ite
    | (with_reducible apply Touches.foldl; on_goal 1 => intro _ _ _)
    | ((with_reducible apply Touches.step (State.loseDeferral_touches ..)); · rfl)
    | ((with_reducible apply Touches.step (State.setCore_touches ..)); · rfl)
    | split
    | exact fun _ => wrap64_lt _
    | exact id
    | dsimp only

theorem State.endAllShots_touches (s : State) (c t : Nat) :
    Touches [.flags, .counts, .flagAt, .recent, .ev, .queues, .cores, .mem] s (State.endAllShots s c t) := by
  unfold State.endAllShots
  try dsimp only
  repeat' first
    | with_reducible exact Touches.refl _ _
    | with_reducible assumption
    | ((with_reducible apply Touches.fst); · assumption)
    | ((with_reducible apply Touches.snd); · assumption)
    | with_reducible apply Touches.ite
    | (with_reducible apply Touches.foldl; on_goal 1 => intro _ _ _)
    | ((with_reducible apply Touches.step (State.loseDeferral_touches ..)); · rfl)
    | ((with_reducible apply Touches.step (State.setCore_touches ..)); · rfl)
    | split
    | exact fun _ => wrap64_lt _
    | exact id
    | dsimp only

theorem State.undoOne_touches (s : State) (x1 : Undo) :
    Touches [.regs, .frameLog, .queues, .cores, .units, .outs, .inps, .rtones] s (State.undoOne s x1) := by
  cases x1
  · exact (State.setReg_touches ..).mono (by decide)
  · exact (State.frameUndo_touches ..).mono (by decide)
  · exact Touches.upd_units rfl (Touches.refl ..)
  · exact Touches.upd_outs rfl (Touches.refl ..)
  · exact Touches.upd_rtones rfl (Touches.refl ..)
  · exact Touches.upd_inps rfl (Touches.refl ..)
  · exact (State.setQueue_touches ..).mono (by decide)
  · exact (State.setCore_touches ..).mono (by decide)

theorem State.withdraw_touches (s : State) (c t : Nat) :
    Touches [.regs, .frameLog, .queues, .cores, .units, .outs, .inps, .rtones] s (State.withdraw s c t) := by
  unfold State.withdraw
  try dsimp only
  repeat' first
    | with_reducible exact Touches.refl _ _
    | with_reducible assumption
    | ((with_reducible apply Touches.fst); · assumption)
    | ((with_reducible apply Touches.snd); · assumption)
    | with_reducible apply Touches.ite
    | (with_reducible apply Touches.foldl; on_goal 1 => intro _ _ _)
    | ((with_reducible apply Touches.step (State.notePhases_touches ..)); · rfl)
    | ((with_reducible apply Touches.step (State.undoOne_touches ..)); · rfl)
    | split
    | exact fun _ => wrap64_lt _
    | exact id
    | dsimp only

theorem State.note_touches (s : State) (c eff : Nat) (u : Undo) :
    Touches [.cores] s (State.note s c eff u) := by
  unfold State.note
  try dsimp only
  repeat' first
    | with_reducible exact Touches.refl _ _
    | with_reducible assumption
    | ((with_reducible apply Touches.fst); · assumption)
    | ((with_reducible apply Touches.snd); · assumption)
    | with_reducible apply Touches.ite
    | (with_reducible apply Touches.foldl; on_goal 1 => intro _ _ _)
    | ((with_reducible apply Touches.step (State.setCore_touches ..)); · rfl)
    | split
    | exact fun _ => wrap64_lt _
    | exact id
    | dsimp only

theorem State.haltCore_touches (s : State) (c t code : Nat) :
    Touches [.regs, .frameLog, .flags, .counts, .flagAt, .recent, .ev, .queues, .cores, .units, .outs, .inps, .rtones, .mem] s (State.haltCore s c t code) := by
  unfold State.haltCore
  try dsimp only
  repeat' first
    | with_reducible exact Touches.refl _ _
    | with_reducible assumption
    | ((with_reducible apply Touches.fst); · assumption)
    | ((with_reducible apply Touches.snd); · assumption)
    | with_reducible apply Touches.ite
    | (with_reducible apply Touches.foldl; on_goal 1 => intro _ _ _)
    | ((with_reducible apply Touches.step (State.endAllShots_touches ..)); · rfl)
    | ((with_reducible apply Touches.step (State.withdraw_touches ..)); · rfl)
    | ((with_reducible apply Touches.step (State.unbind_touches ..)); · rfl)
    | ((with_reducible apply Touches.step (State.setCore_touches ..)); · rfl)
    | split
    | exact fun _ => wrap64_lt _
    | exact id
    | dsimp only

theorem State.faultEffects_touches (s : State) (c t : Nat) :
    Touches [.regs, .frameLog, .flags, .counts, .flagAt, .recent, .ev, .queues, .strands, .cores, .units, .outs, .inps, .rtones, .mem] s (State.faultEffects s c t) := by
  unfold State.faultEffects
  try dsimp only
  repeat' first
    | with_reducible exact Touches.refl _ _
    | with_reducible assumption
    | ((with_reducible apply Touches.fst); · assumption)
    | ((with_reducible apply Touches.snd); · assumption)
    | with_reducible apply Touches.ite
    | (with_reducible apply Touches.foldl; on_goal 1 => intro _ _ _)
    | ((with_reducible apply Touches.step (State.endInvalid_touches ..)); · rfl)
    | ((with_reducible apply Touches.step (State.withdraw_touches ..)); · rfl)
    | ((with_reducible apply Touches.step (State.endAllShots_touches ..)); · rfl)
    | ((with_reducible apply Touches.step (State.rampUnits_touches ..)); · rfl)
    | ((with_reducible apply Touches.step (State.goHeld_touches ..)); · rfl)
    | ((with_reducible apply Touches.step (State.closeWins_touches ..)); · rfl)
    | ((with_reducible apply Touches.step (State.unbind_touches ..)); · rfl)
    | ((with_reducible apply Touches.step (State.setCore_touches ..)); · rfl)
    | ((with_reducible apply Touches.step (State.flushCores_touches ..)); · rfl)
    | split
    | exact fun _ => wrap64_lt _
    | exact id
    | dsimp only

theorem State.quietFault_touches (s : State) (c t : Nat) :
    Touches [.regs, .frameLog, .flags, .counts, .flagAt, .recent, .ev, .queues, .strands, .cores, .units, .outs, .inps, .rtones, .mem] s (State.quietFault s c t) := by
  unfold State.quietFault
  try dsimp only
  repeat' first
    | with_reducible exact Touches.refl _ _
    | with_reducible assumption
    | ((with_reducible apply Touches.fst); · assumption)
    | ((with_reducible apply Touches.snd); · assumption)
    | with_reducible apply Touches.ite
    | (with_reducible apply Touches.foldl; on_goal 1 => intro _ _ _)
    | ((with_reducible apply Touches.step (State.faultEffects_touches ..)); · rfl)
    | ((with_reducible apply Touches.step (State.setCore_touches ..)); · rfl)
    | split
    | exact fun _ => wrap64_lt _
    | exact id
    | dsimp only

theorem State.faultWith_touches (s : State) (t c : Nat) :
    Touches [.regs, .frameLog, .flags, .counts, .flagAt, .recent, .ev, .queues, .strands, .cores, .units, .outs, .inps, .rtones, .mem] s (State.faultWith s t c) := by
  unfold State.faultWith
  try dsimp only
  repeat' first
    | with_reducible exact Touches.refl _ _
    | with_reducible assumption
    | ((with_reducible apply Touches.fst); · assumption)
    | ((with_reducible apply Touches.snd); · assumption)
    | with_reducible apply Touches.ite
    | (with_reducible apply Touches.foldl; on_goal 1 => intro _ _ _)
    | ((with_reducible apply Touches.step (State.setCore_touches ..)); · rfl)
    | ((with_reducible apply Touches.step (State.quietFault_touches ..)); · rfl)
    | split
    | exact fun _ => wrap64_lt _
    | exact id
    | dsimp only

theorem State.faultCore_touches (s : State) (c t : Nat) :
    Touches [.regs, .frameLog, .flags, .counts, .flagAt, .recent, .ev, .queues, .strands, .cores, .units, .outs, .inps, .rtones, .mem] s (State.faultCore s c t) := by
  unfold State.faultCore
  try dsimp only
  repeat' first
    | with_reducible exact Touches.refl _ _
    | with_reducible assumption
    | ((with_reducible apply Touches.fst); · assumption)
    | ((with_reducible apply Touches.snd); · assumption)
    | with_reducible apply Touches.ite
    | (with_reducible apply Touches.foldl; on_goal 1 => intro _ _ _)
    | ((with_reducible apply Touches.step (State.faultEffects_touches ..)); · rfl)
    | ((with_reducible apply Touches.step (State.faultWith_touches ..)); · rfl)
    | split
    | exact fun _ => wrap64_lt _
    | exact id
    | dsimp only

theorem State.coreFault_touches (s : State) (e : Ev) (c t : Nat) :
    Touches [.regs, .frameLog, .flags, .counts, .flagAt, .recent, .ev, .queues, .strands, .cores, .units, .outs, .inps, .rtones, .mem] s (State.coreFault s e c t) := by
  unfold State.coreFault
  try dsimp only
  repeat' first
    | with_reducible exact Touches.refl _ _
    | with_reducible assumption
    | ((with_reducible apply Touches.fst); · assumption)
    | ((with_reducible apply Touches.snd); · assumption)
    | with_reducible apply Touches.ite
    | (with_reducible apply Touches.foldl; on_goal 1 => intro _ _ _)
    | ((with_reducible apply Touches.step (State.faultCore_touches ..)); · rfl)
    | ((with_reducible apply Touches.step (State.raise_touches ..)); · rfl)
    | split
    | exact fun _ => wrap64_lt _
    | exact id
    | dsimp only

theorem State.dpathCheck_touches (s : State) (c u t : Nat) :
    Touches [.flags, .counts, .flagAt, .recent, .ev, .queues, .cores, .mem] s (State.dpathCheck s c u t) := by
  unfold State.dpathCheck
  try dsimp only
  repeat' first
    | with_reducible exact Touches.refl _ _
    | with_reducible assumption
    | ((with_reducible apply Touches.fst); · assumption)
    | ((with_reducible apply Touches.snd); · assumption)
    | with_reducible apply Touches.ite
    | (with_reducible apply Touches.foldl; on_goal 1 => intro _ _ _)
    | ((with_reducible apply Touches.step (State.invalid_touches ..)); · rfl)
    | ((with_reducible apply Touches.step (State.raise_touches ..)); · rfl)
    | ((with_reducible apply Touches.step (State.bump_touches ..)); · rfl)
    | split
    | exact fun _ => wrap64_lt _
    | exact id
    | dsimp only

theorem State.stopNow_touches (s : State) (c b : Nat) (fault : Bool) :
    Touches [.regs, .frameLog, .flags, .counts, .flagAt, .recent, .ev, .queues, .strands, .cores, .units, .outs, .inps, .rtones, .mem] s (State.stopNow s c b fault) := by
  unfold State.stopNow
  try dsimp only
  repeat' first
    | with_reducible exact Touches.refl _ _
    | with_reducible assumption
    | ((with_reducible apply Touches.fst); · assumption)
    | ((with_reducible apply Touches.snd); · assumption)
    | with_reducible apply Touches.ite
    | (with_reducible apply Touches.foldl; on_goal 1 => intro _ _ _)
    | ((with_reducible apply Touches.step (State.quietFault_touches ..)); · rfl)
    | ((with_reducible apply Touches.step (State.haltCore_touches ..)); · rfl)
    | split
    | exact fun _ => wrap64_lt _
    | exact id
    | dsimp only

end Sys2Proof.Machine
end

