-- ==== Sys2Proof/Laws/TouchDue.lean ====
section
/-! SUPPORT. The parts of the state that each operation of Machine/Due.lean can change. -/

namespace Sys2Proof.Machine

open Sys2Proof

theorem State.underrunAt_touches (s : State) (c u t : Nat) :
    Touches [.flags, .counts, .flagAt, .recent, .ev, .queues, .cores, .mem] s (State.underrunAt s c u t) := by
  unfold State.underrunAt
  try dsimp only
  repeat' first
    | with_reducible exact Touches.refl _ _
    | with_reducible assumption
    | ((with_reducible apply Touches.fst); · assumption)
    | ((with_reducible apply Touches.snd); · assumption)
    | with_reducible apply Touches.ite
    | (with_reducible apply Touches.foldl; on_goal 1 => intro _ _ _)
    | ((with_reducible apply Touches.step (State.invalid_touches ..)); · rfl)
    | ((with_reducible apply Touches.step (State.raise_touches ..)); · rfl)
    | split
    | exact fun _ => wrap64_lt _
    | exact id
    | dsimp only

theorem State.playBad_touches (s : State) (k u : Nat) (g : Seg) :
    Touches [.flags, .counts, .flagAt, .recent, .ev, .queues, .cores, .units, .mem] s (State.playBad s k u g) := by
  unfold State.playBad
  try dsimp only
  repeat' first
    | with_reducible exact Touches.refl _ _
    | with_reducible assumption
    | ((with_reducible apply Touches.fst); · assumption)
    | ((with_reducible apply Touches.snd); · assumption)
    | with_reducible apply Touches.ite
    | (with_reducible apply Touches.foldl; on_goal 1 => intro _ _ _)
    | ((with_reducible apply Touches.step (State.memUe_touches ..)); · rfl)
    | ((with_reducible apply Touches.step (State.sramUe_touches ..)); · rfl)
    | ((with_reducible apply Touches.step (State.underrunAt_touches ..)); · rfl)
    | ((with_reducible apply Touches.step (State.setPunit_touches ..)); · rfl)
    | split
    | exact fun _ => wrap64_lt _
    | exact id
    | dsimp only

theorem State.refuseSeg_touches (s : State) (k u : Nat) (g : Seg) (band : Bool) :
    Touches [.queues, .units] s (State.refuseSeg s k u g band) := by
  unfold State.refuseSeg
  try dsimp only
  repeat' first
    | with_reducible exact Touches.refl _ _
    | with_reducible assumption
    | ((with_reducible apply Touches.fst); · assumption)
    | ((with_reducible apply Touches.snd); · assumption)
    | with_reducible apply Touches.ite
    | (with_reducible apply Touches.foldl; on_goal 1 => intro _ _ _)
    | ((with_reducible apply Touches.step (State.setPunit_touches ..)); · rfl)
    | ((with_reducible apply Touches.step (State.setQueue_touches ..)); · rfl)
    | split
    | exact fun _ => wrap64_lt _
    | exact id
    | dsimp only

theorem State.judge_touches (s : State) (k u : Nat) :
    Touches [.flags, .counts, .flagAt, .recent, .ev, .queues, .cores, .units, .mem] s (State.judge s k u) := by
  unfold State.judge
  try dsimp only
  repeat' first
    | with_reducible exact Touches.refl _ _
    | with_reducible assumption
    | ((with_reducible apply Touches.fst); · assumption)
    | ((with_reducible apply Touches.snd); · assumption)
    | with_reducible apply Touches.ite
    | (with_reducible apply Touches.foldl; on_goal 1 => intro _ _ _)
    | ((with_reducible apply Touches.step (State.invalid_touches ..)); · rfl)
    | ((with_reducible apply Touches.step (State.raise_touches ..)); · rfl)
    | ((with_reducible apply Touches.step (State.refuseSeg_touches ..)); · rfl)
    | ((with_reducible apply Touches.step (State.setPunit_touches ..)); · rfl)
    | ((with_reducible apply Touches.step (State.playBad_touches ..)); · rfl)
    | split
    | exact fun _ => wrap64_lt _
    | exact id
    | dsimp only

theorem State.checkWins_touches (s : State) (k r t : Nat) :
    Touches [.flags, .counts, .flagAt, .recent, .ev, .queues, .cores, .rtones, .mem] s (State.checkWins s k r t) := by
  unfold State.checkWins
  try dsimp only
  repeat' first
    | with_reducible exact Touches.refl _ _
    | with_reducible assumption
    | ((with_reducible apply Touches.fst); · assumption)
    | ((with_reducible apply Touches.snd); · assumption)
    | with_reducible apply Touches.ite
    | (with_reducible apply Touches.foldl; on_goal 1 => intro _ _ _)
    | ((with_reducible apply Touches.step (State.setRtone_touches ..)); · rfl)
    | ((with_reducible apply Touches.step (State.invalid_touches ..)); · rfl)
    | ((with_reducible apply Touches.step (State.raise_touches ..)); · rfl)
    | split
    | exact fun _ => wrap64_lt _
    | exact id
    | dsimp only

theorem State.pushTrig_touches (s : State) (c i t : Nat) :
    Touches [.cores] s (State.pushTrig s c i t) := by
  unfold State.pushTrig
  try dsimp only
  repeat' first
    | with_reducible exact Touches.refl _ _
    | with_reducible assumption
    | ((with_reducible apply Touches.fst); · assumption)
    | ((with_reducible apply Touches.snd); · assumption)
    | with_reducible apply Touches.ite
    | (with_reducible apply Touches.foldl; on_goal 1 => intro _ _ _)
    | ((with_reducible apply Touches.step (State.setCore_touches ..)); · rfl)
    | split
    | exact fun _ => wrap64_lt _
    | exact id
    | dsimp only

theorem State.trigArrives_touches (s : State) (c : Nat) :
    Touches [.flags, .counts, .flagAt, .recent, .ev, .queues, .cores, .mem] s (State.trigArrives s c) := by
  unfold State.trigArrives
  try dsimp only
  repeat' first
    | with_reducible exact Touches.refl _ _
    | with_reducible assumption
    | ((with_reducible apply Touches.fst); · assumption)
    | ((with_reducible apply Touches.snd); · assumption)
    | with_reducible apply Touches.ite
    | (with_reducible apply Touches.foldl; on_goal 1 => intro _ _ _)
    | ((with_reducible apply Touches.step (State.setCore_touches ..)); · rfl)
    | ((with_reducible apply Touches.step (State.raise_touches ..)); · rfl)
    | ((with_reducible apply Touches.step (State.bump_touches ..)); · rfl)
    | split
    | exact fun _ => wrap64_lt _
    | exact id
    | dsimp only

theorem State.frameAdd_touches (s : State) (c w t : Nat) :
    Touches [.regs, .frameLog, .rtones] s (State.frameAdd s c w t) := by
  unfold State.frameAdd
  try dsimp only
  repeat' first
    | with_reducible exact Touches.refl _ _
    | with_reducible assumption
    | ((with_reducible apply Touches.fst); · assumption)
    | ((with_reducible apply Touches.snd); · assumption)
    | with_reducible apply Touches.ite
    | (with_reducible apply Touches.foldl; on_goal 1 => intro _ _ _)
    | ((with_reducible apply Touches.step (State.notePhases_touches ..)); · rfl)
    | ((with_reducible apply Touches.step (State.frameOp_touches ..)); · rfl)
    | split
    | exact fun _ => wrap64_lt _
    | exact id
    | dsimp only

theorem State.sampleDefer_touches (s : State) (c : Nat) (g : SegEnd) :
    Touches [.regs, .frameLog, .flags, .counts, .flagAt, .recent, .ev, .queues, .strands, .cores, .units, .outs, .inps, .rtones, .mem] s (State.sampleDefer s c g) := by
  unfold State.sampleDefer
  try dsimp only
  repeat' first
    | with_reducible exact Touches.refl _ _
    | with_reducible assumption
    | ((with_reducible apply Touches.fst); · assumption)
    | ((with_reducible apply Touches.snd); · assumption)
    | with_reducible apply Touches.ite
    | (with_reducible apply Touches.foldl; on_goal 1 => intro _ _ _)
    | ((with_reducible apply Touches.step (State.setCore_touches ..)); · rfl)
    | ((with_reducible apply Touches.step (State.coreFault_touches ..)); · rfl)
    | ((with_reducible apply Touches.step (State.endShots_touches ..)); · rfl)
    | ((with_reducible apply Touches.step (State.frameAdd_touches ..)); · rfl)
    | split
    | exact fun _ => wrap64_lt _
    | exact id
    | dsimp only

theorem State.cutDefer_touches (s : State) (k u start t : Nat) :
    Touches [.cores] s (State.cutDefer s k u start t) := by
  unfold State.cutDefer
  try dsimp only
  repeat' first
    | with_reducible exact Touches.refl _ _
    | with_reducible assumption
    | ((with_reducible apply Touches.fst); · assumption)
    | ((with_reducible apply Touches.snd); · assumption)
    | with_reducible apply Touches.ite
    | (with_reducible apply Touches.foldl; on_goal 1 => intro _ _ _)
    | ((with_reducible apply Touches.step (State.mapCores_touches ..)); · rfl)
    | split
    | exact fun _ => wrap64_lt _
    | exact id
    | dsimp only

theorem State.settleOuts_touches (s : State) (t : Nat) :
    Touches [.flags, .counts, .flagAt, .recent, .ev, .queues, .cores, .units, .outs, .mem] s (State.settleOuts s t) := by
  unfold State.settleOuts
  try dsimp only
  repeat' first
    | with_reducible exact Touches.refl _ _
    | with_reducible assumption
    | ((with_reducible apply Touches.fst); · assumption)
    | ((with_reducible apply Touches.snd); · assumption)
    | with_reducible apply Touches.ite
    | (with_reducible apply Touches.foldl; on_goal 1 => intro _ _ _)
    | ((with_reducible apply Touches.step (State.settleRf_touches ..)); · rfl)
    | ((with_reducible apply Touches.step (State.settleChain_touches ..)); · rfl)
    | split
    | exact fun _ => wrap64_lt _
    | exact id
    | dsimp only

theorem State.framesDue_touches (s : State) (t : Nat) :
    Touches [.regs, .frameW, .frameLog, .rtones] s (State.framesDue s t) := by
  unfold State.framesDue
  try dsimp only
  repeat' first
    | with_reducible exact Touches.refl _ _
    | with_reducible assumption
    | ((with_reducible apply Touches.fst); · assumption)
    | ((with_reducible apply Touches.snd); · assumption)
    | with_reducible apply Touches.ite
    | (with_reducible apply Touches.foldl; on_goal 1 => intro _ _ _)
    | ((with_reducible apply Touches.step (State.notePhases_touches ..)); · rfl)
    | ((with_reducible apply Touches.step (State.settleFrames_touches ..)); · rfl)
    | split
    | exact fun _ => wrap64_lt _
    | exact id
    | dsimp only

theorem State.doDue_touches (s : State) (t : Nat) (d : Due) :
    Touches [.now, .regs, .frameW, .frameLog, .flags, .counts, .flagAt, .recent, .ev, .queues, .strands, .cores, .units, .outs, .inps, .rtones, .mem] s (State.doDue s t d) := by
  unfold State.doDue
  try dsimp only
  repeat' first
    | with_reducible exact Touches.refl _ _
    | with_reducible assumption
    | ((with_reducible apply Touches.fst); · assumption)
    | ((with_reducible apply Touches.snd); · assumption)
    | with_reducible apply Touches.ite
    | (with_reducible apply Touches.foldl; on_goal 1 => intro _ _ _)
    | ((with_reducible apply Touches.step (State.settleOuts_touches ..)); · rfl)
    | ((with_reducible apply Touches.step (State.clockTo_touches ..)); · rfl)
    | ((with_reducible apply Touches.step (State.judge_touches ..)); · rfl)
    | ((with_reducible apply Touches.step (State.checkWins_touches ..)); · rfl)
    | ((with_reducible apply Touches.step (State.staticArrives_touches ..)); · rfl)
    | ((with_reducible apply Touches.step (State.framesDue_touches ..)); · rfl)
    | ((with_reducible apply Touches.step (State.trigArrives_touches ..)); · rfl)
    | ((with_reducible apply Touches.step (State.sampleDefer_touches ..)); · rfl)
    | ((with_reducible apply Touches.step (State.stopNow_touches ..)); · rfl)
    | split
    | exact fun _ => wrap64_lt _
    | exact id
    | dsimp only

theorem State.settle_touches (lim : State → Until) (n : Nat) (s : State) : Touches [.now, .regs, .frameW, .frameLog, .flags, .counts, .flagAt, .recent, .ev, .queues, .strands, .cores, .units, .outs, .inps, .rtones, .mem] s (s.settle lim n) := by
  induction n generalizing s with
  | zero => exact Touches.refl _ _
  | succ n ih =>
    unfold State.settle
    split
    · exact Touches.refl _ _
    · exact Touches.ite (Touches.step (ih _) rfl (Touches.step (State.doDue_touches ..) rfl (Touches.refl _ _))) (Touches.refl _ _)

/-- What is carried out as it falls due changes these parts of the state alone. -/
theorem Settled.touches {s a : State} (h : Settled s a) : Touches [.now, .regs, .frameW, .frameLog, .flags, .counts, .flagAt, .recent, .ev, .queues, .strands, .cores, .units, .outs, .inps, .rtones, .mem] s a := by
  induction h with
  | refl => exact Touches.refl _ _
  | due h hx ih => exact Touches.step (State.doDue_touches ..) rfl ih
  | outs t h ih => exact Touches.step (State.settleOuts_touches ..) rfl ih

/-- Settling carries out what is due. -/
theorem State.settle_settled {r s : State} {lim : State → Until} (n : Nat) (h : Settled r s) : Settled r (s.settle lim n) := by
  induction n generalizing s with
  | zero => exact h
  | succ n ih =>
    unfold State.settle
    split
    · exact h
    · rename_i x hx
      split
      · exact ih (.due h hx)
      · exact h

theorem State.due_touches (s : State) (t : Nat) :
    Touches [.now, .regs, .frameW, .frameLog, .flags, .counts, .flagAt, .recent, .ev, .queues, .strands, .cores, .units, .outs, .inps, .rtones, .mem] s (State.due s t) := by
  unfold State.due
  try dsimp only
  repeat' first
    | with_reducible exact Touches.refl _ _
    | with_reducible assumption
    | ((with_reducible apply Touches.fst); · assumption)
    | ((with_reducible apply Touches.snd); · assumption)
    | with_reducible apply Touches.ite
    | (with_reducible apply Touches.foldl; on_goal 1 => intro _ _ _)
    | ((with_reducible apply Touches.step (State.settle_touches ..)); · rfl)
    | split
    | exact fun _ => wrap64_lt _
    | exact id
    | dsimp only

theorem State.due_settled {r s : State} {t : Nat} (h : Settled r s) : Settled r (s.due t) := State.settle_settled _ h

theorem State.upTo_touches (s : State) (t : BitVec 64) :
    Touches [.now, .regs, .frameW, .frameLog, .flags, .counts, .flagAt, .recent, .ev, .queues, .strands, .cores, .units, .outs, .inps, .rtones, .mem] s (State.upTo s t) := by
  unfold State.upTo
  try dsimp only
  repeat' first
    | with_reducible exact Touches.refl _ _
    | with_reducible assumption
    | ((with_reducible apply Touches.fst); · assumption)
    | ((with_reducible apply Touches.snd); · assumption)
    | with_reducible apply Touches.ite
    | (with_reducible apply Touches.foldl; on_goal 1 => intro _ _ _)
    | ((with_reducible apply Touches.step (State.at_touches ..)); · rfl)
    | ((with_reducible apply Touches.step (State.settleOuts_touches ..)); · rfl)
    | ((with_reducible apply Touches.step (State.due_touches ..)); · rfl)
    | split
    | exact fun _ => wrap64_lt _
    | exact id
    | dsimp only

theorem State.upTo_based {l : List Part} {r s : State} {t : BitVec 64} (hl : l.contains .now = true) (h : Settled r s) :
    Based l r (s.upTo t) :=
  Based.step (State.at_touches ..) (by simpa using hl) (Based.of_settled (.outs _ (State.due_settled h)))

theorem State.toTime_touches (s : State) (t : Nat) :
    Touches [.now, .regs, .frameW, .frameLog, .flags, .counts, .flagAt, .recent, .ev, .queues, .strands, .cores, .units, .outs, .inps, .rtones, .mem] s (State.toTime s t) := by
  unfold State.toTime
  try dsimp only
  repeat' first
    | with_reducible exact Touches.refl _ _
    | with_reducible assumption
    | ((with_reducible apply Touches.fst); · assumption)
    | ((with_reducible apply Touches.snd); · assumption)
    | with_reducible apply Touches.ite
    | (with_reducible apply Touches.foldl; on_goal 1 => intro _ _ _)
    | ((with_reducible apply Touches.step (State.clockTo_touches ..)); · rfl)
    | ((with_reducible apply Touches.step (State.settleOuts_touches ..)); · rfl)
    | ((with_reducible apply Touches.step (State.due_touches ..)); · rfl)
    | split
    | exact fun _ => wrap64_lt _
    | exact id
    | dsimp only

theorem State.toTime_based {l : List Part} {r s : State} {t : Nat} (hl : l.contains .now = true) (h : Settled r s) :
    Based l r (s.toTime t) :=
  Based.step (State.clockTo_touches ..) (by simpa using hl) (Based.of_settled (.outs _ (State.due_settled h)))

theorem State.hubWrite_closed {l : List Part} {P : State → Prop} (hP : Closed l P) {s : State} {t : BitVec 64}
    {f : State → State} (hl : l.contains .now = true) (hf : ∀ a, P a → P (f a)) (h : P s) : P (s.hubWrite t f) := by
  have ha : P (s.at t) := hP (State.at_touches ..) (by simpa using hl) h
  unfold State.hubWrite
  dsimp only
  split
  · exact hf _ ha
  · exact ha

theorem State.blockWrite_based {l : List Part} {r s : State} {t : BitVec 64} {x : RegId} {f : State → State}
    (hl : l.contains .now = true) (hf : ∀ a, Based l r a → Based l r (f a)) (h : Settled r s) :
    Based l r (s.blockWrite t x f) := by
  have ha : Based l r (s.upTo t) := State.upTo_based hl h
  unfold State.blockWrite
  exact Based.ite (hf _ ha) ha

end Sys2Proof.Machine
end

