-- ==== Sys2Proof/Laws/TouchCalCore.lean ====
section
/-! SUPPORT. The parts of the state that each operation of Machine/CalCore.lean can change. -/

namespace Sys2Proof.Machine

open Sys2Proof

theorem State.setConv_touches (s : State) (x : Nat) (v : Conv) :
    Touches [.convs] s (State.setConv s x v) := by
  unfold State.setConv
  try dsimp only
  repeat' first
    | with_reducible exact Touches.refl _ _
    | with_reducible assumption
    | ((with_reducible apply Touches.fst); · assumption)
    | ((with_reducible apply Touches.snd); · assumption)
    | with_reducible apply Touches.ite
    | (with_reducible apply Touches.foldl; on_goal 1 => intro _ _ _)
    | ((with_reducible apply Touches.upd_convs); · rfl)
    | split
    | exact fun _ => wrap64_lt _
    | exact id
    | dsimp only

theorem State.setEngine_touches (s : State) (p : Nat) (v : Engine) :
    Touches [.engines] s (State.setEngine s p v) := by
  unfold State.setEngine
  try dsimp only
  repeat' first
    | with_reducible exact Touches.refl _ _
    | with_reducible assumption
    | ((with_reducible apply Touches.fst); · assumption)
    | ((with_reducible apply Touches.snd); · assumption)
    | with_reducible apply Touches.ite
    | (with_reducible apply Touches.foldl; on_goal 1 => intro _ _ _)
    | ((with_reducible apply Touches.upd_engines); · rfl)
    | split
    | exact fun _ => wrap64_lt _
    | exact id
    | dsimp only

theorem State.makeDue_touches (s : State) (x t : Nat) :
    Touches [.convs] s (State.makeDue s x t) := by
  unfold State.makeDue
  try dsimp only
  repeat' first
    | with_reducible exact Touches.refl _ _
    | with_reducible assumption
    | ((with_reducible apply Touches.fst); · assumption)
    | ((with_reducible apply Touches.snd); · assumption)
    | with_reducible apply Touches.ite
    | (with_reducible apply Touches.foldl; on_goal 1 => intro _ _ _)
    | ((with_reducible apply Touches.step (State.setConv_touches ..)); · rfl)
    | split
    | exact fun _ => wrap64_lt _
    | exact id
    | dsimp only

theorem State.dueIfOld_touches (s : State) (x t : Nat) :
    Touches [.convs] s (State.dueIfOld s x t) := by
  unfold State.dueIfOld
  try dsimp only
  repeat' first
    | with_reducible exact Touches.refl _ _
    | with_reducible assumption
    | ((with_reducible apply Touches.fst); · assumption)
    | ((with_reducible apply Touches.snd); · assumption)
    | with_reducible apply Touches.ite
    | (with_reducible apply Touches.foldl; on_goal 1 => intro _ _ _)
    | ((with_reducible apply Touches.step (State.makeDue_touches ..)); · rfl)
    | split
    | exact fun _ => wrap64_lt _
    | exact id
    | dsimp only

theorem State.arm_touches (s : State) (c : Nat) :
    Touches [.flags, .counts, .flagAt, .recent, .ev, .queues, .cores, .units, .rtones, .mem] s (State.arm s c) := by
  unfold State.arm
  try dsimp only
  repeat' first
    | with_reducible exact Touches.refl _ _
    | with_reducible assumption
    | ((with_reducible apply Touches.fst); · assumption)
    | ((with_reducible apply Touches.snd); · assumption)
    | with_reducible apply Touches.ite
    | (with_reducible apply Touches.foldl; on_goal 1 => intro _ _ _)
    | ((with_reducible apply Touches.step (State.unbind_touches ..)); · rfl)
    | ((with_reducible apply Touches.step (State.setCore_touches ..)); · rfl)
    | ((with_reducible apply Touches.step (State.setQueue_touches ..)); · rfl)
    | ((with_reducible apply Touches.step (State.raise_touches ..)); · rfl)
    | ((with_reducible apply Touches.step (State.setPunit_touches ..)); · rfl)
    | ((with_reducible apply Touches.step (State.setRtone_touches ..)); · rfl)
    | ((with_reducible apply Touches.step (State.notePhases_touches ..)); · rfl)
    | split
    | exact fun _ => wrap64_lt _
    | exact id
    | dsimp only

theorem State.releaseArms_touches (s : State) (k : Nat) :
    Touches [.flags, .counts, .flagAt, .recent, .ev, .queues, .cores, .units, .rtones, .mem] s (State.releaseArms s k) := by
  unfold State.releaseArms
  try dsimp only
  repeat' first
    | with_reducible exact Touches.refl _ _
    | with_reducible assumption
    | ((with_reducible apply Touches.fst); · assumption)
    | ((with_reducible apply Touches.snd); · assumption)
    | with_reducible apply Touches.ite
    | (with_reducible apply Touches.foldl; on_goal 1 => intro _ _ _)
    | ((with_reducible apply Touches.step (State.arm_touches ..)); · rfl)
    | ((with_reducible apply Touches.step (State.setCore_touches ..)); · rfl)
    | split
    | exact fun _ => wrap64_lt _
    | exact id
    | dsimp only

theorem State.leaveStep_touches (s : State) (x t : Nat) :
    Touches [.flags, .counts, .flagAt, .recent, .ev, .queues, .cores, .units, .outs, .inps, .rtones, .convs, .engines, .mem] s (State.leaveStep s x t) := by
  unfold State.leaveStep
  try dsimp only
  repeat' first
    | with_reducible exact Touches.refl _ _
    | with_reducible assumption
    | ((with_reducible apply Touches.fst); · assumption)
    | ((with_reducible apply Touches.snd); · assumption)
    | with_reducible apply Touches.ite
    | (with_reducible apply Touches.foldl; on_goal 1 => intro _ _ _)
    | ((with_reducible apply Touches.step (State.setConv_touches ..)); · rfl)
    | ((with_reducible apply Touches.step (State.setEngine_touches ..)); · rfl)
    | ((with_reducible apply Touches.step (State.settleChain_touches ..)); · rfl)
    | ((with_reducible apply Touches.step (State.setOut_touches ..)); · rfl)
    | ((with_reducible apply Touches.step (State.setInp_touches ..)); · rfl)
    | ((with_reducible apply Touches.step (State.releaseArms_touches ..)); · rfl)
    | split
    | exact fun _ => wrap64_lt _
    | exact id
    | dsimp only

theorem State.calAbort_touches (s : State) (x : Nat) :
    Touches [.flags, .counts, .flagAt, .recent, .ev, .queues, .cores, .units, .outs, .inps, .rtones, .convs, .engines, .mem] s (State.calAbort s x) := by
  unfold State.calAbort
  try dsimp only
  repeat' first
    | with_reducible exact Touches.refl _ _
    | with_reducible assumption
    | ((with_reducible apply Touches.fst); · assumption)
    | ((with_reducible apply Touches.snd); · assumption)
    | with_reducible apply Touches.ite
    | (with_reducible apply Touches.foldl; on_goal 1 => intro _ _ _)
    | ((with_reducible apply Touches.step (State.leaveStep_touches ..)); · rfl)
    | split
    | exact fun _ => wrap64_lt _
    | exact id
    | dsimp only

theorem State.calAbortIf_touches (s : State) (f : Nat → Bool) :
    Touches [.flags, .counts, .flagAt, .recent, .ev, .queues, .cores, .units, .outs, .inps, .rtones, .convs, .engines, .mem] s (State.calAbortIf s f) := by
  unfold State.calAbortIf
  try dsimp only
  repeat' first
    | with_reducible exact Touches.refl _ _
    | with_reducible assumption
    | ((with_reducible apply Touches.fst); · assumption)
    | ((with_reducible apply Touches.snd); · assumption)
    | with_reducible apply Touches.ite
    | (with_reducible apply Touches.foldl; on_goal 1 => intro _ _ _)
    | ((with_reducible apply Touches.step (State.calAbort_touches ..)); · rfl)
    | split
    | exact fun _ => wrap64_lt _
    | exact id
    | dsimp only

theorem State.clearWins_touches (s : State) (k : Nat) :
    Touches [.queues, .cores, .inps, .rtones] s (State.clearWins s k) := by
  unfold State.clearWins
  try dsimp only
  repeat' first
    | with_reducible exact Touches.refl _ _
    | with_reducible assumption
    | ((with_reducible apply Touches.fst); · assumption)
    | ((with_reducible apply Touches.snd); · assumption)
    | with_reducible apply Touches.ite
    | (with_reducible apply Touches.foldl; on_goal 1 => intro _ _ _)
    | ((with_reducible apply Touches.step (State.mapCores_touches ..)); · rfl)
    | ((with_reducible apply Touches.upd_queues_inps_rtones); · rfl)
    | split
    | exact fun _ => wrap64_lt _
    | exact id
    | dsimp only

end Sys2Proof.Machine
end

