-- ==== Sys2Proof/Laws/TouchStrands.lean ====
section
/-! SUPPORT. The parts of the state that each operation of Machine/Strands.lean can change. -/

namespace Sys2Proof.Machine

open Sys2Proof

theorem State.startPly_touches (s : State) (p : Nat) :
    Touches [.flags, .counts, .flagAt, .recent, .ev, .queues, .plies, .mem] s (State.startPly s p) := by
  unfold State.startPly
  try dsimp only
  repeat' first
    | with_reducible exact Touches.refl _ _
    | with_reducible assumption
    | ((with_reducible apply Touches.fst); · assumption)
    | ((with_reducible apply Touches.snd); · assumption)
    | with_reducible apply Touches.ite
    | (with_reducible apply Touches.foldl; on_goal 1 => intro _ _ _)
    | ((with_reducible apply Touches.step (State.setPly_touches ..)); · rfl)
    | ((with_reducible apply Touches.step (State.raise_touches ..)); · rfl)
    | split
    | exact fun _ => wrap64_lt _
    | exact id
    | dsimp only

theorem State.ungate_touches (s : State) (k : Nat) :
    Touches [.flags, .counts, .flagAt, .recent, .ev, .queues, .plies, .strands, .mem] s (State.ungate s k) := by
  unfold State.ungate
  try dsimp only
  repeat' first
    | with_reducible exact Touches.refl _ _
    | with_reducible assumption
    | ((with_reducible apply Touches.fst); · assumption)
    | ((with_reducible apply Touches.snd); · assumption)
    | with_reducible apply Touches.ite
    | (with_reducible apply Touches.foldl; on_goal 1 => intro _ _ _)
    | ((with_reducible apply Touches.step (State.setStrand_touches ..)); · rfl)
    | ((with_reducible apply Touches.step (State.startPly_touches ..)); · rfl)
    | split
    | exact fun _ => wrap64_lt _
    | exact id
    | dsimp only

theorem State.busyPly_touches (s : State) (p : Nat) :
    Touches [.plies] s (State.busyPly s p) := by
  unfold State.busyPly
  try dsimp only
  repeat' first
    | with_reducible exact Touches.refl _ _
    | with_reducible assumption
    | ((with_reducible apply Touches.fst); · assumption)
    | ((with_reducible apply Touches.snd); · assumption)
    | with_reducible apply Touches.ite
    | (with_reducible apply Touches.foldl; on_goal 1 => intro _ _ _)
    | ((with_reducible apply Touches.step (State.setPly_touches ..)); · rfl)
    | split
    | exact fun _ => wrap64_lt _
    | exact id
    | dsimp only

theorem State.wantStrand_touches (s0 : State) (k : Nat) :
    Touches [.flags, .counts, .flagAt, .recent, .ev, .queues, .plies, .strands, .mem] s0 (State.wantStrand s0 k) := by
  unfold State.wantStrand
  try dsimp only
  repeat' first
    | with_reducible exact Touches.refl _ _
    | with_reducible assumption
    | ((with_reducible apply Touches.fst); · assumption)
    | ((with_reducible apply Touches.snd); · assumption)
    | with_reducible apply Touches.ite
    | (with_reducible apply Touches.foldl; on_goal 1 => intro _ _ _)
    | ((with_reducible apply Touches.step (State.busyPly_touches ..)); · rfl)
    | ((with_reducible apply Touches.step (State.ungate_touches ..)); · rfl)
    | ((with_reducible apply Touches.step (State.raise_touches ..)); · rfl)
    | ((with_reducible apply Touches.step (State.setStrand_touches ..)); · rfl)
    | split
    | exact fun _ => wrap64_lt _
    | exact id
    | dsimp only

theorem State.startGate_touches (s : State) (k : Nat) :
    Touches [.flags, .counts, .flagAt, .recent, .ev, .queues, .strands, .cores, .units, .outs, .inps, .rtones, .dec, .convs, .engines, .mem] s (State.startGate s k) := by
  unfold State.startGate
  try dsimp only
  repeat' first
    | with_reducible exact Touches.refl _ _
    | with_reducible assumption
    | ((with_reducible apply Touches.fst); · assumption)
    | ((with_reducible apply Touches.snd); · assumption)
    | with_reducible apply Touches.ite
    | (with_reducible apply Touches.foldl; on_goal 1 => intro _ _ _)
    | ((with_reducible apply Touches.step (State.calAbortIf_touches ..)); · rfl)
    | ((with_reducible apply Touches.step (State.gateSlots_touches ..)); · rfl)
    | ((with_reducible apply Touches.step (State.setStrand_touches ..)); · rfl)
    | split
    | exact fun _ => wrap64_lt _
    | exact id
    | dsimp only

theorem State.dropStrand_touches (s : State) (k : Nat) :
    Touches [.flags, .counts, .flagAt, .recent, .ev, .queues, .plies, .strands, .cores, .units, .outs, .inps, .rtones, .dec, .convs, .engines, .mem] s (State.dropStrand s k) := by
  unfold State.dropStrand
  try dsimp only
  repeat' first
    | with_reducible exact Touches.refl _ _
    | with_reducible assumption
    | ((with_reducible apply Touches.fst); · assumption)
    | ((with_reducible apply Touches.snd); · assumption)
    | with_reducible apply Touches.ite
    | (with_reducible apply Touches.foldl; on_goal 1 => intro _ _ _)
    | ((with_reducible apply Touches.step (State.startGate_touches ..)); · rfl)
    | ((with_reducible apply Touches.step (State.setStrand_touches ..)); · rfl)
    | ((with_reducible apply Touches.step (State.setPly_touches ..)); · rfl)
    | split
    | exact fun _ => wrap64_lt _
    | exact id
    | dsimp only

theorem State.countIdle_touches (s : State) (p : Nat) :
    Touches [.plies] s (State.countIdle s p) := by
  unfold State.countIdle
  try dsimp only
  repeat' first
    | with_reducible exact Touches.refl _ _
    | with_reducible assumption
    | ((with_reducible apply Touches.fst); · assumption)
    | ((with_reducible apply Touches.snd); · assumption)
    | with_reducible apply Touches.ite
    | (with_reducible apply Touches.foldl; on_goal 1 => intro _ _ _)
    | ((with_reducible apply Touches.step (State.setPly_touches ..)); · rfl)
    | split
    | exact fun _ => wrap64_lt _
    | exact id
    | dsimp only

theorem State.clearCores_touches (s : State) (k : Nat) :
    Touches [.cores] s (State.clearCores s k) := by
  unfold State.clearCores
  try dsimp only
  repeat' first
    | with_reducible exact Touches.refl _ _
    | with_reducible assumption
    | ((with_reducible apply Touches.fst); · assumption)
    | ((with_reducible apply Touches.snd); · assumption)
    | with_reducible apply Touches.ite
    | (with_reducible apply Touches.foldl; on_goal 1 => intro _ _ _)
    | ((with_reducible apply Touches.step (State.mapCores_touches ..)); · rfl)
    | split
    | exact fun _ => wrap64_lt _
    | exact id
    | dsimp only

theorem State.clearSegs_touches (s : State) (k : Nat) :
    Touches [.units] s (State.clearSegs s k) := by
  unfold State.clearSegs
  try dsimp only
  repeat' first
    | with_reducible exact Touches.refl _ _
    | with_reducible assumption
    | ((with_reducible apply Touches.fst); · assumption)
    | ((with_reducible apply Touches.snd); · assumption)
    | with_reducible apply Touches.ite
    | (with_reducible apply Touches.foldl; on_goal 1 => intro _ _ _)
    | ((with_reducible apply Touches.upd_units); · rfl)
    | split
    | exact fun _ => wrap64_lt _
    | exact id
    | dsimp only

theorem State.outEnable_touches (s : State) (k o : Nat) (was on : Bool) :
    Touches [.flags, .counts, .flagAt, .recent, .ev, .queues, .plies, .strands, .cores, .units, .outs, .inps, .rtones, .dec, .convs, .engines, .mem] s (State.outEnable s k o was on) := by
  unfold State.outEnable
  try dsimp only
  repeat' first
    | with_reducible exact Touches.refl _ _
    | with_reducible assumption
    | ((with_reducible apply Touches.fst); · assumption)
    | ((with_reducible apply Touches.snd); · assumption)
    | with_reducible apply Touches.ite
    | (with_reducible apply Touches.foldl; on_goal 1 => intro _ _ _)
    | ((with_reducible apply Touches.step (State.wantStrand_touches ..)); · rfl)
    | ((with_reducible apply Touches.step (State.raise_touches ..)); · rfl)
    | ((with_reducible apply Touches.step (State.setOut_touches ..)); · rfl)
    | ((with_reducible apply Touches.step (State.dropStrand_touches ..)); · rfl)
    | ((with_reducible apply Touches.step (State.calAbort_touches ..)); · rfl)
    | ((with_reducible apply Touches.step (State.goHeld_touches ..)); · rfl)
    | split
    | exact fun _ => wrap64_lt _
    | exact id
    | dsimp only

theorem State.plainEnable_touches (s : State) (k : Nat) (was on : Bool) :
    Touches [.flags, .counts, .flagAt, .recent, .ev, .queues, .plies, .strands, .cores, .units, .outs, .inps, .rtones, .dec, .convs, .engines, .mem] s (State.plainEnable s k was on) := by
  unfold State.plainEnable
  try dsimp only
  repeat' first
    | with_reducible exact Touches.refl _ _
    | with_reducible assumption
    | ((with_reducible apply Touches.fst); · assumption)
    | ((with_reducible apply Touches.snd); · assumption)
    | with_reducible apply Touches.ite
    | (with_reducible apply Touches.foldl; on_goal 1 => intro _ _ _)
    | ((with_reducible apply Touches.step (State.wantStrand_touches ..)); · rfl)
    | ((with_reducible apply Touches.step (State.dropStrand_touches ..)); · rfl)
    | split
    | exact fun _ => wrap64_lt _
    | exact id
    | dsimp only

theorem State.outShutDone_based (s : State) (k o : Nat) :
    Based [.now, .outs] s (State.outShutDone s k o) := by
  unfold State.outShutDone
  try dsimp only
  repeat' first
    | with_reducible exact Based.refl _ _
    | with_reducible assumption
    | with_reducible exact Settled.refl
    | ((with_reducible apply Based.fst); · assumption)
    | ((with_reducible apply Based.snd); · assumption)
    | with_reducible apply Based.ite
    | (with_reducible apply Based.foldl; on_goal 1 => intro _ _ _)
    | ((with_reducible apply State.toTime_based); · rfl)
    | ((with_reducible apply Based.step (State.setOut_touches ..)); · rfl)
    | split
    | exact fun _ => wrap64_lt _
    | exact id
    | dsimp only

theorem execOutputShutdownDone_based (o : OutId) (s : State) :
    ∃ t', execOutputShutdownDone o s = .next t' ∧ Based [.now, .outs] s t' := by
  unfold execOutputShutdownDone
  try dsimp only
  repeat' first
    | refine ⟨_, rfl, ?_⟩
    | with_reducible exact Based.refl _ _
    | with_reducible assumption
    | with_reducible exact Settled.refl
    | ((with_reducible apply Based.fst); · assumption)
    | ((with_reducible apply Based.snd); · assumption)
    | with_reducible apply Based.ite
    | (with_reducible apply Based.foldl; on_goal 1 => intro _ _ _)
    | ((with_reducible apply Based.trans (State.outShutDone_based ..)); · rfl)
    | split
    | exact fun _ => wrap64_lt _
    | exact id
    | dsimp only

theorem State.earlyEnable_touches (s : State) (k : Nat) (r : RegId) (w : Word) :
    Touches [.regs, .flags, .counts, .flagAt, .recent, .ev, .queues, .plies, .strands, .cores, .units, .outs, .inps, .rtones, .dec, .convs, .engines, .mem] s (State.earlyEnable s k r w) := by
  unfold State.earlyEnable
  try dsimp only
  repeat' first
    | with_reducible exact Touches.refl _ _
    | with_reducible assumption
    | ((with_reducible apply Touches.fst); · assumption)
    | ((with_reducible apply Touches.snd); · assumption)
    | with_reducible apply Touches.ite
    | (with_reducible apply Touches.foldl; on_goal 1 => intro _ _ _)
    | ((with_reducible apply Touches.step (State.setFld_touches ..)); · rfl)
    | ((with_reducible apply Touches.step (State.outEnable_touches ..)); · rfl)
    | ((with_reducible apply Touches.step (State.plainEnable_touches ..)); · rfl)
    | split
    | exact fun _ => wrap64_lt _
    | exact id
    | dsimp only

theorem State.earlyCommit_touches (s : State) (r : RegId) (w : Word) :
    Touches [.outs] s (State.earlyCommit s r w) := by
  unfold State.earlyCommit
  try dsimp only
  repeat' first
    | with_reducible exact Touches.refl _ _
    | with_reducible assumption
    | ((with_reducible apply Touches.fst); · assumption)
    | ((with_reducible apply Touches.snd); · assumption)
    | with_reducible apply Touches.ite
    | (with_reducible apply Touches.foldl; on_goal 1 => intro _ _ _)
    | ((with_reducible apply Touches.step (State.copyCoef_touches ..)); · rfl)
    | split
    | exact fun _ => wrap64_lt _
    | exact id
    | dsimp only

theorem State.toStrand_closed {l : List Part} {P : State → Prop} (hP : Closed l P) {s : State} {k : Nat} {x : RegId} {w : Word}
    {f : State → Word → State} (hl : [.regs, .flags, .counts, .flagAt, .recent, .ev, .queues, .plies, .strands, .cores, .units, .outs, .inps, .rtones, .dec, .convs, .engines, .mem].all (l.contains ·) = true)
    (hf : ∀ a v, P a → P (f a v)) (h : P s) : P (s.toStrand k x w f) := by
  have h1 : ∀ v, P (s.setStrand k { s.strand k with heldW := (s.strand k).heldW ++ [v] }) := fun v =>
    hP (State.setStrand_touches ..) (by simp_all) h
  unfold State.toStrand
  dsimp only
  split
  · exact hf _ _ h
  split
  · exact hP (State.earlyEnable_touches ..) (by simp_all) (hP (State.earlyCommit_touches ..) (by simp_all) (h1 _))
  · exact h1 _

theorem State.toTable_closed {l : List Part} {P : State → Prop} (hP : Closed l P) {s : State} {k : Nat} {x : RegId} {w : Word}
    {f : State → Word → State} (hl : [.regs, .flags, .counts, .flagAt, .recent, .ev, .queues, .plies, .strands, .cores, .units, .outs, .inps, .rtones, .dec, .convs, .engines, .mem].all (l.contains ·) = true)
    (hf : ∀ a v, P a → P (f a v)) (h : P s) : P (s.toTable k x w f) := by
  unfold State.toTable
  split
  · exact State.toStrand_closed hP hl hf h
  · exact hf _ _ h

theorem State.strandWrite_based {l : List Part} {r s : State} {t : BitVec 64} {k : Nat} {x : RegId} {w : Word}
    {f : State → Word → State} (hl : [.now, .regs, .flags, .counts, .flagAt, .recent, .ev, .queues, .plies, .strands, .cores, .units, .outs, .inps, .rtones, .dec, .convs, .engines, .mem].all (l.contains ·) = true)
    (hf : ∀ a v, Based l r a → Based l r (f a v)) (h : Settled r s) : Based l r (s.strandWrite t k x w f) := by
  unfold State.strandWrite
  exact State.blockWrite_based (by simp_all) (fun a ha => State.toStrand_closed (Based.closed _ _) (by simp_all) hf ha) h

theorem State.strandGated_based (s : State) (k : Nat) :
    Based [.now, .flags, .counts, .flagAt, .recent, .ev, .queues, .plies, .strands, .cores, .units, .outs, .inps, .rtones, .mem] s (State.strandGated s k) := by
  unfold State.strandGated
  try dsimp only
  repeat' first
    | with_reducible exact Based.refl _ _
    | with_reducible assumption
    | with_reducible exact Settled.refl
    | ((with_reducible apply Based.fst); · assumption)
    | ((with_reducible apply Based.snd); · assumption)
    | with_reducible apply Based.ite
    | (with_reducible apply Based.foldl; on_goal 1 => intro _ _ _)
    | ((with_reducible apply State.toTime_based); · rfl)
    | ((with_reducible apply Based.step (State.clearWins_touches ..)); · rfl)
    | ((with_reducible apply Based.step (State.clearSegs_touches ..)); · rfl)
    | ((with_reducible apply Based.step (State.clearCores_touches ..)); · rfl)
    | ((with_reducible apply Based.step (State.holdStrand_touches ..)); · rfl)
    | ((with_reducible apply Based.step (State.setStrand_touches ..)); · rfl)
    | ((with_reducible apply Based.step (State.ungate_touches ..)); · rfl)
    | ((with_reducible apply Based.step (State.countIdle_touches ..)); · rfl)
    | split
    | exact fun _ => wrap64_lt _
    | exact id
    | dsimp only

theorem execStrandGated_based (k : Fin 32) (s : State) :
    ∃ t', execStrandGated k s = .next t' ∧ Based [.now, .flags, .counts, .flagAt, .recent, .ev, .queues, .plies, .strands, .cores, .units, .outs, .inps, .rtones, .mem] s t' := by
  unfold execStrandGated
  try dsimp only
  repeat' first
    | refine ⟨_, rfl, ?_⟩
    | with_reducible exact Based.refl _ _
    | with_reducible assumption
    | with_reducible exact Settled.refl
    | ((with_reducible apply Based.fst); · assumption)
    | ((with_reducible apply Based.snd); · assumption)
    | with_reducible apply Based.ite
    | (with_reducible apply Based.foldl; on_goal 1 => intro _ _ _)
    | ((with_reducible apply Based.trans (State.strandGated_based ..)); · rfl)
    | split
    | exact fun _ => wrap64_lt _
    | exact id
    | dsimp only

theorem State.wrPlyClk_touches (s : State) (p : Nat) (w : Word) :
    Touches [.regs, .flags, .counts, .flagAt, .recent, .ev, .queues, .plies, .mem] s (State.wrPlyClk s p w) := by
  unfold State.wrPlyClk
  try dsimp only
  repeat' first
    | with_reducible exact Touches.refl _ _
    | with_reducible assumption
    | ((with_reducible apply Touches.fst); · assumption)
    | ((with_reducible apply Touches.snd); · assumption)
    | with_reducible apply Touches.ite
    | (with_reducible apply Touches.foldl; on_goal 1 => intro _ _ _)
    | ((with_reducible apply Touches.step (State.setReg_touches ..)); · rfl)
    | ((with_reducible apply Touches.step (State.startPly_touches ..)); · rfl)
    | ((with_reducible apply Touches.step (State.setPly_touches ..)); · rfl)
    | ((with_reducible apply Touches.step (State.countIdle_touches ..)); · rfl)
    | split
    | exact fun _ => wrap64_lt _
    | exact id
    | dsimp only

theorem execPlyPolicyWrite_based (t : BitVec 64) (p : Fin 4) (w : Word) (s : State) :
    ∃ t', execPlyPolicyWrite t p w s = .next t' ∧ Based [.now, .regs, .flags, .counts, .flagAt, .recent, .ev, .queues, .plies, .mem] s t' := by
  unfold execPlyPolicyWrite
  try dsimp only
  repeat' first
    | refine ⟨_, rfl, ?_⟩
    | with_reducible exact Based.refl _ _
    | with_reducible assumption
    | with_reducible exact Settled.refl
    | ((with_reducible apply Based.fst); · assumption)
    | ((with_reducible apply Based.snd); · assumption)
    | with_reducible apply Based.ite
    | (with_reducible apply Based.foldl; on_goal 1 => intro _ _ _)
    | ((with_reducible apply State.blockWrite_based); (· rfl); on_goal 1 => intro _ _)
    | ((with_reducible apply Based.step (State.wrPlyClk_touches ..)); · rfl)
    | split
    | exact fun _ => wrap64_lt _
    | exact id
    | dsimp only

theorem State.plyLocked_based (s : State) (p : Nat) :
    Based [.now, .flags, .counts, .flagAt, .recent, .ev, .queues, .plies, .strands, .units, .rtones, .mem] s (State.plyLocked s p) := by
  unfold State.plyLocked
  try dsimp only
  repeat' first
    | with_reducible exact Based.refl _ _
    | with_reducible assumption
    | with_reducible exact Settled.refl
    | ((with_reducible apply Based.fst); · assumption)
    | ((with_reducible apply Based.snd); · assumption)
    | with_reducible apply Based.ite
    | (with_reducible apply Based.foldl; on_goal 1 => intro _ _ _)
    | ((with_reducible apply State.toTime_based); · rfl)
    | ((with_reducible apply Based.step (State.bump_touches ..)); · rfl)
    | ((with_reducible apply Based.step (State.setPly_touches ..)); · rfl)
    | ((with_reducible apply Based.step (State.notePhases_touches ..)); · rfl)
    | ((with_reducible apply Based.step (State.reloadUnits_touches ..)); · rfl)
    | ((with_reducible apply Based.step (State.ungate_touches ..)); · rfl)
    | ((with_reducible apply Based.step (State.countIdle_touches ..)); · rfl)
    | split
    | exact fun _ => wrap64_lt _
    | exact id
    | dsimp only

theorem execPlyLocked_based (p : Fin 4) (s : State) :
    ∃ t', execPlyLocked p s = .next t' ∧ Based [.now, .flags, .counts, .flagAt, .recent, .ev, .queues, .plies, .strands, .units, .rtones, .mem] s t' := by
  unfold execPlyLocked
  try dsimp only
  repeat' first
    | refine ⟨_, rfl, ?_⟩
    | with_reducible exact Based.refl _ _
    | with_reducible assumption
    | with_reducible exact Settled.refl
    | ((with_reducible apply Based.fst); · assumption)
    | ((with_reducible apply Based.snd); · assumption)
    | with_reducible apply Based.ite
    | (with_reducible apply Based.foldl; on_goal 1 => intro _ _ _)
    | ((with_reducible apply Based.trans (State.plyLocked_based ..)); · rfl)
    | split
    | exact fun _ => wrap64_lt _
    | exact id
    | dsimp only

theorem State.plyStopped_touches (s : State) (p : Nat) :
    Touches [.now, .flags, .counts, .flagAt, .recent, .ev, .queues, .plies, .mem] s (State.plyStopped s p) := by
  unfold State.plyStopped
  try dsimp only
  repeat' first
    | with_reducible exact Touches.refl _ _
    | with_reducible assumption
    | ((with_reducible apply Touches.fst); · assumption)
    | ((with_reducible apply Touches.snd); · assumption)
    | with_reducible apply Touches.ite
    | (with_reducible apply Touches.foldl; on_goal 1 => intro _ _ _)
    | ((with_reducible apply Touches.step (State.clockTo_touches ..)); · rfl)
    | ((with_reducible apply Touches.step (State.setPly_touches ..)); · rfl)
    | ((with_reducible apply Touches.step (State.startPly_touches ..)); · rfl)
    | split
    | exact fun _ => wrap64_lt _
    | exact id
    | dsimp only

theorem execPlyStopped_touches (p : Fin 4) (s : State) :
    ∃ t', execPlyStopped p s = .next t' ∧ Touches [.now, .flags, .counts, .flagAt, .recent, .ev, .queues, .plies, .mem] s t' := by
  unfold execPlyStopped
  try dsimp only
  repeat' first
    | refine ⟨_, rfl, ?_⟩
    | with_reducible exact Touches.refl _ _
    | with_reducible assumption
    | ((with_reducible apply Touches.fst); · assumption)
    | ((with_reducible apply Touches.snd); · assumption)
    | with_reducible apply Touches.ite
    | (with_reducible apply Touches.foldl; on_goal 1 => intro _ _ _)
    | ((with_reducible apply Touches.step (State.plyStopped_touches ..)); · rfl)
    | split
    | exact fun _ => wrap64_lt _
    | exact id
    | dsimp only

theorem State.idleNow_touches (s : State) (p : Nat) :
    Touches [.plies] s (State.idleNow s p) := by
  unfold State.idleNow
  try dsimp only
  repeat' first
    | with_reducible exact Touches.refl _ _
    | with_reducible assumption
    | ((with_reducible apply Touches.fst); · assumption)
    | ((with_reducible apply Touches.snd); · assumption)
    | with_reducible apply Touches.ite
    | (with_reducible apply Touches.foldl; on_goal 1 => intro _ _ _)
    | ((with_reducible apply Touches.step (State.setPly_touches ..)); · rfl)
    | split
    | exact fun _ => wrap64_lt _
    | exact id
    | dsimp only

theorem State.applyPolicies_touches (s : State) :
    Touches [.flags, .counts, .flagAt, .recent, .ev, .queues, .plies, .strands, .mem] s (State.applyPolicies s) := by
  unfold State.applyPolicies
  try dsimp only
  repeat' first
    | with_reducible exact Touches.refl _ _
    | with_reducible assumption
    | ((with_reducible apply Touches.fst); · assumption)
    | ((with_reducible apply Touches.snd); · assumption)
    | with_reducible apply Touches.ite
    | (with_reducible apply Touches.foldl; on_goal 1 => intro _ _ _)
    | ((with_reducible apply Touches.step (State.startPly_touches ..)); · rfl)
    | ((with_reducible apply Touches.step (State.wantStrand_touches ..)); · rfl)
    | ((with_reducible apply Touches.step (State.idleNow_touches ..)); · rfl)
    | split
    | exact fun _ => wrap64_lt _
    | exact id
    | dsimp only

end Sys2Proof.Machine
end

