-- ==== Sys2Proof/Laws/TouchSeqCore.lean ====
section
/-! SUPPORT. The parts of the state that each operation of Machine/SeqCore.lean can change. -/

namespace Sys2Proof.Machine

open Sys2Proof

theorem State.readyFor_touches (s : State) (c : Nat) :
    Touches [.now, .regs, .frameW, .frameLog, .flags, .counts, .flagAt, .recent, .ev, .queues, .strands, .cores, .units, .outs, .inps, .rtones, .mem] s (State.readyFor s c) := by
  unfold State.readyFor
  try dsimp only
  repeat' first
    | with_reducible exact Touches.refl _ _
    | with_reducible assumption
    | ((with_reducible apply Touches.fst); · assumption)
    | ((with_reducible apply Touches.snd); · assumption)
    | with_reducible apply Touches.ite
    | (with_reducible apply Touches.foldl; on_goal 1 => intro _ _ _)
    | ((with_reducible apply Touches.step (State.settle_touches ..)); · rfl)
    | ((with_reducible apply Touches.step (State.settleOuts_touches ..)); · rfl)
    | split
    | exact fun _ => wrap64_lt _
    | exact id
    | dsimp only

theorem State.readyFor_settled {r s : State} {c : Nat} (h : Settled r s) : Settled r (s.readyFor c) :=
  .outs _ (State.settle_settled _ h)

theorem State.begin_touches (s : State) (c : Nat) (ps : List Packet) (w : Nat) (tm : Tim) :
    Touches [.now, .flags, .counts, .flagAt, .recent, .ev, .queues, .cores, .mem] s (State.begin s c ps w tm) := by
  unfold State.begin
  try dsimp only
  repeat' first
    | with_reducible exact Touches.refl _ _
    | with_reducible assumption
    | ((with_reducible apply Touches.fst); · assumption)
    | ((with_reducible apply Touches.snd); · assumption)
    | with_reducible apply Touches.ite
    | (with_reducible apply Touches.foldl; on_goal 1 => intro _ _ _)
    | ((with_reducible apply Touches.step (State.clockTo_touches ..)); · rfl)
    | ((with_reducible apply Touches.step (State.setCore_touches ..)); · rfl)
    | ((with_reducible apply Touches.step (State.setQueue_touches ..)); · rfl)
    | ((with_reducible apply Touches.step (State.invalid_touches ..)); · rfl)
    | ((with_reducible apply Touches.step (State.raise_touches ..)); · rfl)
    | split
    | exact fun _ => wrap64_lt _
    | exact id
    | dsimp only

theorem State.runWord_based {l : List Part} {r s : State} {c op : Nat} {fx : State → Nat → Tim → State}
    (hl : [.now, .regs, .frameLog, .flags, .counts, .flagAt, .recent, .ev, .queues, .strands, .cores, .units, .outs, .inps, .rtones, .mem].all (l.contains ·) = true)
    (hf : ∀ a w tm, Based l r a → Based l r (fx a w tm)) (h : Settled r s) : Based l r (s.runWord c op fx) := by
  have h0 : Based l r (s.readyFor c) := Based.of_settled (State.readyFor_settled h)
  have h1 : ∀ n, Based l r ((s.readyFor c).clockTo n) := fun n => Based.step (State.clockTo_touches ..) (by simp_all) h0
  have hs : Based l r s := Based.of_settled h
  have hc : ∀ a e n t, Based l r a → Based l r (State.coreFault a e n t) := fun a e n t ha =>
    Based.step (State.coreFault_touches ..) (by simp_all) ha
  unfold State.runWord
  dsimp only
  refine Based.ite h0 ?_
  split
  · exact hs
  · exact Based.ite (hc _ _ _ _ (Based.step (State.sramUe_touches ..) (by simp_all) (h1 _))) hs
  · refine Based.ite hs (Based.ite (Based.ite (hf _ _ _ (Based.step (State.begin_touches ..) (by simp_all) h0)) hs) ?_)
    exact Based.ite (hc _ _ _ _ (h1 _)) hs

theorem State.runFlow_based {l : List Part} {r s : State} {c op : Nat} {f : Core → Nat → Nat → Option Core}
    {after : State → Core → Nat → Nat → State} (hl : [.now, .regs, .frameLog, .flags, .counts, .flagAt, .recent, .ev, .queues, .strands, .cores, .units, .outs, .inps, .rtones, .mem].all (l.contains ·) = true)
    (hf : ∀ a x w t, Based l r a → Based l r (after a x w t)) (h : Settled r s) :
    Based l r (s.runFlow c op f after) := by
  unfold State.runFlow
  refine State.runWord_based (by simp_all) (fun a w tm ha => ?_) h
  split
  · exact Based.step (State.coreFault_touches ..) (by simp_all) ha
  · exact hf _ _ _ _ (Based.step (State.setCore_touches ..) (by simp_all) ha)

theorem State.strandReset_touches (s : State) (k : Nat) :
    Touches [.flags, .counts, .flagAt, .recent, .ev, .queues, .strands, .cores, .units, .outs, .inps, .rtones, .convs, .engines, .mem] s (State.strandReset s k) := by
  unfold State.strandReset
  try dsimp only
  repeat' first
    | with_reducible exact Touches.refl _ _
    | with_reducible assumption
    | ((with_reducible apply Touches.fst); · assumption)
    | ((with_reducible apply Touches.snd); · assumption)
    | with_reducible apply Touches.ite
    | (with_reducible apply Touches.foldl; on_goal 1 => intro _ _ _)
    | ((with_reducible apply Touches.step (State.calAbortIf_touches ..)); · rfl)
    | ((with_reducible apply Touches.step (State.endAllShots_touches ..)); · rfl)
    | ((with_reducible apply Touches.step (State.flushCores_touches ..)); · rfl)
    | ((with_reducible apply Touches.step (State.clearWins_touches ..)); · rfl)
    | ((with_reducible apply Touches.step (State.clearSegs_touches ..)); · rfl)
    | ((with_reducible apply Touches.step (State.clearCores_touches ..)); · rfl)
    | ((with_reducible apply Touches.step (State.holdStrand_touches ..)); · rfl)
    | ((with_reducible apply Touches.step (State.setStrand_touches ..)); · rfl)
    | split
    | exact fun _ => wrap64_lt _
    | exact id
    | dsimp only

theorem State.wrStrCtl_touches (s : State) (k : Nat) (w : Word) :
    Touches [.flags, .counts, .flagAt, .recent, .ev, .queues, .strands, .cores, .units, .outs, .inps, .rtones, .convs, .engines, .mem] s (State.wrStrCtl s k w) := by
  unfold State.wrStrCtl
  try dsimp only
  repeat' first
    | with_reducible exact Touches.refl _ _
    | with_reducible assumption
    | ((with_reducible apply Touches.fst); · assumption)
    | ((with_reducible apply Touches.snd); · assumption)
    | with_reducible apply Touches.ite
    | (with_reducible apply Touches.foldl; on_goal 1 => intro _ _ _)
    | ((with_reducible apply Touches.step (State.strandReset_touches ..)); · rfl)
    | split
    | exact fun _ => wrap64_lt _
    | exact id
    | dsimp only

theorem execStrandReset_based (t : BitVec 64) (k : Fin 32) (key : BitVec 8) (s : State) :
    ∃ t', execStrandReset t k key s = .next t' ∧ Based [.now, .flags, .counts, .flagAt, .recent, .ev, .queues, .strands, .cores, .units, .outs, .inps, .rtones, .convs, .engines, .mem] s t' := by
  unfold execStrandReset
  try dsimp only
  repeat' first
    | refine ⟨_, rfl, ?_⟩
    | with_reducible exact Based.refl _ _
    | with_reducible assumption
    | with_reducible exact Settled.refl
    | ((with_reducible apply Based.fst); · assumption)
    | ((with_reducible apply Based.snd); · assumption)
    | with_reducible apply Based.ite
    | (with_reducible apply Based.foldl; on_goal 1 => intro _ _ _)
    | ((with_reducible apply State.blockWrite_based); (· rfl); on_goal 1 => intro _ _)
    | ((with_reducible apply Based.step (State.wrStrCtl_touches ..)); · rfl)
    | split
    | exact fun _ => wrap64_lt _
    | exact id
    | dsimp only

end Sys2Proof.Machine
end

