-- ==== Sys2Proof/Laws/TouchSequencer.lean ====
section
/-! SUPPORT. The parts of the state that each operation of Machine/Sequencer.lean can change. -/

namespace Sys2Proof.Machine

open Sys2Proof

theorem State.armWrite_touches (s : State) (c : Nat) :
    Touches [.flags, .counts, .flagAt, .recent, .ev, .queues, .cores, .units, .rtones, .mem] s (State.armWrite s c) := by
  unfold State.armWrite
  try dsimp only
  repeat' first
    | with_reducible exact Touches.refl _ _
    | with_reducible assumption
    | ((with_reducible apply Touches.fst); · assumption)
    | ((with_reducible apply Touches.snd); · assumption)
    | with_reducible apply Touches.ite
    | (with_reducible apply Touches.foldl; on_goal 1 => intro _ _ _)
    | ((with_reducible apply Touches.step (State.setCore_touches ..)); · rfl)
    | ((with_reducible apply Touches.step (State.arm_touches ..)); · rfl)
    | split
    | exact fun _ => wrap64_lt _
    | exact id
    | dsimp only

theorem State.haltWrite_touches (s : State) (c : Nat) :
    Touches [.regs, .frameLog, .flags, .counts, .flagAt, .recent, .ev, .queues, .cores, .units, .outs, .inps, .rtones, .mem] s (State.haltWrite s c) := by
  unfold State.haltWrite
  try dsimp only
  repeat' first
    | with_reducible exact Touches.refl _ _
    | with_reducible assumption
    | ((with_reducible apply Touches.fst); · assumption)
    | ((with_reducible apply Touches.snd); · assumption)
    | with_reducible apply Touches.ite
    | (with_reducible apply Touches.foldl; on_goal 1 => intro _ _ _)
    | ((with_reducible apply Touches.step (State.setCore_touches ..)); · rfl)
    | ((with_reducible apply Touches.step (State.haltCore_touches ..)); · rfl)
    | ((with_reducible apply Touches.step (State.unbind_touches ..)); · rfl)
    | split
    | exact fun _ => wrap64_lt _
    | exact id
    | dsimp only

theorem State.wrSeqCtl_touches (s : State) (c : Nat) (w : Word) :
    Touches [.regs, .frameLog, .flags, .counts, .flagAt, .recent, .ev, .queues, .cores, .units, .outs, .inps, .rtones, .mem] s (State.wrSeqCtl s c w) := by
  unfold State.wrSeqCtl
  try dsimp only
  repeat' first
    | with_reducible exact Touches.refl _ _
    | with_reducible assumption
    | ((with_reducible apply Touches.fst); · assumption)
    | ((with_reducible apply Touches.snd); · assumption)
    | with_reducible apply Touches.ite
    | (with_reducible apply Touches.foldl; on_goal 1 => intro _ _ _)
    | ((with_reducible apply Touches.step (State.writeFields_touches ..)); · rfl)
    | ((with_reducible apply Touches.step (State.armWrite_touches ..)); · rfl)
    | ((with_reducible apply Touches.step (State.haltWrite_touches ..)); · rfl)
    | ((with_reducible apply Touches.step (State.pushTrig_touches ..)); · rfl)
    | split
    | exact fun _ => wrap64_lt _
    | exact id
    | dsimp only

theorem State.coreStart_based (s : State) (c : Nat) :
    Based [.now, .regs, .frameLog, .flags, .counts, .flagAt, .recent, .ev, .queues, .strands, .cores, .units, .outs, .inps, .rtones, .mem] s (State.coreStart s c) := by
  unfold State.coreStart
  try dsimp only
  repeat' first
    | with_reducible exact Based.refl _ _
    | with_reducible assumption
    | with_reducible exact Settled.refl
    | ((with_reducible apply Based.fst); · assumption)
    | ((with_reducible apply Based.snd); · assumption)
    | with_reducible apply Based.ite
    | (with_reducible apply Based.foldl; on_goal 1 => intro _ _ _)
    | ((with_reducible apply State.toTime_based); · rfl)
    | ((with_reducible apply Based.step (State.setCore_touches ..)); · rfl)
    | ((with_reducible apply Based.step (State.faultCore_touches ..)); · rfl)
    | ((with_reducible apply Based.step (State.raise_touches ..)); · rfl)
    | split
    | exact fun _ => wrap64_lt _
    | exact id
    | dsimp only

theorem execCoreStart_based (c : Fin 256) (s : State) :
    ∃ t', execCoreStart c s = .next t' ∧ Based [.now, .regs, .frameLog, .flags, .counts, .flagAt, .recent, .ev, .queues, .strands, .cores, .units, .outs, .inps, .rtones, .mem] s t' := by
  unfold execCoreStart
  try dsimp only
  repeat' first
    | refine ⟨_, rfl, ?_⟩
    | with_reducible exact Based.refl _ _
    | with_reducible assumption
    | with_reducible exact Settled.refl
    | ((with_reducible apply Based.fst); · assumption)
    | ((with_reducible apply Based.snd); · assumption)
    | with_reducible apply Based.ite
    | (with_reducible apply Based.foldl; on_goal 1 => intro _ _ _)
    | ((with_reducible apply Based.trans (State.coreStart_based ..)); · rfl)
    | split
    | exact fun _ => wrap64_lt _
    | exact id
    | dsimp only

theorem State.doHalt_touches (s : State) (c w : Nat) (tm : Tim) :
    Touches [.regs, .frameLog, .flags, .counts, .flagAt, .recent, .ev, .queues, .cores, .units, .outs, .inps, .rtones, .mem] s (State.doHalt s c w tm) := by
  unfold State.doHalt
  try dsimp only
  repeat' first
    | with_reducible exact Touches.refl _ _
    | with_reducible assumption
    | ((with_reducible apply Touches.fst); · assumption)
    | ((with_reducible apply Touches.snd); · assumption)
    | with_reducible apply Touches.ite
    | (with_reducible apply Touches.foldl; on_goal 1 => intro _ _ _)
    | ((with_reducible apply Touches.step (State.haltCore_touches ..)); · rfl)
    | split
    | exact fun _ => wrap64_lt _
    | exact id
    | dsimp only

theorem execHalt_based (c : Fin 256) (s : State) :
    ∃ t', execHalt c s = .next t' ∧ Based [.now, .regs, .frameLog, .flags, .counts, .flagAt, .recent, .ev, .queues, .strands, .cores, .units, .outs, .inps, .rtones, .mem] s t' := by
  unfold execHalt
  try dsimp only
  repeat' first
    | refine ⟨_, rfl, ?_⟩
    | with_reducible exact Based.refl _ _
    | with_reducible assumption
    | with_reducible exact Settled.refl
    | ((with_reducible apply Based.fst); · assumption)
    | ((with_reducible apply Based.snd); · assumption)
    | with_reducible apply Based.ite
    | (with_reducible apply Based.foldl; on_goal 1 => intro _ _ _)
    | ((with_reducible apply State.runWord_based); (· rfl); on_goal 1 => intro _ _ _ _)
    | ((with_reducible apply Based.step (State.doHalt_touches ..)); · rfl)
    | split
    | exact fun _ => wrap64_lt _
    | exact id
    | dsimp only

theorem State.doWait_touches (s : State) (c w : Nat) (tm : Tim) :
    Touches [.cores] s (State.doWait s c w tm) := by
  unfold State.doWait
  try dsimp only
  repeat' first
    | with_reducible exact Touches.refl _ _
    | with_reducible assumption
    | ((with_reducible apply Touches.fst); · assumption)
    | ((with_reducible apply Touches.snd); · assumption)
    | with_reducible apply Touches.ite
    | (with_reducible apply Touches.foldl; on_goal 1 => intro _ _ _)
    | ((with_reducible apply Touches.step (State.setCore_touches ..)); · rfl)
    | split
    | exact fun _ => wrap64_lt _
    | exact id
    | dsimp only

theorem execWait_based (c : Fin 256) (s : State) :
    ∃ t', execWait c s = .next t' ∧ Based [.now, .regs, .frameLog, .flags, .counts, .flagAt, .recent, .ev, .queues, .strands, .cores, .units, .outs, .inps, .rtones, .mem] s t' := by
  unfold execWait
  try dsimp only
  repeat' first
    | refine ⟨_, rfl, ?_⟩
    | with_reducible exact Based.refl _ _
    | with_reducible assumption
    | with_reducible exact Settled.refl
    | ((with_reducible apply Based.fst); · assumption)
    | ((with_reducible apply Based.snd); · assumption)
    | with_reducible apply Based.ite
    | (with_reducible apply Based.foldl; on_goal 1 => intro _ _ _)
    | ((with_reducible apply State.runWord_based); (· rfl); on_goal 1 => intro _ _ _ _)
    | ((with_reducible apply Based.step (State.doWait_touches ..)); · rfl)
    | split
    | exact fun _ => wrap64_lt _
    | exact id
    | dsimp only

theorem State.doTrigwait_touches (s : State) (c w : Nat) (tm : Tim) :
    Touches [.counts, .recent, .cores] s (State.doTrigwait s c w tm) := by
  unfold State.doTrigwait
  try dsimp only
  repeat' first
    | with_reducible exact Touches.refl _ _
    | with_reducible assumption
    | ((with_reducible apply Touches.fst); · assumption)
    | ((with_reducible apply Touches.snd); · assumption)
    | with_reducible apply Touches.ite
    | (with_reducible apply Touches.foldl; on_goal 1 => intro _ _ _)
    | ((with_reducible apply Touches.step (State.bump_touches ..)); · rfl)
    | ((with_reducible apply Touches.step (State.setCore_touches ..)); · rfl)
    | split
    | exact fun _ => wrap64_lt _
    | exact id
    | dsimp only

theorem execTrigwait_based (c : Fin 256) (s : State) :
    ∃ t', execTrigwait c s = .next t' ∧ Based [.now, .regs, .frameLog, .flags, .counts, .flagAt, .recent, .ev, .queues, .strands, .cores, .units, .outs, .inps, .rtones, .mem] s t' := by
  unfold execTrigwait
  try dsimp only
  repeat' first
    | refine ⟨_, rfl, ?_⟩
    | with_reducible exact Based.refl _ _
    | with_reducible assumption
    | with_reducible exact Settled.refl
    | ((with_reducible apply Based.fst); · assumption)
    | ((with_reducible apply Based.snd); · assumption)
    | with_reducible apply Based.ite
    | (with_reducible apply Based.foldl; on_goal 1 => intro _ _ _)
    | ((with_reducible apply State.runWord_based); (· rfl); on_goal 1 => intro _ _ _ _)
    | ((with_reducible apply Based.step (State.doTrigwait_touches ..)); · rfl)
    | split
    | exact fun _ => wrap64_lt _
    | exact id
    | dsimp only

theorem State.trigTimeout_based (s : State) (c : Nat) :
    Based [.now, .flags, .counts, .flagAt, .recent, .ev, .queues, .cores, .mem] s (State.trigTimeout s c) := by
  have ha : ∀ f e, Based [.now, .flags, .counts, .flagAt, .recent, .ev, .queues, .cores, .mem] s ((s.settle f s.dueFuel).settleOuts e) := fun _ _ =>
    Based.of_settled (.outs _ (State.settle_settled _ .refl))
  unfold State.trigTimeout
  split
  · exact Based.ite (Based.refl _ _) (Based.step (State.invalid_touches ..) rfl (Based.step (State.raise_touches ..) rfl
      (Based.step (State.setCore_touches ..) rfl (Based.step (State.clockTo_touches ..) rfl (ha _ _)))))
  · exact Based.refl _ _

theorem execTrigTimeout_based (c : Fin 256) (s : State) :
    ∃ t', execTrigTimeout c s = .next t' ∧ Based [.now, .flags, .counts, .flagAt, .recent, .ev, .queues, .cores, .mem] s t' := by
  unfold execTrigTimeout
  try dsimp only
  repeat' first
    | refine ⟨_, rfl, ?_⟩
    | with_reducible exact Based.refl _ _
    | with_reducible assumption
    | with_reducible exact Settled.refl
    | ((with_reducible apply Based.fst); · assumption)
    | ((with_reducible apply Based.snd); · assumption)
    | with_reducible apply Based.ite
    | (with_reducible apply Based.foldl; on_goal 1 => intro _ _ _)
    | ((with_reducible apply Based.trans (State.trigTimeout_based ..)); · rfl)
    | split
    | exact fun _ => wrap64_lt _
    | exact id
    | dsimp only

theorem State.tryBarrier_touches (s : State) (c m : Nat) :
    Touches [.now, .regs, .frameW, .frameLog, .flags, .counts, .flagAt, .recent, .ev, .queues, .strands, .cores, .units, .outs, .inps, .rtones, .mem] s (State.tryBarrier s c m) := by
  unfold State.tryBarrier
  try dsimp only
  repeat' first
    | with_reducible exact Touches.refl _ _
    | with_reducible assumption
    | ((with_reducible apply Touches.fst); · assumption)
    | ((with_reducible apply Touches.snd); · assumption)
    | with_reducible apply Touches.ite
    | (with_reducible apply Touches.foldl; on_goal 1 => intro _ _ _)
    | ((with_reducible apply Touches.step (State.toTime_touches ..)); · rfl)
    | ((with_reducible apply Touches.step (State.setCore_touches ..)); · rfl)
    | ((with_reducible apply Touches.step (State.faultCore_touches ..)); · rfl)
    | ((with_reducible apply Touches.step (State.raise_touches ..)); · rfl)
    | split
    | exact fun _ => wrap64_lt _
    | exact id
    | dsimp only

theorem State.doSync_touches (s : State) (c w : Nat) (tm : Tim) :
    Touches [.now, .regs, .frameW, .frameLog, .flags, .counts, .flagAt, .recent, .ev, .queues, .strands, .cores, .units, .outs, .inps, .rtones, .mem] s (State.doSync s c w tm) := by
  unfold State.doSync
  try dsimp only
  repeat' first
    | with_reducible exact Touches.refl _ _
    | with_reducible assumption
    | ((with_reducible apply Touches.fst); · assumption)
    | ((with_reducible apply Touches.snd); · assumption)
    | with_reducible apply Touches.ite
    | (with_reducible apply Touches.foldl; on_goal 1 => intro _ _ _)
    | ((with_reducible apply Touches.step (State.setCore_touches ..)); · rfl)
    | ((with_reducible apply Touches.step (State.tryBarrier_touches ..)); · rfl)
    | split
    | exact fun _ => wrap64_lt _
    | exact id
    | dsimp only

theorem execSyncstrand_based (c : Fin 256) (s : State) :
    ∃ t', execSyncstrand c s = .next t' ∧ Based [.now, .regs, .frameW, .frameLog, .flags, .counts, .flagAt, .recent, .ev, .queues, .strands, .cores, .units, .outs, .inps, .rtones, .mem] s t' := by
  unfold execSyncstrand
  try dsimp only
  repeat' first
    | refine ⟨_, rfl, ?_⟩
    | with_reducible exact Based.refl _ _
    | with_reducible assumption
    | with_reducible exact Settled.refl
    | ((with_reducible apply Based.fst); · assumption)
    | ((with_reducible apply Based.snd); · assumption)
    | with_reducible apply Based.ite
    | (with_reducible apply Based.foldl; on_goal 1 => intro _ _ _)
    | ((with_reducible apply State.runWord_based); (· rfl); on_goal 1 => intro _ _ _ _)
    | ((with_reducible apply Based.step (State.doSync_touches ..)); · rfl)
    | split
    | exact fun _ => wrap64_lt _
    | exact id
    | dsimp only

theorem State.doSetstatic_touches (s : State) (c w : Nat) (tm : Tim) :
    Touches [.regs, .flags, .counts, .flagAt, .recent, .ev, .queues, .cores, .units, .outs, .mem] s (State.doSetstatic s c w tm) := by
  unfold State.doSetstatic
  try dsimp only
  repeat' first
    | with_reducible exact Touches.refl _ _
    | with_reducible assumption
    | ((with_reducible apply Touches.fst); · assumption)
    | ((with_reducible apply Touches.snd); · assumption)
    | with_reducible apply Touches.ite
    | (with_reducible apply Touches.foldl; on_goal 1 => intro _ _ _)
    | ((with_reducible apply Touches.step (State.note_touches ..)); · rfl)
    | ((with_reducible apply Touches.step (State.setPunit_touches ..)); · rfl)
    | ((with_reducible apply Touches.step (State.setStatic_touches ..)); · rfl)
    | split
    | exact fun _ => wrap64_lt _
    | exact id
    | dsimp only

theorem execSetstatic_based (c : Fin 256) (s : State) :
    ∃ t', execSetstatic c s = .next t' ∧ Based [.now, .regs, .frameLog, .flags, .counts, .flagAt, .recent, .ev, .queues, .strands, .cores, .units, .outs, .inps, .rtones, .mem] s t' := by
  unfold execSetstatic
  try dsimp only
  repeat' first
    | refine ⟨_, rfl, ?_⟩
    | with_reducible exact Based.refl _ _
    | with_reducible assumption
    | with_reducible exact Settled.refl
    | ((with_reducible apply Based.fst); · assumption)
    | ((with_reducible apply Based.snd); · assumption)
    | with_reducible apply Based.ite
    | (with_reducible apply Based.foldl; on_goal 1 => intro _ _ _)
    | ((with_reducible apply State.runWord_based); (· rfl); on_goal 1 => intro _ _ _ _)
    | ((with_reducible apply Based.step (State.doSetstatic_touches ..)); · rfl)
    | split
    | exact fun _ => wrap64_lt _
    | exact id
    | dsimp only

theorem State.doSetfreq_touches (s : State) (c w : Nat) (tm : Tim) :
    Touches [.cores, .units, .rtones] s (State.doSetfreq s c w tm) := by
  unfold State.doSetfreq
  try dsimp only
  repeat' first
    | with_reducible exact Touches.refl _ _
    | with_reducible assumption
    | ((with_reducible apply Touches.fst); · assumption)
    | ((with_reducible apply Touches.snd); · assumption)
    | with_reducible apply Touches.ite
    | (with_reducible apply Touches.foldl; on_goal 1 => intro _ _ _)
    | ((with_reducible apply Touches.step (State.note_touches ..)); · rfl)
    | ((with_reducible apply Touches.step (State.notePhases_touches ..)); · rfl)
    | ((with_reducible apply Touches.step (State.setPunit_touches ..)); · rfl)
    | split
    | exact fun _ => wrap64_lt _
    | exact id
    | dsimp only

theorem execSetfreq_based (c : Fin 256) (s : State) :
    ∃ t', execSetfreq c s = .next t' ∧ Based [.now, .regs, .frameLog, .flags, .counts, .flagAt, .recent, .ev, .queues, .strands, .cores, .units, .outs, .inps, .rtones, .mem] s t' := by
  unfold execSetfreq
  try dsimp only
  repeat' first
    | refine ⟨_, rfl, ?_⟩
    | with_reducible exact Based.refl _ _
    | with_reducible assumption
    | with_reducible exact Settled.refl
    | ((with_reducible apply Based.fst); · assumption)
    | ((with_reducible apply Based.snd); · assumption)
    | with_reducible apply Based.ite
    | (with_reducible apply Based.foldl; on_goal 1 => intro _ _ _)
    | ((with_reducible apply State.runWord_based); (· rfl); on_goal 1 => intro _ _ _ _)
    | ((with_reducible apply Based.step (State.doSetfreq_touches ..)); · rfl)
    | split
    | exact fun _ => wrap64_lt _
    | exact id
    | dsimp only

theorem State.doSetphase_touches (s : State) (c w : Nat) (tm : Tim) :
    Touches [.regs, .frameLog, .cores, .rtones] s (State.doSetphase s c w tm) := by
  unfold State.doSetphase
  try dsimp only
  repeat' first
    | with_reducible exact Touches.refl _ _
    | with_reducible assumption
    | ((with_reducible apply Touches.fst); · assumption)
    | ((with_reducible apply Touches.snd); · assumption)
    | with_reducible apply Touches.ite
    | (with_reducible apply Touches.foldl; on_goal 1 => intro _ _ _)
    | ((with_reducible apply Touches.step (State.note_touches ..)); · rfl)
    | ((with_reducible apply Touches.step (State.notePhases_touches ..)); · rfl)
    | ((with_reducible apply Touches.step (State.frameOp_touches ..)); · rfl)
    | split
    | exact fun _ => wrap64_lt _
    | exact id
    | dsimp only

theorem execSetphase_based (c : Fin 256) (s : State) :
    ∃ t', execSetphase c s = .next t' ∧ Based [.now, .regs, .frameLog, .flags, .counts, .flagAt, .recent, .ev, .queues, .strands, .cores, .units, .outs, .inps, .rtones, .mem] s t' := by
  unfold execSetphase
  try dsimp only
  repeat' first
    | refine ⟨_, rfl, ?_⟩
    | with_reducible exact Based.refl _ _
    | with_reducible assumption
    | with_reducible exact Settled.refl
    | ((with_reducible apply Based.fst); · assumption)
    | ((with_reducible apply Based.snd); · assumption)
    | with_reducible apply Based.ite
    | (with_reducible apply Based.foldl; on_goal 1 => intro _ _ _)
    | ((with_reducible apply State.runWord_based); (· rfl); on_goal 1 => intro _ _ _ _)
    | ((with_reducible apply Based.step (State.doSetphase_touches ..)); · rfl)
    | split
    | exact fun _ => wrap64_lt _
    | exact id
    | dsimp only

theorem State.reportUnmapped_touches (s : State) (c dba x : Nat) :
    Touches [.flags, .counts, .flagAt, .recent, .ev, .queues, .cores, .mem] s (State.reportUnmapped s c dba x) := by
  unfold State.reportUnmapped
  try dsimp only
  repeat' first
    | with_reducible exact Touches.refl _ _
    | with_reducible assumption
    | ((with_reducible apply Touches.fst); · assumption)
    | ((with_reducible apply Touches.snd); · assumption)
    | with_reducible apply Touches.ite
    | (with_reducible apply Touches.foldl; on_goal 1 => intro _ _ _)
    | ((with_reducible apply Touches.step (State.invalid_touches ..)); · rfl)
    | ((with_reducible apply Touches.step (State.raise_touches ..)); · rfl)
    | split
    | exact fun _ => wrap64_lt _
    | exact id
    | dsimp only

theorem State.deferCond_touches (s : State) (c w x : Nat) :
    Touches [.flags, .counts, .flagAt, .recent, .ev, .queues, .cores, .mem] s (State.deferCond s c w x) := by
  unfold State.deferCond
  try dsimp only
  repeat' first
    | with_reducible exact Touches.refl _ _
    | with_reducible assumption
    | ((with_reducible apply Touches.fst); · assumption)
    | ((with_reducible apply Touches.snd); · assumption)
    | with_reducible apply Touches.ite
    | (with_reducible apply Touches.foldl; on_goal 1 => intro _ _ _)
    | ((with_reducible apply Touches.step (State.invalid_touches ..)); · rfl)
    | ((with_reducible apply Touches.step (State.raise_touches ..)); · rfl)
    | ((with_reducible apply Touches.step (State.setCore_touches ..)); · rfl)
    | split
    | exact fun _ => wrap64_lt _
    | exact id
    | dsimp only

theorem State.doFrameadd_touches (s : State) (c w : Nat) (tm : Tim) :
    Touches [.regs, .frameLog, .flags, .counts, .flagAt, .recent, .ev, .queues, .cores, .rtones, .mem] s (State.doFrameadd s c w tm) := by
  unfold State.doFrameadd
  try dsimp only
  repeat' first
    | with_reducible exact Touches.refl _ _
    | with_reducible assumption
    | ((with_reducible apply Touches.fst); · assumption)
    | ((with_reducible apply Touches.snd); · assumption)
    | with_reducible apply Touches.ite
    | (with_reducible apply Touches.foldl; on_goal 1 => intro _ _ _)
    | ((with_reducible apply Touches.step (State.reportUnmapped_touches ..)); · rfl)
    | ((with_reducible apply Touches.step (State.deferCond_touches ..)); · rfl)
    | ((with_reducible apply Touches.step (State.frameAdd_touches ..)); · rfl)
    | ((with_reducible apply Touches.step (State.note_touches ..)); · rfl)
    | split
    | exact fun _ => wrap64_lt _
    | exact id
    | dsimp only

theorem execFrameadd_based (c : Fin 256) (s : State) :
    ∃ t', execFrameadd c s = .next t' ∧ Based [.now, .regs, .frameLog, .flags, .counts, .flagAt, .recent, .ev, .queues, .strands, .cores, .units, .outs, .inps, .rtones, .mem] s t' := by
  unfold execFrameadd
  try dsimp only
  repeat' first
    | refine ⟨_, rfl, ?_⟩
    | with_reducible exact Based.refl _ _
    | with_reducible assumption
    | with_reducible exact Settled.refl
    | ((with_reducible apply Based.fst); · assumption)
    | ((with_reducible apply Based.snd); · assumption)
    | with_reducible apply Based.ite
    | (with_reducible apply Based.foldl; on_goal 1 => intro _ _ _)
    | ((with_reducible apply State.runWord_based); (· rfl); on_goal 1 => intro _ _ _ _)
    | ((with_reducible apply Based.step (State.doFrameadd_touches ..)); · rfl)
    | split
    | exact fun _ => wrap64_lt _
    | exact id
    | dsimp only

theorem State.afterBight_touches (s : State) (c w t : Nat) :
    Touches [.cores] s (State.afterBight s c w t) := by
  unfold State.afterBight
  try dsimp only
  repeat' first
    | with_reducible exact Touches.refl _ _
    | with_reducible assumption
    | ((with_reducible apply Touches.fst); · assumption)
    | ((with_reducible apply Touches.snd); · assumption)
    | with_reducible apply Touches.ite
    | (with_reducible apply Touches.foldl; on_goal 1 => intro _ _ _)
    | ((with_reducible apply Touches.step (State.setCore_touches ..)); · rfl)
    | split
    | exact fun _ => wrap64_lt _
    | exact id
    | dsimp only

theorem execBight_based (c : Fin 256) (s : State) :
    ∃ t', execBight c s = .next t' ∧ Based [.now, .regs, .frameLog, .flags, .counts, .flagAt, .recent, .ev, .queues, .strands, .cores, .units, .outs, .inps, .rtones, .mem] s t' := by
  unfold execBight
  try dsimp only
  repeat' first
    | refine ⟨_, rfl, ?_⟩
    | with_reducible exact Based.refl _ _
    | with_reducible assumption
    | with_reducible exact Settled.refl
    | ((with_reducible apply Based.fst); · assumption)
    | ((with_reducible apply Based.snd); · assumption)
    | with_reducible apply Based.ite
    | (with_reducible apply Based.foldl; on_goal 1 => intro _ _ _)
    | ((with_reducible apply State.runFlow_based); (· rfl); on_goal 1 => intro _ _ _ _ _)
    | ((with_reducible apply Based.step (State.afterBight_touches ..)); · rfl)
    | split
    | exact fun _ => wrap64_lt _
    | exact id
    | dsimp only

theorem State.afterEndbight_touches (s : State) (c : Nat) (old : Core) (t : Nat) :
    Touches [.flags, .counts, .flagAt, .recent, .ev, .queues, .cores, .mem] s (State.afterEndbight s c old t) := by
  unfold State.afterEndbight
  try dsimp only
  repeat' first
    | with_reducible exact Touches.refl _ _
    | with_reducible assumption
    | ((with_reducible apply Touches.fst); · assumption)
    | ((with_reducible apply Touches.snd); · assumption)
    | with_reducible apply Touches.ite
    | (with_reducible apply Touches.foldl; on_goal 1 => intro _ _ _)
    | ((with_reducible apply Touches.step (State.endShots_touches ..)); · rfl)
    | ((with_reducible apply Touches.step (State.setCore_touches ..)); · rfl)
    | split
    | exact fun _ => wrap64_lt _
    | exact id
    | dsimp only

theorem execEndbight_based (c : Fin 256) (s : State) :
    ∃ t', execEndbight c s = .next t' ∧ Based [.now, .regs, .frameLog, .flags, .counts, .flagAt, .recent, .ev, .queues, .strands, .cores, .units, .outs, .inps, .rtones, .mem] s t' := by
  unfold execEndbight
  try dsimp only
  repeat' first
    | refine ⟨_, rfl, ?_⟩
    | with_reducible exact Based.refl _ _
    | with_reducible assumption
    | with_reducible exact Settled.refl
    | ((with_reducible apply Based.fst); · assumption)
    | ((with_reducible apply Based.snd); · assumption)
    | with_reducible apply Based.ite
    | (with_reducible apply Based.foldl; on_goal 1 => intro _ _ _)
    | ((with_reducible apply State.runFlow_based); (· rfl); on_goal 1 => intro _ _ _ _ _)
    | ((with_reducible apply Based.step (State.afterEndbight_touches ..)); · rfl)
    | split
    | exact fun _ => wrap64_lt _
    | exact id
    | dsimp only

theorem execCall_based (c : Fin 256) (s : State) :
    ∃ t', execCall c s = .next t' ∧ Based [.now, .regs, .frameLog, .flags, .counts, .flagAt, .recent, .ev, .queues, .strands, .cores, .units, .outs, .inps, .rtones, .mem] s t' := by
  unfold execCall
  try dsimp only
  repeat' first
    | refine ⟨_, rfl, ?_⟩
    | with_reducible exact Based.refl _ _
    | with_reducible assumption
    | with_reducible exact Settled.refl
    | ((with_reducible apply Based.fst); · assumption)
    | ((with_reducible apply Based.snd); · assumption)
    | with_reducible apply Based.ite
    | (with_reducible apply Based.foldl; on_goal 1 => intro _ _ _)
    | ((with_reducible apply State.runFlow_based); (· rfl); on_goal 1 => intro _ _ _ _ _)
    | split
    | exact fun _ => wrap64_lt _
    | exact id
    | dsimp only

theorem execRet_based (c : Fin 256) (s : State) :
    ∃ t', execRet c s = .next t' ∧ Based [.now, .regs, .frameLog, .flags, .counts, .flagAt, .recent, .ev, .queues, .strands, .cores, .units, .outs, .inps, .rtones, .mem] s t' := by
  unfold execRet
  try dsimp only
  repeat' first
    | refine ⟨_, rfl, ?_⟩
    | with_reducible exact Based.refl _ _
    | with_reducible assumption
    | with_reducible exact Settled.refl
    | ((with_reducible apply Based.fst); · assumption)
    | ((with_reducible apply Based.snd); · assumption)
    | with_reducible apply Based.ite
    | (with_reducible apply Based.foldl; on_goal 1 => intro _ _ _)
    | ((with_reducible apply State.runFlow_based); (· rfl); on_goal 1 => intro _ _ _ _ _)
    | split
    | exact fun _ => wrap64_lt _
    | exact id
    | dsimp only

theorem execJump_based (c : Fin 256) (s : State) :
    ∃ t', execJump c s = .next t' ∧ Based [.now, .regs, .frameLog, .flags, .counts, .flagAt, .recent, .ev, .queues, .strands, .cores, .units, .outs, .inps, .rtones, .mem] s t' := by
  unfold execJump
  try dsimp only
  repeat' first
    | refine ⟨_, rfl, ?_⟩
    | with_reducible exact Based.refl _ _
    | with_reducible assumption
    | with_reducible exact Settled.refl
    | ((with_reducible apply Based.fst); · assumption)
    | ((with_reducible apply Based.snd); · assumption)
    | with_reducible apply Based.ite
    | (with_reducible apply Based.foldl; on_goal 1 => intro _ _ _)
    | ((with_reducible apply State.runFlow_based); (· rfl); on_goal 1 => intro _ _ _ _ _)
    | ((with_reducible apply Based.step (State.endShots_touches ..)); · rfl)
    | split
    | exact fun _ => wrap64_lt _
    | exact id
    | dsimp only

theorem State.doJcond_touches (s : State) (c w : Nat) (tm : Tim) :
    Touches [.regs, .frameLog, .flags, .counts, .flagAt, .recent, .ev, .queues, .strands, .cores, .units, .outs, .inps, .rtones, .mem] s (State.doJcond s c w tm) := by
  unfold State.doJcond
  try dsimp only
  repeat' first
    | with_reducible exact Touches.refl _ _
    | with_reducible assumption
    | ((with_reducible apply Touches.fst); · assumption)
    | ((with_reducible apply Touches.snd); · assumption)
    | with_reducible apply Touches.ite
    | (with_reducible apply Touches.foldl; on_goal 1 => intro _ _ _)
    | ((with_reducible apply Touches.step (State.reportUnmapped_touches ..)); · rfl)
    | ((with_reducible apply Touches.step (State.setCore_touches ..)); · rfl)
    | ((with_reducible apply Touches.step (State.deferCond_touches ..)); · rfl)
    | ((with_reducible apply Touches.step (State.coreFault_touches ..)); · rfl)
    | ((with_reducible apply Touches.step (State.endShots_touches ..)); · rfl)
    | split
    | exact fun _ => wrap64_lt _
    | exact id
    | dsimp only

theorem execJcond_based (c : Fin 256) (s : State) :
    ∃ t', execJcond c s = .next t' ∧ Based [.now, .regs, .frameLog, .flags, .counts, .flagAt, .recent, .ev, .queues, .strands, .cores, .units, .outs, .inps, .rtones, .mem] s t' := by
  unfold execJcond
  try dsimp only
  repeat' first
    | refine ⟨_, rfl, ?_⟩
    | with_reducible exact Based.refl _ _
    | with_reducible assumption
    | with_reducible exact Settled.refl
    | ((with_reducible apply Based.fst); · assumption)
    | ((with_reducible apply Based.snd); · assumption)
    | with_reducible apply Based.ite
    | (with_reducible apply Based.foldl; on_goal 1 => intro _ _ _)
    | ((with_reducible apply State.runWord_based); (· rfl); on_goal 1 => intro _ _ _ _)
    | ((with_reducible apply Based.step (State.doJcond_touches ..)); · rfl)
    | split
    | exact fun _ => wrap64_lt _
    | exact id
    | dsimp only

theorem execSeqArm_based (t : BitVec 64) (c : Fin 256) (w : Word) (s : State) :
    ∃ t', execSeqArm t c w s = .next t' ∧ Based [.now, .regs, .frameLog, .flags, .counts, .flagAt, .recent, .ev, .queues, .plies, .strands, .cores, .units, .outs, .inps, .rtones, .dec, .convs, .engines, .mem] s t' := by
  unfold execSeqArm
  try dsimp only
  repeat' first
    | refine ⟨_, rfl, ?_⟩
    | with_reducible exact Based.refl _ _
    | with_reducible assumption
    | with_reducible exact Settled.refl
    | ((with_reducible apply Based.fst); · assumption)
    | ((with_reducible apply Based.snd); · assumption)
    | with_reducible apply Based.ite
    | (with_reducible apply Based.foldl; on_goal 1 => intro _ _ _)
    | ((with_reducible apply State.strandWrite_based); (· rfl); on_goal 1 => intro _ _ _)
    | ((with_reducible apply Based.step (State.wrSeqCtl_touches ..)); · rfl)
    | split
    | exact fun _ => wrap64_lt _
    | exact id
    | dsimp only

theorem execSeqHaltWrite_based (t : BitVec 64) (c : Fin 256) (w : Word) (s : State) :
    ∃ t', execSeqHaltWrite t c w s = .next t' ∧ Based [.now, .regs, .frameLog, .flags, .counts, .flagAt, .recent, .ev, .queues, .plies, .strands, .cores, .units, .outs, .inps, .rtones, .dec, .convs, .engines, .mem] s t' := by
  unfold execSeqHaltWrite
  try dsimp only
  repeat' first
    | refine ⟨_, rfl, ?_⟩
    | with_reducible exact Based.refl _ _
    | with_reducible assumption
    | with_reducible exact Settled.refl
    | ((with_reducible apply Based.fst); · assumption)
    | ((with_reducible apply Based.snd); · assumption)
    | with_reducible apply Based.ite
    | (with_reducible apply Based.foldl; on_goal 1 => intro _ _ _)
    | ((with_reducible apply State.strandWrite_based); (· rfl); on_goal 1 => intro _ _ _)
    | ((with_reducible apply Based.step (State.wrSeqCtl_touches ..)); · rfl)
    | split
    | exact fun _ => wrap64_lt _
    | exact id
    | dsimp only

theorem execSwtrig_based (t : BitVec 64) (c : Fin 256) (w : Word) (s : State) :
    ∃ t', execSwtrig t c w s = .next t' ∧ Based [.now, .regs, .frameLog, .flags, .counts, .flagAt, .recent, .ev, .queues, .plies, .strands, .cores, .units, .outs, .inps, .rtones, .dec, .convs, .engines, .mem] s t' := by
  unfold execSwtrig
  try dsimp only
  repeat' first
    | refine ⟨_, rfl, ?_⟩
    | with_reducible exact Based.refl _ _
    | with_reducible assumption
    | with_reducible exact Settled.refl
    | ((with_reducible apply Based.fst); · assumption)
    | ((with_reducible apply Based.snd); · assumption)
    | with_reducible apply Based.ite
    | (with_reducible apply Based.foldl; on_goal 1 => intro _ _ _)
    | ((with_reducible apply State.strandWrite_based); (· rfl); on_goal 1 => intro _ _ _)
    | ((with_reducible apply Based.step (State.wrSeqCtl_touches ..)); · rfl)
    | split
    | exact fun _ => wrap64_lt _
    | exact id
    | dsimp only

end Sys2Proof.Machine
end

