-- ==== Sys2Proof/Laws/TouchPlay.lean ====
section
/-! SUPPORT. The parts of the state that each operation of Machine/Play.lean can change. -/

namespace Sys2Proof.Machine

open Sys2Proof

theorem State.abandon_touches (s : State) (k u : Nat) (g : Seg) :
    Touches [.queues] s (State.abandon s k u g) := by
  unfold State.abandon
  try dsimp only
  repeat' first
    | with_reducible exact Touches.refl _ _
    | with_reducible assumption
    | ((with_reducible apply Touches.fst); · assumption)
    | ((with_reducible apply Touches.snd); · assumption)
    | with_reducible apply Touches.ite
    | (with_reducible apply Touches.foldl; on_goal 1 => intro _ _ _)
    | ((with_reducible apply Touches.step (State.setQueue_touches ..)); · rfl)
    | split
    | exact fun _ => wrap64_lt _
    | exact id
    | dsimp only

theorem State.noteQueue_touches (s : State) (c t : Nat) (g : Seg) :
    Touches [.cores] s (State.noteQueue s c t g) := by
  unfold State.noteQueue
  try dsimp only
  repeat' first
    | with_reducible exact Touches.refl _ _
    | with_reducible assumption
    | ((with_reducible apply Touches.fst); · assumption)
    | ((with_reducible apply Touches.snd); · assumption)
    | with_reducible apply Touches.ite
    | (with_reducible apply Touches.foldl; on_goal 1 => intro _ _ _)
    | ((with_reducible apply Touches.step (State.note_touches ..)); · rfl)
    | split
    | exact fun _ => wrap64_lt _
    | exact id
    | dsimp only

theorem State.truncate_touches (s : State) (c k u t : Nat) :
    Touches [.flags, .counts, .flagAt, .recent, .ev, .queues, .cores, .units, .outs, .mem] s (State.truncate s c k u t) := by
  unfold State.truncate
  try dsimp only
  repeat' first
    | with_reducible exact Touches.refl _ _
    | with_reducible assumption
    | ((with_reducible apply Touches.fst); · assumption)
    | ((with_reducible apply Touches.snd); · assumption)
    | with_reducible apply Touches.ite
    | (with_reducible apply Touches.foldl; on_goal 1 => intro _ _ _)
    | ((with_reducible apply Touches.step (State.settleChain_touches ..)); · rfl)
    | ((with_reducible apply Touches.step (State.settleStream_touches ..)); · rfl)
    | ((with_reducible apply Touches.step (State.cutDefer_touches ..)); · rfl)
    | ((with_reducible apply Touches.step (State.abandon_touches ..)); · rfl)
    | ((with_reducible apply Touches.step (State.noteQueue_touches ..)); · rfl)
    | split
    | exact fun _ => wrap64_lt _
    | exact id
    | dsimp only

theorem State.deferSeg_touches (s : State) (c u : Nat) (g : Seg) :
    Touches [.cores] s (State.deferSeg s c u g) := by
  unfold State.deferSeg
  try dsimp only
  repeat' first
    | with_reducible exact Touches.refl _ _
    | with_reducible assumption
    | ((with_reducible apply Touches.fst); · assumption)
    | ((with_reducible apply Touches.snd); · assumption)
    | with_reducible apply Touches.ite
    | (with_reducible apply Touches.foldl; on_goal 1 => intro _ _ _)
    | ((with_reducible apply Touches.step (State.setCore_touches ..)); · rfl)
    | split
    | exact fun _ => wrap64_lt _
    | exact id
    | dsimp only

theorem State.placeSeg_touches (s : State) (c u : Nat) (g : Seg) (e : Nat) :
    Touches [.queues, .cores, .units] s (State.placeSeg s c u g e) := by
  unfold State.placeSeg
  try dsimp only
  repeat' first
    | with_reducible exact Touches.refl _ _
    | with_reducible assumption
    | ((with_reducible apply Touches.fst); · assumption)
    | ((with_reducible apply Touches.snd); · assumption)
    | with_reducible apply Touches.ite
    | (with_reducible apply Touches.foldl; on_goal 1 => intro _ _ _)
    | ((with_reducible apply Touches.step (State.setPunit_touches ..)); · rfl)
    | ((with_reducible apply Touches.step (State.deferSeg_touches ..)); · rfl)
    | ((with_reducible apply Touches.step (State.setCore_touches ..)); · rfl)
    | ((with_reducible apply Touches.step (State.setQueue_touches ..)); · rfl)
    | split
    | exact fun _ => wrap64_lt _
    | exact id
    | dsimp only

theorem State.playEvents_touches (s : State) (c u qn t : Nat) (x : PlayChk) :
    Touches [.flags, .counts, .flagAt, .recent, .ev, .queues, .cores, .mem] s (State.playEvents s c u qn t x) := by
  unfold State.playEvents
  try dsimp only
  repeat' first
    | with_reducible exact Touches.refl _ _
    | with_reducible assumption
    | ((with_reducible apply Touches.fst); · assumption)
    | ((with_reducible apply Touches.snd); · assumption)
    | with_reducible apply Touches.ite
    | (with_reducible apply Touches.foldl; on_goal 1 => intro _ _ _)
    | ((with_reducible apply Touches.step (State.invalid_touches ..)); · rfl)
    | ((with_reducible apply Touches.step (State.raise_touches ..)); · rfl)
    | ((with_reducible apply Touches.step (State.underrunAt_touches ..)); · rfl)
    | split
    | exact fun _ => wrap64_lt _
    | exact id
    | dsimp only

theorem State.doPlay_touches (s : State) (c : Nat) (chk : Bool) (w : Nat) (tm : Tim) :
    Touches [.flags, .counts, .flagAt, .recent, .ev, .queues, .cores, .units, .outs, .mem] s (State.doPlay s c chk w tm) := by
  unfold State.doPlay
  try dsimp only
  repeat' first
    | with_reducible exact Touches.refl _ _
    | with_reducible assumption
    | ((with_reducible apply Touches.fst); · assumption)
    | ((with_reducible apply Touches.snd); · assumption)
    | with_reducible apply Touches.ite
    | (with_reducible apply Touches.foldl; on_goal 1 => intro _ _ _)
    | ((with_reducible apply Touches.step (State.note_touches ..)); · rfl)
    | ((with_reducible apply Touches.step (State.truncate_touches ..)); · rfl)
    | ((with_reducible apply Touches.step (State.goLive_touches ..)); · rfl)
    | ((with_reducible apply Touches.step (State.playEvents_touches ..)); · rfl)
    | ((with_reducible apply Touches.step (State.placeSeg_touches ..)); · rfl)
    | ((with_reducible apply Touches.step (State.noteQueue_touches ..)); · rfl)
    | ((with_reducible apply Touches.step (State.invalid_touches ..)); · rfl)
    | ((with_reducible apply Touches.step (State.dpathCheck_touches ..)); · rfl)
    | ((with_reducible apply Touches.step (State.sramUe_touches ..)); · rfl)
    | split
    | exact fun _ => wrap64_lt _
    | exact id
    | dsimp only

theorem execPlay_based (c : Fin 256) (chk : Bool) (s : State) :
    ∃ t', execPlay c chk s = .next t' ∧ Based [.now, .regs, .frameLog, .flags, .counts, .flagAt, .recent, .ev, .queues, .strands, .cores, .units, .outs, .inps, .rtones, .mem] s t' := by
  unfold execPlay
  try dsimp only
  repeat' first
    | refine ⟨_, rfl, ?_⟩
    | with_reducible exact Based.refl _ _
    | with_reducible assumption
    | with_reducible exact Settled.refl
    | ((with_reducible apply Based.fst); · assumption)
    | ((with_reducible apply Based.snd); · assumption)
    | with_reducible apply Based.ite
    | (with_reducible apply Based.foldl; on_goal 1 => intro _ _ _)
    | ((with_reducible apply State.runWord_based); (· rfl); on_goal 1 => intro _ _ _ _)
    | ((with_reducible apply Based.step (State.doPlay_touches ..)); · rfl)
    | split
    | exact fun _ => wrap64_lt _
    | exact id
    | dsimp only

theorem State.streamUe_touches (s : State) (qn t : Nat) :
    Touches [.flags, .counts, .flagAt, .recent, .ev, .queues, .mem] s (State.streamUe s qn t) := by
  unfold State.streamUe
  try dsimp only
  repeat' first
    | with_reducible exact Touches.refl _ _
    | with_reducible assumption
    | ((with_reducible apply Touches.fst); · assumption)
    | ((with_reducible apply Touches.snd); · assumption)
    | with_reducible apply Touches.ite
    | (with_reducible apply Touches.foldl; on_goal 1 => intro _ _ _)
    | ((with_reducible apply Touches.step (State.memUe_touches ..)); · rfl)
    | split
    | exact fun _ => wrap64_lt _
    | exact id
    | dsimp only

theorem State.underrunStream_touches (s : State) (k u : Nat) :
    Touches [.now, .regs, .frameW, .frameLog, .flags, .counts, .flagAt, .recent, .ev, .queues, .strands, .cores, .units, .outs, .inps, .rtones, .mem] s (State.underrunStream s k u) := by
  unfold State.underrunStream
  try dsimp only
  repeat' first
    | with_reducible exact Touches.refl _ _
    | with_reducible assumption
    | ((with_reducible apply Touches.fst); · assumption)
    | ((with_reducible apply Touches.snd); · assumption)
    | with_reducible apply Touches.ite
    | (with_reducible apply Touches.foldl; on_goal 1 => intro _ _ _)
    | ((with_reducible apply Touches.step (State.settleStream_touches ..)); · rfl)
    | ((with_reducible apply Touches.step (State.toTime_touches ..)); · rfl)
    | ((with_reducible apply Touches.step (State.setPunit_touches ..)); · rfl)
    | ((with_reducible apply Touches.step (State.setQueue_touches ..)); · rfl)
    | ((with_reducible apply Touches.step (State.qUnder_touches ..)); · rfl)
    | ((with_reducible apply Touches.step (State.streamUe_touches ..)); · rfl)
    | ((with_reducible apply Touches.step (State.raise_touches ..)); · rfl)
    | ((with_reducible apply Touches.step (State.underrunAt_touches ..)); · rfl)
    | ((with_reducible apply Touches.step (State.abandon_touches ..)); · rfl)
    | split
    | exact fun _ => wrap64_lt _
    | exact id
    | dsimp only

theorem State.underrunHbm_based (s : State) (k u : Nat) :
    Based [.now, .flags, .counts, .flagAt, .recent, .ev, .queues, .cores, .units, .mem] s (State.underrunHbm s k u) := by
  unfold State.underrunHbm
  split
  · exact Based.refl _ _
  · refine Based.ite (Based.refl _ _) ?_
    split
    · exact Based.refl _ _
    · refine Based.ite (Based.refl _ _) ?_
      exact Based.step (State.underrunAt_touches ..) rfl (Based.step (State.setPunit_touches ..) rfl (State.toTime_based rfl .refl))

theorem State.underrunUnit_based (s : State) (k u : Nat) :
    Based [.now, .regs, .frameW, .frameLog, .flags, .counts, .flagAt, .recent, .ev, .queues, .strands, .cores, .units, .outs, .inps, .rtones, .mem] s (State.underrunUnit s k u) := by
  unfold State.underrunUnit
  try dsimp only
  repeat' first
    | with_reducible exact Based.refl _ _
    | with_reducible assumption
    | with_reducible exact Settled.refl
    | ((with_reducible apply Based.fst); · assumption)
    | ((with_reducible apply Based.snd); · assumption)
    | with_reducible apply Based.ite
    | (with_reducible apply Based.foldl; on_goal 1 => intro _ _ _)
    | ((with_reducible apply Based.step (State.underrunStream_touches ..)); · rfl)
    | ((with_reducible apply Based.trans (State.underrunHbm_based ..)); · rfl)
    | split
    | exact fun _ => wrap64_lt _
    | exact id
    | dsimp only

theorem State.underrunCore_based (s : State) (c : Nat) :
    Based [.now, .regs, .frameLog, .flags, .counts, .flagAt, .recent, .ev, .queues, .strands, .cores, .units, .outs, .inps, .rtones, .mem] s (State.underrunCore s c) := by
  unfold State.underrunCore
  try dsimp only
  repeat' first
    | with_reducible exact Based.refl _ _
    | with_reducible assumption
    | with_reducible exact Settled.refl
    | ((with_reducible apply Based.fst); · assumption)
    | ((with_reducible apply Based.snd); · assumption)
    | with_reducible apply Based.ite
    | (with_reducible apply Based.foldl; on_goal 1 => intro _ _ _)
    | with_reducible refine Based.of_settled (State.readyFor_settled ?_)
    | ((with_reducible apply Based.step (State.clockTo_touches ..)); · rfl)
    | ((with_reducible apply Based.step (State.setQueue_touches ..)); · rfl)
    | ((with_reducible apply Based.step (State.qUnder_touches ..)); · rfl)
    | ((with_reducible apply Based.step (State.raise_touches ..)); · rfl)
    | ((with_reducible apply Based.step (State.faultCore_touches ..)); · rfl)
    | ((with_reducible apply Based.step (State.streamUe_touches ..)); · rfl)
    | split
    | exact fun _ => wrap64_lt _
    | exact id
    | dsimp only

theorem execStreamUnderrun_based (r : StreamReader) (s : State) :
    ∃ t', execStreamUnderrun r s = .next t' ∧ Based [.now, .regs, .frameW, .frameLog, .flags, .counts, .flagAt, .recent, .ev, .queues, .strands, .cores, .units, .outs, .inps, .rtones, .mem] s t' := by
  unfold execStreamUnderrun
  try dsimp only
  repeat' first
    | refine ⟨_, rfl, ?_⟩
    | with_reducible exact Based.refl _ _
    | with_reducible assumption
    | with_reducible exact Settled.refl
    | ((with_reducible apply Based.fst); · assumption)
    | ((with_reducible apply Based.snd); · assumption)
    | with_reducible apply Based.ite
    | (with_reducible apply Based.foldl; on_goal 1 => intro _ _ _)
    | ((with_reducible apply Based.trans (State.underrunUnit_based ..)); · rfl)
    | ((with_reducible apply Based.trans (State.underrunCore_based ..)); · rfl)
    | split
    | exact fun _ => wrap64_lt _
    | exact id
    | dsimp only

theorem State.headCopy_touches (s : State) (k ei : Nat) :
    Touches [.units, .envSram, .envTab] s (State.headCopy s k ei) := by
  unfold State.headCopy
  try dsimp only
  repeat' first
    | with_reducible exact Touches.refl _ _
    | with_reducible assumption
    | ((with_reducible apply Touches.fst); · assumption)
    | ((with_reducible apply Touches.snd); · assumption)
    | with_reducible apply Touches.ite
    | (with_reducible apply Touches.foldl; on_goal 1 => intro _ _ _)
    | ((with_reducible apply Touches.step (State.freezeEnv_touches ..)); · rfl)
    | ((with_reducible apply Touches.upd_envSram_envTab); · rfl)
    | split
    | exact fun _ => wrap64_lt _
    | exact id
    | dsimp only

theorem execHbmHeadCopyDone_based (t : BitVec 64) (k : Fin 32) (e : Fin 4096) (s : State) :
    ∃ t', execHbmHeadCopyDone t k e s = .next t' ∧ Based [.now, .units, .envSram, .envTab] s t' := by
  unfold execHbmHeadCopyDone
  try dsimp only
  repeat' first
    | refine ⟨_, rfl, ?_⟩
    | with_reducible exact Based.refl _ _
    | with_reducible assumption
    | with_reducible exact Settled.refl
    | ((with_reducible apply Based.fst); · assumption)
    | ((with_reducible apply Based.snd); · assumption)
    | with_reducible apply Based.ite
    | (with_reducible apply Based.foldl; on_goal 1 => intro _ _ _)
    | ((with_reducible apply Based.step (State.headCopy_touches ..)); · rfl)
    | ((with_reducible apply State.upTo_based); · rfl)
    | split
    | exact fun _ => wrap64_lt _
    | exact id
    | dsimp only

theorem State.automute_based (s : State) (k o : Nat) :
    Based [.now, .outs] s (State.automute s k o) := by
  unfold State.automute
  try dsimp only
  repeat' first
    | with_reducible exact Based.refl _ _
    | with_reducible assumption
    | with_reducible exact Settled.refl
    | ((with_reducible apply Based.fst); · assumption)
    | ((with_reducible apply Based.snd); · assumption)
    | with_reducible apply Based.ite
    | (with_reducible apply Based.foldl; on_goal 1 => intro _ _ _)
    | ((with_reducible apply State.toTime_based); · rfl)
    | ((with_reducible apply Based.step (State.setOut_touches ..)); · rfl)
    | split
    | exact fun _ => wrap64_lt _
    | exact id
    | dsimp only

theorem execAutomuteClose_based (k : Fin 32) (o : Fin 6) (s : State) :
    ∃ t', execAutomuteClose k o s = .next t' ∧ Based [.now, .outs] s t' := by
  unfold execAutomuteClose
  try dsimp only
  repeat' first
    | refine ⟨_, rfl, ?_⟩
    | with_reducible exact Based.refl _ _
    | with_reducible assumption
    | with_reducible exact Settled.refl
    | ((with_reducible apply Based.fst); · assumption)
    | ((with_reducible apply Based.snd); · assumption)
    | with_reducible apply Based.ite
    | (with_reducible apply Based.foldl; on_goal 1 => intro _ _ _)
    | ((with_reducible apply Based.trans (State.automute_based ..)); · rfl)
    | split
    | exact fun _ => wrap64_lt _
    | exact id
    | dsimp only

theorem State.wrStatic_touches (s : State) (k c : Nat) (w : Word) :
    Touches [.regs, .outs] s (State.wrStatic s k c w) := by
  unfold State.wrStatic
  try dsimp only
  repeat' first
    | with_reducible exact Touches.refl _ _
    | with_reducible assumption
    | ((with_reducible apply Touches.fst); · assumption)
    | ((with_reducible apply Touches.snd); · assumption)
    | with_reducible apply Touches.ite
    | (with_reducible apply Touches.foldl; on_goal 1 => intro _ _ _)
    | ((with_reducible apply Touches.step (State.setOut_touches ..)); · rfl)
    | ((with_reducible apply Touches.step (State.setFld_touches ..)); · rfl)
    | split
    | exact fun _ => wrap64_lt _
    | exact id
    | dsimp only

theorem execStaticWrite_based (t : BitVec 64) (k : Fin 32) (c : Fin 16) (w : Word) (s : State) :
    ∃ t', execStaticWrite t k c w s = .next t' ∧ Based [.now, .regs, .flags, .counts, .flagAt, .recent, .ev, .queues, .plies, .strands, .cores, .units, .outs, .inps, .rtones, .dec, .convs, .engines, .mem] s t' := by
  unfold execStaticWrite
  try dsimp only
  repeat' first
    | refine ⟨_, rfl, ?_⟩
    | with_reducible exact Based.refl _ _
    | with_reducible assumption
    | with_reducible exact Settled.refl
    | ((with_reducible apply Based.fst); · assumption)
    | ((with_reducible apply Based.snd); · assumption)
    | with_reducible apply Based.ite
    | (with_reducible apply Based.foldl; on_goal 1 => intro _ _ _)
    | ((with_reducible apply State.strandWrite_based); (· rfl); on_goal 1 => intro _ _ _)
    | ((with_reducible apply Based.step (State.wrStatic_touches ..)); · rfl)
    | split
    | exact fun _ => wrap64_lt _
    | exact id
    | dsimp only

theorem State.wrFrame_touches (s : State) (k f : Nat) (w : Word) :
    Touches [.regs, .frameW, .frameLog, .rtones] s (State.wrFrame s k f w) := by
  unfold State.wrFrame
  try dsimp only
  repeat' first
    | with_reducible exact Touches.refl _ _
    | with_reducible assumption
    | ((with_reducible apply Touches.fst); · assumption)
    | ((with_reducible apply Touches.snd); · assumption)
    | with_reducible apply Touches.ite
    | (with_reducible apply Touches.foldl; on_goal 1 => intro _ _ _)
    | ((with_reducible apply Touches.step (State.notePhases_touches ..)); · rfl)
    | ((with_reducible apply Touches.step (State.frameOp_touches ..)); · rfl)
    | ((with_reducible apply Touches.step (State.settleFrames_touches ..)); · rfl)
    | ((with_reducible apply Touches.upd_frameW); · rfl)
    | split
    | exact fun _ => wrap64_lt _
    | exact id
    | dsimp only

theorem execFrameWrite_based (t : BitVec 64) (k : Fin 32) (f : Fin 4096) (w : Word) (s : State) :
    ∃ t', execFrameWrite t k f w s = .next t' ∧ Based [.now, .regs, .frameW, .frameLog, .flags, .counts, .flagAt, .recent, .ev, .queues, .plies, .strands, .cores, .units, .outs, .inps, .rtones, .dec, .convs, .engines, .mem] s t' := by
  unfold execFrameWrite
  try dsimp only
  repeat' first
    | refine ⟨_, rfl, ?_⟩
    | with_reducible exact Based.refl _ _
    | with_reducible assumption
    | with_reducible exact Settled.refl
    | ((with_reducible apply Based.fst); · assumption)
    | ((with_reducible apply Based.snd); · assumption)
    | with_reducible apply Based.ite
    | (with_reducible apply Based.foldl; on_goal 1 => intro _ _ _)
    | ((with_reducible apply State.blockWrite_based); (· rfl); on_goal 1 => intro _ _)
    | ((with_reducible apply State.toTable_closed (Based.closed _ _)); (· rfl); on_goal 1 => intro _ _ _)
    | ((with_reducible apply Based.step (State.wrFrame_touches ..)); · rfl)
    | split
    | exact fun _ => wrap64_lt _
    | exact id
    | dsimp only

theorem State.pdCommit_touches (s : State) (k c : Nat) :
    Touches [.flags, .counts, .flagAt, .recent, .ev, .queues, .cores, .units, .outs, .mem] s (State.pdCommit s k c) := by
  unfold State.pdCommit
  try dsimp only
  repeat' first
    | with_reducible exact Touches.refl _ _
    | with_reducible assumption
    | ((with_reducible apply Touches.fst); · assumption)
    | ((with_reducible apply Touches.snd); · assumption)
    | with_reducible apply Touches.ite
    | (with_reducible apply Touches.foldl; on_goal 1 => intro _ _ _)
    | ((with_reducible apply Touches.step (State.copyCoef_touches ..)); · rfl)
    | ((with_reducible apply Touches.step (State.settleChain_touches ..)); · rfl)
    | split
    | exact fun _ => wrap64_lt _
    | exact id
    | dsimp only

theorem State.wrRfCtl_touches (s : State) (k o : Nat) (w : Word) :
    Touches [.regs, .held] s (State.wrRfCtl s k o w) := by
  unfold State.wrRfCtl
  try dsimp only
  repeat' first
    | with_reducible exact Touches.refl _ _
    | with_reducible assumption
    | ((with_reducible apply Touches.fst); · assumption)
    | ((with_reducible apply Touches.snd); · assumption)
    | with_reducible apply Touches.ite
    | (with_reducible apply Touches.foldl; on_goal 1 => intro _ _ _)
    | ((with_reducible apply Touches.step (State.writeFields_touches ..)); · rfl)
    | ((with_reducible apply Touches.step (State.unhold_touches ..)); · rfl)
    | ((with_reducible apply Touches.step (State.hold_touches ..)); · rfl)
    | ((with_reducible apply Touches.step (State.setFld_touches ..)); · rfl)
    | split
    | exact fun _ => wrap64_lt _
    | exact id
    | dsimp only

theorem State.wrBbCtl_touches (s : State) (k c : Nat) (w : Word) :
    Touches [.regs, .held, .flags, .counts, .flagAt, .recent, .ev, .queues, .cores, .units, .outs, .mem] s (State.wrBbCtl s k c w) := by
  unfold State.wrBbCtl
  try dsimp only
  repeat' first
    | with_reducible exact Touches.refl _ _
    | with_reducible assumption
    | ((with_reducible apply Touches.fst); · assumption)
    | ((with_reducible apply Touches.snd); · assumption)
    | with_reducible apply Touches.ite
    | (with_reducible apply Touches.foldl; on_goal 1 => intro _ _ _)
    | ((with_reducible apply Touches.step (State.writeFields_touches ..)); · rfl)
    | ((with_reducible apply Touches.step (State.settleChain_touches ..)); · rfl)
    | ((with_reducible apply Touches.step (State.unhold_touches ..)); · rfl)
    | ((with_reducible apply Touches.step (State.hold_touches ..)); · rfl)
    | ((with_reducible apply Touches.step (State.setFld_touches ..)); · rfl)
    | ((with_reducible apply Touches.step (State.pdCommit_touches ..)); · rfl)
    | split
    | exact fun _ => wrap64_lt _
    | exact id
    | dsimp only

theorem execPdCommit_based (t : BitVec 64) (k : Fin 32) (c : Fin 16) (w : Word) (s : State) :
    ∃ t', execPdCommit t k c w s = .next t' ∧ Based [.now, .regs, .held, .flags, .counts, .flagAt, .recent, .ev, .queues, .plies, .strands, .cores, .units, .outs, .inps, .rtones, .dec, .convs, .engines, .mem] s t' := by
  unfold execPdCommit
  try dsimp only
  repeat' first
    | refine ⟨_, rfl, ?_⟩
    | with_reducible exact Based.refl _ _
    | with_reducible assumption
    | with_reducible exact Settled.refl
    | ((with_reducible apply Based.fst); · assumption)
    | ((with_reducible apply Based.snd); · assumption)
    | with_reducible apply Based.ite
    | (with_reducible apply Based.foldl; on_goal 1 => intro _ _ _)
    | ((with_reducible apply State.strandWrite_based); (· rfl); on_goal 1 => intro _ _ _)
    | ((with_reducible apply Based.step (State.wrBbCtl_touches ..)); · rfl)
    | split
    | exact fun _ => wrap64_lt _
    | exact id
    | dsimp only

theorem State.wrOutCtl_touches (s : State) (o : OutId) (w : Word) :
    Touches [.regs, .held, .flags, .counts, .flagAt, .recent, .ev, .queues, .cores, .units, .outs, .mem] s (State.wrOutCtl s o w) := by
  unfold State.wrOutCtl
  try dsimp only
  repeat' first
    | with_reducible exact Touches.refl _ _
    | with_reducible assumption
    | ((with_reducible apply Touches.fst); · assumption)
    | ((with_reducible apply Touches.snd); · assumption)
    | with_reducible apply Touches.ite
    | (with_reducible apply Touches.foldl; on_goal 1 => intro _ _ _)
    | ((with_reducible apply Touches.step (State.wrRfCtl_touches ..)); · rfl)
    | ((with_reducible apply Touches.step (State.wrBbCtl_touches ..)); · rfl)
    | split
    | exact fun _ => wrap64_lt _
    | exact id
    | dsimp only

theorem execZoneWrite_based (t : BitVec 64) (o : OutId) (w : Word) (s : State) :
    ∃ t', execZoneWrite t o w s = .next t' ∧ Based [.now, .regs, .held, .flags, .counts, .flagAt, .recent, .ev, .queues, .plies, .strands, .cores, .units, .outs, .inps, .rtones, .dec, .convs, .engines, .mem] s t' := by
  unfold execZoneWrite
  try dsimp only
  repeat' first
    | refine ⟨_, rfl, ?_⟩
    | with_reducible exact Based.refl _ _
    | with_reducible assumption
    | with_reducible exact Settled.refl
    | ((with_reducible apply Based.fst); · assumption)
    | ((with_reducible apply Based.snd); · assumption)
    | with_reducible apply Based.ite
    | (with_reducible apply Based.foldl; on_goal 1 => intro _ _ _)
    | ((with_reducible apply State.strandWrite_based); (· rfl); on_goal 1 => intro _ _ _)
    | ((with_reducible apply Based.step (State.wrOutCtl_touches ..)); · rfl)
    | split
    | exact fun _ => wrap64_lt _
    | exact id
    | dsimp only

theorem State.startRange_touches (s : State) (k o new t0 : Nat) :
    Touches [.flags, .counts, .flagAt, .recent, .ev, .queues, .cores, .units, .outs, .inps, .rtones, .convs, .engines, .mem] s (State.startRange s k o new t0) := by
  unfold State.startRange
  try dsimp only
  repeat' first
    | with_reducible exact Touches.refl _ _
    | with_reducible assumption
    | ((with_reducible apply Touches.fst); · assumption)
    | ((with_reducible apply Touches.snd); · assumption)
    | with_reducible apply Touches.ite
    | (with_reducible apply Touches.foldl; on_goal 1 => intro _ _ _)
    | ((with_reducible apply Touches.step (State.goHeld_touches ..)); · rfl)
    | ((with_reducible apply Touches.step (State.calAbort_touches ..)); · rfl)
    | ((with_reducible apply Touches.step (State.setOut_touches ..)); · rfl)
    | split
    | exact fun _ => wrap64_lt _
    | exact id
    | dsimp only

theorem State.wrRange_touches (s : State) (k o new : Nat) (w : Word) (b : Nat) :
    Touches [.held, .flags, .counts, .flagAt, .recent, .ev, .queues, .cores, .units, .outs, .inps, .rtones, .convs, .engines, .mem] s (State.wrRange s k o new w b) := by
  unfold State.wrRange
  try dsimp only
  repeat' first
    | with_reducible exact Touches.refl _ _
    | with_reducible assumption
    | ((with_reducible apply Touches.fst); · assumption)
    | ((with_reducible apply Touches.snd); · assumption)
    | with_reducible apply Touches.ite
    | (with_reducible apply Touches.foldl; on_goal 1 => intro _ _ _)
    | ((with_reducible apply Touches.step (State.setOut_touches ..)); · rfl)
    | ((with_reducible apply Touches.step (State.unhold_touches ..)); · rfl)
    | ((with_reducible apply Touches.step (State.hold_touches ..)); · rfl)
    | ((with_reducible apply Touches.step (State.startRange_touches ..)); · rfl)
    | split
    | exact fun _ => wrap64_lt _
    | exact id
    | dsimp only

theorem State.clearComply_touches (s : State) (k c : Nat) :
    Touches [.outs] s (State.clearComply s k c) := by
  unfold State.clearComply
  try dsimp only
  repeat' first
    | with_reducible exact Touches.refl _ _
    | with_reducible assumption
    | ((with_reducible apply Touches.fst); · assumption)
    | ((with_reducible apply Touches.snd); · assumption)
    | with_reducible apply Touches.ite
    | (with_reducible apply Touches.foldl; on_goal 1 => intro _ _ _)
    | ((with_reducible apply Touches.step (State.setOut_touches ..)); · rfl)
    | split
    | exact fun _ => wrap64_lt _
    | exact id
    | dsimp only

theorem State.wrOut_touches (s : State) (k o : Nat) (w : Word) (b : Nat) :
    Touches [.regs, .held, .flags, .counts, .flagAt, .recent, .ev, .queues, .plies, .strands, .cores, .units, .outs, .inps, .rtones, .dec, .convs, .engines, .mem] s (State.wrOut s k o w b) := by
  unfold State.wrOut
  try dsimp only
  repeat' first
    | with_reducible exact Touches.refl _ _
    | with_reducible assumption
    | ((with_reducible apply Touches.fst); · assumption)
    | ((with_reducible apply Touches.snd); · assumption)
    | with_reducible apply Touches.ite
    | (with_reducible apply Touches.foldl; on_goal 1 => intro _ _ _)
    | ((with_reducible apply Touches.step (State.setFld_touches ..)); · rfl)
    | ((with_reducible apply Touches.step (State.setReg_touches ..)); · rfl)
    | ((with_reducible apply Touches.step (State.setOut_touches ..)); · rfl)
    | ((with_reducible apply Touches.step (State.outEnable_touches ..)); · rfl)
    | ((with_reducible apply Touches.step (State.wrRange_touches ..)); · rfl)
    | split
    | exact fun _ => wrap64_lt _
    | exact id
    | dsimp only

theorem execRangeWrite_based (t : BitVec 64) (o : OutId) (w : Word) (s : State) :
    ∃ t', execRangeWrite t o w s = .next t' ∧ Based [.now, .regs, .held, .flags, .counts, .flagAt, .recent, .ev, .queues, .plies, .strands, .cores, .units, .outs, .inps, .rtones, .dec, .convs, .engines, .mem] s t' := by
  unfold execRangeWrite
  try dsimp only
  repeat' first
    | refine ⟨_, rfl, ?_⟩
    | with_reducible exact Based.refl _ _
    | with_reducible assumption
    | with_reducible exact Settled.refl
    | ((with_reducible apply Based.fst); · assumption)
    | ((with_reducible apply Based.snd); · assumption)
    | with_reducible apply Based.ite
    | (with_reducible apply Based.foldl; on_goal 1 => intro _ _ _)
    | ((with_reducible apply State.strandWrite_based); (· rfl); on_goal 1 => intro _ _ _)
    | ((with_reducible apply Based.step (State.wrOut_touches ..)); · rfl)
    | split
    | exact fun _ => wrap64_lt _
    | exact id
    | dsimp only

theorem execComplyClear_based (t : BitVec 64) (k : Fin 32) (c : Fin 16) (w : Word) (s : State) :
    ∃ t', execComplyClear t k c w s = .next t' ∧ Based [.now, .regs, .held, .flags, .counts, .flagAt, .recent, .ev, .queues, .plies, .strands, .cores, .units, .outs, .inps, .rtones, .dec, .convs, .engines, .mem] s t' := by
  unfold execComplyClear
  try dsimp only
  repeat' first
    | refine ⟨_, rfl, ?_⟩
    | with_reducible exact Based.refl _ _
    | with_reducible assumption
    | with_reducible exact Settled.refl
    | ((with_reducible apply Based.fst); · assumption)
    | ((with_reducible apply Based.snd); · assumption)
    | with_reducible apply Based.ite
    | (with_reducible apply Based.foldl; on_goal 1 => intro _ _ _)
    | ((with_reducible apply State.blockWrite_based); (· rfl); on_goal 1 => intro _ _)
    | ((with_reducible apply State.toStrand_closed (Based.closed _ _)); (· rfl); on_goal 1 => intro _ _ _)
    | ((with_reducible apply Based.step (State.clearComply_touches ..)); · rfl)
    | ((with_reducible apply Based.step (State.wrOut_touches ..)); · rfl)
    | split
    | exact fun _ => wrap64_lt _
    | exact id
    | dsimp only

theorem State.rangeSettled_based (s : State) (k o : Nat) :
    Based [.now, .regs, .outs, .convs] s (State.rangeSettled s k o) := by
  unfold State.rangeSettled
  try dsimp only
  repeat' first
    | with_reducible exact Based.refl _ _
    | with_reducible assumption
    | with_reducible exact Settled.refl
    | ((with_reducible apply Based.fst); · assumption)
    | ((with_reducible apply Based.snd); · assumption)
    | with_reducible apply Based.ite
    | (with_reducible apply Based.foldl; on_goal 1 => intro _ _ _)
    | ((with_reducible apply State.toTime_based); · rfl)
    | ((with_reducible apply Based.step (State.setFld_touches ..)); · rfl)
    | ((with_reducible apply Based.step (State.setOut_touches ..)); · rfl)
    | ((with_reducible apply Based.step (State.dueIfOld_touches ..)); · rfl)
    | split
    | exact fun _ => wrap64_lt _
    | exact id
    | dsimp only

theorem execRangeSettled_based (o : OutId) (s : State) :
    ∃ t', execRangeSettled o s = .next t' ∧ Based [.now, .regs, .outs, .convs] s t' := by
  unfold execRangeSettled
  try dsimp only
  repeat' first
    | refine ⟨_, rfl, ?_⟩
    | with_reducible exact Based.refl _ _
    | with_reducible assumption
    | with_reducible exact Settled.refl
    | ((with_reducible apply Based.fst); · assumption)
    | ((with_reducible apply Based.snd); · assumption)
    | with_reducible apply Based.ite
    | (with_reducible apply Based.foldl; on_goal 1 => intro _ _ _)
    | ((with_reducible apply Based.trans (State.rangeSettled_based ..)); · rfl)
    | split
    | exact fun _ => wrap64_lt _
    | exact id
    | dsimp only

theorem State.outComply_touches (s : State) (k c since : Nat) (openLine : Bool) :
    Touches [.flags, .counts, .flagAt, .recent, .ev, .queues, .cores, .units, .outs, .mem] s (State.outComply s k c since openLine) := by
  unfold State.outComply
  try dsimp only
  repeat' first
    | with_reducible exact Touches.refl _ _
    | with_reducible assumption
    | ((with_reducible apply Touches.fst); · assumption)
    | ((with_reducible apply Touches.snd); · assumption)
    | with_reducible apply Touches.ite
    | (with_reducible apply Touches.foldl; on_goal 1 => intro _ _ _)
    | ((with_reducible apply Touches.step (State.goHeld_touches ..)); · rfl)
    | ((with_reducible apply Touches.step (State.setOut_touches ..)); · rfl)
    | ((with_reducible apply Touches.step (State.invalid_touches ..)); · rfl)
    | ((with_reducible apply Touches.step (State.raise_touches ..)); · rfl)
    | split
    | exact fun _ => wrap64_lt _
    | exact id
    | dsimp only

theorem execOutComply_based (t : BitVec 64) (k : Fin 32) (c : Fin 16) (v : OverVoltage) (s : State) :
    ∃ t', execOutComply t k c v s = .next t' ∧ Based [.now, .flags, .counts, .flagAt, .recent, .ev, .queues, .cores, .units, .outs, .mem] s t' := by
  unfold execOutComply
  try dsimp only
  repeat' first
    | refine ⟨_, rfl, ?_⟩
    | with_reducible exact Based.refl _ _
    | with_reducible assumption
    | with_reducible exact Settled.refl
    | ((with_reducible apply Based.fst); · assumption)
    | ((with_reducible apply Based.snd); · assumption)
    | with_reducible apply Based.ite
    | (with_reducible apply Based.foldl; on_goal 1 => intro _ _ _)
    | ((with_reducible apply Based.step (State.outComply_touches ..)); · rfl)
    | ((with_reducible apply State.upTo_based); · rfl)
    | split
    | exact fun _ => wrap64_lt _
    | exact id
    | dsimp only

theorem State.wrOwn_touches (s : State) (k u : Nat) (w : Word) :
    Touches [.regs, .held] s (State.wrOwn s k u w) := by
  unfold State.wrOwn
  try dsimp only
  repeat' first
    | with_reducible exact Touches.refl _ _
    | with_reducible assumption
    | ((with_reducible apply Touches.fst); · assumption)
    | ((with_reducible apply Touches.snd); · assumption)
    | with_reducible apply Touches.ite
    | (with_reducible apply Touches.foldl; on_goal 1 => intro _ _ _)
    | ((with_reducible apply Touches.step (State.hold_touches ..)); · rfl)
    | ((with_reducible apply Touches.step (State.setReg_touches ..)); · rfl)
    | ((with_reducible apply Touches.step (State.unhold_touches ..)); · rfl)
    | split
    | exact fun _ => wrap64_lt _
    | exact id
    | dsimp only

theorem execSeqOwnWrite_based (t : BitVec 64) (k : Fin 32) (u : Fin 80) (w : Word) (s : State) :
    ∃ t', execSeqOwnWrite t k u w s = .next t' ∧ Based [.now, .regs, .held, .flags, .counts, .flagAt, .recent, .ev, .queues, .plies, .strands, .cores, .units, .outs, .inps, .rtones, .dec, .convs, .engines, .mem] s t' := by
  unfold execSeqOwnWrite
  try dsimp only
  repeat' first
    | refine ⟨_, rfl, ?_⟩
    | with_reducible exact Based.refl _ _
    | with_reducible assumption
    | with_reducible exact Settled.refl
    | ((with_reducible apply Based.fst); · assumption)
    | ((with_reducible apply Based.snd); · assumption)
    | with_reducible apply Based.ite
    | (with_reducible apply Based.foldl; on_goal 1 => intro _ _ _)
    | ((with_reducible apply State.strandWrite_based); (· rfl); on_goal 1 => intro _ _ _)
    | ((with_reducible apply Based.step (State.wrOwn_touches ..)); · rfl)
    | split
    | exact fun _ => wrap64_lt _
    | exact id
    | dsimp only

end Sys2Proof.Machine
end

