-- ==== Sys2Proof/Laws/TouchAcquire.lean ====
section
/-! SUPPORT. The parts of the state that each operation of Machine/Acquire.lean can change. -/

namespace Sys2Proof.Machine

open Sys2Proof

theorem State.startSettle_touches (s : State) (k i b : Nat) :
    Touches [.flags, .counts, .flagAt, .recent, .ev, .queues, .cores, .units, .outs, .inps, .rtones, .convs, .engines, .mem] s (State.startSettle s k i b) := by
  unfold State.startSettle
  try dsimp only
  repeat' first
    | with_reducible exact Touches.refl _ _
    | with_reducible assumption
    | ((with_reducible apply Touches.fst); · assumption)
    | ((with_reducible apply Touches.snd); · assumption)
    | with_reducible apply Touches.ite
    | (with_reducible apply Touches.foldl; on_goal 1 => intro _ _ _)
    | ((with_reducible apply Touches.step (State.calAbort_touches ..)); · rfl)
    | ((with_reducible apply Touches.step (State.dueIfOld_touches ..)); · rfl)
    | ((with_reducible apply Touches.step (State.setInp_touches ..)); · rfl)
    | split
    | exact fun _ => wrap64_lt _
    | exact id
    | dsimp only

theorem State.wrInCtl_touches (s : State) (k i : Nat) (w : Word) (b : Nat) :
    Touches [.regs, .held, .flags, .counts, .flagAt, .recent, .ev, .queues, .plies, .strands, .cores, .units, .outs, .inps, .rtones, .dec, .convs, .engines, .mem] s (State.wrInCtl s k i w b) := by
  unfold State.wrInCtl
  try dsimp only
  repeat' first
    | with_reducible exact Touches.refl _ _
    | with_reducible assumption
    | ((with_reducible apply Touches.fst); · assumption)
    | ((with_reducible apply Touches.snd); · assumption)
    | with_reducible apply Touches.ite
    | (with_reducible apply Touches.foldl; on_goal 1 => intro _ _ _)
    | ((with_reducible apply Touches.step (State.writeFields_touches ..)); · rfl)
    | ((with_reducible apply Touches.step (State.unhold_touches ..)); · rfl)
    | ((with_reducible apply Touches.step (State.hold_touches ..)); · rfl)
    | ((with_reducible apply Touches.step (State.setFld_touches ..)); · rfl)
    | ((with_reducible apply Touches.step (State.startSettle_touches ..)); · rfl)
    | ((with_reducible apply Touches.step (State.calAbort_touches ..)); · rfl)
    | ((with_reducible apply Touches.step (State.plainEnable_touches ..)); · rfl)
    | split
    | exact fun _ => wrap64_lt _
    | exact id
    | dsimp only

theorem execInputConfigWrite_based (t : BitVec 64) (k : Fin 32) (i : Fin 2) (w : Word) (s : State) :
    ∃ t', execInputConfigWrite t k i w s = .next t' ∧ Based [.now, .regs, .held, .flags, .counts, .flagAt, .recent, .ev, .queues, .plies, .strands, .cores, .units, .outs, .inps, .rtones, .dec, .convs, .engines, .mem] s t' := by
  unfold execInputConfigWrite
  try dsimp only
  repeat' first
    | refine ⟨_, rfl, ?_⟩
    | with_reducible exact Based.refl _ _
    | with_reducible assumption
    | with_reducible exact Settled.refl
    | ((with_reducible apply Based.fst); · assumption)
    | ((with_reducible apply Based.snd); · assumption)
    | with_reducible apply Based.ite
    | (with_reducible apply Based.foldl; on_goal 1 => intro _ _ _)
    | ((with_reducible apply State.strandWrite_based); (· rfl); on_goal 1 => intro _ _ _)
    | ((with_reducible apply Based.step (State.wrInCtl_touches ..)); · rfl)
    | split
    | exact fun _ => wrap64_lt _
    | exact id
    | dsimp only

theorem State.bandSettled_based (s : State) (k i : Nat) :
    Based [.now, .inps] s (State.bandSettled s k i) := by
  unfold State.bandSettled
  try dsimp only
  repeat' first
    | with_reducible exact Based.refl _ _
    | with_reducible assumption
    | with_reducible exact Settled.refl
    | ((with_reducible apply Based.fst); · assumption)
    | ((with_reducible apply Based.snd); · assumption)
    | with_reducible apply Based.ite
    | (with_reducible apply Based.foldl; on_goal 1 => intro _ _ _)
    | ((with_reducible apply State.toTime_based); · rfl)
    | ((with_reducible apply Based.step (State.setInp_touches ..)); · rfl)
    | split
    | exact fun _ => wrap64_lt _
    | exact id
    | dsimp only

theorem execBandSettled_based (k : Fin 32) (i : Fin 2) (s : State) :
    ∃ t', execBandSettled k i s = .next t' ∧ Based [.now, .inps] s t' := by
  unfold execBandSettled
  try dsimp only
  repeat' first
    | refine ⟨_, rfl, ?_⟩
    | with_reducible exact Based.refl _ _
    | with_reducible assumption
    | with_reducible exact Settled.refl
    | ((with_reducible apply Based.fst); · assumption)
    | ((with_reducible apply Based.snd); · assumption)
    | with_reducible apply Based.ite
    | (with_reducible apply Based.foldl; on_goal 1 => intro _ _ _)
    | ((with_reducible apply Based.trans (State.bandSettled_based ..)); · rfl)
    | split
    | exact fun _ => wrap64_lt _
    | exact id
    | dsimp only

theorem State.overlap_touches (s : State) (c r tag t ms : Nat) :
    Touches [.flags, .counts, .flagAt, .recent, .ev, .queues, .cores, .rtones, .mem] s (State.overlap s c r tag t ms) := by
  unfold State.overlap
  try dsimp only
  repeat' first
    | with_reducible exact Touches.refl _ _
    | with_reducible assumption
    | ((with_reducible apply Touches.fst); · assumption)
    | ((with_reducible apply Touches.snd); · assumption)
    | with_reducible apply Touches.ite
    | (with_reducible apply Touches.foldl; on_goal 1 => intro _ _ _)
    | ((with_reducible apply Touches.step (State.setRtone_touches ..)); · rfl)
    | ((with_reducible apply Touches.step (State.invalid_touches ..)); · rfl)
    | ((with_reducible apply Touches.step (State.raise_touches ..)); · rfl)
    | split
    | exact fun _ => wrap64_lt _
    | exact id
    | dsimp only

theorem State.rawReserve_touches (s : State) (k i len t : Nat) :
    Touches [.flags, .counts, .flagAt, .recent, .ev, .queues, .mem] s (State.rawReserve s k i len t).1 := by
  unfold State.rawReserve
  try dsimp only
  repeat' first
    | with_reducible exact Touches.refl _ _
    | with_reducible assumption
    | ((with_reducible apply Touches.fst); · assumption)
    | ((with_reducible apply Touches.snd); · assumption)
    | with_reducible apply Touches.ite
    | (with_reducible apply Touches.foldl; on_goal 1 => intro _ _ _)
    | ((with_reducible apply Touches.step (State.dropPacket_touches ..)); · rfl)
    | ((with_reducible apply Touches.step (State.pushPacket_touches ..)); · rfl)
    | ((with_reducible apply Touches.step (State.setQueue_touches ..)); · rfl)
    | split
    | exact fun _ => wrap64_lt _
    | exact id
    | dsimp only

theorem State.rawStart_touches (s : State) (k r : Nat) (v : Win) :
    Touches [.flags, .counts, .flagAt, .recent, .ev, .queues, .inps, .mem] s (State.rawStart s k r v).1 := by
  unfold State.rawStart
  try dsimp only
  repeat' first
    | with_reducible exact Touches.refl _ _
    | with_reducible assumption
    | ((with_reducible apply Touches.fst); · assumption)
    | ((with_reducible apply Touches.snd); · assumption)
    | with_reducible apply Touches.ite
    | (with_reducible apply Touches.foldl; on_goal 1 => intro _ _ _)
    | ((with_reducible apply Touches.step (State.rawReserve_touches ..)); · rfl)
    | ((with_reducible apply Touches.step (State.setInp_touches ..)); · rfl)
    | ((with_reducible apply Touches.step (State.raise_touches ..)); · rfl)
    | ((with_reducible apply Touches.step (State.bump_touches ..)); · rfl)
    | split
    | exact fun _ => wrap64_lt _
    | exact id
    | dsimp only

theorem State.openWin_touches (s : State) (k r : Nat) (v : Win) :
    Touches [.flags, .counts, .flagAt, .recent, .ev, .queues, .inps, .rtones, .mem] s (State.openWin s k r v) := by
  unfold State.openWin
  try dsimp only
  repeat' first
    | with_reducible exact Touches.refl _ _
    | with_reducible assumption
    | ((with_reducible apply Touches.fst); · assumption)
    | ((with_reducible apply Touches.snd); · assumption)
    | with_reducible apply Touches.ite
    | (with_reducible apply Touches.foldl; on_goal 1 => intro _ _ _)
    | ((with_reducible apply Touches.step (State.rawStart_touches ..)); · rfl)
    | ((with_reducible apply Touches.step (State.setRtone_touches ..)); · rfl)
    | split
    | exact fun _ => wrap64_lt _
    | exact id
    | dsimp only

theorem State.noteWin_touches (s : State) (c r : Nat) (v : Win) (e : Nat) :
    Touches [.cores, .units] s (State.noteWin s c r v e) := by
  unfold State.noteWin
  try dsimp only
  repeat' first
    | with_reducible exact Touches.refl _ _
    | with_reducible assumption
    | ((with_reducible apply Touches.fst); · assumption)
    | ((with_reducible apply Touches.snd); · assumption)
    | with_reducible apply Touches.ite
    | (with_reducible apply Touches.foldl; on_goal 1 => intro _ _ _)
    | ((with_reducible apply Touches.step (State.setCore_touches ..)); · rfl)
    | ((with_reducible apply Touches.step (State.setPunit_touches ..)); · rfl)
    | ((with_reducible apply Touches.step (State.note_touches ..)); · rfl)
    | split
    | exact fun _ => wrap64_lt _
    | exact id
    | dsimp only

theorem State.noteAcq_touches (s : State) (c r t : Nat) :
    Touches [.cores] s (State.noteAcq s c r t) := by
  unfold State.noteAcq
  try dsimp only
  repeat' first
    | with_reducible exact Touches.refl _ _
    | with_reducible assumption
    | ((with_reducible apply Touches.fst); · assumption)
    | ((with_reducible apply Touches.snd); · assumption)
    | with_reducible apply Touches.ite
    | (with_reducible apply Touches.foldl; on_goal 1 => intro _ _ _)
    | ((with_reducible apply Touches.step (State.note_touches ..)); · rfl)
    | split
    | exact fun _ => wrap64_lt _
    | exact id
    | dsimp only

theorem State.doAcq_touches (s : State) (c : Nat) (chk : Bool) (w : Nat) (tm : Tim) :
    Touches [.flags, .counts, .flagAt, .recent, .ev, .queues, .cores, .units, .inps, .rtones, .mem] s (State.doAcq s c chk w tm) := by
  unfold State.doAcq
  try dsimp only
  repeat' first
    | with_reducible exact Touches.refl _ _
    | with_reducible assumption
    | ((with_reducible apply Touches.fst); · assumption)
    | ((with_reducible apply Touches.snd); · assumption)
    | with_reducible apply Touches.ite
    | (with_reducible apply Touches.foldl; on_goal 1 => intro _ _ _)
    | ((with_reducible apply Touches.step (State.overlap_touches ..)); · rfl)
    | ((with_reducible apply Touches.step (State.noteAcq_touches ..)); · rfl)
    | ((with_reducible apply Touches.step (State.noteWin_touches ..)); · rfl)
    | ((with_reducible apply Touches.step (State.openWin_touches ..)); · rfl)
    | ((with_reducible apply Touches.step (State.dpathCheck_touches ..)); · rfl)
    | split
    | exact fun _ => wrap64_lt _
    | exact id
    | dsimp only

theorem execAcq_based (c : Fin 256) (chk : Bool) (s : State) :
    ∃ t', execAcq c chk s = .next t' ∧ Based [.now, .regs, .frameLog, .flags, .counts, .flagAt, .recent, .ev, .queues, .strands, .cores, .units, .outs, .inps, .rtones, .mem] s t' := by
  unfold execAcq
  try dsimp only
  repeat' first
    | refine ⟨_, rfl, ?_⟩
    | with_reducible exact Based.refl _ _
    | with_reducible assumption
    | with_reducible exact Settled.refl
    | ((with_reducible apply Based.fst); · assumption)
    | ((with_reducible apply Based.snd); · assumption)
    | with_reducible apply Based.ite
    | (with_reducible apply Based.foldl; on_goal 1 => intro _ _ _)
    | ((with_reducible apply State.runWord_based); (· rfl); on_goal 1 => intro _ _ _ _)
    | ((with_reducible apply Based.step (State.doAcq_touches ..)); · rfl)
    | split
    | exact fun _ => wrap64_lt _
    | exact id
    | dsimp only

theorem State.addClips_touches (s : State) (k i : Nat) (clips : List Nat) :
    Touches [.counts, .recent, .inps] s (State.addClips s k i clips) := by
  unfold State.addClips
  try dsimp only
  repeat' first
    | with_reducible exact Touches.refl _ _
    | with_reducible assumption
    | ((with_reducible apply Touches.fst); · assumption)
    | ((with_reducible apply Touches.snd); · assumption)
    | with_reducible apply Touches.ite
    | (with_reducible apply Touches.foldl; on_goal 1 => intro _ _ _)
    | ((with_reducible apply Touches.step (State.setInp_touches ..)); · rfl)
    | ((with_reducible apply Touches.step (State.bump_touches ..)); · rfl)
    | split
    | exact fun _ => wrap64_lt _
    | exact id
    | dsimp only

theorem State.reportOvr_touches (s : State) (k r : Nat) (v : Win) :
    Touches [.flags, .counts, .flagAt, .recent, .ev, .queues, .cores, .mem] s (State.reportOvr s k r v) := by
  unfold State.reportOvr
  try dsimp only
  repeat' first
    | with_reducible exact Touches.refl _ _
    | with_reducible assumption
    | ((with_reducible apply Touches.fst); · assumption)
    | ((with_reducible apply Touches.snd); · assumption)
    | with_reducible apply Touches.ite
    | (with_reducible apply Touches.foldl; on_goal 1 => intro _ _ _)
    | ((with_reducible apply Touches.step (State.raise_touches ..)); · rfl)
    | ((with_reducible apply Touches.step (State.setCore_touches ..)); · rfl)
    | split
    | exact fun _ => wrap64_lt _
    | exact id
    | dsimp only

theorem State.calInvalid_touches (s : State) (v : Win) :
    Touches [.cores] s (State.calInvalid s v) := by
  unfold State.calInvalid
  try dsimp only
  repeat' first
    | with_reducible exact Touches.refl _ _
    | with_reducible assumption
    | ((with_reducible apply Touches.fst); · assumption)
    | ((with_reducible apply Touches.snd); · assumption)
    | with_reducible apply Touches.ite
    | (with_reducible apply Touches.foldl; on_goal 1 => intro _ _ _)
    | ((with_reducible apply Touches.step (State.invalid_touches ..)); · rfl)
    | ((with_reducible apply Touches.step (State.setCore_touches ..)); · rfl)
    | split
    | exact fun _ => wrap64_lt _
    | exact id
    | dsimp only

theorem State.kernelUe_touches (s : State) (k r : Nat) (v : Win) :
    Touches [.flags, .counts, .flagAt, .recent, .ev, .queues, .cores, .mem] s (State.kernelUe s k r v) := by
  unfold State.kernelUe
  try dsimp only
  repeat' first
    | with_reducible exact Touches.refl _ _
    | with_reducible assumption
    | ((with_reducible apply Touches.fst); · assumption)
    | ((with_reducible apply Touches.snd); · assumption)
    | with_reducible apply Touches.ite
    | (with_reducible apply Touches.foldl; on_goal 1 => intro _ _ _)
    | ((with_reducible apply Touches.step (State.calInvalid_touches ..)); · rfl)
    | ((with_reducible apply Touches.step (State.sramUe_touches ..)); · rfl)
    | split
    | exact fun _ => wrap64_lt _
    | exact id
    | dsimp only

theorem State.makeResult_touches (s : State) (k r : Nat) (v : Win) (f : WFlags) (i q : Int) (dstate st : Nat) (parityOk : Bool) :
    Touches [.flags, .counts, .flagAt, .recent, .ev, .queues, .strands, .cores, .mem] s (State.makeResult s k r v f i q dstate st parityOk) := by
  unfold State.makeResult
  try dsimp only
  repeat' first
    | with_reducible exact Touches.refl _ _
    | with_reducible assumption
    | ((with_reducible apply Touches.fst); · assumption)
    | ((with_reducible apply Touches.snd); · assumption)
    | with_reducible apply Touches.ite
    | (with_reducible apply Touches.foldl; on_goal 1 => intro _ _ _)
    | ((with_reducible apply Touches.step (State.setCore_touches ..)); · rfl)
    | ((with_reducible apply Touches.step (State.loseResult_touches ..)); · rfl)
    | ((with_reducible apply Touches.step (State.stage_touches ..)); · rfl)
    | split
    | exact fun _ => wrap64_lt _
    | exact id
    | dsimp only

theorem State.endRaw_touches (s : State) (k r : Nat) (v : Win) :
    Touches [.inps] s (State.endRaw s k r v) := by
  unfold State.endRaw
  try dsimp only
  repeat' first
    | with_reducible exact Touches.refl _ _
    | with_reducible assumption
    | ((with_reducible apply Touches.fst); · assumption)
    | ((with_reducible apply Touches.snd); · assumption)
    | with_reducible apply Touches.ite
    | (with_reducible apply Touches.foldl; on_goal 1 => intro _ _ _)
    | ((with_reducible apply Touches.step (State.setInp_touches ..)); · rfl)
    | split
    | exact fun _ => wrap64_lt _
    | exact id
    | dsimp only

theorem State.decideSlot_touches (s : State) (k r : Nat) (v : Win) (st : Nat) :
    Touches [.dec] s (State.decideSlot s k r v st) := by
  unfold State.decideSlot
  try dsimp only
  repeat' first
    | with_reducible exact Touches.refl _ _
    | with_reducible assumption
    | ((with_reducible apply Touches.fst); · assumption)
    | ((with_reducible apply Touches.snd); · assumption)
    | with_reducible apply Touches.ite
    | (with_reducible apply Touches.foldl; on_goal 1 => intro _ _ _)
    | ((with_reducible apply Touches.step (State.writeSlot_touches ..)); · rfl)
    | split
    | exact fun _ => wrap64_lt _
    | exact id
    | dsimp only

theorem State.windowComplete_based (s0 : State) (k r : Nat) (xs : List Int) (clips : List Nat) (parityOk : Bool) :
    Based [.now, .flags, .counts, .flagAt, .recent, .ev, .queues, .strands, .cores, .inps, .rtones, .dec, .mem] s0 (State.windowComplete s0 k r xs clips parityOk) := by
  unfold State.windowComplete
  try dsimp only
  repeat' first
    | with_reducible exact Based.refl _ _
    | with_reducible assumption
    | with_reducible exact Settled.refl
    | ((with_reducible apply Based.fst); · assumption)
    | ((with_reducible apply Based.snd); · assumption)
    | with_reducible apply Based.ite
    | (with_reducible apply Based.foldl; on_goal 1 => intro _ _ _)
    | ((with_reducible apply State.toTime_based); · rfl)
    | ((with_reducible apply Based.step (State.addClips_touches ..)); · rfl)
    | ((with_reducible apply Based.step (State.setRtone_touches ..)); · rfl)
    | ((with_reducible apply Based.step (State.reportOvr_touches ..)); · rfl)
    | ((with_reducible apply Based.step (State.decideSlot_touches ..)); · rfl)
    | ((with_reducible apply Based.step (State.kernelUe_touches ..)); · rfl)
    | ((with_reducible apply Based.step (State.calInvalid_touches ..)); · rfl)
    | ((with_reducible apply Based.step (State.endRaw_touches ..)); · rfl)
    | ((with_reducible apply Based.step (State.makeResult_touches ..)); · rfl)
    | split
    | exact fun _ => wrap64_lt _
    | exact id
    | dsimp only

theorem execWindowComplete_based (k r : Fin 32) (xs : List Int) (clips : List Nat) (parityOk : Bool) (s : State) :
    ∃ t', execWindowComplete k r xs clips parityOk s = .next t' ∧ Based [.now, .flags, .counts, .flagAt, .recent, .ev, .queues, .strands, .cores, .inps, .rtones, .dec, .mem] s t' := by
  unfold execWindowComplete
  try dsimp only
  repeat' first
    | refine ⟨_, rfl, ?_⟩
    | with_reducible exact Based.refl _ _
    | with_reducible assumption
    | with_reducible exact Settled.refl
    | ((with_reducible apply Based.fst); · assumption)
    | ((with_reducible apply Based.snd); · assumption)
    | with_reducible apply Based.ite
    | (with_reducible apply Based.foldl; on_goal 1 => intro _ _ _)
    | ((with_reducible apply Based.trans (State.windowComplete_based ..)); · rfl)
    | split
    | exact fun _ => wrap64_lt _
    | exact id
    | dsimp only

theorem State.rawDrain_based (s : State) (k i t : Nat) (samples : List Int) :
    Based [.now, .counts, .recent, .queues, .inps] s (State.rawDrain s k i t samples) := by
  unfold State.rawDrain
  try dsimp only
  repeat' first
    | with_reducible exact Based.refl _ _
    | with_reducible assumption
    | with_reducible exact Settled.refl
    | ((with_reducible apply Based.fst); · assumption)
    | ((with_reducible apply Based.snd); · assumption)
    | with_reducible apply Based.ite
    | (with_reducible apply Based.foldl; on_goal 1 => intro _ _ _)
    | ((with_reducible apply State.toTime_based); · rfl)
    | ((with_reducible apply Based.step (State.addClips_touches ..)); · rfl)
    | ((with_reducible apply Based.step (State.setInp_touches ..)); · rfl)
    | ((with_reducible apply Based.step (State.setQueue_touches ..)); · rfl)
    | split
    | exact fun _ => wrap64_lt _
    | exact id
    | dsimp only

theorem execRawDrainDone_based (t : BitVec 64) (k : Fin 32) (i : Fin 2) (samples : List Int) (s : State) :
    ∃ t', execRawDrainDone t k i samples s = .next t' ∧ Based [.now, .counts, .recent, .queues, .inps] s t' := by
  unfold execRawDrainDone
  try dsimp only
  repeat' first
    | refine ⟨_, rfl, ?_⟩
    | with_reducible exact Based.refl _ _
    | with_reducible assumption
    | with_reducible exact Settled.refl
    | ((with_reducible apply Based.fst); · assumption)
    | ((with_reducible apply Based.snd); · assumption)
    | with_reducible apply Based.ite
    | (with_reducible apply Based.foldl; on_goal 1 => intro _ _ _)
    | ((with_reducible apply Based.trans (State.rawDrain_based ..)); · rfl)
    | split
    | exact fun _ => wrap64_lt _
    | exact id
    | dsimp only

theorem State.wrDiscCtl_touches (s : State) (k r : Nat) (w : Word) :
    Touches [.regs, .rtones] s (State.wrDiscCtl s k r w) := by
  unfold State.wrDiscCtl
  try dsimp only
  repeat' first
    | with_reducible exact Touches.refl _ _
    | with_reducible assumption
    | ((with_reducible apply Touches.fst); · assumption)
    | ((with_reducible apply Touches.snd); · assumption)
    | with_reducible apply Touches.ite
    | (with_reducible apply Touches.foldl; on_goal 1 => intro _ _ _)
    | ((with_reducible apply Touches.step (State.writeFields_touches ..)); · rfl)
    | ((with_reducible apply Touches.step (State.setRtone_touches ..)); · rfl)
    | split
    | exact fun _ => wrap64_lt _
    | exact id
    | dsimp only

theorem execDiscCommit_based (t : BitVec 64) (k r : Fin 32) (w : Word) (s : State) :
    ∃ t', execDiscCommit t k r w s = .next t' ∧ Based [.now, .regs, .flags, .counts, .flagAt, .recent, .ev, .queues, .plies, .strands, .cores, .units, .outs, .inps, .rtones, .dec, .convs, .engines, .mem] s t' := by
  unfold execDiscCommit
  try dsimp only
  repeat' first
    | refine ⟨_, rfl, ?_⟩
    | with_reducible exact Based.refl _ _
    | with_reducible assumption
    | with_reducible exact Settled.refl
    | ((with_reducible apply Based.fst); · assumption)
    | ((with_reducible apply Based.snd); · assumption)
    | with_reducible apply Based.ite
    | (with_reducible apply Based.foldl; on_goal 1 => intro _ _ _)
    | ((with_reducible apply State.strandWrite_based); (· rfl); on_goal 1 => intro _ _ _)
    | ((with_reducible apply Based.step (State.wrDiscCtl_touches ..)); · rfl)
    | split
    | exact fun _ => wrap64_lt _
    | exact id
    | dsimp only

end Sys2Proof.Machine
end

