-- ==== Sys2Proof/Laws/TouchDecision.lean ====
section
/-! SUPPORT. The parts of the state that each operation of Machine/Decision.lean can change. -/

namespace Sys2Proof.Machine

open Sys2Proof

theorem State.decCommit_touches (s : State) (d : Nat) :
    Touches [.dec] s (State.decCommit s d) := by
  unfold State.decCommit
  try dsimp only
  repeat' first
    | with_reducible exact Touches.refl _ _
    | with_reducible assumption
    | ((with_reducible apply Touches.fst); · assumption)
    | ((with_reducible apply Touches.snd); · assumption)
    | with_reducible apply Touches.ite
    | (with_reducible apply Touches.foldl; on_goal 1 => intro _ _ _)
    | ((with_reducible apply Touches.upd_dec); · rfl)
    | split
    | exact fun _ => wrap64_lt _
    | exact id
    | dsimp only

theorem State.wrDctl_touches (s : State) (d : Nat) (w : Word) :
    Touches [.regs, .dec] s (State.wrDctl s d w) := by
  unfold State.wrDctl
  try dsimp only
  repeat' first
    | with_reducible exact Touches.refl _ _
    | with_reducible assumption
    | ((with_reducible apply Touches.fst); · assumption)
    | ((with_reducible apply Touches.snd); · assumption)
    | with_reducible apply Touches.ite
    | (with_reducible apply Touches.foldl; on_goal 1 => intro _ _ _)
    | ((with_reducible apply Touches.step (State.setReg_touches ..)); · rfl)
    | ((with_reducible apply Touches.step (State.decCommit_touches ..)); · rfl)
    | split
    | exact fun _ => wrap64_lt _
    | exact id
    | dsimp only

theorem execDecCommit_touches (t : BitVec 64) (d : Fin 256) (w : Word) (s : State) :
    ∃ t', execDecCommit t d w s = .next t' ∧ Touches [.now, .regs, .dec] s t' := by
  unfold execDecCommit
  try dsimp only
  repeat' first
    | refine ⟨_, rfl, ?_⟩
    | with_reducible exact Touches.refl _ _
    | with_reducible assumption
    | ((with_reducible apply Touches.fst); · assumption)
    | ((with_reducible apply Touches.snd); · assumption)
    | with_reducible apply Touches.ite
    | (with_reducible apply Touches.foldl; on_goal 1 => intro _ _ _)
    | ((with_reducible apply State.hubWrite_closed (Touches.closed _ _)); (· rfl); on_goal 1 => intro _ _)
    | ((with_reducible apply Touches.step (State.wrDctl_touches ..)); · rfl)
    | split
    | exact fun _ => wrap64_lt _
    | exact id
    | dsimp only

theorem State.enterImport_touches (s : State) (p k : Nat) :
    Touches [.dec] s (State.enterImport s p k) := by
  unfold State.enterImport
  try dsimp only
  repeat' first
    | with_reducible exact Touches.refl _ _
    | with_reducible assumption
    | ((with_reducible apply Touches.fst); · assumption)
    | ((with_reducible apply Touches.snd); · assumption)
    | with_reducible apply Touches.ite
    | (with_reducible apply Touches.foldl; on_goal 1 => intro _ _ _)
    | ((with_reducible apply Touches.upd_dec); · rfl)
    | split
    | exact fun _ => wrap64_lt _
    | exact id
    | dsimp only

theorem State.putImport_touches (s : State) (p k : Nat) (w : Word) :
    Touches [.regs, .dec] s (State.putImport s p k w) := by
  unfold State.putImport
  try dsimp only
  repeat' first
    | with_reducible exact Touches.refl _ _
    | with_reducible assumption
    | ((with_reducible apply Touches.fst); · assumption)
    | ((with_reducible apply Touches.snd); · assumption)
    | with_reducible apply Touches.ite
    | (with_reducible apply Touches.foldl; on_goal 1 => intro _ _ _)
    | ((with_reducible apply Touches.step (State.enterImport_touches ..)); · rfl)
    | ((with_reducible apply Touches.step (State.setReg_touches ..)); · rfl)
    | split
    | exact fun _ => wrap64_lt _
    | exact id
    | dsimp only

theorem State.wrImport_touches (s : State) (p k : Nat) (w : Word) :
    Touches [.regs, .held, .dec] s (State.wrImport s p k w) := by
  unfold State.wrImport
  try dsimp only
  repeat' first
    | with_reducible exact Touches.refl _ _
    | with_reducible assumption
    | ((with_reducible apply Touches.fst); · assumption)
    | ((with_reducible apply Touches.snd); · assumption)
    | with_reducible apply Touches.ite
    | (with_reducible apply Touches.foldl; on_goal 1 => intro _ _ _)
    | ((with_reducible apply Touches.step (State.setFld_touches ..)); · rfl)
    | ((with_reducible apply Touches.step (State.hold_touches ..)); · rfl)
    | ((with_reducible apply Touches.step (State.putImport_touches ..)); · rfl)
    | ((with_reducible apply Touches.step (State.unhold_touches ..)); · rfl)
    | split
    | exact fun _ => wrap64_lt _
    | exact id
    | dsimp only

theorem State.putProfile_touches (s : State) (c p : Nat) :
    Touches [.regs, .dec] s (State.putProfile s c p) := by
  unfold State.putProfile
  try dsimp only
  repeat' first
    | with_reducible exact Touches.refl _ _
    | with_reducible assumption
    | ((with_reducible apply Touches.fst); · assumption)
    | ((with_reducible apply Touches.snd); · assumption)
    | with_reducible apply Touches.ite
    | (with_reducible apply Touches.foldl; on_goal 1 => intro _ _ _)
    | ((with_reducible apply Touches.step (State.enterImport_touches ..)); · rfl)
    | ((with_reducible apply Touches.step (State.setReg_touches ..)); · rfl)
    | split
    | exact fun _ => wrap64_lt _
    | exact id
    | dsimp only

theorem State.dropProfile_touches (s : State) (p : Nat) :
    Touches [.dec] s (State.dropProfile s p) := by
  unfold State.dropProfile
  try dsimp only
  repeat' first
    | with_reducible exact Touches.refl _ _
    | with_reducible assumption
    | ((with_reducible apply Touches.fst); · assumption)
    | ((with_reducible apply Touches.snd); · assumption)
    | with_reducible apply Touches.ite
    | (with_reducible apply Touches.foldl; on_goal 1 => intro _ _ _)
    | ((with_reducible apply Touches.upd_dec); · rfl)
    | split
    | exact fun _ => wrap64_lt _
    | exact id
    | dsimp only

theorem State.applyImports_touches (s : State) (p : Nat) :
    Touches [.regs, .held, .dec] s (State.applyImports s p) := by
  unfold State.applyImports
  try dsimp only
  repeat' first
    | with_reducible exact Touches.refl _ _
    | with_reducible assumption
    | ((with_reducible apply Touches.fst); · assumption)
    | ((with_reducible apply Touches.snd); · assumption)
    | with_reducible apply Touches.ite
    | (with_reducible apply Touches.foldl; on_goal 1 => intro _ _ _)
    | ((with_reducible apply Touches.step (State.putProfile_touches ..)); · rfl)
    | ((with_reducible apply Touches.step (State.dropProfile_touches ..)); · rfl)
    | ((with_reducible apply Touches.step (State.putImport_touches ..)); · rfl)
    | ((with_reducible apply Touches.step (State.unhold_touches ..)); · rfl)
    | split
    | exact fun _ => wrap64_lt _
    | exact id
    | dsimp only

theorem State.importProfile_touches (s : State) (c p : Nat) :
    Touches [.regs, .held, .dec] s (State.importProfile s c p) := by
  unfold State.importProfile
  try dsimp only
  repeat' first
    | with_reducible exact Touches.refl _ _
    | with_reducible assumption
    | ((with_reducible apply Touches.fst); · assumption)
    | ((with_reducible apply Touches.snd); · assumption)
    | with_reducible apply Touches.ite
    | (with_reducible apply Touches.foldl; on_goal 1 => intro _ _ _)
    | ((with_reducible apply Touches.step (State.dropProfile_touches ..)); · rfl)
    | ((with_reducible apply Touches.step (State.unhold_touches ..)); · rfl)
    | ((with_reducible apply Touches.step (State.putProfile_touches ..)); · rfl)
    | ((with_reducible apply Touches.upd_dec); · rfl)
    | split
    | exact fun _ => wrap64_lt _
    | exact id
    | dsimp only

theorem State.wrDecCtl_touches (s : State) (w : Word) :
    Touches [.regs, .held, .dec] s (State.wrDecCtl s w) := by
  unfold State.wrDecCtl
  try dsimp only
  repeat' first
    | with_reducible exact Touches.refl _ _
    | with_reducible assumption
    | ((with_reducible apply Touches.fst); · assumption)
    | ((with_reducible apply Touches.snd); · assumption)
    | with_reducible apply Touches.ite
    | (with_reducible apply Touches.foldl; on_goal 1 => intro _ _ _)
    | ((with_reducible apply Touches.step (State.setReg_touches ..)); · rfl)
    | ((with_reducible apply Touches.step (State.importProfile_touches ..)); · rfl)
    | split
    | exact fun _ => wrap64_lt _
    | exact id
    | dsimp only

theorem execImportWrite_based (t : BitVec 64) (p : Fin 4) (k : Fin 128) (w : Word) (s : State) :
    ∃ t', execImportWrite t p k w s = .next t' ∧ Based [.now, .regs, .held, .dec] s t' := by
  unfold execImportWrite
  try dsimp only
  repeat' first
    | refine ⟨_, rfl, ?_⟩
    | with_reducible exact Based.refl _ _
    | with_reducible assumption
    | with_reducible exact Settled.refl
    | ((with_reducible apply Based.fst); · assumption)
    | ((with_reducible apply Based.snd); · assumption)
    | with_reducible apply Based.ite
    | (with_reducible apply Based.foldl; on_goal 1 => intro _ _ _)
    | ((with_reducible apply State.blockWrite_based); (· rfl); on_goal 1 => intro _ _)
    | ((with_reducible apply Based.step (State.wrImport_touches ..)); · rfl)
    | split
    | exact fun _ => wrap64_lt _
    | exact id
    | dsimp only

theorem State.sbFail_touches (s : State) (p n dir : Nat) :
    Touches [.flags, .counts, .flagAt, .recent, .ev, .queues, .cores, .mem] s (State.sbFail s p n dir) := by
  unfold State.sbFail
  try dsimp only
  repeat' first
    | with_reducible exact Touches.refl _ _
    | with_reducible assumption
    | ((with_reducible apply Touches.fst); · assumption)
    | ((with_reducible apply Touches.snd); · assumption)
    | with_reducible apply Touches.ite
    | (with_reducible apply Touches.foldl; on_goal 1 => intro _ _ _)
    | ((with_reducible apply Touches.step (State.invalidAll_touches ..)); · rfl)
    | ((with_reducible apply Touches.step (State.raise_touches ..)); · rfl)
    | ((with_reducible apply Touches.step (State.bump_touches ..)); · rfl)
    | split
    | exact fun _ => wrap64_lt _
    | exact id
    | dsimp only

theorem State.sideband_based (s : State) (p n : Nat) (f : SbFrame) :
    Based [.now, .flags, .counts, .flagAt, .recent, .ev, .queues, .cores, .dec, .mem] s (State.sideband s p n f) := by
  unfold State.sideband
  try dsimp only
  repeat' first
    | with_reducible exact Based.refl _ _
    | with_reducible assumption
    | with_reducible exact Settled.refl
    | ((with_reducible apply Based.fst); · assumption)
    | ((with_reducible apply Based.snd); · assumption)
    | with_reducible apply Based.ite
    | (with_reducible apply Based.foldl; on_goal 1 => intro _ _ _)
    | split
    | ((with_reducible apply State.toTime_based); · rfl)
    | ((with_reducible apply Based.step (State.sbFail_touches ..)); · rfl)
    | with_reducible refine Based.lift (fun _ h => Touches.upd_dec rfl h) ?_
    | exact fun _ => wrap64_lt _
    | exact id
    | dsimp only

theorem execSidebandFrame_based (p : Fin 4) (n : Nat) (f : SbFrame) (s : State) :
    ∃ t', execSidebandFrame p n f s = .next t' ∧ Based [.now, .flags, .counts, .flagAt, .recent, .ev, .queues, .cores, .dec, .mem] s t' := by
  unfold execSidebandFrame
  try dsimp only
  repeat' first
    | refine ⟨_, rfl, ?_⟩
    | with_reducible exact Based.refl _ _
    | with_reducible assumption
    | with_reducible exact Settled.refl
    | ((with_reducible apply Based.fst); · assumption)
    | ((with_reducible apply Based.snd); · assumption)
    | with_reducible apply Based.ite
    | (with_reducible apply Based.foldl; on_goal 1 => intro _ _ _)
    | ((with_reducible apply Based.trans (State.sideband_based ..)); · rfl)
    | split
    | exact fun _ => wrap64_lt _
    | exact id
    | dsimp only

end Sys2Proof.Machine
end

