-- ==== Sys2Proof/Laws/TouchHitch.lean ====
section
/-! SUPPORT. The parts of the state that each operation of Machine/Hitch.lean can change. -/

namespace Sys2Proof.Machine

open Sys2Proof

theorem State.setLane_touches (s : State) (l : Nat) (x : Lane) :
    Touches [.hch] s (State.setLane s l x) := by
  unfold State.setLane
  try dsimp only
  repeat' first
    | with_reducible exact Touches.refl _ _
    | with_reducible assumption
    | ((with_reducible apply Touches.fst); · assumption)
    | ((with_reducible apply Touches.snd); · assumption)
    | with_reducible apply Touches.ite
    | (with_reducible apply Touches.foldl; on_goal 1 => intro _ _ _)
    | ((with_reducible apply Touches.upd_hch); · rfl)
    | split
    | exact fun _ => wrap64_lt _
    | exact id
    | dsimp only

theorem State.setHdir_touches (s : State) (d : Nat) (x : HDir) :
    Touches [.hch] s (State.setHdir s d x) := by
  unfold State.setHdir
  try dsimp only
  repeat' first
    | with_reducible exact Touches.refl _ _
    | with_reducible assumption
    | ((with_reducible apply Touches.fst); · assumption)
    | ((with_reducible apply Touches.snd); · assumption)
    | with_reducible apply Touches.ite
    | (with_reducible apply Touches.foldl; on_goal 1 => intro _ _ _)
    | ((with_reducible apply Touches.upd_hch); · rfl)
    | split
    | exact fun _ => wrap64_lt _
    | exact id
    | dsimp only

theorem State.sendCtl_touches (s : State) (l : Nat) (bs : List (Nat × Nat)) :
    Touches [.hch] s (State.sendCtl s l bs) := by
  unfold State.sendCtl
  try dsimp only
  repeat' first
    | with_reducible exact Touches.refl _ _
    | with_reducible assumption
    | ((with_reducible apply Touches.fst); · assumption)
    | ((with_reducible apply Touches.snd); · assumption)
    | with_reducible apply Touches.ite
    | (with_reducible apply Touches.foldl; on_goal 1 => intro _ _ _)
    | ((with_reducible apply Touches.upd_hch); · rfl)
    | split
    | exact fun _ => wrap64_lt _
    | exact id
    | dsimp only

theorem State.wakeLane_touches (s : State) (l : Nat) :
    Touches [.hch] s (State.wakeLane s l) := by
  unfold State.wakeLane
  try dsimp only
  repeat' first
    | with_reducible exact Touches.refl _ _
    | with_reducible assumption
    | ((with_reducible apply Touches.fst); · assumption)
    | ((with_reducible apply Touches.snd); · assumption)
    | with_reducible apply Touches.ite
    | (with_reducible apply Touches.foldl; on_goal 1 => intro _ _ _)
    | ((with_reducible apply Touches.step (State.sendCtl_touches ..)); · rfl)
    | ((with_reducible apply Touches.step (State.setLane_touches ..)); · rfl)
    | split
    | exact fun _ => wrap64_lt _
    | exact id
    | dsimp only

theorem State.idleLane_touches (s : State) (l : Nat) :
    Touches [.hch] s (State.idleLane s l) := by
  unfold State.idleLane
  try dsimp only
  repeat' first
    | with_reducible exact Touches.refl _ _
    | with_reducible assumption
    | ((with_reducible apply Touches.fst); · assumption)
    | ((with_reducible apply Touches.snd); · assumption)
    | with_reducible apply Touches.ite
    | (with_reducible apply Touches.foldl; on_goal 1 => intro _ _ _)
    | ((with_reducible apply Touches.step (State.sendCtl_touches ..)); · rfl)
    | ((with_reducible apply Touches.step (State.setLane_touches ..)); · rfl)
    | split
    | exact fun _ => wrap64_lt _
    | exact id
    | dsimp only

theorem State.setBIdle_touches (s : State) (d : Nat) (idle : Bool) :
    Touches [.hch] s (State.setBIdle s d idle) := by
  unfold State.setBIdle
  try dsimp only
  repeat' first
    | with_reducible exact Touches.refl _ _
    | with_reducible assumption
    | ((with_reducible apply Touches.fst); · assumption)
    | ((with_reducible apply Touches.snd); · assumption)
    | with_reducible apply Touches.ite
    | (with_reducible apply Touches.foldl; on_goal 1 => intro _ _ _)
    | ((with_reducible apply Touches.step (State.idleLane_touches ..)); · rfl)
    | ((with_reducible apply Touches.step (State.wakeLane_touches ..)); · rfl)
    | split
    | exact fun _ => wrap64_lt _
    | exact id
    | dsimp only

theorem State.eachServed_touches (s : State) (d c : Nat) (f : Nat → HBit → HBit) :
    Touches [.dec] s (State.eachServed s d c f) := by
  unfold State.eachServed
  try dsimp only
  repeat' first
    | with_reducible exact Touches.refl _ _
    | with_reducible assumption
    | ((with_reducible apply Touches.fst); · assumption)
    | ((with_reducible apply Touches.snd); · assumption)
    | with_reducible apply Touches.ite
    | (with_reducible apply Touches.foldl; on_goal 1 => intro _ _ _)
    | ((with_reducible apply Touches.step (State.setHbit_touches ..)); · rfl)
    | split
    | exact fun _ => wrap64_lt _
    | exact id
    | dsimp only

theorem State.holdBits_touches (s : State) (d c j : Nat) :
    Touches [.dec] s (State.holdBits s d c j) := by
  unfold State.holdBits
  try dsimp only
  repeat' first
    | with_reducible exact Touches.refl _ _
    | with_reducible assumption
    | ((with_reducible apply Touches.fst); · assumption)
    | ((with_reducible apply Touches.snd); · assumption)
    | with_reducible apply Touches.ite
    | (with_reducible apply Touches.foldl; on_goal 1 => intro _ _ _)
    | ((with_reducible apply Touches.step (State.eachServed_touches ..)); · rfl)
    | split
    | exact fun _ => wrap64_lt _
    | exact id
    | dsimp only

theorem State.holdDir_touches (s : State) (d : Nat) :
    Touches [.dec] s (State.holdDir s d) := by
  unfold State.holdDir
  try dsimp only
  repeat' first
    | with_reducible exact Touches.refl _ _
    | with_reducible assumption
    | ((with_reducible apply Touches.fst); · assumption)
    | ((with_reducible apply Touches.snd); · assumption)
    | with_reducible apply Touches.ite
    | (with_reducible apply Touches.foldl; on_goal 1 => intro _ _ _)
    | ((with_reducible apply Touches.step (State.holdBits_touches ..)); · rfl)
    | split
    | exact fun _ => wrap64_lt _
    | exact id
    | dsimp only

theorem State.splice_touches (s : State) (d cause t : Nat) :
    Touches [.flags, .counts, .flagAt, .recent, .ev, .queues, .hch, .mem] s (State.splice s d cause t) := by
  unfold State.splice
  try dsimp only
  repeat' first
    | with_reducible exact Touches.refl _ _
    | with_reducible assumption
    | ((with_reducible apply Touches.fst); · assumption)
    | ((with_reducible apply Touches.snd); · assumption)
    | with_reducible apply Touches.ite
    | (with_reducible apply Touches.foldl; on_goal 1 => intro _ _ _)
    | ((with_reducible apply Touches.step (State.raise_touches ..)); · rfl)
    | ((with_reducible apply Touches.step (State.setBIdle_touches ..)); · rfl)
    | split
    | exact fun _ => wrap64_lt _
    | exact id
    | dsimp only

theorem State.revert_touches (s : State) (d t : Nat) :
    Touches [.flags, .counts, .flagAt, .recent, .ev, .queues, .hch, .mem] s (State.revert s d t) := by
  unfold State.revert
  try dsimp only
  repeat' first
    | with_reducible exact Touches.refl _ _
    | with_reducible assumption
    | ((with_reducible apply Touches.fst); · assumption)
    | ((with_reducible apply Touches.snd); · assumption)
    | with_reducible apply Touches.ite
    | (with_reducible apply Touches.foldl; on_goal 1 => intro _ _ _)
    | ((with_reducible apply Touches.step (State.raise_touches ..)); · rfl)
    | ((with_reducible apply Touches.step (State.setHdir_touches ..)); · rfl)
    | split
    | exact fun _ => wrap64_lt _
    | exact id
    | dsimp only

theorem State.deliver_touches (s : State) (d c j p : Nat) :
    Touches [.dec, .hch] s (State.deliver s d c j p) := by
  unfold State.deliver
  try dsimp only
  repeat' first
    | with_reducible exact Touches.refl _ _
    | with_reducible assumption
    | ((with_reducible apply Touches.fst); · assumption)
    | ((with_reducible apply Touches.snd); · assumption)
    | with_reducible apply Touches.ite
    | (with_reducible apply Touches.foldl; on_goal 1 => intro _ _ _)
    | ((with_reducible apply Touches.step (State.eachServed_touches ..)); · rfl)
    | ((with_reducible apply Touches.step (State.setHdir_touches ..)); · rfl)
    | split
    | exact fun _ => wrap64_lt _
    | exact id
    | dsimp only

theorem State.putTx_touches (s : State) (d c j : Nat) (p : Option Nat) :
    Touches [.hch] s (State.putTx s d c j p) := by
  unfold State.putTx
  try dsimp only
  repeat' first
    | with_reducible exact Touches.refl _ _
    | with_reducible assumption
    | ((with_reducible apply Touches.fst); · assumption)
    | ((with_reducible apply Touches.snd); · assumption)
    | with_reducible apply Touches.ite
    | (with_reducible apply Touches.foldl; on_goal 1 => intro _ _ _)
    | ((with_reducible apply Touches.upd_hch); · rfl)
    | split
    | exact fun _ => wrap64_lt _
    | exact id
    | dsimp only

theorem State.relay_touches (s : State) (d c j : Nat) (p : Option Nat) :
    Touches [.hch] s (State.relay s d c j p) := by
  unfold State.relay
  try dsimp only
  repeat' first
    | with_reducible exact Touches.refl _ _
    | with_reducible assumption
    | ((with_reducible apply Touches.fst); · assumption)
    | ((with_reducible apply Touches.snd); · assumption)
    | with_reducible apply Touches.ite
    | (with_reducible apply Touches.foldl; on_goal 1 => intro _ _ _)
    | ((with_reducible apply Touches.step (State.putTx_touches ..)); · rfl)
    | split
    | exact fun _ => wrap64_lt _
    | exact id
    | dsimp only

theorem State.takeSwitch_touches (s : State) (d : Nat) :
    Touches [.flags, .counts, .flagAt, .recent, .ev, .queues, .dec, .hch, .mem] s (State.takeSwitch s d) := by
  unfold State.takeSwitch
  try dsimp only
  repeat' first
    | with_reducible exact Touches.refl _ _
    | with_reducible assumption
    | ((with_reducible apply Touches.fst); · assumption)
    | ((with_reducible apply Touches.snd); · assumption)
    | with_reducible apply Touches.ite
    | (with_reducible apply Touches.foldl; on_goal 1 => intro _ _ _)
    | ((with_reducible apply Touches.step (State.deliver_touches ..)); · rfl)
    | ((with_reducible apply Touches.step (State.relay_touches ..)); · rfl)
    | ((with_reducible apply Touches.step (State.setHdir_touches ..)); · rfl)
    | ((with_reducible apply Touches.step (State.splice_touches ..)); · rfl)
    | ((with_reducible apply Touches.step (State.revert_touches ..)); · rfl)
    | split
    | exact fun _ => wrap64_lt _
    | exact id
    | dsimp only

theorem State.evalHealth_touches (s : State) (d cause : Nat) :
    Touches [.flags, .counts, .flagAt, .recent, .ev, .queues, .dec, .hch, .mem] s (State.evalHealth s d cause) := by
  unfold State.evalHealth
  try dsimp only
  repeat' first
    | with_reducible exact Touches.refl _ _
    | with_reducible assumption
    | ((with_reducible apply Touches.fst); · assumption)
    | ((with_reducible apply Touches.snd); · assumption)
    | with_reducible apply Touches.ite
    | (with_reducible apply Touches.foldl; on_goal 1 => intro _ _ _)
    | ((with_reducible apply Touches.step (State.setHdir_touches ..)); · rfl)
    | ((with_reducible apply Touches.step (State.holdDir_touches ..)); · rfl)
    | ((with_reducible apply Touches.step (State.raise_touches ..)); · rfl)
    | ((with_reducible apply Touches.step (State.takeSwitch_touches ..)); · rfl)
    | ((with_reducible apply Touches.step (State.splice_touches ..)); · rfl)
    | ((with_reducible apply Touches.step (State.revert_touches ..)); · rfl)
    | split
    | exact fun _ => wrap64_lt _
    | exact id
    | dsimp only

theorem State.laneLocked_touches (s : State) (l : Nat) :
    Touches [.hch] s (State.laneLocked s l) := by
  unfold State.laneLocked
  try dsimp only
  repeat' first
    | with_reducible exact Touches.refl _ _
    | with_reducible assumption
    | ((with_reducible apply Touches.fst); · assumption)
    | ((with_reducible apply Touches.snd); · assumption)
    | with_reducible apply Touches.ite
    | (with_reducible apply Touches.foldl; on_goal 1 => intro _ _ _)
    | ((with_reducible apply Touches.step (State.setLane_touches ..)); · rfl)
    | ((with_reducible apply Touches.step (State.setHdir_touches ..)); · rfl)
    | split
    | exact fun _ => wrap64_lt _
    | exact id
    | dsimp only

theorem State.blockLock_touches (s : State) (l headers : Nat) :
    Touches [.flags, .counts, .flagAt, .recent, .ev, .queues, .dec, .hch, .mem] s (State.blockLock s l headers) := by
  unfold State.blockLock
  try dsimp only
  repeat' first
    | with_reducible exact Touches.refl _ _
    | with_reducible assumption
    | ((with_reducible apply Touches.fst); · assumption)
    | ((with_reducible apply Touches.snd); · assumption)
    | with_reducible apply Touches.ite
    | (with_reducible apply Touches.foldl; on_goal 1 => intro _ _ _)
    | ((with_reducible apply Touches.step (State.evalHealth_touches ..)); · rfl)
    | ((with_reducible apply Touches.step (State.laneLocked_touches ..)); · rfl)
    | ((with_reducible apply Touches.step (State.bump_touches ..)); · rfl)
    | split
    | exact fun _ => wrap64_lt _
    | exact id
    | dsimp only

theorem execBlockLock_touches (t : BitVec 64) (l : LockedLane) (s : State) :
    ∃ t', execBlockLock t l s = .next t' ∧ Touches [.now, .flags, .counts, .flagAt, .recent, .ev, .queues, .dec, .hch, .mem] s t' := by
  unfold execBlockLock
  try dsimp only
  repeat' first
    | refine ⟨_, rfl, ?_⟩
    | with_reducible exact Touches.refl _ _
    | with_reducible assumption
    | ((with_reducible apply Touches.fst); · assumption)
    | ((with_reducible apply Touches.snd); · assumption)
    | with_reducible apply Touches.ite
    | (with_reducible apply Touches.foldl; on_goal 1 => intro _ _ _)
    | ((with_reducible apply Touches.step (State.blockLock_touches ..)); · rfl)
    | ((with_reducible apply Touches.step (State.at_touches ..)); · rfl)
    | split
    | exact fun _ => wrap64_lt _
    | exact id
    | dsimp only

theorem State.lockLoss_touches (s : State) (l headers : Nat) (signal : Bool) :
    Touches [.flags, .counts, .flagAt, .recent, .ev, .queues, .dec, .hch, .mem] s (State.lockLoss s l headers signal) := by
  unfold State.lockLoss
  try dsimp only
  repeat' first
    | with_reducible exact Touches.refl _ _
    | with_reducible assumption
    | ((with_reducible apply Touches.fst); · assumption)
    | ((with_reducible apply Touches.snd); · assumption)
    | with_reducible apply Touches.ite
    | (with_reducible apply Touches.foldl; on_goal 1 => intro _ _ _)
    | ((with_reducible apply Touches.step (State.bump_touches ..)); · rfl)
    | ((with_reducible apply Touches.step (State.setLane_touches ..)); · rfl)
    | ((with_reducible apply Touches.step (State.evalHealth_touches ..)); · rfl)
    | ((with_reducible apply Touches.step (State.setHdir_touches ..)); · rfl)
    | split
    | exact fun _ => wrap64_lt _
    | exact id
    | dsimp only

theorem execBlockLockLoss_touches (t : BitVec 64) (l : Fin 32) (x : LockTrouble) (s : State) :
    ∃ t', execBlockLockLoss t l x s = .next t' ∧ Touches [.now, .flags, .counts, .flagAt, .recent, .ev, .queues, .dec, .hch, .mem] s t' := by
  unfold execBlockLockLoss
  try dsimp only
  repeat' first
    | refine ⟨_, rfl, ?_⟩
    | with_reducible exact Touches.refl _ _
    | with_reducible assumption
    | ((with_reducible apply Touches.fst); · assumption)
    | ((with_reducible apply Touches.snd); · assumption)
    | with_reducible apply Touches.ite
    | (with_reducible apply Touches.foldl; on_goal 1 => intro _ _ _)
    | ((with_reducible apply Touches.step (State.lockLoss_touches ..)); · rfl)
    | ((with_reducible apply Touches.step (State.at_touches ..)); · rfl)
    | split
    | exact fun _ => wrap64_lt _
    | exact id
    | dsimp only

theorem State.measure_touches (s : State) (l delay : Nat) :
    Touches [.flags, .counts, .flagAt, .recent, .ev, .queues, .hch, .mem] s (State.measure s l delay) := by
  unfold State.measure
  try dsimp only
  repeat' first
    | with_reducible exact Touches.refl _ _
    | with_reducible assumption
    | ((with_reducible apply Touches.fst); · assumption)
    | ((with_reducible apply Touches.snd); · assumption)
    | with_reducible apply Touches.ite
    | (with_reducible apply Touches.foldl; on_goal 1 => intro _ _ _)
    | ((with_reducible apply Touches.step (State.setLane_touches ..)); · rfl)
    | ((with_reducible apply Touches.step (State.raise_touches ..)); · rfl)
    | split
    | exact fun _ => wrap64_lt _
    | exact id
    | dsimp only

theorem State.trainWake_touches (s : State) (l : Nat) :
    Touches [.hch] s (State.trainWake s l) := by
  unfold State.trainWake
  try dsimp only
  repeat' first
    | with_reducible exact Touches.refl _ _
    | with_reducible assumption
    | ((with_reducible apply Touches.fst); · assumption)
    | ((with_reducible apply Touches.snd); · assumption)
    | with_reducible apply Touches.ite
    | (with_reducible apply Touches.foldl; on_goal 1 => intro _ _ _)
    | ((with_reducible apply Touches.step (State.setBIdle_touches ..)); · rfl)
    | split
    | exact fun _ => wrap64_lt _
    | exact id
    | dsimp only

theorem State.trainBlock_touches (s : State) (l b : Nat) :
    Touches [.flags, .counts, .flagAt, .recent, .ev, .queues, .dec, .hch, .mem] s (State.trainBlock s l b) := by
  unfold State.trainBlock
  try dsimp only
  repeat' first
    | with_reducible exact Touches.refl _ _
    | with_reducible assumption
    | ((with_reducible apply Touches.fst); · assumption)
    | ((with_reducible apply Touches.snd); · assumption)
    | with_reducible apply Touches.ite
    | (with_reducible apply Touches.foldl; on_goal 1 => intro _ _ _)
    | ((with_reducible apply Touches.step (State.measure_touches ..)); · rfl)
    | ((with_reducible apply Touches.step (State.laneLocked_touches ..)); · rfl)
    | ((with_reducible apply Touches.step (State.evalHealth_touches ..)); · rfl)
    | ((with_reducible apply Touches.step (State.trainWake_touches ..)); · rfl)
    | split
    | exact fun _ => wrap64_lt _
    | exact id
    | dsimp only

theorem execTrainBlock_touches (t : BitVec 64) (l : Fin 32) (b : BitVec 64) (s : State) :
    ∃ t', execTrainBlock t l b s = .next t' ∧ Touches [.now, .flags, .counts, .flagAt, .recent, .ev, .queues, .dec, .hch, .mem] s t' := by
  unfold execTrainBlock
  try dsimp only
  repeat' first
    | refine ⟨_, rfl, ?_⟩
    | with_reducible exact Touches.refl _ _
    | with_reducible assumption
    | ((with_reducible apply Touches.fst); · assumption)
    | ((with_reducible apply Touches.snd); · assumption)
    | with_reducible apply Touches.ite
    | (with_reducible apply Touches.foldl; on_goal 1 => intro _ _ _)
    | ((with_reducible apply Touches.step (State.trainBlock_touches ..)); · rfl)
    | ((with_reducible apply Touches.step (State.at_touches ..)); · rfl)
    | split
    | exact fun _ => wrap64_lt _
    | exact id
    | dsimp only

theorem State.idleEntry_touches (s : State) (l : Nat) (sent : Bool) :
    Touches [.hch] s (State.idleEntry s l sent) := by
  unfold State.idleEntry
  try dsimp only
  repeat' first
    | with_reducible exact Touches.refl _ _
    | with_reducible assumption
    | ((with_reducible apply Touches.fst); · assumption)
    | ((with_reducible apply Touches.snd); · assumption)
    | with_reducible apply Touches.ite
    | (with_reducible apply Touches.foldl; on_goal 1 => intro _ _ _)
    | ((with_reducible apply Touches.step (State.idleLane_touches ..)); · rfl)
    | ((with_reducible apply Touches.step (State.setLane_touches ..)); · rfl)
    | split
    | exact fun _ => wrap64_lt _
    | exact id
    | dsimp only

theorem execIdleEntry_touches (t : BitVec 64) (l : IdleLane) (s : State) :
    ∃ t', execIdleEntry t l s = .next t' ∧ Touches [.now, .hch] s t' := by
  unfold execIdleEntry
  try dsimp only
  repeat' first
    | refine ⟨_, rfl, ?_⟩
    | with_reducible exact Touches.refl _ _
    | with_reducible assumption
    | ((with_reducible apply Touches.fst); · assumption)
    | ((with_reducible apply Touches.snd); · assumption)
    | with_reducible apply Touches.ite
    | (with_reducible apply Touches.foldl; on_goal 1 => intro _ _ _)
    | ((with_reducible apply Touches.step (State.idleEntry_touches ..)); · rfl)
    | ((with_reducible apply Touches.step (State.at_touches ..)); · rfl)
    | split
    | exact fun _ => wrap64_lt _
    | exact id
    | dsimp only

theorem State.markBlock_touches (s : State) (q b : Nat) :
    Touches [.flags, .counts, .flagAt, .recent, .ev, .queues, .dec, .hch, .mem] s (State.markBlock s q b) := by
  unfold State.markBlock
  try dsimp only
  repeat' first
    | with_reducible exact Touches.refl _ _
    | with_reducible assumption
    | ((with_reducible apply Touches.fst); · assumption)
    | ((with_reducible apply Touches.snd); · assumption)
    | with_reducible apply Touches.ite
    | (with_reducible apply Touches.foldl; on_goal 1 => intro _ _ _)
    | ((with_reducible apply Touches.step (State.evalHealth_touches ..)); · rfl)
    | ((with_reducible apply Touches.step (State.setHdir_touches ..)); · rfl)
    | ((with_reducible apply Touches.step (State.raise_touches ..)); · rfl)
    | split
    | exact fun _ => wrap64_lt _
    | exact id
    | dsimp only

theorem execMarkBlock_touches (t : BitVec 64) (q : Fin 16) (b : BitVec 64) (s : State) :
    ∃ t', execMarkBlock t q b s = .next t' ∧ Touches [.now, .flags, .counts, .flagAt, .recent, .ev, .queues, .dec, .hch, .mem] s t' := by
  unfold execMarkBlock
  try dsimp only
  repeat' first
    | refine ⟨_, rfl, ?_⟩
    | with_reducible exact Touches.refl _ _
    | with_reducible assumption
    | ((with_reducible apply Touches.fst); · assumption)
    | ((with_reducible apply Touches.snd); · assumption)
    | with_reducible apply Touches.ite
    | (with_reducible apply Touches.foldl; on_goal 1 => intro _ _ _)
    | ((with_reducible apply Touches.step (State.markBlock_touches ..)); · rfl)
    | ((with_reducible apply Touches.step (State.at_touches ..)); · rfl)
    | split
    | exact fun _ => wrap64_lt _
    | exact id
    | dsimp only

theorem State.missed_touches (s : State) (d c : Nat) (onB : Bool) (j : Nat) :
    Touches [.dec] s (State.missed s d c onB j) := by
  unfold State.missed
  try dsimp only
  repeat' first
    | with_reducible exact Touches.refl _ _
    | with_reducible assumption
    | ((with_reducible apply Touches.fst); · assumption)
    | ((with_reducible apply Touches.snd); · assumption)
    | with_reducible apply Touches.ite
    | (with_reducible apply Touches.foldl; on_goal 1 => intro _ _ _)
    | ((with_reducible apply Touches.step (State.holdBits_touches ..)); · rfl)
    | split
    | exact fun _ => wrap64_lt _
    | exact id
    | dsimp only

theorem State.countCheck_touches (s : State) (d : Nat) (onB ok : Bool) :
    Touches [.flags, .counts, .flagAt, .recent, .ev, .queues, .dec, .hch, .mem] s (State.countCheck s d onB ok) := by
  unfold State.countCheck
  try dsimp only
  repeat' first
    | with_reducible exact Touches.refl _ _
    | with_reducible assumption
    | ((with_reducible apply Touches.fst); · assumption)
    | ((with_reducible apply Touches.snd); · assumption)
    | with_reducible apply Touches.ite
    | (with_reducible apply Touches.foldl; on_goal 1 => intro _ _ _)
    | ((with_reducible apply Touches.step (State.evalHealth_touches ..)); · rfl)
    | ((with_reducible apply Touches.step (State.setHdir_touches ..)); · rfl)
    | split
    | exact fun _ => wrap64_lt _
    | exact id
    | dsimp only

theorem State.badContainer_touches (s : State) (d c : Nat) (onB : Bool) (j : Nat) :
    Touches [.flags, .counts, .flagAt, .recent, .ev, .queues, .dec, .hch, .mem] s (State.badContainer s d c onB j) := by
  unfold State.badContainer
  try dsimp only
  repeat' first
    | with_reducible exact Touches.refl _ _
    | with_reducible assumption
    | ((with_reducible apply Touches.fst); · assumption)
    | ((with_reducible apply Touches.snd); · assumption)
    | with_reducible apply Touches.ite
    | (with_reducible apply Touches.foldl; on_goal 1 => intro _ _ _)
    | ((with_reducible apply Touches.step (State.setHdir_touches ..)); · rfl)
    | ((with_reducible apply Touches.step (State.bump_touches ..)); · rfl)
    | ((with_reducible apply Touches.step (State.raise_touches ..)); · rfl)
    | ((with_reducible apply Touches.step (State.countCheck_touches ..)); · rfl)
    | ((with_reducible apply Touches.step (State.missed_touches ..)); · rfl)
    | split
    | exact fun _ => wrap64_lt _
    | exact id
    | dsimp only

theorem State.goodContainer_touches (s : State) (d c : Nat) (onB : Bool) (j p : Nat) :
    Touches [.flags, .counts, .flagAt, .recent, .ev, .queues, .dec, .hch, .mem] s (State.goodContainer s d c onB j p) := by
  unfold State.goodContainer
  try dsimp only
  repeat' first
    | with_reducible exact Touches.refl _ _
    | with_reducible assumption
    | ((with_reducible apply Touches.fst); · assumption)
    | ((with_reducible apply Touches.snd); · assumption)
    | with_reducible apply Touches.ite
    | (with_reducible apply Touches.foldl; on_goal 1 => intro _ _ _)
    | ((with_reducible apply Touches.step (State.deliver_touches ..)); · rfl)
    | ((with_reducible apply Touches.step (State.setHdir_touches ..)); · rfl)
    | ((with_reducible apply Touches.step (State.takeSwitch_touches ..)); · rfl)
    | ((with_reducible apply Touches.step (State.countCheck_touches ..)); · rfl)
    | split
    | exact fun _ => wrap64_lt _
    | exact id
    | dsimp only

theorem State.container_touches (s : State) (d : Nat) (onB : Bool) (c j : Nat) (p : Option Nat) :
    Touches [.flags, .counts, .flagAt, .recent, .ev, .queues, .dec, .hch, .mem] s (State.container s d onB c j p) := by
  unfold State.container
  try dsimp only
  repeat' first
    | with_reducible exact Touches.refl _ _
    | with_reducible assumption
    | ((with_reducible apply Touches.fst); · assumption)
    | ((with_reducible apply Touches.snd); · assumption)
    | with_reducible apply Touches.ite
    | (with_reducible apply Touches.foldl; on_goal 1 => intro _ _ _)
    | ((with_reducible apply Touches.step (State.relay_touches ..)); · rfl)
    | ((with_reducible apply Touches.step (State.missed_touches ..)); · rfl)
    | ((with_reducible apply Touches.step (State.goodContainer_touches ..)); · rfl)
    | ((with_reducible apply Touches.step (State.badContainer_touches ..)); · rfl)
    | split
    | exact fun _ => wrap64_lt _
    | exact id
    | dsimp only

theorem execHitchContainer_touches (d : Fin 8) (onB : Bool) (c : Fin 3) (j : Nat) (p : Option (BitVec 64)) (s : State) :
    ∃ t', execHitchContainer d onB c j p s = .next t' ∧ Touches [.now, .flags, .counts, .flagAt, .recent, .ev, .queues, .dec, .hch, .mem] s t' := by
  unfold execHitchContainer
  try dsimp only
  repeat' first
    | refine ⟨_, rfl, ?_⟩
    | with_reducible exact Touches.refl _ _
    | with_reducible assumption
    | ((with_reducible apply Touches.fst); · assumption)
    | ((with_reducible apply Touches.snd); · assumption)
    | with_reducible apply Touches.ite
    | (with_reducible apply Touches.foldl; on_goal 1 => intro _ _ _)
    | ((with_reducible apply Touches.step (State.container_touches ..)); · rfl)
    | ((with_reducible apply Touches.step (State.clockTo_touches ..)); · rfl)
    | split
    | exact fun _ => wrap64_lt _
    | exact id
    | dsimp only

theorem State.status_touches (s : State) (d b : Nat) :
    Touches [.hch] s (State.status s d b) := by
  unfold State.status
  try dsimp only
  repeat' first
    | with_reducible exact Touches.refl _ _
    | with_reducible assumption
    | ((with_reducible apply Touches.fst); · assumption)
    | ((with_reducible apply Touches.snd); · assumption)
    | with_reducible apply Touches.ite
    | (with_reducible apply Touches.foldl; on_goal 1 => intro _ _ _)
    | ((with_reducible apply Touches.step (State.setBIdle_touches ..)); · rfl)
    | ((with_reducible apply Touches.step (State.setHdir_touches ..)); · rfl)
    | split
    | exact fun _ => wrap64_lt _
    | exact id
    | dsimp only

theorem execStatusBlock_touches (t : BitVec 64) (d : Fin 8) (b : BitVec 64) (s : State) :
    ∃ t', execStatusBlock t d b s = .next t' ∧ Touches [.now, .hch] s t' := by
  unfold execStatusBlock
  try dsimp only
  repeat' first
    | refine ⟨_, rfl, ?_⟩
    | with_reducible exact Touches.refl _ _
    | with_reducible assumption
    | ((with_reducible apply Touches.fst); · assumption)
    | ((with_reducible apply Touches.snd); · assumption)
    | with_reducible apply Touches.ite
    | (with_reducible apply Touches.foldl; on_goal 1 => intro _ _ _)
    | ((with_reducible apply Touches.step (State.status_touches ..)); · rfl)
    | ((with_reducible apply Touches.step (State.at_touches ..)); · rfl)
    | split
    | exact fun _ => wrap64_lt _
    | exact id
    | dsimp only

theorem State.standbyCheck_touches (s : State) (d : Nat) (ok : Bool) (d0 d1 : Nat) :
    Touches [.flags, .counts, .flagAt, .recent, .ev, .queues, .dec, .hch, .mem] s (State.standbyCheck s d ok d0 d1) := by
  unfold State.standbyCheck
  try dsimp only
  repeat' first
    | with_reducible exact Touches.refl _ _
    | with_reducible assumption
    | ((with_reducible apply Touches.fst); · assumption)
    | ((with_reducible apply Touches.snd); · assumption)
    | with_reducible apply Touches.ite
    | (with_reducible apply Touches.foldl; on_goal 1 => intro _ _ _)
    | ((with_reducible apply Touches.step (State.measure_touches ..)); · rfl)
    | ((with_reducible apply Touches.step (State.setBIdle_touches ..)); · rfl)
    | ((with_reducible apply Touches.step (State.setLane_touches ..)); · rfl)
    | ((with_reducible apply Touches.step (State.setHdir_touches ..)); · rfl)
    | ((with_reducible apply Touches.step (State.raise_touches ..)); · rfl)
    | ((with_reducible apply Touches.step (State.evalHealth_touches ..)); · rfl)
    | split
    | exact fun _ => wrap64_lt _
    | exact id
    | dsimp only

theorem execStandbyCheck_touches (t : BitVec 64) (d : Fin 8) (ok : Bool) (delay0 delay1 : BitVec 10) (s : State) :
    ∃ t', execStandbyCheck t d ok delay0 delay1 s = .next t' ∧ Touches [.now, .flags, .counts, .flagAt, .recent, .ev, .queues, .dec, .hch, .mem] s t' := by
  unfold execStandbyCheck
  try dsimp only
  repeat' first
    | refine ⟨_, rfl, ?_⟩
    | with_reducible exact Touches.refl _ _
    | with_reducible assumption
    | ((with_reducible apply Touches.fst); · assumption)
    | ((with_reducible apply Touches.snd); · assumption)
    | with_reducible apply Touches.ite
    | (with_reducible apply Touches.foldl; on_goal 1 => intro _ _ _)
    | ((with_reducible apply Touches.step (State.standbyCheck_touches ..)); · rfl)
    | ((with_reducible apply Touches.step (State.at_touches ..)); · rfl)
    | split
    | exact fun _ => wrap64_lt _
    | exact id
    | dsimp only

theorem State.dirEnable_touches (s : State) (d : Nat) (on : Bool) :
    Touches [.dec, .hch] s (State.dirEnable s d on) := by
  unfold State.dirEnable
  try dsimp only
  repeat' first
    | with_reducible exact Touches.refl _ _
    | with_reducible assumption
    | ((with_reducible apply Touches.fst); · assumption)
    | ((with_reducible apply Touches.snd); · assumption)
    | with_reducible apply Touches.ite
    | (with_reducible apply Touches.foldl; on_goal 1 => intro _ _ _)
    | ((with_reducible apply Touches.step (State.holdDir_touches ..)); · rfl)
    | ((with_reducible apply Touches.step (State.wakeLane_touches ..)); · rfl)
    | ((with_reducible apply Touches.step (State.idleLane_touches ..)); · rfl)
    | ((with_reducible apply Touches.step (State.setLane_touches ..)); · rfl)
    | ((with_reducible apply Touches.step (State.setHdir_touches ..)); · rfl)
    | split
    | exact fun _ => wrap64_lt _
    | exact id
    | dsimp only

theorem State.askSwitch_touches (s : State) (d : Nat) (onB : Bool) :
    Touches [.flags, .counts, .flagAt, .recent, .ev, .queues, .dec, .hch, .mem] s (State.askSwitch s d onB) := by
  unfold State.askSwitch
  try dsimp only
  repeat' first
    | with_reducible exact Touches.refl _ _
    | with_reducible assumption
    | ((with_reducible apply Touches.fst); · assumption)
    | ((with_reducible apply Touches.snd); · assumption)
    | with_reducible apply Touches.ite
    | (with_reducible apply Touches.foldl; on_goal 1 => intro _ _ _)
    | ((with_reducible apply Touches.step (State.setHdir_touches ..)); · rfl)
    | ((with_reducible apply Touches.step (State.takeSwitch_touches ..)); · rfl)
    | ((with_reducible apply Touches.step (State.setBIdle_touches ..)); · rfl)
    | split
    | exact fun _ => wrap64_lt _
    | exact id
    | dsimp only

theorem State.wrDirCtl_touches (s : State) (d : Nat) (w : Word) :
    Touches [.regs, .flags, .counts, .flagAt, .recent, .ev, .queues, .dec, .hch, .mem] s (State.wrDirCtl s d w) := by
  unfold State.wrDirCtl
  try dsimp only
  repeat' first
    | with_reducible exact Touches.refl _ _
    | with_reducible assumption
    | ((with_reducible apply Touches.fst); · assumption)
    | ((with_reducible apply Touches.snd); · assumption)
    | with_reducible apply Touches.ite
    | (with_reducible apply Touches.foldl; on_goal 1 => intro _ _ _)
    | ((with_reducible apply Touches.step (State.writeFields_touches ..)); · rfl)
    | ((with_reducible apply Touches.step (State.dirEnable_touches ..)); · rfl)
    | ((with_reducible apply Touches.step (State.setBIdle_touches ..)); · rfl)
    | ((with_reducible apply Touches.step (State.askSwitch_touches ..)); · rfl)
    | split
    | exact fun _ => wrap64_lt _
    | exact id
    | dsimp only

theorem execDirectionEnable_touches (t : BitVec 64) (d : Fin 8) (w : Word) (s : State) :
    ∃ t', execDirectionEnable t d w s = .next t' ∧ Touches [.now, .regs, .flags, .counts, .flagAt, .recent, .ev, .queues, .dec, .hch, .mem] s t' := by
  unfold execDirectionEnable
  try dsimp only
  repeat' first
    | refine ⟨_, rfl, ?_⟩
    | with_reducible exact Touches.refl _ _
    | with_reducible assumption
    | ((with_reducible apply Touches.fst); · assumption)
    | ((with_reducible apply Touches.snd); · assumption)
    | with_reducible apply Touches.ite
    | (with_reducible apply Touches.foldl; on_goal 1 => intro _ _ _)
    | ((with_reducible apply State.hubWrite_closed (Touches.closed _ _)); (· rfl); on_goal 1 => intro _ _)
    | ((with_reducible apply Touches.step (State.wrDirCtl_touches ..)); · rfl)
    | split
    | exact fun _ => wrap64_lt _
    | exact id
    | dsimp only

theorem execHchSplice_touches (t : BitVec 64) (d : Fin 8) (w : Word) (s : State) :
    ∃ t', execHchSplice t d w s = .next t' ∧ Touches [.now, .regs, .flags, .counts, .flagAt, .recent, .ev, .queues, .dec, .hch, .mem] s t' := by
  unfold execHchSplice
  try dsimp only
  repeat' first
    | refine ⟨_, rfl, ?_⟩
    | with_reducible exact Touches.refl _ _
    | with_reducible assumption
    | ((with_reducible apply Touches.fst); · assumption)
    | ((with_reducible apply Touches.snd); · assumption)
    | with_reducible apply Touches.ite
    | (with_reducible apply Touches.foldl; on_goal 1 => intro _ _ _)
    | ((with_reducible apply State.hubWrite_closed (Touches.closed _ _)); (· rfl); on_goal 1 => intro _ _)
    | ((with_reducible apply Touches.step (State.wrDirCtl_touches ..)); · rfl)
    | split
    | exact fun _ => wrap64_lt _
    | exact id
    | dsimp only

theorem execHchRevert_touches (t : BitVec 64) (d : Fin 8) (w : Word) (s : State) :
    ∃ t', execHchRevert t d w s = .next t' ∧ Touches [.now, .regs, .flags, .counts, .flagAt, .recent, .ev, .queues, .dec, .hch, .mem] s t' := by
  unfold execHchRevert
  try dsimp only
  repeat' first
    | refine ⟨_, rfl, ?_⟩
    | with_reducible exact Touches.refl _ _
    | with_reducible assumption
    | ((with_reducible apply Touches.fst); · assumption)
    | ((with_reducible apply Touches.snd); · assumption)
    | with_reducible apply Touches.ite
    | (with_reducible apply Touches.foldl; on_goal 1 => intro _ _ _)
    | ((with_reducible apply State.hubWrite_closed (Touches.closed _ _)); (· rfl); on_goal 1 => intro _ _)
    | ((with_reducible apply Touches.step (State.wrDirCtl_touches ..)); · rfl)
    | split
    | exact fun _ => wrap64_lt _
    | exact id
    | dsimp only

theorem State.autoRevert_touches (s : State) (d : Nat) :
    Touches [.flags, .counts, .flagAt, .recent, .ev, .queues, .dec, .hch, .mem] s (State.autoRevert s d) := by
  unfold State.autoRevert
  try dsimp only
  repeat' first
    | with_reducible exact Touches.refl _ _
    | with_reducible assumption
    | ((with_reducible apply Touches.fst); · assumption)
    | ((with_reducible apply Touches.snd); · assumption)
    | with_reducible apply Touches.ite
    | (with_reducible apply Touches.foldl; on_goal 1 => intro _ _ _)
    | ((with_reducible apply Touches.step (State.takeSwitch_touches ..)); · rfl)
    | ((with_reducible apply Touches.step (State.setHdir_touches ..)); · rfl)
    | split
    | exact fun _ => wrap64_lt _
    | exact id
    | dsimp only

theorem execSpliceRevert_touches (t : BitVec 64) (d : Fin 8) (s : State) :
    ∃ t', execSpliceRevert t d s = .next t' ∧ Touches [.now, .flags, .counts, .flagAt, .recent, .ev, .queues, .dec, .hch, .mem] s t' := by
  unfold execSpliceRevert
  try dsimp only
  repeat' first
    | refine ⟨_, rfl, ?_⟩
    | with_reducible exact Touches.refl _ _
    | with_reducible assumption
    | ((with_reducible apply Touches.fst); · assumption)
    | ((with_reducible apply Touches.snd); · assumption)
    | with_reducible apply Touches.ite
    | (with_reducible apply Touches.foldl; on_goal 1 => intro _ _ _)
    | ((with_reducible apply Touches.step (State.autoRevert_touches ..)); · rfl)
    | ((with_reducible apply Touches.step (State.at_touches ..)); · rfl)
    | split
    | exact fun _ => wrap64_lt _
    | exact id
    | dsimp only

theorem State.wrHchCtl_touches (s : State) (w : Word) :
    Touches [.regs, .held] s (State.wrHchCtl s w) := by
  unfold State.wrHchCtl
  try dsimp only
  repeat' first
    | with_reducible exact Touches.refl _ _
    | with_reducible assumption
    | ((with_reducible apply Touches.fst); · assumption)
    | ((with_reducible apply Touches.snd); · assumption)
    | with_reducible apply Touches.ite
    | (with_reducible apply Touches.foldl; on_goal 1 => intro _ _ _)
    | ((with_reducible apply Touches.step (State.setReg_touches ..)); · rfl)
    | ((with_reducible apply Touches.step (State.unhold_touches ..)); · rfl)
    | ((with_reducible apply Touches.step (State.hold_touches ..)); · rfl)
    | split
    | exact fun _ => wrap64_lt _
    | exact id
    | dsimp only

theorem execModnumWrite_touches (t : BitVec 64) (w : Word) (s : State) :
    ∃ t', execModnumWrite t w s = .next t' ∧ Touches [.now, .regs, .held] s t' := by
  unfold execModnumWrite
  try dsimp only
  repeat' first
    | refine ⟨_, rfl, ?_⟩
    | with_reducible exact Touches.refl _ _
    | with_reducible assumption
    | ((with_reducible apply Touches.fst); · assumption)
    | ((with_reducible apply Touches.snd); · assumption)
    | with_reducible apply Touches.ite
    | (with_reducible apply Touches.foldl; on_goal 1 => intro _ _ _)
    | ((with_reducible apply State.hubWrite_closed (Touches.closed _ _)); (· rfl); on_goal 1 => intro _ _)
    | ((with_reducible apply Touches.step (State.wrHchCtl_touches ..)); · rfl)
    | split
    | exact fun _ => wrap64_lt _
    | exact id
    | dsimp only

theorem State.wrTxMap_touches (s : State) (i : Nat) (w : Word) :
    Touches [.regs, .hch] s (State.wrTxMap s i w) := by
  unfold State.wrTxMap
  try dsimp only
  repeat' first
    | with_reducible exact Touches.refl _ _
    | with_reducible assumption
    | ((with_reducible apply Touches.fst); · assumption)
    | ((with_reducible apply Touches.snd); · assumption)
    | with_reducible apply Touches.ite
    | (with_reducible apply Touches.foldl; on_goal 1 => intro _ _ _)
    | ((with_reducible apply Touches.step (State.writeFields_touches ..)); · rfl)
    | ((with_reducible apply Touches.upd_hch); · rfl)
    | split
    | exact fun _ => wrap64_lt _
    | exact id
    | dsimp only

theorem State.prbsEnds_touches (s : State) (l : Nat) :
    Touches [.free, .counts, .recent] s (State.prbsEnds s l) := by
  unfold State.prbsEnds
  try dsimp only
  repeat' first
    | with_reducible exact Touches.refl _ _
    | with_reducible assumption
    | ((with_reducible apply Touches.fst); · assumption)
    | ((with_reducible apply Touches.snd); · assumption)
    | with_reducible apply Touches.ite
    | (with_reducible apply Touches.foldl; on_goal 1 => intro _ _ _)
    | ((with_reducible apply Touches.step (State.bump_touches ..)); · rfl)
    | ((with_reducible apply Touches.step (State.tick_touches ..)); · rfl)
    | split
    | exact fun _ => wrap64_lt _
    | exact id
    | dsimp only

theorem State.wrLaneCtl_touches (s : State) (l : Nat) (w : Word) :
    Touches [.free, .regs, .flags, .counts, .flagAt, .recent, .ev, .queues, .dec, .hch, .mem] s (State.wrLaneCtl s l w) := by
  unfold State.wrLaneCtl
  try dsimp only
  repeat' first
    | with_reducible exact Touches.refl _ _
    | with_reducible assumption
    | ((with_reducible apply Touches.fst); · assumption)
    | ((with_reducible apply Touches.snd); · assumption)
    | with_reducible apply Touches.ite
    | (with_reducible apply Touches.foldl; on_goal 1 => intro _ _ _)
    | ((with_reducible apply Touches.step (State.writeFields_touches ..)); · rfl)
    | ((with_reducible apply Touches.step (State.evalHealth_touches ..)); · rfl)
    | ((with_reducible apply Touches.step (State.prbsEnds_touches ..)); · rfl)
    | split
    | exact fun _ => wrap64_lt _
    | exact id
    | dsimp only

theorem State.startLaneTests_touches (s : State) :
    Touches [.flags, .counts, .flagAt, .recent, .ev, .queues, .dec, .hch, .mem] s (State.startLaneTests s) := by
  unfold State.startLaneTests
  try dsimp only
  repeat' first
    | with_reducible exact Touches.refl _ _
    | with_reducible assumption
    | ((with_reducible apply Touches.fst); · assumption)
    | ((with_reducible apply Touches.snd); · assumption)
    | with_reducible apply Touches.ite
    | (with_reducible apply Touches.foldl; on_goal 1 => intro _ _ _)
    | ((with_reducible apply Touches.step (State.evalHealth_touches ..)); · rfl)
    | split
    | exact fun _ => wrap64_lt _
    | exact id
    | dsimp only

theorem State.endLaneTests_touches (s : State) :
    Touches [.free, .regs, .counts, .recent, .hch] s (State.endLaneTests s) := by
  unfold State.endLaneTests
  try dsimp only
  repeat' first
    | with_reducible exact Touches.refl _ _
    | with_reducible assumption
    | ((with_reducible apply Touches.fst); · assumption)
    | ((with_reducible apply Touches.snd); · assumption)
    | with_reducible apply Touches.ite
    | (with_reducible apply Touches.foldl; on_goal 1 => intro _ _ _)
    | ((with_reducible apply Touches.step (State.prbsEnds_touches ..)); · rfl)
    | ((with_reducible apply Touches.step (State.setLane_touches ..)); · rfl)
    | ((with_reducible apply Touches.step (State.setFld_touches ..)); · rfl)
    | ((with_reducible apply Touches.step (State.setHdir_touches ..)); · rfl)
    | split
    | exact fun _ => wrap64_lt _
    | exact id
    | dsimp only

theorem State.sendPos_touches (s : State) (d c j : Nat) :
    Touches [.hch] s (State.sendPos s d c j) := by
  unfold State.sendPos
  try dsimp only
  repeat' first
    | with_reducible exact Touches.refl _ _
    | with_reducible assumption
    | ((with_reducible apply Touches.fst); · assumption)
    | ((with_reducible apply Touches.snd); · assumption)
    | with_reducible apply Touches.ite
    | (with_reducible apply Touches.foldl; on_goal 1 => intro _ _ _)
    | ((with_reducible apply Touches.step (State.putTx_touches ..)); · rfl)
    | split
    | exact fun _ => wrap64_lt _
    | exact id
    | dsimp only

theorem State.sendMarks_touches (s : State) (d n : Nat) :
    Touches [.hch] s (State.sendMarks s d n) := by
  unfold State.sendMarks
  try dsimp only
  repeat' first
    | with_reducible exact Touches.refl _ _
    | with_reducible assumption
    | ((with_reducible apply Touches.fst); · assumption)
    | ((with_reducible apply Touches.snd); · assumption)
    | with_reducible apply Touches.ite
    | (with_reducible apply Touches.foldl; on_goal 1 => intro _ _ _)
    | ((with_reducible apply Touches.upd_hch); · rfl)
    | split
    | exact fun _ => wrap64_lt _
    | exact id
    | dsimp only

theorem State.sendStatus_touches (s : State) (d j m : Nat) :
    Touches [.hch] s (State.sendStatus s d j m) := by
  unfold State.sendStatus
  try dsimp only
  repeat' first
    | with_reducible exact Touches.refl _ _
    | with_reducible assumption
    | ((with_reducible apply Touches.fst); · assumption)
    | ((with_reducible apply Touches.snd); · assumption)
    | with_reducible apply Touches.ite
    | (with_reducible apply Touches.foldl; on_goal 1 => intro _ _ _)
    | ((with_reducible apply Touches.upd_hch); · rfl)
    | split
    | exact fun _ => wrap64_lt _
    | exact id
    | dsimp only

theorem State.sendFrame_based (s : State) (j : Nat) :
    Based [.now, .hch] s (State.sendFrame s j) := by
  unfold State.sendFrame
  try dsimp only
  repeat' first
    | with_reducible exact Based.refl _ _
    | with_reducible assumption
    | with_reducible exact Settled.refl
    | ((with_reducible apply Based.fst); · assumption)
    | ((with_reducible apply Based.snd); · assumption)
    | with_reducible apply Based.ite
    | (with_reducible apply Based.foldl; on_goal 1 => intro _ _ _)
    | ((with_reducible apply State.toTime_based); · rfl)
    | ((with_reducible apply Based.step (State.sendMarks_touches ..)); · rfl)
    | ((with_reducible apply Based.step (State.sendPos_touches ..)); · rfl)
    | ((with_reducible apply Based.step (State.sendStatus_touches ..)); · rfl)
    | split
    | exact fun _ => wrap64_lt _
    | exact id
    | dsimp only

theorem execSlotFrameSend_based (j : Nat) (s : State) :
    ∃ t', execSlotFrameSend j s = .next t' ∧ Based [.now, .hch] s t' := by
  unfold execSlotFrameSend
  try dsimp only
  repeat' first
    | refine ⟨_, rfl, ?_⟩
    | with_reducible exact Based.refl _ _
    | with_reducible assumption
    | with_reducible exact Settled.refl
    | ((with_reducible apply Based.fst); · assumption)
    | ((with_reducible apply Based.snd); · assumption)
    | with_reducible apply Based.ite
    | (with_reducible apply Based.foldl; on_goal 1 => intro _ _ _)
    | ((with_reducible apply Based.trans (State.sendFrame_based ..)); · rfl)
    | split
    | exact fun _ => wrap64_lt _
    | exact id
    | dsimp only

end Sys2Proof.Machine
end

