-- ==== Sys2Proof/Laws/TouchModeCore.lean ====
section
/-! SUPPORT. The parts of the state that each operation of Machine/ModeCore.lean can change. -/

namespace Sys2Proof.Machine

open Sys2Proof

theorem State.setMode_touches (s : State) (m : ModeSt) :
    Touches [.mode] s (State.setMode s m) := by
  unfold State.setMode
  try dsimp only
  repeat' first
    | with_reducible exact Touches.refl _ _
    | with_reducible assumption
    | ((with_reducible apply Touches.fst); · assumption)
    | ((with_reducible apply Touches.snd); · assumption)
    | with_reducible apply Touches.ite
    | (with_reducible apply Touches.foldl; on_goal 1 => intro _ _ _)
    | ((with_reducible apply Touches.upd_mode); · rfl)
    | split
    | exact fun _ => wrap64_lt _
    | exact id
    | dsimp only

theorem State.enterMode_touches (s : State) (m : Mode) (t : Nat) :
    Touches [.flags, .counts, .flagAt, .recent, .ev, .queues, .mode, .mem] s (State.enterMode s m t) := by
  unfold State.enterMode
  try dsimp only
  repeat' first
    | with_reducible exact Touches.refl _ _
    | with_reducible assumption
    | ((with_reducible apply Touches.fst); · assumption)
    | ((with_reducible apply Touches.snd); · assumption)
    | with_reducible apply Touches.ite
    | (with_reducible apply Touches.foldl; on_goal 1 => intro _ _ _)
    | ((with_reducible apply Touches.step (State.raise_touches ..)); · rfl)
    | ((with_reducible apply Touches.step (State.setMode_touches ..)); · rfl)
    | split
    | exact fun _ => wrap64_lt _
    | exact id
    | dsimp only

theorem State.refuse_touches (s : State) (t : Nat) :
    Touches [.flags, .counts, .flagAt, .recent, .ev, .queues, .mem] s (State.refuse s t) := by
  unfold State.refuse
  try dsimp only
  repeat' first
    | with_reducible exact Touches.refl _ _
    | with_reducible assumption
    | ((with_reducible apply Touches.fst); · assumption)
    | ((with_reducible apply Touches.snd); · assumption)
    | with_reducible apply Touches.ite
    | (with_reducible apply Touches.foldl; on_goal 1 => intro _ _ _)
    | ((with_reducible apply Touches.step (State.raise_touches ..)); · rfl)
    | split
    | exact fun _ => wrap64_lt _
    | exact id
    | dsimp only

theorem State.beginTrans_touches (s : State) (m : Mode) (due : Nat) :
    Touches [.mode] s (State.beginTrans s m due) := by
  unfold State.beginTrans
  try dsimp only
  repeat' first
    | with_reducible exact Touches.refl _ _
    | with_reducible assumption
    | ((with_reducible apply Touches.fst); · assumption)
    | ((with_reducible apply Touches.snd); · assumption)
    | with_reducible apply Touches.ite
    | (with_reducible apply Touches.foldl; on_goal 1 => intro _ _ _)
    | ((with_reducible apply Touches.step (State.setMode_touches ..)); · rfl)
    | split
    | exact fun _ => wrap64_lt _
    | exact id
    | dsimp only

theorem State.refHold_touches (s : State) :
    Touches [.flags, .counts, .flagAt, .recent, .ev, .queues, .cores, .units, .outs, .mem] s (State.refHold s) := by
  unfold State.refHold
  try dsimp only
  repeat' first
    | with_reducible exact Touches.refl _ _
    | with_reducible assumption
    | ((with_reducible apply Touches.fst); · assumption)
    | ((with_reducible apply Touches.snd); · assumption)
    | with_reducible apply Touches.ite
    | (with_reducible apply Touches.foldl; on_goal 1 => intro _ _ _)
    | ((with_reducible apply Touches.step (State.goHeld_touches ..)); · rfl)
    | split
    | exact fun _ => wrap64_lt _
    | exact id
    | dsimp only

theorem State.refreshHold_touches (s : State) :
    Touches [.flags, .counts, .flagAt, .recent, .ev, .queues, .mode, .cores, .units, .outs, .mem] s (State.refreshHold s) := by
  unfold State.refreshHold
  try dsimp only
  repeat' first
    | with_reducible exact Touches.refl _ _
    | with_reducible assumption
    | ((with_reducible apply Touches.fst); · assumption)
    | ((with_reducible apply Touches.snd); · assumption)
    | with_reducible apply Touches.ite
    | (with_reducible apply Touches.foldl; on_goal 1 => intro _ _ _)
    | ((with_reducible apply Touches.step (State.setMode_touches ..)); · rfl)
    | ((with_reducible apply Touches.step (State.refHold_touches ..)); · rfl)
    | split
    | exact fun _ => wrap64_lt _
    | exact id
    | dsimp only

theorem State.startHold_touches (s : State) :
    Touches [.mode] s (State.startHold s) := by
  unfold State.startHold
  try dsimp only
  repeat' first
    | with_reducible exact Touches.refl _ _
    | with_reducible assumption
    | ((with_reducible apply Touches.fst); · assumption)
    | ((with_reducible apply Touches.snd); · assumption)
    | with_reducible apply Touches.ite
    | (with_reducible apply Touches.foldl; on_goal 1 => intro _ _ _)
    | ((with_reducible apply Touches.step (State.beginTrans_touches ..)); · rfl)
    | ((with_reducible apply Touches.step (State.setMode_touches ..)); · rfl)
    | split
    | exact fun _ => wrap64_lt _
    | exact id
    | dsimp only

theorem State.startResume_touches (s : State) :
    Touches [.mode] s (State.startResume s) := by
  unfold State.startResume
  try dsimp only
  repeat' first
    | with_reducible exact Touches.refl _ _
    | with_reducible assumption
    | ((with_reducible apply Touches.fst); · assumption)
    | ((with_reducible apply Touches.snd); · assumption)
    | with_reducible apply Touches.ite
    | (with_reducible apply Touches.foldl; on_goal 1 => intro _ _ _)
    | ((with_reducible apply Touches.step (State.beginTrans_touches ..)); · rfl)
    | ((with_reducible apply Touches.step (State.setMode_touches ..)); · rfl)
    | split
    | exact fun _ => wrap64_lt _
    | exact id
    | dsimp only

theorem State.startRun_touches (s : State) :
    Touches [.mode] s (State.startRun s) := by
  unfold State.startRun
  try dsimp only
  repeat' first
    | with_reducible exact Touches.refl _ _
    | with_reducible assumption
    | ((with_reducible apply Touches.fst); · assumption)
    | ((with_reducible apply Touches.snd); · assumption)
    | with_reducible apply Touches.ite
    | (with_reducible apply Touches.foldl; on_goal 1 => intro _ _ _)
    | ((with_reducible apply Touches.step (State.beginTrans_touches ..)); · rfl)
    | split
    | exact fun _ => wrap64_lt _
    | exact id
    | dsimp only

theorem State.evalHold_touches (s : State) :
    Touches [.flags, .counts, .flagAt, .recent, .ev, .queues, .mode, .cores, .units, .outs, .mem] s (State.evalHold s) := by
  unfold State.evalHold
  try dsimp only
  repeat' first
    | with_reducible exact Touches.refl _ _
    | with_reducible assumption
    | ((with_reducible apply Touches.fst); · assumption)
    | ((with_reducible apply Touches.snd); · assumption)
    | with_reducible apply Touches.ite
    | (with_reducible apply Touches.foldl; on_goal 1 => intro _ _ _)
    | ((with_reducible apply Touches.step (State.refreshHold_touches ..)); · rfl)
    | ((with_reducible apply Touches.step (State.startHold_touches ..)); · rfl)
    | ((with_reducible apply Touches.step (State.setMode_touches ..)); · rfl)
    | ((with_reducible apply Touches.step (State.beginTrans_touches ..)); · rfl)
    | ((with_reducible apply Touches.step (State.refuse_touches ..)); · rfl)
    | ((with_reducible apply Touches.step (State.startResume_touches ..)); · rfl)
    | ((with_reducible apply Touches.step (State.startRun_touches ..)); · rfl)
    | split
    | exact fun _ => wrap64_lt _
    | exact id
    | dsimp only

theorem State.tripJournal_touches (s : State) (j : JCause) :
    Touches [.pwr, .mc] s (State.tripJournal s j) := by
  unfold State.tripJournal
  try dsimp only
  repeat' first
    | with_reducible exact Touches.refl _ _
    | with_reducible assumption
    | ((with_reducible apply Touches.fst); · assumption)
    | ((with_reducible apply Touches.snd); · assumption)
    | with_reducible apply Touches.ite
    | (with_reducible apply Touches.foldl; on_goal 1 => intro _ _ _)
    | ((with_reducible apply Touches.upd_pwr_mc); · rfl)
    | split
    | exact fun _ => wrap64_lt _
    | exact id
    | dsimp only

theorem State.toJournal_touches (s : State) (j : JCause) :
    Touches [.pwr] s (State.toJournal s j) := by
  unfold State.toJournal
  try dsimp only
  repeat' first
    | with_reducible exact Touches.refl _ _
    | with_reducible assumption
    | ((with_reducible apply Touches.fst); · assumption)
    | ((with_reducible apply Touches.snd); · assumption)
    | with_reducible apply Touches.ite
    | (with_reducible apply Touches.foldl; on_goal 1 => intro _ _ _)
    | ((with_reducible apply Touches.upd_pwr); · rfl)
    | split
    | exact fun _ => wrap64_lt _
    | exact id
    | dsimp only

theorem State.tripEffects_touches (s : State) (b : Nat) (lose : Bool) :
    Touches [.flags, .counts, .flagAt, .recent, .ev, .queues, .strands, .cores, .units, .outs, .inps, .rtones, .convs, .engines, .mem] s (State.tripEffects s b lose) := by
  unfold State.tripEffects
  try dsimp only
  repeat' first
    | with_reducible exact Touches.refl _ _
    | with_reducible assumption
    | ((with_reducible apply Touches.fst); · assumption)
    | ((with_reducible apply Touches.snd); · assumption)
    | with_reducible apply Touches.ite
    | (with_reducible apply Touches.foldl; on_goal 1 => intro _ _ _)
    | ((with_reducible apply Touches.step (State.invalidAll_touches ..)); · rfl)
    | ((with_reducible apply Touches.step (State.calAbortIf_touches ..)); · rfl)
    | ((with_reducible apply Touches.step (State.endAllShots_touches ..)); · rfl)
    | ((with_reducible apply Touches.step (State.clearWins_touches ..)); · rfl)
    | ((with_reducible apply Touches.step (State.setStrand_touches ..)); · rfl)
    | ((with_reducible apply Touches.step (State.flushCores_touches ..)); · rfl)
    | ((with_reducible apply Touches.step (State.mapCores_touches ..)); · rfl)
    | ((with_reducible apply Touches.step (State.holdAllOuts_touches ..)); · rfl)
    | ((with_reducible apply Touches.upd_mem); · rfl)
    | ((with_reducible apply Touches.upd_queues_units_rtones); · rfl)
    | split
    | exact fun _ => wrap64_lt _
    | exact id
    | dsimp only

theorem State.trip_touches (s : State) (idx : Nat) (j : JCause) (lose : Bool) :
    Touches [.flags, .counts, .flagAt, .recent, .ev, .queues, .mode, .strands, .cores, .units, .outs, .inps, .rtones, .convs, .engines, .pwr, .mc, .mem] s (State.trip s idx j lose) := by
  unfold State.trip
  try dsimp only
  repeat' first
    | with_reducible exact Touches.refl _ _
    | with_reducible assumption
    | ((with_reducible apply Touches.fst); · assumption)
    | ((with_reducible apply Touches.snd); · assumption)
    | with_reducible apply Touches.ite
    | (with_reducible apply Touches.foldl; on_goal 1 => intro _ _ _)
    | ((with_reducible apply Touches.step (State.setMode_touches ..)); · rfl)
    | ((with_reducible apply Touches.step (State.tripJournal_touches ..)); · rfl)
    | ((with_reducible apply Touches.step (State.refuse_touches ..)); · rfl)
    | ((with_reducible apply Touches.step (State.tripEffects_touches ..)); · rfl)
    | split
    | exact fun _ => wrap64_lt _
    | exact id
    | dsimp only

theorem State.fullReset_touches (s : State) :
    Touches [.regs, .latch, .lows, .held, .frameW, .frameLog, .flags, .counts, .flagAt, .recent, .ev, .queues, .mode, .plies, .strands, .cores, .units, .outs, .inps, .rtones, .dec, .hch, .badWords, .convs, .engines, .pwr, .mc, .mem, .sync, .ptp, .hif, .mon, .tio, .hbm, .seqSram, .ucode, .envSram, .kernel, .envTab] s (State.fullReset s) := by
  unfold State.fullReset
  try dsimp only
  repeat' first
    | with_reducible exact Touches.refl _ _
    | with_reducible assumption
    | ((with_reducible apply Touches.fst); · assumption)
    | ((with_reducible apply Touches.snd); · assumption)
    | with_reducible apply Touches.ite
    | (with_reducible apply Touches.foldl; on_goal 1 => intro _ _ _)
    | ((with_reducible apply Touches.upd_many2); · rfl)
    | split
    | exact fun _ => wrap64_lt _
    | exact id
    | dsimp only

end Sys2Proof.Machine
end

