-- ==== Sys2Proof/Laws/TouchHifCore.lean ====
section
/-! SUPPORT. The parts of the state that each operation of Machine/HifCore.lean can change. -/

namespace Sys2Proof.Machine

open Sys2Proof

theorem State.setRing_touches (s : State) (n : Nat) (r : Ring) :
    Touches [.hif] s (State.setRing s n r) := by
  unfold State.setRing
  try dsimp only
  repeat' first
    | with_reducible exact Touches.refl _ _
    | with_reducible assumption
    | ((with_reducible apply Touches.fst); · assumption)
    | ((with_reducible apply Touches.snd); · assumption)
    | with_reducible apply Touches.ite
    | (with_reducible apply Touches.foldl; on_goal 1 => intro _ _ _)
    | ((with_reducible apply Touches.upd_hif); · rfl)
    | split
    | exact fun _ => wrap64_lt _
    | exact id
    | dsimp only

theorem State.drained_touches (s : State) (n : Nat) :
    Touches [.hif] s (State.drained s n) := by
  unfold State.drained
  try dsimp only
  repeat' first
    | with_reducible exact Touches.refl _ _
    | with_reducible assumption
    | ((with_reducible apply Touches.fst); · assumption)
    | ((with_reducible apply Touches.snd); · assumption)
    | with_reducible apply Touches.ite
    | (with_reducible apply Touches.foldl; on_goal 1 => intro _ _ _)
    | ((with_reducible apply Touches.step (State.setRing_touches ..)); · rfl)
    | split
    | exact fun _ => wrap64_lt _
    | exact id
    | dsimp only

theorem State.complete_touches (s : State) (n : Nat) (desc : List Byte) (e : Entry) :
    Touches [.flags, .counts, .flagAt, .recent, .ev, .queues, .mem] s (State.complete s n desc e) := by
  unfold State.complete
  try dsimp only
  repeat' first
    | with_reducible exact Touches.refl _ _
    | with_reducible assumption
    | ((with_reducible apply Touches.fst); · assumption)
    | ((with_reducible apply Touches.snd); · assumption)
    | with_reducible apply Touches.ite
    | (with_reducible apply Touches.foldl; on_goal 1 => intro _ _ _)
    | ((with_reducible apply Touches.step (State.raise_touches ..)); · rfl)
    | ((with_reducible apply Touches.step (State.pushPacket_touches ..)); · rfl)
    | split
    | exact fun _ => wrap64_lt _
    | exact id
    | dsimp only

theorem State.ringEvent_touches (s : State) (n c : Nat) :
    Touches [.flags, .counts, .flagAt, .recent, .ev, .queues, .mem] s (State.ringEvent s n c) := by
  unfold State.ringEvent
  try dsimp only
  repeat' first
    | with_reducible exact Touches.refl _ _
    | with_reducible assumption
    | ((with_reducible apply Touches.fst); · assumption)
    | ((with_reducible apply Touches.snd); · assumption)
    | with_reducible apply Touches.ite
    | (with_reducible apply Touches.foldl; on_goal 1 => intro _ _ _)
    | ((with_reducible apply Touches.step (State.raise_touches ..)); · rfl)
    | split
    | exact fun _ => wrap64_lt _
    | exact id
    | dsimp only

theorem State.stopRing_touches (s : State) (n c : Nat) :
    Touches [.flags, .counts, .flagAt, .recent, .ev, .queues, .mem, .hif] s (State.stopRing s n c) := by
  unfold State.stopRing
  try dsimp only
  repeat' first
    | with_reducible exact Touches.refl _ _
    | with_reducible assumption
    | ((with_reducible apply Touches.fst); · assumption)
    | ((with_reducible apply Touches.snd); · assumption)
    | with_reducible apply Touches.ite
    | (with_reducible apply Touches.foldl; on_goal 1 => intro _ _ _)
    | ((with_reducible apply Touches.step (State.ringEvent_touches ..)); · rfl)
    | ((with_reducible apply Touches.step (State.setRing_touches ..)); · rfl)
    | split
    | exact fun _ => wrap64_lt _
    | exact id
    | dsimp only

theorem State.unreadable_touches (s : State) (n qn i : Nat) (p : Packet) :
    Touches [.flags, .counts, .flagAt, .recent, .ev, .queues, .mem, .hif] s (State.unreadable s n qn i p) := by
  unfold State.unreadable
  try dsimp only
  repeat' first
    | with_reducible exact Touches.refl _ _
    | with_reducible assumption
    | ((with_reducible apply Touches.fst); · assumption)
    | ((with_reducible apply Touches.snd); · assumption)
    | with_reducible apply Touches.ite
    | (with_reducible apply Touches.foldl; on_goal 1 => intro _ _ _)
    | ((with_reducible apply Touches.step (State.memUe_touches ..)); · rfl)
    | ((with_reducible apply Touches.step (State.drained_touches ..)); · rfl)
    | ((with_reducible apply Touches.step (State.stopRing_touches ..)); · rfl)
    | ((with_reducible apply Touches.step (State.setQueue_touches ..)); · rfl)
    | split
    | exact fun _ => wrap64_lt _
    | exact id
    | dsimp only

theorem State.writeEntry_touches (s : State) (n : Nat) :
    Touches [.flags, .counts, .flagAt, .recent, .ev, .queues, .mem, .hif, .hostMem] s (State.writeEntry s n) := by
  unfold State.writeEntry
  try dsimp only
  repeat' first
    | with_reducible exact Touches.refl _ _
    | with_reducible assumption
    | ((with_reducible apply Touches.fst); · assumption)
    | ((with_reducible apply Touches.snd); · assumption)
    | with_reducible apply Touches.ite
    | (with_reducible apply Touches.foldl; on_goal 1 => intro _ _ _)
    | split
    | ((with_reducible apply Touches.step (State.unreadable_touches ..)); · rfl)
    | ((with_reducible apply Touches.step (State.setQueue_touches ..)); · rfl)
    | ((with_reducible apply Touches.step (State.drained_touches ..)); · rfl)
    | ((with_reducible apply Touches.step (State.setRing_touches ..)); · rfl)
    | ((with_reducible apply Touches.upd_hostMem); · rfl)
    | exact fun _ => wrap64_lt _
    | exact id
    | dsimp only

theorem execCompletionEntry_touches (t : BitVec 64) (n : Fin 64) (s : State) :
    ∃ t', execCompletionEntry t n s = .next t' ∧ Touches [.now, .flags, .counts, .flagAt, .recent, .ev, .queues, .mem, .hif, .hostMem] s t' := by
  unfold execCompletionEntry
  try dsimp only
  repeat' first
    | refine ⟨_, rfl, ?_⟩
    | with_reducible exact Touches.refl _ _
    | with_reducible assumption
    | ((with_reducible apply Touches.fst); · assumption)
    | ((with_reducible apply Touches.snd); · assumption)
    | with_reducible apply Touches.ite
    | (with_reducible apply Touches.foldl; on_goal 1 => intro _ _ _)
    | ((with_reducible apply Touches.step (State.writeEntry_touches ..)); · rfl)
    | ((with_reducible apply Touches.step (State.at_touches ..)); · rfl)
    | split
    | exact fun _ => wrap64_lt _
    | exact id
    | dsimp only

theorem State.linkUp_touches (s : State) (speed width : Nat) (ecrc : Bool) :
    Touches [.flags, .counts, .flagAt, .recent, .ev, .queues, .mem, .hif] s (State.linkUp s speed width ecrc) := by
  unfold State.linkUp
  try dsimp only
  repeat' first
    | with_reducible exact Touches.refl _ _
    | with_reducible assumption
    | ((with_reducible apply Touches.fst); · assumption)
    | ((with_reducible apply Touches.snd); · assumption)
    | with_reducible apply Touches.ite
    | (with_reducible apply Touches.foldl; on_goal 1 => intro _ _ _)
    | ((with_reducible apply Touches.step (State.raise_touches ..)); · rfl)
    | ((with_reducible apply Touches.upd_hif); · rfl)
    | split
    | exact fun _ => wrap64_lt _
    | exact id
    | dsimp only

theorem execLinkUp_touches (t : BitVec 64) (speed : Fin 6) (width : Fin 17) (ecrc : Bool) (s : State) :
    ∃ t', execLinkUp t speed width ecrc s = .next t' ∧ Touches [.now, .flags, .counts, .flagAt, .recent, .ev, .queues, .mem, .hif] s t' := by
  unfold execLinkUp
  try dsimp only
  repeat' first
    | refine ⟨_, rfl, ?_⟩
    | with_reducible exact Touches.refl _ _
    | with_reducible assumption
    | ((with_reducible apply Touches.fst); · assumption)
    | ((with_reducible apply Touches.snd); · assumption)
    | with_reducible apply Touches.ite
    | (with_reducible apply Touches.foldl; on_goal 1 => intro _ _ _)
    | ((with_reducible apply Touches.step (State.linkUp_touches ..)); · rfl)
    | ((with_reducible apply Touches.step (State.at_touches ..)); · rfl)
    | split
    | exact fun _ => wrap64_lt _
    | exact id
    | dsimp only

theorem State.resetHif_touches (s : State) :
    Touches [.regs, .latch, .lows, .flags] s (State.resetHif s) := by
  unfold State.resetHif
  try dsimp only
  repeat' first
    | with_reducible exact Touches.refl _ _
    | with_reducible assumption
    | ((with_reducible apply Touches.fst); · assumption)
    | ((with_reducible apply Touches.snd); · assumption)
    | with_reducible apply Touches.ite
    | (with_reducible apply Touches.foldl; on_goal 1 => intro _ _ _)
    | ((with_reducible apply Touches.upd_regs_latch_lows_flags); · rfl)
    | split
    | exact fun _ => wrap64_lt _
    | exact id
    | dsimp only

theorem State.emptyQueue_touches (s : State) (q : Nat) :
    Touches [.queues] s (State.emptyQueue s q) := by
  unfold State.emptyQueue
  try dsimp only
  repeat' first
    | with_reducible exact Touches.refl _ _
    | with_reducible assumption
    | ((with_reducible apply Touches.fst); · assumption)
    | ((with_reducible apply Touches.snd); · assumption)
    | with_reducible apply Touches.ite
    | (with_reducible apply Touches.foldl; on_goal 1 => intro _ _ _)
    | ((with_reducible apply Touches.step (State.setQueue_touches ..)); · rfl)
    | split
    | exact fun _ => wrap64_lt _
    | exact id
    | dsimp only

theorem State.linkDown_touches (s : State) :
    Touches [.regs, .latch, .lows, .flags, .counts, .flagAt, .recent, .ev, .queues, .mem, .ptp, .hif] s (State.linkDown s) := by
  unfold State.linkDown
  try dsimp only
  repeat' first
    | with_reducible exact Touches.refl _ _
    | with_reducible assumption
    | ((with_reducible apply Touches.fst); · assumption)
    | ((with_reducible apply Touches.snd); · assumption)
    | with_reducible apply Touches.ite
    | (with_reducible apply Touches.foldl; on_goal 1 => intro _ _ _)
    | ((with_reducible apply Touches.step (State.emptyQueue_touches ..)); · rfl)
    | ((with_reducible apply Touches.step (State.raise_touches ..)); · rfl)
    | ((with_reducible apply Touches.step (State.resetHif_touches ..)); · rfl)
    | ((with_reducible apply Touches.upd_ptp_hif); · rfl)
    | split
    | exact fun _ => wrap64_lt _
    | exact id
    | dsimp only

theorem execLinkDown_touches (t : BitVec 64) (perst : Bool) (s : State) :
    ∃ t', execLinkDown t perst s = .next t' ∧ Touches [.now, .regs, .latch, .lows, .flags, .counts, .flagAt, .recent, .ev, .queues, .mem, .ptp, .hif] s t' := by
  unfold execLinkDown
  try dsimp only
  repeat' first
    | refine ⟨_, rfl, ?_⟩
    | with_reducible exact Touches.refl _ _
    | with_reducible assumption
    | ((with_reducible apply Touches.fst); · assumption)
    | ((with_reducible apply Touches.snd); · assumption)
    | with_reducible apply Touches.ite
    | (with_reducible apply Touches.foldl; on_goal 1 => intro _ _ _)
    | ((with_reducible apply Touches.step (State.linkDown_touches ..)); · rfl)
    | ((with_reducible apply Touches.step (State.at_touches ..)); · rfl)
    | split
    | exact fun _ => wrap64_lt _
    | exact id
    | dsimp only

theorem State.ringOn_touches (s : State) (n : Nat) :
    Touches [.regs, .flags, .counts, .flagAt, .recent, .ev, .queues, .mem, .hif] s (State.ringOn s n) := by
  unfold State.ringOn
  try dsimp only
  repeat' first
    | with_reducible exact Touches.refl _ _
    | with_reducible assumption
    | ((with_reducible apply Touches.fst); · assumption)
    | ((with_reducible apply Touches.snd); · assumption)
    | with_reducible apply Touches.ite
    | (with_reducible apply Touches.foldl; on_goal 1 => intro _ _ _)
    | ((with_reducible apply Touches.step (State.setRing_touches ..)); · rfl)
    | ((with_reducible apply Touches.step (State.ringEvent_touches ..)); · rfl)
    | ((with_reducible apply Touches.step (State.setFld_touches ..)); · rfl)
    | split
    | exact fun _ => wrap64_lt _
    | exact id
    | dsimp only

theorem State.wrRingCtl_touches (s : State) (n : Nat) (w : Word) :
    Touches [.regs, .flags, .counts, .flagAt, .recent, .ev, .queues, .mem, .hif] s (State.wrRingCtl s n w) := by
  unfold State.wrRingCtl
  try dsimp only
  repeat' first
    | with_reducible exact Touches.refl _ _
    | with_reducible assumption
    | ((with_reducible apply Touches.fst); · assumption)
    | ((with_reducible apply Touches.snd); · assumption)
    | with_reducible apply Touches.ite
    | (with_reducible apply Touches.foldl; on_goal 1 => intro _ _ _)
    | ((with_reducible apply Touches.step (State.drained_touches ..)); · rfl)
    | ((with_reducible apply Touches.step (State.setRing_touches ..)); · rfl)
    | ((with_reducible apply Touches.step (State.setFld_touches ..)); · rfl)
    | ((with_reducible apply Touches.step (State.writeFields_touches ..)); · rfl)
    | ((with_reducible apply Touches.step (State.ringOn_touches ..)); · rfl)
    | split
    | exact fun _ => wrap64_lt _
    | exact id
    | dsimp only

theorem execRingEnable_touches (t : BitVec 64) (n : Fin 64) (w : Word) (s : State) :
    ∃ t', execRingEnable t n w s = .next t' ∧ Touches [.now, .regs, .flags, .counts, .flagAt, .recent, .ev, .queues, .mem, .hif] s t' := by
  unfold execRingEnable
  try dsimp only
  repeat' first
    | refine ⟨_, rfl, ?_⟩
    | with_reducible exact Touches.refl _ _
    | with_reducible assumption
    | ((with_reducible apply Touches.fst); · assumption)
    | ((with_reducible apply Touches.snd); · assumption)
    | with_reducible apply Touches.ite
    | (with_reducible apply Touches.foldl; on_goal 1 => intro _ _ _)
    | ((with_reducible apply State.hubWrite_closed (Touches.closed _ _)); (· rfl); on_goal 1 => intro _ _)
    | ((with_reducible apply Touches.step (State.wrRingCtl_touches ..)); · rfl)
    | split
    | exact fun _ => wrap64_lt _
    | exact id
    | dsimp only

theorem execRingDisable_touches (t : BitVec 64) (n : Fin 64) (w : Word) (s : State) :
    ∃ t', execRingDisable t n w s = .next t' ∧ Touches [.now, .regs, .flags, .counts, .flagAt, .recent, .ev, .queues, .mem, .hif] s t' := by
  unfold execRingDisable
  try dsimp only
  repeat' first
    | refine ⟨_, rfl, ?_⟩
    | with_reducible exact Touches.refl _ _
    | with_reducible assumption
    | ((with_reducible apply Touches.fst); · assumption)
    | ((with_reducible apply Touches.snd); · assumption)
    | with_reducible apply Touches.ite
    | (with_reducible apply Touches.foldl; on_goal 1 => intro _ _ _)
    | ((with_reducible apply State.hubWrite_closed (Touches.closed _ _)); (· rfl); on_goal 1 => intro _ _)
    | ((with_reducible apply Touches.step (State.wrRingCtl_touches ..)); · rfl)
    | split
    | exact fun _ => wrap64_lt _
    | exact id
    | dsimp only

theorem State.wrRingReg_touches (s : State) (n : Nat) (r : RegId) (w : Word) :
    Touches [.regs] s (State.wrRingReg s n r w) := by
  unfold State.wrRingReg
  try dsimp only
  repeat' first
    | with_reducible exact Touches.refl _ _
    | with_reducible assumption
    | ((with_reducible apply Touches.fst); · assumption)
    | ((with_reducible apply Touches.snd); · assumption)
    | with_reducible apply Touches.ite
    | (with_reducible apply Touches.foldl; on_goal 1 => intro _ _ _)
    | ((with_reducible apply Touches.step (State.writeFields_touches ..)); · rfl)
    | split
    | exact fun _ => wrap64_lt _
    | exact id
    | dsimp only

theorem State.startRead_touches (s : State) (n : Nat) :
    Touches [.hif] s (State.startRead s n) := by
  unfold State.startRead
  try dsimp only
  repeat' first
    | with_reducible exact Touches.refl _ _
    | with_reducible assumption
    | ((with_reducible apply Touches.fst); · assumption)
    | ((with_reducible apply Touches.snd); · assumption)
    | with_reducible apply Touches.ite
    | (with_reducible apply Touches.foldl; on_goal 1 => intro _ _ _)
    | ((with_reducible apply Touches.step (State.setRing_touches ..)); · rfl)
    | split
    | exact fun _ => wrap64_lt _
    | exact id
    | dsimp only

theorem State.readAll_touches (s : State) :
    Touches [.hif] s (State.readAll s) := by
  unfold State.readAll
  try dsimp only
  repeat' first
    | with_reducible exact Touches.refl _ _
    | with_reducible assumption
    | ((with_reducible apply Touches.fst); · assumption)
    | ((with_reducible apply Touches.snd); · assumption)
    | with_reducible apply Touches.ite
    | (with_reducible apply Touches.foldl; on_goal 1 => intro _ _ _)
    | ((with_reducible apply Touches.step (State.startRead_touches ..)); · rfl)
    | split
    | exact fun _ => wrap64_lt _
    | exact id
    | dsimp only

theorem State.poll_touches (s : State) :
    Touches [.now, .hif] s (State.poll s) := by
  unfold State.poll
  try dsimp only
  repeat' first
    | with_reducible exact Touches.refl _ _
    | with_reducible assumption
    | ((with_reducible apply Touches.fst); · assumption)
    | ((with_reducible apply Touches.snd); · assumption)
    | with_reducible apply Touches.ite
    | (with_reducible apply Touches.foldl; on_goal 1 => intro _ _ _)
    | ((with_reducible apply Touches.step (State.clockTo_touches ..)); · rfl)
    | ((with_reducible apply Touches.step (State.readAll_touches ..)); · rfl)
    | ((with_reducible apply Touches.upd_hif); · rfl)
    | split
    | exact fun _ => wrap64_lt _
    | exact id
    | dsimp only

theorem execDoorbellPoll_touches (s : State) :
    ∃ t', execDoorbellPoll s = .next t' ∧ Touches [.now, .hif] s t' := by
  unfold execDoorbellPoll
  try dsimp only
  repeat' first
    | refine ⟨_, rfl, ?_⟩
    | with_reducible exact Touches.refl _ _
    | with_reducible assumption
    | ((with_reducible apply Touches.fst); · assumption)
    | ((with_reducible apply Touches.snd); · assumption)
    | with_reducible apply Touches.ite
    | (with_reducible apply Touches.foldl; on_goal 1 => intro _ _ _)
    | ((with_reducible apply Touches.step (State.poll_touches ..)); · rfl)
    | split
    | exact fun _ => wrap64_lt _
    | exact id
    | dsimp only

theorem State.wrKick_touches (s : State) (w : Word) :
    Touches [.hif] s (State.wrKick s w) := by
  unfold State.wrKick
  try dsimp only
  repeat' first
    | with_reducible exact Touches.refl _ _
    | with_reducible assumption
    | ((with_reducible apply Touches.fst); · assumption)
    | ((with_reducible apply Touches.snd); · assumption)
    | with_reducible apply Touches.ite
    | (with_reducible apply Touches.foldl; on_goal 1 => intro _ _ _)
    | ((with_reducible apply Touches.step (State.readAll_touches ..)); · rfl)
    | ((with_reducible apply Touches.step (State.startRead_touches ..)); · rfl)
    | split
    | exact fun _ => wrap64_lt _
    | exact id
    | dsimp only

theorem execHifKick_touches (t : BitVec 64) (w : Word) (s : State) :
    ∃ t', execHifKick t w s = .next t' ∧ Touches [.now, .hif] s t' := by
  unfold execHifKick
  try dsimp only
  repeat' first
    | refine ⟨_, rfl, ?_⟩
    | with_reducible exact Touches.refl _ _
    | with_reducible assumption
    | ((with_reducible apply Touches.fst); · assumption)
    | ((with_reducible apply Touches.snd); · assumption)
    | with_reducible apply Touches.ite
    | (with_reducible apply Touches.foldl; on_goal 1 => intro _ _ _)
    | ((with_reducible apply State.hubWrite_closed (Touches.closed _ _)); (· rfl); on_goal 1 => intro _ _)
    | ((with_reducible apply Touches.step (State.wrKick_touches ..)); · rfl)
    | split
    | exact fun _ => wrap64_lt _
    | exact id
    | dsimp only

theorem State.fetchUpTo_touches (s : State) (n tail : Nat) (ok : Bool) (k : Nat) :
    Touches [.flags, .counts, .flagAt, .recent, .ev, .queues, .mem, .hif] s (s.fetchUpTo n tail ok k) := by
  induction k generalizing s with
  | zero => exact Touches.refl _ _
  | succ k ih =>
    unfold State.fetchUpTo
    refine Touches.ite (Touches.refl _ _) (Touches.ite (Touches.step (State.stopRing_touches ..) rfl (Touches.refl _ _)) ?_)
    exact Touches.step (ih _) rfl (Touches.step (State.setRing_touches ..) rfl
      (Touches.step (State.pushPacket_touches ..) rfl (Touches.refl _ _)))

theorem State.doorbell_touches (s : State) (n : Nat) (recordOk fetchOk : Bool) :
    Touches [.flags, .counts, .flagAt, .recent, .ev, .queues, .mem, .hif] s (State.doorbell s n recordOk fetchOk) := by
  unfold State.doorbell
  try dsimp only
  repeat' first
    | with_reducible exact Touches.refl _ _
    | with_reducible assumption
    | ((with_reducible apply Touches.fst); · assumption)
    | ((with_reducible apply Touches.snd); · assumption)
    | with_reducible apply Touches.ite
    | (with_reducible apply Touches.foldl; on_goal 1 => intro _ _ _)
    | ((with_reducible apply Touches.step (State.setRing_touches ..)); · rfl)
    | ((with_reducible apply Touches.step (State.stopRing_touches ..)); · rfl)
    | ((with_reducible apply Touches.step (State.fetchUpTo_touches ..)); · rfl)
    | split
    | exact fun _ => wrap64_lt _
    | exact id
    | dsimp only

theorem execDoorbellRead_touches (t : BitVec 64) (n : Fin 64) (recordOk fetchOk : Bool) (s : State) :
    ∃ t', execDoorbellRead t n recordOk fetchOk s = .next t' ∧ Touches [.now, .flags, .counts, .flagAt, .recent, .ev, .queues, .mem, .hif] s t' := by
  unfold execDoorbellRead
  try dsimp only
  repeat' first
    | refine ⟨_, rfl, ?_⟩
    | with_reducible exact Touches.refl _ _
    | with_reducible assumption
    | ((with_reducible apply Touches.fst); · assumption)
    | ((with_reducible apply Touches.snd); · assumption)
    | with_reducible apply Touches.ite
    | (with_reducible apply Touches.foldl; on_goal 1 => intro _ _ _)
    | ((with_reducible apply Touches.step (State.doorbell_touches ..)); · rfl)
    | ((with_reducible apply Touches.step (State.at_touches ..)); · rfl)
    | split
    | exact fun _ => wrap64_lt _
    | exact id
    | dsimp only

end Sys2Proof.Machine
end

