-- ==== Sys2Proof/Laws/TouchQueues.lean ====
section
/-! SUPPORT. The parts of the state that each operation of Machine/Queues.lean can change. -/

namespace Sys2Proof.Machine

open Sys2Proof

theorem State.settleReader_touches (s : State) (qn : Nat) :
    Touches [.queues, .units] s (State.settleReader s qn) := by
  unfold State.settleReader
  try dsimp only
  repeat' first
    | with_reducible exact Touches.refl _ _
    | with_reducible assumption
    | ((with_reducible apply Touches.fst); · assumption)
    | ((with_reducible apply Touches.snd); · assumption)
    | with_reducible apply Touches.ite
    | (with_reducible apply Touches.foldl; on_goal 1 => intro _ _ _)
    | ((with_reducible apply Touches.step (State.settleStream_touches ..)); · rfl)
    | split
    | exact fun _ => wrap64_lt _
    | exact id
    | dsimp only

theorem State.finishOn_touches (s : State) (op qn : Nat) (f : Started → Entry) :
    Touches [.flags, .counts, .flagAt, .recent, .ev, .queues, .mem, .hif] s (State.finishOn s op qn f) := by
  unfold State.finishOn
  try dsimp only
  repeat' first
    | with_reducible exact Touches.refl _ _
    | with_reducible assumption
    | ((with_reducible apply Touches.fst); · assumption)
    | ((with_reducible apply Touches.snd); · assumption)
    | with_reducible apply Touches.ite
    | (with_reducible apply Touches.foldl; on_goal 1 => intro _ _ _)
    | ((with_reducible apply Touches.step (State.drained_touches ..)); · rfl)
    | ((with_reducible apply Touches.step (State.complete_touches ..)); · rfl)
    | ((with_reducible apply Touches.upd_hif); · rfl)
    | split
    | exact fun _ => wrap64_lt _
    | exact id
    | dsimp only

theorem State.disableNow_touches (s : State) (qn : Nat) :
    Touches [.flags, .counts, .flagAt, .recent, .ev, .queues, .mem, .hif] s (State.disableNow s qn) := by
  unfold State.disableNow
  try dsimp only
  repeat' first
    | with_reducible exact Touches.refl _ _
    | with_reducible assumption
    | ((with_reducible apply Touches.fst); · assumption)
    | ((with_reducible apply Touches.snd); · assumption)
    | with_reducible apply Touches.ite
    | (with_reducible apply Touches.foldl; on_goal 1 => intro _ _ _)
    | ((with_reducible apply Touches.step (State.setQueue_touches ..)); · rfl)
    | ((with_reducible apply Touches.step (State.finishOn_touches ..)); · rfl)
    | ((with_reducible apply Touches.upd_flags); · rfl)
    | split
    | exact fun _ => wrap64_lt _
    | exact id
    | dsimp only

theorem State.qmConfig_touches (s : State) (qn cause : Nat) :
    Touches [.flags, .counts, .flagAt, .recent, .ev, .queues, .mem] s (State.qmConfig s qn cause) := by
  unfold State.qmConfig
  try dsimp only
  repeat' first
    | with_reducible exact Touches.refl _ _
    | with_reducible assumption
    | ((with_reducible apply Touches.fst); · assumption)
    | ((with_reducible apply Touches.snd); · assumption)
    | with_reducible apply Touches.ite
    | (with_reducible apply Touches.foldl; on_goal 1 => intro _ _ _)
    | ((with_reducible apply Touches.step (State.raise_touches ..)); · rfl)
    | split
    | exact fun _ => wrap64_lt _
    | exact id
    | dsimp only

theorem State.enableQueue_touches (s : State) (qn : Nat) :
    Touches [.flags, .counts, .flagAt, .recent, .ev, .queues, .mem] s (State.enableQueue s qn) := by
  unfold State.enableQueue
  try dsimp only
  repeat' first
    | with_reducible exact Touches.refl _ _
    | with_reducible assumption
    | ((with_reducible apply Touches.fst); · assumption)
    | ((with_reducible apply Touches.snd); · assumption)
    | with_reducible apply Touches.ite
    | (with_reducible apply Touches.foldl; on_goal 1 => intro _ _ _)
    | ((with_reducible apply Touches.step (State.qmConfig_touches ..)); · rfl)
    | ((with_reducible apply Touches.step (State.setQueue_touches ..)); · rfl)
    | split
    | exact fun _ => wrap64_lt _
    | exact id
    | dsimp only

theorem State.disableQueue_touches (s : State) (qn : Nat) :
    Touches [.flags, .counts, .flagAt, .recent, .ev, .queues, .units, .mem, .hif] s (State.disableQueue s qn) := by
  unfold State.disableQueue
  try dsimp only
  repeat' first
    | with_reducible exact Touches.refl _ _
    | with_reducible assumption
    | ((with_reducible apply Touches.fst); · assumption)
    | ((with_reducible apply Touches.snd); · assumption)
    | with_reducible apply Touches.ite
    | (with_reducible apply Touches.foldl; on_goal 1 => intro _ _ _)
    | ((with_reducible apply Touches.step (State.settleReader_touches ..)); · rfl)
    | ((with_reducible apply Touches.step (State.setQueue_touches ..)); · rfl)
    | ((with_reducible apply Touches.step (State.disableNow_touches ..)); · rfl)
    | split
    | exact fun _ => wrap64_lt _
    | exact id
    | dsimp only

theorem State.flushNow_touches (s : State) (qn tr : Nat) :
    Touches [.flags, .counts, .flagAt, .recent, .ev, .queues, .mem, .hif] s (State.flushNow s qn tr) := by
  unfold State.flushNow
  try dsimp only
  repeat' first
    | with_reducible exact Touches.refl _ _
    | with_reducible assumption
    | ((with_reducible apply Touches.fst); · assumption)
    | ((with_reducible apply Touches.snd); · assumption)
    | with_reducible apply Touches.ite
    | (with_reducible apply Touches.foldl; on_goal 1 => intro _ _ _)
    | ((with_reducible apply Touches.step (State.setQueue_touches ..)); · rfl)
    | ((with_reducible apply Touches.step (State.finishOn_touches ..)); · rfl)
    | ((with_reducible apply Touches.step (State.bumpKey_touches ..)); · rfl)
    | split
    | exact fun _ => wrap64_lt _
    | exact id
    | dsimp only

theorem State.askFlush_touches (s : State) (qn : Nat) :
    Touches [.flags, .counts, .flagAt, .recent, .ev, .queues, .units, .mem, .hif] s (State.askFlush s qn) := by
  unfold State.askFlush
  try dsimp only
  repeat' first
    | with_reducible exact Touches.refl _ _
    | with_reducible assumption
    | ((with_reducible apply Touches.fst); · assumption)
    | ((with_reducible apply Touches.snd); · assumption)
    | with_reducible apply Touches.ite
    | (with_reducible apply Touches.foldl; on_goal 1 => intro _ _ _)
    | ((with_reducible apply Touches.step (State.settleReader_touches ..)); · rfl)
    | ((with_reducible apply Touches.step (State.flushNow_touches ..)); · rfl)
    | ((with_reducible apply Touches.step (State.setQueue_touches ..)); · rfl)
    | split
    | exact fun _ => wrap64_lt _
    | exact id
    | dsimp only

theorem State.wrQctl_touches (s : State) (w : Word) :
    Touches [.flags, .counts, .flagAt, .recent, .ev, .queues, .units, .mem, .hif] s (State.wrQctl s w) := by
  unfold State.wrQctl
  try dsimp only
  repeat' first
    | with_reducible exact Touches.refl _ _
    | with_reducible assumption
    | ((with_reducible apply Touches.fst); · assumption)
    | ((with_reducible apply Touches.snd); · assumption)
    | with_reducible apply Touches.ite
    | (with_reducible apply Touches.foldl; on_goal 1 => intro _ _ _)
    | ((with_reducible apply Touches.step (State.setQueue_touches ..)); · rfl)
    | ((with_reducible apply Touches.step (State.disableQueue_touches ..)); · rfl)
    | ((with_reducible apply Touches.step (State.enableQueue_touches ..)); · rfl)
    | ((with_reducible apply Touches.step (State.askFlush_touches ..)); · rfl)
    | split
    | exact fun _ => wrap64_lt _
    | exact id
    | dsimp only

theorem execQueueEnable_touches (t : BitVec 64) (w : Word) (s : State) :
    ∃ t', execQueueEnable t w s = .next t' ∧ Touches [.now, .flags, .counts, .flagAt, .recent, .ev, .queues, .units, .mem, .hif] s t' := by
  unfold execQueueEnable
  try dsimp only
  repeat' first
    | refine ⟨_, rfl, ?_⟩
    | with_reducible exact Touches.refl _ _
    | with_reducible assumption
    | ((with_reducible apply Touches.fst); · assumption)
    | ((with_reducible apply Touches.snd); · assumption)
    | with_reducible apply Touches.ite
    | (with_reducible apply Touches.foldl; on_goal 1 => intro _ _ _)
    | ((with_reducible apply State.hubWrite_closed (Touches.closed _ _)); (· rfl); on_goal 1 => intro _ _)
    | ((with_reducible apply Touches.step (State.wrQctl_touches ..)); · rfl)
    | split
    | exact fun _ => wrap64_lt _
    | exact id
    | dsimp only

theorem execQueueDisable_touches (t : BitVec 64) (w : Word) (s : State) :
    ∃ t', execQueueDisable t w s = .next t' ∧ Touches [.now, .flags, .counts, .flagAt, .recent, .ev, .queues, .units, .mem, .hif] s t' := by
  unfold execQueueDisable
  try dsimp only
  repeat' first
    | refine ⟨_, rfl, ?_⟩
    | with_reducible exact Touches.refl _ _
    | with_reducible assumption
    | ((with_reducible apply Touches.fst); · assumption)
    | ((with_reducible apply Touches.snd); · assumption)
    | with_reducible apply Touches.ite
    | (with_reducible apply Touches.foldl; on_goal 1 => intro _ _ _)
    | ((with_reducible apply State.hubWrite_closed (Touches.closed _ _)); (· rfl); on_goal 1 => intro _ _)
    | ((with_reducible apply Touches.step (State.wrQctl_touches ..)); · rfl)
    | split
    | exact fun _ => wrap64_lt _
    | exact id
    | dsimp only

theorem execQueueFlush_touches (t : BitVec 64) (w : Word) (s : State) :
    ∃ t', execQueueFlush t w s = .next t' ∧ Touches [.now, .flags, .counts, .flagAt, .recent, .ev, .queues, .units, .mem, .hif] s t' := by
  unfold execQueueFlush
  try dsimp only
  repeat' first
    | refine ⟨_, rfl, ?_⟩
    | with_reducible exact Touches.refl _ _
    | with_reducible assumption
    | ((with_reducible apply Touches.fst); · assumption)
    | ((with_reducible apply Touches.snd); · assumption)
    | with_reducible apply Touches.ite
    | (with_reducible apply Touches.foldl; on_goal 1 => intro _ _ _)
    | ((with_reducible apply State.hubWrite_closed (Touches.closed _ _)); (· rfl); on_goal 1 => intro _ _)
    | ((with_reducible apply Touches.step (State.wrQctl_touches ..)); · rfl)
    | split
    | exact fun _ => wrap64_lt _
    | exact id
    | dsimp only

theorem State.disableDone_touches (s : State) (qn : Nat) :
    Touches [.flags, .counts, .flagAt, .recent, .ev, .queues, .units, .mem, .hif] s (State.disableDone s qn) := by
  unfold State.disableDone
  try dsimp only
  repeat' first
    | with_reducible exact Touches.refl _ _
    | with_reducible assumption
    | ((with_reducible apply Touches.fst); · assumption)
    | ((with_reducible apply Touches.snd); · assumption)
    | with_reducible apply Touches.ite
    | (with_reducible apply Touches.foldl; on_goal 1 => intro _ _ _)
    | ((with_reducible apply Touches.step (State.settleReader_touches ..)); · rfl)
    | ((with_reducible apply Touches.step (State.disableNow_touches ..)); · rfl)
    | split
    | exact fun _ => wrap64_lt _
    | exact id
    | dsimp only

theorem execQueueDisableDone_touches (t : BitVec 64) (q : Fin 32768) (s : State) :
    ∃ t', execQueueDisableDone t q s = .next t' ∧ Touches [.now, .flags, .counts, .flagAt, .recent, .ev, .queues, .units, .mem, .hif] s t' := by
  unfold execQueueDisableDone
  try dsimp only
  repeat' first
    | refine ⟨_, rfl, ?_⟩
    | with_reducible exact Touches.refl _ _
    | with_reducible assumption
    | ((with_reducible apply Touches.fst); · assumption)
    | ((with_reducible apply Touches.snd); · assumption)
    | with_reducible apply Touches.ite
    | (with_reducible apply Touches.foldl; on_goal 1 => intro _ _ _)
    | ((with_reducible apply Touches.step (State.disableDone_touches ..)); · rfl)
    | ((with_reducible apply Touches.step (State.at_touches ..)); · rfl)
    | split
    | exact fun _ => wrap64_lt _
    | exact id
    | dsimp only

theorem State.flushDone_touches (s : State) (qn : Nat) :
    Touches [.flags, .counts, .flagAt, .recent, .ev, .queues, .units, .mem, .hif] s (State.flushDone s qn) := by
  unfold State.flushDone
  try dsimp only
  repeat' first
    | with_reducible exact Touches.refl _ _
    | with_reducible assumption
    | ((with_reducible apply Touches.fst); · assumption)
    | ((with_reducible apply Touches.snd); · assumption)
    | with_reducible apply Touches.ite
    | (with_reducible apply Touches.foldl; on_goal 1 => intro _ _ _)
    | ((with_reducible apply Touches.step (State.settleReader_touches ..)); · rfl)
    | ((with_reducible apply Touches.step (State.flushNow_touches ..)); · rfl)
    | split
    | exact fun _ => wrap64_lt _
    | exact id
    | dsimp only

theorem execFlushDone_touches (t : BitVec 64) (q : Fin 32768) (s : State) :
    ∃ t', execFlushDone t q s = .next t' ∧ Touches [.now, .flags, .counts, .flagAt, .recent, .ev, .queues, .units, .mem, .hif] s t' := by
  unfold execFlushDone
  try dsimp only
  repeat' first
    | refine ⟨_, rfl, ?_⟩
    | with_reducible exact Touches.refl _ _
    | with_reducible assumption
    | ((with_reducible apply Touches.fst); · assumption)
    | ((with_reducible apply Touches.snd); · assumption)
    | with_reducible apply Touches.ite
    | (with_reducible apply Touches.foldl; on_goal 1 => intro _ _ _)
    | ((with_reducible apply Touches.step (State.flushDone_touches ..)); · rfl)
    | ((with_reducible apply Touches.step (State.at_touches ..)); · rfl)
    | split
    | exact fun _ => wrap64_lt _
    | exact id
    | dsimp only

theorem State.wrQueueReg_touches (s : State) (r : RegId) (w : Word) :
    Touches [.queues] s (State.wrQueueReg s r w) := by
  unfold State.wrQueueReg
  try dsimp only
  repeat' first
    | with_reducible exact Touches.refl _ _
    | with_reducible assumption
    | ((with_reducible apply Touches.fst); · assumption)
    | ((with_reducible apply Touches.snd); · assumption)
    | with_reducible apply Touches.ite
    | (with_reducible apply Touches.foldl; on_goal 1 => intro _ _ _)
    | ((with_reducible apply Touches.step (State.setQueue_touches ..)); · rfl)
    | split
    | exact fun _ => wrap64_lt _
    | exact id
    | dsimp only

end Sys2Proof.Machine
end

