-- ==== Sys2Proof/Laws/TouchTime.lean ====
section
/-! SUPPORT. The parts of the state that each operation of Machine/Time.lean can change. -/

namespace Sys2Proof.Machine

open Sys2Proof

theorem State.setSync_touches (s : State) (x : SyncSt) :
    Touches [.sync] s (State.setSync s x) := by
  unfold State.setSync
  try dsimp only
  repeat' first
    | with_reducible exact Touches.refl _ _
    | with_reducible assumption
    | ((with_reducible apply Touches.fst); · assumption)
    | ((with_reducible apply Touches.snd); · assumption)
    | with_reducible apply Touches.ite
    | (with_reducible apply Touches.foldl; on_goal 1 => intro _ _ _)
    | ((with_reducible apply Touches.upd_sync); · rfl)
    | split
    | exact fun _ => wrap64_lt _
    | exact id
    | dsimp only

theorem State.setPtp_touches (s : State) (x : PtpSt) :
    Touches [.ptp] s (State.setPtp s x) := by
  unfold State.setPtp
  try dsimp only
  repeat' first
    | with_reducible exact Touches.refl _ _
    | with_reducible assumption
    | ((with_reducible apply Touches.fst); · assumption)
    | ((with_reducible apply Touches.snd); · assumption)
    | with_reducible apply Touches.ite
    | (with_reducible apply Touches.foldl; on_goal 1 => intro _ _ _)
    | ((with_reducible apply Touches.upd_ptp); · rfl)
    | split
    | exact fun _ => wrap64_lt _
    | exact id
    | dsimp only

theorem State.loseRef_touches (s : State) :
    Touches [.flags, .counts, .flagAt, .recent, .ev, .queues, .mode, .cores, .units, .outs, .mem, .sync] s (State.loseRef s) := by
  unfold State.loseRef
  try dsimp only
  repeat' first
    | with_reducible exact Touches.refl _ _
    | with_reducible assumption
    | ((with_reducible apply Touches.fst); · assumption)
    | ((with_reducible apply Touches.snd); · assumption)
    | with_reducible apply Touches.ite
    | (with_reducible apply Touches.foldl; on_goal 1 => intro _ _ _)
    | ((with_reducible apply Touches.step (State.setSync_touches ..)); · rfl)
    | ((with_reducible apply Touches.step (State.evalHold_touches ..)); · rfl)
    | ((with_reducible apply Touches.step (State.invalidAll_touches ..)); · rfl)
    | ((with_reducible apply Touches.step (State.raise_touches ..)); · rfl)
    | split
    | exact fun _ => wrap64_lt _
    | exact id
    | dsimp only

theorem State.selectRef_touches (s : State) :
    Touches [.flags, .counts, .flagAt, .recent, .ev, .queues, .mode, .cores, .units, .outs, .mem, .sync] s (State.selectRef s) := by
  unfold State.selectRef
  try dsimp only
  repeat' first
    | with_reducible exact Touches.refl _ _
    | with_reducible assumption
    | ((with_reducible apply Touches.fst); · assumption)
    | ((with_reducible apply Touches.snd); · assumption)
    | with_reducible apply Touches.ite
    | (with_reducible apply Touches.foldl; on_goal 1 => intro _ _ _)
    | ((with_reducible apply Touches.step (State.setSync_touches ..)); · rfl)
    | ((with_reducible apply Touches.step (State.loseRef_touches ..)); · rfl)
    | ((with_reducible apply Touches.step (State.evalHold_touches ..)); · rfl)
    | split
    | exact fun _ => wrap64_lt _
    | exact id
    | dsimp only

theorem execRefLost_based (t : BitVec 64) (s : State) :
    ∃ t', execRefLost t s = .next t' ∧ Based [.now, .flags, .counts, .flagAt, .recent, .ev, .queues, .mode, .cores, .units, .outs, .mem, .sync] s t' := by
  unfold execRefLost
  try dsimp only
  repeat' first
    | refine ⟨_, rfl, ?_⟩
    | with_reducible exact Based.refl _ _
    | with_reducible assumption
    | with_reducible exact Settled.refl
    | ((with_reducible apply Based.fst); · assumption)
    | ((with_reducible apply Based.snd); · assumption)
    | with_reducible apply Based.ite
    | (with_reducible apply Based.foldl; on_goal 1 => intro _ _ _)
    | ((with_reducible apply State.upTo_based); · rfl)
    | ((with_reducible apply Based.step (State.setSync_touches ..)); · rfl)
    | ((with_reducible apply Based.step (State.loseRef_touches ..)); · rfl)
    | split
    | exact fun _ => wrap64_lt _
    | exact id
    | dsimp only

theorem State.refValidNow_touches (s : State) :
    Touches [.sync] s (State.refValidNow s) := by
  unfold State.refValidNow
  try dsimp only
  repeat' first
    | with_reducible exact Touches.refl _ _
    | with_reducible assumption
    | ((with_reducible apply Touches.fst); · assumption)
    | ((with_reducible apply Touches.snd); · assumption)
    | with_reducible apply Touches.ite
    | (with_reducible apply Touches.foldl; on_goal 1 => intro _ _ _)
    | ((with_reducible apply Touches.step (State.setSync_touches ..)); · rfl)
    | split
    | exact fun _ => wrap64_lt _
    | exact id
    | dsimp only

theorem execRefValid_touches (t : BitVec 64) (s : State) :
    ∃ t', execRefValid t s = .next t' ∧ Touches [.now, .sync] s t' := by
  unfold execRefValid
  try dsimp only
  repeat' first
    | refine ⟨_, rfl, ?_⟩
    | with_reducible exact Touches.refl _ _
    | with_reducible assumption
    | ((with_reducible apply Touches.fst); · assumption)
    | ((with_reducible apply Touches.snd); · assumption)
    | with_reducible apply Touches.ite
    | (with_reducible apply Touches.foldl; on_goal 1 => intro _ _ _)
    | ((with_reducible apply Touches.step (State.refValidNow_touches ..)); · rfl)
    | ((with_reducible apply Touches.step (State.at_touches ..)); · rfl)
    | split
    | exact fun _ => wrap64_lt _
    | exact id
    | dsimp only

theorem State.refRestored_touches (s : State) :
    Touches [.flags, .counts, .flagAt, .recent, .ev, .queues, .mode, .cores, .units, .outs, .mem, .sync] s (State.refRestored s) := by
  unfold State.refRestored
  try dsimp only
  repeat' first
    | with_reducible exact Touches.refl _ _
    | with_reducible assumption
    | ((with_reducible apply Touches.fst); · assumption)
    | ((with_reducible apply Touches.snd); · assumption)
    | with_reducible apply Touches.ite
    | (with_reducible apply Touches.foldl; on_goal 1 => intro _ _ _)
    | ((with_reducible apply Touches.step (State.setSync_touches ..)); · rfl)
    | ((with_reducible apply Touches.step (State.evalHold_touches ..)); · rfl)
    | ((with_reducible apply Touches.step (State.raise_touches ..)); · rfl)
    | split
    | exact fun _ => wrap64_lt _
    | exact id
    | dsimp only

theorem execRefRestored_based (t : BitVec 64) (s : State) :
    ∃ t', execRefRestored t s = .next t' ∧ Based [.now, .flags, .counts, .flagAt, .recent, .ev, .queues, .mode, .cores, .units, .outs, .mem, .sync] s t' := by
  unfold execRefRestored
  try dsimp only
  repeat' first
    | refine ⟨_, rfl, ?_⟩
    | with_reducible exact Based.refl _ _
    | with_reducible assumption
    | with_reducible exact Settled.refl
    | ((with_reducible apply Based.fst); · assumption)
    | ((with_reducible apply Based.snd); · assumption)
    | with_reducible apply Based.ite
    | (with_reducible apply Based.foldl; on_goal 1 => intro _ _ _)
    | ((with_reducible apply Based.step (State.refRestored_touches ..)); · rfl)
    | ((with_reducible apply State.upTo_based); · rfl)
    | split
    | exact fun _ => wrap64_lt _
    | exact id
    | dsimp only

theorem State.clkTrip_touches (s : State) (src : Nat) :
    Touches [.flags, .counts, .flagAt, .recent, .ev, .queues, .mode, .strands, .cores, .units, .outs, .inps, .rtones, .convs, .engines, .pwr, .mc, .mem] s (State.clkTrip s src) := by
  unfold State.clkTrip
  try dsimp only
  repeat' first
    | with_reducible exact Touches.refl _ _
    | with_reducible assumption
    | ((with_reducible apply Touches.fst); · assumption)
    | ((with_reducible apply Touches.snd); · assumption)
    | with_reducible apply Touches.ite
    | (with_reducible apply Touches.foldl; on_goal 1 => intro _ _ _)
    | ((with_reducible apply Touches.step (State.raise_touches ..)); · rfl)
    | ((with_reducible apply Touches.step (State.trip_touches ..)); · rfl)
    | split
    | exact fun _ => wrap64_lt _
    | exact id
    | dsimp only

theorem State.clkFault_touches (s : State) (x1 : ClkCause) :
    Touches [.flags, .counts, .flagAt, .recent, .ev, .queues, .mode, .strands, .cores, .units, .outs, .inps, .rtones, .convs, .engines, .pwr, .mc, .mem, .sync] s (State.clkFault s x1) := by
  unfold State.clkFault
  try dsimp only
  repeat' first
    | with_reducible exact Touches.refl _ _
    | with_reducible assumption
    | ((with_reducible apply Touches.fst); · assumption)
    | ((with_reducible apply Touches.snd); · assumption)
    | with_reducible apply Touches.ite
    | (with_reducible apply Touches.foldl; on_goal 1 => intro _ _ _)
    | ((with_reducible apply Touches.step (State.clkTrip_touches ..)); · rfl)
    | ((with_reducible apply Touches.step (State.setSync_touches ..)); · rfl)
    | ((with_reducible apply Touches.step (State.bump_touches ..)); · rfl)
    | split
    | exact fun _ => wrap64_lt _
    | exact id
    | dsimp only

theorem execClkFault_based (t : BitVec 64) (cause : ClkCause) (s : State) :
    ∃ t', execClkFault t cause s = .next t' ∧ Based [.now, .flags, .counts, .flagAt, .recent, .ev, .queues, .mode, .strands, .cores, .units, .outs, .inps, .rtones, .convs, .engines, .pwr, .mc, .mem, .sync] s t' := by
  unfold execClkFault
  try dsimp only
  repeat' first
    | refine ⟨_, rfl, ?_⟩
    | with_reducible exact Based.refl _ _
    | with_reducible assumption
    | with_reducible exact Settled.refl
    | ((with_reducible apply Based.fst); · assumption)
    | ((with_reducible apply Based.snd); · assumption)
    | with_reducible apply Based.ite
    | (with_reducible apply Based.foldl; on_goal 1 => intro _ _ _)
    | ((with_reducible apply Based.step (State.clkFault_touches ..)); · rfl)
    | ((with_reducible apply State.upTo_based); · rfl)
    | split
    | exact fun _ => wrap64_lt _
    | exact id
    | dsimp only

theorem State.setEpoch_touches (s : State) (v : Nat) :
    Touches [.regs] s (State.setEpoch s v) := by
  unfold State.setEpoch
  try dsimp only
  repeat' first
    | with_reducible exact Touches.refl _ _
    | with_reducible assumption
    | ((with_reducible apply Touches.fst); · assumption)
    | ((with_reducible apply Touches.snd); · assumption)
    | with_reducible apply Touches.ite
    | (with_reducible apply Touches.foldl; on_goal 1 => intro _ _ _)
    | ((with_reducible apply Touches.step (State.setReg_touches ..)); · rfl)
    | split
    | exact fun _ => wrap64_lt _
    | exact id
    | dsimp only

theorem State.wrEpochHi_touches (s : State) (hi : Word) :
    Touches [.regs, .lows, .held] s (State.wrEpochHi s hi) := by
  unfold State.wrEpochHi
  try dsimp only
  repeat' first
    | with_reducible exact Touches.refl _ _
    | with_reducible assumption
    | ((with_reducible apply Touches.fst); · assumption)
    | ((with_reducible apply Touches.snd); · assumption)
    | with_reducible apply Touches.ite
    | (with_reducible apply Touches.foldl; on_goal 1 => intro _ _ _)
    | ((with_reducible apply Touches.step (State.setReg_touches ..)); · rfl)
    | ((with_reducible apply Touches.step (State.unhold_touches ..)); · rfl)
    | ((with_reducible apply Touches.step (State.hold_touches ..)); · rfl)
    | ((with_reducible apply Touches.upd_lows); · rfl)
    | split
    | exact fun _ => wrap64_lt _
    | exact id
    | dsimp only

theorem execEpochWrite_touches (t : BitVec 64) (hi : Word) (s : State) :
    ∃ t', execEpochWrite t hi s = .next t' ∧ Touches [.now, .regs, .lows, .held] s t' := by
  unfold execEpochWrite
  try dsimp only
  repeat' first
    | refine ⟨_, rfl, ?_⟩
    | with_reducible exact Touches.refl _ _
    | with_reducible assumption
    | ((with_reducible apply Touches.fst); · assumption)
    | ((with_reducible apply Touches.snd); · assumption)
    | with_reducible apply Touches.ite
    | (with_reducible apply Touches.foldl; on_goal 1 => intro _ _ _)
    | ((with_reducible apply State.hubWrite_closed (Touches.closed _ _)); (· rfl); on_goal 1 => intro _ _)
    | ((with_reducible apply Touches.step (State.wrEpochHi_touches ..)); · rfl)
    | split
    | exact fun _ => wrap64_lt _
    | exact id
    | dsimp only

theorem State.syncRefused_touches (s : State) :
    Touches [.flags, .counts, .flagAt, .recent, .ev, .queues, .mem] s (State.syncRefused s) := by
  unfold State.syncRefused
  try dsimp only
  repeat' first
    | with_reducible exact Touches.refl _ _
    | with_reducible assumption
    | ((with_reducible apply Touches.fst); · assumption)
    | ((with_reducible apply Touches.snd); · assumption)
    | with_reducible apply Touches.ite
    | (with_reducible apply Touches.foldl; on_goal 1 => intro _ _ _)
    | ((with_reducible apply Touches.step (State.raise_touches ..)); · rfl)
    | split
    | exact fun _ => wrap64_lt _
    | exact id
    | dsimp only

theorem State.armLoad_touches (s : State) :
    Touches [.flags, .counts, .flagAt, .recent, .ev, .queues, .mem, .sync] s (State.armLoad s) := by
  unfold State.armLoad
  try dsimp only
  repeat' first
    | with_reducible exact Touches.refl _ _
    | with_reducible assumption
    | ((with_reducible apply Touches.fst); · assumption)
    | ((with_reducible apply Touches.snd); · assumption)
    | with_reducible apply Touches.ite
    | (with_reducible apply Touches.foldl; on_goal 1 => intro _ _ _)
    | ((with_reducible apply Touches.step (State.syncRefused_touches ..)); · rfl)
    | ((with_reducible apply Touches.step (State.setSync_touches ..)); · rfl)
    | split
    | exact fun _ => wrap64_lt _
    | exact id
    | dsimp only

theorem State.startSkew_touches (s : State) :
    Touches [.sync] s (State.startSkew s) := by
  unfold State.startSkew
  try dsimp only
  repeat' first
    | with_reducible exact Touches.refl _ _
    | with_reducible assumption
    | ((with_reducible apply Touches.fst); · assumption)
    | ((with_reducible apply Touches.snd); · assumption)
    | with_reducible apply Touches.ite
    | (with_reducible apply Touches.foldl; on_goal 1 => intro _ _ _)
    | ((with_reducible apply Touches.step (State.setSync_touches ..)); · rfl)
    | split
    | exact fun _ => wrap64_lt _
    | exact id
    | dsimp only

theorem State.wrSyncCtl_touches (s : State) (w : Word) :
    Touches [.regs, .held, .flags, .counts, .flagAt, .recent, .ev, .queues, .mode, .cores, .units, .outs, .mem, .sync] s (State.wrSyncCtl s w) := by
  unfold State.wrSyncCtl
  try dsimp only
  repeat' first
    | with_reducible exact Touches.refl _ _
    | with_reducible assumption
    | ((with_reducible apply Touches.fst); · assumption)
    | ((with_reducible apply Touches.snd); · assumption)
    | with_reducible apply Touches.ite
    | (with_reducible apply Touches.foldl; on_goal 1 => intro _ _ _)
    | ((with_reducible apply Touches.step (State.writeFields_touches ..)); · rfl)
    | ((with_reducible apply Touches.step (State.unhold_touches ..)); · rfl)
    | ((with_reducible apply Touches.step (State.selectRef_touches ..)); · rfl)
    | ((with_reducible apply Touches.step (State.setFld_touches ..)); · rfl)
    | ((with_reducible apply Touches.step (State.hold_touches ..)); · rfl)
    | ((with_reducible apply Touches.step (State.startSkew_touches ..)); · rfl)
    | ((with_reducible apply Touches.step (State.setSync_touches ..)); · rfl)
    | ((with_reducible apply Touches.step (State.armLoad_touches ..)); · rfl)
    | split
    | exact fun _ => wrap64_lt _
    | exact id
    | dsimp only

theorem execRefselWrite_touches (t : BitVec 64) (w : Word) (s : State) :
    ∃ t', execRefselWrite t w s = .next t' ∧ Touches [.now, .regs, .held, .flags, .counts, .flagAt, .recent, .ev, .queues, .mode, .cores, .units, .outs, .mem, .sync] s t' := by
  unfold execRefselWrite
  try dsimp only
  repeat' first
    | refine ⟨_, rfl, ?_⟩
    | with_reducible exact Touches.refl _ _
    | with_reducible assumption
    | ((with_reducible apply Touches.fst); · assumption)
    | ((with_reducible apply Touches.snd); · assumption)
    | with_reducible apply Touches.ite
    | (with_reducible apply Touches.foldl; on_goal 1 => intro _ _ _)
    | ((with_reducible apply State.hubWrite_closed (Touches.closed _ _)); (· rfl); on_goal 1 => intro _ _)
    | ((with_reducible apply Touches.step (State.wrSyncCtl_touches ..)); · rfl)
    | split
    | exact fun _ => wrap64_lt _
    | exact id
    | dsimp only

theorem execSyncArm_touches (t : BitVec 64) (w : Word) (s : State) :
    ∃ t', execSyncArm t w s = .next t' ∧ Touches [.now, .regs, .held, .flags, .counts, .flagAt, .recent, .ev, .queues, .mode, .cores, .units, .outs, .mem, .sync] s t' := by
  unfold execSyncArm
  try dsimp only
  repeat' first
    | refine ⟨_, rfl, ?_⟩
    | with_reducible exact Touches.refl _ _
    | with_reducible assumption
    | ((with_reducible apply Touches.fst); · assumption)
    | ((with_reducible apply Touches.snd); · assumption)
    | with_reducible apply Touches.ite
    | (with_reducible apply Touches.foldl; on_goal 1 => intro _ _ _)
    | ((with_reducible apply State.hubWrite_closed (Touches.closed _ _)); (· rfl); on_goal 1 => intro _ _)
    | ((with_reducible apply Touches.step (State.wrSyncCtl_touches ..)); · rfl)
    | split
    | exact fun _ => wrap64_lt _
    | exact id
    | dsimp only

theorem execSyncDisarm_touches (t : BitVec 64) (w : Word) (s : State) :
    ∃ t', execSyncDisarm t w s = .next t' ∧ Touches [.now, .regs, .held, .flags, .counts, .flagAt, .recent, .ev, .queues, .mode, .cores, .units, .outs, .mem, .sync] s t' := by
  unfold execSyncDisarm
  try dsimp only
  repeat' first
    | refine ⟨_, rfl, ?_⟩
    | with_reducible exact Touches.refl _ _
    | with_reducible assumption
    | ((with_reducible apply Touches.fst); · assumption)
    | ((with_reducible apply Touches.snd); · assumption)
    | with_reducible apply Touches.ite
    | (with_reducible apply Touches.foldl; on_goal 1 => intro _ _ _)
    | ((with_reducible apply State.hubWrite_closed (Touches.closed _ _)); (· rfl); on_goal 1 => intro _ _)
    | ((with_reducible apply Touches.step (State.wrSyncCtl_touches ..)); · rfl)
    | split
    | exact fun _ => wrap64_lt _
    | exact id
    | dsimp only

theorem execSkewcal_touches (t : BitVec 64) (w : Word) (s : State) :
    ∃ t', execSkewcal t w s = .next t' ∧ Touches [.now, .regs, .held, .flags, .counts, .flagAt, .recent, .ev, .queues, .mode, .cores, .units, .outs, .mem, .sync] s t' := by
  unfold execSkewcal
  try dsimp only
  repeat' first
    | refine ⟨_, rfl, ?_⟩
    | with_reducible exact Touches.refl _ _
    | with_reducible assumption
    | ((with_reducible apply Touches.fst); · assumption)
    | ((with_reducible apply Touches.snd); · assumption)
    | with_reducible apply Touches.ite
    | (with_reducible apply Touches.foldl; on_goal 1 => intro _ _ _)
    | ((with_reducible apply State.hubWrite_closed (Touches.closed _ _)); (· rfl); on_goal 1 => intro _ _)
    | ((with_reducible apply Touches.step (State.wrSyncCtl_touches ..)); · rfl)
    | split
    | exact fun _ => wrap64_lt _
    | exact id
    | dsimp only

theorem State.stamp_touches (s : State) (bs : List Byte) :
    Touches [.flags, .counts, .flagAt, .recent, .ev, .queues, .mem, .ptp] s (State.stamp s bs) := by
  unfold State.stamp
  try dsimp only
  repeat' first
    | with_reducible exact Touches.refl _ _
    | with_reducible assumption
    | ((with_reducible apply Touches.fst); · assumption)
    | ((with_reducible apply Touches.snd); · assumption)
    | with_reducible apply Touches.ite
    | (with_reducible apply Touches.foldl; on_goal 1 => intro _ _ _)
    | ((with_reducible apply Touches.step (State.bump_touches ..)); · rfl)
    | ((with_reducible apply Touches.step (State.raise_touches ..)); · rfl)
    | ((with_reducible apply Touches.step (State.setPtp_touches ..)); · rfl)
    | ((with_reducible apply Touches.step (State.dropPacket_touches ..)); · rfl)
    | ((with_reducible apply Touches.step (State.pushPacket_touches ..)); · rfl)
    | split
    | exact fun _ => wrap64_lt _
    | exact id
    | dsimp only

theorem State.sendFrameNow_touches (s : State) (f : Frame) (late : Bool) :
    Touches [.flags, .counts, .flagAt, .recent, .ev, .queues, .mem, .ptp, .hif] s (State.sendFrameNow s f late) := by
  unfold State.sendFrameNow
  try dsimp only
  repeat' first
    | with_reducible exact Touches.refl _ _
    | with_reducible assumption
    | ((with_reducible apply Touches.fst); · assumption)
    | ((with_reducible apply Touches.snd); · assumption)
    | with_reducible apply Touches.ite
    | (with_reducible apply Touches.foldl; on_goal 1 => intro _ _ _)
    | ((with_reducible apply Touches.step (State.setPtp_touches ..)); · rfl)
    | ((with_reducible apply Touches.step (State.stamp_touches ..)); · rfl)
    | ((with_reducible apply Touches.step (State.drained_touches ..)); · rfl)
    | ((with_reducible apply Touches.step (State.complete_touches ..)); · rfl)
    | split
    | exact fun _ => wrap64_lt _
    | exact id
    | dsimp only

theorem State.lateFrame_touches (s : State) (f : Frame) :
    Touches [.flags, .counts, .flagAt, .recent, .ev, .queues, .mem, .ptp, .hif] s (State.lateFrame s f) := by
  unfold State.lateFrame
  try dsimp only
  repeat' first
    | with_reducible exact Touches.refl _ _
    | with_reducible assumption
    | ((with_reducible apply Touches.fst); · assumption)
    | ((with_reducible apply Touches.snd); · assumption)
    | with_reducible apply Touches.ite
    | (with_reducible apply Touches.foldl; on_goal 1 => intro _ _ _)
    | ((with_reducible apply Touches.step (State.raise_touches ..)); · rfl)
    | ((with_reducible apply Touches.step (State.drained_touches ..)); · rfl)
    | ((with_reducible apply Touches.step (State.complete_touches ..)); · rfl)
    | ((with_reducible apply Touches.step (State.sendFrameNow_touches ..)); · rfl)
    | split
    | exact fun _ => wrap64_lt _
    | exact id
    | dsimp only

theorem State.unlist_touches (s : State) (f : Frame) :
    Touches [.ptp] s (State.unlist s f) := by
  unfold State.unlist
  try dsimp only
  repeat' first
    | with_reducible exact Touches.refl _ _
    | with_reducible assumption
    | ((with_reducible apply Touches.fst); · assumption)
    | ((with_reducible apply Touches.snd); · assumption)
    | with_reducible apply Touches.ite
    | (with_reducible apply Touches.foldl; on_goal 1 => intro _ _ _)
    | ((with_reducible apply Touches.step (State.setPtp_touches ..)); · rfl)
    | split
    | exact fun _ => wrap64_lt _
    | exact id
    | dsimp only

theorem State.passFrames_touches (s : State) (n : Nat) : Touches [.flags, .counts, .flagAt, .recent, .ev, .queues, .mem, .ptp, .hif] s (s.passFrames n) := by
  induction n generalizing s with
  | zero => exact Touches.refl _ _
  | succ n ih =>
    unfold State.passFrames
    split
    · exact Touches.refl _ _
    · exact Touches.step (ih _) rfl (Touches.step (State.lateFrame_touches ..) rfl
        (Touches.step (State.unlist_touches ..) rfl (Touches.refl _ _)))

theorem State.stepWall_touches (s : State) (b view dom cause : Nat) :
    Touches [.now, .flags, .counts, .flagAt, .recent, .ev, .queues, .mem, .ptp, .hif] s (State.stepWall s b view dom cause) := by
  unfold State.stepWall
  try dsimp only
  repeat' first
    | with_reducible exact Touches.refl _ _
    | with_reducible assumption
    | ((with_reducible apply Touches.fst); · assumption)
    | ((with_reducible apply Touches.snd); · assumption)
    | with_reducible apply Touches.ite
    | (with_reducible apply Touches.foldl; on_goal 1 => intro _ _ _)
    | ((with_reducible apply Touches.step (State.clockTo_touches ..)); · rfl)
    | ((with_reducible apply Touches.step (State.setPtp_touches ..)); · rfl)
    | ((with_reducible apply Touches.step (State.raise_touches ..)); · rfl)
    | ((with_reducible apply Touches.step (State.passFrames_touches ..)); · rfl)
    | split
    | exact fun _ => wrap64_lt _
    | exact id
    | dsimp only

theorem State.launch_touches (s : State) (t : Nat) (portB : Bool) :
    Touches [.now, .flags, .counts, .flagAt, .recent, .ev, .queues, .mem, .ptp, .hif] s (State.launch s t portB) := by
  unfold State.launch
  try dsimp only
  repeat' first
    | with_reducible exact Touches.refl _ _
    | with_reducible assumption
    | ((with_reducible apply Touches.fst); · assumption)
    | ((with_reducible apply Touches.snd); · assumption)
    | with_reducible apply Touches.ite
    | (with_reducible apply Touches.foldl; on_goal 1 => intro _ _ _)
    | ((with_reducible apply Touches.step (State.sendFrameNow_touches ..)); · rfl)
    | ((with_reducible apply Touches.step (State.unlist_touches ..)); · rfl)
    | ((with_reducible apply Touches.step (State.clockTo_touches ..)); · rfl)
    | split
    | exact fun _ => wrap64_lt _
    | exact id
    | dsimp only

theorem execFrameLaunch_touches (t : BitVec 64) (portB : Bool) (s : State) :
    ∃ t', execFrameLaunch t portB s = .next t' ∧ Touches [.now, .flags, .counts, .flagAt, .recent, .ev, .queues, .mem, .ptp, .hif] s t' := by
  unfold execFrameLaunch
  try dsimp only
  repeat' first
    | refine ⟨_, rfl, ?_⟩
    | with_reducible exact Touches.refl _ _
    | with_reducible assumption
    | ((with_reducible apply Touches.fst); · assumption)
    | ((with_reducible apply Touches.snd); · assumption)
    | with_reducible apply Touches.ite
    | (with_reducible apply Touches.foldl; on_goal 1 => intro _ _ _)
    | ((with_reducible apply Touches.step (State.launch_touches ..)); · rfl)
    | split
    | exact fun _ => wrap64_lt _
    | exact id
    | dsimp only

theorem State.toPortB_touches (s : State) (args : List Word) :
    Touches [.flags, .counts, .flagAt, .recent, .ev, .queues, .mem, .ptp] s (State.toPortB s args) := by
  unfold State.toPortB
  try dsimp only
  repeat' first
    | with_reducible exact Touches.refl _ _
    | with_reducible assumption
    | ((with_reducible apply Touches.fst); · assumption)
    | ((with_reducible apply Touches.snd); · assumption)
    | with_reducible apply Touches.ite
    | (with_reducible apply Touches.foldl; on_goal 1 => intro _ _ _)
    | ((with_reducible apply Touches.step (State.raise_touches ..)); · rfl)
    | ((with_reducible apply Touches.step (State.setPtp_touches ..)); · rfl)
    | split
    | exact fun _ => wrap64_lt _
    | exact id
    | dsimp only

theorem State.toPortA_touches (s : State) :
    Touches [.flags, .counts, .flagAt, .recent, .ev, .queues, .mem, .ptp] s (State.toPortA s) := by
  unfold State.toPortA
  try dsimp only
  repeat' first
    | with_reducible exact Touches.refl _ _
    | with_reducible assumption
    | ((with_reducible apply Touches.fst); · assumption)
    | ((with_reducible apply Touches.snd); · assumption)
    | with_reducible apply Touches.ite
    | (with_reducible apply Touches.foldl; on_goal 1 => intro _ _ _)
    | ((with_reducible apply Touches.step (State.raise_touches ..)); · rfl)
    | ((with_reducible apply Touches.step (State.setPtp_touches ..)); · rfl)
    | split
    | exact fun _ => wrap64_lt _
    | exact id
    | dsimp only

theorem State.askPort_touches (s : State) (b : Bool) :
    Touches [.flags, .counts, .flagAt, .recent, .ev, .queues, .mem, .ptp] s (State.askPort s b) := by
  unfold State.askPort
  try dsimp only
  repeat' first
    | with_reducible exact Touches.refl _ _
    | with_reducible assumption
    | ((with_reducible apply Touches.fst); · assumption)
    | ((with_reducible apply Touches.snd); · assumption)
    | with_reducible apply Touches.ite
    | (with_reducible apply Touches.foldl; on_goal 1 => intro _ _ _)
    | ((with_reducible apply Touches.step (State.setPtp_touches ..)); · rfl)
    | ((with_reducible apply Touches.step (State.toPortB_touches ..)); · rfl)
    | ((with_reducible apply Touches.step (State.toPortA_touches ..)); · rfl)
    | split
    | exact fun _ => wrap64_lt _
    | exact id
    | dsimp only

theorem State.wrPtpCtl_touches (s : State) (w : Word) :
    Touches [.now, .regs, .flags, .counts, .flagAt, .recent, .ev, .queues, .mem, .ptp, .hif] s (State.wrPtpCtl s w) := by
  unfold State.wrPtpCtl
  try dsimp only
  repeat' first
    | with_reducible exact Touches.refl _ _
    | with_reducible assumption
    | ((with_reducible apply Touches.fst); · assumption)
    | ((with_reducible apply Touches.snd); · assumption)
    | with_reducible apply Touches.ite
    | (with_reducible apply Touches.foldl; on_goal 1 => intro _ _ _)
    | ((with_reducible apply Touches.step (State.writeFields_touches ..)); · rfl)
    | ((with_reducible apply Touches.step (State.askPort_touches ..)); · rfl)
    | ((with_reducible apply Touches.step (State.stepWall_touches ..)); · rfl)
    | ((with_reducible apply Touches.step (State.setPtp_touches ..)); · rfl)
    | ((with_reducible apply Touches.step (State.passFrames_touches ..)); · rfl)
    | ((with_reducible apply Touches.step (State.clockTo_touches ..)); · rfl)
    | split
    | exact fun _ => wrap64_lt _
    | exact id
    | dsimp only

theorem execWallset_touches (t : BitVec 64) (w : Word) (s : State) :
    ∃ t', execWallset t w s = .next t' ∧ Touches [.now, .regs, .flags, .counts, .flagAt, .recent, .ev, .queues, .mem, .ptp, .hif] s t' := by
  unfold execWallset
  try dsimp only
  repeat' first
    | refine ⟨_, rfl, ?_⟩
    | with_reducible exact Touches.refl _ _
    | with_reducible assumption
    | ((with_reducible apply Touches.fst); · assumption)
    | ((with_reducible apply Touches.snd); · assumption)
    | with_reducible apply Touches.ite
    | (with_reducible apply Touches.foldl; on_goal 1 => intro _ _ _)
    | ((with_reducible apply State.hubWrite_closed (Touches.closed _ _)); (· rfl); on_goal 1 => intro _ _)
    | ((with_reducible apply Touches.step (State.wrPtpCtl_touches ..)); · rfl)
    | split
    | exact fun _ => wrap64_lt _
    | exact id
    | dsimp only

theorem execSnap_touches (t : BitVec 64) (w : Word) (s : State) :
    ∃ t', execSnap t w s = .next t' ∧ Touches [.now, .regs, .flags, .counts, .flagAt, .recent, .ev, .queues, .mem, .ptp, .hif] s t' := by
  unfold execSnap
  try dsimp only
  repeat' first
    | refine ⟨_, rfl, ?_⟩
    | with_reducible exact Touches.refl _ _
    | with_reducible assumption
    | ((with_reducible apply Touches.fst); · assumption)
    | ((with_reducible apply Touches.snd); · assumption)
    | with_reducible apply Touches.ite
    | (with_reducible apply Touches.foldl; on_goal 1 => intro _ _ _)
    | ((with_reducible apply State.hubWrite_closed (Touches.closed _ _)); (· rfl); on_goal 1 => intro _ _)
    | ((with_reducible apply Touches.step (State.wrPtpCtl_touches ..)); · rfl)
    | split
    | exact fun _ => wrap64_lt _
    | exact id
    | dsimp only

theorem execEthSplice_touches (t : BitVec 64) (w : Word) (s : State) :
    ∃ t', execEthSplice t w s = .next t' ∧ Touches [.now, .regs, .flags, .counts, .flagAt, .recent, .ev, .queues, .mem, .ptp, .hif] s t' := by
  unfold execEthSplice
  try dsimp only
  repeat' first
    | refine ⟨_, rfl, ?_⟩
    | with_reducible exact Touches.refl _ _
    | with_reducible assumption
    | ((with_reducible apply Touches.fst); · assumption)
    | ((with_reducible apply Touches.snd); · assumption)
    | with_reducible apply Touches.ite
    | (with_reducible apply Touches.foldl; on_goal 1 => intro _ _ _)
    | ((with_reducible apply State.hubWrite_closed (Touches.closed _ _)); (· rfl); on_goal 1 => intro _ _)
    | ((with_reducible apply Touches.step (State.wrPtpCtl_touches ..)); · rfl)
    | split
    | exact fun _ => wrap64_lt _
    | exact id
    | dsimp only

theorem execEthRevertWrite_touches (t : BitVec 64) (w : Word) (s : State) :
    ∃ t', execEthRevertWrite t w s = .next t' ∧ Touches [.now, .regs, .flags, .counts, .flagAt, .recent, .ev, .queues, .mem, .ptp, .hif] s t' := by
  unfold execEthRevertWrite
  try dsimp only
  repeat' first
    | refine ⟨_, rfl, ?_⟩
    | with_reducible exact Touches.refl _ _
    | with_reducible assumption
    | ((with_reducible apply Touches.fst); · assumption)
    | ((with_reducible apply Touches.snd); · assumption)
    | with_reducible apply Touches.ite
    | (with_reducible apply Touches.foldl; on_goal 1 => intro _ _ _)
    | ((with_reducible apply State.hubWrite_closed (Touches.closed _ _)); (· rfl); on_goal 1 => intro _ _)
    | ((with_reducible apply Touches.step (State.wrPtpCtl_touches ..)); · rfl)
    | split
    | exact fun _ => wrap64_lt _
    | exact id
    | dsimp only

theorem execEthPortLoss_touches (t : BitVec 64) (s : State) :
    ∃ t', execEthPortLoss t s = .next t' ∧ Touches [.now, .flags, .counts, .flagAt, .recent, .ev, .queues, .mem, .ptp] s t' := by
  unfold execEthPortLoss
  try dsimp only
  repeat' first
    | refine ⟨_, rfl, ?_⟩
    | with_reducible exact Touches.refl _ _
    | with_reducible assumption
    | ((with_reducible apply Touches.fst); · assumption)
    | ((with_reducible apply Touches.snd); · assumption)
    | with_reducible apply Touches.ite
    | (with_reducible apply Touches.foldl; on_goal 1 => intro _ _ _)
    | ((with_reducible apply Touches.step (State.at_touches ..)); · rfl)
    | ((with_reducible apply Touches.step (State.setPtp_touches ..)); · rfl)
    | ((with_reducible apply Touches.step (State.toPortB_touches ..)); · rfl)
    | split
    | exact fun _ => wrap64_lt _
    | exact id
    | dsimp only

theorem execEthPortUp_touches (t : BitVec 64) (portB : Bool) (s : State) :
    ∃ t', execEthPortUp t portB s = .next t' ∧ Touches [.now, .flags, .counts, .flagAt, .recent, .ev, .queues, .mem, .ptp] s t' := by
  unfold execEthPortUp
  try dsimp only
  repeat' first
    | refine ⟨_, rfl, ?_⟩
    | with_reducible exact Touches.refl _ _
    | with_reducible assumption
    | ((with_reducible apply Touches.fst); · assumption)
    | ((with_reducible apply Touches.snd); · assumption)
    | with_reducible apply Touches.ite
    | (with_reducible apply Touches.foldl; on_goal 1 => intro _ _ _)
    | ((with_reducible apply Touches.step (State.at_touches ..)); · rfl)
    | ((with_reducible apply Touches.step (State.setPtp_touches ..)); · rfl)
    | ((with_reducible apply Touches.step (State.toPortB_touches ..)); · rfl)
    | split
    | exact fun _ => wrap64_lt _
    | exact id
    | dsimp only

theorem execEthRevert_touches (t : BitVec 64) (s : State) :
    ∃ t', execEthRevert t s = .next t' ∧ Touches [.now, .flags, .counts, .flagAt, .recent, .ev, .queues, .mem, .ptp] s t' := by
  unfold execEthRevert
  try dsimp only
  repeat' first
    | refine ⟨_, rfl, ?_⟩
    | with_reducible exact Touches.refl _ _
    | with_reducible assumption
    | ((with_reducible apply Touches.fst); · assumption)
    | ((with_reducible apply Touches.snd); · assumption)
    | with_reducible apply Touches.ite
    | (with_reducible apply Touches.foldl; on_goal 1 => intro _ _ _)
    | ((with_reducible apply Touches.step (State.at_touches ..)); · rfl)
    | ((with_reducible apply Touches.step (State.toPortA_touches ..)); · rfl)
    | split
    | exact fun _ => wrap64_lt _
    | exact id
    | dsimp only

theorem State.unlockEvent_touches (s : State) (was : Bool) (k : Nat) :
    Touches [.flags, .counts, .flagAt, .recent, .ev, .queues, .mem] s (State.unlockEvent s was k) := by
  unfold State.unlockEvent
  try dsimp only
  repeat' first
    | with_reducible exact Touches.refl _ _
    | with_reducible assumption
    | ((with_reducible apply Touches.fst); · assumption)
    | ((with_reducible apply Touches.snd); · assumption)
    | with_reducible apply Touches.ite
    | (with_reducible apply Touches.foldl; on_goal 1 => intro _ _ _)
    | ((with_reducible apply Touches.step (State.raise_touches ..)); · rfl)
    | split
    | exact fun _ => wrap64_lt _
    | exact id
    | dsimp only

theorem State.selectDom_touches (s : State) (k : Nat) :
    Touches [.flags, .counts, .flagAt, .recent, .ev, .queues, .mem, .ptp] s (State.selectDom s k) := by
  unfold State.selectDom
  try dsimp only
  repeat' first
    | with_reducible exact Touches.refl _ _
    | with_reducible assumption
    | ((with_reducible apply Touches.fst); · assumption)
    | ((with_reducible apply Touches.snd); · assumption)
    | with_reducible apply Touches.ite
    | (with_reducible apply Touches.foldl; on_goal 1 => intro _ _ _)
    | ((with_reducible apply Touches.step (State.raise_touches ..)); · rfl)
    | ((with_reducible apply Touches.step (State.setPtp_touches ..)); · rfl)
    | split
    | exact fun _ => wrap64_lt _
    | exact id
    | dsimp only

theorem State.reselect_touches (s : State) :
    Touches [.flags, .counts, .flagAt, .recent, .ev, .queues, .mem, .ptp] s (State.reselect s) := by
  unfold State.reselect
  try dsimp only
  repeat' first
    | with_reducible exact Touches.refl _ _
    | with_reducible assumption
    | ((with_reducible apply Touches.fst); · assumption)
    | ((with_reducible apply Touches.snd); · assumption)
    | with_reducible apply Touches.ite
    | (with_reducible apply Touches.foldl; on_goal 1 => intro _ _ _)
    | ((with_reducible apply Touches.step (State.selectDom_touches ..)); · rfl)
    | ((with_reducible apply Touches.step (State.setPtp_touches ..)); · rfl)
    | split
    | exact fun _ => wrap64_lt _
    | exact id
    | dsimp only

theorem State.servo_touches (s : State) (theta : Int) :
    Touches [.now, .ptp] s (State.servo s theta) := by
  unfold State.servo
  try dsimp only
  repeat' first
    | with_reducible exact Touches.refl _ _
    | with_reducible assumption
    | ((with_reducible apply Touches.fst); · assumption)
    | ((with_reducible apply Touches.snd); · assumption)
    | with_reducible apply Touches.ite
    | (with_reducible apply Touches.foldl; on_goal 1 => intro _ _ _)
    | ((with_reducible apply Touches.step (State.clockTo_touches ..)); · rfl)
    | ((with_reducible apply Touches.step (State.setPtp_touches ..)); · rfl)
    | split
    | exact fun _ => wrap64_lt _
    | exact id
    | dsimp only

theorem State.bigSample_touches (s : State) (k : Nat) (theta : Int) :
    Touches [.now, .flags, .counts, .flagAt, .recent, .ev, .queues, .mem, .ptp, .hif] s (State.bigSample s k theta) := by
  unfold State.bigSample
  try dsimp only
  repeat' first
    | with_reducible exact Touches.refl _ _
    | with_reducible assumption
    | ((with_reducible apply Touches.fst); · assumption)
    | ((with_reducible apply Touches.snd); · assumption)
    | with_reducible apply Touches.ite
    | (with_reducible apply Touches.foldl; on_goal 1 => intro _ _ _)
    | ((with_reducible apply Touches.step (State.setPtp_touches ..)); · rfl)
    | ((with_reducible apply Touches.step (State.stepWall_touches ..)); · rfl)
    | split
    | exact fun _ => wrap64_lt _
    | exact id
    | dsimp only

theorem State.ptpSample_touches (s : State) (k : Nat) (theta : Int) :
    Touches [.now, .flags, .counts, .flagAt, .recent, .ev, .queues, .mem, .ptp, .hif] s (State.ptpSample s k theta) := by
  unfold State.ptpSample
  try dsimp only
  repeat' first
    | with_reducible exact Touches.refl _ _
    | with_reducible assumption
    | ((with_reducible apply Touches.fst); · assumption)
    | ((with_reducible apply Touches.snd); · assumption)
    | with_reducible apply Touches.ite
    | (with_reducible apply Touches.foldl; on_goal 1 => intro _ _ _)
    | ((with_reducible apply Touches.step (State.unlockEvent_touches ..)); · rfl)
    | ((with_reducible apply Touches.step (State.setPtp_touches ..)); · rfl)
    | ((with_reducible apply Touches.step (State.reselect_touches ..)); · rfl)
    | ((with_reducible apply Touches.step (State.bigSample_touches ..)); · rfl)
    | ((with_reducible apply Touches.step (State.servo_touches ..)); · rfl)
    | split
    | exact fun _ => wrap64_lt _
    | exact id
    | dsimp only

theorem execPtpEventMessage_touches (t : BitVec 64) (k : Fin 2) (theta : Int) (s : State) :
    ∃ t', execPtpEventMessage t k theta s = .next t' ∧ Touches [.now, .flags, .counts, .flagAt, .recent, .ev, .queues, .mem, .ptp, .hif] s t' := by
  unfold execPtpEventMessage
  try dsimp only
  repeat' first
    | refine ⟨_, rfl, ?_⟩
    | with_reducible exact Touches.refl _ _
    | with_reducible assumption
    | ((with_reducible apply Touches.fst); · assumption)
    | ((with_reducible apply Touches.snd); · assumption)
    | with_reducible apply Touches.ite
    | (with_reducible apply Touches.foldl; on_goal 1 => intro _ _ _)
    | ((with_reducible apply Touches.step (State.ptpSample_touches ..)); · rfl)
    | ((with_reducible apply Touches.step (State.at_touches ..)); · rfl)
    | split
    | exact fun _ => wrap64_lt _
    | exact id
    | dsimp only

theorem execAnnounceTimeout_touches (t : BitVec 64) (k : Fin 2) (s : State) :
    ∃ t', execAnnounceTimeout t k s = .next t' ∧ Touches [.now, .flags, .counts, .flagAt, .recent, .ev, .queues, .mem, .ptp] s t' := by
  unfold execAnnounceTimeout
  try dsimp only
  repeat' first
    | refine ⟨_, rfl, ?_⟩
    | with_reducible exact Touches.refl _ _
    | with_reducible assumption
    | ((with_reducible apply Touches.fst); · assumption)
    | ((with_reducible apply Touches.snd); · assumption)
    | with_reducible apply Touches.ite
    | (with_reducible apply Touches.foldl; on_goal 1 => intro _ _ _)
    | ((with_reducible apply Touches.step (State.at_touches ..)); · rfl)
    | ((with_reducible apply Touches.step (State.unlockEvent_touches ..)); · rfl)
    | ((with_reducible apply Touches.step (State.setPtp_touches ..)); · rfl)
    | ((with_reducible apply Touches.step (State.reselect_touches ..)); · rfl)
    | split
    | exact fun _ => wrap64_lt _
    | exact id
    | dsimp only

theorem execPtpDomainReturn_touches (t : BitVec 64) (s : State) :
    ∃ t', execPtpDomainReturn t s = .next t' ∧ Touches [.now, .flags, .counts, .flagAt, .recent, .ev, .queues, .mem, .ptp] s t' := by
  unfold execPtpDomainReturn
  try dsimp only
  repeat' first
    | refine ⟨_, rfl, ?_⟩
    | with_reducible exact Touches.refl _ _
    | with_reducible assumption
    | ((with_reducible apply Touches.fst); · assumption)
    | ((with_reducible apply Touches.snd); · assumption)
    | with_reducible apply Touches.ite
    | (with_reducible apply Touches.foldl; on_goal 1 => intro _ _ _)
    | ((with_reducible apply Touches.step (State.at_touches ..)); · rfl)
    | ((with_reducible apply Touches.step (State.selectDom_touches ..)); · rfl)
    | split
    | exact fun _ => wrap64_lt _
    | exact id
    | dsimp only

theorem State.shiftTimers_touches (s : State) (j : Nat) :
    Touches [.mode, .plies, .strands, .outs, .inps, .hch, .convs, .thm, .mc, .mem, .sync, .ptp, .hif] s (State.shiftTimers s j) := by
  unfold State.shiftTimers
  try dsimp only
  repeat' first
    | with_reducible exact Touches.refl _ _
    | with_reducible assumption
    | ((with_reducible apply Touches.fst); · assumption)
    | ((with_reducible apply Touches.snd); · assumption)
    | with_reducible apply Touches.ite
    | (with_reducible apply Touches.foldl; on_goal 1 => intro _ _ _)
    | ((with_reducible apply Touches.upd_many0); · rfl)
    | split
    | exact fun _ => wrap64_lt _
    | exact id
    | dsimp only

theorem State.load_touches (s : State) (v : Nat) (i : Int) :
    Touches [.now, .regs, .flags, .counts, .flagAt, .recent, .ev, .queues, .mode, .plies, .strands, .outs, .inps, .hch, .convs, .thm, .mc, .mem, .sync, .ptp, .hif] s (State.load s v i) := by
  unfold State.load
  try dsimp only
  repeat' first
    | with_reducible exact Touches.refl _ _
    | with_reducible assumption
    | ((with_reducible apply Touches.fst); · assumption)
    | ((with_reducible apply Touches.snd); · assumption)
    | with_reducible apply Touches.ite
    | (with_reducible apply Touches.foldl; on_goal 1 => intro _ _ _)
    | ((with_reducible apply Touches.step (State.syncRefused_touches ..)); · rfl)
    | ((with_reducible apply Touches.step (State.setSync_touches ..)); · rfl)
    | ((with_reducible apply Touches.step (State.setPtp_touches ..)); · rfl)
    | ((with_reducible apply Touches.step (State.shiftTimers_touches ..)); · rfl)
    | ((with_reducible apply Touches.step (State.clockTo_touches ..)); · rfl)
    | ((with_reducible apply Touches.step (State.setEpoch_touches ..)); · rfl)
    | ((with_reducible apply Touches.step (State.raise_touches ..)); · rfl)
    | split
    | exact fun _ => wrap64_lt _
    | exact id
    | dsimp only

theorem State.syncPulse_touches (s : State) (a : Nat) :
    Touches [.now, .regs, .flags, .counts, .flagAt, .recent, .ev, .queues, .mode, .plies, .strands, .outs, .inps, .hch, .convs, .thm, .mc, .mem, .sync, .ptp, .hif] s (State.syncPulse s a) := by
  unfold State.syncPulse
  try dsimp only
  repeat' first
    | with_reducible exact Touches.refl _ _
    | with_reducible assumption
    | ((with_reducible apply Touches.fst); · assumption)
    | ((with_reducible apply Touches.snd); · assumption)
    | with_reducible apply Touches.ite
    | (with_reducible apply Touches.foldl; on_goal 1 => intro _ _ _)
    | ((with_reducible apply Touches.step (State.load_touches ..)); · rfl)
    | ((with_reducible apply Touches.step (State.setSync_touches ..)); · rfl)
    | ((with_reducible apply Touches.step (State.raise_touches ..)); · rfl)
    | split
    | exact fun _ => wrap64_lt _
    | exact id
    | dsimp only

theorem execSyncPulse_based (a64 : Nat) (s : State) :
    ∃ t', execSyncPulse a64 s = .next t' ∧ Based [.now, .regs, .flags, .counts, .flagAt, .recent, .ev, .queues, .mode, .plies, .strands, .outs, .inps, .hch, .convs, .thm, .mc, .mem, .sync, .ptp, .hif] s t' := by
  unfold execSyncPulse
  try dsimp only
  repeat' first
    | refine ⟨_, rfl, ?_⟩
    | with_reducible exact Based.refl _ _
    | with_reducible assumption
    | with_reducible exact Settled.refl
    | ((with_reducible apply Based.fst); · assumption)
    | ((with_reducible apply Based.snd); · assumption)
    | with_reducible apply Based.ite
    | (with_reducible apply Based.foldl; on_goal 1 => intro _ _ _)
    | ((with_reducible apply Based.step (State.syncPulse_touches ..)); · rfl)
    | ((with_reducible apply State.toTime_based); · rfl)
    | split
    | exact fun _ => wrap64_lt _
    | exact id
    | dsimp only

theorem execChainLaunch_based (t : BitVec 64) (s : State) :
    ∃ t', execChainLaunch t s = .next t' ∧ Based [.now, .regs, .flags, .counts, .flagAt, .recent, .ev, .queues, .mode, .plies, .strands, .outs, .inps, .hch, .convs, .thm, .mc, .mem, .sync, .ptp, .hif] s t' := by
  unfold execChainLaunch
  try dsimp only
  repeat' first
    | refine ⟨_, rfl, ?_⟩
    | with_reducible exact Based.refl _ _
    | with_reducible assumption
    | with_reducible exact Settled.refl
    | ((with_reducible apply Based.fst); · assumption)
    | ((with_reducible apply Based.snd); · assumption)
    | with_reducible apply Based.ite
    | (with_reducible apply Based.foldl; on_goal 1 => intro _ _ _)
    | ((with_reducible apply State.upTo_based); · rfl)
    | ((with_reducible apply Based.step (State.setSync_touches ..)); · rfl)
    | ((with_reducible apply Based.step (State.load_touches ..)); · rfl)
    | split
    | exact fun _ => wrap64_lt _
    | exact id
    | dsimp only

theorem execChainPulseSend_touches (s : State) :
    ∃ t', execChainPulseSend s = .next t' ∧ Touches [.now, .sync] s t' := by
  unfold execChainPulseSend
  try dsimp only
  repeat' first
    | refine ⟨_, rfl, ?_⟩
    | with_reducible exact Touches.refl _ _
    | with_reducible assumption
    | ((with_reducible apply Touches.fst); · assumption)
    | ((with_reducible apply Touches.snd); · assumption)
    | with_reducible apply Touches.ite
    | (with_reducible apply Touches.foldl; on_goal 1 => intro _ _ _)
    | ((with_reducible apply Touches.step (State.clockTo_touches ..)); · rfl)
    | ((with_reducible apply Touches.step (State.setSync_touches ..)); · rfl)
    | split
    | exact fun _ => wrap64_lt _
    | exact id
    | dsimp only

theorem execSkewcalDone_touches (t : BitVec 64) (returns : List Nat) (s : State) :
    ∃ t', execSkewcalDone t returns s = .next t' ∧ Touches [.now, .flags, .counts, .flagAt, .recent, .ev, .queues, .mem, .sync] s t' := by
  unfold execSkewcalDone
  try dsimp only
  repeat' first
    | refine ⟨_, rfl, ?_⟩
    | with_reducible exact Touches.refl _ _
    | with_reducible assumption
    | ((with_reducible apply Touches.fst); · assumption)
    | ((with_reducible apply Touches.snd); · assumption)
    | with_reducible apply Touches.ite
    | (with_reducible apply Touches.foldl; on_goal 1 => intro _ _ _)
    | ((with_reducible apply Touches.step (State.at_touches ..)); · rfl)
    | ((with_reducible apply Touches.step (State.clockTo_touches ..)); · rfl)
    | ((with_reducible apply Touches.step (State.raise_touches ..)); · rfl)
    | ((with_reducible apply Touches.step (State.setSync_touches ..)); · rfl)
    | split
    | exact fun _ => wrap64_lt _
    | exact id
    | dsimp only

theorem State.applyHeldSync_touches (s : State) :
    Touches [.regs, .held, .flags, .counts, .flagAt, .recent, .ev, .queues, .mode, .cores, .units, .outs, .mem, .sync] s (State.applyHeldSync s) := by
  unfold State.applyHeldSync
  try dsimp only
  repeat' first
    | with_reducible exact Touches.refl _ _
    | with_reducible assumption
    | ((with_reducible apply Touches.fst); · assumption)
    | ((with_reducible apply Touches.snd); · assumption)
    | with_reducible apply Touches.ite
    | (with_reducible apply Touches.foldl; on_goal 1 => intro _ _ _)
    | ((with_reducible apply Touches.step (State.selectRef_touches ..)); · rfl)
    | ((with_reducible apply Touches.step (State.setFld_touches ..)); · rfl)
    | ((with_reducible apply Touches.step (State.unhold_touches ..)); · rfl)
    | ((with_reducible apply Touches.step (State.setReg_touches ..)); · rfl)
    | split
    | exact fun _ => wrap64_lt _
    | exact id
    | dsimp only

end Sys2Proof.Machine
end

