-- ==== Sys2Proof/Laws/TouchPower.lean ====
section
/-! SUPPORT. The parts of the state that each operation of Machine/Power.lean can change. -/

namespace Sys2Proof.Machine

open Sys2Proof

theorem State.setThm_touches (s : State) (x : Therm) :
    Touches [.thm] s (State.setThm s x) := by
  unfold State.setThm
  try dsimp only
  repeat' first
    | with_reducible exact Touches.refl _ _
    | with_reducible assumption
    | ((with_reducible apply Touches.fst); · assumption)
    | ((with_reducible apply Touches.snd); · assumption)
    | with_reducible apply Touches.ite
    | (with_reducible apply Touches.foldl; on_goal 1 => intro _ _ _)
    | ((with_reducible apply Touches.upd_thm); · rfl)
    | split
    | exact fun _ => wrap64_lt _
    | exact id
    | dsimp only

theorem State.setPwr_touches (s : State) (x : Power) :
    Touches [.pwr] s (State.setPwr s x) := by
  unfold State.setPwr
  try dsimp only
  repeat' first
    | with_reducible exact Touches.refl _ _
    | with_reducible assumption
    | ((with_reducible apply Touches.fst); · assumption)
    | ((with_reducible apply Touches.snd); · assumption)
    | with_reducible apply Touches.ite
    | (with_reducible apply Touches.foldl; on_goal 1 => intro _ _ _)
    | ((with_reducible apply Touches.upd_pwr); · rfl)
    | split
    | exact fun _ => wrap64_lt _
    | exact id
    | dsimp only

theorem State.powerDown_touches (s : State) :
    Touches [.now, .supply, .regs, .latch, .lows, .held, .frameW, .frameLog, .flags, .counts, .flagAt, .recent, .ev, .queues, .mode, .plies, .strands, .cores, .units, .outs, .inps, .rtones, .dec, .hch, .badWords, .convs, .engines, .thm, .pwr, .mc, .mem, .sync, .ptp, .hif, .mon, .tio, .hbm, .seqSram, .ucode, .envSram, .kernel, .envTab] s (State.powerDown s) := by
  exact ⟨fun p hp => by cases p <;> first | rfl | exact absurd hp (by decide), fun _ => (by decide : (0 : Nat) < 2 ^ 64)⟩

theorem State.shedMain_touches (s : State) :
    Touches [.now, .supply, .regs, .latch, .lows, .held, .frameW, .frameLog, .flags, .counts, .flagAt, .recent, .ev, .queues, .mode, .plies, .strands, .cores, .units, .outs, .inps, .rtones, .dec, .hch, .badWords, .convs, .engines, .thm, .pwr, .mc, .mem, .sync, .ptp, .hif, .mon, .tio, .hbm, .seqSram, .ucode, .envSram, .kernel, .envTab] s (State.shedMain s) := by
  exact ⟨fun p hp => by cases p <;> first | rfl | exact absurd hp (by decide), by exact id⟩

theorem State.pwrFail_touches (s : State) :
    Touches [.now, .supply, .regs, .latch, .lows, .held, .frameW, .frameLog, .flags, .counts, .flagAt, .recent, .ev, .queues, .mode, .plies, .strands, .cores, .units, .outs, .inps, .rtones, .dec, .hch, .badWords, .convs, .engines, .thm, .pwr, .mc, .mem, .sync, .ptp, .hif, .mon, .tio, .hbm, .seqSram, .ucode, .envSram, .kernel, .envTab] s (State.pwrFail s) := by
  unfold State.pwrFail
  try dsimp only
  repeat' first
    | with_reducible exact Touches.refl _ _
    | with_reducible assumption
    | ((with_reducible apply Touches.fst); · assumption)
    | ((with_reducible apply Touches.snd); · assumption)
    | with_reducible apply Touches.ite
    | (with_reducible apply Touches.foldl; on_goal 1 => intro _ _ _)
    | ((with_reducible apply Touches.step (State.tripJournal_touches ..)); · rfl)
    | ((with_reducible apply Touches.step (State.trip_touches ..)); · rfl)
    | ((with_reducible apply Touches.step (State.shedMain_touches ..)); · rfl)
    | ((with_reducible apply Touches.upd_mode); · rfl)
    | split
    | exact fun _ => wrap64_lt _
    | exact id
    | dsimp only

theorem execPwrFail_based (t : BitVec 64) (s : State) :
    ∃ t', execPwrFail t s = .next t' ∧ Based [.now, .supply, .regs, .latch, .lows, .held, .frameW, .frameLog, .flags, .counts, .flagAt, .recent, .ev, .queues, .mode, .plies, .strands, .cores, .units, .outs, .inps, .rtones, .dec, .hch, .badWords, .convs, .engines, .thm, .pwr, .mc, .mem, .sync, .ptp, .hif, .mon, .tio, .hbm, .seqSram, .ucode, .envSram, .kernel, .envTab] s t' := by
  unfold execPwrFail
  try dsimp only
  repeat' first
    | refine ⟨_, rfl, ?_⟩
    | with_reducible exact Based.refl _ _
    | with_reducible assumption
    | with_reducible exact Settled.refl
    | ((with_reducible apply Based.fst); · assumption)
    | ((with_reducible apply Based.snd); · assumption)
    | with_reducible apply Based.ite
    | (with_reducible apply Based.foldl; on_goal 1 => intro _ _ _)
    | ((with_reducible apply Based.step (State.pwrFail_touches ..)); · rfl)
    | ((with_reducible apply State.upTo_based); · rfl)
    | split
    | exact fun _ => wrap64_lt _
    | exact id
    | dsimp only

theorem State.mainsRestored_touches (s : State) :
    Touches [.now, .supply, .regs, .latch, .lows, .held, .frameW, .frameLog, .flags, .counts, .flagAt, .recent, .ev, .queues, .mode, .plies, .strands, .cores, .units, .outs, .inps, .rtones, .dec, .hch, .badWords, .convs, .engines, .thm, .pwr, .mc, .mem, .sync, .ptp, .hif, .mon, .tio, .hbm, .seqSram, .ucode, .envSram, .kernel, .envTab] s (State.mainsRestored s) := by
  unfold State.mainsRestored
  try dsimp only
  repeat' first
    | with_reducible exact Touches.refl _ _
    | with_reducible assumption
    | ((with_reducible apply Touches.fst); · assumption)
    | ((with_reducible apply Touches.snd); · assumption)
    | with_reducible apply Touches.ite
    | (with_reducible apply Touches.foldl; on_goal 1 => intro _ _ _)
    | ((with_reducible apply Touches.step (State.powerDown_touches ..)); · rfl)
    | split
    | exact fun _ => wrap64_lt _
    | exact id
    | dsimp only

theorem execMainsRestored_touches (t : BitVec 64) (s : State) :
    ∃ t', execMainsRestored t s = .next t' ∧ Touches [.now, .supply, .regs, .latch, .lows, .held, .frameW, .frameLog, .flags, .counts, .flagAt, .recent, .ev, .queues, .mode, .plies, .strands, .cores, .units, .outs, .inps, .rtones, .dec, .hch, .badWords, .convs, .engines, .thm, .pwr, .mc, .mem, .sync, .ptp, .hif, .mon, .tio, .hbm, .seqSram, .ucode, .envSram, .kernel, .envTab] s t' := by
  unfold execMainsRestored
  try dsimp only
  repeat' first
    | refine ⟨_, rfl, ?_⟩
    | with_reducible exact Touches.refl _ _
    | with_reducible assumption
    | ((with_reducible apply Touches.fst); · assumption)
    | ((with_reducible apply Touches.snd); · assumption)
    | with_reducible apply Touches.ite
    | (with_reducible apply Touches.foldl; on_goal 1 => intro _ _ _)
    | ((with_reducible apply Touches.step (State.mainsRestored_touches ..)); · rfl)
    | ((with_reducible apply Touches.step (State.at_touches ..)); · rfl)
    | split
    | exact fun _ => wrap64_lt _
    | exact id
    | dsimp only

theorem State.holdUpRunsOut_touches (s : State) :
    Touches [.now, .supply, .regs, .latch, .lows, .held, .frameW, .frameLog, .flags, .counts, .flagAt, .recent, .ev, .queues, .mode, .plies, .strands, .cores, .units, .outs, .inps, .rtones, .dec, .hch, .badWords, .convs, .engines, .thm, .pwr, .mc, .mem, .sync, .ptp, .hif, .mon, .tio, .hbm, .seqSram, .ucode, .envSram, .kernel, .envTab] s (State.holdUpRunsOut s) := by
  unfold State.holdUpRunsOut
  try dsimp only
  repeat' first
    | with_reducible exact Touches.refl _ _
    | with_reducible assumption
    | ((with_reducible apply Touches.fst); · assumption)
    | ((with_reducible apply Touches.snd); · assumption)
    | with_reducible apply Touches.ite
    | (with_reducible apply Touches.foldl; on_goal 1 => intro _ _ _)
    | ((with_reducible apply Touches.step (State.powerDown_touches ..)); · rfl)
    | split
    | exact fun _ => wrap64_lt _
    | exact id
    | dsimp only

theorem execHoldUpRunsOut_touches (s : State) :
    ∃ t', execHoldUpRunsOut s = .next t' ∧ Touches [.now, .supply, .regs, .latch, .lows, .held, .frameW, .frameLog, .flags, .counts, .flagAt, .recent, .ev, .queues, .mode, .plies, .strands, .cores, .units, .outs, .inps, .rtones, .dec, .hch, .badWords, .convs, .engines, .thm, .pwr, .mc, .mem, .sync, .ptp, .hif, .mon, .tio, .hbm, .seqSram, .ucode, .envSram, .kernel, .envTab] s t' := by
  unfold execHoldUpRunsOut
  try dsimp only
  repeat' first
    | refine ⟨_, rfl, ?_⟩
    | with_reducible exact Touches.refl _ _
    | with_reducible assumption
    | ((with_reducible apply Touches.fst); · assumption)
    | ((with_reducible apply Touches.snd); · assumption)
    | with_reducible apply Touches.ite
    | (with_reducible apply Touches.foldl; on_goal 1 => intro _ _ _)
    | ((with_reducible apply Touches.step (State.holdUpRunsOut_touches ..)); · rfl)
    | split
    | exact fun _ => wrap64_lt _
    | exact id
    | dsimp only

theorem State.bootFail_touches (s : State) (step : Nat) :
    Touches [.flags, .counts, .flagAt, .recent, .ev, .queues, .pwr, .mem] s (State.bootFail s step) := by
  unfold State.bootFail
  try dsimp only
  repeat' first
    | with_reducible exact Touches.refl _ _
    | with_reducible assumption
    | ((with_reducible apply Touches.fst); · assumption)
    | ((with_reducible apply Touches.snd); · assumption)
    | with_reducible apply Touches.ite
    | (with_reducible apply Touches.foldl; on_goal 1 => intro _ _ _)
    | ((with_reducible apply Touches.step (State.raise_touches ..)); · rfl)
    | ((with_reducible apply Touches.step (State.toJournal_touches ..)); · rfl)
    | split
    | exact fun _ => wrap64_lt _
    | exact id
    | dsimp only

theorem State.losePlies_touches (s : State) :
    Touches [.mode, .badWords, .seqSram, .ucode, .envSram, .kernel, .envTab] s (State.losePlies s) := by
  unfold State.losePlies
  try dsimp only
  repeat' first
    | with_reducible exact Touches.refl _ _
    | with_reducible assumption
    | ((with_reducible apply Touches.fst); · assumption)
    | ((with_reducible apply Touches.snd); · assumption)
    | with_reducible apply Touches.ite
    | (with_reducible apply Touches.foldl; on_goal 1 => intro _ _ _)
    | ((with_reducible apply Touches.upd_mode_badWords_seqSram_ucode_envSram_kernel_envTab); · rfl)
    | split
    | exact fun _ => wrap64_lt _
    | exact id
    | dsimp only

theorem State.railFault_touches (s : State) (rail : Nat) :
    Touches [.now, .supply, .regs, .latch, .lows, .held, .frameW, .frameLog, .flags, .counts, .flagAt, .recent, .ev, .queues, .mode, .plies, .strands, .cores, .units, .outs, .inps, .rtones, .dec, .hch, .badWords, .convs, .engines, .thm, .pwr, .mc, .mem, .sync, .ptp, .hif, .mon, .tio, .hbm, .seqSram, .ucode, .envSram, .kernel, .envTab] s (State.railFault s rail) := by
  unfold State.railFault
  try dsimp only
  repeat' first
    | with_reducible exact Touches.refl _ _
    | with_reducible assumption
    | ((with_reducible apply Touches.fst); · assumption)
    | ((with_reducible apply Touches.snd); · assumption)
    | with_reducible apply Touches.ite
    | (with_reducible apply Touches.foldl; on_goal 1 => intro _ _ _)
    | ((with_reducible apply Touches.step (State.pwrFail_touches ..)); · rfl)
    | ((with_reducible apply Touches.step (State.setPwr_touches ..)); · rfl)
    | ((with_reducible apply Touches.step (State.raise_touches ..)); · rfl)
    | ((with_reducible apply Touches.step (State.trip_touches ..)); · rfl)
    | ((with_reducible apply Touches.step (State.bootFail_touches ..)); · rfl)
    | ((with_reducible apply Touches.step (State.shedMain_touches ..)); · rfl)
    | ((with_reducible apply Touches.step (State.setMode_touches ..)); · rfl)
    | ((with_reducible apply Touches.step (State.losePlies_touches ..)); · rfl)
    | split
    | exact fun _ => wrap64_lt _
    | exact id
    | dsimp only

theorem execRailFault_based (t : BitVec 64) (rail : Fin 20) (s : State) :
    ∃ t', execRailFault t rail s = .next t' ∧ Based [.now, .supply, .regs, .latch, .lows, .held, .frameW, .frameLog, .flags, .counts, .flagAt, .recent, .ev, .queues, .mode, .plies, .strands, .cores, .units, .outs, .inps, .rtones, .dec, .hch, .badWords, .convs, .engines, .thm, .pwr, .mc, .mem, .sync, .ptp, .hif, .mon, .tio, .hbm, .seqSram, .ucode, .envSram, .kernel, .envTab] s t' := by
  unfold execRailFault
  try dsimp only
  repeat' first
    | refine ⟨_, rfl, ?_⟩
    | with_reducible exact Based.refl _ _
    | with_reducible assumption
    | with_reducible exact Settled.refl
    | ((with_reducible apply Based.fst); · assumption)
    | ((with_reducible apply Based.snd); · assumption)
    | with_reducible apply Based.ite
    | (with_reducible apply Based.foldl; on_goal 1 => intro _ _ _)
    | ((with_reducible apply Based.step (State.railFault_touches ..)); · rfl)
    | ((with_reducible apply State.upTo_based); · rfl)
    | split
    | exact fun _ => wrap64_lt _
    | exact id
    | dsimp only

theorem State.readBands_touches (s : State) :
    Touches [.flags, .counts, .flagAt, .recent, .ev, .queues, .convs, .thm, .mem] s (State.readBands s) := by
  unfold State.readBands
  try dsimp only
  repeat' first
    | with_reducible exact Touches.refl _ _
    | with_reducible assumption
    | ((with_reducible apply Touches.fst); · assumption)
    | ((with_reducible apply Touches.snd); · assumption)
    | with_reducible apply Touches.ite
    | (with_reducible apply Touches.foldl; on_goal 1 => intro _ _ _)
    | ((with_reducible apply Touches.step (State.setThm_touches ..)); · rfl)
    | ((with_reducible apply Touches.step (State.raise_touches ..)); · rfl)
    | ((with_reducible apply Touches.step (State.makeDue_touches ..)); · rfl)
    | split
    | exact fun _ => wrap64_lt _
    | exact id
    | dsimp only

theorem State.readHigh_touches (s : State) :
    Touches [.flags, .counts, .flagAt, .recent, .ev, .queues, .thm, .mem] s (State.readHigh s) := by
  unfold State.readHigh
  try dsimp only
  repeat' first
    | with_reducible exact Touches.refl _ _
    | with_reducible assumption
    | ((with_reducible apply Touches.fst); · assumption)
    | ((with_reducible apply Touches.snd); · assumption)
    | with_reducible apply Touches.ite
    | (with_reducible apply Touches.foldl; on_goal 1 => intro _ _ _)
    | ((with_reducible apply Touches.step (State.setThm_touches ..)); · rfl)
    | ((with_reducible apply Touches.step (State.raise_touches ..)); · rfl)
    | split
    | exact fun _ => wrap64_lt _
    | exact id
    | dsimp only

theorem State.readWarn_touches (s : State) :
    Touches [.flags, .counts, .flagAt, .recent, .ev, .queues, .mode, .cores, .units, .outs, .thm, .mem] s (State.readWarn s) := by
  unfold State.readWarn
  try dsimp only
  repeat' first
    | with_reducible exact Touches.refl _ _
    | with_reducible assumption
    | ((with_reducible apply Touches.fst); · assumption)
    | ((with_reducible apply Touches.snd); · assumption)
    | with_reducible apply Touches.ite
    | (with_reducible apply Touches.foldl; on_goal 1 => intro _ _ _)
    | ((with_reducible apply Touches.step (State.setThm_touches ..)); · rfl)
    | ((with_reducible apply Touches.step (State.evalHold_touches ..)); · rfl)
    | ((with_reducible apply Touches.step (State.raise_touches ..)); · rfl)
    | split
    | exact fun _ => wrap64_lt _
    | exact id
    | dsimp only

theorem State.thermTrip_touches (s : State) (cause k js : Nat) (v rate : Int) :
    Touches [.flags, .counts, .flagAt, .recent, .ev, .queues, .mode, .strands, .cores, .units, .outs, .inps, .rtones, .convs, .engines, .pwr, .mc, .mem] s (State.thermTrip s cause k js v rate) := by
  unfold State.thermTrip
  try dsimp only
  repeat' first
    | with_reducible exact Touches.refl _ _
    | with_reducible assumption
    | ((with_reducible apply Touches.fst); · assumption)
    | ((with_reducible apply Touches.snd); · assumption)
    | with_reducible apply Touches.ite
    | (with_reducible apply Touches.foldl; on_goal 1 => intro _ _ _)
    | ((with_reducible apply Touches.step (State.raise_touches ..)); · rfl)
    | ((with_reducible apply Touches.step (State.trip_touches ..)); · rfl)
    | ((with_reducible apply Touches.step (State.setPwr_touches ..)); · rfl)
    | ((with_reducible apply Touches.step (State.setMode_touches ..)); · rfl)
    | split
    | exact fun _ => wrap64_lt _
    | exact id
    | dsimp only

theorem State.readTrips_touches (s : State) :
    Touches [.flags, .counts, .flagAt, .recent, .ev, .queues, .mode, .strands, .cores, .units, .outs, .inps, .rtones, .convs, .engines, .thm, .pwr, .mc, .mem] s (State.readTrips s) := by
  unfold State.readTrips
  try dsimp only
  repeat' first
    | with_reducible exact Touches.refl _ _
    | with_reducible assumption
    | ((with_reducible apply Touches.fst); · assumption)
    | ((with_reducible apply Touches.snd); · assumption)
    | with_reducible apply Touches.ite
    | (with_reducible apply Touches.foldl; on_goal 1 => intro _ _ _)
    | ((with_reducible apply Touches.step (State.setThm_touches ..)); · rfl)
    | ((with_reducible apply Touches.step (State.thermTrip_touches ..)); · rfl)
    | split
    | exact fun _ => wrap64_lt _
    | exact id
    | dsimp only

theorem State.readHeld_touches (s : State) :
    Touches [.mode, .pwr] s (State.readHeld s) := by
  unfold State.readHeld
  try dsimp only
  repeat' first
    | with_reducible exact Touches.refl _ _
    | with_reducible assumption
    | ((with_reducible apply Touches.fst); · assumption)
    | ((with_reducible apply Touches.snd); · assumption)
    | with_reducible apply Touches.ite
    | (with_reducible apply Touches.foldl; on_goal 1 => intro _ _ _)
    | ((with_reducible apply Touches.step (State.setMode_touches ..)); · rfl)
    | ((with_reducible apply Touches.step (State.toJournal_touches ..)); · rfl)
    | split
    | exact fun _ => wrap64_lt _
    | exact id
    | dsimp only

theorem State.newTemps_touches (s : State) (temps : List Int) :
    Touches [.thm] s (State.newTemps s temps) := by
  unfold State.newTemps
  try dsimp only
  repeat' first
    | with_reducible exact Touches.refl _ _
    | with_reducible assumption
    | ((with_reducible apply Touches.fst); · assumption)
    | ((with_reducible apply Touches.snd); · assumption)
    | with_reducible apply Touches.ite
    | (with_reducible apply Touches.foldl; on_goal 1 => intro _ _ _)
    | ((with_reducible apply Touches.step (State.setThm_touches ..)); · rfl)
    | split
    | exact fun _ => wrap64_lt _
    | exact id
    | dsimp only

theorem State.dieSensorRead_touches (s : State) (temps : List Int) :
    Touches [.flags, .counts, .flagAt, .recent, .ev, .queues, .mode, .strands, .cores, .units, .outs, .inps, .rtones, .convs, .engines, .thm, .pwr, .mc, .mem] s (State.dieSensorRead s temps) := by
  unfold State.dieSensorRead
  try dsimp only
  repeat' first
    | with_reducible exact Touches.refl _ _
    | with_reducible assumption
    | ((with_reducible apply Touches.fst); · assumption)
    | ((with_reducible apply Touches.snd); · assumption)
    | with_reducible apply Touches.ite
    | (with_reducible apply Touches.foldl; on_goal 1 => intro _ _ _)
    | ((with_reducible apply Touches.step (State.readHeld_touches ..)); · rfl)
    | ((with_reducible apply Touches.step (State.readTrips_touches ..)); · rfl)
    | ((with_reducible apply Touches.step (State.readWarn_touches ..)); · rfl)
    | ((with_reducible apply Touches.step (State.readHigh_touches ..)); · rfl)
    | ((with_reducible apply Touches.step (State.readBands_touches ..)); · rfl)
    | ((with_reducible apply Touches.step (State.newTemps_touches ..)); · rfl)
    | split
    | exact fun _ => wrap64_lt _
    | exact id
    | dsimp only

theorem execDieSensorRead_based (t : BitVec 64) (temps : List Int) (s : State) :
    ∃ t', execDieSensorRead t temps s = .next t' ∧ Based [.now, .flags, .counts, .flagAt, .recent, .ev, .queues, .mode, .strands, .cores, .units, .outs, .inps, .rtones, .convs, .engines, .thm, .pwr, .mc, .mem] s t' := by
  unfold execDieSensorRead
  try dsimp only
  repeat' first
    | refine ⟨_, rfl, ?_⟩
    | with_reducible exact Based.refl _ _
    | with_reducible assumption
    | with_reducible exact Settled.refl
    | ((with_reducible apply Based.fst); · assumption)
    | ((with_reducible apply Based.snd); · assumption)
    | with_reducible apply Based.ite
    | (with_reducible apply Based.foldl; on_goal 1 => intro _ _ _)
    | ((with_reducible apply Based.step (State.dieSensorRead_touches ..)); · rfl)
    | ((with_reducible apply State.upTo_based); · rfl)
    | split
    | exact fun _ => wrap64_lt _
    | exact id
    | dsimp only

theorem State.extWarn_touches (s : State) (j : Nat) (v : Option Int) :
    Touches [.flags, .counts, .flagAt, .recent, .ev, .queues, .thm, .mem] s (State.extWarn s j v) := by
  unfold State.extWarn
  try dsimp only
  repeat' first
    | with_reducible exact Touches.refl _ _
    | with_reducible assumption
    | ((with_reducible apply Touches.fst); · assumption)
    | ((with_reducible apply Touches.snd); · assumption)
    | with_reducible apply Touches.ite
    | (with_reducible apply Touches.foldl; on_goal 1 => intro _ _ _)
    | ((with_reducible apply Touches.step (State.raise_touches ..)); · rfl)
    | ((with_reducible apply Touches.step (State.setThm_touches ..)); · rfl)
    | split
    | exact fun _ => wrap64_lt _
    | exact id
    | dsimp only

theorem State.thermistorRead_touches (s : State) (temps : List (Option Int)) :
    Touches [.flags, .counts, .flagAt, .recent, .ev, .queues, .mode, .strands, .cores, .units, .outs, .inps, .rtones, .convs, .engines, .thm, .pwr, .mc, .mem] s (State.thermistorRead s temps) := by
  unfold State.thermistorRead
  try dsimp only
  repeat' first
    | with_reducible exact Touches.refl _ _
    | with_reducible assumption
    | ((with_reducible apply Touches.fst); · assumption)
    | ((with_reducible apply Touches.snd); · assumption)
    | with_reducible apply Touches.ite
    | (with_reducible apply Touches.foldl; on_goal 1 => intro _ _ _)
    | ((with_reducible apply Touches.step (State.setThm_touches ..)); · rfl)
    | ((with_reducible apply Touches.step (State.extWarn_touches ..)); · rfl)
    | ((with_reducible apply Touches.step (State.thermTrip_touches ..)); · rfl)
    | split
    | exact fun _ => wrap64_lt _
    | exact id
    | dsimp only

theorem execThermistorRead_based (t : BitVec 64) (temps : List (Option Int)) (s : State) :
    ∃ t', execThermistorRead t temps s = .next t' ∧ Based [.now, .flags, .counts, .flagAt, .recent, .ev, .queues, .mode, .strands, .cores, .units, .outs, .inps, .rtones, .convs, .engines, .thm, .pwr, .mc, .mem] s t' := by
  unfold execThermistorRead
  try dsimp only
  repeat' first
    | refine ⟨_, rfl, ?_⟩
    | with_reducible exact Based.refl _ _
    | with_reducible assumption
    | with_reducible exact Settled.refl
    | ((with_reducible apply Based.fst); · assumption)
    | ((with_reducible apply Based.snd); · assumption)
    | with_reducible apply Based.ite
    | (with_reducible apply Based.foldl; on_goal 1 => intro _ _ _)
    | ((with_reducible apply Based.step (State.thermistorRead_touches ..)); · rfl)
    | ((with_reducible apply State.upTo_based); · rfl)
    | split
    | exact fun _ => wrap64_lt _
    | exact id
    | dsimp only

theorem State.fanFail_touches (s : State) (f : Nat) :
    Touches [.flags, .counts, .flagAt, .recent, .ev, .queues, .mem] s (State.fanFail s f) := by
  unfold State.fanFail
  try dsimp only
  repeat' first
    | with_reducible exact Touches.refl _ _
    | with_reducible assumption
    | ((with_reducible apply Touches.fst); · assumption)
    | ((with_reducible apply Touches.snd); · assumption)
    | with_reducible apply Touches.ite
    | (with_reducible apply Touches.foldl; on_goal 1 => intro _ _ _)
    | ((with_reducible apply Touches.step (State.raise_touches ..)); · rfl)
    | ((with_reducible apply Touches.step (State.setFlag_touches ..)); · rfl)
    | split
    | exact fun _ => wrap64_lt _
    | exact id
    | dsimp only

theorem execFanFail_touches (t : BitVec 64) (f : Fin 6) (s : State) :
    ∃ t', execFanFail t f s = .next t' ∧ Touches [.now, .flags, .counts, .flagAt, .recent, .ev, .queues, .mem] s t' := by
  unfold execFanFail
  try dsimp only
  repeat' first
    | refine ⟨_, rfl, ?_⟩
    | with_reducible exact Touches.refl _ _
    | with_reducible assumption
    | ((with_reducible apply Touches.fst); · assumption)
    | ((with_reducible apply Touches.snd); · assumption)
    | with_reducible apply Touches.ite
    | (with_reducible apply Touches.foldl; on_goal 1 => intro _ _ _)
    | ((with_reducible apply Touches.step (State.fanFail_touches ..)); · rfl)
    | ((with_reducible apply Touches.step (State.at_touches ..)); · rfl)
    | split
    | exact fun _ => wrap64_lt _
    | exact id
    | dsimp only

theorem State.journalRecord_touches (s : State) (cut : JournalCut) :
    Touches [.free, .pwr] s (State.journalRecord s cut) := by
  unfold State.journalRecord
  try dsimp only
  repeat' first
    | with_reducible exact Touches.refl _ _
    | with_reducible assumption
    | ((with_reducible apply Touches.fst); · assumption)
    | ((with_reducible apply Touches.snd); · assumption)
    | with_reducible apply Touches.ite
    | (with_reducible apply Touches.foldl; on_goal 1 => intro _ _ _)
    | ((with_reducible apply Touches.step (State.setPwr_touches ..)); · rfl)
    | ((with_reducible apply Touches.step (State.tick_touches ..)); · rfl)
    | split
    | exact fun _ => wrap64_lt _
    | exact id
    | dsimp only

theorem execJournalRecord_touches (t : BitVec 64) (cut : JournalCut) (s : State) :
    ∃ t', execJournalRecord t cut s = .next t' ∧ Touches [.now, .free, .pwr] s t' := by
  unfold execJournalRecord
  try dsimp only
  repeat' first
    | refine ⟨_, rfl, ?_⟩
    | with_reducible exact Touches.refl _ _
    | with_reducible assumption
    | ((with_reducible apply Touches.fst); · assumption)
    | ((with_reducible apply Touches.snd); · assumption)
    | with_reducible apply Touches.ite
    | (with_reducible apply Touches.foldl; on_goal 1 => intro _ _ _)
    | ((with_reducible apply Touches.step (State.journalRecord_touches ..)); · rfl)
    | ((with_reducible apply Touches.step (State.at_touches ..)); · rfl)
    | split
    | exact fun _ => wrap64_lt _
    | exact id
    | dsimp only

theorem State.journalScan_touches (s : State) :
    Touches [.counts, .pwr] s (State.journalScan s) := by
  unfold State.journalScan
  try dsimp only
  repeat' first
    | with_reducible exact Touches.refl _ _
    | with_reducible assumption
    | ((with_reducible apply Touches.fst); · assumption)
    | ((with_reducible apply Touches.snd); · assumption)
    | with_reducible apply Touches.ite
    | (with_reducible apply Touches.foldl; on_goal 1 => intro _ _ _)
    | ((with_reducible apply Touches.step (State.setPwr_touches ..)); · rfl)
    | ((with_reducible apply Touches.upd_counts); · rfl)
    | split
    | exact fun _ => wrap64_lt _
    | exact id
    | dsimp only

theorem State.wrJrnSel_touches (s : State) (w : Word) :
    Touches [.regs, .pwr] s (State.wrJrnSel s w) := by
  unfold State.wrJrnSel
  try dsimp only
  repeat' first
    | with_reducible exact Touches.refl _ _
    | with_reducible assumption
    | ((with_reducible apply Touches.fst); · assumption)
    | ((with_reducible apply Touches.snd); · assumption)
    | with_reducible apply Touches.ite
    | (with_reducible apply Touches.foldl; on_goal 1 => intro _ _ _)
    | ((with_reducible apply Touches.step (State.setReg_touches ..)); · rfl)
    | ((with_reducible apply Touches.step (State.setPwr_touches ..)); · rfl)
    | split
    | exact fun _ => wrap64_lt _
    | exact id
    | dsimp only

theorem execJrnselWrite_touches (t : BitVec 64) (w : Word) (s : State) :
    ∃ t', execJrnselWrite t w s = .next t' ∧ Touches [.now, .regs, .pwr] s t' := by
  unfold execJrnselWrite
  try dsimp only
  repeat' first
    | refine ⟨_, rfl, ?_⟩
    | with_reducible exact Touches.refl _ _
    | with_reducible assumption
    | ((with_reducible apply Touches.fst); · assumption)
    | ((with_reducible apply Touches.snd); · assumption)
    | with_reducible apply Touches.ite
    | (with_reducible apply Touches.foldl; on_goal 1 => intro _ _ _)
    | ((with_reducible apply Touches.step (State.at_touches ..)); · rfl)
    | ((with_reducible apply Touches.step (State.wrJrnSel_touches ..)); · rfl)
    | split
    | exact fun _ => wrap64_lt _
    | exact id
    | dsimp only

end Sys2Proof.Machine
end

