-- ==== Sys2Proof/Laws/TouchMonitor.lean ====
section
/-! SUPPORT. The parts of the state that each operation of Machine/Monitor.lean can change. -/

namespace Sys2Proof.Machine

open Sys2Proof

theorem State.setMonIn_touches (s : State) (n : Nat) (x : MonIn) :
    Touches [.mon] s (State.setMonIn s n x) := by
  unfold State.setMonIn
  try dsimp only
  repeat' first
    | with_reducible exact Touches.refl _ _
    | with_reducible assumption
    | ((with_reducible apply Touches.fst); · assumption)
    | ((with_reducible apply Touches.snd); · assumption)
    | with_reducible apply Touches.ite
    | (with_reducible apply Touches.foldl; on_goal 1 => intro _ _ _)
    | ((with_reducible apply Touches.upd_mon); · rfl)
    | split
    | exact fun _ => wrap64_lt _
    | exact id
    | dsimp only

theorem State.makeRoom_touches (s : State) (qn len n : Nat) : Touches [.flags, .counts, .flagAt, .recent, .ev, .queues, .mem] s (s.makeRoom qn len n) := by
  induction n generalizing s with
  | zero => exact Touches.refl _ _
  | succ n ih =>
    unfold State.makeRoom
    refine Touches.ite (Touches.refl _ _) ?_
    split
    · exact Touches.refl _ _
    · exact Touches.step (ih _) rfl (Touches.step (State.dropPacket_touches ..) rfl
        (Touches.step (State.setQueue_touches ..) rfl (Touches.refl _ _)))

theorem State.closeBatch_touches (s : State) (n : Nat) :
    Touches [.flags, .counts, .flagAt, .recent, .ev, .queues, .mem, .mon] s (State.closeBatch s n) := by
  unfold State.closeBatch
  try dsimp only
  repeat' first
    | with_reducible exact Touches.refl _ _
    | with_reducible assumption
    | ((with_reducible apply Touches.fst); · assumption)
    | ((with_reducible apply Touches.snd); · assumption)
    | with_reducible apply Touches.ite
    | (with_reducible apply Touches.foldl; on_goal 1 => intro _ _ _)
    | ((with_reducible apply Touches.step (State.setMonIn_touches ..)); · rfl)
    | ((with_reducible apply Touches.step (State.dropPacket_touches ..)); · rfl)
    | ((with_reducible apply Touches.step (State.makeRoom_touches ..)); · rfl)
    | ((with_reducible apply Touches.step (State.pushPacket_touches ..)); · rfl)
    | split
    | exact fun _ => wrap64_lt _
    | exact id
    | dsimp only

theorem State.deliverSample_touches (s : State) (n w stamp : Nat) :
    Touches [.flags, .counts, .flagAt, .recent, .ev, .queues, .mem, .mon] s (State.deliverSample s n w stamp) := by
  unfold State.deliverSample
  try dsimp only
  repeat' first
    | with_reducible exact Touches.refl _ _
    | with_reducible assumption
    | ((with_reducible apply Touches.fst); · assumption)
    | ((with_reducible apply Touches.snd); · assumption)
    | with_reducible apply Touches.ite
    | (with_reducible apply Touches.foldl; on_goal 1 => intro _ _ _)
    | ((with_reducible apply Touches.step (State.setMonIn_touches ..)); · rfl)
    | ((with_reducible apply Touches.step (State.closeBatch_touches ..)); · rfl)
    | split
    | exact fun _ => wrap64_lt _
    | exact id
    | dsimp only

theorem State.keepSample_touches (s : State) (n st : Nat) (v : Int) (clip : Bool) :
    Touches [.flags, .counts, .flagAt, .recent, .ev, .queues, .mem, .mon] s (State.keepSample s n st v clip) := by
  unfold State.keepSample
  try dsimp only
  repeat' first
    | with_reducible exact Touches.refl _ _
    | with_reducible assumption
    | ((with_reducible apply Touches.fst); · assumption)
    | ((with_reducible apply Touches.snd); · assumption)
    | with_reducible apply Touches.ite
    | (with_reducible apply Touches.foldl; on_goal 1 => intro _ _ _)
    | ((with_reducible apply Touches.step (State.setMonIn_touches ..)); · rfl)
    | ((with_reducible apply Touches.step (State.raise_touches ..)); · rfl)
    | ((with_reducible apply Touches.step (State.deliverSample_touches ..)); · rfl)
    | split
    | exact fun _ => wrap64_lt _
    | exact id
    | dsimp only

theorem State.monSample_touches (s : State) (n : Nat) (raw : Int) :
    Touches [.now, .flags, .counts, .flagAt, .recent, .ev, .queues, .mem, .mon] s (State.monSample s n raw) := by
  unfold State.monSample
  try dsimp only
  repeat' first
    | with_reducible exact Touches.refl _ _
    | with_reducible assumption
    | ((with_reducible apply Touches.fst); · assumption)
    | ((with_reducible apply Touches.snd); · assumption)
    | with_reducible apply Touches.ite
    | (with_reducible apply Touches.foldl; on_goal 1 => intro _ _ _)
    | ((with_reducible apply Touches.step (State.clockTo_touches ..)); · rfl)
    | ((with_reducible apply Touches.step (State.setMonIn_touches ..)); · rfl)
    | ((with_reducible apply Touches.step (State.keepSample_touches ..)); · rfl)
    | split
    | exact fun _ => wrap64_lt _
    | exact id
    | dsimp only

theorem execMonSample_touches (n : Fin 64) (raw : Int) (s : State) :
    ∃ t', execMonSample n raw s = .next t' ∧ Touches [.now, .flags, .counts, .flagAt, .recent, .ev, .queues, .mem, .mon] s t' := by
  unfold execMonSample
  try dsimp only
  repeat' first
    | refine ⟨_, rfl, ?_⟩
    | with_reducible exact Touches.refl _ _
    | with_reducible assumption
    | ((with_reducible apply Touches.fst); · assumption)
    | ((with_reducible apply Touches.snd); · assumption)
    | with_reducible apply Touches.ite
    | (with_reducible apply Touches.foldl; on_goal 1 => intro _ _ _)
    | ((with_reducible apply Touches.step (State.monSample_touches ..)); · rfl)
    | split
    | exact fun _ => wrap64_lt _
    | exact id
    | dsimp only

theorem State.wrMonCtl_touches (s : State) (n : Nat) (w : Word) :
    Touches [.regs, .flags, .counts, .flagAt, .recent, .ev, .queues, .plies, .strands, .cores, .units, .outs, .inps, .rtones, .dec, .convs, .engines, .mem, .mon] s (State.wrMonCtl s n w) := by
  unfold State.wrMonCtl
  try dsimp only
  repeat' first
    | with_reducible exact Touches.refl _ _
    | with_reducible assumption
    | ((with_reducible apply Touches.fst); · assumption)
    | ((with_reducible apply Touches.snd); · assumption)
    | with_reducible apply Touches.ite
    | (with_reducible apply Touches.foldl; on_goal 1 => intro _ _ _)
    | ((with_reducible apply Touches.step (State.writeFields_touches ..)); · rfl)
    | ((with_reducible apply Touches.step (State.closeBatch_touches ..)); · rfl)
    | ((with_reducible apply Touches.step (State.plainEnable_touches ..)); · rfl)
    | ((with_reducible apply Touches.step (State.setMonIn_touches ..)); · rfl)
    | split
    | exact fun _ => wrap64_lt _
    | exact id
    | dsimp only

theorem State.transition_touches (s : State) (i lvl t : Nat) :
    Touches [.flags, .counts, .flagAt, .recent, .ev, .queues, .cores, .dec, .mem, .tio] s (State.transition s i lvl t) := by
  unfold State.transition
  try dsimp only
  repeat' first
    | with_reducible exact Touches.refl _ _
    | with_reducible assumption
    | ((with_reducible apply Touches.fst); · assumption)
    | ((with_reducible apply Touches.snd); · assumption)
    | with_reducible apply Touches.ite
    | (with_reducible apply Touches.foldl; on_goal 1 => intro _ _ _)
    | ((with_reducible apply Touches.step (State.pushTrig_touches ..)); · rfl)
    | ((with_reducible apply Touches.step (State.raise_touches ..)); · rfl)
    | ((with_reducible apply Touches.upd_dec_tio); · rfl)
    | split
    | exact fun _ => wrap64_lt _
    | exact id
    | dsimp only

theorem State.quietLevel_touches (s : State) (i lvl : Nat) :
    Touches [.dec, .tio] s (State.quietLevel s i lvl) := by
  unfold State.quietLevel
  try dsimp only
  repeat' first
    | with_reducible exact Touches.refl _ _
    | with_reducible assumption
    | ((with_reducible apply Touches.fst); · assumption)
    | ((with_reducible apply Touches.snd); · assumption)
    | with_reducible apply Touches.ite
    | (with_reducible apply Touches.foldl; on_goal 1 => intro _ _ _)
    | ((with_reducible apply Touches.upd_dec_tio); · rfl)
    | split
    | exact fun _ => wrap64_lt _
    | exact id
    | dsimp only

theorem State.triggerEdge_touches (s : State) (i : Nat) (level : Bool) (held t : Nat) :
    Touches [.flags, .counts, .flagAt, .recent, .ev, .queues, .cores, .dec, .mem, .tio] s (State.triggerEdge s i level held t) := by
  unfold State.triggerEdge
  try dsimp only
  repeat' first
    | with_reducible exact Touches.refl _ _
    | with_reducible assumption
    | ((with_reducible apply Touches.fst); · assumption)
    | ((with_reducible apply Touches.snd); · assumption)
    | with_reducible apply Touches.ite
    | (with_reducible apply Touches.foldl; on_goal 1 => intro _ _ _)
    | ((with_reducible apply Touches.step (State.quietLevel_touches ..)); · rfl)
    | ((with_reducible apply Touches.step (State.bump_touches ..)); · rfl)
    | ((with_reducible apply Touches.step (State.transition_touches ..)); · rfl)
    | split
    | exact fun _ => wrap64_lt _
    | exact id
    | dsimp only

theorem execTriggerEdge_based (t : BitVec 64) (i : Fin 32) (level : Bool) (held : Nat) (s : State) :
    ∃ t', execTriggerEdge t i level held s = .next t' ∧ Based [.now, .flags, .counts, .flagAt, .recent, .ev, .queues, .cores, .dec, .mem, .tio] s t' := by
  unfold execTriggerEdge
  try dsimp only
  repeat' first
    | refine ⟨_, rfl, ?_⟩
    | with_reducible exact Based.refl _ _
    | with_reducible assumption
    | with_reducible exact Settled.refl
    | ((with_reducible apply Based.fst); · assumption)
    | ((with_reducible apply Based.snd); · assumption)
    | with_reducible apply Based.ite
    | (with_reducible apply Based.foldl; on_goal 1 => intro _ _ _)
    | ((with_reducible apply Based.step (State.triggerEdge_touches ..)); · rfl)
    | ((with_reducible apply State.upTo_based); · rfl)
    | split
    | exact fun _ => wrap64_lt _
    | exact id
    | dsimp only

theorem State.wrTioIn_touches (s : State) (i : Nat) (w : Word) :
    Touches [.regs, .flags, .counts, .flagAt, .recent, .ev, .queues, .cores, .dec, .mem, .tio] s (State.wrTioIn s i w) := by
  unfold State.wrTioIn
  try dsimp only
  repeat' first
    | with_reducible exact Touches.refl _ _
    | with_reducible assumption
    | ((with_reducible apply Touches.fst); · assumption)
    | ((with_reducible apply Touches.snd); · assumption)
    | with_reducible apply Touches.ite
    | (with_reducible apply Touches.foldl; on_goal 1 => intro _ _ _)
    | ((with_reducible apply Touches.step (State.writeFields_touches ..)); · rfl)
    | ((with_reducible apply Touches.step (State.transition_touches ..)); · rfl)
    | split
    | exact fun _ => wrap64_lt _
    | exact id
    | dsimp only

theorem State.setTrig_touches (s : State) (x : TrigTarget) (w : Word) :
    Touches [.regs, .held, .tio] s (State.setTrig s x w) := by
  unfold State.setTrig
  try dsimp only
  repeat' first
    | with_reducible exact Touches.refl _ _
    | with_reducible assumption
    | ((with_reducible apply Touches.fst); · assumption)
    | ((with_reducible apply Touches.snd); · assumption)
    | with_reducible apply Touches.ite
    | (with_reducible apply Touches.foldl; on_goal 1 => intro _ _ _)
    | split
    | ((with_reducible apply Touches.step (State.setReg_touches ..)); · rfl)
    | ((with_reducible apply Touches.step (State.unhold_touches ..)); · rfl)
    | ((with_reducible apply Touches.upd_tio); · rfl)
    | exact fun _ => wrap64_lt _
    | exact id
    | dsimp only

theorem State.wrTrig_touches (s : State) (x : TrigTarget) (w : Word) :
    Touches [.regs, .held, .tio] s (State.wrTrig s x w) := by
  unfold State.wrTrig
  try dsimp only
  repeat' first
    | with_reducible exact Touches.refl _ _
    | with_reducible assumption
    | ((with_reducible apply Touches.fst); · assumption)
    | ((with_reducible apply Touches.snd); · assumption)
    | with_reducible apply Touches.ite
    | (with_reducible apply Touches.foldl; on_goal 1 => intro _ _ _)
    | ((with_reducible apply Touches.step (State.hold_touches ..)); · rfl)
    | ((with_reducible apply Touches.step (State.setTrig_touches ..)); · rfl)
    | split
    | exact fun _ => wrap64_lt _
    | exact id
    | dsimp only

theorem execTriggerOutWrite_based (t : BitVec 64) (x : TrigTarget) (w : Word) (s : State) :
    ∃ t', execTriggerOutWrite t x w s = .next t' ∧ Based [.now, .regs, .held, .tio] s t' := by
  unfold execTriggerOutWrite
  try dsimp only
  repeat' first
    | refine ⟨_, rfl, ?_⟩
    | with_reducible exact Based.refl _ _
    | with_reducible assumption
    | with_reducible exact Settled.refl
    | ((with_reducible apply Based.fst); · assumption)
    | ((with_reducible apply Based.snd); · assumption)
    | with_reducible apply Based.ite
    | (with_reducible apply Based.foldl; on_goal 1 => intro _ _ _)
    | ((with_reducible apply State.blockWrite_based); (· rfl); on_goal 1 => intro _ _)
    | ((with_reducible apply Based.step (State.wrTrig_touches ..)); · rfl)
    | split
    | exact fun _ => wrap64_lt _
    | exact id
    | dsimp only

theorem State.evWindow_touches (s : State) (v : Nat) :
    Touches [.flags, .counts, .flagAt, .recent, .ev, .queues, .mem, .tio] s (State.evWindow s v) := by
  unfold State.evWindow
  try dsimp only
  repeat' first
    | with_reducible exact Touches.refl _ _
    | with_reducible assumption
    | ((with_reducible apply Touches.fst); · assumption)
    | ((with_reducible apply Touches.snd); · assumption)
    | with_reducible apply Touches.ite
    | (with_reducible apply Touches.foldl; on_goal 1 => intro _ _ _)
    | split
    | ((with_reducible apply Touches.step (State.raise_touches ..)); · rfl)
    | ((with_reducible apply Touches.upd_tio); · rfl)
    | exact fun _ => wrap64_lt _
    | exact id
    | dsimp only

theorem execEventWindowEnd_based (t : BitVec 64) (v : Fin 32) (s : State) :
    ∃ t', execEventWindowEnd t v s = .next t' ∧ Based [.now, .flags, .counts, .flagAt, .recent, .ev, .queues, .mem, .tio] s t' := by
  unfold execEventWindowEnd
  try dsimp only
  repeat' first
    | refine ⟨_, rfl, ?_⟩
    | with_reducible exact Based.refl _ _
    | with_reducible assumption
    | with_reducible exact Settled.refl
    | ((with_reducible apply Based.fst); · assumption)
    | ((with_reducible apply Based.snd); · assumption)
    | with_reducible apply Based.ite
    | (with_reducible apply Based.foldl; on_goal 1 => intro _ _ _)
    | ((with_reducible apply Based.step (State.evWindow_touches ..)); · rfl)
    | ((with_reducible apply State.upTo_based); · rfl)
    | split
    | exact fun _ => wrap64_lt _
    | exact id
    | dsimp only

end Sys2Proof.Machine
end

