-- ==== Sys2Proof/Laws/TouchCalib.lean ====
section
/-! SUPPORT. The parts of the state that each operation of Machine/Calib.lean can change. -/

namespace Sys2Proof.Machine

open Sys2Proof

theorem State.calDue_touches (s : State) (x : Nat) :
    Touches [.convs] s (State.calDue s x) := by
  unfold State.calDue
  try dsimp only
  repeat' first
    | with_reducible exact Touches.refl _ _
    | with_reducible assumption
    | ((with_reducible apply Touches.fst); · assumption)
    | ((with_reducible apply Touches.snd); · assumption)
    | with_reducible apply Touches.ite
    | (with_reducible apply Touches.foldl; on_goal 1 => intro _ _ _)
    | ((with_reducible apply Touches.step (State.makeDue_touches ..)); · rfl)
    | split
    | exact fun _ => wrap64_lt _
    | exact id
    | dsimp only

theorem execCalDue_touches (t : BitVec 64) (x : Fin 768) (s : State) :
    ∃ t', execCalDue t x s = .next t' ∧ Touches [.now, .convs] s t' := by
  unfold execCalDue
  try dsimp only
  repeat' first
    | refine ⟨_, rfl, ?_⟩
    | with_reducible exact Touches.refl _ _
    | with_reducible assumption
    | ((with_reducible apply Touches.fst); · assumption)
    | ((with_reducible apply Touches.snd); · assumption)
    | with_reducible apply Touches.ite
    | (with_reducible apply Touches.foldl; on_goal 1 => intro _ _ _)
    | ((with_reducible apply Touches.step (State.calDue_touches ..)); · rfl)
    | ((with_reducible apply Touches.step (State.at_touches ..)); · rfl)
    | split
    | exact fun _ => wrap64_lt _
    | exact id
    | dsimp only

theorem State.markMet_touches (s : State) (x a b : Nat) :
    Touches [.cores] s (State.markMet s x a b) := by
  unfold State.markMet
  try dsimp only
  repeat' first
    | with_reducible exact Touches.refl _ _
    | with_reducible assumption
    | ((with_reducible apply Touches.fst); · assumption)
    | ((with_reducible apply Touches.snd); · assumption)
    | with_reducible apply Touches.ite
    | (with_reducible apply Touches.foldl; on_goal 1 => intro _ _ _)
    | ((with_reducible apply Touches.step (State.invalid_touches ..)); · rfl)
    | split
    | exact fun _ => wrap64_lt _
    | exact id
    | dsimp only

theorem State.beginStep_touches (s : State) (x b : Nat) (kind : StepKind) :
    Touches [.now, .regs, .frameW, .frameLog, .flags, .counts, .flagAt, .recent, .ev, .queues, .strands, .cores, .units, .outs, .inps, .rtones, .convs, .engines, .mem] s (State.beginStep s x b kind) := by
  unfold State.beginStep
  try dsimp only
  repeat' first
    | with_reducible exact Touches.refl _ _
    | with_reducible assumption
    | ((with_reducible apply Touches.fst); · assumption)
    | ((with_reducible apply Touches.snd); · assumption)
    | with_reducible apply Touches.ite
    | (with_reducible apply Touches.foldl; on_goal 1 => intro _ _ _)
    | ((with_reducible apply Touches.step (State.toTime_touches ..)); · rfl)
    | ((with_reducible apply Touches.step (State.setConv_touches ..)); · rfl)
    | ((with_reducible apply Touches.step (State.setEngine_touches ..)); · rfl)
    | ((with_reducible apply Touches.step (State.settleChain_touches ..)); · rfl)
    | ((with_reducible apply Touches.step (State.setOut_touches ..)); · rfl)
    | ((with_reducible apply Touches.step (State.setInp_touches ..)); · rfl)
    | ((with_reducible apply Touches.step (State.markMet_touches ..)); · rfl)
    | split
    | exact fun _ => wrap64_lt _
    | exact id
    | dsimp only

theorem State.stepStart_touches (s : State) (x : Nat) (refOk : Bool) :
    Touches [.now, .regs, .frameW, .frameLog, .flags, .counts, .flagAt, .recent, .ev, .queues, .strands, .cores, .units, .outs, .inps, .rtones, .convs, .engines, .mem] s (State.stepStart s x refOk) := by
  unfold State.stepStart
  try dsimp only
  repeat' first
    | with_reducible exact Touches.refl _ _
    | with_reducible assumption
    | ((with_reducible apply Touches.fst); · assumption)
    | ((with_reducible apply Touches.snd); · assumption)
    | with_reducible apply Touches.ite
    | (with_reducible apply Touches.foldl; on_goal 1 => intro _ _ _)
    | ((with_reducible apply Touches.step (State.setEngine_touches ..)); · rfl)
    | ((with_reducible apply Touches.step (State.raise_touches ..)); · rfl)
    | ((with_reducible apply Touches.step (State.beginStep_touches ..)); · rfl)
    | split
    | exact fun _ => wrap64_lt _
    | exact id
    | dsimp only

theorem execCalStepStart_based (t : BitVec 64) (x : Fin 768) (refOk : Bool) (s : State) :
    ∃ t', execCalStepStart t x refOk s = .next t' ∧ Based [.now, .regs, .frameW, .frameLog, .flags, .counts, .flagAt, .recent, .ev, .queues, .strands, .cores, .units, .outs, .inps, .rtones, .convs, .engines, .mem] s t' := by
  unfold execCalStepStart
  try dsimp only
  repeat' first
    | refine ⟨_, rfl, ?_⟩
    | with_reducible exact Based.refl _ _
    | with_reducible assumption
    | with_reducible exact Settled.refl
    | ((with_reducible apply Based.fst); · assumption)
    | ((with_reducible apply Based.snd); · assumption)
    | with_reducible apply Based.ite
    | (with_reducible apply Based.foldl; on_goal 1 => intro _ _ _)
    | ((with_reducible apply Based.step (State.stepStart_touches ..)); · rfl)
    | ((with_reducible apply State.upTo_based); · rfl)
    | split
    | exact fun _ => wrap64_lt _
    | exact id
    | dsimp only

theorem State.forced_touches (s : State) (x : Nat) :
    Touches [.now, .regs, .frameW, .frameLog, .flags, .counts, .flagAt, .recent, .ev, .queues, .strands, .cores, .units, .outs, .inps, .rtones, .convs, .engines, .mem] s (State.forced s x) := by
  unfold State.forced
  try dsimp only
  repeat' first
    | with_reducible exact Touches.refl _ _
    | with_reducible assumption
    | ((with_reducible apply Touches.fst); · assumption)
    | ((with_reducible apply Touches.snd); · assumption)
    | with_reducible apply Touches.ite
    | (with_reducible apply Touches.foldl; on_goal 1 => intro _ _ _)
    | ((with_reducible apply Touches.step (State.raise_touches ..)); · rfl)
    | ((with_reducible apply Touches.step (State.beginStep_touches ..)); · rfl)
    | split
    | exact fun _ => wrap64_lt _
    | exact id
    | dsimp only

theorem execCalForced_based (t : BitVec 64) (x : Fin 768) (s : State) :
    ∃ t', execCalForced t x s = .next t' ∧ Based [.now, .regs, .frameW, .frameLog, .flags, .counts, .flagAt, .recent, .ev, .queues, .strands, .cores, .units, .outs, .inps, .rtones, .convs, .engines, .mem] s t' := by
  unfold execCalForced
  try dsimp only
  repeat' first
    | refine ⟨_, rfl, ?_⟩
    | with_reducible exact Based.refl _ _
    | with_reducible assumption
    | with_reducible exact Settled.refl
    | ((with_reducible apply Based.fst); · assumption)
    | ((with_reducible apply Based.snd); · assumption)
    | with_reducible apply Based.ite
    | (with_reducible apply Based.foldl; on_goal 1 => intro _ _ _)
    | ((with_reducible apply Based.step (State.forced_touches ..)); · rfl)
    | ((with_reducible apply State.upTo_based); · rfl)
    | split
    | exact fun _ => wrap64_lt _
    | exact id
    | dsimp only

theorem State.stepEnd_based (s : State) (x : Nat) :
    Based [.now, .flags, .counts, .flagAt, .recent, .ev, .queues, .cores, .units, .outs, .inps, .rtones, .convs, .engines, .mem] s (State.stepEnd s x) := by
  unfold State.stepEnd
  try dsimp only
  repeat' first
    | with_reducible exact Based.refl _ _
    | with_reducible assumption
    | with_reducible exact Settled.refl
    | ((with_reducible apply Based.fst); · assumption)
    | ((with_reducible apply Based.snd); · assumption)
    | with_reducible apply Based.ite
    | (with_reducible apply Based.foldl; on_goal 1 => intro _ _ _)
    | ((with_reducible apply Based.step (State.leaveStep_touches ..)); · rfl)
    | ((with_reducible apply State.toTime_based); · rfl)
    | ((with_reducible apply Based.step (State.setConv_touches ..)); · rfl)
    | ((with_reducible apply Based.step (State.setEngine_touches ..)); · rfl)
    | split
    | exact fun _ => wrap64_lt _
    | exact id
    | dsimp only

theorem execCalStepEnd_based (x : Fin 768) (s : State) :
    ∃ t', execCalStepEnd x s = .next t' ∧ Based [.now, .flags, .counts, .flagAt, .recent, .ev, .queues, .cores, .units, .outs, .inps, .rtones, .convs, .engines, .mem] s t' := by
  unfold execCalStepEnd
  try dsimp only
  repeat' first
    | refine ⟨_, rfl, ?_⟩
    | with_reducible exact Based.refl _ _
    | with_reducible assumption
    | with_reducible exact Settled.refl
    | ((with_reducible apply Based.fst); · assumption)
    | ((with_reducible apply Based.snd); · assumption)
    | with_reducible apply Based.ite
    | (with_reducible apply Based.foldl; on_goal 1 => intro _ _ _)
    | ((with_reducible apply Based.trans (State.stepEnd_based ..)); · rfl)
    | split
    | exact fun _ => wrap64_lt _
    | exact id
    | dsimp only

theorem State.putCorr_touches (s : State) (x range : Nat) (c : Corr) :
    Touches [.convs] s (State.putCorr s x range c) := by
  unfold State.putCorr
  try dsimp only
  repeat' first
    | with_reducible exact Touches.refl _ _
    | with_reducible assumption
    | ((with_reducible apply Touches.fst); · assumption)
    | ((with_reducible apply Touches.snd); · assumption)
    | with_reducible apply Touches.ite
    | (with_reducible apply Touches.foldl; on_goal 1 => intro _ _ _)
    | ((with_reducible apply Touches.step (State.setConv_touches ..)); · rfl)
    | split
    | exact fun _ => wrap64_lt _
    | exact id
    | dsimp only

theorem State.applyCorr_touches (s : State) (x : Nat) (g : CalStep) (c : Corr) :
    Touches [.convs] s (State.applyCorr s x g c) := by
  unfold State.applyCorr
  try dsimp only
  repeat' first
    | with_reducible exact Touches.refl _ _
    | with_reducible assumption
    | ((with_reducible apply Touches.fst); · assumption)
    | ((with_reducible apply Touches.snd); · assumption)
    | with_reducible apply Touches.ite
    | (with_reducible apply Touches.foldl; on_goal 1 => intro _ _ _)
    | ((with_reducible apply Touches.step (State.setConv_touches ..)); · rfl)
    | ((with_reducible apply Touches.step (State.putCorr_touches ..)); · rfl)
    | split
    | exact fun _ => wrap64_lt _
    | exact id
    | dsimp only

theorem State.background_touches (s : State) (x : Nat) (c : Corr) :
    Touches [.convs] s (State.background s x c) := by
  unfold State.background
  try dsimp only
  repeat' first
    | with_reducible exact Touches.refl _ _
    | with_reducible assumption
    | ((with_reducible apply Touches.fst); · assumption)
    | ((with_reducible apply Touches.snd); · assumption)
    | with_reducible apply Touches.ite
    | (with_reducible apply Touches.foldl; on_goal 1 => intro _ _ _)
    | ((with_reducible apply Touches.step (State.applyCorr_touches ..)); · rfl)
    | split
    | exact fun _ => wrap64_lt _
    | exact id
    | dsimp only

theorem State.outlier_touches (s : State) (x : Nat) :
    Touches [.flags, .counts, .flagAt, .recent, .ev, .queues, .convs, .mem] s (State.outlier s x) := by
  unfold State.outlier
  try dsimp only
  repeat' first
    | with_reducible exact Touches.refl _ _
    | with_reducible assumption
    | ((with_reducible apply Touches.fst); · assumption)
    | ((with_reducible apply Touches.snd); · assumption)
    | with_reducible apply Touches.ite
    | (with_reducible apply Touches.foldl; on_goal 1 => intro _ _ _)
    | ((with_reducible apply Touches.step (State.raise_touches ..)); · rfl)
    | ((with_reducible apply Touches.step (State.setConv_touches ..)); · rfl)
    | split
    | exact fun _ => wrap64_lt _
    | exact id
    | dsimp only

theorem State.endDeferral_touches (s : State) (p from' : Nat) :
    Touches [.regs, .flags, .counts, .flagAt, .recent, .ev, .queues, .convs, .mem] s (State.endDeferral s p from') := by
  unfold State.endDeferral
  try dsimp only
  repeat' first
    | with_reducible exact Touches.refl _ _
    | with_reducible assumption
    | ((with_reducible apply Touches.fst); · assumption)
    | ((with_reducible apply Touches.snd); · assumption)
    | with_reducible apply Touches.ite
    | (with_reducible apply Touches.foldl; on_goal 1 => intro _ _ _)
    | ((with_reducible apply Touches.step (State.raise_touches ..)); · rfl)
    | ((with_reducible apply Touches.step (State.setReg_touches ..)); · rfl)
    | ((with_reducible apply Touches.upd_convs); · rfl)
    | split
    | exact fun _ => wrap64_lt _
    | exact id
    | dsimp only

theorem State.stepCorr_touches (s : State) (x : Nat) (g : CalStep) (c : Corr) :
    Touches [.regs, .flags, .counts, .flagAt, .recent, .ev, .queues, .convs, .engines, .mem] s (State.stepCorr s x g c) := by
  unfold State.stepCorr
  try dsimp only
  repeat' first
    | with_reducible exact Touches.refl _ _
    | with_reducible assumption
    | ((with_reducible apply Touches.fst); · assumption)
    | ((with_reducible apply Touches.snd); · assumption)
    | with_reducible apply Touches.ite
    | (with_reducible apply Touches.foldl; on_goal 1 => intro _ _ _)
    | ((with_reducible apply Touches.step (State.setEngine_touches ..)); · rfl)
    | ((with_reducible apply Touches.step (State.setConv_touches ..)); · rfl)
    | ((with_reducible apply Touches.step (State.endDeferral_touches ..)); · rfl)
    | ((with_reducible apply Touches.step (State.outlier_touches ..)); · rfl)
    | ((with_reducible apply Touches.step (State.putCorr_touches ..)); · rfl)
    | ((with_reducible apply Touches.step (State.applyCorr_touches ..)); · rfl)
    | split
    | exact fun _ => wrap64_lt _
    | exact id
    | dsimp only

theorem State.fgCorr_touches (s : State) (x : Nat) (c : Corr) :
    Touches [.flags, .counts, .flagAt, .recent, .ev, .queues, .convs, .mem] s (State.fgCorr s x c) := by
  unfold State.fgCorr
  try dsimp only
  repeat' first
    | with_reducible exact Touches.refl _ _
    | with_reducible assumption
    | ((with_reducible apply Touches.fst); · assumption)
    | ((with_reducible apply Touches.snd); · assumption)
    | with_reducible apply Touches.ite
    | (with_reducible apply Touches.foldl; on_goal 1 => intro _ _ _)
    | ((with_reducible apply Touches.step (State.setConv_touches ..)); · rfl)
    | ((with_reducible apply Touches.step (State.outlier_touches ..)); · rfl)
    | ((with_reducible apply Touches.step (State.putCorr_touches ..)); · rfl)
    | split
    | exact fun _ => wrap64_lt _
    | exact id
    | dsimp only

theorem State.correction_touches (s : State) (x : Nat) (c : Corr) :
    Touches [.regs, .flags, .counts, .flagAt, .recent, .ev, .queues, .convs, .engines, .mem] s (State.correction s x c) := by
  unfold State.correction
  try dsimp only
  repeat' first
    | with_reducible exact Touches.refl _ _
    | with_reducible assumption
    | ((with_reducible apply Touches.fst); · assumption)
    | ((with_reducible apply Touches.snd); · assumption)
    | with_reducible apply Touches.ite
    | (with_reducible apply Touches.foldl; on_goal 1 => intro _ _ _)
    | ((with_reducible apply Touches.step (State.stepCorr_touches ..)); · rfl)
    | ((with_reducible apply Touches.step (State.fgCorr_touches ..)); · rfl)
    | ((with_reducible apply Touches.step (State.background_touches ..)); · rfl)
    | split
    | exact fun _ => wrap64_lt _
    | exact id
    | dsimp only

theorem execCalCorrection_based (t : BitVec 64) (x : Fin 768) (v : Correction) (s : State) :
    ∃ t', execCalCorrection t x v s = .next t' ∧ Based [.now, .regs, .flags, .counts, .flagAt, .recent, .ev, .queues, .convs, .engines, .mem] s t' := by
  unfold execCalCorrection
  try dsimp only
  repeat' first
    | refine ⟨_, rfl, ?_⟩
    | with_reducible exact Based.refl _ _
    | with_reducible assumption
    | with_reducible exact Settled.refl
    | ((with_reducible apply Based.fst); · assumption)
    | ((with_reducible apply Based.snd); · assumption)
    | with_reducible apply Based.ite
    | (with_reducible apply Based.foldl; on_goal 1 => intro _ _ _)
    | ((with_reducible apply Based.step (State.correction_touches ..)); · rfl)
    | ((with_reducible apply State.upTo_based); · rfl)
    | split
    | exact fun _ => wrap64_lt _
    | exact id
    | dsimp only

theorem State.applyBoundary_touches (s : State) (x : Nat) :
    Touches [.convs] s (State.applyBoundary s x) := by
  unfold State.applyBoundary
  try dsimp only
  repeat' first
    | with_reducible exact Touches.refl _ _
    | with_reducible assumption
    | ((with_reducible apply Touches.fst); · assumption)
    | ((with_reducible apply Touches.snd); · assumption)
    | with_reducible apply Touches.ite
    | (with_reducible apply Touches.foldl; on_goal 1 => intro _ _ _)
    | ((with_reducible apply Touches.step (State.putCorr_touches ..)); · rfl)
    | split
    | exact fun _ => wrap64_lt _
    | exact id
    | dsimp only

theorem execCalApplyBoundary_based (t : BitVec 64) (x : Fin 768) (s : State) :
    ∃ t', execCalApplyBoundary t x s = .next t' ∧ Based [.now, .convs] s t' := by
  unfold execCalApplyBoundary
  try dsimp only
  repeat' first
    | refine ⟨_, rfl, ?_⟩
    | with_reducible exact Based.refl _ _
    | with_reducible assumption
    | with_reducible exact Settled.refl
    | ((with_reducible apply Based.fst); · assumption)
    | ((with_reducible apply Based.snd); · assumption)
    | with_reducible apply Based.ite
    | (with_reducible apply Based.foldl; on_goal 1 => intro _ _ _)
    | ((with_reducible apply Based.step (State.applyBoundary_touches ..)); · rfl)
    | ((with_reducible apply State.upTo_based); · rfl)
    | split
    | exact fun _ => wrap64_lt _
    | exact id
    | dsimp only

theorem State.rampDone_based (s : State) (x : Nat) :
    Based [.now, .convs] s (State.rampDone s x) := by
  unfold State.rampDone
  try dsimp only
  repeat' first
    | with_reducible exact Based.refl _ _
    | with_reducible assumption
    | with_reducible exact Settled.refl
    | ((with_reducible apply Based.fst); · assumption)
    | ((with_reducible apply Based.snd); · assumption)
    | with_reducible apply Based.ite
    | (with_reducible apply Based.foldl; on_goal 1 => intro _ _ _)
    | ((with_reducible apply Based.step (State.putCorr_touches ..)); · rfl)
    | ((with_reducible apply State.toTime_based); · rfl)
    | split
    | exact fun _ => wrap64_lt _
    | exact id
    | dsimp only

theorem execRampComplete_based (x : Fin 768) (s : State) :
    ∃ t', execRampComplete x s = .next t' ∧ Based [.now, .convs] s t' := by
  unfold execRampComplete
  try dsimp only
  repeat' first
    | refine ⟨_, rfl, ?_⟩
    | with_reducible exact Based.refl _ _
    | with_reducible assumption
    | with_reducible exact Settled.refl
    | ((with_reducible apply Based.fst); · assumption)
    | ((with_reducible apply Based.snd); · assumption)
    | with_reducible apply Based.ite
    | (with_reducible apply Based.foldl; on_goal 1 => intro _ _ _)
    | ((with_reducible apply Based.trans (State.rampDone_based ..)); · rfl)
    | split
    | exact fun _ => wrap64_lt _
    | exact id
    | dsimp only

theorem State.fgStart_touches (s : State) :
    Touches [.flags, .counts, .flagAt, .recent, .ev, .queues, .plies, .cores, .units, .outs, .inps, .rtones, .convs, .engines, .mem] s (State.fgStart s) := by
  unfold State.fgStart
  try dsimp only
  repeat' first
    | with_reducible exact Touches.refl _ _
    | with_reducible assumption
    | ((with_reducible apply Touches.fst); · assumption)
    | ((with_reducible apply Touches.snd); · assumption)
    | with_reducible apply Touches.ite
    | (with_reducible apply Touches.foldl; on_goal 1 => intro _ _ _)
    | ((with_reducible apply Touches.step (State.startPly_touches ..)); · rfl)
    | ((with_reducible apply Touches.step (State.setEngine_touches ..)); · rfl)
    | ((with_reducible apply Touches.step (State.calAbortIf_touches ..)); · rfl)
    | split
    | exact fun _ => wrap64_lt _
    | exact id
    | dsimp only

theorem State.fgOne_touches (s : State) (x e : Nat) :
    Touches [.convs] s (State.fgOne s x e) := by
  unfold State.fgOne
  try dsimp only
  repeat' first
    | with_reducible exact Touches.refl _ _
    | with_reducible assumption
    | ((with_reducible apply Touches.fst); · assumption)
    | ((with_reducible apply Touches.snd); · assumption)
    | with_reducible apply Touches.ite
    | (with_reducible apply Touches.foldl; on_goal 1 => intro _ _ _)
    | ((with_reducible apply Touches.step (State.setConv_touches ..)); · rfl)
    | split
    | exact fun _ => wrap64_lt _
    | exact id
    | dsimp only

theorem State.fgFinish_touches (s : State) (e : Nat) :
    Touches [.convs, .engines] s (State.fgFinish s e) := by
  unfold State.fgFinish
  try dsimp only
  repeat' first
    | with_reducible exact Touches.refl _ _
    | with_reducible assumption
    | ((with_reducible apply Touches.fst); · assumption)
    | ((with_reducible apply Touches.snd); · assumption)
    | with_reducible apply Touches.ite
    | (with_reducible apply Touches.foldl; on_goal 1 => intro _ _ _)
    | ((with_reducible apply Touches.step (State.fgOne_touches ..)); · rfl)
    | ((with_reducible apply Touches.step (State.setEngine_touches ..)); · rfl)
    | split
    | exact fun _ => wrap64_lt _
    | exact id
    | dsimp only

theorem State.fgDone_touches (s : State) :
    Touches [.mode] s (State.fgDone s) := by
  unfold State.fgDone
  try dsimp only
  repeat' first
    | with_reducible exact Touches.refl _ _
    | with_reducible assumption
    | ((with_reducible apply Touches.fst); · assumption)
    | ((with_reducible apply Touches.snd); · assumption)
    | with_reducible apply Touches.ite
    | (with_reducible apply Touches.foldl; on_goal 1 => intro _ _ _)
    | ((with_reducible apply Touches.step (State.beginTrans_touches ..)); · rfl)
    | split
    | exact fun _ => wrap64_lt _
    | exact id
    | dsimp only

theorem execFgCalDone_based (t : BitVec 64) (s : State) :
    ∃ t', execFgCalDone t s = .next t' ∧ Based [.now, .mode] s t' := by
  unfold execFgCalDone
  try dsimp only
  repeat' first
    | refine ⟨_, rfl, ?_⟩
    | with_reducible exact Based.refl _ _
    | with_reducible assumption
    | with_reducible exact Settled.refl
    | ((with_reducible apply Based.fst); · assumption)
    | ((with_reducible apply Based.snd); · assumption)
    | with_reducible apply Based.ite
    | (with_reducible apply Based.foldl; on_goal 1 => intro _ _ _)
    | ((with_reducible apply Based.step (State.fgDone_touches ..)); · rfl)
    | ((with_reducible apply State.upTo_based); · rfl)
    | split
    | exact fun _ => wrap64_lt _
    | exact id
    | dsimp only

end Sys2Proof.Machine
end

