-- ==== Sys2Proof/Laws/TouchMemInt.lean ====
section
/-! SUPPORT. The parts of the state that each operation of Machine/MemInt.lean can change. -/

namespace Sys2Proof.Machine

open Sys2Proof

theorem State.setMem_touches (s : State) (x : MemSt) :
    Touches [.mem] s (State.setMem s x) := by
  unfold State.setMem
  try dsimp only
  repeat' first
    | with_reducible exact Touches.refl _ _
    | with_reducible assumption
    | ((with_reducible apply Touches.fst); · assumption)
    | ((with_reducible apply Touches.snd); · assumption)
    | with_reducible apply Touches.ite
    | (with_reducible apply Touches.foldl; on_goal 1 => intro _ _ _)
    | ((with_reducible apply Touches.upd_mem); · rfl)
    | split
    | exact fun _ => wrap64_lt _
    | exact id
    | dsimp only

theorem State.putMark_touches (s : State) (w : Word) :
    Touches [.regs, .pwr] s (State.putMark s w) := by
  unfold State.putMark
  try dsimp only
  repeat' first
    | with_reducible exact Touches.refl _ _
    | with_reducible assumption
    | ((with_reducible apply Touches.fst); · assumption)
    | ((with_reducible apply Touches.snd); · assumption)
    | with_reducible apply Touches.ite
    | (with_reducible apply Touches.foldl; on_goal 1 => intro _ _ _)
    | ((with_reducible apply Touches.step (State.toJournal_touches ..)); · rfl)
    | ((with_reducible apply Touches.step (State.setReg_touches ..)); · rfl)
    | split
    | exact fun _ => wrap64_lt _
    | exact id
    | dsimp only

theorem State.overThr_touches (s : State) (d : Nat) :
    Touches [.regs, .flags, .counts, .flagAt, .recent, .ev, .queues, .pwr, .mem] s (State.overThr s d) := by
  unfold State.overThr
  try dsimp only
  repeat' first
    | with_reducible exact Touches.refl _ _
    | with_reducible assumption
    | ((with_reducible apply Touches.fst); · assumption)
    | ((with_reducible apply Touches.snd); · assumption)
    | with_reducible apply Touches.ite
    | (with_reducible apply Touches.foldl; on_goal 1 => intro _ _ _)
    | ((with_reducible apply Touches.step (State.raise_touches ..)); · rfl)
    | ((with_reducible apply Touches.step (State.putMark_touches ..)); · rfl)
    | split
    | exact fun _ => wrap64_lt _
    | exact id
    | dsimp only

theorem State.dieCorrected_touches (s : State) (d n : Nat) :
    Touches [.regs, .flags, .counts, .flagAt, .recent, .ev, .queues, .pwr, .mem] s (State.dieCorrected s d n) := by
  unfold State.dieCorrected
  try dsimp only
  repeat' first
    | with_reducible exact Touches.refl _ _
    | with_reducible assumption
    | ((with_reducible apply Touches.fst); · assumption)
    | ((with_reducible apply Touches.snd); · assumption)
    | with_reducible apply Touches.ite
    | (with_reducible apply Touches.foldl; on_goal 1 => intro _ _ _)
    | ((with_reducible apply Touches.step (State.setMem_touches ..)); · rfl)
    | ((with_reducible apply Touches.step (State.bump_touches ..)); · rfl)
    | ((with_reducible apply Touches.step (State.raise_touches ..)); · rfl)
    | ((with_reducible apply Touches.step (State.overThr_touches ..)); · rfl)
    | split
    | exact fun _ => wrap64_lt _
    | exact id
    | dsimp only

theorem State.codewordRead_touches (s : State) (c : Nat) (bad : List Nat) :
    Touches [.regs, .flags, .counts, .flagAt, .recent, .ev, .queues, .pwr, .mem] s (State.codewordRead s c bad) := by
  unfold State.codewordRead
  try dsimp only
  repeat' first
    | with_reducible exact Touches.refl _ _
    | with_reducible assumption
    | ((with_reducible apply Touches.fst); · assumption)
    | ((with_reducible apply Touches.snd); · assumption)
    | with_reducible apply Touches.ite
    | (with_reducible apply Touches.foldl; on_goal 1 => intro _ _ _)
    | ((with_reducible apply Touches.step (State.setMem_touches ..)); · rfl)
    | ((with_reducible apply Touches.step (State.memUe_touches ..)); · rfl)
    | ((with_reducible apply Touches.step (State.dieCorrected_touches ..)); · rfl)
    | ((with_reducible apply Touches.step (State.bump_touches ..)); · rfl)
    | split
    | exact fun _ => wrap64_lt _
    | exact id
    | dsimp only

theorem State.scrubRead_touches (s : State) (bad : List Nat) :
    Touches [.regs, .flags, .counts, .flagAt, .recent, .ev, .queues, .pwr, .mem] s (State.scrubRead s bad) := by
  unfold State.scrubRead
  try dsimp only
  repeat' first
    | with_reducible exact Touches.refl _ _
    | with_reducible assumption
    | ((with_reducible apply Touches.fst); · assumption)
    | ((with_reducible apply Touches.snd); · assumption)
    | with_reducible apply Touches.ite
    | (with_reducible apply Touches.foldl; on_goal 1 => intro _ _ _)
    | ((with_reducible apply Touches.step (State.codewordRead_touches ..)); · rfl)
    | ((with_reducible apply Touches.step (State.setMem_touches ..)); · rfl)
    | split
    | exact fun _ => wrap64_lt _
    | exact id
    | dsimp only

theorem execScrubRead_touches (t : BitVec 64) (bad : List (Fin 68)) (s : State) :
    ∃ t', execScrubRead t bad s = .next t' ∧ Touches [.now, .regs, .flags, .counts, .flagAt, .recent, .ev, .queues, .pwr, .mem] s t' := by
  unfold execScrubRead
  try dsimp only
  repeat' first
    | refine ⟨_, rfl, ?_⟩
    | with_reducible exact Touches.refl _ _
    | with_reducible assumption
    | ((with_reducible apply Touches.fst); · assumption)
    | ((with_reducible apply Touches.snd); · assumption)
    | with_reducible apply Touches.ite
    | (with_reducible apply Touches.foldl; on_goal 1 => intro _ _ _)
    | ((with_reducible apply Touches.step (State.scrubRead_touches ..)); · rfl)
    | ((with_reducible apply Touches.step (State.at_touches ..)); · rfl)
    | split
    | exact fun _ => wrap64_lt _
    | exact id
    | dsimp only

theorem State.stagedBad_touches (s : State) (k word : Nat) :
    Touches [.strands] s (State.stagedBad s k word) := by
  unfold State.stagedBad
  try dsimp only
  repeat' first
    | with_reducible exact Touches.refl _ _
    | with_reducible assumption
    | ((with_reducible apply Touches.fst); · assumption)
    | ((with_reducible apply Touches.snd); · assumption)
    | with_reducible apply Touches.ite
    | (with_reducible apply Touches.foldl; on_goal 1 => intro _ _ _)
    | ((with_reducible apply Touches.step (State.setStrand_touches ..)); · rfl)
    | split
    | exact fun _ => wrap64_lt _
    | exact id
    | dsimp only

theorem State.sramScrub_touches (s : State) (m : SramId) (word : Nat) (e : SramError) :
    Touches [.flags, .counts, .flagAt, .recent, .ev, .queues, .strands, .badWords, .mem] s (State.sramScrub s m word e) := by
  unfold State.sramScrub
  try dsimp only
  repeat' first
    | with_reducible exact Touches.refl _ _
    | with_reducible assumption
    | ((with_reducible apply Touches.fst); · assumption)
    | ((with_reducible apply Touches.snd); · assumption)
    | with_reducible apply Touches.ite
    | (with_reducible apply Touches.foldl; on_goal 1 => intro _ _ _)
    | split
    | ((with_reducible apply Touches.step (State.bump_touches ..)); · rfl)
    | ((with_reducible apply Touches.step (State.raise_touches ..)); · rfl)
    | ((with_reducible apply Touches.step (State.setMem_touches ..)); · rfl)
    | ((with_reducible apply Touches.step (State.sramUe_touches ..)); · rfl)
    | ((with_reducible apply Touches.step (State.stagedBad_touches ..)); · rfl)
    | ((with_reducible apply Touches.upd_badWords); · rfl)
    | exact fun _ => wrap64_lt _
    | exact id
    | dsimp only

theorem execSramScrub_touches (t : BitVec 64) (m : SramId) (word : Nat) (e : SramError) (s : State) :
    ∃ t', execSramScrub t m word e s = .next t' ∧ Touches [.now, .flags, .counts, .flagAt, .recent, .ev, .queues, .strands, .badWords, .mem] s t' := by
  unfold execSramScrub
  try dsimp only
  repeat' first
    | refine ⟨_, rfl, ?_⟩
    | with_reducible exact Touches.refl _ _
    | with_reducible assumption
    | ((with_reducible apply Touches.fst); · assumption)
    | ((with_reducible apply Touches.snd); · assumption)
    | with_reducible apply Touches.ite
    | (with_reducible apply Touches.foldl; on_goal 1 => intro _ _ _)
    | ((with_reducible apply Touches.step (State.sramScrub_touches ..)); · rfl)
    | ((with_reducible apply Touches.step (State.at_touches ..)); · rfl)
    | split
    | exact fun _ => wrap64_lt _
    | exact id
    | dsimp only

theorem State.settlePly_touches (s : State) (p : Nat) :
    Touches [.queues, .units] s (State.settlePly s p) := by
  unfold State.settlePly
  try dsimp only
  repeat' first
    | with_reducible exact Touches.refl _ _
    | with_reducible assumption
    | ((with_reducible apply Touches.fst); · assumption)
    | ((with_reducible apply Touches.snd); · assumption)
    | with_reducible apply Touches.ite
    | (with_reducible apply Touches.foldl; on_goal 1 => intro _ _ _)
    | ((with_reducible apply Touches.step (State.settleStream_touches ..)); · rfl)
    | split
    | exact fun _ => wrap64_lt _
    | exact id
    | dsimp only

theorem State.flitFail_touches (s : State) (p failures : Nat) :
    Touches [.flags, .counts, .flagAt, .recent, .ev, .queues, .plies, .units, .mem] s (State.flitFail s p failures) := by
  unfold State.flitFail
  try dsimp only
  repeat' first
    | with_reducible exact Touches.refl _ _
    | with_reducible assumption
    | ((with_reducible apply Touches.fst); · assumption)
    | ((with_reducible apply Touches.snd); · assumption)
    | with_reducible apply Touches.ite
    | (with_reducible apply Touches.foldl; on_goal 1 => intro _ _ _)
    | ((with_reducible apply Touches.step (State.bump_touches ..)); · rfl)
    | ((with_reducible apply Touches.step (State.settlePly_touches ..)); · rfl)
    | ((with_reducible apply Touches.step (State.raise_touches ..)); · rfl)
    | ((with_reducible apply Touches.step (State.setPly_touches ..)); · rfl)
    | split
    | exact fun _ => wrap64_lt _
    | exact id
    | dsimp only

theorem execFlitCrcFail_touches (t : BitVec 64) (p : Fin 4) (failures : Nat) (s : State) :
    ∃ t', execFlitCrcFail t p failures s = .next t' ∧ Touches [.now, .flags, .counts, .flagAt, .recent, .ev, .queues, .plies, .units, .mem] s t' := by
  unfold execFlitCrcFail
  try dsimp only
  repeat' first
    | refine ⟨_, rfl, ?_⟩
    | with_reducible exact Touches.refl _ _
    | with_reducible assumption
    | ((with_reducible apply Touches.fst); · assumption)
    | ((with_reducible apply Touches.snd); · assumption)
    | with_reducible apply Touches.ite
    | (with_reducible apply Touches.foldl; on_goal 1 => intro _ _ _)
    | ((with_reducible apply Touches.step (State.flitFail_touches ..)); · rfl)
    | ((with_reducible apply Touches.step (State.at_touches ..)); · rfl)
    | split
    | exact fun _ => wrap64_lt _
    | exact id
    | dsimp only

theorem State.retrained_touches (s : State) (p t : Nat) :
    Touches [.now, .queues, .plies, .units] s (State.retrained s p t) := by
  unfold State.retrained
  try dsimp only
  repeat' first
    | with_reducible exact Touches.refl _ _
    | with_reducible assumption
    | ((with_reducible apply Touches.fst); · assumption)
    | ((with_reducible apply Touches.snd); · assumption)
    | with_reducible apply Touches.ite
    | (with_reducible apply Touches.foldl; on_goal 1 => intro _ _ _)
    | ((with_reducible apply Touches.step (State.settlePly_touches ..)); · rfl)
    | ((with_reducible apply Touches.step (State.clockTo_touches ..)); · rfl)
    | ((with_reducible apply Touches.step (State.setPly_touches ..)); · rfl)
    | split
    | exact fun _ => wrap64_lt _
    | exact id
    | dsimp only

theorem execD2dRetrainDone_touches (t : BitVec 64) (p : Fin 4) (s : State) :
    ∃ t', execD2dRetrainDone t p s = .next t' ∧ Touches [.now, .queues, .plies, .units] s t' := by
  unfold execD2dRetrainDone
  try dsimp only
  repeat' first
    | refine ⟨_, rfl, ?_⟩
    | with_reducible exact Touches.refl _ _
    | with_reducible assumption
    | ((with_reducible apply Touches.fst); · assumption)
    | ((with_reducible apply Touches.snd); · assumption)
    | with_reducible apply Touches.ite
    | (with_reducible apply Touches.foldl; on_goal 1 => intro _ _ _)
    | ((with_reducible apply Touches.step (State.retrained_touches ..)); · rfl)
    | split
    | exact fun _ => wrap64_lt _
    | exact id
    | dsimp only

theorem State.wrDieMark_touches (s : State) (w : Word) :
    Touches [.regs, .pwr] s (State.wrDieMark s w) := by
  unfold State.wrDieMark
  try dsimp only
  repeat' first
    | with_reducible exact Touches.refl _ _
    | with_reducible assumption
    | ((with_reducible apply Touches.fst); · assumption)
    | ((with_reducible apply Touches.snd); · assumption)
    | with_reducible apply Touches.ite
    | (with_reducible apply Touches.foldl; on_goal 1 => intro _ _ _)
    | ((with_reducible apply Touches.step (State.putMark_touches ..)); · rfl)
    | split
    | exact fun _ => wrap64_lt _
    | exact id
    | dsimp only

theorem execDiemarkWrite_touches (t : BitVec 64) (w : Word) (s : State) :
    ∃ t', execDiemarkWrite t w s = .next t' ∧ Touches [.now, .regs, .pwr] s t' := by
  unfold execDiemarkWrite
  try dsimp only
  repeat' first
    | refine ⟨_, rfl, ?_⟩
    | with_reducible exact Touches.refl _ _
    | with_reducible assumption
    | ((with_reducible apply Touches.fst); · assumption)
    | ((with_reducible apply Touches.snd); · assumption)
    | with_reducible apply Touches.ite
    | (with_reducible apply Touches.foldl; on_goal 1 => intro _ _ _)
    | ((with_reducible apply Touches.step (State.at_touches ..)); · rfl)
    | ((with_reducible apply Touches.step (State.wrDieMark_touches ..)); · rfl)
    | split
    | exact fun _ => wrap64_lt _
    | exact id
    | dsimp only

theorem State.startTest_touches (s : State) :
    Touches [.mem] s (State.startTest s) := by
  unfold State.startTest
  try dsimp only
  repeat' first
    | with_reducible exact Touches.refl _ _
    | with_reducible assumption
    | ((with_reducible apply Touches.fst); · assumption)
    | ((with_reducible apply Touches.snd); · assumption)
    | with_reducible apply Touches.ite
    | (with_reducible apply Touches.foldl; on_goal 1 => intro _ _ _)
    | ((with_reducible apply Touches.step (State.setMem_touches ..)); · rfl)
    | split
    | exact fun _ => wrap64_lt _
    | exact id
    | dsimp only

theorem State.abortTest_touches (s : State) :
    Touches [.mem] s (State.abortTest s) := by
  unfold State.abortTest
  try dsimp only
  repeat' first
    | with_reducible exact Touches.refl _ _
    | with_reducible assumption
    | ((with_reducible apply Touches.fst); · assumption)
    | ((with_reducible apply Touches.snd); · assumption)
    | with_reducible apply Touches.ite
    | (with_reducible apply Touches.foldl; on_goal 1 => intro _ _ _)
    | ((with_reducible apply Touches.step (State.setMem_touches ..)); · rfl)
    | split
    | exact fun _ => wrap64_lt _
    | exact id
    | dsimp only

theorem State.wrTestCtl_touches (s : State) (w : Word) :
    Touches [.regs, .mem] s (State.wrTestCtl s w) := by
  unfold State.wrTestCtl
  try dsimp only
  repeat' first
    | with_reducible exact Touches.refl _ _
    | with_reducible assumption
    | ((with_reducible apply Touches.fst); · assumption)
    | ((with_reducible apply Touches.snd); · assumption)
    | with_reducible apply Touches.ite
    | (with_reducible apply Touches.foldl; on_goal 1 => intro _ _ _)
    | ((with_reducible apply Touches.step (State.writeFields_touches ..)); · rfl)
    | ((with_reducible apply Touches.step (State.abortTest_touches ..)); · rfl)
    | ((with_reducible apply Touches.step (State.startTest_touches ..)); · rfl)
    | split
    | exact fun _ => wrap64_lt _
    | exact id
    | dsimp only

theorem execMemTestStart_touches (t : BitVec 64) (w : Word) (s : State) :
    ∃ t', execMemTestStart t w s = .next t' ∧ Touches [.now, .regs, .mem] s t' := by
  unfold execMemTestStart
  try dsimp only
  repeat' first
    | refine ⟨_, rfl, ?_⟩
    | with_reducible exact Touches.refl _ _
    | with_reducible assumption
    | ((with_reducible apply Touches.fst); · assumption)
    | ((with_reducible apply Touches.snd); · assumption)
    | with_reducible apply Touches.ite
    | (with_reducible apply Touches.foldl; on_goal 1 => intro _ _ _)
    | ((with_reducible apply Touches.step (State.at_touches ..)); · rfl)
    | ((with_reducible apply Touches.step (State.wrTestCtl_touches ..)); · rfl)
    | split
    | exact fun _ => wrap64_lt _
    | exact id
    | dsimp only

theorem execMemTestAbort_touches (t : BitVec 64) (w : Word) (s : State) :
    ∃ t', execMemTestAbort t w s = .next t' ∧ Touches [.now, .regs, .mem] s t' := by
  unfold execMemTestAbort
  try dsimp only
  repeat' first
    | refine ⟨_, rfl, ?_⟩
    | with_reducible exact Touches.refl _ _
    | with_reducible assumption
    | ((with_reducible apply Touches.fst); · assumption)
    | ((with_reducible apply Touches.snd); · assumption)
    | with_reducible apply Touches.ite
    | (with_reducible apply Touches.foldl; on_goal 1 => intro _ _ _)
    | ((with_reducible apply Touches.step (State.at_touches ..)); · rfl)
    | ((with_reducible apply Touches.step (State.wrTestCtl_touches ..)); · rfl)
    | split
    | exact fun _ => wrap64_lt _
    | exact id
    | dsimp only

theorem State.reinit_touches (s : State) (x : MemTest) :
    Touches [.strands, .badWords, .mem, .hbm, .seqSram, .envSram, .kernel] s (State.reinit s x) := by
  unfold State.reinit
  try dsimp only
  repeat' first
    | with_reducible exact Touches.refl _ _
    | with_reducible assumption
    | ((with_reducible apply Touches.fst); · assumption)
    | ((with_reducible apply Touches.snd); · assumption)
    | with_reducible apply Touches.ite
    | (with_reducible apply Touches.foldl; on_goal 1 => intro _ _ _)
    | ((with_reducible apply Touches.step (State.setStrand_touches ..)); · rfl)
    | ((with_reducible apply Touches.upd_badWords_envSram); · rfl)
    | ((with_reducible apply Touches.upd_badWords_kernel); · rfl)
    | ((with_reducible apply Touches.upd_badWords_seqSram); · rfl)
    | ((with_reducible apply Touches.upd_mem_hbm); · rfl)
    | split
    | exact fun _ => wrap64_lt _
    | exact id
    | dsimp only

theorem State.testOutcome_touches (s : State) (x : MemTest) (fails first symbol : Nat) :
    Touches [.counts, .recent, .mem] s (State.testOutcome s x fails first symbol) := by
  unfold State.testOutcome
  try dsimp only
  repeat' first
    | with_reducible exact Touches.refl _ _
    | with_reducible assumption
    | ((with_reducible apply Touches.fst); · assumption)
    | ((with_reducible apply Touches.snd); · assumption)
    | with_reducible apply Touches.ite
    | (with_reducible apply Touches.foldl; on_goal 1 => intro _ _ _)
    | ((with_reducible apply Touches.step (State.bump_touches ..)); · rfl)
    | ((with_reducible apply Touches.step (State.setMem_touches ..)); · rfl)
    | split
    | exact fun _ => wrap64_lt _
    | exact id
    | dsimp only

theorem State.testEnd_touches (s : State) (fails first symbol : Nat) :
    Touches [.counts, .recent, .mode, .strands, .badWords, .mem, .hbm, .seqSram, .envSram, .kernel] s (State.testEnd s fails first symbol) := by
  unfold State.testEnd
  try dsimp only
  repeat' first
    | with_reducible exact Touches.refl _ _
    | with_reducible assumption
    | ((with_reducible apply Touches.fst); · assumption)
    | ((with_reducible apply Touches.snd); · assumption)
    | with_reducible apply Touches.ite
    | (with_reducible apply Touches.foldl; on_goal 1 => intro _ _ _)
    | ((with_reducible apply Touches.step (State.reinit_touches ..)); · rfl)
    | ((with_reducible apply Touches.step (State.testOutcome_touches ..)); · rfl)
    | ((with_reducible apply Touches.step (State.beginTrans_touches ..)); · rfl)
    | ((with_reducible apply Touches.step (State.setMode_touches ..)); · rfl)
    | split
    | exact fun _ => wrap64_lt _
    | exact id
    | dsimp only

theorem execMemTestEnd_touches (t : BitVec 64) (fails : Nat) (first : BitVec 64) (symbol : Fin 68) (s : State) :
    ∃ t', execMemTestEnd t fails first symbol s = .next t' ∧ Touches [.now, .counts, .recent, .mode, .strands, .badWords, .mem, .hbm, .seqSram, .envSram, .kernel] s t' := by
  unfold execMemTestEnd
  try dsimp only
  repeat' first
    | refine ⟨_, rfl, ?_⟩
    | with_reducible exact Touches.refl _ _
    | with_reducible assumption
    | ((with_reducible apply Touches.fst); · assumption)
    | ((with_reducible apply Touches.snd); · assumption)
    | with_reducible apply Touches.ite
    | (with_reducible apply Touches.foldl; on_goal 1 => intro _ _ _)
    | ((with_reducible apply Touches.step (State.testEnd_touches ..)); · rfl)
    | ((with_reducible apply Touches.step (State.at_touches ..)); · rfl)
    | split
    | exact fun _ => wrap64_lt _
    | exact id
    | dsimp only

end Sys2Proof.Machine
end

