-- ==== Sys2Proof/Laws/TouchModes.lean ====
section
/-! SUPPORT. The parts of the state that each operation of Machine/Modes.lean can change. -/

namespace Sys2Proof.Machine

open Sys2Proof

theorem State.rampLevels_touches (s : State) (t : Nat) :
    Touches [.flags, .counts, .flagAt, .recent, .ev, .queues, .cores, .units, .outs, .mem] s (State.rampLevels s t) := by
  unfold State.rampLevels
  try dsimp only
  repeat' first
    | with_reducible exact Touches.refl _ _
    | with_reducible assumption
    | ((with_reducible apply Touches.fst); · assumption)
    | ((with_reducible apply Touches.snd); · assumption)
    | with_reducible apply Touches.ite
    | (with_reducible apply Touches.foldl; on_goal 1 => intro _ _ _)
    | ((with_reducible apply Touches.step (State.settleChain_touches ..)); · rfl)
    | ((with_reducible apply Touches.step (State.setOut_touches ..)); · rfl)
    | split
    | exact fun _ => wrap64_lt _
    | exact id
    | dsimp only

theorem State.stopAll_touches (s : State) (t : Nat) :
    Touches [.regs, .frameLog, .flags, .counts, .flagAt, .recent, .ev, .queues, .strands, .cores, .units, .outs, .inps, .rtones, .mem] s (State.stopAll s t) := by
  unfold State.stopAll
  try dsimp only
  repeat' first
    | with_reducible exact Touches.refl _ _
    | with_reducible assumption
    | ((with_reducible apply Touches.fst); · assumption)
    | ((with_reducible apply Touches.snd); · assumption)
    | with_reducible apply Touches.ite
    | (with_reducible apply Touches.foldl; on_goal 1 => intro _ _ _)
    | ((with_reducible apply Touches.step (State.withdraw_touches ..)); · rfl)
    | ((with_reducible apply Touches.step (State.closeWins_touches ..)); · rfl)
    | ((with_reducible apply Touches.step (State.rampUnits_touches ..)); · rfl)
    | ((with_reducible apply Touches.step (State.mapCores_touches ..)); · rfl)
    | ((with_reducible apply Touches.step (State.unbind_touches ..)); · rfl)
    | ((with_reducible apply Touches.step (State.endAllShots_touches ..)); · rfl)
    | ((with_reducible apply Touches.step (State.setCore_touches ..)); · rfl)
    | ((with_reducible apply Touches.step (State.flushCores_touches ..)); · rfl)
    | ((with_reducible apply Touches.step (State.holdAllOuts_touches ..)); · rfl)
    | ((with_reducible apply Touches.step (State.rampLevels_touches ..)); · rfl)
    | split
    | exact fun _ => wrap64_lt _
    | exact id
    | dsimp only

theorem State.askAck_touches (s : State) :
    Touches [.flags, .counts, .flagAt, .recent, .ev, .queues, .mode, .mem] s (State.askAck s) := by
  unfold State.askAck
  try dsimp only
  repeat' first
    | with_reducible exact Touches.refl _ _
    | with_reducible assumption
    | ((with_reducible apply Touches.fst); · assumption)
    | ((with_reducible apply Touches.snd); · assumption)
    | with_reducible apply Touches.ite
    | (with_reducible apply Touches.foldl; on_goal 1 => intro _ _ _)
    | ((with_reducible apply Touches.step (State.beginTrans_touches ..)); · rfl)
    | ((with_reducible apply Touches.step (State.refuse_touches ..)); · rfl)
    | split
    | exact fun _ => wrap64_lt _
    | exact id
    | dsimp only

theorem State.askReset_touches (s : State) :
    Touches [.flags, .counts, .flagAt, .recent, .ev, .queues, .mode, .mem] s (State.askReset s) := by
  unfold State.askReset
  try dsimp only
  repeat' first
    | with_reducible exact Touches.refl _ _
    | with_reducible assumption
    | ((with_reducible apply Touches.fst); · assumption)
    | ((with_reducible apply Touches.snd); · assumption)
    | with_reducible apply Touches.ite
    | (with_reducible apply Touches.foldl; on_goal 1 => intro _ _ _)
    | ((with_reducible apply Touches.step (State.refuse_touches ..)); · rfl)
    | ((with_reducible apply Touches.step (State.beginTrans_touches ..)); · rfl)
    | split
    | exact fun _ => wrap64_lt _
    | exact id
    | dsimp only

theorem State.askRun_touches (s : State) :
    Touches [.flags, .counts, .flagAt, .recent, .ev, .queues, .mode, .mem] s (State.askRun s) := by
  unfold State.askRun
  try dsimp only
  repeat' first
    | with_reducible exact Touches.refl _ _
    | with_reducible assumption
    | ((with_reducible apply Touches.fst); · assumption)
    | ((with_reducible apply Touches.snd); · assumption)
    | with_reducible apply Touches.ite
    | (with_reducible apply Touches.foldl; on_goal 1 => intro _ _ _)
    | ((with_reducible apply Touches.step (State.refuse_touches ..)); · rfl)
    | ((with_reducible apply Touches.step (State.setMode_touches ..)); · rfl)
    | ((with_reducible apply Touches.step (State.startRun_touches ..)); · rfl)
    | ((with_reducible apply Touches.step (State.startResume_touches ..)); · rfl)
    | split
    | exact fun _ => wrap64_lt _
    | exact id
    | dsimp only

theorem State.askReady_touches (s : State) :
    Touches [.regs, .frameLog, .flags, .counts, .flagAt, .recent, .ev, .queues, .mode, .strands, .cores, .units, .outs, .inps, .rtones, .mem] s (State.askReady s) := by
  unfold State.askReady
  try dsimp only
  repeat' first
    | with_reducible exact Touches.refl _ _
    | with_reducible assumption
    | ((with_reducible apply Touches.fst); · assumption)
    | ((with_reducible apply Touches.snd); · assumption)
    | with_reducible apply Touches.ite
    | (with_reducible apply Touches.foldl; on_goal 1 => intro _ _ _)
    | ((with_reducible apply Touches.step (State.beginTrans_touches ..)); · rfl)
    | ((with_reducible apply Touches.step (State.stopAll_touches ..)); · rfl)
    | ((with_reducible apply Touches.step (State.setMode_touches ..)); · rfl)
    | ((with_reducible apply Touches.step (State.abortTest_touches ..)); · rfl)
    | ((with_reducible apply Touches.step (State.refuse_touches ..)); · rfl)
    | split
    | exact fun _ => wrap64_lt _
    | exact id
    | dsimp only

theorem State.carryOut_touches (s : State) (r : Req) :
    Touches [.regs, .frameLog, .flags, .counts, .flagAt, .recent, .ev, .queues, .mode, .strands, .cores, .units, .outs, .inps, .rtones, .mem] s (State.carryOut s r) := by
  unfold State.carryOut
  try dsimp only
  repeat' first
    | with_reducible exact Touches.refl _ _
    | with_reducible assumption
    | ((with_reducible apply Touches.fst); · assumption)
    | ((with_reducible apply Touches.snd); · assumption)
    | with_reducible apply Touches.ite
    | (with_reducible apply Touches.foldl; on_goal 1 => intro _ _ _)
    | ((with_reducible apply Touches.step (State.askRun_touches ..)); · rfl)
    | ((with_reducible apply Touches.step (State.startHold_touches ..)); · rfl)
    | ((with_reducible apply Touches.step (State.setMode_touches ..)); · rfl)
    | ((with_reducible apply Touches.step (State.refuse_touches ..)); · rfl)
    | ((with_reducible apply Touches.step (State.askReady_touches ..)); · rfl)
    | ((with_reducible apply Touches.step (State.beginTrans_touches ..)); · rfl)
    | ((with_reducible apply Touches.step (State.askAck_touches ..)); · rfl)
    | ((with_reducible apply Touches.step (State.askReset_touches ..)); · rfl)
    | split
    | exact fun _ => wrap64_lt _
    | exact id
    | dsimp only

theorem State.request_touches (s : State) (r : Req) :
    Touches [.regs, .frameLog, .flags, .counts, .flagAt, .recent, .ev, .queues, .mode, .strands, .cores, .units, .outs, .inps, .rtones, .mem] s (State.request s r) := by
  unfold State.request
  try dsimp only
  repeat' first
    | with_reducible exact Touches.refl _ _
    | with_reducible assumption
    | ((with_reducible apply Touches.fst); · assumption)
    | ((with_reducible apply Touches.snd); · assumption)
    | with_reducible apply Touches.ite
    | (with_reducible apply Touches.foldl; on_goal 1 => intro _ _ _)
    | ((with_reducible apply Touches.step (State.setMode_touches ..)); · rfl)
    | ((with_reducible apply Touches.step (State.carryOut_touches ..)); · rfl)
    | split
    | exact fun _ => wrap64_lt _
    | exact id
    | dsimp only

theorem State.carryPend_touches (s : State) :
    Touches [.regs, .frameLog, .flags, .counts, .flagAt, .recent, .ev, .queues, .mode, .strands, .cores, .units, .outs, .inps, .rtones, .mem] s (State.carryPend s) := by
  unfold State.carryPend
  try dsimp only
  repeat' first
    | with_reducible exact Touches.refl _ _
    | with_reducible assumption
    | ((with_reducible apply Touches.fst); · assumption)
    | ((with_reducible apply Touches.snd); · assumption)
    | with_reducible apply Touches.ite
    | (with_reducible apply Touches.foldl; on_goal 1 => intro _ _ _)
    | ((with_reducible apply Touches.step (State.carryOut_touches ..)); · rfl)
    | ((with_reducible apply Touches.step (State.setMode_touches ..)); · rfl)
    | split
    | exact fun _ => wrap64_lt _
    | exact id
    | dsimp only

theorem State.wrModeCtl_touches (s : State) (w : Word) :
    Touches [.regs, .frameLog, .flags, .counts, .flagAt, .recent, .ev, .queues, .mode, .strands, .cores, .units, .outs, .inps, .rtones, .mem] s (State.wrModeCtl s w) := by
  unfold State.wrModeCtl
  try dsimp only
  repeat' first
    | with_reducible exact Touches.refl _ _
    | with_reducible assumption
    | ((with_reducible apply Touches.fst); · assumption)
    | ((with_reducible apply Touches.snd); · assumption)
    | with_reducible apply Touches.ite
    | (with_reducible apply Touches.foldl; on_goal 1 => intro _ _ _)
    | ((with_reducible apply Touches.step (State.refreshHold_touches ..)); · rfl)
    | ((with_reducible apply Touches.step (State.setFld_touches ..)); · rfl)
    | ((with_reducible apply Touches.step (State.evalHold_touches ..)); · rfl)
    | ((with_reducible apply Touches.step (State.request_touches ..)); · rfl)
    | split
    | exact fun _ => wrap64_lt _
    | exact id
    | dsimp only

theorem execReqRun_based (t : BitVec 64) (hw hr : Bool) (s : State) :
    ∃ t', execReqRun t hw hr s = .next t' ∧ Based [.now, .regs, .frameLog, .flags, .counts, .flagAt, .recent, .ev, .queues, .mode, .strands, .cores, .units, .outs, .inps, .rtones, .mem] s t' := by
  unfold execReqRun
  try dsimp only
  repeat' first
    | refine ⟨_, rfl, ?_⟩
    | with_reducible exact Based.refl _ _
    | with_reducible assumption
    | with_reducible exact Settled.refl
    | ((with_reducible apply Based.fst); · assumption)
    | ((with_reducible apply Based.snd); · assumption)
    | with_reducible apply Based.ite
    | (with_reducible apply Based.foldl; on_goal 1 => intro _ _ _)
    | ((with_reducible apply Based.step (State.wrModeCtl_touches ..)); · rfl)
    | ((with_reducible apply State.upTo_based); · rfl)
    | split
    | exact fun _ => wrap64_lt _
    | exact id
    | dsimp only

theorem execReqHold_based (t : BitVec 64) (hw hr : Bool) (s : State) :
    ∃ t', execReqHold t hw hr s = .next t' ∧ Based [.now, .regs, .frameLog, .flags, .counts, .flagAt, .recent, .ev, .queues, .mode, .strands, .cores, .units, .outs, .inps, .rtones, .mem] s t' := by
  unfold execReqHold
  try dsimp only
  repeat' first
    | refine ⟨_, rfl, ?_⟩
    | with_reducible exact Based.refl _ _
    | with_reducible assumption
    | with_reducible exact Settled.refl
    | ((with_reducible apply Based.fst); · assumption)
    | ((with_reducible apply Based.snd); · assumption)
    | with_reducible apply Based.ite
    | (with_reducible apply Based.foldl; on_goal 1 => intro _ _ _)
    | ((with_reducible apply Based.step (State.wrModeCtl_touches ..)); · rfl)
    | ((with_reducible apply State.upTo_based); · rfl)
    | split
    | exact fun _ => wrap64_lt _
    | exact id
    | dsimp only

theorem execReqReady_based (t : BitVec 64) (hw hr : Bool) (s : State) :
    ∃ t', execReqReady t hw hr s = .next t' ∧ Based [.now, .regs, .frameLog, .flags, .counts, .flagAt, .recent, .ev, .queues, .mode, .strands, .cores, .units, .outs, .inps, .rtones, .mem] s t' := by
  unfold execReqReady
  try dsimp only
  repeat' first
    | refine ⟨_, rfl, ?_⟩
    | with_reducible exact Based.refl _ _
    | with_reducible assumption
    | with_reducible exact Settled.refl
    | ((with_reducible apply Based.fst); · assumption)
    | ((with_reducible apply Based.snd); · assumption)
    | with_reducible apply Based.ite
    | (with_reducible apply Based.foldl; on_goal 1 => intro _ _ _)
    | ((with_reducible apply Based.step (State.wrModeCtl_touches ..)); · rfl)
    | ((with_reducible apply State.upTo_based); · rfl)
    | split
    | exact fun _ => wrap64_lt _
    | exact id
    | dsimp only

theorem execReqCalibrate_based (t : BitVec 64) (hw hr : Bool) (s : State) :
    ∃ t', execReqCalibrate t hw hr s = .next t' ∧ Based [.now, .regs, .frameLog, .flags, .counts, .flagAt, .recent, .ev, .queues, .mode, .strands, .cores, .units, .outs, .inps, .rtones, .mem] s t' := by
  unfold execReqCalibrate
  try dsimp only
  repeat' first
    | refine ⟨_, rfl, ?_⟩
    | with_reducible exact Based.refl _ _
    | with_reducible assumption
    | with_reducible exact Settled.refl
    | ((with_reducible apply Based.fst); · assumption)
    | ((with_reducible apply Based.snd); · assumption)
    | with_reducible apply Based.ite
    | (with_reducible apply Based.foldl; on_goal 1 => intro _ _ _)
    | ((with_reducible apply Based.step (State.wrModeCtl_touches ..)); · rfl)
    | ((with_reducible apply State.upTo_based); · rfl)
    | split
    | exact fun _ => wrap64_lt _
    | exact id
    | dsimp only

theorem execReqTest_based (t : BitVec 64) (hw hr : Bool) (s : State) :
    ∃ t', execReqTest t hw hr s = .next t' ∧ Based [.now, .regs, .frameLog, .flags, .counts, .flagAt, .recent, .ev, .queues, .mode, .strands, .cores, .units, .outs, .inps, .rtones, .mem] s t' := by
  unfold execReqTest
  try dsimp only
  repeat' first
    | refine ⟨_, rfl, ?_⟩
    | with_reducible exact Based.refl _ _
    | with_reducible assumption
    | with_reducible exact Settled.refl
    | ((with_reducible apply Based.fst); · assumption)
    | ((with_reducible apply Based.snd); · assumption)
    | with_reducible apply Based.ite
    | (with_reducible apply Based.foldl; on_goal 1 => intro _ _ _)
    | ((with_reducible apply Based.step (State.wrModeCtl_touches ..)); · rfl)
    | ((with_reducible apply State.upTo_based); · rfl)
    | split
    | exact fun _ => wrap64_lt _
    | exact id
    | dsimp only

theorem execReqDormant_based (t : BitVec 64) (key : BitVec 8) (hw hr : Bool) (s : State) :
    ∃ t', execReqDormant t key hw hr s = .next t' ∧ Based [.now, .regs, .frameLog, .flags, .counts, .flagAt, .recent, .ev, .queues, .mode, .strands, .cores, .units, .outs, .inps, .rtones, .mem] s t' := by
  unfold execReqDormant
  try dsimp only
  repeat' first
    | refine ⟨_, rfl, ?_⟩
    | with_reducible exact Based.refl _ _
    | with_reducible assumption
    | with_reducible exact Settled.refl
    | ((with_reducible apply Based.fst); · assumption)
    | ((with_reducible apply Based.snd); · assumption)
    | with_reducible apply Based.ite
    | (with_reducible apply Based.foldl; on_goal 1 => intro _ _ _)
    | ((with_reducible apply Based.step (State.wrModeCtl_touches ..)); · rfl)
    | ((with_reducible apply State.upTo_based); · rfl)
    | split
    | exact fun _ => wrap64_lt _
    | exact id
    | dsimp only

theorem execSafeAck_based (t : BitVec 64) (key : BitVec 8) (hw hr : Bool) (s : State) :
    ∃ t', execSafeAck t key hw hr s = .next t' ∧ Based [.now, .regs, .frameLog, .flags, .counts, .flagAt, .recent, .ev, .queues, .mode, .strands, .cores, .units, .outs, .inps, .rtones, .mem] s t' := by
  unfold execSafeAck
  try dsimp only
  repeat' first
    | refine ⟨_, rfl, ?_⟩
    | with_reducible exact Based.refl _ _
    | with_reducible assumption
    | with_reducible exact Settled.refl
    | ((with_reducible apply Based.fst); · assumption)
    | ((with_reducible apply Based.snd); · assumption)
    | with_reducible apply Based.ite
    | (with_reducible apply Based.foldl; on_goal 1 => intro _ _ _)
    | ((with_reducible apply Based.step (State.wrModeCtl_touches ..)); · rfl)
    | ((with_reducible apply State.upTo_based); · rfl)
    | split
    | exact fun _ => wrap64_lt _
    | exact id
    | dsimp only

theorem execModeReset_based (t : BitVec 64) (key : BitVec 8) (hw hr : Bool) (s : State) :
    ∃ t', execModeReset t key hw hr s = .next t' ∧ Based [.now, .regs, .frameLog, .flags, .counts, .flagAt, .recent, .ev, .queues, .mode, .strands, .cores, .units, .outs, .inps, .rtones, .mem] s t' := by
  unfold execModeReset
  try dsimp only
  repeat' first
    | refine ⟨_, rfl, ?_⟩
    | with_reducible exact Based.refl _ _
    | with_reducible assumption
    | with_reducible exact Settled.refl
    | ((with_reducible apply Based.fst); · assumption)
    | ((with_reducible apply Based.snd); · assumption)
    | with_reducible apply Based.ite
    | (with_reducible apply Based.foldl; on_goal 1 => intro _ _ _)
    | ((with_reducible apply Based.step (State.wrModeCtl_touches ..)); · rfl)
    | ((with_reducible apply State.upTo_based); · rfl)
    | split
    | exact fun _ => wrap64_lt _
    | exact id
    | dsimp only

theorem State.leaveReady_touches (s : State) :
    Touches [.sync] s (State.leaveReady s) := by
  unfold State.leaveReady
  try dsimp only
  repeat' first
    | with_reducible exact Touches.refl _ _
    | with_reducible assumption
    | ((with_reducible apply Touches.fst); · assumption)
    | ((with_reducible apply Touches.snd); · assumption)
    | with_reducible apply Touches.ite
    | (with_reducible apply Touches.foldl; on_goal 1 => intro _ _ _)
    | ((with_reducible apply Touches.step (State.setSync_touches ..)); · rfl)
    | split
    | exact fun _ => wrap64_lt _
    | exact id
    | dsimp only

theorem State.enterRun_touches (s : State) :
    Touches [.regs, .frameLog, .flags, .counts, .flagAt, .recent, .ev, .queues, .mode, .strands, .cores, .units, .outs, .inps, .rtones, .dec, .mem, .sync] s (State.enterRun s) := by
  unfold State.enterRun
  try dsimp only
  repeat' first
    | with_reducible exact Touches.refl _ _
    | with_reducible assumption
    | ((with_reducible apply Touches.fst); · assumption)
    | ((with_reducible apply Touches.snd); · assumption)
    | with_reducible apply Touches.ite
    | (with_reducible apply Touches.foldl; on_goal 1 => intro _ _ _)
    | ((with_reducible apply Touches.step (State.clearSlots_touches ..)); · rfl)
    | ((with_reducible apply Touches.step (State.enterMode_touches ..)); · rfl)
    | ((with_reducible apply Touches.step (State.leaveReady_touches ..)); · rfl)
    | ((with_reducible apply Touches.step (State.setMode_touches ..)); · rfl)
    | ((with_reducible apply Touches.step (State.liveStatics_touches ..)); · rfl)
    | ((with_reducible apply Touches.step (State.reloadUnits_touches ..)); · rfl)
    | ((with_reducible apply Touches.step (State.evalHold_touches ..)); · rfl)
    | ((with_reducible apply Touches.step (State.carryPend_touches ..)); · rfl)
    | split
    | exact fun _ => wrap64_lt _
    | exact id
    | dsimp only

theorem State.bootReports_touches (s : State) :
    Touches [.flags, .counts, .flagAt, .recent, .ev, .queues, .pwr, .mc, .mem] s (State.bootReports s) := by
  unfold State.bootReports
  try dsimp only
  repeat' first
    | with_reducible exact Touches.refl _ _
    | with_reducible assumption
    | ((with_reducible apply Touches.fst); · assumption)
    | ((with_reducible apply Touches.snd); · assumption)
    | with_reducible apply Touches.ite
    | (with_reducible apply Touches.foldl; on_goal 1 => intro _ _ _)
    | ((with_reducible apply Touches.step (State.raise_touches ..)); · rfl)
    | ((with_reducible apply Touches.step (State.setPwr_touches ..)); · rfl)
    | ((with_reducible apply Touches.step (State.setMc_touches ..)); · rfl)
    | split
    | exact fun _ => wrap64_lt _
    | exact id
    | dsimp only

theorem State.applyHeldReady_touches (s : State) :
    Touches [.regs, .held, .flags, .counts, .flagAt, .recent, .ev, .queues, .mode, .cores, .units, .outs, .mem, .sync] s (State.applyHeldReady s) := by
  unfold State.applyHeldReady
  try dsimp only
  repeat' first
    | with_reducible exact Touches.refl _ _
    | with_reducible assumption
    | ((with_reducible apply Touches.fst); · assumption)
    | ((with_reducible apply Touches.snd); · assumption)
    | with_reducible apply Touches.ite
    | (with_reducible apply Touches.foldl; on_goal 1 => intro _ _ _)
    | ((with_reducible apply Touches.step (State.wrHchCtl_touches ..)); · rfl)
    | ((with_reducible apply Touches.step (State.applyHeldSync_touches ..)); · rfl)
    | split
    | exact fun _ => wrap64_lt _
    | exact id
    | dsimp only

theorem State.enterReady_touches (s : State) :
    Touches [.free, .regs, .held, .frameLog, .flags, .counts, .flagAt, .recent, .ev, .queues, .mode, .plies, .strands, .cores, .units, .outs, .inps, .rtones, .dec, .hch, .pwr, .mc, .mem, .sync] s (State.enterReady s) := by
  unfold State.enterReady
  try dsimp only
  repeat' first
    | with_reducible exact Touches.refl _ _
    | with_reducible assumption
    | ((with_reducible apply Touches.fst); · assumption)
    | ((with_reducible apply Touches.snd); · assumption)
    | with_reducible apply Touches.ite
    | (with_reducible apply Touches.foldl; on_goal 1 => intro _ _ _)
    | ((with_reducible apply Touches.step (State.endLaneTests_touches ..)); · rfl)
    | ((with_reducible apply Touches.step (State.invalidateSlots_touches ..)); · rfl)
    | ((with_reducible apply Touches.step (State.enterMode_touches ..)); · rfl)
    | ((with_reducible apply Touches.step (State.setMode_touches ..)); · rfl)
    | ((with_reducible apply Touches.step (State.applyPolicies_touches ..)); · rfl)
    | ((with_reducible apply Touches.step (State.carryPend_touches ..)); · rfl)
    | ((with_reducible apply Touches.step (State.refreshHold_touches ..)); · rfl)
    | ((with_reducible apply Touches.step (State.bootReports_touches ..)); · rfl)
    | ((with_reducible apply Touches.step (State.applyHeldReady_touches ..)); · rfl)
    | split
    | exact fun _ => wrap64_lt _
    | exact id
    | dsimp only

theorem State.enterQuiet_touches (s : State) (m : Mode) :
    Touches [.regs, .frameLog, .flags, .counts, .flagAt, .recent, .ev, .queues, .mode, .plies, .strands, .cores, .units, .outs, .inps, .rtones, .dec, .hch, .convs, .engines, .mem, .sync] s (State.enterQuiet s m) := by
  unfold State.enterQuiet
  try dsimp only
  repeat' first
    | with_reducible exact Touches.refl _ _
    | with_reducible assumption
    | ((with_reducible apply Touches.fst); · assumption)
    | ((with_reducible apply Touches.snd); · assumption)
    | with_reducible apply Touches.ite
    | (with_reducible apply Touches.foldl; on_goal 1 => intro _ _ _)
    | ((with_reducible apply Touches.step (State.holdAllOuts_touches ..)); · rfl)
    | ((with_reducible apply Touches.step (State.enterMode_touches ..)); · rfl)
    | ((with_reducible apply Touches.step (State.leaveReady_touches ..)); · rfl)
    | ((with_reducible apply Touches.step (State.fgStart_touches ..)); · rfl)
    | ((with_reducible apply Touches.step (State.startLaneTests_touches ..)); · rfl)
    | ((with_reducible apply Touches.step (State.calAbortIf_touches ..)); · rfl)
    | ((with_reducible apply Touches.step (State.carryPend_touches ..)); · rfl)
    | split
    | exact fun _ => wrap64_lt _
    | exact id
    | dsimp only

theorem State.enterDormant_touches (s : State) :
    Touches [.regs, .latch, .lows, .held, .frameW, .frameLog, .flags, .counts, .flagAt, .recent, .ev, .queues, .mode, .plies, .strands, .cores, .units, .outs, .inps, .rtones, .dec, .hch, .badWords, .convs, .engines, .pwr, .mem, .sync, .ptp, .hif, .mon, .tio, .hbm, .seqSram, .ucode, .envSram, .kernel, .envTab] s (State.enterDormant s) := by
  unfold State.enterDormant
  try dsimp only
  repeat' first
    | with_reducible exact Touches.refl _ _
    | with_reducible assumption
    | ((with_reducible apply Touches.fst); · assumption)
    | ((with_reducible apply Touches.snd); · assumption)
    | with_reducible apply Touches.ite
    | (with_reducible apply Touches.foldl; on_goal 1 => intro _ _ _)
    | ((with_reducible apply Touches.step (State.enterMode_touches ..)); · rfl)
    | ((with_reducible apply Touches.step (State.carryPend_touches ..)); · rfl)
    | ((with_reducible apply Touches.upd_many3); · rfl)
    | split
    | exact fun _ => wrap64_lt _
    | exact id
    | dsimp only

theorem State.resetReq_touches (s : State) :
    Touches [.regs] s (State.resetReq s) := by
  unfold State.resetReq
  try dsimp only
  repeat' first
    | with_reducible exact Touches.refl _ _
    | with_reducible assumption
    | ((with_reducible apply Touches.fst); · assumption)
    | ((with_reducible apply Touches.snd); · assumption)
    | with_reducible apply Touches.ite
    | (with_reducible apply Touches.foldl; on_goal 1 => intro _ _ _)
    | ((with_reducible apply Touches.step (State.setFld_touches ..)); · rfl)
    | split
    | exact fun _ => wrap64_lt _
    | exact id
    | dsimp only

theorem State.enterBoot_touches (s : State) :
    Touches [.now, .regs, .latch, .lows, .held, .frameW, .frameLog, .flags, .counts, .flagAt, .recent, .ev, .queues, .mode, .plies, .strands, .cores, .units, .outs, .inps, .rtones, .dec, .hch, .badWords, .convs, .engines, .pwr, .mc, .mem, .sync, .ptp, .hif, .mon, .tio, .hbm, .seqSram, .ucode, .envSram, .kernel, .envTab] s (State.enterBoot s) := by
  unfold State.enterBoot
  try dsimp only
  repeat' first
    | with_reducible exact Touches.refl _ _
    | with_reducible assumption
    | ((with_reducible apply Touches.fst); · assumption)
    | ((with_reducible apply Touches.snd); · assumption)
    | with_reducible apply Touches.ite
    | (with_reducible apply Touches.foldl; on_goal 1 => intro _ _ _)
    | ((with_reducible apply Touches.step (State.enterMode_touches ..)); · rfl)
    | ((with_reducible apply Touches.step (State.fullReset_touches ..)); · rfl)
    | ((with_reducible apply Touches.step (State.setMode_touches ..)); · rfl)
    | ((with_reducible apply Touches.step (State.selectRef_touches ..)); · rfl)
    | ((with_reducible apply Touches.step (State.setReg_touches ..)); · rfl)
    | ((with_reducible apply Touches.step (State.resetReq_touches ..)); · rfl)
    | ((with_reducible apply Touches.upd_now); · rfl)
    | split
    | exact fun _ => wrap64_lt _
    | exact id
    | dsimp only

theorem State.mainsOn_touches (s : State) (t : Nat) (temps : List Int) (fw0 fw1 : ImageCheck) (recOk : Bool) :
    Touches [.now, .supply, .regs, .flags, .counts, .flagAt, .recent, .ev, .queues, .mode, .thm, .pwr, .mc, .mem] s (State.mainsOn s t temps fw0 fw1 recOk) := by
  unfold State.mainsOn
  try dsimp only
  repeat' first
    | with_reducible exact Touches.refl _ _
    | with_reducible assumption
    | ((with_reducible apply Touches.fst); · assumption)
    | ((with_reducible apply Touches.snd); · assumption)
    | with_reducible apply Touches.ite
    | (with_reducible apply Touches.foldl; on_goal 1 => intro _ _ _)
    | ((with_reducible apply Touches.step (State.clockTo_touches ..)); · rfl)
    | ((with_reducible apply Touches.step (State.setPwr_touches ..)); · rfl)
    | ((with_reducible apply Touches.step (State.bootFw_touches ..)); · rfl)
    | ((with_reducible apply Touches.step (State.bootFail_touches ..)); · rfl)
    | ((with_reducible apply Touches.step (State.journalScan_touches ..)); · rfl)
    | ((with_reducible apply Touches.step (State.setMc_touches ..)); · rfl)
    | ((with_reducible apply Touches.step (State.setMode_touches ..)); · rfl)
    | ((with_reducible apply Touches.step (State.readHeld_touches ..)); · rfl)
    | ((with_reducible apply Touches.step (State.newTemps_touches ..)); · rfl)
    | ((with_reducible apply Touches.step (State.resetReq_touches ..)); · rfl)
    | ((with_reducible apply Touches.upd_supply); · rfl)
    | split
    | exact fun _ => wrap64_lt _
    | exact id
    | dsimp only

theorem execMainsOn_touches (t : BitVec 64) (temps : List Int) (fw0 fw1 : ImageCheck) (recOk : Bool) (s : State) :
    ∃ t', execMainsOn t temps fw0 fw1 recOk s = .next t' ∧ Touches [.now, .supply, .regs, .flags, .counts, .flagAt, .recent, .ev, .queues, .mode, .thm, .pwr, .mc, .mem] s t' := by
  unfold execMainsOn
  try dsimp only
  repeat' first
    | refine ⟨_, rfl, ?_⟩
    | with_reducible exact Touches.refl _ _
    | with_reducible assumption
    | ((with_reducible apply Touches.fst); · assumption)
    | ((with_reducible apply Touches.snd); · assumption)
    | with_reducible apply Touches.ite
    | (with_reducible apply Touches.foldl; on_goal 1 => intro _ _ _)
    | ((with_reducible apply Touches.step (State.mainsOn_touches ..)); · rfl)
    | split
    | exact fun _ => wrap64_lt _
    | exact id
    | dsimp only

theorem execBootEntry_touches (t : BitVec 64) (s : State) :
    ∃ t', execBootEntry t s = .next t' ∧ Touches [.now, .regs, .latch, .lows, .held, .frameW, .frameLog, .flags, .counts, .flagAt, .recent, .ev, .queues, .mode, .plies, .strands, .cores, .units, .outs, .inps, .rtones, .dec, .hch, .badWords, .convs, .engines, .pwr, .mc, .mem, .sync, .ptp, .hif, .mon, .tio, .hbm, .seqSram, .ucode, .envSram, .kernel, .envTab] s t' := by
  unfold execBootEntry
  try dsimp only
  repeat' first
    | refine ⟨_, rfl, ?_⟩
    | with_reducible exact Touches.refl _ _
    | with_reducible assumption
    | ((with_reducible apply Touches.fst); · assumption)
    | ((with_reducible apply Touches.snd); · assumption)
    | with_reducible apply Touches.ite
    | (with_reducible apply Touches.foldl; on_goal 1 => intro _ _ _)
    | ((with_reducible apply Touches.step (State.at_touches ..)); · rfl)
    | ((with_reducible apply Touches.step (State.enterBoot_touches ..)); · rfl)
    | split
    | exact fun _ => wrap64_lt _
    | exact id
    | dsimp only

theorem State.bootFails_touches (s : State) (idx step : Nat) :
    Touches [.flags, .counts, .flagAt, .recent, .ev, .queues, .mode, .strands, .cores, .units, .outs, .inps, .rtones, .convs, .engines, .pwr, .mc, .mem] s (State.bootFails s idx step) := by
  unfold State.bootFails
  try dsimp only
  repeat' first
    | with_reducible exact Touches.refl _ _
    | with_reducible assumption
    | ((with_reducible apply Touches.fst); · assumption)
    | ((with_reducible apply Touches.snd); · assumption)
    | with_reducible apply Touches.ite
    | (with_reducible apply Touches.foldl; on_goal 1 => intro _ _ _)
    | ((with_reducible apply Touches.step (State.setMode_touches ..)); · rfl)
    | ((with_reducible apply Touches.step (State.trip_touches ..)); · rfl)
    | ((with_reducible apply Touches.step (State.raise_touches ..)); · rfl)
    | split
    | exact fun _ => wrap64_lt _
    | exact id
    | dsimp only

theorem State.bootComplete_touches (s : State) (t : Nat) (hbmOk : Bool) (uc0 uc1 : ImageCheck) :
    Touches [.now, .free, .regs, .held, .frameLog, .flags, .counts, .flagAt, .recent, .ev, .queues, .mode, .plies, .strands, .cores, .units, .outs, .inps, .rtones, .dec, .hch, .convs, .engines, .pwr, .mc, .mem, .sync, .ucode] s (State.bootComplete s t hbmOk uc0 uc1) := by
  unfold State.bootComplete
  try dsimp only
  repeat' first
    | with_reducible exact Touches.refl _ _
    | with_reducible assumption
    | ((with_reducible apply Touches.fst); · assumption)
    | ((with_reducible apply Touches.snd); · assumption)
    | with_reducible apply Touches.ite
    | (with_reducible apply Touches.foldl; on_goal 1 => intro _ _ _)
    | split
    | ((with_reducible apply Touches.step (State.clockTo_touches ..)); · rfl)
    | ((with_reducible apply Touches.step (State.bootFails_touches ..)); · rfl)
    | ((with_reducible apply Touches.step (State.loadUc_touches ..)); · rfl)
    | ((with_reducible apply Touches.step (State.bump_touches ..)); · rfl)
    | ((with_reducible apply Touches.step (State.enterReady_touches ..)); · rfl)
    | ((with_reducible apply Touches.step (State.setSync_touches ..)); · rfl)
    | ((with_reducible apply Touches.upd_plies); · rfl)
    | exact fun _ => wrap64_lt _
    | exact id
    | dsimp only

theorem execBootComplete_touches (t : BitVec 64) (hbmOk : Bool) (uc0 uc1 : ImageCheck) (s : State) :
    ∃ t', execBootComplete t hbmOk uc0 uc1 s = .next t' ∧ Touches [.now, .free, .regs, .held, .frameLog, .flags, .counts, .flagAt, .recent, .ev, .queues, .mode, .plies, .strands, .cores, .units, .outs, .inps, .rtones, .dec, .hch, .convs, .engines, .pwr, .mc, .mem, .sync, .ucode] s t' := by
  unfold execBootComplete
  try dsimp only
  repeat' first
    | refine ⟨_, rfl, ?_⟩
    | with_reducible exact Touches.refl _ _
    | with_reducible assumption
    | ((with_reducible apply Touches.fst); · assumption)
    | ((with_reducible apply Touches.snd); · assumption)
    | with_reducible apply Touches.ite
    | (with_reducible apply Touches.foldl; on_goal 1 => intro _ _ _)
    | ((with_reducible apply Touches.step (State.bootComplete_touches ..)); · rfl)
    | split
    | exact fun _ => wrap64_lt _
    | exact id
    | dsimp only

theorem State.wake_touches (s : State) (b : Nat) :
    Touches [.mode] s (State.wake s b) := by
  unfold State.wake
  try dsimp only
  repeat' first
    | with_reducible exact Touches.refl _ _
    | with_reducible assumption
    | ((with_reducible apply Touches.fst); · assumption)
    | ((with_reducible apply Touches.snd); · assumption)
    | with_reducible apply Touches.ite
    | (with_reducible apply Touches.foldl; on_goal 1 => intro _ _ _)
    | ((with_reducible apply Touches.step (State.setMode_touches ..)); · rfl)
    | split
    | exact fun _ => wrap64_lt _
    | exact id
    | dsimp only

theorem execWakeSource_touches (t : BitVec 64) (src : WakeSource) (s : State) :
    ∃ t', execWakeSource t src s = .next t' ∧ Touches [.now, .mode] s t' := by
  unfold execWakeSource
  try dsimp only
  repeat' first
    | refine ⟨_, rfl, ?_⟩
    | with_reducible exact Touches.refl _ _
    | with_reducible assumption
    | ((with_reducible apply Touches.fst); · assumption)
    | ((with_reducible apply Touches.snd); · assumption)
    | with_reducible apply Touches.ite
    | (with_reducible apply Touches.foldl; on_goal 1 => intro _ _ _)
    | ((with_reducible apply Touches.step (State.wake_touches ..)); · rfl)
    | ((with_reducible apply Touches.step (State.at_touches ..)); · rfl)
    | split
    | exact fun _ => wrap64_lt _
    | exact id
    | dsimp only

theorem State.wakeTimer_touches (s : State) :
    Touches [.now, .mode] s (State.wakeTimer s) := by
  unfold State.wakeTimer
  try dsimp only
  repeat' first
    | with_reducible exact Touches.refl _ _
    | with_reducible assumption
    | ((with_reducible apply Touches.fst); · assumption)
    | ((with_reducible apply Touches.snd); · assumption)
    | with_reducible apply Touches.ite
    | (with_reducible apply Touches.foldl; on_goal 1 => intro _ _ _)
    | ((with_reducible apply Touches.step (State.wake_touches ..)); · rfl)
    | ((with_reducible apply Touches.step (State.clockTo_touches ..)); · rfl)
    | split
    | exact fun _ => wrap64_lt _
    | exact id
    | dsimp only

theorem execWakeTimer_touches (s : State) :
    ∃ t', execWakeTimer s = .next t' ∧ Touches [.now, .mode] s t' := by
  unfold execWakeTimer
  try dsimp only
  repeat' first
    | refine ⟨_, rfl, ?_⟩
    | with_reducible exact Touches.refl _ _
    | with_reducible assumption
    | ((with_reducible apply Touches.fst); · assumption)
    | ((with_reducible apply Touches.snd); · assumption)
    | with_reducible apply Touches.ite
    | (with_reducible apply Touches.foldl; on_goal 1 => intro _ _ _)
    | ((with_reducible apply Touches.step (State.wakeTimer_touches ..)); · rfl)
    | split
    | exact fun _ => wrap64_lt _
    | exact id
    | dsimp only

theorem State.endCalibrate_touches (s : State) (due : Nat) :
    Touches [.convs, .engines] s (State.endCalibrate s due) := by
  unfold State.endCalibrate
  try dsimp only
  repeat' first
    | with_reducible exact Touches.refl _ _
    | with_reducible assumption
    | ((with_reducible apply Touches.fst); · assumption)
    | ((with_reducible apply Touches.snd); · assumption)
    | with_reducible apply Touches.ite
    | (with_reducible apply Touches.foldl; on_goal 1 => intro _ _ _)
    | ((with_reducible apply Touches.step (State.fgFinish_touches ..)); · rfl)
    | split
    | exact fun _ => wrap64_lt _
    | exact id
    | dsimp only

theorem State.transDone_based (s : State) (t : Nat) :
    Based [.now, .free, .regs, .latch, .lows, .held, .frameW, .frameLog, .flags, .counts, .flagAt, .recent, .ev, .queues, .mode, .plies, .strands, .cores, .units, .outs, .inps, .rtones, .dec, .hch, .badWords, .convs, .engines, .pwr, .mc, .mem, .sync, .ptp, .hif, .mon, .tio, .hbm, .seqSram, .ucode, .envSram, .kernel, .envTab] s (State.transDone s t) := by
  unfold State.transDone
  try dsimp only
  repeat' first
    | with_reducible exact Based.refl _ _
    | with_reducible assumption
    | with_reducible exact Settled.refl
    | ((with_reducible apply Based.fst); · assumption)
    | ((with_reducible apply Based.snd); · assumption)
    | with_reducible apply Based.ite
    | (with_reducible apply Based.foldl; on_goal 1 => intro _ _ _)
    | ((with_reducible apply Based.step (State.clockTo_touches ..)); · rfl)
    | ((with_reducible apply Based.step (State.enterRun_touches ..)); · rfl)
    | ((with_reducible apply State.toTime_based); · rfl)
    | ((with_reducible apply Based.step (State.enterReady_touches ..)); · rfl)
    | ((with_reducible apply Based.step (State.endCalibrate_touches ..)); · rfl)
    | ((with_reducible apply Based.step (State.enterQuiet_touches ..)); · rfl)
    | ((with_reducible apply Based.step (State.enterDormant_touches ..)); · rfl)
    | ((with_reducible apply Based.step (State.enterBoot_touches ..)); · rfl)
    | split
    | exact fun _ => wrap64_lt _
    | exact id
    | dsimp only

theorem execModeTransitionDone_based (t : BitVec 64) (s : State) :
    ∃ t', execModeTransitionDone t s = .next t' ∧ Based [.now, .free, .regs, .latch, .lows, .held, .frameW, .frameLog, .flags, .counts, .flagAt, .recent, .ev, .queues, .mode, .plies, .strands, .cores, .units, .outs, .inps, .rtones, .dec, .hch, .badWords, .convs, .engines, .pwr, .mc, .mem, .sync, .ptp, .hif, .mon, .tio, .hbm, .seqSram, .ucode, .envSram, .kernel, .envTab] s t' := by
  unfold execModeTransitionDone
  try dsimp only
  repeat' first
    | refine ⟨_, rfl, ?_⟩
    | with_reducible exact Based.refl _ _
    | with_reducible assumption
    | with_reducible exact Settled.refl
    | ((with_reducible apply Based.fst); · assumption)
    | ((with_reducible apply Based.snd); · assumption)
    | with_reducible apply Based.ite
    | (with_reducible apply Based.foldl; on_goal 1 => intro _ _ _)
    | ((with_reducible apply Based.trans (State.transDone_based ..)); · rfl)
    | split
    | exact fun _ => wrap64_lt _
    | exact id
    | dsimp only

theorem State.holdPause_based (s : State) :
    Based [.now, .regs, .frameLog, .flags, .counts, .flagAt, .recent, .ev, .queues, .mode, .strands, .cores, .units, .outs, .inps, .rtones, .mem] s (State.holdPause s) := by
  unfold State.holdPause
  try dsimp only
  repeat' first
    | with_reducible exact Based.refl _ _
    | with_reducible assumption
    | with_reducible exact Settled.refl
    | ((with_reducible apply Based.fst); · assumption)
    | ((with_reducible apply Based.snd); · assumption)
    | with_reducible apply Based.ite
    | (with_reducible apply Based.foldl; on_goal 1 => intro _ _ _)
    | ((with_reducible apply Based.step (State.invalidAll_touches ..)); · rfl)
    | ((with_reducible apply State.toTime_based); · rfl)
    | ((with_reducible apply State.commitWhere_closed (Based.closed _ _)); (· rfl); on_goal 1 => intro _ _ _)
    | ((with_reducible apply Based.step (State.commitFlush_touches ..)); · rfl)
    | ((with_reducible apply Based.step (State.mapCores_touches ..)); · rfl)
    | ((with_reducible apply Based.step (State.refreshHold_touches ..)); · rfl)
    | ((with_reducible apply Based.step (State.enterMode_touches ..)); · rfl)
    | ((with_reducible apply Based.step (State.carryPend_touches ..)); · rfl)
    | ((with_reducible apply Based.step (State.refHold_touches ..)); · rfl)
    | split
    | exact fun _ => wrap64_lt _
    | exact id
    | dsimp only

theorem execHoldPause_based (s : State) :
    ∃ t', execHoldPause s = .next t' ∧ Based [.now, .regs, .frameLog, .flags, .counts, .flagAt, .recent, .ev, .queues, .mode, .strands, .cores, .units, .outs, .inps, .rtones, .mem] s t' := by
  unfold execHoldPause
  try dsimp only
  repeat' first
    | refine ⟨_, rfl, ?_⟩
    | with_reducible exact Based.refl _ _
    | with_reducible assumption
    | with_reducible exact Settled.refl
    | ((with_reducible apply Based.fst); · assumption)
    | ((with_reducible apply Based.snd); · assumption)
    | with_reducible apply Based.ite
    | (with_reducible apply Based.foldl; on_goal 1 => intro _ _ _)
    | ((with_reducible apply Based.trans (State.holdPause_based ..)); · rfl)
    | split
    | exact fun _ => wrap64_lt _
    | exact id
    | dsimp only

theorem State.holdResume_based (s : State) :
    Based [.now, .regs, .frameLog, .flags, .counts, .flagAt, .recent, .ev, .queues, .mode, .strands, .cores, .units, .outs, .inps, .rtones, .mem] s (State.holdResume s) := by
  unfold State.holdResume
  try dsimp only
  repeat' first
    | with_reducible exact Based.refl _ _
    | with_reducible assumption
    | with_reducible exact Settled.refl
    | ((with_reducible apply Based.fst); · assumption)
    | ((with_reducible apply Based.snd); · assumption)
    | with_reducible apply Based.ite
    | (with_reducible apply Based.foldl; on_goal 1 => intro _ _ _)
    | ((with_reducible apply State.toTime_based); · rfl)
    | ((with_reducible apply Based.step (State.mapCores_touches ..)); · rfl)
    | ((with_reducible apply Based.step (State.enterMode_touches ..)); · rfl)
    | ((with_reducible apply Based.step (State.setMode_touches ..)); · rfl)
    | ((with_reducible apply Based.step (State.evalHold_touches ..)); · rfl)
    | ((with_reducible apply Based.step (State.carryPend_touches ..)); · rfl)
    | ((with_reducible apply Based.step (State.liveStatics_touches ..)); · rfl)
    | split
    | exact fun _ => wrap64_lt _
    | exact id
    | dsimp only

theorem execHoldResume_based (s : State) :
    ∃ t', execHoldResume s = .next t' ∧ Based [.now, .regs, .frameLog, .flags, .counts, .flagAt, .recent, .ev, .queues, .mode, .strands, .cores, .units, .outs, .inps, .rtones, .mem] s t' := by
  unfold execHoldResume
  try dsimp only
  repeat' first
    | refine ⟨_, rfl, ?_⟩
    | with_reducible exact Based.refl _ _
    | with_reducible assumption
    | with_reducible exact Settled.refl
    | ((with_reducible apply Based.fst); · assumption)
    | ((with_reducible apply Based.snd); · assumption)
    | with_reducible apply Based.ite
    | (with_reducible apply Based.foldl; on_goal 1 => intro _ _ _)
    | ((with_reducible apply Based.trans (State.holdResume_based ..)); · rfl)
    | split
    | exact fun _ => wrap64_lt _
    | exact id
    | dsimp only

theorem State.clearEnables_touches (s : State) :
    Touches [.regs, .held, .strands] s (State.clearEnables s) := by
  unfold State.clearEnables
  try dsimp only
  repeat' first
    | with_reducible exact Touches.refl _ _
    | with_reducible assumption
    | ((with_reducible apply Touches.fst); · assumption)
    | ((with_reducible apply Touches.snd); · assumption)
    | with_reducible apply Touches.ite
    | (with_reducible apply Touches.foldl; on_goal 1 => intro _ _ _)
    | ((with_reducible apply Touches.upd_regs_held_strands); · rfl)
    | split
    | exact fun _ => wrap64_lt _
    | exact id
    | dsimp only

theorem State.stopPlies_touches (s : State) :
    Touches [.plies, .strands, .cores, .outs, .engines] s (State.stopPlies s) := by
  unfold State.stopPlies
  try dsimp only
  repeat' first
    | with_reducible exact Touches.refl _ _
    | with_reducible assumption
    | ((with_reducible apply Touches.fst); · assumption)
    | ((with_reducible apply Touches.snd); · assumption)
    | with_reducible apply Touches.ite
    | (with_reducible apply Touches.foldl; on_goal 1 => intro _ _ _)
    | ((with_reducible apply Touches.upd_plies_strands_cores_outs_engines); · rfl)
    | split
    | exact fun _ => wrap64_lt _
    | exact id
    | dsimp only

theorem State.safeEntry_based (s : State) (t : Nat) :
    Based [.now, .regs, .held, .frameLog, .flags, .counts, .flagAt, .recent, .ev, .queues, .mode, .plies, .strands, .cores, .units, .outs, .inps, .rtones, .dec, .badWords, .engines, .mem, .sync, .seqSram, .ucode, .envSram, .kernel, .envTab] s (State.safeEntry s t) := by
  unfold State.safeEntry
  try dsimp only
  repeat' first
    | with_reducible exact Based.refl _ _
    | with_reducible assumption
    | with_reducible exact Settled.refl
    | ((with_reducible apply Based.fst); · assumption)
    | ((with_reducible apply Based.snd); · assumption)
    | with_reducible apply Based.ite
    | (with_reducible apply Based.foldl; on_goal 1 => intro _ _ _)
    | ((with_reducible apply State.toTime_based); · rfl)
    | ((with_reducible apply Based.step (State.invalidateSlots_touches ..)); · rfl)
    | ((with_reducible apply Based.step (State.enterMode_touches ..)); · rfl)
    | ((with_reducible apply Based.step (State.leaveReady_touches ..)); · rfl)
    | ((with_reducible apply Based.step (State.setMode_touches ..)); · rfl)
    | ((with_reducible apply Based.step (State.carryPend_touches ..)); · rfl)
    | ((with_reducible apply Based.step (State.losePlies_touches ..)); · rfl)
    | ((with_reducible apply Based.step (State.stopPlies_touches ..)); · rfl)
    | ((with_reducible apply Based.step (State.clearEnables_touches ..)); · rfl)
    | ((with_reducible apply Based.step (State.clockTo_touches ..)); · rfl)
    | split
    | exact fun _ => wrap64_lt _
    | exact id
    | dsimp only

theorem execSafeEntry_based (t : BitVec 64) (s : State) :
    ∃ t', execSafeEntry t s = .next t' ∧ Based [.now, .regs, .held, .frameLog, .flags, .counts, .flagAt, .recent, .ev, .queues, .mode, .plies, .strands, .cores, .units, .outs, .inps, .rtones, .dec, .badWords, .engines, .mem, .sync, .seqSram, .ucode, .envSram, .kernel, .envTab] s t' := by
  unfold execSafeEntry
  try dsimp only
  repeat' first
    | refine ⟨_, rfl, ?_⟩
    | with_reducible exact Based.refl _ _
    | with_reducible assumption
    | with_reducible exact Settled.refl
    | ((with_reducible apply Based.fst); · assumption)
    | ((with_reducible apply Based.snd); · assumption)
    | with_reducible apply Based.ite
    | (with_reducible apply Based.foldl; on_goal 1 => intro _ _ _)
    | ((with_reducible apply Based.trans (State.safeEntry_based ..)); · rfl)
    | split
    | exact fun _ => wrap64_lt _
    | exact id
    | dsimp only

theorem State.plyIdle_based (s : State) (p : Nat) :
    Based [.now, .flags, .counts, .flagAt, .recent, .ev, .queues, .plies, .cores, .units, .outs, .inps, .rtones, .convs, .engines, .mem] s (State.plyIdle s p) := by
  unfold State.plyIdle
  try dsimp only
  repeat' first
    | with_reducible exact Based.refl _ _
    | with_reducible assumption
    | with_reducible exact Settled.refl
    | ((with_reducible apply Based.fst); · assumption)
    | ((with_reducible apply Based.snd); · assumption)
    | with_reducible apply Based.ite
    | (with_reducible apply Based.foldl; on_goal 1 => intro _ _ _)
    | ((with_reducible apply State.toTime_based); · rfl)
    | ((with_reducible apply Based.step (State.calAbortIf_touches ..)); · rfl)
    | ((with_reducible apply Based.step (State.setPly_touches ..)); · rfl)
    | split
    | exact fun _ => wrap64_lt _
    | exact id
    | dsimp only

theorem execPlyIdleExpiry_based (p : Fin 4) (s : State) :
    ∃ t', execPlyIdleExpiry p s = .next t' ∧ Based [.now, .flags, .counts, .flagAt, .recent, .ev, .queues, .plies, .cores, .units, .outs, .inps, .rtones, .convs, .engines, .mem] s t' := by
  unfold execPlyIdleExpiry
  try dsimp only
  repeat' first
    | refine ⟨_, rfl, ?_⟩
    | with_reducible exact Based.refl _ _
    | with_reducible assumption
    | with_reducible exact Settled.refl
    | ((with_reducible apply Based.fst); · assumption)
    | ((with_reducible apply Based.snd); · assumption)
    | with_reducible apply Based.ite
    | (with_reducible apply Based.foldl; on_goal 1 => intro _ _ _)
    | ((with_reducible apply Based.trans (State.plyIdle_based ..)); · rfl)
    | split
    | exact fun _ => wrap64_lt _
    | exact id
    | dsimp only

theorem State.wrTone_touches (s : State) (k u : Nat) (w : Word) :
    Touches [.regs, .flags, .counts, .flagAt, .recent, .ev, .queues, .plies, .strands, .cores, .units, .outs, .inps, .rtones, .dec, .convs, .engines, .mem] s (State.wrTone s k u w) := by
  unfold State.wrTone
  try dsimp only
  repeat' first
    | with_reducible exact Touches.refl _ _
    | with_reducible assumption
    | ((with_reducible apply Touches.fst); · assumption)
    | ((with_reducible apply Touches.snd); · assumption)
    | with_reducible apply Touches.ite
    | (with_reducible apply Touches.foldl; on_goal 1 => intro _ _ _)
    | ((with_reducible apply Touches.step (State.plainEnable_touches ..)); · rfl)
    | ((with_reducible apply Touches.step (State.notePhases_touches ..)); · rfl)
    | ((with_reducible apply Touches.step (State.writeFields_touches ..)); · rfl)
    | split
    | exact fun _ => wrap64_lt _
    | exact id
    | dsimp only

theorem State.unitWrite_based (s : State) (t : BitVec 64) (u : UnitId) (w : Word) (on : Nat) :
    Based [.now, .regs, .held, .flags, .counts, .flagAt, .recent, .ev, .queues, .plies, .strands, .cores, .units, .outs, .inps, .rtones, .dec, .convs, .engines, .mem, .mon] s (State.unitWrite s t u w on) := by
  unfold State.unitWrite
  try dsimp only
  repeat' first
    | with_reducible exact Based.refl _ _
    | with_reducible assumption
    | with_reducible exact Settled.refl
    | ((with_reducible apply Based.fst); · assumption)
    | ((with_reducible apply Based.snd); · assumption)
    | with_reducible apply Based.ite
    | (with_reducible apply Based.foldl; on_goal 1 => intro _ _ _)
    | ((with_reducible apply State.strandWrite_based); (· rfl); on_goal 1 => intro _ _ _)
    | ((with_reducible apply Based.step (State.wrTone_touches ..)); · rfl)
    | ((with_reducible apply Based.step (State.wrOut_touches ..)); · rfl)
    | ((with_reducible apply Based.step (State.wrInCtl_touches ..)); · rfl)
    | ((with_reducible apply State.blockWrite_based); (· rfl); on_goal 1 => intro _ _)
    | ((with_reducible apply Based.step (State.wrMonCtl_touches ..)); · rfl)
    | split
    | exact fun _ => wrap64_lt _
    | exact id
    | dsimp only

theorem execUnitEnable_based (t : BitVec 64) (u : UnitId) (w : Word) (s : State) :
    ∃ t', execUnitEnable t u w s = .next t' ∧ Based [.now, .regs, .held, .flags, .counts, .flagAt, .recent, .ev, .queues, .plies, .strands, .cores, .units, .outs, .inps, .rtones, .dec, .convs, .engines, .mem, .mon] s t' := by
  unfold execUnitEnable
  try dsimp only
  repeat' first
    | refine ⟨_, rfl, ?_⟩
    | with_reducible exact Based.refl _ _
    | with_reducible assumption
    | with_reducible exact Settled.refl
    | ((with_reducible apply Based.fst); · assumption)
    | ((with_reducible apply Based.snd); · assumption)
    | with_reducible apply Based.ite
    | (with_reducible apply Based.foldl; on_goal 1 => intro _ _ _)
    | ((with_reducible apply Based.trans (State.unitWrite_based ..)); · rfl)
    | split
    | exact fun _ => wrap64_lt _
    | exact id
    | dsimp only

theorem execUnitDisable_based (t : BitVec 64) (u : UnitId) (w : Word) (s : State) :
    ∃ t', execUnitDisable t u w s = .next t' ∧ Based [.now, .regs, .held, .flags, .counts, .flagAt, .recent, .ev, .queues, .plies, .strands, .cores, .units, .outs, .inps, .rtones, .dec, .convs, .engines, .mem, .mon] s t' := by
  unfold execUnitDisable
  try dsimp only
  repeat' first
    | refine ⟨_, rfl, ?_⟩
    | with_reducible exact Based.refl _ _
    | with_reducible assumption
    | with_reducible exact Settled.refl
    | ((with_reducible apply Based.fst); · assumption)
    | ((with_reducible apply Based.snd); · assumption)
    | with_reducible apply Based.ite
    | (with_reducible apply Based.foldl; on_goal 1 => intro _ _ _)
    | ((with_reducible apply Based.trans (State.unitWrite_based ..)); · rfl)
    | split
    | exact fun _ => wrap64_lt _
    | exact id
    | dsimp only

end Sys2Proof.Machine
end

