-- ==== Sys2Proof/Laws/TouchReads.lean ====
section
/-! SUPPORT. The parts of the state that each operation of Machine/Reads.lean can change. -/

namespace Sys2Proof.Machine

open Sys2Proof

theorem State.writePlain_touches (s : State) (r : RegId) (w : Word) :
    Touches [.regs, .lows] s (State.writePlain s r w) := by
  unfold State.writePlain
  try dsimp only
  repeat' first
    | with_reducible exact Touches.refl _ _
    | with_reducible assumption
    | ((with_reducible apply Touches.fst); · assumption)
    | ((with_reducible apply Touches.snd); · assumption)
    | with_reducible apply Touches.ite
    | (with_reducible apply Touches.foldl; on_goal 1 => intro _ _ _)
    | split
    | ((with_reducible apply Touches.step (State.writeFields_touches ..)); · rfl)
    | ((with_reducible apply Touches.upd_lows); · rfl)
    | exact fun _ => wrap64_lt _
    | exact id
    | dsimp only

theorem State.readReg_touches (s : State) (r : RegId) :
    Touches [.free, .rdata, .latch, .counts, .recent] s (State.readReg s r) := by
  unfold State.readReg
  try dsimp only
  repeat' first
    | with_reducible exact Touches.refl _ _
    | with_reducible assumption
    | ((with_reducible apply Touches.fst); · assumption)
    | ((with_reducible apply Touches.snd); · assumption)
    | with_reducible apply Touches.ite
    | (with_reducible apply Touches.foldl; on_goal 1 => intro _ _ _)
    | split
    | ((with_reducible apply Touches.step (State.tick_touches ..)); · rfl)
    | ((with_reducible apply Touches.step (State.clearCount_touches ..)); · rfl)
    | ((with_reducible apply Touches.upd_rdata); · rfl)
    | ((with_reducible apply Touches.upd_rdata_latch); · rfl)
    | exact fun _ => wrap64_lt _
    | exact id
    | dsimp only

theorem State.readWord_touches (s : State) (off : Nat) :
    Touches [.free, .rdata, .latch, .counts, .recent] s (State.readWord s off) := by
  unfold State.readWord
  try dsimp only
  repeat' first
    | with_reducible exact Touches.refl _ _
    | with_reducible assumption
    | ((with_reducible apply Touches.fst); · assumption)
    | ((with_reducible apply Touches.snd); · assumption)
    | with_reducible apply Touches.ite
    | (with_reducible apply Touches.foldl; on_goal 1 => intro _ _ _)
    | split
    | ((with_reducible apply Touches.step (State.readReg_touches ..)); · rfl)
    | ((with_reducible apply Touches.upd_rdata); · rfl)
    | exact fun _ => wrap64_lt _
    | exact id
    | dsimp only

theorem execRcRead_based (t : BitVec 64) (off : BitVec 24) (s : State) :
    ∃ t', execRcRead t off s = .next t' ∧ Based [.now, .free, .rdata, .latch, .counts, .recent] s t' := by
  unfold execRcRead
  try dsimp only
  repeat' first
    | refine ⟨_, rfl, ?_⟩
    | with_reducible exact Based.refl _ _
    | with_reducible assumption
    | with_reducible exact Settled.refl
    | ((with_reducible apply Based.fst); · assumption)
    | ((with_reducible apply Based.snd); · assumption)
    | with_reducible apply Based.ite
    | (with_reducible apply Based.foldl; on_goal 1 => intro _ _ _)
    | ((with_reducible apply Based.step (State.readWord_touches ..)); · rfl)
    | ((with_reducible apply State.upTo_based); · rfl)
    | split
    | exact fun _ => wrap64_lt _
    | exact id
    | dsimp only

theorem execReg64LowRead_based (t : BitVec 64) (off : BitVec 24) (s : State) :
    ∃ t', execReg64LowRead t off s = .next t' ∧ Based [.now, .free, .rdata, .latch, .counts, .recent] s t' := by
  unfold execReg64LowRead
  try dsimp only
  repeat' first
    | refine ⟨_, rfl, ?_⟩
    | with_reducible exact Based.refl _ _
    | with_reducible assumption
    | with_reducible exact Settled.refl
    | ((with_reducible apply Based.fst); · assumption)
    | ((with_reducible apply Based.snd); · assumption)
    | with_reducible apply Based.ite
    | (with_reducible apply Based.foldl; on_goal 1 => intro _ _ _)
    | ((with_reducible apply Based.step (State.readWord_touches ..)); · rfl)
    | ((with_reducible apply State.upTo_based); · rfl)
    | split
    | exact fun _ => wrap64_lt _
    | exact id
    | dsimp only

end Sys2Proof.Machine
end

