-- ==== Sys2Proof/Laws/TouchAccess.lean ====
section
/-! SUPPORT. The parts of the state that each operation of Machine/Access.lean can change. -/

namespace Sys2Proof.Machine

open Sys2Proof

theorem State.wrFlags_touches (s : State) (r : RegId) (w : Word) :
    Touches [.flags, .outs] s (State.wrFlags s r w) := by
  unfold State.wrFlags
  try dsimp only
  repeat' first
    | with_reducible exact Touches.refl _ _
    | with_reducible assumption
    | ((with_reducible apply Touches.fst); · assumption)
    | ((with_reducible apply Touches.snd); · assumption)
    | with_reducible apply Touches.ite
    | (with_reducible apply Touches.foldl; on_goal 1 => intro _ _ _)
    | ((with_reducible apply Touches.step (State.clearComply_touches ..)); · rfl)
    | ((with_reducible apply Touches.step (State.clearFlags_touches ..)); · rfl)
    | split
    | exact fun _ => wrap64_lt _
    | exact id
    | dsimp only

theorem State.wrHub_touches (s : State) (r : RegId) (w : Word) :
    Touches [.now, .free, .regs, .lows, .held, .frameLog, .flags, .counts, .flagAt, .recent, .ev, .queues, .mode, .plies, .strands, .cores, .units, .outs, .inps, .rtones, .dec, .hch, .convs, .engines, .pwr, .mc, .mem, .sync, .ptp, .hif, .mon, .tio] s (State.wrHub s r w) := by
  unfold State.wrHub
  try dsimp only
  repeat' first
    | with_reducible exact Touches.refl _ _
    | with_reducible assumption
    | ((with_reducible apply Touches.fst); · assumption)
    | ((with_reducible apply Touches.snd); · assumption)
    | with_reducible apply Touches.ite
    | (with_reducible apply Touches.foldl; on_goal 1 => intro _ _ _)
    | ((with_reducible apply Touches.step (State.wrModeCtl_touches ..)); · rfl)
    | ((with_reducible apply Touches.step (State.wrMcCtl_touches ..)); · rfl)
    | ((with_reducible apply Touches.step (State.tick_touches ..)); · rfl)
    | ((with_reducible apply Touches.step (State.wrMbCmd_touches ..)); · rfl)
    | ((with_reducible apply Touches.step (State.wrJrnSel_touches ..)); · rfl)
    | ((with_reducible apply Touches.step (State.wrQctl_touches ..)); · rfl)
    | ((with_reducible apply Touches.step (State.wrQueueReg_touches ..)); · rfl)
    | ((with_reducible apply Touches.step (State.wrKick_touches ..)); · rfl)
    | ((with_reducible apply Touches.step (State.wrRingCtl_touches ..)); · rfl)
    | ((with_reducible apply Touches.step (State.writePlain_touches ..)); · rfl)
    | ((with_reducible apply Touches.step (State.wrRingReg_touches ..)); · rfl)
    | ((with_reducible apply Touches.step (State.wrSyncCtl_touches ..)); · rfl)
    | ((with_reducible apply Touches.step (State.wrEpochHi_touches ..)); · rfl)
    | ((with_reducible apply Touches.step (State.wrPtpCtl_touches ..)); · rfl)
    | ((with_reducible apply Touches.step (State.wrHchCtl_touches ..)); · rfl)
    | ((with_reducible apply Touches.step (State.wrDirCtl_touches ..)); · rfl)
    | ((with_reducible apply Touches.step (State.wrLaneCtl_touches ..)); · rfl)
    | ((with_reducible apply Touches.step (State.wrTxMap_touches ..)); · rfl)
    | ((with_reducible apply Touches.step (State.wrDecCtl_touches ..)); · rfl)
    | ((with_reducible apply Touches.step (State.wrDctl_touches ..)); · rfl)
    | ((with_reducible apply Touches.step (State.wrImport_touches ..)); · rfl)
    | ((with_reducible apply Touches.step (State.wrDieMark_touches ..)); · rfl)
    | ((with_reducible apply Touches.step (State.wrTestCtl_touches ..)); · rfl)
    | ((with_reducible apply Touches.step (State.wrMonCtl_touches ..)); · rfl)
    | ((with_reducible apply Touches.step (State.wrTioIn_touches ..)); · rfl)
    | ((with_reducible apply Touches.step (State.wrTrig_touches ..)); · rfl)
    | ((with_reducible apply Touches.step (State.wrPlyClk_touches ..)); · rfl)
    | split
    | exact fun _ => wrap64_lt _
    | exact id
    | dsimp only

theorem State.wrStrand_touches (s : State) (r : RegId) (w : Word) (b : Nat) :
    Touches [.regs, .lows, .held, .frameW, .frameLog, .flags, .counts, .flagAt, .recent, .ev, .queues, .plies, .strands, .cores, .units, .outs, .inps, .rtones, .dec, .convs, .engines, .mem] s (State.wrStrand s r w b) := by
  unfold State.wrStrand
  try dsimp only
  repeat' first
    | with_reducible exact Touches.refl _ _
    | with_reducible assumption
    | ((with_reducible apply Touches.fst); · assumption)
    | ((with_reducible apply Touches.snd); · assumption)
    | with_reducible apply Touches.ite
    | (with_reducible apply Touches.foldl; on_goal 1 => intro _ _ _)
    | ((with_reducible apply Touches.step (State.wrSeqCtl_touches ..)); · rfl)
    | ((with_reducible apply Touches.step (State.wrOwn_touches ..)); · rfl)
    | ((with_reducible apply Touches.step (State.wrTone_touches ..)); · rfl)
    | ((with_reducible apply Touches.step (State.wrRfCtl_touches ..)); · rfl)
    | ((with_reducible apply Touches.step (State.wrBbCtl_touches ..)); · rfl)
    | ((with_reducible apply Touches.step (State.notePhases_touches ..)); · rfl)
    | ((with_reducible apply Touches.step (State.writePlain_touches ..)); · rfl)
    | ((with_reducible apply Touches.step (State.wrOut_touches ..)); · rfl)
    | ((with_reducible apply Touches.step (State.wrStatic_touches ..)); · rfl)
    | ((with_reducible apply Touches.step (State.wrFrame_touches ..)); · rfl)
    | ((with_reducible apply Touches.step (State.wrInCtl_touches ..)); · rfl)
    | ((with_reducible apply Touches.step (State.wrDiscCtl_touches ..)); · rfl)
    | split
    | exact fun _ => wrap64_lt _
    | exact id
    | dsimp only

theorem State.writeReg_touches (s : State) (r : RegId) (w : Word) :
    Touches [.now, .free, .regs, .lows, .held, .frameW, .frameLog, .flags, .counts, .flagAt, .recent, .ev, .queues, .mode, .plies, .strands, .cores, .units, .outs, .inps, .rtones, .dec, .hch, .convs, .engines, .pwr, .mc, .mem, .sync, .ptp, .hif, .mon, .tio] s (State.writeReg s r w) := by
  unfold State.writeReg
  try dsimp only
  repeat' first
    | with_reducible exact Touches.refl _ _
    | with_reducible assumption
    | ((with_reducible apply Touches.fst); · assumption)
    | ((with_reducible apply Touches.snd); · assumption)
    | with_reducible apply Touches.ite
    | (with_reducible apply Touches.foldl; on_goal 1 => intro _ _ _)
    | ((with_reducible apply Touches.step (State.wrFlags_touches ..)); · rfl)
    | ((with_reducible apply Touches.step (State.wrHub_touches ..)); · rfl)
    | ((with_reducible apply Touches.step (State.wrStrCtl_touches ..)); · rfl)
    | ((with_reducible apply State.toTable_closed (Touches.closed _ _)); (· rfl); on_goal 1 => intro _ _ _)
    | ((with_reducible apply Touches.step (State.wrStrand_touches ..)); · rfl)
    | ((with_reducible apply State.toStrand_closed (Touches.closed _ _)); (· rfl); on_goal 1 => intro _ _ _)
    | split
    | exact fun _ => wrap64_lt _
    | exact id
    | dsimp only

theorem State.writeWord_touches (s : State) (off : Nat) (w : Word) :
    Touches [.now, .free, .regs, .lows, .held, .frameW, .frameLog, .flags, .counts, .flagAt, .recent, .ev, .queues, .mode, .plies, .strands, .cores, .units, .outs, .inps, .rtones, .dec, .hch, .convs, .engines, .pwr, .mc, .mem, .sync, .ptp, .hif, .mon, .tio] s (State.writeWord s off w) := by
  unfold State.writeWord
  try dsimp only
  repeat' first
    | with_reducible exact Touches.refl _ _
    | with_reducible assumption
    | ((with_reducible apply Touches.fst); · assumption)
    | ((with_reducible apply Touches.snd); · assumption)
    | with_reducible apply Touches.ite
    | (with_reducible apply Touches.foldl; on_goal 1 => intro _ _ _)
    | ((with_reducible apply Touches.step (State.writeReg_touches ..)); · rfl)
    | split
    | exact fun _ => wrap64_lt _
    | exact id
    | dsimp only

theorem execProfileWrite_based (t : BitVec 64) (off : BitVec 24) (w : Word) (s : State) :
    ∃ t', execProfileWrite t off w s = .next t' ∧ Based [.now, .free, .regs, .lows, .held, .frameW, .frameLog, .flags, .counts, .flagAt, .recent, .ev, .queues, .mode, .plies, .strands, .cores, .units, .outs, .inps, .rtones, .dec, .hch, .convs, .engines, .pwr, .mc, .mem, .sync, .ptp, .hif, .mon, .tio] s t' := by
  unfold execProfileWrite
  try dsimp only
  repeat' first
    | refine ⟨_, rfl, ?_⟩
    | with_reducible exact Based.refl _ _
    | with_reducible assumption
    | with_reducible exact Settled.refl
    | ((with_reducible apply Based.fst); · assumption)
    | ((with_reducible apply Based.snd); · assumption)
    | with_reducible apply Based.ite
    | (with_reducible apply Based.foldl; on_goal 1 => intro _ _ _)
    | ((with_reducible apply Based.step (State.writeWord_touches ..)); · rfl)
    | ((with_reducible apply State.upTo_based); · rfl)
    | split
    | exact fun _ => wrap64_lt _
    | exact id
    | dsimp only

theorem execW1cWrite_based (t : BitVec 64) (off : BitVec 24) (w : Word) (s : State) :
    ∃ t', execW1cWrite t off w s = .next t' ∧ Based [.now, .free, .regs, .lows, .held, .frameW, .frameLog, .flags, .counts, .flagAt, .recent, .ev, .queues, .mode, .plies, .strands, .cores, .units, .outs, .inps, .rtones, .dec, .hch, .convs, .engines, .pwr, .mc, .mem, .sync, .ptp, .hif, .mon, .tio] s t' := by
  unfold execW1cWrite
  try dsimp only
  repeat' first
    | refine ⟨_, rfl, ?_⟩
    | with_reducible exact Based.refl _ _
    | with_reducible assumption
    | with_reducible exact Settled.refl
    | ((with_reducible apply Based.fst); · assumption)
    | ((with_reducible apply Based.snd); · assumption)
    | with_reducible apply Based.ite
    | (with_reducible apply Based.foldl; on_goal 1 => intro _ _ _)
    | ((with_reducible apply Based.step (State.writeWord_touches ..)); · rfl)
    | ((with_reducible apply State.upTo_based); · rfl)
    | split
    | exact fun _ => wrap64_lt _
    | exact id
    | dsimp only

theorem execReg64HighWrite_based (t : BitVec 64) (off : BitVec 24) (w : Word) (s : State) :
    ∃ t', execReg64HighWrite t off w s = .next t' ∧ Based [.now, .free, .regs, .lows, .held, .frameW, .frameLog, .flags, .counts, .flagAt, .recent, .ev, .queues, .mode, .plies, .strands, .cores, .units, .outs, .inps, .rtones, .dec, .hch, .convs, .engines, .pwr, .mc, .mem, .sync, .ptp, .hif, .mon, .tio] s t' := by
  unfold execReg64HighWrite
  try dsimp only
  repeat' first
    | refine ⟨_, rfl, ?_⟩
    | with_reducible exact Based.refl _ _
    | with_reducible assumption
    | with_reducible exact Settled.refl
    | ((with_reducible apply Based.fst); · assumption)
    | ((with_reducible apply Based.snd); · assumption)
    | with_reducible apply Based.ite
    | (with_reducible apply Based.foldl; on_goal 1 => intro _ _ _)
    | ((with_reducible apply Based.step (State.writeWord_touches ..)); · rfl)
    | ((with_reducible apply State.upTo_based); · rfl)
    | split
    | exact fun _ => wrap64_lt _
    | exact id
    | dsimp only

theorem execRegisterWrite_based (t : BitVec 64) (off : BitVec 24) (w : Word) (be : BitVec 4) (s : State) :
    ∃ t', execRegisterWrite t off w be s = .next t' ∧ Based [.now, .free, .regs, .lows, .held, .frameW, .frameLog, .flags, .counts, .flagAt, .recent, .ev, .queues, .mode, .plies, .strands, .cores, .units, .outs, .inps, .rtones, .dec, .hch, .convs, .engines, .pwr, .mc, .mem, .sync, .ptp, .hif, .mon, .tio] s t' := by
  unfold execRegisterWrite
  try dsimp only
  repeat' first
    | refine ⟨_, rfl, ?_⟩
    | with_reducible exact Based.refl _ _
    | with_reducible assumption
    | with_reducible exact Settled.refl
    | ((with_reducible apply Based.fst); · assumption)
    | ((with_reducible apply Based.snd); · assumption)
    | with_reducible apply Based.ite
    | (with_reducible apply Based.foldl; on_goal 1 => intro _ _ _)
    | ((with_reducible apply Based.step (State.writeWord_touches ..)); · rfl)
    | ((with_reducible apply State.upTo_based); · rfl)
    | split
    | exact fun _ => wrap64_lt _
    | exact id
    | dsimp only

theorem State.replay_touches (s : State) (k : Nat) (acted : Bool) :
    Touches [.regs, .lows, .held, .frameW, .frameLog, .flags, .counts, .flagAt, .recent, .ev, .queues, .plies, .strands, .cores, .units, .outs, .inps, .rtones, .dec, .convs, .engines, .mem] s (State.replay s k acted) := by
  unfold State.replay
  try dsimp only
  repeat' first
    | with_reducible exact Touches.refl _ _
    | with_reducible assumption
    | ((with_reducible apply Touches.fst); · assumption)
    | ((with_reducible apply Touches.snd); · assumption)
    | with_reducible apply Touches.ite
    | (with_reducible apply Touches.foldl; on_goal 1 => intro _ _ _)
    | ((with_reducible apply Touches.step (State.wrStrand_touches ..)); · rfl)
    | ((with_reducible apply Touches.step (State.setStrand_touches ..)); · rfl)
    | split
    | exact fun _ => wrap64_lt _
    | exact id
    | dsimp only

theorem State.strandUngated_based (s : State) (k : Nat) :
    Based [.now, .regs, .lows, .held, .frameW, .frameLog, .flags, .counts, .flagAt, .recent, .ev, .queues, .plies, .strands, .cores, .units, .outs, .inps, .rtones, .dec, .convs, .engines, .mem] s (State.strandUngated s k) := by
  unfold State.strandUngated
  try dsimp only
  repeat' first
    | with_reducible exact Based.refl _ _
    | with_reducible assumption
    | with_reducible exact Settled.refl
    | ((with_reducible apply Based.fst); · assumption)
    | ((with_reducible apply Based.snd); · assumption)
    | with_reducible apply Based.ite
    | (with_reducible apply Based.foldl; on_goal 1 => intro _ _ _)
    | ((with_reducible apply State.toTime_based); · rfl)
    | ((with_reducible apply Based.step (State.replay_touches ..)); · rfl)
    | ((with_reducible apply Based.step (State.setStrand_touches ..)); · rfl)
    | ((with_reducible apply Based.step (State.dueIfOld_touches ..)); · rfl)
    | ((with_reducible apply Based.step (State.startGate_touches ..)); · rfl)
    | split
    | exact fun _ => wrap64_lt _
    | exact id
    | dsimp only

theorem execStrandUngated_based (k : Fin 32) (s : State) :
    ∃ t', execStrandUngated k s = .next t' ∧ Based [.now, .regs, .lows, .held, .frameW, .frameLog, .flags, .counts, .flagAt, .recent, .ev, .queues, .plies, .strands, .cores, .units, .outs, .inps, .rtones, .dec, .convs, .engines, .mem] s t' := by
  unfold execStrandUngated
  try dsimp only
  repeat' first
    | refine ⟨_, rfl, ?_⟩
    | with_reducible exact Based.refl _ _
    | with_reducible assumption
    | with_reducible exact Settled.refl
    | ((with_reducible apply Based.fst); · assumption)
    | ((with_reducible apply Based.snd); · assumption)
    | with_reducible apply Based.ite
    | (with_reducible apply Based.foldl; on_goal 1 => intro _ _ _)
    | ((with_reducible apply Based.trans (State.strandUngated_based ..)); · rfl)
    | split
    | exact fun _ => wrap64_lt _
    | exact id
    | dsimp only

theorem State.strandResetDone_based (s : State) (k t : Nat) :
    Based [.now, .regs, .lows, .held, .frameW, .frameLog, .flags, .counts, .flagAt, .recent, .ev, .queues, .plies, .strands, .cores, .units, .outs, .inps, .rtones, .dec, .convs, .engines, .mem] s (State.strandResetDone s k t) := by
  unfold State.strandResetDone
  try dsimp only
  repeat' first
    | with_reducible exact Based.refl _ _
    | with_reducible assumption
    | with_reducible exact Settled.refl
    | ((with_reducible apply Based.fst); · assumption)
    | ((with_reducible apply Based.snd); · assumption)
    | with_reducible apply Based.ite
    | (with_reducible apply Based.foldl; on_goal 1 => intro _ _ _)
    | ((with_reducible apply State.toTime_based); · rfl)
    | ((with_reducible apply Based.step (State.setStrand_touches ..)); · rfl)
    | ((with_reducible apply Based.step (State.replay_touches ..)); · rfl)
    | split
    | exact fun _ => wrap64_lt _
    | exact id
    | dsimp only

theorem execStrandResetDone_based (t : BitVec 64) (k : Fin 32) (s : State) :
    ∃ t', execStrandResetDone t k s = .next t' ∧ Based [.now, .regs, .lows, .held, .frameW, .frameLog, .flags, .counts, .flagAt, .recent, .ev, .queues, .plies, .strands, .cores, .units, .outs, .inps, .rtones, .dec, .convs, .engines, .mem] s t' := by
  unfold execStrandResetDone
  try dsimp only
  repeat' first
    | refine ⟨_, rfl, ?_⟩
    | with_reducible exact Based.refl _ _
    | with_reducible assumption
    | with_reducible exact Settled.refl
    | ((with_reducible apply Based.fst); · assumption)
    | ((with_reducible apply Based.snd); · assumption)
    | with_reducible apply Based.ite
    | (with_reducible apply Based.foldl; on_goal 1 => intro _ _ _)
    | ((with_reducible apply Based.trans (State.strandResetDone_based ..)); · rfl)
    | split
    | exact fun _ => wrap64_lt _
    | exact id
    | dsimp only

theorem State.heldApply_touches (s : State) (r : RegId) :
    Touches [.regs, .held, .flags, .counts, .flagAt, .recent, .ev, .queues, .plies, .strands, .cores, .units, .outs, .inps, .rtones, .dec, .convs, .engines, .mem, .tio] s (State.heldApply s r) := by
  unfold State.heldApply
  try dsimp only
  repeat' first
    | with_reducible exact Touches.refl _ _
    | with_reducible assumption
    | ((with_reducible apply Touches.fst); · assumption)
    | ((with_reducible apply Touches.snd); · assumption)
    | with_reducible apply Touches.ite
    | (with_reducible apply Touches.foldl; on_goal 1 => intro _ _ _)
    | ((with_reducible apply Touches.step (State.applyImports_touches ..)); · rfl)
    | ((with_reducible apply Touches.step (State.wrOwn_touches ..)); · rfl)
    | ((with_reducible apply Touches.step (State.wrRfCtl_touches ..)); · rfl)
    | ((with_reducible apply Touches.step (State.wrBbCtl_touches ..)); · rfl)
    | ((with_reducible apply Touches.step (State.wrRange_touches ..)); · rfl)
    | ((with_reducible apply Touches.step (State.wrInCtl_touches ..)); · rfl)
    | ((with_reducible apply Touches.step (State.wrTrig_touches ..)); · rfl)
    | split
    | exact fun _ => wrap64_lt _
    | exact id
    | dsimp only

theorem execHeldWriteApply_based (t : BitVec 64) (off : BitVec 24) (s : State) :
    ∃ t', execHeldWriteApply t off s = .next t' ∧ Based [.now, .regs, .held, .flags, .counts, .flagAt, .recent, .ev, .queues, .plies, .strands, .cores, .units, .outs, .inps, .rtones, .dec, .convs, .engines, .mem, .tio] s t' := by
  unfold execHeldWriteApply
  try dsimp only
  repeat' first
    | refine ⟨_, rfl, ?_⟩
    | with_reducible exact Based.refl _ _
    | with_reducible assumption
    | with_reducible exact Settled.refl
    | ((with_reducible apply Based.fst); · assumption)
    | ((with_reducible apply Based.snd); · assumption)
    | with_reducible apply Based.ite
    | (with_reducible apply Based.foldl; on_goal 1 => intro _ _ _)
    | ((with_reducible apply Based.step (State.heldApply_touches ..)); · rfl)
    | ((with_reducible apply State.upTo_based); · rfl)
    | split
    | exact fun _ => wrap64_lt _
    | exact id
    | dsimp only

end Sys2Proof.Machine
end

