-- ==== Sys2Proof/Laws/TouchDescCore.lean ====
section
/-! SUPPORT. The parts of the state that each operation of Machine/DescCore.lean can change. -/

namespace Sys2Proof.Machine

open Sys2Proof

theorem State.finish_touches (s : State) (n : Nat) (d : List Byte) (e : Entry) :
    Touches [.flags, .counts, .flagAt, .recent, .ev, .queues, .mem, .hif] s (State.finish s n d e) := by
  unfold State.finish
  try dsimp only
  repeat' first
    | with_reducible exact Touches.refl _ _
    | with_reducible assumption
    | ((with_reducible apply Touches.fst); · assumption)
    | ((with_reducible apply Touches.snd); · assumption)
    | with_reducible apply Touches.ite
    | (with_reducible apply Touches.foldl; on_goal 1 => intro _ _ _)
    | ((with_reducible apply Touches.step (State.drained_touches ..)); · rfl)
    | ((with_reducible apply Touches.step (State.complete_touches ..)); · rfl)
    | split
    | exact fun _ => wrap64_lt _
    | exact id
    | dsimp only

theorem State.startDesc_closed {l : List Part} {P : State → Prop} (hP : Closed l P) {s : State} {n : Nat} {sel : Nat → Bool}
    {wait : State → List Byte → Bool} {run : State → List Byte → Ran} (hl : [.flags, .counts, .flagAt, .recent, .ev, .queues, .mem, .hif].all (l.contains ·) = true)
    (hf : ∀ a d, P a → P (ranState (run a d))) (h : P s) : P (s.startDesc n sel wait run) := by
  have hfin : ∀ a d e, P a → P (State.finish a n d e) := fun a d e ha => hP (State.finish_touches ..) (by simp_all) ha
  have h1 : ∀ q, P (s.setQueue (s.sqQueue n) q) := fun q => hP (State.setQueue_touches ..) (by simp_all) h
  have hd : ∀ {q d a e}, run (s.setQueue (s.sqQueue n) q) d = .done a e → P a := fun {q d a e} he => by
    have h2 := hf _ d (h1 q)
    rw [he] at h2
    exact h2
  have hg : ∀ {q d a}, run (s.setQueue (s.sqQueue n) q) d = .goesOn a → P a := fun {q d a} he => by
    have h2 := hf _ d (h1 q)
    rw [he] at h2
    exact h2
  unfold State.startDesc
  dsimp only
  split
  · exact h
  split
  · exact h
  split
  · exact h
  split
  · exact hP (State.unreadable_touches ..) (by simp_all) h
  split
  · exact hfin _ _ _ (h1 _)
  split
  · exact hfin _ _ _ (h1 _)
  split
  · exact hfin _ _ _ (h1 _)
  split
  · exact h
  split
  · rename_i he
    exact hfin _ _ _ (hd he)
  · rename_i he
    exact hg he

theorem State.toHost_touches (s : State) (d bs : List Byte) (err m : Option Nat) :
    Touches [.hostMem] s (State.toHost s d bs err m).1 := by
  unfold State.toHost
  try dsimp only
  repeat' first
    | with_reducible exact Touches.refl _ _
    | with_reducible assumption
    | ((with_reducible apply Touches.fst); · assumption)
    | ((with_reducible apply Touches.snd); · assumption)
    | with_reducible apply Touches.ite
    | (with_reducible apply Touches.foldl; on_goal 1 => intro _ _ _)
    | ((with_reducible apply Touches.upd_hostMem); · rfl)
    | split
    | exact fun _ => wrap64_lt _
    | exact id
    | dsimp only

theorem execNop_touches (t : BitVec 64) (n : Fin 64) (err : Option Nat) (s : State) :
    ∃ t', execNop t n err s = .next t' ∧ Touches [.now, .flags, .counts, .flagAt, .recent, .ev, .queues, .mem, .hif] s t' := by
  unfold execNop
  try dsimp only
  repeat' first
    | refine ⟨_, rfl, ?_⟩
    | with_reducible apply Touches.ran_done
    | with_reducible apply Touches.ran_goesOn
    | with_reducible apply Touches.ran_pair
    | with_reducible apply Touches.ran_ite
    | with_reducible exact Touches.refl _ _
    | with_reducible assumption
    | ((with_reducible apply Touches.fst); · assumption)
    | ((with_reducible apply Touches.snd); · assumption)
    | with_reducible apply Touches.ite
    | (with_reducible apply Touches.foldl; on_goal 1 => intro _ _ _)
    | ((with_reducible apply State.startDesc_closed (Touches.closed _ _)); (· rfl); on_goal 1 => intro _ _ _)
    | ((with_reducible apply Touches.step (State.at_touches ..)); · rfl)
    | split
    | exact fun _ => wrap64_lt _
    | exact id
    | dsimp only

theorem State.applyPairs_touches (s : State) (ps : List (Nat × Word)) : Touches [.now, .free, .regs, .lows, .held, .frameW, .frameLog, .flags, .counts, .flagAt, .recent, .ev, .queues, .mode, .plies, .strands, .cores, .units, .outs, .inps, .rtones, .dec, .hch, .convs, .engines, .pwr, .mc, .mem, .sync, .ptp, .hif, .mon, .tio] s (s.applyPairs ps).1 := by
  induction ps generalizing s with
  | nil => exact Touches.refl _ _
  | cons p ps ih =>
    obtain ⟨off, w⟩ := p
    unfold State.applyPairs
    split
    · exact Touches.refl _ _
    · refine Touches.step (ih _) rfl ?_
      split
      · split
        · exact Touches.refl _ _
        · exact Touches.step (State.writeReg_touches ..) rfl (Touches.refl _ _)
      · exact Touches.refl _ _

theorem State.regWrite_touches (s : State) (d : List Byte) (err : Option Nat) :
    Touches [.now, .free, .regs, .lows, .held, .frameW, .frameLog, .flags, .counts, .flagAt, .recent, .ev, .queues, .mode, .plies, .strands, .cores, .units, .outs, .inps, .rtones, .dec, .hch, .convs, .engines, .pwr, .mc, .mem, .sync, .ptp, .hif, .mon, .tio] s (ranState (State.regWrite s d err)) := by
  unfold State.regWrite
  try dsimp only
  repeat' first
    | with_reducible apply Touches.ran_done
    | with_reducible apply Touches.ran_goesOn
    | with_reducible apply Touches.ran_pair
    | with_reducible apply Touches.ran_ite
    | with_reducible exact Touches.refl _ _
    | with_reducible assumption
    | ((with_reducible apply Touches.fst); · assumption)
    | ((with_reducible apply Touches.snd); · assumption)
    | with_reducible apply Touches.ite
    | (with_reducible apply Touches.foldl; on_goal 1 => intro _ _ _)
    | ((with_reducible apply Touches.step (State.applyPairs_touches ..)); · rfl)
    | split
    | exact fun _ => wrap64_lt _
    | exact id
    | dsimp only

theorem execRegwrite_based (t : BitVec 64) (n : Fin 64) (err : Option Nat) (s : State) :
    ∃ t', execRegwrite t n err s = .next t' ∧ Based [.now, .free, .regs, .lows, .held, .frameW, .frameLog, .flags, .counts, .flagAt, .recent, .ev, .queues, .mode, .plies, .strands, .cores, .units, .outs, .inps, .rtones, .dec, .hch, .convs, .engines, .pwr, .mc, .mem, .sync, .ptp, .hif, .mon, .tio] s t' := by
  unfold execRegwrite
  try dsimp only
  repeat' first
    | refine ⟨_, rfl, ?_⟩
    | with_reducible refine Based.lift (fun _ h => Touches.ran_done h) ?_
    | with_reducible refine Based.lift (fun _ h => Touches.ran_goesOn h) ?_
    | with_reducible refine Based.lift (fun _ h => Touches.ran_pair h) ?_
    | with_reducible apply Based.ran_ite
    | with_reducible exact Based.refl _ _
    | with_reducible assumption
    | with_reducible exact Settled.refl
    | ((with_reducible apply Based.fst); · assumption)
    | ((with_reducible apply Based.snd); · assumption)
    | with_reducible apply Based.ite
    | (with_reducible apply Based.foldl; on_goal 1 => intro _ _ _)
    | ((with_reducible apply State.startDesc_closed (Based.closed _ _)); (· rfl); on_goal 1 => intro _ _ _)
    | ((with_reducible apply State.upTo_based); · rfl)
    | ((with_reducible apply Based.step (State.regWrite_touches ..)); · rfl)
    | split
    | exact fun _ => wrap64_lt _
    | exact id
    | dsimp only

end Sys2Proof.Machine
end

