-- ==== Sys2Proof/Laws/TouchLoads.lean ====
section
/-! SUPPORT. The parts of the state that each operation of Machine/Loads.lean can change. -/

namespace Sys2Proof.Machine

open Sys2Proof

theorem State.cure_touches (s : State) (m : SramId) (lo n : Nat) :
    Touches [.badWords] s (State.cure s m lo n) := by
  unfold State.cure
  try dsimp only
  repeat' first
    | with_reducible exact Touches.refl _ _
    | with_reducible assumption
    | ((with_reducible apply Touches.fst); · assumption)
    | ((with_reducible apply Touches.snd); · assumption)
    | with_reducible apply Touches.ite
    | (with_reducible apply Touches.foldl; on_goal 1 => intro _ _ _)
    | ((with_reducible apply Touches.upd_badWords); · rfl)
    | split
    | exact fun _ => wrap64_lt _
    | exact id
    | dsimp only

theorem State.sramOut_touches (s : State) (d bs : List Byte) (err : Option Nat) (m : SramId) (lo : Nat) :
    Touches [.flags, .counts, .flagAt, .recent, .ev, .queues, .mem, .hostMem] s (State.sramOut s d bs err m lo).1 := by
  unfold State.sramOut
  try dsimp only
  repeat' first
    | with_reducible exact Touches.refl _ _
    | with_reducible assumption
    | ((with_reducible apply Touches.fst); · assumption)
    | ((with_reducible apply Touches.snd); · assumption)
    | with_reducible apply Touches.ite
    | (with_reducible apply Touches.foldl; on_goal 1 => intro _ _ _)
    | ((with_reducible apply Touches.step (State.toHost_touches ..)); · rfl)
    | ((with_reducible apply Touches.step (State.sramUe_touches ..)); · rfl)
    | split
    | exact fun _ => wrap64_lt _
    | exact id
    | dsimp only

theorem State.seqLoad_touches (s : State) (d : List Byte) (err : Option Nat) :
    Touches [.flags, .counts, .flagAt, .recent, .ev, .queues, .badWords, .mem, .seqSram, .hostMem] s (ranState (State.seqLoad s d err)) := by
  unfold State.seqLoad
  try dsimp only
  repeat' first
    | with_reducible apply Touches.ran_done
    | with_reducible apply Touches.ran_goesOn
    | with_reducible apply Touches.ran_pair
    | with_reducible apply Touches.ran_ite
    | with_reducible exact Touches.refl _ _
    | with_reducible assumption
    | ((with_reducible apply Touches.fst); · assumption)
    | ((with_reducible apply Touches.snd); · assumption)
    | with_reducible apply Touches.ite
    | (with_reducible apply Touches.foldl; on_goal 1 => intro _ _ _)
    | ((with_reducible apply Touches.step (State.sramOut_touches ..)); · rfl)
    | ((with_reducible apply Touches.step (State.cure_touches ..)); · rfl)
    | ((with_reducible apply Touches.upd_seqSram); · rfl)
    | split
    | exact fun _ => wrap64_lt _
    | exact id
    | dsimp only

theorem execSeqload_based (t : BitVec 64) (n : Fin 64) (err : Option Nat) (s : State) :
    ∃ t', execSeqload t n err s = .next t' ∧ Based [.now, .flags, .counts, .flagAt, .recent, .ev, .queues, .badWords, .mem, .hif, .seqSram, .hostMem] s t' := by
  unfold execSeqload
  try dsimp only
  repeat' first
    | refine ⟨_, rfl, ?_⟩
    | with_reducible refine Based.lift (fun _ h => Touches.ran_done h) ?_
    | with_reducible refine Based.lift (fun _ h => Touches.ran_goesOn h) ?_
    | with_reducible refine Based.lift (fun _ h => Touches.ran_pair h) ?_
    | with_reducible apply Based.ran_ite
    | with_reducible exact Based.refl _ _
    | with_reducible assumption
    | with_reducible exact Settled.refl
    | ((with_reducible apply Based.fst); · assumption)
    | ((with_reducible apply Based.snd); · assumption)
    | with_reducible apply Based.ite
    | (with_reducible apply Based.foldl; on_goal 1 => intro _ _ _)
    | ((with_reducible apply State.startDesc_closed (Based.closed _ _)); (· rfl); on_goal 1 => intro _ _ _)
    | ((with_reducible apply State.upTo_based); · rfl)
    | ((with_reducible apply Based.step (State.seqLoad_touches ..)); · rfl)
    | split
    | exact fun _ => wrap64_lt _
    | exact id
    | dsimp only

theorem State.envLoad_touches (s : State) (d : List Byte) (err : Option Nat) :
    Touches [.flags, .counts, .flagAt, .recent, .ev, .queues, .units, .badWords, .mem, .envSram, .hostMem] s (ranState (State.envLoad s d err)) := by
  unfold State.envLoad
  try dsimp only
  repeat' first
    | with_reducible apply Touches.ran_done
    | with_reducible apply Touches.ran_goesOn
    | with_reducible apply Touches.ran_pair
    | with_reducible apply Touches.ran_ite
    | with_reducible exact Touches.refl _ _
    | with_reducible assumption
    | ((with_reducible apply Touches.fst); · assumption)
    | ((with_reducible apply Touches.snd); · assumption)
    | with_reducible apply Touches.ite
    | (with_reducible apply Touches.foldl; on_goal 1 => intro _ _ _)
    | ((with_reducible apply Touches.step (State.sramOut_touches ..)); · rfl)
    | ((with_reducible apply Touches.step (State.freezeEnv_touches ..)); · rfl)
    | ((with_reducible apply Touches.step (State.cure_touches ..)); · rfl)
    | ((with_reducible apply Touches.upd_envSram); · rfl)
    | split
    | exact fun _ => wrap64_lt _
    | exact id
    | dsimp only

theorem execEnvload_based (t : BitVec 64) (n : Fin 64) (err : Option Nat) (s : State) :
    ∃ t', execEnvload t n err s = .next t' ∧ Based [.now, .flags, .counts, .flagAt, .recent, .ev, .queues, .units, .badWords, .mem, .hif, .envSram, .hostMem] s t' := by
  unfold execEnvload
  try dsimp only
  repeat' first
    | refine ⟨_, rfl, ?_⟩
    | with_reducible refine Based.lift (fun _ h => Touches.ran_done h) ?_
    | with_reducible refine Based.lift (fun _ h => Touches.ran_goesOn h) ?_
    | with_reducible refine Based.lift (fun _ h => Touches.ran_pair h) ?_
    | with_reducible apply Based.ran_ite
    | with_reducible exact Based.refl _ _
    | with_reducible assumption
    | with_reducible exact Settled.refl
    | ((with_reducible apply Based.fst); · assumption)
    | ((with_reducible apply Based.snd); · assumption)
    | with_reducible apply Based.ite
    | (with_reducible apply Based.foldl; on_goal 1 => intro _ _ _)
    | ((with_reducible apply State.startDesc_closed (Based.closed _ _)); (· rfl); on_goal 1 => intro _ _ _)
    | ((with_reducible apply State.upTo_based); · rfl)
    | ((with_reducible apply Based.step (State.envLoad_touches ..)); · rfl)
    | split
    | exact fun _ => wrap64_lt _
    | exact id
    | dsimp only

theorem State.loadEntries_touches (s : State) (k e m : Nat) (bs : List Byte) :
    Touches [.badWords, .envTab] s (s.loadEntries k e m bs).1 := by
  induction m generalizing s e bs with
  | zero => exact Touches.refl _ _
  | succ m ih =>
    unfold State.loadEntries
    split
    · exact Touches.step (ih _ _ _) rfl (Touches.step (State.cure_touches ..) rfl (Touches.upd_envTab rfl (Touches.refl _ _)))
    · exact ih _ _ _

theorem State.envTable_touches (s : State) (d : List Byte) (err : Option Nat) :
    Touches [.flags, .counts, .flagAt, .recent, .ev, .queues, .badWords, .mem, .envTab, .hostMem] s (ranState (State.envTable s d err)) := by
  unfold State.envTable
  try dsimp only
  repeat' first
    | with_reducible apply Touches.ran_done
    | with_reducible apply Touches.ran_goesOn
    | with_reducible apply Touches.ran_pair
    | with_reducible apply Touches.ran_ite
    | with_reducible exact Touches.refl _ _
    | with_reducible assumption
    | ((with_reducible apply Touches.fst); · assumption)
    | ((with_reducible apply Touches.snd); · assumption)
    | with_reducible apply Touches.ite
    | (with_reducible apply Touches.foldl; on_goal 1 => intro _ _ _)
    | ((with_reducible apply Touches.step (State.sramOut_touches ..)); · rfl)
    | ((with_reducible apply Touches.step (State.loadEntries_touches ..)); · rfl)
    | split
    | exact fun _ => wrap64_lt _
    | exact id
    | dsimp only

theorem execEnvtable_based (t : BitVec 64) (n : Fin 64) (err : Option Nat) (s : State) :
    ∃ t', execEnvtable t n err s = .next t' ∧ Based [.now, .flags, .counts, .flagAt, .recent, .ev, .queues, .badWords, .mem, .hif, .envTab, .hostMem] s t' := by
  unfold execEnvtable
  try dsimp only
  repeat' first
    | refine ⟨_, rfl, ?_⟩
    | with_reducible refine Based.lift (fun _ h => Touches.ran_done h) ?_
    | with_reducible refine Based.lift (fun _ h => Touches.ran_goesOn h) ?_
    | with_reducible refine Based.lift (fun _ h => Touches.ran_pair h) ?_
    | with_reducible apply Based.ran_ite
    | with_reducible exact Based.refl _ _
    | with_reducible assumption
    | with_reducible exact Settled.refl
    | ((with_reducible apply Based.fst); · assumption)
    | ((with_reducible apply Based.snd); · assumption)
    | with_reducible apply Based.ite
    | (with_reducible apply Based.foldl; on_goal 1 => intro _ _ _)
    | ((with_reducible apply State.startDesc_closed (Based.closed _ _)); (· rfl); on_goal 1 => intro _ _ _)
    | ((with_reducible apply State.upTo_based); · rfl)
    | ((with_reducible apply Based.step (State.envTable_touches ..)); · rfl)
    | split
    | exact fun _ => wrap64_lt _
    | exact id
    | dsimp only

theorem State.freezeKernel_touches (s : State) (k r : Nat) :
    Touches [.rtones] s (State.freezeKernel s k r) := by
  unfold State.freezeKernel
  try dsimp only
  repeat' first
    | with_reducible exact Touches.refl _ _
    | with_reducible assumption
    | ((with_reducible apply Touches.fst); · assumption)
    | ((with_reducible apply Touches.snd); · assumption)
    | with_reducible apply Touches.ite
    | (with_reducible apply Touches.foldl; on_goal 1 => intro _ _ _)
    | ((with_reducible apply Touches.step (State.setRtone_touches ..)); · rfl)
    | split
    | exact fun _ => wrap64_lt _
    | exact id
    | dsimp only

theorem State.kernelLoad_touches (s : State) (d : List Byte) (err : Option Nat) :
    Touches [.flags, .counts, .flagAt, .recent, .ev, .queues, .rtones, .badWords, .mem, .kernel, .hostMem] s (ranState (State.kernelLoad s d err)) := by
  unfold State.kernelLoad
  try dsimp only
  repeat' first
    | with_reducible apply Touches.ran_done
    | with_reducible apply Touches.ran_goesOn
    | with_reducible apply Touches.ran_pair
    | with_reducible apply Touches.ran_ite
    | with_reducible exact Touches.refl _ _
    | with_reducible assumption
    | ((with_reducible apply Touches.fst); · assumption)
    | ((with_reducible apply Touches.snd); · assumption)
    | with_reducible apply Touches.ite
    | (with_reducible apply Touches.foldl; on_goal 1 => intro _ _ _)
    | ((with_reducible apply Touches.step (State.sramOut_touches ..)); · rfl)
    | ((with_reducible apply Touches.step (State.freezeKernel_touches ..)); · rfl)
    | ((with_reducible apply Touches.step (State.cure_touches ..)); · rfl)
    | ((with_reducible apply Touches.upd_kernel); · rfl)
    | split
    | exact fun _ => wrap64_lt _
    | exact id
    | dsimp only

theorem execKernel_based (t : BitVec 64) (n : Fin 64) (err : Option Nat) (s : State) :
    ∃ t', execKernel t n err s = .next t' ∧ Based [.now, .flags, .counts, .flagAt, .recent, .ev, .queues, .rtones, .badWords, .mem, .hif, .kernel, .hostMem] s t' := by
  unfold execKernel
  try dsimp only
  repeat' first
    | refine ⟨_, rfl, ?_⟩
    | with_reducible refine Based.lift (fun _ h => Touches.ran_done h) ?_
    | with_reducible refine Based.lift (fun _ h => Touches.ran_goesOn h) ?_
    | with_reducible refine Based.lift (fun _ h => Touches.ran_pair h) ?_
    | with_reducible apply Based.ran_ite
    | with_reducible exact Based.refl _ _
    | with_reducible assumption
    | with_reducible exact Settled.refl
    | ((with_reducible apply Based.fst); · assumption)
    | ((with_reducible apply Based.snd); · assumption)
    | with_reducible apply Based.ite
    | (with_reducible apply Based.foldl; on_goal 1 => intro _ _ _)
    | ((with_reducible apply State.startDesc_closed (Based.closed _ _)); (· rfl); on_goal 1 => intro _ _ _)
    | ((with_reducible apply State.upTo_based); · rfl)
    | ((with_reducible apply Based.step (State.kernelLoad_touches ..)); · rfl)
    | split
    | exact fun _ => wrap64_lt _
    | exact id
    | dsimp only

theorem State.truthTable_touches (s : State) (d : List Byte) (err : Option Nat) :
    Touches [.regs, .dec, .hostMem] s (ranState (State.truthTable s d err)) := by
  unfold State.truthTable
  try dsimp only
  repeat' first
    | with_reducible apply Touches.ran_done
    | with_reducible apply Touches.ran_goesOn
    | with_reducible apply Touches.ran_pair
    | with_reducible apply Touches.ran_ite
    | with_reducible exact Touches.refl _ _
    | with_reducible assumption
    | ((with_reducible apply Touches.fst); · assumption)
    | ((with_reducible apply Touches.snd); · assumption)
    | with_reducible apply Touches.ite
    | (with_reducible apply Touches.foldl; on_goal 1 => intro _ _ _)
    | ((with_reducible apply Touches.step (State.toHost_touches ..)); · rfl)
    | ((with_reducible apply Touches.step (State.setFld_touches ..)); · rfl)
    | ((with_reducible apply Touches.upd_dec); · rfl)
    | split
    | exact fun _ => wrap64_lt _
    | exact id
    | dsimp only

theorem execTruthtable_touches (t : BitVec 64) (n : Fin 64) (err : Option Nat) (s : State) :
    ∃ t', execTruthtable t n err s = .next t' ∧ Touches [.now, .regs, .flags, .counts, .flagAt, .recent, .ev, .queues, .dec, .mem, .hif, .hostMem] s t' := by
  unfold execTruthtable
  try dsimp only
  repeat' first
    | refine ⟨_, rfl, ?_⟩
    | with_reducible apply Touches.ran_done
    | with_reducible apply Touches.ran_goesOn
    | with_reducible apply Touches.ran_pair
    | with_reducible apply Touches.ran_ite
    | with_reducible exact Touches.refl _ _
    | with_reducible assumption
    | ((with_reducible apply Touches.fst); · assumption)
    | ((with_reducible apply Touches.snd); · assumption)
    | with_reducible apply Touches.ite
    | (with_reducible apply Touches.foldl; on_goal 1 => intro _ _ _)
    | ((with_reducible apply State.startDesc_closed (Touches.closed _ _)); (· rfl); on_goal 1 => intro _ _ _)
    | ((with_reducible apply Touches.step (State.at_touches ..)); · rfl)
    | ((with_reducible apply Touches.step (State.truthTable_touches ..)); · rfl)
    | split
    | exact fun _ => wrap64_lt _
    | exact id
    | dsimp only

theorem State.hbmXfer_touches (s : State) (d : List Byte) (err : Option Nat) :
    Touches [.flags, .counts, .flagAt, .recent, .ev, .queues, .units, .mem, .hbm, .hostMem] s (ranState (State.hbmXfer s d err)) := by
  unfold State.hbmXfer
  try dsimp only
  repeat' first
    | with_reducible apply Touches.ran_done
    | with_reducible apply Touches.ran_goesOn
    | with_reducible apply Touches.ran_pair
    | with_reducible apply Touches.ran_ite
    | with_reducible exact Touches.refl _ _
    | with_reducible assumption
    | ((with_reducible apply Touches.fst); · assumption)
    | ((with_reducible apply Touches.snd); · assumption)
    | with_reducible apply Touches.ite
    | (with_reducible apply Touches.foldl; on_goal 1 => intro _ _ _)
    | split
    | ((with_reducible apply Touches.step (State.toHost_touches ..)); · rfl)
    | ((with_reducible apply Touches.step (State.memUe_touches ..)); · rfl)
    | ((with_reducible apply Touches.step (State.freezeAll_touches ..)); · rfl)
    | ((with_reducible apply Touches.upd_mem_hbm); · rfl)
    | exact fun _ => wrap64_lt _
    | exact id
    | dsimp only

theorem execHbmxfer_based (t : BitVec 64) (n : Fin 64) (err : Option Nat) (s : State) :
    ∃ t', execHbmxfer t n err s = .next t' ∧ Based [.now, .flags, .counts, .flagAt, .recent, .ev, .queues, .units, .mem, .hif, .hbm, .hostMem] s t' := by
  unfold execHbmxfer
  try dsimp only
  repeat' first
    | refine ⟨_, rfl, ?_⟩
    | with_reducible refine Based.lift (fun _ h => Touches.ran_done h) ?_
    | with_reducible refine Based.lift (fun _ h => Touches.ran_goesOn h) ?_
    | with_reducible refine Based.lift (fun _ h => Touches.ran_pair h) ?_
    | with_reducible apply Based.ran_ite
    | with_reducible exact Based.refl _ _
    | with_reducible assumption
    | with_reducible exact Settled.refl
    | ((with_reducible apply Based.fst); · assumption)
    | ((with_reducible apply Based.snd); · assumption)
    | with_reducible apply Based.ite
    | (with_reducible apply Based.foldl; on_goal 1 => intro _ _ _)
    | ((with_reducible apply State.startDesc_closed (Based.closed _ _)); (· rfl); on_goal 1 => intro _ _ _)
    | ((with_reducible apply State.upTo_based); · rfl)
    | ((with_reducible apply Based.step (State.hbmXfer_touches ..)); · rfl)
    | split
    | exact fun _ => wrap64_lt _
    | exact id
    | dsimp only

end Sys2Proof.Machine
end

