-- ==== Sys2Proof/Laws/TouchTransfers.lean ====
section
/-! SUPPORT. The parts of the state that each operation of Machine/Transfers.lean can change. -/

namespace Sys2Proof.Machine

open Sys2Proof

theorem State.commitPacket_touches {l : List Part} {r s a : State} {qn role : Nat} {bs : List Byte}
    (hl : [.flags, .counts, .flagAt, .recent, .ev, .queues, .mem].all (l.contains ·) = true) (h : Touches l r s)
    (ha : s.commitPacket qn role bs = .stored a ∨ s.commitPacket qn role bs = .lost a) : Touches l r a := by
  have hs : ∀ q n b, Touches l r q → Touches l r (q.setQueue n b) := fun q n b hq =>
    Touches.step (State.setQueue_touches ..) (by simp_all) hq
  have hp : ∀ q n b, Touches l r q → Touches l r (q.pushPacket n b) := fun q n b hq =>
    Touches.step (State.pushPacket_touches ..) (by simp_all) hq
  have hr : ∀ q x n m t as, Touches l r q → Touches l r (State.raise q x n m t as) := fun q x n m t as hq =>
    Touches.step (State.raise_touches ..) (by simp_all) hq
  have hb : ∀ q n m, Touches l r q → Touches l r (State.bumpKey q n m) := fun q n m hq =>
    Touches.step (State.bumpKey_touches ..) (by simp_all) hq
  have h0 : Touches l r (if role = 4 ∧ (s.queue qn).content = 0 then s.setQueue qn { s.queue qn with content := 1 } else s) :=
    Touches.ite (hs _ _ _ h) h
  unfold State.commitPacket at ha
  dsimp only at ha
  split at ha
  · rcases ha with ha | ha <;> cases ha
    exact hp _ _ _ h0
  · split at ha
    · rcases ha with ha | ha <;> cases ha
      exact hr _ _ _ _ _ _ (hp _ _ _ h0)
    · rcases ha with ha | ha <;> cases ha
      exact hr _ _ _ _ _ _ (hb _ _ _ h0)

theorem State.offer_touches {l : List Part} {r s a : State} {qn : Nat} {bs : List Byte}
    (hl : [.flags, .counts, .flagAt, .recent, .ev, .queues, .mem].all (l.contains ·) = true) (h : Touches l r s)
    (ha : s.offer qn bs = .stored a ∨ s.offer qn bs = .lost a) : Touches l r a := by
  have hd : Touches l r (s.dropPacket qn) := Touches.step (State.dropPacket_touches ..) (by simp_all) h
  have hm : Touches l r (s.makeRoom qn bs.length (s.queue qn).pkts.length) :=
    Touches.step (State.makeRoom_touches ..) (by simp_all) h
  unfold State.offer at ha
  dsimp only at ha
  split at ha
  · rcases ha with ha | ha <;> cases ha
    exact hd
  split at ha
  · rcases ha with ha | ha <;> cases ha
    exact hd
  split at ha
  · exact State.commitPacket_touches (by simp_all) h ha
  split at ha
  · rcases ha with ha | ha <;> cases ha
  split at ha
  · exact State.commitPacket_touches (by simp_all) hm ha
  · rcases ha with ha | ha <;> cases ha
    exact hd

/-- The state in which parsing a QWRITE's buffer stops. -/
def parsedState : Parsed → State
  | .over s _ => s
  | .reserved s _ => s
  | .waits s _ => s

theorem State.parse_touches {l : List Part} {r : State} (s : State) (qn : Nat) (x : Started) (bs : List Byte) (n : Nat)
    (hl : [.flags, .counts, .flagAt, .recent, .ev, .queues, .mem].all (l.contains ·) = true) (h : Touches l r s) : Touches l r (parsedState (s.parse qn x bs n)) := by
  induction n generalizing s x bs with
  | zero => exact h
  | succ n ih =>
    have hd : Touches l r (s.dropPacket qn) := Touches.step (State.dropPacket_touches ..) (by simp_all) h
    unfold State.parse
    dsimp only
    split
    · exact h
    split
    · exact h
    split
    · exact hd
    · split
      · split
        · exact h
        · exact hd
      · split
        · exact h
        · rename_i he
          exact ih _ _ _ (State.offer_touches hl h (.inl he))
        · rename_i he
          exact ih _ _ _ (State.offer_touches hl h (.inr he))

theorem State.writeOn_touches (s : State) (x : Started) : Touches [.flags, .counts, .flagAt, .recent, .ev, .queues, .units, .mem] s (s.writeOn x).1 := by
  have h0 := State.parse_touches (r := s) (l := [.flags, .counts, .flagAt, .recent, .ev, .queues, .units, .mem])
    (s.settleReader (bits (dTarget x.desc) 14 0)) (bits (dTarget x.desc) 14 0) x
    (((s.settleReader (bits (dTarget x.desc) 14 0)).received x.desc x.lim).drop x.off)
    ((((s.settleReader (bits (dTarget x.desc) 14 0)).received x.desc x.lim).drop x.off).length / 4 + 1) rfl
    (Touches.step (State.settleReader_touches ..) rfl (Touches.refl _ _))
  unfold State.writeOn
  dsimp only
  split <;> rename_i he <;> rw [he] at h0 <;> exact h0

theorem State.qWrite_touches (s : State) (n : Nat) (d : List Byte) (err : Option Nat) :
    Touches [.flags, .counts, .flagAt, .recent, .ev, .queues, .units, .mem, .hif] s (ranState (State.qWrite s n d err)) := by
  have hw : ∀ x, Touches [.flags, .counts, .flagAt, .recent, .ev, .queues, .units, .mem, .hif] s (s.writeOn x).1 := fun x => (State.writeOn_touches ..).mono rfl
  unfold State.qWrite
  dsimp only
  split
  · exact Touches.refl _ _
  split
  · exact Touches.upd_hif rfl (Touches.refl _ _)
  split <;> rename_i he <;> have h0 := hw { ring := n, desc := d, lim := failAt (dLen d) err } <;> rw [he] at h0
  · exact h0
  · exact Touches.upd_hif rfl h0

theorem State.qWriteRow_touches (s : State) (n : Nat) (err : Option Nat) :
    Touches [.flags, .counts, .flagAt, .recent, .ev, .queues, .units, .mem, .hif] s (State.qWriteRow s n err) := by
  unfold State.qWriteRow
  try dsimp only
  repeat' first
    | with_reducible apply Touches.ran_done
    | with_reducible apply Touches.ran_goesOn
    | with_reducible apply Touches.ran_pair
    | with_reducible apply Touches.ran_ite
    | with_reducible exact Touches.refl _ _
    | with_reducible assumption
    | ((with_reducible apply Touches.fst); · assumption)
    | ((with_reducible apply Touches.snd); · assumption)
    | with_reducible apply Touches.ite
    | (with_reducible apply Touches.foldl; on_goal 1 => intro _ _ _)
    | split
    | ((with_reducible apply Touches.step (State.writeOn_touches ..)); · rfl)
    | ((with_reducible apply Touches.step (State.finish_touches ..)); · rfl)
    | ((with_reducible apply State.startDesc_closed (Touches.closed _ _)); (· rfl); on_goal 1 => intro _ _ _)
    | ((with_reducible apply Touches.step (State.qWrite_touches ..)); · rfl)
    | ((with_reducible apply Touches.upd_hif); · rfl)
    | exact fun _ => wrap64_lt _
    | exact id
    | dsimp only

theorem execQwrite_touches (t : BitVec 64) (n : Fin 64) (err : Option Nat) (s : State) :
    ∃ t', execQwrite t n err s = .next t' ∧ Touches [.now, .flags, .counts, .flagAt, .recent, .ev, .queues, .units, .mem, .hif] s t' := by
  unfold execQwrite
  try dsimp only
  repeat' first
    | refine ⟨_, rfl, ?_⟩
    | with_reducible exact Touches.refl _ _
    | with_reducible assumption
    | ((with_reducible apply Touches.fst); · assumption)
    | ((with_reducible apply Touches.snd); · assumption)
    | with_reducible apply Touches.ite
    | (with_reducible apply Touches.foldl; on_goal 1 => intro _ _ _)
    | ((with_reducible apply Touches.step (State.qWriteRow_touches ..)); · rfl)
    | ((with_reducible apply Touches.step (State.at_touches ..)); · rfl)
    | split
    | exact fun _ => wrap64_lt _
    | exact id
    | dsimp only

theorem State.qRead_touches (s : State) (d : List Byte) (err : Option Nat) :
    Touches [.flags, .counts, .flagAt, .recent, .ev, .queues, .mem, .hostMem] s (ranState (State.qRead s d err)) := by
  unfold State.qRead
  try dsimp only
  repeat' first
    | with_reducible apply Touches.ran_done
    | with_reducible apply Touches.ran_goesOn
    | with_reducible apply Touches.ran_pair
    | with_reducible apply Touches.ran_ite
    | with_reducible exact Touches.refl _ _
    | with_reducible assumption
    | ((with_reducible apply Touches.fst); · assumption)
    | ((with_reducible apply Touches.snd); · assumption)
    | with_reducible apply Touches.ite
    | (with_reducible apply Touches.foldl; on_goal 1 => intro _ _ _)
    | ((with_reducible apply Touches.step (State.memUe_touches ..)); · rfl)
    | ((with_reducible apply Touches.step (State.toHost_touches ..)); · rfl)
    | ((with_reducible apply Touches.step (State.setQueue_touches ..)); · rfl)
    | split
    | exact fun _ => wrap64_lt _
    | exact id
    | dsimp only

theorem execQread_touches (t : BitVec 64) (n : Fin 64) (err : Option Nat) (s : State) :
    ∃ t', execQread t n err s = .next t' ∧ Touches [.now, .flags, .counts, .flagAt, .recent, .ev, .queues, .mem, .hif, .hostMem] s t' := by
  unfold execQread
  try dsimp only
  repeat' first
    | refine ⟨_, rfl, ?_⟩
    | with_reducible apply Touches.ran_done
    | with_reducible apply Touches.ran_goesOn
    | with_reducible apply Touches.ran_pair
    | with_reducible apply Touches.ran_ite
    | with_reducible exact Touches.refl _ _
    | with_reducible assumption
    | ((with_reducible apply Touches.fst); · assumption)
    | ((with_reducible apply Touches.snd); · assumption)
    | with_reducible apply Touches.ite
    | (with_reducible apply Touches.foldl; on_goal 1 => intro _ _ _)
    | ((with_reducible apply State.startDesc_closed (Touches.closed _ _)); (· rfl); on_goal 1 => intro _ _ _)
    | ((with_reducible apply Touches.step (State.at_touches ..)); · rfl)
    | ((with_reducible apply Touches.step (State.qRead_touches ..)); · rfl)
    | split
    | exact fun _ => wrap64_lt _
    | exact id
    | dsimp only

theorem State.qFlush_touches (s : State) (n : Nat) (d : List Byte) :
    Touches [.flags, .counts, .flagAt, .recent, .ev, .queues, .units, .mem, .hif] s (ranState (State.qFlush s n d)) := by
  unfold State.qFlush
  try dsimp only
  repeat' first
    | with_reducible apply Touches.ran_done
    | with_reducible apply Touches.ran_goesOn
    | with_reducible apply Touches.ran_pair
    | with_reducible apply Touches.ran_ite
    | with_reducible exact Touches.refl _ _
    | with_reducible assumption
    | ((with_reducible apply Touches.fst); · assumption)
    | ((with_reducible apply Touches.snd); · assumption)
    | with_reducible apply Touches.ite
    | (with_reducible apply Touches.foldl; on_goal 1 => intro _ _ _)
    | ((with_reducible apply Touches.step (State.askFlush_touches ..)); · rfl)
    | ((with_reducible apply Touches.upd_hif); · rfl)
    | split
    | exact fun _ => wrap64_lt _
    | exact id
    | dsimp only

theorem execQflush_touches (t : BitVec 64) (n : Fin 64) (err : Option Nat) (s : State) :
    ∃ t', execQflush t n err s = .next t' ∧ Touches [.now, .flags, .counts, .flagAt, .recent, .ev, .queues, .units, .mem, .hif] s t' := by
  unfold execQflush
  try dsimp only
  repeat' first
    | refine ⟨_, rfl, ?_⟩
    | with_reducible apply Touches.ran_done
    | with_reducible apply Touches.ran_goesOn
    | with_reducible apply Touches.ran_pair
    | with_reducible apply Touches.ran_ite
    | with_reducible exact Touches.refl _ _
    | with_reducible assumption
    | ((with_reducible apply Touches.fst); · assumption)
    | ((with_reducible apply Touches.snd); · assumption)
    | with_reducible apply Touches.ite
    | (with_reducible apply Touches.foldl; on_goal 1 => intro _ _ _)
    | ((with_reducible apply State.startDesc_closed (Touches.closed _ _)); (· rfl); on_goal 1 => intro _ _ _)
    | ((with_reducible apply Touches.step (State.at_touches ..)); · rfl)
    | ((with_reducible apply Touches.step (State.qFlush_touches ..)); · rfl)
    | split
    | exact fun _ => wrap64_lt _
    | exact id
    | dsimp only

theorem State.ethSend_touches (s : State) (n : Nat) (d : List Byte) (err : Option Nat) :
    Touches [.flags, .counts, .flagAt, .recent, .ev, .queues, .mem, .ptp, .hif] s (ranState (State.ethSend s n d err)) := by
  unfold State.ethSend
  try dsimp only
  repeat' first
    | with_reducible apply Touches.ran_done
    | with_reducible apply Touches.ran_goesOn
    | with_reducible apply Touches.ran_pair
    | with_reducible apply Touches.ran_ite
    | with_reducible exact Touches.refl _ _
    | with_reducible assumption
    | ((with_reducible apply Touches.fst); · assumption)
    | ((with_reducible apply Touches.snd); · assumption)
    | with_reducible apply Touches.ite
    | (with_reducible apply Touches.foldl; on_goal 1 => intro _ _ _)
    | ((with_reducible apply Touches.step (State.sendFrameNow_touches ..)); · rfl)
    | ((with_reducible apply Touches.step (State.lateFrame_touches ..)); · rfl)
    | ((with_reducible apply Touches.step (State.setPtp_touches ..)); · rfl)
    | split
    | exact fun _ => wrap64_lt _
    | exact id
    | dsimp only

theorem execEthsend_touches (t : BitVec 64) (n : Fin 64) (err : Option Nat) (s : State) :
    ∃ t', execEthsend t n err s = .next t' ∧ Touches [.now, .flags, .counts, .flagAt, .recent, .ev, .queues, .mem, .ptp, .hif] s t' := by
  unfold execEthsend
  try dsimp only
  repeat' first
    | refine ⟨_, rfl, ?_⟩
    | with_reducible apply Touches.ran_done
    | with_reducible apply Touches.ran_goesOn
    | with_reducible apply Touches.ran_pair
    | with_reducible apply Touches.ran_ite
    | with_reducible exact Touches.refl _ _
    | with_reducible assumption
    | ((with_reducible apply Touches.fst); · assumption)
    | ((with_reducible apply Touches.snd); · assumption)
    | with_reducible apply Touches.ite
    | (with_reducible apply Touches.foldl; on_goal 1 => intro _ _ _)
    | ((with_reducible apply State.startDesc_closed (Touches.closed _ _)); (· rfl); on_goal 1 => intro _ _ _)
    | ((with_reducible apply Touches.step (State.at_touches ..)); · rfl)
    | ((with_reducible apply Touches.step (State.ethSend_touches ..)); · rfl)
    | split
    | exact fun _ => wrap64_lt _
    | exact id
    | dsimp only

end Sys2Proof.Machine
end

