-- ==== Sys2Proof/Laws/Modes.lean ====
section
/-! SUPPORT. What the shared operations of the operating modes do (chapter 02): the evaluation of HOLD causes, requests, and
the entry into a mode. -/

namespace Sys2Proof.Machine

open Sys2Proof

@[simp] theorem State.raise_mode (s : State) (e : Ev) (n m t : Nat) (as : List Word) : (s.raise e n m t as).mode = s.mode :=
  (State.raise_touches s e n m t as).keeps .mode rfl

@[simp] theorem State.raise_now (s : State) (e : Ev) (n m t : Nat) (as : List Word) : (s.raise e n m t as).now = s.now :=
  (State.raise_touches s e n m t as).keeps .now rfl

@[simp] theorem State.refreshHold_trans (s : State) : s.refreshHold.mode.trans = s.mode.trans := by
  unfold State.refreshHold
  dsimp only
  split_ifs
  · have h := fun a => (State.refHold_touches a).keeps .mode rfl
    simp only [Part.same] at h
    simp [h]
  · rfl
  · rfl

@[simp] theorem State.refreshHold_mode (s : State) : s.refreshHold.mode.mode = s.mode.mode := by
  unfold State.refreshHold
  dsimp only
  split_ifs
  · have h := fun a => (State.refHold_touches a).keeps .mode rfl
    simp only [Part.same] at h
    simp [h]
  · rfl
  · rfl

/-- With no cause but the host's, refreshing HOLDCAUSE changes no more than its bits. -/
theorem State.refreshHold_quiet (s : State) (h : noHoldCause s) :
    s.refreshHold = s.setMode { s.mode with holdHost := (s.mode.mode == .run || s.mode.mode == .hold) && s.mode.holdHost,
                                            holdRef := false, holdTherm := false } := by
  obtain ⟨h1, h2⟩ := h
  unfold State.refreshHold
  cases hm : s.mode.mode <;> simp [State.refHolds, State.warnHolds, h1, h2] <;> rfl

/-- With no cause and nothing pending, the evaluation begins nothing (R47, R49). -/
theorem State.evalHold_quiet (s : State) (h : noHoldCause s) (hp : s.mode.pend = none) : s.evalHold = s.refreshHold := by
  have hb : s.refreshHold.blocking = false := by
    rw [State.refreshHold_quiet s h]
    simp [State.blocking, State.refHolds, State.warnHolds, h.1, h.2]
  have hq : s.refreshHold.mode.pend = none := by rw [State.refreshHold_quiet s h]; exact hp
  unfold State.evalHold
  dsimp only
  split <;> simp [hb, hq]

/-- With no transition in progress a request is carried out at once (R43). -/
theorem State.request_now (s : State) (r : Req) (h : s.mode.trans = none) :
    s.request r = (s.setMode { s.mode with pend := none }).carryOut r := by
  unfold State.request
  simp [State.atOnce, h]

theorem State.carryPend_none (s : State) (h : s.mode.pend = none) : s.carryPend = s := by
  unfold State.carryPend
  simp [h]

@[simp] theorem State.enterMode_mode (s : State) (m : Mode) (t : Nat) :
    (s.enterMode m t).mode = { s.mode with mode := m, entryTime := t, trans := none } := by
  unfold State.enterMode
  simp

/-- What a request word asks of MODE_CTL (R41, R60). -/
theorem modeWord_req (c : Fin 8) (hw hr : Bool) :
    getF (modeWord 0 (8 + c.val) hw hr) 3 3 = 1 ∧ getF (modeWord 0 (8 + c.val) hw hr) 9 9 = 0 ∧
      getF (modeWord 0 (8 + c.val) hw hr) 8 8 = 0 ∧ getF (modeWord 0 (8 + c.val) hw hr) 2 0 = c.val := by
  revert c hw hr; decide

/-- A request by REQ for any mode but DORMANT, with no cause for HOLD, is carried out on the state with the written HOLDWARN
and HOLDREF (R41, R43). -/
theorem State.wrModeCtl_req (s : State) (c : Fin 8) (r : Req) (hw hr : Bool) (hc : c.val ≠ 0) (hr' : reqOf c.val = some r)
    (hm : s.mode.mode ≠ .dormant) :
    s.wrModeCtl (modeWord 0 (8 + c.val) hw hr) =
      ((((s.setFld .modeCtl 5 4 (getF (modeWord 0 (8 + c.val) hw hr) 5 4)).refreshHold.setFld .modeCtl 2 0 c.val).request
        r).evalHold) := by
  obtain ⟨h1, h2, h3, h4⟩ := modeWord_req c hw hr
  unfold State.wrModeCtl
  simp [h1, h2, h3, h4, hm, hc, hr']

-- which operations leave the mode as it is

/-- The mode and the time at which it was entered. -/
def modeIs (m : Mode) (e : Nat) (s : State) : Prop := s.mode.mode = m ∧ s.mode.entryTime = e

theorem modeIs.of {m : Mode} {e : Nat} {l : List Part} {s t : State} (h : Touches l s t) (hl : l.contains .mode = false)
    (hs : modeIs m e s) : modeIs m e t := by
  have := h.keeps .mode hl
  simp only [Part.same] at this
  exact ⟨by rw [this]; exact hs.1, by rw [this]; exact hs.2⟩

theorem modeIs.set {m : Mode} {e : Nat} {s : State} {x : ModeSt} (h : x.mode = m) (k : x.entryTime = e) :
    modeIs m e (s.setMode x) := ⟨h, k⟩

theorem modeIs.ite {m : Mode} {e : Nat} {a b : State} {c : Prop} [Decidable c] (ha : modeIs m e a) (hb : modeIs m e b) :
    modeIs m e (if c then a else b) := by split <;> assumption

theorem modeIs.begin {m : Mode} {e : Nat} {s : State} (x : Mode) (d : Nat) (h : modeIs m e s) : modeIs m e (s.beginTrans x d) :=
  modeIs.set h.1 h.2

theorem modeIs.refuse {m : Mode} {e : Nat} {s : State} (d : Nat) (h : modeIs m e s) : modeIs m e (s.refuse d) :=
  modeIs.of (State.refuse_touches s d) rfl h

theorem modeIs.sync {m : Mode} {e : Nat} {s : State} (x : SyncSt) (h : modeIs m e s) : modeIs m e (s.setSync x) := h

theorem modeIs.refreshHold {m : Mode} {e : Nat} {s : State} (h : modeIs m e s) : modeIs m e s.refreshHold := by
  unfold State.refreshHold
  dsimp only
  refine modeIs.ite (modeIs.ite (modeIs.of (State.refHold_touches _) rfl ?_) ?_) ?_ <;> exact modeIs.set h.1 h.2

theorem modeIs.startHold {m : Mode} {e : Nat} {s : State} (h : modeIs m e s) : modeIs m e s.startHold := by
  unfold State.startHold
  have := modeIs.begin .hold (fl8 s.now + 16) h
  exact modeIs.set this.1 this.2

theorem modeIs.startResume {m : Mode} {e : Nat} {s : State} (h : modeIs m e s) : modeIs m e s.startResume := by
  unfold State.startResume
  have := modeIs.begin .run (s.resumeTime s.now) h
  exact modeIs.set this.1 this.2

theorem modeIs.startRun {m : Mode} {e : Nat} {s : State} (h : modeIs m e s) : modeIs m e s.startRun := modeIs.begin _ _ h

theorem modeIs.evalHold {m : Mode} {e : Nat} {s : State} (hs : modeIs m e s) : modeIs m e s.evalHold := by
  have h := modeIs.refreshHold hs
  unfold State.evalHold
  dsimp only
  split
  · exact modeIs.ite (modeIs.startHold h) h
  · refine modeIs.ite h ?_
    have hs : ∀ x, x.mode = s.refreshHold.mode.mode → x.entryTime = s.refreshHold.mode.entryTime →
        modeIs m e (s.refreshHold.setMode x) := fun x a b => modeIs.set (a.trans h.1) (b.trans h.2)
    split
    · exact hs _ rfl rfl
    · exact hs _ rfl rfl
    · exact hs _ rfl rfl
    · exact modeIs.begin _ _ (hs _ rfl rfl)
    · exact modeIs.refuse _ (hs _ rfl rfl)
  · exact modeIs.ite (modeIs.startResume (modeIs.set h.1 h.2)) h
  · exact modeIs.ite (modeIs.startRun (modeIs.set h.1 h.2)) h
  · exact h

theorem modeIs.carryOut {m : Mode} {e : Nat} {s : State} (r : Req) (h : modeIs m e s) : modeIs m e (s.carryOut r) := by
  have hr : ∀ t, modeIs m e (s.refuse t) := fun t => modeIs.refuse t h
  have hb : ∀ x d, modeIs m e (s.beginTrans x d) := fun x d => modeIs.begin x d h
  cases r <;> simp only [State.carryOut]
  · unfold State.askRun
    exact modeIs.ite (hr _) (modeIs.ite (modeIs.set h.1 h.2) (modeIs.ite (modeIs.startRun h) (modeIs.startResume h)))
  · exact modeIs.ite (modeIs.startHold (modeIs.set h.1 h.2)) (hr _)
  · have hs := modeIs.begin .ready (s.now + 2 * us) (modeIs.of (State.stopAll_touches s (up8 s.now)) rfl h)
    unfold State.askReady
    split
    · exact hs
    · exact hs
    · exact hb _ _
    · exact modeIs.ite (modeIs.set h.1 h.2) (hb _ _)
    · exact hr _
  · exact modeIs.ite (hb _ _) (hr _)
  · exact modeIs.ite (hb _ _) (hr _)
  · exact modeIs.ite (hb _ _) (hr _)
  · unfold State.askAck
    exact modeIs.ite (modeIs.ite (hb _ _) (hr _)) (hr _)
  · unfold State.askReset
    exact modeIs.ite (hr _) (modeIs.ite (hr _) (hb _ _))

theorem modeIs.carryPend {m : Mode} {e : Nat} {s : State} (h : modeIs m e s) : modeIs m e s.carryPend := by
  unfold State.carryPend
  split
  · exact h
  · exact modeIs.ite h (modeIs.carryOut _ (modeIs.set h.1 h.2))

theorem modeIs.loseRef {m : Mode} {e : Nat} {s : State} (h : modeIs m e s) : modeIs m e s.loseRef := by
  unfold State.loseRef
  exact modeIs.evalHold (modeIs.of (State.invalidAll_touches ..) rfl
    (modeIs.of (State.raise_touches ..) rfl (modeIs.sync _ h)))

theorem modeIs.selectRef {m : Mode} {e : Nat} {s : State} (h : modeIs m e s) : modeIs m e s.selectRef := by
  unfold State.selectRef
  dsimp only
  have h1 : ∀ (c : Prop) [Decidable c] x, modeIs m e (if c then s else s.setSync x) := fun _ _ x => modeIs.ite h (modeIs.sync x h)
  exact modeIs.ite (modeIs.loseRef (h1 ..)) (modeIs.ite (modeIs.evalHold (h1 ..)) (h1 ..))

theorem modeIs.applyHeldSync {m : Mode} {e : Nat} {s : State} (h : modeIs m e s) : modeIs m e s.applyHeldSync := by
  have h1 : modeIs m e (match s.heldFor .syncCtl with
      | some w => ((s.unhold .syncCtl).setFld .syncCtl 9 8 (getF w 9 8)).selectRef
      | none => s) := by
    split
    · exact modeIs.selectRef (modeIs.of (State.setFld_touches ..) rfl (modeIs.of (State.unhold_touches ..) rfl h))
    · exact h
  unfold State.applyHeldSync
  dsimp only
  split
  · exact modeIs.of (State.setReg_touches ..) rfl (modeIs.of (State.setReg_touches ..) rfl
      (modeIs.of (State.unhold_touches ..) rfl (modeIs.of (State.unhold_touches ..) rfl h1)))
  · exact h1

theorem modeIs.applyHeldReady {m : Mode} {e : Nat} {s : State} (h : modeIs m e s) : modeIs m e s.applyHeldReady := by
  unfold State.applyHeldReady
  dsimp only
  refine modeIs.applyHeldSync ?_
  split
  · exact modeIs.of (State.wrHchCtl_touches ..) rfl h
  · exact h

theorem modeIs.enterMode (s : State) (m : Mode) (t : Nat) : modeIs m t (s.enterMode m t) := by
  unfold modeIs
  simp

/-- The entry into READY (R38): the mode and the time of its entry. -/
theorem State.enterReady_mode (s : State) : modeIs .ready s.now s.enterReady := by
  unfold State.enterReady
  dsimp only
  refine modeIs.carryPend (modeIs.refreshHold (modeIs.of (State.bootReports_touches _) rfl (modeIs.applyHeldReady ?_)))
  have h : ∀ a : State, modeIs .ready s.now ((a.enterMode .ready s.now).invalidateSlots (up8 s.now)) := fun a =>
    modeIs.of (State.invalidateSlots_touches ..) rfl (modeIs.enterMode _ _ _)
  exact modeIs.ite (modeIs.set (h _).1 (h _).2) (modeIs.of (State.applyPolicies_touches _) rfl (modeIs.set (h _).1 (h _).2))

/-- The entry into RUN (R38). -/
theorem State.enterRun_mode (s : State) : modeIs .run s.now s.enterRun := by
  unfold State.enterRun
  dsimp only
  refine modeIs.evalHold (modeIs.carryPend (modeIs.of (State.liveStatics_touches ..) rfl
    (modeIs.of (State.reloadUnits_touches ..) rfl ?_)))
  have h : modeIs .run s.now ((s.leaveReady.enterMode .run s.now).clearSlots) :=
    modeIs.of (State.clearSlots_touches _) rfl (modeIs.enterMode _ _ _)
  exact modeIs.set h.1 h.2

/-- The entry into CALIBRATE or TEST (R38). -/
theorem State.enterQuiet_mode (s : State) (m : Mode) : modeIs m s.now (s.enterQuiet m) := by
  have h : modeIs m s.now ((s.leaveReady.enterMode m s.now).holdAllOuts (up8 s.now) false false) :=
    modeIs.of (State.holdAllOuts_touches ..) rfl (modeIs.enterMode _ _ _)
  unfold State.enterQuiet
  dsimp only
  refine modeIs.carryPend (modeIs.ite (modeIs.of (State.fgStart_touches _) rfl h) ?_)
  exact modeIs.of (State.startLaneTests_touches _) rfl (modeIs.of (State.calAbortIf_touches ..) rfl h)

end Sys2Proof.Machine
end

