-- ==== Sys2Proof/Laws/Due.lean ====
section
/-! SUPPORT. What carrying out what is due leaves alone, part by part, and where the clock stands after it. -/

namespace Sys2Proof.Machine

open Sys2Proof

@[simp] theorem State.upTo_pending (s : State) (t : BitVec 64) : (s.upTo t).pending = s.pending := (State.upTo_touches s t).keeps .pending rfl
@[simp] theorem State.upTo_free (s : State) (t : BitVec 64) : (s.upTo t).free = s.free := (State.upTo_touches s t).keeps .free rfl
@[simp] theorem State.upTo_rdata (s : State) (t : BitVec 64) : (s.upTo t).rdata = s.rdata := (State.upTo_touches s t).keeps .rdata rfl
@[simp] theorem State.upTo_supply (s : State) (t : BitVec 64) : (s.upTo t).supply = s.supply := (State.upTo_touches s t).keeps .supply rfl
@[simp] theorem State.upTo_half (s : State) (t : BitVec 64) : (s.upTo t).half = s.half := (State.upTo_touches s t).keeps .half rfl
@[simp] theorem State.upTo_latch (s : State) (t : BitVec 64) : (s.upTo t).latch = s.latch := (State.upTo_touches s t).keeps .latch rfl
@[simp] theorem State.upTo_lows (s : State) (t : BitVec 64) : (s.upTo t).lows = s.lows := (State.upTo_touches s t).keeps .lows rfl
@[simp] theorem State.upTo_held (s : State) (t : BitVec 64) : (s.upTo t).held = s.held := (State.upTo_touches s t).keeps .held rfl
@[simp] theorem State.upTo_mode (s : State) (t : BitVec 64) : (s.upTo t).mode = s.mode := (State.upTo_touches s t).keeps .mode rfl
@[simp] theorem State.upTo_plies (s : State) (t : BitVec 64) : (s.upTo t).plies = s.plies := (State.upTo_touches s t).keeps .plies rfl
@[simp] theorem State.upTo_dec (s : State) (t : BitVec 64) : (s.upTo t).dec = s.dec := (State.upTo_touches s t).keeps .dec rfl
@[simp] theorem State.upTo_hch (s : State) (t : BitVec 64) : (s.upTo t).hch = s.hch := (State.upTo_touches s t).keeps .hch rfl
@[simp] theorem State.upTo_badWords (s : State) (t : BitVec 64) : (s.upTo t).badWords = s.badWords := (State.upTo_touches s t).keeps .badWords rfl
@[simp] theorem State.upTo_convs (s : State) (t : BitVec 64) : (s.upTo t).convs = s.convs := (State.upTo_touches s t).keeps .convs rfl
@[simp] theorem State.upTo_engines (s : State) (t : BitVec 64) : (s.upTo t).engines = s.engines := (State.upTo_touches s t).keeps .engines rfl
@[simp] theorem State.upTo_thm (s : State) (t : BitVec 64) : (s.upTo t).thm = s.thm := (State.upTo_touches s t).keeps .thm rfl
@[simp] theorem State.upTo_pwr (s : State) (t : BitVec 64) : (s.upTo t).pwr = s.pwr := (State.upTo_touches s t).keeps .pwr rfl
@[simp] theorem State.upTo_mc (s : State) (t : BitVec 64) : (s.upTo t).mc = s.mc := (State.upTo_touches s t).keeps .mc rfl
@[simp] theorem State.upTo_sync (s : State) (t : BitVec 64) : (s.upTo t).sync = s.sync := (State.upTo_touches s t).keeps .sync rfl
@[simp] theorem State.upTo_ptp (s : State) (t : BitVec 64) : (s.upTo t).ptp = s.ptp := (State.upTo_touches s t).keeps .ptp rfl
@[simp] theorem State.upTo_hif (s : State) (t : BitVec 64) : (s.upTo t).hif = s.hif := (State.upTo_touches s t).keeps .hif rfl
@[simp] theorem State.upTo_mon (s : State) (t : BitVec 64) : (s.upTo t).mon = s.mon := (State.upTo_touches s t).keeps .mon rfl
@[simp] theorem State.upTo_tio (s : State) (t : BitVec 64) : (s.upTo t).tio = s.tio := (State.upTo_touches s t).keeps .tio rfl
@[simp] theorem State.upTo_hbm (s : State) (t : BitVec 64) : (s.upTo t).hbm = s.hbm := (State.upTo_touches s t).keeps .hbm rfl
@[simp] theorem State.upTo_seqSram (s : State) (t : BitVec 64) : (s.upTo t).seqSram = s.seqSram := (State.upTo_touches s t).keeps .seqSram rfl
@[simp] theorem State.upTo_ucode (s : State) (t : BitVec 64) : (s.upTo t).ucode = s.ucode := (State.upTo_touches s t).keeps .ucode rfl
@[simp] theorem State.upTo_envSram (s : State) (t : BitVec 64) : (s.upTo t).envSram = s.envSram := (State.upTo_touches s t).keeps .envSram rfl
@[simp] theorem State.upTo_kernel (s : State) (t : BitVec 64) : (s.upTo t).kernel = s.kernel := (State.upTo_touches s t).keeps .kernel rfl
@[simp] theorem State.upTo_envTab (s : State) (t : BitVec 64) : (s.upTo t).envTab = s.envTab := (State.upTo_touches s t).keeps .envTab rfl
@[simp] theorem State.upTo_hostMem (s : State) (t : BitVec 64) : (s.upTo t).hostMem = s.hostMem := (State.upTo_touches s t).keeps .hostMem rfl

@[simp] theorem State.toTime_pending (s : State) (t : Nat) : (s.toTime t).pending = s.pending := (State.toTime_touches s t).keeps .pending rfl
@[simp] theorem State.toTime_free (s : State) (t : Nat) : (s.toTime t).free = s.free := (State.toTime_touches s t).keeps .free rfl
@[simp] theorem State.toTime_rdata (s : State) (t : Nat) : (s.toTime t).rdata = s.rdata := (State.toTime_touches s t).keeps .rdata rfl
@[simp] theorem State.toTime_supply (s : State) (t : Nat) : (s.toTime t).supply = s.supply := (State.toTime_touches s t).keeps .supply rfl
@[simp] theorem State.toTime_half (s : State) (t : Nat) : (s.toTime t).half = s.half := (State.toTime_touches s t).keeps .half rfl
@[simp] theorem State.toTime_latch (s : State) (t : Nat) : (s.toTime t).latch = s.latch := (State.toTime_touches s t).keeps .latch rfl
@[simp] theorem State.toTime_lows (s : State) (t : Nat) : (s.toTime t).lows = s.lows := (State.toTime_touches s t).keeps .lows rfl
@[simp] theorem State.toTime_held (s : State) (t : Nat) : (s.toTime t).held = s.held := (State.toTime_touches s t).keeps .held rfl
@[simp] theorem State.toTime_mode (s : State) (t : Nat) : (s.toTime t).mode = s.mode := (State.toTime_touches s t).keeps .mode rfl
@[simp] theorem State.toTime_plies (s : State) (t : Nat) : (s.toTime t).plies = s.plies := (State.toTime_touches s t).keeps .plies rfl
@[simp] theorem State.toTime_dec (s : State) (t : Nat) : (s.toTime t).dec = s.dec := (State.toTime_touches s t).keeps .dec rfl
@[simp] theorem State.toTime_hch (s : State) (t : Nat) : (s.toTime t).hch = s.hch := (State.toTime_touches s t).keeps .hch rfl
@[simp] theorem State.toTime_badWords (s : State) (t : Nat) : (s.toTime t).badWords = s.badWords := (State.toTime_touches s t).keeps .badWords rfl
@[simp] theorem State.toTime_convs (s : State) (t : Nat) : (s.toTime t).convs = s.convs := (State.toTime_touches s t).keeps .convs rfl
@[simp] theorem State.toTime_engines (s : State) (t : Nat) : (s.toTime t).engines = s.engines := (State.toTime_touches s t).keeps .engines rfl
@[simp] theorem State.toTime_thm (s : State) (t : Nat) : (s.toTime t).thm = s.thm := (State.toTime_touches s t).keeps .thm rfl
@[simp] theorem State.toTime_pwr (s : State) (t : Nat) : (s.toTime t).pwr = s.pwr := (State.toTime_touches s t).keeps .pwr rfl
@[simp] theorem State.toTime_mc (s : State) (t : Nat) : (s.toTime t).mc = s.mc := (State.toTime_touches s t).keeps .mc rfl
@[simp] theorem State.toTime_sync (s : State) (t : Nat) : (s.toTime t).sync = s.sync := (State.toTime_touches s t).keeps .sync rfl
@[simp] theorem State.toTime_ptp (s : State) (t : Nat) : (s.toTime t).ptp = s.ptp := (State.toTime_touches s t).keeps .ptp rfl
@[simp] theorem State.toTime_hif (s : State) (t : Nat) : (s.toTime t).hif = s.hif := (State.toTime_touches s t).keeps .hif rfl
@[simp] theorem State.toTime_mon (s : State) (t : Nat) : (s.toTime t).mon = s.mon := (State.toTime_touches s t).keeps .mon rfl
@[simp] theorem State.toTime_tio (s : State) (t : Nat) : (s.toTime t).tio = s.tio := (State.toTime_touches s t).keeps .tio rfl
@[simp] theorem State.toTime_hbm (s : State) (t : Nat) : (s.toTime t).hbm = s.hbm := (State.toTime_touches s t).keeps .hbm rfl
@[simp] theorem State.toTime_seqSram (s : State) (t : Nat) : (s.toTime t).seqSram = s.seqSram := (State.toTime_touches s t).keeps .seqSram rfl
@[simp] theorem State.toTime_ucode (s : State) (t : Nat) : (s.toTime t).ucode = s.ucode := (State.toTime_touches s t).keeps .ucode rfl
@[simp] theorem State.toTime_envSram (s : State) (t : Nat) : (s.toTime t).envSram = s.envSram := (State.toTime_touches s t).keeps .envSram rfl
@[simp] theorem State.toTime_kernel (s : State) (t : Nat) : (s.toTime t).kernel = s.kernel := (State.toTime_touches s t).keeps .kernel rfl
@[simp] theorem State.toTime_envTab (s : State) (t : Nat) : (s.toTime t).envTab = s.envTab := (State.toTime_touches s t).keeps .envTab rfl
@[simp] theorem State.toTime_hostMem (s : State) (t : Nat) : (s.toTime t).hostMem = s.hostMem := (State.toTime_touches s t).keeps .hostMem rfl

@[simp] theorem State.readyFor_pending (s : State) (c : Nat) : (s.readyFor c).pending = s.pending := (State.readyFor_touches s c).keeps .pending rfl
@[simp] theorem State.readyFor_free (s : State) (c : Nat) : (s.readyFor c).free = s.free := (State.readyFor_touches s c).keeps .free rfl
@[simp] theorem State.readyFor_rdata (s : State) (c : Nat) : (s.readyFor c).rdata = s.rdata := (State.readyFor_touches s c).keeps .rdata rfl
@[simp] theorem State.readyFor_supply (s : State) (c : Nat) : (s.readyFor c).supply = s.supply := (State.readyFor_touches s c).keeps .supply rfl
@[simp] theorem State.readyFor_half (s : State) (c : Nat) : (s.readyFor c).half = s.half := (State.readyFor_touches s c).keeps .half rfl
@[simp] theorem State.readyFor_latch (s : State) (c : Nat) : (s.readyFor c).latch = s.latch := (State.readyFor_touches s c).keeps .latch rfl
@[simp] theorem State.readyFor_lows (s : State) (c : Nat) : (s.readyFor c).lows = s.lows := (State.readyFor_touches s c).keeps .lows rfl
@[simp] theorem State.readyFor_held (s : State) (c : Nat) : (s.readyFor c).held = s.held := (State.readyFor_touches s c).keeps .held rfl
@[simp] theorem State.readyFor_mode (s : State) (c : Nat) : (s.readyFor c).mode = s.mode := (State.readyFor_touches s c).keeps .mode rfl
@[simp] theorem State.readyFor_plies (s : State) (c : Nat) : (s.readyFor c).plies = s.plies := (State.readyFor_touches s c).keeps .plies rfl
@[simp] theorem State.readyFor_dec (s : State) (c : Nat) : (s.readyFor c).dec = s.dec := (State.readyFor_touches s c).keeps .dec rfl
@[simp] theorem State.readyFor_hch (s : State) (c : Nat) : (s.readyFor c).hch = s.hch := (State.readyFor_touches s c).keeps .hch rfl
@[simp] theorem State.readyFor_badWords (s : State) (c : Nat) : (s.readyFor c).badWords = s.badWords := (State.readyFor_touches s c).keeps .badWords rfl
@[simp] theorem State.readyFor_convs (s : State) (c : Nat) : (s.readyFor c).convs = s.convs := (State.readyFor_touches s c).keeps .convs rfl
@[simp] theorem State.readyFor_engines (s : State) (c : Nat) : (s.readyFor c).engines = s.engines := (State.readyFor_touches s c).keeps .engines rfl
@[simp] theorem State.readyFor_thm (s : State) (c : Nat) : (s.readyFor c).thm = s.thm := (State.readyFor_touches s c).keeps .thm rfl
@[simp] theorem State.readyFor_pwr (s : State) (c : Nat) : (s.readyFor c).pwr = s.pwr := (State.readyFor_touches s c).keeps .pwr rfl
@[simp] theorem State.readyFor_mc (s : State) (c : Nat) : (s.readyFor c).mc = s.mc := (State.readyFor_touches s c).keeps .mc rfl
@[simp] theorem State.readyFor_sync (s : State) (c : Nat) : (s.readyFor c).sync = s.sync := (State.readyFor_touches s c).keeps .sync rfl
@[simp] theorem State.readyFor_ptp (s : State) (c : Nat) : (s.readyFor c).ptp = s.ptp := (State.readyFor_touches s c).keeps .ptp rfl
@[simp] theorem State.readyFor_hif (s : State) (c : Nat) : (s.readyFor c).hif = s.hif := (State.readyFor_touches s c).keeps .hif rfl
@[simp] theorem State.readyFor_mon (s : State) (c : Nat) : (s.readyFor c).mon = s.mon := (State.readyFor_touches s c).keeps .mon rfl
@[simp] theorem State.readyFor_tio (s : State) (c : Nat) : (s.readyFor c).tio = s.tio := (State.readyFor_touches s c).keeps .tio rfl
@[simp] theorem State.readyFor_hbm (s : State) (c : Nat) : (s.readyFor c).hbm = s.hbm := (State.readyFor_touches s c).keeps .hbm rfl
@[simp] theorem State.readyFor_seqSram (s : State) (c : Nat) : (s.readyFor c).seqSram = s.seqSram := (State.readyFor_touches s c).keeps .seqSram rfl
@[simp] theorem State.readyFor_ucode (s : State) (c : Nat) : (s.readyFor c).ucode = s.ucode := (State.readyFor_touches s c).keeps .ucode rfl
@[simp] theorem State.readyFor_envSram (s : State) (c : Nat) : (s.readyFor c).envSram = s.envSram := (State.readyFor_touches s c).keeps .envSram rfl
@[simp] theorem State.readyFor_kernel (s : State) (c : Nat) : (s.readyFor c).kernel = s.kernel := (State.readyFor_touches s c).keeps .kernel rfl
@[simp] theorem State.readyFor_envTab (s : State) (c : Nat) : (s.readyFor c).envTab = s.envTab := (State.readyFor_touches s c).keeps .envTab rfl
@[simp] theorem State.readyFor_hostMem (s : State) (c : Nat) : (s.readyFor c).hostMem = s.hostMem := (State.readyFor_touches s c).keeps .hostMem rfl

@[simp] theorem State.upTo_blocksUp (s : State) (t : BitVec 64) : (s.upTo t).blocksUp = s.blocksUp := by simp [State.blocksUp]

@[simp] theorem State.upTo_absent (s : State) (t : BitVec 64) (o : Nat) : (s.upTo t).absent o = s.absent o := by simp [State.absent]

@[simp] theorem State.upTo_responds (s : State) (t : BitVec 64) (o : Nat) : (s.upTo t).responds o = s.responds o := by
  simp [State.responds]

@[simp] theorem State.upTo_railOn (s : State) (t : BitVec 64) (b : Nat) : (s.upTo t).railOn b = s.railOn b := by
  unfold State.railOn State.mainOn State.ply State.plyCount
  simp only [State.upTo_supply, State.upTo_mode, State.upTo_pwr, State.upTo_plies, State.upTo_half]

/-- `a` stands where the clock of `s` comes by on its way to time n. -/
structure OnWay (s a : State) (n : Nat) : Prop where
  mode : a.mode = s.mode
  le : s.now ≤ a.now ∧ a.now ≤ max s.now n
  grid : s.mode.mode = .dormant → 400 ∣ a.now - s.now

theorem OnWay.timeAt {s a : State} {n m : Nat} (h : OnWay s a n) (hm : n ≤ m) : a.timeAt m = s.timeAt m := by
  obtain ⟨h1, h2, h3⟩ := h
  unfold State.timeAt
  rw [h1]
  split_ifs with hd
  · obtain ⟨q, hq⟩ := h3 hd
    by_cases hx : s.now ≤ m
    · omega
    · have : a.now = s.now := by omega
      omega
  · omega

theorem OnWay.keep {l : List Part} {s a b : State} {n : Nat} (h : OnWay s a n) (g : Touches l a b) (h1 : l.contains .now = false)
    (h2 : l.contains .mode = false) : OnWay s b n := by
  have e1 : b.now = a.now := g.keeps .now h1
  have e2 : b.mode = a.mode := g.keeps .mode h2
  exact ⟨e2.trans h.mode, by rw [e1]; exact h.le, by rw [e1]; exact h.grid⟩

theorem OnWay.clock {s a : State} {n m : Nat} (h : OnWay s a n) (hm : m ≤ max s.now n) (hn : max s.now n < 2 ^ 64) :
    OnWay s (a.clockTo m) n := by
  have hl := h.le
  have e : (a.clockTo m).now = a.timeAt m := by
    have : a.timeAt m < 2 ^ 64 := by unfold State.timeAt; split_ifs <;> omega
    simpa [wrap64] using Nat.mod_eq_of_lt this
  refine ⟨h.mode, ?_, fun hd => ?_⟩
  · rw [e]; unfold State.timeAt; split_ifs <;> omega
  · rw [e]
    obtain ⟨q, hq⟩ := h.grid hd
    have e2 : a.mode.mode = .dormant := by rw [h.mode]; exact hd
    rw [State.timeAt_dormant e2]
    exact ⟨q + (m - a.now) / 400, by omega⟩

theorem OnWay.doDue {s a : State} {n m : Nat} {d : Due} (h : OnWay s a n) (hm : m ≤ max s.now n) (hn : max s.now n < 2 ^ 64) :
    OnWay s (a.doDue m d) n := by
  have h1 : OnWay s ((a.clockTo m).settleOuts m) n := (h.clock hm hn).keep (State.settleOuts_touches ..) rfl rfl
  unfold State.doDue
  cases d
  · exact h1.keep (State.judge_touches ..) rfl rfl
  · exact h1.keep (State.checkWins_touches ..) rfl rfl
  · exact h1.keep (State.staticArrives_touches ..) rfl rfl
  · exact h1.keep (State.framesDue_touches ..) rfl rfl
  · exact h1.keep (State.trigArrives_touches ..) rfl rfl
  · exact h1.keep (State.sampleDefer_touches ..) rfl rfl
  · exact h1.keep (State.stopNow_touches ..) rfl rfl

theorem OnWay.due {s : State} {n t : Nat} (ht : t ≤ max s.now n + 1) (hn : max s.now n < 2 ^ 64) : OnWay s (s.due t) n := by
  have key : ∀ k a, OnWay s a n → OnWay s (State.settle (fun _ => { other := t }) k a) n := by
    intro k
    induction k with
    | zero => exact fun a h => h
    | succ k ih =>
      intro a h
      unfold State.settle
      split
      · exact h
      · split
        · rename_i x _ hr
          refine ih _ (h.doDue ?_ hn)
          simp [Until.reaches] at hr
          omega
        · exact h
  exact key _ _ ⟨rfl, ⟨Nat.le_refl _, Nat.le_max_left ..⟩, fun _ => ⟨0, by omega⟩⟩

/-- A command that acts on the strands moves the clock as any other does, whatever falls due on the way (R8, R28). -/
theorem State.upTo_now {s : State} (h : timeOk s) (t : BitVec 64) : (s.upTo t).now = (s.at t).now := by
  have ht := t.isLt
  have h' : s.now < 2 ^ 64 := h
  have k : OnWay s (s.due (max s.now t.toNat + 1)) (max s.now t.toNat) := OnWay.due (by omega) (by omega)
  have k2 : OnWay s ((s.due (max s.now t.toNat + 1)).settleOuts (max s.now t.toNat)) (max s.now t.toNat) :=
    k.keep (State.settleOuts_touches ..) rfl rfl
  have e : ∀ m, (s.upTo t).now = wrap64 (((s.due (max s.now t.toNat + 1)).settleOuts (max s.now t.toNat)).timeAt m) → m = t.toNat →
      (s.upTo t).now = (s.at t).now := by
    intro m he hm
    subst hm
    rw [he]
    show _ = wrap64 (s.timeAt t.toNat)
    obtain ⟨a1, a2, a3⟩ := k2
    congr 1
    unfold State.timeAt
    rw [a1]
    split_ifs with hd
    · obtain ⟨q, hq⟩ := a3 hd
      omega
    · omega
  exact e t.toNat rfl rfl

/-- The same where the model itself reaches a time. -/
theorem State.toTime_now {s : State} {t : Nat} (h : timeOk s) (ht : t < 2 ^ 64) : (s.toTime t).now = (s.clockTo t).now := by
  have h' : s.now < 2 ^ 64 := h
  have k : OnWay s ((s.due t).settleOuts t) t := (OnWay.due (by omega) (by omega)).keep (State.settleOuts_touches ..) rfl rfl
  show wrap64 (((s.due t).settleOuts t).timeAt t) = wrap64 (s.timeAt t)
  rw [k.timeAt (Nat.le_refl _)]

end Sys2Proof.Machine
end

