-- ==== Sys2Proof/Laws/Writes.lean ====
section
/-! SUPPORT. Where a register write takes effect: in a block that answers, on a strand that takes it (R3, R52, R421); and
what a map over a sparse array leaves under each key. -/

namespace Sys2Proof.Machine

open Sys2Proof

theorem Tab.get_map {α : Type} (l : Tab α) (f : Nat → α → α) (k : Nat) (d : α) :
    Tab.get (l.map (fun e => (e.1, f e.1 e.2))) k d = f k (Tab.get l k d) ∨
      Tab.get (l.map (fun e => (e.1, f e.1 e.2))) k d = d ∧ Tab.get l k d = d := by
  induction l with
  | nil => exact .inr ⟨rfl, rfl⟩
  | cons p l ih =>
    obtain ⟨j, u⟩ := p
    by_cases h : j = k
    · subst h; left; simp [Tab.get]
    · simpa [Tab.get, h] using ih

/-- What mapping over the cores leaves of one: its image, or the resting core it was (R61). -/
theorem State.core_mapCores (s : State) (f : Nat → Core → Core) (c : Nat) :
    (s.mapCores f).core c = f c (s.core c) ∨ (s.mapCores f).core c = {} ∧ s.core c = {} :=
  Tab.get_map s.cores f c {}

/-- A hub register is written where the blocks answer (R52). -/
theorem State.hubWrite_up (s : State) (t : BitVec 64) (f : State → State) (h : s.blocksUp = true) :
    s.hubWrite t f = f (s.at t) := by
  have h1 : (s.at t).blocksUp = true := h
  simp [State.hubWrite, h1]

/-- The same for a register of a block the variant has (R3, R52), with what was due done. -/
theorem State.blockWrite_up (s : State) (t : BitVec 64) (r : RegId) (f : State → State) (h : s.blocksUp = true)
    (ha : s.absent r.off = false) : s.blockWrite t r f = f (s.upTo t) := by
  simp [State.blockWrite, h, ha]

/-- An ungated strand with no reset in progress takes a write at once (R421). -/
theorem State.toStrand_takes (s : State) (k : Nat) (r : RegId) (w : Word) (f : State → Word → State)
    (h : strandTakes s k) : s.toStrand k r w f = f s w := by
  unfold State.toStrand
  simp [h.1, h.2]

theorem State.strandWrite_takes (s : State) (t : BitVec 64) (k : Nat) (r : RegId) (w : Word) (f : State → Word → State)
    (h : s.blocksUp = true) (ha : s.absent r.off = false) (hs : strandTakes (s.upTo t) k) :
    s.strandWrite t k r w f = f (s.upTo t) w := by
  rw [State.strandWrite, State.blockWrite_up s t r _ h ha, State.toStrand_takes _ _ _ _ _ hs]

/-- A strand that is not under reset takes a table write, gated or not (R122, R421). -/
theorem State.toTable_takes (s : State) (k : Nat) (r : RegId) (w : Word) (f : State → Word → State)
    (h : (s.strand k).rst = none) : s.toTable k r w f = f s w := by
  simp [State.toTable, h]

theorem and_not_zero (x : Word) : x &&& ~~~(0 : Word) = x := by
  have : ~~~(0 : Word) = BitVec.allOnes 32 := rfl
  rw [this, BitVec.and_allOnes]

/-- A register of which no form has reserved bits among its fields keeps what is merged into them (R14, R15). -/
theorem mergeX_plain {r : RegId} (hu : ∀ x, r.unused x = 0) (old w : Word) :
    r.mergeX old w = r.fields.foldl (fun acc f =>
      if f.acc = .rw ∧ f.allows (getF w f.hi f.lo) = true ∧ r.extraOk f (getF w f.hi f.lo) w = true then setF acc f.hi f.lo (getF w f.hi f.lo) else acc) old := by
  unfold RegId.mergeX
  simp only [hu]
  exact and_not_zero _

end Sys2Proof.Machine
end

