-- ==== Sys2Proof/Laws/Noted.lean ====
section
/-! SUPPORT. Operations that leave of each core all but what may be noted on it: stamps that mark its shots, saturated samples in
them, and the ends of the segments its deferral samples (R88, R97, R118). -/

namespace Sys2Proof.Machine

open Sys2Proof

/-- Every core of t is as in s but for what may be noted on it. -/
def Noted (s t : State) : Prop := ∀ c, quiet (t.core c) = quiet (s.core c)

theorem Noted.refl (s : State) : Noted s s := fun _ => rfl

theorem Noted.trans {r s t : State} (h : Noted s t) (g : Noted r s) : Noted r t := fun c => (h c).trans (g c)

theorem Noted.same {s t : State} (h : t.cores = s.cores) : Noted s t := fun c => by simp only [State.core, h]

theorem Noted.of {l : List Part} {s t : State} (h : Touches l s t) (hl : l.contains .cores = false) : Noted s t :=
  .same (h.keeps .cores hl)

theorem Noted.step {l : List Part} {r s t : State} (h : Touches l s t) (hl : l.contains .cores = false) (g : Noted r s) :
    Noted r t := Noted.trans (.of h hl) g

theorem Noted.ite {r a b : State} {c : Prop} [Decidable c] (ha : Noted r a) (hb : Noted r b) : Noted r (if c then a else b) := by
  split <;> assumption

theorem Noted.foldl {r s : State} {β : Type} {f : State → β → State} (xs : List β)
    (hf : ∀ a x, Noted r a → Noted r (f a x)) (h : Noted r s) : Noted r (xs.foldl f s) := by
  induction xs generalizing s with
  | nil => exact h
  | cons x xs ih => exact ih (hf _ _ h)

/-- The parts of the state but for the cores. -/
def coreless : List Part :=
  [.pending, .now, .free, .rdata, .supply, .half, .regs, .latch, .lows, .held, .frameW, .frameLog, .flags, .counts, .flagAt, .recent, .ev, .queues, .mode, .plies, .strands, .units, .outs, .inps, .rtones, .dec, .hch, .badWords, .convs, .engines, .thm, .pwr, .mc, .mem, .sync, .ptp, .hif, .mon, .tio, .hbm, .seqSram, .ucode, .envSram, .kernel, .envTab, .hostMem]

theorem Noted.lift {r s t : State} (hf : ∀ a, Touches coreless a s → Touches coreless a t) (h : Noted r s) : Noted r t :=
  Noted.step (hf s (Touches.refl _ _)) (by decide) h

/-- A map over the cores that leaves each but for what may be noted on it. -/
theorem Noted.map (s : State) (f : Nat → Core → Core) (h : ∀ c x, quiet (f c x) = quiet x) : Noted s (s.mapCores f) := by
  intro c
  rcases State.core_mapCores s f c with e | ⟨e, e0⟩
  · rw [e]; exact h ..
  · rw [e, e0]

theorem State.markScope_noted (s : State) (c t : Nat) : Noted s (State.markScope s c t) :=
  Noted.map s _ (fun d x => by split_ifs <;> rfl)

theorem State.invalidAll_noted (s : State) (t : Nat) : Noted s (State.invalidAll s t) := Noted.map s _ (fun _ _ => rfl)

theorem State.cutDefer_noted (s : State) (k u start t : Nat) : Noted s (State.cutDefer s k u start t) := by
  refine Noted.map s _ (fun d x => ?_)
  split_ifs
  · unfold quiet; simp only [Option.map_map]; congr
  · rfl

theorem State.clipAt_noted (s : State) (k o : Nat) (cores : List Nat) (n : Nat) : Noted s (State.clipAt s k o cores n) := by
  have h1 : Noted s (s.bump (.outClipCnt k o) 1) := .of (State.bump_touches ..) rfl
  unfold State.clipAt
  dsimp only
  refine Noted.ite (Noted.step (State.raise_touches ..) rfl (Noted.trans (Noted.map _ _ (fun d x => ?_)) h1)) h1
  split_ifs
  · unfold quiet
    simp only [List.map_map]
    congr 1
    refine List.map_congr_left (fun y _ => ?_)
    simp only [Function.comp]
    split_ifs <;> rfl
  · rfl

theorem State.settleChain_noted (s0 : State) (k c t : Nat) :
    Noted s0 (State.settleChain s0 k c t) := by
  unfold State.settleChain
  try dsimp only
  repeat' first
    | with_reducible exact Noted.refl _
    | with_reducible assumption
    | with_reducible apply Noted.ite
    | (with_reducible apply Noted.foldl; on_goal 1 => intro _ _ _)
    | ((with_reducible apply Noted.step (State.settleStream_touches ..)); · rfl)
    | with_reducible refine Noted.trans (State.clipAt_noted ..) ?_
    | ((with_reducible apply Noted.step (State.setOut_touches ..)); · rfl)
    | split
    | dsimp only

theorem State.settleHeld_noted (s : State) (k o b : Nat) :
    Noted s (State.settleHeld s k o b) := by
  unfold State.settleHeld
  try dsimp only
  repeat' first
    | with_reducible exact Noted.refl _
    | with_reducible assumption
    | with_reducible apply Noted.ite
    | (with_reducible apply Noted.foldl; on_goal 1 => intro _ _ _)
    | with_reducible refine Noted.trans (State.settleChain_noted ..) ?_
    | split
    | dsimp only

theorem State.goHeld_noted (s : State) (k o b : Nat) (clearStatic clearChain : Bool) :
    Noted s (State.goHeld s k o b clearStatic clearChain) := by
  unfold State.goHeld
  try dsimp only
  repeat' first
    | with_reducible exact Noted.refl _
    | with_reducible assumption
    | with_reducible apply Noted.ite
    | (with_reducible apply Noted.foldl; on_goal 1 => intro _ _ _)
    | with_reducible refine Noted.trans (State.settleHeld_noted ..) ?_
    | ((with_reducible apply Noted.step (State.setOut_touches ..)); · rfl)
    | split
    | dsimp only

theorem State.invalid_noted (s : State) (c t : Nat) :
    Noted s (State.invalid s c t) := by
  unfold State.invalid
  try dsimp only
  repeat' first
    | with_reducible exact Noted.refl _
    | with_reducible assumption
    | with_reducible apply Noted.ite
    | (with_reducible apply Noted.foldl; on_goal 1 => intro _ _ _)
    | with_reducible refine Noted.trans (State.markScope_noted ..) ?_
    | split
    | dsimp only

theorem State.holdAllOuts_noted (s : State) (b : Nat) (clearStatic clearChain : Bool) :
    Noted s (State.holdAllOuts s b clearStatic clearChain) := by
  unfold State.holdAllOuts
  try dsimp only
  repeat' first
    | with_reducible exact Noted.refl _
    | with_reducible assumption
    | with_reducible apply Noted.ite
    | (with_reducible apply Noted.foldl; on_goal 1 => intro _ _ _)
    | with_reducible refine Noted.trans (State.goHeld_noted ..) ?_
    | split
    | dsimp only

theorem State.settleRf_noted (s : State) (k o t : Nat) :
    Noted s (State.settleRf s k o t) := by
  unfold State.settleRf
  try dsimp only
  repeat' first
    | with_reducible exact Noted.refl _
    | with_reducible assumption
    | with_reducible apply Noted.ite
    | (with_reducible apply Noted.foldl; on_goal 1 => intro _ _ _)
    | with_reducible refine Noted.trans (State.clipAt_noted ..) ?_
    | ((with_reducible apply Noted.step (State.setOut_touches ..)); · rfl)
    | split
    | dsimp only

theorem State.settleOuts_noted (s : State) (t : Nat) :
    Noted s (State.settleOuts s t) := by
  unfold State.settleOuts
  try dsimp only
  repeat' first
    | with_reducible exact Noted.refl _
    | with_reducible assumption
    | with_reducible apply Noted.ite
    | (with_reducible apply Noted.foldl; on_goal 1 => intro _ _ _)
    | with_reducible refine Noted.trans (State.settleRf_noted ..) ?_
    | with_reducible refine Noted.trans (State.settleChain_noted ..) ?_
    | split
    | dsimp only

theorem State.checkWins_noted (s : State) (k r t : Nat) :
    Noted s (State.checkWins s k r t) := by
  unfold State.checkWins
  try dsimp only
  repeat' first
    | with_reducible exact Noted.refl _
    | with_reducible assumption
    | with_reducible apply Noted.ite
    | (with_reducible apply Noted.foldl; on_goal 1 => intro _ _ _)
    | ((with_reducible apply Noted.step (State.setRtone_touches ..)); · rfl)
    | with_reducible refine Noted.trans (State.invalid_noted ..) ?_
    | ((with_reducible apply Noted.step (State.raise_touches ..)); · rfl)
    | split
    | dsimp only

theorem State.underrunAt_noted (s : State) (c u t : Nat) :
    Noted s (State.underrunAt s c u t) := by
  unfold State.underrunAt
  try dsimp only
  repeat' first
    | with_reducible exact Noted.refl _
    | with_reducible assumption
    | with_reducible apply Noted.ite
    | (with_reducible apply Noted.foldl; on_goal 1 => intro _ _ _)
    | with_reducible refine Noted.trans (State.invalid_noted ..) ?_
    | ((with_reducible apply Noted.step (State.raise_touches ..)); · rfl)
    | split
    | dsimp only

theorem State.playBad_noted (s : State) (k u : Nat) (g : Seg) :
    Noted s (State.playBad s k u g) := by
  unfold State.playBad
  try dsimp only
  repeat' first
    | with_reducible exact Noted.refl _
    | with_reducible assumption
    | with_reducible apply Noted.ite
    | (with_reducible apply Noted.foldl; on_goal 1 => intro _ _ _)
    | ((with_reducible apply Noted.step (State.memUe_touches ..)); · rfl)
    | ((with_reducible apply Noted.step (State.sramUe_touches ..)); · rfl)
    | with_reducible refine Noted.trans (State.underrunAt_noted ..) ?_
    | ((with_reducible apply Noted.step (State.setPunit_touches ..)); · rfl)
    | split
    | dsimp only

theorem State.reportUnmapped_noted (s : State) (c dba x : Nat) :
    Noted s (State.reportUnmapped s c dba x) := by
  unfold State.reportUnmapped
  try dsimp only
  repeat' first
    | with_reducible exact Noted.refl _
    | with_reducible assumption
    | with_reducible apply Noted.ite
    | (with_reducible apply Noted.foldl; on_goal 1 => intro _ _ _)
    | with_reducible refine Noted.trans (State.invalid_noted ..) ?_
    | ((with_reducible apply Noted.step (State.raise_touches ..)); · rfl)
    | split
    | dsimp only

theorem State.markMet_noted (s : State) (x a b : Nat) :
    Noted s (State.markMet s x a b) := by
  unfold State.markMet
  try dsimp only
  repeat' first
    | with_reducible exact Noted.refl _
    | with_reducible assumption
    | with_reducible apply Noted.ite
    | (with_reducible apply Noted.foldl; on_goal 1 => intro _ _ _)
    | with_reducible refine Noted.trans (State.invalid_noted ..) ?_
    | split
    | dsimp only

theorem State.playEvents_noted (s : State) (c u qn t : Nat) (x : PlayChk) :
    Noted s (State.playEvents s c u qn t x) := by
  unfold State.playEvents
  try dsimp only
  repeat' first
    | with_reducible exact Noted.refl _
    | with_reducible assumption
    | with_reducible apply Noted.ite
    | (with_reducible apply Noted.foldl; on_goal 1 => intro _ _ _)
    | with_reducible refine Noted.trans (State.invalid_noted ..) ?_
    | ((with_reducible apply Noted.step (State.raise_touches ..)); · rfl)
    | with_reducible refine Noted.trans (State.underrunAt_noted ..) ?_
    | split
    | dsimp only

theorem State.dpathCheck_noted (s : State) (c u t : Nat) :
    Noted s (State.dpathCheck s c u t) := by
  unfold State.dpathCheck
  try dsimp only
  repeat' first
    | with_reducible exact Noted.refl _
    | with_reducible assumption
    | with_reducible apply Noted.ite
    | (with_reducible apply Noted.foldl; on_goal 1 => intro _ _ _)
    | with_reducible refine Noted.trans (State.invalid_noted ..) ?_
    | ((with_reducible apply Noted.step (State.raise_touches ..)); · rfl)
    | ((with_reducible apply Noted.step (State.bump_touches ..)); · rfl)
    | split
    | dsimp only

theorem State.liveStatics_noted (s : State) (t : Nat) :
    Noted s (State.liveStatics s t) := by
  unfold State.liveStatics
  try dsimp only
  repeat' first
    | with_reducible exact Noted.refl _
    | with_reducible assumption
    | with_reducible apply Noted.ite
    | (with_reducible apply Noted.foldl; on_goal 1 => intro _ _ _)
    | with_reducible refine Noted.trans (State.settleChain_noted ..) ?_
    | ((with_reducible apply Noted.step (State.goLive_touches ..)); · rfl)
    | ((with_reducible apply Noted.step (State.setOut_touches ..)); · rfl)
    | split
    | dsimp only

theorem State.outComply_noted (s : State) (k c since : Nat) (openLine : Bool) :
    Noted s (State.outComply s k c since openLine) := by
  unfold State.outComply
  try dsimp only
  repeat' first
    | with_reducible exact Noted.refl _
    | with_reducible assumption
    | with_reducible apply Noted.ite
    | (with_reducible apply Noted.foldl; on_goal 1 => intro _ _ _)
    | with_reducible refine Noted.trans (State.goHeld_noted ..) ?_
    | ((with_reducible apply Noted.step (State.setOut_touches ..)); · rfl)
    | with_reducible refine Noted.trans (State.invalid_noted ..) ?_
    | ((with_reducible apply Noted.step (State.raise_touches ..)); · rfl)
    | split
    | dsimp only

theorem State.overlap_noted (s : State) (c r tag t ms : Nat) :
    Noted s (State.overlap s c r tag t ms) := by
  unfold State.overlap
  try dsimp only
  repeat' first
    | with_reducible exact Noted.refl _
    | with_reducible assumption
    | with_reducible apply Noted.ite
    | (with_reducible apply Noted.foldl; on_goal 1 => intro _ _ _)
    | ((with_reducible apply Noted.step (State.setRtone_touches ..)); · rfl)
    | with_reducible refine Noted.trans (State.invalid_noted ..) ?_
    | ((with_reducible apply Noted.step (State.raise_touches ..)); · rfl)
    | split
    | dsimp only

theorem State.setStatic_noted (s : State) (k c lvl t : Nat) :
    Noted s (State.setStatic s k c lvl t) := by
  unfold State.setStatic
  try dsimp only
  repeat' first
    | with_reducible exact Noted.refl _
    | with_reducible assumption
    | with_reducible apply Noted.ite
    | (with_reducible apply Noted.foldl; on_goal 1 => intro _ _ _)
    | with_reducible refine Noted.trans (State.settleChain_noted ..) ?_
    | ((with_reducible apply Noted.step (State.setFld_touches ..)); · rfl)
    | ((with_reducible apply Noted.step (State.setOut_touches ..)); · rfl)
    | ((with_reducible apply Noted.step (State.goLive_touches ..)); · rfl)
    | split
    | dsimp only

theorem State.holdStrand_noted (s : State) (k b : Nat) (clearStatic clearChain : Bool) :
    Noted s (State.holdStrand s k b clearStatic clearChain) := by
  unfold State.holdStrand
  try dsimp only
  repeat' first
    | with_reducible exact Noted.refl _
    | with_reducible assumption
    | with_reducible apply Noted.ite
    | (with_reducible apply Noted.foldl; on_goal 1 => intro _ _ _)
    | with_reducible refine Noted.trans (State.goHeld_noted ..) ?_
    | split
    | dsimp only

theorem State.staticArrives_noted (s : State) (k c lvl t : Nat) :
    Noted s (State.staticArrives s k c lvl t) := by
  unfold State.staticArrives
  try dsimp only
  repeat' first
    | with_reducible exact Noted.refl _
    | with_reducible assumption
    | with_reducible apply Noted.ite
    | (with_reducible apply Noted.foldl; on_goal 1 => intro _ _ _)
    | ((with_reducible apply Noted.step (State.setOut_touches ..)); · rfl)
    | with_reducible refine Noted.trans (State.setStatic_noted ..) ?_
    | split
    | dsimp only

theorem State.judge_noted (s : State) (k u : Nat) :
    Noted s (State.judge s k u) := by
  unfold State.judge
  try dsimp only
  repeat' first
    | with_reducible exact Noted.refl _
    | with_reducible assumption
    | with_reducible apply Noted.ite
    | (with_reducible apply Noted.foldl; on_goal 1 => intro _ _ _)
    | with_reducible refine Noted.trans (State.invalid_noted ..) ?_
    | ((with_reducible apply Noted.step (State.raise_touches ..)); · rfl)
    | ((with_reducible apply Noted.step (State.refuseSeg_touches ..)); · rfl)
    | ((with_reducible apply Noted.step (State.setPunit_touches ..)); · rfl)
    | with_reducible refine Noted.trans (State.playBad_noted ..) ?_
    | split
    | dsimp only

end Sys2Proof.Machine
end

