-- ==== Sys2Proof/Laws/Words.lean ====
section
/-! SUPPORT. What the issue of a word does to the core that issues it (chapter 03), and what an operation that touches no part of a
kind leaves of it. -/

namespace Sys2Proof

open Sys2Proof.Machine

/-- A word that issues is carried out on the state in which what was due before it has been done. -/
theorem State.runWord_issues (s : State) (c op : Nat) (fx : State → Nat → Tim → State) (h : issues (s.readyFor c) c op) :
    s.runWord c op fx = fx ((s.readyFor c).begin c ((s.readyFor c).fetch c).2 (nextWord (s.readyFor c) c) (nextTim (s.readyFor c) c))
      (nextWord (s.readyFor c) c) (nextTim (s.readyFor c) c) := by
  obtain ⟨h1, h2, h3, h4, h5⟩ := h
  unfold State.runWord
  dsimp only
  rw [if_neg (by simp [h1])]
  have hf : (s.readyFor c).fetch c = (.word (nextWord (s.readyFor c) c), ((s.readyFor c).fetch c).2) := by rw [← h2]
  have ht : nextTim (s.readyFor c) c = (s.readyFor c).timing ((s.readyFor c).core c) (nextWord (s.readyFor c) c) := rfl
  generalize ((s.readyFor c).fetch c).2 = ps at hf ⊢
  rw [hf]
  simp only
  rw [if_neg (by simp [h3]), if_pos h5, ← ht, if_pos h4]

theorem Core.shotStart_marks (x : Core) (m : List Nat) : ({ x with marks := m } : Core).shotStart = x.shotStart := rfl

/-- Marking shots changes nothing else of a core (R97). -/
theorem State.core_invalid (s : State) (c t d : Nat) : ∃ ms, (s.invalid c t).core d = { s.core d with marks := ms } := by
  unfold State.invalid State.markScope
  rcases State.core_mapCores s (fun d x => if s.scopeOf c d then x.markAt t else x) d with e | ⟨e, e0⟩
  · rw [e]
    split_ifs
    · exact ⟨_, rfl⟩
    · exact ⟨(s.core d).marks, rfl⟩
  · rw [e, e0]; exact ⟨[], rfl⟩

/-- What a word that begins makes of its core: the program counter, the times and, where it is late, a mark (R67, R69, R97). -/
def Machine.Core.begun (x : Core) (w : Nat) (tm : Tim) (ms : List Nat) : Core :=
  { x with pc := if x.inStream then x.pc else pcNext x.pc, tPrev := tm.t, ePrev := tm.t,
           busy := if opFlow (wOp w) then tm.mEnd else max tm.mEnd x.prep, prep := if opFlow (wOp w) then x.prep else 0,
           bound0 := 0, bound1 := if opFlow (wOp w) then x.bound1 else 0,
           gap := if x.inStream then (x.busy - x.readAt + 7) / 8 else x.gap, readAt := if x.inStream then x.busy else x.readAt,
           marks := ms }

/-- A word that begins changes of its core only the program counter, times and marks (R67, R97). -/
theorem State.core_begin (s : State) (c : Nat) (ps : List Packet) (w : Nat) (tm : Tim) :
    ∃ ms, (s.begin c ps w tm).core c = (s.core c).begun w tm ms := by
  obtain ⟨a, e, h⟩ : ∃ a : State, s.begin c ps w tm = (if tm.late then (a.raise .issueLate c c tm.eff []).invalid c tm.eff else a) ∧
      a.core c = (s.core c).begun w tm (s.core c).marks := by
    refine ⟨_, rfl, ?_⟩
    have hq : ∀ (a : State) n q, (a.setQueue n q).core c = a.core c := fun _ _ _ => rfl
    have hc : (s.clockTo tm.eff).core c = s.core c := rfl
    by_cases hi : (s.core c).inStream = true
    all_goals simp only [hc, hi, Core.begun, if_true, Bool.false_eq_true, if_false, hq, State.core_setCore]
  rw [e]
  split
  · obtain ⟨ms, e1⟩ := State.core_invalid (a.raise .issueLate c c tm.eff []) c tm.eff c
    have hr : (a.raise .issueLate c c tm.eff []).core c = a.core c := by
      have := (State.raise_touches a .issueLate c c tm.eff []).keeps .cores rfl
      simp only [Part.same] at this
      simp [State.core, this]
    exact ⟨ms, by rw [e1, hr, h]; rfl⟩
  · exact ⟨_, h⟩

/-- What a core reads at a decision-bit address depends on the fabric's records and the receive map alone (R204). -/
theorem State.decView_congr {s t : State} (h : t.dec = s.dec) (hr : t.regs = s.regs) (c a x : Nat) (b : Bool) :
    t.decView c a x b = s.decView c a x b := by
  have hf : ∀ r i j, t.fld r i j = s.fld r i j := fun r i j => by simp only [State.fld, State.reg, hr]
  have h1 : t.slotHist = s.slotHist := by funext n; simp only [State.slotHist, h]
  have h2 : t.upBad = s.upBad := by funext n; simp only [State.upBad, h]
  have h3 : t.downBad = s.downBad := by funext n; simp only [State.downBad, h]
  have h4 : t.serves = s.serves := by funext k; simp only [State.serves, State.rxValid, State.rxBits, State.rxOrigin, State.rxE, hf]
  have h5 : t.hitchLat = s.hitchLat := by funext k; simp only [State.hitchLat, State.rxHops, hf, h4]
  have h6 : t.hbit = s.hbit := by funext k; simp only [State.hbit, h]
  have h7 : t.derivedIn = s.derivedIn := by funext e y; simp only [State.derivedIn, State.hitchView, h, h1, h2, h4, h6]
  have h8 : t.inputWrites = s.inputWrites := by funext e; simp only [State.inputWrites, h, h1, h2, h4, h6]
  have h9 : t.evalSet = s.evalSet := by funext e y; simp only [State.evalSet, h7]
  have ha : t.derivedWrites = s.derivedWrites := by funext e y; unfold State.derivedWrites; rw [h, h8]
  have hd : t.dset = s.dset := by funext e y; simp only [State.dset, h]
  have hb : t.derivedAt = s.derivedAt := by funext e y; unfold State.derivedAt; rw [hd, h9, ha]
  have hi : t.inputLat = s.inputLat := by delta State.inputLat; rw [h5]
  have hc : t.derivedLat = s.derivedLat := by delta State.derivedLat; rw [hd, hi]
  simp only [State.decView, State.slotView, State.importOf, State.trigView, State.derivedView, h, h1, h2, h3, h9, ha, hb, hc]

theorem State.jcondAt_congr {s t : State} (h : t.dec = s.dec) (hr : t.regs = s.regs) (c w a x : Nat) :
    t.jcondAt c w a x = s.jcondAt c w a x := by
  simp only [State.jcondAt, State.decView_congr h hr]

theorem core_of {l : List Part} {s t : State} (h : Touches l s t) (hl : l.contains .cores = false) (k : Nat) : t.core k = s.core k := by
  have := h.keeps .cores hl
  simp only [Part.same] at this
  simp [State.core, this]

theorem Noted.st {s t : State} (h : Noted s t) (c : Nat) : (t.core c).st = (s.core c).st :=
  (congrArg Core.st (h c) : (quiet (t.core c)).st = (quiet (s.core c)).st)

/-- Core d is in the same state (RUNNING, DONE, ...) in both. -/
def sameSt (d : Nat) (s t : State) : Prop := (t.core d).st = (s.core d).st

theorem sameSt.refl (d : Nat) (s : State) : sameSt d s s := rfl

theorem sameSt.trans {d : Nat} {s t u : State} (a : sameSt d s t) (b : sameSt d t u) : sameSt d s u := Eq.trans b a

theorem sameSt.of {d : Nat} {l : List Part} {s t : State} (h : Touches l s t) (hl : l.contains .cores = false) : sameSt d s t := by
  unfold sameSt; rw [core_of h hl]

theorem sameSt.noted {d : Nat} {s t : State} (h : Noted s t) : sameSt d s t := Noted.st h d

theorem sameSt.set {d : Nat} (s : State) (c : Nat) (x : Core) (h : c = d → x.st = (s.core d).st) : sameSt d s (s.setCore c x) := by
  unfold sameSt
  by_cases e : d = c
  · subst e; simp [h rfl]
  · rw [State.core_setCore_ne _ _ _ _ e]

theorem sameSt.ite {d : Nat} {s a b : State} {c : Prop} [Decidable c] (ha : sameSt d s a) (hb : sameSt d s b) :
    sameSt d s (if c then a else b) := by split <;> assumption

theorem sameSt.fold {α : Type} {d : Nat} (f : State → α → State) (l : List α) (h : ∀ a x, sameSt d a (f a x)) (s : State) : sameSt d s (l.foldl f s) := by
  induction l generalizing s with
  | nil => exact sameSt.refl ..
  | cons x l ih => exact (h s x).trans (ih _)

theorem sameSt.mod {d : Nat} (s : State) (c u : Nat) (f : Shot → Shot) : sameSt d s (s.setCore c ((s.core c).modShot u f)) :=
  sameSt.set _ _ _ (by rintro rfl; rfl)

theorem sameSt.undoOne {d : Nat} (s : State) (u : Undo) : sameSt d s (s.undoOne u) := by
  cases u with
  | window c u => exact sameSt.mod s c u _
  | frame k f y c => exact sameSt.of (State.frameUndo_touches ..) rfl
  | _ => exact rfl

theorem sameSt.withdraw {d : Nat} (s : State) (c t : Nat) : sameSt d s (s.withdraw c t) := by
  unfold State.withdraw
  exact sameSt.ite (sameSt.refl ..) ((sameSt.fold (fun (a : State) (u : Nat × Undo) => a.undoOne u.2) _ (fun a x => sameSt.undoOne a x.2) s).trans
    (sameSt.of (State.notePhases_touches ..) rfl))

theorem sameSt.endInvalid {d : Nat} (s : State) (c t : Nat) : sameSt d s (s.endInvalid c t) := by
  unfold State.endInvalid
  exact (sameSt.noted (State.invalid_noted s c t)).trans (sameSt.set _ _ _ (by rintro rfl; rfl))

theorem sameSt.loseDeferral {d : Nat} (s : State) (c t : Nat) : sameSt d s (s.loseDeferral c t) := by
  unfold State.loseDeferral
  split
  · exact sameSt.refl ..
  · have h1 : sameSt d s (s.setCore c { s.core c with defer := none }) := sameSt.set _ _ _ (by rintro rfl; rfl)
    exact h1.trans ((sameSt.of (State.raise_touches ..) rfl).trans (sameSt.endInvalid ..))

theorem sameSt.endAllShots {d : Nat} (s : State) (c t : Nat) : sameSt d s (s.endAllShots c t) := by
  unfold State.endAllShots
  exact (sameSt.loseDeferral s c t).trans (sameSt.set _ _ _ (by rintro rfl; rfl))

theorem sameSt.loseResult {d : Nat} (s : State) (e : Ev) (c u n : Nat) : sameSt d s (s.loseResult e c u n) := by
  unfold State.loseResult
  exact ((sameSt.of (State.raise_touches ..) rfl).trans (sameSt.of (State.bump_touches ..) rfl)).trans (sameSt.mod ..)

theorem sameSt.commitBytes {d : Nat} (s : State) (c u : Nat) (bs : List Byte) : sameSt d s (s.commitBytes c u bs) := by
  unfold State.commitBytes
  dsimp only
  split_ifs
  · exact sameSt.loseResult ..
  · exact (sameSt.of (State.dropPacket_touches ..) rfl).trans (sameSt.loseResult ..)
  · have h : ∀ a : State, (∀ b x, a.storePacket (s.fld (.discResQ c) 14 0) bs = (b, x) → sameSt d a b) := by
      intro a b x hx
      have := State.storePacket_touches a (s.fld (.discResQ c) 14 0) bs
      rw [hx] at this
      exact sameSt.of this rfl
    have h0 : sameSt d s (s.setQueue (s.fld (.discResQ c) 14 0) { s.queue (s.fld (.discResQ c) 14 0) with content := 1 }) := rfl
    split <;> rename_i hx
    · exact h0.trans (h _ _ _ hx)
    · exact h0.trans (h _ _ _ hx)
    · exact (h0.trans (h _ _ _ hx)).trans (sameSt.loseResult ..)

theorem sameSt.closeShot {d : Nat} (s : State) (c : Nat) (x : Shot) : sameSt d s (s.closeShot c x) := by
  unfold State.closeShot
  dsimp only
  have h1 : ∀ (a : State) y, y.st = (a.core c).st → sameSt d s a → sameSt d s (a.setCore c y) := fun a y e h =>
    h.trans (sameSt.set _ _ _ (by rintro rfl; exact e))
  exact h1 _ _ rfl (sameSt.ite (sameSt.commitBytes ..) (sameSt.refl ..))

theorem sameSt.closeReady {d : Nat} (s : State) (c : Nat) : sameSt d s (s.closeReady c) := by
  unfold State.closeReady
  refine sameSt.fold _ _ (fun a x => ?_) s
  split
  · exact sameSt.closeShot ..
  · exact sameSt.refl ..

theorem sameSt.flushCores {d : Nat} (s : State) (k : Nat) (f : Nat → Bool) : sameSt d s (s.flushCores k f) := by
  unfold State.flushCores
  refine sameSt.trans (t := s.commitWhere k (fun p => f p.core) State.commitFlush) ?_ (sameSt.fold (fun a i => a.closeReady (8 * k + i)) _ (fun a x => sameSt.closeReady ..) _)
  unfold State.commitWhere
  refine sameSt.trans (t := s.setStrand k _) rfl (sameSt.fold _ _ (fun a p => ?_) _)
  unfold State.commitFlush
  exact (sameSt.mod ..).trans (sameSt.commitBytes ..)

theorem State.core_ofCores {s t : State} (h : t.cores = s.cores) (c : Nat) : t.core c = s.core c := by simp [State.core, h]

/-- A fault of a core leaves every other core in its state, and the core in FAULT (R99). -/
theorem faultEffects_st (s : State) (c t d : Nat) : ((s.faultEffects c t).core d).st = if d = c then .fault else (s.core d).st := by
  have h1 : sameSt d s ((((s.withdraw c t).endInvalid c t)).endAllShots c t) := ((sameSt.withdraw ..).trans (sameSt.endInvalid ..)).trans (sameSt.endAllShots ..)
  unfold State.faultEffects
  dsimp only
  refine Eq.trans (sameSt.flushCores (d := d) _ _ _) ?_
  by_cases e : d = c
  · subst e; simp [Core.stopped]
  · rw [if_neg e, State.core_setCore_ne _ _ _ _ e]
    refine Eq.trans ?_ h1
    have : ∀ (l : List Nat) (a : State), sameSt d a (l.foldl (fun a u => a.goHeld (c / 8) (6 + (u - 64)) (up8 t) false true) a) :=
      fun l a => sameSt.fold _ _ (fun a u => sameSt.noted (fun _ => State.goHeld_noted ..)) a
    have z : ∀ (a : State) f, sameSt d a ((a.closeWins f t).unbind c) := fun a f =>
      (sameSt.of (State.closeWins_touches a f t) rfl).trans (sameSt.of (State.unbind_touches ..) rfl)
    have z2 : ∀ (a : State) f, sameSt d a (a.rampUnits f t) := fun a f => sameSt.of (State.rampUnits_touches a f t) rfl
    exact ((z2 _ _).trans (this _ _)).trans (z _ _)

theorem coreFault_st (s : State) (c t : Nat) : ((s.faultCore c t).core c).st = .fault := by
  unfold State.faultCore
  dsimp only
  have h : ((s.faultEffects c t).core c).st = .fault := by rw [faultEffects_st]; simp
  split_ifs
  · have : ∀ (l : List Nat) (a : State), (∀ i ∈ l, i ≠ c) → (a.core c).st = .fault →
        ((l.foldl (fun a d => a.faultWith t d) a).core c).st = .fault := by
      intro l
      induction l with
      | nil => intro a _ h; exact h
      | cons i l ih =>
        intro a hl ha
        refine ih _ (fun j hj => hl j (by simp [hj])) ?_
        have hi : c ≠ i := fun e => hl i (by simp) e.symm
        have q : ∀ x, ((a.setCore i x).core c) = a.core c := fun x => State.core_setCore_ne _ _ _ _ hi
        show ((a.faultWith t i).core c).st = .fault
        unfold State.faultWith
        split
        · exact ha
        · rw [q]; exact ha
        · unfold State.quietFault
          rw [faultEffects_st, if_neg hi, q]; exact ha
    exact this _ _ (fun i hi => by simpa using (List.mem_filter.mp hi).2) h
  · exact h

theorem punit_of {l : List Part} {s t : State} (h : Touches l s t) (hl : l.contains .units = false) (k u : Nat) : t.punit k u = s.punit k u := by
  have := h.keeps .units hl
  simp only [Part.same] at this
  simp [State.punit, this]

theorem regs_of {l : List Part} {s t : State} (h : Touches l s t) (hl : l.contains .regs = false) : t.regs = s.regs := h.keeps .regs hl

/-- A reference to an unmapped address marks shots of the core and changes nothing else of it (R97, R204). -/
theorem report_core (s : State) (c a x : Nat) : ∃ ms, (s.reportUnmapped c a x).core c = { s.core c with marks := ms } ∧
    (s.reportUnmapped c a x).dec = s.dec ∧ (s.reportUnmapped c a x).regs = s.regs := by
  have d : (s.reportUnmapped c a x).dec = s.dec := (State.reportUnmapped_touches s c a x).keeps .dec rfl
  have r : (s.reportUnmapped c a x).regs = s.regs := (State.reportUnmapped_touches s c a x).keeps .regs rfl
  rw [d, r]
  unfold State.reportUnmapped
  split_ifs
  · obtain ⟨ms, e⟩ := State.core_invalid (s.raise .decUnmapped 0 c x [wd a]) c x c
    rw [core_of (State.raise_touches ..) rfl] at e
    exact ⟨ms, e, rfl, rfl⟩
  · exact ⟨_, rfl, rfl, rfl⟩

theorem State.faddAt_congr {s t : State} (h : t.dec = s.dec) (hr : t.regs = s.regs) (c w a x : Nat) : t.faddAt c w a x = s.faddAt c w a x := by
  simp only [State.faddAt, State.decView_congr h hr]

theorem bits_lt (w h l : Nat) : bits w h l < 2 ^ (h - l + 1) := Nat.mod_lt _ (by positivity)

theorem setStatic_fld (s : State) (k c lvl t : Nat) (h : lvl < 2 ^ 16) : (s.setStatic k c lvl t).fld (.outStatic k c) 15 0 = lvl := by
  have g : ∀ (a : State) k o t, (a.goLive k o t).regs = a.regs := fun a k o t => (State.goLive_touches a k o t).keeps .regs rfl
  unfold State.setStatic
  rw [State.fld_congr (g ..)]
  (show State.fld (State.setFld _ _ _ _ _) _ _ _ = _; rw [State.fld_setFld _ _ _ _ _ (by decide) (by decide)]; exact Nat.mod_eq_of_lt h)

theorem settle0 (s : State) (f : Nat → Bool) (t : Nat) (h : s.frameW = []) : s.settleFrames f t = s := by simp [State.settleFrames, h]

theorem strand_of {l : List Part} {s t : State} (h : Touches l s t) (hl : l.contains .strands = false) (k : Nat) : t.strand k = s.strand k := by
  have := h.keeps .strands hl
  simp only [Part.same] at this
  simp [State.strand, this]

theorem reg_of {s t : State} (h : t.regs = s.regs) (r : RegId) : t.reg r = s.reg r := by simp [State.reg, h]

theorem rtone_of {l : List Part} {s t : State} (h : Touches l s t) (hl : l.contains .rtones = false) (k o : Nat) : t.rtone k o = s.rtone k o := by
  have := h.keeps .rtones hl
  simp only [Part.same] at this
  simp [State.rtone, this]

theorem now_of {l : List Part} {s t : State} (h : Touches l s t) (hl : l.contains .now = false) : t.now = s.now := h.keeps .now hl

end Sys2Proof
end

