-- ==== Sys2Proof/Laws/Arms.lean ====
section
/-! SUPPORT. Steps of the commands of one kind: ARM, HALT and SWTRIG writes and underruns. -/

namespace Sys2Proof

open Sys2Proof.Machine

theorem fold_units (k : Nat) (h : State → Nat → Sys2Proof.Machine.PUnit) (l : List Nat) (s : State) (c : Nat) : (l.foldl (fun a u => a.setPunit k u (h a u)) s).core c = s.core c := by
  induction l generalizing s with
  | nil => rfl
  | cons x l ih => exact (ih _).trans rfl

/-- What an ARM write leaves in the core (R65). -/
theorem arm_core (s : State) (c : Nat) (h1 : (s.core c).active = false) (h2 : (s.core c).st ≠ .held) :
    ∃ x : Core, (s.arm c).core c = x ∧ x.st = .armed ∧ x.pc = s.fld (.seqStart c) 16 0 ∧
      x.start = s.reg64 (.seqStartTimeLo c) (.seqStartTimeHi c) ∧ x.armAt = s.now ∧ x.bights = [] ∧ x.calls = [] ∧ x.trigQ = [] := by
  unfold State.arm
  dsimp only
  rw [if_neg (by simp [h1, h2])]
  refine ⟨_, rfl, ?_⟩
  have q : ∀ (a : State) n x, (a.setQueue n x).core c = a.core c := fun _ _ _ => rfl
  have r : ∀ (a : State) e n m t l, (a.raise e n m t l).core c = a.core c := fun a e n m t l => core_of (State.raise_touches ..) rfl c
  rw [core_of (State.notePhases_touches ..) rfl, fold_units]
  split_ifs <;> simp [q, r]

/-- The registers a write of SEQ_CTL leaves alone (R100). -/
theorem seqCtl_regs (s : State) (c : Nat) (w : Word) (r : RegId) (h1 : r.off ≠ (RegId.seqCtl c).off) (h2 : r.off ≠ (RegId.seqTrigMask c).off) :
    (s.writeFields (.seqCtl c) w).reg r = s.reg r := by
  unfold State.writeFields
  dsimp only
  split_ifs
  · exact State.reg_setReg_ne _ _ _ _ h1
  · simp only [profileSettings, List.foldl, State.applySetting, State.setFld]
    simp [State.reg_setReg_ne, h1, h2]
  · simp [RegId.profileOf, State.reg_setReg_ne, h1]

end Sys2Proof
end

