-- ==== Sys2Proof/Laws/Barriers.lean ====
section
/-! SUPPORT. Steps of the commands of one kind: SYNCSTRAND. -/

namespace Sys2Proof

open Sys2Proof.Machine

theorem fold_same {α β : Type} (f : β → α → β) (l : List α) (s : β) (h : ∀ x ∈ l, f s x = s) : l.foldl f s = s := by
  induction l with
  | nil => rfl
  | cons x l ih => rw [List.foldl_cons, h x (by simp)]; exact ih (fun y hy => h y (by simp [hy]))

theorem mem_mask (c m e : Nat) : e ∈ maskCores c m ↔ e / 8 = c / 8 ∧ m.testBit (e % 8) = true := by
  simp only [maskCores, List.mem_map, List.mem_filter, List.mem_range]
  constructor
  · rintro ⟨i, ⟨h1, h2⟩, rfl⟩
    have : (8 * (c / 8) + i) % 8 = i := by omega
    exact ⟨by omega, by rw [this]; exact h2⟩
  · rintro ⟨h1, h2⟩
    exact ⟨e % 8, ⟨by omega, h2⟩, by omega⟩

theorem begin_sync (s : State) (c e : Nat) (ps w tm) : e ≠ c → ((s.begin c ps w tm).core e).syncMask = (s.core e).syncMask := by
  intro h
  have hr : ∀ (a : State) ev n m t l, (a.raise ev n m t l).core e = a.core e := fun a ev n m t l => core_of (State.raise_touches ..) rfl e
  have key : ∀ a : State, ((if tm.late then (a.raise .issueLate c c tm.eff []).invalid c tm.eff else a).core e).syncMask = (a.core e).syncMask := by
    intro a
    split_ifs
    · obtain ⟨ms, x⟩ := State.core_invalid (a.raise .issueLate c c tm.eff []) c tm.eff e
      rw [x, hr]; rfl
    · rfl
  unfold State.begin
  refine Eq.trans (key (if (s.core c).inStream then ((s.clockTo tm.eff).setCore c _).setQueue (s.streamQ c) { ((s.clockTo tm.eff).setCore c _).queue (s.streamQ c) with pkts := ps } else (s.clockTo tm.eff).setCore c _)) ?_
  have hq : ∀ (a : State) n q, (a.setQueue n q).core e = a.core e := fun _ _ _ => rfl
  split_ifs <;> simp [hq, State.core_setCore_ne _ _ _ _ h] <;> rfl

theorem fold_set (f : State → Nat → Core) (l : List Nat) (hl : l.Nodup) (s : State) (P : Core → Prop) (hP : ∀ a e, P (f a e)) :
    ∀ e ∈ l, P ((l.foldl (fun a e => a.setCore e (f a e)) s).core e) := by
  induction l generalizing s with
  | nil => simp
  | cons x l ih =>
    intro e he
    rw [List.foldl_cons]
    obtain ⟨hx, hn⟩ := List.nodup_cons.1 hl
    rcases List.mem_cons.1 he with rfl | h
    · have : ∀ (l : List Nat) (a : State), e ∉ l → (l.foldl (fun a e => a.setCore e (f a e)) a).core e = a.core e := by
        intro l
        induction l with
        | nil => intros; rfl
        | cons y l ih' =>
          intro a hy
          rw [List.foldl_cons, ih' _ (fun h => hy (by simp [h])), State.core_setCore_ne _ _ _ _ (fun h => hy (by simp [h]))]
      rw [this _ _ hx, State.core_setCore]; exact hP ..
    · exact ih hn _ e h

end Sys2Proof
end

