-- ==== Sys2Proof/Laws/Boot.lean ====
section
/-! SUPPORT. Steps of the commands of one kind: power-on and boot. -/

namespace Sys2Proof

open Sys2Proof.Machine

theorem tr_evalHold (s : State) (h : s.mode.mode = .boot) : s.evalHold.mode.trans = s.mode.trans := by
  have h1 := State.refreshHold_mode s
  have h2 := State.refreshHold_trans s
  unfold State.evalHold
  dsimp only
  rw [h1, h]
  exact h2

theorem tr_selectRef (s : State) (h : s.mode.mode = .boot) : s.selectRef.mode.trans = s.mode.trans := by
  have hl : ∀ a : State, a.mode.mode = .boot → a.loseRef.mode.trans = a.mode.trans := by
    intro a ha
    unfold State.loseRef
    have k : ∀ b n, (State.invalidAll b n).mode = b.mode := fun b n => (State.invalidAll_touches b n).keeps .mode rfl
    rw [tr_evalHold _ (by rw [k]; simpa using ha), k]
    simp
  unfold State.selectRef
  dsimp only
  split_ifs <;> first | rfl | (rw [tr_evalHold _ (by exact h)]; done) | (rw [tr_evalHold _ (by exact h)]; rfl) | (rw [hl _ (by exact h)]; done) | (rw [hl _ (by exact h)]; rfl)

theorem modeIs_readHeld {m e} {s : State} (h : modeIs m e s) : modeIs m e s.readHeld := by
  unfold State.readHeld
  refine modeIs.ite h ?_
  split
  · exact modeIs.ite h (modeIs.of (State.toJournal_touches ..) rfl (modeIs.set h.1 h.2))
  · exact modeIs.ite (modeIs.set h.1 h.2) h

end Sys2Proof
end

