-- ==== Sys2Proof/Laws/Sync.lean ====
section
/-! SUPPORT. References, HOLD and trips: what each of the shared operations leaves of the clock and the mode (chapters 02 and 10). -/

namespace Sys2Proof

open Sys2Proof.Machine

theorem mode_of {l : List Part} {s t : State} (h : Touches l s t) (hl : l.contains .mode = false) : t.mode = s.mode := h.keeps .mode hl

theorem sync_of {l : List Part} {s t : State} (h : Touches l s t) (hl : l.contains .sync = false) : t.sync = s.sync := h.keeps .sync hl

theorem ptp_of {l : List Part} {s t : State} (h : Touches l s t) (hl : l.contains .ptp = false) : t.ptp = s.ptp := h.keeps .ptp hl

theorem hif_of {l : List Part} {s t : State} (h : Touches l s t) (hl : l.contains .hif = false) : t.hif = s.hif := h.keeps .hif hl

theorem fld_of {l : List Part} {s t : State} (h : Touches l s t) (hl : l.contains .regs = false) (r : RegId) (x y : Nat) : t.fld r x y = s.fld r x y :=
  State.fld_congr (h.keeps .regs hl) r x y

/-- A trip outside DORMANT and SAFE begins the entry into SAFE, 1 µs on (R41, R44). -/
theorem State.trip_begins (s : State) (idx : Nat) (j : JCause) (lose : Bool) (h1 : s.mode.mode ≠ .dormant) (h2 : s.mode.mode ≠ .safe)
    (h3 : s.mode.tripAt = none) :
    (s.trip idx j lose).mode.trans = some (.safe, s.now + us) ∧ idx ∈ (s.trip idx j lose).mode.causes ∧
      (s.trip idx j lose).mode.safeCause = (if s.mode.safeCause = 0 then idx else s.mode.safeCause) := by
  unfold State.trip
  dsimp only
  rw [if_neg h1]
  simp only [h3, Option.any_none, Option.isSome_none, h2]
  have te : ∀ (a : State) b l, (a.tripEffects b l).mode = a.mode := fun a b l => mode_of (State.tripEffects_touches ..) rfl

  have tj : ∀ (a : State) j, (a.tripJournal j).mode = a.mode := fun a j => mode_of (State.tripJournal_touches ..) rfl
  have rf : ∀ (a : State) n, (a.refuse n).mode = a.mode := fun a j => mode_of (State.refuse_touches ..) rfl
  simp only [Bool.false_eq_true, or_self, if_false]
  refine ⟨rfl, ?_, ?_⟩
  · show idx ∈ (State.mode _).causes
    rw [te]
    split_ifs <;> simp_all [rf, tj, State.setMode]
  · show (State.mode _).safeCause = _
    rw [te]
    split_ifs <;> simp_all [rf, tj, State.setMode]

theorem mergeX_aux (r : RegId) (f : Field) (w : Word) (ha : f.acc = .rw) (hb : f.allows (getF w f.hi f.lo) = true)
    (hc : r.extraOk f (getF w f.hi f.lo) w = true) (hf : f.hi < 32 ∧ f.lo ≤ f.hi) :
    ∀ (l : List Field) (acc : Word), (∀ g ∈ l, g = f ∨ g.hi < 32 ∧ g.lo ≤ g.hi ∧ (f.hi < g.lo ∨ g.hi < f.lo)) →
      (f ∈ l ∨ getF acc f.hi f.lo = getF w f.hi f.lo) →
      getF (l.foldl (fun acc f => if f.acc = .rw ∧ f.allows (getF w f.hi f.lo) = true ∧ r.extraOk f (getF w f.hi f.lo) w = true
        then setF acc f.hi f.lo (getF w f.hi f.lo) else acc) acc) f.hi f.lo = getF w f.hi f.lo := by
  intro l
  induction l with
  | nil => intro acc _ h; rcases h with h | h; cases h; exact h
  | cons g l ih =>
    intro acc hg h
    rw [List.foldl_cons]
    refine ih _ (fun x hx => hg x (List.mem_cons_of_mem _ hx)) ?_
    rcases hg g (List.mem_cons_self ..) with e | ⟨e1, e2, e3⟩
    · subst e
      right
      rw [if_pos ⟨ha, hb, hc⟩]
      exact getF_setF_self _ _ _ _ hf.1 hf.2
    · rcases h with h | h
      · rcases List.mem_cons.1 h with e | e
        · subst e; omega
        · exact .inl e
      · right
        split_ifs
        · rw [getF_setF_ne _ _ _ _ _ _ e1 e2 ⟨hf.2, e3⟩]; exact h
        · exact h

/-- A write of a register's RW field with a value it allows is kept (R12, R13). -/
theorem mergeX_fld (r : RegId) (old w : Word) (f : Field) (h : f ∈ r.fields) (ha : f.acc = .rw) (hb : f.allows (getF w f.hi f.lo) = true)
    (hc : r.extraOk f (getF w f.hi f.lo) w = true) (hf : f.hi < 32 ∧ f.lo ≤ f.hi)
    (hd : ∀ g ∈ r.fields, g = f ∨ g.hi < 32 ∧ g.lo ≤ g.hi ∧ (f.hi < g.lo ∨ g.hi < f.lo)) (hu : ∀ x, r.unused x = 0) :
    getF (r.mergeX old w) f.hi f.lo = getF w f.hi f.lo := by
  unfold RegId.mergeX
  simp only [hu]
  exact (congrArg (getF · f.hi f.lo) (and_not_zero _)).trans (mergeX_aux r f w ha hb hc hf r.fields old hd (.inl h))

/-- In RUN an active REF cause begins HOLD at the start of the second fabric cycle after it (R46, R47). -/
theorem State.evalHold_run (a : State) (m1 : a.mode.mode = .run) (m2 : a.mode.trans = none) (rh : a.refHolds = true) {n : Nat} (hn : a.now = n) :
    a.evalHold.mode.holdRef = true ∧ a.evalHold.mode.trans = some (.hold, fl8 n + 16) := by
  subst hn
  have e : a.refreshHold = a.setMode { a.mode with holdRef := true, holdTherm := a.warnHolds } := by
    unfold State.refreshHold
    simp [m1, rh]
  have b : (a.setMode { a.mode with holdRef := true, holdTherm := a.warnHolds }).blocking = true := by
    have : ∀ m, (a.setMode m).blocking = a.blocking := fun _ => rfl
    rw [this]; simp [State.blocking, rh]
  unfold State.evalHold
  rw [e]
  dsimp only
  have m1' : (a.setMode { a.mode with holdRef := true, holdTherm := a.warnHolds }).mode.mode = .run := m1
  have m2' : (a.setMode { a.mode with holdRef := true, holdTherm := a.warnHolds }).mode.trans = none := m2
  have n' : (a.setMode { a.mode with holdRef := true, holdTherm := a.warnHolds }).now = a.now := rfl
  have hr : (a.setMode { a.mode with holdRef := true, holdTherm := a.warnHolds }).mode.holdRef = true := rfl
  generalize a.setMode _ = z at *
  rw [m1', m2']
  dsimp only
  rw [b, if_pos rfl, ← n']
  exact ⟨hr, rfl⟩

theorem State.loseRef_sync (a : State) : a.loseRef.sync = { a.sync with lost := some a.now, holdover := true, pull := false } := by
  unfold State.loseRef
  exact (sync_of (State.evalHold_touches _) rfl).trans ((sync_of (State.invalidAll_touches ..) rfl).trans (sync_of (State.raise_touches ..) rfl))

theorem State.loseRef_run (a : State) (m1 : a.mode.mode = .run) (m2 : a.mode.trans = none) (h : a.fld .modeCtl 4 4 = 1) :
    a.loseRef.mode.holdRef = true ∧ a.loseRef.mode.trans = some (.hold, fl8 a.now + 16) := by
  unfold State.loseRef
  have M : ∀ z : State, (State.invalidAll (z.raise .refLost 0 0 (up8 z.now) []) (up8 z.now)).mode = z.mode :=
    fun z => (mode_of (State.invalidAll_touches ..) rfl).trans (mode_of (State.raise_touches ..) rfl)
  have N : ∀ z : State, (State.invalidAll (z.raise .refLost 0 0 (up8 z.now) []) (up8 z.now)).now = z.now :=
    fun z => (now_of (State.invalidAll_touches ..) rfl).trans (now_of (State.raise_touches ..) rfl)
  have S : ∀ z : State, (State.invalidAll (z.raise .refLost 0 0 (up8 z.now) []) (up8 z.now)).sync = z.sync :=
    fun z => (sync_of (State.invalidAll_touches ..) rfl).trans (sync_of (State.raise_touches ..) rfl)
  have F : ∀ z : State, (State.invalidAll (z.raise .refLost 0 0 (up8 z.now) []) (up8 z.now)).fld .modeCtl 4 4 = z.fld .modeCtl 4 4 :=
    fun z => (fld_of (State.invalidAll_touches ..) rfl ..).trans (fld_of (State.raise_touches ..) rfl ..)
  have key : ∀ z : State, z.mode = a.mode → z.now = a.now → z.sync.lost.isSome = true → z.fld .modeCtl 4 4 = 1 →
      (State.invalidAll (z.raise .refLost 0 0 (up8 z.now) []) (up8 z.now)).evalHold.mode.holdRef = true ∧
      (State.invalidAll (z.raise .refLost 0 0 (up8 z.now) []) (up8 z.now)).evalHold.mode.trans = some (.hold, fl8 a.now + 16) := by
    intro z k1 k2 k3 k4
    refine State.evalHold_run _ ?_ ?_ ?_ ?_
    · rw [M, k1]; exact m1
    · rw [M, k1]; exact m2
    · unfold State.refHolds; rw [S, F, k3, k4]; rfl
    · rw [N, k2]
  exact key (a.setSync { a.sync with lost := some a.now, holdover := true, pull := false }) rfl rfl rfl h

/-- The end of a REF cause in HOLD (R47, R256). -/
theorem State.evalHold_noRef (a : State) (m1 : a.mode.mode = .hold) (m2 : a.mode.pend = none) (h1 : a.sync.lost = none) (h2 : a.thm.warn = false) :
    a.evalHold.mode.holdRef = false := by
  rw [State.evalHold_quiet a ⟨h1, h2⟩ m2, State.refreshHold_quiet a ⟨h1, h2⟩]
  rfl

theorem State.clkTrip_begins (a : State) (n : Nat) (h1 : a.mode.mode ≠ .dormant) (h2 : a.mode.mode ≠ .safe) (h3 : a.mode.tripAt = none)
    (h4 : a.mode.safeCause = 0) : (a.clkTrip n).mode.trans = some (.safe, a.now + us) ∧ (a.clkTrip n).mode.safeCause = 6 := by
  have key : ∀ z : State, z.mode = a.mode → z.now = a.now → (z.trip 6 (a.jcause 4) false).mode.trans = some (.safe, a.now + us) ∧
      (z.trip 6 (a.jcause 4) false).mode.safeCause = 6 := by
    intro z my ny
    obtain ⟨k1, k2, k3⟩ := State.trip_begins z 6 (a.jcause 4) false (by rw [my]; exact h1) (by rw [my]; exact h2) (by rw [my]; exact h3)
    rw [ny] at k1
    rw [my, if_pos h4] at k3
    exact ⟨k1, k3⟩
  have my : (a.raise .clkFault 0 n (up8 a.now) []).mode = a.mode := mode_of (State.raise_touches ..) rfl
  have ny : (a.raise .clkFault 0 n (up8 a.now) []).now = a.now := now_of (State.raise_touches ..) rfl
  have h := key _ my ny
  unfold State.clkTrip
  exact h

end Sys2Proof
end

