-- ==== Sys2Proof/Laws/Rings.lean ====
section
/-! SUPPORT. Ring pairs and queues: reading one after writing another (chapters 11 and 12). -/

namespace Sys2Proof

open Sys2Proof.Machine

theorem ring_of {l : List Part} {s t : State} (h : Touches l s t) (hl : l.contains .hif = false) (n : Nat) : t.ring n = s.ring n := by
  simp [State.ring, hif_of h hl]

theorem ring_set (s : State) (d : Nat) (x : Ring) (i : Nat) : (s.setRing d x).ring i = if i = d then x else s.ring i := by
  unfold State.ring State.setRing
  dsimp only
  split_ifs with h
  · subst h; exact Tab.get_put ..
  · exact Tab.get_put_ne _ _ _ h

theorem get_filter {α : Type} (l : Tab α) (p : Nat → Bool) (k : Nat) (d : α) : Tab.get (l.filter (fun e => p e.1)) k d = if p k then Tab.get l k d else d := by
  induction l with
  | nil => simp [Tab.get]
  | cons e l ih =>
    obtain ⟨j, v⟩ := e
    rw [List.filter_cons]
    by_cases hj : j = k
    · subst hj
      cases hp : p j <;> simp [hp, Tab.get, ih]
    · cases hp : p j <;> simp [Tab.get, ih, hj]

theorem drained_ring (s : State) (n : Nat) : (s.drained n).ring n = { s.ring n with draining := ((s.drained n).ring n).draining } := by
  unfold State.drained
  split_ifs
  · rw [ring_set, if_pos rfl]
  · rfl

theorem queue_of {l : List Part} {s t : State} (h : Touches l s t) (hl : l.contains .queues = false) (n : Nat) : t.queue n = s.queue n := by
  have := h.keeps .queues hl
  simp only [Part.same] at this
  simp [State.queue, this]

theorem queue_set (s : State) (d : Nat) (x : Queue) (i : Nat) : (s.setQueue d x).queue i = if i = d then x else s.queue i := by
  unfold State.queue State.setQueue
  dsimp only
  split_ifs with h
  · subst h; exact Tab.get_put ..
  · exact Tab.get_put_ne _ _ _ h

theorem push_queue (s : State) (d : Nat) (p : Packet) (i : Nat) : (s.pushPacket d p).queue i = if i = d then (s.queue d).push p else s.queue i :=
  queue_set s d _ i

theorem sqQueue_of {s t : State} (h : t.regs = s.regs) (n : Nat) : t.sqQueue n = s.sqQueue n := State.fld_congr h ..

theorem cqQueue_of {s t : State} (h : t.regs = s.regs) (n : Nat) : t.cqQueue n = s.cqQueue n := State.fld_congr h ..

theorem reg64_of {s t : State} (h : t.regs = s.regs) (a b : RegId) : t.reg64 a b = s.reg64 a b := by simp only [State.reg64, State.reg, h]

theorem get?_put {α : Type} (l : Tab α) (k : Nat) (v : α) : Tab.get? (Tab.put l k v) k = some v := by
  induction l with
  | nil => simp [Tab.put, Tab.get?]
  | cons p l ih => obtain ⟨j, u⟩ := p; simp only [Tab.put]; split_ifs <;> simp_all [Tab.get?]; omega

theorem stamp_ptp (s : State) (bs : List Byte) : ∃ b, (s.stamp bs).ptp = { s.ptp with tsDropped := b } := by
  have drop : ∀ a : State, a.ptp = s.ptp → ∃ b, ((if (a.bump .ptpTsDrop 1).ptp.tsDropped then a.bump .ptpTsDrop 1
      else ((a.bump .ptpTsDrop 1).setPtp { (a.bump .ptpTsDrop 1).ptp with tsDropped := true }).raise .tsLost 0 0 (up8 a.now) []).ptp) = { s.ptp with tsDropped := b } := by
    intro a h
    have hb : (a.bump .ptpTsDrop 1).ptp = s.ptp := (ptp_of (State.bump_touches ..) rfl).trans h
    split_ifs
    · exact ⟨s.ptp.tsDropped, hb⟩
    · rw [ptp_of (State.raise_touches ..) rfl]
      refine ⟨true, ?_⟩
      show { (a.bump .ptpTsDrop 1).ptp with tsDropped := true } = _
      rw [hb]
  unfold State.stamp
  dsimp only
  split
  · exact drop _ rfl
  · split
    · exact drop _ (ptp_of (State.dropPacket_touches ..) rfl)
    · have hp : (s.pushPacket (s.fld .ptpTsq 14 0) { bytes := bs, first := s.now, vis := some s.now }).ptp = s.ptp := ptp_of (State.pushPacket_touches ..) rfl
      refine ⟨false, ?_⟩
      show { (s.pushPacket (s.fld .ptpTsq 14 0) { bytes := bs, first := s.now, vis := some s.now }).ptp with tsDropped := false } = _
      rw [hp]

theorem sendFrameNow_ptp (s : State) (f : Frame) (l : Bool) : ∃ b, (s.sendFrameNow f l).ptp = { s.ptp with
    sent := { portB := f.portB, at' := s.now, late := l, bytes := f.bytes } :: s.ptp.sent, tsDropped := b } := by
  unfold State.sendFrameNow
  dsimp only
  rw [ptp_of (State.drained_touches ..) rfl, ptp_of (State.complete_touches ..) rfl]
  split_ifs
  · obtain ⟨b, e⟩ := stamp_ptp (s.setPtp { s.ptp with sent := { portB := f.portB, at' := s.now, late := l, bytes := f.bytes } :: s.ptp.sent }) (tsEntry f.id s.now l f.portB)
    exact ⟨b, e⟩
  · exact ⟨s.ptp.tsDropped, rfl⟩

end Sys2Proof
end

