-- ==== Sys2Proof/Laws/Descs.lean ====
section
/-! SUPPORT. The start of a descriptor, and what an event leaves of a queue (chapters 11 and 12). -/

namespace Sys2Proof

open Sys2Proof.Machine

/-- A command that acts on the state in which what is due has been done answers what its effect on that state is. -/
theorem exec_up {c : Instr} {s a u : State} {t : BitVec 64} {f : State → State} (h0 : a = s.upTo t) (e : f a = u)
    (h : exec c s = .next (f (s.upTo t))) : exec c s = .next u := by
  subst h0
  rw [h, e]

theorem startDesc_starts (s : State) (n op : Nat) (d : List Byte) (sel : Nat → Bool) (wait : State → List Byte → Bool) (run : State → List Byte → Ran)
    (h : startsNext s n op d = true) (hs : sel op = true) (hw : wait s d = false) :
    s.startDesc n sel wait run = (match run (taken s n) d with | .done s2 e => s2.finish n d e | .goesOn s2 => s2) := by
  unfold startsNext at h
  simp only [Bool.and_eq_true] at h
  obtain ⟨⟨⟨⟨⟨⟨h1, h2⟩, h3⟩, h4⟩, h5⟩, h6⟩, h7⟩ := h
  have h3' : dOp d = op := by simpa using h3
  have h2' : ∃ p ps, (s.queue (s.sqQueue n)).pkts = p :: ps ∧ p.bytes = d ∧ s.hurt (s.sqQueue n) p = none := by
    show ∃ p ps, (s.queue (s.sqQueue n)).pkts = p :: ps ∧ p.bytes = d ∧ s.hurt (s.sqQueue n) p = none
    cases hp : (s.queue (s.sqQueue n)).pkts with
    | nil => rw [hp] at h2; simp at h2
    | cons p ps =>
      rw [hp] at h2
      simp only [List.head?_cons, Option.any_some, Bool.and_eq_true, beq_iff_eq, Option.isNone_iff_eq_none] at h2
      exact ⟨p, ps, rfl, h2.1, h2.2⟩
  obtain ⟨p, ps, e1, e2, e3⟩ := h2'
  have h1' : ¬ (s.ring n).open' = false := by show ¬ (s.ring n).open' = false; rw [h1]; decide
  have hf : ¬ (sel (dOp d) = false ∨ (dFence d = true ∧ s.running n ≠ 0)) := by
    rw [h3', hs]
    show ¬ (_ ∨ (dFence d = true ∧ s.running n ≠ 0))
    simp only [Bool.or_eq_true, Bool.not_eq_true', beq_iff_eq] at h4
    rintro (k | ⟨k1, k2⟩)
    · cases k
    · rcases h4 with h4 | h4
      · rw [h4] at k1; cases k1
      · exact k2 h4
  unfold State.startDesc
  dsimp only
  rw [if_neg h1']
  split
  · rename_i e; rw [e1] at e; cases e
  · rename_i q qs e
    have pq : p = q ∧ ps = qs := by rw [e1] at e; exact ⟨(List.cons.inj e).1, (List.cons.inj e).2⟩
    obtain ⟨rfl, rfl⟩ := pq
    rw [e2, if_neg hf, e3]
    dsimp only
    have tk : s.setQueue (s.sqQueue n) { s.queue (s.sqQueue n) with pkts := ps } = taken s n := by
      unfold taken
      rw [e1]; rfl
    rw [tk]
    have ab : (taken s n).descAbsent d = false := by
      have : (taken s n).descAbsent d = s.descAbsent d := rfl
      rw [this]; simpa using h7
    rw [h5, if_neg (by decide), if_neg (by simpa using h6), ab, if_neg (by decide), hw, if_neg (by decide)]
    all_goals cases run (taken s n) d <;> rfl

theorem finish_queue (s : State) (n : Nat) (d : List Byte) (e : Entry) (h : e.status ≠ 7) (ho : (s.ring n).open' = true) (hn : n < 64) :
    (s.finish n d e).queue (s.cqQueue n) = (s.queue (s.cqQueue n)).push { bytes := e.bytes n (leAt d 0 2) s.now (decide (((s.ring n).cqTail + (s.queue (s.cqQueue n)).pkts.length) / s.ringSize n % 2 = 0)), first := s.now, vis := some s.now } := by
  unfold State.finish
  rw [queue_of (State.drained_touches ..) rfl]
  unfold State.complete
  dsimp only
  have e0 : (if e.status = 7 ∧ getF (s.flagWord .hifFlags) 2 2 = 0 then s.raise .hifDmaerr 0 0 (up8 s.now) [] else s) = s := if_neg (fun c => h c.1)
  rw [e0, if_neg (by rw [ho]; simp; omega), push_queue, if_pos rfl]

/-- A queue but for its packets. -/
def qCore (q : Queue) : Queue := { q with pkts := [], skip := 0 }

theorem qCore_push (q : Queue) (p : Packet) : qCore (q.push p) = qCore q := by unfold Queue.push; split_ifs <;> rfl

theorem storeEvent_queue (s : State) (c sr t : Nat) (as : List Word) (m : Nat) : qCore ((s.storeEvent c sr t as).queue m) = qCore (s.queue m) := by
  unfold State.storeEvent
  dsimp only
  split_ifs
  · rw [queue_set]
    split_ifs with h
    · subst h
      show qCore (State.queue _ _) = _
      rw [push_queue, if_pos rfl, qCore_push]; rfl
    · rw [push_queue, if_neg h]; rfl
  · rfl
  · rfl

theorem formEvent_queue (s : State) (c sr t : Nat) (as : List Word) (m : Nat) : qCore ((s.formEvent c sr t as).queue m) = qCore (s.queue m) := by
  unfold State.formEvent
  dsimp only
  split_ifs
  · rw [storeEvent_queue]; exact storeEvent_queue ..
  · exact storeEvent_queue ..

/-- An event leaves every queue as it was but for records stored in the event queue (R427). -/
theorem raise_qCore (s : State) (e : Ev) (i sr t : Nat) (as : List Word) (m : Nat) : qCore ((s.raise e i sr t as).queue m) = qCore (s.queue m) := by
  unfold State.raise
  dsimp only
  have h : ∀ a : State, a.queues = s.queues → qCore ((a.formEvent e.code sr t as).queue m) = qCore (s.queue m) := by
    intro a ha
    rw [formEvent_queue]
    simp [State.queue, ha]
  cases e.flag i with
  | none =>
    dsimp only
    split_ifs
    · rw [formEvent_queue]; exact h s rfl
    · exact h s rfl
  | some rb =>
    dsimp only
    split_ifs
    · rw [formEvent_queue]; exact h _ rfl
    · exact h _ rfl

theorem reads_len (m : Mem) (a k : Nat) : (Mem.reads m a k).length = k := by
  induction k generalizing a with
  | zero => rfl
  | succ k ih => simp [Mem.reads, ih]

end Sys2Proof
end

