-- ==== Sys2Proof/Laws/Memory.lean ====
section
/-! SUPPORT. The canonical form of the memories: each operation that writes a memory keeps it, and an operation that touches
none keeps it. -/

namespace Sys2Proof.Machine

open Sys2Proof

/-- If the memories of r are canonical, those of s are. -/
structure MemKept (r s : State) : Prop where
  keeps : memOk r = true → memOk s = true

theorem MemKept.refl (s : State) : MemKept s s := ⟨fun h => h⟩

theorem MemKept.trans {r s t : State} (h : MemKept r s) (g : MemKept s t) : MemKept r t := ⟨fun k => g.keeps (h.keeps k)⟩

theorem MemKept.ite {r a b : State} {c : Prop} [Decidable c] (ha : MemKept r a) (hb : MemKept r b) :
    MemKept r (if c then a else b) := by split <;> assumption

/-- The same memories are as canonical as they were. -/
theorem MemKept.same {r s : State} (h1 : s.hbm = r.hbm) (h2 : s.seqSram = r.seqSram) (h0 : s.ucode = r.ucode)
    (h3 : s.envSram = r.envSram) (h4 : s.kernel = r.kernel) (h5 : s.envTab = r.envTab) (h6 : s.hostMem = r.hostMem) :
    MemKept r s := by
  refine ⟨fun h => ?_⟩
  unfold memOk at h ⊢
  rw [h1, h2, h0, h3, h4, h5, h6]
  exact h

/-- What touches no memory keeps the form. -/
theorem MemKept.step {l : List Part} {r s t : State} (h : Touches l s t)
    (hl : ([.hbm, .seqSram, .ucode, .envSram, .kernel, .envTab, .hostMem].all (fun p => !l.contains p)) = true) (hr : MemKept r s) :
    MemKept r t := by
  have k : ∀ p ∈ ([.hbm, .seqSram, .ucode, .envSram, .kernel, .envTab, .hostMem] : List Part), p.same s t := fun p hp =>
    h.keeps p (by have := List.all_eq_true.mp hl p hp; simpa using this)
  exact hr.trans (.same (k .hbm (by simp)) (k .seqSram (by simp)) (k .ucode (by simp)) (k .envSram (by simp)) (k .kernel (by simp))
    (k .envTab (by simp)) (k .hostMem (by simp)))

theorem memOk_iff (s : State) : memOk s = true ↔ Mem.wf s.hbm = true ∧ Mem.wf s.seqSram = true ∧ Mem.wf s.ucode = true ∧
    Mem.wf s.envSram = true ∧ Mem.wf s.kernel = true ∧ Mem.wf s.envTab = true ∧ Mem.wf s.hostMem = true := by
  simp [memOk, and_assoc]

/-- Memories that are canonical wherever those of r are. -/
theorem MemKept.of {r s : State} (h1 : Mem.wf r.hbm = true → Mem.wf s.hbm = true)
    (h2 : Mem.wf r.seqSram = true → Mem.wf s.seqSram = true) (h3 : Mem.wf r.ucode = true → Mem.wf s.ucode = true)
    (h4 : Mem.wf r.envSram = true → Mem.wf s.envSram = true) (h5 : Mem.wf r.kernel = true → Mem.wf s.kernel = true)
    (h6 : Mem.wf r.envTab = true → Mem.wf s.envTab = true) (h7 : Mem.wf r.hostMem = true → Mem.wf s.hostMem = true) :
    MemKept r s := by
  refine ⟨fun h => ?_⟩
  rw [memOk_iff] at h ⊢
  exact ⟨h1 h.1, h2 h.2.1, h3 h.2.2.1, h4 h.2.2.2.1, h5 h.2.2.2.2.1, h6 h.2.2.2.2.2.1, h7 h.2.2.2.2.2.2⟩

theorem MemKept.startDesc {r s : State} {n : Nat} {sel : Nat → Bool} {wait : State → List Byte → Bool}
    {run : State → List Byte → Ran} (hf : ∀ a d, MemKept r a → MemKept r (ranState (run a d))) (h : MemKept r s) :
    MemKept r (s.startDesc n sel wait run) := by
  unfold State.startDesc
  dsimp only
  have hfin : ∀ a d e, MemKept r a → MemKept r (State.finish a n d e) := fun a d e ha =>
    .step (State.finish_touches ..) rfl ha
  refine .ite h ?_
  split
  · exact h
  · refine .ite h ?_
    split
    · exact .step (State.unreadable_touches ..) rfl h
    · rename_i p ps _ _ _
      have h1 : ∀ q, MemKept r (s.setQueue (s.sqQueue n) q) := fun q => .step (State.setQueue_touches ..) rfl h
      refine .ite (hfin _ _ _ (h1 _)) (.ite (hfin _ _ _ (h1 _)) (.ite (hfin _ _ _ (h1 _)) (.ite h ?_)))
      have h2 := hf _ p.bytes (h1 ({ s.queue (s.sqQueue n) with pkts := ps }))
      split
      · rename_i he
        rw [he] at h2
        exact hfin _ _ _ h2
      · rename_i he
        rw [he] at h2
        exact h2

-- host buffers and SRAM loads

theorem State.toHost_mem (s : State) (d bs : List Byte) (err m : Option Nat) : MemKept s (s.toHost d bs err m).1 :=
  .of id id id id id id (Mem.wf_writes _ _)

theorem State.sramOut_mem (s : State) (d bs : List Byte) (err : Option Nat) (m : SramId) (lo : Nat) :
    MemKept s (s.sramOut d bs err m lo).1 := by
  unfold State.sramOut
  split
  · exact State.toHost_mem ..
  · dsimp only
    split_ifs
    · exact State.toHost_mem ..
    · exact (MemKept.step (State.sramUe_touches ..) rfl (.refl s)).trans (State.toHost_mem ..)

theorem State.seqLoad_mem (s : State) (d : List Byte) (err : Option Nat) : MemKept s (ranState (s.seqLoad d err)) := by
  unfold State.seqLoad
  dsimp only
  split_ifs
  · exact State.sramOut_mem ..
  · exact .step (State.cure_touches ..) rfl (.of id (Mem.wf_writes _ _) id id id id id)

theorem State.envLoad_mem (s : State) (d : List Byte) (err : Option Nat) : MemKept s (ranState (s.envLoad d err)) := by
  unfold State.envLoad
  dsimp only
  split_ifs
  · exact State.sramOut_mem ..
  · have h : MemKept s (s.freezeEnv (dStrand d)) := .step (State.freezeEnv_touches ..) rfl (.refl s)
    exact .step (State.cure_touches ..) rfl (h.trans (.of id id id (Mem.wf_writes _ _) id id id))

theorem State.loadEntries_mem (k : Nat) (m : Nat) : ∀ (s : State) (e : Nat) (bs : List Byte), MemKept s (s.loadEntries k e m bs).1 := by
  induction m with
  | zero => exact fun s _ _ => .refl s
  | succ m ih =>
    intro s e bs
    unfold State.loadEntries
    split_ifs
    · refine MemKept.trans ?_ (ih _ _ _)
      exact .step (State.cure_touches ..) rfl (.of id id id id id (Mem.wf_writes _ _) id)
    · exact ih _ _ _

theorem State.envTable_mem (s : State) (d : List Byte) (err : Option Nat) : MemKept s (ranState (s.envTable d err)) := by
  unfold State.envTable
  dsimp only
  split_ifs
  · exact State.sramOut_mem ..
  · split <;> exact State.loadEntries_mem ..

theorem State.kernelLoad_mem (s : State) (d : List Byte) (err : Option Nat) : MemKept s (ranState (s.kernelLoad d err)) := by
  unfold State.kernelLoad
  dsimp only
  split_ifs
  · exact State.sramOut_mem ..
  · have h : MemKept s (s.freezeKernel (dStrand d) (bits (dTarget d) 9 5)) := .step (State.freezeKernel_touches ..) rfl (.refl s)
    exact .step (State.cure_touches ..) rfl (h.trans (.of id id id id (Mem.wf_writes _ _) id id))

theorem State.truthTable_mem (s : State) (d : List Byte) (err : Option Nat) : MemKept s (ranState (s.truthTable d err)) := by
  unfold State.truthTable
  dsimp only
  split_ifs
  · exact State.toHost_mem ..
  · exact .refl s
  · exact .step (State.setFld_touches ..) rfl (.same rfl rfl rfl rfl rfl rfl rfl)
  · exact .step (State.setFld_touches ..) rfl (.same rfl rfl rfl rfl rfl rfl rfl)

theorem State.hbmXfer_mem (s : State) (d : List Byte) (err : Option Nat) : MemKept s (ranState (s.hbmXfer d err)) := by
  unfold State.hbmXfer
  dsimp only
  split_ifs
  · exact .refl s
  · split
    · exact State.toHost_mem ..
    · split_ifs
      · exact State.toHost_mem ..
      · exact (MemKept.step (State.memUe_touches ..) rfl (.refl s)).trans (State.toHost_mem ..)
  · exact .of (Mem.wf_writes _ _) id id id id id id

theorem State.qRead_mem (s : State) (d : List Byte) (err : Option Nat) : MemKept s (ranState (s.qRead d err)) := by
  unfold State.qRead
  dsimp only
  split_ifs
  · exact .refl s
  · refine .step (State.setQueue_touches ..) rfl (MemKept.trans ?_ (State.toHost_mem ..))
    split
    · split_ifs
      · exact .refl s
      · exact .step (State.memUe_touches ..) rfl (.refl s)
    · exact .refl s

theorem State.writeEntry_mem (s : State) (n : Nat) : MemKept s (s.writeEntry n) := by
  unfold State.writeEntry
  dsimp only
  split_ifs
  · exact .refl s
  · split
    · exact .refl s
    · split
      · exact .step (State.unreadable_touches ..) rfl (.refl s)
      · refine .step (State.drained_touches ..) rfl (.step (State.setRing_touches ..) rfl ?_)
        exact .of id id id id id id (Mem.wf_writes _ _)

theorem State.headCopy_mem (s : State) (k e : Nat) : MemKept s (s.headCopy k e) := by
  unfold State.headCopy
  dsimp only
  split_ifs
  · exact .refl s
  · have h : MemKept s (s.freezeEnv k) := .step (State.freezeEnv_touches ..) rfl (.refl s)
    refine ⟨fun hs => ?_⟩
    have h1 := (memOk_iff _).mp hs
    have h2 := (memOk_iff _).mp (h.keeps hs)
    exact (memOk_iff _).mpr ⟨h2.1, h2.2.1, h2.2.2.1, Mem.wf_writes _ _ h1.2.2.2.1, h2.2.2.2.2.1, Mem.wf_write _ _ h1.2.2.2.2.2.1, h2.2.2.2.2.2.2⟩

-- the self-test, resets and losses of power

theorem State.reinit_mem (s : State) (x : MemTest) : MemKept s (s.reinit x) := by
  unfold State.reinit
  dsimp only
  split_ifs
  · exact .of (Mem.wf_zero _ _) id id id id id id
  · exact .of id (Mem.wf_zero _ _) id id id id id
  · exact .of id id id (Mem.wf_zero _ _) id id id
  · exact .of id id id id (Mem.wf_zero _ _) id id
  · exact .step (State.setStrand_touches ..) rfl (.refl s)
  · exact .refl s

theorem State.testEnd_mem (s : State) (fails first symbol : Nat) : MemKept s (s.testEnd fails first symbol) := by
  unfold State.testEnd
  split
  · exact .refl s
  · dsimp only
    rename_i x _
    have h : MemKept s ((s.testOutcome x fails first symbol).reinit x) :=
      (MemKept.step (State.testOutcome_touches ..) rfl (.refl s)).trans (State.reinit_mem ..)
    exact .ite (.step (State.beginTrans_touches ..) rfl (.step (State.setMode_touches ..) rfl h)) h

theorem State.powerDown_mem (s : State) : MemKept s s.powerDown := .of (fun _ => rfl) (fun _ => rfl) (fun _ => rfl) (fun _ => rfl) (fun _ => rfl) (fun _ => rfl) id

theorem State.shedMain_mem (s : State) : MemKept s s.shedMain := .of (fun _ => rfl) (fun _ => rfl) (fun _ => rfl) (fun _ => rfl) (fun _ => rfl) (fun _ => rfl) id

theorem State.pwrFail_mem (s : State) : MemKept s s.pwrFail := by
  unfold State.pwrFail
  dsimp only
  refine .ite (.refl s) (MemKept.trans ?_ (State.shedMain_mem _))
  refine .ite (.step (State.tripJournal_touches ..) rfl (.same rfl rfl rfl rfl rfl rfl rfl)) (.step (State.trip_touches ..) rfl (.refl s))

theorem State.losePlies_mem (s : State) : MemKept s s.losePlies :=
  .ite (.of id (fun _ => rfl) (fun _ => rfl) (fun _ => rfl) (fun _ => rfl) (fun _ => rfl) id) (.refl s)

theorem State.railFault_mem (s : State) (n : Nat) : MemKept s (s.railFault n) := by
  unfold State.railFault
  refine .ite (.refl s) (.ite (State.pwrFail_mem s) ?_)
  dsimp only
  have h1 : ∀ (y : State) i j b, MemKept s y → MemKept s (y.trip i j b) := fun y i j b h => .step (State.trip_touches ..) rfl h
  have h2 : ∀ (y : State) k, MemKept s y → MemKept s (y.bootFail k) := fun y k h => .step (State.bootFail_touches ..) rfl h
  have h3 : ∀ (y : State) a b c e, MemKept s y → MemKept s (y.raise .railFault a b c e) := fun y a b c e h => .step (State.raise_touches ..) rfl h
  generalize hz : State.raise _ .railFault _ _ _ _ = z
  have hz : MemKept s z := by rw [← hz]; exact h3 _ _ _ _ _ (.same rfl rfl rfl rfl rfl rfl rfl)
  generalize hy : (if (s.mode.mode == .boot) = true then State.bootFail _ _ else _) = y
  have hy : MemKept s y := by rw [← hy]; exact .ite (h2 _ _ (h1 _ _ _ _ hz)) (h1 _ _ _ _ hz)
  have hm : ∀ x, MemKept s (y.setMode x) := fun x => .step (State.setMode_touches y x) rfl hy
  exact .ite hy (.ite (hy.trans (State.shedMain_mem _)) (.ite hy (.ite ((hm _).trans (State.losePlies_mem _)) (hm _))))

theorem State.mainsRestored_mem (s : State) : MemKept s s.mainsRestored := .ite (State.powerDown_mem s) (.refl s)

theorem State.holdUpRunsOut_mem (s : State) : MemKept s s.holdUpRunsOut := .ite (State.powerDown_mem s) (.refl s)

theorem State.fullReset_mem (s : State) : MemKept s s.fullReset := .of (fun _ => rfl) (fun _ => rfl) (fun _ => rfl) (fun _ => rfl) (fun _ => rfl) (fun _ => rfl) id

theorem State.enterBoot_mem (s : State) : MemKept s s.enterBoot := by
  unfold State.enterBoot
  dsimp only
  refine .step (State.selectRef_touches ..) rfl (.step (State.setReg_touches ..) rfl (.step (State.resetReq_touches ..) rfl
    (.step (State.setMode_touches ..) rfl (.step (State.enterMode_touches ..) rfl ((State.fullReset_mem s).trans (.same rfl rfl rfl rfl rfl rfl rfl))))))

theorem State.enterDormant_mem (s : State) : MemKept s s.enterDormant := by
  unfold State.enterDormant
  dsimp only
  have h : MemKept s (s.enterMode .dormant s.now) := .step (State.enterMode_touches ..) rfl (.refl s)
  refine .step (State.carryPend_touches ..) rfl (h.trans ?_)
  exact .of (fun _ => rfl) (fun _ => rfl) (fun _ => rfl) (fun _ => rfl) (fun _ => rfl) (fun _ => rfl) id

theorem State.safeEntry_mem (s : State) (t : Nat) : MemKept s (s.safeEntry t) := by
  unfold State.safeEntry
  split
  · dsimp only
    refine .step (State.carryPend_touches ..) rfl (MemKept.trans ?_ (State.losePlies_mem _))
    refine .step (State.stopPlies_touches ..) rfl (.step (State.clearEnables_touches ..) rfl (.step (State.setMode_touches ..) rfl
      (.step (State.invalidateSlots_touches ..) rfl (.step (State.enterMode_touches ..) rfl (.step (State.leaveReady_touches ..) rfl
        (.step (State.toTime_touches ..) rfl (.refl s)))))))
  · exact .step (State.clockTo_touches ..) rfl (.refl s)

theorem State.transDone_mem (s : State) (t : Nat) : MemKept s (s.transDone t) := by
  have h : ∀ n, MemKept s (s.clockTo n) := fun n => .step (State.clockTo_touches ..) rfl (.refl s)
  have g : ∀ n, MemKept s (s.toTime n) := fun n => .step (State.toTime_touches ..) rfl (.refl s)
  unfold State.transDone
  split
  · exact h _
  · exact h _
  · exact .step (State.enterRun_touches ..) rfl (g _)
  · exact .step (State.enterReady_touches ..) rfl (.step (State.endCalibrate_touches ..) rfl (g _))
  · exact .step (State.enterQuiet_touches ..) rfl (g _)
  · exact .step (State.enterQuiet_touches ..) rfl (g _)
  · exact (g _).trans (State.enterDormant_mem _)
  · exact (g _).trans (State.enterBoot_mem _)
  · exact h _

end Sys2Proof.Machine
end

