-- ==== Sys2Proof/Laws/Bytes.lean ====
section
/-! SUPPORT. Which bytes a descriptor writes: what carrying one out does to the memories, byte by byte (R286, R289). -/

namespace Sys2Proof
open Sys2Proof.Machine

/-- Two states agree in every memory. -/
structure MemSame (s u : State) : Prop where
  hbm : u.hbm = s.hbm
  seqSram : u.seqSram = s.seqSram
  envSram : u.envSram = s.envSram
  kernel : u.kernel = s.kernel
  envTab : u.envTab = s.envTab
  hostMem : u.hostMem = s.hostMem

theorem KeptOut.refl (lo n : Nat) (m : Mem) : KeptOut lo n m m := fun _ _ => rfl

theorem KeptOut.writes {lo n a : Nat} {m : Mem} {bs : List Byte} (h : a = lo) (hl : bs.length ≤ n) : KeptOut lo n m (Mem.writes m a bs) := by
  subst h; exact fun x hx => Mem.read_writes_out m a bs (by omega)

theorem MemSame.refl (s : State) : MemSame s s := ⟨rfl, rfl, rfl, rfl, rfl, rfl⟩

theorem MemSame.trans {s u v : State} (h : MemSame s u) (g : MemSame u v) : MemSame s v :=
  ⟨g.1.trans h.1, g.2.trans h.2, g.3.trans h.3, g.4.trans h.4, g.5.trans h.5, g.6.trans h.6⟩

theorem MemSame.step {l : List Part} {s t : State} (h : Touches l s t)
    (hl : ([.hbm, .seqSram, .envSram, .kernel, .envTab, .hostMem].all (fun p => !l.contains p)) = true) : MemSame s t := by
  have k : ∀ p ∈ ([.hbm, .seqSram, .envSram, .kernel, .envTab, .hostMem] : List Part), p.same s t := fun p hp =>
    h.keeps p (by have := List.all_eq_true.mp hl p hp; simpa using this)
  exact ⟨k .hbm (by simp), k .seqSram (by simp), k .envSram (by simp), k .kernel (by simp), k .envTab (by simp), k .hostMem (by simp)⟩

theorem startDesc_mem {s a : State} {n : Nat} {d : List Byte} {sel : Nat → Bool} {wait : State → List Byte → Bool} {run : State → List Byte → Ran}
    (hd : (a.queue (a.sqQueue n)).pkts.head?.map Packet.bytes = some d) (h : MemSame s a) :
    MemSame s (a.startDesc n sel wait run) ∨ ∃ b, MemSame s b ∧ MemSame (ranState (run b d)) (a.startDesc n sel wait run) := by
  unfold State.startDesc
  dsimp only
  have hfin : ∀ b d e, MemSame b (State.finish b n d e) := fun b d e => .step (State.finish_touches ..) rfl
  split
  · exact .inl h
  split
  · exact .inl h
  rename_i p ps e
  rw [e] at hd
  obtain rfl : p.bytes = d := by simpa using hd
  split
  · exact .inl h
  split
  · exact .inl (h.trans (.step (State.unreadable_touches ..) rfl))
  have h1 : ∀ q, MemSame s (a.setQueue (a.sqQueue n) q) := fun q => h.trans (.step (State.setQueue_touches ..) rfl)
  split
  · exact .inl ((h1 _).trans (hfin ..))
  split
  · exact .inl ((h1 _).trans (hfin ..))
  split
  · exact .inl ((h1 _).trans (hfin ..))
  split
  · exact .inl h
  refine .inr ⟨_, h1 { a.queue (a.sqQueue n) with pkts := ps }, ?_⟩
  split
  · rename_i he; rw [he]; exact hfin ..
  · rename_i he; rw [he]; exact .refl _

/-- What a host buffer receives lies in it, and no other memory changes. -/
structure HostOnly (lo n : Nat) (s u : State) : Prop where
  hbm : u.hbm = s.hbm
  seqSram : u.seqSram = s.seqSram
  envSram : u.envSram = s.envSram
  kernel : u.kernel = s.kernel
  envTab : u.envTab = s.envTab
  host : KeptOut lo n s.hostMem u.hostMem

theorem toHost_only (s : State) (d bs : List Byte) (err m : Option Nat) {n : Nat} (hl : bs.length ≤ n) : HostOnly (dHost d) n s (s.toHost d bs err m).1 :=
  ⟨rfl, rfl, rfl, rfl, rfl, .writes rfl (by rw [List.length_take]; omega)⟩

theorem HostOnly.after {lo n : Nat} {s a u : State} (h : MemSame s a) (g : HostOnly lo n a u) : HostOnly lo n s u :=
  ⟨g.1.trans h.1, g.2.trans h.2, g.3.trans h.3, g.4.trans h.4, g.5.trans h.5, h.6 ▸ g.6⟩

theorem sramOut_only (s : State) (d bs : List Byte) (err : Option Nat) (m : SramId) (lo : Nat) {n : Nat} (hl : bs.length ≤ n) :
    HostOnly (dHost d) n s (s.sramOut d bs err m lo).1 := by
  unfold State.sramOut
  split
  · exact toHost_only _ _ _ _ _ hl
  · dsimp only
    split_ifs
    · exact toHost_only _ _ _ _ _ hl
    · exact .after (.step (State.sramUe_touches ..) rfl) (toHost_only _ _ _ _ _ hl)

theorem received_len (s : State) (d : List Byte) (err : Option Nat) : (s.received d err).length ≤ dLen d := by
  unfold State.received
  rw [reads_len]
  unfold failAt
  cases err with
  | none => exact le_refl _
  | some e => dsimp only; split_ifs with h
              · exact le_of_lt h
              · exact le_refl _

theorem units_len (s : State) (d : List Byte) (err : Option Nat) (k : Nat) : (s.units' d err k).length ≤ dLen d := by
  unfold State.units'
  dsimp only
  rw [List.length_take]
  exact le_trans (min_le_right _ _) (received_len ..)

theorem entryReads_len (m : Nat) (bs : List Byte) (h : 16 * m ≤ bs.length) : (entryReads m bs).length = 16 * m := by
  induction m generalizing bs with
  | zero => rfl
  | succ m ih =>
    unfold entryReads
    simp only [List.length_append, List.length_take, List.length_drop, List.length_singleton]
    rw [ih _ (by rw [List.length_drop]; omega)]
    omega

theorem entryBytes_len (bs : List Byte) (h : 16 ≤ bs.length) : (entryBytes bs).length = 16 := by
  unfold entryBytes
  simp only [List.length_append, List.length_take, List.length_drop, List.length_singleton]
  omega

theorem loadEntries_out (k : Nat) (m : Nat) : ∀ (s : State) (e : Nat) (bs : List Byte), bs.length = 16 * m →
    KeptOut (65536 * k + 16 * e) (16 * m) s.envTab (s.loadEntries k e m bs).1.envTab ∧ (s.loadEntries k e m bs).1.hostMem = s.hostMem := by
  induction m with
  | zero => exact fun s e bs h => ⟨.refl _ _ _, rfl⟩
  | succ m ih =>
    intro s e bs h
    have hd : (bs.drop 16).length = 16 * m := by rw [List.length_drop]; omega
    unfold State.loadEntries
    split_ifs
    · dsimp only
      obtain ⟨i1, i2⟩ := ih (({ s with envTab := Mem.writes s.envTab (65536 * k + 16 * e) (entryBytes bs) }).cure (.envTable (Fin.ofNat 32 k)) (16 * e) 16) (e + 1) (bs.drop 16) hd
      refine ⟨fun a ha => ?_, i2⟩
      rw [i1 a (by omega)]
      exact Mem.read_writes_out _ _ _ (by rw [entryBytes_len _ (by omega)]; omega)
    · dsimp only
      obtain ⟨i1, i2⟩ := ih s (e + 1) (bs.drop 16) hd
      exact ⟨fun a ha => i1 a (by omega), i2⟩

theorem fitting_len (now : Nat) (ps : List Packet) : ∀ room, (((fitting now room ps).map Packet.given).flatten).length ≤ room := by
  induction ps with
  | nil => intro r; unfold fitting; simp
  | cons p ps ih =>
    intro r
    unfold fitting
    split_ifs with h1
    · have : p.given = [] := by unfold Packet.given; rw [if_pos h1]
      simpa [this] using ih r
    · split
      · simp
      · split_ifs with h2
        · have : p.given = p.bytes := by unfold Packet.given; rw [if_neg h1]
          have := ih (r - p.bytes.length)
          simp only [List.map_cons, List.flatten_cons, List.length_append, ‹p.given = _›]
          omega
        · simp

/-- The outcome of a descriptor at the head of a submission queue, by what carrying it out does. -/
theorem desc_out {s : State} {t : BitVec 64} {n : Nat} {d : List Byte} {sel : Nat → Bool} {wait : State → List Byte → Bool} {run : State → List Byte → Ran}
    {P : State → Prop} (hd : (s.queue (s.sqQueue n)).pkts.head?.map Packet.bytes = some d)
    (h0 : ∀ u, MemSame s u → P u) (hk : ∀ u v, MemSame u v → P u → P v) (hr : ∀ b, MemSame s b → P (ranState (run b d))) :
    P ((s.at t).startDesc n sel wait run) := by
  rcases startDesc_mem (s := s) (a := s.at t) (n := n) (d := d) (sel := sel) (wait := wait) (run := run) hd ⟨rfl, rfl, rfl, rfl, rfl, rfl⟩ with h | ⟨b, hb, h⟩
  · exact h0 _ h
  · exact hk _ _ h (hr b hb)

end Sys2Proof
end

