-- ==== Sys2Proof/Laws/Hushed.lean ====
section
/-! SUPPORT. What falls due changes no register but static levels and frames (R87, R88, R123, R124, R145). -/

namespace Sys2Proof.Machine

open Sys2Proof

/-- Every register but static levels and frames is in t as in s. -/
structure Hushed (s t : State) : Prop where
  keeps : ∀ r, hushed r → t.reg r = s.reg r

theorem Hushed.refl (s : State) : Hushed s s := ⟨fun _ _ => rfl⟩

theorem Hushed.trans {r s t : State} (h : Hushed s t) (g : Hushed r s) : Hushed r t :=
  ⟨fun x hx => (h.keeps x hx).trans (g.keeps x hx)⟩

theorem Hushed.of {l : List Part} {s t : State} (h : Touches l s t) (hl : l.contains .regs = false) : Hushed s t := ⟨fun r _ => by
  have := h.keeps .regs hl
  simp only [Part.same] at this
  simp only [State.reg, this]⟩

theorem Hushed.step {l : List Part} {r s t : State} (h : Touches l s t) (hl : l.contains .regs = false) (g : Hushed r s) : Hushed r t :=
  Hushed.trans (.of h hl) g

theorem Hushed.ite {r a b : State} {c : Prop} [Decidable c] (ha : Hushed r a) (hb : Hushed r b) : Hushed r (if c then a else b) := by
  split <;> assumption

theorem Hushed.foldl {r s : State} {β : Type} {f : State → β → State} (xs : List β)
    (hf : ∀ a x, Hushed a (f a x)) (h : Hushed r s) : Hushed r (xs.foldl f s) := by
  induction xs generalizing s with
  | nil => exact h
  | cons x xs ih => exact ih ((hf _ _).trans h)

theorem Hushed.static (s : State) (k c : Nat) (w : Word) : Hushed s (s.setReg (.outStatic k c) w) := ⟨fun r hr => by
  unfold State.reg State.setReg
  exact Tab.get_put_ne _ _ _ (fun e => hr.1 k c e.symm)⟩

theorem Hushed.frame (s : State) (k f : Nat) (w : Word) : Hushed s (s.setReg (.outFrame k f) w) := ⟨fun r hr => by
  unfold State.reg State.setReg
  exact Tab.get_put_ne _ _ _ (fun e => hr.2 k f e.symm)⟩

theorem State.setFrame_hushed (s : State) (cyc : Nat) (x : FrameLog) : Hushed s (s.setFrame cyc x) :=
  ⟨fun r hr => (Hushed.frame s x.strand x.frame (frameFold x.base x.ops)).keeps r hr⟩

theorem State.frameOp_hushed (s : State) (k f cyc core : Nat) (set : Bool) (w : Word) : Hushed s (s.frameOp k f cyc core set w) :=
  State.setFrame_hushed ..

theorem State.frameUndo_hushed (s : State) (k f cyc core : Nat) : Hushed s (s.frameUndo k f cyc core) := by
  unfold State.frameUndo
  dsimp only
  split
  · exact Hushed.refl _
  · exact State.setFrame_hushed ..

theorem State.settleFrames_hushed (s : State) (f : Nat → Bool) (t : Nat) : Hushed s (s.settleFrames f t) := by
  unfold State.settleFrames
  exact Hushed.ite (Hushed.refl _) (Hushed.foldl _ (fun a x => State.frameOp_hushed ..) ⟨fun _ _ => rfl⟩)

theorem State.frameAdd_hushed (s : State) (c w t : Nat) : Hushed s (s.frameAdd c w t) :=
  Hushed.step (State.notePhases_touches ..) rfl (State.frameOp_hushed ..)

theorem State.setStatic_hushed (s : State) (k c lvl t : Nat) : Hushed s (s.setStatic k c lvl t) :=
  Hushed.step (State.goLive_touches ..) rfl (Hushed.trans (Hushed.static _ k c _)
    (Hushed.step (State.setOut_touches ..) rfl (Hushed.of (State.settleChain_touches ..) rfl)))

theorem State.staticArrives_hushed (s : State) (k c lvl t : Nat) : Hushed s (s.staticArrives k c lvl t) :=
  Hushed.step (State.setOut_touches ..) rfl (Hushed.trans (State.setStatic_hushed ..) (Hushed.of (State.setOut_touches ..) rfl))

theorem State.undoOne_hushed (s : State) (u : Undo) : Hushed s (s.undoOne u) := by
  cases u
  · exact Hushed.static ..
  · exact State.frameUndo_hushed ..
  all_goals exact ⟨fun _ _ => rfl⟩

theorem State.withdraw_hushed (s : State) (c t : Nat) : Hushed s (s.withdraw c t) := by
  unfold State.withdraw
  exact Hushed.ite (Hushed.refl _) (Hushed.step (State.notePhases_touches ..) rfl
    (Hushed.foldl _ (fun a x => State.undoOne_hushed ..) (Hushed.refl _)))

theorem State.haltCore_hushed (s : State) (c t code : Nat) : Hushed s (s.haltCore c t code) :=
  Hushed.step (State.setCore_touches ..) rfl (Hushed.step (State.unbind_touches ..) rfl
    (Hushed.step (State.endAllShots_touches ..) rfl (State.withdraw_hushed ..)))

theorem State.faultEffects_hushed (s : State) (c t : Nat) : Hushed s (s.faultEffects c t) := by
  unfold State.faultEffects
  refine Hushed.step (State.flushCores_touches ..) rfl (Hushed.step (State.setCore_touches ..) rfl (Hushed.step (State.unbind_touches ..) rfl
    (Hushed.step (State.closeWins_touches ..) rfl (Hushed.foldl _ (fun a u => Hushed.of (State.goHeld_touches ..) rfl) ?_))))
  exact Hushed.step (State.rampUnits_touches ..) rfl (Hushed.step (State.endAllShots_touches ..) rfl
    (Hushed.step (State.endInvalid_touches ..) rfl (State.withdraw_hushed ..)))

theorem State.quietFault_hushed (s : State) (c t : Nat) : Hushed s (s.quietFault c t) :=
  Hushed.trans (State.faultEffects_hushed ..) (Hushed.of (State.setCore_touches ..) rfl)

theorem State.faultWith_hushed (s : State) (t c : Nat) : Hushed s (s.faultWith t c) := by
  unfold State.faultWith
  split
  · exact Hushed.refl _
  · exact Hushed.of (State.setCore_touches ..) rfl
  · exact State.quietFault_hushed ..

theorem State.faultCore_hushed (s : State) (c t : Nat) : Hushed s (s.faultCore c t) := by
  unfold State.faultCore
  exact Hushed.ite (Hushed.foldl _ (fun a d => State.faultWith_hushed ..) (State.faultEffects_hushed ..)) (State.faultEffects_hushed ..)

theorem State.coreFault_hushed (s : State) (e : Ev) (c t : Nat) : Hushed s (s.coreFault e c t) :=
  Hushed.trans (State.faultCore_hushed ..) (Hushed.of (State.raise_touches ..) rfl)

theorem State.stopNow_hushed (s : State) (c b : Nat) (fault : Bool) : Hushed s (s.stopNow c b fault) :=
  Hushed.ite (State.quietFault_hushed ..) (State.haltCore_hushed ..)

theorem State.framesDue_hushed (s : State) (t : Nat) : Hushed s (s.framesDue t) :=
  Hushed.foldl _ (fun _ _ => Hushed.of (State.notePhases_touches ..) rfl) (State.settleFrames_hushed ..)

theorem State.sampleDefer_hushed (s : State) (c : Nat) (g : SegEnd) : Hushed s (s.sampleDefer c g) := by
  have h : ∀ x, Hushed s (s.setCore c x) := fun x => Hushed.of (State.setCore_touches ..) rfl
  unfold State.sampleDefer
  split
  · exact Hushed.refl _
  · dsimp only
    split
    · exact h _
    · exact h _
    · refine Hushed.ite ?_ ((State.frameAdd_hushed ..).trans (h _))
      split
      · exact (State.coreFault_hushed ..).trans (h _)
      · exact Hushed.step (State.endShots_touches ..) rfl (Hushed.step (State.setCore_touches ..) rfl (h _))

theorem State.doDue_hushed (s : State) (t : Nat) (d : Due) : Hushed s (s.doDue t d) := by
  have h : Hushed s ((s.clockTo t).settleOuts t) := Hushed.step (State.settleOuts_touches ..) rfl ⟨fun _ _ => rfl⟩
  refine Hushed.trans ?_ h
  cases d
  · exact Hushed.of (State.judge_touches ..) rfl
  · exact Hushed.of (State.checkWins_touches ..) rfl
  · exact State.staticArrives_hushed ..
  · exact State.framesDue_hushed ..
  · exact Hushed.of (State.trigArrives_touches ..) rfl
  · exact State.sampleDefer_hushed ..
  · exact State.stopNow_hushed ..

/-- What falls due changes no register but static levels and frames. -/
theorem settled_hushed {s a : State} (h : Settled s a) : Hushed s a := by
  induction h with
  | refl => exact Hushed.refl _
  | due h hx ih => exact (State.doDue_hushed ..).trans ih
  | outs t h ih => exact Hushed.step (State.settleOuts_touches ..) rfl ih

theorem State.upTo_hushed (s : State) (t : BitVec 64) : Hushed s (s.upTo t) :=
  Hushed.trans (s := (s.due (max s.now t.toNat + 1)).settleOuts (max s.now t.toNat)) ⟨fun _ _ => rfl⟩
    (settled_hushed (Settled.outs _ (State.due_settled Settled.refl)))

theorem State.toTime_hushed (s : State) (t : Nat) : Hushed s (s.toTime t) :=
  Hushed.trans (s := (s.due t).settleOuts t) ⟨fun _ _ => rfl⟩ (settled_hushed (Settled.outs _ (State.due_settled Settled.refl)))

theorem State.readyFor_hushed (s : State) (c : Nat) : Hushed s (s.readyFor c) := settled_hushed (State.readyFor_settled .refl)

/-- A hub register is not among those that what falls due writes. -/
theorem hushed_hub {r : RegId} (h : r.off < 0x200000) : Sys2Proof.hushed r := by
  generalize ho : r.off = n at h
  constructor <;> (intro k c; rw [ho]; simp only [RegId.off, strandBase]; omega)

theorem Hushed.fld {s t : State} (h : Hushed s t) {r : RegId} (hr : r.off < 0x200000) (i j : Nat) : t.fld r i j = s.fld r i j := by
  simp only [State.fld, h.keeps r (hushed_hub hr)]

theorem Hushed.reg64 {s t : State} (h : Hushed s t) {l u : RegId} (hl : l.off < 0x200000) (hu : u.off < 0x200000) : t.reg64 l u = s.reg64 l u := by
  simp only [State.reg64, h.keeps l (hushed_hub hl), h.keeps u (hushed_hub hu)]

theorem hushed_out {k o : Nat} (ho : o < 22) : Sys2Proof.hushed (outReg k o) := by
  unfold outReg
  split_ifs <;> constructor <;> (intro i c; simp only [RegId.off, strandBase, ne_eq]; omega)

theorem hushed_input {k i : Nat} (hi : i < 2) : Sys2Proof.hushed (.acqInCtl k i) := by
  constructor <;> (intro j c; simp only [RegId.off, strandBase, ne_eq]; omega)

theorem hushed_tone {k u : Nat} (hu : u < 64) : Sys2Proof.hushed (.outToneCtl k u) := by
  constructor <;> (intro j c; simp only [RegId.off, strandBase, ne_eq]; omega)

/-- A strand has an enabled unit after what fell due if it had one before. -/
theorem Hushed.strandOn {s t : State} (h : Hushed s t) {k : Nat} (hk : k < 32) : t.strandOn k = s.strandOn k := by
  have q : ∀ r i j, Sys2Proof.hushed r → t.fld r i j = s.fld r i j := fun r i j hr => by simp only [State.fld, h.keeps r hr]
  have o : ∀ o ∈ List.range 22, t.outEnabled k o = s.outEnabled k o := by
    intro o ho
    have h := hushed_out (k := k) (o := o) (by simpa using ho)
    unfold outReg at h
    unfold State.outEnabled
    split_ifs at h ⊢ <;> rw [q _ _ _ h]
  unfold State.strandOn State.unitCount
  rw [List.filter_congr (fun x hx => o x hx),
    List.filter_congr (l := List.range 64) (fun u hu => by rw [q _ _ _ (hushed_tone (by simpa using hu))]),
    List.filter_congr (l := List.range 2) (p := fun i => decide (t.fld (.acqInCtl k i) 0 0 = 1))
      (fun i hi => by rw [q _ _ _ (hushed_input (by simpa using hi))]),
    List.filter_congr (l := List.range 2) (p := fun i => decide (t.fld (.monCtl (2 * k + i)) 0 0 = 1))
      (fun i hi => by rw [q _ _ _ (hushed_hub (by simp only [RegId.off]; simp at hi; omega))])]

end Sys2Proof.Machine
end

