-- ==== Sys2Proof/Laws/CalSteps.lean ====
section
/-! SUPPORT. Steps of the commands of one kind: calibration. -/

namespace Sys2Proof

open Sys2Proof.Machine

theorem conv_of {l : List Part} {s t : State} (h : Touches l s t) (hl : l.contains .convs = false) (n : Nat) : t.conv n = s.conv n := by
  have := h.keeps .convs hl
  simp only [Part.same] at this
  simp [State.conv, this]

theorem engine_of {l : List Part} {s t : State} (h : Touches l s t) (hl : l.contains .engines = false) (n : Nat) : t.engine n = s.engine n := by
  have := h.keeps .engines hl
  simp only [Part.same] at this
  simp [State.engine, this]

theorem conv_set (s : State) (d : Nat) (x : Conv) (i : Nat) : (s.setConv d x).conv i = if i = d then x else s.conv i := by
  unfold State.conv State.setConv
  dsimp only
  split_ifs with h
  · subst h; exact Tab.get_put ..
  · exact Tab.get_put_ne _ _ _ h

theorem engine_set (s : State) (d : Nat) (x : Engine) (i : Nat) : (s.setEngine d x).engine i = if i = d then x else s.engine i := by
  unfold State.engine State.setEngine
  dsimp only
  split_ifs with h
  · subst h; exact Tab.get_put ..
  · exact Tab.get_put_ne _ _ _ h

theorem makeDue_due (a : State) (x n : Nat) (h : (a.conv x).due = none) : ((a.makeDue x n).conv x).due = some n := by
  unfold State.makeDue
  dsimp only
  rw [if_neg (by rw [h]; decide), conv_set, if_pos rfl]

theorem calSteps_1 (s : State) (t : BitVec 64) (x : Fin 768) : ((s.conv x).due = none → (s.conv x).again = none →
    (Tab.get? (s.conv x).last (s.convRange x) = none →
      ∃ u, exec (.calDue t x) s = .next u ∧ (u.conv x).due = some (s.at t).now) ∧
    (∀ e, Tab.get? (s.conv x).last (s.convRange x) = some e → e + s.calInterval ≤ (s.at t).now →
      ∃ u, exec (.calDue t x) s = .next u ∧ (u.conv x).due = some (e + s.calInterval))) := by
  intro h1 h2
  have h1' : ((s.at t).conv x).due = none := h1
  have h2' : ((s.at t).conv x).again = none := h2
  have ri : (s.at t).convRange x = s.convRange x := rfl
  have ci : (s.at t).calInterval = s.calInterval := congrArg (· * sec) (rfl : (s.at t).fld .calInterval _ _ = s.fld .calInterval _ _)
  have cv : (s.at t).conv x = s.conv x := rfl
  refine ⟨fun h => ⟨_, rfl, ?_⟩, fun e h hl => ⟨_, rfl, ?_⟩⟩
  · unfold State.calDue
    dsimp only
    rw [if_neg (by rw [h1']; decide), h2']
    dsimp only
    rw [ri, cv, h]
    exact makeDue_due _ _ _ h1'
  · unfold State.calDue
    dsimp only
    rw [if_neg (by rw [h1']; decide), h2']
    dsimp only
    rw [ri, cv, h]
    dsimp only
    rw [ci, if_pos hl]
    exact makeDue_due _ _ _ h1'

theorem hushed_convRange {s a : State} (h : Hushed s a) (x : Fin 768) : a.convRange x = s.convRange x := by
  have fl : ∀ (r : RegId), hushed r → ∀ i j, a.fld r i j = s.fld r i j := fun r hr i j => by simp only [State.fld, h.keeps r hr]
  have hx := x.isLt
  unfold State.convRange
  cases e : convOut x with
  | some q =>
    unfold convOut at e
    dsimp only
    apply fl
    split_ifs at e <;> cases e <;> exact hushed_out (by omega)
  | none =>
    have : convStrand x = (x - 192) / 2 := by unfold convStrand; rw [e]
    unfold convOut at e
    dsimp only
    apply fl
    split_ifs at e
    rw [this]
    exact hushed_input (Nat.mod_lt _ (by decide))

/-- A step's record, and the place it takes in its engine. -/
theorem beginStep_conv (a : State) (x : Fin 768) (b : Nat) (k : StepKind) :
    ((a.beginStep x b k).conv x).step = some { start := b, stop := b + stepTicks x, kind := k, range := a.convRange x } ∧
    ((a.beginStep x b k).engine (convStrand x / 8)).cur = some x.val := by
  let K : State → Prop := fun z => (z.conv x).step = some { start := b, stop := b + stepTicks x, kind := k, range := a.convRange x } ∧
    (z.engine (convStrand x / 8)).cur = some x.val
  have M : ∀ (z z' : State) (l : List Part), Touches l z z' → l.contains .convs = false → l.contains .engines = false → K z → K z' := by
    intro z z' l h h1 h2 hz
    refine ⟨?_, ?_⟩
    · rw [conv_of h h1]; exact hz.1
    · rw [engine_of h h2]; exact hz.2
  show K (a.beginStep x b k)
  have r := hushed_convRange (State.toTime_hushed a b) x
  unfold State.beginStep
  dsimp only
  generalize a.toTime b = y at *
  have kz : K ((y.setConv x { y.conv x with step := some { start := b, stop := b + stepTicks x, kind := k, range := y.convRange x } }).setEngine (convStrand x / 8)
      { (y.setConv x { y.conv x with step := some { start := b, stop := b + stepTicks x, kind := k, range := y.convRange x } }).engine (convStrand x / 8) with cur := some x.val }) := by
    refine ⟨?_, ?_⟩
    · show (State.conv (State.setConv _ _ _) x).step = _
      rw [conv_set, if_pos rfl, r]
    · rw [engine_set, if_pos rfl]
  generalize State.setEngine _ _ _ = z at *
  have k4 : ∀ z4 : State, K z4 → K (if k = StepKind.gap then z4 else z4.markMet x b (b + stepTicks x)) := by
    intro z4 h
    split_ifs
    · exact h
    · exact M _ _ _ (State.markMet_touches ..) rfl rfl h
  apply k4
  cases convOut x with
  | none => exact kz
  | some q =>
    dsimp only
    split_ifs
    · exact M (State.settleChain z q.1 (q.2 - 6) b) _ [.outs] ⟨fun p hp => by cases p <;> first | rfl | simp at hp, fun k => k⟩ rfl rfl
        (M _ _ _ (State.settleChain_touches ..) rfl rfl kz)
    · exact kz

theorem calSteps_2 (s a : State) (t : BitVec 64) (h0 : a = s.upTo t) (x : Fin 768) : (∀ d, (a.conv x).due = some d → a.mayStep x = true →
    (a.findsPlace x (up8 a.now) = true → a.preceded x d (up8 a.now) = false →
      (∃ u k, exec (.calStepStart t x true) s = .next u ∧
        (u.conv x).step = some { start := up8 a.now, stop := up8 a.now + stepTicks x, kind := k, range := s.convRange x } ∧
        (k = .gap ↔ a.inGap x (up8 a.now) (stepTicks x) = true) ∧ (u.engine (convStrand x / 8)).cur = some x.val) ∧
      (∃ u, exec (.calStepStart t x false) s = .next u ∧ u.conv x = a.conv x ∧ (u.engine (convStrand x / 8)).refBad = true)) ∧
    (up8 (a.deadline x d) ≤ up8 a.now → (a.engine (convStrand x / 8)).refBad = false → a.preceded x d (up8 a.now) = false →
      ∃ u, exec (.calForced t x) s = .next u ∧ (u.conv x).step = some { start := up8 a.now, stop := up8 a.now + stepTicks x, kind := .forced, range := s.convRange x } ∧
        (u.engine (convStrand x / 8)).cur = some x.val)) := by
  intro d hd hm
  have r0 : a.convRange x = s.convRange x := by rw [h0]; exact hushed_convRange (State.upTo_hushed s t) x
  have X : ∀ b, exec (.calStepStart t x b) s = .next (a.stepStart x b) := fun b => by rw [h0]; rfl
  have Y : exec (.calForced t x) s = .next (a.forced x) := by rw [h0]; rfl
  rw [← r0]
  clear h0 r0
  have hm' : ¬ a.mayStep x = false := by rw [hm]; decide
  refine ⟨fun hf hp => ?_, fun h1 h2 h3 => ?_⟩
  · have E : ∀ b, a.stepStart x b = (
        let s1 := a.setEngine (convStrand x / 8) { a.engine (convStrand x / 8) with refBad := !b }
        if b = false then (if (a.engine (convStrand x / 8)).refBad then s1 else s1.raise .calRef 0 (convStrand x / 8) (up8 a.now) []) else
        s1.beginStep x (up8 a.now) (if a.inGap x (up8 a.now) (stepTicks x) then .gap else .quiet)) := by
      intro b
      unfold State.stepStart
      dsimp only
      rw [hd]
      dsimp only
      rw [if_neg (by rintro (c | c); exact hm' c; rw [hp] at c; cases c), if_neg (by rw [hf]; decide)]
    refine ⟨?_, ?_⟩
    · refine ⟨_, (if a.inGap x (up8 a.now) (stepTicks x) then .gap else .quiet), (X true).trans (congrArg Host.Outcome.next (E true)), ?_⟩
      dsimp only
      rw [if_neg (by decide)]
      obtain ⟨a1, a2⟩ := beginStep_conv (a.setEngine (convStrand x / 8) { a.engine (convStrand x / 8) with refBad := !true }) x (up8 a.now) (if a.inGap x (up8 a.now) (stepTicks x) then .gap else .quiet)
      refine ⟨a1, ?_, a2⟩
      split_ifs with c <;> simp [c]
    · refine ⟨_, (X false).trans (congrArg Host.Outcome.next (E false)), ?_⟩
      dsimp only
      rw [if_pos rfl]
      split_ifs
      · exact ⟨rfl, by rw [engine_set, if_pos rfl]; rfl⟩
      · rw [conv_of (State.raise_touches ..) rfl, engine_of (State.raise_touches ..) rfl, engine_set, if_pos rfl]
        exact ⟨rfl, rfl⟩
  · refine ⟨_, Y, ?_⟩
    unfold State.forced
    dsimp only
    rw [hd]
    dsimp only
    rw [if_neg (by rintro (c | c | c | c)
                   · exact hm' c
                   · omega
                   · rw [h2] at c; cases c
                   · rw [h3] at c; cases c), conv_of (State.raise_touches ..) rfl, engine_of (State.raise_touches ..) rfl]
    exact beginStep_conv a x (up8 a.now) .forced

theorem leave_conv (a : State) (x n : Nat) : (a.leaveStep x n).conv x = { a.conv x with step := none } := by
  unfold State.leaveStep
  dsimp only
  rw [conv_of (State.releaseArms_touches ..) rfl]
  have z : (State.setEngine (a.setConv x { a.conv x with step := none }) (convStrand x / 8) { (a.setConv x { a.conv x with step := none }).engine (convStrand x / 8) with cur := none }).conv x = { a.conv x with step := none } := by
    show (State.conv (State.setConv _ _ _) x) = _
    rw [conv_set, if_pos rfl]
  cases convOut x with
  | none => exact z
  | some q =>
    dsimp only
    split_ifs
    · rename_i hq
      show State.conv (State.settleChain _ _ _ n) x = _
      exact (conv_of (State.settleChain_touches ..) rfl x).trans z
    · exact z

theorem calSteps_3 (s : State) (x : Fin 768) : (∀ g, (s.conv x).step = some g → g.void = false →
    ∃ u, exec (.calStepEnd x) s = .next u ∧ (u.conv x).step = none ∧ (u.conv x).due = none ∧ (u.conv x).meas = some g ∧
      Tab.get? (u.conv x).last g.range = some g.stop ∧ (u.engine (convStrand x / 8)).meas = some x.val ∧ u.now = (s.toTime g.stop).now) := by
  intro g hg hv
  refine ⟨_, rfl, ?_⟩
  unfold State.stepEnd
  split
  · rename_i e; cases e.symm.trans hg
  · rename_i g' e
    have : g' = g := Option.some.inj (e.symm.trans hg)
    subst this
    dsimp only
    rw [if_neg (by rw [hv]; decide)]
    have lc := leave_conv (s.toTime g'.stop) x g'.stop
    have ln := now_of (State.leaveStep_touches (s.toTime g'.stop) x g'.stop) rfl
    generalize State.leaveStep _ _ _ = a at *
    refine ⟨?_, ?_, ?_, ?_, by rw [engine_set, if_pos rfl], ln⟩
    · show (State.conv (State.setConv _ _ _) x).step = _
      rw [conv_set, if_pos rfl, lc]
    · show (State.conv (State.setConv _ _ _) x).due = _
      rw [conv_set, if_pos rfl]
    · show (State.conv (State.setConv _ _ _) x).meas = _
      rw [conv_set, if_pos rfl]
    · show Tab.get? (State.conv (State.setConv _ _ _) x).last _ = _
      rw [conv_set, if_pos rfl]
      exact get?_put ..

/-- The end of a deferral moves a converter's forcing clock alone. -/
theorem endDeferral_conv (a : State) (p f : Nat) (n : Nat) : ∃ sl, (a.endDeferral p f).conv n = { a.conv n with slack := sl } := by
  unfold State.endDeferral
  dsimp only
  split_ifs with h
  · exact ⟨_, rfl⟩
  · rw [conv_of (State.raise_touches ..) rfl, conv_of (State.setReg_touches ..) rfl]
    unfold State.conv
    dsimp only
    generalize a.convs = l
    induction l with
    | nil => exact ⟨0, rfl⟩
    | cons e l ih =>
      obtain ⟨k, v⟩ := e
      by_cases hk : k = n
      · subst hk
        cases hd : v.due with
        | none => exact ⟨v.slack, by simp [Tab.get, hd]; rw [← hd]⟩
        | some d =>
          by_cases hp : convStrand k / 8 = p
          · exact ⟨_, by simp [Tab.get, hd, hp]; rfl⟩
          · exact ⟨v.slack, by simp [Tab.get, hd, hp]; rw [← hd]⟩
      · obtain ⟨sl, h⟩ := ih
        refine ⟨sl, ?_⟩
        have g1 : ∀ (w : Conv) (r : Tab Conv), Tab.get ((k, w) :: r) n {} = Tab.get r n {} := fun w r => if_neg hk
        rw [g1, List.map_cons]
        have g2 : ∀ (q : Nat × Conv) (r : Tab Conv), q.1 = k → Tab.get (q :: r) n {} = Tab.get r n {} := fun q r h => by obtain ⟨q1, q2⟩ := q; subst h; exact if_neg hk
        rw [g2]
        · exact h
        · dsimp only
          cases v.due with
          | none => rfl
          | some d => dsimp only; split_ifs <;> rfl

theorem freeze_inForce (v : Conv) (r n : Nat) : (v.freeze n).corrOf r = v.inForce r n := by
  unfold Conv.freeze Conv.inForce
  split
  · rename_i y _
    by_cases h : y.range = r
    · rw [if_pos h, ← h]; exact Tab.get_put ..
    · rw [if_neg h]; exact Tab.get_put_ne _ _ _ (fun c => h c.symm)
  · rfl

theorem freeze_rest (v : Conv) (n : Nat) : (v.freeze n).ramp = none ∧ (v.freeze n).outliers = v.outliers := by
  unfold Conv.freeze
  split
  · exact ⟨rfl, rfl⟩
  · rename_i h; exact ⟨h, rfl⟩

theorem putCorr_conv (a : State) (x r : Nat) (c : Corr) : ((a.putCorr x r c).conv x).corrOf r = c ∧
    ((a.putCorr x r c).conv x).pend = none ∧ ((a.putCorr x r c).conv x).ramp = none ∧
    ((a.putCorr x r c).conv x).outliers = (a.conv x).outliers := by
  unfold State.putCorr
  dsimp only
  rw [conv_set, if_pos rfl]
  exact ⟨Tab.get_put .., rfl, (freeze_rest _ _).1, (freeze_rest _ _).2⟩

theorem calSteps_5 (s a : State) (t : BitVec 64) (h0 : a = s.upTo t) (x : Fin 768) : (∀ (r : Nat) (c : Corr), (a.conv x).pend = some (r, c) → a.idleAt x (up8 a.now) = true →
    ∃ u, exec (.calApplyBoundary t x) s = .next u ∧ (u.conv x).corrOf r = c ∧ (u.conv x).pend = none) := by
  intro r c h hi
  refine ⟨a.applyBoundary x, by rw [h0]; rfl, ?_⟩
  unfold State.applyBoundary
  dsimp only
  rw [h]
  dsimp only
  rw [if_pos (by rw [hi]; rfl)]
  exact ⟨(putCorr_conv a x r c).1, (putCorr_conv a x r c).2.1⟩

theorem calSteps_6 (s : State) (x : Fin 768) : (∀ r, (s.conv x).ramp = some r →
    ∃ u, exec (.rampComplete x) s = .next u ∧ (u.conv x).corrOf r.range = r.new ∧ (u.conv x).ramp = none ∧
      u.now = (s.toTime (r.start + r.len)).now) := by
  intro r h
  refine ⟨_, rfl, ?_⟩
  unfold State.rampDone
  rw [h]
  dsimp only
  have p := putCorr_conv (s.toTime (r.start + r.len)) x r.range r.new
  exact ⟨p.1, p.2.2.1, now_of (State.putCorr_touches ..) rfl⟩

theorem calSteps_7 (s a : State) (t : BitVec 64) (h0 : a = s.upTo t) : (s.mode.mode = .calibrate → s.mode.trans = none → s.fgEnd ≤ a.now →
    ∃ u, exec (.fgCalDone t) s = .next u ∧ u.mode.trans = some (.ready, s.fgEnd + 10 * us)) := by
  intro h1 h2 h3
  refine ⟨a.fgDone, by rw [h0]; rfl, ?_⟩
  have e : a.fgEnd = s.fgEnd := by
    rw [h0]
    have f : ∀ i j, (s.upTo t).fld .calFgCtl i j = s.fld .calFgCtl i j := fun i j => (State.upTo_hushed s t).fld (by decide) i j
    simp only [State.fgEnd, State.fgPlies, State.fgList, State.engine, State.plyCount, f, State.upTo_mode, State.upTo_engines, State.upTo_half]
  have m : a.mode = s.mode := by rw [h0]; exact State.upTo_mode s t
  unfold State.fgDone
  rw [if_neg (by rw [e, m, h1, h2]; rintro (c | c | c); · exact c rfl
                 · cases c
                 · omega), e]
  rfl

theorem outlier_conv (a : State) (x : Nat) : ((a.outlier x).conv x).outliers = (a.conv x).outliers + 1 ∧ ((a.outlier x).conv x).corr = (a.conv x).corr ∧ ((a.outlier x).conv x).meas = (a.conv x).meas := by
  have key : ∀ z : State, z.conv x = { a.conv x with outliers := (a.conv x).outliers + 1, again := some (a.now + sec), failed := (a.conv x).failed || decide (3 ≤ (a.conv x).outliers + 1) } →
      (z.conv x).outliers = (a.conv x).outliers + 1 ∧ (z.conv x).corr = (a.conv x).corr ∧ (z.conv x).meas = (a.conv x).meas := by
    intro z h; rw [h]; exact ⟨rfl, rfl, rfl⟩
  apply key
  unfold State.outlier
  dsimp only
  have k2 : (State.raise (a.setConv x { a.conv x with outliers := (a.conv x).outliers + 1, again := some (a.now + sec), failed := (a.conv x).failed || decide (3 ≤ (a.conv x).outliers + 1) }) Ev.calOutlier 0 x (up8 a.now) []).conv x = { a.conv x with outliers := (a.conv x).outliers + 1, again := some (a.now + sec), failed := (a.conv x).failed || decide (3 ≤ (a.conv x).outliers + 1) } := by
    rw [conv_of (State.raise_touches ..) rfl, conv_set, if_pos rfl]
  split_ifs
  · rw [conv_of (State.raise_touches ..) rfl, k2]
  · exact k2

/-- What the converter is when its measurements have been taken. -/
theorem taken_conv (a : State) (x : Nat) (p : Nat) (e : Engine) (f : Nat) :
    ∃ sl, (((a.setConv x { a.conv x with meas := none }).setEngine p e).endDeferral p f).conv x = { a.conv x with meas := none, slack := sl } := by
  obtain ⟨sl, h⟩ := endDeferral_conv ((a.setConv x { a.conv x with meas := none }).setEngine p e) p f x
  refine ⟨sl, h.trans ?_⟩
  have : ((a.setConv x { a.conv x with meas := none }).setEngine p e).conv x = { a.conv x with meas := none } := by
    show (State.conv (State.setConv _ _ _) x) = _
    rw [conv_set, if_pos rfl]
  rw [this]

theorem setReg_fld_ne (a : State) (r q : RegId) (w : Word) (h : r.off ≠ q.off) (i j : Nat) : (a.setReg r w).fld q i j = a.fld q i j := by
  unfold State.fld State.reg State.setReg
  rw [Tab.get_put_ne _ _ _ (fun c => h c.symm)]

theorem endDeferral_fld (a : State) (p f x i j : Nat) : (a.endDeferral p f).fld (.calApply x) i j = a.fld (.calApply x) i j := by
  unfold State.endDeferral
  dsimp only
  split_ifs
  · rfl
  · rw [fld_of (State.raise_touches ..) rfl, setReg_fld_ne]
    · rfl
    · show (0x060014 : Nat) ≠ 0x061000 + 4 * x
      omega

theorem taken_rest (a : State) (x : Nat) (p : Nat) (e : Engine) (f : Nat) :
    (((a.setConv x { a.conv x with meas := none }).setEngine p e).endDeferral p f).now = a.now ∧
    (((a.setConv x { a.conv x with meas := none }).setEngine p e).endDeferral p f).mode = a.mode ∧
    ∀ i j, (((a.setConv x { a.conv x with meas := none }).setEngine p e).endDeferral p f).fld (.calApply x) i j = a.fld (.calApply x) i j := by
  have z1 : ((a.setConv x { a.conv x with meas := none }).setEngine p e).now = a.now := rfl
  have z2 : ((a.setConv x { a.conv x with meas := none }).setEngine p e).mode = a.mode := rfl
  have z3 : ∀ i j, ((a.setConv x { a.conv x with meas := none }).setEngine p e).fld (.calApply x) i j = a.fld (.calApply x) i j := fun i j => rfl
  generalize State.setEngine _ _ _ = z at *
  exact ⟨(now_of (State.endDeferral_touches ..) rfl).trans z1, (mode_of (State.endDeferral_touches z p f) rfl).trans z2,
    fun i j => (endDeferral_fld _ _ _ _ i j).trans (z3 i j)⟩

theorem calSteps_4 (s a : State) (t : BitVec 64) (h0 : a = s.upTo t) (x : Fin 768) : (∀ (g : CalStep) (v : Correction), s.mc.running = true → (s.conv x).meas = some g →
    (isOutlier x ((s.conv x).inForce g.range a.now) (formedCorr v) = true →
      ∃ u, exec (.calCorrection t x v) s = .next u ∧ (u.conv x).outliers = (s.conv x).outliers + 1 ∧ (u.conv x).corr = (s.conv x).corr ∧ (u.conv x).meas = none) ∧
    (isOutlier x ((s.conv x).inForce g.range a.now) (formedCorr v) = false →
      (s.mode.mode = .calibrate →
        ∃ u, exec (.calCorrection t x v) s = .next u ∧ (u.conv x).corrOf g.range = formedCorr v ∧ (u.conv x).outliers = 0) ∧
      (s.mode.mode ≠ .calibrate → s.fld (.calApply x) 16 16 = 0 →
        ∃ u, exec (.calCorrection t x v) s = .next u ∧ (u.conv x).outliers = 0 ∧
          (u.conv x).ramp = some ⟨g.range, g.stop, s.fld (.calApply x) 10 0 * us, (s.conv x).inForce g.range a.now, formedCorr v⟩))) := by
  intro g v hr hm
  have m0 : s.mode.mode = a.mode.mode := by rw [h0, State.upTo_mode]
  have v0 : s.conv x = a.conv x := by rw [h0]; simp [State.conv]
  have f0 : ∀ i j, s.fld (.calApply x) i j = a.fld (.calApply x) i j := fun i j => by
    rw [h0, (State.upTo_hushed s t).fld]
    show 0x061000 + 4 * x.val < 0x200000
    have := x.isLt
    omega
  have hr : a.mc.running = true := by rw [h0, State.upTo_mc]; exact hr
  have X : exec (.calCorrection t x v) s = .next (a.correction x (formedCorr v)) := by rw [h0]; rfl
  rw [m0]
  simp only [f0, v0] at *
  clear h0 m0 v0 f0
  have E : a.correction x (formedCorr v) = a.stepCorr x g (formedCorr v) := by
    unfold State.correction
    rw [hm]
    exact if_pos hr
  rw [E] at X
  have c2 := taken_conv a x (convStrand x / 8) { a.engine (convStrand x / 8) with meas := none } g.stop
  obtain ⟨n2, m2, f2⟩ := taken_rest a x (convStrand x / 8) { a.engine (convStrand x / 8) with meas := none } g.stop
  have S : a.stepCorr x g (formedCorr v) = (let s2 := ((a.setConv x { a.conv x with meas := none }).setEngine (convStrand x / 8) { a.engine (convStrand x / 8) with meas := none }).endDeferral (convStrand x / 8) g.stop
      if isOutlier x ((s2.conv x).inForce g.range s2.now) (formedCorr v) then s2.outlier x else
      if s2.mode.mode = .calibrate then (s2.setConv x { s2.conv x with outliers := 0, failed := false }).putCorr x g.range (formedCorr v)
      else (s2.setConv x { s2.conv x with outliers := 0, failed := false }).applyCorr x g (formedCorr v)) := rfl
  rw [S] at X
  dsimp only at X
  clear S E
  generalize State.endDeferral _ _ _ = s2 at *
  obtain ⟨sl, c2⟩ := c2
  have m2 : s2.mode.mode = a.mode.mode := congrArg ModeSt.mode m2
  have i2 : (s2.conv x).inForce g.range s2.now = (a.conv x).inForce g.range a.now := by rw [c2, n2]; rfl
  refine ⟨fun h => ?_, fun h => ⟨fun hc => ?_, fun hc hf => ?_⟩⟩
  · refine ⟨_, X, ?_⟩
    rw [i2, if_pos h]
    obtain ⟨a1, a2, a3⟩ := outlier_conv s2 x
    rw [a1, a2, a3, c2]
    exact ⟨rfl, rfl, rfl⟩
  · refine ⟨_, X, ?_⟩
    rw [i2, if_neg (by rw [h]; decide), if_pos (m2.trans hc)]
    have p := putCorr_conv (s2.setConv x { s2.conv x with outliers := 0, failed := false }) x g.range (formedCorr v)
    refine ⟨p.1, p.2.2.2.trans ?_⟩
    rw [conv_set, if_pos rfl]
  · refine ⟨_, X, ?_⟩
    rw [i2, if_neg (by rw [h]; decide), if_neg (by rw [m2]; exact hc)]
    unfold State.applyCorr
    dsimp only
    rw [if_pos (by show s2.fld (.calApply x) 16 16 = 0; exact (f2 _ _).trans hf), conv_set, if_pos rfl, conv_set, if_pos rfl]
    refine ⟨(freeze_rest _ _).2, ?_⟩
    show some (Ramp.mk _ _ (s2.fld (.calApply x) 10 0 * us) _ _) = _
    rw [f2, freeze_inForce, ← i2]
    rfl

end Sys2Proof
end

