-- ==== Sys2Proof/Laws/Quiet.lean ====
section
/-! SUPPORT. What an event leaves of the memory state and of the counters (chapters 15 and 17). -/

namespace Sys2Proof.Machine

open Sys2Proof

/-- What an event leaves alone of the memory state and the counters: all but the poisoned codewords its record replaces, and
the counts of dropped records. -/
def Quiet (a b : State) : Prop :=
  ({ b.mem with poison := [] } : MemSt) = { a.mem with poison := [] } ∧
  ∀ k, k < 0x1000000 → k ≠ RegId.off .qmEvDrop → Tab.get b.counts k 0 = Tab.get a.counts k 0

theorem Quiet.refl (a : State) : Quiet a a := ⟨rfl, fun _ _ _ => rfl⟩

theorem Quiet.trans {a b c : State} (h : Quiet a b) (g : Quiet b c) : Quiet a c :=
  ⟨g.1.trans h.1, fun k h1 h2 => (g.2 k h1 h2).trans (h.2 k h1 h2)⟩

theorem Quiet.of {a b : State} (h1 : b.mem = a.mem) (h2 : b.counts = a.counts) : Quiet a b :=
  ⟨by rw [h1], fun _ _ _ => by rw [h2]⟩

theorem Quiet.ofTouches {l : List Part} {a b : State} (h : Touches l a b) (h1 : l.contains .mem = false) (h2 : l.contains .counts = false) : Quiet a b :=
  .of (h.keeps .mem h1) (h.keeps .counts h2)

theorem quiet_bump (a : State) (k n : Nat) (h : 0x1000000 ≤ k ∨ k = RegId.off .qmEvDrop) : Quiet a (a.bumpKey k n) := by
  refine ⟨rfl, fun j h1 h2 => ?_⟩
  show Tab.get (Tab.put a.counts k _) j 0 = _
  refine Tab.get_put_ne _ _ _ ?_
  rintro rfl
  rcases h with h | h
  · omega
  · exact h2 h

theorem quiet_push (a : State) (qn : Nat) (p : Packet) : Quiet a (a.pushPacket qn p) := ⟨rfl, fun _ _ _ => rfl⟩

theorem quiet_ev (a : State) (e : EvSt) : Quiet a { a with ev := e } := .of rfl rfl

theorem quiet_dropped (a : State) (q : Nat) : Quiet a (a.dropped q) :=
  Quiet.trans (quiet_bump a _ 1 (.inl (by unfold qKey; omega))) (.of rfl rfl)

theorem quiet_evDrop (a : State) : Quiet a (a.bump .qmEvDrop 1) := quiet_bump a _ 1 (.inr rfl)

theorem quiet_flag (a : State) (r : RegId) (b : Nat) : Quiet a (a.setFlag r b) := .of rfl rfl

theorem quiet_storeEvent (s : State) (c x t : Nat) (l : List Word) : Quiet s (s.storeEvent c x t l) := by
  unfold State.storeEvent
  dsimp only
  split_ifs
  · refine Quiet.trans (b := { s with ev := { s.ev with seq := (s.ev.seq + 1) % 256 } }) (.of rfl rfl) ?_
    exact (quiet_push _ _ _).trans (.of rfl rfl)
  · exact (quiet_ev s _).trans ((quiet_dropped _ _).trans ((quiet_evDrop _).trans (quiet_ev _ _)))
  · exact (quiet_ev s _).trans ((quiet_evDrop _).trans (quiet_ev _ _))

theorem quiet_formEvent (s : State) (c x t : Nat) (l : List Word) : Quiet s (s.formEvent c x t l) := by
  unfold State.formEvent
  dsimp only
  split_ifs
  · refine Quiet.trans ?_ (quiet_storeEvent _ _ _ _ _)
    refine Quiet.trans (b := s.setFlag .qmFlags 4) (.of rfl rfl) ?_
    exact (quiet_storeEvent _ _ _ _ _).trans (.of rfl rfl)
  · exact quiet_storeEvent _ _ _ _ _

theorem quiet_raise (s : State) (e : Ev) (i x t : Nat) (l : List Word) : Quiet s (s.raise e i x t l) := by
  unfold State.raise
  dsimp only
  have k : ∀ z : State, Quiet s z → Quiet s (if s.qLost (s.fld .qmCtl 14 0) = false ∧ (z.formEvent e.code x t l).qLost (s.fld .qmCtl 14 0) = true then
      ((z.formEvent e.code x t l).setFlag .qmFlags 1).formEvent 0x0706 (s.fld .qmCtl 14 0) s.now [5] else z.formEvent e.code x t l) := by
    intro z h
    split_ifs
    · exact ((h.trans (quiet_formEvent z e.code x t l)).trans (quiet_flag _ _ _)).trans (quiet_formEvent _ _ _ _ _)
    · exact h.trans (quiet_formEvent _ _ _ _ _)
  apply k
  cases e.flag i with
  | none => exact .refl _
  | some p => exact .of rfl rfl

theorem Quiet.rest {a b : State} (h : Quiet a b) : b.mem.ceLog = a.mem.ceLog ∧ b.mem.ceRep = a.mem.ceRep ∧ b.mem.sramRep = a.mem.sramRep ∧
    b.mem.scrubPos = a.mem.scrubPos ∧ b.mem.ueAddr = a.mem.ueAddr ∧ b.mem.test = a.mem.test ∧ b.mem.stat = a.mem.stat ∧ b.mem.failAddr = a.mem.failAddr := by
  have := h.1
  simp only [MemSt.mk.injEq] at this
  tauto

theorem count_bump (a : State) (r : RegId) (n : Nat) : (a.bump r n).count r = min 0xFFFFFFFF (a.count r + n) := Tab.get_put ..

theorem count_bump_ne (a : State) (r q : RegId) (n : Nat) (h : q.off ≠ r.off) : (a.bump r n).count q = a.count q := Tab.get_put_ne _ _ _ h

theorem Quiet.count {a b : State} (h : Quiet a b) (r : RegId) (h1 : r.off < 0x1000000) (h2 : r.off ≠ RegId.off .qmEvDrop) : b.count r = a.count r :=
  h.2 _ h1 h2

end Sys2Proof.Machine
end

