-- ==== Sys2Proof/Laws/Controllers.lean ====
section
/-! SUPPORT. Steps of the commands of one kind: the management controller. -/

namespace Sys2Proof

open Sys2Proof.Machine

theorem restart_begins (a : State) (n : Nat) (h : a.mc.running = true) : restarting a (a.startRestart n) a.now n := by
  unfold State.startRestart
  rw [if_neg (by rw [h]; decide)]
  dsimp only
  by_cases hb : a.mc.busy = true
  · rw [if_pos hb]
    exact ⟨rfl, rfl, rfl, rfl, rfl, rfl⟩
  · rw [if_neg hb]
    exact ⟨rfl, rfl, rfl, by simpa using hb, rfl, rfl⟩

theorem restarts_1 (s : State) (t : BitVec 64) : (s.mc.running = true → ∀ pc : Word,
    (∃ u, exec (.watchdogExpiry t pc) s = .next u ∧ restarting s u (s.at t).now pc.toNat) ∧
    (s.mode.mode ≠ .dormant → ∃ u, exec (.mcRestartWrite t 0x5A pc) s = .next u ∧ restarting s u (s.at t).now pc.toNat) ∧
    (∀ key, key ≠ 0x5A → ∃ u, exec (.mcRestartWrite t key pc) s = .next u ∧ u = s.at t)) := by
  intro h pc
  refine ⟨⟨_, rfl, restart_begins (s.at t) _ h⟩, fun hm => ⟨_, congrArg Host.Outcome.next ((if_neg hm).trans (if_pos (by decide))), restart_begins (s.at t) _ h⟩, fun key hk => ⟨_, rfl, ?_⟩⟩
  split_ifs
  · rfl
  · unfold State.wrMcCtl
    refine if_neg ?_
    rintro ⟨_, c⟩
    apply hk
    have hl := key.isLt
    apply BitVec.eq_of_toNat_eq
    unfold getF bits at c
    rw [BitVec.toNat_ofNat] at c
    simp at c
    show key.toNat = 90
    omega

theorem restarts_2 (s : State) (t : BitVec 64) : (∀ (r : Nat) (fw0 fw1 : ImageCheck), s.mc.restart = some r → s.mc.sel.fw < 2 →
    (s.verify 1 s.mc.sel.fw (if s.mc.sel.fw = 0 then fw0 else fw1) false = 0 →
      ∃ u, exec (.mcRestart t fw0 fw1) s = .next u ∧ u.mc.running = true ∧ u.mc.restart = none ∧ u.mc.fwSlot = s.mc.sel.fw ∧
        u.now = (s.clockTo (min t.toNat (r + 100 * ms))).now) ∧
    (s.verify 1 0 fw0 false ≠ 0 → s.verify 1 1 fw1 false ≠ 0 →
      ∃ u, exec (.mcRestart t fw0 fw1) s = .next u ∧ u.mc.running = false ∧ u.mc.stopped = true ∧ u.mc.restart = none)) := by
  intro r fw0 fw1 hr hs
  have E : exec (.mcRestart t fw0 fw1) s = .next (
      let s1 := s.clockTo (min t.toNat (r + 100 * ms))
      let s2 := (s1.setMc { s1.mc with restart := none, slotFail := s1.mc.slotFail % 4 }).bootFw fw0 fw1
      if s2.mc.running then s2.raise .mcRestart 0 0 (up8 r) [0]
      else (s2.setMc { s2.mc with recOk := false }).raise .mcRestart 0 0 (up8 s2.now) [1]) := by
    refine congrArg Host.Outcome.next ?_
    unfold State.mcRestarted
    rw [hr]
  have V : ∀ z : State, z.mc.slots = s.mc.slots → z.mc.minFw = s.mc.minFw → z.mc.minUc = s.mc.minUc → ∀ k key c l, z.verify k key c l = s.verify k key c l := by
    intro z e1 e2 e3 k key c l
    unfold State.verify State.formatOk State.slotSvn State.slotLen State.slotNum Mgmt.minSvn
    rw [e1, e2, e3]
  have B : ∀ z : State, z.mc.slots = s.mc.slots → z.mc.minFw = s.mc.minFw → z.mc.minUc = s.mc.minUc → z.mc.sel = s.mc.sel → z.mc.restart = none →
      (s.verify 1 s.mc.sel.fw (if s.mc.sel.fw = 0 then fw0 else fw1) false = 0 → (z.bootFw fw0 fw1).mc.running = true ∧ (z.bootFw fw0 fw1).mc.restart = none ∧
        (z.bootFw fw0 fw1).mc.fwSlot = s.mc.sel.fw ∧ (z.bootFw fw0 fw1).now = z.now) ∧
      (s.verify 1 0 fw0 false ≠ 0 → s.verify 1 1 fw1 false ≠ 0 → (z.bootFw fw0 fw1).mc.running = false ∧ (z.bootFw fw0 fw1).mc.stopped = true ∧ (z.bootFw fw0 fw1).mc.restart = none) := by
    intro z e1 e2 e3 e4 e5
    unfold State.bootFw
    dsimp only
    rw [V z e1 e2 e3, V z e1 e2 e3, e4]
    refine ⟨fun hv => ?_, fun h0 h1 => ?_⟩
    · have bs : bootSlot s.mc.sel.fw (s.verify 1 0 fw0 false) (s.verify 1 1 fw1 false) = (some s.mc.sel.fw, [], 0) := by
        unfold bootSlot
        by_cases h0 : s.mc.sel.fw = 0
        · rw [h0, if_pos rfl] at hv
          rw [h0, if_pos rfl, if_pos rfl]; exact if_pos hv
        · have : s.mc.sel.fw = 1 := by omega
          rw [this, if_neg (by decide)] at hv
          rw [this]; simp [hv]
      rw [bs]
      exact ⟨rfl, e5, rfl, rfl⟩
    · have bs : (bootSlot s.mc.sel.fw (s.verify 1 0 fw0 false) (s.verify 1 1 fw1 false)).1 = none := by
        unfold bootSlot
        dsimp only
        by_cases h : s.mc.sel.fw = 0
        · simp only [h, if_true, h0, h1, if_false]
        · simp only [h, if_false, h0, h1]
      rw [bs]
      exact ⟨rfl, rfl, e5⟩
  obtain ⟨B1, B2⟩ := B ((s.clockTo (min t.toNat (r + 100 * ms))).setMc { (s.clockTo (min t.toNat (r + 100 * ms))).mc with restart := none, slotFail := (s.clockTo (min t.toNat (r + 100 * ms))).mc.slotFail % 4 }) rfl rfl rfl rfl rfl
  have MC : ∀ (z : State) x y w, (z.raise .mcRestart 0 x y w).mc = z.mc := fun z x y w => (State.raise_touches ..).keeps .mc rfl
  have NW : ∀ (z : State) x y w, (z.raise .mcRestart 0 x y w).now = z.now := fun z x y w => now_of (State.raise_touches ..) rfl
  dsimp only at E
  refine ⟨fun hv => ⟨_, E, ?_⟩, fun h0 h1 => ⟨_, E, ?_⟩⟩
  · obtain ⟨k1, k2, k3, k4⟩ := B1 hv
    rw [if_pos k1, MC, NW]
    exact ⟨k1, k2, k3, k4⟩
  · obtain ⟨k1, k2, k3⟩ := B2 h0 h1
    rw [if_neg (by rw [k1]; decide), MC]
    exact ⟨k1, k2, k3⟩

theorem takes_not (a : State) (c : Nat) (h : a.mbTakes c = true) : ¬ a.mbTakes c = false := by rw [h]; decide

theorem mbDone_answers (s a : State) (k : Nat) (h : a.fld .mcMbCmd 23 16 = s.fld .mcMbCmd 23 16) : mbAnswers s (a.mbDone k) k := by
  refine ⟨rfl, ?_⟩
  show k * 2 ^ 24 + a.fld .mcMbCmd 23 16 * 2 ^ 16 = _
  rw [h]

theorem mailbox_1 (s : State) (t : BitVec 64) : (s.mbTakes 0x01 = true → ∀ flash : Bool,
    (s.mbArg = 1 ∨ s.mbArg = 2 → (s.reg .mcMbArg).toNat ≠ 0 → (s.reg .mcMbArg).toNat ≤ slotSize s.mbArg →
      ∃ u, exec (.imgBegin t flash) s = .next u ∧ mbAnswers s u (if flash then 0 else 7) ∧ Tab.get u.mc.slots (s.inactive s.mbArg) [] = [] ∧
        u.mc.xfer = if flash then some { kind := s.mbArg, len := (s.reg .mcMbArg).toNat } else none) ∧
    (s.mbArg = 0 ∨ 3 ≤ s.mbArg → ∃ u, exec (.imgBegin t flash) s = .next u ∧ mbAnswers s u 2 ∧ u.mc.slots = s.mc.slots)) := by
  intro h flash
  have h : ¬ (s.at t).mbTakes 1 = false := takes_not _ _ h
  have e1 : s.mbArg = (s.at t).mbArg := rfl
  have e2 : s.reg .mcMbArg = (s.at t).reg .mcMbArg := rfl
  have e3 : s.mc = (s.at t).mc := rfl
  have e4 : s.fld .mcMbCmd 23 16 = (s.at t).fld .mcMbCmd 23 16 := rfl
  have X : exec (.imgBegin t flash) s = .next ((s.at t).imgBegin flash) := rfl
  simp only [mbAnswers, X, State.inactive, e1, e2, e3, e4]
  generalize s.at t = a at *
  refine ⟨fun h1 h2 h3 => ⟨_, rfl, ?_⟩, fun h1 => ⟨_, rfl, ?_⟩⟩
  · unfold State.imgBegin
    rw [if_neg h]
    dsimp only
    have hm : a.mbArg % 4 = a.mbArg := by omega
    rw [hm, if_neg (by omega)]
    exact ⟨⟨rfl, rfl⟩, Tab.get_put .., rfl⟩
  · unfold State.imgBegin
    rw [if_neg h]
    dsimp only
    rw [if_pos (by omega)]
    exact ⟨⟨rfl, rfl⟩, rfl⟩

theorem mailbox_2 (s : State) (t : BitVec 64) : (s.mbTakes 0x02 = true →
    (s.mc.xfer = none → ∃ u, exec (.imgData t true) s = .next u ∧ mbAnswers s u 3) ∧
    (∀ x, s.mc.xfer = some x → (s.reg .mcMbArg).toNat ≠ 0 → (s.reg .mcMbArg).toNat ≤ 2048 → 2048 * s.mbArg + (s.reg .mcMbArg).toNat ≤ x.len →
      ∃ u, exec (.imgData t true) s = .next u ∧ mbAnswers s u 0 ∧
        Tab.get u.mc.slots (s.inactive x.kind) [] = Mem.writes (Tab.get s.mc.slots (s.inactive x.kind) []) (2048 * s.mbArg) (s.mbBytes (s.reg .mcMbArg).toNat) ∧
        ∃ y, u.mc.xfer = some y ∧ s.mbArg ∈ y.chunks)) := by
  intro h
  have h : ¬ (s.at t).mbTakes 2 = false := takes_not _ _ h
  have e1 : s.mbArg = (s.at t).mbArg := rfl
  have e2 : s.reg .mcMbArg = (s.at t).reg .mcMbArg := rfl
  have e3 : s.mc = (s.at t).mc := rfl
  have e4 : s.fld .mcMbCmd 23 16 = (s.at t).fld .mcMbCmd 23 16 := rfl
  have e5 : ∀ n, s.mbBytes n = (s.at t).mbBytes n := fun _ => rfl
  have X : exec (.imgData t true) s = .next ((s.at t).imgData true) := rfl
  simp only [mbAnswers, X, State.inactive, e1, e2, e3, e4, e5]
  generalize s.at t = a at *
  refine ⟨fun h1 => ⟨_, rfl, ?_⟩, fun x h1 h2 h3 h4 => ⟨_, rfl, ?_⟩⟩
  · unfold State.imgData
    rw [if_neg h, h1]
    exact ⟨rfl, rfl⟩
  · unfold State.imgData
    rw [if_neg h, h1]
    dsimp only
    rw [if_neg (by omega), if_neg (by decide)]
    refine ⟨⟨rfl, rfl⟩, Tab.get_put .., _, rfl, ?_⟩
    dsimp only
    split_ifs with hc
    · exact List.contains_iff_mem.mp hc
    · exact .head _

theorem mailbox_3 (s : State) (t : BitVec 64) : (s.mbTakes 0x03 = true → s.mbArg = 0 → ∀ (c : ImageCheck) (x : Xfer), s.mc.xfer = some x →
    (∃ i, i < (x.len + 2047) / 2048 ∧ i ∉ x.chunks) → ∃ u, exec (.imgCommit t c true) s = .next u ∧ mbAnswers s u 3) := by
  intro h h0 c x h1 ⟨i, h2, h3⟩
  have h : ¬ (s.at t).mbTakes 3 = false := takes_not _ _ h
  have h0 : ¬ (s.at t).mbArg ≠ 0 := fun c => c h0
  have h1 : (s.at t).mc.xfer = some x := h1
  refine ⟨_, rfl, ?_⟩
  unfold State.imgCommit
  rw [if_neg h, h1]
  dsimp only
  rw [if_neg h0, if_pos]
  · exact ⟨rfl, rfl⟩
  · rw [← Bool.not_eq_true, List.all_eq_true]
    intro k
    have := k i (List.mem_range.mpr h2)
    exact h3 (List.contains_iff_mem.mp this)

theorem mailbox_4 (s : State) (t : BitVec 64) : (s.mbTakes 0x03 = true → s.mbArg = 0 → ∀ (c : ImageCheck) (x : Xfer), s.mc.xfer = some x →
    (∀ i, i < (x.len + 2047) / 2048 → i ∈ x.chunks) →
    (s.verify x.kind (s.inactive x.kind) { c with flashOk := true } false ≠ 0 →
      ∃ u, exec (.imgCommit t c true) s = .next u ∧ mbAnswers s u 4 ∧ u.mc.sel = s.mc.sel ∧
        u.reg .mcMbArg = BitVec.ofNat 32 (s.verify x.kind (s.inactive x.kind) { c with flashOk := true } false)) ∧
    (s.verify x.kind (s.inactive x.kind) { c with flashOk := true } false = 0 →
      ∃ u, exec (.imgCommit t c true) s = .next u ∧ mbAnswers s u 0 ∧ u.mc.xfer = none ∧ u.mc.sel.gen = s.mc.sel.gen + 1 ∧
        u.mc.sel.fw = (if x.kind = 1 then s.inactive 1 % 2 else s.mc.sel.fw) ∧ u.mc.sel.uc = (if x.kind = 2 then s.inactive 2 % 2 else s.mc.sel.uc))) := by
  intro h h0 c x h1 h2
  have h : ¬ (s.at t).mbTakes 3 = false := takes_not _ _ h
  have h0 : ¬ (s.at t).mbArg ≠ 0 := fun c => c h0
  have h1 : (s.at t).mc.xfer = some x := h1
  have e3 : s.mc = (s.at t).mc := rfl
  have e4 : s.fld .mcMbCmd 23 16 = (s.at t).fld .mcMbCmd 23 16 := rfl
  have e5 : ∀ k, s.inactive k = (s.at t).inactive k := fun _ => rfl
  have e6 : ∀ a b c d, s.verify a b c d = (s.at t).verify a b c d := fun _ _ _ _ => rfl
  have X : exec (.imgCommit t c true) s = .next ((s.at t).imgCommit c true) := rfl
  simp only [mbAnswers, X, e3, e4, e5, e6]
  generalize s.at t = a at *
  have al : ¬ (List.range ((x.len + 2047) / 2048)).all (fun i => x.chunks.contains i) = false := by
    have : (List.range ((x.len + 2047) / 2048)).all (fun i => x.chunks.contains i) = true := by
      rw [List.all_eq_true]
      intro i hi
      exact List.contains_iff_mem.mpr (h2 i (List.mem_range.mp hi))
    rw [this]; decide
  refine ⟨fun hv => ⟨_, rfl, ?_⟩, fun hv => ⟨_, rfl, ?_⟩⟩
  · unfold State.imgCommit
    rw [if_neg h, h1]
    dsimp only
    rw [if_neg h0, if_neg al, if_pos hv]
    refine ⟨⟨rfl, ?_⟩, rfl, State.reg_setReg ..⟩
    show _ * _ + State.fld (State.setReg _ _ _) _ _ _ * _ = _
    congr 2
    unfold State.fld
    rw [State.reg_setReg_ne _ _ _ _ (by decide)]
  · unfold State.imgCommit
    rw [if_neg h, h1]
    dsimp only
    rw [if_neg h0, if_neg al, if_neg (fun c => c hv), if_neg (by decide)]
    refine ⟨⟨rfl, rfl⟩, rfl, rfl, ?_, ?_⟩
    · show (if x.kind = 1 then a.inactive x.kind % 2 else _) = _
      split_ifs with k
      · rw [k]
      · rfl
    · show (if x.kind = 2 then a.inactive x.kind % 2 else _) = _
      split_ifs with k
      · rw [k]
      · rfl

theorem mailbox_5 (s : State) (t : BitVec 64) : (s.mbTakes 0x04 = true → s.mbArg = 0 → ∃ u, exec (.imgAbort t) s = .next u ∧ mbAnswers s u 0 ∧ u.mc.xfer = none) := by
  intro h h0
  have h : ¬ (s.at t).mbTakes 4 = false := takes_not _ _ h
  have h0 : ¬ (s.at t).mbArg ≠ 0 := fun c => c h0
  exact ⟨_, congrArg Host.Outcome.next ((if_neg h).trans (if_neg h0)), ⟨rfl, rfl⟩, rfl⟩

theorem mailbox_6 (s : State) (t : BitVec 64) : (s.mbTakes 0x05 = true →
    (s.mbArg = 0x5A01 → ∃ u, exec (.svnCommit t) s = .next u ∧ mbAnswers s u 0 ∧ u.mc.minFw = max s.mc.minFw s.mc.fwSvn) ∧
    (s.mbArg = 0x5A02 → ∃ u, exec (.svnCommit t) s = .next u ∧ mbAnswers s u 0 ∧ u.mc.minUc = max s.mc.minUc s.mc.ucSvn) ∧
    (s.mbArg / 256 ≠ 0x5A → ∃ u, exec (.svnCommit t) s = .next u ∧ mbAnswers s u 2 ∧ u.mc.minFw = s.mc.minFw ∧ u.mc.minUc = s.mc.minUc)) := by
  intro h
  have h : ¬ (s.at t).mbTakes 5 = false := takes_not _ _ h
  have ea : s.mbArg = (s.at t).mbArg := rfl
  rw [ea]
  have X : exec (.svnCommit t) s = .next ((s.at t).svnCommit) := rfl
  simp only [mbAnswers, X]
  have e3 : s.mc = (s.at t).mc := rfl
  have e4 : s.fld .mcMbCmd 23 16 = (s.at t).fld .mcMbCmd 23 16 := rfl
  rw [e3, e4]
  generalize s.at t = a at *
  refine ⟨fun k => ⟨_, rfl, ?_⟩, fun k => ⟨_, rfl, ?_⟩, fun k => ⟨_, rfl, ?_⟩⟩
  · unfold State.svnCommit
    rw [if_neg h]
    dsimp only
    rw [k, if_neg (by decide), if_pos (by decide)]
    exact ⟨⟨rfl, rfl⟩, rfl⟩
  · unfold State.svnCommit
    rw [if_neg h]
    dsimp only
    rw [k, if_neg (by decide), if_neg (by decide)]
    exact ⟨⟨rfl, rfl⟩, rfl⟩
  · unfold State.svnCommit
    rw [if_neg h]
    dsimp only
    rw [if_pos (.inl k)]
    exact ⟨⟨rfl, rfl⟩, rfl, rfl⟩

theorem mbReturn_aux : ∀ (ws : List Word) (k : Nat) (a : State) (w : Nat),
    (((List.range' k ws.length).zip ws).foldl (fun a p => a.setReg (.mcMbData p.1) p.2) a).reg (.mcMbData w) =
      if k ≤ w then (ws[w - k]?).getD (a.reg (.mcMbData w)) else a.reg (.mcMbData w) := by
  intro ws
  induction ws with
  | nil => intro k a w; simp
  | cons x ws ih =>
    intro k a w
    rw [List.length_cons, List.range'_succ, List.zip_cons_cons, List.foldl_cons, ih]
    by_cases h : w = k
    · subst h
      rw [if_neg (by omega), if_pos (Nat.le_refl _), Nat.sub_self]
      exact State.reg_setReg ..
    · have hn : (a.setReg (.mcMbData k) x).reg (.mcMbData w) = a.reg (.mcMbData w) :=
        State.reg_setReg_ne _ _ _ _ (by show 0x1800 + 4 * w ≠ 0x1800 + 4 * k; omega)
      rw [hn]
      by_cases h2 : k ≤ w
      · rw [if_pos (by omega), if_pos h2]
        have : w - k = (w - (k + 1)) + 1 := by omega
        rw [this, List.getElem?_cons_succ]
      · rw [if_neg (by omega), if_neg h2]

theorem mbReturn_reg (a : State) (ws : List Word) (w : Nat) (h : w < ws.length) : (a.mbReturn ws).reg (.mcMbData w) = ws[w] := by
  unfold State.mbReturn
  have : List.range ws.length = List.range' 0 ws.length := List.range_eq_range' ..
  rw [this, mbReturn_aux, if_pos (Nat.zero_le _)]
  simp [h]

theorem mbReturn_fn (a : State) (f : Nat → Word) (n w : Nat) (h : w < n) : (a.mbReturn ((List.range n).map f)).reg (.mcMbData w) = f w := by
  rw [mbReturn_reg a _ w (by rw [List.length_map, List.length_range]; exact h), List.getElem_map, List.getElem_range]

theorem mbDone_reg (a : State) (k : Nat) (r : RegId) : (a.mbDone k).reg r = a.reg r := rfl

theorem mbReturn_cmd (ws : List Word) : ∀ (l : List Nat) (a : State), ((l.zip ws).foldl (fun a p => a.setReg (.mcMbData p.1) p.2) a).fld .mcMbCmd 23 16 = a.fld .mcMbCmd 23 16 := by
  induction ws with
  | nil => intro l a; cases l <;> rfl
  | cons x ws ih =>
    intro l a
    cases l with
    | nil => rfl
    | cons k l =>
      rw [List.zip_cons_cons, List.foldl_cons, ih]
      unfold State.fld
      rw [State.reg_setReg_ne _ _ _ _ (by show (0x1130 : Nat) ≠ 0x1800 + 4 * k; omega)]

theorem mailbox_7 (s : State) (t : BitVec 64) : (s.mbTakes 0x10 = true →
    (s.mbArg < 128 → ∃ u, exec (.recRead t) s = .next u ∧ mbAnswers s u 0 ∧
      ∀ w < 512, u.reg (.mcMbData w) = Config.asBuilt (1024 + 512 * s.mbArg + w)) ∧
    (128 ≤ s.mbArg → ∃ u, exec (.recRead t) s = .next u ∧ mbAnswers s u 2)) := by
  intro h
  have h : ¬ (s.at t).mbTakes 0x10 = false := takes_not _ _ h
  have ea : s.mbArg = (s.at t).mbArg := rfl
  rw [ea]
  have X : exec (.recRead t) s = .next ((s.at t).recRead) := rfl
  have e4 : s.fld .mcMbCmd 23 16 = (s.at t).fld .mcMbCmd 23 16 := rfl
  simp only [mbAnswers, X, e4]
  generalize s.at t = a at *
  refine ⟨fun k => ⟨_, rfl, ?_⟩, fun k => ⟨_, rfl, ?_⟩⟩
  · unfold State.recRead
    rw [if_neg h]
    dsimp only
    rw [if_neg (by omega)]
    refine ⟨mbDone_answers a _ 0 (mbReturn_cmd _ _ _), fun w hw => ?_⟩
    rw [mbDone_reg, mbReturn_fn _ _ _ _ hw]
  · unfold State.recRead
    rw [if_neg h]
    dsimp only
    rw [if_pos k]
    exact ⟨rfl, rfl⟩

theorem mailbox_8 (s : State) (t : BitVec 64) : (s.mbTakes 0x11 = true →
    (s.mbArg < 1024 → ∃ u, exec (.cageRead t) s = .next u ∧ mbAnswers s u 0 ∧
      ∀ w < 32, u.reg (.mcMbData w) = BitVec.ofNat 32 (leNat ((List.range 4).map (fun i => Config.cageByte (s.mbArg / 256) (s.mbArg % 256) (4 * w + i))))) ∧
    (1024 ≤ s.mbArg → ∃ u, exec (.cageRead t) s = .next u ∧ mbAnswers s u 2)) := by
  intro h
  have h : ¬ (s.at t).mbTakes 0x11 = false := takes_not _ _ h
  have ea : s.mbArg = (s.at t).mbArg := rfl
  rw [ea]
  have X : exec (.cageRead t) s = .next ((s.at t).cageRead) := rfl
  have e4 : s.fld .mcMbCmd 23 16 = (s.at t).fld .mcMbCmd 23 16 := rfl
  simp only [mbAnswers, X, e4]
  generalize s.at t = a at *
  refine ⟨fun k => ⟨_, rfl, ?_⟩, fun k => ⟨_, rfl, ?_⟩⟩
  · unfold State.cageRead
    rw [if_neg h]
    dsimp only
    rw [if_neg (by omega)]
    refine ⟨mbDone_answers a _ 0 (mbReturn_cmd _ _ _), fun w hw => ?_⟩
    rw [mbDone_reg, mbReturn_fn _ _ _ _ hw]
    have : List.range 4 = [0, 1, 2, 3] := rfl
    rw [this]
    rfl
  · unfold State.cageRead
    rw [if_neg h]
    dsimp only
    rw [if_pos k]
    exact ⟨rfl, rfl⟩

end Sys2Proof
end

