-- ==== Sys2Proof/Laws/Doorbells.lean ====
section
/-! SUPPORT. Steps of the commands of one kind: doorbells and completions. -/

namespace Sys2Proof

open Sys2Proof.Machine

theorem stopRing_ring (s : State) (n c : Nat) : (s.stopRing n c).ring n = { s.ring n with halted := true, cause := c } := by
  unfold State.stopRing State.ringEvent
  rw [ring_of (State.raise_touches ..) rfl, ring_set, if_pos rfl]

theorem doorbells_2 (s : State) (t : BitVec 64) (n : Fin 64) : (∀ p ps, (s.ring n).open' = true → s.hif.up = true → (s.ring n).cqTail - (s.ring n).cqHead < s.ringSize n →
    (s.queue (s.cqQueue n)).pkts = p :: ps → s.hurt (s.cqQueue n) p = none →
    ∃ u, exec (.completionEntry t n) s = .next u ∧
      u.hostMem = Mem.writes s.hostMem (s.cqBase n + 32 * ((s.ring n).cqTail % s.ringSize n)) p.bytes ∧
      (u.ring n).cqTail = (s.ring n).cqTail + 1 ∧ (u.queue (s.cqQueue n)).pkts = ps) := by
  intro p ps h1 h2 h3 h4 h5
  refine ⟨_, rfl, ?_⟩
  have c : ¬ (((s.at t).ring n).open' = false ∨ (s.at t).hif.up = false ∨ (s.at t).ringSize n ≤ ((s.at t).ring n).cqTail - ((s.at t).ring n).cqHead) := by
    show ¬ ((s.ring n).open' = false ∨ s.hif.up = false ∨ s.ringSize n ≤ (s.ring n).cqTail - (s.ring n).cqHead)
    rw [h1, h2]; simp; exact h3
  have h4' : ((s.at t).queue ((s.at t).cqQueue n)).pkts = p :: ps := h4
  have h5' : (s.at t).hurt ((s.at t).cqQueue n) p = none := h5
  unfold State.writeEntry
  dsimp only
  rw [if_neg c]
  split
  · rename_i e; rw [h4'] at e; cases e
  · rename_i q qs e
    rw [h4'] at e
    obtain ⟨rfl, rfl⟩ := List.cons.inj e
    rw [h5']
    dsimp only
    refine ⟨(State.drained_touches ..).keeps .hostMem rfl, ?_, ?_⟩
    · rw [drained_ring, ring_set, if_pos rfl]; rfl
    · rw [queue_of (State.drained_touches ..) rfl]
      have : ∀ (x : State) r, (x.setRing n r).queue (s.cqQueue n) = x.queue (s.cqQueue n) := fun _ _ => rfl
      rw [this]
      exact congrArg Queue.pkts ((queue_set _ _ _ _).trans (if_pos rfl))

theorem leNat_lt (l : List Byte) : leNat l < 256 ^ l.length := by
  induction l with
  | nil => simp [leNat]
  | cons b l ih =>
    have := b.isLt
    simp only [leNat, List.length_cons, Nat.pow_succ]
    omega

theorem num_lt (m : Mem) (a : Nat) : Mem.num m a 4 < 2 ^ 32 := by
  have h := leNat_lt (Mem.reads m a 4)
  have e : (Mem.reads m a 4).length = 4 := by simp [Mem.reads]
  rw [e] at h
  exact h

theorem put_put {α : Type} (l : Tab α) (k : Nat) (a b : α) : Tab.put (Tab.put l k a) k b = Tab.put l k b := by
  induction l with
  | nil => simp [Tab.put]
  | cons e l ih =>
    obtain ⟨j, u⟩ := e
    simp only [Tab.put]
    split_ifs with h1 h2
    · simp [Tab.put]
    · subst h2; simp [Tab.put]
    · simp [Tab.put, h1, h2, ih]

theorem setRing_two (s : State) (n : Nat) (a b : Ring) : (s.setRing n a).setRing n b = s.setRing n b := by
  unfold State.setRing
  dsimp only
  rw [put_put]

theorem fetch_one (z : State) (n tail : Nat) (h1 : (z.ring n).sqHead % 2 ^ 32 ≠ tail) (h2 : z.inflight n < z.fld (.hifRingCtl n) 15 5) (h3 : z.inflightAll < 1024)
    (h4 : (z.queue (z.sqQueue n)).room 64 = true) (h5 : 32 * (z.inflight n + 1) ≤ (z.queue (z.cqQueue n)).size) :
    (z.fetchUpTo n tail true 1).ring n = { z.ring n with sqHead := (z.ring n).sqHead + 1 } ∧
    (z.fetchUpTo n tail true 1).queue (z.sqQueue n) = (z.queue (z.sqQueue n)).push { bytes := Mem.reads z.hostMem (z.sqBase n + 64 * ((z.ring n).sqHead % z.ringSize n)) 64, first := z.now, vis := some z.now } := by
  unfold State.fetchUpTo
  dsimp only
  rw [if_neg (by rw [h4]; simp only [not_or]; exact ⟨h1, by omega, by omega, by simp, by omega⟩), if_neg (by decide)]
  unfold State.fetchUpTo
  refine ⟨by rw [ring_set, if_pos rfl], ?_⟩
  refine (show _ = (z.pushPacket (z.sqQueue n) _).queue (z.sqQueue n) from rfl).trans ?_
  rw [push_queue, if_pos rfl]

theorem doorbells_1 (s : State) (t : BitVec 64) (n : Fin 64) :
  ((s.ring n).on = true → (s.ring n).reading.isSome = true →
    (∀ a b, (s.ring n).halted = true → ∃ u, exec (.doorbellRead t n a b) s = .next u ∧ u.ring n = { s.ring n with reading := none }) ∧
    (∀ b, (s.ring n).halted = false → ∃ u, exec (.doorbellRead t n false b) s = .next u ∧
      u.ring n = { s.ring n with reading := none, halted := true, cause := 3 }) ∧
    ((s.ring n).halted = false → ∀ a tail head, a = s.reg64 .hifDbLo .hifDbHi + 16 * n → tail = Mem.num s.hostMem a 4 → head = Mem.num s.hostMem (a + 4) 4 →
      (∀ b, s.ringSize n < (tail + 2 ^ 32 - (s.ring n).sqHead % 2 ^ 32) % 2 ^ 32 →
        ∃ u, exec (.doorbellRead t n true b) s = .next u ∧ u.ring n = { s.ring n with reading := none, halted := true, cause := 1 }) ∧
      (∀ b, (tail + 2 ^ 32 - (s.ring n).sqHead % 2 ^ 32) % 2 ^ 32 ≤ s.ringSize n →
        s.ringSize n < ((s.ring n).cqTail % 2 ^ 32 + 2 ^ 32 - head) % 2 ^ 32 →
        ∃ u, exec (.doorbellRead t n true b) s = .next u ∧ u.ring n = { s.ring n with reading := none, halted := true, cause := 2 }) ∧
      (∀ r', ((s.ring n).cqTail % 2 ^ 32 + 2 ^ 32 - head) % 2 ^ 32 ≤ s.ringSize n →
        r' = { s.ring n with reading := none, cqHead := (s.ring n).cqTail - ((s.ring n).cqTail % 2 ^ 32 + 2 ^ 32 - head) % 2 ^ 32 } →
        (∀ b, (tail + 2 ^ 32 - (s.ring n).sqHead % 2 ^ 32) % 2 ^ 32 = 0 →
          ∃ u, exec (.doorbellRead t n true b) s = .next u ∧ u.ring n = r') ∧
        ((tail + 2 ^ 32 - (s.ring n).sqHead % 2 ^ 32) % 2 ^ 32 = 1 → (s.setRing n r').inflight n < s.fld (.hifRingCtl n) 15 5 → (s.setRing n r').inflightAll < 1024 →
          (s.queue (s.sqQueue n)).room 64 = true → 32 * ((s.setRing n r').inflight n + 1) ≤ (s.queue (s.cqQueue n)).size →
          ∃ u, exec (.doorbellRead t n true true) s = .next u ∧ u.ring n = { r' with sqHead := (s.ring n).sqHead + 1 } ∧
            u.queue (s.sqQueue n) = (s.queue (s.sqQueue n)).push { bytes := Mem.reads s.hostMem (s.sqBase n + 64 * ((s.ring n).sqHead % s.ringSize n)) 64, first := (s.at t).now, vis := some (s.at t).now })))) := by
  intro h1 h2
  have c : ¬ (((s.at t).ring n).on = false ∨ ((s.at t).ring n).reading.isNone = true) := by
    show ¬ ((s.ring n).on = false ∨ (s.ring n).reading.isNone = true)
    rw [h1]; cases hr : (s.ring n).reading <;> simp_all
  refine ⟨?_, ?_, ?_⟩
  · intro a b h3
    refine ⟨_, rfl, ?_⟩
    have h3' : ((s.at t).ring n).halted = true := h3
    unfold State.doorbell
    dsimp only
    rw [if_neg c, if_pos h3', ring_set, if_pos rfl]
    rfl
  · intro b h3
    refine ⟨_, rfl, ?_⟩
    have h3' : ¬ ((s.at t).ring n).halted = true := by show ¬ (s.ring n).halted = true; rw [h3]; decide
    unfold State.doorbell
    dsimp only
    rw [if_neg c, if_neg h3', if_pos rfl, stopRing_ring, ring_set, if_pos rfl]
    rfl
  · intro h3 a tail head ha ht hh
    have h3' : ¬ ((s.at t).ring n).halted = true := by show ¬ (s.ring n).halted = true; rw [h3]; decide
    have E : ∀ b, (s.at t).doorbell n true b = (
        if s.ringSize n < (tail + 2 ^ 32 - (s.ring n).sqHead % 2 ^ 32) % 2 ^ 32 then ((s.at t).setRing n { s.ring n with reading := none }).stopRing n 1 else
        if s.ringSize n < ((s.ring n).cqTail % 2 ^ 32 + 2 ^ 32 - head) % 2 ^ 32 then ((s.at t).setRing n { s.ring n with reading := none }).stopRing n 2 else
        ((((s.at t).setRing n { s.ring n with reading := none }).setRing n
          { ((s.at t).setRing n { s.ring n with reading := none }).ring n with cqHead := (s.ring n).cqTail - ((s.ring n).cqTail % 2 ^ 32 + 2 ^ 32 - head) % 2 ^ 32 }).fetchUpTo n tail b
            ((tail + 2 ^ 32 - (s.ring n).sqHead % 2 ^ 32) % 2 ^ 32))) := by
      intro b
      unfold State.doorbell
      dsimp only
      rw [if_neg c, if_neg h3', if_neg (by decide), ht, hh, ha]
      rfl
    have R1 : ∀ x, ((s.at t).setRing n x).ring n = x := fun x => by rw [ring_set, if_pos rfl]
    refine ⟨fun b k => ⟨_, congrArg Host.Outcome.next ((E b).trans (if_pos k)), by rw [stopRing_ring, R1]⟩,
      fun b k1 k2 => ⟨_, congrArg Host.Outcome.next ((E b).trans ((if_neg (by omega)).trans (if_pos k2))), by rw [stopRing_ring, R1]⟩, ?_⟩
    intro r' k1 hr
    have S2 : ((s.at t).setRing n { s.ring n with reading := none }).setRing n
        { ((s.at t).setRing n { s.ring n with reading := none }).ring n with cqHead := (s.ring n).cqTail - ((s.ring n).cqTail % 2 ^ 32 + 2 ^ 32 - head) % 2 ^ 32 } =
        ((s.at t).setRing n { s.ring n with reading := none }).setRing n r' := by
      rw [R1, hr]
    refine ⟨fun b k2 => ?_, fun k2 k3 k4 k5 k6 => ?_⟩
    · refine ⟨_, congrArg Host.Outcome.next ((E b).trans ((if_neg (by omega)).trans (if_neg (by omega)))), ?_⟩
      rw [S2, k2]
      show (State.setRing _ n r').ring n = r'
      rw [ring_set, if_pos rfl]
    · have sz : 1 ≤ s.ringSize n := Nat.one_le_two_pow
      refine ⟨_, congrArg Host.Outcome.next ((E true).trans ((if_neg (by omega)).trans (if_neg (by omega)))), ?_⟩
      rw [S2, k2, setRing_two]
      have tl : tail < 2 ^ 32 → (s.ring n).sqHead % 2 ^ 32 ≠ tail := by
        intro lt e
        rw [← e] at k2
        omega
      have lt : tail < 2 ^ 32 := by rw [ht]; exact num_lt ..
      have zr : ((s.at t).setRing n r').ring n = r' := R1 r'
      have F := fetch_one ((s.at t).setRing n r') n tail (by rw [zr, hr]; exact tl lt) k3 k4 k5 k6
      rw [zr] at F
      refine ⟨F.1.trans ?_, F.2.trans ?_⟩
      · rw [hr]
      · rw [hr]; rfl

end Sys2Proof
end

