-- ==== Sys2Proof/Laws/Enables.lean ====
section
/-! SUPPORT. Steps of the commands of one kind: enables of units. -/

namespace Sys2Proof.Machine


theorem State.plainEnable_regs (s : State) (k : Nat) (a b : Bool) : (s.plainEnable k a b).regs = s.regs := (State.plainEnable_touches ..).keeps .regs rfl

theorem getF_setF_lt (w : Word) (h l v : Nat) (hh : h < 32) (hl : l ≤ h) (hv : v < 2 ^ (h - l + 1)) : getF (setF w h l v) h l = v := by
  rw [getF_setF _ _ _ _ hh hl, Nat.mod_eq_of_lt hv]

theorem State.wrTone_enable (s : State) (k n : Nat) (w : Word) (v : Nat) (hv : v < 2) : (s.wrTone k n (setF w 31 31 v)).fld (.outToneCtl k n) 31 31 = v := by
  have e : getF (setF w 31 31 v) 31 31 = v := getF_setF_lt _ _ _ _ (by decide) (by decide) hv
  unfold State.wrTone
  rw [State.fld_congr (State.plainEnable_regs ..), State.fld_congr ((State.notePhases_touches ..).keeps .regs rfl)]
  simp [State.writeFields, RegId.hasProfile, RegId.profileOf, profileSettings, mergeX_plain (fun _ => rfl : ∀ x, (RegId.outToneCtl k n).unused x = 0), RegId.fields, Field.allows, RegId.extraOk, getF_setF_ne, e, getF_setF_lt, hv]

theorem State.wrOut_enable (s : State) (k o b : Nat) (w : Word) (r : RegId) (hr : r.off = (outReg k o).off) (rr : r = outReg k o) :
   (s.wrOut k o w b).fld r 0 0 = getF ((outReg k o).mergeX (s.reg (outReg k o)) w) 0 0 := by
  subst rr
  unfold State.wrOut
  dsimp only
  rw [State.fld_congr ((State.outEnable_touches ..).keeps .regs rfl), State.fld_congr ((State.wrRange_touches ..).keeps .regs rfl)]
  have : ∀ (a : State) (c : Prop) [Decidable c] (x : Out), (if c then a.setOut k o x else a).fld (outReg k o) 0 0 = a.fld (outReg k o) 0 0 := by
    intro a c _ x; split_ifs <;> rfl
  rw [this, State.fld_setFld_apart _ _ _ _ _ _ _ (by decide) (by decide) (by decide)]
  simp

theorem State.wrOut_rf_enable (s : State) (k n b : Nat) (hn : n < 6) (w : Word) (v : Nat) (hv : v < 2) : (s.wrOut k n (setF w 0 0 v) b).fld (.outRfOut k n) 0 0 = v := by
  have e : getF (setF w 0 0 v) 0 0 = v := getF_setF_lt _ _ _ _ (by decide) (by decide) hv
  have er : RegId.outRfOut k n = outReg k n := by simp [outReg, hn]
  rw [State.wrOut_enable _ _ _ _ _ _ (by rw [er]) er, ← er]
  simp [mergeX_plain (fun _ => rfl : ∀ x, (RegId.outRfOut k n).unused x = 0), RegId.fields, Field.allows, RegId.extraOk, getF_setF_ne, e, getF_setF_lt, hv]

theorem State.wrOut_bb_enable (s : State) (k n b : Nat) (w : Word) (v : Nat) (hv : v < 2) : (s.wrOut k (6 + n) (setF w 0 0 v) b).fld (.outBbOut k n) 0 0 = v := by
  have e : getF (setF w 0 0 v) 0 0 = v := getF_setF_lt _ _ _ _ (by decide) (by decide) hv
  have er : RegId.outBbOut k n = outReg k (6 + n) := by simp [outReg]
  rw [State.wrOut_enable _ _ _ _ _ _ (by rw [er]) er, ← er]
  simp [mergeX_plain (fun _ => rfl : ∀ x, (RegId.outBbOut k n).unused x = 0), RegId.fields, Field.allows, RegId.extraOk, e, getF_setF_lt, hv]

theorem State.writeFields_inCtl_enable (s : State) (k n : Nat) (w : Word) (v : Nat) (hv : v < 2) : (s.writeFields (.acqInCtl k n) (setF w 0 0 v)).fld (.acqInCtl k n) 0 0 = v := by
  have e : getF (setF w 0 0 v) 0 0 = v := getF_setF_lt _ _ _ _ (by decide) (by decide) hv
  unfold State.writeFields
  have hp : (RegId.acqInCtl k n).hasProfile = true := rfl
  simp only [hp, if_true]
  split_ifs
  · simp [mergeX_plain (fun _ => rfl : ∀ x, (RegId.acqInCtl k n).unused x = 0), RegId.fields, Field.allows, RegId.extraOk, e, getF_setF_lt, hv]
  · simp only [profileSettings, List.foldl, State.applySetting]
    rw [State.fld_setFld_apart _ _ _ _ _ _ _ (by decide) (by decide) (by decide), State.fld_setFld_apart _ _ _ _ _ _ _ (by decide) (by decide) (by decide)]
    simp [mergeX_plain (fun _ => rfl : ∀ x, (RegId.acqInCtl k n).unused x = 0), RegId.fields, Field.allows, RegId.extraOk, e, getF_setF_lt, hv]

theorem State.wrInCtl_enable (s : State) (k n b : Nat) (w : Word) (v : Nat) (hv : v < 2) : (s.wrInCtl k n (setF w 0 0 v) b).fld (.acqInCtl k n) 0 0 = v := by
  have e : getF (setF w 0 0 v) 0 0 = v := getF_setF_lt _ _ _ _ (by decide) (by decide) hv
  unfold State.wrInCtl
  dsimp only
  rw [State.fld_congr (State.plainEnable_regs ..)]
  have h1 : ∀ (c : Prop) [Decidable c] (a : State) x, (if c then a.calAbort x else a).fld (.acqInCtl k n) 0 0 = a.fld (.acqInCtl k n) 0 0 := by
    intro c _ a x; split_ifs
    · exact State.fld_congr ((State.calAbort_touches ..).keeps .regs rfl) _ _ _
    · rfl
  rw [h1]
  split_ifs
  · rw [State.fld_congr ((State.unhold_touches ..).keeps .regs rfl)]; exact State.writeFields_inCtl_enable _ _ _ _ _ hv
  · rw [State.fld_congr ((State.hold_touches ..).keeps .regs rfl), State.fld_setFld _ _ _ _ _ (by decide) (by decide), e]; omega
  · rw [State.fld_congr ((State.startSettle_touches ..).keeps .regs rfl), State.fld_congr ((State.unhold_touches ..).keeps .regs rfl)]; exact State.writeFields_inCtl_enable _ _ _ _ _ hv

theorem State.writeFields_monCtl_enable (s : State) (n : Nat) (w : Word) (v : Nat) (hv : v < 2) : (s.writeFields (.monCtl n) (setF w 0 0 v)).fld (.monCtl n) 0 0 = v := by
  have e : getF (setF w 0 0 v) 0 0 = v := getF_setF_lt _ _ _ _ (by decide) (by decide) hv
  unfold State.writeFields
  have hp : (RegId.monCtl n).hasProfile = true := rfl
  simp only [hp, if_true]
  split_ifs
  · simp [mergeX_plain (fun _ => rfl : ∀ x, (RegId.monCtl n).unused x = 0), RegId.fields, Field.allows, RegId.extraOk, e, getF_setF_lt, hv, getF_setF_ne]
  · simp only [profileSettings, List.foldl, State.applySetting]
    iterate 6 rw [State.fld_setFld_apart _ _ _ _ _ _ _ (by decide) (by decide) (by decide)]
    simp [mergeX_plain (fun _ => rfl : ∀ x, (RegId.monCtl n).unused x = 0), RegId.fields, Field.allows, RegId.extraOk, e, getF_setF_lt, hv, getF_setF_ne]

theorem State.wrMonCtl_enable (s : State) (n : Nat) (w : Word) (v : Nat) (hv : v < 2) : (s.wrMonCtl n (setF w 0 0 v)).fld (.monCtl n) 0 0 = v := by
  unfold State.wrMonCtl
  dsimp only
  rw [State.fld_congr (State.plainEnable_regs ..)]
  exact State.writeFields_monCtl_enable _ _ _ _ hv

/-- A write held for a strand that is not ungated sets the ENABLE bit it holds at once (R30, R421). -/
theorem State.earlyEnable_enable (a : State) (k : Nat) (r : RegId) (w : Word) (b : Nat) (o : Option Nat) (he : r.enable = some (b, o)) (hb : b < 32) :
    (a.earlyEnable k r w).fld r b b = getF w b b := by
  unfold State.earlyEnable
  simp only [he]
  have h := State.fld_setFld a r b b (getF w b b) hb (le_refl _)
  cases o with
  | none => dsimp only; rw [State.fld_congr (State.plainEnable_regs ..), h]; have := getF_lt w b b; simp at this ⊢; omega
  | some o =>
    dsimp only
    rw [State.fld_congr ((State.outEnable_touches ..).keeps .regs rfl), h]; have := getF_lt w b b; simp at this ⊢; omega

/-- A write to a strand under no reset gives its unit the ENABLE of the written word, gated or not (R57, R421). -/
theorem State.strandWrite_enable (s a : State) (t : BitVec 64) (h0 : a = s.upTo t) (k : Nat) (r : RegId) (w : Word) (f : State → Word → State)
    (b : Nat) (o : Option Nat) (he : r.enable = some (b, o)) (hb : b < 32) (v : Nat) (hv : v < 2)
    (h : a.blocksUp = true) (ha : a.absent r.off = false) (hr : (a.strand k).rst = none)
    (hf : ((f a (setF w b b v)).fld r b b) = v) :
    (s.strandWrite t k r (setF w b b v) f).fld r b b = v := by
  subst h0
  rw [State.strandWrite, State.blockWrite_up s t r _ (by simpa using h) (by simpa using ha)]
  unfold State.toStrand
  dsimp only
  split_ifs with h1 h2
  · exact hf
  · rw [State.earlyEnable_enable _ _ _ _ _ _ he hb]
    rw [getF_setF _ _ _ _ hb (le_refl _)]
    simp; omega
  · simp [hr] at h2

end Sys2Proof.Machine
end

