-- ==== Sys2Proof/Laws/Epochs.lean ====
section
/-! SUPPORT. Steps of the commands of one kind: the epoch and SYNC_CTL. -/

namespace Sys2Proof

open Sys2Proof.Machine

/-- With a valid REF_IN the choice of the source leaves the load, the calibration of the skew, the mode, the clock and the
registers alone (R252). -/
theorem selectRef_keeps (a : State) (h : a.sync.refValid = true) : a.selectRef.sync.armed = a.sync.armed ∧
    a.selectRef.sync.skew = a.sync.skew ∧ a.selectRef.mode.mode = a.mode.mode ∧ a.selectRef.now = a.now ∧ a.selectRef.regs = a.regs := by
  refine ⟨?_, ?_, (modeIs.selectRef (m := a.mode.mode) (e := a.mode.entryTime) ⟨rfl, rfl⟩).1,
    (State.selectRef_touches a).keeps .now rfl, (State.selectRef_touches a).keeps .regs rfl⟩ <;>
  · unfold State.selectRef
    dsimp only
    generalize (if a.fld .syncCtl 9 8 = 0 then a.sync.refValid else decide (a.fld .syncCtl 9 8 = 1)) = b
    rw [if_neg (by split_ifs <;> simp [State.setSync, h])]
    split_ifs <;> first | rfl | (rw [sync_of (State.evalHold_touches _) rfl]; done) | (rw [sync_of (State.evalHold_touches _) rfl]; rfl)

theorem wrSyncCtl_ready (a : State) (w : Word) (hm : a.mode.mode = .ready) (hp : getF w 31 24 = 0xFF) (h11 : getF w 11 10 ≠ 3) (hv : a.sync.refValid = true) :
    ∃ z : State, a.wrSyncCtl w = (
      let s3 := if getF w 2 2 = 1 then z.startSkew else z
      let s4 := if getF w 1 1 = 1 then s3.setSync { s3.sync with armed := none } else s3
      if getF w 0 0 = 1 then s4.armLoad else s4) ∧ z.mode.mode = .ready ∧ z.sync.armed = a.sync.armed ∧ z.sync.skew = a.sync.skew ∧
      z.now = a.now ∧ z.fld .syncCtl 11 10 = getF w 11 10 ∧ z.reg64 .syncLoadLo .syncLoadHi = a.reg64 .syncLoadLo .syncLoadHi := by
  have e : a.writeFields .syncCtl w = a.setReg .syncCtl (RegId.mergeX .syncCtl (a.reg .syncCtl) w) := by
    have cd : RegId.codeOf .syncCtl (a.reg .syncCtl) w = 0xFF := by
      unfold RegId.codeOf
      have : (RegId.fields .syncCtl).find? (fun f => decide (f.lo = 24)) = some ⟨31, 24, .rw, 0, [(0, 2), (255, 255)]⟩ := rfl
      rw [this]
      dsimp only
      rw [hp]; rfl
    unfold State.writeFields
    dsimp only
    rw [cd]; rfl
  have f11 : getF (RegId.mergeX .syncCtl (a.reg .syncCtl) w) 11 10 = getF w 11 10 := by
    have l4 : getF w 11 10 < 4 := getF_lt w 11 10
    refine mergeX_fld .syncCtl _ w ⟨11, 10, .rw, 0, [(0, 2)]⟩ (by decide) rfl ?_ ?_ (by decide) (by decide) (fun _ => rfl)
    · show Field.allows ⟨11, 10, .rw, 0, [(0, 2)]⟩ (getF w 11 10) = true
      generalize getF w 11 10 = v at *
      interval_cases v <;> first | rfl | omega
    · rfl
  unfold State.wrSyncCtl
  rw [e]
  dsimp only
  rw [hm, if_pos rfl]
  generalize hz : (a.setReg .syncCtl (RegId.mergeX .syncCtl (a.reg .syncCtl) w)).unhold .syncCtl = z
  have z11 : z.fld .syncCtl 11 10 = getF w 11 10 := by rw [← hz, ← f11]; exact State.fld_setReg ..
  have zs : z.sync = a.sync := by rw [← hz]; rfl
  have zm : z.mode = a.mode := by rw [← hz]; rfl
  have zn : z.now = a.now := by rw [← hz]; rfl
  have zl : z.reg64 .syncLoadLo .syncLoadHi = a.reg64 .syncLoadLo .syncLoadHi := by
    rw [← hz]
    have : ∀ r : RegId, r.off ≠ RegId.syncCtl.off → ((a.setReg .syncCtl (RegId.mergeX .syncCtl (a.reg .syncCtl) w)).unhold .syncCtl).reg r = a.reg r := by
      intro r h
      show (a.setReg .syncCtl (RegId.mergeX .syncCtl (a.reg .syncCtl) w)).reg r = a.reg r
      exact State.reg_setReg_ne _ _ _ _ h
    unfold State.reg64
    rw [this _ (by decide), this _ (by decide)]
  obtain ⟨e1, e2, e3, e4, e5⟩ := selectRef_keeps z (by rw [zs]; exact hv)
  have er : ∀ r, z.selectRef.reg r = z.reg r := fun r => by simp only [State.reg, e5]
  refine ⟨_, rfl, ?_⟩
  split_ifs
  · exact ⟨by rw [zm]; exact hm, by rw [zs], by rw [zs], zn, z11, zl⟩
  · exact ⟨by rw [e3, zm]; exact hm, by rw [e1, zs], by rw [e2, zs], by rw [e4, zn], by rw [State.fld_congr e5, z11],
      by unfold State.reg64; rw [er, er]; exact zl⟩

theorem epochs_1 (s : State) (t : BitVec 64) : (∀ hi, s.blocksUp = true →
    (s.mode.mode = .ready → ∃ u, exec (.epochWrite t hi) s = .next u ∧ u.reg .syncEpochHi = hi ∧ u.reg .syncEpochLo = s.lowOf .syncEpochLo) ∧
    (s.mode.mode ≠ .ready → ∃ u, exec (.epochWrite t hi) s = .next u ∧ u.regs = s.regs ∧
      u.heldFor .syncEpochHi = some hi ∧ u.heldFor .syncEpochLo = some (s.lowOf .syncEpochLo))) := by
  intro hi hb
  refine ⟨fun hm => ⟨_, congrArg Host.Outcome.next (State.hubWrite_up _ _ _ hb), ?_⟩, fun hm => ⟨_, congrArg Host.Outcome.next (State.hubWrite_up _ _ _ hb), ?_⟩⟩
  · have m' : (s.at t).mode.mode = .ready := hm
    unfold State.wrEpochHi
    dsimp only
    rw [m', if_pos rfl]
    refine ⟨State.reg_setReg .., ?_⟩
    rw [State.reg_setReg_ne _ _ _ _ (by decide)]
    exact State.reg_setReg ..
  · have m' : ¬ (s.at t).mode.mode = .ready := hm
    unfold State.wrEpochHi
    dsimp only
    rw [if_neg m']
    have hh : ∀ (a : State) r w, (a.hold r w).heldFor r = some w := by
      intro a r w
      unfold State.hold State.heldFor
      dsimp only
      rw [List.find?_append]
      have : (a.held.filter (fun p => decide (p.1 ≠ r.off))).find? (fun p => decide (p.1 = r.off)) = none := by
        rw [List.find?_eq_none]; intro x hx; simpa using (List.mem_filter.1 hx).2
      rw [this]; simp
    refine ⟨rfl, hh _ _ _, ?_⟩
    have hn : ∀ (a : State) r q w, r.off ≠ q.off → (a.hold q w).heldFor r = a.heldFor r := by
      intro a r q w hne
      unfold State.hold State.heldFor
      dsimp only
      rw [List.find?_append]
      have e : [(q.off, w)].find? (fun p => decide (p.1 = r.off)) = none := by simp [Ne.symm hne]
      have e2 : (a.held.filter (fun p => decide (p.1 ≠ q.off))).find? (fun p => decide (p.1 = r.off)) = a.held.find? (fun p => decide (p.1 = r.off)) := by
        rw [List.find?_filter]
        congr 1; funext x
        by_cases hx : x.1 = r.off <;> simp [hx, hne]
      rw [e, e2]; simp
    rw [hn _ _ _ _ (by decide)]
    exact hh _ _ _

theorem epochs_2 (s : State) (t : BitVec 64) : (∀ w, s.blocksUp = true → s.mode.mode = .ready → s.sync.refValid = true → getF w 31 24 = 0xFF → getF w 11 10 ≠ 3 →
    (getF w 1 1 = 0 → getF w 2 2 = 0 → getF w 11 10 ≠ 0 →
      (s.reg64 .syncLoadLo .syncLoadHi % 160 = 0 →
        ∃ u, exec (.syncArm t w) s = .next u ∧ u.sync.armed = some (s.at t).now) ∧
      (s.reg64 .syncLoadLo .syncLoadHi % 160 ≠ 0 →
        ∃ u, exec (.syncArm t w) s = .next u ∧ u.sync.armed = s.sync.armed)) ∧
    (getF w 0 0 = 0 → getF w 2 2 = 0 → ∃ u, exec (.syncDisarm t w) s = .next u ∧ u.sync.armed = none) ∧
    (getF w 0 0 = 0 → getF w 1 1 = 0 → s.sync.skew = none →
      ∃ u, exec (.skewcal t w) s = .next u ∧ u.sync.skew = some (s.at t).now)) := by
  intro w hb hm hv hp h11
  have sf : ∀ n h l, n < 32 → l ≤ h → h < n ∨ n < l → h < 32 → getF (setF w n n 1) h l = getF w h l := fun n h l k1 k2 k3 k4 =>
    getF_setF_ne _ _ _ _ _ _ k1 le_rfl ⟨k2, k3⟩
  have s1 : ∀ n, n < 32 → getF (setF w n n 1) n n = 1 := fun n hn => by rw [getF_setF _ _ _ _ hn le_rfl]; simp
  have cf : ∀ n, n < 3 → (s.at t).mode.mode = .ready ∧ getF (setF w n n 1) 31 24 = 0xFF ∧ getF (setF w n n 1) 11 10 ≠ 3 := by
    intro n hn
    refine ⟨hm, ?_, ?_⟩ <;> rw [sf n _ _ (by omega) (by omega) (by omega) (by omega)] <;> assumption
  refine ⟨?_, ?_, ?_⟩
  · intro h1 h2 hr
    obtain ⟨c1, c2, c4⟩ := cf 0 (by decide)
    obtain ⟨z, e, zm, za, zs, zn, zr, zl⟩ := wrSyncCtl_ready (s.at t) (setF w 0 0 1) c1 c2 c4 hv
    rw [sf 0 2 2 (by decide) (by decide) (by decide) (by decide), h2, sf 0 1 1 (by decide) (by decide) (by decide) (by decide), h1, s1 0 (by decide)] at e
    rw [sf 0 11 10 (by decide) (by decide) (by decide) (by decide)] at zr
    simp only [Nat.zero_ne_one, if_false, if_true] at e
    have c : ¬ (z.mode.mode ≠ .ready ∨ z.fld .syncCtl 11 10 = 0) := by rw [zm, zr]; simp [hr]
    refine ⟨fun hl => ⟨_, (congrArg Host.Outcome.next (State.hubWrite_up _ _ _ hb)).trans (congrArg Host.Outcome.next e), ?_⟩,
      fun hl => ⟨_, (congrArg Host.Outcome.next (State.hubWrite_up _ _ _ hb)).trans (congrArg Host.Outcome.next e), ?_⟩⟩
    · unfold State.armLoad
      rw [if_neg c, if_neg (by rw [zl]; exact not_not_intro hl)]
      exact congrArg some zn
    · unfold State.armLoad
      rw [if_neg c, if_pos (by rw [zl]; exact hl)]
      unfold State.syncRefused
      rw [sync_of (State.raise_touches ..) rfl]
      exact za
  · intro h1 h2
    obtain ⟨c1, c2, c4⟩ := cf 1 (by decide)
    obtain ⟨z, e, zm, za, zs, zn, zr, zl⟩ := wrSyncCtl_ready (s.at t) (setF w 1 1 1) c1 c2 c4 hv
    rw [sf 1 2 2 (by decide) (by decide) (by decide) (by decide), h2, sf 1 0 0 (by decide) (by decide) (by decide) (by decide), h1, s1 1 (by decide)] at e
    simp only [Nat.zero_ne_one, if_false, if_true] at e
    exact ⟨_, (congrArg Host.Outcome.next (State.hubWrite_up _ _ _ hb)).trans (congrArg Host.Outcome.next e), rfl⟩
  · intro h1 h2 hk
    obtain ⟨c1, c2, c4⟩ := cf 2 (by decide)
    obtain ⟨z, e, zm, za, zs, zn, zr, zl⟩ := wrSyncCtl_ready (s.at t) (setF w 2 2 1) c1 c2 c4 hv
    rw [sf 2 1 1 (by decide) (by decide) (by decide) (by decide), h2, sf 2 0 0 (by decide) (by decide) (by decide) (by decide), h1, s1 2 (by decide)] at e
    simp only [Nat.zero_ne_one, if_false, if_true] at e
    refine ⟨_, (congrArg Host.Outcome.next (State.hubWrite_up _ _ _ hb)).trans (congrArg Host.Outcome.next e), ?_⟩
    unfold State.startSkew
    have k : (s.at t).sync.skew = none := hk
    rw [if_pos ⟨zm, by rw [zs, k]; rfl⟩]
    exact congrArg some zn

theorem epochs_3 (s : State) (t : BitVec 64) : (∀ (s0 : Nat) (rs : List Nat), s.sync.skew = some s0 →
    ∃ u, exec (.skewcalDone t rs) s = .next u ∧ u.sync.skew = none ∧ u.sync.pulses = s.sync.pulses + 1024 ∧
      (u.sync.skewFail = true ↔ rs.length < 1000 ∨ 16 < maxOf 0 rs - rs.foldl min (maxOf 0 rs)) ∧
      (u.sync.skewFail = false → u.sync.rtt = (rndNear (rs.foldl (· + ·) 0 : Nat) rs.length).toNat) ∧
      (u.sync.skewFail = true → u.sync.rtt = s.sync.rtt)) := by
  intro s0 rs h
  show ∃ u, execSkewcalDone t rs s = .next u ∧ _
  unfold execSkewcalDone
  rw [h]
  dsimp only
  split_ifs with c
  · refine ⟨_, rfl, ?_⟩
    rw [sync_of (State.raise_touches ..) rfl]
    exact ⟨rfl, rfl, iff_of_true rfl c, fun h => Bool.noConfusion h, fun _ => rfl⟩
  · exact ⟨_, rfl, rfl, rfl, iff_of_false (by intro h; cases h) c, fun _ => rfl, fun h => Bool.noConfusion h⟩

end Sys2Proof
end

