-- ==== Sys2Proof/Laws/Fabric.lean ====
section
/-! SUPPORT. Steps of the commands of one kind: the decision fabric. -/

namespace Sys2Proof

open Sys2Proof.Machine

theorem dec_of {l : List Part} {s t : State} (h : Touches l s t) (hl : l.contains .dec = false) : t.dec = s.dec := h.keeps .dec hl

theorem putImport_get (a : State) (p k : Nat) (w : Word) (hs : getF w 9 0 / 256 ≠ p) :
    Tab.get (a.putImport p k w).dec.imports (128 * p + k) {} = { valid := decide (getF w 31 31 = 1), slot := getF w 9 0, from' := 64 * (a.now / 64 + 1) } := by
  have m : RegId.mergeX (.decImport p k) (a.reg (.decImport p k)) w = setF (setF (a.reg (.decImport p k)) 31 31 (getF w 31 31)) 9 0 (getF w 9 0) := by
    have e1 : RegId.extraOk (.decImport p k) ⟨31, 31, .rw, 0, []⟩ (getF w 31 31) w = true := by simp [RegId.extraOk]
    have e2 : RegId.extraOk (.decImport p k) ⟨9, 0, .rw, 0, []⟩ (getF w 9 0) w = true := by simp [RegId.extraOk]; exact hs
    have a1 : Field.allows ⟨31, 31, .rw, 0, []⟩ (getF w 31 31) = true := rfl
    have a2 : Field.allows ⟨9, 0, .rw, 0, []⟩ (getF w 9 0) = true := rfl
    simp only [RegId.mergeX, RegId.fields, List.foldl, e1, e2, a1, a2, and_self, if_true]
    exact and_not_zero _
  unfold State.putImport State.enterImport
  dsimp only
  rw [m, Tab.get_put]
  have f1 : getF (setF (setF (a.reg (.decImport p k)) 31 31 (getF w 31 31)) 9 0 (getF w 9 0)) 31 31 = getF w 31 31 := by
    rw [getF_setF_ne _ _ _ _ _ _ (by decide) (by decide) (by decide), getF_setF _ _ _ _ (by decide) (by decide)]
    exact Nat.mod_eq_of_lt (getF_lt w 31 31)
  have f2 : getF (setF (setF (a.reg (.decImport p k)) 31 31 (getF w 31 31)) 9 0 (getF w 9 0)) 9 0 = getF w 9 0 := by
    rw [getF_setF _ _ _ _ (by decide) (by decide)]
    exact Nat.mod_eq_of_lt (getF_lt w 9 0)
  simp only [State.fld_setReg, f1, f2, State.setReg_now]

end Sys2Proof
end

