-- ==== Sys2Proof/Laws/FlowWords.lean ====
section
/-! SUPPORT. Steps of the commands of one kind: flow words. -/

namespace Sys2Proof

open Sys2Proof.Machine

/-- The state in which a word that issues has begun: what was due before it has been done, and the word has been read. -/
def State.begun (s : State) (c : Nat) : State :=
  (s.readyFor c).begin c ((s.readyFor c).fetch c).2 (nextWord (s.readyFor c) c) (nextTim (s.readyFor c) c)

theorem runFlow_issues (s : State) (c op : Nat) (f : Core → Nat → Nat → Option Core) (after : State → Core → Nat → Nat → State)
    (h : issues (s.readyFor c) c op) (y : Core)
    (hy : f ((State.begun s c).core c) (nextWord (s.readyFor c) c) (nextTim (s.readyFor c) c).t = some y) :
    s.runFlow c op f after =
      after ((State.begun s c).setCore c y) ((State.begun s c).core c) (nextWord (s.readyFor c) c) (nextTim (s.readyFor c) c).t := by
  unfold State.runFlow
  rw [State.runWord_issues _ _ _ _ h]
  exact (by rw [hy] : (match f ((State.begun s c).core c) _ _ with | none => _ | some y => _) = _)

/-- A core but for its shots, their marks and its deferral. -/
def State.besideShots (x y : Core) : Prop := ∃ sh ms df, x = { y with shots := sh, marks := ms, defer := df }

theorem raise_core (s : State) (e n m t l) (d : Nat) : (s.raise e n m t l).core d = s.core d := core_of (State.raise_touches ..) rfl d

theorem loseDeferral_core (s : State) (c t : Nat) : State.besideShots ((s.loseDeferral c t).core c) (s.core c) := by
  unfold State.loseDeferral
  split
  · exact ⟨_, _, _, rfl⟩
  · obtain ⟨ms, e⟩ := State.core_invalid ((s.setCore c { s.core c with defer := none }).raise .condLost c c t []) c t c
    rw [raise_core, State.core_setCore] at e
    unfold State.endInvalid
    simp only [State.core_setCore, e]
    exact ⟨_, _, _, rfl⟩

theorem endShots_core (s : State) (c d t : Nat) : State.besideShots ((s.endShots c d t).core c) (s.core c) := by
  unfold State.endShots
  simp only [State.core_setCore]
  split
  · obtain ⟨sh, ms, df, e⟩ := loseDeferral_core s c t
    rw [e]; exact ⟨_, _, _, rfl⟩
  · exact ⟨_, _, _, rfl⟩

theorem shotBight_core (x : Core) (t : Nat) : (x.shotBight t).bights = x.bights ∧ (x.shotBight t).pc = x.pc := by
  unfold Core.shotBight
  split
  · dsimp only; split_ifs <;> exact ⟨rfl, rfl⟩
  · exact ⟨rfl, rfl⟩

theorem afterEnd_core (s : State) (c : Nat) (old : Core) (t : Nat) :
    ((s.afterEndbight c old t).core c).bights = (s.core c).bights ∧ ((s.afterEndbight c old t).core c).pc = (s.core c).pc := by
  unfold State.afterEndbight
  split
  · exact ⟨rfl, rfl⟩
  · dsimp only
    rename_i b r _
    obtain ⟨sh, ms, df, e⟩ := endShots_core s c r.length t
    split_ifs <;> simp [e, Core.openShot]

/-- A condition that is not present changes of the core only its deferral and its marks (R88, R89). -/
theorem defer_core (s : State) (c w x : Nat) :
    ∃ ms, (s.deferCond c w x).core c =
      { s.core c with marks := ms, defer := (s.core c).defer.or (some { w := w, shot0 := (s.core c).shotStart }) } := by
  unfold State.deferCond
  cases h : (s.core c).defer with
  | some d =>
    obtain ⟨ms, e⟩ := State.core_invalid (s.raise .condLost c c x []) c x c
    refine ⟨ms, ?_⟩
    have g : (some d).or (some { w := w, shot0 := (s.core c).shotStart : Deferral }) = some d := rfl
    rw [g, ← h]
    simp only [Option.isSome_some, if_true, h, e, raise_core]
  | none =>
    refine ⟨(s.core c).marks, ?_⟩
    simp [raise_core]

end Sys2Proof
end

