-- ==== Sys2Proof/Laws/Gates.lean ====
section
/-! SUPPORT. Steps of the commands of one kind: strand gating, resets and ply clocks. -/

namespace Sys2Proof

open Sys2Proof.Machine

theorem clear_rest (s : State) (k c : Nat) (h : c / 8 = k) : coreAtRest ((s.clearCores k).core c) := by
  unfold State.clearCores
  rcases State.core_mapCores s (fun c x => if c / 8 = k then { uids := x.uids } else x) c with e | ⟨e, -⟩
  · rw [e]; simp [h, coreAtRest]
  · rw [e]; simp [coreAtRest]

theorem rest_clearWins (s : State) (k j c : Nat) (h : coreAtRest (s.core c)) : coreAtRest ((s.clearWins j).core c) := by
  have e : (s.clearWins j).core c = (s.mapCores (fun c x => if c / 8 = j then { x with shots := x.shots.map (fun y => { y with openW := 0 }) } else x)).core c := rfl
  rw [e]
  obtain ⟨h1, h2, h3, h4, h5⟩ := h
  rcases State.core_mapCores s (fun c x => if c / 8 = j then { x with shots := x.shots.map (fun y => { y with openW := 0 }) } else x) c with e | ⟨e, -⟩
  · rw [e]; split_ifs <;> simp [coreAtRest, h1, h2, h3, h4, h5]
  · rw [e]; simp [coreAtRest]

/-- A core at rest stays so under what may be noted on it. -/
theorem rest_noted {s t : State} (h : Noted s t) {c : Nat} (r : coreAtRest (s.core c)) : coreAtRest (t.core c) := by
  have e := h c
  obtain ⟨h1, h2, h3, h4, h5⟩ := r
  refine ⟨?_, ?_, ?_, ?_, ?_⟩
  · exact (congrArg Core.st e).trans h1
  · exact (congrArg Core.bights e).trans h2
  · exact (congrArg Core.calls e).trans h3
  · exact (congrArg Core.trigQ e).trans h4
  · have e5 := congrArg Core.shots e
    simp only [quiet, h5, List.map_nil, List.map_eq_nil_iff] at e5
    exact e5

theorem core_ungate {s t : State} {c : Nat} (h : t.cores = s.cores) : t.core c = s.core c := by simp [State.core, h]

theorem fold_due (l : List Nat) (s : State) : (l.foldl (fun a c => a.dueIfOld c a.now) s).now = s.now ∧ (l.foldl (fun a c => a.dueIfOld c a.now) s).strands = s.strands ∧ (l.foldl (fun a c => a.dueIfOld c a.now) s).regs = s.regs := by
  have := Touches.foldl (r := s) (l := [.convs]) (f := fun a c => a.dueIfOld c a.now) l (fun a x h => Touches.step (State.dueIfOld_touches ..) rfl h) (Touches.refl _ _)
  exact ⟨this.keeps .now rfl, this.keeps .strands rfl, this.keeps .regs rfl⟩

theorem strandOn_congr {s t : State} (h : t.regs = s.regs) (k : Nat) : t.strandOn k = s.strandOn k := by
  simp [State.strandOn, State.unitCount, State.outEnabled, State.fld_congr h]

theorem ungate_locked (s : State) (k p : Nat) (hk : k / 8 = p) (h : (s.ply p).st = .locked) : ((s.ungate k).ply p).st = .locked ∧ (s.ungate k).now = s.now := by
  subst hk
  unfold State.ungate
  rw [if_pos h]
  exact ⟨h, rfl⟩

theorem foldUngate (p : Nat) (l : List Nat) (hl : ∀ k ∈ l, k / 8 = p) (s : State) (h : (s.ply p).st = .locked) :
   ((l.foldl (fun a k => if (a.strand k).wantUn then a.ungate k else a) s).ply p).st = .locked ∧
   (l.foldl (fun a k => if (a.strand k).wantUn then a.ungate k else a) s).now = s.now := by
  induction l generalizing s with
  | nil => exact ⟨h, rfl⟩
  | cons k l ih =>
    have a := ungate_locked s k p (hl k (by simp)) h
    rw [List.foldl_cons]
    split_ifs
    · obtain ⟨x, y⟩ := ih (fun j hj => hl j (by simp [hj])) _ a.1
      exact ⟨x, y.trans a.2⟩
    · exact ih (fun j hj => hl j (by simp [hj])) _ h

theorem idle_locked (s : State) (p : Nat) (h : (s.ply p).st = .locked) : ((s.countIdle p).ply p).st = .locked := by
  unfold State.countIdle
  split_ifs
  · exact h
  · simp [h]

end Sys2Proof
end

