-- ==== Sys2Proof/Laws/Hitch.lean ====
section
/-! SUPPORT. Lanes and directions of the Hitch (chapter 09): what each operation leaves of them. -/

namespace Sys2Proof

open Sys2Proof.Machine

theorem hch_of {l : List Part} {s t : State} (h : Touches l s t) (hl : l.contains .hch = false) : t.hch = s.hch := h.keeps .hch hl

theorem lane_of {l : List Part} {s t : State} (h : Touches l s t) (hl : l.contains .hch = false) (i : Nat) : t.lane i = s.lane i := by simp [State.lane, hch_of h hl]

theorem hdir_of {l : List Part} {s t : State} (h : Touches l s t) (hl : l.contains .hch = false) (i : Nat) : t.hdir i = s.hdir i := by simp [State.hdir, hch_of h hl]

theorem lane_set (s : State) (l : Nat) (x : Lane) (i : Nat) : (s.setLane l x).lane i = if i = l then x else s.lane i := by
  unfold State.lane State.setLane
  dsimp only
  split_ifs with h
  · subst h; exact Tab.get_put ..
  · exact Tab.get_put_ne _ _ _ h

theorem hdir_set (s : State) (d : Nat) (x : HDir) (i : Nat) : (s.setHdir d x).hdir i = if i = d then x else s.hdir i := by
  unfold State.hdir State.setHdir
  dsimp only
  split_ifs with h
  · subst h; exact Tab.get_put ..
  · exact Tab.get_put_ne _ _ _ h

theorem lane_setHdir (s : State) (d : Nat) (x : HDir) (i : Nat) : (s.setHdir d x).lane i = s.lane i := rfl

theorem hdir_setLane (s : State) (d : Nat) (x : Lane) (i : Nat) : (s.setLane d x).hdir i = s.hdir i := rfl

/-- What an evaluation of health leaves alone in a lane and in a direction (R241 to R247). -/
def laneCore (x : Lane) : Bool × Nat × Bool × Bool := (x.lock, x.delay, x.noserv, x.rxIdle)

def dirCore (x : HDir) : Nat × Option Nat × HPath × HPath :=
  (x.peerSeen, x.quietFrom, { x.a with healthy := false }, { x.b with healthy := false })

structure hKeeps (s t : State) : Prop where
  lane : ∀ l, laneCore (t.lane l) = laneCore (s.lane l)
  dir : ∀ d, dirCore (t.hdir d) = dirCore (s.hdir d)

theorem hKeeps.refl (s : State) : hKeeps s s := ⟨fun _ => rfl, fun _ => rfl⟩

theorem hKeeps.trans {s t u : State} (a : hKeeps s t) (b : hKeeps t u) : hKeeps s u := ⟨fun l => (b.1 l).trans (a.1 l), fun d => (b.2 d).trans (a.2 d)⟩

theorem hKeeps.of {l : List Part} {s t : State} (h : Touches l s t) (hl : l.contains .hch = false) : hKeeps s t :=
  ⟨fun i => by rw [lane_of h hl], fun i => by rw [hdir_of h hl]⟩

theorem hKeeps.set {s a : State} (d : Nat) (x : HDir) (ha : hKeeps s a) (h : dirCore x = dirCore (a.hdir d)) : hKeeps s (a.setHdir d x) :=
  ha.trans { lane := fun _ => rfl, dir := fun i => by rw [hdir_set]; split_ifs with e <;> simp [*] }

theorem hKeeps.raise {s a : State} (e : Ev) (n m t : Nat) (as : List Word) (ha : hKeeps s a) : hKeeps s (a.raise e n m t as) :=
  ha.trans (hKeeps.of (State.raise_touches ..) rfl)

theorem hKeeps.holdDir {s a : State} (d : Nat) (ha : hKeeps s a) : hKeeps s (a.holdDir d) := ha.trans (hKeeps.of (State.holdDir_touches ..) rfl)

theorem wakeLane_hdir (s : State) (l i : Nat) : (s.wakeLane l).hdir i = s.hdir i := by
  unfold State.wakeLane; split_ifs <;> rfl

theorem idleLane_hdir (s : State) (l i : Nat) : (s.idleLane l).hdir i = s.hdir i := by
  unfold State.idleLane; split_ifs <;> rfl

theorem wakeLane_lane (s : State) (l i : Nat) : (s.wakeLane l).lane i =
    if i = l ∧ (s.lane l).idle = true then { s.lane l with idle := false, burst := s.now } else s.lane i := by
  unfold State.wakeLane
  by_cases h : (s.lane l).idle = false
  · rw [if_pos h, if_neg (by rw [h]; simp)]
  · rw [if_neg h]
    have h' : (s.lane l).idle = true := by simpa using h
    refine (lane_set ..).trans ?_
    by_cases e : i = l
    · rw [if_pos e, if_pos ⟨e, h'⟩]
    · rw [if_neg e, if_neg (fun c => e c.1)]

theorem idleLane_lane (s : State) (l i : Nat) : (s.idleLane l).lane i = if i = l then { s.lane l with idle := true } else s.lane i := by
  unfold State.idleLane
  by_cases h : (s.lane l).idle = true
  · rw [if_pos h]
    split_ifs with e
    · subst e; rw [← h]
    · rfl
  · rw [if_neg h]
    exact lane_set ..

theorem hKeeps.ite {p : Prop} [Decidable p] {s a b : State} (ha : hKeeps s a) (hb : hKeeps s b) : hKeeps s (if p then a else b) := by
  split_ifs <;> assumption

theorem hKeeps.foldl {α : Type} {s a : State} {f : State → α → State} (l : List α) (hf : ∀ z x, hKeeps z (f z x)) (ha : hKeeps s a) :
    hKeeps s (l.foldl f a) := by
  induction l generalizing a with
  | nil => exact ha
  | cons x l ih => exact ih (ha.trans (hf a x))

theorem hKeeps.bIdle {s a : State} (d : Nat) (b : Bool) (ha : hKeeps s a) : hKeeps s (a.setBIdle d b) := by
  refine hKeeps.foldl _ (fun z x => ?_) ha
  refine hKeeps.ite ⟨fun i => ?_, fun i => by rw [idleLane_hdir]⟩ ⟨fun i => ?_, fun i => by rw [wakeLane_hdir]⟩
  · rw [idleLane_lane]; split_ifs with e
    · subst e; rfl
    · rfl
  · rw [wakeLane_lane]; split_ifs with e
    · rw [e.1]; rfl
    · rfl

theorem hKeeps.splice {s a : State} (d c t : Nat) (ha : hKeeps s a) : hKeeps s (a.splice d c t) := by
  unfold State.splice
  with_reducible apply hKeeps.raise
  with_reducible apply hKeeps.bIdle
  exact ha

theorem hKeeps.revert {s a : State} (d t : Nat) (ha : hKeeps s a) : hKeeps s (a.revert d t) := by
  unfold State.revert
  with_reducible apply hKeeps.raise
  exact ha.set _ _ rfl

theorem eachServed_keeps (s : State) (d c : Nat) (f : Nat → HBit → HBit) : hKeeps s (s.eachServed d c f) := by
  unfold State.eachServed
  exact hKeeps.foldl _ (fun z x => by dsimp only; split_ifs <;> exact ⟨fun _ => rfl, fun _ => rfl⟩) (hKeeps.refl s)

theorem putTx_keeps (s : State) (d c j : Nat) (p : Option Nat) : hKeeps s (s.putTx d c j p) := by
  unfold State.putTx
  exact hKeeps.foldl _ (fun z x => ⟨fun _ => rfl, fun _ => rfl⟩) (hKeeps.refl s)

theorem relay_keeps (s : State) (d c j : Nat) (p : Option Nat) : hKeeps s (s.relay d c j p) := by
  unfold State.relay
  refine hKeeps.foldl _ (fun z x => ?_) (hKeeps.refl s)
  dsimp only
  split_ifs
  · exact putTx_keeps ..
  · exact hKeeps.refl _

theorem hKeeps.deliver {s a : State} (d c j p : Nat) (ha : hKeeps s a) : hKeeps s (a.deliver d c j p) := by
  unfold State.deliver
  dsimp only
  split_ifs
  · exact ha
  · exact (ha.trans (eachServed_keeps ..)).set _ _ rfl

theorem hKeeps.takeSwitch {s a : State} (d : Nat) (ha : hKeeps s a) : hKeeps s (a.takeSwitch d) := by
  unfold State.takeSwitch
  dsimp only
  split
  · split
    · split_ifs
      · exact ha
      · exact hKeeps.foldl _ (fun z x => ((relay_keeps ..)).deliver _ _ _ _) (ha.set _ _ rfl)
    · exact ha.set _ _ rfl
    · exact ha
  · split
    · exact ha
    · split_ifs
      · exact ha
      · with_reducible apply hKeeps.splice
        exact ha.set _ _ rfl
      · exact ha.revert _ _

theorem hKeeps.evalHealth {s a : State} (d c : Nat) (ha : hKeeps s a) : hKeeps s (a.evalHealth d c) := by
  unfold State.evalHealth
  dsimp only
  generalize hx : a.setHdir d _ = s1
  have h1 : hKeeps s s1 := by rw [← hx]; exact ha.set _ _ rfl
  repeat' (first
    | with_reducible exact h1
    | with_reducible apply hKeeps.ite
    | with_reducible apply hKeeps.raise
    | with_reducible apply hKeeps.holdDir
    | with_reducible apply hKeeps.takeSwitch
    | with_reducible apply hKeeps.splice
    | with_reducible apply hKeeps.revert
    | exact h1.set _ _ rfl)

theorem hKeeps.mark {s t : State} (h : hKeeps s t) (d : Nat) (b : Bool) : ((t.hdir d).path b).markOk = ((s.hdir d).path b).markOk := by
  have kd := h.dir d
  simp only [dirCore, Prod.mk.injEq] at kd
  cases b
  · have := congrArg HPath.markOk kd.2.2.1; exact this
  · have := congrArg HPath.markOk kd.2.2.2; exact this

theorem bIdle_idle (s : State) (d : Nat) (b : Bool) : ∀ l ∈ pathLanes d true, ((s.setBIdle d b).lane l).idle = b := by
  intro l hl
  simp only [pathLanes, if_true, List.mem_cons, List.not_mem_nil, or_false] at hl
  unfold State.setBIdle
  cases b
  · simp only [pathLanes, if_true, List.foldl, Bool.false_eq_true, if_false, wakeLane_lane]
    rcases hl with rfl | rfl
    · split_ifs <;> simp_all
    · split_ifs <;> simp_all
  · simp only [pathLanes, if_true, List.foldl, idleLane_lane]
    rcases hl with rfl | rfl <;> simp

theorem bIdle_dir (s : State) (d e : Nat) (b : Bool) : (s.setBIdle d b).hdir e = s.hdir e := by
  unfold State.setBIdle
  cases b <;> simp [pathLanes, wakeLane_hdir, idleLane_hdir]

theorem measure_lane (s : State) (l x i : Nat) : (s.measure l x).lane i = if i = l then { s.lane l with delay := min x 1023, noserv := decide (416 < x) } else s.lane i := by
  unfold State.measure
  dsimp only
  split_ifs <;> simp_all [lane_of (State.raise_touches ..) rfl, lane_set]

theorem measure_dir (s : State) (l x i : Nat) : (s.measure l x).hdir i = s.hdir i := by
  unfold State.measure
  dsimp only
  split_ifs <;> simp [hdir_of (State.raise_touches ..) rfl, hdir_setLane]

theorem fold_lane (P : Lane → Prop) (f : Lane → Lane) (hf : ∀ x, P (f x)) (ls : List Nat) (s : State) (l : Nat) (hl : l ∈ ls) :
    P ((ls.foldl (fun a l => a.setLane l (f (a.lane l))) s).lane l) := by
  have key : ∀ (ls : List Nat) (s : State), (P (s.lane l) ∨ l ∈ ls) → P ((ls.foldl (fun a l => a.setLane l (f (a.lane l))) s).lane l) := by
    intro ls
    induction ls with
    | nil => intro s h; rcases h with h | h; exact h; cases h
    | cons x ls ih =>
      intro s h
      refine ih _ ?_
      rw [lane_set]
      split_ifs with e
      · left; exact hf _
      · rcases h with h | h
        · left; exact h
        · right; exact (List.mem_cons.1 h).resolve_left e
  exact key ls s (.inr hl)

theorem dirCtl_on (s : State) (d : Nat) (w : Word) (h : getF w 0 0 = 1) : (s.writeFields (.hchDirCtl d) w).fld (.hchDirCtl d) 0 0 = 1 := by
  have m : ∃ v, RegId.mergeX (.hchDirCtl d) (s.reg (.hchDirCtl d)) w = setF v 0 0 1 := by
    have e1 : RegId.extraOk (.hchDirCtl d) ⟨0, 0, .rw, 0, []⟩ 1 w = true := rfl
    have a1 : Field.allows ⟨0, 0, .rw, 0, []⟩ 1 = true := rfl
    simp only [mergeX_plain (fun _ => rfl : ∀ x, (RegId.hchDirCtl d).unused x = 0), RegId.fields, List.foldl, h, e1, a1, and_self, if_true]
    exact ⟨_, rfl⟩
  obtain ⟨v, m⟩ := m
  have k : (s.setReg (.hchDirCtl d) (setF v 0 0 1)).fld (.hchDirCtl d) 0 0 = 1 := by
    rw [State.fld_setReg, getF_setF _ _ _ _ (by decide) (by decide)]; rfl
  unfold State.writeFields
  dsimp only
  rw [m]
  split_ifs
  · exact k
  · simp only [profileSettings, List.foldl, State.applySetting]
    rw [State.fld_setFld_apart _ _ _ _ _ _ _ (by decide) (by decide) (by decide), State.fld_setFld_apart _ _ _ _ _ _ _ (by decide) (by decide) (by decide)]
    exact k
  · exact k

end Sys2Proof
end

