-- ==== Sys2Proof/Laws/HitchFrames.lean ====
section
/-! SUPPORT. Steps of the commands of one kind: Hitch frames and splices. -/

namespace Sys2Proof

open Sys2Proof.Machine

theorem foldl_hit {α : Type} (K P : State → Prop) (f : State → α → State) (d : α) (l : List α) (hK : ∀ a x, K a → K (f a x))
    (hP : ∀ a x, K a → x ∈ l → x ≠ d → P a → P (f a x)) (hd : ∀ a, K a → P (f a d)) :
    ∀ (a : State), K a → (P a ∨ d ∈ l) → P (l.foldl f a) := by
  induction l with
  | nil => intro a _ h; rcases h with h | h; exact h; cases h
  | cons x l ih =>
    intro a k h
    refine ih (fun a y ka hy => hP a y ka (.tail _ hy)) _ (hK _ _ k) ?_
    by_cases e : x = d
    · subst e; exact .inl (hd _ k)
    · rcases h with h | h
      · exact .inl (hP _ _ k (.head _) e h)
      · exact .inr ((List.mem_cons.1 h).resolve_left (fun q => e q.symm))

/-- A state with nothing put into its frames. -/
def unsent (a : State) : State := { a with hch := { a.hch with tx := [], txMark := [], txStatus := [] } }

theorem unsent_foldl {α : Type} {f : State → α → State} (hf : ∀ a x, unsent (f a x) = unsent a) (l : List α) (a : State) :
    unsent (l.foldl f a) = unsent a := by
  induction l generalizing a with
  | nil => rfl
  | cons x l ih => exact (ih _).trans (hf a x)

theorem unsent_putTx (a : State) (d c j : Nat) (p : Option Nat) : unsent (a.putTx d c j p) = unsent a := by
  unfold State.putTx
  refine unsent_foldl ?_ _ a
  exact fun _ _ => rfl

theorem unsent_sendPos (a : State) (d c j : Nat) : unsent (a.sendPos d c j) = unsent a := by
  unfold State.sendPos
  dsimp only
  split_ifs
  · exact unsent_putTx ..
  · rfl
  · exact unsent_putTx ..

/-- What sending reads is in a state as in the same state with nothing sent. -/
theorem unsent_reads {a b : State} (h : unsent a = unsent b) (d c j : Nat) : a.dirOn d = b.dirOn d ∧ a.txMapAt (3 * d + c) j = b.txMapAt (3 * d + c) j ∧
    a.txLanes d c j = b.txLanes d c j ∧ a.now = b.now ∧ ∀ es, a.localContainer es j = b.localContainer es j := by
  have R : ∀ {β : Type} (g : State → β), (∀ z, g (unsent z) = g z) → g a = g b := fun g hg => by rw [← hg a, h, hg b]
  exact ⟨R (·.dirOn d) (fun _ => rfl), R (·.txMapAt (3 * d + c) j) (fun _ => rfl), R (·.txLanes d c j) (fun _ => rfl), R (·.now) (fun _ => rfl),
    fun es => R (·.localContainer es j) (fun _ => rfl)⟩

theorem get?_put_ne {α : Type} (l : Tab α) (k n : Nat) (v : α) (h : n ≠ k) : Tab.get? (Tab.put l k v) n = Tab.get? l n := by
  induction l with
  | nil => simp [Tab.put, Tab.get?, Ne.symm h]
  | cons p l ih =>
    obtain ⟨j, u⟩ := p
    simp only [Tab.put]
    split_ifs with h1 h2
    · simp [Tab.get?, Ne.symm h]
    · subst h2; simp [Tab.get?, Ne.symm h]
    · simp [Tab.get?, ih]

/-- A container is put into its place on each of its lanes. -/
theorem putTx_at (a : State) (d c j : Nat) (p : Option Nat) (l : Nat) (hl : l ∈ a.txLanes d c j) :
    Tab.get? (a.putTx d c j p).hch.tx (66 * l + placeOf j c) = some (j, p) := by
  unfold State.putTx
  generalize a.txLanes d c j = ls at hl
  have key : ∀ (ls : List Nat) (z : State), Tab.get? z.hch.tx (66 * l + placeOf j c) = some (j, p) ∨ l ∈ ls →
      Tab.get? (ls.foldl (fun a l => { a with hch := { a.hch with tx := Tab.put a.hch.tx (66 * l + placeOf j c) (j, p) } }) z).hch.tx (66 * l + placeOf j c) = some (j, p) := by
    intro ls
    induction ls with
    | nil => rintro z (h | h); exact h; cases h
    | cons x ls ih =>
      intro z h
      refine ih _ ?_
      by_cases e : x = l
      · subst e; exact .inl (get?_put ..)
      · rcases h with h | h
        · left
          exact (get?_put_ne z.hch.tx (66 * x + placeOf j c) (66 * l + placeOf j c) (j, p) (by omega)).trans h
        · exact .inr ((List.mem_cons.1 h).resolve_left (fun q => e q.symm))
  exact key ls a (.inr hl)

/-- The place of a container on a lane names its direction's lane and its position. -/
theorem place_apart {d e : Nat} {c x j l m : Nat} (hc : c < 3) (hx : x < 3) (hl : l = 2 * d + laneOf j c ∨ l = 2 * d + 16 + laneOf j c)
    (hm : m = 2 * e + laneOf j x ∨ m = 2 * e + 16 + laneOf j x) (hd : d < 8) (he : e < 8) (ne : d ≠ e ∨ c ≠ x) :
    66 * m + placeOf j x ≠ 66 * l + placeOf j c := by
  have p1 : placeOf j c < 66 := by unfold placeOf; omega
  have p2 : placeOf j x < 66 := by unfold placeOf; omega
  have l1 : laneOf j c < 2 := by unfold laneOf; omega
  have l2 : laneOf j x < 2 := by unfold laneOf; omega
  intro h
  have lm : l = m := by omega
  have hp : placeOf j x = placeOf j c := by omega
  have hd : d = e := by omega
  have hlane : laneOf j c = laneOf j x := by omega
  unfold placeOf at hp
  unfold laneOf at hlane
  omega

theorem putTx_apart (a : State) (e x j : Nat) (p : Option Nat) (n : Nat)
    (h : ∀ m ∈ a.txLanes e x j, 66 * m + placeOf j x ≠ n) : Tab.get? (a.putTx e x j p).hch.tx n = Tab.get? a.hch.tx n := by
  unfold State.putTx
  generalize a.txLanes e x j = ls at h
  induction ls generalizing a with
  | nil => rfl
  | cons m ls ih =>
    rw [List.foldl_cons, ih _ (fun y hy => h y (.tail _ hy))]
    exact get?_put_ne a.hch.tx (66 * m + placeOf j x) n (j, p) (fun (q : n = _) => h m (.head _) q.symm)

theorem txLanes_mem {a : State} {d c j l : Nat} (h : l ∈ a.txLanes d c j) : l = 2 * d + laneOf j c ∨ l = 2 * d + 16 + laneOf j c := by
  unfold State.txLanes at h
  have := (List.mem_filter.1 h).1
  simpa using this

theorem sendMarks_rest (z : State) (e n : Nat) : unsent (z.sendMarks e n) = unsent z ∧ (z.sendMarks e n).hch.tx = z.hch.tx := by
  unfold State.sendMarks
  refine ⟨unsent_foldl (fun y x => by split_ifs <;> rfl) _ z, ?_⟩
  refine List.foldlRecOn (motive := fun y : State => y.hch.tx = z.hch.tx) _ _ rfl (fun y hy x _ => ?_)
  split_ifs
  · exact hy
  · exact hy

theorem sendStatus_rest (z : State) (e j m : Nat) : unsent (z.sendStatus e j m) = unsent z ∧ (z.sendStatus e j m).hch.tx = z.hch.tx := by
  unfold State.sendStatus
  dsimp only
  refine ⟨unsent_foldl (by exact fun _ _ => rfl) _ z, ?_⟩
  exact List.foldlRecOn (motive := fun y : State => y.hch.tx = z.hch.tx) _ _ rfl (fun y hy x _ => hy)

/-- What sending frame j does on direction d. -/
def sendDir (j : Nat) (a : State) (d : Nat) : State :=
  if a.dirOn d = false then a else
  let a1 := if (j + 1) % 44 = 0 then a.sendMarks d ((j + 1) / 44) else a
  let a2 := (List.range 3).foldl (fun b c => b.sendPos d c j) a1
  match mgmtAt ((j + 1) % 44) with
  | some m => a2.sendStatus d j m
  | none => a2

theorem sendFrame_eq (s : State) (j : Nat) : s.sendFrame j = (List.range 8).foldl (sendDir j) (s.toTime (atHub (64 * (j + 1)))) := rfl

/-- A direction's sending, reduced to that of its positions. -/
theorem sendDir_lift (j : Nat) (z : State) (e : Nat) (Q : State → Prop) (h0 : Q z)
    (hm : ∀ y n, Q y → Q (y.sendMarks e n)) (hs : ∀ y m, Q y → Q (y.sendStatus e j m))
    (hp : ∀ y, Q y → Q ((List.range 3).foldl (fun b c => b.sendPos e c j) y)) : Q (sendDir j z e) := by
  unfold sendDir
  dsimp only
  split_ifs
  · exact h0
  · split
    · exact hs _ _ (hp _ (hm _ _ h0))
    · exact hp _ (hm _ _ h0)
  · split
    · exact hs _ _ (hp _ h0)
    · exact hp _ h0

theorem sendDir_unsent (j : Nat) (z : State) (e : Nat) : unsent (sendDir j z e) = unsent z :=
  sendDir_lift j z e (fun y => unsent y = unsent z) rfl (fun y n h => (sendMarks_rest y e n).1.trans h)
    (fun y m h => (sendStatus_rest y e j m).1.trans h) (fun y h => (unsent_foldl (fun _ _ => unsent_sendPos ..) _ y).trans h)

/-- The place of position c of direction d on lane l holds container x. -/
def sentAt (d c j l : Nat) (x : Option Nat) (z : State) : Prop := Tab.get? z.hch.tx (66 * l + placeOf j c) = some (j, x)

theorem sendPos_apart {d : Fin 8} {c : Fin 3} {j l : Nat} {p : Option Nat} (hl : l = 2 * d.val + laneOf j c ∨ l = 2 * d.val + 16 + laneOf j c)
    {e x : Nat} (he : e < 8) (hx : x < 3) (ne : d.val ≠ e ∨ c.val ≠ x) {z : State} (h : sentAt d c j l p z) : sentAt d c j l p (z.sendPos e x j) := by
  have A : ∀ q, sentAt d c j l p (z.putTx e x j q) := fun q =>
    (putTx_apart z e x j q _ (fun m hm => place_apart c.2 hx hl (txLanes_mem hm) d.2 he ne)).trans h
  unfold State.sendPos
  dsimp only
  split_ifs
  · exact A _
  · exact h
  · exact A _

theorem sendDir_apart {d : Fin 8} {c : Fin 3} {j l : Nat} {p : Option Nat} (hl : l = 2 * d.val + laneOf j c ∨ l = 2 * d.val + 16 + laneOf j c)
    {e : Nat} (he : e < 8) (ne : d.val ≠ e) {z : State} (h : sentAt d c j l p z) : sentAt d c j l p (sendDir j z e) :=
  sendDir_lift j z e (sentAt d c j l p) h (fun y n h => by unfold sentAt; rw [(sendMarks_rest y e n).2]; exact h)
    (fun y m h => by unfold sentAt; rw [(sendStatus_rest y e j m).2]; exact h)
    (fun y h => List.foldlRecOn (motive := sentAt d c j l p) (List.range 3) _ h (fun b pb x hx => sendPos_apart hl he (List.mem_range.1 hx) (.inl ne) pb))

theorem sendPos_hit {a z : State} (k : unsent z = unsent a) (d : Fin 8) (c : Fin 3) (j l : Nat) (hl : l ∈ a.txLanes d c j)
    (h : getF (a.txMapAt (3 * d + c) j) 31 30 = 1) :
    sentAt d c j l (some (a.localContainer ((List.range 5).map (fun n => getF (a.txMapAt (3 * d + c) j) (6 * n + 5) (6 * n))) j)) (z.sendPos d c j) := by
  obtain ⟨_, e2, e3, _, e5⟩ := unsent_reads k d c j
  unfold State.sendPos
  dsimp only
  rw [e2, if_pos h, e5]
  exact putTx_at z d c j _ l (by rw [e3]; exact hl)

theorem sendDir_hit {a z : State} (k : unsent z = unsent a) (d : Fin 8) (c : Fin 3) (j l : Nat) (hl : l ∈ a.txLanes d c j)
    (on : a.dirOn d = true) (h : getF (a.txMapAt (3 * d + c) j) 31 30 = 1) :
    sentAt d c j l (some (a.localContainer ((List.range 5).map (fun n => getF (a.txMapAt (3 * d + c) j) (6 * n + 5) (6 * n))) j)) (sendDir j z d) := by
  have hm := txLanes_mem hl
  generalize hx : a.localContainer _ j = x
  have q : ∀ y, unsent y = unsent a → sentAt d c j l (some x) ((List.range 3).foldl (fun b c => b.sendPos d c j) y) := fun y ky =>
    foldl_hit (fun y => unsent y = unsent a) (sentAt d c j l (some x)) _ c.val (List.range 3) (fun b y kb => (unsent_sendPos ..).trans kb)
      (fun b y kb hy ne pb => sendPos_apart hm d.2 (List.mem_range.1 hy) (.inr (Ne.symm ne)) pb)
      (fun b kb => by rw [← hx]; exact sendPos_hit kb d c j l hl h) y ky (.inr (List.mem_range.2 c.2))
  have on : z.dirOn d = true := (unsent_reads k d c j).1.trans on
  have st : ∀ y : State, sentAt d c j l (some x) y → ∀ m, sentAt d c j l (some x) (y.sendStatus d j m) := fun y hy m => by
    unfold sentAt; rw [(sendStatus_rest y d j m).2]; exact hy
  unfold sendDir
  dsimp only
  rw [on, if_neg (by decide)]
  generalize hy : (if (j + 1) % 44 = 0 then _ else z) = y
  have ky : unsent y = unsent a := by
    rw [← hy]
    split_ifs
    · exact (sendMarks_rest ..).1.trans k
    · exact k
  split
  · exact st _ (q y ky) _
  · exact q y ky

theorem hitchFrames_send (s : State) (d : Fin 8) : (∀ (j : Nat) (c : Fin 3) (a : State), a = s.toTime (atHub (64 * (j + 1))) → a.dirOn d = true → getF (a.txMapAt (3 * d + c) j) 31 30 = 1 →
    ∃ u, exec (.slotFrameSend j) s = .next u ∧ u.now = a.now ∧ ∀ l ∈ a.txLanes d c j, Tab.get? u.hch.tx (66 * l + placeOf j c) =
      some (j, some (a.localContainer ((List.range 5).map (fun n => getF (a.txMapAt (3 * d + c) j) (6 * n + 5) (6 * n))) j))) := by
  intro j c a h0 h1 h2
  refine ⟨s.sendFrame j, rfl, ?_⟩
  rw [sendFrame_eq, ← h0]
  clear h0
  have r2 : unsent ((List.range 8).foldl (sendDir j) a) = unsent a := unsent_foldl (sendDir_unsent j) _ a
  refine ⟨(unsent_reads r2 d c j).2.2.2.1, fun l hl => ?_⟩
  exact foldl_hit (fun y => unsent y = unsent a) (sentAt d c j l (some _)) (sendDir j) d.val (List.range 8)
    (fun z e k => (sendDir_unsent ..).trans k) (fun z e _ he ne p => sendDir_apart (txLanes_mem hl) (List.mem_range.1 he) (Ne.symm ne) p)
    (fun z k => sendDir_hit k d c j l hl h1 h2) a rfl (.inr (List.mem_range.2 d.2))

end Sys2Proof
end

