-- ==== Sys2Proof/Laws/PowerEvents.lean ====
section
/-! SUPPORT. Steps of the commands of one kind: power and sensors. -/

namespace Sys2Proof

open Sys2Proof.Machine

theorem thm_of {l : List Part} {s t : State} (h : Touches l s t) (hl : l.contains .thm = false) : t.thm = s.thm := h.keeps .thm hl

theorem regs_filter (l : Tab Word) (k j : Nat) (d : Word) (h : j ≠ k) : Tab.get (l.filter (fun e => decide (e.1 = k))) j d = d := by
  induction l with
  | nil => rfl
  | cons p l ih =>
    obtain ⟨i, v⟩ := p
    by_cases hi : i = k
    · rw [List.filter_cons_of_pos (by simpa using hi)]
      subst hi
      have h' : ¬ i = j := fun c => h c.symm
      simp only [Tab.get, if_neg h', ih]
    · rw [List.filter_cons_of_neg (by simpa using hi), ih]

theorem shed_supply (a : State) : a.shedMain.supply = .holdUp := rfl

theorem powerEvents_1 (s : State) (t : BitVec 64) : (s.supply = .on → ∃ u, exec (.pwrFail t) s = .next u ∧ u.supply = .holdUp ∧ u.now = (s.upTo t).now ∧ u.hbm = [] ∧ u.hostMem = s.hostMem ∧
    ∀ r : RegId, r.off ≠ RegId.off .pwrCtl → u.reg r = r.reset) := by
  intro h
  refine ⟨_, rfl, ?_⟩
  have h : ¬ (s.upTo t).supply ≠ .on := fun c => c ((State.upTo_supply s t).trans h)
  rw [← State.upTo_hostMem s t]
  generalize s.upTo t = a at *
  unfold State.pwrFail
  rw [if_neg h]
  have K : ∀ z : State, z.now = a.now → z.hostMem = a.hostMem → z.shedMain.supply = .holdUp ∧ z.shedMain.now = a.now ∧ z.shedMain.hbm = [] ∧ z.shedMain.hostMem = a.hostMem ∧
      ∀ r : RegId, r.off ≠ RegId.off .pwrCtl → z.shedMain.reg r = r.reset := by
    intro z k1 k2
    refine ⟨rfl, k1, rfl, k2, fun r hr => ?_⟩
    exact regs_filter _ _ _ _ hr
  dsimp only
  split_ifs
  · refine K _ ?_ ?_
    · exact Eq.trans (now_of (State.tripJournal_touches _ _) rfl) rfl
    · exact Eq.trans ((State.tripJournal_touches _ _).keeps .hostMem rfl) rfl
  · exact K _ (now_of (State.trip_touches ..) rfl) ((State.trip_touches ..).keeps .hostMem rfl)

theorem powerEvents_2 (s : State) (t : BitVec 64) : (s.supply = .holdUp →
    (s.pwr.jPend = [] → ∃ u, exec (.mainsRestored t) s = .next u ∧ u.supply = .off ∧ u.now = 0 ∧ u.pwr.jrn = s.pwr.jrn ∧ u.mc.slots = s.mc.slots) ∧
    (s.pwr.jPend ≠ [] → ∃ u, exec (.mainsRestored t) s = .next u ∧ u = s.at t) ∧
    (∃ u, exec .holdUpRunsOut s = .next u ∧ u.supply = .off ∧ u.pwr.jPend = [] ∧ u.pwr.jrn = s.pwr.jrn ∧ u.mc.slots = s.mc.slots)) := by
  intro h
  refine ⟨fun hj => ⟨_, congrArg Host.Outcome.next (if_pos ⟨h, ?_⟩), rfl, rfl, rfl, rfl⟩, fun hj => ⟨_, congrArg Host.Outcome.next (if_neg ?_), rfl⟩,
    ⟨_, congrArg Host.Outcome.next (if_pos h), rfl, rfl, rfl, rfl⟩⟩
  rotate_left
  · show s.pwr.jPend.isEmpty = true
    rw [hj]; rfl
  · rintro ⟨_, c⟩
    exact hj (List.isEmpty_iff.mp c)

theorem rail_eq (a : State) (n : Nat) (hr : ¬ a.railOn n = false) (h0 : n ≠ 0) : ∃ y : State, y.mode = a.mode ∧ y.now = a.now ∧ ∃ j l,
    a.railFault n = (let s4 := if a.mode.mode == .boot then (y.trip 2 j l).bootFail a.bootStepNow else y.trip 2 j l
      if n = 1 then s4 else if n < 4 then s4.shedMain else
      if a.mode.mode = .dormant then s4 else
      if a.mode.mode = .safe then (s4.setMode { s4.mode with full := true, plyPower := false, ucValid := false }).losePlies
      else s4.setMode { s4.mode with full := true, plyPower := false, ucValid := false }) := by
  refine ⟨(a.setPwr { a.pwr with railsBad := if a.pwr.railsBad.contains n then a.pwr.railsBad else n :: a.pwr.railsBad }).raise .railFault 0 n (up8 a.now) [], ?_, ?_, { ((a.setPwr { a.pwr with railsBad := if a.pwr.railsBad.contains n then a.pwr.railsBad else n :: a.pwr.railsBad }).raise .railFault 0 n (up8 a.now) []).jcause 3 with detail := n }, decide (4 ≤ n), ?_⟩
  · exact (mode_of (State.raise_touches (a.setPwr _) _ _ _ _ _) rfl).trans rfl
  · exact (now_of (State.raise_touches (a.setPwr _) _ _ _ _ _) rfl).trans rfl
  · unfold State.railFault
    rw [if_neg hr, if_neg h0]

theorem rail_one (a : State) (hr : ¬ a.railOn 1 = false) (h1 : a.mode.mode ≠ .dormant) (h2 : a.mode.mode ≠ .safe) (h3 : a.mode.tripAt = none) :
    (a.railFault 1).mode.trans = some (.safe, a.now + us) := by
  obtain ⟨y, m, n, j, l, e⟩ := rail_eq a 1 hr (by decide)
  rw [e]
  dsimp only
  rw [if_pos rfl]
  have T := (State.trip_begins y 2 j l (by rw [m]; exact h1) (by rw [m]; exact h2) (by rw [m]; exact h3)).1
  rw [n] at T
  generalize y.trip 2 j l = z at *
  split_ifs
  · rw [mode_of (State.bootFail_touches z _) rfl]
    exact T
  · exact T

theorem rail_hub (a : State) (n : Nat) (hr : ¬ a.railOn n = false) (h0 : n ≠ 0) (h1 : n ≠ 1) (h4 : n < 4) : (a.railFault n).supply = .holdUp := by
  obtain ⟨y, m, n, j, l, e⟩ := rail_eq a n hr h0
  rw [e]
  dsimp only
  rw [if_neg h1, if_pos h4]
  rfl

theorem rail_ply (a : State) (n : Nat) (hr : ¬ a.railOn n = false) (h0 : 4 ≤ n) (h1 : a.mode.mode ≠ .dormant) : (a.railFault n).mode.plyPower = false ∧ (a.railFault n).mode.ucValid = false := by
  obtain ⟨y, m, _, j, l, e⟩ := rail_eq a n hr (by omega)
  rw [e]
  dsimp only
  rw [if_neg (by omega), if_neg (by omega), if_neg h1]
  split
  · exact ⟨rfl, rfl⟩
  · exact ⟨rfl, rfl⟩

theorem powerEvents_3 (s : State) (t : BitVec 64) : (∀ rail : Fin 20, s.railOn rail = true →
    (rail = 0 → s.supply = .on → ∃ u, exec (.railFault t rail) s = .next u ∧ u.supply = .holdUp) ∧
    (rail = 1 → s.mode.mode ≠ .dormant → s.mode.mode ≠ .safe → s.mode.tripAt = none →
      ∃ u, exec (.railFault t rail) s = .next u ∧ u.mode.trans = some (.safe, (s.upTo t).now + us)) ∧
    (rail = 2 ∨ rail = 3 → ∃ u, exec (.railFault t rail) s = .next u ∧ u.supply = .holdUp) ∧
    (4 ≤ rail.val → s.mode.mode ≠ .dormant → ∃ u, exec (.railFault t rail) s = .next u ∧ u.mode.plyPower = false ∧ u.mode.ucValid = false)) := by
  intro rail hr
  have hr : ¬ (s.upTo t).railOn rail = false := by rw [State.upTo_railOn, hr]; decide
  rw [← State.upTo_mode s t, ← State.upTo_supply s t]
  have X : exec (.railFault t rail) s = .next ((s.upTo t).railFault rail) := rfl
  simp only [X]
  generalize s.upTo t = a at *
  refine ⟨fun h0 h1 => ⟨_, rfl, ?_⟩, fun h0 h1 h2 h3 => ⟨_, rfl, ?_⟩, fun h0 => ⟨_, rfl, ?_⟩, fun h0 h1 => ⟨_, rfl, ?_⟩⟩
  · unfold State.railFault
    rw [if_neg hr, if_pos (by subst h0; rfl)]
    unfold State.pwrFail
    rw [if_neg (fun c => c h1)]
    rfl
  · subst h0
    exact rail_one a hr h1 h2 h3
  · have : rail.val < 4 ∧ rail.val ≠ 0 ∧ rail.val ≠ 1 := by rcases h0 with h0 | h0 <;> (subst h0; decide)
    exact rail_hub a rail hr this.2.1 this.2.2 this.1
  · exact rail_ply a rail hr h0 h1

/-- The temperatures and the rates of a state are those of another. -/
def SameT (a b : State) : Prop := b.thm.temps = a.thm.temps ∧ b.thm.rates = a.thm.rates

theorem SameT.trans {a b c : State} (h : SameT a b) (g : SameT b c) : SameT a c := ⟨g.1.trans h.1, g.2.trans h.2⟩

theorem SameT.of {l : List Part} {s t : State} (h : Touches l s t) (hl : l.contains .thm = false) : SameT s t := by
  rw [SameT, thm_of h hl]; exact ⟨rfl, rfl⟩

theorem sameT_bands (a : State) : SameT a a.readBands := by
  unfold State.readBands
  dsimp only
  generalize hz : State.setThm a _ = z
  have k : SameT a z := by rw [← hz]; exact ⟨rfl, rfl⟩
  have f : ∀ (l : Tab Conv) m (y : State), SameT y (l.foldl (fun (a : State) (e : Nat × Conv) => match e.2.band with
    | some b => if b < m ∧ (a.strand (convStrand e.1)).gate = .ungated then a.makeDue e.1 a.now else a
    | none => a) y) := by
    intro l m
    induction l with
    | nil => exact fun y => ⟨rfl, rfl⟩
    | cons e l ih =>
      intro y
      rw [List.foldl_cons]
      refine SameT.trans ?_ (ih _)
      cases e.2.band with
      | none => exact ⟨rfl, rfl⟩
      | some b =>
        dsimp only
        split_ifs
        · exact .of (State.makeDue_touches ..) rfl
        · exact ⟨rfl, rfl⟩
  have r : ∀ (x n : Nat) w, SameT z (z.raise .thermBand 0 x n w) := fun x n w => .of (State.raise_touches ..) rfl
  split_ifs
  · exact k
  · exact k.trans (r _ _ _)
  · exact (k.trans (r _ _ _)).trans (f _ _ _)

theorem sameT_high (a : State) : SameT a a.readHigh := by
  unfold State.readHigh
  dsimp only
  split
  · rename_i k _
    have h : SameT a (a.setThm { a.thm with high := true, highLow := none }) := ⟨rfl, rfl⟩
    split_ifs
    · exact h
    · exact h.trans (.of (State.raise_touches ..) rfl)
  · exact ⟨rfl, rfl⟩

theorem sameT_warn (a : State) : SameT a a.readWarn := by
  unfold State.readWarn
  dsimp only
  split
  · rename_i k _
    have h : SameT a (a.setThm { a.thm with warn := true, warnLow := none }) := ⟨rfl, rfl⟩
    split_ifs
    · exact h
    · exact (h.trans (.of (State.raise_touches ..) rfl)).trans (.of (State.evalHold_touches ..) rfl)
  · generalize hz : State.setThm a _ = z
    have k : SameT a z := by rw [← hz]; exact ⟨rfl, rfl⟩
    split_ifs
    · exact k.trans (.of (State.evalHold_touches ..) rfl)
    · exact k

theorem sameT_trips (a : State) : SameT a a.readTrips := by
  unfold State.readTrips
  dsimp only
  generalize hz : State.setThm a _ = z
  have k : SameT a z := by rw [← hz]; exact ⟨rfl, rfl⟩
  have T : ∀ (y : State) c n j v r, SameT y (y.thermTrip c n j v r) := fun y c n j v r => .of (State.thermTrip_touches ..) rfl
  have k2 : ∀ o : Option Nat, SameT a (match o with | some k => z.thermTrip 0 k k (reading a.thm.temps k) (reading a.thm.rates k) | none => z) := by
    intro o
    cases o with
    | none => exact k
    | some j => exact k.trans (T _ _ _ _ _ _)
  split
  · exact (k2 _).trans (T _ _ _ _ _ _)
  · exact k2 _

theorem sameT_held (a : State) : SameT a a.readHeld := by
  unfold State.readHeld
  dsimp only
  by_cases c : a.mode.mode ≠ .dormant
  · rw [if_pos c]; exact ⟨rfl, rfl⟩
  · rw [if_neg c]
    split
    · split_ifs <;> exact ⟨rfl, rfl⟩
    · split_ifs <;> exact ⟨rfl, rfl⟩

theorem powerEvents_4 (s : State) (t : BitVec 64) : (∀ temps : List Int, s.supply ≠ .off → temps.length = 22 →
    ∃ u, exec (.dieSensorRead t temps) s = .next u ∧ u.thm.temps = temps ∧ u.thm.rates = ratesOf s.thm.hist (s.upTo t).now temps) := by
  intro temps h1 h2
  refine ⟨_, rfl, ?_⟩
  have h1 : (s.upTo t).supply ≠ .off := by rwa [State.upTo_supply]
  rw [← State.upTo_thm s t]
  generalize s.upTo t = a at *
  unfold State.dieSensorRead
  rw [if_neg (by rintro (c | c); exact h1 c; exact c h2)]
  have k : SameT (a.newTemps temps) (((((a.newTemps temps).readBands).readHigh).readWarn).readTrips).readHeld :=
    ((((sameT_bands _).trans (sameT_high _)).trans (sameT_warn _)).trans (sameT_trips _)).trans (sameT_held _)
  exact ⟨k.1.trans rfl, k.2.trans rfl⟩

theorem powerEvents_5 (s : State) (t : BitVec 64) : (∀ temps : List (Option Int), s.supply ≠ .off → temps.length = 8 →
    ∃ u, exec (.thermistorRead t temps) s = .next u ∧ u.thm.ext = temps) := by
  intro temps h1 h2
  refine ⟨_, rfl, ?_⟩
  have h1 : (s.upTo t).supply ≠ .off := by rwa [State.upTo_supply]
  generalize s.upTo t = a at *
  unfold State.thermistorRead
  rw [if_neg (by rintro (c | c); exact h1 c; exact c h2)]
  dsimp only
  have X : ∀ (y : State) j v, (y.extWarn j v).thm.ext = y.thm.ext := by
    intro y j v
    unfold State.extWarn
    dsimp only
    split_ifs
    · rw [thm_of (State.raise_touches ..) rfl]; rfl
    · rfl
    · rfl
  have F : ∀ (l : List Nat) (y : State), (l.foldl (fun a j => a.extWarn j ((temps[j]?).getD none)) y).thm.ext = y.thm.ext := by
    intro l
    induction l with
    | nil => exact fun y => rfl
    | cons j l ih => intro y; rw [List.foldl_cons, ih, X]
  have F1 := F (List.range 8) (a.setThm { a.thm with ext := temps })
  generalize List.foldl _ (a.setThm _) _ = z at *
  split
  · rw [thm_of (State.thermTrip_touches ..) rfl]; exact F1
  · exact F1

/-- Every flag bit of one state stands in the other. -/
def Mono (a b : State) : Prop := ∀ o i, (Tab.get a.flags o 0).toNat.testBit i = true → (Tab.get b.flags o 0).toNat.testBit i = true

theorem Mono.refl (a : State) : Mono a a := fun _ _ h => h

theorem Mono.trans {a b c : State} (h : Mono a b) (g : Mono b c) : Mono a c := fun o i k => g o i (h o i k)

theorem Mono.of {a b : State} (h : b.flags = a.flags) : Mono a b := by intro o i k; rw [h]; exact k

theorem testBit_set1 (w : Word) (b i : Nat) (h : w.toNat.testBit i = true) : (setF w b b 1).toNat.testBit i = true := by
  have h32 : i < 32 := by
    by_contra c
    rw [BitVec.testBit_toNat, BitVec.getLsbD_of_ge w i (by omega)] at h
    cases h
  by_cases hb : b < 32
  · rw [testBit_setF _ _ _ _ _ hb (Nat.le_refl _)]
    split_ifs with c
    · have : i - b = 0 := by omega
      rw [this]; rfl
    · exact h
  · have hf : (0xFFFFFFFF : Nat) = 2 ^ 32 - 1 := rfl
    simp only [setF, BitVec.toNat_ofNat, Nat.testBit_mod_two_pow, Nat.testBit_or, Nat.testBit_and, Nat.testBit_xor, hf,
      Nat.testBit_two_pow_sub_one, Nat.testBit_shiftLeft, h]
    simp [h32]; omega

theorem mono_flag (a : State) (r : RegId) (b : Nat) : Mono a (a.setFlag r b) := by
  intro o i h
  unfold State.setFlag State.flagWord
  dsimp only
  by_cases c : o = r.off
  · subst c
    rw [Tab.get_put]
    exact testBit_set1 _ _ _ h
  · rw [Tab.get_put_ne _ _ _ c]; exact h

theorem mono_ev (a : State) (e : EvSt) : Mono a { a with ev := e } := .of rfl

theorem mono_store (s : State) (c x t : Nat) (l : List Word) : Mono s (s.storeEvent c x t l) := by
  unfold State.storeEvent
  dsimp only
  have D : ∀ (a : State) q, Mono a (a.dropped q) := fun a q => Mono.trans (b := a.bumpKey (qKey q 0) 1) (.of rfl) (mono_flag _ _ _)
  have B : ∀ (a : State), Mono a (a.bump .qmEvDrop 1) := fun a => .of rfl
  split_ifs
  · exact Mono.of rfl
  · exact (mono_ev s _).trans ((D _ _).trans ((B _).trans (mono_ev _ _)))
  · exact (mono_ev s _).trans ((B _).trans (mono_ev _ _))

theorem mono_form (s : State) (c x t : Nat) (l : List Word) : Mono s (s.formEvent c x t l) := by
  unfold State.formEvent
  dsimp only
  split_ifs
  · exact (((mono_flag s .qmFlags 4).trans (mono_store _ _ _ _ _)).trans (mono_ev _ _)).trans (mono_store _ _ _ _ _)
  · exact mono_store _ _ _ _ _

theorem mono_raise (s : State) (e : Ev) (i x t : Nat) (l : List Word) : Mono s (s.raise e i x t l) := by
  unfold State.raise
  dsimp only
  have k : ∀ z : State, Mono s z → Mono s (if s.qLost (s.fld .qmCtl 14 0) = false ∧ (z.formEvent e.code x t l).qLost (s.fld .qmCtl 14 0) = true then
      ((z.formEvent e.code x t l).setFlag .qmFlags 1).formEvent 0x0706 (s.fld .qmCtl 14 0) s.now [5] else z.formEvent e.code x t l) := by
    intro z h
    split_ifs
    · exact ((h.trans (mono_form z e.code x t l)).trans (mono_flag _ _ _)).trans (mono_form _ _ _ _ _)
    · exact h.trans (mono_form z e.code x t l)
  apply k
  cases e.flag i with
  | none => exact .refl _
  | some p => exact mono_flag _ _ _

theorem getF_one (x : Word) (b : Nat) : getF x b b = 1 ↔ x.toNat.testBit b = true := by
  unfold getF bits
  rw [Nat.sub_self, Nat.zero_add, pow_one, Nat.testBit_eq_decide_div_mod_eq, Nat.shiftRight_eq_div_pow]
  simp

theorem powerEvents_6 (s : State) (t : BitVec 64) : (∀ f : Fin 6, s.supply ≠ .off → ∃ u, exec (.fanFail t f) s = .next u ∧ getF (u.flagWord (.pwrFan f)) 16 16 = 1) := by
  intro f h1
  refine ⟨_, rfl, ?_⟩
  have h1 : (s.at t).supply ≠ .off := h1
  generalize s.at t = a at *
  unfold State.fanFail
  split_ifs with c
  · rcases c with c | c
    · exact absurd c h1
    · exact c
  · rw [getF_one]
    refine mono_raise _ _ _ _ _ _ (RegId.pwrFan f).off 16 ?_
    unfold State.setFlag State.flagWord
    dsimp only
    rw [Tab.get_put, testBit_setF _ _ _ _ _ (by decide) (by decide)]
    rfl

theorem powerEvents_7 (s : State) (t : BitVec 64) : (∀ (cut : JournalCut) (j : JCause) (rest : List JCause), s.supply ≠ .off → s.mc.running = true → s.pwr.jPend = j :: rest →
    ∃ u, exec (.journalRecord t cut) s = .next u ∧ u.pwr.jPend = rest ∧ u.pwr.jSeq = s.pwr.jSeq + 1 ∧
      ∃ r : JRec, u.pwr.jrn.getLast? = some r ∧ r.seq = s.pwr.jSeq + 1 ∧ r.a.isSome = true ∧ (r.b.isSome = true ↔ cut = .both)) := by
  intro cut j rest h1 h2 h3
  refine ⟨_, rfl, ?_⟩
  have h1 : (s.at t).supply ≠ .off := h1
  have h2 : ¬ (s.at t).mc.running = false := by show ¬ s.mc.running = false; rw [h2]; decide
  have h3 : (s.at t).pwr.jPend = j :: rest := h3
  have e : s.pwr = (s.at t).pwr := rfl
  rw [e]
  generalize s.at t = a at *
  unfold State.journalRecord
  rw [if_neg (by rintro (c | c); exact h1 c; exact h2 c), h3]
  dsimp only
  refine ⟨rfl, rfl, _, List.getLast?_concat .., ?_⟩
  cases cut
  · exact ⟨rfl, rfl, by simp⟩
  · exact ⟨rfl, rfl, by simp⟩
  · exact ⟨rfl, rfl, by simp⟩

theorem powerEvents_8 (s : State) (t : BitVec 64) : (∀ w : Word, s.mode.mode ≠ .dormant → ∃ u, exec (.jrnselWrite t w) s = .next u ∧ u.reg .pwrJrnSel = w ∧
      u.pwr.jData = ((s.pwr.jrn.find? (fun r => r.seq == w.toNat)).bind JRec.passing).getD []) := by
  intro w h
  refine ⟨_, congrArg Host.Outcome.next (if_neg h), ?_, rfl⟩
  exact State.reg_setReg _ _ _

end Sys2Proof
end

