-- ==== Sys2Proof/Laws/RegAccess.lean ====
section
/-! SUPPORT. Steps of the commands of one kind: register access rows. -/

namespace Sys2Proof

open Sys2Proof.Machine

theorem writeWord_none (s : State) (o : Nat) (w : Word) (h : RegId.ofOff o = none ∨ s.responds o = false) : s.writeWord o w = s := by
  unfold State.writeWord
  rcases h with h | h
  · rw [h]; split_ifs <;> rfl
  · rw [if_pos h]

theorem readWord_none (s : State) (o : Nat) (h : RegId.ofOff o = none ∨ s.responds o = false) : (s.readWord o).rdata = 0 := by
  unfold State.readWord
  rcases h with h | h
  · rw [h]; split_ifs <;> rfl
  · rw [if_pos h]

theorem writeWord_some (s : State) (o : Nat) (w : Word) (r : RegId) (h : s.responds o = true) (hr : RegId.ofOff o = some r) :
    s.writeWord o w = s.writeReg r w := by
  unfold State.writeWord
  rw [if_neg (by rw [h]; decide), hr]

theorem readWord_some (s : State) (o : Nat) (r : RegId) (h : s.responds o = true) (hr : RegId.ofOff o = some r) :
    s.readWord o = s.readReg r := by
  unfold State.readWord
  rw [if_neg (by rw [h]; decide), hr]

theorem regAccess_1 (s a : State) (t : BitVec 64) (h0 : a = s.upTo t) (off : BitVec 24) (w : Word) : ((RegId.ofOff off.toNat = none ∨ a.responds off.toNat = false) →
    (∃ u, exec (.registerWrite t off w 15) s = .next u ∧ u = a) ∧ (∃ u, exec (.profileWrite t off w) s = .next u ∧ u = a) ∧
    (∃ u, exec (.w1cWrite t off w) s = .next u ∧ u = a) ∧ (∃ u, exec (.reg64HighWrite t off w) s = .next u ∧ u = a) ∧
    (∃ u, exec (.rcRead t off) s = .next u ∧ u.rdata = 0) ∧ (∃ u, exec (.reg64LowRead t off) s = .next u ∧ u.rdata = 0)) := by
  intro h
  have h : RegId.ofOff off.toNat = none ∨ a.responds off.toNat = false := h
  subst h0
  exact ⟨⟨_, rfl, writeWord_none _ _ _ h⟩, ⟨_, rfl, writeWord_none _ _ _ h⟩, ⟨_, rfl, writeWord_none _ _ _ h⟩, ⟨_, rfl, writeWord_none _ _ _ h⟩,
    ⟨_, rfl, readWord_none _ _ h⟩, ⟨_, rfl, readWord_none _ _ h⟩⟩

theorem regAccess_2 (s a : State) (t : BitVec 64) (h0 : a = s.upTo t) (off : BitVec 24) (w : Word) : ∀ be, be ≠ 15 → ∃ u, exec (.registerWrite t off w be) s = .next u ∧ u = a := by
  intro be h
  subst h0
  exact ⟨_, rfl, if_neg h⟩

theorem writeCal (a : State) (x : Fin 768) (w : Word) : a.writeReg (.calApply x) w = a.writeFields (.calApply x) w := by
  have f : a.wrFlags (.calApply x) w = a := by
    unfold State.wrFlags
    have : RegId.maskOf (.calApply x) .w1c = 0 := rfl
    rw [this, Nat.and_zero]
    rfl
  unfold State.writeReg
  dsimp only
  rw [f, if_neg (by have : RegId.writable (.calApply x) = true := rfl
                    rw [this]; decide)]
  have : RegId.strandOf (.calApply x) = none := if_neg (by have := x.isLt; show ¬ (_ ≤ 0x061000 + 4 * x.val ∧ _); omega)
  rw [this]
  show (if RegId.maskOf (.calApply x) .rw = 0 then a else a.writePlain (.calApply x) w) = _
  rw [if_neg (by have : RegId.maskOf (.calApply x) .rw = 0xFF0107FF := rfl
                 rw [this]; decide)]
  rfl

theorem mergeCal (x : Nat) (old w : Word) (c : getF w 31 24 ≤ 2 ∨ getF w 31 24 = 255) : RegId.mergeX (.calApply x) old w =
    (if 1 ≤ getF w 10 0 ∧ getF w 10 0 ≤ 1024 then setF (setF (setF old 31 24 (getF w 31 24)) 16 16 (getF w 16 16)) 10 0 (getF w 10 0)
      else setF (setF old 31 24 (getF w 31 24)) 16 16 (getF w 16 16)) := by
  have a1 : Field.allows ⟨31, 24, .rw, 0, [(0, 2), (255, 255)]⟩ (getF w 31 24) = true := by simp [Field.allows]; omega
  have a2 : Field.allows ⟨16, 16, .rw, 1, []⟩ (getF w 16 16) = true := rfl
  have e : ∀ f v, RegId.extraOk (.calApply x) f v w = true := fun _ _ => rfl
  simp only [mergeX_plain (fun _ => rfl : ∀ y, (RegId.calApply x).unused y = 0), RegId.fields, List.foldl, a1, a2, e, and_self, if_true, and_true, true_and]
  simp [Field.allows]

theorem regAccess_3a (s a : State) (t : BitVec 64) (h0 : a = s.upTo t) (off : BitVec 24) (w : Word) (hr : a.responds off.toNat = true) (x : Fin 768) (ho : RegId.ofOff off.toNat = some (.calApply x)) :
      (getF w 31 24 ≤ 2 →
        ∃ u, exec (.profileWrite t off w) s = .next u ∧ u.fld (.calApply x) 31 24 = getF w 31 24 ∧
          u.fld (.calApply x) 16 16 = (if getF w 31 24 = 0 then 1 else 0) ∧ u.fld (.calApply x) 10 0 = (if getF w 31 24 = 2 then 1024 else 16)) := by
  intro hc
  refine ⟨_, exec_up (f := fun z => z.writeWord off.toNat w) h0 ((writeWord_some a off.toNat w _ hr ho).trans (writeCal _ _ _)) rfl, ?_⟩
  clear h0
  have hp : RegId.hasProfile (.calApply x) = true := rfl
  have hcode : RegId.codeOf (.calApply x) (a.reg (.calApply x)) w = getF w 31 24 := by
    have a1 : Field.allows ⟨31, 24, .rw, 0, [(0, 2), (255, 255)]⟩ (getF w 31 24) = true := by simp [Field.allows]; omega
    unfold RegId.codeOf
    have : (RegId.fields (.calApply x)).find? (fun f => f.lo = 24) = some ⟨31, 24, .rw, 0, [(0, 2), (255, 255)]⟩ := rfl
    rw [this]
    dsimp only
    rw [a1, show RegId.extraOk (.calApply x) _ _ w = true from rfl]
    rfl
  unfold State.writeFields
  dsimp only
  rw [hp, if_pos rfl, hcode, if_neg (by omega)]
  simp only [profileSettings, List.foldl, State.applySetting]
  have fs : ∀ (z : State) (hi lo v : Nat), hi < 32 → lo ≤ hi → (z.setFld (.calApply x) hi lo v).fld (.calApply x) hi lo = v % 2 ^ (hi - lo + 1) := by
    intro z hi lo v h1 h2
    unfold State.setFld
    rw [State.fld_setReg, getF_setF _ _ _ _ h1 h2]
  have fn : ∀ (z : State) (hi lo v i j : Nat), hi < 32 → lo ≤ hi → (j ≤ i ∧ (i < lo ∨ hi < j)) → (z.setFld (.calApply x) hi lo v).fld (.calApply x) i j = z.fld (.calApply x) i j := by
    intro z hi lo v i j h1 h2 h3
    unfold State.setFld
    rw [State.fld_setReg, getF_setF_ne _ _ _ _ _ _ h1 h2 h3]
    rfl
  refine ⟨?_, ?_, ?_⟩
  · rw [fn _ _ _ _ _ _ (by decide) (by decide) (by decide), fn _ _ _ _ _ _ (by decide) (by decide) (by decide), State.fld_setReg, mergeCal _ _ _ (.inl hc)]
    split_ifs
    · rw [getF_setF_ne _ _ _ _ _ _ (by decide) (by decide) (by decide), getF_setF_ne _ _ _ _ _ _ (by decide) (by decide) (by decide), getF_setF_self _ _ _ _ (by decide) (by decide)]
    · rw [getF_setF_ne _ _ _ _ _ _ (by decide) (by decide) (by decide), getF_setF_self _ _ _ _ (by decide) (by decide)]
  · rw [fn _ _ _ _ _ _ (by decide) (by decide) (by decide), fs _ _ _ _ (by decide) (by decide)]
    split_ifs <;> rfl
  · rw [fs _ _ _ _ (by decide) (by decide)]
    split_ifs <;> rfl

theorem regAccess_3b (s a : State) (t : BitVec 64) (h0 : a = s.upTo t) (off : BitVec 24) (w : Word) (hr : a.responds off.toNat = true) (x : Fin 768) (ho : RegId.ofOff off.toNat = some (.calApply x)) :
      (getF w 31 24 = 255 →
        ∃ u, exec (.registerWrite t off w 15) s = .next u ∧ u.fld (.calApply x) 31 24 = 255 ∧ u.fld (.calApply x) 16 16 = getF w 16 16 ∧
          u.fld (.calApply x) 10 0 = (if 1 ≤ getF w 10 0 ∧ getF w 10 0 ≤ 1024 then getF w 10 0 else a.fld (.calApply x) 10 0)) := by
  intro hc
  refine ⟨_, exec_up (f := fun z => if (15 : BitVec 4) = 15 then z.writeWord off.toNat w else z) h0 ((if_pos rfl).trans ((writeWord_some a off.toNat w _ hr ho).trans (writeCal _ _ _))) rfl, ?_⟩
  clear h0
  have hp : RegId.hasProfile (.calApply x) = true := rfl
  have hcode : RegId.codeOf (.calApply x) (a.reg (.calApply x)) w = 255 := by
    have a1 : Field.allows ⟨31, 24, .rw, 0, [(0, 2), (255, 255)]⟩ (getF w 31 24) = true := by simp [Field.allows]; omega
    unfold RegId.codeOf
    have : (RegId.fields (.calApply x)).find? (fun f => f.lo = 24) = some ⟨31, 24, .rw, 0, [(0, 2), (255, 255)]⟩ := rfl
    rw [this]
    dsimp only
    rw [a1, show RegId.extraOk (.calApply x) _ _ w = true from rfl]
    exact hc
  unfold State.writeFields
  dsimp only
  rw [hp, if_pos rfl, hcode, if_pos rfl]
  simp only [State.fld_setReg]
  rw [mergeCal _ _ _ (.inr hc)]
  split_ifs with h
  · refine ⟨?_, ?_, ?_⟩
    · rw [getF_setF_ne _ _ _ _ _ _ (by decide) (by decide) (by decide), getF_setF_ne _ _ _ _ _ _ (by decide) (by decide) (by decide), getF_setF_self _ _ _ _ (by decide) (by decide), hc]
    · rw [getF_setF_ne _ _ _ _ _ _ (by decide) (by decide) (by decide), getF_setF_self _ _ _ _ (by decide) (by decide)]
    · rw [getF_setF_self _ _ _ _ (by decide) (by decide)]
  · refine ⟨?_, ?_, ?_⟩
    · rw [getF_setF_ne _ _ _ _ _ _ (by decide) (by decide) (by decide), getF_setF_self _ _ _ _ (by decide) (by decide), hc]
    · rw [getF_setF_self _ _ _ _ (by decide) (by decide)]
    · rw [getF_setF_ne _ _ _ _ _ _ (by decide) (by decide) (by decide), getF_setF_ne _ _ _ _ _ _ (by decide) (by decide) (by decide)]
      rfl

theorem regAccess_4 (s a : State) (t : BitVec 64) (h0 : a = s.upTo t) (off : BitVec 24) (w : Word) (hr : a.responds off.toNat = true) : (RegId.ofOff off.toNat = some .memTestBaseHi →
      ∃ u, exec (.reg64HighWrite t off w) s = .next u ∧ u.reg64 .memTestBaseLo .memTestBaseHi = (a.lowOf .memTestBaseLo).toNat + 2 ^ 32 * w.toNat) := by
  intro ho
  refine ⟨_, exec_up (f := fun z => z.writeWord off.toNat w) h0 (writeWord_some a off.toNat w _ hr ho) rfl, ?_⟩
  clear h0
  have whole : ∀ (z : State) (r : RegId) (v : Word), r.hasProfile = false → r.profileOf = none → r.fields = [⟨31, 0, .rw, 0, []⟩] → (∀ f x, r.extraOk f x v = true) → (∀ x, r.unused x = 0) → z.writeFields r v = z.setReg r v := by
    intro z r v h1 h2 h3 h4 h5
    unfold State.writeFields
    dsimp only
    rw [if_neg (by rw [h1]; decide), h2]
    dsimp only
    have : r.mergeX (z.reg r) v = v := by
      rw [mergeX_plain h5, h3]
      simp only [List.foldl, h4, Field.allows]
      simp
      apply BitVec.eq_of_getLsbD_eq
      intro i hi
      rw [← BitVec.testBit_toNat, ← BitVec.testBit_toNat, testBit_setF _ _ _ _ _ (by decide) (by decide), if_pos (by omega), getF, testBit_bits]
      simp; omega
    rw [this]
  have h1 : ∀ z : State, z.writeReg .memTestBaseHi w = z.writePlain .memTestBaseHi w := by
    intro z
    have f : z.wrFlags .memTestBaseHi w = z := by
      unfold State.wrFlags
      have : RegId.maskOf .memTestBaseHi .w1c = 0 := rfl
      rw [this, Nat.and_zero]
      rfl
    unfold State.writeReg
    dsimp only
    rw [f, if_neg (by decide)]
    have : RegId.strandOf .memTestBaseHi = none := by decide
    rw [this]
    show (if RegId.maskOf .memTestBaseHi .rw = 0 then z else z.writePlain .memTestBaseHi w) = _
    exact if_neg (by decide)
  rw [h1]
  have h2 : a.writePlain .memTestBaseHi w = (({ a with lows := a.lows.filter (fun e => decide (e.1 ≠ RegId.off .memTestBaseLo)) } : State).writeFields .memTestBaseLo (a.lowOf .memTestBaseLo)).writeFields .memTestBaseHi w := rfl
  rw [h2, whole _ .memTestBaseHi _ rfl rfl rfl (fun _ _ => rfl) (fun _ => rfl), whole _ .memTestBaseLo _ rfl rfl rfl (fun _ _ => rfl) (fun _ => rfl)]
  generalize a.lowOf .memTestBaseLo = lo
  generalize ({ a with lows := _ } : State) = z
  unfold State.reg64
  rw [State.reg_setReg, State.reg_setReg_ne _ _ _ _ (by decide), State.reg_setReg]

theorem getF_bit (x : Word) (b : Nat) : getF x b b = if x.toNat.testBit b then 1 else 0 := by
  unfold getF bits
  rw [Nat.sub_self, Nat.zero_add, pow_one, Nat.testBit_eq_decide_div_mod_eq, Nat.shiftRight_eq_div_pow]
  have : x.toNat / 2 ^ b % 2 < 2 := Nat.mod_lt _ (by decide)
  split_ifs with h <;> simp at h <;> omega

theorem testBit_clear (l : List Nat) (hl : ∀ j ∈ l, j < 32) (i : Nat) : ∀ w : Word,
    (l.foldl (fun a b => setF a b b 0) w).toNat.testBit i = (w.toNat.testBit i && !l.contains i) := by
  induction l with
  | nil => intro w; simp
  | cons j l ih =>
    intro w
    rw [List.foldl_cons, ih (fun j hj => hl j (.tail _ hj)), testBit_setF _ _ _ _ _ (hl j (.head _)) (Nat.le_refl _)]
    by_cases h : i = j
    · subst h; simp
    · rw [if_neg (by omega)]
      simp [h]

theorem testBit_clearFlags (a : State) (r : RegId) (m : Word) (b : Nat) (hb : b < 32) :
    ((a.clearFlags r m).flagWord r).toNat.testBit b =
      if m.toNat.testBit b = true ∧ Tab.get a.flagAt (32 * r.off + b) 0 ≠ a.now / 8 + 1 then false else (a.flagWord r).toNat.testBit b := by
  unfold State.clearFlags
  dsimp only
  show (Tab.get (Tab.put a.flags r.off _) r.off 0).toNat.testBit b = _
  rw [Tab.get_put]
  have hf : (0xFFFFFFFF : Nat) = 2 ^ 32 - 1 := rfl
  rw [BitVec.toNat_ofNat, Nat.testBit_mod_two_pow, Nat.testBit_and, hf, Nat.testBit_xor, Nat.testBit_two_pow_sub_one,
    testBit_clear _ (by simp; omega)]
  have hc : (List.filter (fun b => decide (Tab.get a.flagAt (32 * r.off + b) 0 = a.now / 8 + 1)) (List.range 32)).contains b
      = decide (Tab.get a.flagAt (32 * r.off + b) 0 = a.now / 8 + 1) := by
    simp [hb]
  rw [hc]
  by_cases h : Tab.get a.flagAt (32 * r.off + b) 0 = a.now / 8 + 1 <;> by_cases h2 : m.toNat.testBit b = true <;> simp [h, h2, hb]

theorem regAccess_5 (s a : State) (t : BitVec 64) (h0 : a = s.upTo t) (off : BitVec 24) (w : Word) (hr : a.responds off.toNat = true) : (RegId.ofOff off.toNat = some .memFlags →
      ∃ u, exec (.w1cWrite t off w) s = .next u ∧ ∀ b : Fin 8, getF (u.flagWord .memFlags) b b =
        if getF w b b = 1 ∧ Tab.get a.flagAt (32 * RegId.off .memFlags + b) 0 ≠ a.now / 8 + 1 then 0 else getF (a.flagWord .memFlags) b b) := by
  intro ho
  refine ⟨_, exec_up (f := fun z => z.writeWord off.toNat w) h0 (writeWord_some a off.toNat w _ hr ho) rfl, ?_⟩
  clear h0
  intro b
  have W : a.writeReg .memFlags w = a.wrFlags .memFlags w := by
    unfold State.writeReg
    dsimp only
    exact if_pos (by decide)
  rw [W]
  have hb := b.isLt
  have mk : RegId.maskOf .memFlags .w1c = 0xFF := rfl
  unfold State.wrFlags
  dsimp only
  rw [mk]
  have mb : (BitVec.ofNat 32 (w.toNat &&& 0xFF)).toNat.testBit b = w.toNat.testBit b := by
    have h8 : (0xFF : Nat) = 2 ^ 8 - 1 := rfl
    rw [BitVec.toNat_ofNat, Nat.testBit_mod_two_pow, Nat.testBit_and, h8, Nat.testBit_two_pow_sub_one]
    simp [hb]; omega
  generalize BitVec.ofNat 32 (w.toNat &&& 0xFF) = m at *
  simp only [getF_bit]
  rw [← mb]
  by_cases h0 : m = 0
  · rw [if_pos h0]
    subst h0
    simp
  · rw [if_neg h0]
    show (if ((a.clearFlags .memFlags m).flagWord .memFlags).toNat.testBit b = true then 1 else 0) = _
    rw [testBit_clearFlags _ _ _ _ (by omega)]
    by_cases h : m.toNat.testBit b = true <;>
      by_cases h2 : Tab.get a.flagAt (32 * RegId.memFlags.off + b) 0 = a.now / 8 + 1 <;> simp [h, h2]

theorem regAccess_6 (s a : State) (t : BitVec 64) (h0 : a = s.upTo t) (off : BitVec 24) (hr : a.responds off.toNat = true) : (∀ r : RegId, RegId.ofOff off.toNat = some r →
      (r.isRc = true → r.highOf = none → r.lowOf = none →
        ∃ u, exec (.rcRead t off) s = .next u ∧ ((∀ l, r = .hchPrbsErr l → a.prbsOn l = false) → u.rdata = wd (a.clearCount (a.rcKey r)).1) ∧
          Tab.get u.counts (a.rcKey r) 0 = min 0xFFFFFFFF (a.recentOf (a.rcKey r)).2.2) ∧
      (∀ h, r.highOf = some h → r.isRc = false → r.measuredMask = 0 →
        ∃ u, exec (.reg64LowRead t off) s = .next u ∧ u.rdata = a.peek r ∧ Tab.get? u.latch h.off = some (a.peek h))) := by
  intro r ho
  have rd := readWord_some a off.toNat r hr ho
  refine ⟨fun h1 h2 h3 => ?_, fun h h1 h2 h3 => ?_⟩
  · refine ⟨_, exec_up (f := fun z => z.readWord off.toNat) h0 rd rfl, ?_⟩

    clear h0
    have tk : ∀ z : State, z.now = a.now → z.counts = a.counts → z.recent = a.recent → z.rcKey r = a.rcKey r →
        Tab.get (z.clearCount (z.rcKey r)).2.counts (a.rcKey r) 0 = min 0xFFFFFFFF (a.recentOf (a.rcKey r)).2.2 ∧ (z.clearCount (z.rcKey r)).2.rdata = z.rdata := by
      intro z k1 k2 k3 k4
      refine ⟨?_, rfl⟩
      have : z.recentOf (a.rcKey r) = a.recentOf (a.rcKey r) := by unfold State.recentOf; rw [k1, k2, k3]
      unfold State.clearCount
      dsimp only
      rw [k4, Tab.get_put, this]
    have pk : (∀ l, r = .hchPrbsErr l → a.prbsOn l = false) → a.peek r = wd (a.clearCount (a.rcKey r)).1 := by
      intro hp
      unfold State.peek
      rw [if_pos h1]
      unfold State.rcWord
      split
      · rename_i l
        rw [if_neg (by rw [hp l rfl]; decide)]
        rfl
      · rfl
    unfold State.readReg
    dsimp only
    have e : (if r.lowOf.isSome = true then Tab.get? a.latch r.off else none) = none := by rw [h3]; rfl
    rw [if_pos h1, h2]
    dsimp only
    rw [e]
    dsimp only
    have rk : ∀ z : State, z.regs = a.regs → z.rcKey r = a.rcKey r := by
      intro z hz
      unfold State.rcKey State.selQ
      cases r <;> first | rfl | (simp only [State.fld, State.reg, hz])
    split_ifs
    · obtain ⟨k1, k2⟩ := tk { a with rdata := a.peek r } rfl rfl rfl (rk _ rfl)
      exact ⟨fun hp => k2.trans (pk hp), k1⟩
    · obtain ⟨k1, k2⟩ := tk { a.tick with rdata := a.peek r } rfl rfl rfl (rk _ rfl)
      exact ⟨fun hp => k2.trans (pk hp), k1⟩
  · refine ⟨_, exec_up (f := fun z => z.readWord off.toNat) h0 rd rfl, ?_⟩
    clear h0
    unfold State.readReg
    dsimp only
    rw [if_pos h3, h1, if_neg (by rw [h2]; decide)]
    exact ⟨rfl, get?_put ..⟩

end Sys2Proof
end

