-- ==== Sys2Proof/Laws/TouchDispatch.lean ====
section
/-! SUPPORT. The parts of the state that each operation of Machine/Dispatch.lean can change. -/

namespace Sys2Proof.Machine

open Sys2Proof

/-- Every command answers a next state; beside what was due none changes the queue of commands or the variant. -/
theorem exec_based (i : Instr) (s : State) :
    ∃ t, exec i s = .next t ∧ Based [.now, .free, .rdata, .supply, .regs, .latch, .lows, .held, .frameW, .frameLog, .flags, .counts, .flagAt, .recent, .ev, .queues, .mode, .plies, .strands, .cores, .units, .outs, .inps, .rtones, .dec, .hch, .badWords, .convs, .engines, .thm, .pwr, .mc, .mem, .sync, .ptp, .hif, .mon, .tio, .hbm, .seqSram, .ucode, .envSram, .kernel, .envTab, .hostMem] s t := by
  cases i with
  | mainsOn a0 a1 a2 a3 a4 => exact (execMainsOn_touches a0 a1 a2 a3 a4 s).imp fun _ h => ⟨h.1, .of_touches (h.2.mono rfl)⟩
  | bootEntry a0 => exact (execBootEntry_touches a0 s).imp fun _ h => ⟨h.1, .of_touches (h.2.mono rfl)⟩
  | bootComplete a0 a1 a2 a3 => exact (execBootComplete_touches a0 a1 a2 a3 s).imp fun _ h => ⟨h.1, .of_touches (h.2.mono rfl)⟩
  | wakeSource a0 a1 => exact (execWakeSource_touches a0 a1 s).imp fun _ h => ⟨h.1, .of_touches (h.2.mono rfl)⟩
  | wakeTimer => exact (execWakeTimer_touches s).imp fun _ h => ⟨h.1, .of_touches (h.2.mono rfl)⟩
  | reqRun a0 a1 a2 => exact (execReqRun_based a0 a1 a2 s).imp fun _ h => ⟨h.1, h.2.mono rfl⟩
  | reqHold a0 a1 a2 => exact (execReqHold_based a0 a1 a2 s).imp fun _ h => ⟨h.1, h.2.mono rfl⟩
  | reqReady a0 a1 a2 => exact (execReqReady_based a0 a1 a2 s).imp fun _ h => ⟨h.1, h.2.mono rfl⟩
  | reqCalibrate a0 a1 a2 => exact (execReqCalibrate_based a0 a1 a2 s).imp fun _ h => ⟨h.1, h.2.mono rfl⟩
  | reqTest a0 a1 a2 => exact (execReqTest_based a0 a1 a2 s).imp fun _ h => ⟨h.1, h.2.mono rfl⟩
  | reqDormant a0 a1 a2 a3 => exact (execReqDormant_based a0 a1 a2 a3 s).imp fun _ h => ⟨h.1, h.2.mono rfl⟩
  | safeAck a0 a1 a2 a3 => exact (execSafeAck_based a0 a1 a2 a3 s).imp fun _ h => ⟨h.1, h.2.mono rfl⟩
  | modeReset a0 a1 a2 a3 => exact (execModeReset_based a0 a1 a2 a3 s).imp fun _ h => ⟨h.1, h.2.mono rfl⟩
  | modeTransitionDone a0 => exact (execModeTransitionDone_based a0 s).imp fun _ h => ⟨h.1, h.2.mono rfl⟩
  | holdPause => exact (execHoldPause_based s).imp fun _ h => ⟨h.1, h.2.mono rfl⟩
  | holdResume => exact (execHoldResume_based s).imp fun _ h => ⟨h.1, h.2.mono rfl⟩
  | safeEntry a0 => exact (execSafeEntry_based a0 s).imp fun _ h => ⟨h.1, h.2.mono rfl⟩
  | plyPolicyWrite a0 a1 a2 => exact (execPlyPolicyWrite_based a0 a1 a2 s).imp fun _ h => ⟨h.1, h.2.mono rfl⟩
  | plyLocked a0 => exact (execPlyLocked_based a0 s).imp fun _ h => ⟨h.1, h.2.mono rfl⟩
  | plyIdleExpiry a0 => exact (execPlyIdleExpiry_based a0 s).imp fun _ h => ⟨h.1, h.2.mono rfl⟩
  | plyStopped a0 => exact (execPlyStopped_touches a0 s).imp fun _ h => ⟨h.1, .of_touches (h.2.mono rfl)⟩
  | unitEnable a0 a1 a2 => exact (execUnitEnable_based a0 a1 a2 s).imp fun _ h => ⟨h.1, h.2.mono rfl⟩
  | unitDisable a0 a1 a2 => exact (execUnitDisable_based a0 a1 a2 s).imp fun _ h => ⟨h.1, h.2.mono rfl⟩
  | outputShutdownDone a0 => exact (execOutputShutdownDone_based a0 s).imp fun _ h => ⟨h.1, h.2.mono rfl⟩
  | strandGated a0 => exact (execStrandGated_based a0 s).imp fun _ h => ⟨h.1, h.2.mono rfl⟩
  | strandUngated a0 => exact (execStrandUngated_based a0 s).imp fun _ h => ⟨h.1, h.2.mono rfl⟩
  | strandReset a0 a1 a2 => exact (execStrandReset_based a0 a1 a2 s).imp fun _ h => ⟨h.1, h.2.mono rfl⟩
  | strandResetDone a0 a1 => exact (execStrandResetDone_based a0 a1 s).imp fun _ h => ⟨h.1, h.2.mono rfl⟩
  | seqArm a0 a1 a2 => exact (execSeqArm_based a0 a1 a2 s).imp fun _ h => ⟨h.1, h.2.mono rfl⟩
  | seqHaltWrite a0 a1 a2 => exact (execSeqHaltWrite_based a0 a1 a2 s).imp fun _ h => ⟨h.1, h.2.mono rfl⟩
  | swtrig a0 a1 a2 => exact (execSwtrig_based a0 a1 a2 s).imp fun _ h => ⟨h.1, h.2.mono rfl⟩
  | coreStart a0 => exact (execCoreStart_based a0 s).imp fun _ h => ⟨h.1, h.2.mono rfl⟩
  | halt a0 => exact (execHalt_based a0 s).imp fun _ h => ⟨h.1, h.2.mono rfl⟩
  | wait a0 => exact (execWait_based a0 s).imp fun _ h => ⟨h.1, h.2.mono rfl⟩
  | trigwait a0 => exact (execTrigwait_based a0 s).imp fun _ h => ⟨h.1, h.2.mono rfl⟩
  | trigTimeout a0 => exact (execTrigTimeout_based a0 s).imp fun _ h => ⟨h.1, h.2.mono rfl⟩
  | syncstrand a0 => exact (execSyncstrand_based a0 s).imp fun _ h => ⟨h.1, h.2.mono rfl⟩
  | play a0 a1 => exact (execPlay_based a0 a1 s).imp fun _ h => ⟨h.1, h.2.mono rfl⟩
  | acq a0 a1 => exact (execAcq_based a0 a1 s).imp fun _ h => ⟨h.1, h.2.mono rfl⟩
  | setstatic a0 => exact (execSetstatic_based a0 s).imp fun _ h => ⟨h.1, h.2.mono rfl⟩
  | setfreq a0 => exact (execSetfreq_based a0 s).imp fun _ h => ⟨h.1, h.2.mono rfl⟩
  | setphase a0 => exact (execSetphase_based a0 s).imp fun _ h => ⟨h.1, h.2.mono rfl⟩
  | frameadd a0 => exact (execFrameadd_based a0 s).imp fun _ h => ⟨h.1, h.2.mono rfl⟩
  | bight a0 => exact (execBight_based a0 s).imp fun _ h => ⟨h.1, h.2.mono rfl⟩
  | endbight a0 => exact (execEndbight_based a0 s).imp fun _ h => ⟨h.1, h.2.mono rfl⟩
  | call a0 => exact (execCall_based a0 s).imp fun _ h => ⟨h.1, h.2.mono rfl⟩
  | ret a0 => exact (execRet_based a0 s).imp fun _ h => ⟨h.1, h.2.mono rfl⟩
  | jump a0 => exact (execJump_based a0 s).imp fun _ h => ⟨h.1, h.2.mono rfl⟩
  | jcond a0 => exact (execJcond_based a0 s).imp fun _ h => ⟨h.1, h.2.mono rfl⟩
  | streamUnderrun a0 => exact (execStreamUnderrun_based a0 s).imp fun _ h => ⟨h.1, h.2.mono rfl⟩
  | hbmHeadCopyDone a0 a1 a2 => exact (execHbmHeadCopyDone_based a0 a1 a2 s).imp fun _ h => ⟨h.1, h.2.mono rfl⟩
  | automuteClose a0 a1 => exact (execAutomuteClose_based a0 a1 s).imp fun _ h => ⟨h.1, h.2.mono rfl⟩
  | staticWrite a0 a1 a2 a3 => exact (execStaticWrite_based a0 a1 a2 a3 s).imp fun _ h => ⟨h.1, h.2.mono rfl⟩
  | frameWrite a0 a1 a2 a3 => exact (execFrameWrite_based a0 a1 a2 a3 s).imp fun _ h => ⟨h.1, h.2.mono rfl⟩
  | pdCommit a0 a1 a2 a3 => exact (execPdCommit_based a0 a1 a2 a3 s).imp fun _ h => ⟨h.1, h.2.mono rfl⟩
  | zoneWrite a0 a1 a2 => exact (execZoneWrite_based a0 a1 a2 s).imp fun _ h => ⟨h.1, h.2.mono rfl⟩
  | rangeWrite a0 a1 a2 => exact (execRangeWrite_based a0 a1 a2 s).imp fun _ h => ⟨h.1, h.2.mono rfl⟩
  | rangeSettled a0 => exact (execRangeSettled_based a0 s).imp fun _ h => ⟨h.1, h.2.mono rfl⟩
  | outComply a0 a1 a2 a3 => exact (execOutComply_based a0 a1 a2 a3 s).imp fun _ h => ⟨h.1, h.2.mono rfl⟩
  | complyClear a0 a1 a2 a3 => exact (execComplyClear_based a0 a1 a2 a3 s).imp fun _ h => ⟨h.1, h.2.mono rfl⟩
  | seqOwnWrite a0 a1 a2 a3 => exact (execSeqOwnWrite_based a0 a1 a2 a3 s).imp fun _ h => ⟨h.1, h.2.mono rfl⟩
  | inputConfigWrite a0 a1 a2 a3 => exact (execInputConfigWrite_based a0 a1 a2 a3 s).imp fun _ h => ⟨h.1, h.2.mono rfl⟩
  | bandSettled a0 a1 => exact (execBandSettled_based a0 a1 s).imp fun _ h => ⟨h.1, h.2.mono rfl⟩
  | heldWriteApply a0 a1 => exact (execHeldWriteApply_based a0 a1 s).imp fun _ h => ⟨h.1, h.2.mono rfl⟩
  | windowComplete a0 a1 a2 a3 a4 => exact (execWindowComplete_based a0 a1 a2 a3 a4 s).imp fun _ h => ⟨h.1, h.2.mono rfl⟩
  | rawDrainDone a0 a1 a2 a3 => exact (execRawDrainDone_based a0 a1 a2 a3 s).imp fun _ h => ⟨h.1, h.2.mono rfl⟩
  | discCommit a0 a1 a2 a3 => exact (execDiscCommit_based a0 a1 a2 a3 s).imp fun _ h => ⟨h.1, h.2.mono rfl⟩
  | resultCommit a0 a1 => exact (execResultCommit_touches a0 a1 s).imp fun _ h => ⟨h.1, .of_touches (h.2.mono rfl)⟩
  | earlyRelease a0 a1 => exact (execEarlyRelease_touches a0 a1 s).imp fun _ h => ⟨h.1, .of_touches (h.2.mono rfl)⟩
  | decCommit a0 a1 a2 => exact (execDecCommit_touches a0 a1 a2 s).imp fun _ h => ⟨h.1, .of_touches (h.2.mono rfl)⟩
  | importWrite a0 a1 a2 a3 => exact (execImportWrite_based a0 a1 a2 a3 s).imp fun _ h => ⟨h.1, h.2.mono rfl⟩
  | sidebandFrame a0 a1 a2 => exact (execSidebandFrame_based a0 a1 a2 s).imp fun _ h => ⟨h.1, h.2.mono rfl⟩
  | modnumWrite a0 a1 => exact (execModnumWrite_touches a0 a1 s).imp fun _ h => ⟨h.1, .of_touches (h.2.mono rfl)⟩
  | directionEnable a0 a1 a2 => exact (execDirectionEnable_touches a0 a1 a2 s).imp fun _ h => ⟨h.1, .of_touches (h.2.mono rfl)⟩
  | blockLock a0 a1 => exact (execBlockLock_touches a0 a1 s).imp fun _ h => ⟨h.1, .of_touches (h.2.mono rfl)⟩
  | blockLockLoss a0 a1 a2 => exact (execBlockLockLoss_touches a0 a1 a2 s).imp fun _ h => ⟨h.1, .of_touches (h.2.mono rfl)⟩
  | markBlock a0 a1 a2 => exact (execMarkBlock_touches a0 a1 a2 s).imp fun _ h => ⟨h.1, .of_touches (h.2.mono rfl)⟩
  | trainBlock a0 a1 a2 => exact (execTrainBlock_touches a0 a1 a2 s).imp fun _ h => ⟨h.1, .of_touches (h.2.mono rfl)⟩
  | hitchContainer a0 a1 a2 a3 a4 => exact (execHitchContainer_touches a0 a1 a2 a3 a4 s).imp fun _ h => ⟨h.1, .of_touches (h.2.mono rfl)⟩
  | statusBlock a0 a1 a2 => exact (execStatusBlock_touches a0 a1 a2 s).imp fun _ h => ⟨h.1, .of_touches (h.2.mono rfl)⟩
  | idleEntry a0 a1 => exact (execIdleEntry_touches a0 a1 s).imp fun _ h => ⟨h.1, .of_touches (h.2.mono rfl)⟩
  | standbyCheck a0 a1 a2 a3 a4 => exact (execStandbyCheck_touches a0 a1 a2 a3 a4 s).imp fun _ h => ⟨h.1, .of_touches (h.2.mono rfl)⟩
  | spliceRevert a0 a1 => exact (execSpliceRevert_touches a0 a1 s).imp fun _ h => ⟨h.1, .of_touches (h.2.mono rfl)⟩
  | hchSplice a0 a1 a2 => exact (execHchSplice_touches a0 a1 a2 s).imp fun _ h => ⟨h.1, .of_touches (h.2.mono rfl)⟩
  | hchRevert a0 a1 a2 => exact (execHchRevert_touches a0 a1 a2 s).imp fun _ h => ⟨h.1, .of_touches (h.2.mono rfl)⟩
  | refLost a0 => exact (execRefLost_based a0 s).imp fun _ h => ⟨h.1, h.2.mono rfl⟩
  | refValid a0 => exact (execRefValid_touches a0 s).imp fun _ h => ⟨h.1, .of_touches (h.2.mono rfl)⟩
  | refRestored a0 => exact (execRefRestored_based a0 s).imp fun _ h => ⟨h.1, h.2.mono rfl⟩
  | clkFault a0 a1 => exact (execClkFault_based a0 a1 s).imp fun _ h => ⟨h.1, h.2.mono rfl⟩
  | refselWrite a0 a1 => exact (execRefselWrite_touches a0 a1 s).imp fun _ h => ⟨h.1, .of_touches (h.2.mono rfl)⟩
  | epochWrite a0 a1 => exact (execEpochWrite_touches a0 a1 s).imp fun _ h => ⟨h.1, .of_touches (h.2.mono rfl)⟩
  | syncArm a0 a1 => exact (execSyncArm_touches a0 a1 s).imp fun _ h => ⟨h.1, .of_touches (h.2.mono rfl)⟩
  | syncDisarm a0 a1 => exact (execSyncDisarm_touches a0 a1 s).imp fun _ h => ⟨h.1, .of_touches (h.2.mono rfl)⟩
  | syncPulse a0 => exact (execSyncPulse_based a0 s).imp fun _ h => ⟨h.1, h.2.mono rfl⟩
  | chainLaunch a0 => exact (execChainLaunch_based a0 s).imp fun _ h => ⟨h.1, h.2.mono rfl⟩
  | chainPulseSend => exact (execChainPulseSend_touches s).imp fun _ h => ⟨h.1, .of_touches (h.2.mono rfl)⟩
  | skewcal a0 a1 => exact (execSkewcal_touches a0 a1 s).imp fun _ h => ⟨h.1, .of_touches (h.2.mono rfl)⟩
  | skewcalDone a0 a1 => exact (execSkewcalDone_touches a0 a1 s).imp fun _ h => ⟨h.1, .of_touches (h.2.mono rfl)⟩
  | wallset a0 a1 => exact (execWallset_touches a0 a1 s).imp fun _ h => ⟨h.1, .of_touches (h.2.mono rfl)⟩
  | snap a0 a1 => exact (execSnap_touches a0 a1 s).imp fun _ h => ⟨h.1, .of_touches (h.2.mono rfl)⟩
  | ptpEventMessage a0 a1 a2 => exact (execPtpEventMessage_touches a0 a1 a2 s).imp fun _ h => ⟨h.1, .of_touches (h.2.mono rfl)⟩
  | announceTimeout a0 a1 => exact (execAnnounceTimeout_touches a0 a1 s).imp fun _ h => ⟨h.1, .of_touches (h.2.mono rfl)⟩
  | ptpDomainReturn a0 => exact (execPtpDomainReturn_touches a0 s).imp fun _ h => ⟨h.1, .of_touches (h.2.mono rfl)⟩
  | ethPortLoss a0 => exact (execEthPortLoss_touches a0 s).imp fun _ h => ⟨h.1, .of_touches (h.2.mono rfl)⟩
  | ethRevert a0 => exact (execEthRevert_touches a0 s).imp fun _ h => ⟨h.1, .of_touches (h.2.mono rfl)⟩
  | ethSplice a0 a1 => exact (execEthSplice_touches a0 a1 s).imp fun _ h => ⟨h.1, .of_touches (h.2.mono rfl)⟩
  | ethRevertWrite a0 a1 => exact (execEthRevertWrite_touches a0 a1 s).imp fun _ h => ⟨h.1, .of_touches (h.2.mono rfl)⟩
  | frameLaunch a0 a1 => exact (execFrameLaunch_touches a0 a1 s).imp fun _ h => ⟨h.1, .of_touches (h.2.mono rfl)⟩
  | linkUp a0 a1 a2 a3 => exact (execLinkUp_touches a0 a1 a2 a3 s).imp fun _ h => ⟨h.1, .of_touches (h.2.mono rfl)⟩
  | linkDown a0 a1 => exact (execLinkDown_touches a0 a1 s).imp fun _ h => ⟨h.1, .of_touches (h.2.mono rfl)⟩
  | ringEnable a0 a1 a2 => exact (execRingEnable_touches a0 a1 a2 s).imp fun _ h => ⟨h.1, .of_touches (h.2.mono rfl)⟩
  | ringDisable a0 a1 a2 => exact (execRingDisable_touches a0 a1 a2 s).imp fun _ h => ⟨h.1, .of_touches (h.2.mono rfl)⟩
  | doorbellPoll => exact (execDoorbellPoll_touches s).imp fun _ h => ⟨h.1, .of_touches (h.2.mono rfl)⟩
  | hifKick a0 a1 => exact (execHifKick_touches a0 a1 s).imp fun _ h => ⟨h.1, .of_touches (h.2.mono rfl)⟩
  | doorbellRead a0 a1 a2 a3 => exact (execDoorbellRead_touches a0 a1 a2 a3 s).imp fun _ h => ⟨h.1, .of_touches (h.2.mono rfl)⟩
  | regwrite a0 a1 a2 => exact (execRegwrite_based a0 a1 a2 s).imp fun _ h => ⟨h.1, h.2.mono rfl⟩
  | seqload a0 a1 a2 => exact (execSeqload_based a0 a1 a2 s).imp fun _ h => ⟨h.1, h.2.mono rfl⟩
  | envload a0 a1 a2 => exact (execEnvload_based a0 a1 a2 s).imp fun _ h => ⟨h.1, h.2.mono rfl⟩
  | envtable a0 a1 a2 => exact (execEnvtable_based a0 a1 a2 s).imp fun _ h => ⟨h.1, h.2.mono rfl⟩
  | kernel a0 a1 a2 => exact (execKernel_based a0 a1 a2 s).imp fun _ h => ⟨h.1, h.2.mono rfl⟩
  | truthtable a0 a1 a2 => exact (execTruthtable_touches a0 a1 a2 s).imp fun _ h => ⟨h.1, .of_touches (h.2.mono rfl)⟩
  | hbmxfer a0 a1 a2 => exact (execHbmxfer_based a0 a1 a2 s).imp fun _ h => ⟨h.1, h.2.mono rfl⟩
  | qwrite a0 a1 a2 => exact (execQwrite_touches a0 a1 a2 s).imp fun _ h => ⟨h.1, .of_touches (h.2.mono rfl)⟩
  | qread a0 a1 a2 => exact (execQread_touches a0 a1 a2 s).imp fun _ h => ⟨h.1, .of_touches (h.2.mono rfl)⟩
  | qflush a0 a1 a2 => exact (execQflush_touches a0 a1 a2 s).imp fun _ h => ⟨h.1, .of_touches (h.2.mono rfl)⟩
  | ethsend a0 a1 a2 => exact (execEthsend_touches a0 a1 a2 s).imp fun _ h => ⟨h.1, .of_touches (h.2.mono rfl)⟩
  | nop a0 a1 a2 => exact (execNop_touches a0 a1 a2 s).imp fun _ h => ⟨h.1, .of_touches (h.2.mono rfl)⟩
  | completionEntry a0 a1 => exact (execCompletionEntry_touches a0 a1 s).imp fun _ h => ⟨h.1, .of_touches (h.2.mono rfl)⟩
  | queueEnable a0 a1 => exact (execQueueEnable_touches a0 a1 s).imp fun _ h => ⟨h.1, .of_touches (h.2.mono rfl)⟩
  | queueDisable a0 a1 => exact (execQueueDisable_touches a0 a1 s).imp fun _ h => ⟨h.1, .of_touches (h.2.mono rfl)⟩
  | queueDisableDone a0 a1 => exact (execQueueDisableDone_touches a0 a1 s).imp fun _ h => ⟨h.1, .of_touches (h.2.mono rfl)⟩
  | queueFlush a0 a1 => exact (execQueueFlush_touches a0 a1 s).imp fun _ h => ⟨h.1, .of_touches (h.2.mono rfl)⟩
  | flushDone a0 a1 => exact (execFlushDone_touches a0 a1 s).imp fun _ h => ⟨h.1, .of_touches (h.2.mono rfl)⟩
  | monSample a0 a1 => exact (execMonSample_touches a0 a1 s).imp fun _ h => ⟨h.1, .of_touches (h.2.mono rfl)⟩
  | triggerEdge a0 a1 a2 a3 => exact (execTriggerEdge_based a0 a1 a2 a3 s).imp fun _ h => ⟨h.1, h.2.mono rfl⟩
  | triggerOutWrite a0 a1 a2 => exact (execTriggerOutWrite_based a0 a1 a2 s).imp fun _ h => ⟨h.1, h.2.mono rfl⟩
  | eventWindowEnd a0 a1 => exact (execEventWindowEnd_based a0 a1 s).imp fun _ h => ⟨h.1, h.2.mono rfl⟩
  | calDue a0 a1 => exact (execCalDue_touches a0 a1 s).imp fun _ h => ⟨h.1, .of_touches (h.2.mono rfl)⟩
  | calStepStart a0 a1 a2 => exact (execCalStepStart_based a0 a1 a2 s).imp fun _ h => ⟨h.1, h.2.mono rfl⟩
  | calForced a0 a1 => exact (execCalForced_based a0 a1 s).imp fun _ h => ⟨h.1, h.2.mono rfl⟩
  | calStepEnd a0 => exact (execCalStepEnd_based a0 s).imp fun _ h => ⟨h.1, h.2.mono rfl⟩
  | calCorrection a0 a1 a2 => exact (execCalCorrection_based a0 a1 a2 s).imp fun _ h => ⟨h.1, h.2.mono rfl⟩
  | calApplyBoundary a0 a1 => exact (execCalApplyBoundary_based a0 a1 s).imp fun _ h => ⟨h.1, h.2.mono rfl⟩
  | fgCalDone a0 => exact (execFgCalDone_based a0 s).imp fun _ h => ⟨h.1, h.2.mono rfl⟩
  | scrubRead a0 a1 => exact (execScrubRead_touches a0 a1 s).imp fun _ h => ⟨h.1, .of_touches (h.2.mono rfl)⟩
  | flitCrcFail a0 a1 a2 => exact (execFlitCrcFail_touches a0 a1 a2 s).imp fun _ h => ⟨h.1, .of_touches (h.2.mono rfl)⟩
  | diemarkWrite a0 a1 => exact (execDiemarkWrite_touches a0 a1 s).imp fun _ h => ⟨h.1, .of_touches (h.2.mono rfl)⟩
  | memTestStart a0 a1 => exact (execMemTestStart_touches a0 a1 s).imp fun _ h => ⟨h.1, .of_touches (h.2.mono rfl)⟩
  | memTestAbort a0 a1 => exact (execMemTestAbort_touches a0 a1 s).imp fun _ h => ⟨h.1, .of_touches (h.2.mono rfl)⟩
  | memTestEnd a0 a1 a2 a3 => exact (execMemTestEnd_touches a0 a1 a2 a3 s).imp fun _ h => ⟨h.1, .of_touches (h.2.mono rfl)⟩
  | pwrFail a0 => exact (execPwrFail_based a0 s).imp fun _ h => ⟨h.1, h.2.mono rfl⟩
  | mainsRestored a0 => exact (execMainsRestored_touches a0 s).imp fun _ h => ⟨h.1, .of_touches (h.2.mono rfl)⟩
  | railFault a0 a1 => exact (execRailFault_based a0 a1 s).imp fun _ h => ⟨h.1, h.2.mono rfl⟩
  | dieSensorRead a0 a1 => exact (execDieSensorRead_based a0 a1 s).imp fun _ h => ⟨h.1, h.2.mono rfl⟩
  | thermistorRead a0 a1 => exact (execThermistorRead_based a0 a1 s).imp fun _ h => ⟨h.1, h.2.mono rfl⟩
  | fanFail a0 a1 => exact (execFanFail_touches a0 a1 s).imp fun _ h => ⟨h.1, .of_touches (h.2.mono rfl)⟩
  | journalRecord a0 a1 => exact (execJournalRecord_touches a0 a1 s).imp fun _ h => ⟨h.1, .of_touches (h.2.mono rfl)⟩
  | jrnselWrite a0 a1 => exact (execJrnselWrite_touches a0 a1 s).imp fun _ h => ⟨h.1, .of_touches (h.2.mono rfl)⟩
  | watchdogExpiry a0 a1 => exact (execWatchdogExpiry_touches a0 a1 s).imp fun _ h => ⟨h.1, .of_touches (h.2.mono rfl)⟩
  | mcRestartWrite a0 a1 a2 => exact (execMcRestartWrite_touches a0 a1 a2 s).imp fun _ h => ⟨h.1, .of_touches (h.2.mono rfl)⟩
  | mcRestart a0 a1 a2 => exact (execMcRestart_touches a0 a1 a2 s).imp fun _ h => ⟨h.1, .of_touches (h.2.mono rfl)⟩
  | imgBegin a0 a1 => exact (execImgBegin_touches a0 a1 s).imp fun _ h => ⟨h.1, .of_touches (h.2.mono rfl)⟩
  | imgData a0 a1 => exact (execImgData_touches a0 a1 s).imp fun _ h => ⟨h.1, .of_touches (h.2.mono rfl)⟩
  | imgCommit a0 a1 a2 => exact (execImgCommit_touches a0 a1 a2 s).imp fun _ h => ⟨h.1, .of_touches (h.2.mono rfl)⟩
  | imgAbort a0 => exact (execImgAbort_touches a0 s).imp fun _ h => ⟨h.1, .of_touches (h.2.mono rfl)⟩
  | svnCommit a0 => exact (execSvnCommit_touches a0 s).imp fun _ h => ⟨h.1, .of_touches (h.2.mono rfl)⟩
  | recRead a0 => exact (execRecRead_touches a0 s).imp fun _ h => ⟨h.1, .of_touches (h.2.mono rfl)⟩
  | cageRead a0 => exact (execCageRead_touches a0 s).imp fun _ h => ⟨h.1, .of_touches (h.2.mono rfl)⟩
  | profileWrite a0 a1 a2 => exact (execProfileWrite_based a0 a1 a2 s).imp fun _ h => ⟨h.1, h.2.mono rfl⟩
  | rcRead a0 a1 => exact (execRcRead_based a0 a1 s).imp fun _ h => ⟨h.1, h.2.mono rfl⟩
  | w1cWrite a0 a1 a2 => exact (execW1cWrite_based a0 a1 a2 s).imp fun _ h => ⟨h.1, h.2.mono rfl⟩
  | reg64LowRead a0 a1 => exact (execReg64LowRead_based a0 a1 s).imp fun _ h => ⟨h.1, h.2.mono rfl⟩
  | reg64HighWrite a0 a1 a2 => exact (execReg64HighWrite_based a0 a1 a2 s).imp fun _ h => ⟨h.1, h.2.mono rfl⟩
  | registerWrite a0 a1 a2 a3 => exact (execRegisterWrite_based a0 a1 a2 a3 s).imp fun _ h => ⟨h.1, h.2.mono rfl⟩
  | holdUpRunsOut => exact (execHoldUpRunsOut_touches s).imp fun _ h => ⟨h.1, .of_touches (h.2.mono rfl)⟩
  | rampComplete a0 => exact (execRampComplete_based a0 s).imp fun _ h => ⟨h.1, h.2.mono rfl⟩
  | sramScrub a0 a1 a2 a3 => exact (execSramScrub_touches a0 a1 a2 a3 s).imp fun _ h => ⟨h.1, .of_touches (h.2.mono rfl)⟩
  | d2dRetrainDone a0 a1 => exact (execD2dRetrainDone_touches a0 a1 s).imp fun _ h => ⟨h.1, .of_touches (h.2.mono rfl)⟩
  | slotFrameSend a0 => exact (execSlotFrameSend_based a0 s).imp fun _ h => ⟨h.1, h.2.mono rfl⟩
  | ethPortUp a0 a1 => exact (execEthPortUp_touches a0 a1 s).imp fun _ h => ⟨h.1, .of_touches (h.2.mono rfl)⟩

end Sys2Proof.Machine
end

