-- ==== Sys2Proof/Laws/Regs.lean ====
section
/-! SUPPORT. Which registers a write changes: for each operation that writes registers, the registers it leaves alone
(R14 to R17). -/

namespace Sys2Proof

open Sys2Proof.Machine

theorem RegsKept.refl (L : List RegId) (s : State) : RegsKept L s s := ⟨fun _ _ => rfl⟩

theorem RegsKept.trans {L : List RegId} {r s t : State} (h : RegsKept L s t) (hr : RegsKept L r s) : RegsKept L r t :=
  ⟨fun x hx => (h.keeps x hx).trans (hr.keeps x hx)⟩

theorem RegsKept.of_eq {L : List RegId} {s t : State} (h : t.regs = s.regs) : RegsKept L s t :=
  ⟨fun r _ => by unfold State.reg; rw [h]⟩

theorem RegsKept.mono {L M : List RegId} {s t : State} (h : RegsKept L s t) (hs : L ⊆ M) : RegsKept M s t :=
  ⟨fun r hr => h.keeps r (fun x hx => hr x (hs hx))⟩

/-- An operation that does not touch the registers. -/
theorem RegsKept.step {L : List RegId} {m : List Part} {r s t : State} (h : Touches m s t)
    (hm : m.contains .regs = false) (hr : RegsKept L r s) : RegsKept L r t :=
  RegsKept.trans (RegsKept.of_eq (h.keeps .regs hm)) hr

theorem RegsKept.ite {L : List RegId} {r a b : State} {c : Prop} [Decidable c] (ha : RegsKept L r a) (hb : RegsKept L r b) :
    RegsKept L r (if c then a else b) := by split <;> assumption

theorem RegsKept.foldl {L : List RegId} {r s : State} {β : Type} {f : State → β → State} (xs : List β)
    (hf : ∀ a x, x ∈ xs → RegsKept L r a → RegsKept L r (f a x)) (h : RegsKept L r s) : RegsKept L r (xs.foldl f s) := by
  induction xs generalizing s with
  | nil => exact h
  | cons x xs ih => exact ih (fun a y hy => hf a y (List.mem_cons_of_mem _ hy)) (hf _ _ (List.mem_cons_self ..) h)

theorem RegsKept.setReg {L : List RegId} {r s : State} {x : RegId} {w : Word} (hx : x ∈ L) (h : RegsKept L r s) :
    RegsKept L r (s.setReg x w) :=
  ⟨fun y hy => by
    have hne : x.off ≠ y.off := hy x hx
    rw [← h.keeps y hy]
    unfold State.reg State.setReg
    exact Tab.get_put_ne _ _ _ (fun e => hne e.symm)⟩

theorem RegsKept.setFld {L : List RegId} {r s : State} {x : RegId} {hi lo v : Nat} (hx : x ∈ L) (h : RegsKept L r s) :
    RegsKept L r (s.setFld x hi lo v) := RegsKept.setReg hx h

theorem profileSettings_regs (r : RegId) (c : Nat) :
    (profileSettings r c).map Setting.reg ⊆ (profileSettings r 0 ++ profileSettings r 1).map Setting.reg := by
  rw [List.map_append]
  cases r <;> first
    | exact List.subset_append_left (List.map Setting.reg (profileSettings _ 0)) _
    | (by_cases h : c = 0
       · subst h; exact List.subset_append_left _ _
       · simp [profileSettings, h])
    | (by_cases h : c = 2
       · subst h; simp [profileSettings]
       · simp [profileSettings, h])

theorem mem_writesOf (r : RegId) : r ∈ writesOf r := List.mem_cons_self ..

theorem sub_mem {L M : List RegId} {x : RegId} (h : M ⊆ L) (hx : x ∈ M) : x ∈ L := h hx

theorem mem_writesOf_lo : RegId.syncEpochLo ∈ writesOf .syncEpochHi := by decide

theorem mem_writesOf_ctl (p k : Nat) : RegId.decCtl ∈ writesOf (.decImport p k) := by simp [writesOf, RegId.profileOf]

theorem RegsKept.writeFields {L : List RegId} {r s : State} {x : RegId} {w : Word} (hx : writesOf x ⊆ L)
    (h : RegsKept L r s) : RegsKept L r (s.writeFields x w) := by
  unfold State.writeFields
  dsimp only
  have h1 := RegsKept.setReg (w := x.mergeX (s.reg x) w) (hx (mem_writesOf x)) h
  split
  · split
    · exact h1
    · refine RegsKept.foldl _ (fun a y hy ha => RegsKept.setFld (hx ?_) ha) h1
      exact List.mem_cons_of_mem _ (List.mem_append_left _ (List.mem_append_left _ (profileSettings_regs _ _ (List.mem_map_of_mem hy))))
  · split
    · rename_i f hf
      refine RegsKept.setFld (hx ?_) h1
      exact List.mem_cons_of_mem _ (List.mem_append_left _ (List.mem_append_right _ (by simp [hf])))
    · exact h1

end Sys2Proof

namespace Sys2Proof.Machine

open Sys2Proof


theorem RegsKept.upd_convs {L : List RegId} {r b : State} {v0} (hb : RegsKept L r b) :
    RegsKept L r { b with convs := v0 } := ⟨fun x hx => hb.keeps x hx⟩

theorem RegsKept.upd_lows {L : List RegId} {r b : State} {v0} (hb : RegsKept L r b) :
    RegsKept L r { b with lows := v0 } := ⟨fun x hx => hb.keeps x hx⟩

theorem RegsKept.upd_tio {L : List RegId} {r b : State} {v0} (hb : RegsKept L r b) :
    RegsKept L r { b with tio := v0 } := ⟨fun x hx => hb.keeps x hx⟩

theorem State.wrEpochHi_kept (L : List RegId) (s : State) (hi : Word) (hL : writesOf .syncEpochHi ⊆ L) :
    RegsKept L s (State.wrEpochHi s hi) := by
  unfold State.wrEpochHi
  try dsimp only
  repeat' first
    | with_reducible exact RegsKept.refl _ _
    | with_reducible assumption
    | with_reducible apply RegsKept.ite
    | (with_reducible apply RegsKept.foldl; on_goal 1 => intro _ _ _ _)
    | (with_reducible refine RegsKept.setReg (by first | exact hL | exact sub_mem hL (mem_writesOf _) | exact sub_mem hL mem_writesOf_lo | exact sub_mem hL (mem_writesOf_ctl _ _)) ?_)
    | ((with_reducible apply RegsKept.step (State.unhold_touches ..)); · rfl)
    | ((with_reducible apply RegsKept.step (State.hold_touches ..)); · rfl)
    | with_reducible apply RegsKept.upd_lows
    | split
    | dsimp only

theorem State.wrDctl_kept (L : List RegId) (s : State) (d : Nat) (w : Word) (hL : (.decDctl d) ∈ L) :
    RegsKept L s (State.wrDctl s d w) := by
  unfold State.wrDctl
  try dsimp only
  repeat' first
    | with_reducible exact RegsKept.refl _ _
    | with_reducible assumption
    | with_reducible apply RegsKept.ite
    | (with_reducible apply RegsKept.foldl; on_goal 1 => intro _ _ _ _)
    | (with_reducible refine RegsKept.setReg (by first | exact hL | exact sub_mem hL (mem_writesOf _) | exact sub_mem hL mem_writesOf_lo | exact sub_mem hL (mem_writesOf_ctl _ _)) ?_)
    | ((with_reducible apply RegsKept.step (State.decCommit_touches ..)); · rfl)
    | split
    | dsimp only

theorem State.earlyEnable_kept (L : List RegId) (s : State) (k : Nat) (r : RegId) (w : Word) (hL : r ∈ L) :
    RegsKept L s (State.earlyEnable s k r w) := by
  unfold State.earlyEnable
  try dsimp only
  repeat' first
    | with_reducible exact RegsKept.refl _ _
    | with_reducible assumption
    | with_reducible apply RegsKept.ite
    | (with_reducible apply RegsKept.foldl; on_goal 1 => intro _ _ _ _)
    | (with_reducible refine RegsKept.setFld (by first | exact hL | exact sub_mem hL (mem_writesOf _) | exact sub_mem hL mem_writesOf_lo | exact sub_mem hL (mem_writesOf_ctl _ _)) ?_)
    | ((with_reducible apply RegsKept.step (State.outEnable_touches ..)); · rfl)
    | ((with_reducible apply RegsKept.step (State.plainEnable_touches ..)); · rfl)
    | split
    | dsimp only

theorem State.wrOut_kept (L : List RegId) (s : State) (k o : Nat) (w : Word) (b : Nat) (hL : (outReg k o) ∈ L) :
    RegsKept L s (State.wrOut s k o w b) := by
  unfold State.wrOut
  try dsimp only
  repeat' first
    | with_reducible exact RegsKept.refl _ _
    | with_reducible assumption
    | with_reducible apply RegsKept.ite
    | (with_reducible apply RegsKept.foldl; on_goal 1 => intro _ _ _ _)
    | (with_reducible refine RegsKept.setFld (by first | exact hL | exact sub_mem hL (mem_writesOf _) | exact sub_mem hL mem_writesOf_lo | exact sub_mem hL (mem_writesOf_ctl _ _)) ?_)
    | (with_reducible refine RegsKept.setReg (by first | exact hL | exact sub_mem hL (mem_writesOf _) | exact sub_mem hL mem_writesOf_lo | exact sub_mem hL (mem_writesOf_ctl _ _)) ?_)
    | ((with_reducible apply RegsKept.step (State.setOut_touches ..)); · rfl)
    | ((with_reducible apply RegsKept.step (State.outEnable_touches ..)); · rfl)
    | ((with_reducible apply RegsKept.step (State.wrRange_touches ..)); · rfl)
    | split
    | dsimp only

theorem State.wrDirCtl_kept (L : List RegId) (s : State) (d : Nat) (w : Word) (hL : writesOf (.hchDirCtl d) ⊆ L) :
    RegsKept L s (State.wrDirCtl s d w) := by
  unfold State.wrDirCtl
  try dsimp only
  repeat' first
    | with_reducible exact RegsKept.refl _ _
    | with_reducible assumption
    | with_reducible apply RegsKept.ite
    | (with_reducible apply RegsKept.foldl; on_goal 1 => intro _ _ _ _)
    | (with_reducible refine RegsKept.writeFields (by first | exact hL | exact sub_mem hL (mem_writesOf _) | exact sub_mem hL mem_writesOf_lo | exact sub_mem hL (mem_writesOf_ctl _ _)) ?_)
    | ((with_reducible apply RegsKept.step (State.dirEnable_touches ..)); · rfl)
    | ((with_reducible apply RegsKept.step (State.setBIdle_touches ..)); · rfl)
    | ((with_reducible apply RegsKept.step (State.askSwitch_touches ..)); · rfl)
    | split
    | dsimp only

theorem State.putMark_kept (L : List RegId) (s : State) (w : Word) (hL : RegId.memDieMark ∈ L) :
    RegsKept L s (State.putMark s w) := by
  unfold State.putMark
  try dsimp only
  repeat' first
    | with_reducible exact RegsKept.refl _ _
    | with_reducible assumption
    | with_reducible apply RegsKept.ite
    | (with_reducible apply RegsKept.foldl; on_goal 1 => intro _ _ _ _)
    | ((with_reducible apply RegsKept.step (State.toJournal_touches ..)); · rfl)
    | (with_reducible refine RegsKept.setReg (by first | exact hL | exact sub_mem hL (mem_writesOf _) | exact sub_mem hL mem_writesOf_lo | exact sub_mem hL (mem_writesOf_ctl _ _)) ?_)
    | split
    | dsimp only

theorem State.overThr_kept (L : List RegId) (s : State) (d : Nat) (hL : RegId.memDieMark ∈ L) :
    RegsKept L s (State.overThr s d) := by
  unfold State.overThr
  try dsimp only
  repeat' first
    | with_reducible exact RegsKept.refl _ _
    | with_reducible assumption
    | with_reducible apply RegsKept.ite
    | (with_reducible apply RegsKept.foldl; on_goal 1 => intro _ _ _ _)
    | ((with_reducible apply RegsKept.step (State.raise_touches ..)); · rfl)
    | (with_reducible refine RegsKept.trans (State.putMark_kept L _ _ (by first | exact hL | exact sub_mem hL (mem_writesOf _))) ?_)
    | split
    | dsimp only

theorem State.dieCorrected_kept (L : List RegId) (s : State) (d n : Nat) (hL : RegId.memDieMark ∈ L) :
    RegsKept L s (State.dieCorrected s d n) := by
  unfold State.dieCorrected
  try dsimp only
  repeat' first
    | with_reducible exact RegsKept.refl _ _
    | with_reducible assumption
    | with_reducible apply RegsKept.ite
    | (with_reducible apply RegsKept.foldl; on_goal 1 => intro _ _ _ _)
    | ((with_reducible apply RegsKept.step (State.setMem_touches ..)); · rfl)
    | ((with_reducible apply RegsKept.step (State.bump_touches ..)); · rfl)
    | ((with_reducible apply RegsKept.step (State.raise_touches ..)); · rfl)
    | (with_reducible refine RegsKept.trans (State.overThr_kept L _ _ (by first | exact hL | exact sub_mem hL (mem_writesOf _))) ?_)
    | split
    | dsimp only

theorem State.setEpoch_kept (L : List RegId) (s : State) (v : Nat) (hL : writesOf .syncEpochHi ⊆ L) :
    RegsKept L s (State.setEpoch s v) := by
  unfold State.setEpoch
  try dsimp only
  repeat' first
    | with_reducible exact RegsKept.refl _ _
    | with_reducible assumption
    | with_reducible apply RegsKept.ite
    | (with_reducible apply RegsKept.foldl; on_goal 1 => intro _ _ _ _)
    | (with_reducible refine RegsKept.setReg (by first | exact hL | exact sub_mem hL (mem_writesOf _) | exact sub_mem hL mem_writesOf_lo | exact sub_mem hL (mem_writesOf_ctl _ _)) ?_)
    | split
    | dsimp only

theorem State.load_kept (L : List RegId) (s : State) (v : Nat) (i : Int) (hL : writesOf .syncEpochHi ⊆ L) :
    RegsKept L s (State.load s v i) := by
  unfold State.load
  try dsimp only
  repeat' first
    | with_reducible exact RegsKept.refl _ _
    | with_reducible assumption
    | with_reducible apply RegsKept.ite
    | (with_reducible apply RegsKept.foldl; on_goal 1 => intro _ _ _ _)
    | ((with_reducible apply RegsKept.step (State.syncRefused_touches ..)); · rfl)
    | ((with_reducible apply RegsKept.step (State.setSync_touches ..)); · rfl)
    | ((with_reducible apply RegsKept.step (State.setPtp_touches ..)); · rfl)
    | ((with_reducible apply RegsKept.step (State.shiftTimers_touches ..)); · rfl)
    | ((with_reducible apply RegsKept.step (State.clockTo_touches ..)); · rfl)
    | (with_reducible refine RegsKept.trans (State.setEpoch_kept L _ _ (by first | exact hL | exact sub_mem hL (mem_writesOf _))) ?_)
    | ((with_reducible apply RegsKept.step (State.raise_touches ..)); · rfl)
    | split
    | dsimp only

theorem State.wrHchCtl_kept (L : List RegId) (s : State) (w : Word) (hL : RegId.hchCtl ∈ L) :
    RegsKept L s (State.wrHchCtl s w) := by
  unfold State.wrHchCtl
  try dsimp only
  repeat' first
    | with_reducible exact RegsKept.refl _ _
    | with_reducible assumption
    | with_reducible apply RegsKept.ite
    | (with_reducible apply RegsKept.foldl; on_goal 1 => intro _ _ _ _)
    | (with_reducible refine RegsKept.setReg (by first | exact hL | exact sub_mem hL (mem_writesOf _) | exact sub_mem hL mem_writesOf_lo | exact sub_mem hL (mem_writesOf_ctl _ _)) ?_)
    | ((with_reducible apply RegsKept.step (State.unhold_touches ..)); · rfl)
    | ((with_reducible apply RegsKept.step (State.hold_touches ..)); · rfl)
    | split
    | dsimp only

theorem State.wrInCtl_kept (L : List RegId) (s : State) (k i : Nat) (w : Word) (b : Nat) (hL : writesOf (.acqInCtl k i) ⊆ L) :
    RegsKept L s (State.wrInCtl s k i w b) := by
  unfold State.wrInCtl
  try dsimp only
  repeat' first
    | with_reducible exact RegsKept.refl _ _
    | with_reducible assumption
    | with_reducible apply RegsKept.ite
    | (with_reducible apply RegsKept.foldl; on_goal 1 => intro _ _ _ _)
    | (with_reducible refine RegsKept.writeFields (by first | exact hL | exact sub_mem hL (mem_writesOf _) | exact sub_mem hL mem_writesOf_lo | exact sub_mem hL (mem_writesOf_ctl _ _)) ?_)
    | ((with_reducible apply RegsKept.step (State.unhold_touches ..)); · rfl)
    | ((with_reducible apply RegsKept.step (State.hold_touches ..)); · rfl)
    | (with_reducible refine RegsKept.setFld (by first | exact hL | exact sub_mem hL (mem_writesOf _) | exact sub_mem hL mem_writesOf_lo | exact sub_mem hL (mem_writesOf_ctl _ _)) ?_)
    | ((with_reducible apply RegsKept.step (State.startSettle_touches ..)); · rfl)
    | ((with_reducible apply RegsKept.step (State.calAbort_touches ..)); · rfl)
    | ((with_reducible apply RegsKept.step (State.plainEnable_touches ..)); · rfl)
    | split
    | dsimp only

theorem State.wrPtpCtl_kept (L : List RegId) (s : State) (w : Word) (hL : writesOf .ptpCtl ⊆ L) :
    RegsKept L s (State.wrPtpCtl s w) := by
  unfold State.wrPtpCtl
  try dsimp only
  repeat' first
    | with_reducible exact RegsKept.refl _ _
    | with_reducible assumption
    | with_reducible apply RegsKept.ite
    | (with_reducible apply RegsKept.foldl; on_goal 1 => intro _ _ _ _)
    | (with_reducible refine RegsKept.writeFields (by first | exact hL | exact sub_mem hL (mem_writesOf _) | exact sub_mem hL mem_writesOf_lo | exact sub_mem hL (mem_writesOf_ctl _ _)) ?_)
    | ((with_reducible apply RegsKept.step (State.askPort_touches ..)); · rfl)
    | ((with_reducible apply RegsKept.step (State.stepWall_touches ..)); · rfl)
    | ((with_reducible apply RegsKept.step (State.setPtp_touches ..)); · rfl)
    | ((with_reducible apply RegsKept.step (State.passFrames_touches ..)); · rfl)
    | ((with_reducible apply RegsKept.step (State.clockTo_touches ..)); · rfl)
    | split
    | dsimp only

theorem State.setTrig_kept (L : List RegId) (s : State) (x : TrigTarget) (w : Word) (hL : trigReg x ∈ L) :
    RegsKept L s (State.setTrig s x w) := by
  unfold State.setTrig
  dsimp only
  have h := RegsKept.setReg (w := RegId.mergeX (trigReg x) (s.reg (trigReg x)) w) hL
    (RegsKept.step (State.unhold_touches s (trigReg x)) rfl (RegsKept.refl L s))
  cases x
  · exact h
  · exact RegsKept.upd_tio h

theorem State.syncPulse_kept (L : List RegId) (s : State) (a : Nat) (hL : writesOf .syncEpochHi ⊆ L) :
    RegsKept L s (State.syncPulse s a) := by
  unfold State.syncPulse
  try dsimp only
  repeat' first
    | with_reducible exact RegsKept.refl _ _
    | with_reducible assumption
    | with_reducible apply RegsKept.ite
    | (with_reducible apply RegsKept.foldl; on_goal 1 => intro _ _ _ _)
    | (with_reducible refine RegsKept.trans (State.load_kept L _ _ _ (by first | exact hL | exact sub_mem hL (mem_writesOf _))) ?_)
    | ((with_reducible apply RegsKept.step (State.setSync_touches ..)); · rfl)
    | ((with_reducible apply RegsKept.step (State.raise_touches ..)); · rfl)
    | split
    | dsimp only

theorem State.wrOwn_kept (L : List RegId) (s : State) (k u : Nat) (w : Word) (hL : (.seqOwn k u) ∈ L) :
    RegsKept L s (State.wrOwn s k u w) := by
  unfold State.wrOwn
  try dsimp only
  repeat' first
    | with_reducible exact RegsKept.refl _ _
    | with_reducible assumption
    | with_reducible apply RegsKept.ite
    | (with_reducible apply RegsKept.foldl; on_goal 1 => intro _ _ _ _)
    | ((with_reducible apply RegsKept.step (State.hold_touches ..)); · rfl)
    | (with_reducible refine RegsKept.setReg (by first | exact hL | exact sub_mem hL (mem_writesOf _) | exact sub_mem hL mem_writesOf_lo | exact sub_mem hL (mem_writesOf_ctl _ _)) ?_)
    | ((with_reducible apply RegsKept.step (State.unhold_touches ..)); · rfl)
    | split
    | dsimp only

theorem State.wrRfCtl_kept (L : List RegId) (s : State) (k o : Nat) (w : Word) (hL : writesOf (.outRfCtl k o) ⊆ L) :
    RegsKept L s (State.wrRfCtl s k o w) := by
  unfold State.wrRfCtl
  try dsimp only
  repeat' first
    | with_reducible exact RegsKept.refl _ _
    | with_reducible assumption
    | with_reducible apply RegsKept.ite
    | (with_reducible apply RegsKept.foldl; on_goal 1 => intro _ _ _ _)
    | (with_reducible refine RegsKept.writeFields (by first | exact hL | exact sub_mem hL (mem_writesOf _) | exact sub_mem hL mem_writesOf_lo | exact sub_mem hL (mem_writesOf_ctl _ _)) ?_)
    | ((with_reducible apply RegsKept.step (State.unhold_touches ..)); · rfl)
    | ((with_reducible apply RegsKept.step (State.hold_touches ..)); · rfl)
    | (with_reducible refine RegsKept.setFld (by first | exact hL | exact sub_mem hL (mem_writesOf _) | exact sub_mem hL mem_writesOf_lo | exact sub_mem hL (mem_writesOf_ctl _ _)) ?_)
    | split
    | dsimp only

theorem State.wrBbCtl_kept (L : List RegId) (s : State) (k c : Nat) (w : Word) (hL : writesOf (.outBbCtl k c) ⊆ L) :
    RegsKept L s (State.wrBbCtl s k c w) := by
  unfold State.wrBbCtl
  try dsimp only
  repeat' first
    | with_reducible exact RegsKept.refl _ _
    | with_reducible assumption
    | with_reducible apply RegsKept.ite
    | (with_reducible apply RegsKept.foldl; on_goal 1 => intro _ _ _ _)
    | (with_reducible refine RegsKept.writeFields (by first | exact hL | exact sub_mem hL (mem_writesOf _) | exact sub_mem hL mem_writesOf_lo | exact sub_mem hL (mem_writesOf_ctl _ _)) ?_)
    | ((with_reducible apply RegsKept.step (State.settleChain_touches ..)); · rfl)
    | ((with_reducible apply RegsKept.step (State.unhold_touches ..)); · rfl)
    | ((with_reducible apply RegsKept.step (State.hold_touches ..)); · rfl)
    | (with_reducible refine RegsKept.setFld (by first | exact hL | exact sub_mem hL (mem_writesOf _) | exact sub_mem hL mem_writesOf_lo | exact sub_mem hL (mem_writesOf_ctl _ _)) ?_)
    | ((with_reducible apply RegsKept.step (State.pdCommit_touches ..)); · rfl)
    | split
    | dsimp only

theorem State.wrTrig_kept (L : List RegId) (s : State) (x : TrigTarget) (w : Word) (hL : (trigReg x) ∈ L) :
    RegsKept L s (State.wrTrig s x w) := by
  unfold State.wrTrig
  try dsimp only
  repeat' first
    | with_reducible exact RegsKept.refl _ _
    | with_reducible assumption
    | with_reducible apply RegsKept.ite
    | (with_reducible apply RegsKept.foldl; on_goal 1 => intro _ _ _ _)
    | ((with_reducible apply RegsKept.step (State.hold_touches ..)); · rfl)
    | (with_reducible refine RegsKept.trans (State.setTrig_kept L _ _ _ (by first | exact hL | exact sub_mem hL (mem_writesOf _))) ?_)
    | split
    | dsimp only

theorem State.wrSyncCtl_kept (L : List RegId) (s : State) (w : Word) (hL : writesOf .syncCtl ⊆ L) :
    RegsKept L s (State.wrSyncCtl s w) := by
  unfold State.wrSyncCtl
  try dsimp only
  repeat' first
    | with_reducible exact RegsKept.refl _ _
    | with_reducible assumption
    | with_reducible apply RegsKept.ite
    | (with_reducible apply RegsKept.foldl; on_goal 1 => intro _ _ _ _)
    | (with_reducible refine RegsKept.writeFields (by first | exact hL | exact sub_mem hL (mem_writesOf _) | exact sub_mem hL mem_writesOf_lo | exact sub_mem hL (mem_writesOf_ctl _ _)) ?_)
    | ((with_reducible apply RegsKept.step (State.unhold_touches ..)); · rfl)
    | ((with_reducible apply RegsKept.step (State.selectRef_touches ..)); · rfl)
    | (with_reducible refine RegsKept.setFld (by first | exact hL | exact sub_mem hL (mem_writesOf _) | exact sub_mem hL mem_writesOf_lo | exact sub_mem hL (mem_writesOf_ctl _ _)) ?_)
    | ((with_reducible apply RegsKept.step (State.hold_touches ..)); · rfl)
    | ((with_reducible apply RegsKept.step (State.startSkew_touches ..)); · rfl)
    | ((with_reducible apply RegsKept.step (State.setSync_touches ..)); · rfl)
    | ((with_reducible apply RegsKept.step (State.armLoad_touches ..)); · rfl)
    | split
    | dsimp only

theorem State.wrTone_kept (L : List RegId) (s : State) (k u : Nat) (w : Word) (hL : writesOf (.outToneCtl k u) ⊆ L) :
    RegsKept L s (State.wrTone s k u w) := by
  unfold State.wrTone
  try dsimp only
  repeat' first
    | with_reducible exact RegsKept.refl _ _
    | with_reducible assumption
    | with_reducible apply RegsKept.ite
    | (with_reducible apply RegsKept.foldl; on_goal 1 => intro _ _ _ _)
    | ((with_reducible apply RegsKept.step (State.plainEnable_touches ..)); · rfl)
    | ((with_reducible apply RegsKept.step (State.notePhases_touches ..)); · rfl)
    | (with_reducible refine RegsKept.writeFields (by first | exact hL | exact sub_mem hL (mem_writesOf _) | exact sub_mem hL mem_writesOf_lo | exact sub_mem hL (mem_writesOf_ctl _ _)) ?_)
    | split
    | dsimp only

theorem State.setStatic_kept (L : List RegId) (s : State) (k c lvl t : Nat) (hL : (.outStatic k c) ∈ L) :
    RegsKept L s (State.setStatic s k c lvl t) := by
  unfold State.setStatic
  try dsimp only
  repeat' first
    | with_reducible exact RegsKept.refl _ _
    | with_reducible assumption
    | with_reducible apply RegsKept.ite
    | (with_reducible apply RegsKept.foldl; on_goal 1 => intro _ _ _ _)
    | ((with_reducible apply RegsKept.step (State.settleChain_touches ..)); · rfl)
    | (with_reducible refine RegsKept.setFld (by first | exact hL | exact sub_mem hL (mem_writesOf _) | exact sub_mem hL mem_writesOf_lo | exact sub_mem hL (mem_writesOf_ctl _ _)) ?_)
    | ((with_reducible apply RegsKept.step (State.setOut_touches ..)); · rfl)
    | ((with_reducible apply RegsKept.step (State.goLive_touches ..)); · rfl)
    | split
    | dsimp only

theorem State.wrStatic_kept (L : List RegId) (s : State) (k c : Nat) (w : Word) (hL : (.outStatic k c) ∈ L) :
    RegsKept L s (State.wrStatic s k c w) := by
  unfold State.wrStatic
  try dsimp only
  repeat' first
    | with_reducible exact RegsKept.refl _ _
    | with_reducible assumption
    | with_reducible apply RegsKept.ite
    | (with_reducible apply RegsKept.foldl; on_goal 1 => intro _ _ _ _)
    | ((with_reducible apply RegsKept.step (State.setOut_touches ..)); · rfl)
    | (with_reducible refine RegsKept.setFld (by first | exact hL | exact sub_mem hL (mem_writesOf _) | exact sub_mem hL mem_writesOf_lo | exact sub_mem hL (mem_writesOf_ctl _ _)) ?_)
    | split
    | dsimp only

theorem State.wrDiscCtl_kept (L : List RegId) (s : State) (k r : Nat) (w : Word) (hL : writesOf (.discCtl k r) ⊆ L) :
    RegsKept L s (State.wrDiscCtl s k r w) := by
  unfold State.wrDiscCtl
  try dsimp only
  repeat' first
    | with_reducible exact RegsKept.refl _ _
    | with_reducible assumption
    | with_reducible apply RegsKept.ite
    | (with_reducible apply RegsKept.foldl; on_goal 1 => intro _ _ _ _)
    | (with_reducible refine RegsKept.writeFields (by first | exact hL | exact sub_mem hL (mem_writesOf _) | exact sub_mem hL mem_writesOf_lo | exact sub_mem hL (mem_writesOf_ctl _ _)) ?_)
    | ((with_reducible apply RegsKept.step (State.setRtone_touches ..)); · rfl)
    | split
    | dsimp only

theorem State.ringOn_kept (L : List RegId) (s : State) (n : Nat) (hL : (.hifRingCtl n) ∈ L) :
    RegsKept L s (State.ringOn s n) := by
  unfold State.ringOn
  try dsimp only
  repeat' first
    | with_reducible exact RegsKept.refl _ _
    | with_reducible assumption
    | with_reducible apply RegsKept.ite
    | (with_reducible apply RegsKept.foldl; on_goal 1 => intro _ _ _ _)
    | ((with_reducible apply RegsKept.step (State.setRing_touches ..)); · rfl)
    | ((with_reducible apply RegsKept.step (State.ringEvent_touches ..)); · rfl)
    | (with_reducible refine RegsKept.setFld (by first | exact hL | exact sub_mem hL (mem_writesOf _) | exact sub_mem hL mem_writesOf_lo | exact sub_mem hL (mem_writesOf_ctl _ _)) ?_)
    | split
    | dsimp only

theorem State.wrRingCtl_kept (L : List RegId) (s : State) (n : Nat) (w : Word) (hL : writesOf (.hifRingCtl n) ⊆ L) :
    RegsKept L s (State.wrRingCtl s n w) := by
  unfold State.wrRingCtl
  try dsimp only
  repeat' first
    | with_reducible exact RegsKept.refl _ _
    | with_reducible assumption
    | with_reducible apply RegsKept.ite
    | (with_reducible apply RegsKept.foldl; on_goal 1 => intro _ _ _ _)
    | ((with_reducible apply RegsKept.step (State.drained_touches ..)); · rfl)
    | ((with_reducible apply RegsKept.step (State.setRing_touches ..)); · rfl)
    | (with_reducible refine RegsKept.setFld (by first | exact hL | exact sub_mem hL (mem_writesOf _) | exact sub_mem hL mem_writesOf_lo | exact sub_mem hL (mem_writesOf_ctl _ _)) ?_)
    | (with_reducible refine RegsKept.writeFields (by first | exact hL | exact sub_mem hL (mem_writesOf _) | exact sub_mem hL mem_writesOf_lo | exact sub_mem hL (mem_writesOf_ctl _ _)) ?_)
    | (with_reducible refine RegsKept.trans (State.ringOn_kept L _ _ (by first | exact hL | exact sub_mem hL (mem_writesOf _))) ?_)
    | split
    | dsimp only

theorem State.endDeferral_kept (L : List RegId) (s : State) (p from' : Nat) (hL : RegId.calLastDefer ∈ L) :
    RegsKept L s (State.endDeferral s p from') := by
  unfold State.endDeferral
  try dsimp only
  repeat' first
    | with_reducible exact RegsKept.refl _ _
    | with_reducible assumption
    | with_reducible apply RegsKept.ite
    | (with_reducible apply RegsKept.foldl; on_goal 1 => intro _ _ _ _)
    | ((with_reducible apply RegsKept.step (State.raise_touches ..)); · rfl)
    | (with_reducible refine RegsKept.setReg (by first | exact hL | exact sub_mem hL (mem_writesOf _) | exact sub_mem hL mem_writesOf_lo | exact sub_mem hL (mem_writesOf_ctl _ _)) ?_)
    | with_reducible apply RegsKept.upd_convs
    | split
    | dsimp only

theorem State.stepCorr_kept (L : List RegId) (s : State) (x : Nat) (g : CalStep) (c : Corr) (hL : RegId.calLastDefer ∈ L) :
    RegsKept L s (State.stepCorr s x g c) := by
  unfold State.stepCorr
  dsimp only
  generalize hb : ((s.setConv x { s.conv x with meas := none }).setEngine (convStrand x / 8) { s.engine (convStrand x / 8) with meas := none }) = b
  have h0 : RegsKept L s b := hb ▸ RegsKept.step (State.setEngine_touches ..) rfl (RegsKept.step (State.setConv_touches ..) rfl (RegsKept.refl L s))
  have h1 := RegsKept.trans (State.endDeferral_kept L b (convStrand x / 8) g.stop hL) h0
  generalize b.endDeferral (convStrand x / 8) g.stop = d at *
  have h2 : ∀ v, RegsKept L s (d.setConv x v) := fun v => RegsKept.step (State.setConv_touches ..) rfl h1
  split
  · exact RegsKept.step (State.outlier_touches ..) rfl h1
  · split
    · exact RegsKept.step (State.putCorr_touches ..) rfl (h2 _)
    · exact RegsKept.step (State.applyCorr_touches ..) rfl (h2 _)

theorem State.correction_kept (L : List RegId) (s : State) (x : Nat) (c : Corr) (hL : RegId.calLastDefer ∈ L) :
    RegsKept L s (State.correction s x c) := by
  unfold State.correction
  try dsimp only
  repeat' first
    | with_reducible exact RegsKept.refl _ _
    | with_reducible assumption
    | with_reducible apply RegsKept.ite
    | (with_reducible apply RegsKept.foldl; on_goal 1 => intro _ _ _ _)
    | with_reducible exact State.stepCorr_kept L _ _ _ _ hL
    | ((with_reducible apply RegsKept.step (State.fgCorr_touches ..)); · rfl)
    | ((with_reducible apply RegsKept.step (State.background_touches ..)); · rfl)
    | split
    | dsimp only

theorem State.wrTestCtl_kept (L : List RegId) (s : State) (w : Word) (hL : writesOf .memTestCtl ⊆ L) :
    RegsKept L s (State.wrTestCtl s w) := by
  unfold State.wrTestCtl
  try dsimp only
  repeat' first
    | with_reducible exact RegsKept.refl _ _
    | with_reducible assumption
    | with_reducible apply RegsKept.ite
    | (with_reducible apply RegsKept.foldl; on_goal 1 => intro _ _ _ _)
    | (with_reducible refine RegsKept.writeFields (by first | exact hL | exact sub_mem hL (mem_writesOf _) | exact sub_mem hL mem_writesOf_lo | exact sub_mem hL (mem_writesOf_ctl _ _)) ?_)
    | ((with_reducible apply RegsKept.step (State.abortTest_touches ..)); · rfl)
    | ((with_reducible apply RegsKept.step (State.startTest_touches ..)); · rfl)
    | split
    | dsimp only

theorem State.wrMbCmd_kept (L : List RegId) (s : State) (w : Word) (hL : RegId.mcMbCmd ∈ L) :
    RegsKept L s (State.wrMbCmd s w) := by
  unfold State.wrMbCmd
  try dsimp only
  repeat' first
    | with_reducible exact RegsKept.refl _ _
    | with_reducible assumption
    | with_reducible apply RegsKept.ite
    | (with_reducible apply RegsKept.foldl; on_goal 1 => intro _ _ _ _)
    | ((with_reducible apply RegsKept.step (State.setFlag_touches ..)); · rfl)
    | (with_reducible refine RegsKept.setReg (by first | exact hL | exact sub_mem hL (mem_writesOf _) | exact sub_mem hL mem_writesOf_lo | exact sub_mem hL (mem_writesOf_ctl _ _)) ?_)
    | ((with_reducible apply RegsKept.step (State.setMc_touches ..)); · rfl)
    | ((with_reducible apply RegsKept.step (State.mbDone_touches ..)); · rfl)
    | split
    | dsimp only

theorem State.wrJrnSel_kept (L : List RegId) (s : State) (w : Word) (hL : RegId.pwrJrnSel ∈ L) :
    RegsKept L s (State.wrJrnSel s w) := by
  unfold State.wrJrnSel
  try dsimp only
  repeat' first
    | with_reducible exact RegsKept.refl _ _
    | with_reducible assumption
    | with_reducible apply RegsKept.ite
    | (with_reducible apply RegsKept.foldl; on_goal 1 => intro _ _ _ _)
    | (with_reducible refine RegsKept.setReg (by first | exact hL | exact sub_mem hL (mem_writesOf _) | exact sub_mem hL mem_writesOf_lo | exact sub_mem hL (mem_writesOf_ctl _ _)) ?_)
    | ((with_reducible apply RegsKept.step (State.setPwr_touches ..)); · rfl)
    | split
    | dsimp only

theorem State.wrRingReg_kept (L : List RegId) (s : State) (n : Nat) (r : RegId) (w : Word) (hL : writesOf r ⊆ L) :
    RegsKept L s (State.wrRingReg s n r w) := by
  unfold State.wrRingReg
  try dsimp only
  repeat' first
    | with_reducible exact RegsKept.refl _ _
    | with_reducible assumption
    | with_reducible apply RegsKept.ite
    | (with_reducible apply RegsKept.foldl; on_goal 1 => intro _ _ _ _)
    | (with_reducible refine RegsKept.writeFields (by first | exact hL | exact sub_mem hL (mem_writesOf _) | exact sub_mem hL mem_writesOf_lo | exact sub_mem hL (mem_writesOf_ctl _ _)) ?_)
    | split
    | dsimp only

theorem State.wrLaneCtl_kept (L : List RegId) (s : State) (l : Nat) (w : Word) (hL : writesOf (.hchLaneCtl l) ⊆ L) :
    RegsKept L s (State.wrLaneCtl s l w) := by
  unfold State.wrLaneCtl
  try dsimp only
  repeat' first
    | with_reducible exact RegsKept.refl _ _
    | with_reducible assumption
    | with_reducible apply RegsKept.ite
    | (with_reducible apply RegsKept.foldl; on_goal 1 => intro _ _ _ _)
    | (with_reducible refine RegsKept.writeFields (by first | exact hL | exact sub_mem hL (mem_writesOf _) | exact sub_mem hL mem_writesOf_lo | exact sub_mem hL (mem_writesOf_ctl _ _)) ?_)
    | ((with_reducible apply RegsKept.step (State.evalHealth_touches ..)); · rfl)
    | ((with_reducible apply RegsKept.step (State.prbsEnds_touches ..)); · rfl)
    | split
    | dsimp only

theorem State.wrDieMark_kept (L : List RegId) (s : State) (w : Word) (hL : RegId.memDieMark ∈ L) :
    RegsKept L s (State.wrDieMark s w) := by
  unfold State.wrDieMark
  try dsimp only
  repeat' first
    | with_reducible exact RegsKept.refl _ _
    | with_reducible assumption
    | with_reducible apply RegsKept.ite
    | (with_reducible apply RegsKept.foldl; on_goal 1 => intro _ _ _ _)
    | (with_reducible refine RegsKept.trans (State.putMark_kept L _ _ (by first | exact hL | exact sub_mem hL (mem_writesOf _))) ?_)
    | split
    | dsimp only

theorem State.wrMonCtl_kept (L : List RegId) (s : State) (n : Nat) (w : Word) (hL : writesOf (.monCtl n) ⊆ L) :
    RegsKept L s (State.wrMonCtl s n w) := by
  unfold State.wrMonCtl
  try dsimp only
  repeat' first
    | with_reducible exact RegsKept.refl _ _
    | with_reducible assumption
    | with_reducible apply RegsKept.ite
    | (with_reducible apply RegsKept.foldl; on_goal 1 => intro _ _ _ _)
    | (with_reducible refine RegsKept.writeFields (by first | exact hL | exact sub_mem hL (mem_writesOf _) | exact sub_mem hL mem_writesOf_lo | exact sub_mem hL (mem_writesOf_ctl _ _)) ?_)
    | ((with_reducible apply RegsKept.step (State.closeBatch_touches ..)); · rfl)
    | ((with_reducible apply RegsKept.step (State.plainEnable_touches ..)); · rfl)
    | ((with_reducible apply RegsKept.step (State.setMonIn_touches ..)); · rfl)
    | split
    | dsimp only

theorem State.wrTioIn_kept (L : List RegId) (s : State) (i : Nat) (w : Word) (hL : writesOf (.tioInCtl i) ⊆ L) :
    RegsKept L s (State.wrTioIn s i w) := by
  unfold State.wrTioIn
  try dsimp only
  repeat' first
    | with_reducible exact RegsKept.refl _ _
    | with_reducible assumption
    | with_reducible apply RegsKept.ite
    | (with_reducible apply RegsKept.foldl; on_goal 1 => intro _ _ _ _)
    | (with_reducible refine RegsKept.writeFields (by first | exact hL | exact sub_mem hL (mem_writesOf _) | exact sub_mem hL mem_writesOf_lo | exact sub_mem hL (mem_writesOf_ctl _ _)) ?_)
    | ((with_reducible apply RegsKept.step (State.transition_touches ..)); · rfl)
    | split
    | dsimp only

theorem State.wrPlyClk_kept (L : List RegId) (s : State) (p : Nat) (w : Word) (hL : (.plyClkCtl p) ∈ L) :
    RegsKept L s (State.wrPlyClk s p w) := by
  unfold State.wrPlyClk
  try dsimp only
  repeat' first
    | with_reducible exact RegsKept.refl _ _
    | with_reducible assumption
    | with_reducible apply RegsKept.ite
    | (with_reducible apply RegsKept.foldl; on_goal 1 => intro _ _ _ _)
    | (with_reducible refine RegsKept.setReg (by first | exact hL | exact sub_mem hL (mem_writesOf _) | exact sub_mem hL mem_writesOf_lo | exact sub_mem hL (mem_writesOf_ctl _ _)) ?_)
    | ((with_reducible apply RegsKept.step (State.startPly_touches ..)); · rfl)
    | ((with_reducible apply RegsKept.step (State.setPly_touches ..)); · rfl)
    | ((with_reducible apply RegsKept.step (State.countIdle_touches ..)); · rfl)
    | split
    | dsimp only

theorem State.codewordRead_kept (L : List RegId) (s : State) (c : Nat) (bad : List Nat) (hL : RegId.memDieMark ∈ L) :
    RegsKept L s (State.codewordRead s c bad) := by
  unfold State.codewordRead
  try dsimp only
  repeat' first
    | with_reducible exact RegsKept.refl _ _
    | with_reducible assumption
    | with_reducible apply RegsKept.ite
    | (with_reducible apply RegsKept.foldl; on_goal 1 => intro _ _ _ _)
    | ((with_reducible apply RegsKept.step (State.setMem_touches ..)); · rfl)
    | ((with_reducible apply RegsKept.step (State.memUe_touches ..)); · rfl)
    | (with_reducible refine RegsKept.trans (State.dieCorrected_kept L _ _ _ (by first | exact hL | exact sub_mem hL (mem_writesOf _))) ?_)
    | ((with_reducible apply RegsKept.step (State.bump_touches ..)); · rfl)
    | split
    | dsimp only

theorem State.scrubRead_kept (L : List RegId) (s : State) (bad : List Nat) (hL : RegId.memDieMark ∈ L) :
    RegsKept L s (State.scrubRead s bad) := by
  unfold State.scrubRead
  try dsimp only
  repeat' first
    | with_reducible exact RegsKept.refl _ _
    | with_reducible assumption
    | with_reducible apply RegsKept.ite
    | (with_reducible apply RegsKept.foldl; on_goal 1 => intro _ _ _ _)
    | (with_reducible refine RegsKept.trans (State.codewordRead_kept L _ _ _ (by first | exact hL | exact sub_mem hL (mem_writesOf _))) ?_)
    | ((with_reducible apply RegsKept.step (State.setMem_touches ..)); · rfl)
    | split
    | dsimp only

/-- Time reached with what is due by then done: from the state so settled no register changes. -/
theorem State.toTime_kept (L : List RegId) (s : State) (t : Nat) : ∃ a, Settled s a ∧ RegsKept L a (s.toTime t) :=
  ⟨_, .outs _ (State.due_settled (.refl)), RegsKept.step (State.clockTo_touches ..) rfl (RegsKept.refl _ _)⟩

theorem State.upTo_kept (L : List RegId) (s : State) (t : BitVec 64) : ∃ a, Settled s a ∧ RegsKept L a (s.upTo t) :=
  ⟨_, .outs _ (State.due_settled (.refl)), RegsKept.step (State.at_touches ..) rfl (RegsKept.refl _ _)⟩

theorem State.rangeSettled_kept (L : List RegId) (s : State) (k o : Nat) (hL : (outReg k o) ∈ L) :
    ∃ a, Settled s a ∧ RegsKept L a (State.rangeSettled s k o) := by
  unfold State.rangeSettled
  split
  · exact ⟨s, .refl, RegsKept.refl _ _⟩
  · dsimp only
    rename_i t0 _
    obtain ⟨a, ha, hk⟩ := State.toTime_kept L s (t0 + 25600)
    exact ⟨a, ha, RegsKept.step (State.dueIfOld_touches ..) rfl (RegsKept.step (State.setOut_touches ..) rfl (RegsKept.setFld hL hk))⟩

theorem State.imgCommit_kept (L : List RegId) (s : State) (c : ImageCheck) (flashOk : Bool) (hL : RegId.mcMbArg ∈ L) :
    RegsKept L s (State.imgCommit s c flashOk) := by
  unfold State.imgCommit
  try dsimp only
  repeat' first
    | with_reducible exact RegsKept.refl _ _
    | with_reducible assumption
    | with_reducible apply RegsKept.ite
    | (with_reducible apply RegsKept.foldl; on_goal 1 => intro _ _ _ _)
    | ((with_reducible apply RegsKept.step (State.mbDone_touches ..)); · rfl)
    | (with_reducible refine RegsKept.setReg (by first | exact hL | exact sub_mem hL (mem_writesOf _) | exact sub_mem hL mem_writesOf_lo | exact sub_mem hL (mem_writesOf_ctl _ _)) ?_)
    | ((with_reducible apply RegsKept.step (State.setMc_touches ..)); · rfl)
    | split
    | dsimp only

theorem State.putImport_kept (L : List RegId) (s : State) (p k : Nat) (w : Word) (hL : (.decImport p k) ∈ L) :
    RegsKept L s (State.putImport s p k w) := by
  unfold State.putImport
  try dsimp only
  repeat' first
    | with_reducible exact RegsKept.refl _ _
    | with_reducible assumption
    | with_reducible apply RegsKept.ite
    | (with_reducible apply RegsKept.foldl; on_goal 1 => intro _ _ _ _)
    | ((with_reducible apply RegsKept.step (State.enterImport_touches ..)); · rfl)
    | (with_reducible refine RegsKept.setReg (by first | exact hL | exact sub_mem hL (mem_writesOf _) | exact sub_mem hL mem_writesOf_lo | exact sub_mem hL (mem_writesOf_ctl _ _)) ?_)
    | split
    | dsimp only

theorem State.wrImport_kept (L : List RegId) (s : State) (p k : Nat) (w : Word) (hL : writesOf (.decImport p k) ⊆ L) :
    RegsKept L s (State.wrImport s p k w) := by
  unfold State.wrImport
  try dsimp only
  repeat' first
    | with_reducible exact RegsKept.refl _ _
    | with_reducible assumption
    | with_reducible apply RegsKept.ite
    | (with_reducible apply RegsKept.foldl; on_goal 1 => intro _ _ _ _)
    | (with_reducible refine RegsKept.setFld (by first | exact hL | exact sub_mem hL (mem_writesOf _) | exact sub_mem hL mem_writesOf_lo | exact sub_mem hL (mem_writesOf_ctl _ _)) ?_)
    | ((with_reducible apply RegsKept.step (State.hold_touches ..)); · rfl)
    | (with_reducible refine RegsKept.trans (State.putImport_kept L _ _ _ _ (by first | exact hL | exact sub_mem hL (mem_writesOf _))) ?_)
    | ((with_reducible apply RegsKept.step (State.unhold_touches ..)); · rfl)
    | split
    | dsimp only

theorem State.mbReturn_kept (L : List RegId) (s : State) (ws : List Word) (hL : ∀ i < ws.length, RegId.mcMbData i ∈ L) :
    RegsKept L s (s.mbReturn ws) := by
  unfold State.mbReturn
  refine RegsKept.foldl _ (fun a p hp h => RegsKept.setReg (hL _ ?_) h) (RegsKept.refl _ _)
  simpa using (List.of_mem_zip hp).1

theorem State.writePlain_kept (L : List RegId) (s : State) (r : RegId) (w : Word) (hL : writesOf r ⊆ L)
    (hlo : ∀ l, r.lowOf = some l → writesOf l ⊆ L) : RegsKept L s (s.writePlain r w) := by
  unfold State.writePlain
  split
  · exact RegsKept.ite (RegsKept.refl _ _) (RegsKept.upd_lows (RegsKept.refl _ _))
  · split
    · rename_i l hl
      exact RegsKept.writeFields hL (RegsKept.writeFields (hlo l hl) (RegsKept.upd_lows (RegsKept.refl _ _)))
    · exact RegsKept.writeFields hL (RegsKept.refl _ _)

theorem writesOf_low (r l : RegId) (h : r.lowOf = some l) : writesOf l ⊆ writesOf r := by
  cases r <;> simp only [RegId.lowOf, Option.some.injEq, reduceCtorEq] at h <;> subst h <;>
    simp [writesOf, profileSettings, RegId.profileOf, RegId.lowOf]

theorem State.toStrand_kept (L : List RegId) (s : State) (k : Nat) (r : RegId) (w : Word) (f : State → Word → State)
    (hf : ∀ a x, RegsKept L a (f a x)) (hL : r ∈ L) : RegsKept L s (s.toStrand k r w f) := by
  unfold State.toStrand
  dsimp only
  have h : ∀ x, RegsKept L s (s.setStrand k x) := fun x => RegsKept.step (State.setStrand_touches ..) rfl (RegsKept.refl L s)
  exact RegsKept.ite (hf _ _) (RegsKept.ite (RegsKept.trans (State.earlyEnable_kept L _ _ _ _ hL)
    (RegsKept.step (State.earlyCommit_touches ..) rfl (h _))) (h _))

theorem State.toTable_kept (L : List RegId) (s : State) (k : Nat) (r : RegId) (w : Word) (f : State → Word → State)
    (hf : ∀ a x, RegsKept L a (f a x)) (hL : r ∈ L) : RegsKept L s (s.toTable k r w f) := by
  unfold State.toTable
  exact RegsKept.ite (State.toStrand_kept L s k r w f hf hL) (hf _ _)

theorem State.blockWrite_kept (L : List RegId) (s : State) (t : BitVec 64) (r : RegId) (f : State → State)
    (hf : ∀ a, RegsKept L a (f a)) : RegsKept L (s.upTo t) (s.blockWrite t r f) := by
  unfold State.blockWrite
  exact RegsKept.ite (hf _) (RegsKept.refl _ _)

theorem State.hubWrite_kept (L : List RegId) (s : State) (t : BitVec 64) (f : State → State)
    (hf : ∀ a, RegsKept L a (f a)) : RegsKept L s (s.hubWrite t f) := by
  unfold State.hubWrite
  have h : RegsKept L s (s.at t) := RegsKept.of_eq rfl
  dsimp only
  split
  · exact RegsKept.trans (hf _) h
  · exact h

theorem State.strandWrite_kept (L : List RegId) (s : State) (t : BitVec 64) (k : Nat) (r : RegId) (w : Word)
    (f : State → Word → State) (hf : ∀ a x, RegsKept L a (f a x)) (hL : r ∈ L) : RegsKept L (s.upTo t) (s.strandWrite t k r w f) :=
  State.blockWrite_kept L s t r _ (fun a => State.toStrand_kept L a k r w f hf hL)

theorem State.putProfile_kept (L : List RegId) (s : State) (c p : Nat) (hL : ∀ k < 128, RegId.decImport p k ∈ L) :
    RegsKept L s (s.putProfile c p) := by
  unfold State.putProfile
  exact RegsKept.foldl _ (fun a k hk h => RegsKept.step (State.enterImport_touches ..) rfl (RegsKept.setReg (hL k (by simpa using hk)) h)) (RegsKept.refl _ _)

theorem State.importProfile_kept (L : List RegId) (s : State) (c p : Nat) (hL : ∀ k < 128, RegId.decImport p k ∈ L) :
    RegsKept L s (s.importProfile c p) := by
  unfold State.importProfile
  dsimp only
  have h1 : RegsKept L s (((List.range 128).foldl (fun a k => a.unhold (.decImport p k)) s).dropProfile p) :=
    RegsKept.step (State.dropProfile_touches ..) rfl
      (RegsKept.foldl _ (fun a k _ h => RegsKept.step (State.unhold_touches a _) rfl h) (RegsKept.refl L s))
  generalize (((List.range 128).foldl (fun a k => a.unhold (.decImport p k)) s).dropProfile p) = b at *
  split
  · exact h1
  · split
    · exact RegsKept.trans (RegsKept.of_eq (s := b) rfl) h1
    · exact RegsKept.trans (State.putProfile_kept L _ _ _ hL) h1

theorem State.applyImports_kept (L : List RegId) (s : State) (p : Nat) (hL : ∀ k < 128, RegId.decImport p k ∈ L) :
    RegsKept L s (s.applyImports p) := by
  unfold State.applyImports
  refine RegsKept.foldl _ (fun a k hk h => ?_) ?_
  · split
    · exact RegsKept.trans (State.putImport_kept L _ _ _ _ (hL k (by simpa using hk))) (RegsKept.step (State.unhold_touches ..) rfl h)
    · exact h
  · split
    · exact RegsKept.refl _ _
    · exact RegsKept.trans (State.putProfile_kept L _ _ _ hL) (RegsKept.step (State.dropProfile_touches ..) rfl (RegsKept.refl _ _))

theorem State.wrDecCtl_kept (L : List RegId) (s : State) (w : Word) (hL : writesOf .decCtl ⊆ L) : RegsKept L s (s.wrDecCtl w) := by
  unfold State.wrDecCtl
  dsimp only
  have h1 := RegsKept.setReg (w := RegId.mergeX .decCtl (s.reg .decCtl) w) (hL (mem_writesOf _)) (RegsKept.refl L s)
  split
  · refine RegsKept.foldl _ (fun a p hp h => RegsKept.trans (State.importProfile_kept L a _ p (fun k hk => hL ?_)) h) h1
    have hp4 : p < 4 := by
      have := List.mem_range.mp hp
      unfold State.plyCount at this
      split at this <;> omega
    refine List.mem_cons_of_mem _ (List.mem_append_right _ (List.mem_flatMap.mpr ⟨p, List.mem_range.mpr hp4, ?_⟩))
    exact List.mem_map.mpr ⟨k, List.mem_range.mpr hk, rfl⟩
  · exact h1

theorem State.wrTxMap_kept (L : List RegId) (s : State) (i : Nat) (w : Word) (hL : writesOf (.hchTxMap i) ⊆ L) :
    RegsKept L s (s.wrTxMap i w) := by
  unfold State.wrTxMap
  exact RegsKept.trans (RegsKept.of_eq (s := s.writeFields (.hchTxMap i) w) rfl) (RegsKept.writeFields hL (RegsKept.refl _ s))

theorem State.wrHub_kept (s : State) (r : RegId) (w : Word) (h : ownRow r = false) : RegsKept (writesOf r) s (s.wrHub r w) := by
  have hm := mem_writesOf r
  have hs := List.Subset.refl (writesOf r)
  have pl : RegsKept (writesOf r) s (s.writePlain r w) := State.writePlain_kept _ s r w hs (fun l hl => writesOf_low r l hl)
  unfold State.wrHub
  split
  · exact Bool.noConfusion (show true = false from h)
  · split
    · exact RegsKept.step (State.wrMcCtl_touches ..) rfl (RegsKept.step (State.tick_touches ..) rfl (RegsKept.refl _ s))
    · exact RegsKept.refl _ _
  · exact State.wrMbCmd_kept _ s w hm
  · exact State.wrJrnSel_kept _ s w hm
  · exact RegsKept.step (State.wrQctl_touches ..) rfl (RegsKept.refl _ s)
  · exact RegsKept.step (State.wrQueueReg_touches ..) rfl (RegsKept.refl _ s)
  · exact RegsKept.step (State.wrQueueReg_touches ..) rfl (RegsKept.refl _ s)
  · exact RegsKept.step (State.wrQueueReg_touches ..) rfl (RegsKept.refl _ s)
  · exact RegsKept.step (State.wrQueueReg_touches ..) rfl (RegsKept.refl _ s)
  · exact RegsKept.step (State.wrKick_touches ..) rfl (RegsKept.refl _ s)
  · exact State.wrRingCtl_kept _ s _ w hs
  · exact RegsKept.ite (RegsKept.refl _ _) pl
  · exact RegsKept.ite (RegsKept.refl _ _) pl
  · exact RegsKept.ite (RegsKept.refl _ _) pl
  · exact RegsKept.ite (RegsKept.refl _ _) pl
  · exact State.wrRingReg_kept _ s _ _ w hs
  · exact State.wrSyncCtl_kept _ s w hs
  · exact State.wrEpochHi_kept _ s w hs
  · exact State.wrPtpCtl_kept _ s w hs
  · exact State.wrHchCtl_kept _ s w hm
  · exact State.wrDirCtl_kept _ s _ w hs
  · exact State.wrLaneCtl_kept _ s _ w hs
  · exact State.wrTxMap_kept _ s _ w hs
  · exact State.wrDecCtl_kept _ s w hs
  · exact State.wrDctl_kept _ s _ w hm
  · exact State.wrImport_kept _ s _ _ w hs
  · exact State.wrDieMark_kept _ s w hm
  · exact State.wrTestCtl_kept _ s w hs
  · exact State.wrMonCtl_kept _ s _ w hs
  · exact State.wrTioIn_kept _ s _ w hs
  · exact Bool.noConfusion (show true = false from h)
  · exact Bool.noConfusion (show true = false from h)
  · exact State.wrPlyClk_kept _ s _ w hm
  · exact RegsKept.ite (RegsKept.refl _ _) pl

theorem outReg_bb (k c : Nat) : outReg k (6 + c) = .outBbOut k c := by simp [outReg]

theorem State.wrStrand_kept (s : State) (r : RegId) (w : Word) (b : Nat) (h : ownRow r = false) :
    RegsKept (writesOf r) s (s.wrStrand r w b) := by
  have hm := mem_writesOf r
  have hs := List.Subset.refl (writesOf r)
  have pl : RegsKept (writesOf r) s (s.writePlain r w) := State.writePlain_kept _ s r w hs (fun l hl => writesOf_low r l hl)
  unfold State.wrStrand
  split
  · exact Bool.noConfusion (show true = false from h)
  · exact State.wrOwn_kept _ s _ _ w hm
  · exact State.wrTone_kept _ s _ _ w hs
  · exact State.wrRfCtl_kept _ s _ _ w hs
  · exact State.wrBbCtl_kept _ s _ _ w hs
  · exact RegsKept.step (State.notePhases_touches ..) rfl pl
  · exact Bool.noConfusion (show true = false from h)
  · exact State.wrOut_kept _ s _ _ w _ (by rw [outReg_bb]; exact hm)
  · exact State.wrStatic_kept _ s _ _ w hm
  · exact Bool.noConfusion (show true = false from h)
  · exact State.wrInCtl_kept _ s _ _ w _ hs
  · exact State.wrDiscCtl_kept _ s _ _ w hs
  · exact pl

theorem State.writeReg_kept (s : State) (r : RegId) (w : Word) (h : ownRow r = false) : RegsKept (writesOf r) s (s.writeReg r w) := by
  unfold State.writeReg
  dsimp only
  have h1 : RegsKept (writesOf r) s (s.wrFlags r w) := RegsKept.step (State.wrFlags_touches ..) rfl (RegsKept.refl _ s)
  split
  · exact h1
  · split
    · exact RegsKept.trans (State.wrHub_kept _ r w h) h1
    · split
      · exact RegsKept.step (State.wrStrCtl_touches ..) rfl h1
      · split
        · exact RegsKept.trans (State.toTable_kept _ _ _ _ _ _ (fun a x => State.wrStrand_kept a r x _ h) (mem_writesOf r)) h1
        · exact RegsKept.trans (State.toStrand_kept _ _ _ _ _ _ (fun a x => State.wrStrand_kept a r x _ h) (mem_writesOf r)) h1

theorem State.writeWord_kept (s : State) (off : Nat) (w : Word) (L : List RegId) (h : regsAt off = some L) :
    RegsKept L s (s.writeWord off w) := by
  unfold State.writeWord
  unfold regsAt at h
  split
  · exact RegsKept.refl _ _
  · split
    · rename_i r hr
      rw [hr] at h
      dsimp only at h
      split at h
      · exact absurd h (by simp)
      · rename_i ho
        injection h with h
        subst h
        exact State.writeReg_kept s r w (by simpa using ho)
    · exact RegsKept.refl _ _

end Sys2Proof.Machine
end

