-- ==== Sys2Proof/Laws/ProfileWrites.lean ====
section
/-! SUPPORT. Writes of a profile field, and reads of the journal registers (R17, R392). -/

namespace Sys2Proof
open Sys2Proof.Machine

theorem flags_none (a : State) (r : RegId) (w : Word) (h : r.maskOf .w1c = 0) : a.wrFlags r w = a := by
  unfold State.wrFlags
  rw [h, Nat.and_zero]
  rfl

theorem writeWord_same (s : State) (o : Nat) (w : Word) (r : RegId) (h : RegId.ofOff o = some r) (hw : s.writeReg r w = s) : s.writeWord o w = s := by
  unfold State.writeWord
  rw [h]
  split_ifs
  · rfl
  · exact hw

theorem fld_set (z : State) (r : RegId) (hi lo v : Nat) (h1 : hi < 32) (h2 : lo ≤ hi) : (z.setFld r hi lo v).fld r hi lo = v % 2 ^ (hi - lo + 1) := by
  unfold State.setFld
  rw [State.fld_setReg, getF_setF _ _ _ _ h1 h2]

theorem fld_set_ne (z : State) (r : RegId) (hi lo v i j : Nat) (h1 : hi < 32) (h2 : lo ≤ hi) (h3 : j ≤ i ∧ (i < lo ∨ hi < j)) :
    (z.setFld r hi lo v).fld r i j = z.fld r i j := by
  unfold State.setFld
  rw [State.fld_setReg, getF_setF_ne _ _ _ _ _ _ h1 h2 h3]
  rfl

theorem code_of (r : RegId) (old w : Word) (f : Field) (hf : r.fields.find? (fun f => f.lo = 24) = some f)
    (h : f.allows (getF w 31 24) = true) (hx : r.extraOk f (getF w 31 24) w = true) : r.codeOf old w = getF w 31 24 := by
  unfold RegId.codeOf
  rw [hf]
  simp [h, hx]

theorem writeFields_profile (s : State) (r : RegId) (w : Word) (hp : r.hasProfile = true) (hc : r.codeOf (s.reg r) w = getF w 31 24)
    (h : getF w 31 24 ≠ 0xFF) : s.writeFields r w =
      (profileSettings r (getF w 31 24)).foldl State.applySetting (s.setReg r (r.mergeX (s.reg r) w)) := by
  unfold State.writeFields
  dsimp only
  rw [hp, if_pos rfl, hc, if_neg h]

theorem regs_other (s : State) (r : RegId) (w : Word) (h : writesOf r ⊆ [r]) (x : RegId) (hx : x.off ≠ r.off) : (s.writeFields r w).reg x = s.reg x :=
  (RegsKept.writeFields (L := [r]) h (RegsKept.refl _ s)).keeps x (fun y hy => by
    rw [List.mem_singleton.mp hy]; exact fun e => hx e.symm)

theorem writeMem (a : State) (w : Word) : a.writeReg .memCtl w = a.writeFields .memCtl w := by
  unfold State.writeReg
  dsimp only
  rw [flags_none _ _ _ rfl, if_neg (by decide)]
  rfl

theorem writeThm (a : State) (w : Word) : a.writeReg .thmCtl w = a.writeFields .thmCtl w := by
  unfold State.writeReg
  dsimp only
  rw [flags_none _ _ _ rfl, if_neg (by decide)]
  rfl

theorem disc_strand (k r : Fin 32) : RegId.strandOf (.discCtl k r) = some k.val ∧ RegId.isStr (.discCtl k r) = false := by
  have h : RegId.strandOf (.discCtl k r) = some k.val := by
    have ho : RegId.off (.discCtl k r) = 0x200000 + k.val * 0x10000 + 0xD000 + 0x40 * r.val := rfl
    have h1 := k.isLt
    have h2 := r.isLt
    unfold RegId.strandOf
    dsimp only
    rw [if_pos (by omega)]
    congr 1
    omega
  refine ⟨h, ?_⟩
  have ho : RegId.off (.discCtl k r) = 0x200000 + k.val * 0x10000 + 0xD000 + 0x40 * r.val := rfl
  have h2 := r.isLt
  unfold RegId.isStr
  rw [h]
  simp only [Option.isSome_some, Bool.true_and, decide_eq_false_iff_not]
  omega

theorem disc_writable (k r : Fin 32) : ¬ RegId.writable (.discCtl k r) = false := by
  show ¬ (true = false)
  decide

theorem jrn_word (i : Fin 64) : RegId.ofOff (BitVec.ofNat 24 (0x2100 + 4 * i.val)).toNat = some (.pwrJrnData i.val) := by
  revert i; decide

theorem jrn_read (v : State) (t : BitVec 64) (o : BitVec 24) (r : RegId) (ho : RegId.ofOff o.toNat = some r) (hs : o.toNat < 0x4000)
    (h1 : v.mode.mode ≠ .dormant) (h2 : v.supply ≠ .off) (ha : v.absent o.toNat = false)
    (hr : r.measuredMask = 0 ∧ r.highOf = none ∧ r.lowOf = none ∧ r.isRc = false) :
    ∃ x, exec (.rcRead t o) v = .next x ∧ x.rdata = (v.upTo t).peek r := by
  refine ⟨_, rfl, ?_⟩
  have hR : (v.upTo t).responds o.toNat = true := by
    rw [State.upTo_responds]
    unfold State.responds
    rw [ha, decide_eq_true hs]
    simp only [bne, beq_eq_false_iff_ne.mpr h2, beq_eq_false_iff_ne.mpr h1]
    simp
  generalize v.upTo t = a at *
  rw [readWord_some a _ r hR ho]
  unfold State.readReg
  dsimp only
  rw [if_pos hr.1, hr.2.1, hr.2.2.1, hr.2.2.2]
  rfl

theorem peek_ro (v : State) (r : RegId) (h0 : r.isRc = false) (h1 : r.maskOf .rw = 0) (h2 : r.maskOf .ro = 0xFFFFFFFF) (h3 : r.maskOf .w1c = 0) :
    v.peek r = BitVec.ofNat 32 (v.roWord r) := by
  unfold State.peek
  rw [h0, if_neg (by decide), h1, h2, h3, Nat.and_zero, Nat.and_zero, Nat.zero_or, Nat.or_zero]
  apply BitVec.eq_of_toNat_eq
  rw [BitVec.toNat_ofNat, BitVec.toNat_ofNat, show (0xFFFFFFFF : Nat) = 2 ^ 32 - 1 from rfl, Nat.and_two_pow_sub_one_eq_mod, Nat.mod_mod]

theorem ro_low (v : State) (r : RegId) (h0 : v.offline r = false) (h1 : v.statusHigh r = 0) (h2 : r.measuredMask = 0) : v.roWord r = v.statusLow r := by
  unfold State.roWord
  rw [h0, if_neg (by decide), h1, h2, Nat.and_zero, Nat.or_zero, Nat.or_zero]

theorem off_hub (v : State) (r : RegId) (h : r.off < 0x4000) : v.offline r = false := by
  have : r.strandOf = none := by
    unfold RegId.strandOf
    dsimp only
    rw [if_neg (by omega)]
  unfold State.offline
  rw [this]

end Sys2Proof
end

