-- ==== Sys2Proof/Laws/KeyedWrites.lean ====
section
/-! SUPPORT. Writes that need the key: what one without it does, and the fields of the written words (R59, R397, R424). -/

namespace Sys2Proof
open Sys2Proof.Machine

/-- A MODE_CTL write that needs the key and lacks it changes nothing (R59, R60). -/
theorem wrModeCtl_unkeyed (a : State) (w : Word) (hn : needsKey .modeCtl w = true) (hk : getF w 31 24 ≠ 0x5A) : a.wrModeCtl w = a := by
  unfold State.wrModeCtl
  dsimp only
  simp only [needsKey, Bool.or_eq_true, Bool.and_eq_true, beq_iff_eq] at hn
  by_cases h0 : a.mode.mode = .dormant
  · rw [if_pos h0]
  rw [if_neg h0]
  split_ifs with h1 h2
  · rfl
  · rfl
  all_goals (exfalso; apply h2; refine ⟨?_, hk⟩; tauto)

/-- The key byte of a written word is the key it was made with. -/
theorem key_word (key : BitVec 8) (n : Nat) (h : n < 2 ^ 24) : getF (BitVec.ofNat 32 (key.toNat * 2 ^ 24 + n)) 31 24 = key.toNat := by
  have hk := key.isLt
  have e : getF (BitVec.ofNat 32 (key.toNat * 2 ^ 24 + n)) 31 24 = (key.toNat * 16777216 + n) % 4294967296 / 16777216 % 256 := by
    unfold getF bits; rw [Nat.shiftRight_eq_div_pow, BitVec.toNat_ofNat]; norm_num
  rw [e]
  norm_num at h
  omega

theorem modeWord_low (key : BitVec 8) (b : Nat) (hw hr : Bool) : modeWord key.toNat b hw hr = BitVec.ofNat 32 (key.toNat * 2 ^ 24 + (b2n hw * 32 + b2n hr * 16 + b)) := by
  exact congrArg (BitVec.ofNat 32) (by ring)

theorem low_word (key : BitVec 8) (n hi lo : Nat) (h1 : hi < 24) (h2 : lo ≤ hi) : getF (BitVec.ofNat 32 (key.toNat * 2 ^ 24 + n)) hi lo = getF (BitVec.ofNat 32 n) hi lo := by
  have h1' : ∀ x : Word, getF x hi lo = x.toNat / 2 ^ lo % 2 ^ (hi - lo + 1) := fun x => by unfold getF bits; rw [Nat.shiftRight_eq_div_pow]
  rw [h1', h1']
  simp only [BitVec.toNat_ofNat]
  have e1 : ∀ m : Nat, m % 2 ^ 32 / 2 ^ lo % 2 ^ (hi - lo + 1) = m / 2 ^ lo % 2 ^ (hi - lo + 1) := by
    intro m
    rw [show (2:Nat) ^ 32 = 2 ^ lo * 2 ^ (32 - lo) by rw [← pow_add]; congr 1; omega, Nat.mod_mul_right_div_self]
    rw [Nat.mod_mod_of_dvd]
    exact pow_dvd_pow 2 (by omega)
  rw [e1, e1]
  rw [show key.toNat * 2 ^ 24 + n = n + 2 ^ lo * (key.toNat * 2 ^ (24 - lo)) by
    rw [show 2 ^ lo * (key.toNat * 2 ^ (24 - lo)) = key.toNat * (2 ^ lo * 2 ^ (24 - lo)) by ring, ← pow_add, show lo + (24 - lo) = 24 by omega]; ring]
  rw [Nat.add_mul_div_left _ _ (Nat.two_pow_pos lo)]
  rw [show key.toNat * 2 ^ (24 - lo) = 2 ^ (hi - lo + 1) * (key.toNat * 2 ^ (23 - hi)) by
    rw [show 2 ^ (hi - lo + 1) * (key.toNat * 2 ^ (23 - hi)) = key.toNat * (2 ^ (hi - lo + 1) * 2 ^ (23 - hi)) by ring, ← pow_add]; congr 2; omega]
  exact Nat.add_mul_mod_self_left _ _ _

end Sys2Proof
end

