-- ==== Sys2Proof/Laws/Links.lean ====
section
/-! SUPPORT. Steps of the commands of one kind: the host link and the rings. -/

namespace Sys2Proof

open Sys2Proof.Machine

theorem links_1 (s : State) (t : BitVec 64) : (∀ (sp : Fin 6) (wi : Fin 17) (e : Bool), s.mainOn = true →
    ∃ u, exec (.linkUp t sp wi e) s = .next u ∧ u.hif = { s.hif with up := true, speed := sp, width := wi, ecrc := e }) := by
  intro sp wi e h
  refine ⟨_, rfl, ?_⟩
  have k : ¬ (s.at t).mainOn = false := by show ¬ s.mainOn = false; rw [h]; decide
  unfold State.linkUp
  rw [if_neg k]
  dsimp only
  split_ifs
  · exact (hif_of (State.raise_touches ..) rfl).trans rfl
  · rfl

theorem ringOpen_fold (l : List Nat) (s : State) : (l.foldl (fun a n => (a.emptyQueue (a.sqQueue n)).emptyQueue (a.cqQueue n)) s).regs = s.regs := by
  induction l generalizing s with
  | nil => rfl
  | cons x l ih => rw [List.foldl_cons, ih]; rfl

theorem links_2 (s : State) (t : BitVec 64) : (∀ p : Bool, s.hif.up = true →
    ∃ u, exec (.linkDown t p) s = .next u ∧ u.hif.up = false ∧ u.hif.rings = [] ∧
      (∀ r : RegId, isHif r.off = true → u.reg r = r.reset) ∧ (∀ r : RegId, isHif r.off = false → u.reg r = s.reg r)) := by
  intro p h
  have k : ¬ (s.at t).hif.up = false := by show ¬ s.hif.up = false; rw [h]; decide
  have Z : ∃ (z : State) (a b : List Word), (s.at t).linkDown = z.raise .hifLinkdown 0 0 (up8 (s.at t).now) (a ++ b) ∧ z.hif.up = false ∧ z.hif.rings = [] ∧
      z.regs = s.regs.filter (fun e => !isHif e.1) := by
    unfold State.linkDown
    rw [if_neg k]
    dsimp only
    refine ⟨_, [_], [_], rfl, rfl, rfl, ?_⟩
    exact congrArg (List.filter (fun e : Nat × Word => !isHif e.1)) (ringOpen_fold _ _)
  obtain ⟨z, a, b, e, z1, z2, z3⟩ := Z
  refine ⟨_, congrArg Host.Outcome.next e, ?_⟩
  have R := (State.raise_touches z .hifLinkdown 0 0 (up8 (s.at t).now) (a ++ b)).keeps .regs rfl
  have H := hif_of (State.raise_touches z .hifLinkdown 0 0 (up8 (s.at t).now) (a ++ b)) rfl
  simp only [Part.same] at R
  refine ⟨by rw [H]; exact z1, by rw [H]; exact z2, fun r hr => ?_, fun r hr => ?_⟩
  · unfold State.reg
    rw [R, z3, get_filter _ (fun x => !isHif x)]
    simp [hr]
  · unfold State.reg
    rw [R, z3, get_filter _ (fun x => !isHif x)]
    simp [hr]

theorem ringCtl_on (s : State) (n : Nat) (w : Word) : (s.writeFields (.hifRingCtl n) w).fld (.hifRingCtl n) 0 0 = getF w 0 0 := by
  have m : ∃ v, RegId.mergeX (.hifRingCtl n) (s.reg (.hifRingCtl n)) w = setF v 0 0 (getF w 0 0) := by
    have e1 : RegId.extraOk (.hifRingCtl n) ⟨0, 0, .rw, 0, []⟩ (getF w 0 0) w = true := rfl
    have a1 : Field.allows ⟨0, 0, .rw, 0, []⟩ (getF w 0 0) = true := rfl
    rw [mergeX_plain (fun _ => rfl)]
    simp only [RegId.fields, List.foldl, e1, a1, and_self, if_true]
    exact ⟨_, rfl⟩
  obtain ⟨v, m⟩ := m
  have k : (s.setReg (.hifRingCtl n) (setF v 0 0 (getF w 0 0))).fld (.hifRingCtl n) 0 0 = getF w 0 0 := by
    rw [State.fld_setReg]; exact getF_setF_self _ _ _ _ (by decide) (by decide)
  unfold State.writeFields
  dsimp only
  rw [m]
  split_ifs
  · exact k
  · simp only [profileSettings, List.foldl, State.applySetting]
    rw [State.fld_setFld_apart _ _ _ _ _ _ _ (by decide) (by decide) (by decide), State.fld_setFld_apart _ _ _ _ _ _ _ (by decide) (by decide) (by decide)]
    exact k
  · exact k

theorem writeCtl_other (s : State) (n : Nat) (w : Word) (r : RegId) (hr : r.off ≠ (RegId.hifRingCtl n).off) (x y : Nat) :
    (s.writeFields (.hifRingCtl n) w).fld r x y = s.fld r x y := by
  have k : ∀ v, (s.setReg (.hifRingCtl n) v).fld r x y = s.fld r x y := fun v => by unfold State.fld; rw [State.reg_setReg_ne _ _ _ _ hr]
  unfold State.writeFields
  dsimp only
  split_ifs
  · exact k _
  · simp only [profileSettings, List.foldl, State.applySetting]
    rw [State.fld_setFld_other _ _ _ _ _ _ _ _ hr, State.fld_setFld_other _ _ _ _ _ _ _ _ hr]
    exact k _
  · exact k _

theorem ringQ_off (m n : Nat) (hm : (RegId.hifRingQ m).off = (RegId.hifRingCtl n).off) : False := by
  simp only [RegId.off] at hm
  omega

theorem ring_ok (s : State) (n : Fin 64) (w : Word) :
    (s.writeFields (.hifRingCtl n) w).sqQueue n = s.sqQueue n ∧ (s.writeFields (.hifRingCtl n) w).cqQueue n = s.cqQueue n ∧
    (∀ q r, (s.writeFields (.hifRingCtl n) w).inRole q r = s.inRole q r) ∧
    (∀ q, (s.writeFields (.hifRingCtl n) w).usedByRing n q = s.usedByRing n q) ∧
    (∀ m, (s.writeFields (.hifRingCtl n) w).ring m = s.ring m) := by
  have f : ∀ m x y, (s.writeFields (.hifRingCtl n) w).fld (.hifRingQ m) x y = s.fld (.hifRingQ m) x y :=
    fun m x y => writeCtl_other s n w _ (fun h => ringQ_off m n h) x y
  have T := State.writeFields_touches s (.hifRingCtl n) w
  have H := T.keeps .hif rfl
  have Q := T.keeps .queues rfl
  simp only [Part.same] at H Q
  refine ⟨f .., f .., fun q r => ?_, fun q => ?_, fun m => ?_⟩
  · simp only [State.inRole, State.queue, Q]
  · simp only [State.usedByRing, State.sqQueue, State.cqQueue, H, f]
  · simp only [State.ring, H]

theorem links_3 (s : State) (t : BitVec 64) : (∀ (n : Fin 64) (w : Word), s.blocksUp = true → (s.ring n).open' = false →
    ((s.inRole (s.sqQueue n) 1 && s.inRole (s.cqQueue n) 2 && !s.usedByRing n (s.sqQueue n) && !s.usedByRing n (s.cqQueue n)) = true →
      ∃ u, exec (.ringEnable t n w) s = .next u ∧ u.ring n = { on := true } ∧ u.fld (.hifRingCtl n) 0 0 = 1) ∧
    ((s.inRole (s.sqQueue n) 1 && s.inRole (s.cqQueue n) 2 && !s.usedByRing n (s.sqQueue n) && !s.usedByRing n (s.cqQueue n)) = false →
      ∃ u, exec (.ringEnable t n w) s = .next u ∧ (u.ring n).on = false ∧ (u.ring n).cause = 4 ∧ u.fld (.hifRingCtl n) 0 0 = 0)) := by
  intro n w hb ho
  have o1 : (s.ring n).on = false := by simp [Ring.open'] at ho; exact ho.1
  have o2 : (s.ring n).draining = false := by simp [Ring.open'] at ho; exact ho.2
  have o1' : ((s.at t).ring n).on = false := o1
  have o2' : ((s.at t).ring n).draining = false := o2
  have g1 : getF (setF w 0 0 1) 0 0 = 1 := by rw [getF_setF _ _ _ _ (by decide) (by decide)]; rfl
  have on := ringCtl_on (s.at t) n (setF w 0 0 1)
  rw [g1] at on
  obtain ⟨k1, k2, k3, k4, k5⟩ := ring_ok (s.at t) n (setF w 0 0 1)
  have e : (s.at t).wrRingCtl n (setF w 0 0 1) = ((s.at t).writeFields (.hifRingCtl n) (setF w 0 0 1)).ringOn n := by
    unfold State.wrRingCtl
    dsimp only
    rw [o1', o2', if_neg (by decide), if_neg (by decide), on, if_pos rfl]
  refine ⟨fun h => ⟨_, (congrArg Host.Outcome.next (State.hubWrite_up _ _ _ hb)).trans (congrArg Host.Outcome.next e), ?_⟩,
    fun h => ⟨_, (congrArg Host.Outcome.next (State.hubWrite_up _ _ _ hb)).trans (congrArg Host.Outcome.next e), ?_⟩⟩
  · have h' : ((s.at t).inRole ((s.at t).sqQueue n) 1 && (s.at t).inRole ((s.at t).cqQueue n) 2 && !(s.at t).usedByRing n ((s.at t).sqQueue n) && !(s.at t).usedByRing n ((s.at t).cqQueue n)) = true := h
    unfold State.ringOn
    rw [k1, k2, k3, k3, k4, k4, h']
    dsimp only
    rw [if_pos rfl]
    exact ⟨by rw [ring_set, if_pos rfl], on⟩
  · have h' : ((s.at t).inRole ((s.at t).sqQueue n) 1 && (s.at t).inRole ((s.at t).cqQueue n) 2 && !(s.at t).usedByRing n ((s.at t).sqQueue n) && !(s.at t).usedByRing n ((s.at t).cqQueue n)) = false := h
    unfold State.ringOn
    rw [k1, k2, k3, k3, k4, k4, h']
    dsimp only
    rw [if_neg (by decide)]
    unfold State.ringEvent
    rw [ring_of (State.raise_touches ..) rfl, ring_set, if_pos rfl, k5]
    refine ⟨o1', rfl, ?_⟩
    rw [fld_of (State.raise_touches ..) rfl]
    exact (State.fld_setFld _ _ _ _ _ (by decide) (by decide)).trans rfl

theorem links_4 (s : State) (t : BitVec 64) : (∀ (n : Fin 64) (w : Word), s.blocksUp = true → (s.ring n).on = true →
    ∃ u, exec (.ringDisable t n w) s = .next u ∧ u.ring n = { s.ring n with on := false, halted := false, draining := (u.ring n).draining } ∧
      u.fld (.hifRingCtl n) 0 0 = 0) := by
  intro n w hb ho
  have o1 : ((s.at t).ring n).on = true := ho
  have g1 : getF (setF w 0 0 0) 0 0 = 0 := by rw [getF_setF _ _ _ _ (by decide) (by decide)]; rfl
  refine ⟨_, congrArg Host.Outcome.next (State.hubWrite_up _ _ _ hb), ?_⟩
  unfold State.wrRingCtl
  dsimp only
  rw [if_pos o1, g1, if_neg (by decide)]
  refine ⟨?_, ?_⟩
  · refine (drained_ring _ _).trans ?_
    rw [ring_set, if_pos rfl]
    rfl
  · rw [fld_of (State.drained_touches ..) rfl]
    exact (State.fld_setFld _ _ _ _ _ (by decide) (by decide)).trans rfl

theorem startRead_ring (a : State) (x n : Nat) : (a.startRead x).ring n = if x = n ∧ ((a.ring n).on && (a.ring n).reading.isNone && a.hif.up && a.blocksUp) = true
    then { a.ring n with reading := some a.now } else a.ring n := by
  unfold State.startRead
  dsimp only
  by_cases h : x = n
  · subst h
    by_cases c : ((a.ring x).on && (a.ring x).reading.isNone && a.hif.up && a.blocksUp) = true
    · rw [if_pos c, if_pos ⟨rfl, c⟩, ring_set, if_pos rfl]
    · rw [if_neg c, if_neg (fun q => c q.2)]
  · rw [if_neg (c := x = n ∧ _) (fun c => h c.1)]
    by_cases c : ((a.ring x).on && (a.ring x).reading.isNone && a.hif.up && a.blocksUp) = true
    · rw [if_pos c, ring_set, if_neg (fun e => h e.symm)]
    · rw [if_neg c]

theorem startRead_keep (a : State) (x : Nat) : (a.startRead x).hif.up = a.hif.up ∧ (a.startRead x).hif.lastPoll = a.hif.lastPoll ∧ (a.startRead x).mode = a.mode ∧ (a.startRead x).now = a.now := by
  unfold State.startRead
  dsimp only
  split_ifs <;> exact ⟨rfl, rfl, rfl, rfl⟩

theorem readAll_keep (l : List Nat) (a : State) : (l.foldl State.startRead a).hif.lastPoll = a.hif.lastPoll ∧ (l.foldl State.startRead a).now = a.now := by
  induction l generalizing a with
  | nil => exact ⟨rfl, rfl⟩
  | cons x l ih => rw [List.foldl_cons, (ih _).1, (ih _).2]; exact ⟨(startRead_keep a x).2.1, (startRead_keep a x).2.2.2⟩

theorem readAll_ring (n m : Nat) (l : List Nat) (a : State) (hu : a.hif.up = true) (h1 : a.blocksUp = true)
    (hm : a.now = m) (h : (a.ring n).reading = some m ∨ n ∈ l ∧ (a.ring n).on = true ∧ (a.ring n).reading = none) :
    ((l.foldl State.startRead a).ring n).reading = some m := by
  induction l generalizing a with
  | nil => rcases h with h | ⟨h, _⟩; exact h; cases h
  | cons x l ih =>
    obtain ⟨k1, _, k3, k4⟩ := startRead_keep a x
    refine ih _ (by rw [k1]; exact hu) (by rw [State.blocksUp, k3]; exact h1) (by rw [k4]; exact hm) ?_
    rw [startRead_ring]
    rcases h with h | ⟨h, h3, h4⟩
    · left; rw [if_neg (by rintro ⟨_, c⟩; rw [h] at c; simp at c)]; exact h
    · by_cases hx : x = n
      · left
        rw [if_pos ⟨hx, by rw [h3, h4, hu, h1]; rfl⟩, hm]
      · right
        rw [if_neg (fun c => hx c.1)]
        exact ⟨(List.mem_cons.1 h).resolve_left (fun e => hx e.symm), h3, h4⟩

theorem ring_listed (s : State) (n : Nat) (h : (s.ring n).on = true) : n ∈ s.hif.rings.map (·.1) := by
  unfold State.ring at h
  generalize s.hif.rings = l at *
  induction l with
  | nil => cases h
  | cons e l ih =>
    obtain ⟨j, v⟩ := e
    by_cases hj : j = n
    · subst hj; exact List.mem_cons_self ..
    · rw [Tab.get, if_neg hj] at h
      exact List.mem_cons_of_mem _ (ih h)

theorem links_5 (s : State) : (s.fld .hifCtl 19 0 ≠ 0 →
    ∃ u, exec .doorbellPoll s = .next u ∧ u.now = (s.clockTo (s.hif.lastPoll + s.fld .hifCtl 19 0 * us)).now ∧ u.hif.lastPoll = u.now ∧
      ∀ n, (s.ring n).on = true → (s.ring n).reading = none → s.hif.up = true → s.blocksUp = true →
        (u.ring n).reading = some u.now) := by
  intro h
  refine ⟨_, rfl, ?_⟩
  unfold State.poll
  dsimp only
  rw [if_neg h]
  generalize hz : (s.clockTo (s.hif.lastPoll + s.fld .hifCtl 19 0 * us)) = z
  have zr : ∀ n, z.ring n = s.ring n := fun n => by rw [← hz]; rfl
  have zh : z.hif = s.hif := by rw [← hz]; rfl
  have zm : z.mode = s.mode := by rw [← hz]; rfl
  unfold State.readAll
  obtain ⟨a, b⟩ := readAll_keep (z.hif.rings.map (·.1)) { z with hif := { z.hif with lastPoll := z.now } }
  refine ⟨b, a.trans b.symm, ?_⟩
  intro n h1 h2 h3 h4
  refine (readAll_ring n z.now (z.hif.rings.map (·.1)) { z with hif := { z.hif with lastPoll := z.now } } (by show z.hif.up = true; rw [zh]; exact h3)
    (by show z.blocksUp = true; rw [State.blocksUp, zm]; exact h4) rfl (.inr ⟨?_, ?_, ?_⟩)).trans (congrArg some b.symm)
  · rw [zh]; exact ring_listed s n h1
  · show (z.ring n).on = true; rw [zr]; exact h1
  · show (z.ring n).reading = none; rw [zr]; exact h2

theorem links_6 (s : State) (t : BitVec 64) : (∀ w, s.blocksUp = true → (s.ring (getF w 5 0)).on = true → (s.ring (getF w 5 0)).reading = none → s.hif.up = true →
    ∃ u, exec (.hifKick t w) s = .next u ∧ (u.ring (getF w 5 0)).reading = some (s.at t).now) := by
  intro w hb h1 h2 h3
  refine ⟨_, congrArg Host.Outcome.next (State.hubWrite_up _ _ _ hb), ?_⟩
  unfold State.wrKick
  split_ifs
  · exact readAll_ring _ _ _ (s.at t) h3 hb rfl (.inr ⟨ring_listed s _ h1, h1, h2⟩)
  · rw [startRead_ring, if_pos]
    refine ⟨rfl, ?_⟩
    show ((s.ring (getF w 5 0)).on && (s.ring (getF w 5 0)).reading.isNone && s.hif.up && s.blocksUp) = true
    rw [h1, h2, h3, hb]; rfl

end Sys2Proof
end

