-- ==== Sys2Proof/Laws/ModeEntries.lean ====
section
/-! SUPPORT. Steps of the commands of one kind: entries into a mode. -/

namespace Sys2Proof

open Sys2Proof.Machine

theorem dorm (s : State) : modeIs .dormant s.now s.enterDormant := by
  unfold State.enterDormant
  refine modeIs.carryPend ?_
  exact ⟨rfl, by simp⟩

theorem bootm (s : State) : modeIs .boot (up8 s.now) s.enterBoot := by
  unfold State.enterBoot
  dsimp only
  refine modeIs.selectRef (modeIs.of (State.setReg_touches ..) rfl (modeIs.of (State.resetReq_touches ..) rfl ?_))
  exact modeIs.set (by simp) (by simp)

theorem c1 (s : State) (t : BitVec 64) (m : Mode) (due : Nat) (h : s.mode.trans = some (m, due)) (hb : s.mode.mode ≠ .boot)
   (hm : m = .ready ∨ m = .calibrate ∨ m = .test ∨ m = .dormant) : modeIs m (s.toTime (min t.toNat due)).now (s.transDone t.toNat) := by
  have e : ∀ a : State, (a.endCalibrate due).now = a.now := fun a => (State.endCalibrate_touches a due).keeps .now rfl
  rcases hm with rfl | rfl | rfl | rfl
  · have : s.transDone t.toNat = ((s.toTime (min t.toNat due)).endCalibrate due).enterReady := by
      unfold State.transDone
      cases hs : s.mode.mode <;> simp_all
    rw [this, ← e]; exact State.enterReady_mode _
  · have : s.transDone t.toNat = (s.toTime (min t.toNat due)).enterQuiet .calibrate := by
      unfold State.transDone
      cases hs : s.mode.mode <;> simp_all
    rw [this]; exact State.enterQuiet_mode _ _
  · have : s.transDone t.toNat = (s.toTime (min t.toNat due)).enterQuiet .test := by
      unfold State.transDone
      cases hs : s.mode.mode <;> simp_all
    rw [this]; exact State.enterQuiet_mode _ _
  · have : s.transDone t.toNat = (s.toTime (min t.toNat due)).enterDormant := by
      unfold State.transDone
      cases hs : s.mode.mode <;> simp_all
    rw [this]; exact dorm _

theorem c2 (s : State) (t : BitVec 64) (due : Nat) (h : s.mode.trans = some (.boot, due)) (hb : s.mode.mode ≠ .boot) :
   modeIs .boot (up8 (s.toTime (min t.toNat due)).now) (s.transDone t.toNat) := by
  have : s.transDone t.toNat = (s.toTime (min t.toNat due)).enterBoot := by
      unfold State.transDone
      cases hs : s.mode.mode <;> simp_all
  rw [this]; exact bootm _

theorem c3 (s : State) (t : Nat) (due : Nat) (h : s.mode.trans = some (.safe, due)) :
   modeIs .safe (s.toTime (min t due)).now (s.safeEntry t) ∧ (s.mode.pend = none → ∀ e ∈ (s.safeEntry t).strands, e.2.gate = .gated) := by
  obtain ⟨x, hx, hp, hs⟩ : ∃ x : State, modeIs .safe (s.toTime (min t due)).now x ∧ (s.mode.pend = none → x.mode.pend = none) ∧
     s.safeEntry t = ((x.clearEnables).stopPlies.losePlies).carryPend := by
    simp only [State.safeEntry, h]
    refine ⟨_, ?_, ?_, rfl⟩
    · have q := modeIs.of (State.invalidateSlots_touches ((s.toTime (min t due)).leaveReady.enterMode .safe (s.toTime (min t due)).now) (up8 (s.toTime (min t due)).now)) rfl (modeIs.enterMode _ _ _)
      exact modeIs.set q.1 q.2
    · intro hp
      have q := (State.invalidateSlots_touches ((s.toTime (min t due)).leaveReady.enterMode .safe (s.toTime (min t due)).now) (up8 (s.toTime (min t due)).now)).keeps .mode rfl
      simp only [Part.same] at q
      simp only [State.setMode_mode, q]
      simpa [State.leaveReady] using hp
  rw [hs]
  have y : modeIs .safe (s.toTime (min t due)).now ((x.clearEnables).stopPlies.losePlies) := by
    unfold State.losePlies
    exact modeIs.ite hx hx
  refine ⟨modeIs.carryPend y, fun hp' => ?_⟩
  have : ((x.clearEnables).stopPlies.losePlies).mode.pend = none := by
    unfold State.losePlies
    split_ifs <;> exact hp hp'
  rw [State.carryPend_none _ this]
  have e : ((x.clearEnables).stopPlies.losePlies).strands = ((x.clearEnables).stopPlies).strands := by
    unfold State.losePlies
    split_ifs <;> rfl
  rw [e]
  simp only [State.stopPlies, List.mem_map]
  rintro e ⟨a, -, rfl⟩
  rfl

theorem c6 (s : State) (t : BitVec 64) (due : Nat) (h : s.mode.trans = some (.ready, due)) (hr : s.mode.mode = .boot) (uc0 uc1 : ImageCheck)
   (hu : (s.clockTo (min t.toNat due)).mc.running = true) (hl : ((s.clockTo (min t.toNat due)).loadUc uc0 uc1).2 = true) :
   modeIs .ready (s.clockTo (min t.toNat due)).now (s.bootComplete t.toNat true uc0 uc1) := by
  simp only [State.bootComplete, hr, h, hu, hl]
  have k : ∀ (l : List Nat) (a : State), (l.foldl (fun a p => a.bump (.plyStarts p) 1) a).now = a.now := by
    intro l; induction l with
    | nil => intro a; rfl
    | cons p l ih => intro a; rw [List.foldl_cons, ih]; exact (State.bump_touches ..).keeps .now rfl
  have q := (State.loadUc_touches (s.clockTo (min t.toNat due)) uc0 uc1).keeps .now rfl
  simp only [Part.same] at q
  have := State.enterReady_mode
  simp only [Bool.true_eq_false, if_false, or_self]
  rw [← q]
  have z : ∀ (a b : State), b.now = a.now → modeIs .ready a.now b.enterReady := fun a b h => by rw [← h]; exact this b
  exact z _ _ (by rw [State.setSync_now, k])

end Sys2Proof
end

