-- ==== Sys2Proof/Laws/ModeRequests.lean ====
section
/-! SUPPORT. Steps of the commands of one kind: mode requests. -/

namespace Sys2Proof

open Sys2Proof.Machine

def reqMode (s : State) : ModeSt := { s.mode with holdHost := (s.mode.mode == .run || s.mode.mode == .hold) && s.mode.holdHost, holdRef := false, holdTherm := false, pend := none }

def preOk (s a : State) : Prop := ∃ rg, (∀ r : RegId, r.off ≠ 0x1000 → Tab.get rg r.off r.reset = s.reg r) ∧ a = { s with mode := reqMode s, regs := rg }

theorem preOk.p {s a : State} (h : preOk s a) (hn : noHoldCause s) :
    a.mode = reqMode s ∧ noHoldCause a ∧ a.now = s.now ∧ a.mem = s.mem ∧ a.pwr = s.pwr ∧ a.thm = s.thm ∧ a.sync = s.sync := by
  obtain ⟨rg, -, rfl⟩ := h; exact ⟨rfl, hn, rfl, rfl, rfl, rfl, rfl⟩

theorem rg_aux (l : Tab Word) (v w : Word) (r : RegId) (h : r.off ≠ 0x1000) :
   Tab.get (Tab.put (Tab.put l 0x1000 v) 0x1000 w) r.off r.reset = Tab.get l r.off r.reset := by
  rw [Tab.get_put_ne _ _ _ h, Tab.get_put_ne _ _ _ h]

theorem rg_aux1 (l : Tab Word) (v : Word) (r : RegId) (h : r.off ≠ 0x1000) :
   Tab.get (Tab.put l 0x1000 v) r.off r.reset = Tab.get l r.off r.reset := by
  rw [Tab.get_put_ne _ _ _ h]

theorem pre (s : State) (c : Fin 8) (r : Req) (hw hr : Bool) (hc : c.val ≠ 0) (hq : reqOf c.val = some r)
    (hm : s.mode.mode ≠ .dormant) (hn : noHoldCause s) (ht : s.mode.trans = none) :
    ∃ a : State, preOk s a ∧
      s.wrModeCtl (modeWord 0 (8 + c.val) hw hr) = (a.carryOut r).evalHold := by
  rw [State.wrModeCtl_req s c r hw hr hc hq hm]
  rw [State.refreshHold_quiet (State.setFld ..) (by exact hn), State.request_now _ _ (by simpa [State.setFld] using ht)]
  exact ⟨_, by exact ⟨_, by intro r h; exact rg_aux _ _ _ _ h, rfl⟩, rfl⟩

theorem keyed (hw hr : Bool) :
   (∀ w, w = modeWord 0x5A 8 hw hr → getF w 3 3 = 1 ∧ getF w 9 9 = 0 ∧ getF w 8 8 = 0 ∧ getF w 2 0 = 0 ∧ getF w 31 24 = 0x5A) ∧
   (∀ w, w = modeWord 0x5A 512 hw hr → getF w 3 3 = 0 ∧ getF w 9 9 = 1 ∧ getF w 8 8 = 0 ∧ getF w 31 24 = 0x5A) ∧
   (∀ w, w = modeWord 0x5A 256 hw hr → getF w 3 3 = 0 ∧ getF w 9 9 = 0 ∧ getF w 8 8 = 1 ∧ getF w 31 24 = 0x5A) := by
  cases hw <;> cases hr <;> refine ⟨?_, ?_, ?_⟩ <;> rintro w rfl <;> decide

theorem preD (s : State) (hw hr : Bool) (hm : s.mode.mode ≠ .dormant) (hn : noHoldCause s) (ht : s.mode.trans = none) :
    ∃ a : State, preOk s a ∧ s.wrModeCtl (modeWord 0x5A 8 hw hr) = (a.carryOut .dormant).evalHold := by
  obtain ⟨h1, h2, h3, h4, h5⟩ := (keyed hw hr).1 _ rfl
  have : s.wrModeCtl (modeWord 0x5A 8 hw hr) = ((((s.setFld .modeCtl 5 4 (getF (modeWord 0x5A 8 hw hr) 5 4)).refreshHold.setFld .modeCtl 2 0 0).request .dormant).evalHold) := by
    unfold State.wrModeCtl; simp [h1, h2, h3, h4, h5, hm, reqOf]
  rw [this, State.refreshHold_quiet (State.setFld ..) (by exact hn), State.request_now _ _ (by simpa [State.setFld] using ht)]
  exact ⟨_, by exact ⟨_, by intro r h; exact rg_aux _ _ _ _ h, rfl⟩, rfl⟩

theorem preA (s : State) (hw hr : Bool) (hm : s.mode.mode ≠ .dormant) (hn : noHoldCause s) (ht : s.mode.trans = none) :
    ∃ a : State, preOk s a ∧ s.wrModeCtl (modeWord 0x5A 512 hw hr) = (a.carryOut .safeAck).evalHold := by
  obtain ⟨h1, h2, h3, h5⟩ := (keyed hw hr).2.1 _ rfl
  have : s.wrModeCtl (modeWord 0x5A 512 hw hr) = ((((s.setFld .modeCtl 5 4 (getF (modeWord 0x5A 512 hw hr) 5 4)).refreshHold).request .safeAck).evalHold) := by
    unfold State.wrModeCtl; simp [h1, h2, h3, h5, hm]
  rw [this, State.refreshHold_quiet (State.setFld ..) (by exact hn), State.request_now _ _ (by simpa [State.setFld] using ht)]
  exact ⟨_, by exact ⟨_, by intro r h; exact rg_aux1 _ _ _ h, rfl⟩, rfl⟩

theorem preR (s : State) (hw hr : Bool) (hm : s.mode.mode ≠ .dormant) (hn : noHoldCause s) (ht : s.mode.trans = none) :
    ∃ a : State, preOk s a ∧ s.wrModeCtl (modeWord 0x5A 256 hw hr) = (a.carryOut .reset).evalHold := by
  obtain ⟨h1, h2, h3, h5⟩ := (keyed hw hr).2.2 _ rfl
  have : s.wrModeCtl (modeWord 0x5A 256 hw hr) = ((((s.setFld .modeCtl 5 4 (getF (modeWord 0x5A 256 hw hr) 5 4)).refreshHold).request .reset).evalHold) := by
    unfold State.wrModeCtl; simp [h1, h2, h3, h5, hm]
  rw [this, State.refreshHold_quiet (State.setFld ..) (by exact hn), State.request_now _ _ (by simpa [State.setFld] using ht)]
  exact ⟨_, by exact ⟨_, by intro r h; exact rg_aux1 _ _ _ h, rfl⟩, rfl⟩

theorem fin (s a b : State) (h' : preOk s a) (hn : noHoldCause s) (m : Mode) (d : Nat) (hb : b = a.beginTrans m d) :
   b.evalHold.mode.trans = some (m, d) ∧ b.evalHold.mode.mode = s.mode.mode := by
  subst hb
  have h := h'.p hn
  rw [State.evalHold_quiet _ (by exact h.2.1) (by simp [State.beginTrans, h.1, reqMode])]
  simp [State.beginTrans, h.1, reqMode]

end Sys2Proof
end

