-- ==== Sys2Proof/Laws/Monitors.lean ====
section
/-! SUPPORT. Steps of the commands of one kind: monitor inputs and triggers. -/

namespace Sys2Proof

open Sys2Proof.Machine

theorem mon_of {l : List Part} {s t : State} (h : Touches l s t) (hl : l.contains .mon = false) (n : Nat) : t.monIn n = s.monIn n := by
  have := h.keeps .mon hl
  simp only [Part.same] at this
  simp [State.monIn, this]

theorem mon_set (s : State) (d : Nat) (x : MonIn) (i : Nat) : (s.setMonIn d x).monIn i = if i = d then x else s.monIn i := by
  unfold State.monIn State.setMonIn
  dsimp only
  split_ifs with h
  · subst h; exact Tab.get_put ..
  · exact Tab.get_put_ne _ _ _ h

def mCore (x : MonIn) : MonIn := { x with batch := [], tFirst := 0 }

theorem closeBatch_mon (s : State) (n : Nat) : mCore ((s.closeBatch n).monIn n) = mCore (s.monIn n) := by
  unfold State.closeBatch
  dsimp only
  split_ifs
  · rfl
  · rw [mon_of (State.dropPacket_touches ..) rfl, mon_set, if_pos rfl]; rfl
  · rw [mon_of (State.pushPacket_touches ..) rfl, mon_of (State.makeRoom_touches ..) rfl, mon_set, if_pos rfl]; rfl
  · rw [mon_of (State.dropPacket_touches ..) rfl, mon_of (State.makeRoom_touches ..) rfl, mon_set, if_pos rfl]; rfl

theorem deliver_mon (s : State) (n w st : Nat) : mCore ((s.deliverSample n w st).monIn n) = mCore (s.monIn n) := by
  unfold State.deliverSample
  dsimp only
  split_ifs
  · rfl
  all_goals first
    | (rw [closeBatch_mon, mon_set, if_pos rfl]; rfl)
    | (rw [mon_set, if_pos rfl]; rfl)

theorem keep_mon (s : State) (n st : Nat) (v : Int) (c : Bool) : ((s.keepSample n st v c).monIn n).code = toTwos 24 v ∧ ((s.keepSample n st v c).monIn n).clip = c ∧
    ((s.keepSample n st v c).monIn n).last = (s.monIn n).last := by
  have L : ∀ (x : MonIn) a b h, (x.compare a b h).1.last = x.last := by intro x a b h; unfold MonIn.compare; split_ifs <;> rfl
  have L2 : ∀ (x : MonIn) a b h, (x.openWire a b h).1.last = x.last := by intro x a b h; rfl
  have K : ∀ (a : State) w, ((a.deliverSample n w st).monIn n).code = (a.monIn n).code ∧ ((a.deliverSample n w st).monIn n).clip = (a.monIn n).clip ∧
      ((a.deliverSample n w st).monIn n).last = (a.monIn n).last := by
    intro a w
    have h := deliver_mon a n w st
    have h1 := congrArg MonIn.code h
    have h2 := congrArg MonIn.clip h
    have h3 := congrArg MonIn.last h
    exact ⟨h1, h2, h3⟩
  unfold State.keepSample
  dsimp only
  rw [(K _ _).1, (K _ _).2.1, (K _ _).2.2]
  have R : ∀ (a : State) (p q : Bool) (e f : Ev) x y, (State.monIn (if q then (if p then a.raise e 0 n st x else a).raise f 0 n st y else (if p then a.raise e 0 n st x else a)) n) = a.monIn n := by
    intro a p q e f x y
    cases p <;> cases q <;> simp [mon_of (State.raise_touches ..) rfl]
  rw [R, mon_set, if_pos rfl]
  exact ⟨rfl, rfl, L ..⟩

theorem mon_eq (s : State) (n : Nat) (raw : Int) (h : s.monRuns n = true) (k : (s.monIn n).skip = 0) :
    s.monSample n raw = ((s.clockTo (s.monStamp n)).setMonIn n { s.monIn n with last := s.monStamp n }).keepSample n (s.monStamp n) (satI 24 raw) (decide (satI 24 raw ≠ raw)) := by
  have k' : ¬ 0 < ((s.clockTo (s.monStamp n)).monIn n).skip := by show ¬ 0 < (s.monIn n).skip; omega
  unfold State.monSample
  dsimp only
  rw [if_neg (by rw [h]; decide), if_neg k']
  rfl

theorem mon_skip (s : State) (n : Nat) (raw : Int) (h : s.monRuns n = true) (k : 0 < (s.monIn n).skip) :
    s.monSample n raw = (s.clockTo (s.monStamp n)).setMonIn n { s.monIn n with last := s.monStamp n, skip := (s.monIn n).skip - 1 } := by
  have k' : 0 < ((s.clockTo (s.monStamp n)).monIn n).skip := k
  unfold State.monSample
  dsimp only
  rw [if_neg (by rw [h]; decide), if_pos k']
  rfl

theorem monitors_1 (s : State) : (∀ (n : Fin 64) (raw : Int), s.monRuns n = true →
    ((s.monIn n).skip = 0 →
      ∃ u, exec (.monSample n raw) s = .next u ∧ u.now = (s.clockTo (s.monStamp n)).now ∧ (u.monIn n).last = s.monStamp n ∧
        (u.monIn n).code = toTwos 24 (satI 24 raw) ∧ (u.monIn n).clip = decide (satI 24 raw ≠ raw)) ∧
    (0 < (s.monIn n).skip →
      ∃ u, exec (.monSample n raw) s = .next u ∧ u.monIn n = { s.monIn n with last := s.monStamp n, skip := (s.monIn n).skip - 1 })) := by
  intro n raw h
  refine ⟨fun k => ⟨_, congrArg Host.Outcome.next (mon_eq s n raw h k), ?_⟩, fun k => ⟨_, congrArg Host.Outcome.next (mon_skip s n raw h k), ?_⟩⟩
  · obtain ⟨a, b, c⟩ := keep_mon ((s.clockTo (s.monStamp n)).setMonIn n { s.monIn n with last := s.monStamp n }) n (s.monStamp n) (satI 24 raw) (decide (satI 24 raw ≠ raw))
    have d := now_of (State.keepSample_touches ((s.clockTo (s.monStamp n)).setMonIn n { s.monIn n with last := s.monStamp n }) n (s.monStamp n) (satI 24 raw) (decide (satI 24 raw ≠ raw))) rfl
    rw [mon_set, if_pos rfl] at c
    exact ⟨d, c, a, b⟩
  · rw [mon_set, if_pos rfl]

theorem monitors_2 (s a : State) (t : BitVec 64) (h0 : a = s.upTo t) : (∀ (i : Fin 32) (level : Bool) (held : Nat), a.trigOn = true →
    (held < 8 + a.fld (.tioInCtl i) 11 8 → ∃ u, exec (.triggerEdge t i level held) s = .next u ∧ u.tio = a.tio ∧
      u.count (.tioGlitch i) = min 0xFFFFFFFF (a.count (.tioGlitch i) + 1)) ∧
    (8 + a.fld (.tioInCtl i) 11 8 ≤ held → Tab.get a.tio.level i 0 ≠ b2n (level != decide (a.fld (.tioInCtl i) 2 2 = 1)) →
      ∃ u, exec (.triggerEdge t i level held) s = .next u ∧
        Tab.get u.tio.level i 0 = b2n (level != decide (a.fld (.tioInCtl i) 2 2 = 1)) ∧
        Tab.get u.dec.trigs i [] = { at' := t.toNat, stamp := t.toNat, val := b2n (level != decide (a.fld (.tioInCtl i) 2 2 = 1)) } :: Tab.get a.dec.trigs i [])) := by
  intro i level held ho
  have ho' : ¬ a.trigOn = false := by rw [ho]; decide
  have X : exec (.triggerEdge t i level held) s = .next (a.triggerEdge i level held t.toNat) := by rw [h0]; rfl
  refine ⟨fun h => ⟨_, X, ?_⟩, fun h hl => ⟨_, X, ?_⟩⟩
  · have h' : held < 8 + a.fld (.tioInCtl i) 11 8 := h
    unfold State.triggerEdge
    dsimp only
    rw [if_neg ho', if_pos h']
    exact ⟨rfl, Tab.get_put ..⟩
  · have h' : ¬ held < 8 + a.fld (.tioInCtl i) 11 8 := by omega
    have hl' : ¬ Tab.get a.tio.level i 0 = b2n (level != decide (a.fld (.tioInCtl i) 2 2 = 1)) := hl
    unfold State.triggerEdge
    dsimp only
    rw [if_neg ho', if_neg h', if_neg hl']
    generalize b2n (level != decide (a.fld (.tioInCtl i) 2 2 = 1)) = lvl
    unfold State.transition
    dsimp only
    have F : ∀ (l : List Nat) (a : State), (l.foldl (fun a c => if (a.reg (.seqTrigMask c)).getLsbD i then a.pushTrig c i t.toNat else a) a).tio = a.tio ∧
        (l.foldl (fun a c => if (a.reg (.seqTrigMask c)).getLsbD i then a.pushTrig c i t.toNat else a) a).dec = a.dec := by
      intro l
      induction l with
      | nil => intro a; exact ⟨rfl, rfl⟩
      | cons c l ih =>
        intro a
        rw [List.foldl_cons, (ih _).1, (ih _).2]
        split_ifs
        · exact ⟨(State.pushTrig_touches ..).keeps .tio rfl, (State.pushTrig_touches ..).keeps .dec rfl⟩
        · exact ⟨rfl, rfl⟩
    have R : ∀ (a : State) (c : Prop) [Decidable c] e x, (if c then a.raise e 0 i t.toNat x else a).tio = a.tio ∧ (if c then a.raise e 0 i t.toNat x else a).dec = a.dec := by
      intro a c _ e x
      split_ifs
      · exact ⟨(State.raise_touches ..).keeps .tio rfl, (State.raise_touches ..).keeps .dec rfl⟩
      · exact ⟨rfl, rfl⟩
    by_cases c : (a.fld (.tioInCtl i) 5 4).testBit (if lvl = 1 then 0 else 1) = false
    · rw [if_pos c]
      exact ⟨Tab.get_put .., Tab.get_put ..⟩
    · rw [if_neg c, (R _ _ _ _).1, (R _ _ _ _).2, (F _ _).1, (F _ _).2]
      exact ⟨Tab.get_put .., Tab.get_put ..⟩

theorem trigReg_near (x : TrigTarget) (s : State) : s.absent (trigReg x).off = false := by
  have h : ∀ n, 0x70500 ≤ n → n < 0x80000 → farOff n = false := by
    intro n h1 h2
    simp only [farOff, farBlock, Bool.or_eq_false_iff, Bool.and_eq_false_iff, decide_eq_false_iff_not]
    omega
  unfold State.absent
  cases x with
  | out o => rw [h _ (by simp only [trigReg, RegId.off]; omega) (by have := o.isLt; simp only [trigReg, RegId.off]; omega)]; simp
  | window o => rw [h _ (by simp only [trigReg, RegId.off]; omega) (by have := o.isLt; simp only [trigReg, RegId.off]; omega)]; simp

theorem monitors_3 (s a : State) (t : BitVec 64) (h0 : a = s.upTo t) : (∀ (x : TrigTarget) (w : Word), s.blocksUp = true →
    ((a.gateBusy (trigUnit x (a.reg (trigReg x))) || a.gateBusy (trigUnit x (RegId.mergeX (trigReg x) (a.reg (trigReg x)) w))) = false →
      ∃ u, exec (.triggerOutWrite t x w) s = .next u ∧ u.reg (trigReg x) = RegId.mergeX (trigReg x) (a.reg (trigReg x)) w) ∧
    ((a.gateBusy (trigUnit x (a.reg (trigReg x))) || a.gateBusy (trigUnit x (RegId.mergeX (trigReg x) (a.reg (trigReg x)) w))) = true →
      ∃ u, exec (.triggerOutWrite t x w) s = .next u ∧ u.regs = a.regs ∧ ((trigReg x).off, w) ∈ u.held)) := by
  intro x w hb
  subst h0
  refine ⟨fun h => ⟨_, congrArg Host.Outcome.next (State.blockWrite_up _ _ _ _ hb (trigReg_near ..)), ?_⟩,
    fun h => ⟨_, congrArg Host.Outcome.next (State.blockWrite_up _ _ _ _ hb (trigReg_near ..)), ?_⟩⟩
  · unfold State.wrTrig
    dsimp only
    rw [if_neg (by rw [h]; decide)]
    cases x <;> exact State.reg_setReg ..
  · unfold State.wrTrig
    dsimp only
    rw [if_pos h]
    exact ⟨rfl, List.mem_append_right _ (List.mem_singleton.2 rfl)⟩

theorem monitors_4 (s a : State) (t : BitVec 64) (h0 : a = s.upTo t) : (∀ (v : Fin 32) (p q : Nat), a.fld (.tioEwCtl v) 31 31 = 1 →
    ((a.punit (a.fld (.tioEwCtl v) 12 8) (a.fld (.tioEwCtl v) 6 0)).intervals.find? (fun i => decide (i.1 < i.2) && decide (i.2 ≤ a.now) &&
      decide ((Tab.get a.tio.wins v {}).from' ≤ i.1) && (Tab.get a.tio.wins v {}).done.all (fun d => decide (d < i.1)))) = some (p, q) →
    ∃ u, exec (.eventWindowEnd t v) s = .next u ∧ (Tab.get u.tio.wins v {}).done = some p) := by
  intro v p q h1 h2
  refine ⟨a.evWindow v, by rw [h0]; rfl, ?_⟩
  have h1' : ¬ a.fld (.tioEwCtl v) 31 31 = 0 := by show ¬ a.fld (.tioEwCtl v) 31 31 = 0; rw [h1]; decide
  have key : ∀ F : Nat × Nat → Bool, (∀ i, F i = (decide (i.1 < i.2) && decide (i.2 ≤ a.now) &&
      decide ((Tab.get a.tio.wins v {}).from' ≤ i.1) && (Tab.get a.tio.wins v {}).done.all (fun d => decide (d < i.1)))) →
      (a.punit (a.fld (.tioEwCtl v) 12 8) (a.fld (.tioEwCtl v) 6 0)).intervals.find? F = some (p, q) := by
    intro F hF
    rw [funext hF]
    exact h2
  unfold State.evWindow
  dsimp only
  rw [if_neg h1']
  have dn : ∀ i : Nat × Nat, (match (Tab.get a.tio.wins v {}).done with | none => true | some d => decide (d < i.1)) = (Tab.get a.tio.wins v {}).done.all (fun d => decide (d < i.1)) := by
    intro i
    have : (Tab.get a.tio.wins v {}).done = (Tab.get a.tio.wins v {}).done := rfl
    rw [this]
    cases (Tab.get a.tio.wins v {}).done <;> rfl
  split
  · rename_i e
    cases e.symm.trans (key _ (fun i => congrArg (_ && ·) (dn i)))
  · rename_i x y e
    have q := Option.some.inj (e.symm.trans (key _ (fun i => congrArg (_ && ·) (dn i))))
    obtain ⟨rfl, rfl⟩ := Prod.mk.inj q
    rw [show (State.raise _ _ _ _ _ _).tio = _ from (State.raise_touches ..).keeps .tio rfl]
    exact congrArg EvWin.done (Tab.get_put ..)

end Sys2Proof
end

