-- ==== Sys2Proof/Laws/Outputs.lean ====
section
/-! SUPPORT. Steps of the commands of one kind: outputs, inputs and results. -/

namespace Sys2Proof

open Sys2Proof.Machine

theorem out_of {l : List Part} {s t : State} (h : Touches l s t) (hl : l.contains .outs = false) (k o : Nat) : t.out k o = s.out k o := by
  have := h.keeps .outs hl
  simp only [Part.same] at this
  simp [State.out, this]

theorem slot_of {l : List Part} {s t : State} (h : Touches l s t) (hl : l.contains .dec = false) (n : Nat) : t.slotHist n = s.slotHist n := by
  have := h.keeps .dec hl
  simp only [Part.same] at this
  simp [State.slotHist, this]

/-- The shots of core d with their ends and open windows, which a commit leaves alone. -/
def shotSig (s : State) (d : Nat) : List (Nat × Option Nat × Nat) := (s.core d).shots.map (fun x => (x.uid, x.stop, x.openW))

theorem shotSig_of {l : List Part} {s t : State} (h : Touches l s t) (hl : l.contains .cores = false) (d : Nat) : shotSig t d = shotSig s d := by
  unfold shotSig; rw [core_of h hl]

theorem modShot_shotSig (s : State) (c u d : Nat) (f : Shot → Shot) (h : ∀ x, (f x).uid = x.uid ∧ (f x).stop = x.stop ∧ (f x).openW = x.openW) :
    shotSig (s.setCore c ((s.core c).modShot u f)) d = shotSig s d := by
  unfold shotSig
  by_cases e : d = c
  · subst e
    rw [State.core_setCore]
    simp only [Core.modShot, List.map_map]
    refine List.map_congr_left (fun x _ => ?_)
    simp only [Function.comp]
    split_ifs
    · rw [(h x).1, (h x).2.1, (h x).2.2]
    · rfl
  · rw [State.core_setCore_ne _ _ _ _ e]

theorem loseResult_shotSig (s : State) (e c u n d) : shotSig (s.loseResult e c u n) d = shotSig s d := by
  unfold State.loseResult
  refine (modShot_shotSig _ _ _ _ (fun x => { x with sumDue := true }) (fun _ => ⟨rfl, rfl, rfl⟩)).trans ?_
  rw [shotSig_of (State.bump_touches ..) rfl, shotSig_of (State.raise_touches ..) rfl]

theorem commitBytes_shotSig (s : State) (c u : Nat) (bs : List Byte) (d : Nat) : shotSig (s.commitBytes c u bs) d = shotSig s d := by
  unfold State.commitBytes
  dsimp only
  split_ifs
  · exact loseResult_shotSig ..
  · rw [loseResult_shotSig, shotSig_of (State.dropPacket_touches ..) rfl]
  · have h : ∀ (a : State) b x, a.storePacket (s.fld (.discResQ c) 14 0) bs = (b, x) → shotSig b d = shotSig a d := by
      intro a b x hx
      have := State.storePacket_touches a (s.fld (.discResQ c) 14 0) bs
      rw [hx] at this
      exact shotSig_of this rfl d
    split <;> rename_i hx
    · exact (h _ _ _ hx).trans rfl
    · exact (h _ _ _ hx).trans rfl
    · rw [loseResult_shotSig]; exact (h _ _ _ hx).trans rfl

theorem commitStaged_shotSig (s : State) (b : Bool) (p : Staged) (d : Nat) : shotSig (s.commitStaged b p) d = shotSig s d := by
  unfold State.commitStaged
  dsimp only
  rw [commitBytes_shotSig]
  split_ifs
  · exact modShot_shotSig _ _ _ _ (fun x => { x with early := true }) (fun _ => ⟨rfl, rfl, rfl⟩)
  · rfl

theorem commitWhere_strand (s : State) (k : Nat) (f : Staged → Bool) (b : Bool) (j : Nat) :
    (s.commitWhere k f (State.commitStaged · b)).strand j = if j = k then { s.strand k with staged := (s.strand k).staged.filter (fun p => !f p) } else s.strand j := by
  unfold State.commitWhere
  dsimp only
  have F : ∀ (l : List Staged) (a : State), (l.foldl (State.commitStaged · b) a).strand j = a.strand j := by
    intro l
    induction l with
    | nil => intros; rfl
    | cons x l ih => intro a; rw [List.foldl_cons, ih]; exact strand_of (State.commitStaged_touches ..) rfl j
  rw [F]
  split_ifs with h
  · subst h; rw [State.strand_setStrand]
  · exact State.strand_setStrand_ne _ _ _ _ h

theorem commitWhere_shotSig (s : State) (k : Nat) (f : Staged → Bool) (b : Bool) (d : Nat) : shotSig (s.commitWhere k f (State.commitStaged · b)) d = shotSig s d := by
  unfold State.commitWhere
  dsimp only
  have F : ∀ (l : List Staged) (a : State), shotSig (l.foldl (State.commitStaged · b) a) d = shotSig a d := by
    intro l
    induction l with
    | nil => intros; rfl
    | cons x l ih => intro a; rw [List.foldl_cons, ih, commitStaged_shotSig]
  rw [F]; rfl

theorem ready_of_shotSig (s t : State) (c : Nat) (h : shotSig t c = shotSig s c) :
    ((t.core c).shots.filter Shot.ready).map (·.uid) = ((s.core c).shots.filter Shot.ready).map (·.uid) := by
  have k : ∀ l : List Shot, (l.filter Shot.ready).map (·.uid) = ((l.map (fun x => (x.uid, x.stop, x.openW))).filter (fun y => y.2.1.isSome && y.2.2 == 0)).map (·.1) := by
    intro l
    induction l with
    | nil => rfl
    | cons x l ih =>
      have e : x.ready = (x.stop.isSome && x.openW == 0) := rfl
      rw [List.filter_cons, List.map_cons, List.filter_cons, e]
      dsimp only
      split_ifs
      · rw [List.map_cons, List.map_cons, ih]
      · exact ih
  rw [k, k]; exact congrArg (fun z => List.map (·.1) (List.filter (fun y => y.2.1.isSome && y.2.2 == 0) z)) h

end Sys2Proof
end

