-- ==== Sys2Proof/Laws/PerInstr.lean ====
section
/-! SUPPORT. The family Operands: for each command, its row of the table has a command that the check accepts, so the check
shuts out no row. One lemma per constructor. -/

namespace Sys2Proof.Laws.Operands

/-- The row of the command has a well-formed command. -/
def Statement (i : Instr) : Prop := ∃ j : Instr, j.ctorIdx = i.ctorIdx ∧ j.wellFormed = true

/-- A report on an image that the check accepts. -/
def goodCheck : ImageCheck :=
  { digestOk := true, sigOk := true, tagOk := true, plain := [], readbackOk := true, flashOk := true }

theorem mainsOn (t : BitVec 64) (temps : List Int) (fw0 fw1 : ImageCheck) (recOk : Bool) : Statement (.mainsOn t temps fw0 fw1 recOk) :=
  ⟨.mainsOn t (List.replicate 22 250) goodCheck goodCheck recOk, rfl, rfl⟩

theorem bootEntry (t : BitVec 64) : Statement (.bootEntry t) :=
  ⟨.bootEntry t, rfl, rfl⟩

theorem bootComplete (t : BitVec 64) (hbmOk : Bool) (uc0 uc1 : ImageCheck) : Statement (.bootComplete t hbmOk uc0 uc1) :=
  ⟨.bootComplete t hbmOk goodCheck goodCheck, rfl, rfl⟩

theorem wakeSource (t : BitVec 64) (src : WakeSource) : Statement (.wakeSource t src) :=
  ⟨.wakeSource t src, rfl, rfl⟩

theorem wakeTimer : Statement (.wakeTimer) :=
  ⟨.wakeTimer, rfl, rfl⟩

theorem reqRun (t : BitVec 64) (holdWarn holdRef : Bool) : Statement (.reqRun t holdWarn holdRef) :=
  ⟨.reqRun t holdWarn holdRef, rfl, rfl⟩

theorem reqHold (t : BitVec 64) (holdWarn holdRef : Bool) : Statement (.reqHold t holdWarn holdRef) :=
  ⟨.reqHold t holdWarn holdRef, rfl, rfl⟩

theorem reqReady (t : BitVec 64) (holdWarn holdRef : Bool) : Statement (.reqReady t holdWarn holdRef) :=
  ⟨.reqReady t holdWarn holdRef, rfl, rfl⟩

theorem reqCalibrate (t : BitVec 64) (holdWarn holdRef : Bool) : Statement (.reqCalibrate t holdWarn holdRef) :=
  ⟨.reqCalibrate t holdWarn holdRef, rfl, rfl⟩

theorem reqTest (t : BitVec 64) (holdWarn holdRef : Bool) : Statement (.reqTest t holdWarn holdRef) :=
  ⟨.reqTest t holdWarn holdRef, rfl, rfl⟩

theorem reqDormant (t : BitVec 64) (key : BitVec 8) (holdWarn holdRef : Bool) : Statement (.reqDormant t key holdWarn holdRef) :=
  ⟨.reqDormant t key holdWarn holdRef, rfl, rfl⟩

theorem safeAck (t : BitVec 64) (key : BitVec 8) (holdWarn holdRef : Bool) : Statement (.safeAck t key holdWarn holdRef) :=
  ⟨.safeAck t key holdWarn holdRef, rfl, rfl⟩

theorem modeReset (t : BitVec 64) (key : BitVec 8) (holdWarn holdRef : Bool) : Statement (.modeReset t key holdWarn holdRef) :=
  ⟨.modeReset t key holdWarn holdRef, rfl, rfl⟩

theorem modeTransitionDone (t : BitVec 64) : Statement (.modeTransitionDone t) :=
  ⟨.modeTransitionDone t, rfl, rfl⟩

theorem holdPause : Statement (.holdPause) :=
  ⟨.holdPause, rfl, rfl⟩

theorem holdResume : Statement (.holdResume) :=
  ⟨.holdResume, rfl, rfl⟩

theorem safeEntry (t : BitVec 64) : Statement (.safeEntry t) :=
  ⟨.safeEntry t, rfl, rfl⟩

theorem plyPolicyWrite (t : BitVec 64) (p : Fin 4) (w : Word) : Statement (.plyPolicyWrite t p w) :=
  ⟨.plyPolicyWrite t p w, rfl, rfl⟩

theorem plyLocked (p : Fin 4) : Statement (.plyLocked p) :=
  ⟨.plyLocked p, rfl, rfl⟩

theorem plyIdleExpiry (p : Fin 4) : Statement (.plyIdleExpiry p) :=
  ⟨.plyIdleExpiry p, rfl, rfl⟩

theorem plyStopped (p : Fin 4) : Statement (.plyStopped p) :=
  ⟨.plyStopped p, rfl, rfl⟩

theorem unitEnable (t : BitVec 64) (u : UnitId) (w : Word) : Statement (.unitEnable t u w) :=
  ⟨.unitEnable t u w, rfl, rfl⟩

theorem unitDisable (t : BitVec 64) (u : UnitId) (w : Word) : Statement (.unitDisable t u w) :=
  ⟨.unitDisable t u w, rfl, rfl⟩

theorem outputShutdownDone (o : OutId) : Statement (.outputShutdownDone o) :=
  ⟨.outputShutdownDone o, rfl, rfl⟩

theorem strandGated (s : Fin 32) : Statement (.strandGated s) :=
  ⟨.strandGated s, rfl, rfl⟩

theorem strandUngated (s : Fin 32) : Statement (.strandUngated s) :=
  ⟨.strandUngated s, rfl, rfl⟩

theorem strandReset (t : BitVec 64) (s : Fin 32) (key : BitVec 8) : Statement (.strandReset t s key) :=
  ⟨.strandReset t s key, rfl, rfl⟩

theorem strandResetDone (t : BitVec 64) (s : Fin 32) : Statement (.strandResetDone t s) :=
  ⟨.strandResetDone t s, rfl, rfl⟩

theorem seqArm (t : BitVec 64) (c : Fin 256) (w : Word) : Statement (.seqArm t c w) :=
  ⟨.seqArm t c w, rfl, rfl⟩

theorem seqHaltWrite (t : BitVec 64) (c : Fin 256) (w : Word) : Statement (.seqHaltWrite t c w) :=
  ⟨.seqHaltWrite t c w, rfl, rfl⟩

theorem swtrig (t : BitVec 64) (c : Fin 256) (w : Word) : Statement (.swtrig t c w) :=
  ⟨.swtrig t c w, rfl, rfl⟩

theorem coreStart (c : Fin 256) : Statement (.coreStart c) :=
  ⟨.coreStart c, rfl, rfl⟩

theorem halt (c : Fin 256) : Statement (.halt c) :=
  ⟨.halt c, rfl, rfl⟩

theorem wait (c : Fin 256) : Statement (.wait c) :=
  ⟨.wait c, rfl, rfl⟩

theorem trigwait (c : Fin 256) : Statement (.trigwait c) :=
  ⟨.trigwait c, rfl, rfl⟩

theorem trigTimeout (c : Fin 256) : Statement (.trigTimeout c) :=
  ⟨.trigTimeout c, rfl, rfl⟩

theorem syncstrand (c : Fin 256) : Statement (.syncstrand c) :=
  ⟨.syncstrand c, rfl, rfl⟩

theorem play (c : Fin 256) (chk : Bool) : Statement (.play c chk) :=
  ⟨.play c chk, rfl, rfl⟩

theorem acq (c : Fin 256) (chk : Bool) : Statement (.acq c chk) :=
  ⟨.acq c chk, rfl, rfl⟩

theorem setstatic (c : Fin 256) : Statement (.setstatic c) :=
  ⟨.setstatic c, rfl, rfl⟩

theorem setfreq (c : Fin 256) : Statement (.setfreq c) :=
  ⟨.setfreq c, rfl, rfl⟩

theorem setphase (c : Fin 256) : Statement (.setphase c) :=
  ⟨.setphase c, rfl, rfl⟩

theorem frameadd (c : Fin 256) : Statement (.frameadd c) :=
  ⟨.frameadd c, rfl, rfl⟩

theorem bight (c : Fin 256) : Statement (.bight c) :=
  ⟨.bight c, rfl, rfl⟩

theorem endbight (c : Fin 256) : Statement (.endbight c) :=
  ⟨.endbight c, rfl, rfl⟩

theorem call (c : Fin 256) : Statement (.call c) :=
  ⟨.call c, rfl, rfl⟩

theorem ret (c : Fin 256) : Statement (.ret c) :=
  ⟨.ret c, rfl, rfl⟩

theorem jump (c : Fin 256) : Statement (.jump c) :=
  ⟨.jump c, rfl, rfl⟩

theorem jcond (c : Fin 256) : Statement (.jcond c) :=
  ⟨.jcond c, rfl, rfl⟩

theorem streamUnderrun (r : StreamReader) : Statement (.streamUnderrun r) :=
  ⟨.streamUnderrun r, rfl, rfl⟩

theorem hbmHeadCopyDone (t : BitVec 64) (s : Fin 32) (e : Fin 4096) : Statement (.hbmHeadCopyDone t s e) :=
  ⟨.hbmHeadCopyDone t s e, rfl, rfl⟩

theorem automuteClose (s : Fin 32) (o : Fin 6) : Statement (.automuteClose s o) :=
  ⟨.automuteClose s o, rfl, rfl⟩

theorem staticWrite (t : BitVec 64) (s : Fin 32) (c : Fin 16) (w : Word) : Statement (.staticWrite t s c w) :=
  ⟨.staticWrite t s c w, rfl, rfl⟩

theorem frameWrite (t : BitVec 64) (s : Fin 32) (f : Fin 4096) (w : Word) : Statement (.frameWrite t s f w) :=
  ⟨.frameWrite t s f w, rfl, rfl⟩

theorem pdCommit (t : BitVec 64) (s : Fin 32) (c : Fin 16) (w : Word) : Statement (.pdCommit t s c w) :=
  ⟨.pdCommit t s c w, rfl, rfl⟩

theorem zoneWrite (t : BitVec 64) (o : OutId) (w : Word) : Statement (.zoneWrite t o w) :=
  ⟨.zoneWrite t o w, rfl, rfl⟩

theorem rangeWrite (t : BitVec 64) (o : OutId) (w : Word) : Statement (.rangeWrite t o w) :=
  ⟨.rangeWrite t o w, rfl, rfl⟩

theorem rangeSettled (o : OutId) : Statement (.rangeSettled o) :=
  ⟨.rangeSettled o, rfl, rfl⟩

theorem outComply (t : BitVec 64) (s : Fin 32) (c : Fin 16) (v : OverVoltage) : Statement (.outComply t s c v) :=
  ⟨.outComply t s c v, rfl, rfl⟩

theorem complyClear (t : BitVec 64) (s : Fin 32) (c : Fin 16) (w : Word) : Statement (.complyClear t s c w) :=
  ⟨.complyClear t s c w, rfl, rfl⟩

theorem seqOwnWrite (t : BitVec 64) (s : Fin 32) (u : Fin 80) (w : Word) : Statement (.seqOwnWrite t s u w) :=
  ⟨.seqOwnWrite t s u w, rfl, rfl⟩

theorem inputConfigWrite (t : BitVec 64) (s : Fin 32) (i : Fin 2) (w : Word) : Statement (.inputConfigWrite t s i w) :=
  ⟨.inputConfigWrite t s i w, rfl, rfl⟩

theorem bandSettled (s : Fin 32) (i : Fin 2) : Statement (.bandSettled s i) :=
  ⟨.bandSettled s i, rfl, rfl⟩

theorem heldWriteApply (t : BitVec 64) (off : BitVec 24) : Statement (.heldWriteApply t off) :=
  ⟨.heldWriteApply t off, rfl, rfl⟩

theorem windowComplete (s : Fin 32) (r : Fin 32) (xs : List Int) (clips : List Nat) (parityOk : Bool) : Statement (.windowComplete s r xs clips parityOk) :=
  ⟨.windowComplete s r xs clips parityOk, rfl, rfl⟩

theorem rawDrainDone (t : BitVec 64) (s : Fin 32) (i : Fin 2) (samples : List Int) : Statement (.rawDrainDone t s i samples) :=
  ⟨.rawDrainDone t s i [], rfl, rfl⟩

theorem discCommit (t : BitVec 64) (s : Fin 32) (r : Fin 32) (w : Word) : Statement (.discCommit t s r w) :=
  ⟨.discCommit t s r w, rfl, rfl⟩

theorem resultCommit (t : BitVec 64) (c : Fin 256) : Statement (.resultCommit t c) :=
  ⟨.resultCommit t c, rfl, rfl⟩

theorem earlyRelease (t : BitVec 64) (s : Fin 32) : Statement (.earlyRelease t s) :=
  ⟨.earlyRelease t s, rfl, rfl⟩

theorem decCommit (t : BitVec 64) (d : Fin 256) (w : Word) : Statement (.decCommit t d w) :=
  ⟨.decCommit t d w, rfl, rfl⟩

theorem importWrite (t : BitVec 64) (p : Fin 4) (k : Fin 128) (w : Word) : Statement (.importWrite t p k w) :=
  ⟨.importWrite t p k w, rfl, rfl⟩

theorem sidebandFrame (p : Fin 4) (frame : Nat) (f : SbFrame) : Statement (.sidebandFrame p frame f) :=
  ⟨.sidebandFrame p 0 f, rfl, rfl⟩

theorem modnumWrite (t : BitVec 64) (w : Word) : Statement (.modnumWrite t w) :=
  ⟨.modnumWrite t w, rfl, rfl⟩

theorem directionEnable (t : BitVec 64) (d : Fin 8) (w : Word) : Statement (.directionEnable t d w) :=
  ⟨.directionEnable t d w, rfl, rfl⟩

theorem blockLock (t : BitVec 64) (l : LockedLane) : Statement (.blockLock t l) :=
  ⟨.blockLock t l, rfl, rfl⟩

theorem blockLockLoss (t : BitVec 64) (l : Fin 32) (x : LockTrouble) : Statement (.blockLockLoss t l x) :=
  ⟨.blockLockLoss t l x, rfl, rfl⟩

theorem markBlock (t : BitVec 64) (q : Fin 16) (b : BitVec 64) : Statement (.markBlock t q b) :=
  ⟨.markBlock t q b, rfl, rfl⟩

theorem trainBlock (t : BitVec 64) (l : Fin 32) (b : BitVec 64) : Statement (.trainBlock t l b) :=
  ⟨.trainBlock t l b, rfl, rfl⟩

theorem hitchContainer (d : Fin 8) (pathB : Bool) (c : Fin 3) (frame : Nat) (payload : Option (BitVec 64)) : Statement (.hitchContainer d pathB c frame payload) :=
  ⟨.hitchContainer d pathB c 0 payload, rfl, rfl⟩

theorem statusBlock (t : BitVec 64) (d : Fin 8) (b : BitVec 64) : Statement (.statusBlock t d b) :=
  ⟨.statusBlock t d b, rfl, rfl⟩

theorem idleEntry (t : BitVec 64) (l : IdleLane) : Statement (.idleEntry t l) :=
  ⟨.idleEntry t l, rfl, rfl⟩

theorem standbyCheck (t : BitVec 64) (d : Fin 8) (ok : Bool) (delay0 delay1 : BitVec 10) : Statement (.standbyCheck t d ok delay0 delay1) :=
  ⟨.standbyCheck t d ok delay0 delay1, rfl, rfl⟩

theorem spliceRevert (t : BitVec 64) (d : Fin 8) : Statement (.spliceRevert t d) :=
  ⟨.spliceRevert t d, rfl, rfl⟩

theorem hchSplice (t : BitVec 64) (d : Fin 8) (w : Word) : Statement (.hchSplice t d w) :=
  ⟨.hchSplice t d w, rfl, rfl⟩

theorem hchRevert (t : BitVec 64) (d : Fin 8) (w : Word) : Statement (.hchRevert t d w) :=
  ⟨.hchRevert t d w, rfl, rfl⟩

theorem refLost (t : BitVec 64) : Statement (.refLost t) :=
  ⟨.refLost t, rfl, rfl⟩

theorem refValid (t : BitVec 64) : Statement (.refValid t) :=
  ⟨.refValid t, rfl, rfl⟩

theorem refRestored (t : BitVec 64) : Statement (.refRestored t) :=
  ⟨.refRestored t, rfl, rfl⟩

theorem clkFault (t : BitVec 64) (cause : ClkCause) : Statement (.clkFault t cause) :=
  ⟨.clkFault t cause, rfl, rfl⟩

theorem refselWrite (t : BitVec 64) (w : Word) : Statement (.refselWrite t w) :=
  ⟨.refselWrite t w, rfl, rfl⟩

theorem epochWrite (t : BitVec 64) (hi : Word) : Statement (.epochWrite t hi) :=
  ⟨.epochWrite t hi, rfl, rfl⟩

theorem syncArm (t : BitVec 64) (w : Word) : Statement (.syncArm t w) :=
  ⟨.syncArm t w, rfl, rfl⟩

theorem syncDisarm (t : BitVec 64) (w : Word) : Statement (.syncDisarm t w) :=
  ⟨.syncDisarm t w, rfl, rfl⟩

theorem syncPulse (a64 : Nat) : Statement (.syncPulse a64) :=
  ⟨.syncPulse 0, rfl, rfl⟩

theorem chainLaunch (t : BitVec 64) : Statement (.chainLaunch t) :=
  ⟨.chainLaunch t, rfl, rfl⟩

theorem chainPulseSend : Statement (.chainPulseSend) :=
  ⟨.chainPulseSend, rfl, rfl⟩

theorem skewcal (t : BitVec 64) (w : Word) : Statement (.skewcal t w) :=
  ⟨.skewcal t w, rfl, rfl⟩

theorem skewcalDone (t : BitVec 64) (returns : List Nat) : Statement (.skewcalDone t returns) :=
  ⟨.skewcalDone t returns, rfl, rfl⟩

theorem wallset (t : BitVec 64) (w : Word) : Statement (.wallset t w) :=
  ⟨.wallset t w, rfl, rfl⟩

theorem snap (t : BitVec 64) (w : Word) : Statement (.snap t w) :=
  ⟨.snap t w, rfl, rfl⟩

theorem ptpEventMessage (t : BitVec 64) (k : Fin 2) (theta : Int) : Statement (.ptpEventMessage t k theta) :=
  ⟨.ptpEventMessage t k theta, rfl, rfl⟩

theorem announceTimeout (t : BitVec 64) (k : Fin 2) : Statement (.announceTimeout t k) :=
  ⟨.announceTimeout t k, rfl, rfl⟩

theorem ptpDomainReturn (t : BitVec 64) : Statement (.ptpDomainReturn t) :=
  ⟨.ptpDomainReturn t, rfl, rfl⟩

theorem ethPortLoss (t : BitVec 64) : Statement (.ethPortLoss t) :=
  ⟨.ethPortLoss t, rfl, rfl⟩

theorem ethRevert (t : BitVec 64) : Statement (.ethRevert t) :=
  ⟨.ethRevert t, rfl, rfl⟩

theorem ethSplice (t : BitVec 64) (w : Word) : Statement (.ethSplice t w) :=
  ⟨.ethSplice t w, rfl, rfl⟩

theorem ethRevertWrite (t : BitVec 64) (w : Word) : Statement (.ethRevertWrite t w) :=
  ⟨.ethRevertWrite t w, rfl, rfl⟩

theorem frameLaunch (t : BitVec 64) (portB : Bool) : Statement (.frameLaunch t portB) :=
  ⟨.frameLaunch t portB, rfl, rfl⟩

theorem linkUp (t : BitVec 64) (speed : Fin 6) (width : Fin 17) (ecrc : Bool) : Statement (.linkUp t speed width ecrc) :=
  ⟨.linkUp t speed width ecrc, rfl, rfl⟩

theorem linkDown (t : BitVec 64) (perst : Bool) : Statement (.linkDown t perst) :=
  ⟨.linkDown t perst, rfl, rfl⟩

theorem ringEnable (t : BitVec 64) (n : Fin 64) (w : Word) : Statement (.ringEnable t n w) :=
  ⟨.ringEnable t n w, rfl, rfl⟩

theorem ringDisable (t : BitVec 64) (n : Fin 64) (w : Word) : Statement (.ringDisable t n w) :=
  ⟨.ringDisable t n w, rfl, rfl⟩

theorem doorbellPoll : Statement (.doorbellPoll) :=
  ⟨.doorbellPoll, rfl, rfl⟩

theorem hifKick (t : BitVec 64) (w : Word) : Statement (.hifKick t w) :=
  ⟨.hifKick t w, rfl, rfl⟩

theorem doorbellRead (t : BitVec 64) (n : Fin 64) (recordOk fetchOk : Bool) : Statement (.doorbellRead t n recordOk fetchOk) :=
  ⟨.doorbellRead t n recordOk fetchOk, rfl, rfl⟩

theorem regwrite (t : BitVec 64) (n : Fin 64) (err : Option Nat) : Statement (.regwrite t n err) :=
  ⟨.regwrite t n none, rfl, rfl⟩

theorem seqload (t : BitVec 64) (n : Fin 64) (err : Option Nat) : Statement (.seqload t n err) :=
  ⟨.seqload t n none, rfl, rfl⟩

theorem envload (t : BitVec 64) (n : Fin 64) (err : Option Nat) : Statement (.envload t n err) :=
  ⟨.envload t n none, rfl, rfl⟩

theorem envtable (t : BitVec 64) (n : Fin 64) (err : Option Nat) : Statement (.envtable t n err) :=
  ⟨.envtable t n none, rfl, rfl⟩

theorem kernel (t : BitVec 64) (n : Fin 64) (err : Option Nat) : Statement (.kernel t n err) :=
  ⟨.kernel t n none, rfl, rfl⟩

theorem truthtable (t : BitVec 64) (n : Fin 64) (err : Option Nat) : Statement (.truthtable t n err) :=
  ⟨.truthtable t n none, rfl, rfl⟩

theorem hbmxfer (t : BitVec 64) (n : Fin 64) (err : Option Nat) : Statement (.hbmxfer t n err) :=
  ⟨.hbmxfer t n none, rfl, rfl⟩

theorem qwrite (t : BitVec 64) (n : Fin 64) (err : Option Nat) : Statement (.qwrite t n err) :=
  ⟨.qwrite t n none, rfl, rfl⟩

theorem qread (t : BitVec 64) (n : Fin 64) (err : Option Nat) : Statement (.qread t n err) :=
  ⟨.qread t n none, rfl, rfl⟩

theorem qflush (t : BitVec 64) (n : Fin 64) (err : Option Nat) : Statement (.qflush t n err) :=
  ⟨.qflush t n none, rfl, rfl⟩

theorem ethsend (t : BitVec 64) (n : Fin 64) (err : Option Nat) : Statement (.ethsend t n err) :=
  ⟨.ethsend t n none, rfl, rfl⟩

theorem nop (t : BitVec 64) (n : Fin 64) (err : Option Nat) : Statement (.nop t n err) :=
  ⟨.nop t n none, rfl, rfl⟩

theorem completionEntry (t : BitVec 64) (n : Fin 64) : Statement (.completionEntry t n) :=
  ⟨.completionEntry t n, rfl, rfl⟩

theorem queueEnable (t : BitVec 64) (w : Word) : Statement (.queueEnable t w) :=
  ⟨.queueEnable t w, rfl, rfl⟩

theorem queueDisable (t : BitVec 64) (w : Word) : Statement (.queueDisable t w) :=
  ⟨.queueDisable t w, rfl, rfl⟩

theorem queueDisableDone (t : BitVec 64) (q : Fin 32768) : Statement (.queueDisableDone t q) :=
  ⟨.queueDisableDone t q, rfl, rfl⟩

theorem queueFlush (t : BitVec 64) (w : Word) : Statement (.queueFlush t w) :=
  ⟨.queueFlush t w, rfl, rfl⟩

theorem flushDone (t : BitVec 64) (q : Fin 32768) : Statement (.flushDone t q) :=
  ⟨.flushDone t q, rfl, rfl⟩

theorem monSample (n : Fin 64) (raw : Int) : Statement (.monSample n raw) :=
  ⟨.monSample n raw, rfl, rfl⟩

theorem triggerEdge (t : BitVec 64) (i : Fin 32) (level : Bool) (held : Nat) : Statement (.triggerEdge t i level held) :=
  ⟨.triggerEdge t i level held, rfl, rfl⟩

theorem triggerOutWrite (t : BitVec 64) (x : TrigTarget) (w : Word) : Statement (.triggerOutWrite t x w) :=
  ⟨.triggerOutWrite t x w, rfl, rfl⟩

theorem eventWindowEnd (t : BitVec 64) (v : Fin 32) : Statement (.eventWindowEnd t v) :=
  ⟨.eventWindowEnd t v, rfl, rfl⟩

theorem calDue (t : BitVec 64) (x : Fin 768) : Statement (.calDue t x) :=
  ⟨.calDue t x, rfl, rfl⟩

theorem calStepStart (t : BitVec 64) (x : Fin 768) (refOk : Bool) : Statement (.calStepStart t x refOk) :=
  ⟨.calStepStart t x refOk, rfl, rfl⟩

theorem calForced (t : BitVec 64) (x : Fin 768) : Statement (.calForced t x) :=
  ⟨.calForced t x, rfl, rfl⟩

theorem calStepEnd (x : Fin 768) : Statement (.calStepEnd x) :=
  ⟨.calStepEnd x, rfl, rfl⟩

theorem calCorrection (t : BitVec 64) (x : Fin 768) (v : Correction) : Statement (.calCorrection t x v) :=
  ⟨.calCorrection t x v, rfl, rfl⟩

theorem calApplyBoundary (t : BitVec 64) (x : Fin 768) : Statement (.calApplyBoundary t x) :=
  ⟨.calApplyBoundary t x, rfl, rfl⟩

theorem fgCalDone (t : BitVec 64) : Statement (.fgCalDone t) :=
  ⟨.fgCalDone t, rfl, rfl⟩

theorem scrubRead (t : BitVec 64) (bad : List (Fin 68)) : Statement (.scrubRead t bad) :=
  ⟨.scrubRead t [], rfl, rfl⟩

theorem flitCrcFail (t : BitVec 64) (p : Fin 4) (failures : Nat) : Statement (.flitCrcFail t p failures) :=
  ⟨.flitCrcFail t p failures, rfl, rfl⟩

theorem diemarkWrite (t : BitVec 64) (w : Word) : Statement (.diemarkWrite t w) :=
  ⟨.diemarkWrite t w, rfl, rfl⟩

theorem memTestStart (t : BitVec 64) (w : Word) : Statement (.memTestStart t w) :=
  ⟨.memTestStart t w, rfl, rfl⟩

theorem memTestAbort (t : BitVec 64) (w : Word) : Statement (.memTestAbort t w) :=
  ⟨.memTestAbort t w, rfl, rfl⟩

theorem memTestEnd (t : BitVec 64) (fails : Nat) (first : BitVec 64) (symbol : Fin 68) : Statement (.memTestEnd t fails first symbol) :=
  ⟨.memTestEnd t fails first symbol, rfl, rfl⟩

theorem pwrFail (t : BitVec 64) : Statement (.pwrFail t) :=
  ⟨.pwrFail t, rfl, rfl⟩

theorem mainsRestored (t : BitVec 64) : Statement (.mainsRestored t) :=
  ⟨.mainsRestored t, rfl, rfl⟩

theorem railFault (t : BitVec 64) (rail : Fin 20) : Statement (.railFault t rail) :=
  ⟨.railFault t rail, rfl, rfl⟩

theorem dieSensorRead (t : BitVec 64) (temps : List Int) : Statement (.dieSensorRead t temps) :=
  ⟨.dieSensorRead t (List.replicate 22 250), rfl, rfl⟩

theorem thermistorRead (t : BitVec 64) (temps : List (Option Int)) : Statement (.thermistorRead t temps) :=
  ⟨.thermistorRead t (List.replicate 8 none), rfl, rfl⟩

theorem fanFail (t : BitVec 64) (f : Fin 6) : Statement (.fanFail t f) :=
  ⟨.fanFail t f, rfl, rfl⟩

theorem journalRecord (t : BitVec 64) (cut : JournalCut) : Statement (.journalRecord t cut) :=
  ⟨.journalRecord t cut, rfl, rfl⟩

theorem jrnselWrite (t : BitVec 64) (w : Word) : Statement (.jrnselWrite t w) :=
  ⟨.jrnselWrite t w, rfl, rfl⟩

theorem watchdogExpiry (t : BitVec 64) (pc : Word) : Statement (.watchdogExpiry t pc) :=
  ⟨.watchdogExpiry t pc, rfl, rfl⟩

theorem mcRestartWrite (t : BitVec 64) (key : BitVec 8) (pc : Word) : Statement (.mcRestartWrite t key pc) :=
  ⟨.mcRestartWrite t key pc, rfl, rfl⟩

theorem mcRestart (t : BitVec 64) (fw0 fw1 : ImageCheck) : Statement (.mcRestart t fw0 fw1) :=
  ⟨.mcRestart t goodCheck goodCheck, rfl, rfl⟩

theorem imgBegin (t : BitVec 64) (flashOk : Bool) : Statement (.imgBegin t flashOk) :=
  ⟨.imgBegin t flashOk, rfl, rfl⟩

theorem imgData (t : BitVec 64) (flashOk : Bool) : Statement (.imgData t flashOk) :=
  ⟨.imgData t flashOk, rfl, rfl⟩

theorem imgCommit (t : BitVec 64) (chk : ImageCheck) (flashOk : Bool) : Statement (.imgCommit t chk flashOk) :=
  ⟨.imgCommit t goodCheck flashOk, rfl, rfl⟩

theorem imgAbort (t : BitVec 64) : Statement (.imgAbort t) :=
  ⟨.imgAbort t, rfl, rfl⟩

theorem svnCommit (t : BitVec 64) : Statement (.svnCommit t) :=
  ⟨.svnCommit t, rfl, rfl⟩

theorem recRead (t : BitVec 64) : Statement (.recRead t) :=
  ⟨.recRead t, rfl, rfl⟩

theorem cageRead (t : BitVec 64) : Statement (.cageRead t) :=
  ⟨.cageRead t, rfl, rfl⟩

theorem profileWrite (t : BitVec 64) (off : BitVec 24) (w : Word) : Statement (.profileWrite t off w) :=
  ⟨.profileWrite t off w, rfl, rfl⟩

theorem rcRead (t : BitVec 64) (off : BitVec 24) : Statement (.rcRead t off) :=
  ⟨.rcRead t off, rfl, rfl⟩

theorem w1cWrite (t : BitVec 64) (off : BitVec 24) (w : Word) : Statement (.w1cWrite t off w) :=
  ⟨.w1cWrite t off w, rfl, rfl⟩

theorem reg64LowRead (t : BitVec 64) (off : BitVec 24) : Statement (.reg64LowRead t off) :=
  ⟨.reg64LowRead t off, rfl, rfl⟩

theorem reg64HighWrite (t : BitVec 64) (off : BitVec 24) (w : Word) : Statement (.reg64HighWrite t off w) :=
  ⟨.reg64HighWrite t off w, rfl, rfl⟩

theorem registerWrite (t : BitVec 64) (off : BitVec 24) (w : Word) (be : BitVec 4) : Statement (.registerWrite t off w be) :=
  ⟨.registerWrite t off w be, rfl, rfl⟩

theorem holdUpRunsOut : Statement (.holdUpRunsOut) :=
  ⟨.holdUpRunsOut, rfl, rfl⟩

theorem rampComplete (x : Fin 768) : Statement (.rampComplete x) :=
  ⟨.rampComplete x, rfl, rfl⟩

theorem sramScrub (t : BitVec 64) (m : SramId) (word : Nat) (e : SramError) : Statement (.sramScrub t m word e) :=
  ⟨.sramScrub t m 0 e, rfl, by cases m <;> rfl⟩

theorem d2dRetrainDone (t : BitVec 64) (p : Fin 4) : Statement (.d2dRetrainDone t p) :=
  ⟨.d2dRetrainDone t p, rfl, rfl⟩

theorem slotFrameSend (frame : Nat) : Statement (.slotFrameSend frame) :=
  ⟨.slotFrameSend 0, rfl, rfl⟩

theorem ethPortUp (t : BitVec 64) (portB : Bool) : Statement (.ethPortUp t portB) :=
  ⟨.ethPortUp t portB, rfl, rfl⟩

end Sys2Proof.Laws.Operands
end

