-- ==== Sys2Proof/Laws/PlayWords.lean ====
section
/-! SUPPORT. Steps of the commands of one kind: PLAY and the words that set up units. -/

namespace Sys2Proof

open Sys2Proof.Machine

def segIs (a : State) (k u st sp env gain c : Nat) : Prop :=
  ∃ g, (a.punit k u).seg = some g ∧ g.start = st ∧ g.stop = sp ∧ g.env = env ∧ g.gain = gain ∧ g.core = c

theorem segIs.of {l : List Part} {s t : State} (h : Touches l s t) (hl : l.contains .units = false) {k u a b e g c : Nat} (x : segIs s k u a b e g c) : segIs t k u a b e g c := by
  unfold segIs; rw [punit_of h hl]; exact x

theorem segIs.ite {p : Prop} [Decidable p] {s t : State} {k u a b e g c : Nat} (x : segIs s k u a b e g c) (y : segIs t k u a b e g c) : segIs (if p then s else t) k u a b e g c := by
  split_ifs <;> assumption

theorem segIs.place (s : State) (c u : Nat) (g : Seg) (e : Nat) : segIs (s.placeSeg c u g e) (c / 8) u g.start g.stop g.env g.gain g.core := by
  have h1 : ∀ (a : State) n q, (a.setQueue n q).punit (c / 8) u = a.punit (c / 8) u := fun _ _ _ => rfl
  have h2 : ∀ (a : State) n q, (a.setCore n q).punit (c / 8) u = a.punit (c / 8) u := fun _ _ _ => rfl
  have h3 : ∀ (a : State), (a.deferSeg c u g).punit (c / 8) u = a.punit (c / 8) u := fun a => punit_of (State.deferSeg_touches ..) rfl _ _
  refine ⟨g, ?_, rfl, rfl, rfl, rfl, rfl⟩
  unfold State.placeSeg
  simp only
  split_ifs <;> simp [h1, h2, h3]

/-- What a frame reads after an update of it, given the updates on record (R90, R123). -/
theorem frameOp_reg (s : State) (k f cyc core : Nat) (set : Bool) (w : Word) (b : State) (hb : b.frameLog = s.frameLog) (hr : b.regs = s.regs) :
    (b.frameOp k f cyc core set w).reg (.outFrame k f) = frameAfter s k f cyc core set w := by
  have e : b.frameLogOf k f = s.frameLogOf k f := by simp only [State.frameLogOf, hb, reg_of hr]
  have e2 : (s.frameLogOf k f).strand = k ∧ (s.frameLogOf k f).frame = f := by
    unfold State.frameLogOf
    generalize hx : List.find? _ s.frameLog = o
    rcases o with _ | x
    · simp only [Option.getD_none, and_self]
    · have := List.find?_some hx
      rw [Option.getD_some]
      simpa using this
  unfold State.frameOp
  rw [e]
  unfold State.setFrame frameAfter
  dsimp only
  rw [e2.1, e2.2]
  simp [State.reg, State.setReg]

/-- With no other update on record a frame takes the written value, or the sum. -/
theorem frameAfter_calm (s : State) (k f cyc core : Nat) (set : Bool) (w : Word) (h : frameCalm s k f = true) :
    frameAfter s k f cyc core set w = if set then w else s.reg (.outFrame k f) + w := by
  have e : s.frameLogOf k f = { strand := k, frame := f, base := s.reg (.outFrame k f), ops := [] } := by
    unfold State.frameLogOf
    generalize hx : List.find? _ s.frameLog = o
    rcases o with _ | x
    · rw [Option.getD_none]
    · have h1 := List.find?_some hx
      have := List.all_eq_true.mp h x (List.mem_of_find?_eq_some hx)
      simp at this h1
      exact (this.elim (fun e => e h1.1) (fun e => e h1.2)).elim
  unfold frameAfter
  rw [e]
  cases set <;> simp [insertOp, frameFold]

end Sys2Proof
end

