-- ==== Sys2Proof/Laws/Ports.lean ====
section
/-! SUPPORT. Steps of the commands of one kind: Ethernet ports and frames. -/

namespace Sys2Proof

open Sys2Proof.Machine

theorem toPortB_ptp (a : State) (l : List Word) : (a.toPortB l).ptp = { a.ptp with onB := true, stale := false } :=
  ptp_of (State.raise_touches (a.setPtp { a.ptp with onB := true, stale := false }) ..) rfl

theorem toPortA_ptp (a : State) : a.toPortA.ptp = { a.ptp with onB := false, stale := false, hostHold := false } :=
  ptp_of (State.raise_touches (a.setPtp { a.ptp with onB := false, stale := false, hostHold := false }) ..) rfl

theorem ports_1 (s : State) (t : BitVec 64) : (s.ptp.aUp = true →
    ∃ u, exec (.ethPortLoss t) s = .next u ∧ u.ptp.aUp = false ∧ u.ptp.aSince = none ∧
      (s.ptp.onB = false → s.ptp.bUp = true → u.ptp.onB = true ∧ u.ptp.stale = false) ∧
      (s.ptp.onB = false → s.ptp.bUp = false → u.ptp.onB = false ∧ u.ptp.stale = true)) := by
  intro h
  show ∃ u, execEthPortLoss t s = .next u ∧ _
  have k1 : (s.at t).ptp.aUp = true := h
  unfold execEthPortLoss
  dsimp only
  rw [if_neg (by rw [k1]; decide)]
  refine ⟨_, rfl, ?_⟩
  have b1 : (s.at t).ptp.onB = s.ptp.onB := rfl
  have b2 : (s.at t).ptp.bUp = s.ptp.bUp := rfl
  rw [b1, b2]
  cases c1 : s.ptp.onB <;> cases c2 : s.ptp.bUp
  · exact ⟨rfl, rfl, fun _ h => Bool.noConfusion h, fun _ _ => ⟨rfl, by show (s.ptp.stale || true) = true; simp⟩⟩
  · rw [if_pos (by decide), toPortB_ptp]
    exact ⟨rfl, rfl, fun _ _ => ⟨rfl, rfl⟩, fun _ h => Bool.noConfusion h⟩
  · exact ⟨rfl, rfl, fun h => Bool.noConfusion h, fun h => Bool.noConfusion h⟩
  · exact ⟨rfl, rfl, fun h => Bool.noConfusion h, fun h => Bool.noConfusion h⟩

theorem ports_2 (s : State) (t : BitVec 64) : (s.ethOn = true →
    (∃ u, exec (.ethPortUp t false) s = .next u ∧ u.ptp.aUp = true ∧ u.ptp.aSince = some (s.ptp.aSince.getD (s.at t).now)) ∧
    (∃ u, exec (.ethPortUp t true) s = .next u ∧ u.ptp.bUp = true ∧
      (s.ptp.bUp = false → s.ptp.stale = true → s.ptp.onB = false → u.ptp.onB = true ∧ u.ptp.stale = false))) := by
  intro h
  have k : ¬ (s.at t).ethOn = false := by show ¬ s.ethOn = false; rw [h]; decide
  refine ⟨?_, ?_⟩
  · show ∃ u, execEthPortUp t false s = .next u ∧ _
    unfold execEthPortUp
    dsimp only
    rw [if_neg k]
    exact ⟨_, rfl, rfl, rfl⟩
  · show ∃ u, execEthPortUp t true s = .next u ∧ _
    unfold execEthPortUp
    dsimp only
    rw [if_neg k, if_pos rfl]
    refine ⟨_, rfl, ?_⟩
    split_ifs with c
    · rw [toPortB_ptp]; exact ⟨rfl, fun _ _ _ => ⟨rfl, rfl⟩⟩
    · refine ⟨rfl, fun c1 c2 c3 => absurd ?_ c⟩
      show (!s.ptp.bUp && s.ptp.stale && !s.ptp.onB) = true
      rw [c1, c2, c3]; rfl

theorem ports_3 (s : State) (t : BitVec 64) : (∀ a, s.ptp.aSince = some a → s.ptp.onB = true → s.ptp.hostHold = false → a + s.qual ≤ (s.at t).now →
    ∃ u, exec (.ethRevert t) s = .next u ∧ u.ptp.onB = false) := by
  intro a h1 h2 h3 h4
  show ∃ u, execEthRevert t s = .next u ∧ _
  unfold execEthRevert
  have k1 : (s.at t).ptp.aSince = some a := h1
  have q : (s.at t).qual = s.qual := congrArg (· * 10 * ms) (rfl : (s.at t).fld .ptpCtl 23 8 = s.fld .ptpCtl 23 8)
  have o1 : (s.at t).ptp.onB = true := h2
  have o2 : (s.at t).ptp.hostHold = false := h3
  have k2 : ((s.at t).ptp.onB && !(s.at t).ptp.hostHold && decide (a + (s.at t).qual ≤ (s.at t).now)) = true := by
    rw [q, o1, o2, decide_eq_true h4]; rfl
  dsimp only
  rw [k1]
  dsimp only
  rw [if_pos k2]
  exact ⟨_, rfl, by rw [toPortA_ptp]⟩

theorem ptp_ask (a : State) (w : Word) (hp : getF w 31 24 = 0xFF) (h5 : getF w 5 5 = 0) (h6 : getF w 6 6 = 0) :
    ∃ z : State, z.ptp = a.ptp ∧ a.wrPtpCtl w = (
      let s2 := if getF w 3 3 = 1 then z.askPort true else z
      let s3 := if getF w 4 4 = 1 then s2.askPort false else s2
      if s3.ptp.valid = false ∧ s3.ptp.valid = true then s3.passFrames s3.ptp.list.length else s3) := by
  have cd : RegId.codeOf .ptpCtl (a.reg .ptpCtl) w = 0xFF := by
    unfold RegId.codeOf
    have : (RegId.fields .ptpCtl).find? (fun f => decide (f.lo = 24)) = some ⟨31, 24, .rw, 0, [(0, 2), (255, 255)]⟩ := rfl
    rw [this]
    dsimp only
    rw [hp]; rfl
  have e : a.writeFields .ptpCtl w = a.setReg .ptpCtl (RegId.mergeX .ptpCtl (a.reg .ptpCtl) w) := by
    unfold State.writeFields
    dsimp only
    rw [cd]; rfl
  refine ⟨a.setReg .ptpCtl (RegId.mergeX .ptpCtl (a.reg .ptpCtl) w), rfl, ?_⟩
  unfold State.wrPtpCtl
  rw [e, h5, h6]
  simp only [Nat.zero_ne_one, if_false]

theorem ports_4 (s : State) (t : BitVec 64) : (∀ w, s.blocksUp = true → getF w 31 24 = 0xFF → getF w 5 5 = 0 → getF w 6 6 = 0 →
    (s.ptp.bUp = true → getF w 4 4 = 0 → ∃ u, exec (.ethSplice t w) s = .next u ∧ u.ptp.onB = true ∧ u.ptp.hostHold = true) ∧
    (s.ptp.bUp = false → getF w 4 4 = 0 → ∃ u, exec (.ethSplice t w) s = .next u ∧ u.ptp = s.ptp) ∧
    (s.ptp.aUp = true → getF w 3 3 = 0 → ∃ u, exec (.ethRevertWrite t w) s = .next u ∧ u.ptp.onB = false ∧ u.ptp.hostHold = false) ∧
    (s.ptp.aUp = false → getF w 3 3 = 0 → ∃ u, exec (.ethRevertWrite t w) s = .next u ∧ u.ptp = s.ptp)) := by
  intro w hb hp h5 h6
  have sf : ∀ n h l, n < 32 → l ≤ h → h < n ∨ n < l → h < 32 → getF (setF w n n 1) h l = getF w h l := fun n h l k1 k2 k3 k4 =>
    getF_setF_ne _ _ _ _ _ _ k1 le_rfl ⟨k2, k3⟩
  have s1 : ∀ n, n < 32 → getF (setF w n n 1) n n = 1 := fun n hn => by rw [getF_setF _ _ _ _ hn le_rfl]; simp
  have nv : ∀ b : Bool, ¬ (b = false ∧ b = true) := by rintro b ⟨h, k⟩; rw [h] at k; cases k
  have A : getF w 4 4 = 0 → ∃ z : State, z.ptp = s.ptp ∧ (s.at t).wrPtpCtl (setF w 3 3 1) = z.askPort true := by
    intro h4
    obtain ⟨z, z1, e⟩ := ptp_ask (s.at t) (setF w 3 3 1) (by rw [sf _ _ _ (by decide) (by decide) (by decide) (by decide)]; exact hp)
      (by rw [sf _ _ _ (by decide) (by decide) (by decide) (by decide)]; exact h5) (by rw [sf _ _ _ (by decide) (by decide) (by decide) (by decide)]; exact h6)
    rw [s1 3 (by decide), sf 3 4 4 (by decide) (by decide) (by decide) (by decide), h4] at e
    simp only [Nat.zero_ne_one, if_false, if_true, if_neg (nv _)] at e
    exact ⟨z, z1, e⟩
  have B : getF w 3 3 = 0 → ∃ z : State, z.ptp = s.ptp ∧ (s.at t).wrPtpCtl (setF w 4 4 1) = z.askPort false := by
    intro h4
    obtain ⟨z, z1, e⟩ := ptp_ask (s.at t) (setF w 4 4 1) (by rw [sf _ _ _ (by decide) (by decide) (by decide) (by decide)]; exact hp)
      (by rw [sf _ _ _ (by decide) (by decide) (by decide) (by decide)]; exact h5) (by rw [sf _ _ _ (by decide) (by decide) (by decide) (by decide)]; exact h6)
    rw [s1 4 (by decide), sf 4 3 3 (by decide) (by decide) (by decide) (by decide), h4] at e
    simp only [Nat.zero_ne_one, if_false, if_true, if_neg (nv _)] at e
    exact ⟨z, z1, e⟩
  refine ⟨fun h h4 => ?_, fun h h4 => ?_, fun h h4 => ?_, fun h h4 => ?_⟩
  · obtain ⟨z, z1, e⟩ := A h4
    refine ⟨_, (congrArg Host.Outcome.next (State.hubWrite_up _ _ _ hb)).trans (congrArg Host.Outcome.next e), ?_⟩
    unfold State.askPort
    dsimp only
    rw [if_pos rfl, z1, h, if_neg (by decide)]
    split_ifs with c
    · exact ⟨c, rfl⟩
    · rw [toPortB_ptp]; exact ⟨rfl, rfl⟩
  · obtain ⟨z, z1, e⟩ := A h4
    refine ⟨_, (congrArg Host.Outcome.next (State.hubWrite_up _ _ _ hb)).trans (congrArg Host.Outcome.next e), ?_⟩
    unfold State.askPort
    dsimp only
    rw [if_pos rfl, z1, h, if_pos rfl, z1]
  · obtain ⟨z, z1, e⟩ := B h4
    refine ⟨_, (congrArg Host.Outcome.next (State.hubWrite_up _ _ _ hb)).trans (congrArg Host.Outcome.next e), ?_⟩
    unfold State.askPort
    dsimp only
    rw [if_neg (by decide), z1, h, if_neg (by decide)]
    split_ifs with c
    · rw [toPortA_ptp]; exact ⟨rfl, rfl⟩
    · exact ⟨by simpa using c, rfl⟩
  · obtain ⟨z, z1, e⟩ := B h4
    refine ⟨_, (congrArg Host.Outcome.next (State.hubWrite_up _ _ _ hb)).trans (congrArg Host.Outcome.next e), ?_⟩
    unfold State.askPort
    dsimp only
    rw [if_neg (by decide), z1, h, if_pos rfl, z1]

theorem launch_tick (p : PtpSt) (f : Frame) (n : Nat) (hr : 0 < (wallTick : Int) + p.rate) (h1 : p.at' ≤ n) (h2 : f.launch ≤ p.ns n)
    (h3 : ∀ m, p.at' ≤ m → m < n → p.ns m < f.launch) :
    p.at' + (f.launch * wallNs - p.base + ((wallTick : Int) + p.rate).toNat - 1) / ((wallTick : Int) + p.rate).toNat = n := by
    unfold PtpSt.ns PtpSt.wallAt at h2 h3
    have r0 : 0 < ((wallTick : Int) + p.rate).toNat := by omega
    generalize ((wallTick : Int) + p.rate).toNat = r at *
    have w0 : 0 < wallNs := by decide
    have h2' : f.launch * wallNs ≤ p.base + (n - p.at') * r := (Nat.le_div_iff_mul_le w0).1 h2
    have h3' : ∀ m, p.at' ≤ m → m < n → p.base + (m - p.at') * r < f.launch * wallNs := fun m a b => (Nat.div_lt_iff_lt_mul w0).1 (h3 m a b)
    generalize f.launch * wallNs = L at *
    have up : (L - p.base + r - 1) / r ≤ n - p.at' := by
      rw [Nat.div_le_iff_le_mul_add_pred r0]
      have : r * (n - p.at') = (n - p.at') * r := Nat.mul_comm ..
      omega
    by_contra hne
    have lt : p.at' + (L - p.base + r - 1) / r < n := by omega
    have b := h3' _ (Nat.le_add_right ..) lt
    rw [Nat.add_sub_cancel_left] at b
    have d := Nat.div_add_mod (L - p.base + r - 1) r
    have m := Nat.mod_lt (L - p.base + r - 1) r0
    have : r * ((L - p.base + r - 1) / r) = (L - p.base + r - 1) / r * r := Nat.mul_comm ..
    omega

theorem launch_eq (s : State) (t : Nat) (pb : Bool) (f : Frame) (n : Nat) (hv : s.ptp.valid = true)
    (hf : firstFrame (s.ptp.list.filter (fun f => f.portB == pb)) = some f)
    (hn : s.ptp.at' + (f.launch * wallNs - s.ptp.base + ((wallTick : Int) + s.ptp.rate).toNat - 1) / ((wallTick : Int) + s.ptp.rate).toNat = n)
    (h4 : n ≤ max t s.now) : s.launch t pb = ((s.clockTo n).unlist f).sendFrameNow f false := by
  subst hn
  unfold State.launch
  dsimp only
  rw [if_neg (by rw [hv]; decide), hf]
  dsimp only
  rw [if_pos h4]

theorem frame_out (s : State) (f : Frame) (n : Nat) :
    (((s.clockTo n).unlist f).sendFrameNow f false).ptp.sent = { portB := f.portB, at' := (s.clockTo n).now, late := false, bytes := f.bytes } :: s.ptp.sent ∧
    (((s.clockTo n).unlist f).sendFrameNow f false).ptp.list = s.ptp.list.erase f ∧ (((s.clockTo n).unlist f).sendFrameNow f false).now = (s.clockTo n).now := by
  obtain ⟨b, e⟩ := sendFrameNow_ptp ((s.clockTo n).unlist f) f false
  have nn := now_of (State.sendFrameNow_touches ((s.clockTo n).unlist f) f false) rfl
  rw [e]
  exact ⟨rfl, rfl, nn⟩

theorem ports_5 (s : State) (t : BitVec 64) : (∀ (portB : Bool) (f : Frame) (n : Nat), s.ptp.valid = true → 0 < (wallTick : Int) + s.ptp.rate →
    firstFrame (s.ptp.list.filter (fun f => f.portB == portB)) = some f →
    s.ptp.at' ≤ n → f.launch ≤ s.ptp.ns n → (∀ m, s.ptp.at' ≤ m → m < n → s.ptp.ns m < f.launch) → n ≤ max t.toNat s.now →
    ∃ u, exec (.frameLaunch t portB) s = .next u ∧
      u.ptp.sent = { portB := f.portB, at' := (s.clockTo n).now, late := false, bytes := f.bytes } :: s.ptp.sent ∧
      u.ptp.list = s.ptp.list.erase f ∧ u.now = (s.clockTo n).now) := by
  intro pb f n hv hr hf h1 h2 h3 h4
  have hn := launch_tick s.ptp f n hr h1 h2 h3
  exact ⟨_, congrArg Host.Outcome.next (launch_eq s t.toNat pb f n hv hf hn h4), frame_out s f n⟩

end Sys2Proof
end

