-- ==== Sys2Proof/Laws/Pulses.lean ====
section
/-! SUPPORT. Steps of the commands of one kind: SYNC pulses. -/

namespace Sys2Proof

open Sys2Proof.Machine

theorem reg64_set (a : State) (v : Nat) : (a.setEpoch v).reg64 .syncEpochLo .syncEpochHi = v % 2 ^ 64 := by
  unfold State.setEpoch State.reg64
  rw [State.reg_setReg, State.reg_setReg_ne _ _ _ _ (by decide), State.reg_setReg]
  show (v % 2 ^ 32) + 2 ^ 32 * (v / 2 ^ 32 % 2 ^ 32) = _
  omega

theorem load_ok (a : State) (v : Nat) (i : Int) (h : loadOk v i = true) :
    (a.load v i).sync.armed = none ∧ (a.load v i).sync.aligned = true ∧
    (a.load v i).reg64 .syncEpochLo .syncEpochHi = a.reg64 .syncLoadLo .syncLoadHi ∧
    (a.load v i).now = (a.clockTo (a.now + ((v : Int) - (i + 32) / 64).toNat)).now ∧ (a.load v i).sync.pulses = a.sync.pulses ∧
    (a.load v i).sync.lastPulse = a.sync.lastPulse := by
  have R : ∀ (z : State) (n : Nat), (z.raise .syncLoaded 0 0 n []).sync = z.sync ∧ (z.raise .syncLoaded 0 0 n []).now = z.now ∧
      (z.raise .syncLoaded 0 0 n []).reg64 .syncEpochLo .syncEpochHi = z.reg64 .syncEpochLo .syncEpochHi := fun z n =>
    ⟨sync_of (State.raise_touches ..) rfl, now_of (State.raise_touches ..) rfl, by
      have := (State.raise_touches z .syncLoaded 0 0 n []).keeps .regs rfl
      simp only [Part.same] at this
      simp only [State.reg64, State.reg, this]⟩
  have lt : a.reg64 .syncLoadLo .syncLoadHi < 2 ^ 64 := by
    unfold State.reg64
    have h1 := (a.reg .syncLoadLo).isLt
    have h2 := (a.reg .syncLoadHi).isLt
    omega
  have Z : ∃ z : State, a.load v i = z.raise .syncLoaded 0 0 (up8 v) [] ∧ z.sync.armed = none ∧ z.sync.aligned = true ∧
      z.reg64 .syncEpochLo .syncEpochHi = a.reg64 .syncLoadLo .syncLoadHi ∧ z.now = (a.clockTo (a.now + ((v : Int) - (i + 32) / 64).toNat)).now ∧
      z.sync.pulses = a.sync.pulses ∧ z.sync.lastPulse = a.sync.lastPulse := by
    unfold State.load
    dsimp only
    rw [if_neg (by rw [h]; decide)]
    exact ⟨_, rfl, rfl, rfl, (reg64_set _ _).trans (Nat.mod_eq_of_lt lt), rfl, rfl, rfl⟩
  obtain ⟨z, e, z1, z2, z3, z4, z5, z6⟩ := Z
  obtain ⟨r1, r2, r3⟩ := R z (up8 v)
  rw [e, r1, r2, r3]
  exact ⟨z1, z2, z3, z4, z5, z6⟩

theorem load_no (a : State) (v : Nat) (i : Int) (h : loadOk v i = false) :
    (a.load v i).sync = { a.sync with armed := none } ∧ (a.load v i).now = a.now := by
  unfold State.load
  rw [if_pos h]
  have r1 := sync_of (State.syncRefused_touches (a.setSync { a.sync with armed := none })) rfl
  have r2 := now_of (State.syncRefused_touches (a.setSync { a.sync with armed := none })) rfl
  exact ⟨r1, r2⟩

theorem pulses_1 (s : State) : (∀ (a : Nat) (z : State), z = s.toTime (a / 64) → z.sync.skew = none → z.sync.armed.isSome = true → z.fld .syncCtl 11 10 = 1 →
    (loadOk (z.reg64 .syncLoadLo .syncLoadHi) (z.edgeInstant a) = true →
      ∃ u, exec (.syncPulse a) s = .next u ∧ u.sync.armed = none ∧ u.sync.aligned = true ∧
        u.reg64 .syncEpochLo .syncEpochHi = z.reg64 .syncLoadLo .syncLoadHi ∧
        u.now = (z.clockTo (z.now + ((z.reg64 .syncLoadLo .syncLoadHi : Int) - (z.edgeInstant a + 32) / 64).toNat)).now) ∧
    (loadOk (z.reg64 .syncLoadLo .syncLoadHi) (z.edgeInstant a) = false →
      ∃ u, exec (.syncPulse a) s = .next u ∧ u.sync = { z.sync with armed := none } ∧ u.now = z.now)) := by
  intro a z h0 h1 h2 h3
  have X : exec (.syncPulse a) s = .next (z.syncPulse a) := by rw [h0]; rfl
  have e : z.syncPulse a = z.load (z.reg64 .syncLoadLo .syncLoadHi) (z.edgeInstant a) := by
    unfold State.syncPulse
    have k1 : z.sync.skew = none := h1
    have k2 : z.sync.armed.isSome = true := h2
    have k3 : z.fld .syncCtl 11 10 = 1 := h3
    dsimp only
    rw [k1, k2, k3]
    rfl
  refine ⟨fun h => ⟨_, X.trans (congrArg Host.Outcome.next e), ?_⟩, fun h => ⟨_, X.trans (congrArg Host.Outcome.next e), ?_⟩⟩
  · obtain ⟨a1, a2, a3, a4, _⟩ := load_ok z (z.reg64 .syncLoadLo .syncLoadHi) (z.edgeInstant a) h
    exact ⟨a1, a2, a3, a4⟩
  · exact load_no z (z.reg64 .syncLoadLo .syncLoadHi) (z.edgeInstant a) h

theorem pulses_2 (s : State) : (∀ (a : Nat) (z : State), z = s.toTime (a / 64) → z.sync.skew = none → z.sync.armed = none → z.fld .syncCtl 11 10 = 1 → z.sync.aligned = true →
    ∃ u, exec (.syncPulse a) s = .next u ∧
      u.sync = { z.sync with dev := (z.edgeInstant a % 10240 - z.sync.loadPhase + 5120) % 10240 - 5120 }) := by
  intro a z h0 h1 h2 h3 h4
  refine ⟨z.syncPulse a, by rw [h0]; rfl, ?_⟩
  unfold State.syncPulse
  have k1 : z.sync.skew = none := h1
  have k2 : z.sync.armed = none := h2
  have k3 : z.fld .syncCtl 11 10 = 1 := h3
  have k4 : z.sync.aligned = true := h4
  dsimp only
  rw [if_neg (by rw [k1]; decide), if_neg (by rw [k2]; decide), if_pos ⟨k3, k4⟩]
  split_ifs
  · exact sync_of (State.raise_touches ..) rfl
  · rfl

theorem pulses_3 (s : State) : (∀ (a : Nat) (z : State), z = s.toTime (a / 64) → z.sync.skew = none → z.sync.armed = none → z.fld .syncCtl 11 10 = 2 → z.fld .syncCtl 21 16 = 0 → z.sync.ring = true →
    ∃ u, exec (.syncPulse a) s = .next u ∧ u.sync = { z.sync with ring := false, rtt := a - 64 * z.sync.loadVal }) := by
  intro a z h0 h1 h2 h3 h4 h5
  refine ⟨z.syncPulse a, by rw [h0]; rfl, ?_⟩
  unfold State.syncPulse
  have k1 : z.sync.skew = none := h1
  have k2 : z.sync.armed = none := h2
  have k3 : z.fld .syncCtl 11 10 = 2 := h3
  have k4 : z.fld .syncCtl 21 16 = 0 := h4
  have k5 : z.sync.ring = true := h5
  dsimp only
  rw [if_neg (by rw [k1]; decide), if_neg (by rw [k2]; decide), if_neg (by rw [k3]; simp), if_pos ⟨k3, k4, k5⟩]
  rfl

theorem chain_key (s : State) : ∀ z : State, z.mode = s.mode → z.now = s.now → z.sync.pulses = s.sync.pulses + 1 → z.sync.lastPulse = some s.now →
      z.reg64 .syncLoadLo .syncLoadHi = s.reg64 .syncLoadLo .syncLoadHi → ∀ y : State, y = z.load (z.reg64 .syncLoadLo .syncLoadHi) (64 * (z.now : Int)) → ∀ b,
      (y.setSync { y.sync with ring := b }).sync.armed = none ∧
       (y.setSync { y.sync with ring := b }).sync.pulses = s.sync.pulses + 1 ∧
       (y.setSync { y.sync with ring := b }).sync.lastPulse = some s.now ∧
      (s.mode.mode ≠ .dormant → s.now < s.reg64 .syncLoadLo .syncLoadHi → (y.setSync { y.sync with ring := b }).now = s.reg64 .syncLoadLo .syncLoadHi ∧
        (y.setSync { y.sync with ring := b }).sync.aligned = true) := by
    intro z zm z1 z2 z3 z4 y hy b
    have lt : s.reg64 .syncLoadLo .syncLoadHi < 2 ^ 64 := by
      unfold State.reg64
      have h1 := (s.reg .syncLoadLo).isLt
      have h2 := (s.reg .syncLoadHi).isLt
      omega
    rw [z4] at hy
    show y.sync.armed = none ∧ y.sync.pulses = _ ∧ y.sync.lastPulse = _ ∧ (_ → _ → y.now = _ ∧ y.sync.aligned = true)
    subst hy
    generalize hv : s.reg64 .syncLoadLo .syncLoadHi = v at *
    cases hl : loadOk v (64 * (z.now : Int)) with
    | true =>
      obtain ⟨a1, a2, a3, a4, a5, a6⟩ := load_ok z v _ hl
      refine ⟨a1, a5.trans z2, a6.trans z3, fun md lt2 => ⟨a4.trans ?_, a2⟩⟩
      unfold State.clockTo State.timeAt
      rw [zm, if_neg md]
      show wrap64 (max z.now _) = v
      rw [z1]
      have : ((v : Int) - (64 * (s.now : Int) + 32) / 64).toNat = v - s.now := by omega
      rw [this]
      unfold wrap64
      have : max s.now (s.now + (v - s.now)) = v := by omega
      rw [this]
      exact Nat.mod_eq_of_lt lt
    | false =>
      obtain ⟨a1, a2⟩ := load_no z v _ hl
      rw [a1]
      refine ⟨rfl, z2, z3, fun md lt2 => ?_⟩
      rw [loadOk] at hl
      simp at hl
      rw [z1] at hl
      omega

/-- What CHAIN_LAUNCH does once its edge has come. -/
def chainGo (s1 : State) : State :=
  let s2 := s1.setSync { s1.sync with pulses := s1.sync.pulses + 1, lastPulse := some s1.now }
  let v := s2.reg64 .syncLoadLo .syncLoadHi
  let s3 := s2.load v (64 * (s2.now : Int))
  s3.setSync { s3.sync with ring := loadOk v (64 * (s2.now : Int)) }

theorem chain_eq (s : State) (t : BitVec 64) (a : Nat) (k1 : (s.upTo t).sync.armed = some a) (k2 : (s.upTo t).fld .syncCtl 11 10 = 2)
    (k3 : (s.upTo t).fld .syncCtl 21 16 = 0) (k4 : a + 10 * us ≤ (s.upTo t).now) : execChainLaunch t s = .next (chainGo (s.upTo t)) := by
  unfold execChainLaunch chainGo
  dsimp only
  split
  · rename_i e; cases e.symm.trans k1
  · rename_i b e
    have : b = a := Option.some.inj (e.symm.trans k1)
    subst this
    split
    · rfl
    · rename_i c; exact absurd ⟨k2, k3, k4⟩ c

theorem pulses_4 (s : State) : (∀ (t : BitVec 64) (a : Nat) (x : State), x = s.upTo t → x.sync.armed = some a → x.fld .syncCtl 11 10 = 2 → x.fld .syncCtl 21 16 = 0 → a + 10 * us ≤ x.now →
    ∃ u, exec (.chainLaunch t) s = .next u ∧ u.sync.armed = none ∧ u.sync.pulses = x.sync.pulses + 1 ∧
      u.sync.lastPulse = some x.now ∧
      (x.mode.mode ≠ .dormant → x.now < x.reg64 .syncLoadLo .syncLoadHi → u.now = x.reg64 .syncLoadLo .syncLoadHi ∧ u.sync.aligned = true)) := by
  intro t a x h0 h1 h2 h3 h4
  refine ⟨chainGo x, by subst h0; exact chain_eq s t a h1 h2 h3 h4, ?_⟩
  unfold chainGo
  generalize hz : x.setSync { x.sync with pulses := x.sync.pulses + 1, lastPulse := some x.now } = z
  have zm : z.mode = x.mode := by rw [← hz]; rfl
  have z1 : z.now = x.now := by rw [← hz]; rfl
  have z2 : z.sync.pulses = x.sync.pulses + 1 := by rw [← hz]; rfl
  have z3 : z.sync.lastPulse = some x.now := by rw [← hz]; rfl
  have z4 : z.reg64 .syncLoadLo .syncLoadHi = x.reg64 .syncLoadLo .syncLoadHi := by rw [← hz]; rfl
  have r := chain_key x z zm z1 z2 z3 z4 _ rfl (loadOk (z.reg64 .syncLoadLo .syncLoadHi) (64 * (z.now : Int)))
  exact r

theorem pulses_5 (s : State) : (∀ b, s.sync.sendAt = some b → ∃ u, exec .chainPulseSend s = .next u ∧
      u.sync = { s.sync with sendAt := none, pulses := s.sync.pulses + 1, lastPulse := some b } ∧ u.now = (s.clockTo b).now) := by
  intro b h
  show ∃ u, execChainPulseSend s = .next u ∧ _
  unfold execChainPulseSend
  rw [h]
  exact ⟨_, rfl, rfl, rfl⟩

end Sys2Proof
end

