-- ==== Sys2Proof/Laws/QueueRuns.lean ====
section
/-! SUPPORT. Steps of the commands of one kind: queue descriptors and queue control. -/

namespace Sys2Proof

open Sys2Proof.Machine

theorem complete_other (s : State) (n : Nat) (d : List Byte) (e : Entry) (m : Nat) (h : e.status ≠ 7) (hm : (s.ring n).open' = true → s.cqQueue n ≠ m) :
    (s.complete n d e).queue m = s.queue m := by
  unfold State.complete
  dsimp only
  have e0 : (if e.status = 7 ∧ getF (s.flagWord .hifFlags) 2 2 = 0 then s.raise .hifDmaerr 0 0 (up8 s.now) [] else s) = s := if_neg (fun c => h c.1)
  rw [e0]
  by_cases c : (s.ring n).open' = false ∨ 64 ≤ n
  · rw [if_pos c]
  · rw [if_neg c, push_queue, if_neg]
    intro e
    refine hm ?_ e.symm
    cases ho : (s.ring n).open'
    · exact absurd (.inl ho) c
    · rfl

theorem drained_open (s : State) (n m : Nat) (h : ((s.drained n).ring m).open' = true) : (s.ring m).open' = true := by
  unfold State.drained at h
  split_ifs at h with c
  · rw [ring_set] at h
    split_ifs at h with e
    · subst e
      simp only [Ring.open', Bool.or_false] at h
      simp [Ring.open', h]
    · exact h
  · exact h

/-- A queue that no open ring completes to, kept by completions. -/
structure qKeeps (m : Nat) (s t : State) : Prop where
  q : t.queue m = s.queue m
  r : ∀ k, (t.ring k).open' = true → (s.ring k).open' = true
  c : ∀ k, t.cqQueue k = s.cqQueue k

theorem qKeeps.trans {m : Nat} {s t u : State} (a : qKeeps m s t) (b : qKeeps m t u) : qKeeps m s u :=
  ⟨b.q.trans a.q, fun k h => a.r k (b.r k h), fun k => (b.c k).trans (a.c k)⟩

theorem finish_keeps (s : State) (n : Nat) (d : List Byte) (e : Entry) (m : Nat) (h : e.status ≠ 7) (hm : (s.ring n).open' = true → s.cqQueue n ≠ m) :
    qKeeps m s ((s.complete n d e).drained n) := by
  have hr : ∀ k, (s.complete n d e).ring k = s.ring k := fun k => ring_of (State.complete_touches ..) rfl k
  refine ⟨?_, fun k hk => ?_, fun k => ?_⟩
  · rw [queue_of (State.drained_touches ..) rfl]; exact complete_other s n d e m h hm
  · rw [← hr]; exact drained_open _ _ _ hk
  · exact (cqQueue_of ((State.drained_touches ..).keeps .regs rfl) k).trans (cqQueue_of ((State.complete_touches ..).keeps .regs rfl) k)

theorem finishOn_keeps (s : State) (op qn m : Nat) (f : Started → Entry) (hf : ∀ x, (f x).status ≠ 7) (hm : ∀ k, (s.ring k).open' = true → s.cqQueue k ≠ m) :
    qKeeps m s (s.finishOn op qn f) := by
  unfold State.finishOn
  dsimp only
  generalize s.hif.started.filter (fun x => decide (leAt x.desc 3 1 = op) && decide (bits (leAt x.desc 4 4) 14 0 = qn)) = l
  have h0 : qKeeps m s { s with hif := { s.hif with started := s.hif.started.filter (fun x => !(decide (leAt x.desc 3 1 = op) && decide (bits (leAt x.desc 4 4) 14 0 = qn))) } } :=
    ⟨rfl, fun k h => h, fun k => rfl⟩
  generalize ({ s with hif := { s.hif with started := s.hif.started.filter (fun x => !(decide (leAt x.desc 3 1 = op) && decide (bits (leAt x.desc 4 4) 14 0 = qn))) } } : State) = a at *
  induction l generalizing a with
  | nil => exact h0
  | cons x l ih =>
    rw [List.foldl_cons]
    exact ih _ (h0.trans (finish_keeps a x.ring x.desc (f x) m (hf x) (fun o => by rw [h0.c]; exact hm _ (h0.r _ o))))

theorem settle_none (s : State) (qn : Nat) (h : (s.queue qn).bound = none) : s.settleReader qn = s := by
  unfold State.settleReader
  rw [h]

theorem flushNow_pkts (s : State) (qn tr : Nat) (h : (s.queue qn).bound = none) (hm : ∀ k, (s.ring k).open' = true → s.cqQueue k ≠ qn) :
    ((s.flushNow qn tr).queue qn).pkts = afterFlush (s.queue qn) tr ∧ ((s.flushNow qn tr).queue qn).flushAt = none := by
  unfold State.flushNow
  dsimp only
  have K : ∀ (a : State) (by' : Nat), (∀ k, (a.ring k).open' = true → a.cqQueue k ≠ qn) → (a.finishOn 0x22 qn (fun _ => { status := 0, count := by' })).queue qn = a.queue qn :=
    fun a b ha => (finishOn_keeps a 0x22 qn qn _ (by intro x; simp) ha).q
  have P : ∀ (a b : State) (c : Prop) [Decidable c] (by' : Nat), a.queue qn = b.queue qn → (∀ k, (a.ring k).open' = true → a.cqQueue k ≠ qn) → (∀ k, (b.ring k).open' = true → b.cqQueue k ≠ qn) →
      (State.finishOn (if c then a else b) 0x22 qn (fun _ => { status := 0, count := by' })).queue qn = a.queue qn := by
    intro a b c _ by' e ha hb
    split_ifs
    · exact K a by' ha
    · rw [K b by' hb, e]
  have fl : (s.queue qn).pkts.filter (fun p => !(decide (p.first < tr) && p.taken == 0 || decide (0 < p.taken) && (s.queue qn).bound.isNone)) = afterFlush (s.queue qn) tr := by
    unfold afterFlush
    refine List.filter_congr (fun p _ => ?_)
    rw [h]
    simp only [Option.isNone_none, Bool.and_true]
    rw [Bool.eq_iff_iff]
    simp
    omega
  rw [P]
  · rw [queue_set, if_pos rfl]
    exact ⟨fl, rfl⟩
  · rfl
  · exact hm
  · intro k; exact hm k

theorem raise_enabled (z : State) (e : Ev) (i source time : Nat) (as : List Word) (m : Nat) : ((z.raise e i source time as).queue m).enabled = (z.queue m).enabled := by
  have h := congrArg Queue.enabled (raise_qCore z e i source time as m)
  exact h

theorem ring_mem (s : State) (m : Nat) (h : (s.ring m).open' = true) : (m, s.ring m) ∈ s.hif.rings := by
  unfold State.ring at *
  generalize s.hif.rings = l at *
  induction l with
  | nil => cases h
  | cons e l ih =>
    obtain ⟨j, v⟩ := e
    by_cases hj : j = m
    · subst hj; simp [Tab.get]
    · rw [Tab.get, if_neg hj] at h ⊢
      exact List.mem_cons_of_mem _ (ih h)

theorem busy_cq (s : State) (qn : Nat) (h : s.queueBusy qn = false) (m : Nat) (ho : (s.ring m).open' = true) : s.cqQueue m ≠ qn := by
  unfold State.queueBusy at h
  simp only [Bool.or_eq_false_iff] at h
  have h1 := h.1.1
  rw [List.any_eq_false] at h1
  have := h1 _ (ring_mem s m ho)
  simp [ho] at this
  exact this.2

theorem disableNow_queue (s : State) (qn : Nat) (hm : ∀ k, (s.ring k).open' = true → s.cqQueue k ≠ qn) :
    (s.disableNow qn).queue qn = { s.queue qn with enabled := false, pendDis := false, flushAt := none, content := 0, bound := none, pkts := [], skip := 0 } := by
  unfold State.disableNow
  dsimp only
  have key : ∀ (a : State) (f g : Started → Entry), (∀ x, (f x).status ≠ 7) → (∀ x, (g x).status ≠ 7) → (∀ k, (a.ring k).open' = true → a.cqQueue k ≠ qn) →
      ((a.finishOn 0x20 qn f).finishOn 0x22 qn g).queue qn = a.queue qn := by
    intro a f g hf hg ha
    have k1 := finishOn_keeps a 0x20 qn qn f hf ha
    exact ((finishOn_keeps _ 0x22 qn qn g hg (fun k o => by rw [k1.c]; exact ha k (k1.r k o))).q).trans k1.q
  rw [key _ _ _ (by intro x; simp) (by intro x; simp) (by intro k; exact hm k)]
  exact (queue_set _ _ _ _).trans (if_pos rfl)

theorem queueRuns_2 (s : State) (t : BitVec 64) : (∀ (w : Word) (q q' : Queue) (a : State), s.blocksUp = true → q = s.queue s.selQ → q.enabled = false → getF w 18 18 = 0 →
    q' = q.setRole (setF w 16 16 1) → a = s.setQueue s.selQ q' →
    (q.base % q.size = 0 → a.overlapsQueue s.selQ q.base q.limit = false → q'.role ≠ 0 → a.bufFree ≠ 0 →
      ∃ u, exec (.queueEnable t w) s = .next u ∧ u.queue s.selQ = { q' with enabled := true }) ∧
    (q.base % q.size ≠ 0 ∨ a.overlapsQueue s.selQ q.base q.limit = true ∨ q'.role = 0 ∨ a.bufFree = 0 →
      ∃ u, exec (.queueEnable t w) s = .next u ∧ (u.queue s.selQ).enabled = false)) := by
  intro w q q' a hb hq hen h18 hq' ha
  have g16 : getF (setF w 16 16 1) 16 16 = 1 := by rw [getF_setF _ _ _ _ (by decide) (by decide)]; rfl
  have g18 : getF (setF w 16 16 1) 18 18 = 0 := by rw [getF_setF_ne _ _ _ _ _ _ (by decide) (by decide) (by decide)]; exact h18
  have e : (s.at t).wrQctl (setF w 16 16 1) = ((s.at t).setQueue s.selQ q').enableQueue s.selQ := by
    unfold State.wrQctl
    dsimp only
    have en : ¬ ((s.at t).queue (s.at t).selQ).enabled = true := by show ¬ (s.queue s.selQ).enabled = true; rw [← hq, hen]; decide
    rw [if_neg (by rw [g18]; decide), if_neg en, g16, if_pos (by decide), hq', hq]
    rfl
  have ov : ∀ x y, ((s.at t).setQueue s.selQ q').overlapsQueue s.selQ x y = a.overlapsQueue s.selQ x y := fun x y => by rw [ha]; rfl
  have bf : ((s.at t).setQueue s.selQ q').bufFree = a.bufFree := by rw [ha]; rfl
  have qq : ((s.at t).setQueue s.selQ q').queue s.selQ = q' := by rw [queue_set, if_pos rfl]
  have ge : q'.base = q.base ∧ q'.size = q.size ∧ q'.limit = q.limit ∧ q'.enabled = q.enabled := by
    rw [hq']; unfold Queue.setRole; dsimp only; split_ifs <;> exact ⟨rfl, rfl, rfl, rfl⟩
  refine ⟨fun h1 h2 h3 h4 => ⟨_, (congrArg Host.Outcome.next (State.hubWrite_up _ _ _ hb)).trans (congrArg Host.Outcome.next e), ?_⟩,
    fun h => ⟨_, (congrArg Host.Outcome.next (State.hubWrite_up _ _ _ hb)).trans (congrArg Host.Outcome.next e), ?_⟩⟩
  · unfold State.enableQueue
    dsimp only
    rw [qq, ov, bf, ge.1, ge.2.1, ge.2.2.1, if_neg (by simpa using h1), if_neg (by rw [h2]; decide), if_neg h3, if_neg h4, queue_set, if_pos rfl]
  · have qc : ∀ (z : State) c, ((z.qmConfig s.selQ c).queue s.selQ).enabled = (z.queue s.selQ).enabled := by
      intro z c
      unfold State.qmConfig
      exact raise_enabled ..
    have qe : (((s.at t).setQueue s.selQ q').queue s.selQ).enabled = false := by rw [qq, ge.2.2.2, hen]
    unfold State.enableQueue
    dsimp only
    rw [qq, ov, bf, ge.1, ge.2.1, ge.2.2.1]
    split_ifs with c1 c2 c3 c4
    · rw [qc]; exact qe
    · rw [qc]; exact qe
    · rw [qc]; exact qe
    · rw [qc]; exact qe
    · rcases h with h | h | h | h
      · exact absurd h c1
      · exact absurd h c2
      · exact absurd h c3
      · exact absurd h c4

theorem queueRuns_3 (s : State) (t : BitVec 64) : (∀ (w : Word), s.blocksUp = true → (s.queue s.selQ).enabled = true → (s.queue s.selQ).bound = none → getF w 18 18 = 0 →
    (s.queueBusy s.selQ = true → ∃ u, exec (.queueDisable t w) s = .next u ∧ u.queue s.selQ = { s.queue s.selQ with pendDis := true }) ∧
    (s.queueBusy s.selQ = false → ∃ u, exec (.queueDisable t w) s = .next u ∧ (u.queue s.selQ).enabled = false ∧ (u.queue s.selQ).pkts = [])) := by
  intro w hb hen hbd h18
  have g16 : getF (setF w 16 16 0) 16 16 = 0 := by rw [getF_setF _ _ _ _ (by decide) (by decide)]; rfl
  have g18 : getF (setF w 16 16 0) 18 18 = 0 := by rw [getF_setF_ne _ _ _ _ _ _ (by decide) (by decide) (by decide)]; exact h18
  have e : (s.at t).wrQctl (setF w 16 16 0) = (if (s.at t).queueBusy s.selQ then (s.at t).setQueue s.selQ { (s.at t).queue s.selQ with pendDis := true } else (s.at t).disableNow s.selQ) := by
    unfold State.wrQctl
    dsimp only
    have en : ((s.at t).queue (s.at t).selQ).enabled = true := hen
    rw [if_neg (by rw [g18]; decide), if_pos en, g16, if_neg (by decide)]
    unfold State.disableQueue
    dsimp only
    rw [settle_none (s.at t) (s.at t).selQ hbd]
    rfl
  have hb' : (s.at t).queueBusy s.selQ = s.queueBusy s.selQ := rfl
  rw [hb'] at e
  refine ⟨fun h => ?_, fun h => ?_⟩
  · rw [h, if_pos rfl] at e
    refine ⟨_, (congrArg Host.Outcome.next (State.hubWrite_up _ _ _ hb)).trans (congrArg Host.Outcome.next e), ?_⟩
    rw [queue_set, if_pos rfl]
    rfl
  · rw [h, if_neg (by decide)] at e
    refine ⟨_, (congrArg Host.Outcome.next (State.hubWrite_up _ _ _ hb)).trans (congrArg Host.Outcome.next e), ?_⟩
    rw [disableNow_queue (s.at t) s.selQ (busy_cq s s.selQ h)]
    exact ⟨rfl, rfl⟩

theorem queueRuns_4 (s : State) (t : BitVec 64) : (∀ qn : Fin 32768, (s.queue qn).bound = none → (s.queue qn).pendDis = true → s.queueBusy qn = false →
    ∃ u, exec (.queueDisableDone t qn) s = .next u ∧ (u.queue qn).enabled = false ∧ (u.queue qn).pkts = [] ∧ (u.queue qn).pendDis = false) := by
  intro qn hbd hp hbz
  refine ⟨_, rfl, ?_⟩
  have hbd' : ((s.at t).queue qn).bound = none := hbd
  have hp' : (((s.at t).queue qn).pendDis && !(s.at t).queueBusy qn) = true := by
    show ((s.queue qn).pendDis && !s.queueBusy qn) = true
    rw [hp, hbz]; rfl
  unfold State.disableDone
  dsimp only
  rw [settle_none _ _ hbd', if_pos hp', disableNow_queue (s.at t) qn (busy_cq s qn hbz)]
  exact ⟨rfl, rfl, rfl⟩

theorem queueRuns_5 (s : State) (t : BitVec 64) : (∀ (w : Word) (q : Queue), s.blocksUp = true → q = s.queue s.selQ → q.enabled = true → q.bound = none → q.flushAt = none → q.role ≠ 1 → q.role ≠ 2 →
    (∀ m, (s.ring m).open' = true → s.cqQueue m ≠ s.selQ) → getF w 16 16 = 1 →
    ∃ u, exec (.queueFlush t w) s = .next u ∧ (u.queue s.selQ).pkts = afterFlush q (s.at t).now) := by
  intro w q hb hq hen hbd hf h1 h2 hm h16
  have g18 : getF (setF w 18 18 1) 18 18 = 1 := by rw [getF_setF _ _ _ _ (by decide) (by decide)]; rfl
  have g16 : getF (setF w 18 18 1) 16 16 = 1 := by rw [getF_setF_ne _ _ _ _ _ _ (by decide) (by decide) (by decide)]; exact h16
  have e : (s.at t).wrQctl (setF w 18 18 1) = ((s.at t).setQueue s.selQ { q with pendDis := false }).flushNow s.selQ (s.at t).now := by
    unfold State.wrQctl
    dsimp only
    have en : ((s.at t).queue (s.at t).selQ).enabled = true := by show (s.queue s.selQ).enabled = true; rw [← hq]; exact hen
    rw [g18, if_pos rfl, if_pos en, g16, if_pos (by decide)]
    unfold State.askFlush
    dsimp only
    have qe : ((s.at t).setQueue (s.at t).selQ { (s.at t).queue (s.at t).selQ with pendDis := false }) = (s.at t).setQueue s.selQ { q with pendDis := false } := by rw [hq]; rfl
    have sq : (s.at t).selQ = s.selQ := rfl
    have qq : ((s.at t).setQueue s.selQ { q with pendDis := false }).queue s.selQ = { q with pendDis := false } := by rw [queue_set, if_pos rfl]
    rw [qe, sq, settle_none _ _ (by rw [qq]; exact hbd), qq, if_neg (by simp [hen, h1, h2, hf]), if_pos (by unfold State.flushDue; rw [qq]; simp [hbd])]
    rfl
  refine ⟨_, (congrArg Host.Outcome.next (State.hubWrite_up _ _ _ hb)).trans (congrArg Host.Outcome.next e), ?_⟩
  have qq : ((s.at t).setQueue s.selQ { q with pendDis := false }).queue s.selQ = { q with pendDis := false } := by rw [queue_set, if_pos rfl]
  rw [(flushNow_pkts ((s.at t).setQueue s.selQ { q with pendDis := false }) s.selQ (s.at t).now (by rw [qq]; exact hbd) hm).1, qq]
  rfl

theorem queueRuns_6 (s : State) (t : BitVec 64) : (∀ (qn : Fin 32768) (tr : Nat), (s.queue qn).bound = none → (s.queue qn).flushAt = some tr → (∀ m, (s.ring m).open' = true → s.cqQueue m ≠ qn) →
    ∃ u, exec (.flushDone t qn) s = .next u ∧ (u.queue qn).pkts = afterFlush (s.queue qn) tr ∧ (u.queue qn).flushAt = none) := by
  intro qn tr hbd hf hm
  refine ⟨_, rfl, ?_⟩
  have hbd' : ((s.at t).queue qn).bound = none := hbd
  have hf' : ((s.at t).queue qn).flushAt = some tr := hf
  unfold State.flushDone
  dsimp only
  rw [settle_none _ _ hbd', hf']
  dsimp only
  rw [if_pos (by unfold State.flushDue; rw [hbd']; rfl)]
  exact flushNow_pkts (s.at t) qn tr hbd hm

theorem parse_nil (a : State) (qn : Nat) (x : Started) (k : Nat) : a.parse qn x [] k = .over a x := by
  cases k with
  | zero => rfl
  | succ k => unfold State.parse; rw [if_pos rfl]

theorem parse_one (a : State) (qn : Nat) (x : Started) (bs : List Byte) (n k : Nat) (hn : bs.length = n) (h0 : 0 < n) (hl : x.lim = none)
    (hp : packetLen (a.queue qn).role (a.queue qn).content bs = some n) (h2 : 2 * n ≤ (a.queue qn).size) (h6 : (a.queue qn).role = 6 → (a.queue qn).pkts.length < 64)
    (hr : (a.queue qn).room n = true) (h4 : (a.queue qn).role ≠ 4) (hw : whipOk bs = true) :
    ∃ y : Started, a.parse qn x bs (k + 1) = .over (a.pushPacket qn { bytes := bs, first := a.now, vis := some a.now }) y ∧ y.desc = x.desc ∧ y.lim = none := by
  have ne : bs ≠ [] := by intro e; subst e; simp at hn; omega
  have of : a.offer qn (bs.take n) = .stored (a.pushPacket qn { bytes := bs, first := a.now, vis := some a.now }) := by
    have tk : bs.take n = bs := List.take_of_length_le (by omega)
    unfold State.offer
    dsimp only
    rw [tk, hn, if_neg (by omega), if_neg (by rintro ⟨c1, c2⟩; have := h6 c1; omega), if_pos hr]
    unfold State.commitPacket
    dsimp only
    rw [if_neg (c := (a.queue qn).role = 4 ∧ _) (fun c => h4 c.1), if_pos hw]
  unfold State.parse
  dsimp only
  rw [if_neg ne, if_neg (by rw [hl]; simp), hp]
  dsimp only
  rw [if_neg (by omega), of]
  dsimp only
  have dr : bs.drop n = [] := List.drop_of_length_le (by omega)
  rw [dr, parse_nil]
  exact ⟨_, rfl, rfl, hl⟩

theorem taken_q (s : State) (n m : Nat) (h : m ≠ s.sqQueue n) : (taken s n).queue m = s.queue m := by
  unfold taken
  rw [queue_set, if_neg h]

theorem received_all (s a : State) (d : List Byte) (h : a.hostMem = s.hostMem) : a.received d none = Mem.reads s.hostMem (dHost d) (dLen d) := by
  unfold State.received failAt
  dsimp only [Option.getD]
  rw [h]

theorem done_status (a : State) (d : List Byte) (c e : Nat) (hc : dChk d = false) : (a.writeDone d none c e).status = 0 := by
  unfold State.writeDone failAt
  dsimp only
  rw [if_neg (by decide), if_neg (by rw [hc]; simp)]

theorem qwrite_run (s : State) (t : BitVec 64) (n : Fin 64) (d : List Byte) (qn : Nat) (q : Queue) (h1 : qn = bits (dTarget d) 14 0) (h2 : q = s.queue qn) (h3 : qn ≠ s.sqQueue n) (h4 : q.enabled = true) (h5 : q.bound = none)
    (hm : ∀ m, (s.ring m).open' = true → s.cqQueue m ≠ qn) : (s.hif.started = [] → startsNext s n 0x20 d = true → dChk d = false → 2 < q.role → q.role ≠ 4 → (q.role = 6 → q.pkts.length < 64) →
      0 < dLen d → packetLen q.role q.content (Mem.reads s.hostMem (dHost d) (dLen d)) = some (dLen d) → whipOk (Mem.reads s.hostMem (dHost d) (dLen d)) = true →
      2 * dLen d ≤ q.size → q.room (dLen d) = true →
      ∃ u, exec (.qwrite t n none) s = .next u ∧
        u.queue qn = q.push { bytes := Mem.reads s.hostMem (dHost d) (dLen d), first := (s.at t).now, vis := some (s.at t).now }) := by
  intro k1 k2 k3 k4 k5 k6 k7 k8 k9 k10 k11
  have st : (s.at t).hif.started = [] := k1
  have e : (s.at t).qWriteRow n none = (match (taken (s.at t) n).qWrite n d none with | .done s2 e => s2.finish n d e | .goesOn s2 => s2) := by
    refine Eq.trans ?_ (startDesc_starts (s.at t) n 0x20 d (· == 0x20) noWait (fun a d => a.qWrite n d none) k2 rfl rfl)
    unfold State.qWriteRow State.firstWaiters
    rw [st]
    rfl
  refine ⟨_, congrArg Host.Outcome.next e, ?_⟩
  have tq : (taken (s.at t) n).queue qn = q := by exact (taken_q (s.at t) n qn h3).trans h2.symm
  have th : (taken (s.at t) n).hostMem = s.hostMem := rfl
  have ts : (taken (s.at t) n).hif.started = [] := k1
  have tn : (taken (s.at t) n).now = (s.at t).now := rfl
  have tr : ∀ m, (taken (s.at t) n).ring m = s.ring m := fun _ => rfl
  have tc : ∀ m, (taken (s.at t) n).cqQueue m = s.cqQueue m := fun _ => rfl
  generalize taken (s.at t) n = a at *
  unfold State.qWrite
  dsimp only
  rw [← h1, tq, if_neg (by rw [h4]; simp; omega), if_neg (by unfold State.waiter; rw [ts]; simp)]
  have W : ∃ y : Started, a.writeOn { ring := n, desc := d, lim := failAt (dLen d) none } =
      (a.pushPacket qn { bytes := Mem.reads s.hostMem (dHost d) (dLen d), first := a.now, vis := some a.now },
       some ((a.pushPacket qn { bytes := Mem.reads s.hostMem (dHost d) (dLen d), first := a.now, vis := some a.now }).writeDone d none y.moved y.pkts), y) := by
    have sn : a.settleReader qn = a := settle_none a qn (by rw [tq]; exact h5)
    unfold State.writeOn
    dsimp only
    rw [← h1, sn]
    have rc : (a.received d (failAt (dLen d) none)) = Mem.reads s.hostMem (dHost d) (dLen d) := received_all s a d th
    rw [rc]
    obtain ⟨y, e1, e2, e3⟩ := parse_one a qn { ring := n, desc := d, lim := failAt (dLen d) none } (Mem.reads s.hostMem (dHost d) (dLen d)) (dLen d)
      ((Mem.reads s.hostMem (dHost d) (dLen d)).length / 4) (reads_len ..) k7 rfl (by rw [tq]; exact k8) (by rw [tq]; exact k10) (by rw [tq]; exact k6) (by rw [tq]; exact k11) (by rw [tq]; exact k5) k9
    refine ⟨y, ?_⟩
    have dz : (Mem.reads s.hostMem (dHost d) (dLen d)).drop 0 = Mem.reads s.hostMem (dHost d) (dLen d) := rfl
    rw [dz, e1]
    dsimp only
    rw [e2, e3]
  obtain ⟨y, W⟩ := W
  rw [W]
  dsimp only
  have fk := finish_keeps (a.pushPacket qn { bytes := Mem.reads s.hostMem (dHost d) (dLen d), first := a.now, vis := some a.now }) n d
    ((a.pushPacket qn { bytes := Mem.reads s.hostMem (dHost d) (dLen d), first := a.now, vis := some a.now }).writeDone d none y.moved y.pkts) qn
    (by rw [done_status _ _ _ _ k3]; decide) (fun o => by
      have o' : (a.ring n).open' = true := o
      rw [tr] at o'
      exact fun e => hm n o' ((tc n).symm.trans e))
  unfold State.finish
  rw [fk.q, push_queue, if_pos rfl, tq, tn]

theorem wholeIn_all (l : List Packet) : wholeIn ((l.map Packet.given).flatten.length) l = l.length := by
  induction l with
  | nil => rfl
  | cons p l ih =>
    simp only [List.map_cons, List.flatten_cons, List.length_append, wholeIn]
    rw [if_pos (by omega), Nat.add_sub_cancel_left, ih]
    rfl

theorem firstHurt_none (s : State) (qn : Nat) (h : s.mem.poison = []) (l : List Packet) (k : Nat) : s.firstHurt qn k l = none := by
  induction l generalizing k with
  | nil => rfl
  | cons p l ih =>
    unfold State.firstHurt
    have hh : s.hurt qn p = none := by unfold State.hurt; rw [h]; rfl
    rw [hh]
    simp only [ite_self]
    exact ih _

theorem qread_run (s : State) (t : BitVec 64) (n : Fin 64) (d : List Byte) (qn : Nat) (q : Queue) (h1 : qn = bits (dTarget d) 14 0) (h2 : q = s.queue qn) (h3 : qn ≠ s.sqQueue n) (h4 : q.enabled = true)
    (hm : ∀ m, (s.ring m).open' = true → s.cqQueue m ≠ qn) : (startsNext s n 0x21 d = true → 3 < q.role → s.mem.poison = [] →
      ∃ u, exec (.qread t n none) s = .next u ∧
        u.hostMem = Mem.writes s.hostMem (dHost d) ((fitting (s.at t).now (dLen d) q.pkts).map Packet.given).flatten ∧
        (u.queue qn).pkts = q.pkts.drop (fitting (s.at t).now (dLen d) q.pkts).length) := by
  intro k1 k2 k3
  refine ⟨_, congrArg Host.Outcome.next (startDesc_starts (s.at t) n 0x21 d (· == 0x21) noWait (fun a d => a.qRead d none) k1 rfl rfl), ?_⟩
  have tq : (taken (s.at t) n).queue qn = q := by exact (taken_q (s.at t) n qn h3).trans h2.symm
  have th : (taken (s.at t) n).hostMem = s.hostMem := rfl
  have tn : (taken (s.at t) n).now = (s.at t).now := rfl
  have tm : (taken (s.at t) n).mem.poison = [] := k3
  have tr : ∀ m, (taken (s.at t) n).ring m = s.ring m := fun _ => rfl
  have tc : ∀ m, (taken (s.at t) n).cqQueue m = s.cqQueue m := fun _ => rfl
  generalize taken (s.at t) n = a at *
  have E : ∃ e : Entry, e.status ≠ 7 ∧ a.qRead d none = .done (State.setQueue { a with hostMem := Mem.writes a.hostMem (dHost d) ((fitting (s.at t).now (dLen d) q.pkts).map Packet.given).flatten } qn
      { q with pkts := q.pkts.drop (fitting (s.at t).now (dLen d) q.pkts).length }) e := by
    unfold State.qRead
    dsimp only
    rw [← h1, tq, if_neg (by rw [h4]; simp; omega), show fitting a.now = fitting (s.at t).now by rw [tn], firstHurt_none a qn tm]
    dsimp only
    have z : a.toHost d ((fitting (s.at t).now (dLen d) q.pkts).map Packet.given).flatten none (Option.map (·.1) (none : Option (Nat × Nat))) =
      ({ a with hostMem := Mem.writes a.hostMem (dHost d) ((fitting (s.at t).now (dLen d) q.pkts).map Packet.given).flatten },
       { status := 0, count := ((fitting (s.at t).now (dLen d) q.pkts).map Packet.given).flatten.length,
         rcrc := if ((fitting (s.at t).now (dLen d) q.pkts).map Packet.given).flatten = [] then 0 else crc32c ((fitting (s.at t).now (dLen d) q.pkts).map Packet.given).flatten }) := by
      unfold State.toHost failAt
      dsimp only [Option.getD, Option.map]
      rw [List.take_length]
      rfl
    rw [z]
    dsimp only
    rw [wholeIn_all]
    have tq' : State.queue { a with hostMem := Mem.writes a.hostMem (dHost d) ((fitting (s.at t).now (dLen d) q.pkts).map Packet.given).flatten } qn = q := tq
    rw [tq']
    exact ⟨{ status := 0, count := _, rcrc := _, detail := _ }, by simp, rfl⟩
  obtain ⟨e, e7, E⟩ := E
  rw [E]
  dsimp only
  have fk := finish_keeps (State.setQueue { a with hostMem := Mem.writes a.hostMem (dHost d) ((fitting (s.at t).now (dLen d) q.pkts).map Packet.given).flatten } qn
      { q with pkts := q.pkts.drop (fitting (s.at t).now (dLen d) q.pkts).length }) n d e qn e7 (fun o => by
      have o' : (a.ring n).open' = true := o
      rw [tr] at o'
      exact fun e => hm n o' ((tc n).symm.trans e))
  unfold State.finish
  refine ⟨?_, ?_⟩
  · rw [show (State.drained _ _).hostMem = _ from (State.drained_touches ..).keeps .hostMem rfl, show (State.complete _ _ _ _).hostMem = _ from (State.complete_touches ..).keeps .hostMem rfl, ← th]
    rfl
  · rw [fk.q, queue_set, if_pos rfl]

theorem qflush_run (s : State) (t : BitVec 64) (n : Fin 64) (d : List Byte) (qn : Nat) (q : Queue) (h1 : qn = bits (dTarget d) 14 0) (h2 : q = s.queue qn) (h3 : qn ≠ s.sqQueue n) (h4 : q.enabled = true) (h5 : q.bound = none)
    (hm : ∀ m, (s.ring m).open' = true → s.cqQueue m ≠ qn) : (startsNext s n 0x22 d = true → 2 < q.role → q.flushAt = none →
      ∃ u, exec (.qflush t n none) s = .next u ∧ (u.queue qn).pkts = afterFlush q (s.at t).now) := by
  intro k1 k2 k3
  refine ⟨_, congrArg Host.Outcome.next (startDesc_starts (s.at t) n 0x22 d (· == 0x22) noWait (fun a d => a.qFlush n d) k1 rfl rfl), ?_⟩
  have tq : (taken (s.at t) n).queue qn = q := by exact (taken_q (s.at t) n qn h3).trans h2.symm
  have tn : (taken (s.at t) n).now = (s.at t).now := rfl
  have tr : ∀ m, (taken (s.at t) n).ring m = s.ring m := fun _ => rfl
  have tc : ∀ m, (taken (s.at t) n).cqQueue m = s.cqQueue m := fun _ => rfl
  generalize taken (s.at t) n = a at *
  unfold State.qFlush
  dsimp only
  rw [← h1, tq, if_neg (by rw [h4]; simp; omega)]
  dsimp only
  generalize hb : ({ a with hif := { a.hif with started := a.hif.started ++ [{ ring := n, desc := d }] } } : State) = b
  have bq : b.queue qn = q := by rw [← tq, ← hb]; rfl
  have bn : b.now = (s.at t).now := by rw [← tn, ← hb]
  have br : ∀ k, (b.ring k).open' = true → b.cqQueue k ≠ qn := by
    intro k o
    have r1 : b.ring k = s.ring k := by rw [← tr k, ← hb]; rfl
    have r2 : b.cqQueue k = s.cqQueue k := by rw [← tc k, ← hb]; rfl
    rw [r2]; exact hm k (by rw [← r1]; exact o)
  unfold State.askFlush
  dsimp only
  rw [settle_none b qn (by rw [bq]; exact h5), bq, if_neg (by simp [h4, k3]; omega), if_pos (by unfold State.flushDue; rw [bq, h5]; rfl), bn]
  rw [(flushNow_pkts b qn (s.at t).now (by rw [bq]; exact h5) br).1, bq]

theorem queueRuns_1 (s : State) (t : BitVec 64) : (∀ (n : Fin 64) (d : List Byte) (qn : Nat) (q : Queue), qn = bits (dTarget d) 14 0 → q = s.queue qn → qn ≠ s.sqQueue n → q.enabled = true → q.bound = none →
    (∀ m, (s.ring m).open' = true → s.cqQueue m ≠ qn) →
    (s.hif.started = [] → startsNext s n 0x20 d = true → dChk d = false → 2 < q.role → q.role ≠ 4 → (q.role = 6 → q.pkts.length < 64) →
      0 < dLen d → packetLen q.role q.content (Mem.reads s.hostMem (dHost d) (dLen d)) = some (dLen d) → whipOk (Mem.reads s.hostMem (dHost d) (dLen d)) = true →
      2 * dLen d ≤ q.size → q.room (dLen d) = true →
      ∃ u, exec (.qwrite t n none) s = .next u ∧
        u.queue qn = q.push { bytes := Mem.reads s.hostMem (dHost d) (dLen d), first := (s.at t).now, vis := some (s.at t).now }) ∧
    (startsNext s n 0x21 d = true → 3 < q.role → s.mem.poison = [] →
      ∃ u, exec (.qread t n none) s = .next u ∧
        u.hostMem = Mem.writes s.hostMem (dHost d) ((fitting (s.at t).now (dLen d) q.pkts).map Packet.given).flatten ∧
        (u.queue qn).pkts = q.pkts.drop (fitting (s.at t).now (dLen d) q.pkts).length) ∧
    (startsNext s n 0x22 d = true → 2 < q.role → q.flushAt = none →
      ∃ u, exec (.qflush t n none) s = .next u ∧ (u.queue qn).pkts = afterFlush q (s.at t).now)) :=
  fun n d qn q h1 h2 h3 h4 h5 hm => ⟨qwrite_run s t n d qn q h1 h2 h3 h4 h5 hm, qread_run s t n d qn q h1 h2 h3 h4 hm, qflush_run s t n d qn q h1 h2 h3 h4 h5 hm⟩

end Sys2Proof
end

