-- ==== Sys2Proof/Laws/Reach.lean ====
section
/-! SUPPORT. What each operation of a sequence word reaches: its own core, the named unit, output and read-out tone (chapter 03). -/

namespace Sys2Proof
open Sys2Proof.Machine

namespace Machine
variable {c : Nat} {U O R : List Nat} {r s t : State}

theorem reach_refl : WordReach c U O R s s := ⟨fun _ _ => rfl, fun _ _ => rfl, fun _ _ => rfl, fun _ _ => rfl⟩

theorem reach_trans (h : WordReach c U O R s t) (g : WordReach c U O R r s) : WordReach c U O R r t :=
  ⟨fun e he => (h.1 e he).trans (g.1 e he), fun e he => (h.2 e he).trans (g.2 e he), fun e he => (h.3 e he).trans (g.3 e he), fun e he => (h.4 e he).trans (g.4 e he)⟩

theorem reach_step {l : List Part} (h : Touches l s t) (hl : ([.cores, .units, .outs, .rtones].all (fun p => !l.contains p)) = true) :
    WordReach c U O R s t := by
  have k : ∀ p ∈ ([.cores, .units, .outs, .rtones] : List Part), p.same s t := fun p hp =>
    h.keeps p (by have := List.all_eq_true.mp hl p hp; simpa using this)
  have k1 : t.cores = s.cores := k .cores (by simp)
  have k2 : t.units = s.units := k .units (by simp)
  have k3 : t.outs = s.outs := k .outs (by simp)
  have k4 : t.rtones = s.rtones := k .rtones (by simp)
  exact ⟨fun e _ => by rw [State.core, State.core, k1], fun e _ => by rw [k2], fun e _ => by rw [k3], fun e _ => by rw [k4]⟩

theorem reach_core (s : State) (x : Core) : WordReach c U O R s (s.setCore c x) :=
  ⟨fun e he => by rw [State.core_setCore_ne _ _ _ _ he], fun _ _ => rfl, fun _ _ => rfl, fun _ _ => rfl⟩

theorem reach_punit (s : State) (k u : Nat) (x : PUnit) (h : 80 * k + u ∈ U) : WordReach c U O R s (s.setPunit k u x) :=
  ⟨fun _ _ => rfl, fun e he => Tab.get_put_ne _ _ _ (fun k => he (k ▸ h)), fun _ _ => rfl, fun _ _ => rfl⟩

theorem reach_out (s : State) (k u : Nat) (x : Out) (h : 22 * k + u ∈ O) : WordReach c U O R s (s.setOut k u x) :=
  ⟨fun _ _ => rfl, fun _ _ => rfl, fun e he => Tab.get_put_ne _ _ _ (fun k => he (k ▸ h)), fun _ _ => rfl⟩

theorem reach_rtone (s : State) (k u : Nat) (x : Rtone) (h : 32 * k + u ∈ R) : WordReach c U O R s (s.setRtone k u x) :=
  ⟨fun _ _ => rfl, fun _ _ => rfl, fun _ _ => rfl, fun e he => Tab.get_put_ne _ _ _ (fun k => he (k ▸ h))⟩

theorem reach_ite {b : Prop} [Decidable b] {x y : State} (hx : WordReach c U O R s x) (hy : WordReach c U O R s y) : WordReach c U O R s (if b then x else y) := by
  split <;> assumption

theorem reach_ite2 {b : Prop} [Decidable b] {x y : State} (hx : b → WordReach c U O R s x) (hy : WordReach c U O R s y) : WordReach c U O R s (if b then x else y) := by
  split
  · exact hx ‹_›
  · exact hy

theorem reach_map (s : State) (f : Nat → Core → Core) (h : ∀ d x, quiet (f d x) = quiet x) : WordReach c U O R s (s.mapCores f) := by
  refine ⟨fun e _ => ?_, fun _ _ => rfl, fun _ _ => rfl, fun _ _ => rfl⟩
  rcases State.core_mapCores s f e with g | ⟨g, i⟩
  · rw [g, h]
  · rw [g, i]

theorem quiet_mark (x : Core) (t : Nat) : quiet (x.markAt t) = quiet x := rfl

theorem quiet_clips (x : Core) (l : List Shot) (h : l.map (fun y => { y with clip := [] }) = x.shots.map (fun y => { y with clip := [] })) :
    quiet { x with shots := l } = quiet x := by
  unfold quiet
  dsimp only
  rw [h]

theorem reach_invalid (s : State) (t : Nat) : WordReach c U O R s (s.invalid c t) := by
  unfold State.invalid State.markScope
  refine reach_map _ _ (fun d x => ?_)
  split
  · exact quiet_mark _ _
  · rfl

theorem reach_note (s : State) (e : Nat) (u : Undo) : WordReach c U O R s (s.note c e u) := reach_core _ _

theorem reach_raise (s : State) (e : Ev) (i a b : Nat) (l : List Word) : WordReach c U O R s (s.raise e i a b l) := reach_step (State.raise_touches ..) rfl

theorem reach_bad (s : State) (e : Ev) (i a b t : Nat) (l : List Word) : WordReach c U O R s ((s.raise e i a b l).invalid c t) :=
  reach_trans (reach_invalid _ _) (reach_raise ..)

theorem reach_begin (s : State) (ps : List Packet) (w : Nat) (tm : Tim) : WordReach c U O R s (s.begin c ps w tm) := by
  unfold State.begin
  dsimp only
  have h1 : ∀ x, WordReach c U O R s ((s.clockTo tm.eff).setCore c x) := fun x => reach_trans (reach_core _ _) (reach_step (State.clockTo_touches ..) rfl)
  have h2 : ∀ b : Bool, ∀ x q, WordReach c U O R s (if b = true then ((s.clockTo tm.eff).setCore c x).setQueue (s.streamQ c) q else (s.clockTo tm.eff).setCore c x) := fun b x q =>
    reach_ite (reach_trans (reach_step (State.setQueue_touches ..) rfl) (h1 x)) (h1 x)
  split
  · exact reach_trans (reach_bad ..) (h2 ..)
  · exact h2 ..

theorem reach_spoil (s : State) (t : Nat) : WordReach c U O R s (s.endInvalid c t) :=
  reach_trans (reach_core ..) (reach_invalid ..)

theorem reach_lose (s : State) (t : Nat) : WordReach c U O R s (s.loseDeferral c t) := by
  unfold State.loseDeferral
  split
  · exact reach_refl
  · exact reach_trans (reach_spoil ..) (reach_trans (reach_raise ..) (reach_core ..))

theorem reach_ends (s : State) (d t : Nat) : WordReach c U O R s (s.endShots c d t) := by
  unfold State.endShots
  exact reach_trans (reach_core ..) (reach_ite (reach_lose ..) reach_refl)

theorem reach_stream (s : State) (k u t : Nat) (h : 80 * k + u ∈ U) : WordReach c U O R s (s.settleStream k u t) := by
  unfold State.settleStream
  split
  · exact reach_refl
  · exact reach_ite reach_refl (reach_trans (reach_step (State.setQueue_touches ..) rfl) (reach_punit _ _ _ _ h))

theorem reach_clipAt (s : State) (k o : Nat) (l : List Nat) (n : Nat) : WordReach c U O R s (s.clipAt k o l n) := by
  unfold State.clipAt
  dsimp only
  have h1 : WordReach c U O R s (s.bump (.outClipCnt k o) 1) := reach_step (State.bump_touches ..) rfl
  refine reach_ite (reach_trans (reach_raise ..) (reach_trans (reach_map _ _ (fun d x => ?_)) h1)) h1
  split
  · refine quiet_clips _ _ ?_
    rw [List.map_map]
    refine List.map_congr_left (fun y _ => ?_)
    dsimp only [Function.comp]
    split <;> rfl
  · rfl

theorem reach_chain (s : State) (k ch t : Nat) (h : 80 * k + (64 + ch) ∈ U) (h' : 22 * k + (6 + ch) ∈ O) : WordReach c U O R s (s.settleChain k ch t) := by
  unfold State.settleChain
  dsimp only
  refine List.foldlRecOn _ _ ?_ (fun a ha n _ => reach_trans (reach_clipAt ..) ha)
  exact reach_trans (reach_out _ _ _ _ h') (reach_stream _ _ _ _ h)

theorem reach_live (s : State) (k o t : Nat) (h : 22 * k + o ∈ O) : WordReach c U O R s (s.goLive k o t) := by
  unfold State.goLive
  exact reach_ite (reach_out _ _ _ _ h) reach_refl

theorem reach_static (s : State) (k ch l t : Nat) (h : 80 * k + (64 + ch) ∈ U) (h' : 22 * k + (6 + ch) ∈ O) : WordReach c U O R s (s.setStatic k ch l t) := by
  unfold State.setStatic
  exact reach_trans (reach_live _ _ _ _ h') (reach_trans (reach_step (State.setFld_touches ..) rfl) (reach_trans (reach_out _ _ _ _ h') (reach_chain _ _ _ _ h h')))

theorem reach_noteQueue (s : State) (t : Nat) (g : Seg) : WordReach c U O R s (s.noteQueue c t g) := by
  unfold State.noteQueue
  exact reach_ite (reach_note ..) reach_refl

theorem reach_cutDefer (s : State) (k u a t : Nat) : WordReach c U O R s (s.cutDefer k u a t) := by
  unfold State.cutDefer
  refine reach_map _ _ (fun d x => ?_)
  split
  · unfold quiet
    dsimp only
    rw [Option.map_map]
    rfl
  · rfl

theorem reach_trunc (s : State) (k u t : Nat) (h : 80 * k + u ∈ U) (h' : 64 ≤ u → 22 * k + (6 + (u - 64)) ∈ O) : WordReach c U O R s (s.truncate c k u t) := by
  unfold State.truncate
  dsimp only
  have h1 : WordReach c U O R s (if 64 ≤ u then s.settleChain k (u - 64) t else s) :=
    reach_ite2 (fun g => reach_chain _ _ _ _ (by rw [show 64 + (u - 64) = u by omega]; exact h) (h' g)) reach_refl
  have h2 := reach_trans (reach_stream (c := c) (O := O) (R := R) (if 64 ≤ u then s.settleChain k (u - 64) t else s) k u t h) h1
  split
  · exact reach_ite (reach_trans (reach_cutDefer ..) (reach_trans (reach_step (State.abandon_touches ..) rfl) (reach_trans (reach_noteQueue ..) h2))) h2
  · exact h2

theorem reach_under (s : State) (u t : Nat) : WordReach c U O R s (s.underrunAt c u t) := reach_bad ..

theorem reach_playEvents (s : State) (u q t : Nat) (x : PlayChk) : WordReach c U O R s (s.playEvents c u q t x) := by
  unfold State.playEvents
  dsimp only
  have h1 : WordReach c U O R s (if x.entry = true then (s.raise .envMismatch (c / 8) c t [wd 0]).invalid c t else s) :=
    reach_ite (reach_bad ..) reach_refl
  refine reach_ite (reach_trans (reach_under ..) ?_) ?_ <;>
    exact reach_ite (reach_trans (reach_raise ..) h1) (reach_ite (reach_trans (reach_raise ..) h1) h1)

theorem reach_deferSeg (s : State) (u : Nat) (g : Seg) : WordReach c U O R s (s.deferSeg c u g) := by
  unfold State.deferSeg
  dsimp only
  split
  · exact reach_refl
  · exact reach_ite (reach_core ..) (reach_core ..)

theorem reach_place (s : State) (u : Nat) (g : Seg) (e : Nat) (h : 80 * (c / 8) + u ∈ U) : WordReach c U O R s (s.placeSeg c u g e) := by
  unfold State.placeSeg
  dsimp only
  have h1 : ∀ z x, WordReach c U O R s (((s.setPunit (c / 8) u z).setCore c x).deferSeg c u g) := fun z x =>
    reach_trans (reach_deferSeg ..) (reach_trans (reach_core ..) (reach_punit _ _ _ _ h))
  exact reach_ite (reach_trans (reach_step (State.setQueue_touches ..) rfl) (h1 ..)) (h1 ..)

theorem reach_dpath (s : State) (u t : Nat) : WordReach c U O R s (s.dpathCheck c u t) :=
  reach_trans (reach_bad ..) (reach_step (State.bump_touches ..) rfl)

theorem reach_play (s : State) (chk : Bool) (w : Nat) (tm : Tim) (h : 80 * (c / 8) + bits w 39 33 ∈ U) (h' : 22 * (c / 8) + unitOut (bits w 39 33) ∈ O) :
    WordReach c U O R s (s.doPlay c chk w tm) := by
  have hu : 64 ≤ bits w 39 33 → 22 * (c / 8) + (6 + (bits w 39 33 - 64)) ∈ O := by
    intro g
    have : unitOut (bits w 39 33) = 6 + (bits w 39 33 - 64) := by unfold unitOut; split_ifs <;> omega
    rw [← this]; exact h'
  unfold State.doPlay
  dsimp only
  generalize hb : ((s.note c tm.eff (.unit (80 * (c / 8) + bits w 39 33) (s.punit (c / 8) (bits w 39 33)))).note c tm.eff
    (.out (22 * (c / 8) + unitOut (bits w 39 33)) (s.out (c / 8) (unitOut (bits w 39 33))))) = b
  have h0 : WordReach c U O R s b := hb ▸ reach_trans (reach_note ..) (reach_note ..)
  have h1 := reach_trans (reach_trunc b (c / 8) (bits w 39 33) tm.eff h hu) h0
  generalize b.truncate c (c / 8) (bits w 39 33) tm.eff = d at *
  have I : ∀ b : Prop, ∀ [Decidable b], ∀ a, WordReach c U O R s a → WordReach c U O R s (if b then a.invalid c tm.eff else a) := fun b _ a h => reach_ite (reach_trans (reach_invalid ..) h) h
  have D : ∀ b : Prop, ∀ [Decidable b], ∀ a v, WordReach c U O R s a → WordReach c U O R s (if b then a.dpathCheck c v tm.eff else a) := fun b _ a v h => reach_ite (reach_trans (reach_dpath ..) h) h
  have E : ∀ b : Prop, ∀ [Decidable b], ∀ a m v, WordReach c U O R s a → WordReach c U O R s (if b then a.sramUe m v tm.eff else a) := fun b _ a m v h =>
    reach_ite (reach_trans (reach_step (State.sramUe_touches ..) rfl) h) h
  exact E _ _ _ _ (D _ _ _ (I _ _ (reach_trans (reach_live _ _ _ _ h') (reach_trans (reach_playEvents ..)
    (reach_trans (reach_place _ _ _ _ h) (reach_trans (reach_noteQueue ..) h1))))))

theorem reach_overlap (s : State) (r a b d : Nat) (h : 32 * (c / 8) + r ∈ R) : WordReach c U O R s (s.overlap c r a b d) := by
  unfold State.overlap
  dsimp only
  split
  · exact reach_refl
  · exact reach_ite reach_refl (reach_trans (reach_bad ..) (reach_rtone _ _ _ _ h))

theorem reach_openWin (s : State) (r : Nat) (v : Win) (h : 32 * (c / 8) + r ∈ R) : WordReach c U O R s (s.openWin (c / 8) r v) := by
  unfold State.openWin
  dsimp only
  refine reach_trans (reach_rtone _ _ _ _ h) ?_
  split
  · exact reach_step (State.rawStart_touches ..) rfl
  · exact reach_refl

theorem reach_noteWin (s : State) (r : Nat) (v : Win) (e : Nat) (h : 80 * (c / 8) + (32 + r) ∈ U) : WordReach c U O R s (s.noteWin c r v e) := by
  unfold State.noteWin
  dsimp only
  have hb : ∀ x y, WordReach c U O R s ((s.setCore c x).setPunit (c / 8) (32 + r) y) := fun x y => reach_trans (reach_punit _ _ _ _ h) (reach_core ..)
  have hc : ∀ b : Bool, ∀ x y z, WordReach c U O R s (if b = true then ((s.setCore c x).setPunit (c / 8) (32 + r) y).setCore c z else (s.setCore c x).setPunit (c / 8) (32 + r) y) :=
    fun b x y z => reach_ite (reach_trans (reach_core ..) (hb ..)) (hb ..)
  split
  · exact reach_trans (reach_note ..) (reach_trans (reach_core ..) (hb ..))
  · exact hb ..

theorem reach_acq (s : State) (chk : Bool) (w : Nat) (tm : Tim) (h : 80 * (c / 8) + (32 + bits w 39 35) ∈ U) (h' : 32 * (c / 8) + bits w 39 35 ∈ R) :
    WordReach c U O R s (s.doAcq c chk w tm) := by
  unfold State.doAcq
  dsimp only
  have h0 : WordReach c U O R s (s.noteAcq c (bits w 39 35) tm.eff) := by
    unfold State.noteAcq
    exact reach_trans (reach_note ..) (reach_trans (reach_note ..) (reach_note ..))
  have h1 := reach_trans (reach_overlap _ (bits w 39 35) (bits w 15 0) tm.eff (adcAt tm.eff) h') h0
  generalize (s.noteAcq c (bits w 39 35) tm.eff).overlap c (bits w 39 35) (bits w 15 0) tm.eff (adcAt tm.eff) = b at *
  have h2 := fun v e => reach_trans (reach_noteWin (b.openWin (c / 8) (bits w 39 35) v) (bits w 39 35) v e h) (reach_trans (reach_openWin b (bits w 39 35) v h') h1)
  exact reach_ite (reach_trans (reach_dpath ..) (h2 ..)) (h2 ..)

theorem reach_phases (s : State) (t : Nat) (hR : ∀ r, r < 32 → 32 * (c / 8) + r ∈ R) : WordReach c U O R s (s.notePhases (c / 8) t) := by
  refine ⟨fun _ _ => rfl, fun _ _ => rfl, fun _ _ => rfl, fun x hx => ?_⟩
  have hk : x / 32 ≠ c / 8 := fun e' => hx (by
    have := hR (x % 32) (Nat.mod_lt _ (by norm_num))
    rwa [← e', Nat.div_add_mod] at this)
  have he : (s.notePhases (c / 8) t).rtones = s.rtones.map (fun e => (e.1, (fun i y =>
      if i / 32 = c / 8 then { y with phases := notePhase (s.phaseNow (c / 8) (i % 32) t) y.phases } else y) e.1 e.2)) := by
    unfold State.notePhases
    dsimp only
    refine List.map_congr_left (fun e _ => ?_)
    split <;> rfl
  rw [he]
  rcases Tab.get_map s.rtones (fun i y =>
      if i / 32 = c / 8 then { y with phases := notePhase (s.phaseNow (c / 8) (i % 32) t) y.phases } else y) x {} with g | ⟨g, h⟩
  · rw [g, if_neg hk]
  · rw [g, h]

theorem reach_setfreq (s : State) (w : Nat) (tm : Tim) (h : 80 * (c / 8) + bits w 39 34 ∈ U) (hR : ∀ r, r < 32 → 32 * (c / 8) + r ∈ R) :
    WordReach c U O R s (s.doSetfreq c w tm) :=
  reach_trans (reach_phases _ _ hR) (reach_trans (reach_punit _ _ _ _ h) (reach_note ..))

theorem reach_setstatic (s : State) (w : Nat) (tm : Tim) (h : 80 * (c / 8) + (64 + bits w 39 36) ∈ U) (h' : 22 * (c / 8) + (6 + bits w 39 36) ∈ O) :
    WordReach c U O R s (s.doSetstatic c w tm) := by
  unfold State.doSetstatic
  exact reach_trans (reach_static _ _ _ _ _ h h') (reach_trans (reach_punit _ _ _ _ h) (reach_trans (reach_note ..) (reach_note ..)))

theorem reach_setphase (s : State) (w : Nat) (tm : Tim) (hR : ∀ r, r < 32 → 32 * (c / 8) + r ∈ R) : WordReach c U O R s (s.doSetphase c w tm) :=
  reach_trans (reach_phases _ _ hR) (reach_trans (reach_step (State.frameOp_touches ..) rfl) (reach_note ..))

theorem reach_frameadd (s : State) (w : Nat) (tm : Tim) (hR : ∀ r, r < 32 → 32 * (c / 8) + r ∈ R) : WordReach c U O R s (s.doFrameadd c w tm) := by
  unfold State.doFrameadd
  dsimp only
  have h1 : WordReach c U O R s (if bits w 13 12 = 0 then s else s.reportUnmapped c (bits w 11 0) (cutoff tm.t)) := by
    refine reach_ite reach_refl ?_
    unfold State.reportUnmapped
    exact reach_ite (reach_bad ..) reach_refl
  generalize (if bits w 13 12 = 0 then s else s.reportUnmapped c (bits w 11 0) (cutoff tm.t)) = b at *
  split
  · refine reach_trans ?_ h1
    unfold State.deferCond
    exact reach_ite (reach_bad ..) (reach_trans (reach_raise ..) (reach_core ..))
  · exact h1
  · unfold State.frameAdd
    exact reach_trans (reach_phases _ _ hR) (reach_trans (reach_step (State.frameOp_touches ..) rfl) (reach_trans (reach_note ..) h1))

theorem reach_trigwait (s : State) (w : Nat) (tm : Tim) : WordReach c U O R s (s.doTrigwait c w tm) := by
  unfold State.doTrigwait
  dsimp only
  have h1 : ∀ b : Bool, ∀ n, WordReach c U O R s (if b = true then s.bump (.seqTrigDrop c) n else s) := fun b n => reach_ite (reach_step (State.bump_touches ..) rfl) reach_refl
  split
  · exact reach_trans (reach_core ..) (h1 ..)
  · exact reach_trans (reach_core ..) (h1 ..)

end Machine

end Sys2Proof
end

