-- ==== Sys2Proof/Laws/References.lean ====
section
/-! SUPPORT. Steps of the commands of one kind: the reference. -/

namespace Sys2Proof

open Sys2Proof.Machine

theorem invalidAll_mode (s : State) (t : Nat) : (s.invalidAll t).mode = s.mode := mode_of (State.invalidAll_touches ..) rfl

theorem references_1 (s a : State) (t : BitVec 64) (h0 : a = s.upTo t) :
  (a.sync.src = true → a.sync.refValid = true → a.mode.mode ≠ .dormant →
    ∃ u, exec (.refLost t) s = .next u ∧
      u.sync = { a.sync with refValid := false, lost := some a.now, holdover := true, pull := false } ∧
      (a.mode.mode = .run → a.mode.trans = none → a.fld .modeCtl 4 4 = 1 →
        u.mode.holdRef = true ∧ u.mode.trans = some (.hold, fl8 a.now + 16))) := by
  subst h0
  intro h1 h2 h3
  refine ⟨_, rfl, ?_⟩
  generalize s.upTo t = a at *
  have c : ((a.setSync { a.sync with refValid := false }).sync.src && a.sync.refValid &&
      (a.setSync { a.sync with refValid := false }).mode.mode != .dormant) = true := by
    show (a.sync.src && a.sync.refValid && a.mode.mode != .dormant) = true
    simp [h1, h2, h3]
  rw [if_pos c]
  exact ⟨(State.loseRef_sync _).trans rfl, fun m1 m2 m3 => State.loseRef_run (a.setSync { a.sync with refValid := false }) m1 m2 m3⟩

theorem references_2 (s : State) (t : BitVec 64) :
  (∀ l, s.sync.lost = some l → s.sync.src = true → s.sync.holdover = true →
    ∃ u, exec (.refValid t) s = .next u ∧
      u = { s.at t with sync := { s.sync with refValid := true, validAt := (s.at t).now, pull := true, holdover := false,
                                              aligned := s.sync.aligned && decide ((s.at t).now ≤ l + 110 * ms) } }) := by
  intro l h1 h2 h3
  refine ⟨_, rfl, ?_⟩
  have h1' : (s.at t).sync.lost = some l := h1
  have c : ((s.at t).sync.src && (s.at t).sync.holdover) = true := by
    show (s.sync.src && s.sync.holdover) = true
    simp [h2, h3]
  unfold State.refValidNow
  dsimp only
  split
  · rename_i e; cases e.symm.trans h1'
  · rename_i k e
    have : k = l := Option.some.inj (e.symm.trans h1')
    subst this
    rw [if_pos c]
    rfl

theorem references_3 (s a : State) (t : BitVec 64) (h0 : a = s.upTo t) :
  (a.sync.pull = true → a.sync.refValid = true → a.mainOn = true →
    ∃ u, exec (.refRestored t) s = .next u ∧
      u.sync = { a.sync with pull := false, clkLock := true, holdover := false, lost := none } ∧
      (a.sync.lost.isSome = true → a.mode.mode = .hold → a.mode.pend = none → a.thm.warn = false →
        u.mode.holdRef = false)) := by
  subst h0
  intro h1 h2 h3
  refine ⟨_, rfl, ?_⟩
  generalize s.upTo t = a at *
  unfold State.refRestored
  have c : ((a.sync.pull || !a.sync.clkLock) && (a.sync.refValid || !a.sync.src) && a.mainOn) = true := by
    show ((a.sync.pull || !a.sync.clkLock) && (a.sync.refValid || !a.sync.src) && a.mainOn) = true
    simp [h1, h2, h3]
  dsimp only
  rw [if_pos c]
  have key : ∀ z : State, z.mode = a.mode → z.thm = a.thm → z.sync.lost = none →
      (z.raise .refRestored 0 0 (up8 z.now) []).evalHold.sync = z.sync ∧
      (a.mode.mode = .hold → a.mode.pend = none → a.thm.warn = false → (z.raise .refRestored 0 0 (up8 z.now) []).evalHold.mode.holdRef = false) := by
    intro z k1 k2 k3
    have M : (z.raise .refRestored 0 0 (up8 z.now) []).mode = a.mode := (mode_of (State.raise_touches ..) rfl).trans k1
    have T : (z.raise .refRestored 0 0 (up8 z.now) []).thm = a.thm := ((State.raise_touches ..).keeps .thm rfl).trans k2
    have S : (z.raise .refRestored 0 0 (up8 z.now) []).sync = z.sync := sync_of (State.raise_touches ..) rfl
    refine ⟨(sync_of (State.evalHold_touches _) rfl).trans S, fun m1 m2 m3 => State.evalHold_noRef _ ?_ ?_ ?_ ?_⟩
    · rw [M]; exact m1
    · rw [M]; exact m2
    · rw [S]; exact k3
    · rw [T]; exact m3
  by_cases hl : a.sync.lost.isSome = true
  · have hl' : a.sync.lost.isSome = true := hl
    rw [if_pos hl']
    obtain ⟨k1, k2⟩ := key (a.setSync { a.sync with pull := false, clkLock := true, holdover := false, lost := none }) rfl rfl rfl
    exact ⟨k1, fun _ => k2⟩
  · have hl' : ¬ a.sync.lost.isSome = true := hl
    rw [if_neg hl']
    exact ⟨rfl, fun h => absurd h hl⟩

theorem references_4 (s a : State) (t : BitVec 64) (h0 : a = s.upTo t) :
  (a.mode.mode ≠ .dormant → a.mode.mode ≠ .safe → a.mode.tripAt = none → a.mode.safeCause = 0 →
    (∀ l, a.sync.lost = some l → l + sec ≤ a.now → a.sync.refValid = false → a.fld .modeCtl 4 4 = 0 →
      ∃ u, exec (.clkFault t .holdover) s = .next u ∧ u.mode.trans = some (.safe, a.now + us) ∧ u.mode.safeCause = 6) ∧
    (a.sync.clkLock = true →
      ∃ u, exec (.clkFault t .hub) s = .next u ∧ u.mode.trans = some (.safe, a.now + us) ∧ u.mode.safeCause = 6 ∧
        u.sync = { a.sync with clkLock := false }) ∧
    (∀ p : Fin 4, (a.ply p).st = .locked →
      ∃ u, exec (.clkFault t (.ply p)) s = .next u ∧ u.mode.trans = some (.safe, a.now + us) ∧ u.mode.safeCause = 6)) := by
  subst h0
  intro h1 h2 h3 h4
  refine ⟨?_, ?_, ?_⟩
  · intro l k1 k2 k3 k4
    refine ⟨_, rfl, ?_⟩
    generalize s.upTo t = a at *
    unfold State.clkFault
    have e : a.sync.lost = some l := k1
    have c : l + sec ≤ a.now ∧ a.sync.refValid = false ∧ a.fld .modeCtl 4 4 = 0 := ⟨k2, k3, k4⟩
    dsimp only
    rw [e]
    dsimp only
    rw [if_pos c]
    exact State.clkTrip_begins a 0 h1 h2 h3 h4
  · intro k1
    refine ⟨_, rfl, ?_⟩
    generalize s.upTo t = a at *
    unfold State.clkFault
    have e : a.sync.clkLock = true := k1
    dsimp only
    rw [if_pos e]
    obtain ⟨a, b⟩ := State.clkTrip_begins (a.setSync { a.sync with clkLock := false }) 0 h1 h2 h3 h4
    exact ⟨a, b, (sync_of (State.clkTrip_touches ..) rfl)⟩
  · intro p k1
    refine ⟨_, rfl, ?_⟩
    generalize s.upTo t = a at *
    unfold State.clkFault
    have e : (a.ply p).st = .locked := k1
    dsimp only
    rw [e, if_pos rfl]
    have my : (a.bump (.plyLockLoss p) 1).mode = a.mode := mode_of (State.bump_touches a (.plyLockLoss p) 1) rfl
    have ny : (a.bump (.plyLockLoss p) 1).now = a.now := now_of (State.bump_touches a (.plyLockLoss p) 1) rfl
    have r := State.clkTrip_begins (a.bump (.plyLockLoss p) 1) p (by rw [my]; exact h1) (by rw [my]; exact h2) (by rw [my]; exact h3) (by rw [my]; exact h4)
    rw [ny] at r
    exact r

/-- SYNC_CTL.REFSEL while the reference is valid (R252): the source it names; ALIGNED falls when the source changes. -/
theorem selectRef_source (z : State) (hv : z.sync.refValid = true) (h9 : z.fld .syncCtl 9 8 ≠ 3) :
    z.selectRef.sync.src = decide (z.fld .syncCtl 9 8 ≠ 2) ∧ z.selectRef.fld .syncCtl 9 8 = z.fld .syncCtl 9 8 ∧
      (z.sync.src ≠ z.selectRef.sync.src → z.selectRef.sync.aligned = false) := by
  have K : ∀ (y : State) (c : Bool), (if c = true then y.evalHold else y).sync = y.sync ∧ (if c = true then y.evalHold else y).fld .syncCtl 9 8 = y.fld .syncCtl 9 8 := by
    intro y c
    cases c
    · exact ⟨rfl, rfl⟩
    · exact ⟨sync_of (State.evalHold_touches y) rfl, fld_of (State.evalHold_touches y) rfl _ _ _⟩
  have l4 : z.fld .syncCtl 9 8 < 4 := getF_lt _ 9 8
  have src : (if z.fld .syncCtl 9 8 = 0 then true else decide (z.fld .syncCtl 9 8 = 1)) = decide (z.fld .syncCtl 9 8 ≠ 2) := by
    generalize z.fld .syncCtl 9 8 = v at *
    interval_cases v <;> first | rfl | omega
  unfold State.selectRef
  dsimp only
  rw [hv, src]
  by_cases q : decide (z.fld .syncCtl 9 8 ≠ 2) = z.sync.src
  · rw [if_pos q, hv, Bool.not_true, Bool.and_false, Bool.false_and, if_neg Bool.false_ne_true, (K _ _).1, (K _ _).2]
    exact ⟨q.symm, rfl, fun h => absurd rfl h⟩
  · rw [if_neg q]
    generalize hy : State.setSync z _ = y
    have y1 : y.sync.src = decide (z.fld .syncCtl 9 8 ≠ 2) := by rw [← hy]; rfl
    have y2 : y.sync.aligned = false := by rw [← hy]; rfl
    have y3 : y.sync.refValid = true := by rw [← hy]; rfl
    have y4 : y.fld .syncCtl 9 8 = z.fld .syncCtl 9 8 := by rw [← hy]; rfl
    rw [y3, Bool.not_true, Bool.and_false, Bool.false_and, if_neg Bool.false_ne_true, (K _ _).1, (K _ _).2]
    exact ⟨y1, y4, fun _ => y2⟩

theorem references_5 (s : State) (t : BitVec 64) :
  (∀ w, s.blocksUp = true → s.mode.mode = .ready → getF w 0 0 = 0 → getF w 1 1 = 0 → getF w 2 2 = 0 → getF w 31 24 = 0xFF →
    getF w 9 8 ≠ 3 → s.sync.refValid = true →
    (getF w 9 8 ≠ s.fld .syncCtl 9 8 → ∃ u, exec (.refselWrite t w) s = .next u ∧ u.sync.src = decide (getF w 9 8 ≠ 2) ∧
      u.fld .syncCtl 9 8 = getF w 9 8 ∧ (s.sync.src ≠ u.sync.src → u.sync.aligned = false)) ∧
    (getF w 9 8 = s.fld .syncCtl 9 8 → ∃ u, exec (.refselWrite t w) s = .next u ∧ u.sync = s.sync ∧ u.fld .syncCtl 9 8 = getF w 9 8)) := by
  intro w hb hm h0 h1 h2 hp h9 hv
  have f9 : getF (RegId.mergeX .syncCtl ((s.at t).reg .syncCtl) w) 9 8 = getF w 9 8 := by
    have l4 : getF w 9 8 < 4 := getF_lt w 9 8
    refine mergeX_fld .syncCtl _ w ⟨9, 8, .rw, 0, [(0, 2)]⟩ (by decide) rfl ?_ ?_ (by decide) (by decide) (fun _ => rfl)
    · show Field.allows ⟨9, 8, .rw, 0, [(0, 2)]⟩ (getF w 9 8) = true
      generalize getF w 9 8 = v at *
      interval_cases v <;> first | rfl | omega
    · rfl
  have e : (s.at t).writeFields .syncCtl w = (s.at t).setReg .syncCtl (RegId.mergeX .syncCtl ((s.at t).reg .syncCtl) w) := by
    have cd : RegId.codeOf .syncCtl ((s.at t).reg .syncCtl) w = 0xFF := by
      unfold RegId.codeOf
      have : (RegId.fields .syncCtl).find? (fun f => decide (f.lo = 24)) = some ⟨31, 24, .rw, 0, [(0, 2), (255, 255)]⟩ := rfl
      rw [this]
      dsimp only
      rw [hp]; rfl
    unfold State.writeFields
    dsimp only
    rw [cd]; rfl
  have m' : (s.at t).mode.mode = .ready := hm
  have X : exec (.refselWrite t w) s = .next ((s.at t).wrSyncCtl w) := congrArg Host.Outcome.next (State.hubWrite_up _ _ _ hb)
  have x9 : ((s.at t).setReg .syncCtl (RegId.mergeX .syncCtl ((s.at t).reg .syncCtl) w)).fld .syncCtl 9 8 = getF w 9 8 := by
    rw [← f9]; exact State.fld_setReg ..
  unfold State.wrSyncCtl at X
  rw [e, h0, h1, h2] at X
  dsimp only at X
  rw [m', if_pos rfl, x9] at X
  simp only [Nat.zero_ne_one, if_false] at X
  generalize hz : ((s.at t).setReg .syncCtl (RegId.mergeX .syncCtl ((s.at t).reg .syncCtl) w)).unhold .syncCtl = z at X
  have z9 : z.fld .syncCtl 9 8 = getF w 9 8 := by rw [← hz]; exact x9
  have zs : z.sync = s.sync := by rw [← hz]; rfl
  refine ⟨fun q => ⟨_, X, ?_⟩, fun q => ⟨_, X, ?_⟩⟩
  · rw [if_neg (show ¬ getF w 9 8 = (s.at t).fld .syncCtl 9 8 from q), ← zs, ← z9]
    exact selectRef_source z (by rw [zs]; exact hv) (by rw [z9]; exact h9)
  · rw [if_pos (show getF w 9 8 = (s.at t).fld .syncCtl 9 8 from q)]
    exact ⟨zs, z9⟩

end Sys2Proof
end

