-- ==== Sys2Proof/Laws/Refusals.lean ====
section
/-! SUPPORT. A refused mode request (R42). -/

namespace Sys2Proof
open Sys2Proof.Machine

theorem refused_of (s a : State) (h' : preOk s a) (hn : noHoldCause s) (ht : s.mode.trans = none) (b : State) (hb : b = a.refuse a.now) :
    refused s b.evalHold := by
  subst hb
  have h := h'.p hn
  have hm : ((a.refuse a.now).mode) = a.mode := (State.refuse_touches a a.now).keeps .mode rfl
  have hs : ((a.refuse a.now).sync) = a.sync := (State.refuse_touches a a.now).keeps .sync rfl
  have hth : ((a.refuse a.now).thm) = a.thm := (State.refuse_touches a a.now).keeps .thm rfl
  have q : noHoldCause (a.refuse a.now) := ⟨by rw [hs]; exact h.2.1.1, by rw [hth]; exact h.2.1.2⟩
  rw [State.evalHold_quiet _ q (by rw [hm, h.1]; rfl), State.refreshHold_quiet _ q]
  refine ⟨?_, ?_, ?_, a, ?_, ?_⟩
  · show (a.refuse a.now).mode.mode = _; rw [hm, h.1]; rfl
  · show (a.refuse a.now).mode.trans = _; rw [hm, h.1]; exact ht
  · show (a.refuse a.now).mode.pend = _; rw [hm, h.1]; rfl
  · obtain ⟨rg, -, rfl⟩ := h'
    exact ⟨fun p hp => by cases p <;> first | rfl | simp at hp, fun k => k⟩
  · rw [h.2.2.1.symm]
    exact ⟨fun p hp => by cases p <;> first | rfl | simp at hp, by exact id⟩

end Sys2Proof
end

