-- ==== Sys2Proof/Laws/RegOffsets.lean ====
section
/-! SUPPORT. The register that each part of the map finds at an offset lies at that offset (R415, R423, R425, R426). -/

namespace Sys2Proof
open Sys2Proof.Machine

theorem some_ite {α : Type} {c : Prop} [Decidable c] {a : α} {x : Option α} {P : α → Prop} (h1 : c → P a) (h2 : ∀ r, x = some r → P r) :
    ∀ r, (if c then some a else x) = some r → P r := by
  intro r h
  by_cases hc : c
  · rw [if_pos hc] at h; injection h with h; exact h ▸ h1 hc
  · rw [if_neg hc] at h; exact h2 r h

theorem some_none {α : Type} {P : α → Prop} : ∀ r, (none : Option α) = some r → P r := by intro r h; cases h

theorem ofId_off (o : Nat) : ∀ r, RegId.ofId o = some r → r.off = o := by
  unfold RegId.ofId; repeat' first | exact some_none | refine some_ite ?_ ?_
  all_goals (intro h; simp only [RegId.off]; omega)

theorem ofMode_off (o : Nat) : ∀ r, RegId.ofMode o = some r → r.off = o := by
  unfold RegId.ofMode; repeat' first | exact some_none | refine some_ite ?_ ?_
  all_goals (intro h; simp only [RegId.off]; omega)

theorem ofPwr_off (o : Nat) : ∀ r, RegId.ofPwr o = some r → r.off = o := by
  unfold RegId.ofPwr; repeat' first | exact some_none | refine some_ite ?_ ?_
  all_goals (intro h; simp only [RegId.off]; omega)

theorem ofQm_off (o : Nat) : ∀ r, RegId.ofQm o = some r → r.off = o := by
  unfold RegId.ofQm; repeat' first | exact some_none | refine some_ite ?_ ?_
  all_goals (intro h; simp only [RegId.off]; omega)

theorem ofHif_off (o : Nat) : ∀ r, RegId.ofHif o = some r → r.off = o := by
  unfold RegId.ofHif; repeat' first | exact some_none | refine some_ite ?_ ?_
  all_goals (intro h; simp only [RegId.off]; omega)

theorem ofTime_off (o : Nat) : ∀ r, RegId.ofTime o = some r → r.off = o := by
  unfold RegId.ofTime; repeat' first | exact some_none | refine some_ite ?_ ?_
  all_goals (intro h; simp only [RegId.off]; omega)

theorem ofHch_off (o : Nat) : ∀ r, RegId.ofHch o = some r → r.off = o := by
  unfold RegId.ofHch; repeat' first | exact some_none | refine some_ite ?_ ?_
  all_goals (intro h; simp only [RegId.off]; omega)

theorem ofDec_off (o : Nat) : ∀ r, RegId.ofDec o = some r → r.off = o := by
  unfold RegId.ofDec; repeat' first | exact some_none | refine some_ite ?_ ?_
  all_goals (intro h; simp only [RegId.off]; omega)

theorem ofMem_off (o : Nat) : ∀ r, RegId.ofMem o = some r → r.off = o := by
  unfold RegId.ofMem; repeat' first | exact some_none | refine some_ite ?_ ?_
  all_goals (intro h; simp only [RegId.off]; omega)

theorem ofCal_off (o : Nat) : ∀ r, RegId.ofCal o = some r → r.off = o := by
  unfold RegId.ofCal; repeat' first | exact some_none | refine some_ite ?_ ?_
  all_goals (intro h; simp only [RegId.off]; omega)

theorem ofMon_off (o : Nat) : ∀ r, RegId.ofMon o = some r → r.off = o := by
  unfold RegId.ofMon; repeat' first | exact some_none | refine some_ite ?_ ?_
  all_goals (intro h; simp only [RegId.off]; omega)

theorem ofCore_off (c o : Nat) : ∀ r, RegId.ofCore c o = some r → r.off = coreBase c + o := by
  unfold RegId.ofCore; repeat' first | exact some_none | refine some_ite ?_ ?_
  all_goals (intro h; simp only [RegId.off]; omega)

theorem ofPly_off (c o : Nat) : ∀ r, RegId.ofPly c o = some r → r.off = plyBase c + o := by
  unfold RegId.ofPly; repeat' first | exact some_none | refine some_ite ?_ ?_
  all_goals (intro h; simp only [RegId.off]; omega)

theorem ofStrandLow_off (c o : Nat) : ∀ r, RegId.ofStrandLow c o = some r → r.off = strandBase c + o := by
  unfold RegId.ofStrandLow; repeat' first | exact some_none | refine some_ite ?_ ?_
  all_goals (intro h; simp only [RegId.off]; omega)

theorem ofStrandOut_off (c o : Nat) (hc : c < 32) : ∀ r, RegId.ofStrandOut c o = some r → r.off = strandBase c + o := by
  have e : c % 32 = c := Nat.mod_eq_of_lt hc
  unfold RegId.ofStrandOut; repeat' first | exact some_none | refine some_ite ?_ ?_
  all_goals (intro h; simp only [RegId.off, e]; omega)

theorem ofStrandAcq_off (c o : Nat) : ∀ r, RegId.ofStrandAcq c o = some r → r.off = strandBase c + o := by
  unfold RegId.ofStrandAcq
  refine some_ite ?_ (some_ite ?_ ?_)
  · intro h; rw [RegId.off, show (8 * c + (o - 0xD800) / 4) / 8 = c by omega]; omega
  · intro h; rw [RegId.off, show (8 * c + (o - 0xD820) / 4) / 8 = c by omega]; omega
  repeat' first | exact some_none | refine some_ite ?_ ?_
  all_goals (intro h; simp only [RegId.off]; omega)

theorem ofStrand_off (c o : Nat) (hc : c < 32) : ∀ r, RegId.ofStrand c o = some r → r.off = strandBase c + o := by
  intro r h; unfold RegId.ofStrand at h
  split at h
  · exact ofStrandLow_off c o r h
  · split at h
    · have := ofCore_off _ _ r h
      rw [this]; unfold coreBase
      rw [show (8 * c + (o - 0x1000) / 0x40) / 8 = c by omega, show (8 * c + (o - 0x1000) / 0x40) % 8 = (o - 0x1000) / 0x40 by omega]
      omega
    · split at h
      · exact ofStrandLow_off c o r h
      · split at h
        · exact ofStrandOut_off c o hc r h
        · exact ofStrandAcq_off c o r h

theorem some_sub {α : Type} {c : Prop} [Decidable c] {x y : Option α} {P : α → Prop} (h1 : c → ∀ r, x = some r → P r)
    (h2 : ¬ c → ∀ r, y = some r → P r) : ∀ r, (if c then x else y) = some r → P r := by
  intro r h
  by_cases hc : c
  · rw [if_pos hc] at h; exact h1 hc r h
  · rw [if_neg hc] at h; exact h2 hc r h

end Sys2Proof
end

