-- ==== Sys2Proof/Laws/Runs.lean ====
section
/-! SUPPORT. Steps of the commands of one kind: descriptors that run. -/

namespace Sys2Proof

open Sys2Proof.Machine

theorem taken_queue (s : State) (n m : Nat) (h : s.sqQueue n ≠ m) : (taken s n).queue m = s.queue m := by
  unfold taken
  rw [queue_set, if_neg (fun e => h e.symm)]

theorem fin_seq (a : State) (n : Nat) (d : List Byte) (e : Entry) : (a.finish n d e).seqSram = a.seqSram ∧ (a.finish n d e).envSram = a.envSram ∧
    (a.finish n d e).envTab = a.envTab ∧ (a.finish n d e).kernel = a.kernel ∧ (a.finish n d e).hbm = a.hbm ∧ (a.finish n d e).hostMem = a.hostMem ∧
    (a.finish n d e).dec = a.dec ∧ (a.finish n d e).regs = a.regs ∧ (a.finish n d e).ptp = a.ptp := by
  have T := State.finish_touches a n d e
  exact ⟨T.keeps .seqSram rfl, T.keeps .envSram rfl, T.keeps .envTab rfl, T.keeps .kernel rfl, T.keeps .hbm rfl, T.keeps .hostMem rfl, T.keeps .dec rfl, T.keeps .regs rfl, T.keeps .ptp rfl⟩

theorem runs_1 (s : State) (t : BitVec 64) (n : Fin 64) (d : List Byte) : (∀ err, startsNext s n 0x3F d = true → s.sqQueue n ≠ s.cqQueue n →
    ∃ u, exec (.nop t n err) s = .next u ∧ u.queue (s.cqQueue n) = (s.queue (s.cqQueue n)).push
      { bytes := Entry.bytes { status := 0 } n (leAt d 0 2) (s.at t).now (decide (((s.ring n).cqTail + (s.queue (s.cqQueue n)).pkts.length) / s.ringSize n % 2 = 0)),
        first := (s.at t).now, vis := some (s.at t).now }) := by
  intro err h hq
  have ho : (s.ring n).open' = true := by
    unfold startsNext at h
    simp only [Bool.and_eq_true] at h
    exact h.1.1.1.1.1.1
  have e := startDesc_starts (s.at t) n 0x3F d (fun op => op == 0x3F || !opCodes.contains op) noWait (fun a _ => .done a { status := 0 }) h rfl rfl
  refine ⟨_, congrArg Host.Outcome.next e, ?_⟩
  have f := finish_queue (taken (s.at t) n) n d { status := 0 } (by decide) ho n.2
  have c : (taken (s.at t) n).cqQueue n = s.cqQueue n := rfl
  rw [c, taken_queue _ _ _ (by exact hq)] at f
  exact f

theorem runs_2 (s a : State) (t : BitVec 64) (h0 : a = s.upTo t) (n : Fin 64) (d : List Byte) : (∀ err (off : Nat) (w : Word) (r : RegId), startsNext a n 0x01 d = true → d.length = 64 → dLen d = 0 → dTarget d = 1 → leAt d 32 4 = off → BitVec.ofNat 32 (leAt d 36 4) = w →
    pairRefused off = false → (a.half && farBlock off) = false → a.absent off = false → RegId.ofOff off = some r →
    ∃ u, exec (.regwrite t n err) s = .next u ∧ u.regs = ((taken a n).writeReg r w).regs) := by
  intro err off w r h ln h1 h2 h3 h4 h5 h6 h8 h7
  have e := startDesc_starts a n 0x01 d (· == 0x01) noWait (fun a d => a.regWrite d err) h rfl rfl
  refine ⟨_, exec_up (f := fun z => z.startDesc n (· == 0x01) noWait (fun a d => a.regWrite d err)) h0 e rfl, ?_⟩
  have A : ∀ z : State, z.half = a.half → z.absent off = false → z.applyPairs [(off, w)] = (z.writeReg r w, 1, [r]) := by
    intro z ha hb
    simp only [State.applyPairs, h5, ha, hb, Bool.false_or, h6, h7]
    rfl
  have ps : pairsOf (((d.drop 32).take 8).length / 8) ((d.drop 32).take 8) = [(off, w)] := by
    have l8 : ((d.drop 32).take 8).length = 8 := by simp [ln]
    rw [l8]
    show pairsOf 1 _ = _
    unfold pairsOf pairsOf
    rw [if_neg (by rw [l8]; decide)]
    have a1 : leAt ((d.drop 32).take 8) 0 4 = off := by rw [← h3]; unfold leAt; rw [List.drop_zero, List.take_take]; rfl
    have a2 : leAt ((d.drop 32).take 8) 4 4 = leAt d 36 4 := by
      unfold leAt; rw [List.drop_take, List.drop_drop, List.take_take]; rfl
    rw [a1, a2, h4]
  unfold State.regWrite
  dsimp only
  rw [if_pos h1, h2]
  show (match (if ((taken a n).applyPairs (pairsOf (((d.drop 32).take 8).length / 8) ((d.drop 32).take 8))).2.1 < (pairsOf (((d.drop 32).take 8).length / 8) ((d.drop 32).take 8)).length then _ else _) with | Ran.done s2 e => s2.finish n d e | .goesOn s2 => s2).regs = _
  rw [ps, A (taken a n) rfl h8, if_neg (by simp)]
  dsimp only
  exact (fin_seq _ _ _ _).2.2.2.2.2.2.2.1

theorem loadEntries_one (a : State) (k e : Nat) (bs : List Byte) (ok : envEntryOk (leAt bs 0 4) (leAt bs 4 4) (leAt bs 8 4) (leAt bs 12 4) = true) :
    (a.loadEntries k e 1 bs).2 = none ∧ (a.loadEntries k e 1 bs).1.envTab = Mem.writes a.envTab (65536 * k + 16 * e) (entryBytes bs) := by
  have e1 : ∀ (b : State) x y, b.loadEntries k x 0 y = (b, none) := fun _ _ _ => rfl
  unfold State.loadEntries
  dsimp only
  rw [if_pos ok, e1]
  exact ⟨rfl, rfl⟩

theorem runs_3 (s a : State) (t : BitVec 64) (h0 : a = s.upTo t) (n : Fin 64) (d : List Byte) : ((a.ply (dStrand d / 8)).retrain = none →
    (∀ err, startsNext a n 0x10 d = true → dDir d = false →
      ∃ u, exec (.seqload t n err) s = .next u ∧ u.seqSram = Mem.writes a.seqSram (2 ^ 20 * dStrand d + dDev d) (a.units' d err 8)) ∧
    (startsNext a n 0x10 d = true → dDir d = true → a.badIn (.seqSram (Fin.ofNat 32 (dStrand d))) (dDev d) (dLen d) = [] →
      ∃ u, exec (.seqload t n none) s = .next u ∧ u.seqSram = a.seqSram ∧
        u.hostMem = Mem.writes a.hostMem (dHost d) (Mem.reads a.seqSram (2 ^ 20 * dStrand d + dDev d) (dLen d))) ∧
    (∀ err, startsNext a n 0x11 d = true → dDir d = false →
      ∃ u, exec (.envload t n err) s = .next u ∧ u.envSram = Mem.writes a.envSram (2 ^ 22 * dStrand d + dDev d) (a.units' d err 4)) ∧
    (startsNext a n 0x12 d = true → dDir d = false → dLen d = 16 →
      envEntryOk (Mem.num a.hostMem (dHost d) 4) (Mem.num a.hostMem (dHost d + 4) 4) (Mem.num a.hostMem (dHost d + 8) 4) (Mem.num a.hostMem (dHost d + 12) 4) = true →
      ∃ u, exec (.envtable t n none) s = .next u ∧
        u.envTab = Mem.writes a.envTab (65536 * dStrand d + 16 * dDev d) (entryBytes (Mem.reads a.hostMem (dHost d) 16))) ∧
    (∀ err, startsNext a n 0x13 d = true → dDir d = false →
      ∃ u, exec (.kernel t n err) s = .next u ∧
        u.kernel = Mem.writes a.kernel (2 ^ 19 * dStrand d + (16384 * bits (dTarget d) 9 5 + 4 * dDev d)) (a.units' d err 4))) := by
  intro hw
  have w : waitLink a d = false := by
    show (a.ply (dStrand d / 8)).retrain.isSome = false
    rw [hw]; rfl
  refine ⟨fun err h hd => ?_, fun h hd hb => ?_, fun err h hd => ?_, fun h hd hl ho => ?_, fun err h hd => ?_⟩
  · refine ⟨_, exec_up (f := fun z => z.startDesc n (· == 0x10) waitLink (fun a d => a.seqLoad d err)) h0 (startDesc_starts a n 0x10 d (· == 0x10) waitLink (fun a d => a.seqLoad d err) h rfl w) rfl, ?_⟩
    unfold State.seqLoad
    dsimp only
    rw [if_neg (by rw [hd]; decide)]
    dsimp only
    rw [(fin_seq _ _ _ _).1]
    rfl
  · refine ⟨_, exec_up (f := fun z => z.startDesc n (· == 0x10) waitLink (fun a d => a.seqLoad d none)) h0 (startDesc_starts a n 0x10 d (· == 0x10) waitLink (fun a d => a.seqLoad d none) h rfl w) rfl, ?_⟩
    unfold State.seqLoad
    dsimp only
    rw [if_pos hd]
    unfold State.sramOut Ran.ofPair
    have lr : ∀ (m : Mem) (a k : Nat), (Mem.reads m a k).length = k := by
      intro m a k; induction k generalizing a with
      | zero => rfl
      | succ k ih => simp [Mem.reads, ih]
    have bi : (taken a n).badIn (.seqSram (Fin.ofNat 32 (dStrand d))) (dDev d) (Mem.reads (taken a n).seqSram (2 ^ 20 * dStrand d + dDev d) (dLen d)).length = [] := by
      rw [lr]; exact hb
    rw [bi]
    dsimp only
    obtain ⟨f1, _, _, _, _, f2, _⟩ := fin_seq (((taken a n).toHost d (Mem.reads (taken a n).seqSram (2 ^ 20 * dStrand d + dDev d) (dLen d)) none none).1) n d
      (((taken a n).toHost d (Mem.reads (taken a n).seqSram (2 ^ 20 * dStrand d + dDev d) (dLen d)) none none).2)
    rw [f1, f2]
    refine ⟨rfl, ?_⟩
    unfold State.toHost failAt
    dsimp only [Option.getD]
    rw [List.take_length]
    rfl
  · refine ⟨_, exec_up (f := fun z => z.startDesc n (· == 0x11) waitLink (fun a d => a.envLoad d err)) h0 (startDesc_starts a n 0x11 d (· == 0x11) waitLink (fun a d => a.envLoad d err) h rfl w) rfl, ?_⟩
    unfold State.envLoad
    dsimp only
    rw [if_neg (by rw [hd]; decide)]
    dsimp only
    rw [(fin_seq _ _ _ _).2.1]
    have k := (State.freezeEnv_touches (taken a n) (dStrand d)).keeps .envSram rfl
    show Mem.writes (State.freezeEnv _ _).envSram _ _ = _
    rw [show (State.freezeEnv (taken a n) (dStrand d)).envSram = a.envSram from k]
    rfl
  · refine ⟨_, exec_up (f := fun z => z.startDesc n (· == 0x12) waitLink (fun a d => a.envTable d none)) h0 (startDesc_starts a n 0x12 d (· == 0x12) waitLink (fun a d => a.envTable d none) h rfl w) rfl, ?_⟩
    unfold State.envTable
    dsimp only
    rw [if_neg (by rw [hd]; decide)]
    have bs : (taken a n).units' d none 16 = Mem.reads a.hostMem (dHost d) 16 := by
      unfold State.units' State.received failAt
      dsimp only [Option.getD]
      rw [hl, reads_len]
      exact List.take_of_length_le (by rw [reads_len])
    rw [bs]
    have L : ∀ z : State, (z.loadEntries (dStrand d) (dDev d) ((Mem.reads a.hostMem (dHost d) 16).length / 16) (Mem.reads a.hostMem (dHost d) 16)).2 = none ∧
        (z.loadEntries (dStrand d) (dDev d) ((Mem.reads a.hostMem (dHost d) 16).length / 16) (Mem.reads a.hostMem (dHost d) 16)).1.envTab =
          Mem.writes z.envTab (65536 * dStrand d + 16 * dDev d) (entryBytes (Mem.reads a.hostMem (dHost d) 16)) := by
      intro z
      rw [reads_len]
      exact loadEntries_one z _ _ _ ho
    obtain ⟨L1, L2⟩ := L (taken a n)
    rw [L1]
    dsimp only
    rw [(fin_seq _ _ _ _).2.2.1, L2]
    rfl
  · refine ⟨_, exec_up (f := fun z => z.startDesc n (· == 0x13) waitLink (fun a d => a.kernelLoad d err)) h0 (startDesc_starts a n 0x13 d (· == 0x13) waitLink (fun a d => a.kernelLoad d err) h rfl w) rfl, ?_⟩
    unfold State.kernelLoad
    dsimp only
    rw [if_neg (by rw [hd]; decide)]
    dsimp only
    rw [(fin_seq _ _ _ _).2.2.2.1]
    have k := (State.freezeKernel_touches (taken a n) (dStrand d) (bits (dTarget d) 9 5)).keeps .kernel rfl
    show Mem.writes (State.freezeKernel _ _ _).kernel _ _ = _
    rw [show (State.freezeKernel (taken a n) (dStrand d) (bits (dTarget d) 9 5)).kernel = a.kernel from k]
    rfl

theorem runs_4 (s : State) (t : BitVec 64) (n : Fin 64) (d : List Byte) : (startsNext s n 0x14 d = true → dDir d = false → dLen d = 8192 →
    ∃ u, exec (.truthtable t n none) s = .next u ∧
      Tab.get? u.dec.ttShadow (dTarget d % 256) = some (.raw (Mem.writes [] 0 (Mem.reads s.hostMem (dHost d) 8192))) ∧
      u.fld (.decDctl (dTarget d % 256)) 31 24 = 0xFF) := by
  intro h hd hl
  refine ⟨_, congrArg Host.Outcome.next (startDesc_starts (s.at t) n 0x14 d (· == 0x14) noWait (fun a d => a.truthTable d none) h rfl rfl), ?_⟩
  have lr : ∀ (m : Mem) (a k : Nat), (Mem.reads m a k).length = k := by
    intro m a k; induction k generalizing a with
    | zero => rfl
    | succ k ih => simp [Mem.reads, ih]
  have rc : (taken (s.at t) n).received d none = Mem.reads s.hostMem (dHost d) 8192 := by
    unfold State.received failAt
    dsimp only [Option.getD]
    rw [hl]; rfl
  have e8 := lr s.hostMem (dHost d) 8192
  have ne : Mem.reads s.hostMem (dHost d) 8192 ≠ [] := by intro e; rw [e] at e8; cases e8
  unfold State.truthTable
  dsimp only
  rw [if_neg (by rw [hd]; decide), rc]
  generalize Mem.reads s.hostMem (dHost d) 8192 = bs at *
  rw [if_neg ne, if_pos e8]
  obtain ⟨_, _, _, _, _, _, f1, f2, _⟩ := fin_seq (State.setFld { taken (s.at t) n with dec := { (taken (s.at t) n).dec with ttShadow := Tab.put (taken (s.at t) n).dec.ttShadow (dTarget d % 256) (.raw (Mem.writes [] 0 bs)) } } (.decDctl (dTarget d % 256)) 31 24 0xFF) n d
    (State.writeDone (State.setFld { taken (s.at t) n with dec := { (taken (s.at t) n).dec with ttShadow := Tab.put (taken (s.at t) n).dec.ttShadow (dTarget d % 256) (.raw (Mem.writes [] 0 bs)) } } (.decDctl (dTarget d % 256)) 31 24 0xFF) d none bs.length 0)
  refine ⟨?_, ?_⟩
  · show Tab.get? (State.dec (State.finish _ _ _ _)).ttShadow _ = _
    rw [f1]
    exact get?_put ..
  · rw [State.fld_congr f2]
    exact (State.fld_setFld _ _ _ _ _ (by decide) (by decide)).trans rfl

theorem runs_5 (s a : State) (t : BitVec 64) (h0 : a = s.upTo t) (n : Fin 64) (d : List Byte) : (∀ err, startsNext a n 0x15 d = true → dDir d = false → (taken a n).overlapsQueue 32768 (dDev d) (dDev d + dLen d) = false →
    ∃ u, exec (.hbmxfer t n err) s = .next u ∧ u.hbm = Mem.writes a.hbm (dDev d) (a.units' d err 64)) := by
  intro err h hd ho
  refine ⟨_, exec_up (f := fun z => z.startDesc n (· == 0x15) noWait (fun a d => a.hbmXfer d err)) h0 (startDesc_starts a n 0x15 d (· == 0x15) noWait (fun a d => a.hbmXfer d err) h rfl rfl) rfl, ?_⟩
  have ho' : (taken a n).overlapsQueue 32768 (dDev d) (dDev d + dLen d) = false := ho
  unfold State.hbmXfer
  dsimp only
  rw [if_neg (by rw [ho']; simp), if_neg (by rw [hd]; decide)]
  dsimp only
  rw [(fin_seq _ _ _ _).2.2.2.2.1]
  rfl

theorem runs_6 (s : State) (t : BitVec 64) (n : Fin 64) (d : List Byte) : (startsNext s n 0x30 d = true → dTimed d = false → dChk d = false →
    ∃ u, exec (.ethsend t n none) s = .next u ∧
      u.ptp.sent = { portB := s.ethPort d, at' := (s.at t).now, late := false, bytes := Mem.reads s.hostMem (dHost d) (dLen d) } :: s.ptp.sent) := by
  intro h hd hc
  have w : waitList (s.at t) d = false := by unfold waitList; rw [hd]; rfl
  refine ⟨_, congrArg Host.Outcome.next (startDesc_starts (s.at t) n 0x30 d (· == 0x30) waitList (fun a d => a.ethSend n d none) h rfl w), ?_⟩
  have st : ((taken (s.at t) n).writeDone d none ((failAt (dLen d) none).getD (dLen d)) 0).status = 0 := by
    unfold State.writeDone failAt
    dsimp only
    rw [if_neg (by decide), if_neg (by rw [hc]; simp)]
  unfold State.ethSend
  dsimp only
  rw [if_neg (by rw [st]; decide), if_pos hd]
  dsimp only
  obtain ⟨b, e⟩ := sendFrameNow_ptp (taken (s.at t) n) ((taken (s.at t) n).ethFrame n d) false
  rw [e]
  rfl

end Sys2Proof
end

