-- ==== Sys2Proof/Laws/Scrubs.lean ====
section
/-! SUPPORT. Steps of the commands of one kind: memory integrity. -/

namespace Sys2Proof

open Sys2Proof.Machine

theorem owner_le (s : State) (k u : Nat) : s.owner k u < 8 := by
  have := getF_lt (s.reg (.seqOwn k u)) 2 0
  exact this

/-- What a correction on one die leaves alone. -/
def Same (a b : State) : Prop := b.mem.ueAddr = a.mem.ueAddr ∧ b.count .memCeCnt = a.count .memCeCnt

theorem Same.trans {a b c : State} (h : Same a b) (g : Same b c) : Same a c := ⟨g.1.trans h.1, g.2.trans h.2⟩

theorem same_raise (s : State) (e : Ev) (i x t : Nat) (l : List Word) : Same s (s.raise e i x t l) :=
  ⟨(quiet_raise s e i x t l).rest.2.2.2.2.1, (quiet_raise s e i x t l).count _ (by decide) (by decide)⟩

theorem same_over (s : State) (d : Nat) : Same s (s.overThr d) := by
  unfold State.overThr
  split_ifs
  · exact ⟨rfl, rfl⟩
  · split
    · exact Same.trans (b := s.putMark _) ⟨rfl, rfl⟩ (same_raise ..)
    · split_ifs
      · exact ⟨rfl, rfl⟩
      · exact same_raise ..

theorem same_die (s : State) (d n : Nat) : Same s (s.dieCorrected d n) := by
  unfold State.dieCorrected
  dsimp only
  have k1 : Same s ((s.bump (.memDieCe d) n).setMem { s.mem with ceLog := (d, s.now, n) :: s.mem.ceLog }) := by
    refine ⟨rfl, ?_⟩
    show (s.bump (.memDieCe d) n).count .memCeCnt = _
    exact count_bump_ne _ _ _ _ (by show (_ : Nat) ≠ _ + 4 * d; simp [RegId.off]; omega)
  generalize State.setMem (s.bump _ n) _ = z at *
  have k2 : ∀ c : Bool, Same s (if c = true then
      (z.setMem { z.mem with ceRep := Tab.put z.mem.ceRep d s.now }).raise .memCe 0 d (up8 s.now) [] else z) := by
    intro c
    split_ifs
    · refine k1.trans (Same.trans (b := z.setMem { z.mem with ceRep := Tab.put z.mem.ceRep d s.now }) ⟨rfl, rfl⟩ (same_raise ..))
    · exact k1
  have k3 := k2 (match Tab.get? s.mem.ceRep d with | none => true | some r => decide (r + sec ≤ s.now))
  generalize (if (match Tab.get? s.mem.ceRep d with | none => true | some r => decide (r + sec ≤ s.now)) = true then
      (z.setMem { z.mem with ceRep := Tab.put z.mem.ceRep d s.now }).raise .memCe 0 d (up8 s.now) [] else z) = y at *
  split_ifs
  · exact k3.trans (same_over ..)
  · exact k3

theorem same_dies (l : List Nat) (f : Nat → Nat) : ∀ s : State, Same s (l.foldl (fun a d => a.dieCorrected d (f d)) s) := by
  induction l with
  | nil => exact fun s => ⟨rfl, rfl⟩
  | cons d l ih => exact fun s => (same_die s d _).trans (ih _)

def Same0 (a b : State) : Prop := b.mem.ueAddr = a.mem.ueAddr ∧ b.count .memCeCnt = min 0xFFFFFFFF (a.count .memCeCnt + 1)

theorem scrubs_1 (s : State) (t : BitVec 64) : (s.hbmOn = true → s.fld .memCtl 23 16 ≠ 0 → ∀ bad : List (Fin 68),
    (bad = [] → s.mem.poison.contains s.mem.scrubPos = false →
      ∃ u, exec (.scrubRead t bad) s = .next u ∧ u.mem.scrubPos = (s.mem.scrubPos + 1) % 2 ^ 29 ∧ u.mem.poison = s.mem.poison ∧ u.counts = s.counts) ∧
    (bad ≠ [] → s.mem.poison.contains s.mem.scrubPos = false → s.correctable ((bad.map (·.val)).dedup) = true →
      ∃ u, exec (.scrubRead t bad) s = .next u ∧ u.mem.scrubPos = (s.mem.scrubPos + 1) % 2 ^ 29 ∧ u.mem.ueAddr = s.mem.ueAddr ∧
        u.count .memCeCnt = min 0xFFFFFFFF (s.count .memCeCnt + 1)) ∧
    (s.correctable ((bad.map (·.val)).dedup) = false →
      ∃ u, exec (.scrubRead t bad) s = .next u ∧ u.mem.scrubPos = (s.mem.scrubPos + 1) % 2 ^ 29 ∧ u.mem.ueAddr = 64 * s.mem.scrubPos ∧
        u.count .memUeCnt = min 0xFFFFFFFF (s.count .memUeCnt + 1))) := by
  intro h1 h2 bad
  have h1 : (s.at t).hbmOn = true := h1
  have h2 : (s.at t).fld .memCtl 23 16 ≠ 0 := h2
  have cm : s.mem = (s.at t).mem := rfl
  have cc : s.counts = (s.at t).counts := rfl
  have cr : ∀ l, s.correctable l = (s.at t).correctable l := fun l => rfl
  have ct : ∀ r, s.count r = (s.at t).count r := fun r => rfl
  rw [cm, cr, cc, ct, ct]
  have X : ∀ b, exec (.scrubRead t b) s = .next ((s.at t).scrubRead (b.map (·.val))) := fun b => rfl
  simp only [X]
  generalize s.at t = a at *
  have E : ∀ b : List Nat, a.scrubRead b = (a.codewordRead a.mem.scrubPos b.dedup).setMem { (a.codewordRead a.mem.scrubPos b.dedup).mem with scrubPos := (a.mem.scrubPos + 1) % 2 ^ 29 } := by
    intro b
    unfold State.scrubRead
    rw [if_neg (by rw [h1]; simp; exact h2)]
  simp only [E]
  have sc : ∀ (z : State) n, (z.setMem { z.mem with scrubPos := n }).mem.scrubPos = n := fun _ _ => rfl
  refine ⟨fun hb hp => ⟨_, rfl, rfl, ?_⟩, fun hb hp hc => ⟨_, rfl, rfl, ?_⟩, fun hc => ⟨_, rfl, rfl, ?_⟩⟩
  · subst hb
    have : a.codewordRead a.mem.scrubPos [] = a.setMem { a.mem with ceLog := a.mem.ceLog.filter (fun e => decide (a.now < e.2.1 + sec)) } := by
      unfold State.codewordRead
      dsimp only
      rw [if_neg]
      · rfl
      have hc : (a.setMem { a.mem with ceLog := a.mem.ceLog.filter (fun e => decide (a.now < e.2.1 + sec)) }).correctable [] = true := by
        unfold State.correctable
        split <;> rfl
      rw [hc]
      show ¬ (a.mem.poison.contains a.mem.scrubPos || !true) = true
      rw [hp]; decide
    show (State.codewordRead _ _ []).mem.poison = _ ∧ (State.codewordRead _ _ []).counts = _
    rw [this]
    exact ⟨rfl, rfl⟩
  · have hc' : ∀ z : State, z.regs = a.regs → z.correctable ((bad.map (·.val)).dedup) = true := by
      intro z hz
      have : z.marked = a.marked := by unfold State.marked State.fld State.reg; rw [hz]
      unfold State.correctable at hc ⊢
      rw [this]; exact hc
    have hne : ((bad.map (·.val)).dedup).isEmpty = false := by
      cases bad with
      | nil => exact absurd rfl hb
      | cons x l =>
        rw [List.isEmpty_eq_false_iff]
        intro h
        have := List.mem_dedup.mpr (List.mem_map_of_mem (f := (·.val)) (List.mem_cons_self (a := x) (l := l)))
        rw [h] at this
        cases this
    show Same0 a _
    unfold State.codewordRead
    dsimp only
    have hz := hc' (a.setMem { a.mem with ceLog := a.mem.ceLog.filter (fun e => decide (a.now < e.2.1 + sec)) }) rfl
    rw [if_neg (by rw [hz]; show ¬ (a.mem.poison.contains a.mem.scrubPos || !true) = true; rw [hp]; decide), if_neg (by rw [hne]; decide)]
    obtain ⟨g1, g2⟩ := same_dies _ _ _
    exact ⟨g1.trans rfl, g2.trans (count_bump ..)⟩
  · have hc' : ∀ z : State, z.regs = a.regs → z.correctable ((bad.map (·.val)).dedup) = false := by
      intro z hz
      have : z.marked = a.marked := by unfold State.marked State.fld State.reg; rw [hz]
      unfold State.correctable at hc ⊢
      rw [this]; exact hc
    show (State.codewordRead _ _ _).mem.ueAddr = _ ∧ (State.codewordRead _ _ _).count .memUeCnt = _
    unfold State.codewordRead
    dsimp only
    have hz := hc' (a.setMem { a.mem with ceLog := a.mem.ceLog.filter (fun e => decide (a.now < e.2.1 + sec)) }) rfl
    rw [if_pos (by rw [hz]; simp)]
    unfold State.memUe
    dsimp only
    rw [(quiet_raise ..).rest.2.2.2.2.1, (quiet_raise ..).count _ (by decide) (by decide)]
    refine ⟨?_, count_bump ..⟩
    show 64 * _ / 64 * 64 = _
    omega

theorem ply_keep {l : List Part} {s t : State} (h : Touches l s t) (hl : l.contains .plies = false) (n : Nat) : t.ply n = s.ply n := by
  have := h.keeps .plies hl
  simp only [Part.same] at this
  simp [State.ply, this]

theorem ply_set (s : State) (p : Nat) (x : Ply) : (s.setPly p x).ply p = x := Tab.get_put ..

theorem scrubs_2 (s : State) (t : BitVec 64) : (∀ (p : Fin 4) (n : Nat), (s.ply p).st = .locked → (s.ply p).retrain = none →
    ∃ u, exec (.flitCrcFail t p n) s = .next u ∧ u.count .memD2dRetry = min 0xFFFFFFFF (s.count .memD2dRetry + min 8 (n + 1)) ∧
      (u.ply p).retrain = (if n < 8 then none else some (s.at t).now)) := by
  intro p n h1 h2
  refine ⟨_, rfl, ?_⟩
  have h1 : ((s.at t).ply p).st = .locked := h1
  have h2 : ((s.at t).ply p).retrain = none := h2
  have ct : s.count .memD2dRetry = (s.at t).count .memD2dRetry := rfl
  rw [ct]
  generalize s.at t = a at *
  unfold State.flitFail
  dsimp only
  rw [if_neg (by rw [h1, h2]; simp)]
  have c1 : ((a.bump .memD2dRetry (min 8 (n + 1))).bump (.plyD2dRetry p) (min 8 (n + 1))).count .memD2dRetry = min 0xFFFFFFFF (a.count .memD2dRetry + min 8 (n + 1)) := by
    rw [count_bump_ne _ _ _ _ (by have := p.isLt; show (0x050030 : Nat) ≠ 0x100000 + p * 0x40000 + 0xC; omega), count_bump]
  by_cases h : n < 8
  · rw [if_pos h, if_pos h]
    exact ⟨c1, h2⟩
  · rw [if_neg h, if_neg h]
    have n1 : ((a.bump .memD2dRetry (min 8 (n + 1))).bump (.plyD2dRetry p) (min 8 (n + 1))).now = a.now := rfl
    generalize (a.bump .memD2dRetry (min 8 (n + 1))).bump (.plyD2dRetry p) (min 8 (n + 1)) = z at *
    rw [(quiet_raise ..).count _ (by decide) (by decide), ply_keep (State.raise_touches ..) rfl, ply_set]
    refine ⟨Eq.trans ?_ c1, rfl⟩
    show (z.settlePly p).count _ = _
    unfold State.count
    rw [(State.settlePly_touches z p).keeps .counts rfl]

theorem scrubs_3 (s : State) (t : BitVec 64) : (∀ w : Word, s.blocksUp = true →
    ∃ u, exec (.diemarkWrite t w) s = .next u ∧ u.reg .memDieMark = RegId.mergeX .memDieMark (s.reg .memDieMark) w ∧
      u.pwr.jPend ≠ s.pwr.jPend) := by
  intro w h
  refine ⟨_, congrArg Host.Outcome.next (if_pos h), ?_, ?_⟩
  · exact State.reg_setReg _ _ _
  · show s.pwr.jPend ++ [_] ≠ _
    simp

theorem scrubs_4 (s : State) (t : BitVec 64) : (∀ (m : SramId) (word : Nat), s.scrubs m = true →
    (∃ u, exec (.sramScrub t m word .none) s = .next u ∧ u = s.at t) ∧
    (∃ u, exec (.sramScrub t m word .single) s = .next u ∧ u.count .memSramCe = min 0xFFFFFFFF (s.count .memSramCe + 1)) ∧
    (∃ u, exec (.sramScrub t m word .double) s = .next u ∧ u.count .memSramUe = min 0xFFFFFFFF (s.count .memSramUe + 1)) ∧
    ((∀ k, m ≠ .staging k) → m ≠ .burst → ∃ u, exec (.sramScrub t m word .double) s = .next u ∧ (m, word) ∈ u.badWords)) := by
  intro m word h
  have h : ¬ (s.at t).scrubs m = false := by show ¬ s.scrubs m = false; rw [h]; decide
  have ct : ∀ r, s.count r = (s.at t).count r := fun _ => rfl
  rw [ct, ct]
  have X : ∀ e, exec (.sramScrub t m word e) s = .next ((s.at t).sramScrub m word e) := fun b => rfl
  simp only [X]
  generalize s.at t = a at *
  have U : (a.sramUe m word (up8 a.now)).count .memSramUe = min 0xFFFFFFFF (a.count .memSramUe + 1) := by
    unfold State.sramUe
    rw [(quiet_raise ..).count _ (by decide) (by decide), count_bump]
  refine ⟨⟨_, rfl, ?_⟩, ⟨_, rfl, ?_⟩, ⟨_, rfl, ?_⟩, fun h1 h2 => ⟨_, rfl, ?_⟩⟩
  · unfold State.sramScrub; rw [if_neg h]
  · unfold State.sramScrub
    rw [if_neg h]
    dsimp only
    split_ifs
    · rw [(quiet_raise ..).count _ (by decide) (by decide)]
      exact count_bump ..
    · exact count_bump ..
  · unfold State.sramScrub
    rw [if_neg h]
    dsimp only
    cases m <;> try exact U
    unfold State.stagedBad
    dsimp only
    split
    · exact U
    · exact U
  · unfold State.sramScrub
    rw [if_neg h]
    dsimp only
    have key : ∀ z : State, (m, word) ∈ (if z.badWords.contains (m, word) then z.badWords else (m, word) :: z.badWords) := by
      intro z
      split_ifs with hc
      · exact List.contains_iff_mem.mp hc
      · exact .head _
    cases m <;> first | exact key _ | exact absurd rfl (h1 _) | exact absurd rfl h2

theorem scrubs_5 (s : State) (t : BitVec 64) : (∀ (p : Fin 4) (r : Nat), (s.ply p).retrain = some r →
    ∃ u, exec (.d2dRetrainDone t p) s = .next u ∧ (u.ply p).retrain = none ∧ u.now = (s.clockTo (min t.toNat (r + 2 * us))).now) := by
  intro p r h
  refine ⟨_, rfl, ?_⟩
  unfold State.retrained
  rw [h]
  dsimp only
  refine ⟨?_, ?_⟩
  · rw [ply_set]
  · show (State.settlePly _ _).now = _
    exact now_of (State.settlePly_touches ..) rfl

theorem memTests_1 (s : State) (t : BitVec 64) (w : Word) (hb : s.blocksUp = true) : (s.mode.mode ≠ .test → ∃ u, exec (.memTestStart t w) s = .next u ∧ u = s.at t) := by
  intro h
  refine ⟨_, congrArg Host.Outcome.next (if_pos hb), ?_⟩
  unfold State.wrTestCtl
  dsimp only
  rw [if_pos]
  refine ⟨getF_setF _ _ _ _ (by decide) (by decide), ?_⟩
  have : (s.mode.mode == Mode.test) = false := by simpa using h
  show (s.mode.mode == Mode.test && _) = false
  rw [this]; rfl

theorem memTests_2 (s : State) (t : BitVec 64) (w : Word) (hb : s.blocksUp = true) : (s.mode.mode = .test → s.mode.trans = none →
    (s.mem.test = none → getF w 30 30 = 0 → ∀ x : MemTest,
      x.target = ((s.at t).writeFields .memTestCtl (setF w 31 31 1)).fld .memTestCtl 11 8 →
      x.strand = ((s.at t).writeFields .memTestCtl (setF w 31 31 1)).fld .memTestCtl 4 0 →
      (x.base, x.len) = testRange x.target (s.reg64 .memTestBaseLo .memTestBaseHi) (s.reg64 .memTestLenLo .memTestLenHi) →
      x.raw = decide (((s.at t).writeFields .memTestCtl (setF w 31 31 1)).fld .memTestCtl 15 15 = 1) → x.abort = false →
      (s.testRefused x = true → ∃ u, exec (.memTestStart t w) s = .next u ∧ u.mem.stat = 8 ∧ u.mem.test = none) ∧
      (s.testRefused x = false → ∃ u, exec (.memTestStart t w) s = .next u ∧ u.mem.test = some x ∧ u.mem.stat = 0 ∧ u.mem.failAddr = 0))) := by
  intro hm ht h1 h2 x e1 e2 e3 e4 e5
  have W : (s.at t).wrTestCtl (setF w 31 31 1) = ((s.at t).writeFields .memTestCtl (setF w 31 31 1)).startTest := by
    unfold State.wrTestCtl
    dsimp only
    have b1 : getF (setF w 31 31 1) 31 31 = 1 := getF_setF _ _ _ _ (by decide) (by decide)
    have b2 : getF (setF w 31 31 1) 30 30 = 0 := by rw [getF_setF_ne _ _ _ _ _ _ (by decide) (by decide) (by decide)]; exact h2
    have b3 : ((s.at t).mode.mode == Mode.test && (s.at t).mode.trans.isNone) = true := by
      show (s.mode.mode == Mode.test && s.mode.trans.isNone) = true
      rw [hm, ht]; rfl
    rw [if_neg (by rw [b3]; simp), if_neg (by rw [b2]; simp), if_pos b1]
  have F : (s.at t).writeFields .memTestCtl (setF w 31 31 1) = (s.at t).setReg .memTestCtl (RegId.mergeX .memTestCtl (s.reg .memTestCtl) (setF w 31 31 1)) := rfl
  have q1 : ((s.at t).writeFields .memTestCtl (setF w 31 31 1)).reg64 .memTestBaseLo .memTestBaseHi = s.reg64 .memTestBaseLo .memTestBaseHi := by
    rw [F]; unfold State.reg64
    rw [State.reg_setReg_ne _ _ _ _ (by decide), State.reg_setReg_ne _ _ _ _ (by decide)]; rfl
  have q2 : ((s.at t).writeFields .memTestCtl (setF w 31 31 1)).reg64 .memTestLenLo .memTestLenHi = s.reg64 .memTestLenLo .memTestLenHi := by
    rw [F]; unfold State.reg64
    rw [State.reg_setReg_ne _ _ _ _ (by decide), State.reg_setReg_ne _ _ _ _ (by decide)]; rfl
  have q3 : ((s.at t).writeFields .memTestCtl (setF w 31 31 1)).mem = s.mem := by rw [F]; rfl
  have q4 : ∀ y, ((s.at t).writeFields .memTestCtl (setF w 31 31 1)).testRefused y = s.testRefused y := by intro y; rw [F]; rfl
  generalize (s.at t).writeFields .memTestCtl (setF w 31 31 1) = a at *
  obtain ⟨xt, xs, xb, xl, xr, xa⟩ := x
  simp only at e1 e2 e3 e4 e5
  subst e1 e2 e4 e5
  have S : a.startTest = if s.testRefused ⟨a.fld .memTestCtl 11 8, a.fld .memTestCtl 4 0, xb, xl, decide (a.fld .memTestCtl 15 15 = 1), false⟩ then a.setMem { a.mem with stat := 8 } else a.setMem { a.mem with stat := 0, failAddr := 0, test := some ⟨a.fld .memTestCtl 11 8, a.fld .memTestCtl 4 0, xb, xl, decide (a.fld .memTestCtl 15 15 = 1), false⟩ } := by
    unfold State.startTest
    rw [if_neg (by rw [q3, h1]; decide)]
    dsimp only
    rw [q1, q2, ← e3, q4]
  refine ⟨fun hr => ⟨_, congrArg Host.Outcome.next ((if_pos hb).trans (W.trans (S.trans (if_pos hr)))), rfl, ?_⟩, fun hr => ⟨_, congrArg Host.Outcome.next ((if_pos hb).trans (W.trans (S.trans (if_neg (by rw [hr]; decide))))), rfl, rfl, rfl⟩⟩
  show a.mem.test = none
  rw [q3]; exact h1

theorem memTests_3 (s : State) (t : BitVec 64) (w : Word) (hb : s.blocksUp = true) : (s.mode.mode = .test → s.mode.trans = none →
    (∀ x, s.mem.test = some x → ∃ u, exec (.memTestAbort t w) s = .next u ∧ u.mem.test = some { x with abort := true })) := by
  intro hm ht x hx
  refine ⟨_, congrArg Host.Outcome.next (if_pos hb), ?_⟩
  unfold State.wrTestCtl
  dsimp only
  have b2 : getF (setF w 30 30 1) 30 30 = 1 := getF_setF _ _ _ _ (by decide) (by decide)
  have b3 : ((s.at t).mode.mode == Mode.test && (s.at t).mode.trans.isNone) = true := by
    show (s.mode.mode == Mode.test && s.mode.trans.isNone) = true
    rw [hm, ht]; rfl
  rw [if_neg (by rw [b3]; simp), if_pos ⟨b2, by show s.mem.test.isSome = true; rw [hx]; rfl⟩]
  show s.mem.test.map _ = _
  rw [hx]; rfl

theorem zero_read (m : Mem) (b n a : Nat) : (Mem.zero m b n).read a = if b ≤ a ∧ a < b + n then 0 else m.read a := by
  unfold Mem.zero Mem.read
  induction m with
  | nil => split_ifs <;> rfl
  | cons p m ih =>
    obtain ⟨j, v⟩ := p
    by_cases hj : j < b ∨ b + n ≤ j
    · rw [List.filter_cons_of_pos (by simpa using hj)]
      by_cases h : j = a
      · subst h
        rw [if_neg (by omega)]
        simp [Tab.get]
      · simp only [Tab.get, if_neg h]; exact ih
    · rw [List.filter_cons_of_neg (by simpa using hj), ih]
      by_cases h : j = a
      · subst h; rw [if_pos (by omega), if_pos (by omega)]
      · simp only [Tab.get, if_neg h]

theorem memTests_4 (s : State) (t : BitVec 64) : (∀ (x : MemTest) (fails : Nat) (first : BitVec 64) (sym : Fin 68), s.mem.test = some x →
    ∃ u, exec (.memTestEnd t fails first sym) s = .next u ∧ u.mem.test = none ∧
      u.mem.failAddr = (if 0 < fails then first.toNat else 0) ∧
      u.count .memTestFailCnt = min 0xFFFFFFFF (s.count .memTestFailCnt + fails) ∧
      (x.abort = false → u.mem.stat % 16 = (if fails = 0 then 6 else 2)) ∧ (x.abort = true → u.mem.stat / 16 % 2 = 1) ∧
      (∀ a, u.hbm.read a = if x.target = 0 ∧ 64 * x.base ≤ a ∧ a < 64 * (x.base + x.len) then 0 else s.hbm.read a) ∧
      (s.mode.mode = .test → s.mode.trans = none → u.mode.trans = some (.ready, (s.at t).now + 10 * us))) := by
  intro x fails first sym hx
  refine ⟨_, rfl, ?_⟩
  have hx : (s.at t).mem.test = some x := hx
  have e1 : s.count .memTestFailCnt = (s.at t).count .memTestFailCnt := rfl
  have e2 : s.hbm = (s.at t).hbm := rfl
  have e3 : s.mode = (s.at t).mode := rfl
  rw [e1, e2, e3]
  generalize s.at t = a at *
  unfold State.testEnd
  rw [hx]
  dsimp only
  generalize hz : (a.testOutcome x fails first.toNat sym.val).reinit x = z
  have K : z.mem.test = none ∧ z.mem.failAddr = (if 0 < fails then first.toNat else 0) ∧
      z.count .memTestFailCnt = min 0xFFFFFFFF (a.count .memTestFailCnt + fails) ∧
      (x.abort = false → z.mem.stat % 16 = (if fails = 0 then 6 else 2)) ∧ (x.abort = true → z.mem.stat / 16 % 2 = 1) ∧
      (∀ b, z.hbm.read b = if x.target = 0 ∧ 64 * x.base ≤ b ∧ b < 64 * (x.base + x.len) then 0 else a.hbm.read b) := by
    have m1 : z.mem.test = (a.testOutcome x fails first.toNat sym.val).mem.test ∧ z.mem.failAddr = (a.testOutcome x fails first.toNat sym.val).mem.failAddr ∧
        z.mem.stat = (a.testOutcome x fails first.toNat sym.val).mem.stat ∧ z.counts = (a.testOutcome x fails first.toNat sym.val).counts := by
      rw [← hz]
      unfold State.reinit
      dsimp only
      split_ifs <;> exact ⟨rfl, rfl, rfl, rfl⟩
    have m2 : z.hbm = if x.target = 0 then a.hbm.zero (64 * x.base) (64 * x.len) else a.hbm := by
      rw [← hz]
      unfold State.reinit
      dsimp only
      split_ifs <;> rfl
    refine ⟨m1.1, m1.2.1, ?_, ?_, ?_, ?_⟩
    · unfold State.count
      rw [m1.2.2.2]
      exact count_bump ..
    · intro h
      rw [m1.2.2.1]
      unfold State.testOutcome
      dsimp only [State.setMem]
      rw [h]
      by_cases hf : fails = 0
      · subst hf; rfl
      · rw [if_neg hf]
        simp only [hf, decide_false, b2n]
        split_ifs <;> simp at * <;> omega
    · intro h
      rw [m1.2.2.1]
      unfold State.testOutcome
      dsimp only [State.setMem]
      rw [h]
      simp only [if_true]
      split_ifs <;> omega
    · intro b
      rw [m2]
      by_cases ht : x.target = 0
      · rw [if_pos ht, zero_read]
        simp only [ht, true_and, Nat.mul_add]
      · rw [if_neg ht, if_neg (by tauto)]
  have m3 : z.mode = a.mode ∧ z.now = a.now := by
    have h1 := State.testOutcome_touches a x fails first.toNat sym.val
    have h2 := State.reinit_touches (a.testOutcome x fails first.toNat sym.val) x
    rw [hz] at h2
    exact ⟨(h2.keeps .mode rfl).trans (h1.keeps .mode rfl), (h2.keeps .now rfl).trans (h1.keeps .now rfl)⟩
  by_cases c : z.mode.mode = .test ∧ z.mode.trans = none
  · rw [if_pos c]
    obtain ⟨k1, k2, k3, k4, k5, k6⟩ := K
    exact ⟨k1, k2, k3, k4, k5, k6, fun _ _ => by rw [← m3.2]; rfl⟩
  · rw [if_neg c]
    obtain ⟨k1, k2, k3, k4, k5, k6⟩ := K
    exact ⟨k1, k2, k3, k4, k5, k6, fun h1 h2 => absurd ⟨by rw [m3.1]; exact h1, by rw [m3.1]; exact h2⟩ c⟩

end Sys2Proof
end

