-- ==== Sys2Proof/Laws/StrandWrites.lean ====
section
/-! SUPPORT. Steps of the commands of one kind: writes to a strand. -/

namespace Sys2Proof

open Sys2Proof.Machine

theorem owner_lt (s : State) (k u : Nat) : s.owner k u < 8 := by
  have := getF_lt (s.reg (.seqOwn k u)) 2 0
  simpa [State.owner, State.fld] using this

theorem idle_any {s a : State} {k : Nat} (h : strandIdle s k = true) (e : a.cores = s.cores) (us : List Nat) : a.anyActive k us = false := by
  unfold State.anyActive State.ownersOf
  rw [List.any_map, List.any_eq_false]
  intro u _
  simp only [Function.comp]
  rw [State.core_ofCores e]
  have := List.all_eq_true.1 h (a.owner k u) (List.mem_range.2 (owner_lt ..))
  simpa using this

theorem get_range_map (f : Nat → Word) (n m : Nat) (h : m < n) : Tab.get ((List.range n).map (fun i => (i, f i))) m 0 = f m := by
  have key : ∀ (l : List Nat), m ∈ l → Tab.get (l.map (fun i => (i, f i))) m 0 = f m := by
    intro l
    induction l with
    | nil => simp
    | cons x l ih =>
      intro hm
      by_cases e : x = m
      · subst e; simp [Tab.get]
      · rcases List.mem_cons.1 hm with rfl | hm
        · exact absurd rfl e
        · simpa [Tab.get, e] using ih hm
  exact key _ (List.mem_range.2 h)

/-- What a write leaves in the registers depends on the registers alone (R14, R17). -/
theorem writeFields_regs {s t : State} (h : t.regs = s.regs) (r : RegId) (w : Word) : (t.writeFields r w).regs = (s.writeFields r w).regs := by
  have e : ∀ a : State, (a.writeFields r w).regs = (State.writeFields { regs := a.regs } r w).regs := by
    intro a
    have f : ∀ (l : List Setting) (x y : State), x.regs = y.regs → (l.foldl State.applySetting x).regs = (l.foldl State.applySetting y).regs := by
      intro l
      induction l with
      | nil => intro x y h; exact h
      | cons z l ih =>
        intro x y h
        exact ih _ _ (by simp [State.applySetting, State.setFld, reg_of h, h])
    have g : a.reg r = State.reg { regs := a.regs } r := rfl
    unfold State.writeFields
    dsimp only
    rw [← g]
    split_ifs
    · rfl
    · exact f _ _ _ rfl
    · cases r.profileOf <;> rfl
  rw [e t, e s, h]

end Sys2Proof
end

