-- ==== Sys2Proof/Laws/WallClock.lean ====
section
/-! SUPPORT. Steps of the commands of one kind: the wall clock. -/

namespace Sys2Proof

open Sys2Proof.Machine

/-- What frames that leave do not change of the time servo (R272). -/
def pCore (p : PtpSt) : PtpSt := { p with list := [], sent := [], tsDropped := false }

structure pKeeps (s t : State) : Prop where
  eq : pCore t.ptp = pCore s.ptp

theorem pKeeps.refl (s : State) : pKeeps s s := ⟨rfl⟩

theorem pKeeps.then {l : List Part} {s t u : State} (a : pKeeps s t) (h : Touches l t u) (hl : l.contains .ptp = false) : pKeeps s u :=
  ⟨by rw [ptp_of h hl]; exact a.eq⟩

theorem pKeeps.set {s a : State} (x : PtpSt) (ha : pKeeps s a) (h : pCore x = pCore a.ptp) : pKeeps s (a.setPtp x) := ⟨h.trans ha.eq⟩

theorem pKeeps.ite {c : Prop} [Decidable c] {s a b : State} (ha : pKeeps s a) (hb : pKeeps s b) : pKeeps s (if c then a else b) := by
  split_ifs <;> assumption

theorem pKeeps.bump {s a : State} (r : RegId) (n : Nat) (h : pKeeps s a) : pKeeps s (a.bump r n) := h.then (State.bump_touches ..) rfl

theorem pKeeps.raise {s a : State} (e : Ev) (n m t : Nat) (as : List Word) (h : pKeeps s a) : pKeeps s (a.raise e n m t as) :=
  h.then (State.raise_touches ..) rfl

theorem pKeeps.stamp {s a : State} (bs : List Byte) (h : pKeeps s a) : pKeeps s (a.stamp bs) := by
  have drop : ∀ b : State, pKeeps s b → pKeeps s (if (b.bump .ptpTsDrop 1).ptp.tsDropped then b.bump .ptpTsDrop 1
      else ((b.bump .ptpTsDrop 1).setPtp { (b.bump .ptpTsDrop 1).ptp with tsDropped := true }).raise .tsLost 0 0 (up8 b.now) []) := by
    intro b k
    refine pKeeps.ite (k.bump ..) (pKeeps.raise _ _ _ _ _ ((k.bump ..).set _ rfl))
  unfold State.stamp
  dsimp only
  split
  · exact drop _ h
  · split
    · exact drop _ (h.then (State.dropPacket_touches ..) rfl)
    · exact (h.then (State.pushPacket_touches ..) rfl).set _ rfl

theorem pKeeps.sendFrameNow {s a : State} (f : Frame) (late : Bool) (h : pKeeps s a) : pKeeps s (a.sendFrameNow f late) := by
  unfold State.sendFrameNow
  dsimp only
  refine pKeeps.then (pKeeps.then ?_ (State.complete_touches ..) rfl) (State.drained_touches ..) rfl
  have k : pKeeps s (a.setPtp { a.ptp with sent := { portB := f.portB, at' := a.now, late := late, bytes := f.bytes } :: a.ptp.sent }) := h.set _ rfl
  exact pKeeps.ite (k.stamp _) k

theorem pKeeps.lateFrame {s a : State} (f : Frame) (h : pKeeps s a) : pKeeps s (a.lateFrame f) := by
  unfold State.lateFrame
  dsimp only
  exact pKeeps.ite (pKeeps.then (pKeeps.then (h.raise ..) (State.complete_touches ..) rfl) (State.drained_touches ..) rfl) ((h.raise ..).sendFrameNow ..)

theorem pKeeps.passFrames (n : Nat) {s a : State} (h : pKeeps s a) : pKeeps s (a.passFrames n) := by
  induction n generalizing a with
  | zero => exact h
  | succ n ih =>
    unfold State.passFrames
    split
    · exact h
    · exact ih (pKeeps.lateFrame _ (h.set _ rfl))

theorem stepWall_ptp (s : State) (b v d c : Nat) : pCore (s.stepWall b v d c).ptp = pCore { s.ptp with base := v, at' := b } := by
  unfold State.stepWall
  dsimp only
  have k : ∀ ws, pKeeps (State.setPtp (s.clockTo b) { (s.clockTo b).ptp with base := v, at' := b }) ((State.setPtp (s.clockTo b) { (s.clockTo b).ptp with base := v, at' := b }).raise .ptpStep 0 0 b ws) :=
    fun ws => (pKeeps.refl _).raise ..
  exact (pKeeps.ite ((k _).passFrames _) (k _)).eq

theorem ptp_write (a : State) (w : Word) (hp : getF w 31 24 = 0xFF) (h3 : getF w 3 3 = 0) (h4 : getF w 4 4 = 0) :
    ∃ z : State, z.ptp = a.ptp ∧ z.now = a.now ∧ (∀ r : RegId, r.off ≠ RegId.ptpCtl.off → z.reg r = a.reg r) ∧ a.wrPtpCtl w = (
      let b := next8 a.now
      let s4 := if getF w 6 6 = 1 then
          let ns := z.reg64 .ptpWallSecLo .ptpWallSecHi * 1000000000 + (z.reg .ptpWallNs).toNat
          let a := z.stepWall b (ns * wallNs) z.ptp.sel 2
          a.setPtp { a.ptp with valid := true }
        else z
      let s5 := if z.ptp.valid = false ∧ s4.ptp.valid = true then s4.passFrames s4.ptp.list.length else s4
      if getF w 5 5 = 1 then
        let ns := s5.ptp.ns b
        (s5.clockTo b).setPtp { s5.ptp with snapTime := b, snapSec := ns / 1000000000 % 2 ^ 48, snapNs := ns % 1000000000 }
      else s5) := by
  have cd : RegId.codeOf .ptpCtl (a.reg .ptpCtl) w = 0xFF := by
    unfold RegId.codeOf
    have : (RegId.fields .ptpCtl).find? (fun f => decide (f.lo = 24)) = some ⟨31, 24, .rw, 0, [(0, 2), (255, 255)]⟩ := rfl
    rw [this]
    dsimp only
    rw [hp]; rfl
  have e : a.writeFields .ptpCtl w = a.setReg .ptpCtl (RegId.mergeX .ptpCtl (a.reg .ptpCtl) w) := by
    unfold State.writeFields
    dsimp only
    rw [cd]; rfl
  refine ⟨a.setReg .ptpCtl (RegId.mergeX .ptpCtl (a.reg .ptpCtl) w), rfl, rfl, fun r hr => State.reg_setReg_ne _ _ _ _ hr, ?_⟩
  unfold State.wrPtpCtl
  rw [e, h3, h4]
  simp only [Nat.zero_ne_one, if_false]

theorem reg64_congr {a z : State} (h : ∀ r : RegId, r.off ≠ RegId.ptpCtl.off → z.reg r = a.reg r) :
    z.reg64 .ptpWallSecLo .ptpWallSecHi = a.reg64 .ptpWallSecLo .ptpWallSecHi ∧ z.reg .ptpWallNs = a.reg .ptpWallNs := by
  unfold State.reg64
  rw [h _ (by decide), h _ (by decide), h _ (by decide)]
  exact ⟨rfl, rfl⟩

theorem wallClock_1 (s : State) (t : BitVec 64) : (∀ w, s.blocksUp = true → getF w 31 24 = 0xFF → getF w 3 3 = 0 → getF w 4 4 = 0 →
    (getF w 5 5 = 0 → ∃ u, exec (.wallset t w) s = .next u ∧ u.ptp.valid = true ∧ u.ptp.at' = next8 (s.at t).now ∧
      u.ptp.base = (s.reg64 .ptpWallSecLo .ptpWallSecHi * 1000000000 + (s.reg .ptpWallNs).toNat) * wallNs) ∧
    (getF w 6 6 = 0 → ∃ u, exec (.snap t w) s = .next u ∧ u.ptp.snapTime = next8 (s.at t).now ∧
      u.ptp.snapSec = s.ptp.ns (next8 (s.at t).now) / 1000000000 % 2 ^ 48 ∧
      u.ptp.snapNs = s.ptp.ns (next8 (s.at t).now) % 1000000000)) := by
  intro w hb hp h3 h4
  have sf : ∀ n h l, n < 32 → l ≤ h → h < n ∨ n < l → h < 32 → getF (setF w n n 1) h l = getF w h l := fun n h l k1 k2 k3 k4 =>
    getF_setF_ne _ _ _ _ _ _ k1 le_rfl ⟨k2, k3⟩
  have s1 : ∀ n, n < 32 → getF (setF w n n 1) n n = 1 := fun n hn => by rw [getF_setF _ _ _ _ hn le_rfl]; simp
  refine ⟨fun h5 => ⟨_, congrArg Host.Outcome.next (State.hubWrite_up _ _ _ hb), ?_⟩, fun h6 => ⟨_, congrArg Host.Outcome.next (State.hubWrite_up _ _ _ hb), ?_⟩⟩
  · obtain ⟨z, z1, z2, z3, e⟩ := ptp_write (s.at t) (setF w 6 6 1) (by rw [sf _ _ _ (by decide) (by decide) (by decide) (by decide)]; exact hp)
      (by rw [sf _ _ _ (by decide) (by decide) (by decide) (by decide)]; exact h3) (by rw [sf _ _ _ (by decide) (by decide) (by decide) (by decide)]; exact h4)
    rw [e, s1 6 (by decide), sf 6 5 5 (by decide) (by decide) (by decide) (by decide), h5]
    simp only [Nat.zero_ne_one, if_false, if_true]
    obtain ⟨r1, r2⟩ := reg64_congr z3
    rw [r1, r2]
    have k := stepWall_ptp z (next8 (s.at t).now) (((s.at t).reg64 .ptpWallSecLo .ptpWallSecHi * 1000000000 + ((s.at t).reg .ptpWallNs).toNat) * wallNs) z.ptp.sel 2
    generalize z.stepWall _ _ _ _ = y at *
    have c1 := congrArg PtpSt.at' k
    have c2 := congrArg PtpSt.base k
    simp only [pCore] at c1 c2
    have q : pKeeps (y.setPtp { y.ptp with valid := true }) (if z.ptp.valid = false ∧ (y.setPtp { y.ptp with valid := true }).ptp.valid = true
        then (y.setPtp { y.ptp with valid := true }).passFrames (y.setPtp { y.ptp with valid := true }).ptp.list.length else (y.setPtp { y.ptp with valid := true })) :=
      pKeeps.ite (pKeeps.passFrames _ (pKeeps.refl _)) (pKeeps.refl _)
    refine ⟨congrArg PtpSt.valid q.eq, ?_, ?_⟩
    · exact (congrArg PtpSt.at' q.eq).trans c1
    · exact (congrArg PtpSt.base q.eq).trans c2
  · obtain ⟨z, z1, z2, z3, e⟩ := ptp_write (s.at t) (setF w 5 5 1) (by rw [sf _ _ _ (by decide) (by decide) (by decide) (by decide)]; exact hp)
      (by rw [sf _ _ _ (by decide) (by decide) (by decide) (by decide)]; exact h3) (by rw [sf _ _ _ (by decide) (by decide) (by decide) (by decide)]; exact h4)
    rw [e, s1 5 (by decide), sf 5 6 6 (by decide) (by decide) (by decide) (by decide), h6]
    simp only [Nat.zero_ne_one, if_false, if_true]
    have c : ¬ (z.ptp.valid = false ∧ z.ptp.valid = true) := by rintro ⟨a, b⟩; rw [a] at b; cases b
    rw [if_neg c]
    have zz : z.ptp = s.ptp := z1
    refine ⟨rfl, ?_, ?_⟩
    · show z.ptp.ns _ / _ % _ = _
      rw [zz]
    · show z.ptp.ns _ % _ = _
      rw [zz]

theorem dom_set (p : PtpSt) (k : Nat) (d : Dom) : (p.setDom k d).dom k = d := by
  unfold PtpSt.setDom PtpSt.dom
  split_ifs <;> rfl

theorem dom_set_ne (p : PtpSt) (k : Fin 2) (d : Dom) : (p.setDom k d).dom (1 - k : Fin 2).val = p.dom (1 - k : Fin 2).val := by
  unfold PtpSt.setDom PtpSt.dom
  fin_cases k <;> rfl

theorem unlock_ptp (a : State) (b : Bool) (k : Nat) : (a.unlockEvent b k).ptp = a.ptp := ptp_of (State.unlockEvent_touches ..) rfl

theorem servo_ptp (a : State) (th : Int) : (a.servo th).ptp.integ = clampRate (a.ptp.integ + (a.fld .ptpServo 31 16 : Nat) * th) ∧
    (a.servo th).ptp.rate = clampRate (-((a.fld .ptpServo 15 0 : Nat) * th + clampRate (a.ptp.integ + (a.fld .ptpServo 31 16 : Nat) * th))) ∧
    ∀ k, (a.servo th).ptp.dom k = a.ptp.dom k := ⟨rfl, rfl, fun _ => rfl⟩

/-- Domain data that a reselection does not change (R267). -/
theorem reselect_dom (a : State) (k : Nat) : ∃ n, (a.reselect).ptp.dom k = { a.ptp.dom k with big := n } := by
  have sd : ∀ x, ∃ n, (a.selectDom x).ptp.dom k = { a.ptp.dom k with big := n } := by
    intro x
    unfold State.selectDom
    dsimp only
    split_ifs with h
    · exact ⟨_, rfl⟩
    · rw [ptp_of (State.raise_touches ..) rfl]
      by_cases hk : k = 0 <;> by_cases hx : x = 0 <;> simp only [State.setPtp, PtpSt.setDom, PtpSt.dom, hk, hx, if_true, if_false] <;> exact ⟨_, rfl⟩
  unfold State.reselect
  dsimp only
  generalize (if a.ptp.sel = 0 then _ else _ : Nat) = x
  obtain ⟨n, e⟩ := sd x
  refine ⟨n, ?_⟩
  split_ifs
  · exact e
  · exact e

theorem wallClock_3 (s : State) (t : BitVec 64) : (∀ k : Fin 2, ∃ u, exec (.announceTimeout t k) s = .next u ∧ (u.ptp.dom k).locked = none) := by
  intro k
  refine ⟨_, rfl, ?_⟩
  obtain ⟨n, e⟩ := reselect_dom (((s.at t).setPtp ((s.at t).ptp.setDom k { (s.at t).ptp.dom k with locked := none, below := 0 })).unlockEvent ((s.at t).ptp.dom k).locked.isSome k) k
  rw [e, unlock_ptp]
  show ((((s.at t).ptp.setDom k { (s.at t).ptp.dom k with locked := none, below := 0 })).dom k).locked = none
  rw [dom_set]

theorem wallClock_4 (s : State) (t : BitVec 64) : (∀ l, s.ptp.dom0.locked = some l → s.ptp.sel = 1 → l + s.qual ≤ (s.at t).now →
    ∃ u, exec (.ptpDomainReturn t) s = .next u ∧ u.ptp.sel = 0) := by
  intro l h1 h2 h3
  show ∃ u, execPtpDomainReturn t s = .next u ∧ _
  unfold execPtpDomainReturn
  have k1 : (s.at t).ptp.dom0.locked = some l := h1
  dsimp only
  rw [k1]
  dsimp only
  have k2 : (s.at t).ptp.sel = 1 := h2
  rw [if_pos ⟨k2, h3⟩]
  refine ⟨_, rfl, ?_⟩
  unfold State.selectDom
  rw [if_neg (by rw [k2]; decide)]
  dsimp only
  rw [ptp_of (State.raise_touches ..) rfl]
  rfl

theorem big_dom (a : State) (k : Nat) (th : Int) : ∃ n, ((a.bigSample k th).ptp.dom k) = { a.ptp.dom k with big := n } := by
  unfold State.bigSample
  dsimp only
  generalize (if 0 < th then _ else _ : Int) = n
  have dc : ∀ p q : PtpSt, pCore p = pCore q → p.dom k = q.dom k := by
    intro p q h
    have h0 : (pCore p).dom0 = (pCore q).dom0 := congrArg PtpSt.dom0 h
    have h1 : (pCore p).dom1 = (pCore q).dom1 := congrArg PtpSt.dom1 h
    simp only [pCore] at h0 h1
    unfold PtpSt.dom
    rw [h0, h1]
  by_cases c : n.natAbs < 4
  · rw [if_pos c]
    refine ⟨n, ?_⟩
    show (PtpSt.dom (a.ptp.setDom k { a.ptp.dom k with big := n }) k) = _
    rw [dom_set]
  · rw [if_neg c]
    refine ⟨0, (dc _ _ (stepWall_ptp ..)).trans ?_⟩
    show (PtpSt.dom (a.ptp.setDom k { a.ptp.dom k with big := 0 }) k) = _
    rw [dom_set]

theorem sample_offset (d : Dom) (thr : Nat) (th : Int) (n : Nat) : (d.sample thr th n).offset = satI 32 th := by
  unfold Dom.sample
  dsimp only
  split_ifs <;> rfl

theorem wallClock_2 (s : State) (t : BitVec 64) : (∀ (k : Fin 2) (theta : Int), s.fld (.ptpDom k) 31 31 = 1 → s.fld .ptpCtl 1 0 ≠ 0 →
    (if s.ptp.onB then s.ptp.bUp else s.ptp.aUp) = true → s.ptp.stale = false → s.ethOn = true →
    ∃ u, exec (.ptpEventMessage t k theta) s = .next u ∧ (u.ptp.dom k).offset = satI 32 theta ∧
      (s.ptp.sel = k → (s.ptp.dom (1 - k : Fin 2)).locked = none → theta.natAbs < 1000000 →
        u.ptp.integ = clampRate (s.ptp.integ + (s.fld .ptpServo 31 16 : Nat) * theta) ∧
        u.ptp.rate = clampRate (-((s.fld .ptpServo 15 0 : Nat) * theta + clampRate (s.ptp.integ + (s.fld .ptpServo 31 16 : Nat) * theta))))) := by
  intro k th h1 h2 h3 h4 h5
  refine ⟨_, rfl, ?_⟩
  have c : ¬ ((s.at t).fld (.ptpDom k) 31 31 = 0 ∨ (s.at t).fld .ptpCtl 1 0 = 0 ∨ (if (s.at t).ptp.onB then (s.at t).ptp.bUp else (s.at t).ptp.aUp) = false ∨
      (s.at t).ptp.stale = true ∨ (s.at t).ethOn = false) := by
    show ¬ (s.fld (.ptpDom k) 31 31 = 0 ∨ s.fld .ptpCtl 1 0 = 0 ∨ (if s.ptp.onB then s.ptp.bUp else s.ptp.aUp) = false ∨ s.ptp.stale = true ∨ s.ethOn = false)
    rw [h1, h3, h4, h5]; simp [h2]
  unfold State.ptpSample
  dsimp only
  rw [if_neg c]
  have P : (((s.at t).setPtp ((s.at t).ptp.setDom k (((s.at t).ptp.dom k).sample ((s.at t).fld .ptpLockThr 15 0) th (s.at t).now))).unlockEvent ((s.at t).ptp.dom k).locked.isSome k).ptp =
      s.ptp.setDom k ((s.ptp.dom k).sample (s.fld .ptpLockThr 15 0) th (s.at t).now) := unlock_ptp ..
  have R := (State.unlockEvent_touches ((s.at t).setPtp ((s.at t).ptp.setDom k (((s.at t).ptp.dom k).sample ((s.at t).fld .ptpLockThr 15 0) th (s.at t).now))) ((s.at t).ptp.dom k).locked.isSome k).keeps .regs rfl
  generalize State.unlockEvent _ _ _ = a at *
  have R' : a.regs = s.regs := R
  have ao : (a.ptp.dom k).offset = satI 32 th := by rw [P, dom_set]; exact sample_offset ..
  obtain ⟨n, rd⟩ := reselect_dom a k
  have ro : (a.reselect.ptp.dom k).offset = satI 32 th := by rw [rd]; exact ao
  have rr : a.reselect.regs = s.regs := ((State.reselect_touches a).keeps .regs rfl).trans R'
  refine ⟨?_, ?_⟩
  · generalize a.reselect = b at *
    split_ifs
    · exact ro
    · obtain ⟨m, e⟩ := big_dom b k th
      rw [e]; exact ro
    · rw [(servo_ptp _ _).2.2]
      show (PtpSt.dom (b.ptp.setDom k { b.ptp.dom k with big := 0 }) k).offset = _
      rw [dom_set]; exact ro
  · intro k1 k2 k3
    have se : a.ptp.sel = k := by
      rw [P, ← k1]; unfold PtpSt.setDom; split_ifs <;> rfl
    have ig : a.ptp.integ = s.ptp.integ := by rw [P]; unfold PtpSt.setDom; split_ifs <;> rfl
    have ot : (a.ptp.dom (1 - k : Fin 2).val).locked = none := by rw [P, dom_set_ne]; exact k2
    have rs : a.reselect.ptp.sel = k ∧ a.reselect.ptp.integ = s.ptp.integ := by
      unfold State.reselect
      have x : (if a.ptp.sel = 0 then (if !a.ptp.dom0.locked.isSome && a.ptp.dom1.locked.isSome then 1 else 0)
          else (if !a.ptp.dom1.locked.isSome && a.ptp.dom0.locked.isSome then 0 else 1)) = a.ptp.sel := by
        rw [se]
        fin_cases k
        · have : a.ptp.dom1.locked = none := ot
          simp [this]
        · have : a.ptp.dom0.locked = none := ot
          simp [this]
      dsimp only
      rw [x]
      have y : a.selectDom a.ptp.sel = a := by unfold State.selectDom; rw [if_pos rfl]
      rw [y]
      split_ifs
      · exact ⟨se, ig⟩
      · exact ⟨se, ig⟩
    generalize a.reselect = b at *
    rw [if_neg (by simp [rs.1]), if_neg (by omega)]
    obtain ⟨q1, q2, _⟩ := servo_ptp (b.setPtp (b.ptp.setDom k { b.ptp.dom k with big := 0 })) th
    have bi : (b.ptp.setDom k { b.ptp.dom k with big := 0 }).integ = s.ptp.integ := by
      rw [← rs.2]; unfold PtpSt.setDom; split_ifs <;> rfl
    have f1 : ∀ x y, (b.setPtp (b.ptp.setDom k { b.ptp.dom k with big := 0 })).fld .ptpServo x y = s.fld .ptpServo x y := fun x y => State.fld_congr rr ..
    have bi' : (b.setPtp (b.ptp.setDom k { b.ptp.dom k with big := 0 })).ptp.integ = s.ptp.integ := bi
    rw [f1, bi'] at q1
    rw [f1, f1, bi'] at q2
    exact ⟨q1, q2⟩

end Sys2Proof
end

