-- ==== Sys2Proof/Tests/Slice0.lean ====
section
/-! SUPPORT. Tests: commands that the check of WellFormed.lean refuses, and for every obligation with hypotheses a small
state and operands that meet them, clause by clause; then single steps with results worked out by hand from the rules. -/

namespace Sys2Proof.Tests

open Sys2Proof Sys2Proof.Machine

set_option Elab.async false

-- commands no sender can form

/-- A report on an image with no fault. -/
def good : ImageCheck :=
  { digestOk := true, sigOk := true, tagOk := true, plain := [], readbackOk := true, flashOk := true }

theorem test_illformed_boot : Instr.wellFormed (.mainsOn 0 (List.replicate 21 320) good good true) = false ∧
    Instr.wellFormed (.mainsOn 0 (List.replicate 22 320) good good true) = true := by decide

/-- An image holds no more than 327,712 bytes of microcode. -/
theorem test_illformed_image : ∀ c : ImageCheck, c.plain.length = 327713 →
    Instr.wellFormed (.mainsOn 0 (List.replicate 22 320) c good true) = false ∧ Instr.wellFormed (.bootComplete 0 true good c) = false ∧
    Instr.wellFormed (.mcRestart 0 c good) = false ∧ Instr.wellFormed (.imgCommit 0 c true) = false := by
  intro c h
  have h0 : c.wellFormed = false := by unfold ImageCheck.wellFormed; rw [h]; rfl
  simp [Instr.wellFormed, h0]

theorem test_illformed_sensors : Instr.wellFormed (.dieSensorRead 0 [320]) = false ∧
    Instr.wellFormed (.thermistorRead 0 [none, some 320]) = false ∧ Instr.wellFormed (.scrubRead 0 [3, 3]) = false ∧
    Instr.wellFormed (.scrubRead 0 [3, 4]) = true := by decide

theorem test_illformed_ranges : Instr.wellFormed (.rawDrainDone 0 0 0 (List.replicate 65537 0)) = false ∧
    Instr.wellFormed (.sramScrub 0 (.seqSram 0) (2 ^ 17) .single) = false ∧
    Instr.wellFormed (.sramScrub 0 (.envTable 0) 8192 .single) = false ∧
    Instr.wellFormed (.sramScrub 0 .burst (2 ^ 20) .single) = false ∧
    Instr.wellFormed (.hitchContainer 0 false 0 (2 ^ 64) none) = false ∧
    Instr.wellFormed (.sidebandFrame 0 (2 ^ 64) (.down true)) = false ∧
    Instr.wellFormed (.slotFrameSend (2 ^ 64)) = false ∧ Instr.wellFormed (.syncPulse (2 ^ 70)) = false := by decide +kernel

theorem test_illformed_buffers : ∀ e : Option Nat, e = some (2 ^ 30) →
    Instr.wellFormed (.regwrite 0 0 e) = false ∧ Instr.wellFormed (.seqload 0 0 e) = false ∧
    Instr.wellFormed (.envload 0 0 e) = false ∧ Instr.wellFormed (.envtable 0 0 e) = false ∧
    Instr.wellFormed (.kernel 0 0 e) = false ∧ Instr.wellFormed (.truthtable 0 0 e) = false ∧
    Instr.wellFormed (.hbmxfer 0 0 e) = false ∧ Instr.wellFormed (.qwrite 0 0 e) = false ∧
    Instr.wellFormed (.qread 0 0 e) = false ∧ Instr.wellFormed (.qflush 0 0 e) = false ∧
    Instr.wellFormed (.ethsend 0 0 e) = false ∧ Instr.wellFormed (.nop 0 0 e) = false := by
  intro e h; subst h; decide

-- states for the witnesses

/-- A module in a mode, with its supply on, its reference valid, its controller running, P0 locked and S0 ungated. -/
def inMode (m : Mode) : State :=
  { supply := .on, now := 1000000, mode := { mode := m, plyPower := true, ucValid := true, served := true },
    sync := { refValid := true, src := true, clkLock := true }, mc := { running := true },
    plies := [(0, { st := .locked })], strands := [(0, { gate := .ungated })] }

def ready : State := inMode .ready
def running : State := inMode .run

/-- A state with a mode change under way. -/
def toward (a m : Mode) : State := { inMode a with mode := { (inMode a).mode with trans := some (m, 1000100) } }

/-- States and operands for ModeRequestsAccepted. -/
theorem witness_mode_requests :
    ((ready.upTo 0).mode.trans = none ∧ noHoldCause (ready.upTo 0) ∧ (ready.upTo 0).mode.mode = .ready) ∧
    ((running.upTo 0).mode.trans = none ∧ noHoldCause (running.upTo 0) ∧ (running.upTo 0).mode.mode = .run) ∧
    (((inMode .safe).upTo 0).mode.trans = none ∧ noHoldCause ((inMode .safe).upTo 0) ∧ ((inMode .safe).upTo 0).mode.mode = .safe ∧
      ((inMode .safe).upTo 0).mode.causes.all ((inMode .safe).upTo 0).causeClear = true ∧ ((inMode .safe).upTo 0).mode.ucValid = true ∧
      ((inMode .safe).upTo 0).mode.full = false ∧ ((inMode .safe).upTo 0).mem.test = none) := by
  unfold noHoldCause; decide +kernel

/-- States and operands for ModeRequestsRefused. -/
theorem witness_mode_refusals :
    -- REQ_RUN and REQ_CALIBRATE in SAFE, REQ_HOLD and REQ_READY in READY, REQ_DORMANT in RUN
    (((inMode .safe).upTo 0).mode.trans = none ∧ noHoldCause ((inMode .safe).upTo 0) ∧ ((inMode .safe).upTo 0).mode.mode ≠ .dormant ∧
      ((inMode .safe).upTo 0).mode.mode ≠ .ready ∧ ((inMode .safe).upTo 0).mode.mode ≠ .hold) ∧
    ((ready.upTo 0).mode.trans = none ∧ noHoldCause (ready.upTo 0) ∧ (ready.upTo 0).mode.mode ≠ .dormant ∧ (ready.upTo 0).mode.mode ≠ .run ∧
      (ready.upTo 0).mode.mode ∉ [Mode.run, .hold, .calibrate, .test] ∧
      ((ready.upTo 0).mode.mode ≠ .safe ∨ (ready.upTo 0).mode.causes.all (ready.upTo 0).causeClear = false ∨ (ready.upTo 0).mode.ucValid = false)) ∧
    ((running.upTo 0).mode.trans = none ∧ noHoldCause (running.upTo 0) ∧ (running.upTo 0).mode.mode ≠ .dormant ∧ (running.upTo 0).mode.mode ≠ .ready ∧
      (running.upTo 0).mode.mode ≠ .safe) := by
  unfold noHoldCause; decide +kernel

/-- States and operands for ModeEntriesComplete. -/
theorem witness_mode_entries :
    ((toward .ready .run).mode.trans = some (.run, 1000100) ∧ (toward .ready .run).mode.mode = .ready) ∧
    ((toward .run .ready).mode.trans = some (.ready, 1000100) ∧ (toward .run .ready).mode.mode ≠ .boot) ∧
    ((toward .safe .boot).mode.trans = some (.boot, 1000100) ∧ (toward .safe .boot).mode.mode ≠ .boot) ∧
    ((toward .run .safe).mode.trans = some (.safe, 1000100) ∧ (toward .run .safe).mode.pend = none) ∧
    ((toward .run .hold).mode.trans = some (.hold, 1000100) ∧ (toward .run .hold).mode.mode = .run) ∧
    ((toward .hold .run).mode.trans = some (.run, 1000100) ∧ (toward .hold .run).mode.mode = .hold) := by decide

/-- States and operands for ModeEntriesComplete (BOOT). -/
theorem witness_boot_complete : (toward .boot .ready).mode.trans = some (.ready, 1000100) ∧
    (toward .boot .ready).mode.mode = .boot ∧
    ((toward .boot .ready).clockTo (min (1000050 : BitVec 64).toNat 1000100)).mc.running = true ∧
    (((toward .boot .ready).clockTo (min (1000050 : BitVec 64).toNat 1000100)).loadUc good good).2 = true := by
  decide +kernel

/-- States and operands for PowerOnBootAndWake. -/
theorem witness_power_on : State.reset.supply = .off ∧
    ((inMode .dormant).supply = .on ∧ (inMode .dormant).mode.mode = .dormant ∧ (inMode .dormant).mode.trans = none ∧
      (inMode .dormant).mode.autoDone = false ∧ (inMode .dormant).fld .pwrCtl 0 0 = 0 ∧ ∀ v ∈ (inMode .dormant).thm.temps, v < 1440) := by
  decide +kernel

/-- States and operands for PowerOnBootAndWake (wake sources). -/
theorem witness_wake : ∀ s, s = { inMode .dormant with regs := [(RegId.off .modeWakeEn, 0x1F), (RegId.off .modeWakeHi, 1)] } →
    s.supply = .on ∧ s.mode.mode = .dormant ∧ s.fld .modeWakeEn (wakeBit .button) (wakeBit .button) = 1 ∧
    s.fld .modeWakeEn 2 2 = 1 ∧ s.now ≤ s.reg64 .modeWakeLo .modeWakeHi ∧
    s.reg64 .modeWakeLo .modeWakeHi + 400 ≤ 2 ^ 64 := by
  intro s h; subst h; decide +kernel

/-- States and operands for UnitEnableAndDisable. -/
theorem witness_units : ∀ a, a = ready.upTo 0 → a.blocksUp = true ∧ a.absent (unitReg (.tone 0 63)).off = false ∧
    a.absent (unitReg (.rf 0 5)).off = false ∧ a.absent (unitReg (.bb 0 15)).off = false ∧ a.absent (unitReg (.input 0 1)).off = false ∧
    a.absent (unitReg (.monitor 63)).off = false ∧ unitStrand (.tone 0 63) = some 0 ∧ unitStrand (.monitor 63) = none ∧
    (a.strand 0).rst = none := by
  intro a h; subst h; decide +kernel

/-- READY with S31 in a power state. -/
def strand31 (x : Strand) : State := { ready with strands := [(31, x)] }

/-- States and operands for StrandGateAndReset. -/
theorem witness_strands :
    (((strand31 { gate := .gating, due := 1000050 }).strand 31).gate = .gating ∧ ((strand31 { gate := .gating, due := 1000050 }).strand 31).pendEn = false) ∧
    (∀ s, s = { strand31 { gate := .ungating, due := 1000050 } with regs := [(RegId.off (.outToneCtl 31 0), 0x80000000)] } →
      (s.strand 31).gate = .ungating ∧ (s.strand 31).gateAfter = false ∧ (s.strand 31).heldW = [] ∧ s.strandOn 31 = true) ∧
    (∀ s, s = (strand31 { gate := .ungated }).upTo 0 → s.blocksUp = true ∧ s.absent (RegId.strCtl 31).off = false ∧ (s.strand 31).gate ≠ .gated ∧ (s.strand 31).rst = none) ∧
    (∀ s, s = strand31 { gate := .ungated, rst := some 999000 } → (s.strand 31).rst = some 999000 ∧ (s.strand 31).heldW = []) ∧
    (∀ s : State, s = { ready with outs := [(22 * 31 + 21, { shut := some 1000800 })] } →
      (s.out (outLocal (.bb 31 15)).1 (outLocal (.bb 31 15)).2).shut = some 1000800) := by
  refine ⟨by decide +kernel, ?_, ?_, ?_, ?_⟩ <;> (intro s h; subst h; decide +kernel)

/-- READY with P3 in a clock state. -/
def ply3 (x : Ply) : State := { ready with plies := [(3, x)] }

/-- States and operands for PlyClock. -/
theorem witness_plies :
    (((ply3 {}).upTo 0).blocksUp = true ∧ ((ply3 {}).upTo 0).absent (RegId.plyClkCtl 3).off = false ∧ ((ply3 {}).upTo 0).mode.mode.powered = true ∧
      getF (1 : Word) 1 0 = 1 ∧ (((ply3 {}).upTo 0).ply 3).st = .stopped) ∧
    ((ply3 { st := .starting, due := 1000100 }).ply 3).st = .starting ∧
    (∀ s, s = ply3 { st := .locked, idleFrom := some 900000 } → (s.ply 3).st = .locked ∧ (s.ply 3).idleFrom = some 900000 ∧ s.plyOn 3 = false ∧
      s.alwaysOn 3 = false ∧ s.mode.mode.powered = true ∧ s.mode.mode ≠ .calibrate) ∧
    (((ply3 { st := .stopping, due := 1000100 }).ply 3).st = .stopping ∧ ((ply3 { st := .stopping, due := 1000100 }).ply 3).pendEn = false) := by
  refine ⟨by decide +kernel, by decide +kernel, ?_, by decide +kernel⟩
  intro s h; subst h; decide +kernel

-- words of a core

/-- A sequence word: opcode, timing mode, delta and operand (R67). -/
def word (op tmode delta operand : Nat) : Nat := op * 2 ^ 59 + tmode * 2 ^ 57 + delta * 2 ^ 40 + operand

/-- RUN with core 248, the first of S31, about to issue the word at address 0. -/
def beforeWord (w : Nat) (x : Core) : State :=
  { running with cores := [(248, { x with st := .running })], seqSram := Mem.writes [] (seqAddr 31 0) (leBytes 8 w) }

/-- The same when what was due before the word has been done. -/
def atWord (w : Nat) (x : Core) : State := (beforeWord w x).readyFor 248

/-- A core in whose bight of two iterations, and in one call, the words stand. -/
def nested : Core := { bights := [⟨1, 2, 0, false⟩], calls := [(9, false)] }

/-- States and operands for CoreWaitsAndStart, WordRegisterFrame and WordUnitFrame. -/
theorem witness_core_words : issues (atWord (word 0x00 0 0 0xFFFF) {}) 248 0x00 ∧ issues (atWord (word 0x01 0 1 (2 ^ 40 - 1)) {}) 248 0x01 ∧
    (issues (atWord (word 0x02 0 1 0xFFFFFF0000) {}) 248 0x02 ∧ ((atWord (word 0x02 0 1 0xFFFFFF0000) {}).core 248).trigQ = []) ∧
    (issues (atWord (word 0x02 0 1 0) { trigQ := [900000] }) 248 0x02 ∧
      bit (nextWord (atWord (word 0x02 0 1 0) { trigQ := [900000] }) 248) 15 = false ∧
      ((atWord (word 0x02 0 1 0) { trigQ := [900000] }).core 248).trigQ = 900000 :: []) := by
  unfold issues; decide +kernel

/-- States and operands for CoreWaitsAndStart (timeout). -/
theorem witness_core_waits : ∀ s, s = { running with cores := [(248, { st := .waiting, wait := some (.trig 1000000 1 false) })] } → ∀ b,
    b = (s.settle (fun _ => { own := some 248, at' := 1000000 + 64 * 1, other := 1000000 + 64 * 1 }) s.dueFuel).settleOuts (1000000 + 64 * 1) →
    (s.core 248).wait = some (.trig 1000000 1 false) ∧ (1 : Nat) ≠ 0 ∧ (b.core 248).st = .waiting ∧ b.mode.mode = .run := by
  intro s h b hb; subst hb; subst h; decide +kernel

/-- States and operands for CoreWaitsAndStart (start). -/
theorem witness_core_starts :
    (∀ s, s = { running with cores := [(255, { st := .armed, armAt := 999000 })] } → (s.core 255).st = .armed ∧
      (s.core 255).streamBad = false ∧ s.mode.mode = .run ∧ (s.core 255).start = 0 ∧ s.mayIssue (s.startBound 255) = true) ∧
    (∀ s, s = { running with cores := [(255, { st := .armed, start := 1000800 })] } → (s.core 255).st = .armed ∧
      (s.core 255).streamBad = false ∧ s.mode.mode = .run ∧ (s.core 255).start ≠ 0 ∧ s.mayIssue (s.core 255).start = true) := by
  refine ⟨?_, ?_⟩ <;> (intro s h; subst h; decide +kernel)

/-- States and operands for PlaybackWords, WordRegisterFrame and WordUnitFrame. -/
theorem witness_play_words : issues (atWord (word 0x08 0 64 (31 * 2 ^ 34 + 1023)) {}) 248 0x08 ∧
    (issues (atWord (word 0x09 0 64 (0xFFF * 2 ^ 28 + 0xFFFFFFF)) {}) 248 0x09 ∧ frameCalm (atWord (word 0x09 0 64 (0xFFF * 2 ^ 28 + 0xFFFFFFF)) {}) 31 0xFFF = true) ∧
    (∀ s, s = atWord (word 0x0A 0 64 (0xFFF * 2 ^ 28 + 0x3FFF * 2 ^ 14)) {} → issues s 248 0x0A ∧ frameCalm s 31 0xFFF = true ∧
      s.faddAt 248 (nextWord s 248) (s.core 248).shotStart (cutoff (nextTim s 248).t) = .holds) ∧
    issues (atWord (word 0x06 0 64 (15 * 2 ^ 36 + 0xFFFF * 2 ^ 20)) {}) 248 0x06 ∧
    issues (atWord (word 0x04 0 64 (79 * 2 ^ 33 + 4095 * 2 ^ 21 + 0xFFFF * 2 ^ 5)) {}) 248 0x04 := by
  unfold issues
  refine ⟨by decide +kernel, by decide +kernel, ?_, by decide +kernel, by decide +kernel⟩; intro s h; subst h; decide +kernel

/-- States and operands for FlowWords, WordRegisterFrame and WordUnitFrame. -/
theorem witness_flow_words :
    (issues (atWord (word 0x10 0 1 (3 * 2 ^ 16)) {}) 248 0x10 ∧ ((atWord (word 0x10 0 1 (3 * 2 ^ 16)) {}).core 248).bights.length < 8) ∧
    (issues (atWord (word 0x11 0 0 0) nested) 248 0x11 ∧ ((atWord (word 0x11 0 0 0) nested).core 248).bights = ⟨1, 2, 0, false⟩ :: [] ∧
      (⟨1, 2, 0, false⟩ : Bight).count ≠ 1) ∧
    (issues (atWord (word 0x11 0 0 0) { nested with bights := [⟨1, 1, 0, false⟩] }) 248 0x11 ∧
      ((atWord (word 0x11 0 0 0) { nested with bights := [⟨1, 1, 0, false⟩] }).core 248).bights = ⟨1, 1, 0, false⟩ :: []) ∧
    (issues (atWord (word 0x12 0 1 (0x1FFFF * 2 ^ 23)) nested) 248 0x12 ∧ ((atWord (word 0x12 0 1 (0x1FFFF * 2 ^ 23)) nested).core 248).calls.length < 16) ∧
    (issues (atWord (word 0x13 0 1 0) nested) 248 0x13 ∧ ((atWord (word 0x13 0 1 0) nested).core 248).calls = (9, false) :: []) ∧
    (issues (atWord (word 0x14 0 1 (2 ^ 23 + 2 ^ 20)) nested) 248 0x14 ∧
      bits (nextWord (atWord (word 0x14 0 1 (2 ^ 23 + 2 ^ 20)) nested) 248) 22 20 ≤ ((atWord (word 0x14 0 1 (2 ^ 23 + 2 ^ 20)) nested).core 248).bights.length) := by
  unfold issues; decide +kernel

/-- JCOND to address 2 on the decision bit 0, taken when it is set, or when it is clear. P3 imports no record of S0, so the
bit reads as set there. -/
def jword (ct : Nat) (fresh : Bool) : Nat := word 0x15 0 1 (2 * 2 ^ 23 + ct * 2 ^ 20 + (if fresh then 2 ^ 19 else 0))

/-- States and operands for FlowWords (JCOND). -/
theorem witness_jcond :
    (∀ s, s = atWord (jword 0 false) nested → issues s 248 0x15 ∧ bits (nextWord s 248) 16 14 ≤ (s.core 248).bights.length ∧
      s.jcondAt 248 (nextWord s 248) (s.core 248).shotStart (cutoff (nextTim s 248).t) = .holds) ∧
    (∀ s, s = atWord (jword 1 false) nested → issues s 248 0x15 ∧
      s.jcondAt 248 (nextWord s 248) (s.core 248).shotStart (cutoff (nextTim s 248).t) = .fails) ∧
    (∀ s, s = atWord (jword 0 true) { nested with shots := [{ uid := 1, no := 1, start := 500 }] } → issues s 248 0x15 ∧
      s.jcondAt 248 (nextWord s 248) (s.core 248).shotStart (cutoff (nextTim s 248).t) = .notPresent) := by
  unfold issues
  refine ⟨?_, ?_, ?_⟩ <;> (intro s h; subst h; decide +kernel)

/-- States and operands for AcquireWord, StrandBarrier and the frames of words. -/
theorem witness_word_frames :
    (issues (atWord (word 0x05 0 64 (31 * 2 ^ 35 + 2 ^ 19 + 2 ^ 17)) {}) 248 0x05 ∧ issues (atWord (word 0x05 0 64 0) {}) 248 0x05) ∧
    (issues (atWord (word 0x03 0 1 (2 ^ 32)) {}) 248 0x03 ∧ issues (atWord (word 0x03 0 1 (3 * 2 ^ 32)) {}) 248 0x03) := by
  unfold issues; decide +kernel

/-- States and operands for StrandBarrier. -/
theorem witness_barrier :
    -- core 248 waits for core 249, which is not there yet
    (∀ s, s = atWord (word 0x03 0 1 (3 * 2 ^ 32)) {} → issues s 248 0x03 ∧ (∀ e, e / 8 = 248 / 8 → e ≠ 248 → (s.core e).syncMask = none) ∧
      ∃ d ∈ maskCores 248 (bits (nextWord s 248) 39 32), d ≠ 248) ∧
    -- core 249 waits at 1000 with the same mask
    (∀ s, s = { beforeWord (word 0x03 0 1 (3 * 2 ^ 32)) {} with cores := [(248, { st := .running }), (249, { st := .waiting, wait := some (.sync 1000 3) })] }.readyFor 248 →
      issues s 248 0x03 ∧ ∃ td : Nat → Nat, td 248 = (nextTim s 248).t ∧
        ∀ e, e / 8 = 248 / 8 → e ≠ 248 → (s.core e).syncMask =
          if e ∈ maskCores 248 (bits (nextWord s 248) 39 32) then some (td e, bits (nextWord s 248) 39 32) else none) := by
  unfold issues
  refine ⟨?_, ?_⟩
  · intro s h
    subst h
    refine ⟨by decide +kernel, fun e he hne => ?_, by decide +kernel⟩
    have : e = 249 ∨ e = 250 ∨ e = 251 ∨ e = 252 ∨ e = 253 ∨ e = 254 ∨ e = 255 := by omega
    rcases this with h | h | h | h | h | h | h <;> subst h <;> decide +kernel
  · intro s h
    subst h
    refine ⟨by decide +kernel, fun e => if e = 248 then 1 else 1000, by decide +kernel, fun e he hne => ?_⟩
    have : e = 249 ∨ e = 250 ∨ e = 251 ∨ e = 252 ∨ e = 253 ∨ e = 254 ∨ e = 255 := by omega
    rcases this with h | h | h | h | h | h | h <;> subst h <;> decide +kernel

/-- READY with core 255 in a state. -/
def core255 (m : Mode) (x : Core) : State := { inMode m with strands := [(31, { gate := .ungated })], cores := [(255, x)] }

/-- States and operands for CoreControlWrites (modes). -/
theorem witness_core_control : ∀ m x, ((core255 m x).blocksUp = true ∧ (core255 m x).absent (RegId.seqCtl 255).off = false) ∨ m = .dormant ∨ m = .boot := by
  intro m x; cases m <;> first | exact .inr (.inl rfl) | exact .inr (.inr rfl) | exact .inl ⟨rfl, rfl⟩

/-- States and operands for CoreControlWrites. -/
theorem witness_core_writes :
    (∀ s, s = (core255 .ready {}).upTo 0 → s.blocksUp = true ∧ s.absent (RegId.seqCtl 255).off = false ∧ strandTakes s (255 / 8) ∧
      getF (1 : Word) 1 1 = 0 ∧ getF (1 : Word) 2 2 = 0 ∧ (s.core 255).active = false ∧
      (s.core 255).st ≠ .held ∧ s.convs.all (fun e => e.2.step.isNone || convStrand e.1 != 255 / 8) = true) ∧
    (∀ s, s = (core255 .hold { st := .held }).upTo 0 → strandTakes s (255 / 8) ∧ getF (2 : Word) 0 0 = 0 ∧ getF (2 : Word) 2 2 = 0 ∧
      ((s.core 255).st = .waiting ∨ (s.core 255).st = .held ∨ (s.core 255).st = .armed)) ∧
    (∀ s, s = (core255 .run { st := .running, busy := 1000000 }).upTo 1000000 → strandTakes s (255 / 8) ∧ getF (2 : Word) 0 0 = 0 ∧
      getF (2 : Word) 2 2 = 0 ∧ (s.core 255).st = .running ∧ (s.core 255).haltAt = none) ∧
    (∀ s, s = (core255 .run { st := .running, trigQ := [1, 2, 3] }).upTo 0 → strandTakes s (255 / 8) ∧ getF (4 : Word) 0 0 = 0 ∧ getF (4 : Word) 1 1 = 0) ∧
    (∀ s, s = (core255 .run { st := .running, inStream := true }).readyFor 255 → (s.core 255).st = .running ∧ (s.core 255).inStream = true ∧
      (s.fetch 255).1 = .absent ∧ s.coreMay 255 (s.core 255).busy = true) := by
  unfold strandTakes
  refine ⟨?_, ?_, ?_, ?_, ?_⟩ <;> (intro s h; subst h; decide +kernel)

/-- States and operands for CoreControlWrites (an entry that arrives). -/
theorem witness_trigger_arrives :
    (∀ s, s = core255 .run { st := .running, trigQ := [1, 2, 3], trigIn := [(999000, 32)] } → (s.core 255).trigIn = (999000, 32) :: [] ∧
      (s.core 255).active = true ∧ s.mode.mode = .run ∧ (s.core 255).wait = none ∧ (s.core 255).trigQ.length < 4) ∧
    (∀ s, s = core255 .run { st := .running, trigQ := [1, 2, 3, 4], trigIn := [(999000, 32)] } → (s.core 255).active = true ∧ s.mode.mode = .run ∧
      (s.core 255).wait = none ∧ 4 ≤ (s.core 255).trigQ.length) ∧
    (∀ s, s = core255 .run { st := .waiting, wait := some (.trig 999000 100 false), trigIn := [(999000, 32)] } → (s.core 255).active = true ∧
      s.mode.mode = .run ∧ (s.core 255).wait = some (.trig 999000 100 false) ∧ ((100 : Nat) = 0 ∨ trigAt 999000 ≤ 999000 + 64 * 100)) ∧
    (∀ s, s = core255 .run { st := .done, trigIn := [(999000, 32)] } → (s.core 255).trigIn = (999000, 32) :: [] ∧
      ((s.core 255).active = false ∨ s.mode.mode ≠ .run)) := by
  refine ⟨?_, ?_, ?_, ?_⟩ <;> (intro s h; subst h; decide +kernel)

/-- A segment of unit 79 of S31 that reads a stream from queue 40. -/
def streamSeg : Seg :=
  { start := 1000000, stop := 1000064, env := 0, src := 2, k := 0, len := 64, addr := 40, hbm := 0, gain := 0xFFFF, core := 255 }

/-- States and operands for CoreControlWrites (underrun). -/
theorem witness_unit_underrun : ∀ s, s = { core255 .run {} with units := [(80 * 31 + 79, { seg := some streamSeg })], queues := [(40, { enabled := true, role := 4, bound := some (.unit 31 79) })] } →
    (s.punit 31 79).seg = some streamSeg ∧ streamSeg.src = 2 ∧ streamSeg.zero = false ∧ streamSeg.ramp = none ∧
    streamSeg.held = none ∧ streamSeg.got.length < streamSeg.len ∧
    streamSeg.start + streamSeg.got.length * 2 ^ streamSeg.k < streamSeg.stop ∧
    (s.queue streamSeg.addr).bound = some (.unit 31 79) ∧ (s.queue streamSeg.addr).pkts = [] := by
  intro s h; subst h; decide +kernel

-- writes of a strand, outputs, inputs and results

/-- States and operands for StrandRegisterWrites. -/
theorem witness_strand_writes :
    (∀ a, a = ready.upTo 0 → a.blocksUp = true ∧ strandTakes a 0 ∧ strandIdle a 0 = true ∧ a.absent (RegId.outStatic 0 15).off = false ∧
      a.absent (RegId.outFrame 0 4095).off = false ∧ a.absent (RegId.outBbCtl 0 15).off = false ∧
      a.absent (ctlReg (.rf 0 5)).off = false ∧ a.absent (ctlReg (.bb 0 15)).off = false ∧
      a.absent (RegId.seqOwn 0 79).off = false ∧ a.absent (RegId.acqInCtl 0 1).off = false ∧ a.mode.mode ≠ .run ∧
      -- a range change of a disabled channel, and a COMPLY clear of it with the range kept
      a.absent (outReg (outLocal (.bb 0 15)).1 (outLocal (.bb 0 15)).2).off = false ∧
      a.outEnabled (outLocal (.bb 0 15)).1 (outLocal (.bb 0 15)).2 = decide (getF (0xC : Word) 0 0 = 1) ∧
      getF (0xC : Word) 3 2 ≠ a.fld (outReg (outLocal (.bb 0 15)).1 (outLocal (.bb 0 15)).2) 3 2 ∧
      (a.out (outLocal (.bb 0 15)).1 (outLocal (.bb 0 15)).2).ranging = none ∧
      a.outEnabled 0 (6 + 15) = decide (getF (0 : Word) 0 0 = 1) ∧ getF (0 : Word) 3 2 = a.fld (.outBbOut 0 15) 3 2 ∧
      -- a band change of a disabled input
      a.fld (.acqInCtl 0 1) 0 0 = getF (0xFF000002 : Word) 0 0 ∧
      getF ((a.writeFields (.acqInCtl 0 1) 0xFF000002).reg (.acqInCtl 0 1)) 2 1 ≠ a.fld (.acqInCtl 0 1) 2 1) ∧
    (∀ a, a = running.upTo 0 → a.blocksUp = true ∧ strandTakes a 0 ∧ a.absent (RegId.outStatic 0 15).off = false ∧ a.mode.mode = .run) := by
  unfold strandTakes
  refine ⟨?_, ?_⟩ <;> (intro s h; subst h; decide +kernel)

/-- READY with one entry of S31's envelope table: an HBM source of 16 samples, its head not copied. -/
def headWanted : State := { ready with envTab := Mem.writes [] (65536 * 31 + 16 * 4095) (leBytes 4 (2 ^ 30 + 16) ++ leBytes 4 0) }

/-- A window of S31 on tone 31. -/
def win : Win :=
  { core := 255, shot := 1, shotNo := 1, tag := 7, t := 1000000, eff := 1000000, ms := 0, me := 100, len := 100, raw := true, result := true,
    decide := true, kmode := false, shift := 0, inp := 1 }

/-- A result packet that waits for the end of its shot. -/
def stagedOf (n : Nat) : Staged := { core := 255, shot := 1, tone := 0, word6 := 0, head := [], at' := n, bad := false }

/-- States and operands for ConnectorAndResultEvents. -/
theorem witness_connectors :
    ((headWanted.env 31 4095).src = 1 ∧ (headWanted.env 31 4095).ready = false ∧ (headWanted.env 31 4095).len ≠ 0 ∧
      (headWanted.env 31 4095).addr + min (headWanted.env 31 4095).len 8192 ≤ 1048576) ∧
    (∀ s : State, s = { running with regs := [(RegId.off (.outRfOut 31 5), 0x21)], outs := [(22 * 31 + 5, { live := true, muted := false })] } →
      ∀ a, a = s.toTime (s.lastPlayed 31 5 + 16000) → (a.out 31 5).live = true ∧ (a.out 31 5).muted = false ∧ a.fld (.outRfOut 31 5) 5 5 = 1 ∧
      a.lastPlayed 31 5 = s.lastPlayed 31 5) ∧
    (∀ s : State, s = { running with outs := [(22 * 31 + 21, { ranging := some 999000 })] } →
      (s.out (outLocal (.bb 31 15)).1 (outLocal (.bb 31 15)).2).ranging = some 999000) ∧
    (∀ a : State, a = ({ running with outs := [(22 * 31 + 21, { live := true, liveFrom := 1000 })] } : State).upTo 2000000 →
      (a.out 31 (6 + 15)).live = true ∧ (a.out 31 (6 + 15)).comply = false ∧
      up8 (max (999 : BitVec 64).toNat (a.out 31 (6 + 15)).liveFrom) + 1024 * a.fld (.outBbOut 31 15) 31 24 ≤ a.now) ∧
    (∀ s : State, s = { running with inps := [(63, { settle := some 999000, rawWin := some (31, win) })] } →
      (s.inp 31 1).settle = some 999000 ∧ (s.inp 31 1).rawWin = some (31, win) ∧
      ((s.toTime (min (1000000 : BitVec 64).toNat (rawBound win))).inp 31 1).rawWin.isSome = true) ∧
    (∀ s : State, s = { running with rtones := [(32 * 31 + 31, { wins := [win] })], strands := [(31, { gate := .ungated })] } →
      (s.rtone 31 31).wins = win :: [] ∧ ∀ a, a = s.toTime (win.stamp + 1152) → (a.rtone 31 31).wins = win :: [] ∧ win.decide = true ∧
      a.mode.mode = .run ∧ (a.strand 31).gate = .ungated) ∧
    (∀ s, s = (strand31 { gate := .ungated }).upTo 0 → s.blocksUp = true ∧ s.absent (RegId.discCtl 31 31).off = false ∧ strandTakes s 31) := by
  unfold strandTakes
  refine ⟨by decide +kernel, ?_, ?_, ?_, ?_, ?_, ?_⟩
  · intro s h a ha; subst ha; subst h; decide +kernel
  · intro s h; subst h; decide +kernel
  · intro s h; subst h; decide +kernel
  · intro s h; subst h; decide +kernel
  · intro s h; subst h; refine ⟨by decide +kernel, fun a ha => ?_⟩; subst ha; decide +kernel
  · intro s h; subst h; decide +kernel

/-- States and operands for ConnectorAndResultEvents (early release). -/
theorem witness_early_release : ∀ s : State, s = { running with cores := [(255, { shots := [{ uid := 1, no := 1, start := 0 }] })],
                                                                strands := [(31, { gate := .ungated, staged := (List.range 1537).map stagedOf })] } →
    ∃ p r, (s.strand 31).staged.filter s.waitsShot = p :: r ∧ 1536 ≤ r.length := by
  intro s h; subst h; exact ⟨stagedOf 0, ((List.range 1537).map stagedOf).tail, by decide +kernel⟩

-- the decision fabric

/-- States and operands for DecisionFabric. -/
theorem witness_fabric : (∀ a, a = ready.upTo 0 → a.blocksUp = true ∧ a.absent (RegId.decImport 3 127).off = false ∧ a.plyActive 3 = false ∧
      getF (0x80000000 : Word) 9 0 / 256 ≠ 3) ∧
    ready.dec.slotsFrom ≤ 0 ∧ ready.blocksUp = true ∧ ready.mode.mode = .ready ∧ running.blocksUp = true ∧
    running.mode.mode ≠ .ready := by
  refine ⟨?_, by decide +kernel⟩
  intro s h; subst h; decide +kernel

-- Hitch links

/-- READY with direction 7 enabled, and a state of it. -/
def dir7 (w : Word) (h : HchSt) : State := { ready with regs := [(RegId.off (.hchDirCtl 7), w)], hch := h }

/-- Both lanes of a path of direction 7 locked, and the path marked. -/
def goodPath (onB : Bool) : HchSt :=
  { lanes := if onB then [(30, { lock := true }), (31, { lock := true })] else [(14, { lock := true }), (15, { lock := true })],
    dirs := [(7, { onB := !onB, a := { markOk := !onB }, b := { markOk := onB } })] }

/-- The MARK that module 0, direction 0, sends on port 15 at tick 1000000, in cycle 355. -/
def markWord : BitVec 64 := 355 * 2 ^ 32 + 15 * 2 ^ 22 + 2 ^ 20 + 0xD1

/-- A STATUS block with ONB set: bit 49, and the check of its six bytes. -/
def statusWord : BitVec 64 := BitVec.ofNat 64 (2 ^ 56 + 2 ^ 49 + crc16 (leBytes 6 (2 ^ 40 + 2 ^ 33)))

/-- States and operands for HitchBlocks. -/
theorem witness_hitch_blocks :
    (ready.blocksUp = true ∧ ready.dirOn 7 = false ∧ getF (0xFF000001 : Word) 0 0 = 1 ∧ getF (0xFF000001 : Word) 6 6 = 0 ∧ getF (0xFF000001 : Word) 7 7 = 0) ∧
    ((dir7 1 {}).dirOn (laneDir 31).1 = true ∧ bits (0xD2 : BitVec 64).toNat 7 0 = 0xD2) ∧
    ((dir7 1 {}).dirOn (portDir 15).1 = true ∧ bits markWord.toNat 7 0 = 0xD1 ∧ ((dir7 1 {}).at 0).markError 15 markWord.toNat = none) ∧
    ((dir7 1 {}).dirOn 7 = true ∧ bits statusWord.toNat 63 56 = 1 ∧
      crc16 (leBytes 6 (bits statusWord.toNat 63 16)) = bits statusWord.toNat 15 0 ∧ bit statusWord.toNat 49 = true) ∧
    ((dir7 1 {}).dirOn 7 = true ∧ (dir7 1 {}).dirHot 7 = false ∧ ((dir7 1 {}).hdir 7).onB = false ∧ ((dir7 1 {}).hdir 7).gap = false ∧
      ((dir7 1 {}).hdir 7).pend = none ∧ (laneDir 31).2 = true) := by
  decide +kernel

/-- Direction 7 with container 2 received valid, from origin 0, over path A in service. -/
def rx7 : State :=
  { ready with regs := [(RegId.off (.hchDirCtl 7), 1), (RegId.off (.hchRxHi 23), 0x80000000)],
               hch := { goodPath false with dirs := [(7, { a := { markOk := true, healthy := true } })] } }

/-- A container's payload of zeros in frame 15625, with its check. -/
def payload0 : BitVec 64 := BitVec.ofNat 64 (crc16 (checkBytes (rx7.rxOrigin 7 2) 15625 ((List.range 5).map (rx7.rxE 7 2)) 0) * 2 ^ 48)

/-- States and operands for HitchFramesAndSplices (containers). -/
theorem witness_containers : rx7.inService 7 false = true ∧ rx7.takes 7 false = true ∧ (rx7.hdir 7).pend = none ∧
    (∀ b, ((rx7.hdir 7).path b).healthy = rx7.pathOk 7 b) ∧
    (∀ k, Tab.get? (rx7.hdir 7).last 2 = some k → k < 15625) ∧ rx7.rxValid 7 2 = true ∧
    rx7.containerOk 7 2 15625 payload0.toNat = true ∧ rx7.inService 7 true = false := by
  refine ⟨by decide +kernel, by decide +kernel, by decide +kernel, by decide +kernel, fun k h => ?_, by decide +kernel, by decide +kernel, by decide +kernel⟩
  rw [show Tab.get? (rx7.hdir 7).last 2 = none by decide +kernel] at h
  cases h

/-- States and operands for HitchFramesAndSplices: no frame is received, so a switch is made at once. -/
theorem witness_splices :
    (∀ s, s = { dir7 0x101 { goodPath false with dirs := [(7, { onB := true, qualFrom := some 0, a := { markOk := true } })] } with now := 10000000000 } →
      s.qualified 7 (s.at 0).now = true ∧ (s.hdir 7).onB = true ∧ (s.hdir 7).gap = false ∧ s.pathOk 7 false = true ∧ (s.hdir 7).hostHold = false ∧
      switchNow s 7 = true) ∧
    (∀ s, s = dir7 1 (goodPath true) → s.blocksUp = true ∧ s.dirOn 7 = true ∧ getF (0xFF000041 : Word) 0 0 = 1 ∧ getF (0xFF000041 : Word) 7 7 = 0 ∧
      (s.hdir 7).onB = false ∧ (s.hdir 7).gap = false ∧ s.pathOk 7 true = true) ∧
    (∀ s, s = dir7 1 (goodPath false) → s.blocksUp = true ∧ s.dirOn 7 = true ∧ getF (0xFF000081 : Word) 0 0 = 1 ∧ getF (0xFF000081 : Word) 6 6 = 0 ∧
      (s.hdir 7).onB = true ∧ (s.hdir 7).gap = false ∧ s.pathOk 7 false = true) ∧
    (∀ s : State, s = { dir7 1 { goodPath false with txMaps := [(23, [(0, 0x40000000)])] } with now := 64 } → ∀ a, a = s.toTime (atHub (64 * (15625 + 1))) →
      a.dirOn 7 = true ∧ getF (a.txMapAt (3 * 7 + 2) 15625) 31 30 = 1) := by
  refine ⟨?_, ?_, ?_, ?_⟩
  · intro s h; subst h; decide +kernel
  · intro s h; subst h; decide +kernel
  · intro s h; subst h; decide +kernel
  · intro s h a ha; subst ha; subst h; decide +kernel

/-- States and operands for HitchFramesAndSplices: path A has delivered no whole frame, so a revert waits. -/
theorem witness_switch_waits : ∀ s, s = { rx7 with now := 10000000000, regs := [(RegId.off (.hchDirCtl 7), 0x101), (RegId.off (.hchRxHi 23), 0x80000000)], hch := { goodPath false with
      dirs := [(7, { onB := true, qualFrom := some 0, a := { markOk := true } })] } } → switchNow s 7 = false ∧
    s.qualified 7 (s.at 0).now = true ∧ (s.hdir 7).onB = true ∧ s.pathOk 7 false = true := by
  intro s h; subst h; decide +kernel

-- time, reference and synchronisation

/-- States and operands for ReferenceAndClockFault. -/
theorem witness_reference :
    (∀ a, a = ({ running with regs := [(RegId.off .modeCtl, 0x10)] } : State).upTo 0 → a.sync.src = true ∧ a.sync.refValid = true ∧
      a.mode.mode = .run ∧ a.mode.trans = none ∧ a.fld .modeCtl 4 4 = 1) ∧
    (∀ s : State, s = { running with sync := { src := true, lost := some 999000, holdover := true, clkLock := true } } →
      s.sync.lost = some 999000 ∧ s.sync.src = true ∧ s.sync.holdover = true) ∧
    (∀ a : State, a = ({ inMode .hold with sync := { src := true, refValid := true, pull := true, lost := some 999000 } } : State).upTo 0 →
      a.sync.pull = true ∧ a.sync.refValid = true ∧ a.mainOn = true ∧ a.sync.lost.isSome = true ∧ a.mode.mode = .hold ∧
      a.mode.pend = none ∧ a.thm.warn = false) := by
  refine ⟨?_, ?_, ?_⟩ <;> (intro s h; subst h; decide +kernel)

/-- States and operands for ReferenceAndClockFault (faults and REFSEL). -/
theorem witness_clock_faults :
    (∀ a, a = running.upTo 0 → a.mode.mode ≠ .dormant ∧ a.mode.mode ≠ .safe ∧ a.mode.tripAt = none ∧ a.mode.safeCause = 0 ∧
      a.sync.clkLock = true ∧ (a.ply 0).st = .locked) ∧
    (∀ a : State, a = ({ running with now := 10 ^ 11, sync := { lost := some 0 }, regs := [(RegId.off .modeCtl, 0)] } : State).upTo 0 →
      a.mode.tripAt = none ∧ a.mode.safeCause = 0 ∧ a.sync.lost = some 0 ∧ 0 + sec ≤ a.now ∧ a.sync.refValid = false ∧ a.fld .modeCtl 4 4 = 0) ∧
    (ready.blocksUp = true ∧ ready.mode.mode = .ready ∧ getF (0xFF000200 : Word) 0 0 = 0 ∧ getF (0xFF000200 : Word) 1 1 = 0 ∧
      getF (0xFF000200 : Word) 2 2 = 0 ∧ getF (0xFF000200 : Word) 31 24 = 0xFF ∧ getF (0xFF000200 : Word) 9 8 ≠ 3 ∧ ready.sync.refValid = true ∧
      getF (0xFF000200 : Word) 9 8 ≠ ready.fld .syncCtl 9 8 ∧ getF (0xFF000000 : Word) 9 8 = ready.fld .syncCtl 9 8) := by
  refine ⟨?_, ?_, by decide +kernel⟩ <;> (intro s h; subst h; decide +kernel)

/-- States and operands for EpochAndSyncControl. -/
theorem witness_epochs :
    (ready.blocksUp = true ∧ ready.mode.mode = .ready ∧ running.mode.mode ≠ .ready ∧ ready.sync.refValid = true ∧
      getF (0xFF000400 : Word) 31 24 = 0xFF ∧ getF (0xFF000400 : Word) 11 10 ≠ 3 ∧ getF (0xFF000400 : Word) 11 10 ≠ 0 ∧
      getF (0xFF000400 : Word) 0 0 = 0 ∧ getF (0xFF000400 : Word) 1 1 = 0 ∧ getF (0xFF000400 : Word) 2 2 = 0 ∧ ready.sync.skew = none ∧
      ready.reg64 .syncLoadLo .syncLoadHi % 160 = 0) ∧
    (∀ s : State, s = { ready with regs := [(RegId.off .syncLoadLo, 1)] } → s.reg64 .syncLoadLo .syncLoadHi % 160 ≠ 0) ∧
    (∀ s : State, s = { ready with sync := { skew := some 999000 } } → s.sync.skew = some 999000) := by
  refine ⟨by decide +kernel, ?_, ?_⟩ <;> (intro s h; subst h; decide +kernel)

/-- READY with the SYNC role r (R257) and a load that waits since a, LOADTIME 1600000. -/
def syncRole (r : Nat) (a : Option Nat) : State :=
  { ready with regs := [(RegId.off .syncCtl, BitVec.ofNat 32 (0xFF000000 + r * 1024)), (RegId.off .syncLoadLo, 1600000)],
               sync := { refValid := true, src := true, armed := a } }

/-- States and operands for SyncPulses. -/
theorem witness_pulses :
    (∀ z, z = (syncRole 1 (some 999000)).toTime (64 * 1000000 / 64) → z.sync.skew = none ∧ z.sync.armed.isSome = true ∧ z.fld .syncCtl 11 10 = 1 ∧
      loadOk (z.reg64 .syncLoadLo .syncLoadHi) (z.edgeInstant (64 * 1000000)) = true) ∧
    (∀ z, z = (syncRole 1 (some 999000)).toTime (64 * 10000000 / 64) → z.sync.skew = none ∧ z.sync.armed.isSome = true ∧ z.fld .syncCtl 11 10 = 1 ∧
      loadOk (z.reg64 .syncLoadLo .syncLoadHi) (z.edgeInstant (64 * 10000000)) = false) ∧
    (∀ z, z = ({ syncRole 1 none with sync := { aligned := true } } : State).toTime 1000000 → z.sync.skew = none ∧ z.sync.armed = none ∧
      z.fld .syncCtl 11 10 = 1 ∧ z.sync.aligned = true) ∧
    (∀ z, z = ({ syncRole 2 none with sync := { ring := true } } : State).toTime 1000000 → z.sync.skew = none ∧ z.sync.armed = none ∧ z.fld .syncCtl 11 10 = 2 ∧
      z.fld .syncCtl 21 16 = 0 ∧ z.sync.ring = true) ∧
    (∀ x, x = (syncRole 2 (some 0)).upTo 0 → x.sync.armed = some 0 ∧ x.fld .syncCtl 11 10 = 2 ∧ x.fld .syncCtl 21 16 = 0 ∧ 0 + 10 * us ≤ x.now ∧
      x.mode.mode ≠ .dormant ∧ x.now < x.reg64 .syncLoadLo .syncLoadHi) ∧
    (∀ s, s = { ready with sync := { sendAt := some 1000100 } } → s.sync.sendAt = some 1000100) := by
  refine ⟨?_, ?_, ?_, ?_, ?_, ?_⟩ <;> (intro s h; subst h; decide +kernel)

/-- States and operands for WallClockAndServo. -/
theorem witness_wall_clock :
    (ready.blocksUp = true ∧ getF (0xFF000000 : Word) 31 24 = 0xFF ∧ getF (0xFF000000 : Word) 3 3 = 0 ∧ getF (0xFF000000 : Word) 4 4 = 0 ∧
      getF (0xFF000000 : Word) 5 5 = 0 ∧ getF (0xFF000000 : Word) 6 6 = 0) ∧
    (∀ s : State, s = { ready with regs := [(RegId.off (.ptpDom 1), 0x80000001), (RegId.off .ptpCtl, 1)], ptp := { aUp := true, sel := 1 } } →
      s.fld (.ptpDom 1) 31 31 = 1 ∧ s.fld .ptpCtl 1 0 ≠ 0 ∧ (if s.ptp.onB then s.ptp.bUp else s.ptp.aUp) = true ∧ s.ptp.stale = false ∧
      s.ethOn = true ∧ s.ptp.sel = 1 ∧ (s.ptp.dom 0).locked = none ∧ (999999 : Int).natAbs < 1000000) ∧
    (∀ s : State, s = { ready with regs := [(RegId.off .ptpCtl, 0)], ptp := { dom0 := { locked := some 0 }, sel := 1 } } →
      s.ptp.dom0.locked = some 0 ∧ s.ptp.sel = 1 ∧ 0 + s.qual ≤ (s.at 0).now) := by
  refine ⟨by decide +kernel, ?_, ?_⟩ <;> (intro s h; subst h; decide +kernel)

/-- A frame in the list of port A, due at 1000 ns of wall time. -/
def frameA : Frame := { portB := false, id := 0, launch := 1000, ts := false, bytes := [1], ring := 0, desc := [] }

/-- States and operands for EthernetPorts. -/
theorem witness_ports :
    (∀ s : State, s = { ready with ptp := { aUp := true, bUp := true } } → s.ptp.aUp = true ∧ s.ptp.bUp = true ∧ s.ptp.onB = false ∧ s.ethOn = true) ∧
    (∀ s : State, s = { ready with ptp := { aUp := true } } → s.ptp.aUp = true ∧ s.ptp.onB = false ∧ s.ptp.bUp = false) ∧
    (∀ s : State, s = { ready with ptp := { stale := true } } → s.ptp.bUp = false ∧ s.ptp.stale = true ∧ s.ptp.onB = false ∧ s.ptp.aUp = false) ∧
    (∀ s : State, s = { ready with regs := [(RegId.off .ptpCtl, 0)], ptp := { aSince := some 0, onB := true } } →
      s.ptp.aSince = some 0 ∧ s.ptp.onB = true ∧ s.ptp.hostHold = false ∧ 0 + s.qual ≤ (s.at 0).now) := by
  refine ⟨?_, ?_, ?_, ?_⟩ <;> (intro s h; subst h; decide +kernel)

/-- States and operands for EthernetPorts (frames). -/
theorem witness_launch : ∀ s : State, s = { ready with ptp := { valid := true, list := [frameA], base := 990 * wallNs, at' := 999990 } } →
    s.ptp.valid = true ∧ 0 < (wallTick : Int) + s.ptp.rate ∧ firstFrame (s.ptp.list.filter (fun f => f.portB == false)) = some frameA ∧
    s.ptp.at' ≤ 1000150 ∧ frameA.launch ≤ s.ptp.ns 1000150 ∧ (∀ m, s.ptp.at' ≤ m → m < 1000150 → s.ptp.ns m < frameA.launch) ∧
    1000150 ≤ max (1000150 : BitVec 64).toNat s.now := by
  intro s h; subst h
  refine ⟨by decide +kernel, by decide +kernel, by decide +kernel, by decide +kernel, by decide +kernel, fun m h1 h2 => ?_, by decide +kernel⟩
  obtain ⟨j, rfl⟩ : ∃ j, m = 999990 + j := ⟨m - 999990, by have : (999990 : Nat) ≤ m := h1; omega⟩
  have k : ∀ j, j < 160 → PtpSt.ns { valid := true, list := [frameA], base := 990 * wallNs, at' := 999990 } (999990 + j) < 1000 := by
    decide +kernel
  exact k j (by omega)

-- the host interface

/-- READY with the host link up; ring pair 63 uses queues 126 and 127, has a size of 16 and may have 32 in flight. -/
def linked (r : Ring) (sq cq : List Packet) : State :=
  { (ready.setReg (.hifRingQ 63) 0x007F007E).setReg (.hifRingCtl 63) (4 * 2 ^ 16 + 32 * 2 ^ 5 + 1) with
    hif := { up := true, rings := [(63, r)] },
    queues := [(126, { enabled := true, role := 1, pkts := sq }), (127, { enabled := true, role := 2, pkts := cq })] }

/-- A packet visible since tick 999000. -/
def packet (bs : List Byte) : Packet := { bytes := bs, first := 999000, vis := some 999000 }

/-- States and operands for LinkAndRings. -/
theorem witness_link :
    (ready.mainOn = true ∧ (linked {} [] []).hif.up = true ∧ (linked {} [] []).blocksUp = true ∧ ((linked {} [] []).ring 63).open' = false) ∧
    ((linked {} [] []).inRole ((linked {} [] []).sqQueue 63) 1 && (linked {} [] []).inRole ((linked {} [] []).cqQueue 63) 2 &&
      !(linked {} [] []).usedByRing 63 ((linked {} [] []).sqQueue 63) && !(linked {} [] []).usedByRing 63 ((linked {} [] []).cqQueue 63)) = true ∧
    (ready.blocksUp = true ∧ (ready.ring 63).open' = false ∧
      (ready.inRole (ready.sqQueue 63) 1 && ready.inRole (ready.cqQueue 63) 2 &&
        !ready.usedByRing 63 (ready.sqQueue 63) && !ready.usedByRing 63 (ready.cqQueue 63)) = false) ∧
    ((linked { on := true } [] []).ring 63).on = true ∧ ((linked { on := true } [] []).setReg .hifCtl 0xFFFFF).fld .hifCtl 19 0 ≠ 0 ∧
    (((linked { on := true } [] []).ring (getF (63 : Word) 5 0)).on = true ∧ ((linked { on := true } [] []).ring (getF (63 : Word) 5 0)).reading = none ∧
      (linked { on := true } [] []).mode.mode ≠ .dormant ∧ (linked { on := true } [] []).mode.mode ≠ .boot) := by
  decide +kernel

/-- A ring whose doorbell record is being read. -/
def readingRing : Ring := { on := true, reading := some 999000, sqHead := 5, cqTail := 9, cqHead := 8 }

/-- The doorbell record of ring pair 63: producer index and consumer index. -/
def record (s : State) (tail head : Nat) : State :=
  { s with hostMem := Mem.writes [] (16 * 63) (leBytes 4 tail ++ leBytes 4 head) }

/-- States and operands for DoorbellsAndCompletions. -/
theorem witness_doorbells :
    (((linked { readingRing with halted := true } [] []).ring 63).on = true ∧ ((linked { readingRing with halted := true } [] []).ring 63).reading.isSome = true ∧
      ((linked { readingRing with halted := true } [] []).ring 63).halted = true) ∧
    (∀ s, s = record (linked readingRing [] []) 22 9 → (s.ring 63).halted = false ∧ 1008 = s.reg64 .hifDbLo .hifDbHi + 16 * 63 ∧
      22 = Mem.num s.hostMem 1008 4 ∧ s.ringSize 63 < (22 + 2 ^ 32 - (s.ring 63).sqHead % 2 ^ 32) % 2 ^ 32) ∧
    (∀ s, s = record (linked readingRing [] []) 5 10 → 10 = Mem.num s.hostMem (1008 + 4) 4 ∧
      (5 + 2 ^ 32 - (s.ring 63).sqHead % 2 ^ 32) % 2 ^ 32 ≤ s.ringSize 63 ∧
      s.ringSize 63 < ((s.ring 63).cqTail % 2 ^ 32 + 2 ^ 32 - 10) % 2 ^ 32) ∧
    (∀ s, s = record (linked readingRing [] []) 5 9 → ((s.ring 63).cqTail % 2 ^ 32 + 2 ^ 32 - 9) % 2 ^ 32 ≤ s.ringSize 63 ∧
      (5 + 2 ^ 32 - (s.ring 63).sqHead % 2 ^ 32) % 2 ^ 32 = 0) ∧
    (∀ s, s = record (linked readingRing [] []) 6 9 → ∀ r', r' = { readingRing with reading := none, cqHead := 9 } →
      ((s.ring 63).cqTail % 2 ^ 32 + 2 ^ 32 - 9) % 2 ^ 32 ≤ s.ringSize 63 ∧ (6 + 2 ^ 32 - (s.ring 63).sqHead % 2 ^ 32) % 2 ^ 32 = 1 ∧
      r' = { s.ring 63 with reading := none, cqHead := (s.ring 63).cqTail - ((s.ring 63).cqTail % 2 ^ 32 + 2 ^ 32 - 9) % 2 ^ 32 } ∧
      (s.setRing 63 r').inflight 63 < s.fld (.hifRingCtl 63) 15 5 ∧ (s.setRing 63 r').inflightAll < 1024 ∧
      (s.queue (s.sqQueue 63)).room 64 = true ∧ 32 * ((s.setRing 63 r').inflight 63 + 1) ≤ (s.queue (s.cqQueue 63)).size) ∧
    (∀ s, s = linked { on := true, cqTail := 15 } [] [packet (List.replicate 32 0)] → (s.ring 63).open' = true ∧ s.hif.up = true ∧
      (s.ring 63).cqTail - (s.ring 63).cqHead < s.ringSize 63 ∧ (s.queue (s.cqQueue 63)).pkts = packet (List.replicate 32 0) :: [] ∧
      s.hurt (s.cqQueue 63) (packet (List.replicate 32 0)) = none) := by
  refine ⟨by decide +kernel, ?_, ?_, ?_, ?_, ?_⟩
  all_goals (intro s h; subst h)
  · decide +kernel
  · decide +kernel
  · decide +kernel
  · intro r' h; subst h; decide +kernel
  · decide +kernel

-- descriptors

/-- A descriptor (R285): identifier 0, flags, OP, TARGET, host address, length, device address and inline data, with its
trailer. -/
def descriptor (flags op target host len dev : Nat) (inl : List Byte) : List Byte :=
  whipped (leBytes 2 0 ++ leBytes 1 flags ++ leBytes 1 op ++ leBytes 4 target ++ leBytes 8 host ++ leBytes 4 len ++ leBytes 4 0 ++
    leBytes 8 dev ++ (inl ++ List.replicate (28 - inl.length) 0))

/-- READY with a descriptor at the head of ring pair 63's submission queue. -/
def withDesc (d : List Byte) : State := linked { on := true } [packet d] []

def nopDesc : List Byte := descriptor 0 0x3F 0 0 0 0 []
def regDesc : List Byte := descriptor 0 0x01 1 0 0 0 (leBytes 4 0x050000 ++ leBytes 4 0x01000000)
def seqDesc (dir : Nat) : List Byte := descriptor dir 0x10 31 0x1000 8 (2 ^ 20 - 8) []

/-- States and operands for Descriptors. -/
theorem witness_descriptors :
    (startsNext (withDesc nopDesc) 63 0x3F nopDesc = true ∧ (withDesc nopDesc).sqQueue 63 ≠ (withDesc nopDesc).cqQueue 63) ∧
    (startsNext ((withDesc regDesc).upTo 0) 63 0x01 regDesc = true ∧ regDesc.length = 64 ∧ dLen regDesc = 0 ∧ dTarget regDesc = 1 ∧
      leAt regDesc 32 4 = 0x050000 ∧ BitVec.ofNat 32 (leAt regDesc 36 4) = 0x01000000 ∧ pairRefused 0x050000 = false ∧
      (((withDesc regDesc).upTo 0).half && farBlock 0x050000) = false ∧ ((withDesc regDesc).upTo 0).absent 0x050000 = false ∧
      RegId.ofOff 0x050000 = some .memCtl) := by decide +kernel

/-- States and operands for Descriptors (loads). -/
theorem witness_loads :
    (∀ s, s = (withDesc (seqDesc 0)).upTo 0 → (s.ply (dStrand (seqDesc 0) / 8)).retrain = none ∧ startsNext s 63 0x10 (seqDesc 0) = true ∧ dDir (seqDesc 0) = false) ∧
    (∀ s, s = (withDesc (seqDesc 0x20)).upTo 0 → startsNext s 63 0x10 (seqDesc 0x20) = true ∧ dDir (seqDesc 0x20) = true ∧
      s.badIn (.seqSram (Fin.ofNat 32 (dStrand (seqDesc 0x20)))) (dDev (seqDesc 0x20)) (dLen (seqDesc 0x20)) = []) ∧
    (∀ d, d = descriptor 0 0x11 31 0x1000 4 (2 ^ 22 - 4) [] → startsNext ((withDesc d).upTo 0) 63 0x11 d = true ∧ dDir d = false) ∧
    (∀ d, d = descriptor 0 0x12 31 0x1000 16 4095 [] → startsNext ((withDesc d).upTo 0) 63 0x12 d = true ∧ dDir d = false ∧ dLen d = 16 ∧
      envEntryOk (Mem.num ((withDesc d).upTo 0).hostMem (dHost d) 4) (Mem.num ((withDesc d).upTo 0).hostMem (dHost d + 4) 4)
        (Mem.num ((withDesc d).upTo 0).hostMem (dHost d + 8) 4) (Mem.num ((withDesc d).upTo 0).hostMem (dHost d + 12) 4) = true) ∧
    (∀ d, d = descriptor 0 0x13 1023 0x1000 4 4095 [] → startsNext ((withDesc d).upTo 0) 63 0x13 d = true ∧ dDir d = false) ∧
    (∀ d, d = descriptor 0 0x14 255 0x1000 8192 0 [] → startsNext (withDesc d) 63 0x14 d = true ∧ dDir d = false ∧ dLen d = 8192) ∧
    (∀ d, d = descriptor 0 0x15 0 0x1000 64 (2 ^ 35 - 64) [] → startsNext ((withDesc d).upTo 0) 63 0x15 d = true ∧ dDir d = false ∧
      (taken ((withDesc d).upTo 0) 63).overlapsQueue 32768 (dDev d) (dDev d + dLen d) = false) ∧
    (∀ d, d = descriptor 0 0x30 0 0x1000 60 0 [] → startsNext (withDesc d) 63 0x30 d = true ∧ dTimed d = false ∧ dChk d = false) := by
  refine ⟨?_, ?_, ?_, ?_, ?_, ?_, ?_, ?_⟩ <;> (intro s h; subst h; decide +kernel)

/-- States and operands for DescriptorBytes and EntryAndHeadCopyBytes. -/
theorem witness_descriptor_bytes :
    ((withDesc nopDesc).queue ((withDesc nopDesc).sqQueue 63)).pkts.head?.map Packet.bytes = some nopDesc ∧
    (((withDesc regDesc).upTo 0).queue (((withDesc regDesc).upTo 0).sqQueue 63)).pkts.head?.map Packet.bytes = some regDesc ∧
    ((linked { on := true } [] [packet (List.replicate 32 0)]).queue ((linked { on := true } [] [packet (List.replicate 32 0)]).cqQueue 63)).pkts.head? =
      some (packet (List.replicate 32 0)) := by decide +kernel

-- queues

/-- A word packet of one word for a core's stream, with its trailer (R302). -/
def streamPacket : List Byte := whipped (leBytes 8 (2 ^ 29 + 8) ++ leBytes 8 0)

/-- READY with queue 40, and a descriptor that names it. -/
def withQueue (d : List Byte) (q : Queue) (host : Mem) : State :=
  { withDesc d with queues := (40, q) :: (withDesc d).queues, hostMem := host }

/-- The three queue descriptors, all of queue 40. -/
def queueDesc (op len : Nat) : List Byte := descriptor 0 op 40 0x1000 len 0 []

theorem ring_other (d : List Byte) (q : Queue) (h : Mem) (m : Nat) : m ≠ 63 → ((withQueue d q h).ring m).open' = false := by
  intro hm
  show ((Tab.get [(63, ({ on := true } : Ring))] m {}).open') = false
  unfold Tab.get
  rw [if_neg (Ne.symm hm)]
  rfl

/-- States and operands for Queues (no ring completes on queue 40). -/
theorem witness_cq (d : List Byte) (q : Queue) (h : Mem) (hd : (withQueue d q h).cqQueue 63 = 127) :
    ∀ m, ((withQueue d q h).ring m).open' = true → (withQueue d q h).cqQueue m ≠ 40 := by
  intro m hm
  by_cases e : m = 63
  · subst e; rw [hd]; decide
  · rw [ring_other d q h m e] at hm; cases hm

/-- States and operands for Queues. -/
theorem witness_queue_descriptors :
    (∀ d q, d = queueDesc 0x20 20 → q = ({ enabled := true, role := 3 } : Queue) → ∀ s, s = withQueue d q (Mem.writes [] 0x1000 streamPacket) →
      40 = bits (dTarget d) 14 0 ∧ q = s.queue 40 ∧ 40 ≠ s.sqQueue 63 ∧ q.enabled = true ∧ q.bound = none ∧ s.cqQueue 63 = 127 ∧
      s.hif.started = [] ∧ startsNext s 63 0x20 d = true ∧ dChk d = false ∧ 2 < q.role ∧ q.role ≠ 4 ∧ (q.role = 6 → q.pkts.length < 64) ∧ 0 < dLen d ∧
      packetLen q.role q.content (Mem.reads s.hostMem (dHost d) (dLen d)) = some (dLen d) ∧
      whipOk (Mem.reads s.hostMem (dHost d) (dLen d)) = true ∧ 2 * dLen d ≤ q.size ∧ q.room (dLen d) = true) ∧
    (∀ d q, d = queueDesc 0x21 64 → q = ({ enabled := true, role := 5, pkts := [packet (List.replicate 32 0)] } : Queue) → ∀ s, s = withQueue d q [] →
      q = s.queue 40 ∧ startsNext s 63 0x21 d = true ∧ 3 < q.role ∧ s.mem.poison = []) ∧
    (∀ d q, d = queueDesc 0x22 0 → q = ({ enabled := true, role := 3, pkts := [packet (List.replicate 32 0)] } : Queue) → ∀ s, s = withQueue d q [] →
      q = s.queue 40 ∧ startsNext s 63 0x22 d = true ∧ 2 < q.role ∧ q.flushAt = none) := by
  refine ⟨?_, ?_, ?_⟩ <;> (intro d q hd hq s hs; subst hd; subst hq; subst hs; decide +kernel)

/-- READY with queue 32767 selected. -/
def selected (q : Queue) : State := { ready.setReg .qmSel 0x7FFF with queues := [(32767, q)] }

/-- States and operands for Queues (control). -/
theorem witness_queue_control :
    ((selected {}).blocksUp = true ∧ (selected {}).selQ = 32767 ∧ ((selected {}).queue 32767).enabled = false ∧ getF (0xFF000003 : Word) 18 18 = 0 ∧
      ({} : Queue).base % ({} : Queue).size = 0 ∧
      ((selected {}).setQueue 32767 (Queue.setRole {} (setF 0xFF000003 16 16 1))).overlapsQueue 32767 0 4096 = false ∧
      (Queue.setRole {} (setF (0xFF000003 : Word) 16 16 1)).role ≠ 0 ∧
      ((selected {}).setQueue 32767 (Queue.setRole {} (setF 0xFF000003 16 16 1))).bufFree ≠ 0) ∧
    ({ base := 64 } : Queue).base % ({ base := 64 } : Queue).size ≠ 0 ∧
    (∀ s, s = selected { enabled := true, role := 3 } → (s.queue s.selQ).enabled = true ∧ (s.queue s.selQ).bound = none ∧ s.queueBusy s.selQ = false) ∧
    (∀ s, s = (linked { on := true } [] []).setReg .qmSel 126 → (s.queue s.selQ).enabled = true ∧ (s.queue s.selQ).bound = none ∧ s.queueBusy s.selQ = true) ∧
    (∀ s, s = selected { enabled := true, role := 3, pendDis := true } → (s.queue 32767).bound = none ∧ (s.queue 32767).pendDis = true ∧ s.queueBusy 32767 = false) := by
  refine ⟨by decide +kernel, by decide +kernel, ?_, ?_, ?_⟩ <;> (intro s h; subst h; decide +kernel)

/-- States and operands for Queues (flush). -/
theorem witness_queue_flush : ∀ s, s = selected { enabled := true, role := 3, flushAt := some 999000 } → ∀ r, r = selected { enabled := true, role := 3 } →
    (r.blocksUp = true ∧ (r.queue r.selQ).enabled = true ∧ (r.queue r.selQ).bound = none ∧ (r.queue r.selQ).flushAt = none ∧
      (r.queue r.selQ).role ≠ 1 ∧ (r.queue r.selQ).role ≠ 2 ∧ getF (0xFF010000 : Word) 16 16 = 1 ∧ ∀ m, (r.ring m).open' = false) ∧
    ((s.queue 32767).bound = none ∧ (s.queue 32767).flushAt = some 999000 ∧ ∀ m, (s.ring m).open' = false) := by
  intro s hs r hr; subst hs; subst hr
  exact ⟨⟨by decide +kernel, by decide +kernel, by decide +kernel, by decide +kernel, by decide +kernel, by decide +kernel, by decide +kernel,
    fun _ => rfl⟩, by decide +kernel, by decide +kernel, fun _ => rfl⟩

-- monitor inputs and trigger I/O

/-- RUN with a set register. -/
def runReg (r : RegId) (w : Word) : State := running.setReg r w

/-- States and operands for MonitorAndTriggerIo. -/
theorem witness_monitor :
    (∀ s, s = { runReg (.monCtl 63) 0xFF000001 with strands := [(31, { gate := .ungated })] } → s.monRuns 63 = true ∧ (s.monIn 63).skip = 0) ∧
    (∀ s, s = { runReg (.monCtl 63) 0xFF000001 with strands := [(31, { gate := .ungated })], mon := [(63, { skip := 2 })] } →
      s.monRuns 63 = true ∧ 0 < (s.monIn 63).skip) := by
  refine ⟨?_, ?_⟩ <;> (intro s h; subst h; decide +kernel)

/-- A segment of unit 79 of S31 that has ended. -/
def endedSeg : Seg := { streamSeg with start := 990000, stop := 990064, src := 0 }

/-- States and operands for MonitorAndTriggerIo (triggers). -/
theorem witness_triggers :
    (∀ a, a = running.upTo 0 → a.trigOn = true ∧ 7 < 8 + a.fld (.tioInCtl 31) 11 8 ∧ 8 + a.fld (.tioInCtl 31) 11 8 ≤ 23 ∧
      Tab.get a.tio.level 31 0 ≠ b2n (true != decide (a.fld (.tioInCtl 31) 2 2 = 1))) ∧
    (running.blocksUp = true ∧ ∀ a, a = running.upTo 0 → (a.gateBusy (trigUnit (.out 31) (a.reg (trigReg (.out 31)))) ||
      a.gateBusy (trigUnit (.out 31) (RegId.mergeX (trigReg (.out 31)) (a.reg (trigReg (.out 31))) 0))) = false) ∧
    (∀ s, s = { runReg (.tioEwCtl 31) 0x80001F4F with cores := [(248, { st := .running, busy := 2000000 })] }.upTo 0 →
      (s.gateBusy (trigUnit (.window 31) (s.reg (trigReg (.window 31)))) ||
        s.gateBusy (trigUnit (.window 31) (RegId.mergeX (trigReg (.window 31)) (s.reg (trigReg (.window 31))) 0))) = true) ∧
    (∀ s, s = { runReg (.tioEwCtl 31) 0x80001F4F with units := [(80 * 31 + 79, { seg := some endedSeg })] }.upTo 0 → s.fld (.tioEwCtl 31) 31 31 = 1 ∧
      ((s.punit (s.fld (.tioEwCtl 31) 12 8) (s.fld (.tioEwCtl 31) 6 0)).intervals.find? (fun i => decide (i.1 < i.2) && decide (i.2 ≤ s.now) &&
        decide ((Tab.get s.tio.wins 31 {}).from' ≤ i.1) && (Tab.get s.tio.wins 31 {}).done.all (fun d => decide (d < i.1)))) = some (990000, 990064)) := by
  refine ⟨?_, ⟨by decide +kernel, ?_⟩, ?_, ?_⟩ <;> (intro s h; subst h; decide +kernel)

-- calibration

/-- READY with BGEN, P3 locked, S31 ungated, and converter 767 in a state. -/
def cal767 (x : Conv) : State :=
  { ready.setReg .calCtl 0xFF000101 with plies := [(3, { st := .locked })], strands := [(31, { gate := .ungated })], convs := [(767, x)], now := 10 ^ 12 }

def step767 : CalStep := { start := 1000, stop := 129000, kind := .gap, range := 0 }

/-- States and operands for CalibrationSteps. -/
theorem witness_calibration :
    (∀ s, s = cal767 {} → (s.conv 767).due = none ∧ (s.conv 767).again = none ∧ Tab.get? (s.conv 767).last (s.convRange 767) = none) ∧
    (∀ s, s = cal767 { last := [(0, 0), (1, 0), (2, 0), (3, 0)] } → (s.conv 767).due = none ∧ (s.conv 767).again = none ∧
      Tab.get? (s.conv 767).last (s.convRange 767) = some 0 ∧ 0 + s.calInterval ≤ (s.at 0).now) ∧
    (∀ s, s = (cal767 { due := some 1000 }).upTo 0 → (s.conv 767).due = some 1000 ∧ s.mayStep 767 = true ∧ s.findsPlace 767 (up8 s.now) = true ∧
      s.preceded 767 1000 (up8 s.now) = false ∧ up8 (s.deadline 767 1000) ≤ up8 s.now ∧ (s.engine (convStrand 767 / 8)).refBad = false) ∧
    (∀ s, s = cal767 { step := some step767 } → (s.conv 767).step = some step767 ∧ step767.void = false) := by
  refine ⟨?_, ?_, ?_, ?_⟩ <;> (intro s h; subst h; decide +kernel)

/-- States and operands for CalibrationSteps (corrections). -/
theorem witness_corrections :
    (∀ s, s = (cal767 { meas := some step767 }).upTo 0 → s.mc.running = true ∧ (s.conv 767).meas = some step767 ∧
      isOutlier 767 ((s.conv 767).inForce 0 s.now) (formedCorr ⟨2001, 0, 0⟩) = true ∧
      isOutlier 767 ((s.conv 767).inForce 0 s.now) (formedCorr ⟨2000, 500, 0⟩) = false ∧ s.mode.mode ≠ .calibrate) ∧
    (∀ s, s = { cal767 { meas := some step767 } with mode := { mode := .calibrate } }.upTo 0 → s.mode.mode = .calibrate ∧ s.mode.trans = none ∧ s.fgEnd ≤ s.now) ∧
    (∀ s, s = (cal767 {}).setReg (.calApply 767) 0xFF000010 → s.fld (.calApply 767) 16 16 = 0) ∧
    (∀ s, s = (cal767 { pend := some (2, {}) }).upTo 0 → (s.conv 767).pend = some (2, {}) ∧ s.idleAt 767 (up8 s.now) = true) ∧
    (∀ s, s = cal767 { ramp := some ⟨0, 0, 1, {}, {}⟩ } → (s.conv 767).ramp = some ⟨0, 0, 1, {}, {}⟩) := by
  refine ⟨?_, ?_, ?_, ?_, ?_⟩ <;> (intro s h; subst h; decide +kernel)

-- registers

/-- States and operands for RegisterRows. -/
theorem witness_register_rows :
    (RegId.ofOff (0xFFFFFC : BitVec 24).toNat = none ∧ (7 : BitVec 4) ≠ 15) ∧
    (ready.responds (0x061BFC : BitVec 24).toNat = true ∨ ready.responds (0x061BFC : BitVec 24).toNat = false) ∧
    (∃ off : BitVec 24, RegId.ofOff off.toNat = some (.calApply 767) ∧ ready.responds off.toNat = true ∧ getF (0x02000000 : Word) 31 24 ≤ 2 ∧
      getF (0xFF000400 : Word) 31 24 = 255) ∧
    (∃ off : BitVec 24, RegId.ofOff off.toNat = some .memTestBaseHi ∧ ready.responds off.toNat = true) ∧
    (∃ off : BitVec 24, RegId.ofOff off.toNat = some .memFlags ∧ ready.responds off.toNat = true) ∧
    (∃ off : BitVec 24, RegId.ofOff off.toNat = some .memCeCnt ∧ ready.responds off.toNat = true ∧ RegId.isRc .memCeCnt = true ∧
      RegId.highOf .memCeCnt = none ∧ RegId.lowOf .memCeCnt = none ∧ ∀ l, RegId.memCeCnt ≠ .hchPrbsErr l) ∧
    (∃ off : BitVec 24, RegId.ofOff off.toNat = some .memTestBaseLo ∧ ready.responds off.toNat = true ∧ RegId.highOf .memTestBaseLo = some .memTestBaseHi ∧
      RegId.isRc .memTestBaseLo = false ∧ RegId.measuredMask .memTestBaseLo = 0) := by
  refine ⟨by decide +kernel, by decide +kernel, ⟨BitVec.ofNat 24 (RegId.off (.calApply 767)), by decide +kernel⟩,
    ⟨BitVec.ofNat 24 (RegId.off .memTestBaseHi), by decide +kernel⟩, ⟨BitVec.ofNat 24 (RegId.off .memFlags), by decide +kernel⟩,
    ⟨BitVec.ofNat 24 (RegId.off .memCeCnt), by decide +kernel, by decide +kernel, by decide +kernel, by decide +kernel, by decide +kernel, fun _ h => by cases h⟩,
    ⟨BitVec.ofNat 24 (RegId.off .memTestBaseLo), by decide +kernel⟩⟩

/-- States and operands for RegisterOffsets and UnassignedOffsets. -/
theorem witness_offsets : RegId.ofOff 0x050000 = some .memCtl ∧ RegId.ofOff 0x050002 = none ∧ { ready with half := true }.absent 0x300000 = true := by
  decide +kernel

/-- States and operands for HeldWriteTakesEffect. -/
theorem witness_held_write : ∀ s : State, s = { ready with held := [(RegId.off (.seqOwn 31 79), 7)] } →
    RegId.ofOff (BitVec.ofNat 24 (RegId.off (.seqOwn 31 79))).toNat = some (.seqOwn 31 79) ∧ s.heldFor (.seqOwn 31 79) = some 7 ∧ strandIdle (s.upTo 0) 31 = true := by
  intro s h; subst h; decide +kernel

/-- States and operands for RegisterFrame. -/
theorem witness_register_frame : regsOf (.registerWrite 0 0x050000 0 15) = some (writesOf .memCtl) ∧ regsOf (.halt 0) = none ∧
    regsOf (.calDue 0 767) = some [] := by decide +kernel

/-- States and operands for KeyedWrites. -/
theorem witness_keys : RegId.ofOff (0x001000 : BitVec 24).toNat = some .modeCtl ∧ needsKey .modeCtl 0xA5000100 = true ∧
    getF (0xA5000100 : Word) 31 24 ≠ 0x5A ∧ (0xA5 : BitVec 8) ≠ 0x5A := by decide +kernel

/-- States and operands for MemoryProfile, ThermalProfile, DiscriminationProfile and JournalRegisters. -/
theorem witness_profiles : ready.blocksUp = true ∧ ready.supply ≠ .off ∧ ready.mode.mode ≠ .dormant ∧ getF (0x02000000 : Word) 31 24 ≤ 2 ∧
    (∃ off : BitVec 24, RegId.ofOff off.toNat = some (.discCtl 31 31) ∧ (strand31 { gate := .ungated }).responds off.toNat = true) ∧
    strandTakes ((strand31 { gate := .ungated }).upTo 0) 31 ∧ getF (0x01000000 : Word) 31 24 ≤ 1 := by
  refine ⟨by decide +kernel, by decide +kernel, by decide +kernel, by decide +kernel, ⟨BitVec.ofNat 24 (RegId.off (.discCtl 31 31)), by decide +kernel⟩,
    by unfold strandTakes; decide +kernel, by decide +kernel⟩

-- memory integrity

/-- States and operands for MemoryIntegrity. -/
theorem witness_memory :
    (running.hbmOn = true ∧ running.fld .memCtl 23 16 ≠ 0 ∧ running.mem.poison.contains running.mem.scrubPos = false ∧
      running.correctable (([0, 67].map (Fin.val : Fin 68 → Nat)).dedup) = true ∧ ([0, 67] : List (Fin 68)) ≠ [] ∧
      running.correctable ((([0, 33, 67] : List (Fin 68)).map (·.val)).dedup) = false) ∧
    ((running.ply 0).st = .locked ∧ (running.ply 0).retrain = none ∧ running.blocksUp = true) ∧
    (running.scrubs (.seqSram 0) = true ∧ running.scrubs .burst = true ∧ (∀ k, SramId.seqSram 0 ≠ .staging k) ∧ SramId.seqSram 0 ≠ .burst) ∧
    ((ply3 { st := .locked, retrain := some 999000 }).ply 3).retrain = some 999000 := by
  refine ⟨by decide +kernel, by decide +kernel, ⟨by decide +kernel, by decide +kernel, fun k h => (by cases h), by decide⟩, by decide +kernel⟩

/-- TEST with the self-test registers as written by w, base and length. -/
def testing (base len : Word) : State := ((inMode .test).setReg .memTestBaseLo base).setReg .memTestLenLo len

/-- A test of kernel memories of strand n. -/
def test3 (n : Nat) (s : State) (w : Word) : MemTest :=
  { target := ((s.at 0).writeFields .memTestCtl (setF w 31 31 1)).fld .memTestCtl 11 8, strand := n,
    base := (testRange 3 4095 1).1, len := (testRange 3 4095 1).2,
    raw := decide (((s.at 0).writeFields .memTestCtl (setF w 31 31 1)).fld .memTestCtl 15 15 = 1) }

/-- States and operands for MemoryTest. -/
theorem witness_memory_test :
    (ready.blocksUp = true ∧ ready.mode.mode ≠ .test) ∧
    (∀ s w x, s = testing 4095 1 → w = (0x31F : Word) → x = test3 31 s w → s.blocksUp = true ∧ s.mode.mode = .test ∧ s.mode.trans = none ∧ s.mem.test = none ∧
      getF w 30 30 = 0 ∧ x.strand = ((s.at 0).writeFields .memTestCtl (setF w 31 31 1)).fld .memTestCtl 4 0 ∧
      (x.base, x.len) = testRange x.target (s.reg64 .memTestBaseLo .memTestBaseHi) (s.reg64 .memTestLenLo .memTestLenHi) ∧ s.testRefused x = false) ∧
    (∀ s w x, s = { testing 4095 1 with half := true } → w = (0x31F : Word) → x = test3 31 s w → s.testRefused x = true) ∧
    (∀ s x, x = test3 0 (testing 0 0) 0 → s = { testing 0 0 with mem := { test := some x } } → s.mem.test = some x ∧ x.abort = false) ∧
    (∀ s x, x = { test3 0 (testing 0 0) 0 with abort := true } → s = { testing 0 0 with mem := { test := some x } } → s.mem.test = some x ∧ x.abort = true) := by
  refine ⟨by decide +kernel, ?_, ?_, ?_, ?_⟩
  · intro s w x hs hw hx; subst hs; subst hw; subst hx; decide +kernel
  · intro s w x hs hw hx; subst hs; subst hw; subst hx; decide +kernel
  · intro s x hx hs; subst hx; subst hs; exact ⟨rfl, rfl⟩
  · intro s x hx hs; subst hx; subst hs; exact ⟨rfl, rfl⟩

-- power and management

/-- A journal record that waits. -/
def cause1 : JCause := { kind := 1, time := 0, mode := 2, safe := 0, rails := 0, temps := [] }

/-- States and operands for PowerAndSensors. -/
theorem witness_power :
    (running.supply = .on ∧ running.supply ≠ .off ∧ running.mode.mode ≠ .dormant ∧ running.mode.mode ≠ .safe ∧ running.mode.tripAt = none ∧
      running.railOn 0 = true ∧ running.railOn 1 = true ∧ running.railOn 2 = true ∧ running.railOn 3 = true ∧ running.railOn 4 = true) ∧
    (∀ s : State, s = { running with supply := .holdUp } → s.supply = .holdUp ∧ s.pwr.jPend = []) ∧
    (∀ s : State, s = { running with supply := .holdUp, pwr := { jPend := [cause1] } } → s.supply = .holdUp ∧ s.supply ≠ .off ∧ s.mc.running = true ∧
      s.pwr.jPend ≠ [] ∧ s.pwr.jPend = cause1 :: []) ∧
    ((List.replicate 22 (320 : Int)).length = 22 ∧ (List.replicate 8 (none : Option Int)).length = 8) := by
  refine ⟨by decide +kernel, ?_, ?_, by decide⟩ <;> (intro s h; subst h; decide +kernel)

/-- States and operands for ControllerRestart. -/
theorem witness_restarts :
    (running.mc.running = true ∧ running.mode.mode ≠ .dormant ∧ (0xA5 : BitVec 8) ≠ 0x5A) ∧
    (∀ s : State, s = { running with mc := { restart := some 999000 } } → s.mc.restart = some 999000 ∧ s.mc.sel.fw < 2 ∧
      s.verify 1 s.mc.sel.fw good false = 0 ∧ s.verify 1 0 { good with sigOk := false } false ≠ 0 ∧ s.verify 1 1 good false ≠ 0) := by
  refine ⟨by decide +kernel, ?_⟩; intro s h; subst h; decide +kernel

/-- READY with a mailbox command at work: its word, its argument and the transfer under way. -/
def mailbox (cmd arg : Word) (x : Option Xfer) : State :=
  { (ready.setReg .mcMbCmd cmd).setReg .mcMbArg arg with mc := { running := true, busy := true, xfer := x } }

/-- The mailbox with the inactive firmware slot filled as the active one is. -/
def filled (x : Xfer) : State :=
  { mailbox 0x03000000 0 none with mc := { running := true, busy := true, xfer := some x, slots := [(0, shippedHeader 1 4096), (1, shippedHeader 1 4096)] } }

/-- States and operands for MailboxCommands. -/
theorem witness_mailbox :
    (∀ s, s = mailbox 0x01000002 (BitVec.ofNat 32 (slotSize 2)) none → s.mbTakes 0x01 = true ∧ (s.mbArg = 1 ∨ s.mbArg = 2) ∧
      (s.reg .mcMbArg).toNat ≠ 0 ∧ (s.reg .mcMbArg).toNat ≤ slotSize s.mbArg) ∧
    (∀ s, s = mailbox 0x01000003 0 none → s.mbTakes 0x01 = true ∧ (s.mbArg = 0 ∨ 3 ≤ s.mbArg)) ∧
    (∀ s, s = mailbox 0x02000000 0 none → s.mbTakes 0x02 = true ∧ s.mc.xfer = none) ∧
    (∀ s, s = mailbox 0x02000001 2048 (some ⟨1, 4096, []⟩) → s.mc.xfer = some ⟨1, 4096, []⟩ ∧ (s.reg .mcMbArg).toNat ≠ 0 ∧
      (s.reg .mcMbArg).toNat ≤ 2048 ∧ 2048 * s.mbArg + (s.reg .mcMbArg).toNat ≤ 4096) ∧
    (∀ s, s = mailbox 0x03000000 0 (some ⟨1, 4096, [0]⟩) → s.mbTakes 0x03 = true ∧ s.mbArg = 0 ∧ 1 < (4096 + 2047) / 2048 ∧ 1 ∉ [0]) ∧
    (∀ s, s = filled ⟨1, 4096, [1, 0]⟩ → s.mbTakes 0x03 = true ∧ s.mbArg = 0 ∧ (∀ i, i < (4096 + 2047) / 2048 → i ∈ [1, 0]) ∧
      s.verify 1 (s.inactive 1) { { good with sigOk := false } with flashOk := true } false ≠ 0 ∧
      s.verify 1 (s.inactive 1) { good with flashOk := true } false = 0) := by
  refine ⟨?_, ?_, ?_, ?_, ?_, ?_⟩ <;> (intro s h; subst h; decide +kernel)

/-- States and operands for MailboxCommands (reads). -/
theorem witness_mailbox_reads :
    (∀ s, s = mailbox 0x04000000 0 none → s.mbTakes 0x04 = true ∧ s.mbArg = 0) ∧
    (∀ s, s = mailbox 0x05005A01 0 none → s.mbTakes 0x05 = true ∧ s.mbArg = 0x5A01) ∧
    (∀ s, s = mailbox 0x05005A02 0 none → s.mbTakes 0x05 = true ∧ s.mbArg = 0x5A02) ∧
    (∀ s, s = mailbox 0x05005B01 0 none → s.mbTakes 0x05 = true ∧ s.mbArg / 256 ≠ 0x5A) ∧
    (∀ s, s = mailbox 0x1000007F 0 none → s.mbTakes 0x10 = true ∧ s.mbArg < 128) ∧
    (∀ s, s = mailbox 0x10000080 0 none → s.mbTakes 0x10 = true ∧ 128 ≤ s.mbArg) ∧
    (∀ s, s = mailbox 0x110003FF 0 none → s.mbTakes 0x11 = true ∧ s.mbArg < 1024) ∧
    (∀ s, s = mailbox 0x11000400 0 none → s.mbTakes 0x11 = true ∧ 1024 ≤ s.mbArg) := by
  refine ⟨?_, ?_, ?_, ?_, ?_, ?_, ?_, ?_⟩ <;> (intro s h; subst h; decide +kernel)

-- invariants

/-- States and operands for MemoriesStayCanonical, TimeStaysBounded, ModuleTime and IdleStep. -/
theorem witness_invariants : memOk ready = true ∧ timeOk ready ∧ ready.pending = [] ∧
    (∃ u, step ready = .next u) ∧ RegId.ofOff 0 ≠ none := by
  refine ⟨by decide, by unfold timeOk; decide, rfl, ⟨_, rfl⟩, by decide +kernel⟩

-- single steps, with results from the manual's examples and tables

/-- The state that an outcome leaves. -/
def after (o : Host.Outcome State Fault Refusal) : State := match o with | .next u => u | _ => State.reset

/-- The check values that R193 and R234 give for the ASCII bytes "123456789". -/
theorem test_check_values : crc32c [0x31, 0x32, 0x33, 0x34, 0x35, 0x36, 0x37, 0x38, 0x39] = 0xE3069283 ∧
    crc16 [0x31, 0x32, 0x33, 0x34, 0x35, 0x36, 0x37, 0x38, 0x39] = 0x29B1 := by decide +kernel

/-- The record of chapter 19's example: module 2, core 16, SEQ 0x3F. -/
theorem test_event_record : ∀ s : State, s = { (running.setReg .hchCtl 2).setReg .qmCtl 0x80000000 with ev := { seq := 0x3F }, queues := [(0, { enabled := true, role := 5 })] } →
    (((s.raise .trigLost 16 16 40000512 (wd64 40000123)).queue 0).pkts.map (fun p => (List.range 7).map (fun i => leAt p.bytes (4 * i) 4))) =
      [[0x0204023F, 0x10, 0x02625C00, 0, 0x02625A7B, 0, 0]] := by
  intro s h; subst h; decide +kernel

/-- The HOLD example of R48: a request in the cycle of tick 7,999,984 pauses at 8,000,000. -/
theorem test_hold_pause : (after (exec (.reqHold 7999990 false false) running)).mode.tPause = 8000000 := by decide +kernel

/-- The JCOND word of chapter 03's example. -/
theorem test_jcond_fields : ∀ w : Nat, w = 0xAC44800082AA008C → wOp w = 0x15 ∧ wTmode w = 2 ∧ wDelta w = 17536 ∧ bits w 39 23 = 0x105 ∧
    bits w 22 20 = 2 ∧ bit w 19 = true ∧ bits w 18 17 = 1 ∧ bits w 16 14 = 0 ∧ bits w 11 0 = 0x08C := by
  intro w h; subst h; decide +kernel

/-- A word in END mode issues DELTA after the end of the previous word (R67), and a WAIT ends its operand later (R71). -/
theorem test_wait_end_mode : ∀ s, s = after (exec (.wait 248) (atWord (word 0x01 1 5 100) { tPrev := 1000, ePrev := 2000 })) →
    (s.core 248).tPrev = 2005 ∧ (s.core 248).ePrev = 2105 ∧ (s.core 248).pc = 1 := by
  intro s h; subst h; decide +kernel

/-- The second ENDBIGHT of a bight of two leaves it; its issue time is no iteration's start (R77). -/
theorem test_endbight_leaves : ((after (exec (.endbight 248) (atWord (word 0x11 0 0 0) { nested with bights := [⟨1, 1, 0, false⟩] }))).core 248).bights = [] := by
  decide +kernel

/-- The write 0x0301_0000 of chapter 00's example makes the selected queue a waveform stream and enables it. -/
theorem test_queue_profile : ∀ s, s = after (exec (.queueEnable 0 0x03010000) (selected {})) →
    (s.queue 32767).enabled = true ∧ (s.queue 32767).role = 3 ∧ (s.queue 32767).thr = 8 := by
  intro s h; subst h; decide +kernel

/-- A hub sensor at 45, 70 and 85 degrees puts the module in T1, T2 and T3; at 44.9375 it stays in T0 (R380). -/
theorem test_bands : ([719, 720, 1120, 1360].map (fun v => (after (exec (.dieSensorRead 0 (v :: List.replicate 21 320)) running)).thm.modBand)) = [0, 1, 2, 3] := by
  decide +kernel

/-- Mains in DORMANT: the supply is on and the module waits there (R50). -/
theorem test_mains_on : ∀ s, s = after (exec (.mainsOn 0 (List.replicate 22 320) good good true) State.reset) → s.supply = .on ∧ s.mode.mode = .dormant := by
  intro s h; subst h; decide +kernel

/-- MEM_CTL profile NOSCRUB (R371): scrub rate 0 and MARKTHR 0x10, AUTOMARK 0. -/
theorem test_noscrub : ∀ s, s = after (exec (.profileWrite 0 0x050000 0x02000000) ready) →
    s.fld .memCtl 31 24 = 2 ∧ s.fld .memCtl 23 16 = 0 ∧ s.fld .memCtl 15 8 = 0x10 ∧ s.fld .memCtl 0 0 = 0 := by
  intro s h; subst h; decide +kernel

/-- A 64-bit value is taken with its high word (R11). -/
theorem test_reg64 : ∀ s, s = after (exec (.registerWrite 0 (BitVec.ofNat 24 (RegId.off .memTestBaseLo)) 0x12345678 15) ready) →
    s.reg64 .memTestBaseLo .memTestBaseHi = 0 ∧
    (after (exec (.reg64HighWrite 8 (BitVec.ofNat 24 (RegId.off .memTestBaseHi)) 1) s)).reg64 .memTestBaseLo .memTestBaseHi = 0x112345678 := by
  intro s h; subst h; decide +kernel

/-- A strand that gates has lost its cores' state after the gating (R57, R61). -/
theorem test_gated : ((after (exec (.strandGated 31) { strand31 { gate := .gating, due := 1000050 } with cores := [(255, { st := .done })] })).core 255).st = .idle := by
  decide +kernel

/-- An edge that is counted sets the trigger bit with the edge's own stamp (R326, R327). -/
theorem test_trigger_bit : Tab.get (after (exec (.triggerEdge 1000003 31 true 8) running)).dec.trigs 31 [] =
    [{ at' := 1000003, stamp := 1000003, val := 1 }] := by decide +kernel

/-- Three positions in one codeword are beyond the code: the payload address is 64 times the codeword (R359). -/
theorem test_uncorrectable : ∀ s, s = after (exec (.scrubRead 0 [1, 20, 40]) { running with mem := { scrubPos := 5 } }) →
    s.mem.ueAddr = 0x140 ∧ s.mem.poison = [5] ∧ s.mem.scrubPos = 6 := by
  intro s h; subst h; decide +kernel

/-- The empty queue of commands: 8 ticks pass, 400 in DORMANT (notes/assumptions/2), none with the supply off. -/
theorem test_idle : (after (step running)).now = 1000008 ∧ (after (step (inMode .dormant))).now = 1000400 ∧ (after (step State.reset)).now = 0 := by
  decide +kernel
end Sys2Proof.Tests
end

section
/-! A mode request that the transition table does not list from the current mode (R41, R42). -/

namespace Sys2Proof
open Sys2Proof.Machine

/-- The requests that the table of R41 does not list from the mode of s, and a SAFE_ACK that R44 turns down. -/
def Unlisted (s : State) : Req → Prop
  | .run => s.mode.mode ≠ .ready ∧ s.mode.mode ≠ .hold
  | .hold => s.mode.mode ≠ .run
  | .ready => s.mode.mode ∉ [Mode.run, .hold, .calibrate, .test]
  | .calibrate => s.mode.mode ≠ .ready
  | .test => s.mode.mode ≠ .ready
  | .dormant => s.mode.mode ≠ .ready ∧ s.mode.mode ≠ .safe
  | .safeAck => s.mode.mode ≠ .safe ∨ s.mode.causes.all s.causeClear = false ∨ s.mode.ucValid = false
  | .reset => False

/-- READY asked for in a mode that does not list it is refused. -/
theorem askReady_unlisted (s : State) (h : s.mode.mode ∉ [Mode.run, .hold, .calibrate, .test]) :
    s.askReady = s.refuse s.now := by
  unfold State.askReady
  cases hm : s.mode.mode <;> simp [hm] at h ⊢

/-- SAFE_ACK with an uncleared cause or without microcode is refused (R44). -/
theorem askAck_uncleared (s : State) (h : s.mode.causes.all s.causeClear = false ∨ s.mode.ucValid = false) :
    s.askAck = s.refuse s.now := by
  unfold State.askAck
  rcases h with h | h <;> simp [h]

/-- An unlisted request changes nothing but to raise MODE_REFUSED (R42). -/
theorem carryOut_unlisted (s : State) (r : Req) (h : Unlisted s r) : s.carryOut r = s.refuse s.now := by
  cases r with
  | run => exact if_pos h
  | hold => exact if_neg h
  | ready => exact askReady_unlisted s h
  | calibrate => exact if_neg h
  | test => exact if_neg h
  | dormant => exact if_neg (not_or.mpr h)
  | safeAck =>
    by_cases hm : s.mode.mode = .safe
    · exact (if_pos hm).trans (askAck_uncleared s (h.resolve_left (not_not.mpr hm)))
    · exact if_neg hm
  | reset => exact h.elim

/-- Storing HOLDWARN, HOLDREF and REQ and refreshing the HOLD causes clears no trip cause and makes none: of the registers
only THM_CTL counts. -/
theorem causeClear_of_preOk {s a : State} (h : preOk s a) : a.causeClear = s.causeClear := by
  obtain ⟨rg, hrg, rfl⟩ := h
  have htherm : State.thermClear { s with mode := reqMode s, regs := rg } = s.thermClear := by
    have hfld : State.fld { s with mode := reqMode s, regs := rg } .thmCtl 7 4 = s.fld .thmCtl 7 4 :=
      congrArg (getF · 7 4) (hrg .thmCtl (by decide))
    simp only [State.thermClear, hfld]
  funext i
  simp only [State.causeClear, htherm]
  rfl

/-- The state on which a request is carried out lists what the state before it lists. -/
theorem Unlisted.of_preOk {s a : State} (h : preOk s a) {r : Req} (hr : Unlisted s r) : Unlisted a r := by
  have hc := causeClear_of_preOk h
  obtain ⟨rg, -, rfl⟩ := h
  cases r with
  | safeAck => unfold Unlisted; rw [hc]; exact hr
  | _ => exact hr

/-- An unlisted request that reaches its carrying out is refused as R42 says. -/
theorem refused_of_unlisted {s a u : State} {r : Req} (hn : noHoldCause s) (ht : s.mode.trans = none) (hr : Unlisted s r)
    (ha : preOk s a) (hu : u = (a.carryOut r).evalHold) : refused s u := by
  subst hu
  exact refused_of s a ha hn ht _ (carryOut_unlisted a r (hr.of_preOk ha))

/-- A REQ of MODE_CTL for any mode but DORMANT is refused where the table does not list it. -/
theorem wrModeCtl_req_refused (s : State) (c : Fin 8) (r : Req) (hw hr : Bool) (hc : c.val ≠ 0) (hq : reqOf c.val = some r)
    (hm : s.mode.mode ≠ .dormant) (hn : noHoldCause s) (ht : s.mode.trans = none) (h : Unlisted s r) :
    refused s (s.wrModeCtl (modeWord 0 (8 + c.val) hw hr)) := by
  obtain ⟨a, ha, hu⟩ := pre s c r hw hr hc hq hm hn ht
  exact refused_of_unlisted hn ht h ha hu

/-- REQ = DORMANT with the key is refused outside READY and SAFE. -/
theorem wrModeCtl_dormant_refused (s : State) (hw hr : Bool) (hm : s.mode.mode ≠ .dormant) (hn : noHoldCause s)
    (ht : s.mode.trans = none) (h : Unlisted s .dormant) : refused s (s.wrModeCtl (modeWord 0x5A 8 hw hr)) := by
  obtain ⟨a, ha, hu⟩ := preD s hw hr hm hn ht
  exact refused_of_unlisted hn ht h ha hu

/-- SAFE_ACK with the key is refused outside SAFE, with an uncleared cause and without microcode. -/
theorem wrModeCtl_safeAck_refused (s : State) (hw hr : Bool) (hm : s.mode.mode ≠ .dormant) (hn : noHoldCause s)
    (ht : s.mode.trans = none) (h : Unlisted s .safeAck) : refused s (s.wrModeCtl (modeWord 0x5A 512 hw hr)) := by
  obtain ⟨a, ha, hu⟩ := preA s hw hr hm hn ht
  exact refused_of_unlisted hn ht h ha hu

/-- Settles O16: every request of the statement is an unlisted one, and those are refused. -/
theorem modeRequestsRefused : Obligations.ModeRequestsRefused := by
  unfold Obligations.ModeRequestsRefused
  intro s a t hw hr ha ht hn hm
  subst ha
  have req (c : Fin 8) (r : Req) (hc : c.val ≠ 0) (hq : reqOf c.val = some r) (h : Unlisted (s.upTo t) r) :=
    wrModeCtl_req_refused (s.upTo t) c r hw hr hc hq hm hn ht h
  refine ⟨fun h1 h2 => ?run, fun h => ?hold, fun h => ?ready, fun h => ⟨?calibrate, ?test⟩, fun h1 h2 => ?dormant,
    fun h => ?ack⟩
  case run => exact ⟨_, rfl, req 3 .run (by decide) rfl ⟨h1, h2⟩⟩
  case hold => exact ⟨_, rfl, req 4 .hold (by decide) rfl h⟩
  case ready => exact ⟨_, rfl, req 2 .ready (by decide) rfl h⟩
  case calibrate => exact ⟨_, rfl, req 5 .calibrate (by decide) rfl h⟩
  case test => exact ⟨_, rfl, req 6 .test (by decide) rfl h⟩
  case dormant => exact ⟨_, rfl, wrModeCtl_dormant_refused _ hw hr hm hn ht ⟨h1, h2⟩⟩
  case ack => exact ⟨_, rfl, wrModeCtl_safeAck_refused _ hw hr hm hn ht h⟩

end Sys2Proof
end

section
/-! Register writes that need the key and lack it (R59, R397, R424). -/

namespace Sys2Proof
open Sys2Proof.Machine

/-- The STR_ page of a strand begins at its STR_CTL, so a write of STR_CTL that has a strand is on that page. -/
theorem isStr_strCtl (k n : Nat) (h : RegId.strandOf (.strCtl k) = some n) : RegId.isStr (.strCtl k) = true := by
  have hp : RegId.off (.strCtl k) % 0x10000 < 0x80 := by
    simp only [RegId.off, strandBase]
    omega
  simp [RegId.isStr, h, hp]

/-- STR_CTL written without the key is discarded (R424). -/
theorem wrStrCtl_unkeyed (a : State) (n : Nat) (w : Word) (hk : getF w 31 24 ≠ 0x5A) : a.wrStrCtl n w = a :=
  if_neg fun h => hk h.2

/-- MC_CTL written without the key is discarded (R397). -/
theorem wrMcCtl_unkeyed (a : State) (w : Word) (pc : Nat) (hk : getF w 31 24 ≠ 0x5A) : a.wrMcCtl w pc = a :=
  if_neg fun h => hk h.2

/-- A write to a writable register of the hub without W1C bits goes to the hub (R415). -/
theorem writeReg_hub (a : State) (r : RegId) (w : Word) (hf : r.maskOf .w1c = 0) (hw : r.writable = true)
    (hs : r.strandOf = none) : a.writeReg r w = a.wrHub r w := by
  unfold State.writeReg
  simp [flags_none a r w hf, hw, hs]

/-- A write to a writable register of a strand's STR_ page without W1C bits goes to STR_CTL (R424). -/
theorem writeReg_str (a : State) (r : RegId) (w : Word) (n : Nat) (hf : r.maskOf .w1c = 0) (hw : r.writable = true)
    (hs : r.strandOf = some n) (hp : r.isStr = true) : a.writeReg r w = a.wrStrCtl n w := by
  unfold State.writeReg
  simp [flags_none a r w hf, hw, hs, hp]

/-- A register write that needs the key and lacks it is discarded in whole (R59): no such register has a bit that a
written 1 clears, and each one's own write is discarded. -/
theorem writeReg_unkeyed (a : State) (r : RegId) (w : Word) (hn : needsKey r w = true) (hk : getF w 31 24 ≠ 0x5A) :
    a.writeReg r w = a := by
  cases r with
  | modeCtl => exact (writeReg_hub a _ w rfl rfl rfl).trans (wrModeCtl_unkeyed a w hn hk)
  | mcCtl => exact (writeReg_hub a _ w rfl rfl rfl).trans (if_neg fun h => hk h.2)
  | strCtl k =>
    cases hs : RegId.strandOf (.strCtl k) with
    | none => exact writeReg_hub a _ w rfl rfl hs
    | some n => exact (writeReg_str a _ w n rfl rfl hs (isStr_strCtl k n hs)).trans (wrStrCtl_unkeyed a n w hk)
  | _ => cases hn

/-- The same of a write of one BAR0 word, which reaches its register or none. -/
theorem writeWord_unkeyed (a : State) (o : Nat) (w : Word) (r : RegId) (ho : RegId.ofOff o = some r)
    (hn : needsKey r w = true) (hk : getF w 31 24 ≠ 0x5A) : a.writeWord o w = a :=
  writeWord_same a o w r ho (writeReg_unkeyed a r w hn hk)

theorem toNat_ne_key {key : BitVec 8} (h : key ≠ 0x5A) : key.toNat ≠ 0x5A :=
  fun e => h (BitVec.eq_of_toNat_eq e)

/-- A request word made with another key carries another key. -/
theorem modeWord_unkeyed (key : BitVec 8) (b : Nat) (hw hr : Bool) (hb : b < 2 ^ 16) (h : key ≠ 0x5A) :
    getF (modeWord key.toNat b hw hr) 31 24 ≠ 0x5A := by
  have hlow : b2n hw * 32 + b2n hr * 16 + b < 2 ^ 24 := by
    unfold b2n
    split_ifs <;> omega
  rw [modeWord_low, key_word key _ hlow]
  exact toNat_ne_key h

/-- REQ = DORMANT, SAFE_ACK and RESET need the key, whatever HOLDWARN and HOLDREF are written with them. -/
theorem needsKey_modeWord (key : BitVec 8) (b : Nat) (hw hr : Bool) (hb : b = 8 ∨ b = 512 ∨ b = 256) :
    needsKey .modeCtl (modeWord key.toNat b hw hr) = true := by
  unfold needsKey
  rw [modeWord_low]
  simp (disch := decide) only [low_word]
  rcases hb with rfl | rfl | rfl <;> revert hw hr <;> decide

/-- A keyed mode request with another key changes nothing. -/
theorem wrModeCtl_request_unkeyed (a : State) (key : BitVec 8) (b : Nat) (hw hr : Bool) (hb : b = 8 ∨ b = 512 ∨ b = 256)
    (h : key ≠ 0x5A) : a.wrModeCtl (modeWord key.toNat b hw hr) = a :=
  wrModeCtl_unkeyed a _ (needsKey_modeWord key b hw hr hb) (modeWord_unkeyed key b hw hr (by omega) h)

/-- STRAND_RESET with another key only brings the module to the time of its arrival. -/
theorem strandReset_unkeyed (s : State) (t : BitVec 64) (k : Fin 32) (key : BitVec 8)
    (hk : getF (BitVec.ofNat 32 (key.toNat * 2 ^ 24 + 1)) 31 24 ≠ 0x5A) :
    exec (.strandReset t k key) s = .next (s.upTo t) := by
  show Host.Outcome.next (s.blockWrite t (.strCtl k.val) _) = _
  unfold State.blockWrite
  dsimp only
  rw [wrStrCtl_unkeyed _ _ _ hk, ite_self]

/-- MC_RESTART_WRITE with another key only moves the clock. -/
theorem mcRestartWrite_unkeyed (s : State) (t : BitVec 64) (key : BitVec 8) (pc : Word)
    (hk : getF (BitVec.ofNat 32 (key.toNat * 2 ^ 24 + 1)) 31 24 ≠ 0x5A) :
    exec (.mcRestartWrite t key pc) s = .next (s.at t) := by
  show Host.Outcome.next (if (s.at t).mode.mode = .dormant then s.at t else _) = _
  rw [wrMcCtl_unkeyed _ _ _ hk, ite_self]

/-- Settles O52: the register rows by the register written, the keyed commands by the word each of them writes. -/
theorem keyedWrites : Obligations.KeyedWrites := by
  unfold Obligations.KeyedWrites
  intro s t
  refine ⟨fun off w r ho hn hk => ?rows, fun key hw hr h => ?requests, fun key k pc h => ?resets⟩
  case rows =>
    have hsame : Host.Outcome.next ((s.upTo t).writeWord off.toNat w) = (.next (s.upTo t) : Host.Outcome State Fault Refusal) :=
      congrArg _ (writeWord_unkeyed _ _ w r ho hn hk)
    exact ⟨hsame, hsame, hsame, hsame⟩
  case requests =>
    have hsame (b : Nat) (hb : b = 8 ∨ b = 512 ∨ b = 256) := wrModeCtl_request_unkeyed (s.upTo t) key b hw hr hb h
    exact ⟨congrArg _ (hsame 8 (by decide)), congrArg _ (hsame 512 (by decide)), congrArg _ (hsame 256 (by decide))⟩
  case resets =>
    have hk : getF (BitVec.ofNat 32 (key.toNat * 2 ^ 24 + 1)) 31 24 ≠ 0x5A :=
      (key_word key 1 (by decide)).symm ▸ toNat_ne_key h
    exact ⟨strandReset_unkeyed s t k key hk, mcRestartWrite_unkeyed s t key pc hk⟩

end Sys2Proof
end

section
/-! A profile code written to the DISC_CTL of a read-out tone (R17, R201). -/

namespace Sys2Proof
open Sys2Proof.Machine

/-- The PROFILE field of DISC_CTL takes the codes of R201. -/
theorem discProfile_allows {c : Nat} (hc : c ≤ 1) : Field.allows ⟨31, 24, .rw, 0, [(0, 1), (255, 255)]⟩ c = true := by
  simp [Field.allows, hc]

/-- What a write merges into DISC_CTL has the written code in PROFILE: SATINV and OVRINV lie below it. -/
theorem mergeX_discCtl_profile (k r : Nat) (old w : Word) (hc : getF w 31 24 ≤ 1) :
    getF (RegId.mergeX (.discCtl k r) old w) 31 24 = getF w 31 24 := by
  rw [mergeX_plain (fun _ => rfl)]
  simp [RegId.fields, RegId.extraOk, Field.allows, hc, getF_setF_ne, getF_setF_self]

/-- A profile code of R201 makes of DISC_CTL the merged word with OVRINV and SATINV as the profile has them. -/
theorem writeFields_discCtl (s : State) (k r : Nat) (w : Word) (hc : getF w 31 24 ≤ 1) :
    s.writeFields (.discCtl k r) w =
      ((s.setReg (.discCtl k r) (RegId.mergeX (.discCtl k r) (s.reg (.discCtl k r)) w)).setFld
        (.discCtl k r) 0 0 (1 - getF w 31 24)).setFld (.discCtl k r) 1 1 (1 - getF w 31 24) :=
  writeFields_profile s _ w rfl (code_of _ _ w _ rfl (discProfile_allows hc) rfl) (by omega)

section
variable (s : State) (k r : Nat) (w : Word) (hc : getF w 31 24 ≤ 1)
include hc

theorem writeFields_discCtl_profile : (s.writeFields (.discCtl k r) w).fld (.discCtl k r) 31 24 = getF w 31 24 := by
  rw [writeFields_discCtl s k r w hc, fld_set_ne _ _ _ _ _ _ _ (by decide) (by decide) (by decide),
    fld_set_ne _ _ _ _ _ _ _ (by decide) (by decide) (by decide), State.fld_setReg, mergeX_discCtl_profile k r _ w hc]

theorem writeFields_discCtl_ovrInv : (s.writeFields (.discCtl k r) w).fld (.discCtl k r) 0 0 = 1 - getF w 31 24 := by
  rw [writeFields_discCtl s k r w hc, fld_set_ne _ _ _ _ _ _ _ (by decide) (by decide) (by decide),
    fld_set _ _ _ _ _ (by decide) (by decide)]
  exact Nat.mod_eq_of_lt (by omega)

theorem writeFields_discCtl_satInv : (s.writeFields (.discCtl k r) w).fld (.discCtl k r) 1 1 = 1 - getF w 31 24 := by
  rw [writeFields_discCtl s k r w hc, fld_set _ _ _ _ _ (by decide) (by decide)]
  exact Nat.mod_eq_of_lt (by omega)

end

/-- Of the registers, a write of DISC_CTL changes DISC_CTL alone: its profile has no field elsewhere. -/
theorem writesOf_discCtl_subset (k r : Nat) : writesOf (.discCtl k r) ⊆ [.discCtl k r] := by
  simp [writesOf, profileSettings, RegId.profileOf, RegId.lowOf]

/-- The active set of the tone, which a write of DISC_CTL renews, is no register (R188). -/
theorem wrDiscCtl_regs (s : State) (k r : Nat) (w : Word) : (s.wrDiscCtl k r w).regs = (s.writeFields (.discCtl k r) w).regs :=
  (State.setRtone_touches ..).keeps .regs rfl

/-- A register of a strand that takes writes, outside the STR_ page and the tables and without W1C bits, is written at
once (R421). -/
theorem writeReg_takes (a : State) (r : RegId) (w : Word) (k : Nat) (hf : r.maskOf .w1c = 0) (hw : r.writable = true)
    (hs : r.strandOf = some k) (hp : r.isStr = false) (ht : r.isTable = false) (h : strandTakes a k) :
    a.writeReg r w = a.wrStrand r w (up8 a.now) := by
  unfold State.writeReg
  simp [flags_none a r w hf, hw, hs, hp, ht, State.toStrand_takes a k r w _ h]

/-- The write of a DISC_CTL in a block that responds, on a strand that takes it. -/
theorem writeWord_discCtl (a : State) (o : Nat) (w : Word) (k r : Fin 32) (ho : RegId.ofOff o = some (.discCtl k r))
    (hr : a.responds o = true) (h : strandTakes a k) : a.writeWord o w = a.wrDiscCtl k r w := by
  obtain ⟨hs, hp⟩ := disc_strand k r
  exact (writeWord_some a o w _ hr ho).trans
    (writeReg_takes a _ w k rfl (Bool.eq_true_of_not_eq_false (disc_writable k r)) hs hp rfl h)

/-- Settles O56: the write is one of DISC_CTL's fields, which its profile sets, and of no other register. -/
theorem discriminationProfile : Obligations.DiscriminationProfile := by
  unfold Obligations.DiscriminationProfile
  intro s t off w k r ho hr hk hc
  have hwrite : (s.upTo t).writeWord off.toNat w = (s.upTo t).wrDiscCtl k r w :=
    writeWord_discCtl _ _ w k r ho ((State.upTo_responds ..).trans hr) hk
  have hregs := wrDiscCtl_regs (s.upTo t) k r w
  refine ⟨_, congrArg Host.Outcome.next hwrite, ?profile, ?ovrInv, ?satInv, fun x hx => ?others⟩
  case profile => exact (State.fld_congr hregs ..).trans (writeFields_discCtl_profile _ k r w hc)
  case ovrInv => exact (State.fld_congr hregs ..).trans (writeFields_discCtl_ovrInv _ k r w hc)
  case satInv => exact (State.fld_congr hregs ..).trans (writeFields_discCtl_satInv _ k r w hc)
  case others => exact (reg_of hregs x).trans (regs_other _ _ w (writesOf_discCtl_subset k r) x hx)

end Sys2Proof
end

section
/-! A profile code written to MEM_CTL (R17, R371). -/

namespace Sys2Proof
open Sys2Proof.Machine

/-- The PROFILE field of MEM_CTL, with the codes of R371. -/
def memProfileField : Field := ⟨31, 24, .rw, 0, [(0, 2), (255, 255)]⟩

theorem memProfileField_allows {c : Nat} (hc : c ≤ 2) : memProfileField.allows c = true := by
  simp [memProfileField, Field.allows, hc]

/-- What a write merges into MEM_CTL has the written code in PROFILE: the other fields lie below it. -/
theorem mergeX_memCtl_profile (old w : Word) (hc : getF w 31 24 ≤ 2) :
    getF (RegId.mergeX .memCtl old w) 31 24 = getF w 31 24 :=
  mergeX_fld .memCtl old w memProfileField (by decide) rfl (memProfileField_allows hc) rfl (by decide) (by decide) (fun _ => rfl)

/-- A profile code of R371 makes of MEM_CTL the merged word with SCRUB, MARKTHR and AUTOMARK as the profile has them. -/
theorem writeFields_memCtl (s : State) (w : Word) (hc : getF w 31 24 ≤ 2) :
    s.writeFields .memCtl w =
      (((s.setReg .memCtl (RegId.mergeX .memCtl (s.reg .memCtl) w)).setFld
        .memCtl 23 16 (if getF w 31 24 = 0 then 24 else if getF w 31 24 = 1 then 1 else 0)).setFld
        .memCtl 15 8 16).setFld .memCtl 0 0 (if getF w 31 24 = 2 then 0 else 1) :=
  writeFields_profile s _ w rfl (code_of _ _ w memProfileField rfl (memProfileField_allows hc) rfl) (by omega)

section
variable (s : State) (w : Word) (hc : getF w 31 24 ≤ 2)
include hc

theorem writeFields_memCtl_profile : (s.writeFields .memCtl w).fld .memCtl 31 24 = getF w 31 24 := by
  simp (disch := decide) only [writeFields_memCtl s w hc, fld_set_ne, State.fld_setReg, mergeX_memCtl_profile _ w hc]

theorem writeFields_memCtl_scrub : (s.writeFields .memCtl w).fld .memCtl 23 16 =
    if getF w 31 24 = 0 then 24 else if getF w 31 24 = 1 then 1 else 0 := by
  simp (disch := decide) only [writeFields_memCtl s w hc, fld_set_ne, fld_set]
  split_ifs <;> rfl

theorem writeFields_memCtl_markThr : (s.writeFields .memCtl w).fld .memCtl 15 8 = 0x10 := by
  simp (disch := decide) only [writeFields_memCtl s w hc, fld_set_ne, fld_set]
  rfl

theorem writeFields_memCtl_autoMark : (s.writeFields .memCtl w).fld .memCtl 0 0 = if getF w 31 24 = 2 then 0 else 1 := by
  simp (disch := decide) only [writeFields_memCtl s w hc, fld_set]
  split_ifs <;> rfl

end

/-- Of the registers, a write of MEM_CTL changes MEM_CTL alone: its profile has no field elsewhere. -/
theorem writesOf_memCtl_subset : writesOf .memCtl ⊆ [.memCtl] := by
  decide

theorem ofOff_memCtl : RegId.ofOff 0x050000 = some .memCtl := by
  decide

/-- Where the blocks respond, the MEM_ block does: every variant has it (R1, R372). -/
theorem responds_memCtl (s : State) (hb : s.blocksUp = true) (hp : s.supply ≠ .off) : s.responds 0x050000 = true := by
  have hm : s.mode.mode ≠ .dormant := by
    intro hm
    simp [State.blocksUp, hm] at hb
  have ha : s.absent 0x050000 = false := Bool.and_eq_false_imp.mpr fun _ => rfl
  simp [State.responds, hb, hp, hm, ha]

/-- The write of MEM_CTL where the blocks respond. -/
theorem writeWord_memCtl (a : State) (w : Word) (hb : a.blocksUp = true) (hp : a.supply ≠ .off) :
    a.writeWord 0x050000 w = a.writeFields .memCtl w :=
  (writeWord_some a _ w .memCtl (responds_memCtl a hb hp) ofOff_memCtl).trans (writeMem a w)

/-- Settles O54: the write is one of MEM_CTL's fields, which its profile sets, and of no other register. -/
theorem memoryProfile : Obligations.MemoryProfile := by
  unfold Obligations.MemoryProfile
  intro s t w hb hp hc
  have hwrite : (s.upTo t).writeWord 0x050000 w = (s.upTo t).writeFields .memCtl w :=
    writeWord_memCtl _ w ((State.upTo_blocksUp ..).trans hb) (by simpa using hp)
  refine ⟨_, congrArg Host.Outcome.next hwrite, ?profile, ?scrub, ?markThr, ?autoMark, fun r hr => ?others⟩
  case profile => exact writeFields_memCtl_profile _ w hc
  case scrub => exact writeFields_memCtl_scrub _ w hc
  case markThr => exact writeFields_memCtl_markThr _ w hc
  case autoMark => exact writeFields_memCtl_autoMark _ w hc
  case others => exact regs_other _ .memCtl w writesOf_memCtl_subset r hr

end Sys2Proof
end

section
/-! A profile code written to THM_CTL (R17, R394). -/

namespace Sys2Proof
open Sys2Proof.Machine

/-- The blocks below 0x4000, which respond from BOOT onward (R52), are in every variant (R1, R3). -/
theorem absent_of_lt (s : State) {o : Nat} (ho : o < 0x4000) : s.absent o = false := by
  have hfar : farOff o = false := by
    simp only [farOff, farBlock, Bool.or_eq_false_iff, Bool.and_eq_false_iff, decide_eq_false_iff_not]
    omega
  simp [State.absent, hfar]

/-- The blocks below 0x4000 respond in every mode but DORMANT (R52). -/
theorem responds_of_lt (s : State) {o : Nat} (ho : o < 0x4000) (hm : s.mode.mode ≠ .dormant) (hp : s.supply ≠ .off) :
    s.responds o = true := by
  simp [State.responds, ho, hm, hp, absent_of_lt s ho]

theorem ofOff_thmCtl : RegId.ofOff 0x003000 = some .thmCtl := by
  decide

/-- The write of THM_CTL outside DORMANT. -/
theorem writeWord_thmCtl (a : State) (w : Word) (hm : a.mode.mode ≠ .dormant) (hp : a.supply ≠ .off) :
    a.writeWord 0x003000 w = a.writeFields .thmCtl w :=
  (writeWord_some a _ w .thmCtl (responds_of_lt a (by decide) hm hp) ofOff_thmCtl).trans (writeThm a w)

/-- What a write merges into THM_CTL has the written code in PROFILE: the other fields lie below it, and the condition on
RATEWARN (R395) is none on PROFILE, which has the bits and codes of MEM_CTL's. -/
theorem mergeX_thmCtl_profile (old w : Word) (hc : getF w 31 24 ≤ 2) :
    getF (RegId.mergeX .thmCtl old w) 31 24 = getF w 31 24 :=
  mergeX_fld .thmCtl old w memProfileField (by decide) rfl (memProfileField_allows hc) rfl (by decide) (by decide) (fun _ => rfl)

/-- A profile code of R394 makes of THM_CTL the merged word with RATEWARN, RATETRIP and FAN as the profile has them. -/
theorem writeFields_thmCtl (s : State) (w : Word) (hc : getF w 31 24 ≤ 2) :
    s.writeFields .thmCtl w =
      (((s.setReg .thmCtl (RegId.mergeX .thmCtl (s.reg .thmCtl) w)).setFld
        .thmCtl 7 4 (if getF w 31 24 = 2 then 2 else 4)).setFld
        .thmCtl 11 8 (if getF w 31 24 = 2 then 5 else 10)).setFld .thmCtl 1 0 (if getF w 31 24 = 0 then 0 else 1) :=
  writeFields_profile s _ w rfl (code_of _ _ w memProfileField rfl (memProfileField_allows hc) rfl) (by omega)

section
variable (s : State) (w : Word) (hc : getF w 31 24 ≤ 2)
include hc

theorem writeFields_thmCtl_profile : (s.writeFields .thmCtl w).fld .thmCtl 31 24 = getF w 31 24 := by
  simp (disch := decide) only [writeFields_thmCtl s w hc, fld_set_ne, State.fld_setReg, mergeX_thmCtl_profile _ w hc]

theorem writeFields_thmCtl_rateWarn :
    (s.writeFields .thmCtl w).fld .thmCtl 7 4 = if getF w 31 24 = 2 then 2 else 4 := by
  simp (disch := decide) only [writeFields_thmCtl s w hc, fld_set_ne, fld_set]
  split_ifs <;> rfl

theorem writeFields_thmCtl_rateTrip :
    (s.writeFields .thmCtl w).fld .thmCtl 11 8 = if getF w 31 24 = 2 then 5 else 10 := by
  simp (disch := decide) only [writeFields_thmCtl s w hc, fld_set_ne, fld_set]
  split_ifs <;> rfl

theorem writeFields_thmCtl_fan :
    (s.writeFields .thmCtl w).fld .thmCtl 1 0 = if getF w 31 24 = 0 then 0 else 1 := by
  simp (disch := decide) only [writeFields_thmCtl s w hc, fld_set]
  split_ifs <;> rfl

end

/-- Of the registers, a write of THM_CTL changes THM_CTL alone: the thermistor limits and PWR_CTL are in no profile. -/
theorem writesOf_thmCtl_subset : writesOf .thmCtl ⊆ [.thmCtl] := by
  decide

/-- Settles O55: the write is one of THM_CTL's fields, which its profile sets, and of no other register. -/
theorem thermalProfile : Obligations.ThermalProfile := by
  unfold Obligations.ThermalProfile
  intro s t w hm hp hc
  have hwrite : (s.upTo t).writeWord 0x003000 w = (s.upTo t).writeFields .thmCtl w :=
    writeWord_thmCtl _ w (by simpa using hm) (by simpa using hp)
  refine ⟨_, congrArg Host.Outcome.next hwrite, ?profile, ?rateWarn, ?rateTrip, ?fan, fun r hr => ?others⟩
  case profile => exact writeFields_thmCtl_profile _ w hc
  case rateWarn => exact writeFields_thmCtl_rateWarn _ w hc
  case rateTrip => exact writeFields_thmCtl_rateTrip _ w hc
  case fan => exact writeFields_thmCtl_fan _ w hc
  case others => exact regs_other _ .thmCtl w writesOf_thmCtl_subset r hr

end Sys2Proof
end

section
/-! Reads of the journal registers (R52, R392). -/

namespace Sys2Proof
open Sys2Proof.Machine

/-- A register whose whole word is read-only status without a measured part, single and not cleared by a read (R14). -/
structure RegId.StatusOnly (r : RegId) : Prop where
  notRc : r.isRc = false
  noRw : r.maskOf .rw = 0
  allRo : r.maskOf .ro = 0xFFFFFFFF
  noW1c : r.maskOf .w1c = 0
  notMeasured : r.measuredMask = 0
  noHigh : r.highOf = none
  noLow : r.lowOf = none
  statusHigh : ∀ v : State, v.statusHigh r = 0

theorem statusOnly_pwrJrnData (n : Nat) : RegId.StatusOnly (.pwrJrnData n) :=
  ⟨rfl, rfl, rfl, rfl, rfl, rfl, rfl, fun _ => rfl⟩

theorem statusOnly_pwrJrnLast : RegId.StatusOnly .pwrJrnLast :=
  ⟨rfl, rfl, rfl, rfl, rfl, rfl, rfl, fun _ => rfl⟩

/-- A status register below 0x4000 shows its status word. -/
theorem peek_statusOnly (v : State) (r : RegId) (h : RegId.StatusOnly r) (hr : r.off < 0x4000) :
    v.peek r = BitVec.ofNat 32 (v.statusLow r) := by
  rw [peek_ro v r h.notRc h.noRw h.allRo h.noW1c, ro_low v r (off_hub v r hr) (h.statusHigh v) h.notMeasured]

/-- Outside DORMANT a read of a status register below 0x4000 answers its status word as the read arrives (R52). -/
theorem rcRead_statusOnly (v : State) (t : BitVec 64) (o : BitVec 24) (r : RegId) (h : RegId.StatusOnly r)
    (ho : RegId.ofOff o.toNat = some r) (hs : o.toNat < 0x4000) (hr : r.off < 0x4000)
    (hm : v.mode.mode ≠ .dormant) (hp : v.supply ≠ .off) :
    ∃ x, exec (.rcRead t o) v = .next x ∧ x.rdata = BitVec.ofNat 32 ((v.upTo t).statusLow r) := by
  rw [← peek_statusOnly _ r h hr]
  exact jrn_read v t o r ho hs hm hp (absent_of_lt v hs) ⟨h.notMeasured, h.noHigh, h.noLow, h.notRc⟩

/-- PWR_JRNDATA[i] reads word i of the selected copy (R392). -/
theorem rcRead_pwrJrnData (v : State) (t : BitVec 64) (i : Fin 64) (hm : v.mode.mode ≠ .dormant) (hp : v.supply ≠ .off) :
    ∃ x, exec (.rcRead t (BitVec.ofNat 24 (0x2100 + 4 * i))) v = .next x ∧
      x.rdata = BitVec.ofNat 32 (leAt v.pwr.jData (4 * i) 4) := by
  have hoff : RegId.off (.pwrJrnData i) = 0x2100 + 4 * i := rfl
  obtain ⟨x, hx, hdata⟩ := rcRead_statusOnly v t _ _ (statusOnly_pwrJrnData i) (jrn_word i)
    (by rw [BitVec.toNat_ofNat]; omega) (by omega) hm hp
  refine ⟨x, hx, hdata.trans ?_⟩
  show BitVec.ofNat 32 (leAt (v.upTo t).pwr.jData _ _) = _
  rw [State.upTo_pwr]

/-- PWR_JRNLAST depends on the journal alone. -/
theorem jrnLast_congr {v u : State} (h : v.pwr.jrn = u.pwr.jrn) : v.jrnLast = u.jrnLast := by
  simp only [State.jrnLast, h]

/-- PWR_JRNLAST reads the highest number of a record with a passing copy (R392). -/
theorem rcRead_pwrJrnLast (v : State) (t : BitVec 64) (hm : v.mode.mode ≠ .dormant) (hp : v.supply ≠ .off) :
    ∃ x, exec (.rcRead t 0x2044) v = .next x ∧ x.rdata = BitVec.ofNat 32 v.jrnLast := by
  obtain ⟨x, hx, hdata⟩ := rcRead_statusOnly v t 0x2044 .pwrJrnLast statusOnly_pwrJrnLast (by decide) (by decide) (by decide) hm hp
  exact ⟨x, hx, hdata.trans (congrArg (BitVec.ofNat 32) (jrnLast_congr (congrArg Power.jrn (State.upTo_pwr v t))))⟩

/-- Outside DORMANT JRNSEL_WRITE selects the record of the written number (R392). -/
theorem jrnselWrite_selects (s : State) (t : BitVec 64) (w : Word) (hm : s.mode.mode ≠ .dormant) :
    exec (.jrnselWrite t w) s = .next ((s.at t).wrJrnSel w) :=
  congrArg Host.Outcome.next (if_neg hm)

/-- The selection leaves the journal as it is. -/
theorem wrJrnSel_jrn (s : State) (w : Word) : (s.wrJrnSel w).pwr.jrn = s.pwr.jrn := rfl

/-- The selection puts the passing copy of the record with the written number in PWR_JRNDATA (R392). -/
theorem wrJrnSel_jData (s : State) (w : Word) : (s.wrJrnSel w).pwr.jData =
    ((s.pwr.jrn.find? (fun r => r.seq == w.toNat)).bind JRec.passing).getD [] := rfl

/-- Settles O57: the write leaves the journal as it is and puts the copy in PWR_JRNDATA, where a read finds both while
these stand. -/
theorem journalRegisters : Obligations.JournalRegisters := by
  unfold Obligations.JournalRegisters
  intro s t w hm _
  refine ⟨_, jrnselWrite_selects s t w hm, rfl, rfl, fun v hv hvm hvp => ⟨fun t' i => ?data, fun t' => ?last⟩⟩
  case data =>
    exact (congrArg Power.jData hv).trans (wrJrnSel_jData (s.at t) w) ▸ rcRead_pwrJrnData v t' i hvm hvp
  case last =>
    have hjrn : v.pwr.jrn = s.pwr.jrn := (congrArg Power.jrn hv).trans (wrJrnSel_jrn (s.at t) w)
    obtain ⟨x, hx, hlast⟩ := rcRead_pwrJrnLast v t' hvm hvp
    exact ⟨x, hx, hlast.trans (congrArg (BitVec.ofNat 32) (jrnLast_congr hjrn))⟩

end Sys2Proof
end

section
/-! Accesses of offsets that no register has, and of blocks that the variant lacks (R3, R416). -/

namespace Sys2Proof
open Sys2Proof.Machine

/-- A block that the variant lacks does not respond (R3). -/
theorem responds_of_absent (s : State) (o : Nat) (h : s.absent o = true) : s.responds o = false := by
  simp [State.responds, h]

/-- A read where no register stands, or of a block that does not respond, gives 0 and changes nothing else (R416). -/
theorem readWord_unassigned (s : State) (o : Nat) (h : RegId.ofOff o = none ∨ s.responds o = false) :
    s.readWord o = { s with rdata := 0 } := by
  unfold State.readWord
  rcases h with h | h
  · rw [h]
    exact ite_self _
  · exact if_pos h

/-- Settles O53: an absent block does not respond at the arrival either, as the work done until then keeps the variant;
writes and reads of what does not respond are discarded and read 0. -/
theorem unassignedOffsets : Obligations.UnassignedOffsets := by
  unfold Obligations.UnassignedOffsets
  intro s t off w be h
  have hdead : RegId.ofOff off.toNat = none ∨ (s.upTo t).responds off.toNat = false :=
    h.imp_right fun ha => responds_of_absent _ _ ((State.upTo_absent s t _).trans ha)
  have hwrite : (s.upTo t).writeWord off.toNat w = s.upTo t := writeWord_none _ _ w hdead
  have hread : (s.upTo t).readWord off.toNat = { s.upTo t with rdata := 0 } := readWord_unassigned _ _ hdead
  have hregister : (if be = 0xF then (s.upTo t).writeWord off.toNat w else s.upTo t) = s.upTo t := by
    rw [hwrite, ite_self]
  exact ⟨congrArg _ hregister, congrArg _ hwrite, congrArg _ hwrite, congrArg _ hwrite, congrArg _ hread, congrArg _ hread⟩

end Sys2Proof
end

section
/-! What every step keeps: one command off the queue, the variant, the frame of each command, and module time (R8, R16,
R38). -/

namespace Sys2Proof
open Sys2Proof.Machine

/-- A command whose meaning changes no more than the listed parts has every longer list as its frame. -/
theorem framed_of_touches {o : Host.Outcome State Fault Refusal} {l m : List Part} {s : State}
    (h : ∃ u, o = .next u ∧ Touches l s u) (hl : l.all (m.contains ·) = true) : ∃ u, o = .next u ∧ Based m s u := by
  obtain ⟨u, hu, ht⟩ := h
  exact ⟨u, hu, .of_touches (ht.mono hl)⟩

/-- The same of a command that first does what is due. -/
theorem framed_of_based {o : Host.Outcome State Fault Refusal} {l m : List Part} {s : State}
    (h : ∃ u, o = .next u ∧ Based l s u) (hl : l.all (m.contains ·) = true) : ∃ u, o = .next u ∧ Based m s u := by
  obtain ⟨u, hu, hb⟩ := h
  exact ⟨u, hu, hb.mono hl⟩

/-- Settles O8: for every command, the parts that its meaning touches are among those of its frame. -/
theorem commandFrame : Obligations.CommandFrame := by
  unfold Obligations.CommandFrame
  intro c s
  cases c with
  | mainsOn => exact framed_of_touches (execMainsOn_touches ..) rfl
  | bootEntry => exact framed_of_touches (execBootEntry_touches ..) rfl
  | bootComplete => exact framed_of_touches (execBootComplete_touches ..) rfl
  | wakeSource => exact framed_of_touches (execWakeSource_touches ..) rfl
  | wakeTimer => exact framed_of_touches (execWakeTimer_touches ..) rfl
  | reqRun => exact framed_of_based (execReqRun_based ..) rfl
  | reqHold => exact framed_of_based (execReqHold_based ..) rfl
  | reqReady => exact framed_of_based (execReqReady_based ..) rfl
  | reqCalibrate => exact framed_of_based (execReqCalibrate_based ..) rfl
  | reqTest => exact framed_of_based (execReqTest_based ..) rfl
  | reqDormant => exact framed_of_based (execReqDormant_based ..) rfl
  | safeAck => exact framed_of_based (execSafeAck_based ..) rfl
  | modeReset => exact framed_of_based (execModeReset_based ..) rfl
  | modeTransitionDone => exact framed_of_based (execModeTransitionDone_based ..) rfl
  | holdPause => exact framed_of_based (execHoldPause_based ..) rfl
  | holdResume => exact framed_of_based (execHoldResume_based ..) rfl
  | safeEntry => exact framed_of_based (execSafeEntry_based ..) rfl
  | plyPolicyWrite => exact framed_of_based (execPlyPolicyWrite_based ..) rfl
  | plyLocked => exact framed_of_based (execPlyLocked_based ..) rfl
  | plyIdleExpiry => exact framed_of_based (execPlyIdleExpiry_based ..) rfl
  | plyStopped => exact framed_of_touches (execPlyStopped_touches ..) rfl
  | unitEnable => exact framed_of_based (execUnitEnable_based ..) rfl
  | unitDisable => exact framed_of_based (execUnitDisable_based ..) rfl
  | outputShutdownDone => exact framed_of_based (execOutputShutdownDone_based ..) rfl
  | strandGated => exact framed_of_based (execStrandGated_based ..) rfl
  | strandUngated => exact framed_of_based (execStrandUngated_based ..) rfl
  | strandReset => exact framed_of_based (execStrandReset_based ..) rfl
  | strandResetDone => exact framed_of_based (execStrandResetDone_based ..) rfl
  | seqArm => exact framed_of_based (execSeqArm_based ..) rfl
  | seqHaltWrite => exact framed_of_based (execSeqHaltWrite_based ..) rfl
  | swtrig => exact framed_of_based (execSwtrig_based ..) rfl
  | coreStart => exact framed_of_based (execCoreStart_based ..) rfl
  | halt => exact framed_of_based (execHalt_based ..) rfl
  | wait => exact framed_of_based (execWait_based ..) rfl
  | trigwait => exact framed_of_based (execTrigwait_based ..) rfl
  | trigTimeout => exact framed_of_based (execTrigTimeout_based ..) rfl
  | syncstrand => exact framed_of_based (execSyncstrand_based ..) rfl
  | play => exact framed_of_based (execPlay_based ..) rfl
  | acq => exact framed_of_based (execAcq_based ..) rfl
  | setstatic => exact framed_of_based (execSetstatic_based ..) rfl
  | setfreq => exact framed_of_based (execSetfreq_based ..) rfl
  | setphase => exact framed_of_based (execSetphase_based ..) rfl
  | frameadd => exact framed_of_based (execFrameadd_based ..) rfl
  | bight => exact framed_of_based (execBight_based ..) rfl
  | endbight => exact framed_of_based (execEndbight_based ..) rfl
  | call => exact framed_of_based (execCall_based ..) rfl
  | ret => exact framed_of_based (execRet_based ..) rfl
  | jump => exact framed_of_based (execJump_based ..) rfl
  | jcond => exact framed_of_based (execJcond_based ..) rfl
  | streamUnderrun => exact framed_of_based (execStreamUnderrun_based ..) rfl
  | hbmHeadCopyDone => exact framed_of_based (execHbmHeadCopyDone_based ..) rfl
  | automuteClose => exact framed_of_based (execAutomuteClose_based ..) rfl
  | staticWrite => exact framed_of_based (execStaticWrite_based ..) rfl
  | frameWrite => exact framed_of_based (execFrameWrite_based ..) rfl
  | pdCommit => exact framed_of_based (execPdCommit_based ..) rfl
  | zoneWrite => exact framed_of_based (execZoneWrite_based ..) rfl
  | rangeWrite => exact framed_of_based (execRangeWrite_based ..) rfl
  | rangeSettled => exact framed_of_based (execRangeSettled_based ..) rfl
  | outComply => exact framed_of_based (execOutComply_based ..) rfl
  | complyClear => exact framed_of_based (execComplyClear_based ..) rfl
  | seqOwnWrite => exact framed_of_based (execSeqOwnWrite_based ..) rfl
  | inputConfigWrite => exact framed_of_based (execInputConfigWrite_based ..) rfl
  | bandSettled => exact framed_of_based (execBandSettled_based ..) rfl
  | heldWriteApply => exact framed_of_based (execHeldWriteApply_based ..) rfl
  | windowComplete => exact framed_of_based (execWindowComplete_based ..) rfl
  | rawDrainDone => exact framed_of_based (execRawDrainDone_based ..) rfl
  | discCommit => exact framed_of_based (execDiscCommit_based ..) rfl
  | resultCommit => exact framed_of_touches (execResultCommit_touches ..) rfl
  | earlyRelease => exact framed_of_touches (execEarlyRelease_touches ..) rfl
  | decCommit => exact framed_of_touches (execDecCommit_touches ..) rfl
  | importWrite => exact framed_of_based (execImportWrite_based ..) rfl
  | sidebandFrame => exact framed_of_based (execSidebandFrame_based ..) rfl
  | modnumWrite => exact framed_of_touches (execModnumWrite_touches ..) rfl
  | directionEnable => exact framed_of_touches (execDirectionEnable_touches ..) rfl
  | blockLock => exact framed_of_touches (execBlockLock_touches ..) rfl
  | blockLockLoss => exact framed_of_touches (execBlockLockLoss_touches ..) rfl
  | markBlock => exact framed_of_touches (execMarkBlock_touches ..) rfl
  | trainBlock => exact framed_of_touches (execTrainBlock_touches ..) rfl
  | hitchContainer => exact framed_of_touches (execHitchContainer_touches ..) rfl
  | statusBlock => exact framed_of_touches (execStatusBlock_touches ..) rfl
  | idleEntry => exact framed_of_touches (execIdleEntry_touches ..) rfl
  | standbyCheck => exact framed_of_touches (execStandbyCheck_touches ..) rfl
  | spliceRevert => exact framed_of_touches (execSpliceRevert_touches ..) rfl
  | hchSplice => exact framed_of_touches (execHchSplice_touches ..) rfl
  | hchRevert => exact framed_of_touches (execHchRevert_touches ..) rfl
  | refLost => exact framed_of_based (execRefLost_based ..) rfl
  | refValid => exact framed_of_touches (execRefValid_touches ..) rfl
  | refRestored => exact framed_of_based (execRefRestored_based ..) rfl
  | clkFault => exact framed_of_based (execClkFault_based ..) rfl
  | refselWrite => exact framed_of_touches (execRefselWrite_touches ..) rfl
  | epochWrite => exact framed_of_touches (execEpochWrite_touches ..) rfl
  | syncArm => exact framed_of_touches (execSyncArm_touches ..) rfl
  | syncDisarm => exact framed_of_touches (execSyncDisarm_touches ..) rfl
  | syncPulse => exact framed_of_based (execSyncPulse_based ..) rfl
  | chainLaunch => exact framed_of_based (execChainLaunch_based ..) rfl
  | chainPulseSend => exact framed_of_touches (execChainPulseSend_touches ..) rfl
  | skewcal => exact framed_of_touches (execSkewcal_touches ..) rfl
  | skewcalDone => exact framed_of_touches (execSkewcalDone_touches ..) rfl
  | wallset => exact framed_of_touches (execWallset_touches ..) rfl
  | snap => exact framed_of_touches (execSnap_touches ..) rfl
  | ptpEventMessage => exact framed_of_touches (execPtpEventMessage_touches ..) rfl
  | announceTimeout => exact framed_of_touches (execAnnounceTimeout_touches ..) rfl
  | ptpDomainReturn => exact framed_of_touches (execPtpDomainReturn_touches ..) rfl
  | ethPortLoss => exact framed_of_touches (execEthPortLoss_touches ..) rfl
  | ethRevert => exact framed_of_touches (execEthRevert_touches ..) rfl
  | ethSplice => exact framed_of_touches (execEthSplice_touches ..) rfl
  | ethRevertWrite => exact framed_of_touches (execEthRevertWrite_touches ..) rfl
  | frameLaunch => exact framed_of_touches (execFrameLaunch_touches ..) rfl
  | linkUp => exact framed_of_touches (execLinkUp_touches ..) rfl
  | linkDown t perst => exact framed_of_touches (execLinkDown_touches t perst s) rfl
  | ringEnable => exact framed_of_touches (execRingEnable_touches ..) rfl
  | ringDisable => exact framed_of_touches (execRingDisable_touches ..) rfl
  | doorbellPoll => exact framed_of_touches (execDoorbellPoll_touches ..) rfl
  | hifKick => exact framed_of_touches (execHifKick_touches ..) rfl
  | doorbellRead => exact framed_of_touches (execDoorbellRead_touches ..) rfl
  | regwrite => exact framed_of_based (execRegwrite_based ..) rfl
  | seqload => exact framed_of_based (execSeqload_based ..) rfl
  | envload => exact framed_of_based (execEnvload_based ..) rfl
  | envtable => exact framed_of_based (execEnvtable_based ..) rfl
  | kernel => exact framed_of_based (execKernel_based ..) rfl
  | truthtable => exact framed_of_touches (execTruthtable_touches ..) rfl
  | hbmxfer => exact framed_of_based (execHbmxfer_based ..) rfl
  | qwrite => exact framed_of_touches (execQwrite_touches ..) rfl
  | qread => exact framed_of_touches (execQread_touches ..) rfl
  | qflush t n err => exact framed_of_touches (execQflush_touches t n err s) rfl
  | ethsend => exact framed_of_touches (execEthsend_touches ..) rfl
  | nop t n err => exact framed_of_touches (execNop_touches t n err s) rfl
  | completionEntry => exact framed_of_touches (execCompletionEntry_touches ..) rfl
  | queueEnable => exact framed_of_touches (execQueueEnable_touches ..) rfl
  | queueDisable => exact framed_of_touches (execQueueDisable_touches ..) rfl
  | queueDisableDone => exact framed_of_touches (execQueueDisableDone_touches ..) rfl
  | queueFlush => exact framed_of_touches (execQueueFlush_touches ..) rfl
  | flushDone => exact framed_of_touches (execFlushDone_touches ..) rfl
  | monSample => exact framed_of_touches (execMonSample_touches ..) rfl
  | triggerEdge => exact framed_of_based (execTriggerEdge_based ..) rfl
  | triggerOutWrite => exact framed_of_based (execTriggerOutWrite_based ..) rfl
  | eventWindowEnd => exact framed_of_based (execEventWindowEnd_based ..) rfl
  | calDue => exact framed_of_touches (execCalDue_touches ..) rfl
  | calStepStart => exact framed_of_based (execCalStepStart_based ..) rfl
  | calForced => exact framed_of_based (execCalForced_based ..) rfl
  | calStepEnd => exact framed_of_based (execCalStepEnd_based ..) rfl
  | calCorrection => exact framed_of_based (execCalCorrection_based ..) rfl
  | calApplyBoundary => exact framed_of_based (execCalApplyBoundary_based ..) rfl
  | fgCalDone => exact framed_of_based (execFgCalDone_based ..) rfl
  | scrubRead => exact framed_of_touches (execScrubRead_touches ..) rfl
  | flitCrcFail => exact framed_of_touches (execFlitCrcFail_touches ..) rfl
  | diemarkWrite => exact framed_of_touches (execDiemarkWrite_touches ..) rfl
  | memTestStart => exact framed_of_touches (execMemTestStart_touches ..) rfl
  | memTestAbort => exact framed_of_touches (execMemTestAbort_touches ..) rfl
  | memTestEnd => exact framed_of_touches (execMemTestEnd_touches ..) rfl
  | pwrFail => exact framed_of_based (execPwrFail_based ..) rfl
  | mainsRestored => exact framed_of_touches (execMainsRestored_touches ..) rfl
  | railFault => exact framed_of_based (execRailFault_based ..) rfl
  | dieSensorRead => exact framed_of_based (execDieSensorRead_based ..) rfl
  | thermistorRead => exact framed_of_based (execThermistorRead_based ..) rfl
  | fanFail => exact framed_of_touches (execFanFail_touches ..) rfl
  | journalRecord => exact framed_of_touches (execJournalRecord_touches ..) rfl
  | jrnselWrite => exact framed_of_touches (execJrnselWrite_touches ..) rfl
  | watchdogExpiry => exact framed_of_touches (execWatchdogExpiry_touches ..) rfl
  | mcRestartWrite => exact framed_of_touches (execMcRestartWrite_touches ..) rfl
  | mcRestart => exact framed_of_touches (execMcRestart_touches ..) rfl
  | imgBegin => exact framed_of_touches (execImgBegin_touches ..) rfl
  | imgData => exact framed_of_touches (execImgData_touches ..) rfl
  | imgCommit => exact framed_of_touches (execImgCommit_touches ..) rfl
  | imgAbort => exact framed_of_touches (execImgAbort_touches ..) rfl
  | svnCommit => exact framed_of_touches (execSvnCommit_touches ..) rfl
  | recRead => exact framed_of_touches (execRecRead_touches ..) rfl
  | cageRead => exact framed_of_touches (execCageRead_touches ..) rfl
  | profileWrite => exact framed_of_based (execProfileWrite_based ..) rfl
  | rcRead => exact framed_of_based (execRcRead_based ..) rfl
  | w1cWrite => exact framed_of_based (execW1cWrite_based ..) rfl
  | reg64LowRead => exact framed_of_based (execReg64LowRead_based ..) rfl
  | reg64HighWrite => exact framed_of_based (execReg64HighWrite_based ..) rfl
  | registerWrite => exact framed_of_based (execRegisterWrite_based ..) rfl
  | holdUpRunsOut => exact framed_of_touches (execHoldUpRunsOut_touches ..) rfl
  | rampComplete => exact framed_of_based (execRampComplete_based ..) rfl
  | sramScrub => exact framed_of_touches (execSramScrub_touches ..) rfl
  | d2dRetrainDone => exact framed_of_touches (execD2dRetrainDone_touches ..) rfl
  | slotFrameSend => exact framed_of_based (execSlotFrameSend_based ..) rfl
  | ethPortUp => exact framed_of_touches (execEthPortUp_touches ..) rfl

/-- A part that neither what falls due nor the command lists is as it was. -/
theorem Based.keeps {l : List Part} {s t : State} (h : Based l s t) (p : Part) (hd : dueParts.contains p = false)
    (hl : l.contains p = false) : ∃ a, p.same s a ∧ p.same a t := by
  obtain ⟨a, ha, ht⟩ := h
  exact ⟨a, (Settled.touches ha).keeps p hd, ht.keeps p hl⟩

/-- Doing what is due and a command's own changes keep module time a 64-bit count. -/
theorem Based.time {l : List Part} {s t : State} (h : Based l s t) (hs : timeOk s) : timeOk t := by
  obtain ⟨a, ha, ht⟩ := h
  exact ht.time ((Settled.touches ha).time hs)

/-- A command keeps the queue of waiting commands and the variant. -/
theorem exec_keeps_pending_half (c : Instr) (s : State) : ∃ u, exec c s = .next u ∧ u.pending = s.pending ∧ u.half = s.half := by
  obtain ⟨u, hu, hb⟩ := exec_based c s
  obtain ⟨a, hsa, hau⟩ := hb.keeps .pending rfl rfl
  obtain ⟨b, hsb, hbu⟩ := hb.keeps .half rfl rfl
  exact ⟨u, hu, hau.trans hsa, hbu.trans hsb⟩

/-- What a step is with an empty queue. -/
theorem step_of_empty {s : State} (h : s.pending = []) : step s = .next s.idle := by
  simp [step, h]

/-- What a step is with a command waiting. -/
theorem step_of_cons {s : State} {c : Instr} {rest : List Instr} (h : s.pending = c :: rest) :
    step s = exec c { s with pending := rest } := by
  simp [step, h]

/-- Settles O3: an idle step and every command answer a next state, with the queue and the variant kept. -/
theorem stepAlwaysAnswersNext : Obligations.StepAlwaysAnswersNext := by
  unfold Obligations.StepAlwaysAnswersNext
  intro s
  cases hq : s.pending with
  | nil =>
    have hidle := s.idle_touches
    exact ⟨_, step_of_empty hq, (hidle.keeps .pending rfl).trans hq, hidle.keeps .half rfl⟩
  | cons c rest =>
    obtain ⟨u, hu, hpending, hhalf⟩ := exec_keeps_pending_half c { s with pending := rest }
    exact ⟨u, (step_of_cons hq).trans hu, hpending, hhalf⟩

/-- Settles O7: an idle period and every command keep module time below 2^64. -/
theorem timeStaysBounded : Obligations.TimeStaysBounded := by
  unfold Obligations.TimeStaysBounded
  intro s u hs hu
  cases hq : s.pending with
  | nil =>
    rw [step_of_empty hq] at hu
    cases hu
    exact s.idle_touches.time hs
  | cons c rest =>
    obtain ⟨v, hv, hb⟩ := exec_based c { s with pending := rest }
    rw [step_of_cons hq, hv] at hu
    cases hu
    exact hb.time hs

end Sys2Proof
end

section
/-! The memories stay in canonical form through every command (R286, R368). -/

namespace Sys2Proof
open Sys2Proof.Machine

/-- No memory of the module and no host buffer is among the parts. -/
def noMemory (l : List Part) : Bool :=
  [Part.hbm, .seqSram, .ucode, .envSram, .kernel, .envTab, .hostMem].all (fun p => !l.contains p)

/-- What falls due writes no memory. -/
theorem memKept_of_settled {s a : State} (h : Settled s a) : MemKept s a := .step (Settled.touches h) rfl (.refl s)

theorem memKept_upTo (s : State) (t : BitVec 64) : MemKept s (s.upTo t) := .step (s.upTo_touches t) rfl (.refl s)

theorem memKept_at (s : State) (t : BitVec 64) : MemKept s (s.at t) := .step (s.at_touches t) rfl (.refl s)

/-- A command whose frame lists no memory keeps the form of all. -/
theorem memKept_of_frame {c : Instr} {s u : State} (hm : noMemory (frameOf c) = true) (h : exec c s = .next u) : MemKept s u := by
  obtain ⟨v, hv, a, ha, ht⟩ := commandFrame c s
  cases hv.symm.trans h
  exact .step ht hm (memKept_of_settled ha)

/-- A microcode image is stored in canonical form (R404). -/
theorem wf_storeOf (bs : List Byte) : Mem.wf (storeOf bs) = true := Mem.wf_writes _ _ rfl

/-- Loading the microcode writes the control memory alone. -/
theorem loadUc_mem (s : State) (uc0 uc1 : ImageCheck) : MemKept s (s.loadUc uc0 uc1).1 := by
  unfold State.loadUc
  dsimp only
  split
  · exact .of id id (fun _ => wf_storeOf _) id id id id
  · exact .same rfl rfl rfl rfl rfl rfl rfl

theorem bootComplete_mem (s : State) (t : Nat) (ok : Bool) (uc0 uc1 : ImageCheck) : MemKept s (s.bootComplete t ok uc0 uc1) := by
  have hclock (n : Nat) : MemKept s (s.clockTo n) := .step (s.clockTo_touches n) rfl (.refl s)
  unfold State.bootComplete
  split
  case h_1 due _ _ =>
    have hload : MemKept s ((s.clockTo (min t due)).loadUc uc0 uc1).1 := (hclock _).trans (loadUc_mem ..)
    have hbump (z : State) (l : List Nat) : MemKept z (l.foldl (fun a p => a.bump (.plyStarts p) 1) z) :=
      .step (Touches.foldl l (fun _ _ h => .step (State.bump_touches ..) rfl h) (.refl [.counts, .recent] z)) rfl (.refl z)
    dsimp only
    refine .ite (.step (State.bootFails_touches ..) rfl (hclock _)) (.ite (.step (State.bootFails_touches ..) rfl hload) ?_)
    refine .step (State.enterReady_touches _) rfl (.step (State.setSync_touches ..) rfl (MemKept.trans ?_ (hbump _ _)))
    exact hload.trans (.same rfl rfl rfl rfl rfl rfl rfl)
  case h_2 => exact hclock t

/-- Every command keeps the memories canonical: most write none, and each operation of the rest keeps the form. -/
theorem exec_memKept (c : Instr) (s u : State) (h : exec c s = .next u) : MemKept s u := by
  cases c with
  | bootEntry t => cases h; exact .ite ((memKept_at s t).trans (State.enterBoot_mem _)) (memKept_at s t)
  | bootComplete t ok uc0 uc1 => cases h; exact bootComplete_mem ..
  | modeTransitionDone t => cases h; exact State.transDone_mem ..
  | safeEntry t => cases h; exact State.safeEntry_mem ..
  | hbmHeadCopyDone t k e => cases h; exact (memKept_upTo s t).trans (State.headCopy_mem ..)
  | seqload t n err => cases h; exact (memKept_upTo s t).trans (.startDesc (fun a d ha => ha.trans (a.seqLoad_mem d err)) (.refl _))
  | envload t n err => cases h; exact (memKept_upTo s t).trans (.startDesc (fun a d ha => ha.trans (a.envLoad_mem d err)) (.refl _))
  | envtable t n err => cases h; exact (memKept_upTo s t).trans (.startDesc (fun a d ha => ha.trans (a.envTable_mem d err)) (.refl _))
  | kernel t n err => cases h; exact (memKept_upTo s t).trans (.startDesc (fun a d ha => ha.trans (a.kernelLoad_mem d err)) (.refl _))
  | truthtable t n err => cases h; exact (memKept_at s t).trans (.startDesc (fun a d ha => ha.trans (a.truthTable_mem d err)) (.refl _))
  | hbmxfer t n err => cases h; exact (memKept_upTo s t).trans (.startDesc (fun a d ha => ha.trans (a.hbmXfer_mem d err)) (.refl _))
  | qread t n err => cases h; exact (memKept_at s t).trans (.startDesc (fun a d ha => ha.trans (a.qRead_mem d err)) (.refl _))
  | completionEntry t n => cases h; exact (memKept_at s t).trans (State.writeEntry_mem ..)
  | memTestEnd t fails first symbol => cases h; exact (memKept_at s t).trans (State.testEnd_mem ..)
  | pwrFail t => cases h; exact (memKept_upTo s t).trans (State.pwrFail_mem _)
  | mainsRestored t => cases h; exact (memKept_at s t).trans (State.mainsRestored_mem _)
  | railFault t rail => cases h; exact (memKept_upTo s t).trans (State.railFault_mem ..)
  | holdUpRunsOut => cases h; exact State.holdUpRunsOut_mem s
  | _ => exact memKept_of_frame rfl h

/-- Settles O6: an idle step leaves the memories alone, and every command keeps their form. -/
theorem memoriesStayCanonical : Obligations.MemoriesStayCanonical := by
  unfold Obligations.MemoriesStayCanonical
  intro s u hs hu
  cases hq : s.pending with
  | nil =>
    rw [step_of_empty hq] at hu
    cases hu
    exact (MemKept.step s.idle_touches rfl (.refl s)).keeps hs
  | cons c rest =>
    rw [step_of_cons hq] at hu
    exact (exec_memKept c _ u hu).keeps hs

end Sys2Proof
end

section
/-! What a step, the reset state and the clock are (R8, R16, R28). -/

namespace Sys2Proof
open Sys2Proof.Machine

/-- Settles O1: with a command waiting a step is that command's meaning. -/
theorem stepRunsFrontCommand : Obligations.StepRunsFrontCommand := by
  unfold Obligations.StepRunsFrontCommand
  intro c s rest
  exact step_of_cons rfl

/-- The supply is either off or not, and an idle period is as long as the clock that counts in the mode. -/
theorem idle_eq (s : State) : s.idle =
    if s.supply = .off then s else { s with now := wrap64 (s.now + (if s.mode.mode = .dormant then 400 else 8)) } := by
  unfold State.idle
  cases hs : s.supply <;> cases hm : s.mode.mode <;> simp

/-- Settles O2: with an empty queue a step is one idle period. -/
theorem idleStep : Obligations.IdleStep := by
  unfold Obligations.IdleStep
  intro s hq
  rw [step_of_empty hq, idle_eq]

/-- Settles O4: every table of the reset state is empty, so each entry reads as its default. -/
theorem resetState : Obligations.ResetState := by
  unfold Obligations.ResetState
  refine ⟨rfl, ?time, rfl, rfl, rfl, rfl, fun _ => rfl, fun _ => ⟨rfl, rfl⟩, fun _ => rfl, fun _ => rfl, fun _ => rfl⟩
  case time =>
    unfold timeOk
    decide

/-- The time of a command that arrives at t is a 64-bit count already: nothing wraps. -/
theorem timeAt_lt {s : State} (h : timeOk s) (t : BitVec 64) : s.timeAt t.toNat < 2 ^ 64 := by
  have hs : s.now < 2 ^ 64 := h
  by_cases hm : s.mode.mode = .dormant
  · rw [State.timeAt_dormant hm]
    omega
  · rw [State.timeAt_awake hm]
    omega

/-- The clock at the arrival of a command is the time reached (R8). -/
theorem at_now_eq {s : State} (h : timeOk s) (t : BitVec 64) : (s.at t).now = s.timeAt t.toNat :=
  (State.at_now s t).trans (Nat.mod_eq_of_lt (timeAt_lt h t))

/-- Settles O5: what falls due leaves the clock to the arrival, which is `State.timeAt` without a wrap. -/
theorem moduleTime : Obligations.ModuleTime := by
  unfold Obligations.ModuleTime
  intro s t hs
  have hnow := at_now_eq hs t
  refine ⟨State.upTo_now hs t, State.toTime_now hs t.isLt, (s.at_touches t).time hs, fun hm => ?awake, fun hm => ?dormant⟩
  case awake => rw [hnow, State.timeAt_awake hm]
  case dormant =>
    rw [hnow, State.timeAt_dormant hm]
    omega

/-- Settles O9: the work that falls due touches the listed parts, and of the registers only static levels and frames. -/
theorem whatFallsDue : Obligations.WhatFallsDue := by
  unfold Obligations.WhatFallsDue
  intro s
  refine ⟨fun a ha => ⟨Settled.touches ha, (settled_hushed ha).keeps⟩, fun t => ⟨s.upTo_touches t, (s.upTo_hushed t).keeps⟩,
    fun t => ⟨s.toTime_touches t, (s.toTime_hushed t).keeps⟩, fun c => State.readyFor_settled .refl⟩

/-- Settles O15: each block's part of the map finds a register at its own offset, and the blocks lie apart. -/
theorem registerOffsets : Obligations.RegisterOffsets := by
  unfold Obligations.RegisterOffsets
  intro o
  unfold RegId.ofOff
  refine some_sub (fun _ => ofId_off o) fun _ => some_sub (fun _ => ofMode_off o) fun _ => some_sub (fun _ => ofPwr_off o) fun _ =>
    some_sub (fun _ => ofQm_off o) fun _ => some_sub (fun _ => ofHif_off o) fun _ => some_sub (fun _ => ofTime_off o) fun _ =>
    some_sub (fun _ => ofHch_off o) fun _ => some_sub (fun _ => ofDec_off o) fun _ => some_sub (fun _ => ofMem_off o) fun _ =>
    some_sub (fun _ => ofCal_off o) fun _ => some_sub (fun _ => ofMon_off o) fun _ => some_sub (fun _ => some_none) fun _ =>
    some_sub (fun _ => ?ply) fun _ => some_sub (fun _ => ?strand) fun _ => some_ite ?count some_none
  case ply =>
    intro r hr
    rw [ofPly_off _ _ r hr, plyBase]
    omega
  case strand =>
    intro r hr
    rw [ofStrand_off _ _ (by omega) r hr, strandBase]
    omega
  case count =>
    intro ho
    simp only [RegId.off]
    omega

end Sys2Proof
end

section
/-! Statements whose clauses are laws of the model: time and synchronisation, the host link and queues, the monitor, the
calibration, the registers, memory integrity, power and the controller. -/

namespace Sys2Proof
open Sys2Proof.Machine

/-- Settles O34: loss, return and pull-in of the reference, the three clock faults, and the selection of a source, one law each. -/
theorem referenceAndClockFault : Obligations.ReferenceAndClockFault := by
  unfold Obligations.ReferenceAndClockFault
  intro s a t ha
  exact ⟨references_1 s a t ha, references_2 s t, references_3 s a t ha, references_4 s a t ha, references_5 s t⟩

/-- Settles O35: the epoch write, the three bits of SYNC_CTL and the end of a skew measurement, one law each. -/
theorem epochAndSyncControl : Obligations.EpochAndSyncControl := by
  unfold Obligations.EpochAndSyncControl
  intro s t
  exact ⟨epochs_1 s t, epochs_2 s t, epochs_3 s t⟩

/-- Settles O36: what a pulse does to an armed star role, an aligned one and the ring head, the launch and the delayed sending. -/
theorem syncPulses : Obligations.SyncPulses := by
  unfold Obligations.SyncPulses
  intro s
  exact ⟨pulses_1 s, pulses_2 s, pulses_3 s, pulses_4 s, pulses_5 s⟩

/-- Settles O37: the wall view's two writes, a PTP sample with the servo, the timeout and the return to domain 0. -/
theorem wallClockAndServo : Obligations.WallClockAndServo := by
  unfold Obligations.WallClockAndServo
  intro s t
  exact ⟨wallClock_1 s t, wallClock_2 s t, wallClock_3 s t, wallClock_4 s t⟩

/-- Settles O38: loss and return of a port, the revert, the host's two requests, and the launch of a frame. -/
theorem ethernetPorts : Obligations.EthernetPorts := by
  unfold Obligations.EthernetPorts
  intro s t
  exact ⟨ports_1 s t, ports_2 s t, ports_3 s t, ports_4 s t, ports_5 s t⟩

/-- Settles O39: the link's two events, the two ring writes, the poll and the kick. -/
theorem linkAndRings : Obligations.LinkAndRings := by
  unfold Obligations.LinkAndRings
  intro s t
  exact ⟨links_1 s t, links_2 s t, links_3 s t, links_4 s t, links_5 s, links_6 s t⟩

/-- Settles O40: the reading of a doorbell record and the writing of a completion entry. -/
theorem doorbellsAndCompletions : Obligations.DoorbellsAndCompletions := by
  unfold Obligations.DoorbellsAndCompletions
  intro s t n
  exact ⟨doorbells_1 s t n, doorbells_2 s t n⟩

/-- Settles O41: each descriptor that starts next runs its own meaning on the state with the descriptor taken. -/
theorem descriptors : Obligations.Descriptors := by
  unfold Obligations.Descriptors
  intro s a t n d ha
  exact ⟨runs_1 s t n d, runs_2 s a t ha n d, runs_3 s a t ha n d, runs_4 s t n d, runs_5 s a t ha n d, runs_6 s t n d⟩

/-- Settles O42: the three descriptors of queues, the control writes, and the two completions of what waited. -/
theorem queues : Obligations.Queues := by
  unfold Obligations.Queues
  intro s t
  exact ⟨queueRuns_1 s t, queueRuns_2 s t, queueRuns_3 s t, queueRuns_4 s t, queueRuns_5 s t, queueRuns_6 s t⟩

/-- Settles O43: the monitor sample, the trigger edge, the trigger output and the event window. -/
theorem monitorAndTriggerIo : Obligations.MonitorAndTriggerIo := by
  unfold Obligations.MonitorAndTriggerIo
  intro s a t ha
  exact ⟨monitors_1 s, monitors_2 s a t ha, monitors_3 s a t ha, monitors_4 s a t ha⟩

/-- Settles O44: a converter becomes due, steps, is measured, corrected, ramps, and the last ends the calibration. -/
theorem calibrationSteps : Obligations.CalibrationSteps := by
  unfold Obligations.CalibrationSteps
  intro s a t x ha
  exact ⟨calSteps_1 s t x, calSteps_2 s a t ha x, calSteps_3 s x, calSteps_4 s a t ha x, calSteps_5 s a t ha x, calSteps_6 s x,
    calSteps_7 s a t ha⟩

/-- Settles O45: a block responds at the arrival as it did before. -/
theorem registerRows : Obligations.RegisterRows := by
  unfold Obligations.RegisterRows
  intro s a t off w ha
  have hresponds : a.responds off.toNat = s.responds off.toNat := by rw [ha, State.upTo_responds]
  rw [← hresponds]
  exact ⟨regAccess_1 s a t ha off w, regAccess_2 s a t ha off w, fun hr =>
    ⟨fun x hx => ⟨regAccess_3a s a t ha off w hr x hx, regAccess_3b s a t ha off w hr x hx⟩, regAccess_4 s a t ha off w hr,
      regAccess_5 s a t ha off w hr, regAccess_6 s a t ha off hr⟩⟩

/-- Settles O47: the scrub of a codeword, the flit retry, the die mark, the SRAM scrub and the end of a retraining. -/
theorem memoryIntegrity : Obligations.MemoryIntegrity := by
  unfold Obligations.MemoryIntegrity
  intro s t
  exact ⟨scrubs_1 s t, scrubs_2 s t, scrubs_3 s t, scrubs_4 s t, scrubs_5 s t⟩

/-- Settles O48: the start outside TEST, the start and the abort in TEST, and the end of a test. -/
theorem memoryTest : Obligations.MemoryTest := by
  unfold Obligations.MemoryTest
  intro s t w hb
  exact ⟨memTests_1 s t w hb, fun hm ht => ⟨memTests_2 s t w hb hm ht, memTests_3 s t w hb hm ht⟩, memTests_4 s t⟩

/-- Settles O49: loss and return of mains, the rails, the sensors, the fans and the journal. -/
theorem powerAndSensors : Obligations.PowerAndSensors := by
  unfold Obligations.PowerAndSensors
  intro s t
  exact ⟨powerEvents_1 s t, powerEvents_2 s t, powerEvents_3 s t, powerEvents_4 s t, powerEvents_5 s t, powerEvents_6 s t,
    powerEvents_7 s t, powerEvents_8 s t⟩

/-- Settles O50: the two starts of a restart and its end. -/
theorem controllerRestart : Obligations.ControllerRestart := by
  unfold Obligations.ControllerRestart
  intro s t
  exact ⟨restarts_1 s t, restarts_2 s t⟩

/-- Settles O51: one law for each mailbox command, IMG_COMMIT with two. -/
theorem mailboxCommands : Obligations.MailboxCommands := by
  unfold Obligations.MailboxCommands
  intro s t
  exact ⟨mailbox_1 s t, mailbox_2 s t, mailbox_3 s t, mailbox_4 s t, mailbox_5 s t, mailbox_6 s t, mailbox_7 s t, mailbox_8 s t⟩

end Sys2Proof
end

section
/-! A mode request that the table of R41 lists begins its transition. -/

namespace Sys2Proof
open Sys2Proof.Machine

/-- With no cause for HOLD but the host and nothing waiting, the re-evaluation of HOLD changes only the HOLD causes. -/
theorem evalHold_quiet_mode (b : State) (hn : noHoldCause b) (hp : b.mode.pend = none) :
    b.evalHold.mode = { b.mode with holdHost := (b.mode.mode == .run || b.mode.mode == .hold) && b.mode.holdHost,
                                    holdRef := false, holdTherm := false } := by
  rw [State.evalHold_quiet b hn hp, State.refreshHold_quiet b hn, State.setMode_mode]

/-- The transition that a state has begun stands after the re-evaluation of HOLD. -/
theorem evalHold_begun (b : State) (hn : noHoldCause b) (hp : b.mode.pend = none) (m : Mode) (d : Nat) :
    (b.beginTrans m d).evalHold.mode.trans = some (m, d) ∧ (b.beginTrans m d).evalHold.mode.mode = b.mode.mode := by
  have hmode := evalHold_quiet_mode (b.beginTrans m d) hn hp
  rw [hmode]
  exact ⟨rfl, rfl⟩

/-- A request that begins a transition on the state on which requests are carried out begins it in the mode of s. -/
theorem carryOut_begins {s a : State} (hn : noHoldCause s) (ha : preOk s a) {r : Req} {m : Mode} {d : Nat}
    (hc : a.carryOut r = a.beginTrans m d) :
    (a.carryOut r).evalHold.mode.trans = some (m, d) ∧ (a.carryOut r).evalHold.mode.mode = s.mode.mode :=
  fin s a _ ha hn m d hc

/-- No cause for HOLD stands that could keep back a RUN. -/
theorem blocking_quiet {s : State} (hn : noHoldCause s) : s.blocking = false := by
  simp [State.blocking, State.refHolds, State.warnHolds, hn.1, hn.2]

section
variable {s a : State} (hn : noHoldCause s) (ha : preOk s a)
include hn ha

theorem carryOut_run_ready (hm : s.mode.mode = .ready) : a.carryOut .run = a.beginTrans .run (s.now + 16) := by
  obtain ⟨hmode, hquiet, hnow, -⟩ := ha.p hn
  have hma : a.mode.mode = .ready := by rw [hmode]; exact hm
  simp [State.carryOut, State.askRun, State.startRun, hma, hnow, blocking_quiet hquiet]

theorem carryOut_calibrate_ready (hm : s.mode.mode = .ready) :
    a.carryOut .calibrate = a.beginTrans .calibrate (s.now + 10 * us) := by
  obtain ⟨hmode, -, hnow, -⟩ := ha.p hn
  have hma : a.mode.mode = .ready := by rw [hmode]; exact hm
  simp [State.carryOut, hma, hnow]

theorem carryOut_test_ready (hm : s.mode.mode = .ready) : a.carryOut .test = a.beginTrans .test (s.now + 10 * us) := by
  obtain ⟨hmode, -, hnow, -⟩ := ha.p hn
  have hma : a.mode.mode = .ready := by rw [hmode]; exact hm
  simp [State.carryOut, hma, hnow]

theorem carryOut_dormant_ready (hm : s.mode.mode = .ready) :
    a.carryOut .dormant = a.beginTrans .dormant (s.now + 50 * ms) := by
  obtain ⟨hmode, -, hnow, -⟩ := ha.p hn
  have hma : a.mode.mode = .ready := by rw [hmode]; exact hm
  simp [State.carryOut, hma, hnow]

theorem carryOut_reset_ready (hm : s.mode.mode = .ready) : a.carryOut .reset = a.beginTrans .boot (s.now + us) := by
  obtain ⟨hmode, -, hnow, -⟩ := ha.p hn
  have hma : a.mode.mode = .ready := by rw [hmode]; exact hm
  simp [State.carryOut, State.askReset, hma, hnow]

theorem carryOut_safeAck_safe (hm : s.mode.mode = .safe) (hc : s.mode.causes.all s.causeClear = true) (hu : s.mode.ucValid = true)
    (hf : s.mode.full = false) (hx : s.mem.test = none) : a.carryOut .safeAck = a.beginTrans .ready (s.now + 60 * us) := by
  obtain ⟨hmode, -, hnow, hmem, -⟩ := ha.p hn
  have hma : a.mode.mode = .safe := by rw [hmode]; exact hm
  have hca : a.mode.causes.all a.causeClear = true := by rw [causeClear_of_preOk ha, hmode]; exact hc
  have hua : a.mode.ucValid = true := by rw [hmode]; exact hu
  have hfa : a.mode.full = false := by rw [hmode]; exact hf
  simp only [State.carryOut, State.askAck, if_pos hma, hca, hua, hfa, hmem, hx, hnow]
  rfl

/-- HOLD asked for in RUN pauses at the second fabric cycle after the request's (R48). -/
theorem carryOut_hold_run (hm : s.mode.mode = .run) :
    (a.carryOut .hold).evalHold.mode.trans = some (.hold, fl8 s.now + 16) ∧ (a.carryOut .hold).evalHold.mode.tPause = fl8 s.now + 16 ∧
      (a.carryOut .hold).evalHold.mode.holdHost = true ∧ (a.carryOut .hold).evalHold.mode.mode = .run := by
  obtain ⟨hmode, hquiet, hnow, -⟩ := ha.p hn
  have hma : a.mode.mode = .run := by rw [hmode]; exact hm
  have hpend : a.mode.pend = none := by rw [hmode]; rfl
  have hc : a.carryOut .hold = (a.setMode { a.mode with holdHost := true }).startHold := if_pos hma
  have hheld := evalHold_quiet_mode (a.setMode { a.mode with holdHost := true }).startHold hquiet hpend
  rw [hc, hheld, ← hnow]
  simp [State.startHold, State.beginTrans, hma]

/-- READY asked for in RUN stops the cores and begins the transition (R41). -/
theorem carryOut_ready_run (hm : s.mode.mode = .run) :
    (a.carryOut .ready).evalHold.mode.trans = some (.ready, s.now + 2 * us) ∧ (a.carryOut .ready).evalHold.mode.mode = .run := by
  obtain ⟨hmode, hquiet, hnow, -⟩ := ha.p hn
  have hma : a.mode.mode = .run := by rw [hmode]; exact hm
  have hstop := State.stopAll_touches a (up8 a.now)
  have hsmode : (a.stopAll (up8 a.now)).mode = a.mode := hstop.keeps .mode rfl
  have hsquiet : noHoldCause (a.stopAll (up8 a.now)) :=
    ⟨(congrArg _ (sync_of hstop rfl)).trans hquiet.1, (congrArg _ (thm_of hstop rfl)).trans hquiet.2⟩
  have hc : a.carryOut .ready = (a.stopAll (up8 a.now)).beginTrans .ready (a.now + 2 * us) := by
    simp only [State.carryOut, State.askReady, hma]
  have hpend : (a.stopAll (up8 a.now)).mode.pend = none := by rw [hsmode, hmode]; rfl
  obtain ⟨htrans, hstay⟩ := evalHold_begun _ hsquiet hpend .ready (a.now + 2 * us)
  rw [hc, ← hnow]
  exact ⟨htrans, hstay.trans ((congrArg _ hsmode).trans hma)⟩

end

/-- A request of MODE_CTL that reaches its carrying out and begins a transition there. -/
theorem wrModeCtl_begins {s : State} {r : Req} {x : State} (hn : noHoldCause s)
    (hx : ∃ a : State, preOk s a ∧ x = (a.carryOut r).evalHold) {m : Mode} {d : Nat}
    (hc : ∀ a, preOk s a → a.carryOut r = a.beginTrans m d) : x.mode.trans = some (m, d) ∧ x.mode.mode = s.mode.mode := by
  obtain ⟨a, ha, rfl⟩ := hx
  exact carryOut_begins hn ha (hc a ha)

/-- Settles O17: each request of the table is carried out on the state at its arrival, and begins its transition there. -/
theorem modeRequestsAccepted : Obligations.ModeRequestsAccepted := by
  unfold Obligations.ModeRequestsAccepted
  intro s a t hw hr ha ht hn
  subst ha
  have req (c : Fin 8) (r : Req) (hc : c.val ≠ 0) (hq : reqOf c.val = some r) (hm : (s.upTo t).mode.mode ≠ .dormant) :=
    pre (s.upTo t) c r hw hr hc hq hm hn ht
  refine ⟨fun hm => ?ready, fun hm => ?run, fun hm hc hu hf hx => ?safe⟩
  case ready =>
    have hd : (s.upTo t).mode.mode ≠ .dormant := by rw [hm]; decide
    have begins {r : Req} {x : State} {m : Mode} {d : Nat}
        (hx : ∃ a : State, preOk (s.upTo t) a ∧ x = (a.carryOut r).evalHold)
        (hc : ∀ a, preOk (s.upTo t) a → a.carryOut r = a.beginTrans m d) : x.mode.trans = some (m, d) ∧ x.mode.mode = .ready :=
      hm ▸ wrModeCtl_begins hn hx hc
    refine ⟨?askRun, ?calibrate, ?test, ?dormant, ?reset⟩
    case askRun => exact ⟨_, rfl, begins (req 3 .run (by decide) rfl hd) fun a ha => carryOut_run_ready hn ha hm⟩
    case calibrate => exact ⟨_, rfl, begins (req 5 .calibrate (by decide) rfl hd) fun a ha => carryOut_calibrate_ready hn ha hm⟩
    case test => exact ⟨_, rfl, begins (req 6 .test (by decide) rfl hd) fun a ha => carryOut_test_ready hn ha hm⟩
    case dormant => exact ⟨_, rfl, begins (preD _ hw hr hd hn ht) fun a ha => carryOut_dormant_ready hn ha hm⟩
    case reset => exact ⟨_, rfl, begins (preR _ hw hr hd hn ht) fun a ha => carryOut_reset_ready hn ha hm⟩
  case run =>
    have hd : (s.upTo t).mode.mode ≠ .dormant := by rw [hm]; decide
    refine ⟨?hold, ?askReady⟩
    case hold =>
      obtain ⟨a, ha, hu⟩ := req 4 .hold (by decide) rfl hd
      exact ⟨_, congrArg Host.Outcome.next hu, carryOut_hold_run hn ha hm⟩
    case askReady =>
      obtain ⟨a, ha, hu⟩ := req 2 .ready (by decide) rfl hd
      exact ⟨_, congrArg Host.Outcome.next hu, carryOut_ready_run hn ha hm⟩
  case safe =>
    have hd : (s.upTo t).mode.mode ≠ .dormant := by rw [hm]; decide
    obtain ⟨htrans, hstay⟩ := wrModeCtl_begins hn (preA _ hw hr hd hn ht) fun a ha => carryOut_safeAck_safe hn ha hm hc hu hf hx
    exact ⟨_, rfl, htrans, hstay.trans hm⟩

end Sys2Proof
end

section
/-! A transition in progress completes in its mode, with its entry time latched (R38, R46, R48, R55). -/

namespace Sys2Proof
open Sys2Proof.Machine

/-- RUN is entered from READY at the earlier of the command's arrival and the due time. -/
theorem transDone_run (s : State) (t due : Nat) (h : s.mode.trans = some (.run, due)) (hm : s.mode.mode = .ready) :
    modeIs .run (s.toTime (min t due)).now (s.transDone t) := by
  have hdone : s.transDone t = (s.toTime (min t due)).enterRun := by
    unfold State.transDone
    rw [hm, h]
  rw [hdone]
  exact State.enterRun_mode _

theorem mapCores_mode (s : State) (f : Nat → Core → Core) : (s.mapCores f).mode = s.mode := rfl

/-- The pause of HOLD enters it at T_pause (R48). -/
theorem holdPause_mode (s : State) (due : Nat) (h : s.mode.trans = some (.hold, due)) (hm : s.mode.mode = .run) :
    modeIs .hold due s.holdPause := by
  unfold State.holdPause
  rw [hm, h]
  refine modeIs.carryPend (modeIs.ite (modeIs.of (State.refHold_touches ..) rfl ?_) ?_) <;>
    exact modeIs.refreshHold (modeIs.enterMode _ _ _)

/-- The end of HOLD enters RUN at its due time. -/
theorem holdResume_mode (s : State) (due : Nat) (h : s.mode.trans = some (.run, due)) (hm : s.mode.mode = .hold) :
    modeIs .run due s.holdResume := by
  unfold State.holdResume
  rw [hm, h]
  refine modeIs.evalHold (modeIs.carryPend (modeIs.of (State.liveStatics_touches ..) rfl (modeIs.set ?_ ?_)))
  · exact (modeIs.enterMode _ .run due).1
  · exact (modeIs.enterMode _ .run due).2

/-- Settles O18: one entry for each mode a transition leads to. -/
theorem modeEntriesComplete : Obligations.ModeEntriesComplete := by
  unfold Obligations.ModeEntriesComplete
  intro s t m due h
  refine ⟨?quiet, ?boot, ?safe, ?hold, ?resume, ?bootComplete⟩
  case quiet =>
    rintro (⟨rfl, hm⟩ | ⟨hlist, hb⟩)
    · exact ⟨_, rfl, transDone_run s t.toNat due h hm⟩
    · exact ⟨_, rfl, c1 s t m due h hb (by simpa using hlist)⟩
  case boot =>
    rintro ⟨rfl, hb⟩
    exact ⟨_, rfl, c2 s t due h hb⟩
  case safe =>
    rintro rfl
    obtain ⟨⟨hmode, htime⟩, hgated⟩ := c3 s t.toNat due h
    exact ⟨_, rfl, hmode, htime, hgated⟩
  case hold =>
    rintro ⟨rfl, hm⟩
    exact ⟨_, rfl, holdPause_mode s due h hm⟩
  case resume =>
    rintro ⟨rfl, hm⟩
    exact ⟨_, rfl, holdResume_mode s due h hm⟩
  case bootComplete =>
    rintro ⟨rfl, hm⟩ uc0 uc1 hrun hload
    exact ⟨_, rfl, c6 s t due h hm uc0 uc1 hrun hload⟩

end Sys2Proof
end

section
/-! Mains on, the wake sources and the entry of BOOT (R28, R50, R51, R54). -/

namespace Sys2Proof
open Sys2Proof.Machine

/-- The always-on domain comes up with the supply on, in the state whose sensors are then read (R50). -/
theorem mainsOn_up (s : State) (t : Nat) (temps : List Int) (fw0 fw1 : ImageCheck) (recOk : Bool) (h : s.supply = .off) :
    ∃ z : State, z.supply = .on ∧ s.mainsOn t temps fw0 fw1 recOk =
      (((z.setMode { z.mode with mode := .dormant, entryTime := z.now }).resetReq).newTemps temps).readHeld := by
  unfold State.mainsOn
  rw [if_neg (not_not.mpr h)]
  refine ⟨_, ?_, rfl⟩
  have hfw (b : State) : (b.bootFw fw0 fw1).supply = b.supply := (State.bootFw_touches b fw0 fw1).keeps .supply rfl
  have hfail (b : State) (n : Nat) : (b.bootFail n).supply = b.supply := (State.bootFail_touches b n).keeps .supply rfl
  have hscan (b : State) : b.journalScan.supply = b.supply := (State.journalScan_touches b).keeps .supply rfl
  rw [hscan, State.setMc_supply, apply_ite State.supply, hfail, hfw]
  exact ite_self _

/-- Reading the sensors keeps the mode and the supply and leaves the temperatures read. -/
theorem readSensors_keeps (z : State) (temps : List Int) :
    (z.newTemps temps).readHeld.supply = z.supply ∧ (z.newTemps temps).readHeld.mode.mode = z.mode.mode ∧
      (z.newTemps temps).readHeld.thm.temps = temps :=
  ⟨(State.readHeld_touches _).keeps .supply rfl, (modeIs_readHeld (s := z.newTemps temps) ⟨rfl, rfl⟩).1,
    (sameT_held (z.newTemps temps)).1⟩

/-- The transition to READY that BOOT begins with, due at the end of the longest boot (R54). -/
theorem enterBoot_trans (s : State) : s.enterBoot.mode.trans = some (.ready, up8 s.now + 610 * ms) := by
  unfold State.enterBoot
  dsimp only
  have hreset (b : State) : b.resetReq.mode = b.mode := (State.resetReq_touches b).keeps .mode rfl
  rw [tr_selectRef _ (by rw [State.setReg_mode, hreset]; simp), State.setReg_mode, hreset]
  simp

/-- BOOT is due where it is asked for and no sensor stands at 90 degrees (R51). -/
theorem bootDue_of {s : State} (hs : s.supply = .on) (hm : s.mode.mode = .dormant) (ht : s.mode.trans = none)
    (hw : s.mode.wakeWanted = true ∨ s.mode.autoDone = false ∧ s.fld .pwrCtl 0 0 = 0) (hv : ∀ v ∈ s.thm.temps, v < 1440) :
    s.bootDue = true := by
  have hall : s.thm.temps.all (fun v => decide (v < 1440)) = true := by simpa using hv
  rcases hw with hw | ⟨ha, hf⟩
  · simp [State.bootDue, hs, hm, ht, hw, hall]
  · simp [State.bootDue, hs, hm, ht, ha, hf, hall]

/-- An enabled source in DORMANT asks for BOOT (R51). -/
theorem wake_enabled {s : State} {b : Nat} (hs : s.supply = .on) (hm : s.mode.mode = .dormant) (hb : s.fld .modeWakeEn b b = 1) :
    s.wake b = s.setMode { s.mode with wakeWanted := true } :=
  if_pos ⟨hm, hs, hb⟩

/-- The first 400-tick count from n on at or after w is at least w and less than 400 later (R28). -/
theorem count400 {n w : Nat} (h : n ≤ w) : w ≤ n + (w - n + 399) / 400 * 400 ∧ n + (w - n + 399) / 400 * 400 < w + 400 := by
  omega

/-- In DORMANT the clock reaches a whole count of 400 ticks from now exactly (R28). -/
theorem clockTo_count {s : State} (hm : s.mode.mode = .dormant) (q : Nat) (h : s.now + q * 400 < 2 ^ 64) :
    (s.clockTo (s.now + q * 400)).now = s.now + q * 400 := by
  rw [State.clockTo_now, State.timeAt_dormant hm, Nat.add_sub_cancel_left, Nat.mul_div_cancel _ (by decide)]
  exact Nat.mod_eq_of_lt h

/-- Settles O19. -/
theorem powerOnBootAndWake : Obligations.PowerOnBootAndWake := by
  unfold Obligations.PowerOnBootAndWake
  intro s t
  refine ⟨fun temps fw0 fw1 recOk hs => ?mains, fun hs hm ht hw hv => ?boot, fun src hs hm he => ?wake, fun hs hm he hn hw => ?timer⟩
  case mains =>
    obtain ⟨z, hz, heq⟩ := mainsOn_up s t.toNat temps fw0 fw1 recOk hs
    obtain ⟨hsupply, hmode, htemps⟩ :=
      readSensors_keeps (z.setMode { z.mode with mode := .dormant, entryTime := z.now }).resetReq temps
    have hreset := State.resetReq_touches (z.setMode { z.mode with mode := .dormant, entryTime := z.now })
    refine ⟨_, congrArg Host.Outcome.next heq, ?_, ?_, htemps⟩
    · exact hsupply.trans ((hreset.keeps .supply rfl).trans hz)
    · exact hmode.trans (congrArg ModeSt.mode (hreset.keeps .mode rfl))
  case boot =>
    have hdue : (s.at t).bootDue = true := bootDue_of hs hm ht hw hv
    obtain ⟨hmode, hentry⟩ := bootm (s.at t)
    exact ⟨_, congrArg Host.Outcome.next (if_pos hdue), hmode, hentry, enterBoot_trans _⟩
  case wake =>
    have hwake : (s.at t).wake (wakeBit src) = _ := wake_enabled hs hm he
    exact ⟨_, congrArg Host.Outcome.next hwake, rfl, rfl⟩
  case timer =>
    obtain ⟨hlo, hhi⟩ := count400 hn
    have hnow := clockTo_count hm ((s.reg64 .modeWakeLo .modeWakeHi - s.now + 399) / 400) (by omega)
    have hwake : (s.clockTo (s.now + (s.reg64 .modeWakeLo .modeWakeHi - s.now + 399) / 400 * 400)).wake 2 = _ :=
      wake_enabled hs hm he
    refine ⟨_, congrArg Host.Outcome.next ((if_pos ⟨hm, hs, he, hn⟩).trans hwake), rfl, ?_, ?_, ?_⟩ <;>
      rw [State.setMode_now, hnow] <;> omega

end Sys2Proof
end

section
/-! The registers that a command can change (R14 to R17, R416). -/

namespace Sys2Proof
open Sys2Proof.Machine

/-- Command c changes no register beside L from a state in which what was due in s has been done. -/
def KeepsRegs (c : Instr) (s : State) (L : List RegId) : Prop := ∃ a u, Settled s a ∧ exec c s = .next u ∧ RegsKept L a u

variable {c : Instr} {s u : State} {L : List RegId}

/-- A command of the hub, which does nothing of what is due. -/
theorem KeepsRegs.hub (hu : exec c s = .next u) (h : RegsKept L s u) : KeepsRegs c s L := ⟨s, u, .refl, hu, h⟩

/-- A command that acts on the state at its arrival. -/
theorem KeepsRegs.upTo {t : BitVec 64} (hu : exec c s = .next u) (h : RegsKept L (s.upTo t) u) : KeepsRegs c s L := by
  obtain ⟨a, ha, hk⟩ := s.upTo_kept L t
  exact ⟨a, u, ha, hu, h.trans hk⟩

/-- A command that acts on the state at a time the model itself reaches. -/
theorem KeepsRegs.toTime {t : Nat} (hu : exec c s = .next u) (h : RegsKept L (s.toTime t) u) : KeepsRegs c s L := by
  obtain ⟨a, ha, hk⟩ := s.toTime_kept L t
  exact ⟨a, u, ha, hu, h.trans hk⟩

/-- A command whose frame lists no registers changes none. -/
theorem KeepsRegs.frame (h : (if (frameOf c).contains .regs then none else some []) = some L) : KeepsRegs c s L := by
  obtain ⟨v, hv, a, ha, ht⟩ := commandFrame c s
  split at h
  · cases h
  next hregs => exact ⟨a, v, ha, hv, .of_eq (ht.keeps .regs (by simpa using hregs))⟩

/-- The clock at an arrival is no register. -/
theorem regsKept_at (L : List RegId) (s : State) (t : BitVec 64) : RegsKept L s (s.at t) := .of_eq rfl

/-- A ring's profile sets fields of its control register and of no other (R371). -/
theorem writesOf_hifRingCtl (n : Nat) : writesOf (.hifRingCtl n) ⊆ [.hifRingCtl n] := by
  intro r hr
  simpa [writesOf, profileSettings, RegId.profileOf, RegId.lowOf] using hr

theorem writesOf_decImport (p k : Nat) : writesOf (.decImport p k) = [.decImport p k, .decCtl] := rfl

/-- Words written to an output's control register, its zone or chain (R62, R135). -/
theorem wrOutCtl_kept (L : List RegId) (s : State) (o : OutId) (w : Word) (hL : writesOf (ctlReg o) ⊆ L) :
    RegsKept L s (s.wrOutCtl o w) := by
  cases o with
  | rf k n => exact State.wrRfCtl_kept L s k n w hL
  | bb k n => exact State.wrBbCtl_kept L s k n w hL

/-- The write of a unit's ENABLE. -/
theorem unitWrite_kept (s : State) (t : BitVec 64) (x : UnitId) (w : Word) (on : Nat) :
    RegsKept (writesOf (unitReg x)) (s.upTo t) (s.unitWrite t x w on) := by
  have hself := mem_writesOf (unitReg x)
  have hall := List.Subset.refl (writesOf (unitReg x))
  cases x with
  | tone k n => exact State.strandWrite_kept _ _ _ _ _ _ _ (fun a v => State.wrTone_kept _ a k n v hall) hself
  | rf k o =>
    have hreg : outReg k.val o.val = .outRfOut k o := if_pos o.isLt
    exact State.strandWrite_kept _ _ _ _ _ _ _ (fun a v => State.wrOut_kept _ a k o v (up8 a.now) (hreg ▸ hself)) hself
  | bb k n => exact State.strandWrite_kept _ _ _ _ _ _ _ (fun a v => State.wrOut_kept _ a k (6 + n) v (up8 a.now) (outReg_bb k n ▸ hself)) hself
  | input k i => exact State.strandWrite_kept _ _ _ _ _ _ _ (fun a v => State.wrInCtl_kept _ a k i v (up8 a.now) hall) hself
  | monitor n => exact State.blockWrite_kept _ _ _ _ _ (fun a => State.wrMonCtl_kept _ a n _ hall)

/-- COMPLY is no register: its clearing keeps all, and the write that follows has the enable's register. -/
theorem complyClear_kept (s : State) (t : BitVec 64) (k : Fin 32) (n : Fin 16) (w : Word) :
    RegsKept [.outBbOut k n] (s.upTo t) (s.blockWrite t (.outBbOut k.val n.val) (fun a =>
      (a.clearComply k.val n.val).toStrand k.val (.outBbOut k.val n.val) (setF w 9 9 0) (fun b x => b.wrOut k.val (6 + n.val) x (up8 b.now)))) := by
  refine State.blockWrite_kept _ _ _ _ _ fun a => ?_
  have hclear : RegsKept [.outBbOut k n] a (a.clearComply k n) := .step (State.clearComply_touches ..) rfl (.refl _ a)
  refine RegsKept.trans (State.toStrand_kept _ _ _ _ _ _ (fun b x => ?_) (by simp)) hclear
  exact State.wrOut_kept _ b k (6 + n) x (up8 b.now) (by simp [outReg_bb])

/-- Loading module time at a chain launch writes the epoch alone. -/
theorem chainLaunch_kept (s : State) (t : BitVec 64) :
    ∃ u, exec (.chainLaunch t) s = .next u ∧ RegsKept [.syncEpochLo, .syncEpochHi] (s.upTo t) u := by
  have hload (a : State) (v : Nat) (i : Int) : RegsKept [.syncEpochLo, .syncEpochHi] a (a.load v i) :=
    State.load_kept _ a v i (by decide)
  show ∃ u, execChainLaunch t s = .next u ∧ _
  unfold execChainLaunch
  dsimp only
  split
  · exact ⟨_, rfl, .refl _ _⟩
  · split
    · exact ⟨_, rfl, .step (State.setSync_touches ..) rfl ((hload _ _ _).trans (.step (State.setSync_touches ..) rfl (.refl _ _)))⟩
    · exact ⟨_, rfl, .refl _ _⟩

theorem recRead_kept (s : State) : RegsKept ((List.range 512).map .mcMbData) s s.recRead := by
  have hdone (b : State) (n : Nat) : RegsKept ((List.range 512).map .mcMbData) b (b.mbDone n) := .step (State.mbDone_touches b n) rfl (.refl _ b)
  refine .ite (.refl _ s) (.ite (hdone s 2) ((hdone _ 0).trans (State.mbReturn_kept _ s _ fun i hi => ?_)))
  simpa using hi

theorem cageRead_kept (s : State) : RegsKept ((List.range 32).map .mcMbData) s s.cageRead := by
  have hdone (b : State) (n : Nat) : RegsKept ((List.range 32).map .mcMbData) b (b.mbDone n) := .step (State.mbDone_touches b n) rfl (.refl _ b)
  refine .ite (.refl _ s) (.ite (hdone s 2) ((hdone _ 0).trans (State.mbReturn_kept _ s _ fun i hi => ?_)))
  simpa using hi

/-- A write of the hub through a law of its operation. -/
theorem KeepsRegs.hubWrite {t : BitVec 64} {f : State → State} (hu : exec c s = .next (s.hubWrite t f))
    (hf : ∀ a, RegsKept L a (f a)) : KeepsRegs c s L := .hub hu (State.hubWrite_kept L s t f hf)

/-- A write of a block through a law of its operation. -/
theorem KeepsRegs.blockWrite {t : BitVec 64} {r : RegId} {f : State → State} (hu : exec c s = .next (s.blockWrite t r f))
    (hf : ∀ a, RegsKept L a (f a)) : KeepsRegs c s L := .upTo hu (State.blockWrite_kept L s t r f hf)

/-- A write of a strand's register through a law of its operation. -/
theorem KeepsRegs.strandWrite {t : BitVec 64} {k : Nat} {r : RegId} {w : Word} {f : State → Word → State}
    (hu : exec c s = .next (s.strandWrite t k r w f)) (hf : ∀ a x, RegsKept L a (f a x)) (hL : r ∈ L) : KeepsRegs c s L :=
  .upTo hu (State.strandWrite_kept L s t k r w f hf hL)

/-- A write of the word at an offset changes what the offset's register allows (R416). -/
theorem KeepsRegs.writeWord {t : BitVec 64} {off : Nat} {w : Word} (hu : exec c s = .next ((s.upTo t).writeWord off w))
    (h : regsAt off = some L) : KeepsRegs c s L := .upTo hu (State.writeWord_kept _ off w L h)

end Sys2Proof
end

section
/-! Every command keeps the registers beside those listed for it. -/

namespace Sys2Proof
open Sys2Proof.Machine

/-- Settles O10: the law of each operation that writes registers; a command whose frame lists no registers writes none. -/
theorem registerFrame : Obligations.RegisterFrame := by
  unfold Obligations.RegisterFrame
  intro c s L h
  change KeepsRegs c s L
  cases c with
  | plyPolicyWrite t p w => cases h; exact .blockWrite rfl fun a => State.wrPlyClk_kept _ a p w (by simp)
  | unitEnable t x w => cases h; exact .upTo rfl (unitWrite_kept s t x w 1)
  | unitDisable t x w => cases h; exact .upTo rfl (unitWrite_kept s t x w 0)
  | discCommit t k r w =>
    cases h
    exact .strandWrite rfl (fun a x => State.wrDiscCtl_kept _ a k r x (List.Subset.refl _)) (mem_writesOf _)
  | staticWrite t k n w => cases h; exact .strandWrite rfl (fun a x => State.wrStatic_kept _ a k n x (by simp)) (by simp)
  | pdCommit t k n w =>
    cases h
    exact .strandWrite rfl (fun a x => State.wrBbCtl_kept _ a k n x (List.Subset.refl _)) (mem_writesOf _)
  | zoneWrite t o w => cases h; exact .strandWrite rfl (fun a x => wrOutCtl_kept _ a o x (List.Subset.refl _)) (mem_writesOf _)
  | rangeWrite t o w => cases h; exact .strandWrite rfl (fun a x => State.wrOut_kept _ a _ _ x _ (by simp)) (by simp)
  | rangeSettled o =>
    cases h
    obtain ⟨a, ha, hk⟩ := State.rangeSettled_kept [outReg (outLocal o).1 (outLocal o).2] s (outLocal o).1 (outLocal o).2 (by simp)
    exact ⟨a, _, ha, rfl, hk⟩
  | complyClear t k n w => cases h; exact .upTo rfl (complyClear_kept s t k n w)
  | seqOwnWrite t k v w => cases h; exact .strandWrite rfl (fun a x => State.wrOwn_kept _ a k v x (by simp)) (by simp)
  | inputConfigWrite t k i w =>
    cases h
    exact .strandWrite rfl (fun a x => State.wrInCtl_kept _ a k i x _ (List.Subset.refl _)) (mem_writesOf _)
  | decCommit t d w => cases h; exact .hubWrite rfl fun a => State.wrDctl_kept _ a d _ (by simp)
  | importWrite t p k w => cases h; exact .blockWrite rfl fun a => State.wrImport_kept _ a p k w (by rw [writesOf_decImport]; exact List.Subset.refl _)
  | modnumWrite t w => cases h; exact .hubWrite rfl fun a => State.wrHchCtl_kept _ a w (by simp)
  | directionEnable t d w => cases h; exact .hubWrite rfl fun a => State.wrDirCtl_kept _ a d _ (List.Subset.refl _)
  | hchSplice t d w => cases h; exact .hubWrite rfl fun a => State.wrDirCtl_kept _ a d _ (List.Subset.refl _)
  | hchRevert t d w => cases h; exact .hubWrite rfl fun a => State.wrDirCtl_kept _ a d _ (List.Subset.refl _)
  | refselWrite t w => cases h; exact .hubWrite rfl fun a => State.wrSyncCtl_kept _ a _ (by decide)
  | syncArm t w => cases h; exact .hubWrite rfl fun a => State.wrSyncCtl_kept _ a _ (by decide)
  | syncDisarm t w => cases h; exact .hubWrite rfl fun a => State.wrSyncCtl_kept _ a _ (by decide)
  | skewcal t w => cases h; exact .hubWrite rfl fun a => State.wrSyncCtl_kept _ a _ (by decide)
  | epochWrite t hi => cases h; exact .hubWrite rfl fun a => State.wrEpochHi_kept _ a hi (by decide)
  | syncPulse a => cases h; exact .toTime rfl (State.syncPulse_kept _ _ a (by decide))
  | chainLaunch t =>
    cases h
    obtain ⟨u, hu, hk⟩ := chainLaunch_kept s t
    exact .upTo hu hk
  | wallset t w => cases h; exact .hubWrite rfl fun a => State.wrPtpCtl_kept _ a _ (List.Subset.refl _)
  | snap t w => cases h; exact .hubWrite rfl fun a => State.wrPtpCtl_kept _ a _ (List.Subset.refl _)
  | ethSplice t w => cases h; exact .hubWrite rfl fun a => State.wrPtpCtl_kept _ a _ (List.Subset.refl _)
  | ethRevertWrite t w => cases h; exact .hubWrite rfl fun a => State.wrPtpCtl_kept _ a _ (List.Subset.refl _)
  | ringEnable t n w => cases h; exact .hubWrite rfl fun a => State.wrRingCtl_kept _ a n _ (writesOf_hifRingCtl n)
  | ringDisable t n w => cases h; exact .hubWrite rfl fun a => State.wrRingCtl_kept _ a n _ (writesOf_hifRingCtl n)
  | triggerOutWrite t x w => cases h; exact .blockWrite rfl fun a => State.wrTrig_kept _ a x w (by simp)
  | calCorrection t x v => cases h; exact .upTo rfl (State.correction_kept _ _ x _ (by simp))
  | scrubRead t bad => cases h; exact .hub rfl ((State.scrubRead_kept _ _ _ (by simp)).trans (regsKept_at _ s t))
  | diemarkWrite t w =>
    cases h
    exact .hub rfl (.ite ((State.wrDieMark_kept _ _ w (by simp)).trans (regsKept_at _ s t)) (regsKept_at _ s t))
  | jrnselWrite t w =>
    cases h
    exact .hub rfl (.ite (regsKept_at _ s t) ((State.wrJrnSel_kept _ _ w (by simp)).trans (regsKept_at _ s t)))
  | memTestStart t w =>
    cases h
    exact .hub rfl (.ite ((State.wrTestCtl_kept _ _ _ (by decide)).trans (regsKept_at _ s t)) (regsKept_at _ s t))
  | memTestAbort t w =>
    cases h
    exact .hub rfl (.ite ((State.wrTestCtl_kept _ _ _ (by decide)).trans (regsKept_at _ s t)) (regsKept_at _ s t))
  | imgCommit t x ok => cases h; exact .hub rfl ((State.imgCommit_kept _ _ x ok (by simp)).trans (regsKept_at _ s t))
  | recRead t => exact .hub rfl (Option.some.inj h ▸ (recRead_kept _).trans (regsKept_at _ s t))
  | cageRead t => cases h; exact .hub rfl ((cageRead_kept _).trans (regsKept_at _ s t))
  | profileWrite t off w => exact .writeWord rfl h
  | w1cWrite t off w => exact .writeWord rfl h
  | reg64HighWrite t off w => exact .writeWord rfl h
  | registerWrite t off w be => exact .upTo rfl (.ite (State.writeWord_kept _ _ w L h) (.refl L _))
  | _ => exact .frame h

end Sys2Proof
end

section
/-! The bytes that descriptors, completion entries and head copies write (R106, R286, R289, R291). -/

namespace Sys2Proof
open Sys2Proof.Machine

/-- From s to u a memory changes only in n bytes from lo, and host memory only in m bytes from h. -/
def BytesKept (f : State → Mem) (lo n h m : Nat) (s u : State) : Prop := KeptOut lo n (f s) (f u) ∧ KeptOut h m s.hostMem u.hostMem

/-- A part of the state that every change which keeps the memories keeps. -/
def IsMemory (f : State → Mem) : Prop := ∀ s u, MemSame s u → f u = f s

theorem isMemory_hbm : IsMemory State.hbm := fun _ _ h => h.hbm
theorem isMemory_seqSram : IsMemory State.seqSram := fun _ _ h => h.seqSram
theorem isMemory_envSram : IsMemory State.envSram := fun _ _ h => h.envSram
theorem isMemory_kernel : IsMemory State.kernel := fun _ _ h => h.kernel
theorem isMemory_envTab : IsMemory State.envTab := fun _ _ h => h.envTab

section
variable {f : State → Mem} {lo n h m : Nat} {s u v : State}

theorem BytesKept.of_same (hf : IsMemory f) (e : MemSame s u) : BytesKept f lo n h m s u := by
  constructor
  · rw [hf s u e]; exact .refl _ _ _
  · rw [e.hostMem]; exact .refl _ _ _

theorem BytesKept.after (hf : IsMemory f) (k : BytesKept f lo n h m s u) (e : MemSame u v) : BytesKept f lo n h m s v := by
  obtain ⟨hmem, hhost⟩ := k
  exact ⟨(hf u v e).symm ▸ hmem, e.hostMem.symm ▸ hhost⟩

theorem BytesKept.before (hf : IsMemory f) (e : MemSame s u) (k : BytesKept f lo n h m u v) : BytesKept f lo n h m s v := by
  obtain ⟨hmem, hhost⟩ := k
  exact ⟨hf s u e ▸ hmem, e.hostMem ▸ hhost⟩

/-- What only writes to a host buffer keeps every memory of the module. -/
theorem BytesKept.out (hf : f u = f s) (k : HostOnly h m s u) : BytesKept f lo n h m s u := ⟨hf ▸ .refl _ _ _, k.host⟩

end

theorem memSame_upTo (s : State) (t : BitVec 64) : MemSame s (s.upTo t) := .step (s.upTo_touches t) rfl

/-- What a descriptor at the head of a submission queue writes is what carrying it out writes (R285). -/
theorem startDesc_bytes {f : State → Mem} (hf : IsMemory f) {lo n h m : Nat} {s a : State} {q : Nat} {d : List Byte} {sel : Nat → Bool}
    {wait : State → List Byte → Bool} {run : State → List Byte → Ran} (e : MemSame s a)
    (hd : (a.queue (a.sqQueue q)).pkts.head?.map Packet.bytes = some d) (hr : ∀ b, BytesKept f lo n h m b (ranState (run b d))) :
    BytesKept f lo n h m s (a.startDesc q sel wait run) := by
  rcases startDesc_mem (sel := sel) (wait := wait) (run := run) hd e with hs | ⟨b, hb, hs⟩
  · exact .of_same hf hs
  · exact ((hr b).before hf hb).after hf hs

variable (b : State) (d : List Byte) (err : Option Nat)

theorem seqLoad_bytes : BytesKept State.seqSram (2 ^ 20 * dStrand d + dDev d) (if dDir d then 0 else dLen d) (dHost d)
    (if dDir d then dLen d else 0) b (ranState (b.seqLoad d err)) := by
  unfold State.seqLoad
  dsimp only
  split_ifs with hdir
  · have hout := sramOut_only b d (Mem.reads b.seqSram (2 ^ 20 * dStrand d + dDev d) (dLen d)) err
      (.seqSram (Fin.ofNat 32 (dStrand d))) (dDev d) (reads_len ..).le
    exact .out hout.seqSram hout
  · exact ⟨.writes rfl (units_len ..), .refl _ _ _⟩

theorem envLoad_bytes : BytesKept State.envSram (2 ^ 22 * dStrand d + dDev d) (if dDir d then 0 else dLen d) (dHost d)
    (if dDir d then dLen d else 0) b (ranState (b.envLoad d err)) := by
  unfold State.envLoad
  dsimp only
  split_ifs with hdir
  · have hout := sramOut_only b d (Mem.reads b.envSram (2 ^ 22 * dStrand d + dDev d) (dLen d)) err
      (.envSram (Fin.ofNat 32 (dStrand d))) (dDev d) (reads_len ..).le
    exact .out hout.envSram hout
  · exact ⟨.writes rfl (units_len ..), .refl _ _ _⟩

theorem kernelLoad_bytes : BytesKept State.kernel (2 ^ 19 * dStrand d + (16384 * bits (dTarget d) 9 5 + 4 * dDev d))
    (if dDir d then 0 else dLen d) (dHost d) (if dDir d then dLen d else 0) b (ranState (b.kernelLoad d err)) := by
  unfold State.kernelLoad
  dsimp only
  split_ifs with hdir
  · have hout := sramOut_only b d (Mem.reads b.kernel (2 ^ 19 * dStrand d + (16384 * bits (dTarget d) 9 5 + 4 * dDev d)) (dLen d)) err
      (.kernelMem (Fin.ofNat 32 (dStrand d))) (16384 * bits (dTarget d) 9 5 + 4 * dDev d) (reads_len ..).le
    exact .out hout.kernel hout
  · exact ⟨.writes rfl (units_len ..), .refl _ _ _⟩

/-- Entries are loaded from the whole units of 16 bytes that were received (R104). -/
theorem loadUnits_bytes : KeptOut (65536 * dStrand d + 16 * dDev d) (dLen d) b.envTab
      (b.loadEntries (dStrand d) (dDev d) ((b.units' d err 16).length / 16) (b.units' d err 16)).1.envTab ∧
    (b.loadEntries (dStrand d) (dDev d) ((b.units' d err 16).length / 16) (b.units' d err 16)).1.hostMem = b.hostMem := by
  have hunits : (b.units' d err 16).length = 16 * ((b.units' d err 16).length / 16) := by
    unfold State.units'
    simp only [List.length_take]
    omega
  have hle := units_len b d err 16
  obtain ⟨hkept, hhost⟩ := loadEntries_out (dStrand d) _ b (dDev d) _ hunits
  exact ⟨fun x hx => hkept x (by omega), hhost⟩

theorem envTable_bytes : BytesKept State.envTab (65536 * dStrand d + 16 * dDev d) (if dDir d then 0 else dLen d) (dHost d)
    (if dDir d then dLen d else 0) b (ranState (b.envTable d err)) := by
  unfold State.envTable
  dsimp only
  split_ifs with hdir
  · have hlen : (entryReads (dLen d / 16) (Mem.reads b.envTab (65536 * dStrand d + 16 * dDev d) (dLen d))).length ≤ dLen d := by
      rw [entryReads_len _ _ (by rw [reads_len]; omega)]
      omega
    have hout := sramOut_only b d _ err (.envTable (Fin.ofNat 32 (dStrand d))) (16 * dDev d) hlen
    exact .out hout.envTab hout
  · obtain ⟨hkept, hhost⟩ := loadUnits_bytes b d err
    split <;> exact ⟨hkept, hhost ▸ .refl _ _ _⟩

theorem hbmXfer_bytes : BytesKept State.hbm (dDev d) (if dDir d then 0 else dLen d) (dHost d)
    (if dDir d then dLen d else 0) b (ranState (b.hbmXfer d err)) := by
  unfold State.hbmXfer
  dsimp only
  have hread (x : State) (m : Option Nat) : HostOnly (dHost d) (dLen d) x (x.toHost d (Mem.reads b.hbm (dDev d) (dLen d)) err m).1 :=
    toHost_only _ _ _ _ _ (reads_len ..).le
  split_ifs with hdir hqueue
  · exact ⟨.refl _ _ _, .refl _ _ _⟩
  · split
    · exact .out rfl (hread ..)
    next c _ =>
      split_ifs
      · exact .out rfl (hread ..)
      · have hue : MemSame b (b.memUe (64 * c) (up8 b.now)) := .step (State.memUe_touches ..) rfl
        exact .before isMemory_hbm hue (.out rfl (hread ..))
  · exact ⟨.refl _ _ _, .refl _ _ _⟩
  · exact ⟨.writes rfl (units_len ..), .refl _ _ _⟩

/-- TRUTHTABLE reads a table into the host buffer, or changes the decision fabric alone. -/
theorem truthTable_bytes : KeptOut (dHost d) (if dDir d then 8192 else 0) b.hostMem (ranState (b.truthTable d err)).hostMem := by
  unfold State.truthTable
  dsimp only
  split_ifs with hdir hnone
  · exact (toHost_only b d _ err none (by simp)).host
  · exact .refl _ _ _
  all_goals exact .refl _ _ _

/-- QREAD writes the packets that fit in LENGTH bytes. -/
theorem qRead_bytes : KeptOut (dHost d) (dLen d) b.hostMem (ranState (b.qRead d err)).hostMem := by
  unfold State.qRead
  dsimp only
  split_ifs with hoff
  · exact .refl _ _ _
  · have hread (x : State) (m : Option Nat) := (toHost_only x d _ err m (fitting_len b.now (b.queue (bits (dTarget d) 14 0)).pkts (dLen d))).host
    split
    next i at' _ =>
      split_ifs
      · exact hread _ _
      · have hue : MemSame b (b.memUe at' (up8 b.now)) := .step (State.memUe_touches ..) rfl
        exact hue.hostMem ▸ hread (b.memUe at' (up8 b.now)) _
    · exact hread _ _

end Sys2Proof
end

section
/-! Descriptors, completion entries and head copies write in their places alone. -/

namespace Sys2Proof
open Sys2Proof.Machine

/-- Settles O13: the bytes that each descriptor's run writes, taken to the command by what starting a descriptor keeps. -/
theorem descriptorBytes : Obligations.DescriptorBytes := by
  unfold Obligations.DescriptorBytes
  intro s a t n err d
  constructor
  · rintro rfl hd
    have hs := memSame_upTo s t
    exact ⟨⟨_, rfl, startDesc_bytes isMemory_seqSram hs hd (seqLoad_bytes · d err)⟩,
      ⟨_, rfl, startDesc_bytes isMemory_envSram hs hd (envLoad_bytes · d err)⟩,
      ⟨_, rfl, startDesc_bytes isMemory_envTab hs hd (envTable_bytes · d err)⟩,
      ⟨_, rfl, startDesc_bytes isMemory_kernel hs hd (kernelLoad_bytes · d err)⟩,
      ⟨_, rfl, startDesc_bytes isMemory_hbm hs hd (hbmXfer_bytes · d err)⟩⟩
  · intro hd
    have hkeep (lo m : Nat) (u v : State) (e : MemSame u v) (k : KeptOut lo m s.hostMem u.hostMem) : KeptOut lo m s.hostMem v.hostMem :=
      e.hostMem.symm ▸ k
    have hsame (lo m : Nat) (u : State) (e : MemSame s u) : KeptOut lo m s.hostMem u.hostMem := e.hostMem.symm ▸ .refl _ _ _
    exact ⟨⟨_, rfl, desc_out (P := fun u => KeptOut _ _ s.hostMem u.hostMem) hd (hsame _ _) (hkeep _ _)
        fun b e => e.hostMem ▸ truthTable_bytes b d err⟩,
      ⟨_, rfl, desc_out (P := fun u => KeptOut _ _ s.hostMem u.hostMem) hd (hsame _ _) (hkeep _ _)
        fun b e => e.hostMem ▸ qRead_bytes b d err⟩⟩

/-- A completion entry is the packet at the head of the completion queue, at the tail's place in the ring (R291). -/
theorem writeEntry_bytes (s : State) (n : Nat) {p : Packet} (hp : (s.queue (s.cqQueue n)).pkts.head? = some p) :
    KeptOut (s.cqBase n + 32 * ((s.ring n).cqTail % s.ringSize n)) p.bytes.length s.hostMem (s.writeEntry n).hostMem := by
  unfold State.writeEntry
  dsimp only
  split_ifs with hfull
  · exact .refl _ _ _
  · split
    · exact .refl _ _ _
    next x xs hq =>
      obtain rfl : x = p := by simpa [hq] using hp
      split
      next i _ =>
        have hsame : MemSame s (s.unreadable n (s.cqQueue n) i x) := .step (State.unreadable_touches ..) rfl
        rw [hsame.hostMem]
        exact .refl _ _ _
      next =>
        rw [(MemSame.step (State.drained_touches _ n) rfl).hostMem]
        exact .writes rfl le_rfl

/-- A head copy writes the entry's samples and its READY bit (R106). -/
theorem headCopy_bytes (s : State) (k e : Nat) :
    KeptOut (2 ^ 22 * k + 4 * (s.env k e).addr) (4 * min (s.env k e).len 8192) s.envSram (s.headCopy k e).envSram ∧
    KeptOut (65536 * k + 16 * e + 3) 1 s.envTab (s.headCopy k e).envTab := by
  unfold State.headCopy
  dsimp only
  split_ifs with hnone
  · exact ⟨.refl _ _ _, .refl _ _ _⟩
  · exact ⟨.writes rfl (reads_len ..).le, fun x hx => Mem.read_write_ne _ _ (by omega)⟩

/-- Settles O14: the entry and the head copy are single writes to the memories. -/
theorem entryAndHeadCopyBytes : Obligations.EntryAndHeadCopyBytes := by
  unfold Obligations.EntryAndHeadCopyBytes
  intro s t
  refine ⟨fun n p hp => ⟨_, rfl, writeEntry_bytes (s.at t) n hp⟩, fun k e => ⟨_, rfl, ?_⟩⟩
  have hs := memSame_upTo s t
  have henv : (s.upTo t).env k e = s.env k e := by simp only [State.env, State.envEntry, hs.envTab]
  have hcopy := headCopy_bytes (s.upTo t) k e
  rwa [henv, hs.envSram, hs.envTab] at hcopy

end Sys2Proof
end

section
/-! Units' ENABLE bits and ownership (R57, R75). -/

namespace Sys2Proof
open Sys2Proof.Machine

/-- A unit's ENABLE reads what was written to it. -/
theorem unitWrite_enable (s : State) (t : BitVec 64) (x : UnitId) (w : Word) (v : Nat) (hv : v < 2) (hup : (s.upTo t).blocksUp = true)
    (hpresent : (s.upTo t).absent (unitReg x).off = false) (hrst : ∀ k, unitStrand x = some k → ((s.upTo t).strand k).rst = none) :
    enableOf (s.unitWrite t x w v) x = v := by
  cases x with
  | tone k n => exact State.strandWrite_enable s _ t rfl _ _ _ _ 31 _ rfl (by decide) v hv hup hpresent (hrst k rfl) (State.wrTone_enable _ _ _ _ v hv)
  | rf k o => exact State.strandWrite_enable s _ t rfl _ _ _ _ 0 _ rfl (by decide) v hv hup hpresent (hrst k rfl) (State.wrOut_rf_enable _ _ _ _ o.isLt _ v hv)
  | bb k n => exact State.strandWrite_enable s _ t rfl _ _ _ _ 0 _ rfl (by decide) v hv hup hpresent (hrst k rfl) (State.wrOut_bb_enable _ _ _ _ _ v hv)
  | input k i => exact State.strandWrite_enable s _ t rfl _ _ _ _ 0 _ rfl (by decide) v hv hup hpresent (hrst k rfl) (State.wrInCtl_enable _ _ _ _ _ v hv)
  | monitor n =>
    have hwrite : s.unitWrite t (.monitor n) w v = (s.upTo t).wrMonCtl n (setF w 0 0 v) :=
      State.blockWrite_up s t (.monCtl n) (fun a => a.wrMonCtl n (setF w 0 0 v)) (by simpa using hup) (by simpa [unitReg] using hpresent)
    rw [hwrite]
    exact State.wrMonCtl_enable _ _ _ v hv

/-- Settles O20: the write of each kind of unit. -/
theorem unitEnableAndDisable : Obligations.UnitEnableAndDisable := by
  unfold Obligations.UnitEnableAndDisable
  rintro s a t x w rfl hup hpresent hrst
  exact ⟨⟨_, rfl, unitWrite_enable s t x w 1 (by decide) hup hpresent hrst⟩, ⟨_, rfl, unitWrite_enable s t x w 0 (by decide) hup hpresent hrst⟩⟩

theorem heldFor_unhold (s : State) (r : RegId) : (s.unhold r).heldFor r = none := by
  simp [State.heldFor, State.unhold]

theorem mergeX_seqOwn_owner (k v : Nat) (old w : Word) : getF (RegId.mergeX (.seqOwn k v) old w) 2 0 = getF w 2 0 :=
  mergeX_fld _ old w ⟨2, 0, .rw, 0, []⟩ (by simp [RegId.fields]) rfl rfl (by simp [RegId.extraOk]) (by decide) (by simp [RegId.fields]) (fun _ => rfl)

theorem inactive_of_idle {s : State} {k i : Nat} (h : strandIdle s k = true) (hi : i < 8) : (s.core (8 * k + i)).active = false := by
  simpa using List.all_eq_true.mp h i (List.mem_range.mpr hi)

/-- On an idle strand a write of SEQ_OWN is in force at once, and what was held is gone (R75). -/
theorem wrOwn_idle (s : State) (k v : Nat) (w : Word) (h : strandIdle s k = true) :
    (s.wrOwn k v w).owner k v = getF w 2 0 ∧ (s.wrOwn k v w).heldFor (.seqOwn k v) = none := by
  have hold := inactive_of_idle h (owner_lt s k v)
  have hnew := inactive_of_idle h (getF_lt w 2 0 : getF w 2 0 < 8)
  have hwrite : s.wrOwn k v w = (s.unhold (.seqOwn k v)).setReg (.seqOwn k v) (RegId.mergeX (.seqOwn k v) (s.reg (.seqOwn k v)) w) := by
    unfold State.wrOwn
    simp [hold, hnew]
  rw [hwrite]
  exact ⟨by rw [State.owner, State.fld_setReg, mergeX_seqOwn_owner], heldFor_unhold s _⟩

/-- Settles O46: the held word is written once the strand is idle. -/
theorem heldWriteTakesEffect : Obligations.HeldWriteTakesEffect := by
  unfold Obligations.HeldWriteTakesEffect
  rintro s a t off w k v rfl hoff hheld hidle
  have hkept : (s.upTo t).heldFor (.seqOwn k v) = some w := by
    rw [← hheld, State.heldFor, (s.upTo_touches t).keeps .held rfl, State.heldFor]
  have happly : (s.upTo t).heldApply (.seqOwn k v) = (s.upTo t).wrOwn k v w := by
    unfold State.heldApply
    rw [hkept]
  refine ⟨(s.upTo t).wrOwn k v w, ?_, wrOwn_idle _ k v w hidle⟩
  show execHeldWriteApply t off s = _
  unfold execHeldWriteApply
  rw [hoff]
  exact congrArg Host.Outcome.next happly

end Sys2Proof
end

section
/-! Strands' gating and resets, output shutdowns and ply clocks (R30, R56 to R58, R424). -/

namespace Sys2Proof
open Sys2Proof.Machine

theorem ply_of {l : List Part} {s t : State} (h : Touches l s t) (hl : l.contains .plies = false) (p : Nat) : t.ply p = s.ply p := by
  have hplies := h.keeps .plies hl
  simp only [Part.same] at hplies
  simp [State.ply, hplies]

/-- The outputs that a gated or reset strand holds (R30). -/
theorem coreAtRest_holdStrand {s : State} {c k b : Nat} {x y : Bool} (h : coreAtRest (s.core c)) : coreAtRest ((s.holdStrand k b x y).core c) :=
  rest_noted (State.holdStrand_noted s k b x y) h

theorem coreAtRest_of {l : List Part} {s t : State} {c : Nat} (h : Touches l s t) (hl : l.contains .cores = false) (hs : coreAtRest (s.core c)) :
    coreAtRest (t.core c) := (core_of h hl c).symm ▸ hs

theorem strandGated_gated (s : State) (k : Nat) (hg : (s.strand k).gate = .gating) (hp : (s.strand k).pendEn = false) :
    ((s.strandGated k).strand k).gate = .gated ∧ (s.strandGated k).now = (s.toTime (s.strand k).due).now ∧
      ∀ c, c / 8 = k → coreAtRest ((s.strandGated k).core c) := by
  unfold State.strandGated
  simp only [hg, if_true, hp, Bool.false_eq_true, if_false]
  generalize hx : State.holdStrand _ k _ false true = x
  have hnow : x.now = (s.toTime (s.strand k).due).now := by
    rw [← hx, now_of (State.holdStrand_touches ..) rfl, now_of (State.clearWins_touches ..) rfl]
    rfl
  have hrest (c : Nat) (hc : c / 8 = k) : coreAtRest (x.core c) := by
    rw [← hx]
    exact coreAtRest_holdStrand (rest_clearWins _ k k c (clear_rest _ k c hc))
  have hidle := State.countIdle_touches (x.setStrand k { x.strand k with gate := .gated, pendEn := false, rst := none }) (k / 8)
  refine ⟨?_, (now_of hidle rfl).trans hnow, fun c hc => coreAtRest_of hidle rfl (hrest c hc)⟩
  rw [strand_of hidle rfl, State.strand_setStrand]

/-- A strand without held words replays none (R30). -/
theorem replay_none (s : State) (k : Nat) (acted : Bool) (h : (s.strand k).heldW = []) :
    s.replay k acted = s.setStrand k { s.strand k with heldW := [] } := by
  unfold State.replay
  rw [h]
  rfl

theorem strandUngated_ungated (s : State) (k : Fin 32) (hg : (s.strand k).gate = .ungating) (ha : (s.strand k).gateAfter = false)
    (hw : (s.strand k).heldW = []) (hon : s.strandOn k = true) :
    ((s.strandUngated k).strand k).gate = .ungated ∧ (s.strandUngated k).now = (s.toTime (s.strand k).due).now := by
  have hlate : (s.toTime (s.strand k).due).strandOn k = true := (State.toTime_hushed s _).strandOn k.isLt ▸ hon
  unfold State.strandUngated
  simp only [hg, ha]
  rw [replay_none _ _ _ (by simpa using hw)]
  generalize hx : State.setStrand _ (k : Nat) _ = x
  obtain ⟨hnow, hstrands, hregs⟩ := fold_due (strandConvs k) x
  have hxon : x.strandOn k = true := by
    rw [← hx]
    exact (strandOn_congr (s := s.toTime (s.strand k).due) rfl k).trans hlate
  rw [strandOn_congr hregs, hxon]
  simp only [ne_eq, not_true_eq_false, if_false, Bool.not_true, Bool.or_self, Bool.false_eq_true]
  refine ⟨?_, hnow.trans (by rw [← hx]; rfl)⟩
  have hstrand : ∀ y : State, y.strands = x.strands → (y.strand k).gate = (x.strand k).gate := fun y hy => by simp [State.strand, hy]
  rw [hstrand _ hstrands, ← hx]
  simp

/-- A keyed reset of a strand that is not gated begins at once (R424). -/
theorem strandReset_begins (s : State) (k : Nat) (hg : (s.strand k).gate ≠ .gated) (hr : (s.strand k).rst = none) :
    ((s.strandReset k).strand k).rst = some s.now ∧ ∀ c, c / 8 = k → coreAtRest ((s.strandReset k).core c) := by
  unfold State.strandReset
  simp only [hg, hr, if_false]
  generalize hx : State.holdStrand _ k _ true true = x
  refine ⟨by simp, fun c hc => ?_⟩
  have hrest : coreAtRest (x.core c) := by
    rw [← hx]
    exact coreAtRest_holdStrand (coreAtRest_of (State.clearSegs_touches ..) rfl (clear_rest _ k c hc))
  exact hrest

theorem strandResetDone_ends (s : State) (k t : Nat) {b : Nat} (hr : (s.strand k).rst = some b) (hw : (s.strand k).heldW = []) :
    ((s.strandResetDone k t).strand k).rst = none ∧ (s.strandResetDone k t).now = (s.toTime (min t (b + 2 * us))).now := by
  unfold State.strandResetDone
  simp only [hr]
  split_ifs
  · rw [replay_none _ _ _ (by simpa using hw)]
    exact ⟨by simp, rfl⟩
  · exact ⟨by simp, rfl⟩

theorem outShutDone_ends (s : State) (k o : Nat) {due : Nat} (h : (s.out k o).shut = some due) :
    ((s.outShutDone k o).out k o).shut = none ∧ ((s.outShutDone k o).out k o).pendEn = false ∧ (s.outShutDone k o).now = (s.toTime due).now := by
  unfold State.outShutDone
  simp only [h]
  exact ⟨by simp, by simp, rfl⟩

/-- Settles O21: each completion's own equation. -/
theorem strandGateAndReset : Obligations.StrandGateAndReset := by
  unfold Obligations.StrandGateAndReset
  intro s t k
  refine ⟨fun hg hp => ⟨_, rfl, strandGated_gated s k hg hp⟩, fun hg ha hw hon => ⟨_, rfl, strandUngated_ungated s k hg ha hw hon⟩, ?_,
    fun b hr hw => ⟨_, rfl, strandResetDone_ends s k t.toNat hr hw⟩, fun o due h => ⟨_, rfl, outShutDone_ends s _ _ h⟩⟩
  rintro b rfl hup hpresent hg hr
  refine ⟨(s.upTo t).strandReset k, ?_, strandReset_begins _ k hg hr⟩
  have hkey : State.wrStrCtl (s.upTo t) k (BitVec.ofNat 32 ((0x5A : BitVec 8).toNat * 2 ^ 24 + 1)) = (s.upTo t).strandReset k := if_pos (by decide)
  show Host.Outcome.next _ = _
  rw [State.blockWrite_up s t (.strCtl k) _ (by simpa using hup) (by simpa using hpresent), hkey]

theorem merge_plyClkCtl_policy (p : Nat) (old w : Word) (h : getF w 1 0 = 1) : getF (RegId.merge (.plyClkCtl p) old w) 1 0 = 1 := by
  have hset (x : Word) : getF (setF x 1 0 1) 1 0 = 1 := by rw [getF_setF _ _ _ _ (by decide) (by decide)]; rfl
  simp [RegId.merge, RegId.fields, Field.allows, h, hset]

/-- A stopped ply starts on the policy ALWAYS_ON (R56). -/
theorem wrPlyClk_starts (s : State) (p : Nat) (w : Word) (hm : s.mode.mode.powered = true) (hw : getF w 1 0 = 1) (hst : (s.ply p).st = .stopped) :
    (s.wrPlyClk p w).fld (.plyClkCtl p) 1 0 = 1 ∧ ((s.wrPlyClk p w).ply p).st = .starting ∧ ((s.wrPlyClk p w).ply p).due = s.now + 40 * us := by
  have hfld : (s.setReg (.plyClkCtl p) (RegId.merge (.plyClkCtl p) (s.reg (.plyClkCtl p)) w)).fld (.plyClkCtl p) 1 0 = 1 := by
    rw [State.fld_setReg, merge_plyClkCtl_policy p _ w hw]
  unfold State.wrPlyClk
  simp only [hm, Bool.true_eq_false, if_false, State.alwaysOn, hfld, decide_true, if_true]
  unfold State.startPly
  simp only [show ∀ x, ((s.setReg (.plyClkCtl p) x).ply p) = s.ply p from fun _ => rfl, hst]
  exact ⟨hfld, by simp, by simp⟩

/-- Reloading a ply's units and noting their phases keeps its clock and module time (R116). -/
theorem notePhases_started {s x : State} {f : Nat → Bool} {t p : Nat} {l : List Nat}
    (hx : l.foldl (fun a k => a.notePhases k (up8 a.now)) (s.reloadUnits f t) = x) : x.ply p = s.ply p ∧ x.now = s.now := by
  have hnote : Touches [.rtones] (s.reloadUnits f t) x :=
    hx ▸ Touches.foldl l (fun a k ha => .step (State.notePhases_touches ..) rfl ha) (.refl _ _)
  have hload := State.reloadUnits_touches s f t
  exact ⟨(ply_of hnote rfl p).trans (ply_of hload rfl p), (now_of hnote rfl).trans (now_of hload rfl)⟩

theorem plyLocked_locks (s : State) (p : Fin 4) (h : (s.ply p).st = .starting) :
    ((s.plyLocked p).ply p).st = .locked ∧ (s.plyLocked p).now = (s.toTime (s.ply p).due).now := by
  unfold State.plyLocked
  simp only [h, if_true]
  have hstrands : ∀ k ∈ plyStrands p, k / 8 = p := by
    intro k hk
    simp only [plyStrands, List.mem_map, List.mem_range] at hk
    omega
  generalize hx : List.foldl (fun (a : State) k => a.notePhases k (up8 a.now)) _ (plyStrands p) = x
  obtain ⟨hply, hnow⟩ := notePhases_started hx
  obtain ⟨hst, hfold⟩ := foldUngate p (plyStrands p) hstrands x (by rw [hply, ply_of (State.bump_touches ..) rfl, State.ply_setPly])
  refine ⟨idle_locked _ p hst, ?_⟩
  rw [now_of (State.countIdle_touches ..) rfl, hfold, hnow]
  rfl

theorem plyIdle_stops (s : State) (p : Nat) {f : Nat} (hst : (s.ply p).st = .locked) (hf : (s.ply p).idleFrom = some f) (hon : s.plyOn p = false)
    (ha : s.alwaysOn p = false) (hm : s.mode.mode.powered = true) (hc : s.mode.mode ≠ .calibrate) :
    ((s.plyIdle p).ply p).st = .stopping ∧ ((s.plyIdle p).ply p).due = (s.toTime (f + s.fld (.plyClkCtl p) 31 16 * ms)).now + 20 * us := by
  unfold State.plyIdle
  simp only [hf, hst, hon, ha, hm, hc, ne_eq, not_true_eq_false, Bool.false_eq_true, Bool.true_eq_false, or_self, if_false, State.ply_setPly, true_and]
  rw [now_of (State.calAbortIf_touches ..) rfl]

theorem plyStopped_stops (s : State) (p : Nat) (hst : (s.ply p).st = .stopping) (hp : (s.ply p).pendEn = false) :
    ((s.plyStopped p).ply p).st = .stopped ∧ (s.plyStopped p).now = (s.clockTo (s.ply p).due).now := by
  unfold State.plyStopped
  simp only [hst, hp, if_true, Bool.false_eq_true, if_false]
  exact ⟨by simp, rfl⟩

/-- Settles O22: each step of a ply's clock. -/
theorem plyClock : Obligations.PlyClock := by
  unfold Obligations.PlyClock
  intro s t p
  refine ⟨?_, fun h => ⟨_, rfl, plyLocked_locks s p h⟩, fun f hst hf hon ha hm hc => ⟨_, rfl, plyIdle_stops s p hst hf hon ha hm hc⟩,
    fun hst hp => ⟨_, rfl, plyStopped_stops s p hst hp⟩⟩
  rintro w b rfl hup hpresent hm hw hst
  refine ⟨(s.upTo t).wrPlyClk p w, ?_, wrPlyClk_starts _ p w hm hw hst⟩
  show Host.Outcome.next _ = _
  rw [State.blockWrite_up s t (.plyClkCtl p) _ (by simpa using hup) (by simpa using hpresent)]

end Sys2Proof
end

section
/-! The decision fabric's commits, imports and side-band frames, and the module number (R212, R214, R217 to R220, R225). -/

namespace Sys2Proof
open Sys2Proof.Machine

/-- A commit puts the shadow set at the head of the derived bit's sets and shows it as its own shadow table (R220). -/
theorem decCommit_sets (s : State) (d : Nat) : Tab.get (s.decCommit d).dec.dsets d [] =
    { from' := next8 s.now, sels := (s.decCommit d).shadowSels d, inv := (s.decCommit d).fld (.decDctl d) 15 0, tt := (s.decCommit d).shadowTT d } ::
      Tab.get s.dec.dsets d [] := by
  have hsels : (s.decCommit d).shadowSels d = s.shadowSels d := rfl
  have htt : (s.decCommit d).shadowTT d = s.shadowTT d := by
    have hfld : (s.decCommit d).fld (.decDctl d) 31 24 = s.fld (.decDctl d) 31 24 := rfl
    have hraw : Tab.get (s.decCommit d).dec.ttShadow d (.raw []) = s.shadowTT d := by simp [State.decCommit]
    by_cases hc : s.fld (.decDctl d) 31 24 = 0xFF
    · rw [State.shadowTT, hfld, if_pos hc, hraw]
    · simp only [State.shadowTT, hfld, if_neg hc, hsels]
  rw [hsels, htt]
  unfold State.decCommit
  simp only [Tab.get_put]
  rfl

/-- A write of COMMIT commits with the merged control word (R220). -/
theorem wrDctl_sets (s : State) (d : Nat) (w : Word) : Tab.get (s.wrDctl d (setF w 17 17 1)).dec.dsets d [] =
    { from' := next8 s.now, sels := (s.wrDctl d (setF w 17 17 1)).shadowSels d, inv := (s.wrDctl d (setF w 17 17 1)).fld (.decDctl d) 15 0,
      tt := (s.wrDctl d (setF w 17 17 1)).shadowTT d } :: Tab.get s.dec.dsets d [] := by
  have hcommit : getF (setF w 17 17 1) 17 17 = 1 := by
    rw [getF_setF _ _ _ _ (by decide) (by decide)]
    rfl
  unfold State.wrDctl
  dsimp only
  rw [if_pos (Or.inl hcommit)]
  exact decCommit_sets _ d

/-- An import of an inactive ply is loaded at the next side-band frame (R214). -/
theorem wrImport_inactive (s : State) (p k : Nat) (w : Word) (hp : s.plyActive p = false) (hs : getF w 9 0 / 256 ≠ p) :
    Tab.get (s.wrImport p k w).dec.imports (128 * p + k) {} =
      { valid := decide (getF w 31 31 = 1), slot := getF w 9 0, from' := 64 * (s.now / 64 + 1) } := by
  have hply : (s.setFld .decCtl 31 24 0xFF).plyActive p = false := hp
  have hwrite : s.wrImport p k w = ((s.setFld .decCtl 31 24 0xFF).unhold (.decImport p k)).putImport p k w := by
    unfold State.wrImport
    rw [if_neg (by simp [hp])]
  rw [hwrite, putImport_get _ p k w hs]
  rfl

/-- Every failed block of a frame's report, upward, is bad in that frame from the first with valid slots on (R212). -/
theorem sideband_up (s : State) (p n : Nat) (bad : List (Fin 256)) (b : Fin 256) (hb : b ∈ bad) (hn : s.dec.slotsFrom ≤ n) :
    n ∈ (s.sideband p n (.up bad)).upBad (256 * p + b) ∧ (s.sideband p n (.up bad)).now = (s.toTime (64 * (n + 1))).now := by
  have hdec := dec_of (s.toTime_touches (64 * (n + 1))) rfl
  have hsome : bad.isEmpty = false := by simpa using List.ne_nil_of_mem hb
  unfold State.sideband
  simp only [hsome, Bool.false_eq_true, if_false]
  refine ⟨?_, (now_of (State.sbFail_touches ..) rfl).trans rfl⟩
  rw [State.upBad, dec_of (State.sbFail_touches ..) rfl, hdec]
  have hentry : (256 * p + b.val, n) ∈ bad.map (fun (x : Fin 256) => (256 * p + x.val, n)) ++ s.dec.badUp :=
    List.mem_append_left _ (List.mem_map.mpr ⟨b, hb, rfl⟩)
  exact List.mem_map.mpr ⟨_, List.mem_filter.mpr ⟨hentry, by simpa using hn⟩, rfl⟩

theorem sideband_down (s : State) (p n : Nat) :
    n ∈ (s.sideband p n (.down false)).downBad p ∧ (s.sideband p n (.down false)).now = (s.toTime (64 * (n + 1))).now := by
  unfold State.sideband
  simp only [Bool.false_eq_true, if_false]
  refine ⟨?_, (now_of (State.sbFail_touches ..) rfl).trans rfl⟩
  rw [State.downBad, dec_of (State.sbFail_touches ..) rfl]
  simp

theorem mergeX_hchCtl_modnum (old w : Word) : getF (RegId.mergeX .hchCtl old w) 5 0 = getF w 5 0 :=
  mergeX_fld _ old w ⟨5, 0, .rw, 0, []⟩ (by decide) rfl rfl rfl (by decide) (by decide) (fun _ => rfl)

theorem heldFor_hold (s : State) (r : RegId) (w : Word) : (s.hold r w).heldFor r = some w := by
  have hnone : (s.held.filter (fun p => decide (p.1 ≠ r.off))).find? (fun p => p.1 = r.off) = none := by simp
  rw [State.heldFor, State.hold, List.find?_append, hnone]
  simp

/-- Settles O31: each command's own equation. -/
theorem decisionFabric : Obligations.DecisionFabric := by
  unfold Obligations.DecisionFabric
  rintro s a t w rfl
  refine ⟨fun hup d => ?_, fun p k hup hpresent hp hs => ?_, fun p n b r hn => ⟨_, rfl, sideband_up s p n (b :: r) b (by simp) hn⟩,
    fun p n => ⟨_, rfl, sideband_down s p n⟩, fun hup hm => ?_, fun hup hm => ?_⟩
  · have hexec : exec (.decCommit t d w) s = .next ((s.at t).wrDctl d (setF w 17 17 1)) :=
      congrArg Host.Outcome.next (State.hubWrite_up s t _ hup)
    exact ⟨_, hexec, wrDctl_sets _ _ _⟩
  · have hexec : exec (.importWrite t p k w) s = .next ((s.upTo t).wrImport p k w) :=
      congrArg Host.Outcome.next (State.blockWrite_up s t _ _ (by simpa using hup) (by simpa using hpresent))
    exact ⟨_, hexec, wrImport_inactive _ _ _ _ hp hs⟩
  · have hexec : exec (.modnumWrite t w) s = .next ((s.at t).wrHchCtl w) := congrArg Host.Outcome.next (State.hubWrite_up s t _ hup)
    refine ⟨_, hexec, ?_⟩
    rw [State.wrHchCtl, if_pos (show (s.at t).mode.mode = .ready from hm), State.fld_setReg, mergeX_hchCtl_modnum]
  · have hexec : exec (.modnumWrite t w) s = .next ((s.at t).wrHchCtl w) := congrArg Host.Outcome.next (State.hubWrite_up s t _ hup)
    refine ⟨_, hexec, ?_⟩
    rw [State.wrHchCtl, if_neg (show ¬(s.at t).mode.mode = .ready from hm)]
    exact ⟨rfl, heldFor_hold _ _ w⟩

end Sys2Proof
end

section
/-! ACQ opens a window (R72, R165). -/

namespace Sys2Proof
open Sys2Proof.Machine

/-- A raw capture that finds the input busy only marks its window (R168). -/
theorem rawStart_window (s : State) (k r : Nat) (v : Win) : ∃ b, (s.rawStart k r v).2 = { v with rawLost := b } := by
  unfold State.rawStart
  split
  · exact ⟨v.rawLost, rfl⟩
  · exact ⟨true, rfl⟩

/-- The window opened is the tone's last. -/
theorem openWin_last (s : State) (k r : Nat) (v : Win) :
    ∃ b, ((s.openWin k r v).rtone k r).wins.getLast? = some { v with rawLost := b } := by
  have hwindow : ∃ b, (if v.raw then s.rawStart k r v else (s, v)).2 = { v with rawLost := b } := by
    split
    · exact rawStart_window s k r v
    · exact ⟨v.rawLost, rfl⟩
  obtain ⟨b, hb⟩ := hwindow
  refine ⟨b, ?_⟩
  unfold State.openWin
  dsimp only
  rw [State.rtone_setRtone, List.getLast?_concat, hb]

/-- An ACQ opens the window of its word, made in a state that the checks of overlapping windows reach. -/
theorem doAcq_last (s : State) (c : Nat) (chk : Bool) (w : Nat) (tm : Tim) :
    ∃ b a, ((s.doAcq c chk w tm).rtone (c / 8) (bits w 39 35)).wins.getLast? = some { State.newWin a c w tm with rawLost := b } := by
  unfold State.doAcq
  dsimp only
  generalize State.overlap _ c (bits w 39 35) (bits w 15 0) tm.eff (adcAt tm.eff) = s1
  obtain ⟨b, hb⟩ := openWin_last s1 (c / 8) (bits w 39 35) (s1.newWin c w tm)
  have hnote (e : Nat) := rtone_of (State.noteWin_touches (s1.openWin (c / 8) (bits w 39 35) (s1.newWin c w tm)) c (bits w 39 35) (s1.newWin c w tm) e) rfl
  refine ⟨b, s1, ?_⟩
  split_ifs
  · rw [rtone_of (State.dpathCheck_touches ..) rfl, hnote, hb]
  · rw [hnote, hb]

/-- Settles O30: the window of the word in the state in which it has begun. -/
theorem acquireWord : Obligations.AcquireWord := by
  unfold Obligations.AcquireWord
  rintro s a c chk rfl h
  obtain ⟨b, x, hwin⟩ := doAcq_last (State.begun s c) c chk (nextWord (s.readyFor c) c) (nextTim (s.readyFor c) c)
  have hexec : exec (.acq c chk) s = .next ((State.begun s c).doAcq c chk (nextWord (s.readyFor c) c) (nextTim (s.readyFor c) c)) :=
    congrArg Host.Outcome.next (State.runWord_issues s c 0x05 _ h)
  exact ⟨_, _, hexec, hwin, rfl, rfl, rfl, rfl, rfl, rfl, rfl, rfl, rfl, rfl⟩

end Sys2Proof
end

section
/-! A sequence word that issues: the state in which it has begun, and what each word does from there (R67 to R90). -/

namespace Sys2Proof
open Sys2Proof.Machine

variable {s : State} {c op : Nat} {L : List RegId} {U O R : List Nat}

theorem begun_touches (s : State) (c : Nat) :
    Touches [.now, .flags, .counts, .flagAt, .recent, .ev, .queues, .cores, .mem] (s.readyFor c) (State.begun s c) := State.begin_touches ..

theorem begun_core (s : State) (c : Nat) : ∃ ms, (State.begun s c).core c =
    ((s.readyFor c).core c).begun (nextWord (s.readyFor c) c) (nextTim (s.readyFor c) c) ms := State.core_begin ..

theorem begun_st (h : issues (s.readyFor c) c op) : ((State.begun s c).core c).st = .running := by
  obtain ⟨ms, hcore⟩ := begun_core s c
  rw [hcore]
  exact h.1

theorem begun_bights (s : State) (c : Nat) : ((State.begun s c).core c).bights = ((s.readyFor c).core c).bights := by
  obtain ⟨ms, hcore⟩ := begun_core s c
  rw [hcore]
  rfl

theorem begun_calls (s : State) (c : Nat) : ((State.begun s c).core c).calls = ((s.readyFor c).core c).calls := by
  obtain ⟨ms, hcore⟩ := begun_core s c
  rw [hcore]
  rfl

theorem begun_inStream (s : State) (c : Nat) : ((State.begun s c).core c).inStream = ((s.readyFor c).core c).inStream := by
  obtain ⟨ms, hcore⟩ := begun_core s c
  rw [hcore]
  rfl

theorem begun_pc (s : State) (c : Nat) : ((State.begun s c).core c).pc =
    if ((s.readyFor c).core c).inStream then ((s.readyFor c).core c).pc else pcNext ((s.readyFor c).core c).pc := by
  obtain ⟨ms, hcore⟩ := begun_core s c
  rw [hcore]
  rfl

theorem begun_defer (s : State) (c : Nat) : ((State.begun s c).core c).defer = ((s.readyFor c).core c).defer := by
  obtain ⟨ms, hcore⟩ := begun_core s c
  rw [hcore]
  rfl

theorem begun_shotStart (s : State) (c : Nat) : ((State.begun s c).core c).shotStart = ((s.readyFor c).core c).shotStart := by
  obtain ⟨ms, hcore⟩ := begun_core s c
  rw [hcore]
  rfl

theorem begun_kept (s : State) (c : Nat) (L : List RegId) : RegsKept L (s.readyFor c) (State.begun s c) :=
  .step (begun_touches s c) rfl (.refl _ _)

theorem begun_reach (s : State) (c : Nat) : WordReach c U O R (s.readyFor c) (State.begun s c) := reach_begin ..

/-- A bight opened on the stack (R77). -/
theorem bight_some {x : Core} {w t : Nat} (h : x.bights.length < 8) : x.bight w t =
    some { x with bights := { body := x.pc, count := bits w 39 16, s0 := t, shot := bit w 15 } :: x.bights, tPrev := t, ePrev := t } :=
  if_neg (by omega)

theorem call_some {x : Core} {w t : Nat} (h : x.calls.length < 16) : x.call w t =
    some { x with calls := (x.pc, x.inStream) :: x.calls, pc := bits w 39 23, inStream := false, tPrev := t, ePrev := t } :=
  if_neg (by omega)

theorem ret_some {x : Core} {t : Nat} {p : Nat × Bool} {r : List (Nat × Bool)} (h : x.calls = p :: r) :
    x.ret t = some { x with calls := r, pc := p.1, inStream := p.2, tPrev := t, ePrev := t } := by
  rw [Core.ret, h]

theorem jumpTo_some {x : Core} {target pop t : Nat} (h : pop ≤ x.bights.length) :
    x.jumpTo target pop t = some { x with bights := x.bights.drop pop, pc := target, tPrev := t, ePrev := t } := if_neg (by omega)

/-- The core after the last iteration of its bight (R77). -/
theorem endbight_last {x : Core} {t : Nat} {b : Bight} {r : List Bight} (h : x.bights = b :: r) (hb : b.count = 1) :
    x.endbight t = some { x with bights := r, tPrev := t, ePrev := t } := by
  rw [Core.endbight, h]
  exact if_pos hb

/-- The core after another iteration of its bight (R77). -/
theorem endbight_again {x : Core} {t : Nat} {b : Bight} {r : List Bight} (h : x.bights = b :: r) (hb : b.count ≠ 1) :
    x.endbight t = some { x with bights := { b with count := b.count - 1, s0 := t } :: r, pc := b.body, tPrev := t, ePrev := t } := by
  rw [Core.endbight, h]
  exact if_neg hb

theorem endbight_some {x : Core} {t : Nat} (h : x.bights ≠ []) : ∃ y, x.endbight t = some y := by
  obtain ⟨b, r, hb⟩ := List.exists_cons_of_ne_nil h
  by_cases hc : b.count = 1
  · exact ⟨_, endbight_last hb hc⟩
  · exact ⟨_, endbight_again hb hc⟩

/-- The state in which the condition of a word of core c is judged (R213). -/
def judged (s : State) (c w : Nat) (tm : Tim) : State := s.reportUnmapped c (bits w 11 0) (cutoff tm.t)

theorem judged_touches (s : State) (c w : Nat) (tm : Tim) :
    Touches [.flags, .counts, .flagAt, .recent, .ev, .queues, .cores, .mem] s (judged s c w tm) := State.reportUnmapped_touches ..

/-- A report of an unmapped slot only marks the core (R97, R213). -/
theorem reportUnmapped_core (s : State) (c a x : Nat) : ∃ ms, (s.reportUnmapped c a x).core c = { s.core c with marks := ms } := by
  unfold State.reportUnmapped
  split_ifs
  · obtain ⟨ms, hcore⟩ := State.core_invalid (s.raise .decUnmapped 0 c x [wd a]) c x c
    exact ⟨ms, by rw [hcore, raise_core]⟩
  · exact ⟨_, rfl⟩

theorem reach_report (s : State) (a x : Nat) : WordReach c U O R s (s.reportUnmapped c a x) := by
  unfold State.reportUnmapped
  exact reach_ite (reach_bad ..) reach_refl

theorem reach_defer (s : State) (w x : Nat) : WordReach c U O R s (s.deferCond c w x) := by
  unfold State.deferCond
  exact reach_ite (reach_bad ..) (reach_trans (reach_raise ..) (reach_core ..))

theorem reach_afterEnd (s : State) (old : Core) (t : Nat) : WordReach c U O R s (s.afterEndbight c old t) := by
  unfold State.afterEndbight
  split
  · exact reach_refl
  · exact reach_ite (reach_trans (reach_core ..) (reach_ends ..)) (reach_ends ..)

/-- A JCOND that fails goes on, with the time its target would need (R86, R435). -/
theorem doJcond_fails {s : State} {w : Nat} {tm : Tim}
    (h : (judged s c w tm).jcondAt c w ((judged s c w tm).core c).shotStart (cutoff tm.t) = .fails) :
    ∃ p, s.doJcond c w tm = (judged s c w tm).setCore c { (judged s c w tm).core c with prep := p, prepCut := cutoff tm.t } := by
  unfold State.doJcond
  rw [judged] at h ⊢
  simp only [h]
  exact ⟨_, rfl⟩

/-- A JCOND whose state is not present is deferred and goes on (R88). -/
theorem doJcond_notPresent {s : State} {w : Nat} {tm : Tim}
    (h : (judged s c w tm).jcondAt c w ((judged s c w tm).core c).shotStart (cutoff tm.t) = .notPresent) :
    ∃ p, s.doJcond c w tm = ((judged s c w tm).deferCond c w (cutoff tm.t)).setCore c
      { ((judged s c w tm).deferCond c w (cutoff tm.t)).core c with prep := p, prepCut := cutoff tm.t } := by
  unfold State.doJcond
  rw [judged] at h ⊢
  simp only [h]
  exact ⟨_, rfl⟩

/-- A JCOND that holds pops POP bights and goes to TARGET (R79, R85). -/
theorem doJcond_holds {s : State} {w : Nat} {tm : Tim} (hp : bits w 16 14 ≤ (s.core c).bights.length)
    (h : (judged s c w tm).jcondAt c w ((judged s c w tm).core c).shotStart (cutoff tm.t) = .holds) :
    ∃ y, s.doJcond c w tm = ((judged s c w tm).setCore c y).endShots c y.bights.length tm.t ∧
      y.pc = bits w 39 23 ∧ y.bights = (s.core c).bights.drop (bits w 16 14) := by
  obtain ⟨ms, hcore⟩ := reportUnmapped_core s c (bits w 11 0) (cutoff tm.t)
  have hbights : ((judged s c w tm).core c).bights = (s.core c).bights := by rw [judged, hcore]
  have hjump : ((judged s c w tm).core c).jcond w tm.t = _ := jumpTo_some (hbights ▸ hp)
  unfold State.doJcond
  rw [judged] at h hjump hbights ⊢
  simp only [h, hjump]
  exact ⟨_, rfl, rfl, by rw [hbights]⟩

/-- A JCOND whose bights suffice reaches its own core alone. -/
theorem reach_jcond {s : State} {w : Nat} {tm : Tim} (hp : bits w 16 14 ≤ (s.core c).bights.length) : WordReach c U O R s (s.doJcond c w tm) := by
  have hjudged : WordReach c U O R s (judged s c w tm) := reach_report ..
  cases h : (judged s c w tm).jcondAt c w ((judged s c w tm).core c).shotStart (cutoff tm.t) with
  | holds =>
    obtain ⟨y, heq, -⟩ := doJcond_holds hp h
    exact heq ▸ reach_trans (reach_ends ..) (reach_trans (reach_core ..) hjudged)
  | fails =>
    obtain ⟨p, heq⟩ := doJcond_fails h
    exact heq ▸ reach_trans (reach_core ..) hjudged
  | notPresent =>
    obtain ⟨p, heq⟩ := doJcond_notPresent h
    exact heq ▸ reach_trans (reach_core ..) (reach_trans (reach_defer ..) hjudged)

/-- A JCOND whose bights suffice changes no register. -/
theorem doJcond_kept {s : State} {w : Nat} {tm : Tim} (hp : bits w 16 14 ≤ (s.core c).bights.length) : RegsKept L s (s.doJcond c w tm) := by
  have hjudged : RegsKept L s (judged s c w tm) := .step (judged_touches ..) rfl (.refl _ _)
  cases h : (judged s c w tm).jcondAt c w ((judged s c w tm).core c).shotStart (cutoff tm.t) with
  | holds =>
    obtain ⟨y, heq, -⟩ := doJcond_holds hp h
    exact heq ▸ .step (State.endShots_touches ..) rfl (.step (State.setCore_touches ..) rfl hjudged)
  | fails =>
    obtain ⟨p, heq⟩ := doJcond_fails h
    exact heq ▸ .step (State.setCore_touches ..) rfl hjudged
  | notPresent =>
    obtain ⟨p, heq⟩ := doJcond_notPresent h
    exact heq ▸ .step (State.setCore_touches ..) rfl (.step (State.deferCond_touches ..) rfl hjudged)

theorem frameOp_kept (s : State) (k f cyc core : Nat) (set : Bool) (w : Word) : RegsKept [.outFrame k f] s (s.frameOp k f cyc core set w) := by
  have hlog : (s.frameLogOf k f).strand = k ∧ (s.frameLogOf k f).frame = f := by
    unfold State.frameLogOf
    cases hx : s.frameLog.find? (fun x => x.strand == k && x.frame == f) with
    | none => simp
    | some x => simpa using List.find?_some hx
  unfold State.frameOp State.setFrame
  dsimp only
  rw [hlog.1, hlog.2]
  exact .setReg (by simp) (.of_eq rfl)

theorem doSetstatic_kept (s : State) (w : Nat) (tm : Tim) : RegsKept [.outStatic (c / 8) (bits w 39 36)] s (s.doSetstatic c w tm) := by
  unfold State.doSetstatic
  exact (State.setStatic_kept _ _ _ _ _ _ (by simp)).trans
    (.step (State.setPunit_touches ..) rfl (.step (State.note_touches ..) rfl (.step (State.note_touches ..) rfl (.refl _ _))))

theorem doSetphase_kept (s : State) (w : Nat) (tm : Tim) : RegsKept [.outFrame (c / 8) (bits w 39 28)] s (s.doSetphase c w tm) := by
  unfold State.doSetphase
  exact .step (State.notePhases_touches ..) rfl ((frameOp_kept ..).trans (.step (State.note_touches ..) rfl (.refl _ _)))

theorem doFrameadd_kept (s : State) (w : Nat) (tm : Tim) : RegsKept [.outFrame (c / 8) (bits w 39 28)] s (s.doFrameadd c w tm) := by
  unfold State.doFrameadd
  dsimp only
  have hreport : RegsKept [.outFrame (c / 8) (bits w 39 28)] s (if bits w 13 12 = 0 then s else s.reportUnmapped c (bits w 11 0) (cutoff tm.t)) :=
    .ite (.refl _ _) (.step (State.reportUnmapped_touches ..) rfl (.refl _ _))
  generalize (if bits w 13 12 = 0 then s else s.reportUnmapped c (bits w 11 0) (cutoff tm.t)) = b at hreport ⊢
  split
  · exact .step (State.deferCond_touches ..) rfl hreport
  · exact hreport
  · exact .step (State.notePhases_touches ..) rfl ((frameOp_kept ..).trans (.step (State.note_touches ..) rfl hreport))

end Sys2Proof
end

section
/-! What a word that issues leaves alone (R71, R72, R97, R117, R145, R163, R172). -/

namespace Sys2Proof
open Sys2Proof.Machine

/-- A word that issues, by a law of its operation in the state in which it has begun. -/
theorem word_issues {s : State} {c op : Nat} {fx : State → Nat → Tim → State} {P : State → Prop} (h : issues (s.readyFor c) c op)
    (hp : P (fx (State.begun s c) (nextWord (s.readyFor c) c) (nextTim (s.readyFor c) c))) :
    ∃ u, Host.Outcome.next (s.runWord c op fx) = (.next u : Host.Outcome State Fault Refusal) ∧ P u :=
  ⟨_, congrArg Host.Outcome.next (State.runWord_issues s c op fx h), hp⟩

/-- A flow word that issues, by the core it gives. -/
theorem flow_issues {s : State} {c op : Nat} {f : Core → Nat → Nat → Option Core} {after : State → Core → Nat → Nat → State} {y : Core}
    {P : State → Prop} (h : issues (s.readyFor c) c op)
    (hy : f ((State.begun s c).core c) (nextWord (s.readyFor c) c) (nextTim (s.readyFor c) c).t = some y)
    (hp : P (after ((State.begun s c).setCore c y) ((State.begun s c).core c) (nextWord (s.readyFor c) c) (nextTim (s.readyFor c) c).t)) :
    ∃ u, Host.Outcome.next (s.runFlow c op f after) = (.next u : Host.Outcome State Fault Refusal) ∧ P u :=
  ⟨_, congrArg Host.Outcome.next (runFlow_issues s c op f after h y hy), hp⟩

theorem begun_set_kept (s : State) (c : Nat) (y : Core) (L : List RegId) : RegsKept L (s.readyFor c) ((State.begun s c).setCore c y) :=
  .step (State.setCore_touches ..) rfl (begun_kept s c L)

/-- Settles O11: the registers that each word's operation writes. -/
theorem wordRegisterFrame : Obligations.WordRegisterFrame := by
  unfold Obligations.WordRegisterFrame
  rintro s a c rfl
  have hbegun := begun_kept s c
  have hset := begun_set_kept s c
  refine ⟨fun h => ?wait, fun h => ?trigwait, fun chk h => ?play, fun chk h => ?acq, fun h => ?setstatic, fun h => ?setfreq, fun h => ?setphase,
    fun h => ?frameadd, fun h hb => ?bight, fun h hb => ?endbight, fun h hc => ?call, fun h hc => ?ret, fun h hp => ?jump, fun h hp => ?jcond⟩
  case wait => exact word_issues h (.step (State.doWait_touches ..) rfl (hbegun _))
  case trigwait => exact word_issues h (.step (State.doTrigwait_touches ..) rfl (hbegun _))
  case play => exact word_issues h (.step (State.doPlay_touches ..) rfl (hbegun _))
  case acq => exact word_issues h (.step (State.doAcq_touches ..) rfl (hbegun _))
  case setstatic => exact word_issues h ((doSetstatic_kept ..).trans (hbegun _))
  case setfreq => exact word_issues h (.step (State.doSetfreq_touches ..) rfl (hbegun _))
  case setphase => exact word_issues h ((doSetphase_kept ..).trans (hbegun _))
  case frameadd => exact word_issues h ((doFrameadd_kept ..).trans (hbegun _))
  case bight => exact flow_issues h (bight_some (begun_bights s c ▸ hb)) (.step (State.afterBight_touches ..) rfl (hset _ _))
  case endbight =>
    obtain ⟨y, hy⟩ := endbight_some (t := (nextTim (s.readyFor c) c).t) (begun_bights s c ▸ hb)
    exact flow_issues h hy (.step (State.afterEndbight_touches ..) rfl (hset _ _))
  case call => exact flow_issues h (call_some (begun_calls s c ▸ hc)) (hset _ _)
  case ret =>
    obtain ⟨p, r, hcalls⟩ := List.exists_cons_of_ne_nil hc
    exact flow_issues h (ret_some ((begun_calls s c).trans hcalls)) (hset _ _)
  case jump => exact flow_issues h (jumpTo_some (begun_bights s c ▸ hp)) (.step (State.endShots_touches ..) rfl (hset _ _))
  case jcond => exact word_issues h ((doJcond_kept (begun_bights s c ▸ hp)).trans (hbegun _))

theorem begun_set_reach (s : State) (c : Nat) (y : Core) : WordReach c [] [] [] (s.readyFor c) ((State.begun s c).setCore c y) :=
  reach_trans (reach_core ..) (begun_reach s c)

theorem mem_tonesOf (c r : Nat) (hr : r < 32) : 32 * (c / 8) + r ∈ tonesOf c := List.mem_map.mpr ⟨r, List.mem_range.mpr hr, rfl⟩

/-- Settles O12: what each word's operation reaches. -/
theorem wordUnitFrame : Obligations.WordUnitFrame := by
  unfold Obligations.WordUnitFrame
  rintro s a c rfl
  have hset := begun_set_reach s c
  have hbegun {U O R : List Nat} : WordReach c U O R (s.readyFor c) (State.begun s c) := begun_reach s c
  refine ⟨fun h => ?wait, fun h => ?trigwait, fun chk h => ?play, fun chk h => ?acq, fun h => ?setstatic, fun h => ?setfreq, fun h => ?setphase,
    fun h => ?frameadd, fun h hb => ?bight, fun h hb => ?endbight, fun h hc => ?call, fun h hc => ?ret, fun h hp => ?jump, fun h hp => ?jcond⟩
  case wait => exact word_issues h (reach_trans (reach_core ..) hbegun)
  case trigwait => exact word_issues h (reach_trans (reach_trigwait ..) hbegun)
  case play => exact word_issues h (reach_trans (reach_play _ _ _ _ (by simp) (by simp)) hbegun)
  case acq => exact word_issues h (reach_trans (reach_acq _ _ _ _ (by simp) (by simp)) hbegun)
  case setstatic => exact word_issues h (reach_trans (reach_setstatic _ _ _ (by simp) (by simp)) hbegun)
  case setfreq => exact word_issues h (reach_trans (reach_setfreq _ _ _ (by simp) (mem_tonesOf c)) hbegun)
  case setphase => exact word_issues h (reach_trans (reach_setphase _ _ _ (mem_tonesOf c)) hbegun)
  case frameadd => exact word_issues h (reach_trans (reach_frameadd _ _ _ (mem_tonesOf c)) hbegun)
  case bight =>
    exact flow_issues h (bight_some (begun_bights s c ▸ hb)) (reach_ite (reach_trans (reach_core ..) (hset _)) (hset _))
  case endbight =>
    obtain ⟨y, hy⟩ := endbight_some (t := (nextTim (s.readyFor c) c).t) (begun_bights s c ▸ hb)
    exact flow_issues h hy (reach_trans (reach_afterEnd ..) (hset _))
  case call => exact flow_issues h (call_some (begun_calls s c ▸ hc)) (hset _)
  case ret =>
    obtain ⟨p, r, hcalls⟩ := List.exists_cons_of_ne_nil hc
    exact flow_issues h (ret_some ((begun_calls s c).trans hcalls)) (hset _)
  case jump => exact flow_issues h (jumpTo_some (begun_bights s c ▸ hp)) (reach_trans (reach_ends ..) (hset _))
  case jcond => exact word_issues h (reach_trans (reach_jcond (begun_bights s c ▸ hp)) hbegun)

end Sys2Proof
end

section
/-! Flow words and playback words (R71, R77, R79, R84 to R90, R104, R105, R116, R117, R123, R145). -/

namespace Sys2Proof
open Sys2Proof.Machine

variable {s : State} {c : Nat}

/-- The program counter and the bights of a core that goes on after its word. -/
structure GoesOn (x y : Core) : Prop where
  bights : y.bights = x.bights
  pc : y.pc = x.pc

theorem GoesOn.shotBight (x : Core) (t : Nat) : GoesOn x (x.shotBight t) := by
  unfold Core.shotBight
  dsimp only
  split
  · split_ifs <;> exact ⟨rfl, rfl⟩
  · exact ⟨rfl, rfl⟩

theorem afterBight_goesOn (s : State) (c w t : Nat) : GoesOn (s.core c) ((s.afterBight c w t).core c) := by
  unfold State.afterBight
  split_ifs
  · rw [State.core_setCore]
    exact .shotBight ..
  · exact ⟨rfl, rfl⟩

theorem endShots_goesOn (s : State) (c d t : Nat) : GoesOn (s.core c) ((s.endShots c d t).core c) := by
  obtain ⟨sh, ms, df, hcore⟩ := endShots_core s c d t
  rw [hcore]
  exact ⟨rfl, rfl⟩

/-- The condition of a JCOND is judged as in the state in which what was due has been done (R85, R86). -/
theorem judged_jcondAt (s : State) (c : Nat) (w : Nat) (tm : Tim) (x : Nat) :
    (judged (State.begun s c) c w tm).jcondAt c w ((judged (State.begun s c) c w tm).core c).shotStart x =
      (s.readyFor c).jcondAt c w ((s.readyFor c).core c).shotStart x := by
  have htouch := (judged_touches (State.begun s c) c w tm)
  obtain ⟨ms, hcore⟩ := reportUnmapped_core (State.begun s c) c (bits w 11 0) (cutoff tm.t)
  have hshot : ((judged (State.begun s c) c w tm).core c).shotStart = ((s.readyFor c).core c).shotStart := by
    rw [judged, hcore, ← begun_shotStart s c]
    rfl
  rw [hshot, State.jcondAt_congr (htouch.keeps .dec rfl) (htouch.keeps .regs rfl),
    State.jcondAt_congr ((begun_touches s c).keeps .dec rfl) ((begun_touches s c).keeps .regs rfl)]

/-- Judging a condition only marks the core. -/
theorem judged_core (s : State) (c w : Nat) (tm : Tim) : ∃ ms, (judged s c w tm).core c = { s.core c with marks := ms } := reportUnmapped_core ..

/-- Settles O25: each flow word's core, carried through the end or the start of its shots. -/
theorem flowWords : Obligations.FlowWords := by
  unfold Obligations.FlowWords
  rintro s a c rfl
  have hbights := begun_bights s c
  have hpc := begun_pc s c
  refine ⟨fun h hb => ?bight, fun b r h hb hcount => ?again, fun b r h hb hcount => ?last, fun h hc => ?call, fun p r h hc => ?ret, fun h hp => ?jump,
    fun h hp hcond => ?holds, fun h hcond => ?fails, fun h hcond => ?deferred⟩
  case bight =>
    refine flow_issues h (bight_some (hbights ▸ hb)) ?_
    rw [(afterBight_goesOn ..).bights, (afterBight_goesOn ..).pc, State.core_setCore, ← hbights]
  case again =>
    refine flow_issues h (endbight_again (hbights.trans hb) hcount) ?_
    obtain ⟨hstack, hgo⟩ := afterEnd_core ((State.begun s c).setCore c _) c ((State.begun s c).core c) (nextTim (s.readyFor c) c).t
    rw [hstack, hgo, State.core_setCore]
    exact ⟨rfl, rfl⟩
  case last =>
    refine flow_issues h (endbight_last (hbights.trans hb) hcount) ?_
    obtain ⟨hstack, hgo⟩ := afterEnd_core ((State.begun s c).setCore c _) c ((State.begun s c).core c) (nextTim (s.readyFor c) c).t
    rw [hstack, hgo, State.core_setCore]
    exact ⟨rfl, hpc⟩
  case call =>
    refine flow_issues h (call_some (begun_calls s c ▸ hc)) ?_
    rw [State.core_setCore]
    exact ⟨rfl, rfl, by rw [← hpc, ← begun_inStream, ← begun_calls]⟩
  case ret =>
    refine flow_issues h (ret_some ((begun_calls s c).trans hc)) ?_
    rw [State.core_setCore]
    exact ⟨rfl, rfl, rfl⟩
  case jump =>
    refine flow_issues h (jumpTo_some (hbights ▸ hp)) ?_
    rw [(endShots_goesOn ..).pc, (endShots_goesOn ..).bights, State.core_setCore, ← hbights]
    exact ⟨rfl, rfl⟩
  case holds =>
    obtain ⟨y, heq, hy, hstack⟩ := doJcond_holds (c := c) (hbights.symm ▸ hp) ((judged_jcondAt s c _ _ _).trans hcond)
    refine word_issues h ?_
    rw [heq, (endShots_goesOn ..).pc, (endShots_goesOn ..).bights, State.core_setCore, hy, hstack, hbights]
    exact ⟨rfl, rfl⟩
  case fails =>
    obtain ⟨p, heq⟩ := doJcond_fails (c := c) ((judged_jcondAt s c _ _ _).trans hcond)
    obtain ⟨ms, hcore⟩ := judged_core (State.begun s c) c (nextWord (s.readyFor c) c) (nextTim (s.readyFor c) c)
    refine word_issues h ?_
    rw [heq, State.core_setCore, hcore]
    exact ⟨hbights, begun_defer s c, hpc⟩
  case deferred =>
    obtain ⟨p, heq⟩ := doJcond_notPresent (c := c) ((judged_jcondAt s c _ _ _).trans hcond)
    obtain ⟨ms, hcore⟩ := judged_core (State.begun s c) c (nextWord (s.readyFor c) c) (nextTim (s.readyFor c) c)
    obtain ⟨ms', hdefer⟩ := defer_core (judged (State.begun s c) c (nextWord (s.readyFor c) c) (nextTim (s.readyFor c) c)) c
      (nextWord (s.readyFor c) c) (cutoff (nextTim (s.readyFor c) c).t)
    refine word_issues h ?_
    rw [heq, State.core_setCore, hdefer, hcore]
    refine ⟨hbights, ?_, hpc⟩
    have hshot := begun_shotStart s c
    have hor (x : Option Deferral) (d : Deferral) : x.or (some d) = some (x.getD d) := by cases x <;> rfl
    rw [← begun_defer s c, ← hshot]
    exact hor _ _

end Sys2Proof
end

section
/-! What playback words set up (R71, R90, R104, R105, R116, R117, R123, R145). -/

namespace Sys2Proof
open Sys2Proof.Machine

theorem freq_congr {s t : State} (h : t.regs = s.regs) (k i : Nat) : t.freq k i = s.freq k i := by
  simp only [State.freq, State.fld_congr h, reg_of h]

theorem env_congr {s t : State} (h : t.envTab = s.envTab) (k e : Nat) : t.env k e = s.env k e := by
  simp only [State.env, State.envEntry, h]

/-- SETFREQ loads the unit with the frequency of its index at its effect (R116, R117). -/
theorem doSetfreq_unit (s : State) (c w : Nat) (tm : Tim) :
    ((s.doSetfreq c w tm).punit (c / 8) (bits w 39 34)).fidx = bits w 9 0 ∧
    ((s.doSetfreq c w tm).punit (c / 8) (bits w 39 34)).ftw = s.freq (c / 8) (bits w 9 0) ∧
    ((s.doSetfreq c w tm).punit (c / 8) (bits w 39 34)).reloadAt = tm.eff := by
  unfold State.doSetfreq
  dsimp only
  rw [punit_of (State.notePhases_touches ..) rfl, State.punit_setPunit]
  exact ⟨rfl, rfl, rfl⟩

/-- A PLAY puts on its unit the segment of its envelope entry (R104, R105). -/
theorem doPlay_segment (s : State) (c : Nat) (chk : Bool) (w : Nat) (tm : Tim) :
    segIs (s.doPlay c chk w tm) (c / 8) (bits w 39 33) tm.eff
      (tm.eff + (s.env (c / 8) (bits w 32 21)).len * 2 ^ (s.env (c / 8) (bits w 32 21)).k) (bits w 32 21) (bits w 20 5) c := by
  unfold State.doPlay
  dsimp only
  have hlive (x : State) (e q t : Nat) (y : PlayChk) (g : Seg) : segIs
      (((x.placeSeg c (bits w 39 33) g e).playEvents c (bits w 39 33) q t y).goLive (c / 8) (unitOut (bits w 39 33)) t)
      (c / 8) (bits w 39 33) g.start g.stop g.env g.gain g.core :=
    .of (State.goLive_touches ..) rfl (.of (State.playEvents_touches ..) rfl (segIs.place ..))
  have hmark (p : Prop) [Decidable p] (x : State) (k u a b e g d t : Nat) (hx : segIs x k u a b e g d) :
      segIs (if p then x.invalid c t else x) k u a b e g d := .ite (.of (State.invalid_touches ..) rfl hx) hx
  have hcheck (p : Prop) [Decidable p] (x : State) (k u a b e g d v t : Nat) (hx : segIs x k u a b e g d) :
      segIs (if p then x.dpathCheck c v t else x) k u a b e g d := .ite (.of (State.dpathCheck_touches ..) rfl hx) hx
  have hbad (p : Prop) [Decidable p] (x : State) (k u a b e g d t : Nat) (m : SramId) (v : Nat) (hx : segIs x k u a b e g d) :
      segIs (if p then x.sramUe m v t else x) k u a b e g d := .ite (.of (State.sramUe_touches ..) rfl hx) hx
  exact hbad _ _ _ _ _ _ _ _ _ _ _ _ (hcheck _ _ _ _ _ _ _ _ _ _ _ (hmark _ _ _ _ _ _ _ _ _ _ (hlive ..)))

/-- A frame update of a word that has begun meets the updates on record in the state before (R90, R123). -/
theorem begun_frameOp (s : State) (c k f cyc core t n : Nat) (set : Bool) (w : Word) (v : Undo) (b : State)
    (hb : Touches [.flags, .counts, .flagAt, .recent, .ev, .queues, .cores, .mem] (State.begun s c) b) :
    ((((b.note c n v).frameOp k f cyc core set w).notePhases (c / 8) t).reg (.outFrame k f)) = frameAfter (s.readyFor c) k f cyc core set w := by
  have hnote := State.note_touches b c n v
  have hlog : (b.note c n v).frameLog = (s.readyFor c).frameLog :=
    (hnote.keeps .frameLog rfl).trans ((hb.keeps .frameLog rfl).trans ((begun_touches s c).keeps .frameLog rfl))
  have hregs : (b.note c n v).regs = (s.readyFor c).regs :=
    (hnote.keeps .regs rfl).trans ((hb.keeps .regs rfl).trans ((begun_touches s c).keeps .regs rfl))
  rw [reg_of ((State.notePhases_touches ..).keeps .regs rfl)]
  exact frameOp_reg _ k f cyc core set w _ hlog hregs

/-- A FRAMEADD whose condition holds updates its frame in a state that differs from that in which the word has begun only in what
the report of an unmapped slot does (R87, R213). -/
theorem doFrameadd_holds (s : State) (c : Nat)
    (h : (s.readyFor c).faddAt c (nextWord (s.readyFor c) c) ((s.readyFor c).core c).shotStart (cutoff (nextTim (s.readyFor c) c).t) = .holds) :
    ∃ b, Touches [.flags, .counts, .flagAt, .recent, .ev, .queues, .cores, .mem] (State.begun s c) b ∧
      (State.begun s c).doFrameadd c (nextWord (s.readyFor c) c) (nextTim (s.readyFor c) c) =
        (b.note c (nextTim (s.readyFor c) c).eff (.frame (c / 8) (bits (nextWord (s.readyFor c) c) 39 28) ((nextTim (s.readyFor c) c).eff / 8) (c % 8))).frameAdd c
          (nextWord (s.readyFor c) c) (nextTim (s.readyFor c) c).eff := by
  generalize nextWord (s.readyFor c) c = w at h ⊢
  generalize nextTim (s.readyFor c) c = tm at h ⊢
  have hb : Touches [.flags, .counts, .flagAt, .recent, .ev, .queues, .cores, .mem] (State.begun s c)
        (if bits w 13 12 = 0 then State.begun s c else (State.begun s c).reportUnmapped c (bits w 11 0) (cutoff tm.t)) ∧
      ((if bits w 13 12 = 0 then State.begun s c else (State.begun s c).reportUnmapped c (bits w 11 0) (cutoff tm.t)).core c).shotStart =
        ((State.begun s c).core c).shotStart := by
    split_ifs
    · exact ⟨.refl _ _, rfl⟩
    · obtain ⟨ms, hcore⟩ := reportUnmapped_core (State.begun s c) c (bits w 11 0) (cutoff tm.t)
      exact ⟨State.reportUnmapped_touches .., by rw [hcore]; rfl⟩
  unfold State.doFrameadd
  dsimp only
  generalize (if bits w 13 12 = 0 then State.begun s c else (State.begun s c).reportUnmapped c (bits w 11 0) (cutoff tm.t)) = b at hb ⊢
  obtain ⟨htouch, hshot⟩ := hb
  have hholds : b.faddAt c w (b.core c).shotStart (cutoff tm.t) = .holds := by
    rw [hshot, begun_shotStart, State.faddAt_congr (htouch.keeps .dec rfl) (htouch.keeps .regs rfl),
      State.faddAt_congr ((begun_touches s c).keeps .dec rfl) ((begun_touches s c).keeps .regs rfl), h]
  exact ⟨b, htouch, by rw [hholds]⟩

/-- Settles O24: each word's effect in the state in which it has begun, which has the registers and tables of the state before. -/
theorem playbackWords : Obligations.PlaybackWords := by
  unfold Obligations.PlaybackWords
  rintro s a c rfl
  refine ⟨fun h => ?setfreq, fun h => ?setphase, fun h hcond => ?frameadd, fun h => ?setstatic, fun chk h => ?play⟩
  case setfreq =>
    rw [← freq_congr ((begun_touches s c).keeps .regs rfl)]
    exact word_issues h (doSetfreq_unit ..)
  case setphase =>
    have hframe := begun_frameOp s c (c / 8) (bits (nextWord (s.readyFor c) c) 39 28) ((nextTim (s.readyFor c) c).eff / 8) (c % 8)
      (nextTim (s.readyFor c) c).eff (nextTim (s.readyFor c) c).eff true (BitVec.ofNat 32 (bits (nextWord (s.readyFor c) c) 27 0 * 16))
      (.frame (c / 8) (bits (nextWord (s.readyFor c) c) 39 28) ((nextTim (s.readyFor c) c).eff / 8) (c % 8)) _ (.refl _ _)
    exact word_issues h ⟨hframe, fun hcalm => hframe.trans (frameAfter_calm _ _ _ _ _ _ _ hcalm)⟩
  case frameadd =>
    obtain ⟨b, htouch, heq⟩ := doFrameadd_holds s c hcond
    have hframe := begun_frameOp s c (c / 8) (bits (nextWord (s.readyFor c) c) 39 28) ((nextTim (s.readyFor c) c).eff / 8) (c % 8)
      (nextTim (s.readyFor c) c).eff (nextTim (s.readyFor c) c).eff false (BitVec.ofNat 32 (bits (nextWord (s.readyFor c) c) 27 14 * 2 ^ 18))
      (.frame (c / 8) (bits (nextWord (s.readyFor c) c) 39 28) ((nextTim (s.readyFor c) c).eff / 8) (c % 8)) b htouch
    exact word_issues h (heq ▸ ⟨hframe, fun hcalm => hframe.trans (frameAfter_calm _ _ _ _ _ _ _ hcalm)⟩)
  case setstatic => exact word_issues h (setStatic_fld _ _ _ _ _ (bits_lt _ 35 20))
  case play =>
    rw [← env_congr ((begun_touches s c).keeps .envTab rfl)]
    obtain ⟨g, hseg⟩ := doPlay_segment (State.begun s c) c chk (nextWord (s.readyFor c) c) (nextTim (s.readyFor c) c)
    exact ⟨_, g, congrArg Host.Outcome.next (State.runWord_issues s c 0x04 _ h), hseg⟩

end Sys2Proof
end

section
/-! HALT, WAIT, TRIGWAIT, its timeout and the start of an armed core (R65, R71, R78, R82). -/

namespace Sys2Proof
open Sys2Proof.Machine

/-- A core that halts is DONE with its code and holds nothing more (R71, R78). -/
theorem haltCore_core (s : State) (c t code : Nat) :
    ((s.haltCore c t code).core c).st = .done ∧ ((s.haltCore c t code).core c).haltCode = code ∧ ((s.haltCore c t code).core c).stopAt = some t ∧
    ((s.haltCore c t code).core c).bights = [] ∧ ((s.haltCore c t code).core c).calls = [] ∧ ((s.haltCore c t code).core c).trigQ = [] := by
  unfold State.haltCore
  dsimp only
  rw [State.core_setCore]
  exact ⟨rfl, rfl, rfl, rfl, rfl, rfl⟩

theorem begun_trigQ (s : State) (c : Nat) : ((State.begun s c).core c).trigQ = ((s.readyFor c).core c).trigQ := by
  obtain ⟨ms, hcore⟩ := begun_core s c
  rw [hcore]
  rfl

theorem begun_tPrev (s : State) (c : Nat) : ((State.begun s c).core c).tPrev = (nextTim (s.readyFor c) c).t := by
  obtain ⟨ms, hcore⟩ := begun_core s c
  rw [hcore]
  rfl

/-- A TRIGWAIT with an empty queue waits (R82). -/
theorem doTrigwait_waits {s : State} {c w : Nat} {tm : Tim} (h : (s.core c).trigQ = []) :
    ((s.doTrigwait c w tm).core c).st = .waiting ∧ ((s.doTrigwait c w tm).core c).wait = some (.trig tm.t (bits w 39 16) (bit w 15)) := by
  unfold State.doTrigwait
  simp only [h, List.filter_nil, ite_self, State.core_setCore, and_self]

/-- A TRIGWAIT that takes entries of any time pops the oldest (R82). -/
theorem doTrigwait_pops {s : State} {c w e : Nat} {q : List Nat} {tm : Tim} (hw : bit w 15 = false) (h : (s.core c).trigQ = e :: q) :
    s.doTrigwait c w tm = s.setCore c (Core.popTrig { s.core c with trigQ := q } tm.t e) := by
  unfold State.doTrigwait
  simp only [hw, h, Bool.false_eq_true, if_false]

/-- A timeout with the core still waiting goes on at T plus 64 times TIMEOUT (R82). -/
theorem trigTimeout_runs {s b : State} {c t tmo : Nat} {old : Bool} (hw : (s.core c).wait = some (.trig t tmo old)) (ht : tmo ≠ 0)
    (hb : b = (s.settle (fun _ => { own := some c, at' := t + 64 * tmo, other := t + 64 * tmo }) s.dueFuel).settleOuts (t + 64 * tmo))
    (hst : (b.core c).st = .waiting) (hm : b.mode.mode = .run) :
    ((s.trigTimeout c).core c).st = .running ∧ ((s.trigTimeout c).core c).wait = none ∧ ((s.trigTimeout c).core c).tRef = some (t + 64 * tmo) ∧
      ((s.trigTimeout c).core c).ePrev = t + 64 * tmo ∧ (s.trigTimeout c).now = (b.clockTo (t + 64 * tmo)).now := by
  unfold State.trigTimeout
  simp only [hw, ← hb, ht, hst, hm, ne_eq, not_true_eq_false, or_self, if_false]
  generalize hx : State.setCore (b.clockTo (t + 64 * tmo)) c _ = x
  obtain ⟨ms, hcore⟩ := State.core_invalid (x.raise .trigTimeout c c (t + 64 * tmo) []) c (t + 64 * tmo) c
  rw [hcore, raise_core, now_of (State.invalid_touches ..) rfl, now_of (State.raise_touches ..) rfl, ← hx, State.core_setCore]
  exact ⟨rfl, rfl, rfl, rfl, rfl⟩

/-- An armed core starts at its start time, or at the first boundary where it has none (R65). -/
theorem coreStart_runs {s : State} {c n : Nat} (hst : (s.core c).st = .armed) (hbad : (s.core c).streamBad = false) (hm : s.mode.mode = .run)
    (hn : n = if (s.core c).start = 0 then s.startBound c else (s.core c).start) (hmay : s.mayIssue n = true) :
    ((s.coreStart c).core c).st = .running ∧ ((s.coreStart c).core c).tPrev = n ∧ ((s.coreStart c).core c).ePrev = n ∧
      ((s.coreStart c).core c).bound0 = (if n < s.startBound c then s.startBound c else 0) ∧ (s.coreStart c).now = (s.toTime n).now := by
  unfold State.coreStart
  simp only [hst, hm, ← hn, hmay, hbad, ne_eq, not_true_eq_false, or_self, Bool.true_eq_false, Bool.false_eq_true, if_false, State.core_setCore, Core.openShot]
  exact ⟨trivial, trivial, trivial, trivial, rfl⟩

/-- Settles O23: each word's and each event's own core. -/
theorem coreWaitsAndStart : Obligations.CoreWaitsAndStart := by
  unfold Obligations.CoreWaitsAndStart
  rintro s a c rfl
  refine ⟨fun h => word_issues h (haltCore_core ..), fun h => ?wait, fun h hq => ?waits, fun e q h hw hq => ?pops,
    fun t tmo old b hw ht hb hst hm => ⟨_, rfl, trigTimeout_runs hw ht hb hst hm⟩, fun hst hbad hm h0 hmay => ?bound, fun hst hbad hm h0 hmay => ?start⟩
  case wait =>
    refine word_issues h ?_
    rw [State.doWait, State.core_setCore]
    exact ⟨begun_st h, begun_tPrev s c, rfl, begun_pc s c⟩
  case waits => exact word_issues h (doTrigwait_waits ((begun_trigQ s c).trans hq))
  case pops =>
    refine word_issues h ?_
    rw [doTrigwait_pops hw ((begun_trigQ s c).trans hq), State.core_setCore]
    exact ⟨rfl, rfl, rfl, rfl, rfl⟩
  case bound =>
    obtain ⟨hrun, hprev, heff, hlate, hnow⟩ := coreStart_runs hst hbad hm (if_pos h0).symm hmay
    exact ⟨_, rfl, hrun, hprev, heff, hlate.trans (if_neg (lt_irrefl _)), hnow⟩
  case start => exact ⟨_, rfl, coreStart_runs hst hbad hm (if_neg h0).symm hmay⟩

end Sys2Proof
end

section
/-! SYNCSTRAND (R98). -/

namespace Sys2Proof
open Sys2Proof.Machine

/-- A core of a barrier that has been released at tick r. -/
def Released (r : Nat) (x : Core) : Prop := x.st = .running ∧ x.wait = none ∧ x.tPrev = r ∧ x.ePrev = r

/-- A barrier with a core that has not arrived changes nothing. -/
theorem tryBarrier_waits {s : State} {c m d : Nat} (hd : d ∈ maskCores c m) (h : (s.core d).syncMask = none) : s.tryBarrier c m = s := by
  unfold State.tryBarrier
  dsimp only
  rw [if_pos]
  exact List.any_eq_true.mpr ⟨(d, (s.core d).syncMask), List.mem_map.mpr ⟨d, hd, rfl⟩, by rw [h]; rfl⟩

theorem maskCores_nodup (c m : Nat) : (maskCores c m).Nodup :=
  (List.nodup_range.filter _).map fun _ _ h => by simpa using h

/-- A barrier whose cores all wait with its mask releases them at the latest issue time, rounded up to a fabric cycle. -/
theorem tryBarrier_releases {s : State} {c m : Nat} {td : Nat → Nat} (h : ∀ e ∈ maskCores c m, (s.core e).syncMask = some (td e, m)) :
    ∀ e ∈ maskCores c m, Released (up8 (maxOf 0 ((maskCores c m).map td))) ((s.tryBarrier c m).core e) := by
  have harrived : (maskCores c m).map (fun d => (d, (s.core d).syncMask)) = (maskCores c m).map (fun d => (d, some (td d, m))) :=
    List.map_congr_left fun d hd => by rw [h d hd]
  have hall : ((maskCores c m).map (fun d => (d, some (td d, m)))).filterMap (fun p => p.2.map (fun q => (p.1, q))) =
      (maskCores c m).map (fun d => (d, td d, m)) := by
    rw [List.filterMap_map]
    exact congrFun (List.filterMap_eq_map' (f := fun d => (d, td d, m))) _
  unfold State.tryBarrier
  dsimp only
  rw [harrived, hall, if_neg (by simp), if_pos (by simp), List.map_map, List.foldl_map]
  exact fold_set _ _ (maskCores_nodup c m) _ _ fun a e => ⟨rfl, rfl, rfl, rfl⟩

/-- The state in which a core waits at the barrier of its word. -/
def atBarrier (s : State) (c w : Nat) (tm : Tim) : State :=
  s.setCore c { s.core c with st := .waiting, wait := some (.sync tm.t (bits w 39 32)) }

theorem atBarrier_core (s : State) (c w : Nat) (tm : Tim) :
    (atBarrier s c w tm).core c = { s.core c with st := .waiting, wait := some (.sync tm.t (bits w 39 32)) } := State.core_setCore ..

/-- The masks at which cores of the strand of core c wait. -/
def waitingMasks (s : State) (c : Nat) : List Nat := (List.range 8).filterMap (fun i => (s.core (8 * (c / 8) + i)).syncMask.map (·.2))

theorem doSync_eq (s : State) (c w : Nat) (tm : Tim) :
    s.doSync c w tm = (waitingMasks (atBarrier s c w tm) c).foldl (fun a m => a.tryBarrier c m) (atBarrier s c w tm) := rfl

theorem mem_waitingMasks {s : State} {c x : Nat} (h : x ∈ waitingMasks s c) : ∃ e, e / 8 = c / 8 ∧ ∃ t, (s.core e).syncMask = some (t, x) := by
  obtain ⟨i, hi, hx⟩ := List.mem_filterMap.mp h
  obtain ⟨p, hp, rfl⟩ := Option.map_eq_some_iff.mp hx
  have hi8 := List.mem_range.mp hi
  exact ⟨8 * (c / 8) + i, by omega, p.1, hp⟩

theorem waitingMasks_own {s : State} {c t x : Nat} (h : (s.core c).syncMask = some (t, x)) : x ∈ waitingMasks s c :=
  List.mem_filterMap.mpr ⟨c % 8, List.mem_range.mpr (Nat.mod_lt _ (by decide)), by rw [Nat.div_add_mod, h]; rfl⟩

/-- A core that reaches its barrier last releases every core of the mask, and one that does not changes only itself. -/
theorem fold_tryBarrier {s : State} {c m r : Nat} (hr : ∀ e ∈ maskCores c m, Released r ((s.tryBarrier c m).core e)) {l : List Nat}
    (hl : ∀ x ∈ l, x = m) (hne : m ∈ l) : ∀ e ∈ maskCores c m, Released r ((l.foldl (fun a x => a.tryBarrier c x) s).core e) := by
  intro e he
  obtain ⟨x, xs, rfl⟩ := List.exists_cons_of_ne_nil (List.ne_nil_of_mem hne)
  obtain rfl := hl x (by simp)
  have hdone : (xs.foldl (fun a y => a.tryBarrier c y) (s.tryBarrier c x)) = s.tryBarrier c x := by
    refine fold_same _ _ _ fun y hy => ?_
    obtain rfl := hl y (by simp [hy])
    obtain ⟨-, hwait, -⟩ := hr e he
    exact tryBarrier_waits he (by rw [Core.syncMask, hwait])
  rw [List.foldl_cons, hdone]
  exact hr e he

theorem begun_syncMask {s : State} {c e : Nat} (h : e ≠ c) (w : Nat) (tm : Tim) :
    ((atBarrier (State.begun s c) c w tm).core e).syncMask = ((s.readyFor c).core e).syncMask := by
  rw [atBarrier, State.core_setCore_ne _ _ _ _ h]
  exact begin_sync _ _ _ _ _ _ h

/-- Settles O27: the barriers of the strand's masks, tried in the state in which the core waits. -/
theorem strandBarrier : Obligations.StrandBarrier := by
  unfold Obligations.StrandBarrier
  rintro s a c rfl h
  generalize hb : atBarrier (State.begun s c) c (nextWord (s.readyFor c) c) (nextTim (s.readyFor c) c) = b
  have hown : b.core c = _ := hb ▸ atBarrier_core ..
  have hmask : (b.core c).syncMask = some ((nextTim (s.readyFor c) c).t, bits (nextWord (s.readyFor c) c) 39 32) := by rw [hown]; rfl
  have hother (e : Nat) (he : e ≠ c) : (b.core e).syncMask = ((s.readyFor c).core e).syncMask := hb ▸ begun_syncMask he _ _
  constructor
  · rintro hnone ⟨d, hd, hdc⟩
    refine word_issues h ?_
    rw [doSync_eq, hb, fold_same]
    · rw [hown]
      exact ⟨rfl, rfl⟩
    · intro x hx
      obtain ⟨e, he, t, hwait⟩ := mem_waitingMasks hx
      by_cases hec : e = c
      · obtain rfl : x = bits (nextWord (s.readyFor c) c) 39 32 := by
          rw [hec, hmask] at hwait
          exact (Prod.mk.inj (Option.some.inj hwait)).2.symm
        exact tryBarrier_waits hd ((hother d hdc).trans (hnone d ((mem_mask _ _ _).mp hd).1 hdc))
      · rw [hother e hec, hnone e he hec] at hwait
        cases hwait
  · intro td htd hall
    refine word_issues h ?_
    rw [doSync_eq, hb]
    refine fold_tryBarrier (tryBarrier_releases (td := td) fun e he => ?_) (fun x hx => ?_) (waitingMasks_own hmask)
    · by_cases hec : e = c
      · rw [hec, hmask, htd]
      · rw [hother e hec, hall e ((mem_mask _ _ _).mp he).1 hec, if_pos he]
    · obtain ⟨e, he, t, hwait⟩ := mem_waitingMasks hx
      by_cases hec : e = c
      · rw [hec, hmask] at hwait
        exact (Prod.mk.inj (Option.some.inj hwait)).2.symm
      · rw [hother e hec, hall e he hec] at hwait
        split_ifs at hwait
        exact (Prod.mk.inj (Option.some.inj hwait)).2.symm

end Sys2Proof
end

section
/-! ARM, HALT and SWTRIG writes, stops at a word boundary, trigger entries and underruns (R65, R74, R80, R82, R93, R95, R434). -/

namespace Sys2Proof
open Sys2Proof.Machine

/-- Writing a register's fields leaves every core alone. -/
theorem writeFields_core (s : State) (r : RegId) (w : Word) (c : Nat) : (s.writeFields r w).core c = s.core c :=
  core_of (State.writeFields_touches ..) rfl c

theorem getF_setF_bit_ne (w : Word) (i j v : Nat) (hi : i < 32) (h : j < i ∨ i < j) : getF (setF w i i v) j j = getF w j j :=
  getF_setF_ne w i i v j j hi le_rfl ⟨le_rfl, h⟩

theorem getF_setF_bit (w : Word) (i : Nat) (hi : i < 32) : getF (setF w i i 1) i i = 1 :=
  getF_setF_lt w i i 1 hi le_rfl (by simp)

/-- A write of SEQ_CTL with ARM alone (R65). -/
theorem wrSeqCtl_arm (s : State) (c : Nat) {w : Word} (h1 : getF w 1 1 = 0) (h2 : getF w 2 2 = 0) :
    s.wrSeqCtl c (setF w 0 0 1) = (s.writeFields (.seqCtl c) (setF w 0 0 1)).armWrite c := by
  have harm := getF_setF_bit w 0 (by decide)
  have hhalt : getF (setF w 0 0 1) 1 1 ≠ 1 := by rw [getF_setF_bit_ne _ _ _ _ (by decide) (by decide), h1]; decide
  have htrig : getF (setF w 0 0 1) 2 2 ≠ 1 := by rw [getF_setF_bit_ne _ _ _ _ (by decide) (by decide), h2]; decide
  unfold State.wrSeqCtl
  simp only [harm, if_true, hhalt, htrig, if_false]

/-- A write of SEQ_CTL with HALT alone (R434). -/
theorem wrSeqCtl_halt (s : State) (c : Nat) {w : Word} (h0 : getF w 0 0 = 0) (h2 : getF w 2 2 = 0) :
    s.wrSeqCtl c (setF w 1 1 1) = (s.writeFields (.seqCtl c) (setF w 1 1 1)).haltWrite c := by
  have hhalt := getF_setF_bit w 1 (by decide)
  have harm : getF (setF w 1 1 1) 0 0 ≠ 1 := by rw [getF_setF_bit_ne _ _ _ _ (by decide) (by decide), h0]; decide
  have htrig : getF (setF w 1 1 1) 2 2 ≠ 1 := by rw [getF_setF_bit_ne _ _ _ _ (by decide) (by decide), h2]; decide
  unfold State.wrSeqCtl
  simp only [hhalt, if_true, harm, htrig, if_false]

/-- A write of SEQ_CTL with SWTRIG alone sends an entry of input 32 (R80). -/
theorem wrSeqCtl_swtrig (s : State) (c : Nat) {w : Word} (h0 : getF w 0 0 = 0) (h1 : getF w 1 1 = 0) :
    s.wrSeqCtl c (setF w 2 2 1) = (s.writeFields (.seqCtl c) (setF w 2 2 1)).pushTrig c 32 (next8 s.now) := by
  have htrig := getF_setF_bit w 2 (by decide)
  have harm : getF (setF w 2 2 1) 0 0 ≠ 1 := by rw [getF_setF_bit_ne _ _ _ _ (by decide) (by decide), h0]; decide
  have hhalt : getF (setF w 2 2 1) 1 1 ≠ 1 := by rw [getF_setF_bit_ne _ _ _ _ (by decide) (by decide), h1]; decide
  unfold State.wrSeqCtl
  simp only [htrig, if_true, harm, hhalt, if_false]

/-- No calibration step runs on the strand of core c. -/
def noStep (s : State) (c : Nat) : Prop := s.convs.all (fun e => e.2.step.isNone || convStrand e.1 != c / 8) = true

theorem not_inStepOf {s : State} {c : Nat} (h : noStep s c) : s.inStepOf c = false := by
  unfold State.inStepOf
  rw [List.any_eq_false]
  intro e he
  have hstep := List.all_eq_true.mp h e he
  cases hs : e.2.step with
  | none => simp
  | some x => simp_all

/-- What ARM reads of the core's registers is not of SEQ_CTL (R65). -/
theorem writeFields_seqCtl_start (s : State) (c : Nat) (w : Word) : (s.writeFields (.seqCtl c) w).fld (.seqStart c) 16 0 = s.fld (.seqStart c) 16 0 ∧
    (s.writeFields (.seqCtl c) w).reg64 (.seqStartTimeLo c) (.seqStartTimeHi c) = s.reg64 (.seqStartTimeLo c) (.seqStartTimeHi c) := by
  have hne (r : RegId) (h1 : r.off ≠ (RegId.seqCtl c).off) (h2 : r.off ≠ (RegId.seqTrigMask c).off) := seqCtl_regs s c w r h1 h2
  constructor
  · rw [State.fld, hne _ (by simp [RegId.off]) (by simp [RegId.off])]
    rfl
  · rw [State.reg64, hne _ (by simp [RegId.off]) (by simp [RegId.off]), hne _ (by simp [RegId.off]) (by simp [RegId.off])]
    rfl

/-- ARM of a core that neither runs nor is held (R65). -/
theorem wrSeqCtl_arms {s : State} {c : Nat} {w : Word} (h1 : getF w 1 1 = 0) (h2 : getF w 2 2 = 0) (hact : (s.core c).active = false)
    (hheld : (s.core c).st ≠ .held) (hstep : noStep s c) : ∃ x : Core, (s.wrSeqCtl c (setF w 0 0 1)).core c = x ∧ x.st = .armed ∧
      x.pc = s.fld (.seqStart c) 16 0 ∧ x.start = s.reg64 (.seqStartTimeLo c) (.seqStartTimeHi c) ∧ x.armAt = s.now ∧ x.bights = [] ∧
      x.calls = [] ∧ x.trigQ = [] := by
  have htouch := State.writeFields_touches s (.seqCtl c) (setF w 0 0 1)
  have hno : noStep (s.writeFields (.seqCtl c) (setF w 0 0 1)) c := by rw [noStep, htouch.keeps .convs rfl]; exact hstep
  obtain ⟨hpc, hstart⟩ := writeFields_seqCtl_start s c (setF w 0 0 1)
  rw [wrSeqCtl_arm s c h1 h2, State.armWrite, not_inStepOf hno, if_neg Bool.false_ne_true, ← hpc, ← hstart, ← now_of htouch rfl]
  exact arm_core _ c (by rw [writeFields_core, hact]) (by rw [writeFields_core]; exact hheld)

/-- HALT stops a core that is armed, waits or is held at once (R434). -/
theorem haltWrite_stops {s : State} {c : Nat} (h : (s.core c).st = .waiting ∨ (s.core c).st = .held ∨ (s.core c).st = .armed) :
    ((s.haltWrite c).core c).st = .done ∧ ((s.haltWrite c).core c).haltCode = 0xFFFF ∧ ((s.haltWrite c).core c).stopAt = some (up8 s.now) := by
  obtain ⟨hst, hcode, hstop, -⟩ := haltCore_core s c (up8 s.now) 0xFFFF
  unfold State.haltWrite
  rcases h with h | h | h
  · simp only [h]
    exact ⟨hst, hcode, hstop⟩
  · simp only [h]
    exact ⟨hst, hcode, hstop⟩
  · simp only [h, State.core_setCore, Core.stopped, and_self]

/-- HALT of a running core marks its next word boundary (R434). -/
theorem haltWrite_marks {s : State} {c : Nat} (h : (s.core c).st = .running) (hat : (s.core c).haltAt = none) :
    ((s.haltWrite c).core c).st = .running ∧ ((s.haltWrite c).core c).haltAt = some (s.boundary c s.now, false) := by
  unfold State.haltWrite
  simp only [h, State.core_setCore, Core.stopAtBoundary, hat, and_self]

theorem quietFault_st (s : State) (c t : Nat) : ((s.quietFault c t).core c).st = .fault := by
  rw [State.quietFault, faultEffects_st, if_pos rfl]

/-- An entry that reaches the queue of a core that does not wait for it (R80, R82). -/
theorem trigArrives_queues {s : State} {c stamp i : Nat} {r : List (Nat × Nat)} (h : (s.core c).trigIn = (stamp, i) :: r)
    (hact : (s.core c).active = true) (hm : s.mode.mode = .run) (hw : (s.core c).wait = none) :
    s.trigArrives c = if 4 ≤ (s.core c).trigQ.length
      then ((s.setCore c { s.core c with trigIn := r }).bump (.seqTrigLost c) 1).raise .trigLost c c (up8 (trigAt stamp)) (wd64 stamp)
      else (s.setCore c { s.core c with trigIn := r }).setCore c { s.core c with trigIn := r, trigQ := (s.core c).trigQ ++ [stamp] } := by
  unfold State.trigArrives
  simp only [h, hact, hm, hw, beq_self_eq_true, Bool.and_self, Bool.not_true, Bool.false_eq_true, if_false, State.core_setCore]

theorem trigArrives_wakes {s : State} {c stamp i t0 tmo : Nat} {r : List (Nat × Nat)} (h : (s.core c).trigIn = (stamp, i) :: r)
    (hact : (s.core c).active = true) (hm : s.mode.mode = .run) (hw : (s.core c).wait = some (.trig t0 tmo false))
    (ht : tmo = 0 ∨ trigAt stamp ≤ t0 + 64 * tmo) :
    ((s.trigArrives c).core c).st = .running ∧ ((s.trigArrives c).core c).tRef = some (max stamp t0) := by
  have hin : ¬(tmo ≠ 0 ∧ t0 + 64 * tmo < trigAt stamp) := by omega
  unfold State.trigArrives
  simp only [h, hact, hm, hw, beq_self_eq_true, Bool.and_self, Bool.not_true, Bool.false_eq_true, if_false, hin, Bool.false_and, State.core_setCore]
  exact ⟨rfl, rfl⟩

theorem trigArrives_discards {s : State} {c stamp i : Nat} {r : List (Nat × Nat)} (h : (s.core c).trigIn = (stamp, i) :: r)
    (hoff : (s.core c).active = false ∨ s.mode.mode ≠ .run) : (s.trigArrives c).core c = { s.core c with trigIn := r } := by
  have hidle : (!((s.core c).active && s.mode.mode == .run)) = true := by
    rcases hoff with hact | hm
    · simp [hact]
    · simp [hm]
  unfold State.trigArrives
  simp only [h, hidle, if_true, State.core_setCore]

theorem underrunCore_faults {s : State} {c : Nat} (hst : ((s.readyFor c).core c).st = .running) (hin : ((s.readyFor c).core c).inStream = true)
    (hno : ((s.readyFor c).fetch c).1 = .absent) (hmay : (s.readyFor c).coreMay c ((s.readyFor c).core c).busy = true) :
    ((s.underrunCore c).core c).st = .fault := by
  unfold State.underrunCore
  dsimp only
  rw [if_neg (by simp [hst, hin, hno, hmay])]
  exact coreFault_st ..

/-- A streamed segment that reads an empty queue gets nothing from it (R95). -/
theorem settleStream_empty {s : State} {k u t : Nat} {g : Seg} (hseg : (s.punit k u).seg = some g) (hq : (s.queue g.addr).pkts = [])
    (hgot : g.got.length < g.len) : ((s.settleStream k u t).punit k u).seg = some g ∧ (s.settleStream k u t).queue g.addr = s.queue g.addr := by
  have htake (p t n : Nat) : takeStream s p g t n g.got (s.queue g.addr).pkts = (g.got, (s.queue g.addr).pkts) := by
    cases n with
    | zero => rfl
    | succ n => simp [takeStream, streamRead, hq]
  have hopen : ¬g.len ≤ g.got.length := by omega
  unfold State.settleStream
  simp only [hseg, htake, hopen, if_false]
  split_ifs
  · exact ⟨hseg, rfl⟩
  · exact ⟨congrArg PUnit.seg (State.punit_setPunit ..), (queue_set ..).trans (if_pos rfl)⟩

/-- A segment whose next sample is not there holds from that sample's tick (R93). -/
theorem underrunStream_holds {s b : State} {k : Fin 32} {v : Fin 80} {g : Seg} {n : Nat} (hn : n = g.start + g.got.length * 2 ^ g.k)
    (hseg : (s.punit k v).seg = some g) (hsrc : g.src = 2) (hzero : g.zero = false) (hramp : g.ramp = none) (hheld : g.held = none)
    (hgot : g.got.length < g.len) (hstop : n < g.stop) (hbound : (s.queue g.addr).bound = some (.unit k v))
    (hq : (s.queue g.addr).pkts = []) (hb : b = s.toTime (n - 384)) (hbseg : (b.punit k v).seg = some g) (hbq : b.queue g.addr = s.queue g.addr) :
    ∃ h, ((s.underrunStream k v).punit k v).seg = some h ∧ h.held = some n := by
  obtain ⟨hnow, -⟩ := settleStream_empty (t := 2 ^ 64) hseg hq hgot
  obtain ⟨hlate, hqueue⟩ := settleStream_empty (t := 2 ^ 64) hbseg (hbq ▸ hq) hgot
  unfold State.underrunStream
  simp only [hnow, ← hn, ← hb]
  generalize b.settleStream k v (2 ^ 64) = x at hlate hqueue ⊢
  have hreader : (Fin.ofNat 32 (k : Nat), Fin.ofNat 80 (v : Nat)) = (k, v) := by simp
  obtain ⟨hk, hv⟩ := Prod.mk.inj hreader
  rw [if_neg (by simp [hlate]), if_neg]
  · have hunder : (x.underSeg k v g n).held = some n := by
      unfold State.underSeg
      split_ifs <;> rfl
    refine ⟨x.underSeg k v g n, ?_, hunder⟩
    rw [punit_of (State.underrunAt_touches ..) rfl, punit_of (State.abandon_touches ..) rfl, punit_of (State.streamUe_touches ..) rfl]
    split_ifs
    · rw [punit_of (State.raise_touches ..) rfl, punit_of (State.qUnder_touches ..) rfl]
      exact congrArg PUnit.seg (State.punit_setPunit ..)
    · rw [punit_of (State.qUnder_touches ..) rfl]
      exact congrArg PUnit.seg (State.punit_setPunit ..)
  · rw [hqueue, hbq, hbound, hk, hv, hsrc, hzero, hramp, hheld]
    simp
    omega

/-- Settles O26: the writes with one bit set, the stops, the arrival of an entry, and the two underruns. -/
theorem coreControlWrites : Obligations.CoreControlWrites := by
  unfold Obligations.CoreControlWrites
  rintro s a t c w rfl
  refine ⟨fun hup hpresent htakes => ?writes, fun b => ?stops, fun stamp i r h => ?arrives, fun b hb hst hin hno hmay => ?core,
    fun k v g b hseg hsrc hzero hramp hheld hgot hstop hbound hq hb hbseg hbq => ?unit⟩
  case writes =>
    have hwrite (x : Word) : s.strandWrite t (c / 8) (.seqCtl c) x (fun a x => a.wrSeqCtl c x) = (s.upTo t).wrSeqCtl c x :=
      State.strandWrite_takes s t _ _ x _ (by simpa using hup) (by simpa using hpresent) htakes
    refine ⟨fun h1 h2 hact hheld hstep => ?arm, fun h0 h2 h => ?halt, fun h0 h2 hst hat => ?mark, fun h0 h1 => ?swtrig⟩
    case arm =>
      obtain ⟨x, hx, hrest⟩ := wrSeqCtl_arms h1 h2 hact hheld hstep
      exact ⟨_, congrArg Host.Outcome.next (hwrite _), hx ▸ hrest⟩
    case halt =>
      refine ⟨_, congrArg Host.Outcome.next (hwrite _), ?_⟩
      rw [wrSeqCtl_halt _ c h0 h2, ← now_of (State.writeFields_touches (s.upTo t) (.seqCtl c) (setF w 1 1 1)) rfl]
      exact haltWrite_stops (by rwa [writeFields_core])
    case mark =>
      refine ⟨_, congrArg Host.Outcome.next (hwrite _), ?_⟩
      rw [wrSeqCtl_halt _ c h0 h2, ← now_of (State.writeFields_touches (s.upTo t) (.seqCtl c) (setF w 1 1 1)) rfl]
      exact haltWrite_marks (by rwa [writeFields_core]) (by rwa [writeFields_core])
    case swtrig =>
      refine ⟨_, congrArg Host.Outcome.next (hwrite _), ?_⟩
      rw [wrSeqCtl_swtrig _ c h0 h1, State.pushTrig, State.core_setCore, writeFields_core]
      exact ⟨rfl, rfl⟩
  case stops =>
    obtain ⟨hst, hcode, -⟩ := haltCore_core s c b 0xFFFF
    exact ⟨hst, hcode, quietFault_st ..⟩
  case arrives =>
    refine ⟨fun hact hm hw hroom => ?room, fun hact hm hw hfull => ?full, fun t0 tmo hact hm hw ht => trigArrives_wakes h hact hm hw ht,
      trigArrives_discards h⟩
    case room =>
      rw [trigArrives_queues h hact hm hw, if_neg (by omega), State.core_setCore]
      exact ⟨rfl, rfl⟩
    case full =>
      rw [trigArrives_queues h hact hm hw, if_pos hfull, raise_core, core_of (State.bump_touches ..) rfl, State.core_setCore]
      refine ⟨rfl, ?_⟩
      have hcore := c.isLt
      have hlow : RegId.off (.seqTrigLost c) < 0x1000000 := by simp only [RegId.off, coreBase, strandBase]; omega
      have hdrop : RegId.off (.seqTrigLost c) ≠ RegId.off .qmEvDrop := by simp only [RegId.off, coreBase, strandBase]; omega
      rw [(quiet_raise ..).count _ hlow hdrop, count_bump]
      rfl
  case core =>
    subst hb
    exact ⟨_, rfl, underrunCore_faults hst hin hno hmay⟩
  case unit =>
    obtain ⟨x, hx, hat⟩ := underrunStream_holds rfl hseg hsrc hzero hramp hheld hgot hstop hbound hq hb hbseg hbq
    have hunit : s.underrunUnit k v = s.underrunStream k v := by
      unfold State.underrunUnit
      rw [hseg]
      exact if_pos hsrc
    exact ⟨_, x, congrArg Host.Outcome.next hunit, hx, hat⟩

end Sys2Proof
end

section
/-! Writes of a strand's output, frame, zone, range and input registers (R62, R114, R128, R135, R145, R147, R152, R160). -/

namespace Sys2Proof
open Sys2Proof.Machine

theorem inp_of {l : List Part} {s t : State} (h : Touches l s t) (hl : l.contains .inps = false) (k i : Nat) : t.inp k i = s.inp k i := by
  have hinps := h.keeps .inps hl
  simp only [Part.same] at hinps
  simp [State.inp, hinps]

theorem staticArrives_level (s : State) (k c lvl n : Nat) (h : lvl < 65536) : (s.staticArrives k c lvl n).fld (.outStatic k c) 15 0 = lvl := by
  have hout (x : State) (y : Out) : (x.setOut k (6 + c) y).fld (.outStatic k c) 15 0 = x.fld (.outStatic k c) 15 0 := rfl
  unfold State.staticArrives
  rw [hout]
  exact setStatic_fld _ k c lvl n h

/-- Outside RUN a static level is set at once (R145). -/
theorem wrStatic_sets {s : State} (k c : Nat) (w : Word) (hm : s.mode.mode ≠ .run) : (s.wrStatic k c w).fld (.outStatic k c) 15 0 = getF w 15 0 := by
  unfold State.wrStatic
  dsimp only
  rw [if_neg hm, State.fld_setFld _ _ _ _ _ (by decide) (by decide)]
  exact Nat.mod_eq_of_lt (getF_lt w 15 0)

/-- In RUN a static level is on its way to the connector for 512 ticks (R145). -/
theorem wrStatic_sends {s : State} (k c : Nat) (w : Word) (hm : s.mode.mode = .run) : (s.wrStatic k c w).regs = s.regs ∧
    ((s.wrStatic k c w).out k (6 + c)).statics = (s.out k (6 + c)).statics ++ [(up8 s.now + 512, getF w 15 0)] := by
  unfold State.wrStatic
  dsimp only
  rw [if_pos hm, State.out_setOut]
  exact ⟨rfl, rfl⟩

theorem copyCoef_get (s : State) (k c : Nat) {n : Nat} (hn : n < 84) :
    Tab.get ((s.copyCoef k c).out k (6 + c)).chain.coef n 0 = (s.copyCoef k c).reg (.outPdCoef k (128 * c + n)) := by
  have hreg : (s.copyCoef k c).reg (.outPdCoef k (128 * c + n)) = s.reg (.outPdCoef k (128 * c + n)) :=
    reg_of ((State.copyCoef_touches s k c).keeps .regs rfl) _
  rw [hreg, State.copyCoef]
  dsimp only
  rw [State.out_setOut]
  exact get_range_map _ 84 n hn

/-- A commit of the predistortion copies the coefficient registers, which a write of the control word leaves alone (R128). -/
theorem wrBbCtl_commits (s : State) (k c : Nat) (w : Word) {n : Nat} (hn : n < 84) :
    Tab.get ((s.wrBbCtl k c (setF w 17 17 1)).out k (6 + c)).chain.coef n 0 = s.reg (.outPdCoef k (128 * c + n)) := by
  have hkept := State.wrBbCtl_kept (writesOf (.outBbCtl k c)) s k c (setF w 17 17 1) (List.Subset.refl _)
  have hcoef : (s.wrBbCtl k c (setF w 17 17 1)).reg (.outPdCoef k (128 * c + n)) = s.reg (.outPdCoef k (128 * c + n)) := by
    refine hkept.keeps _ fun r hr => ?_
    simp [writesOf, profileSettings, RegId.profileOf, RegId.lowOf] at hr
    subst hr
    simp only [RegId.off]
    omega
  rw [← hcoef]
  unfold State.wrBbCtl
  dsimp only
  rw [if_pos (getF_setF_bit w 17 (by decide)), State.pdCommit]
  exact copyCoef_get _ k c hn

/-- With the cores of the strand idle the control word of an output is taken (R135). -/
theorem wrOutCtl_idle {s : State} {o : OutId} (w : Word) (h : strandIdle s (outLocal o).1 = true) :
    (s.wrOutCtl o w).reg (ctlReg o) = (s.writeFields (ctlReg o) w).reg (ctlReg o) := by
  cases o with
  | rf k n =>
    have hidle := idle_any h rfl (outUnits n)
    show (s.wrRfCtl k n w).reg (.outRfCtl k n) = _
    unfold State.wrRfCtl
    simp only [show s.anyActive k (outUnits n) = false from hidle, Bool.false_eq_true, if_false, ite_self]
    rfl
  | bb k n =>
    have hidle := idle_any h rfl [64 + n.val]
    have hchain (b : Nat) : ((s.settleChain k n b).writeFields (.outBbCtl k n) w).regs = (s.writeFields (.outBbCtl k n) w).regs :=
      writeFields_regs ((State.settleChain_touches ..).keeps .regs rfl) _ _
    show (s.wrBbCtl k n w).reg (.outBbCtl k n) = _
    unfold State.wrBbCtl
    simp only [show s.anyActive k [64 + n.val] = false from hidle, Bool.false_eq_true, if_false, ite_self]
    split_ifs
    · rw [reg_of ((State.pdCommit_touches ..).keeps .regs rfl)]
      exact reg_of (hchain _) _
    · exact reg_of (hchain _) _

/-- What a write of an output's register has set before its range and enable (R136). -/
def outSet (s : State) (k o : Nat) (w : Word) : State :=
  let s1 := (s.setReg (outReg k o) ((outReg k o).mergeX (s.reg (outReg k o)) w)).setFld (outReg k o) 3 2 (s.fld (outReg k o) 3 2)
  if o < 6 ∧ getF w 5 5 = 0 ∧ (s1.out k o).live then s1.setOut k o ((s1.out k o).unmute (up8 s1.now)) else s1

theorem outSet_range (s : State) (k o : Nat) (w : Word) : (outSet s k o w).fld (outReg k o) 3 2 = s.fld (outReg k o) 3 2 := by
  have hset : ((s.setReg (outReg k o) ((outReg k o).mergeX (s.reg (outReg k o)) w)).setFld (outReg k o) 3 2 (s.fld (outReg k o) 3 2)).fld (outReg k o) 3 2 =
      s.fld (outReg k o) 3 2 := by
    rw [State.fld_setFld _ _ _ _ _ (by decide) (by decide)]
    exact Nat.mod_eq_of_lt (getF_lt _ 3 2)
  unfold outSet
  dsimp only
  split_ifs
  · exact hset
  · exact hset

theorem outSet_cores (s : State) (k o : Nat) (w : Word) : (outSet s k o w).cores = s.cores := by
  unfold outSet
  dsimp only
  split_ifs <;> rfl

/-- Unmuting changes neither the range nor the compliance of an output. -/
theorem outSet_out (s : State) (k o : Nat) (w : Word) : ((outSet s k o w).out k o).ranging = (s.out k o).ranging ∧
    ((outSet s k o w).out k o).newRange = (s.out k o).newRange ∧ ((outSet s k o w).out k o).comply = (s.out k o).comply := by
  have hunmute (x : Out) (t : Nat) : (x.unmute t).ranging = x.ranging ∧ (x.unmute t).newRange = x.newRange ∧ (x.unmute t).comply = x.comply := by
    unfold Out.unmute
    split_ifs <;> exact ⟨rfl, rfl, rfl⟩
  unfold outSet
  dsimp only
  split_ifs
  · rw [State.out_setOut]
    exact hunmute ..
  · exact ⟨rfl, rfl, rfl⟩

theorem outEnable_same (s : State) (k o : Nat) (on : Bool) : s.outEnable k o on on = s := by cases on <;> rfl

theorem plainEnable_same (s : State) (k : Nat) (on : Bool) : s.plainEnable k on on = s := by cases on <;> rfl

/-- A write that leaves an output's ENABLE as it is acts on its range alone (R147). -/
theorem wrOut_steady {s : State} {k o : Nat} {w : Word} (b : Nat) (h : s.outEnabled k o = decide (getF w 0 0 = 1)) :
    s.wrOut k o w b = (outSet s k o w).wrRange k o (getF w 3 2) w b := by
  unfold State.wrOut
  dsimp only
  rw [← h, outEnable_same]
  rfl

theorem wrOut_ranges {s : State} {k o : Nat} {w : Word} (b : Nat) (hidle : strandIdle s k = true) (hon : s.outEnabled k o = decide (getF w 0 0 = 1))
    (hnew : getF w 3 2 ≠ s.fld (outReg k o) 3 2) (hother : (s.out k o).ranging = none ∨ getF w 3 2 ≠ (s.out k o).newRange) :
    ((s.wrOut k o w b).out k o).ranging = some b ∧ ((s.wrOut k o w b).out k o).newRange = getF w 3 2 := by
  obtain ⟨hranging, hrange, -⟩ := outSet_out s k o w
  rw [wrOut_steady b hon, State.wrRange]
  rw [if_neg, idle_any hidle (outSet_cores s k o w), if_neg Bool.false_ne_true, State.startRange]
  · dsimp only
    rw [State.out_setOut]
    exact ⟨rfl, rfl⟩
  · rw [outSet_range, hranging, hrange]
    rcases hother with h | h
    · simp [hnew, h]
    · simp [hnew, h]

theorem wrOut_comply {s : State} {k o : Nat} {w : Word} (b : Nat) (hon : s.outEnabled k o = decide (getF w 0 0 = 1))
    (hsame : getF w 3 2 = s.fld (outReg k o) 3 2) : ((s.wrOut k o w b).out k o).comply = (s.out k o).comply := by
  obtain ⟨-, -, hcomply⟩ := outSet_out s k o w
  rw [wrOut_steady b hon, State.wrRange]
  rw [if_pos (Or.inl (hsame.trans (outSet_range s k o w).symm)), State.out_setOut]
  exact hcomply

/-- A write that changes an input's band and leaves its ENABLE starts the settling of the band (R160). -/
theorem wrInCtl_settles {s : State} {k i : Nat} {w : Word} (b : Nat) (hidle : strandIdle s k = true) (hon : s.fld (.acqInCtl k i) 0 0 = getF w 0 0)
    (hband : getF ((s.writeFields (.acqInCtl k i) w).reg (.acqInCtl k i)) 2 1 ≠ s.fld (.acqInCtl k i) 2 1) :
    ((s.wrInCtl k i w b).inp k i).settle = some b ∧
      (s.wrInCtl k i w b).fld (.acqInCtl k i) 2 1 = getF ((s.writeFields (.acqInCtl k i) w).reg (.acqInCtl k i)) 2 1 := by
  have hwrite : s.wrInCtl k i w b = ((s.writeFields (.acqInCtl k i) w).unhold (.acqInCtl k i)).startSettle k i b := by
    unfold State.wrInCtl
    simp only [hon, hband, false_and, if_false, idle_any hidle rfl, Bool.false_eq_true, Bool.and_not_self, plainEnable_same]
  rw [hwrite]
  constructor
  · rw [State.startSettle]
    dsimp only
    rw [inp_of (State.dueIfOld_touches ..) rfl, State.inp_setInp]
  · rw [State.fld_congr ((State.startSettle_touches ..).keeps .regs rfl)]
    rfl

/-- Clearing COMPLY of a channel whose range and ENABLE stay (R150). -/
theorem complyClear_clears {s : State} {k c : Nat} {w : Word} (htakes : strandTakes s k) (hon : s.outEnabled k (6 + c) = decide (getF w 0 0 = 1))
    (hsame : getF w 3 2 = s.fld (.outBbOut k c) 3 2) :
    (((s.clearComply k c).toStrand k (.outBbOut k c) (setF w 9 9 0) (fun b x => b.wrOut k (6 + c) x (up8 b.now))).out k (6 + c)).comply = false := by
  have hbit : getF (setF w 9 9 0) 0 0 = getF w 0 0 := getF_setF_bit_ne _ _ _ _ (by decide) (by decide)
  have hrange : getF (setF w 9 9 0) 3 2 = getF w 3 2 := getF_setF_ne _ _ _ _ _ _ (by decide) (by decide) (by decide)
  rw [State.toStrand_takes _ _ _ _ _ (show strandTakes (s.clearComply k c) k from htakes), wrOut_comply, State.clearComply, State.out_setOut]
  · rw [hbit]
    exact hon
  · rw [hrange, outReg_bb]
    exact hsame

/-- Settles O28: each write of a strand that takes writes. -/
theorem strandRegisterWrites : Obligations.StrandRegisterWrites := by
  unfold Obligations.StrandRegisterWrites
  intro s a t w
  refine ⟨fun k c lvl n h => staticArrives_level s k c lvl n h, ?_⟩
  rintro rfl hup
  have hwrite (k : Nat) (r : RegId) (x : Word) (f : State → Word → State) (htakes : strandTakes (s.upTo t) k) (hpresent : (s.upTo t).absent r.off = false) :
      s.strandWrite t k r x f = f (s.upTo t) x := State.strandWrite_takes s t k r x f (by simpa using hup) (by simpa using hpresent) htakes
  have hblock (r : RegId) (f : State → State) (hpresent : (s.upTo t).absent r.off = false) : s.blockWrite t r f = f (s.upTo t) :=
    State.blockWrite_up s t r f (by simpa using hup) (by simpa using hpresent)
  refine ⟨fun k c htakes hpresent => ⟨fun hm => ?set, fun hm => ?send⟩, fun k f htakes hpresent => ?frame, fun k c htakes hpresent => ?commit,
    fun o htakes hpresent hidle => ?zone, fun o htakes hpresent hidle hon hnew hother => ?range, fun k c htakes hpresent hon hsame => ?comply,
    fun k v htakes hpresent hidle => ?own, fun k i htakes hpresent hidle hon hband => ?input⟩
  case set => exact ⟨_, congrArg Host.Outcome.next (hwrite _ _ _ _ htakes hpresent), wrStatic_sets _ _ _ hm⟩
  case send => exact ⟨_, congrArg Host.Outcome.next (hwrite _ _ _ _ htakes hpresent), wrStatic_sends _ _ _ hm⟩
  case frame =>
    obtain ⟨hgate, hrst⟩ := htakes
    refine ⟨_, congrArg Host.Outcome.next (hblock _ _ hpresent), ?_⟩
    rw [State.toTable_takes _ _ _ _ _ hrst, State.wrFrame, if_pos hgate]
  case commit => exact ⟨_, congrArg Host.Outcome.next (hwrite _ _ _ _ htakes hpresent), fun n hn => wrBbCtl_commits _ _ _ _ hn⟩
  case zone => exact ⟨_, congrArg Host.Outcome.next (hwrite _ _ _ _ htakes hpresent), wrOutCtl_idle w hidle⟩
  case range => exact ⟨_, congrArg Host.Outcome.next (hwrite _ _ _ _ htakes hpresent), wrOut_ranges _ hidle hon hnew hother⟩
  case comply => exact ⟨_, congrArg Host.Outcome.next (hblock _ _ hpresent), complyClear_clears htakes hon hsame⟩
  case own =>
    obtain ⟨howner, -⟩ := wrOwn_idle _ k.val v w hidle
    exact ⟨_, congrArg Host.Outcome.next (hwrite _ _ _ _ htakes hpresent), howner⟩
  case input => exact ⟨_, congrArg Host.Outcome.next (hwrite _ _ _ _ htakes hpresent), wrInCtl_settles _ hidle hon hband⟩

end Sys2Proof
end

section
/-! What completes at the connectors, the inputs and the results (R106, R144, R147, R149, R150, R160, R175, R182, R188, R195, R197). -/

namespace Sys2Proof
open Sys2Proof.Machine

/-- A head copy of an HBM envelope that fits copies its head and sets READY (R106). -/
theorem headCopy_copies {s : State} {k e : Nat} (hsrc : (s.env k e).src = 1) (hready : (s.env k e).ready = false) (hlen : (s.env k e).len ≠ 0)
    (hfits : (s.env k e).addr + min (s.env k e).len 8192 ≤ 1048576) :
    (Mem.read (s.headCopy k e).envTab (65536 * k + 16 * e + 3)).getLsbD 2 = true ∧
      Mem.reads (s.headCopy k e).envSram (2 ^ 22 * k + 4 * (s.env k e).addr) (4 * min (s.env k e).len 8192) =
        Mem.reads s.hbm (4 * (s.env k e).hbm) (4 * min (s.env k e).len 8192) := by
  have hsome : ¬((s.env k e).src ≠ 1 ∨ (s.env k e).ready = true ∨ 1048576 < (s.env k e).addr + min (s.env k e).len 8192 ∨ (s.env k e).len = 0) := by
    simp [hsrc, hready, hlen]
    omega
  have hbytes (m : Mem) (a : Nat) (bs : List Byte) {n : Nat} (hn : n = bs.length) : Mem.reads (Mem.writes m a bs) a n = bs := hn ▸ Mem.reads_writes m a bs
  unfold State.headCopy
  dsimp only
  rw [if_neg hsome]
  exact ⟨by simp, hbytes _ _ _ (reads_len ..).symm⟩

/-- AUTOMUTE closes the mute of a live output and leaves it live (R144). -/
theorem automute_mutes {s a : State} {k o : Nat} (ha : a = s.toTime (s.lastPlayed k o + 16000)) (hlive : (a.out k o).live = true)
    (hmute : (a.out k o).muted = false) (hauto : a.fld (.outRfOut k o) 5 5 = 1) (hlast : a.lastPlayed k o = s.lastPlayed k o) :
    ((s.automute k o).out k o).muted = true ∧ ((s.automute k o).out k o).live = true ∧
      ((s.automute k o).out k o).muteAt = s.lastPlayed k o + 16000 ∧ (s.automute k o).now = a.now := by
  unfold State.automute
  simp only [← ha, hlive, hmute, hauto, hlast, and_self, if_true, State.out_setOut]
  exact ⟨trivial, trivial, trivial, rfl⟩

/-- A range change settles with its new range in force (R147). -/
theorem rangeSettled_settles {s : State} {k o t0 : Nat} (h : (s.out k o).ranging = some t0) :
    ((s.rangeSettled k o).out k o).ranging = none ∧
      (s.rangeSettled k o).fld (outReg k o) 3 2 = ((s.toTime (t0 + 25600)).out k o).newRange % 4 ∧
      (s.rangeSettled k o).now = (s.toTime (t0 + 25600)).now := by
  unfold State.rangeSettled
  simp only [h]
  generalize s.toTime (t0 + 25600) = a
  have hset (x : Out) : ((a.setFld (outReg k o) 3 2 (a.out k o).newRange).setOut k o x).fld (outReg k o) 3 2 = (a.out k o).newRange % 4 :=
    State.fld_setFld _ _ _ _ _ (by decide) (by decide)
  refine ⟨?_, ?_, (now_of (State.dueIfOld_touches ..) rfl).trans rfl⟩
  · rw [out_of (State.dueIfOld_touches ..) rfl, State.out_setOut]
  · rw [State.fld_congr ((State.dueIfOld_touches ..).keeps .regs rfl), hset]

/-- A live channel at the compliance threshold for its filter time is held and muted (R149, R150). -/
theorem outComply_holds {s : State} {k c since : Nat} {l : Bool} (hlive : (s.out k (6 + c)).live = true) (hc : (s.out k (6 + c)).comply = false)
    (hlong : up8 (max since (s.out k (6 + c)).liveFrom) + 1024 * s.fld (.outBbOut k c) 31 24 ≤ s.now) :
    ((s.outComply k c since l).out k (6 + c)).comply = true ∧ ((s.outComply k c since l).out k (6 + c)).openLine = l ∧
      ((s.outComply k c since l).out k (6 + c)).live = false ∧ ((s.outComply k c since l).out k (6 + c)).muted = true := by
  have hnow : ¬s.now < up8 (max since (s.out k (6 + c)).liveFrom) + 1024 * s.fld (.outBbOut k c) 31 24 := by omega
  unfold State.outComply
  simp only [hlive, hc, hnow, Bool.true_eq_false, Bool.false_eq_true, or_self, if_false]
  rw [out_of (State.invalid_touches ..) rfl, out_of (State.raise_touches ..) rfl, State.out_setOut, State.goHeld, State.out_setOut]
  exact ⟨rfl, rfl, rfl, rfl⟩

theorem bandSettled_settles {s : State} {k i b : Nat} (h : (s.inp k i).settle = some b) :
    ((s.bandSettled k i).inp k i).settle = none ∧ (s.bandSettled k i).now = (s.toTime (b + 2 * us)).now := by
  unfold State.bandSettled
  simp only [h, State.inp_setInp]
  exact ⟨trivial, rfl⟩

/-- The drain of a raw capture frees the input (R175). -/
theorem rawDrain_frees {s a : State} {k i t r : Nat} {v : Win} (l : List Int) (h : (s.inp k i).rawWin = some (r, v)) (ha : a = s.toTime (min t (rawBound v)))
    (hopen : (a.inp k i).rawWin.isSome = true) :
    ((s.rawDrain k i t l).inp k i).rawBusy = none ∧ ((s.rawDrain k i t l).inp k i).rawWin = none ∧ (s.rawDrain k i t l).now = a.now := by
  obtain ⟨⟨r', v'⟩, hwin⟩ := Option.isSome_iff_exists.mp hopen
  have hnow (x : List Nat) : (a.addClips k i x).now = a.now := now_of (State.addClips_touches ..) rfl
  have hset (x : State) (y : Inp) (q : Nat) (z : Queue) : ((x.setInp k i y).setQueue q z).inp k i = y := State.inp_setInp ..
  unfold State.rawDrain
  simp only [h, ← ha, hwin]
  split
  · simp only [State.inp_setInp]
    refine ⟨trivial, trivial, ?_⟩
    exact hnow (clipsOf v'.ms (l.take ((a.rawNow k r' v').me - (a.rawNow k r' v').ms)))
  · simp only [hset]
    refine ⟨trivial, trivial, ?_⟩
    exact hnow (clipsOf v'.ms (l.take ((a.rawNow k r' v').me - (a.rawNow k r' v').ms)))

/-- What a window that completes notes of overranges, calibration and its kernel (R182, R188). -/
def windowNotes (s : State) (k r : Nat) (v : Win) (clips : List Nat) (ovr cal : Bool) : State :=
  let s1 := s.addClips k v.inp clips
  let s2 := if ovr then s1.reportOvr k r v else s1
  (if cal then s2.calInvalid v else s2).kernelUe k r v

theorem windowNotes_touches (s : State) (k r : Nat) (v : Win) (clips : List Nat) (ovr cal : Bool) :
    Touches [.flags, .counts, .flagAt, .recent, .ev, .queues, .cores, .inps, .mem] s (windowNotes s k r v clips ovr cal) := by
  have hclips : Touches [.flags, .counts, .flagAt, .recent, .ev, .queues, .cores, .inps, .mem] s (s.addClips k v.inp clips) :=
    .step (State.addClips_touches ..) rfl (.refl _ _)
  have hovr : Touches [.flags, .counts, .flagAt, .recent, .ev, .queues, .cores, .inps, .mem] s
      (if ovr then (s.addClips k v.inp clips).reportOvr k r v else s.addClips k v.inp clips) := .ite (.step (State.reportOvr_touches ..) rfl hclips) hclips
  exact .step (State.kernelUe_touches ..) rfl (.ite (.step (State.calInvalid_touches ..) rfl hovr) hovr)

/-- A window that completes leaves its tone's list, decides on its slot and passes its result on (R182, R188, R195). -/
theorem windowComplete_eq {s a : State} {k r : Nat} {v0 v : Win} {rest0 rest : List Win} (xs : List Int) (cl : List Nat) (p : Bool)
    (h0 : (s.rtone k r).wins = v0 :: rest0) (ha : a = s.toTime (v0.stamp + 1152)) (h : (a.rtone k r).wins = v :: rest) :
    ∃ clips ovr cal st f i q ds, s.windowComplete k r xs cl p =
      (let s4 := ((windowNotes (a.setRtone k r { a.rtone k r with wins := rest }) k r v clips ovr cal).decideSlot k r v st).endRaw k r v
       if v.result then s4.makeResult k r v f i q ds st p else s4) := by
  unfold State.windowComplete
  simp only [h0, ← ha, h]
  exact ⟨_, _, _, _, _, _, _, _, rfl⟩

theorem passResult_touches (s : State) (k r : Nat) (v : Win) (f : WFlags) (i q : Int) (ds st : Nat) (p : Bool) :
    Touches [.flags, .counts, .flagAt, .recent, .ev, .queues, .strands, .cores, .inps, .mem] s
      (if v.result then (s.endRaw k r v).makeResult k r v f i q ds st p else s.endRaw k r v) :=
  have hraw : Touches [.flags, .counts, .flagAt, .recent, .ev, .queues, .strands, .cores, .inps, .mem] s (s.endRaw k r v) :=
    .step (State.endRaw_touches ..) rfl (.refl _ _)
  .ite (.step (State.makeResult_touches ..) rfl hraw) hraw

/-- The window taken off its tone's list (R182). -/
theorem windowComplete_takes {s a : State} {k r : Nat} {v0 v : Win} {rest0 rest : List Win} (xs : List Int) (cl : List Nat) (p : Bool)
    (h0 : (s.rtone k r).wins = v0 :: rest0) (ha : a = s.toTime (v0.stamp + 1152)) (h : (a.rtone k r).wins = v :: rest) :
    ((s.windowComplete k r xs cl p).rtone k r).wins = rest ∧ (s.windowComplete k r xs cl p).now = a.now := by
  obtain ⟨clips, ovr, cal, st, f, i, q, ds, heq⟩ := windowComplete_eq xs cl p h0 ha h
  have hnotes := windowNotes_touches (a.setRtone k r { a.rtone k r with wins := rest }) k r v clips ovr cal
  rw [heq]
  constructor
  · rw [rtone_of (passResult_touches ..) rfl, rtone_of (State.decideSlot_touches ..) rfl, rtone_of hnotes rfl, State.rtone_setRtone]
  · rw [now_of (passResult_touches ..) rfl, now_of (State.decideSlot_touches ..) rfl, now_of hnotes rfl]
    rfl

/-- A window that decides writes its state slot (R188). -/
theorem windowComplete_decides {s a : State} {k r : Nat} {v0 v : Win} {rest0 rest : List Win} (xs : List Int) (cl : List Nat) (p : Bool)
    (h0 : (s.rtone k r).wins = v0 :: rest0) (ha : a = s.toTime (v0.stamp + 1152)) (h : (a.rtone k r).wins = v :: rest)
    (hd : v.decide = true) (hm : a.mode.mode = .run ∨ a.mode.mode = .hold) (hg : (a.strand k).gate = .ungated) :
    ∃ st, (s.windowComplete k r xs cl p).slotHist (32 * k + r) = { at' := v.stamp, stamp := v.stamp, val := st } :: a.slotHist (32 * k + r) := by
  obtain ⟨clips, ovr, cal, st, f, i, q, ds, heq⟩ := windowComplete_eq xs cl p h0 ha h
  have hnotes := windowNotes_touches (a.setRtone k r { a.rtone k r with wins := rest }) k r v clips ovr cal
  refine ⟨st, ?_⟩
  rw [heq, slot_of (passResult_touches ..) rfl]
  generalize windowNotes (a.setRtone k r { a.rtone k r with wins := rest }) k r v clips ovr cal = b at hnotes ⊢
  have hmode : b.mode.mode = a.mode.mode := congrArg ModeSt.mode (hnotes.keeps .mode rfl)
  have hgate : (b.strand k).gate = .ungated := by rw [strand_of hnotes rfl]; exact hg
  have hslot : b.slotHist (32 * k + r) = a.slotHist (32 * k + r) := slot_of hnotes rfl _
  rw [State.decideSlot, if_pos ⟨hd, hmode ▸ hm, hgate⟩, State.writeSlot, hslot]
  simp [State.slotHist]

/-- A commit of a tone's discrimination puts its shadow set at the head (R184). -/
theorem wrDiscCtl_commits (s : State) (k r : Nat) (w : Word) : ((s.wrDiscCtl k r (setF w 17 17 1)).rtone k r).disc =
    { s.shadowDisc k r with from' := next8 s.now, ovrInv := decide ((s.wrDiscCtl k r (setF w 17 17 1)).fld (.discCtl k r) 0 0 = 1),
                            satInv := decide ((s.wrDiscCtl k r (setF w 17 17 1)).fld (.discCtl k r) 1 1 = 1) } :: (s.rtone k r).disc := by
  have hkept : RegsKept (writesOf (.discCtl k r)) s (s.writeFields (.discCtl k r) (setF w 17 17 1)) := .writeFields (List.Subset.refl _) (.refl _ _)
  have hreg (x : RegId) (hx : x.off ≠ (RegId.discCtl k r).off) : (s.writeFields (.discCtl k r) (setF w 17 17 1)).reg x = s.reg x := by
    refine hkept.keeps x fun y hy => ?_
    simp [writesOf, profileSettings, RegId.profileOf, RegId.lowOf] at hy
    subst hy
    exact hx.symm
  have hshadow : (s.writeFields (.discCtl k r) (setF w 17 17 1)).shadowDisc k r = s.shadowDisc k r := by
    have hline (n : Nat) : (RegId.discLineAb k r n).off ≠ (RegId.discCtl k r).off ∧ (RegId.discLineCLo k r n).off ≠ (RegId.discCtl k r).off ∧
        (RegId.discLineCHi k r n).off ≠ (RegId.discCtl k r).off := by
      simp only [RegId.off]
      omega
    have hmap : (RegId.discMap k r).off ≠ (RegId.discCtl k r).off := by simp only [RegId.off]; omega
    simp only [State.shadowDisc, State.fld, hreg _ hmap, fun n => hreg _ (hline n).1, fun n => hreg _ (hline n).2.1, fun n => hreg _ (hline n).2.2]
  have hdisc := rtone_of (State.writeFields_touches s (.discCtl k r) (setF w 17 17 1)) rfl k r
  unfold State.wrDiscCtl
  generalize s.writeFields (.discCtl k r) (setF w 17 17 1) = x at hshadow hdisc ⊢
  dsimp only
  have hfld (y : Rtone) (b : Nat) : (x.setRtone k r y).fld (.discCtl k r) b b = x.fld (.discCtl k r) b b := State.fld_congr rfl _ _ _
  simp only [if_pos (getF_setF_bit w 17 (by decide)), State.rtone_setRtone, hshadow, hdisc, hfld]

end Sys2Proof
end

section
/-! Results leave the staging (R195, R197). -/

namespace Sys2Proof
open Sys2Proof.Machine

/-- The commit of a shot of core c that is ready: its packets, then its summary. -/
def commitShot (c : Nat) (s : State) (u : Nat) : State :=
  let b := s.commitWhere (c / 8) (fun p => p.core == c && p.shot == u) (State.commitStaged · false)
  match (b.core c).shots.find? (fun y => y.uid = u) with
  | some y => b.closeShot c y
  | none => b

theorem commitShot_staged (c : Nat) (s : State) (u : Nat) :
    ((commitShot c s u).strand (c / 8)).staged = (s.strand (c / 8)).staged.filter (fun p => !(p.core == c && p.shot == u)) := by
  have hwhere := commitWhere_strand s (c / 8) (fun p => p.core == c && p.shot == u) false (c / 8)
  rw [if_pos rfl] at hwhere
  unfold commitShot
  dsimp only
  split
  · rw [strand_of (State.closeShot_touches ..) rfl, hwhere]
  · rw [hwhere]

theorem foldl_commitShot_staged (c : Nat) (us : List Nat) (s : State) :
    ((us.foldl (commitShot c) s).strand (c / 8)).staged = (s.strand (c / 8)).staged.filter (fun p => !(p.core == c && us.contains p.shot)) := by
  induction us generalizing s with
  | nil => simp
  | cons u us ih =>
    rw [List.foldl_cons, ih, commitShot_staged, List.filter_filter]
    refine List.filter_congr fun p _ => ?_
    rw [List.contains_cons]
    cases p.core == c <;> cases p.shot == u <;> simp

/-- The packets of immediate cores, of shots no longer kept and of shots that are ready leave the staging. -/
theorem resultCommit_staged (s : State) (c : Nat) : ((s.resultCommit c).strand (c / 8)).staged = (s.strand (c / 8)).staged.filter (fun p =>
    !(p.core == c && (decide (s.fld (.discResQ c) 16 16 = 1) || !((s.core c).shots.any (fun x => x.uid = p.shot)) ||
      (((s.core c).shots.filter Shot.ready).map (·.uid)).contains p.shot))) := by
  have heq : s.resultCommit c = (((((s.commitWhere (c / 8) (fun p => p.core == c && (decide (s.fld (.discResQ c) 16 16 = 1) ||
      !((s.core c).shots.any (fun x => x.uid = p.shot)))) (State.commitStaged · (decide (s.fld (.discResQ c) 16 16 = 1)))).core c).shots.filter
        Shot.ready).reverse.map (·.uid)).foldl (commitShot c) (s.commitWhere (c / 8) (fun p => p.core == c &&
      (decide (s.fld (.discResQ c) 16 16 = 1) || !((s.core c).shots.any (fun x => x.uid = p.shot)))) (State.commitStaged · (decide (s.fld (.discResQ c) 16 16 = 1))))) := rfl
  have hready := ready_of_shotSig s _ c (commitWhere_shotSig s (c / 8) (fun p => p.core == c && (decide (s.fld (.discResQ c) 16 16 = 1) ||
    !((s.core c).shots.any (fun x => x.uid = p.shot)))) (decide (s.fld (.discResQ c) 16 16 = 1)) c)
  have hstaged := commitWhere_strand s (c / 8) (fun p => p.core == c && (decide (s.fld (.discResQ c) 16 16 = 1) ||
    !((s.core c).shots.any (fun x => x.uid = p.shot)))) (decide (s.fld (.discResQ c) 16 16 = 1)) (c / 8)
  rw [if_pos rfl] at hstaged
  rw [heq, foldl_commitShot_staged, List.map_reverse, hready, hstaged, List.filter_filter]
  refine List.filter_congr fun p _ => ?_
  simp only [List.contains_reverse, Bool.not_and, Bool.not_or]
  cases p.core == c <;> simp [Bool.and_comm, Bool.and_left_comm]

/-- The oldest packet that waits is released when more than 1536 do (R197). -/
theorem earlyRelease_takes {s : State} {k : Nat} {p : Staged} {r : List Staged} (h : (s.strand k).staged.filter s.waitsShot = p :: r) :
    ((s.earlyRelease k).strand k).staged = (s.strand k).staged.erase p ∧ (s.earlyRelease k).now = s.now := by
  unfold State.earlyRelease
  simp only [h]
  constructor
  · rw [strand_of (State.commitStaged_touches ..) rfl, strand_of (State.setCore_touches ..) rfl, State.strand_setStrand]
  · rw [now_of (State.commitStaged_touches ..) rfl]
    rfl

/-- Settles O29: each completion's own equation. -/
theorem connectorAndResultEvents : Obligations.ConnectorAndResultEvents := by
  unfold Obligations.ConnectorAndResultEvents
  intro s t k
  refine ⟨fun e hsrc hready hlen hfits => ?head, fun o a ha hlive hmute hauto hlast => ⟨_, rfl, automute_mutes ha hlive hmute hauto hlast⟩,
    fun o t0 a h ha => ⟨_, rfl, ha ▸ rangeSettled_settles h⟩, fun c l since a ha hlive hc hlong => ⟨_, rfl, ha ▸ outComply_holds (ha ▸ hlive) (ha ▸ hc) (ha ▸ hlong)⟩,
    fun i b h => ⟨_, rfl, bandSettled_settles h⟩, fun i r v l a h ha hopen => ⟨_, rfl, rawDrain_frees l h ha hopen⟩,
    fun r v0 v rest0 rest xs cl p a h0 ha h => ⟨⟨_, rfl, windowComplete_takes xs cl p h0 ha h⟩, fun hd hm hg => ?decides⟩,
    fun r w a ha hup hpresent htakes => ?disc, fun c => ⟨_, rfl, resultCommit_staged _ c⟩, fun p r h hr => ?early⟩
  case head =>
    have hs := memSame_upTo s t
    have henv := env_congr hs.envTab k e
    have hcopy := headCopy_copies (s := s.upTo t) (k := k) (e := e)
    rw [henv, hs.hbm] at hcopy
    exact ⟨_, rfl, hcopy hsrc hready hlen hfits⟩
  case decides =>
    obtain ⟨st, hslot⟩ := windowComplete_decides xs cl p h0 ha h hd hm hg
    exact ⟨_, st, rfl, hslot⟩
  case disc =>
    subst ha
    exact ⟨_, congrArg Host.Outcome.next (State.strandWrite_takes s t k (.discCtl k r) _ _ (by simpa using hup) (by simpa using hpresent) htakes),
      wrDiscCtl_commits ..⟩
  case early =>
    have hfull : (s.at t).overFull k = true := by
      have hlen : 1536 < ((s.strand k).staged.filter s.waitsShot).length := by rw [h, List.length_cons]; omega
      exact decide_eq_true hlen
    have hexec : exec (.earlyRelease t k) s = .next (((s.at t).clockTo ((s.at t).releaseAt k)).earlyRelease k) := congrArg Host.Outcome.next (if_pos hfull)
    exact ⟨_, hexec, earlyRelease_takes (s := (s.at t).clockTo ((s.at t).releaseAt k)) h⟩

end Sys2Proof
end

section
/-! Hitch lanes and directions (R226 to R243). -/

namespace Sys2Proof
open Sys2Proof.Machine

/-- A lane that is turned on and not locked. -/
def AwakeUnlocked (x : Lane) : Prop := x.idle = false ∧ x.lock = false

theorem wakeLane_awake {s : State} {l i : Nat} (h : AwakeUnlocked (s.lane i)) : AwakeUnlocked ((s.wakeLane l).lane i) := by
  rw [wakeLane_lane]
  split_ifs with hl
  · obtain ⟨rfl, -⟩ := hl
    exact ⟨rfl, h.2⟩
  · exact h

theorem wakeLane_self (s : State) (l : Nat) : ((s.wakeLane l).lane l).idle = false := by
  rw [wakeLane_lane]
  split_ifs with hl
  · rfl
  · simpa using hl

theorem setBIdle_awake {s : State} {d i : Nat} (h : AwakeUnlocked (s.lane i)) : AwakeUnlocked ((s.setBIdle d false).lane i) := by
  simp only [State.setBIdle, pathLanes, if_true, Bool.false_eq_true, if_false, List.foldl]
  exact wakeLane_awake (wakeLane_awake h)

/-- A fold that sets one lane at a time leaves each lane of its list as its own step set it. -/
theorem foldl_lane {P : Lane → Prop} {f : State → Nat → State} (hself : ∀ a l, P ((f a l).lane l)) (hother : ∀ a l i, i ≠ l → (f a l).lane i = a.lane i)
    (ls : List Nat) (s : State) {l : Nat} (hl : l ∈ ls) : P ((ls.foldl f s).lane l) :=
  foldl_hit (fun _ => True) (fun a => P (a.lane l)) f l ls (fun _ _ _ => trivial) (fun a x _ _ hx h => by rw [hother a x l (Ne.symm hx)]; exact h)
    (fun a _ => hself a l) s trivial (.inr hl)

/-- A direction turned on has its lanes out of idle and unlocked (R226). -/
theorem dirEnable_lanes (s : State) (d : Nat) {l : Nat} (hl : l ∈ pathLanes d false ++ pathLanes d true) : AwakeUnlocked ((s.dirEnable d true).lane l) := by
  unfold State.dirEnable
  rw [lane_setHdir]
  refine foldl_lane (fun a x => ?_) (fun a x i hi => ?_) _ _ hl
  · rw [lane_set, if_pos rfl]
    exact ⟨wakeLane_self a x, rfl⟩
  · rw [lane_set, if_neg hi]
    exact (wakeLane_lane a x i).trans (if_neg fun h => hi h.1)

theorem wrDirCtl_enables {s : State} {d : Nat} {w : Word} (hoff : s.dirOn d = false) (hon : getF w 0 0 = 1) (hsplice : getF w 6 6 = 0) (hrevert : getF w 7 7 = 0) :
    (s.wrDirCtl d w).dirOn d = true ∧ ∀ l ∈ pathLanes d false ++ pathLanes d true, AwakeUnlocked ((s.wrDirCtl d w).lane l) := by
  have hfields : (s.writeFields (.hchDirCtl d) w).dirOn d = true := decide_eq_true (dirCtl_on s d w hon)
  have hwrite : s.wrDirCtl d w = if ((s.writeFields (.hchDirCtl d) w).dirEnable d true).dirOn d && ((s.writeFields (.hchDirCtl d) w).dirEnable d true).dirHot d
      then ((s.writeFields (.hchDirCtl d) w).dirEnable d true).setBIdle d false else (s.writeFields (.hchDirCtl d) w).dirEnable d true := by
    unfold State.wrDirCtl
    simp only [hoff, hfields, hsplice, hrevert, Bool.false_eq_true, if_false, zero_ne_one]
  have hdir {l : List Part} {a b : State} (h : Touches l a b) (hl : l.contains .regs = false) : b.dirOn d = a.dirOn d := by
    simp only [State.dirOn, State.fld_congr (h.keeps .regs hl)]
  have henable := hdir (State.dirEnable_touches (s.writeFields (.hchDirCtl d) w) d true) rfl
  rw [hwrite]
  split_ifs
  · exact ⟨(hdir (State.setBIdle_touches ..) rfl).trans (henable.trans hfields), fun l hl => setBIdle_awake (dirEnable_lanes _ d hl)⟩
  · exact ⟨henable.trans hfields, fun l hl => dirEnable_lanes _ d hl⟩

theorem laneLocked_lane (s : State) (l : Nat) : (s.laneLocked l).lane l = { s.lane l with lock := true, rxIdle := false } := by
  unfold State.laneLocked
  dsimp only
  split_ifs
  · rw [lane_setHdir, lane_set, if_pos rfl]
  · rw [lane_set, if_pos rfl]

/-- Evaluating health leaves a lane's lock, delay and idle receiver alone. -/
theorem evalHealth_lane (s : State) (d c l : Nat) : ((s.evalHealth d c).lane l).lock = (s.lane l).lock ∧ ((s.evalHealth d c).lane l).delay = (s.lane l).delay ∧
    ((s.evalHealth d c).lane l).noserv = (s.lane l).noserv ∧ ((s.evalHealth d c).lane l).rxIdle = (s.lane l).rxIdle := by
  have hcore := ((hKeeps.refl s).evalHealth d c).lane l
  simpa only [laneCore, Prod.mk.injEq] using hcore

theorem path_setPath (x : HDir) (b : Bool) (p : HPath) : (x.setPath b p).path b = p := by cases b <;> rfl

theorem blockLock_locks {s : State} {l n : Nat} (hon : s.dirOn (laneDir l).1 = true) :
    ((s.blockLock l n).lane l).lock = true ∧ ((s.blockLock l n).lane l).rxIdle = false := by
  rw [State.blockLock, if_pos hon]
  obtain ⟨hlock, -, -, hidle⟩ := evalHealth_lane ((s.bump (.hchHdrErr l) n).laneLocked l) (laneDir l).1 0 l
  rw [hlock, hidle, laneLocked_lane]
  exact ⟨rfl, rfl⟩

/-- A lane that loses its block lock, and the MARK of its path with it (R232). -/
theorem lockLoss_unlocks {s : State} {l n : Nat} {sig : Bool} (h : 16 ≤ n ∨ sig = true) :
    ((s.lockLoss l n sig).lane l).lock = false ∧ (((s.lockLoss l n sig).hdir (laneDir l).1).path (laneDir l).2).markOk = false := by
  have hlost : (decide (n < 16) && !sig) = false := by
    rcases h with h | h
    · simp [h]
    · simp [h]
  unfold State.lockLoss
  simp only [hlost, Bool.false_eq_true, if_false]
  generalize hx : State.setHdir _ (laneDir l).1 _ = x
  obtain ⟨hlock, -⟩ := evalHealth_lane x (laneDir l).1 0 l
  rw [hlock, ((hKeeps.refl x).evalHealth (laneDir l).1 0).mark, ← hx, lane_setHdir, lane_set, if_pos rfl, hdir_set, if_pos rfl, path_setPath]
  exact ⟨rfl, rfl⟩

theorem lockLoss_counts {s : State} {l n : Nat} (hn : n < 16) : s.lockLoss l n false = s.bump (.hchHdrErr l) n := by
  unfold State.lockLoss
  simp only [hn, decide_true, Bool.not_false, Bool.and_self, if_true]

/-- A TRAIN block measures its lane, and the last of a burst ends the receiver's idle (R229, R230). -/
theorem trainBlock_measures {s : State} {l b : Nat} (hon : s.dirOn (laneDir l).1 = true) (hb : bits b 7 0 = 0xD2) :
    ((s.trainBlock l b).lane l).delay = min ((s.now + 2 ^ 48 - bits b 63 16) % 2 ^ 48) 1023 ∧
    ((s.trainBlock l b).lane l).noserv = decide (416 < (s.now + 2 ^ 48 - bits b 63 16) % 2 ^ 48) ∧
    (bits b 15 8 = 31 → ((s.trainBlock l b).lane l).rxIdle = false ∧ ((s.lane l).rxIdle = true → ((s.trainBlock l b).lane l).lock = true)) := by
  unfold State.trainBlock
  simp only [hon, hb, ne_eq, not_true_eq_false, Bool.true_eq_false, or_self, if_false]
  generalize hx : (s.measure l ((s.now + 2 ^ 48 - bits b 63 16) % 2 ^ 48)) = x
  have hlane := hx ▸ measure_lane s l ((s.now + 2 ^ 48 - bits b 63 16) % 2 ^ 48) l
  rw [if_pos rfl] at hlane
  have hwake (a : State) : hKeeps a (a.trainWake l) := by
    unfold State.trainWake
    exact .ite (.bIdle _ _ (.refl a)) (.refl a)
  have hlast (a : State) := ((hwake a).evalHealth (laneDir l).1 3).lane l
  simp only [laneCore, Prod.mk.injEq] at hlast
  split_ifs with hburst
  · obtain ⟨hlock, hdelay, hserv, hidle⟩ := hlast (x.laneLocked l)
    rw [hlock, hdelay, hserv, hidle, laneLocked_lane, hlane]
    exact ⟨rfl, rfl, fun _ => ⟨rfl, fun _ => rfl⟩⟩
  · obtain ⟨hlock, hdelay, hserv, hidle⟩ := hlast x
    rw [hlock, hdelay, hserv, hidle, hlane]
    rw [hlane] at hburst
    refine ⟨rfl, rfl, fun h31 => ?_⟩
    have hno : (s.lane l).rxIdle = false := by simpa [h31] using hburst
    exact ⟨hno, fun h => absurd h (by simp [hno])⟩

theorem idleEntry_receives {s : State} {l : Nat} (hon : s.dirOn (laneDir l).1 = true) : ((s.idleEntry l false).lane l).rxIdle = true := by
  unfold State.idleEntry
  simp only [Bool.false_eq_true, if_false, hon, if_true, lane_set]

theorem idleEntry_sends {s : State} {l : Nat} (hb : (laneDir l).2 = true) (hhot : s.dirHot (laneDir l).1 = false) (hon : (s.hdir (laneDir l).1).onB = false)
    (hgap : (s.hdir (laneDir l).1).gap = false) (hpend : (s.hdir (laneDir l).1).pend = none) : ((s.idleEntry l true).lane l).idle = true := by
  unfold State.idleEntry
  simp only [if_true, hb, hhot, hon, hgap, hpend, Bool.not_false, Bool.and_self, Option.isNone_none, idleLane_lane]

/-- A MARK without error marks its path and names the peer (R234). -/
theorem markBlock_marks {s : State} {q b : Nat} (hon : s.dirOn (portDir q).1 = true) (hb : bits b 7 0 = 0xD1) (herr : s.markError q b = none) :
    (((s.markBlock q b).hdir (portDir q).1).path (portDir q).2).markOk = true ∧ ((s.markBlock q b).hdir (portDir q).1).peerSeen = bits b 31 26 := by
  unfold State.markBlock
  simp only [hon, hb, herr, ne_eq, not_true_eq_false, Bool.true_eq_false, or_self, if_false]
  generalize hx : State.setHdir _ (portDir q).1 _ = x
  have hpeer := ((hKeeps.refl x).evalHealth (portDir q).1 2).dir (portDir q).1
  simp only [dirCore, Prod.mk.injEq] at hpeer
  obtain ⟨hpeer, -⟩ := hpeer
  rw [hpeer, ((hKeeps.refl x).evalHealth (portDir q).1 2).mark, ← hx, hdir_set, if_pos rfl, path_setPath]
  refine ⟨rfl, ?_⟩
  cases (portDir q).2 <;> rfl

theorem status_wakes {s : State} {d b : Nat} (hon : s.dirOn d = true) (hb : bits b 63 56 = 1) (hcrc : crc16 (leBytes 6 (bits b 63 16)) = bits b 15 0)
    (hwake : bit b 49 = true) : ((s.status d b).hdir d).quietFrom = none ∧ ∀ l ∈ pathLanes d true, ((s.status d b).lane l).idle = false := by
  unfold State.status
  simp only [hon, hb, hcrc, hwake, ne_eq, not_true_eq_false, Bool.true_eq_false, or_self, if_false, if_true]
  refine ⟨?_, bIdle_idle _ d false⟩
  rw [bIdle_dir, hdir_set, if_pos rfl]

/-- The state in which a standby check has measured path B's lanes and judged the path (R241, R243). -/
def standbyMeasured (s : State) (d : Nat) (ok : Bool) (d0 d1 : Nat) : State :=
  let s1 := ((s.setBIdle d false).measure (2 * d + 16) d0).measure (2 * d + 17) d1
  let s2 := if ok then (pathLanes d true).foldl (fun a l => a.setLane l { a.lane l with lock := true }) s1 else s1
  let y := s2.hdir d
  s2.setHdir d { y with b := { y.b with standbyBad := !(ok && decide (d0 ≤ 416) && decide (d1 ≤ 416)), markOk := y.b.markOk || (ok && y.b.cfgErr.isNone) } }

/-- What follows the judgement of a standby check is the evaluation of health and the lanes' idle. -/
theorem standbyCheck_keeps {s : State} {d d0 d1 : Nat} (ok : Bool) (hon : s.dirOn d = true) (hhot : s.dirHot d = false) (hb : (s.hdir d).onB = false)
    (hgap : (s.hdir d).gap = false) : hKeeps (standbyMeasured s d ok d0 d1) (s.standbyCheck d ok d0 d1) := by
  unfold State.standbyCheck
  simp only [hon, hhot, hb, hgap, Bool.true_eq_false, Bool.false_eq_true, or_self, if_false]
  have hjudged (p : Prop) [Decidable p] (n : Nat) : hKeeps (standbyMeasured s d ok d0 d1)
      (if p then standbyMeasured s d ok d0 d1 else (standbyMeasured s d ok d0 d1).raise .hchStandby 0 d n []) := .ite (.refl _) (.raise _ _ _ _ _ (.refl _))
  exact .ite (.evalHealth d 3 (hjudged ..)) (.bIdle d true (.evalHealth d 3 (hjudged ..)))

theorem standbyMeasured_delay (s : State) (d d0 d1 : Nat) (ok : Bool) (l : Nat) : ((standbyMeasured s d ok d0 d1).lane l).delay =
    ((((s.setBIdle d false).measure (2 * d + 16) d0).measure (2 * d + 17) d1).lane l).delay := by
  unfold standbyMeasured
  rw [lane_setHdir]
  split_ifs
  · simp only [pathLanes, if_true, List.foldl, lane_set]
    split_ifs with hl <;> simp_all
  · rfl

/-- A standby check gives both delays and the state of path B (R241, R243). -/
theorem standbyCheck_measures {s : State} {d d0 d1 : Nat} (ok : Bool) (h0 : d0 ≤ 1023) (h1 : d1 ≤ 1023) (hon : s.dirOn d = true) (hhot : s.dirHot d = false)
    (hb : (s.hdir d).onB = false) (hgap : (s.hdir d).gap = false) :
    ((s.standbyCheck d ok d0 d1).lane (2 * d + 16)).delay = d0 ∧ ((s.standbyCheck d ok d0 d1).lane (2 * d + 17)).delay = d1 ∧
      ((s.standbyCheck d ok d0 d1).hdir d).b.standbyBad = !(ok && decide (d0 ≤ 416) && decide (d1 ≤ 416)) := by
  have hkeeps := standbyCheck_keeps (d0 := d0) (d1 := d1) ok hon hhot hb hgap
  have hlane (l : Nat) : ((s.standbyCheck d ok d0 d1).lane l).delay = ((standbyMeasured s d ok d0 d1).lane l).delay := congrArg (·.2.1) (hkeeps.lane l)
  have hdir : ((s.standbyCheck d ok d0 d1).hdir d).b.standbyBad = ((standbyMeasured s d ok d0 d1).hdir d).b.standbyBad :=
    congrArg (·.2.2.2.standbyBad) (hkeeps.dir d)
  refine ⟨?_, ?_, ?_⟩
  · rw [hlane, standbyMeasured_delay, measure_lane, if_neg (by omega), measure_lane, if_pos rfl]
    exact min_eq_left h0
  · rw [hlane, standbyMeasured_delay, measure_lane, if_pos rfl]
    exact min_eq_left h1
  · rw [hdir, standbyMeasured, hdir_set, if_pos rfl]

/-- Settles O32: each block's and each check's own lanes, through the evaluation of health, which leaves them alone. -/
theorem hitchBlocks : Obligations.HitchBlocks := by
  unfold Obligations.HitchBlocks
  intro s t
  refine ⟨fun d w hup hoff hon hs hr => ?enable, fun l n hon => ⟨_, rfl, blockLock_locks hon⟩,
    fun l n sig => ⟨fun h => ⟨_, rfl, lockLoss_unlocks h⟩, fun hn hsig => ?count⟩, fun l b hon hb => ⟨_, rfl, trainBlock_measures hon hb⟩,
    fun l => ⟨fun hon => ⟨_, rfl, idleEntry_receives hon⟩, fun hb hhot hon hgap hpend => ⟨_, rfl, idleEntry_sends hb hhot hon hgap hpend⟩⟩,
    fun q b hon hb herr => ⟨_, rfl, markBlock_marks hon hb herr⟩, fun d b hon hb hcrc hwake => ⟨_, rfl, status_wakes hon hb hcrc hwake⟩,
    fun d ok d0 d1 hon hhot hb hgap => ⟨_, rfl, standbyCheck_measures ok (by omega) (by omega) hon hhot hb hgap⟩⟩
  case enable =>
    exact ⟨_, congrArg Host.Outcome.next (State.hubWrite_up s t _ hup), wrDirCtl_enables hoff hon hs hr⟩
  case count =>
    subst hsig
    exact ⟨_, congrArg Host.Outcome.next (lockLoss_counts hn), rfl, count_bump (s.at t) _ n⟩

end Sys2Proof
end

section
/-! Hitch containers, splices and reverts (R231 to R247). -/

namespace Sys2Proof
open Sys2Proof.Machine

/-- Waking or idling the lanes of path B leaves the directions alone. -/
theorem setBIdle_hdir (s : State) (d : Nat) (idle : Bool) (i : Nat) : (s.setBIdle d idle).hdir i = s.hdir i := by
  have hstep (a : State) (l : Nat) : (if idle then a.idleLane l else a.wakeLane l).hdir i = a.hdir i := by
    split_ifs
    · exact idleLane_hdir ..
    · exact wakeLane_hdir ..
  simp only [State.setBIdle, pathLanes, if_true, List.foldl, hstep]

theorem splice_hdir (s : State) (d c t i : Nat) : (s.splice d c t).hdir i = s.hdir i :=
  (hdir_of (State.raise_touches ..) rfl i).trans (setBIdle_hdir ..)

/-- A revert makes A active, with no switch, hold or qualification (R245). -/
theorem revert_hdir (s : State) (d t : Nat) : (s.revert d t).hdir d =
    { s.hdir d with onB := false, gap := false, pend := none, qualFrom := none, hostHold := false } :=
  (hdir_of (State.raise_touches ..) rfl d).trans ((hdir_set ..).trans (if_pos rfl))

/-- A direction's switch is put off while a frame is out on one of its paths (R243, R245). -/
theorem frameOut_eq_not_switchNow (s : State) (d : Nat) :
    (s.hasRx d && (s.wholeOn d false != s.wholeOn d true || (s.wholeOn d true).isNone)) = !switchNow s d := by
  simp [switchNow, bne, Option.not_isSome]

section
variable {s : State} {d : Nat} (hgap : (s.hdir d).gap = false)
include hgap

theorem takeSwitch_none (hpend : (s.hdir d).pend = none) : s.takeSwitch d = s := by
  simp only [State.takeSwitch, hgap, hpend, Bool.false_eq_true, if_false]

theorem takeSwitch_waits {b : Bool} (hpend : (s.hdir d).pend = some b) (hnow : switchNow s d = false) : s.takeSwitch d = s := by
  simp only [State.takeSwitch, hgap, hpend, frameOut_eq_not_switchNow, hnow, Bool.false_eq_true, if_false, Bool.not_false, if_true]

theorem takeSwitch_toA (hpend : (s.hdir d).pend = some false) (hnow : switchNow s d = true) : s.takeSwitch d = s.revert d (up8 s.now) := by
  simp only [State.takeSwitch, hgap, hpend, frameOut_eq_not_switchNow, hnow, Bool.false_eq_true, if_false, Bool.not_true]

theorem takeSwitch_toB (hpend : (s.hdir d).pend = some true) (hnow : switchNow s d = true) :
    s.takeSwitch d = (s.setHdir d { s.hdir d with onB := true, pend := none }).splice d 4 (up8 s.now) := by
  simp only [State.takeSwitch, hgap, hpend, frameOut_eq_not_switchNow, hnow, Bool.false_eq_true, if_false, Bool.not_true, if_true]

end

/-- What keeps a direction's paths, its lanes and the registers that say whether it serves and what it receives. -/
structure ServiceKept (d : Nat) (s t : State) : Prop where
  keeps : hKeeps s t
  on : t.dirOn d = s.dirOn d
  test : ∀ l, t.laneTest l = s.laneTest l
  valid : ∀ c, t.rxValid d c = s.rxValid d c

theorem ServiceKept.of_regs {d : Nat} {s t : State} (h : hKeeps s t) (hregs : t.regs = s.regs) (hmode : t.mode = s.mode) : ServiceKept d s t where
  keeps := h
  on := by simp only [State.dirOn, State.fld_congr hregs]
  test l := by simp only [State.laneTest, State.fld_congr hregs, hmode]
  valid c := by simp only [State.rxValid, State.fld_congr hregs]

theorem ServiceKept.trans {d : Nat} {s t u : State} (h : ServiceKept d s t) (k : ServiceKept d t u) : ServiceKept d s u where
  keeps := h.keeps.trans k.keeps
  on := k.on.trans h.on
  test l := (k.test l).trans (h.test l)
  valid c := (k.valid c).trans (h.valid c)

/-- What of a path says that it is in service and healthy, its last evaluation apart. -/
def pathServes (p : HPath) : Bool × Bool × Nat := (p.markOk, p.standbyBad, p.badLeft)

theorem pathOk_congr {d : Nat} {b : Bool} {s t : State} (hon : t.dirOn d = s.dirOn d) (htest : ∀ l, t.laneTest l = s.laneTest l)
    (hlane : ∀ l, laneCore (t.lane l) = laneCore (s.lane l)) (hpath : pathServes ((t.hdir d).path b) = pathServes ((s.hdir d).path b)) :
    t.pathOk d b = s.pathOk d b := by
  have hmark : ((t.hdir d).path b).markOk = ((s.hdir d).path b).markOk := congrArg (·.1) hpath
  have hstandby : ((t.hdir d).path b).standbyBad = ((s.hdir d).path b).standbyBad := congrArg (·.2.1) hpath
  have hbad : ((t.hdir d).path b).badLeft = ((s.hdir d).path b).badLeft := congrArg (·.2.2) hpath
  have hlock (l : Nat) : (t.lane l).lock = (s.lane l).lock := congrArg (·.1) (hlane l)
  have hserv (l : Nat) : (t.lane l).noserv = (s.lane l).noserv := congrArg (·.2.2.1) (hlane l)
  simp only [State.pathOk, State.inService, hon, htest, hlock, hserv, hmark, hstandby, hbad]

/-- A path keeps all but its health as last evaluated. -/
theorem hKeeps.path {s t : State} (h : hKeeps s t) (d : Nat) (b : Bool) :
    { (t.hdir d).path b with healthy := false } = { (s.hdir d).path b with healthy := false } := by
  obtain ⟨-, -, ha, hb⟩ : _ ∧ _ ∧ _ ∧ _ := by simpa only [dirCore, Prod.mk.injEq] using h.dir d
  cases b
  · exact ha
  · exact hb

section
variable {d : Nat} {s t : State} (h : ServiceKept d s t)
include h

theorem ServiceKept.pathOk (b : Bool) : t.pathOk d b = s.pathOk d b :=
  have hpath : pathServes { (t.hdir d).path b with healthy := false } = pathServes { (s.hdir d).path b with healthy := false } :=
    congrArg pathServes (h.keeps.path d b)
  pathOk_congr h.on h.test h.keeps.lane hpath

theorem ServiceKept.switchNow_eq : switchNow t d = switchNow s d := by
  have hgot (b : Bool) : ((t.hdir d).path b).got = ((s.hdir d).path b).got := congrArg (·.got) (h.keeps.path d b)
  have hframe (b : Bool) : ((t.hdir d).path b).frame = ((s.hdir d).path b).frame := congrArg (·.frame) (h.keeps.path d b)
  have hrx : t.hasRx d = s.hasRx d := by simp only [State.hasRx, h.valid]
  simp only [switchNow, State.wholeOn, hrx, hgot, hframe, h.valid]

end

theorem ServiceKept.setHdir (d : Nat) (s : State) (x : HDir) (h : dirCore x = dirCore (s.hdir d)) : ServiceKept d s (s.setHdir d x) :=
  .of_regs ((hKeeps.refl s).set d x h) rfl rfl

theorem ServiceKept.setBIdle (d : Nat) (s : State) (idle : Bool) : ServiceKept d s (s.setBIdle d idle) :=
  .of_regs ((hKeeps.refl s).bIdle d idle) ((State.setBIdle_touches ..).keeps .regs rfl) ((State.setBIdle_touches ..).keeps .mode rfl)

theorem writesOf_hchDirCtl (n : Nat) : writesOf (.hchDirCtl n) ⊆ [.hchDirCtl n] := by
  intro r hr
  simpa [writesOf, profileSettings, RegId.profileOf, RegId.lowOf] using hr

/-- Writing a direction's control register, which keeps it on, changes no other register of its service. -/
theorem ServiceKept.writeFields {d : Nat} {s : State} {w : Word} (hd : d < 8) (hon : s.dirOn d = true) (hw : getF w 0 0 = 1) :
    ServiceKept d s (s.writeFields (.hchDirCtl d) w) where
  keeps := .of (State.writeFields_touches ..) rfl
  on := (decide_eq_true (dirCtl_on s d w hw)).trans hon.symm
  test l := by
    have hfld (x y : Nat) : (s.writeFields (.hchDirCtl d) w).fld (.hchLaneCtl l) x y = s.fld (.hchLaneCtl l) x y :=
      congrArg (getF · x y) (regs_other _ _ _ (writesOf_hchDirCtl d) _ (by simp only [RegId.off]; omega))
    simp only [State.laneTest, hfld, mode_of (State.writeFields_touches s (.hchDirCtl d) w) rfl]
  valid c := by
    have hfld : (s.writeFields (.hchDirCtl d) w).fld (.hchRxHi (3 * d + c)) 31 31 = s.fld (.hchRxHi (3 * d + c)) 31 31 :=
      congrArg (getF · 31 31) (regs_other _ _ _ (writesOf_hchDirCtl d) _ (by simp only [RegId.off]; omega))
    simp only [State.rxValid, hfld]

/-- A direction that stays on, its control register written and path B of a hot standby awake. -/
def dirCtlWritten (s : State) (d : Nat) (w : Word) : State :=
  let a := s.writeFields (.hchDirCtl d) w
  if a.dirOn d && a.dirHot d then a.setBIdle d false else a

theorem dirCtlWritten_kept {s : State} {d : Nat} {w : Word} (hd : d < 8) (hon : s.dirOn d = true) (hw : getF w 0 0 = 1) :
    ServiceKept d s (dirCtlWritten s d w) ∧ (dirCtlWritten s d w).hdir d = s.hdir d := by
  have hwrite := ServiceKept.writeFields hd hon hw
  have hdir := hdir_of (State.writeFields_touches s (.hchDirCtl d) w) rfl d
  unfold dirCtlWritten
  dsimp only
  split_ifs
  · exact ⟨hwrite.trans (.setBIdle ..), (setBIdle_hdir ..).trans hdir⟩
  · exact ⟨hwrite, hdir⟩

/-- A splice or a revert of the host acts once the register is written. -/
theorem wrDirCtl_eq {s : State} {d : Nat} {w : Word} (hd : d < 8) (hon : s.dirOn d = true) (hw : getF w 0 0 = 1) :
    s.wrDirCtl d w = let a := dirCtlWritten s d w
      let b := if getF w 6 6 = 1 then a.askSwitch d true else a
      if getF w 7 7 = 1 then b.askSwitch d false else b := by
  simp only [State.wrDirCtl, (ServiceKept.writeFields hd hon hw).on, if_true, dirCtlWritten, hon]

/-- A direction that waits for its switch to path `onB`, asked for by the host. -/
def askedDir (x : HDir) (onB : Bool) : HDir := { x with pend := some onB, hostHold := onB, qualFrom := none }

section
variable {s : State} {d : Nat} (hgap : (s.hdir d).gap = false)
include hgap

/-- A splice of the host holds A back, and is done at once where no frame is out (R245). -/
theorem askSwitch_toB (hok : s.pathOk d true = true) (honA : (s.hdir d).onB = false) :
    ((s.askSwitch d true).hdir d).hostHold = true ∧ ((s.askSwitch d true).hdir d).onB = switchNow s d ∧
      ((s.askSwitch d true).hdir d).pend = if switchNow s d = true then none else some true := by
  generalize ha : (s.setHdir d (askedDir (s.hdir d) true)).setBIdle d false = a
  have heq : s.askSwitch d true = a.takeSwitch d := by
    rw [State.askSwitch, ← ha]
    dsimp only
    rw [if_neg (by rw [hok]; decide), if_neg (by rw [honA]; decide), if_pos rfl, askedDir]
  have hdir : a.hdir d = askedDir (s.hdir d) true := by rw [← ha, setBIdle_hdir, hdir_set, if_pos rfl]
  have hnow : switchNow a d = switchNow s d := by
    rw [← ha, (ServiceKept.setBIdle ..).switchNow_eq]
    exact (ServiceKept.setHdir d s (askedDir (s.hdir d) true) rfl).switchNow_eq
  have hgapA : (a.hdir d).gap = false := by rw [hdir]; exact hgap
  have hpend : (a.hdir d).pend = some true := by rw [hdir]; rfl
  rw [heq]
  cases h : switchNow s d
  · rw [takeSwitch_waits hgapA hpend (hnow.trans h), hdir]
    exact ⟨rfl, honA, rfl⟩
  · rw [takeSwitch_toB hgapA hpend (hnow.trans h), splice_hdir, hdir_set, if_pos rfl, hdir]
    exact ⟨rfl, rfl, rfl⟩

/-- A revert of the host ends its hold, and is done at once where no frame is out (R245). -/
theorem askSwitch_toA (hok : s.pathOk d false = true) (honB : (s.hdir d).onB = true) :
    ((s.askSwitch d false).hdir d).hostHold = false ∧ ((s.askSwitch d false).hdir d).onB = !switchNow s d ∧
      ((s.askSwitch d false).hdir d).pend = if switchNow s d = true then none else some false := by
  generalize ha : s.setHdir d (askedDir (s.hdir d) false) = a
  have heq : s.askSwitch d false = a.takeSwitch d := by
    rw [State.askSwitch, ← ha]
    dsimp only
    rw [if_neg (by rw [hok]; decide), if_neg (by rw [honB]; decide), if_neg Bool.false_ne_true, askedDir]
  have hdir : a.hdir d = askedDir (s.hdir d) false := by rw [← ha, hdir_set, if_pos rfl]
  have hnow : switchNow a d = switchNow s d := by rw [← ha]; exact (ServiceKept.setHdir d s (askedDir (s.hdir d) false) rfl).switchNow_eq
  have hgapA : (a.hdir d).gap = false := by rw [hdir]; exact hgap
  have hpend : (a.hdir d).pend = some false := by rw [hdir]; rfl
  rw [heq]
  cases h : switchNow s d
  · rw [takeSwitch_waits hgapA hpend (hnow.trans h), hdir]
    exact ⟨rfl, honB, rfl⟩
  · rw [takeSwitch_toA hgapA hpend (hnow.trans h), revert_hdir, hdir]
    exact ⟨rfl, rfl, rfl⟩

end

section
variable {s : State} {d : Nat} {w : Word} (hd : d < 8) (hon : s.dirOn d = true) (hw : getF w 0 0 = 1) (hgap : (s.hdir d).gap = false)
include hd hon hw hgap

theorem wrDirCtl_splices (hrev : getF w 7 7 = 0) (honA : (s.hdir d).onB = false) (hok : s.pathOk d true = true) :
    ((s.wrDirCtl d (setF w 6 6 1)).hdir d).hostHold = true ∧ ((s.wrDirCtl d (setF w 6 6 1)).hdir d).onB = switchNow s d ∧
      ((s.wrDirCtl d (setF w 6 6 1)).hdir d).pend = if switchNow s d = true then none else some true := by
  have hw' : getF (setF w 6 6 1) 0 0 = 1 := (getF_setF_bit_ne w 6 0 1 (by decide) (by decide)).trans hw
  have hrev' : getF (setF w 6 6 1) 7 7 = 0 := (getF_setF_bit_ne w 6 7 1 (by decide) (by decide)).trans hrev
  obtain ⟨hkept, hdir⟩ := dirCtlWritten_kept hd hon hw'
  simp only [wrDirCtl_eq hd hon hw', hrev', getF_setF_bit w 6 (by decide), if_true, zero_ne_one, if_false]
  rw [← hkept.switchNow_eq]
  exact askSwitch_toB (by rw [hdir, hgap]) ((hkept.pathOk true).trans hok) (by rw [hdir, honA])

theorem wrDirCtl_reverts (hspl : getF w 6 6 = 0) (honB : (s.hdir d).onB = true) (hok : s.pathOk d false = true) :
    ((s.wrDirCtl d (setF w 7 7 1)).hdir d).hostHold = false ∧ ((s.wrDirCtl d (setF w 7 7 1)).hdir d).onB = !switchNow s d ∧
      ((s.wrDirCtl d (setF w 7 7 1)).hdir d).pend = if switchNow s d = true then none else some false := by
  have hw' : getF (setF w 7 7 1) 0 0 = 1 := (getF_setF_bit_ne w 7 0 1 (by decide) (by decide)).trans hw
  have hspl' : getF (setF w 7 7 1) 6 6 = 0 := (getF_setF_bit_ne w 7 6 1 (by decide) (by decide)).trans hspl
  obtain ⟨hkept, hdir⟩ := dirCtlWritten_kept hd hon hw'
  simp only [wrDirCtl_eq hd hon hw', hspl', getF_setF_bit w 7 (by decide), if_true, zero_ne_one, if_false]
  rw [← hkept.switchNow_eq]
  exact askSwitch_toA (by rw [hdir, hgap]) ((hkept.pathOk false).trans hok) (by rw [hdir, honB])

end

/-- A qualified direction that nothing holds reverts by itself (R245). -/
theorem autoRevert_reverts {s : State} {d : Nat} (hqual : s.qualified d s.now = true) (honB : (s.hdir d).onB = true) (hgap : (s.hdir d).gap = false)
    (hok : s.pathOk d false = true) (hhold : (s.hdir d).hostHold = false) :
    (switchNow s d = true → ((s.autoRevert d).hdir d).onB = false ∧ ((s.autoRevert d).hdir d).qualFrom = none) ∧
      (switchNow s d = false → ((s.autoRevert d).hdir d).onB = true ∧ ((s.autoRevert d).hdir d).pend = some false) := by
  generalize ha : s.setHdir d { s.hdir d with pend := some false } = a
  have heq : s.autoRevert d = a.takeSwitch d := by
    rw [State.autoRevert, if_pos (by simp only [hqual, honB, hok, hhold, Bool.and_self, Bool.not_false]), ha]
  have hdir : a.hdir d = { s.hdir d with pend := some false } := by rw [← ha, hdir_set, if_pos rfl]
  have hnow : switchNow a d = switchNow s d := by rw [← ha]; exact (ServiceKept.setHdir d s { s.hdir d with pend := some false } rfl).switchNow_eq
  have hgapA : (a.hdir d).gap = false := by rw [hdir]; exact hgap
  have hpend : (a.hdir d).pend = some false := by rw [hdir]
  rw [heq]
  refine ⟨fun h => ?now, fun h => ?waits⟩
  case now =>
    rw [takeSwitch_toA hgapA hpend (hnow.trans h), revert_hdir]
    exact ⟨rfl, rfl⟩
  case waits =>
    rw [takeSwitch_waits hgapA hpend (hnow.trans h), hdir]
    exact ⟨honB, rfl⟩

/-- With both paths as healthy as last evaluated, an evaluation finds nothing new. -/
theorem evalHealth_steady {s : State} {d : Nat} (c : Nat) (h : ∀ b, ((s.hdir d).path b).healthy = s.pathOk d b) :
    s.evalHealth d c = s.setHdir d (s.hdir d) := by
  have ha : s.pathOk d false = (s.hdir d).a.healthy := (h false).symm
  have hb : s.pathOk d true = (s.hdir d).b.healthy := (h true).symm
  unfold State.evalHealth
  rw [ha, hb]
  exact if_pos ⟨rfl, rfl⟩

/-- A newer container is delivered: its frame is the last of its position. -/
theorem deliver_hdir {s : State} {d c j p : Nat} (h : ∀ k, Tab.get? (s.hdir d).last c = some k → k < j) :
    (s.deliver d c j p).hdir d = { s.hdir d with last := Tab.put (s.hdir d).last c j } := by
  unfold State.deliver
  dsimp only
  split_ifs with hold
  · exfalso
    split at hold
    · exact absurd (of_decide_eq_true hold) (Nat.not_le.mpr (h _ ‹_›))
    · cases hold
  · rw [hdir_set, if_pos rfl, hdir_of (State.eachServed_touches ..) rfl]

/-- What a direction reads as once a good container is noted on its path. -/
def notedDir (x : HDir) (onB : Bool) (c j p : Nat) : HDir :=
  let y := { x with good := Tab.put x.good c true }.setPath onB ((x.path onB).note c j p)
  y.setPath onB { y.path onB with badLeft := (y.path onB).badLeft - 1 }

theorem note_serves (p : HPath) (c j x : Nat) : pathServes (p.note c j x) = pathServes p ∧ (p.note c j x).healthy = p.healthy := by
  unfold HPath.note
  split_ifs <;> exact ⟨rfl, rfl⟩

theorem path_setPath_ne (x : HDir) {a b : Bool} (h : b ≠ a) (p : HPath) : (x.setPath a p).path b = x.path b := by
  cases a <;> cases b
  · exact absurd rfl h
  · rfl
  · rfl
  · exact absurd rfl h

/-- A good container on a path with none wanted changes neither its service nor its health. -/
theorem notedDir_serves {x : HDir} {onB : Bool} (c j p : Nat) (h : (x.path onB).badLeft = 0) (b : Bool) :
    pathServes ((notedDir x onB c j p).path b) = pathServes (x.path b) ∧ ((notedDir x onB c j p).path b).healthy = (x.path b).healthy := by
  obtain ⟨hserves, hhealthy⟩ := note_serves (x.path onB) c j p
  unfold notedDir
  dsimp only
  by_cases hb : b = onB
  · subst hb
    have hbad : ((x.path b).note c j p).badLeft = 0 := (congrArg (·.2.2) hserves).trans h
    rw [path_setPath, path_setPath, hbad]
    exact ⟨by rw [← hserves, pathServes, pathServes, hbad], hhealthy⟩
  · rw [path_setPath_ne _ hb, path_setPath_ne _ hb]
    exact ⟨rfl, rfl⟩

theorem notedDir_keeps (x : HDir) (onB : Bool) (c j p : Nat) :
    (notedDir x onB c j p).last = x.last ∧ (notedDir x onB c j p).gap = x.gap ∧ (notedDir x onB c j p).pend = x.pend := by
  cases onB <;> exact ⟨rfl, rfl, rfl⟩

/-- A container taken from its path is delivered and noted, and health and a switch asked for are seen to. -/
theorem goodContainer_eq {s : State} {d c j p : Nat} {onB : Bool} (htakes : s.takes d onB = true) :
    ∃ a : State, s.goodContainer d c onB j p = (a.evalHealth d 1).takeSwitch d ∧ a.hdir d = notedDir ((s.deliver d c j p).hdir d) onB c j p ∧
      a.regs = s.regs ∧ a.mode = s.mode ∧ ∀ l, laneCore (a.lane l) = laneCore (s.lane l) := by
  have hcount : s.goodContainer d c onB j p = (((s.deliver d c j p).setHdir d
      (({ (s.deliver d c j p).hdir d with good := Tab.put ((s.deliver d c j p).hdir d).good c true } : HDir).setPath onB
        ((((s.deliver d c j p).hdir d).path onB).note c j p))).countCheck d onB true).takeSwitch d := by
    unfold State.goodContainer
    rw [htakes, if_pos rfl]
  rw [hcount, State.countCheck, hdir_set, if_pos rfl]
  refine ⟨_, rfl, (hdir_set ..).trans (if_pos rfl), (State.deliver_touches s d c j p).keeps .regs rfl, (State.deliver_touches s d c j p).keeps .mode rfl, ?_⟩
  exact ((hKeeps.refl s).deliver d c j p).lane

/-- A newer good container of a healthy path is the last delivered of its position (R237). -/
theorem goodContainer_last {s : State} {d c j p : Nat} {onB : Bool} (htakes : s.takes d onB = true) (hpend : (s.hdir d).pend = none)
    (hhealth : ∀ b, ((s.hdir d).path b).healthy = s.pathOk d b) (hnew : ∀ k, Tab.get? (s.hdir d).last c = some k → k < j) :
    Tab.get? ((s.goodContainer d c onB j p).hdir d).last c = some j := by
  obtain ⟨⟨hhealthy, hgap⟩, -⟩ := show (((s.hdir d).path onB).healthy = true ∧ (s.hdir d).gap = false) ∧ _ by
    simpa only [State.takes, Bool.and_eq_true, Bool.not_eq_true'] using htakes
  have hbad : ((s.hdir d).path onB).badLeft = 0 := by
    rw [hhealth, State.pathOk, Bool.and_eq_true, decide_eq_true_eq] at hhealthy
    exact hhealthy.2
  obtain ⟨a, heq, hdir, hregs, hmode, hlane⟩ := goodContainer_eq (c := c) (j := j) (p := p) htakes
  rw [deliver_hdir hnew] at hdir
  generalize hx : ({ s.hdir d with last := Tab.put (s.hdir d).last c j } : HDir) = x at hdir
  have hxpath (b : Bool) : x.path b = (s.hdir d).path b := by rw [← hx]; cases b <;> rfl
  obtain ⟨hlast, hgapA, hpendA⟩ := notedDir_keeps x onB c j p
  have hserves := notedDir_serves (x := x) c j p (by rw [hxpath, hbad])
  have hok (b : Bool) : ((a.hdir d).path b).healthy = a.pathOk d b := by
    rw [pathOk_congr (s := s) (t := a) (by simp only [State.dirOn, State.fld_congr hregs])
      (fun l => by simp only [State.laneTest, State.fld_congr hregs, hmode]) hlane (by rw [hdir, (hserves b).1, hxpath]), hdir, (hserves b).2, hxpath, hhealth]
  have hset : (a.setHdir d (a.hdir d)).hdir d = a.hdir d := (hdir_set ..).trans (if_pos rfl)
  rw [heq, evalHealth_steady 1 hok, takeSwitch_none (by rw [hset, hdir, hgapA, ← hx]; exact hgap) (by rw [hset, hdir, hpendA, ← hx]; exact hpend), hset, hdir, hlast, ← hx]
  exact get?_put ..

theorem unsent_relay (s : State) (d c j : Nat) (p : Option Nat) : unsent (s.relay d c j p) = unsent s := by
  unfold State.relay
  refine unsent_foldl (fun a e => ?_) _ s
  dsimp only
  split_ifs
  · exact unsent_putTx ..
  · rfl

/-- A relay of a container changes nothing that the direction's own reception reads. -/
theorem relay_reads {β : Type} (f : State → β) (hf : ∀ a, f (unsent a) = f a) (s : State) (d c j : Nat) (p : Option Nat) : f (s.relay d c j p) = f s := by
  rw [← hf, unsent_relay, hf]

theorem container_last {s : State} {d c j p : Nat} {onB : Bool} (hserve : s.inService d onB = true) (htakes : s.takes d onB = true)
    (hpend : (s.hdir d).pend = none) (hhealth : ∀ b, ((s.hdir d).path b).healthy = s.pathOk d b)
    (hnew : ∀ k, Tab.get? (s.hdir d).last c = some k → k < j) (hvalid : s.rxValid d c = true) (hok : s.containerOk d c j p = true) :
    Tab.get? ((s.container d onB c j (some p)).hdir d).last c = some j := by
  have hr {β : Type} (f : State → β) (hf : ∀ a, f (unsent a) = f a) : f (s.relay d c j (some p)) = f s := relay_reads f hf s d c j (some p)
  have hgood : s.container d onB c j (some p) = (s.relay d c j (some p)).goodContainer d c onB j p := by
    unfold State.container
    simp only [hserve, htakes, hr (·.rxValid d c) (fun _ => rfl), hr (·.containerOk d c j p) (fun _ => rfl), hvalid, hok, if_true, Bool.true_eq_false, if_false]
  have hdir : (s.relay d c j (some p)).hdir d = s.hdir d := hr (·.hdir d) fun _ => rfl
  rw [hgood]
  refine goodContainer_last ((hr (·.takes d onB) fun _ => rfl).trans htakes) (by rw [hdir, hpend]) (fun b => ?_) (by rw [hdir]; exact hnew)
  rw [hdir, hhealth]
  exact (hr (·.pathOk d b) fun _ => rfl).symm

/-- Settles O33: containers through delivery, health and the switch; switches by what is out of a frame; the send clause by its own law. -/
theorem hitchFramesAndSplices : Obligations.HitchFramesAndSplices := by
  unfold Obligations.HitchFramesAndSplices
  intro s t d
  refine ⟨fun onB c j p hserve htakes hpend hhealth hnew hvalid hok => ?delivered, fun onB c j p hserve => ?out,
    fun hqual honB hgap hok hhold => ?revert, fun w hup hon hw hrev honA hgap hok => ?splice, fun w hup hon hw hspl honB hgap hok => ?hostRevert, hitchFrames_send s d⟩
  case delivered =>
    exact ⟨_, rfl, container_last (s := s.clockTo (s.arrival d onB c j)) hserve htakes hpend hhealth hnew hvalid hok, now_of (State.container_touches ..) rfl⟩
  case out =>
    have hout : (s.clockTo (s.arrival d onB c j)).container d onB c j (p.map (·.toNat)) = s.clockTo (s.arrival d onB c j) := if_pos hserve
    exact ⟨_, congrArg Host.Outcome.next hout, rfl, rfl⟩
  case revert =>
    obtain ⟨hnow, hwaits⟩ := autoRevert_reverts (s := s.at t) hqual honB hgap hok hhold
    exact ⟨fun h => ⟨_, rfl, hnow h⟩, fun h => ⟨_, rfl, hwaits h⟩⟩
  case splice =>
    exact ⟨_, congrArg Host.Outcome.next (State.hubWrite_up s t _ hup), wrDirCtl_splices (s := s.at t) d.2 hon hw hgap hrev honA hok⟩
  case hostRevert =>
    exact ⟨_, congrArg Host.Outcome.next (State.hubWrite_up s t _ hup), wrDirCtl_reverts (s := s.at t) d.2 hon hw hgap hspl honB hok⟩

end Sys2Proof
end
